-- ==== Sys2Proof/Word.lean ====
section
/-! DEFINITION. The word types of the Aelat Phiril and nothing else: names for the widths the spec uses. -/

namespace Sys2Proof

/-- A byte of a scratchpad, of device memory or of host memory (R4, R244). -/
abbrev Byte := BitVec 8

/-- A scalar register, an address register, an op word (R9, R11, R35). -/
abbrev Word := BitVec 64

/-- The value of an IMM word (R35). -/
abbrev Imm56 := BitVec 56

/-- A register number in a 6-bit field (R43, R44). -/
abbrev Reg6 := BitVec 6

/-- A predicate register: one bit for each byte lane (R14). -/
abbrev PredBits := BitVec 512

/-- A vector register: 512 bytes (R15). -/
abbrev VecBits := BitVec 4096

end Sys2Proof
end

