-- ==== Sys2Proof/Syntax.lean ====
section
/-! DEFINITION. The syntax of the machine: the fields of every payload format (R35-R50), of a sequencer
microword (R319), of a command packet (R361), the operands of the machine's own events (spec/95), and the ONE
inductive `Instr` with a constructor for every row of spec/opcode_table.json, in its order. -/

namespace Sys2Proof

/-- The executing units of R36; codes 11 to 14 are reserved and code 15 (IMM) is no unit. -/
inductive UnitCode
  | sy | s0 | s1 | ld | st | v0 | v1 | v2 | sf | mx | en
  deriving DecidableEq, Repr

/-- The unit's code of R36. -/
def UnitCode.code : UnitCode → BitVec 4
  | .sy => 0 | .s0 => 1 | .s1 => 2 | .ld => 3 | .st => 4 | .v0 => 5
  | .v1 => 6 | .v2 => 7 | .sf => 8 | .mx => 9 | .en => 10

/-- The unit a code names, none for the reserved codes and for IMM (R36). -/
def UnitCode.ofCode (c : BitVec 4) : Option UnitCode :=
  match c.toNat with
  | 0 => some .sy | 1 => some .s0 | 2 => some .s1 | 3 => some .ld | 4 => some .st | 5 => some .v0
  | 6 => some .v1 | 7 => some .v2 | 8 => some .sf | 9 => some .mx | 10 => some .en
  | _ => none

/-- An IMM word after the word it extends (R35, R38): its own STOP and STALL, and VALUE. -/
structure ImmWord where
  stop  : Bool
  stall : BitVec 3
  value : Imm56
  deriving DecidableEq, Repr

/-- What every op word carries outside its format fields (R35, R40, R43), with the IMM word that follows it. -/
structure Head where
  unit  : UnitCode
  stop  : Bool
  stall : BitVec 3
  guard : BitVec 4
  gneg  : Bool
  imm   : Option ImmWord
  deriving DecidableEq, Repr

/-- Format R (R43). -/
structure RWord where
  hd : Head
  dst : Reg6
  a : Reg6
  b : Reg6
  c : Reg6
  ty : BitVec 4
  rnd : BitVec 2
  fn : BitVec 13
  deriving DecidableEq, Repr

/-- Format I (R43). -/
structure IWord where
  hd : Head
  dst : Reg6
  a : Reg6
  ty : BitVec 4
  rnd : BitVec 2
  fn : BitVec 6
  imm19 : BitVec 19
  deriving DecidableEq, Repr

/-- Format L (R43): the operand stands in the IMM word; `low` is [30:0], which must be zero. -/
structure LWord where
  hd : Head
  dst : Reg6
  a : Reg6
  low : BitVec 31
  deriving DecidableEq, Repr

/-- Format M (R43). -/
structure MWord where
  hd : Head
  d : Reg6
  areg : BitVec 4
  amode : BitVec 2
  b : Reg6
  c : Reg6
  ty : BitVec 4
  disp : BitVec 15
  deriving DecidableEq, Repr

/-- Format X (R43); `z` is [38:37], which must be zero. -/
structure XWord where
  hd : Head
  td : BitVec 4
  z : BitVec 2
  aa : BitVec 4
  ab : BitVec 4
  ax : BitVec 4
  vi : Reg6
  tya : BitVec 4
  tyb : BitVec 4
  fn : BitVec 11
  deriving DecidableEq, Repr

/-- Format E (R43). -/
structure EWord where
  hd : Head
  tok : Reg6
  a : Reg6
  b : Reg6
  c : Reg6
  q : BitVec 3
  scope : BitVec 3
  order : BitVec 2
  fn : BitVec 11
  deriving DecidableEq, Repr

/-- Format Y.T, the branch layout (R43, R49). -/
structure YTWord where
  hd : Head
  d : Reg6
  a : Reg6
  p : BitVec 4
  disp : BitVec 27
  deriving DecidableEq, Repr

/-- Format Y.C, the count layout (R43, R50). -/
structure YCWord where
  hd : Head
  d : Reg6
  a : Reg6
  nm1 : BitVec 6
  csrc : Bool
  cnt : BitVec 24
  deriving DecidableEq, Repr

/-- Format Y.S, the synchronisation layout (R43), which also carries format Y with no variant (R62). -/
structure YSWord where
  hd : Head
  d : Reg6
  a : Reg6
  b : Reg6
  scope : BitVec 3
  order : BitVec 2
  fn : BitVec 20
  deriving DecidableEq, Repr

/-- A microword of the attention sequencer but for its MOP, which is the constructor (R319). -/
structure MicroWord where
  ts : BitVec 4
  tOut : BitVec 4
  n : BitVec 10
  cond : BitVec 4
  resv : BitVec 6
  offb : BitVec 32
  offa : BitVec 32
  deriving DecidableEq, Repr

/-- A command packet but for its OP, which is the constructor, with the stream it came on (R361). The three
`resv` fields are bytes 2-3, bytes 8-11 [31:12] and bytes 12-15. -/
structure Packet where
  stream : BitVec 3
  resvA : BitVec 16
  seq : BitVec 32
  len : BitVec 12
  resvB : BitVec 20
  resvC : BitVec 32
  arg0 : Word
  arg1 : Word
  payload : List Byte
  deriving DecidableEq, Repr

/-- The arrival of a code line for a core (R275); `badWord` names a word of the line whose parity fails, and
`badAgain` says that the refetch fails too (R41). -/
structure FetchLine where
  core : Fin 208
  line : Nat
  badWord : Option Nat
  badAgain : Bool
  deriving DecidableEq, Repr

/-- A translation request of a cluster's copy engine (R271, R272). -/
structure WalkReq where
  cluster : Fin 48
  asid : BitVec 8
  va : Nat
  code : Bool
  write : Bool
  deriving DecidableEq, Repr

/-- An outstanding engine command of a core. -/
structure CmdRef where
  core : Fin 208
  id : Nat
  deriving DecidableEq, Repr

/-- One core's copy of a `CPYM` (R202). -/
structure CopyRef where
  core : Fin 208
  id : Nat
  target : Fin 200
  deriving DecidableEq, Repr

/-- The end of a vote of a step group (R94, R336). -/
structure VoteEnd where
  handle : BitVec 32
  lost : Bool
  deriving DecidableEq, Repr

/-- Far-page data that arrives for a promotion (R315). -/
structure Promotion where
  space : BitVec 4
  header : Nat
  version : BitVec 32
  block : Nat
  data : List Byte
  prom : Option CmdRef
  /-- the stream of the task that started it (R365) -/
  host : BitVec 3
  deriving DecidableEq, Repr

/-- A context of a core. -/
structure CtxRef where
  core : Fin 208
  ctx : Fin 4
  deriving DecidableEq, Repr

/-- A forwarding entry of a core (R300). -/
structure FwdRef where
  core : Fin 200
  task : Nat
  deriving DecidableEq, Repr

/-- A held logical entry of a group, with the cycle its hold began (R402). -/
structure HoldRef where
  group : Fin 8
  entry : Fin 24
  since : Nat
  deriving DecidableEq, Repr

/-- Where a soft error lies (R353). -/
inductive ErrorPlace
  | corePool (core : Fin 200) (bank : Nat) (row : Nat)
  | deviceMemory (pa : Nat)
  | codeBuffer (core : Fin 208) (line : Nat)
  | tlb (cluster : Fin 48) (index : Nat)
  | walkCache (group : Fin 8) (index : Nat)
  | clusterSlice (cluster : Fin 48) (cmd : Option CmdRef)
  | controlPad (group : Fin 8)
  deriving DecidableEq, Repr

/-- What a scrub slot finds, or with `met` what a core slot or an engine meets before it (R352, R353). -/
structure SoftError where
  place : ErrorPlace
  uncorrectable : Bool
  met : Bool
  deriving DecidableEq, Repr

/-- A message from the fabric that is performed at this device (R359), or the answer of a peer or host to a
request of this device. -/
inductive FabMsg
  | read (asid : BitVec 8) (addr len : Nat)
  | write (asid : BitVec 8) (addr : Nat) (data : List Byte)
  | atom (asid : BitVec 8) (addr : Nat) (op : BitVec 3) (ty : BitVec 4) (x y : Word)
  | atomk (asid : BitVec 8) (addr : Nat) (key : Word) (row : List (BitVec 32))
  | merge (asid : BitVec 8) (addr : Nat) (wide : Bool) (word : Word) (g : BitVec 32)
  | vote (handle : BitVec 32) (member : Nat) (commit : Bool)
  | coll (group : BitVec 32) (bucket : Option (BitVec 9)) (member : Nat) (cmd : BitVec 2) (op : BitVec 2)
      (ty : BitVec 4) (count : Nat) (data : List Byte) (arming : Nat)
  | collFail (group : BitVec 32) (bucket : Option (BitVec 9)) (member : Nat) (arming : Nat)
  /-- bytes of the firmware image from an offset on, in the answer of the boot server (R391) -/
  | image (at_ : Nat) (data : List Byte)
  | answer (cmd : CmdRef) (err : BitVec 7) (value : BitVec 56) (data : List Byte)
  | masterDeclared (other : Bool)
  | debugAnswer (stream : BitVec 3) (seq : BitVec 32) (op : BitVec 16) (status : Byte) (value : Word) (data : List Byte)
  deriving DecidableEq, Repr

/-- A message as it arrives: the endpoint it comes from and, for a request that wants an answer, the asking command of
that endpoint. -/
structure FabEvent where
  src : Nat
  by_ : Option CmdRef
  msg : FabMsg
  deriving DecidableEq, Repr

/-- A message the transport gives up (R359). -/
inductive LostMsg
  /-- a message of a command to the endpoint given -/
  | command (cmd : CmdRef) (endpoint : Nat)
  | vote (handle : BitVec 32)
  | promotion (space : BitVec 4) (header block : Nat)
  /-- a message of the fetch of the firmware image (R391) -/
  | image
  deriving DecidableEq, Repr

/-- What manufacture and the boot scan fix when power is applied (R388, R389, R396): the compute cores whose scan
fails. -/
structure PowerOn where
  failing : List (Fin 200)
  deriving DecidableEq, Repr

/-- The operands of an event of the machine. A host command that waited behind another comes as `held`, one that waited
itself comes `again`; a debug request that a debug master forwards comes from the master's endpoint (R383). -/
inductive EvArg
  | none
  | held
  | again
  | master (endpoint : Nat) (again : Bool)
  | core (c : Fin 208)
  | line (e : FetchLine)
  | walk (e : WalkReq)
  | cmd (e : CmdRef)
  | copy (e : CopyRef)
  | bucket (b : BitVec 9)
  | vote (e : VoteEnd)
  | fabric (e : FabEvent)
  | promotion (e : Promotion)
  | ctx (e : CtxRef)
  | task (t : Nat)
  | fwd (e : FwdRef)
  | milliWatt (n : Nat)
  | powerOn (e : PowerOn)
  | image (bytes : List Byte)
  | group (g : Fin 8)
  | hold (e : HoldRef)
  | soft (e : SoftError)
  | lost (e : LostMsg)
  deriving DecidableEq, Repr

/-- One constructor for every row of spec/opcode_table.json: the op words with their fields; the sequencer's
micro-operations, whose fields stand in the sequencer's microword register; the host's commands and debug requests,
whose packet stands in the command endpoint; and the machine's own events, whose operands stand beside them in the
agenda. -/
inductive Instr
  /-- NOP (R63). -/
  | nop (w : YSWord)
  /-- BR (R77). -/
  | br (w : YTWord)
  /-- BRP (R77). -/
  | brp (w : YTWord)
  /-- BRS_CC (R77). -/
  | brs (w : YTWord)
  /-- JMPI (R77). -/
  | jmpi (w : YSWord)
  /-- CALL (R77). -/
  | call (w : YTWord)
  /-- RET (R77). -/
  | ret (w : YSWord)
  /-- LOOP (R79). -/
  | loop (w : YCWord)
  /-- REP (R81). -/
  | rep (w : YCWord)
  /-- WAIT_TOK (R82). -/
  | waitTok (w : YSWord)
  /-- WAIT_CYC (R82). -/
  | waitCyc (w : YSWord)
  /-- RETIRE (R87). -/
  | retire (w : YSWord)
  /-- YIELD (R88). -/
  | yield (w : YSWord)
  /-- LAUNCH (R89). -/
  | launch (w : YSWord)
  /-- ENQ (R89). -/
  | enq (w : YSWord)
  /-- TRAP (R90). -/
  | trap (w : YSWord)
  /-- TREN (R91). -/
  | tren (w : YSWord)
  /-- TRET (R91). -/
  | tret (w : YSWord)
  /-- BAR_INIT (R85). -/
  | barInit (w : YSWord)
  /-- BAR_ARRIVE (R85). -/
  | barArrive (w : YSWord)
  /-- BAR_WAIT (R85). -/
  | barWait (w : YSWord)
  /-- DRAIN (R82). -/
  | drain (w : YSWord)
  /-- FENCE_Q (R83). -/
  | fenceQ (w : YSWord)
  /-- MFC (R93). -/
  | mfc (w : YSWord)
  /-- MTC (R93). -/
  | mtc (w : YSWord)
  /-- MTC_TSTAT (R93). -/
  | mtcTstat (w : YSWord)
  /-- MTC_WAITLIM (R29). -/
  | mtcWaitlim (w : YSWord)
  /-- STEP_C (R94). -/
  | stepC (w : YSWord)
  /-- SCAN_START (R103). -/
  | scanStart (w : YSWord)
  /-- SCAN_ABORT (R103). -/
  | scanAbort (w : YSWord)
  /-- SCAN_READ (R103). -/
  | scanRead (w : YSWord)
  /-- CMAP_SET (R104). -/
  | cmapSet (w : YSWord)
  /-- SQPOP (R105). -/
  | sqpop (w : YSWord)
  /-- DBG_HALT (R106). -/
  | dbgHalt (w : YSWord)
  /-- DBG_RESUME (R106). -/
  | dbgResume (w : YSWord)
  /-- ADD (R95). -/
  | add (w : RWord)
  /-- SUB (R95). -/
  | sub (w : RWord)
  /-- MUL (R95). -/
  | mul (w : RWord)
  /-- MULH (R95). -/
  | mulh (w : RWord)
  /-- DIV (R96). -/
  | div (w : RWord)
  /-- REM (R96). -/
  | rem (w : RWord)
  /-- ADDI (R97). -/
  | addi (w : IWord)
  /-- MOVI (R97). -/
  | movi (w : IWord)
  /-- MOVL (R97). -/
  | movl (w : LWord)
  /-- MOV (R95). -/
  | mov (w : RWord)
  /-- AND (R95). -/
  | and (w : RWord)
  /-- OR (R95). -/
  | or (w : RWord)
  /-- XOR (R95). -/
  | xor (w : RWord)
  /-- ANDN (R95). -/
  | andn (w : RWord)
  /-- SHL (R95). -/
  | shl (w : RWord)
  /-- SHR (R95). -/
  | shr (w : RWord)
  /-- SRA (R95). -/
  | sra (w : RWord)
  /-- ROT (R95). -/
  | rot (w : RWord)
  /-- CLZ (R95). -/
  | clz (w : RWord)
  /-- POPC (R95). -/
  | popc (w : RWord)
  /-- MIN (R95). -/
  | min (w : RWord)
  /-- MAX (R95). -/
  | max (w : RWord)
  /-- SEL (R95). -/
  | sel (w : RWord)
  /-- CMP_S (R95). -/
  | cmpS (w : RWord)
  /-- CMP_P (R95). -/
  | cmpP (w : RWord)
  /-- AADD (R98). -/
  | aadd (w : IWord)
  /-- AINC (R98). -/
  | ainc (w : IWord)
  /-- AMOD (R98). -/
  | amod (w : IWord)
  /-- ASET_A (R98). -/
  | asetA (w : RWord)
  /-- ASET_S (R98). -/
  | asetS (w : RWord)
  /-- FADD (R99). -/
  | fadd (w : RWord)
  /-- FSUB (R99). -/
  | fsub (w : RWord)
  /-- FMUL (R99). -/
  | fmul (w : RWord)
  /-- FMA (R99). -/
  | fma (w : RWord)
  /-- FMIN (R99). -/
  | fmin (w : RWord)
  /-- FMAX (R99). -/
  | fmax (w : RWord)
  /-- FCMP_S (R99). -/
  | fcmpS (w : RWord)
  /-- FCMP_P (R99). -/
  | fcmpP (w : RWord)
  /-- FCVT (R100). -/
  | fcvt (w : RWord)
  /-- PAND (R101). -/
  | pand (w : RWord)
  /-- POR (R101). -/
  | por (w : RWord)
  /-- PXOR (R101). -/
  | pxor (w : RWord)
  /-- PNOT (R101). -/
  | pnot (w : RWord)
  /-- PMOV (R101). -/
  | pmov (w : RWord)
  /-- LD_S (R165). -/
  | ldS (w : MWord)
  /-- LD_V (R165). -/
  | ldV (w : MWord)
  /-- LD_VB (R165). -/
  | ldVB (w : MWord)
  /-- LD_VG (R166). -/
  | ldVG (w : MWord)
  /-- LD_VQ (R167). -/
  | ldVQ (w : MWord)
  /-- LDT (R169). -/
  | ldt (w : MWord)
  /-- LD_SW (R171). -/
  | ldSW (w : MWord)
  /-- AMO_ADD (R177). -/
  | amoAdd (w : MWord)
  /-- AMO_MIN (R177). -/
  | amoMin (w : MWord)
  /-- AMO_MAX (R177). -/
  | amoMax (w : MWord)
  /-- AMO_XCHG (R177). -/
  | amoXchg (w : MWord)
  /-- AMO_CAS (R177). -/
  | amoCas (w : MWord)
  /-- PATLD (R172). -/
  | patld (w : MWord)
  /-- ST_S (R173). -/
  | stS (w : MWord)
  /-- ST_V (R173). -/
  | stV (w : MWord)
  /-- ST_VS (R174). -/
  | stVS (w : MWord)
  /-- ST_VC (R175). -/
  | stVC (w : MWord)
  /-- ST_SW (R176). -/
  | stSW (w : MWord)
  /-- VADD (R128). -/
  | vadd (w : RWord)
  /-- VSUB (R128). -/
  | vsub (w : RWord)
  /-- VADDS (R128). -/
  | vadds (w : RWord)
  /-- VSUBS (R128). -/
  | vsubs (w : RWord)
  /-- VMUL (R128). -/
  | vmul (w : RWord)
  /-- VMULH (R128). -/
  | vmulh (w : RWord)
  /-- VMAD (R128). -/
  | vmad (w : RWord)
  /-- VDOT4 (R129). -/
  | vdot4 (w : RWord)
  /-- VAND (R128). -/
  | vand (w : RWord)
  /-- VOR (R128). -/
  | vor (w : RWord)
  /-- VXOR (R128). -/
  | vxor (w : RWord)
  /-- VSHL (R128). -/
  | vshl (w : RWord)
  /-- VSHR (R128). -/
  | vshr (w : RWord)
  /-- VSRA (R128). -/
  | vsra (w : RWord)
  /-- VMIN (R128). -/
  | vmin (w : RWord)
  /-- VMAX (R128). -/
  | vmax (w : RWord)
  /-- VABS (R128). -/
  | vabs (w : RWord)
  /-- VNEG (R128). -/
  | vneg (w : RWord)
  /-- VCMP_CC (R131). -/
  | vcmp (w : RWord)
  /-- VSEL (R132). -/
  | vsel (w : RWord)
  /-- VMOV (R131). -/
  | vmov (w : RWord)
  /-- VBCAST_S (R131). -/
  | vbcastS (w : RWord)
  /-- VBCAST_E (R131). -/
  | vbcastE (w : RWord)
  /-- VFADD (R130). -/
  | vfadd (w : RWord)
  /-- VFSUB (R130). -/
  | vfsub (w : RWord)
  /-- VFMUL (R130). -/
  | vfmul (w : RWord)
  /-- VFMA (R130). -/
  | vfma (w : RWord)
  /-- VFMIN (R130). -/
  | vfmin (w : RWord)
  /-- VFMAX (R130). -/
  | vfmax (w : RWord)
  /-- VFABS (R130). -/
  | vfabs (w : RWord)
  /-- VFCMP_CC (R131). -/
  | vfcmp (w : RWord)
  /-- VCVT (R135). -/
  | vcvt (w : RWord)
  /-- VPACK (R136). -/
  | vpack (w : RWord)
  /-- VUNPK (R136). -/
  | vunpk (w : RWord)
  /-- VNARROW (R137). -/
  | vnarrow (w : RWord)
  /-- VRED_ADD (R138). -/
  | vredAdd (w : RWord)
  /-- VRED_MAX (R138). -/
  | vredMax (w : RWord)
  /-- VRED_MIN (R138). -/
  | vredMin (w : RWord)
  /-- VSCAN_ADD (R138). -/
  | vscanAdd (w : RWord)
  /-- VSHUF (R140). -/
  | vshuf (w : RWord)
  /-- PATSWAP (R141). -/
  | patswap (w : RWord)
  /-- VPERM (R142). -/
  | vperm (w : RWord)
  /-- VCOMPACT (R143). -/
  | vcompact (w : RWord)
  /-- VEXPAND (R145). -/
  | vexpand (w : RWord)
  /-- VMAP_SET (R146). -/
  | vmapSet (w : RWord)
  /-- VMAP_COPY (R146). -/
  | vmapCopy (w : RWord)
  /-- VMAP_OFF (R146). -/
  | vmapOff (w : RWord)
  /-- VMAP_SLICE (R146). -/
  | vmapSlice (w : RWord)
  /-- VMAP_TR (R146). -/
  | vmapTr (w : RWord)
  /-- VMAP_NONE (R146). -/
  | vmapNone (w : RWord)
  /-- VMAP_TAG (R146). -/
  | vmapTag (w : RWord)
  /-- VCOORD (R147). -/
  | vcoord (w : RWord)
  /-- VNOISE (R149). -/
  | vnoise (w : RWord)
  /-- VMASKC_CAUSAL (R150). -/
  | vmaskcCausal (w : RWord)
  /-- VMASKC_BAND (R150). -/
  | vmaskcBand (w : RWord)
  /-- VMASKC_WIN (R150). -/
  | vmaskcWin (w : RWord)
  /-- VMASKC_LT (R150). -/
  | vmaskcLt (w : RWord)
  /-- VMASKC_GE (R150). -/
  | vmaskcGe (w : RWord)
  /-- VTOPK8 (R152). -/
  | vtopk8 (w : RWord)
  /-- VSORT_STEP (R153). -/
  | vsortStep (w : RWord)
  /-- VACR (R154). -/
  | vacr (w : RWord)
  /-- VACW (R155). -/
  | vacw (w : RWord)
  /-- VACW_ADD (R155). -/
  | vacwAdd (w : RWord)
  /-- VEXP2 (R156). -/
  | vexp2 (w : RWord)
  /-- VEXP (R156). -/
  | vexp (w : RWord)
  /-- VLOG2 (R156). -/
  | vlog2 (w : RWord)
  /-- VLN (R156). -/
  | vln (w : RWord)
  /-- VRCP (R326). -/
  | vrcp (w : RWord)
  /-- VRSQ (R156). -/
  | vrsq (w : RWord)
  /-- VSQRT (R156). -/
  | vsqrt (w : RWord)
  /-- VTANH (R156). -/
  | vtanh (w : RWord)
  /-- VSIGM (R156). -/
  | vsigm (w : RWord)
  /-- VERF (R156). -/
  | verf (w : RWord)
  /-- VSINCOS (R157). -/
  | vsincos (w : RWord)
  /-- VPOWS (R158). -/
  | vpows (w : RWord)
  /-- MMA (R181). -/
  | mma (w : XWord)
  /-- MMA_Z (R181). -/
  | mmaZ (w : XWord)
  /-- MMA_G (R182). -/
  | mmaG (w : XWord)
  /-- MMA_T (R183). -/
  | mmaT (w : XWord)
  /-- MMA_BS (R184). -/
  | mmaBS (w : XWord)
  /-- TZERO (R186). -/
  | tzero (w : XWord)
  /-- TLOAD (R186). -/
  | tload (w : XWord)
  /-- TMAP (R186). -/
  | tmap (w : XWord)
  /-- TWAIT (R186). -/
  | twait (w : XWord)
  /-- CPY (R200). -/
  | cpy (w : EWord)
  /-- CPYM (R202). -/
  | cpym (w : EWord)
  /-- CPYL (R203). -/
  | cpyl (w : EWord)
  /-- CPYL_TOPK (R204). -/
  | cpylTopk (w : EWord)
  /-- CPYH (R201). -/
  | cpyh (w : EWord)
  /-- ATOM_ADD (R205). -/
  | atomAdd (w : EWord)
  /-- ATOM_MIN (R205). -/
  | atomMin (w : EWord)
  /-- ATOM_MAX (R205). -/
  | atomMax (w : EWord)
  /-- ATOM_XCHG (R205). -/
  | atomXchg (w : EWord)
  /-- ATOM_CAS (R205). -/
  | atomCas (w : EWord)
  /-- ATOMK (R207). -/
  | atomk (w : EWord)
  /-- COLL_AR (R209). -/
  | collAR (w : EWord)
  /-- COLL_RS (R209). -/
  | collRS (w : EWord)
  /-- COLL_AG (R209). -/
  | collAG (w : EWord)
  /-- COLL_A2A (R209). -/
  | collA2A (w : EWord)
  /-- BKSET (R211). -/
  | bkset (w : EWord)
  /-- KICK (R212). -/
  | kick (w : EWord)
  /-- SIDX (R213). -/
  | sidx (w : EWord)
  /-- RTAB_COMMIT (R215). -/
  | rtabCommit (w : EWord)
  /-- KVLD (R221). -/
  | kvld (w : EWord)
  /-- KVAPP (R311). -/
  | kvapp (w : EWord)
  /-- KVREMAP (R223). -/
  | kvremap (w : EWord)
  /-- KVSHARE (R224). -/
  | kvshare (w : EWord)
  /-- KVPROM (R225). -/
  | kvprom (w : EWord)
  /-- PFXFIND (R226). -/
  | pfxfind (w : EWord)
  /-- PFXINS (R226). -/
  | pfxins (w : EWord)
  /-- ATTN (R227). -/
  | attn (w : EWord)
  /-- STNEW (R229). -/
  | stnew (w : EWord)
  /-- SPLICE (R230). -/
  | splice (w : EWord)
  /-- STPIN (R231). -/
  | stpin (w : EWord)
  /-- STUNPIN (R231). -/
  | stunpin (w : EWord)
  /-- CPYS (R232). -/
  | cpys (w : EWord)
  /-- SWCPY_IN (R237). -/
  | swcpyIn (w : EWord)
  /-- SWCPY_OUT (R237). -/
  | swcpyOut (w : EWord)
  /-- SWCPY_DEC (R237). -/
  | swcpyDec (w : EWord)
  /-- SWCPY_MERGE (R237). -/
  | swcpyMerge (w : EWord)
  /-- SWEEP (R238). -/
  | sweep (w : EWord)
  /-- FETCHKV (R320). -/
  | fetchkv
  /-- SCORE (R320). -/
  | score
  /-- SCALE (R320). -/
  | scale
  /-- MASK (R320). -/
  | mask
  /-- SMAX (R322). -/
  | smax
  /-- WEIGH (R322). -/
  | weigh
  /-- NEXT (R320). -/
  | seqNext
  /-- JUMP (R320). -/
  | jump
  /-- FLUSH (R320). -/
  | flush
  /-- END (R320). -/
  | seqEnd
  /-- SUBMIT (R363). -/
  | submit
  /-- MEMWR (R363). -/
  | memwr
  /-- MEMRD (R363). -/
  | memrd
  /-- ROOT (R363). -/
  | root
  /-- INVAL (R274). -/
  | inval
  /-- RESUME (R273). -/
  | resume
  /-- HUNBIND (R278). -/
  | hunbind
  /-- QCFG (R364). -/
  | qcfg
  /-- SCFG (R283). -/
  | scfg
  /-- KVCFG (R304). -/
  | kvcfg
  /-- SEQLOAD (R317). -/
  | seqload
  /-- STEPGRP (R335). -/
  | stepgrp
  /-- FTAB (R339). -/
  | ftab
  /-- COLLGRP (R368). -/
  | collgrp
  /-- RTABCFG (R373). -/
  | rtabcfg
  /-- DOMCFG (R360). -/
  | domcfg
  /-- ABORT (R363). -/
  | abort
  /-- ATTEST (R393). -/
  | attest
  /-- DHALT (R384). -/
  | dhalt
  /-- DRESUME (R384). -/
  | dresume
  /-- DREAD (R384). -/
  | dread
  /-- DBRK (R384). -/
  | dbrk
  /-- DPROF (R384). -/
  | dprof
  /-- DMASTER (R384). -/
  | dmaster
  /-- STATRING (R381). -/
  | statring
  /-- CAPTURE (R387). -/
  | capture
  /-- FRAMEREL (R384). -/
  | framerel
  /-- BUNDLE_DECODE (R71). -/
  | bundleDecode
  /-- CODE_FETCH_LINE (R275). -/
  | codeFetchLine
  /-- PAGE_WALK (R271). -/
  | pageWalk
  /-- ENGINE_START (R192). -/
  | engineStart
  /-- ENGINE_COMPLETE (R195). -/
  | engineComplete
  /-- CPYM_CORE_COPY (R202). -/
  | cpymCoreCopy
  /-- BUCKET_FIRE (R211). -/
  | bucketFire
  /-- STEP_VOTE_COMPLETE (R94). -/
  | stepVoteComplete
  /-- FABRIC_REQUEST (R359). -/
  | fabricRequest
  /-- PROMOTION_INSTALL (R315). -/
  | promotionInstall
  /-- REP_REPETITION (R81). -/
  | repRepetition
  /-- REPLAY_INJECT (R351). -/
  | replayInject
  /-- SCHED_PASS (R289). -/
  | schedPass
  /-- TASK_START (R33). -/
  | taskStart
  /-- TASK_COMPLETE (R285). -/
  | taskComplete
  /-- AGE_TICK (R288). -/
  | ageTick
  /-- GANG_RESERVE (R291). -/
  | gangReserve
  /-- SWAP_OUT (R294). -/
  | swapOut
  /-- TEAM_SAVED (R294). -/
  | teamSaved
  /-- FREEZE_BOUNDARY (R349). -/
  | freezeBoundary
  /-- BOUNDARY_STOP (R295). -/
  | boundaryStop
  /-- DEADLINE_EXPIRE (R297). -/
  | deadlineExpire
  /-- FORWARD_RETIRE (R300). -/
  | forwardRetire
  /-- AFR_UPDATE (R302). -/
  | afrUpdate
  /-- POWER_GATE (R398). -/
  | powerGate
  /-- POWER_HOLD (R398). -/
  | powerHold
  /-- THERMAL_TRIP (R399). -/
  | thermalTrip
  /-- POWER_ON (R388). -/
  | powerOn
  /-- FIRMWARE_ACCEPT (R391). -/
  | firmwareAccept
  /-- BOOT_RETRY (R391). -/
  | bootRetry
  /-- WATCHDOG_EXPIRE (R354). -/
  | watchdogExpire
  /-- SCAN_COMPLETE (R403). -/
  | scanComplete
  /-- SCAN_ABORT_COMPLETE (R103). -/
  | scanAbortComplete
  /-- HOLD_EXPIRE (R402). -/
  | holdExpire
  /-- SCRUB (R352). -/
  | scrub
  /-- PRECISE_STOP (R385). -/
  | preciseStop
  /-- SAMPLE (R386). -/
  | sample
  /-- REPLAY_SUBMIT (R387). -/
  | replaySubmit
  /-- RESTORE (R351). -/
  | restore
  /-- CYCLE_OF_WAIT_CYC_PASSES (R294). -/
  | waitCycPasses
  /-- FREEZE_ISSUE_HOLD (R349). -/
  | freezeIssueHold
  /-- MESSAGE_CANNOT_BE_DELIVERED (R359). -/
  | messageUndeliverable
  /-- POWER_REMOVED (R388). -/
  | powerRemoved
  deriving DecidableEq, Repr

/-- The causes of R348 that are raised; the reserved codes are never raised. -/
inductive Cause
  | illUnit
  | illOrder
  | illLen
  | illField
  | illOpc
  | illVreg
  | illTile
  | illAccbank
  | illCreg
  | badTarget
  | loopBody
  | badCount
  | barScope
  | stallShort
  | brWrap
  | mapBad
  | mapNone
  | statqLost
  | fpExc
  | blkFmt
  | bsSkip
  | atomkDup
  | spadRange
  | spadAlign
  | tokenBusy
  | mxGang
  | pageNp
  | pageRo
  | fetchPage
  | fetchNx
  | pteBad
  | paHole
  | asidBad
  | hostFault
  | kvRo
  | kvFar
  | kvPool
  | kvBad
  | seqFail
  | collFail
  | fabricFail
  | atomkKey
  | sidxAddr
  | coilRetire
  | swTrap
  | cmapBad
  | partBad
  | deadline
  | depUnder
  | gangAbort
  | predFail
  | doubleFault
  | eccCe
  | sramUe
  | hbmUe
  | opwParity
  | scanFail
  | watchdog
  | dbgStop
  | hostAbort
  deriving DecidableEq, Repr

/-- The code of R348. -/
def Cause.code : Cause → BitVec 7
  | .illUnit => 0x00
  | .illOrder => 0x01
  | .illLen => 0x02
  | .illField => 0x03
  | .illOpc => 0x04
  | .illVreg => 0x05
  | .illTile => 0x06
  | .illAccbank => 0x07
  | .illCreg => 0x08
  | .badTarget => 0x09
  | .loopBody => 0x0A
  | .badCount => 0x0B
  | .barScope => 0x0C
  | .stallShort => 0x0D
  | .brWrap => 0x0E
  | .mapBad => 0x10
  | .mapNone => 0x11
  | .statqLost => 0x12
  | .fpExc => 0x13
  | .blkFmt => 0x14
  | .bsSkip => 0x15
  | .atomkDup => 0x16
  | .spadRange => 0x20
  | .spadAlign => 0x21
  | .tokenBusy => 0x22
  | .mxGang => 0x25
  | .pageNp => 0x30
  | .pageRo => 0x31
  | .fetchPage => 0x32
  | .fetchNx => 0x33
  | .pteBad => 0x34
  | .paHole => 0x35
  | .asidBad => 0x36
  | .hostFault => 0x37
  | .kvRo => 0x40
  | .kvFar => 0x41
  | .kvPool => 0x42
  | .kvBad => 0x43
  | .seqFail => 0x44
  | .collFail => 0x45
  | .fabricFail => 0x46
  | .atomkKey => 0x47
  | .sidxAddr => 0x48
  | .coilRetire => 0x49
  | .swTrap => 0x50
  | .cmapBad => 0x51
  | .partBad => 0x52
  | .deadline => 0x53
  | .depUnder => 0x54
  | .gangAbort => 0x55
  | .predFail => 0x56
  | .doubleFault => 0x57
  | .eccCe => 0x58
  | .sramUe => 0x59
  | .hbmUe => 0x5A
  | .opwParity => 0x5B
  | .scanFail => 0x5C
  | .watchdog => 0x5D
  | .dbgStop => 0x5E
  | .hostAbort => 0x5F

/-- An event to come: an instruction of the table that is no op word, with its operands, or a command packet. -/
structure Event where
  instr : Instr
  arg : EvArg
  pkt : Option Packet
  deriving DecidableEq, Repr

end Sys2Proof
end

