-- ==== Sys2Proof/WellFormed.lean ====
section
/-! DEFINITION. Which instructions are well formed: the check of every field, reserved bit and IMM word that the
spec makes on an encoding by itself (ILL_FIELD of R51, R71 step 3.5), the field checks of a microword (R323) and
the argument and payload checks of a command packet (R363). What depends on the core or the partition (ILL_OPC by
Where, ILL_VREG, ILL_TILE, ILL_CREG) is checked by the machine at decode. -/

namespace Sys2Proof

/-- Width in bits of an R46 type code. Code 0 is 32 bits: the default that the effect rules give where they give one (R127), and for
`VSEL`, `VMOV`, `VBCAST`, `VPERM`, `VCOMPACT` and `VEXPAND`, whose rules give none, the model's own (DESIGN CHOICE, log 40). -/
def tyWidth (t : BitVec 4) : Nat :=
  match t.toNat with
  | 1 => 8 | 2 => 16 | 3 => 32 | 4 => 8 | 5 => 16 | 6 => 32 | 7 => 32
  | 8 => 16 | 9 => 16 | 10 => 8 | 11 => 8 | 12 => 4 | _ => 32

/-- `.i8`, `.i16`, `.i32` (R46). -/
def tySigned (t : BitVec 4) : Bool := t == 1 || t == 2 || t == 3

/-- `.i` and `.n` types (R46). -/
def tyInt (t : BitVec 4) : Bool := 1 ≤ t.toNat && t.toNat ≤ 6

/-- What a 6-bit register field of a word must hold (R43, R44, R124). -/
inductive FieldKind
  | zero      -- not used: must be zero
  | scalar    -- s0 to s63
  | vsrc      -- a vector register or a pseudo-operand
  | vreal     -- a vector register
  | veven     -- an even vector register
  | vzero     -- a vector register or `zero`
  | low16     -- an address register, predicate or tile, 0 to 15
  | immOnly   -- the `imm` pseudo-operand
  deriving DecidableEq, Repr

def FieldKind.ok (k : FieldKind) (v : Reg6) : Bool :=
  match k with
  | .zero => v == 0
  | .scalar => true
  | .vsrc => true
  | .vreal => v.toNat < 56
  | .veven => v.toNat < 56 && v.toNat % 2 == 0
  | .vzero => v.toNat < 56 || v == 62
  | .low16 => v.toNat < 16
  | .immOnly => v == 63

/-- Does a source field of this kind holding this value name `imm` (R45)? -/
def FieldKind.namesImm (k : FieldKind) (v : Reg6) : Bool :=
  match k with
  | .vsrc => v == 63
  | .immOnly => true
  | _ => false

/-- The bits of VALUE above the element must be zero, or for a signed type repeat its sign (R45). -/
def immFits (t : BitVec 4) (v : Imm56) : Bool :=
  let w := tyWidth t
  let hi := v.toNat >>> w
  hi == 0 || ((tySigned t || t == 0) && hi == 2 ^ (56 - w) - 1 && v.getLsbD (w - 1))

/-- GUARD 0 with GNEG 1 is illegal (R40), and a STALL belongs to the stop word only (R43). -/
def Head.ok (h : Head) : Bool :=
  (!(h.guard == 0 && h.gneg)) && (h.stop || h.stall == 0)

def Head.noImm (h : Head) : Bool := h.imm.isNone

/-- The common checks of a format R word: field kinds, accepted types, the highest rounding code, and the IMM word,
which stands exactly when a vector source names `imm` and whose VALUE fits `immTy` (R38, R43, R45, R46, R47). -/
def RWord.ok (w : RWord) (kd ka kb kc : FieldKind) (tys : List Nat) (rndMax : Nat) (fnOk : Bool)
    (immTy : BitVec 4) : Bool :=
  w.hd.ok && kd.ok w.dst && ka.ok w.a && kb.ok w.b && kc.ok w.c
    && tys.contains w.ty.toNat && w.rnd.toNat ≤ rndMax && fnOk
    && (match w.hd.imm with
        | some i => (ka.namesImm w.a || kb.namesImm w.b || kc.namesImm w.c) && immFits immTy i.value
        | none => !(ka.namesImm w.a || kb.namesImm w.b || kc.namesImm w.c))

def intTys : List Nat := [0, 1, 2, 3, 4, 5, 6]
def vfloatTys : List Nat := [0, 7, 8, 9, 10, 11]
def sfloatTys : List Nat := [0, 7, 8, 9]
def allTys : List Nat := [0, 1, 2, 3, 4, 5, 6, 7, 8, 9, 10, 11]
def sortTys : List Nat := [0, 3, 6, 7]

/-- A float default for TYPE 0, so that an immediate is read as FP32 (R130). -/
def floatTy (t : BitVec 4) : BitVec 4 := if t == 0 then 7 else t

/-- An unsigned pattern of the width of `t`: what an immediate of a float type or a bare pattern must fit (R45). -/
def patTy (t : BitVec 4) : BitVec 4 :=
  if tyInt t || t == 0 then t else if tyWidth t == 32 then 6 else if tyWidth t == 16 then 5 else 4

/-- The salt stands in `fn` [7:0] and is zero unless the mode is `.sr` (R130). -/
def saltOk (rnd : BitVec 2) (fn : BitVec 13) : Bool :=
  fn.toNat < 256 && (rnd == 2 || fn == 0)

/-- Scalar integer forms of R95: `ka kb kc` as the table gives, `tys` the accepted types. -/
def RWord.scalarOk (w : RWord) (kd kb kc : FieldKind) (tys : List Nat) (fnOk : Bool) : Bool :=
  w.ok kd .scalar kb kc tys 0 fnOk 0

/-- Format I (R97, R98): TYPE, RND and FN6 zero; an IMM word needs IMM19 = 0 (R38). -/
def IWord.ok (w : IWord) (kd ka : FieldKind) : Bool :=
  w.hd.ok && kd.ok w.dst && ka.ok w.a && w.ty == 0 && w.rnd == 0 && w.fn == 0
    && (w.hd.imm.isNone || w.imm19 == 0)

/-- The immediate of a format I word: IMM19 or VALUE, sign-extended (R38). -/
def IWord.immInt (w : IWord) : Int :=
  match w.hd.imm with
  | some i => i.value.toInt
  | none => w.imm19.toInt

/-- Format M (R43, R163): AMODE 3 is reserved, DISP15 and an IMM word stand only with AMODE 2 (R38). -/
def MWord.ok (w : MWord) (kd kb kc : FieldKind) (tys : List Nat) : Bool :=
  w.hd.ok && kd.ok w.d && kb.ok w.b && kc.ok w.c && tys.contains w.ty.toNat
    && w.amode != 3 && (w.amode == 2 || w.disp == 0)
    && (w.hd.imm.isNone || (w.amode == 2 && w.disp == 0))

/-- MAPM of the vector loads: B[5:4], and what C holds under it (R164). -/
def MWord.mapm (w : MWord) : BitVec 2 := w.b.extractLsb' 4 2

def MWord.mapmOk (w : MWord) : Bool :=
  match w.mapm.toNat with
  | 0 => w.c == 0
  | 3 => w.c.toNat < 16
  | _ => w.c.toNat < 56

/-- Format X (R43, R179). -/
def XWord.ok (w : XWord) (useA useB useX useV : Bool) : Bool :=
  w.hd.ok && w.hd.noImm && w.z == 0 && (useA || w.aa == 0) && (useB || w.ab == 0) && (useX || w.ax == 0)
    && (if useV then w.vi.toNat < 56 else w.vi == 0)

/-- The type pairs of R180; TYPE 0 on both sides is `.bf16`. -/
def mmaTypesOk (ta tb : BitVec 4) : Bool :=
  let cls (t : BitVec 4) : Nat :=
    match t.toNat with
    | 8 => 1 | 9 => 1 | 10 => 2 | 11 => 2 | 1 => 3 | 4 => 3 | 12 => 4 | _ => 0
  (ta == 0 && tb == 0) || (cls ta != 0 && cls ta == cls tb)

/-- QTA and QTB are zero unless that side is `.q4` (R179); `gang` says whether bit 4 may stand. -/
def XWord.denseFnOk (w : XWord) (gang : Bool) : Bool :=
  mmaTypesOk w.tya w.tyb
    && (w.tya == 12 || w.fn.extractLsb' 0 2 == 0) && (w.tyb == 12 || w.fn.extractLsb' 2 2 == 0)
    && (if gang then w.fn.toNat < 32 else w.fn.toNat < 16)

/-- Format E (R43, R69, R190, R217): the token is a scalar other than s0 (R26), A names an address register. -/
def EWord.ok (w : EWord) (useA useB useC : Bool) (queues : List Nat) (fnMask : BitVec 11) : Bool :=
  w.hd.ok && w.hd.noImm && w.tok != 0 && queues.contains w.q.toNat
    && (if useA then w.a.toNat < 16 else w.a == 0) && (useB || w.b == 0) && (useC || w.c == 0)
    && (w.fn &&& ~~~(fnMask ||| (if useA then 0x400#11 else 0))) == 0

def EWord.noScope (w : EWord) : Bool := w.scope == 0 && w.order == 0

/-- `ATOM` (R190, R205): RET = 0 needs A = 0 and AINC = 0; register pairs must exist. -/
def EWord.atomOk (w : EWord) (op : BitVec 3) : Bool :=
  let ret := w.fn.getLsbD 7
  w.hd.ok && w.hd.noImm && w.tok != 0 && w.q == 6 && w.scope.toNat ≤ 4
    && (if ret then w.a.toNat < 16 else w.a == 0 && !w.fn.getLsbD 10)
    && w.fn.extractLsb' 0 3 == op && [0, 3, 6, 7].contains (w.fn.extractLsb' 3 4).toNat
    && w.fn.extractLsb' 8 2 == 0
    && (w.scope != 4 || w.b.toNat ≤ 62) && (op != 4 || w.c.toNat ≤ 62)

/-- Format Y with no field in use (R62). -/
def YSWord.bare (w : YSWord) : Bool :=
  w.hd.ok && w.hd.noImm && w.d == 0 && w.a == 0 && w.b == 0 && w.scope == 0 && w.order == 0 && w.fn == 0

/-- Format Y.S (R76): which register fields are used, and whether the scope, order and FN20 hold listed values. -/
def YSWord.ok (w : YSWord) (useD useA useB : Bool) (scopeOk orderOk fnOk : Bool) : Bool :=
  w.hd.ok && w.hd.noImm && (useD || w.d == 0) && (useA || w.a == 0) && (useB || w.b == 0)
    && scopeOk && orderOk && fnOk

def YTWord.ok (w : YTWord) (dOk aOk : Bool) (useP : Bool) : Bool :=
  w.hd.ok && w.hd.noImm && dOk && aOk && (useP || w.p == 0)

/-- The width ratio of a conversion and which side is wide (R133): `none` when the widths are equal. -/
inductive WidthChange
  | equal
  | widen (q : Nat)
  | narrow (q : Nat)
  deriving DecidableEq, Repr

def widthChange (src dst : BitVec 4) : WidthChange :=
  let a := tyWidth src
  let b := tyWidth dst
  if a < b then .widen (b / a) else if b < a then .narrow (a / b) else .equal

/-- A group base is a multiple of q; a pseudo-operand source stands for the whole group (R133). -/
def groupOk (ch : WidthChange) (dst a : Reg6) : Bool :=
  match ch with
  | .equal => true
  | .widen q => dst.toNat % q == 0
  | .narrow q => 56 ≤ a.toNat || a.toNat % q == 0

/-- `VCVT` (R135); a salt stands only with `.sr`, and an integer to integer conversion takes no rounding (R100). -/
def RWord.vcvtOk (w : RWord) : Bool :=
  let src := w.fn.extractLsb' 0 4
  w.ok .vreal .vsrc .zero .zero allTys 2
      (src.toNat < 12 && w.fn.getLsbD 12 == false && (w.rnd == 2 || w.fn.extractLsb' 4 8 == 0)) (patTy (if src == 0 then 7 else src))
    && groupOk (widthChange src w.ty) w.dst w.a
    && !(tyInt src && tyInt w.ty && w.rnd != 0)

def RWord.vpackOk (w : RWord) : Bool :=
  let src := w.fn.extractLsb' 0 4
  w.ok .vreal .vsrc .zero .zero [1, 2, 4, 5] 0 (w.fn.toNat < 16 && tyInt src && tyWidth w.ty < tyWidth src) src
    && groupOk (widthChange src w.ty) w.dst w.a

/-- `VUNPK` (R133). From `.q4` the immediate is a code of 4 bits: its VALUE is below 16 (log 151). -/
def RWord.vunpkOk (w : RWord) : Bool :=
  let src := w.fn.extractLsb' 0 4
  let q := w.fn.extractLsb' 4 2
  if src == 12 then
    w.ok .vreal .vsrc .zero .zero [1, 10] 0 (w.fn.toNat < 64 && (w.ty == 10 || q == 0)) 4 && w.dst.toNat % 2 == 0
      && (match w.hd.imm with | some i => i.value.toNat < 16 | none => true)
  else
    w.ok .vreal .vsrc .zero .zero [2, 3, 5, 6] 0 (w.fn.toNat < 16 && tyInt src && tyWidth src < tyWidth w.ty) src
      && groupOk (widthChange src w.ty) w.dst w.a

def RWord.vnarrowOk (w : RWord) : Bool :=
  let src := w.fn.extractLsb' 0 4
  let src' : BitVec 4 := if src == 0 then 3 else src
  let dst' : BitVec 4 := if w.ty == 0 then 2 else w.ty
  w.ok .vreal .vsrc .zero .zero [0, 1, 2, 4, 5] 1
      ([2, 3, 5, 6].contains src'.toNat && tyWidth dst' < tyWidth src'
        && (w.fn.extractLsb' 4 6).toNat < tyWidth src' && w.fn.extractLsb' 10 3 == 0) src'
    && groupOk (widthChange src' dst') w.dst w.a

/-- `VRED` and `VSCAN` (R138): segments of 2^g elements, at most the register's count. -/
def RWord.vredOk (w : RWord) : Bool :=
  w.ok .vreal .vsrc .zero .low16 allTys 0 (w.fn.toNat < 16 && 2 ^ w.fn.toNat * tyWidth (floatTy w.ty) ≤ 4096)
    (patTy (floatTy w.ty))

/-- `VMAP` forms (R146). -/
def RWord.vmapOk (w : RWord) (form : BitVec 3) (immBits : Nat) : Bool :=
  w.hd.ok && w.dst.toNat < 56 && w.ty == 0 && w.rnd == 0 && w.c == 0
    && w.fn.extractLsb' 0 3 == form && w.fn.extractLsb' 7 6 == 0
    && (if immBits == 0 then w.b == 0 && w.hd.imm.isNone && w.a != 63
        else w.b == 63 && (match w.hd.imm with
                           | some i => i.value.toNat < 2 ^ immBits && (w.a != 63 || immFits 3 i.value)
                           | none => false))

/-- `VMASKC` (R150): kinds 3 and 4 take no DB, DBS or C; kind 0 takes no parameter. -/
def RWord.vmaskcOk (w : RWord) (kind : BitVec 3) : Bool :=
  let dbs := w.fn.getLsbD 4
  w.ok .low16 .vsrc .scalar .scalar allTys 0
      (w.fn.extractLsb' 5 3 == kind && w.fn.extractLsb' 9 4 == 0) (patTy w.ty)
    && (kind != 0 || w.b == 0) && (dbs || w.c == 0)
    && (kind.toNat < 3 || (w.fn.extractLsb' 2 2 == 0 && !dbs && w.c == 0))
    && (!dbs || w.fn.extractLsb' 2 2 == 0)

def RWord.sfOk (w : RWord) : Bool :=
  w.ok .vreal .vsrc .zero .zero sfloatTys 0 (w.fn.toNat < 2 && (w.fn == 0 || w.ty == 8 || w.ty == 9))
    (patTy (floatTy w.ty))

/-- A microword: reserved bits zero, and every field its row does not name zero (R319, R320, R323). -/
def MicroWord.ok (w : MicroWord) (useTs useTo useOffa useOffb : Bool) (nOk condOk : Bool) : Bool :=
  w.resv == 0 && (useTs || w.ts == 0) && (useTo || w.tOut == 0) && (useOffa || w.offa == 0)
    && (useOffb || w.offb == 0) && nOk && condOk

/-- A packet: reserved bits zero, LEN the payload's length and at most 4064, argument bits not named zero, and the
payload as the row asks (R361, R363). -/
def Packet.ok (p : Packet) (arg0Bits arg1Mask : Nat) (payloadOk : Bool) : Bool :=
  p.resvA == 0 && p.resvB == 0 && p.resvC == 0 && p.len.toNat == p.payload.length && p.len.toNat ≤ 4064
    && p.arg0.toNat < 2 ^ arg0Bits && (p.arg1.toNat &&& arg1Mask) == p.arg1.toNat && payloadOk

def Packet.noPayload (p : Packet) : Bool := p.payload.isEmpty

/-- The checks that need nothing but the instruction's own bits. Two of them settle what the spec leaves open (DESIGN
CHOICE): the immediate of `VDOT4` must fit TYPE, also where it stands in the 32-bit C (log 148), and `ATOMK` at `.dom` with
B = 63, whose second operand would be s64, is illegal as R205 makes it for the atomics (log 150). -/
def Instr.wellFormed : Instr → Bool
  | .nop w => w.bare
  | .br w => w.ok (w.d == 0) (w.a == 0) false
  | .brp w => w.ok (w.d.toNat ≤ 2) (w.a == 0) true
  | .brs w => w.ok (w.d.toNat ≤ 5) true false
  | .jmpi w => w.ok false true false (w.scope == 0) (w.order == 0) (w.fn == 0)
  | .call w => w.ok (w.d == 0) (w.a == 0) false
  | .ret w => w.bare
  | .loop w => w.hd.ok && w.hd.noImm && w.d == 0 && (if w.csrc then w.cnt == 0 else w.a == 0)
  | .rep w => w.hd.ok && w.hd.noImm && w.d == 0 && w.nm1 == 0
      && (if w.csrc then w.cnt == 0 else w.a == 0 && w.cnt.toNat < 4096)
  | .waitTok w => w.ok false true false (w.scope == 0) (w.order == 0) (w.fn == 0)
  | .waitCyc w => w.ok false true false (w.scope == 0) (w.order == 0) (w.fn == 1)
  | .retire w => w.bare
  | .yield w => w.ok false true false (w.scope == 0) (w.order == 0) (w.fn == 0)
  | .launch w => w.ok true true false (w.scope == 0) (w.order == 0) (w.fn == 0)
  | .enq w => w.ok true true true (w.scope == 0) (w.order == 0) (w.fn == 0)
  | .trap w => w.ok false false false (w.scope == 0) (w.order == 0) true
  | .tren w => w.bare
  | .tret w => w.bare
  | .barInit w => w.ok false true false (w.scope.toNat ≤ 2) (w.order == 0) (w.fn.toNat < 16)
  | .barArrive w => w.ok true false false (w.scope.toNat ≤ 2) (w.order == 0 || w.order == 2) (w.fn.toNat < 16)
  | .barWait w => w.ok false true false (w.scope.toNat ≤ 2) (w.order == 0 || w.order == 1) (w.fn.toNat < 16)
  | .drain w => w.ok false false false (w.scope.toNat ≤ 4) (w.order == 0) (w.fn == 0)
  | .fenceQ w => w.ok false false false (w.scope == 0) (w.order == 0) (w.fn.toNat < 256 && w.fn != 0)
  | .mfc w => w.ok true false false (w.scope == 0) (w.order == 0) (w.fn.toNat < 256)
  | .mtc w => w.ok false true false (w.scope == 0) (w.order == 0) (w.fn.toNat < 256 && w.fn != 0 && w.fn != 9)
  | .mtcTstat w => w.ok false true false (w.scope == 0) (w.order == 0) (w.fn == 0)
  | .mtcWaitlim w => w.ok false true false (w.scope == 0) (w.order == 0) (w.fn == 9)
  | .stepC w => w.ok true true true (w.scope == 0) (w.order == 0) (w.fn == 0) && w.d != 0
  | .scanStart w => w.ok true true false (w.scope == 0) (w.order == 0) (w.fn == 0) && w.d != 0
  | .scanAbort w => w.ok false true false (w.scope == 0) (w.order == 0) (w.fn == 0)
  | .scanRead w => w.ok true true false (w.scope == 0) (w.order == 0) (w.fn == 0)
  | .cmapSet w => w.ok false true true (w.scope == 0) (w.order == 0) (w.fn == 0)
  | .sqpop w => w.ok true false false (w.scope == 0) (w.order == 0) (w.fn == 0)
  | .dbgHalt w => w.ok true true false (w.scope == 0) (w.order == 0) (w.fn == 0) && w.d != 0
  | .dbgResume w => w.ok false true false (w.scope == 0) (w.order == 0) (w.fn == 0)
  | .add w => w.scalarOk .scalar .scalar .zero [0] (w.fn == 0)
  | .sub w => w.scalarOk .scalar .scalar .zero [0] (w.fn == 0)
  | .mul w => w.scalarOk .scalar .scalar .zero [0] (w.fn == 0)
  | .mulh w => w.scalarOk .scalar .scalar .zero [0] (w.fn == 0)
  | .div w => w.scalarOk .scalar .scalar .zero intTys (w.fn == 0)
  | .rem w => w.scalarOk .scalar .scalar .zero intTys (w.fn == 0)
  | .addi w => w.ok .scalar .scalar
  | .movi w => w.ok .scalar .zero
  | .movl w => w.hd.ok && w.hd.imm.isSome && w.low == 0
  | .mov w => w.scalarOk .scalar .zero .zero [0] (w.fn == 0)
  | .and w => w.scalarOk .scalar .scalar .zero [0] (w.fn == 0)
  | .or w => w.scalarOk .scalar .scalar .zero [0] (w.fn == 0)
  | .xor w => w.scalarOk .scalar .scalar .zero [0] (w.fn == 0)
  | .andn w => w.scalarOk .scalar .scalar .zero [0] (w.fn == 0)
  | .shl w => w.scalarOk .scalar .scalar .zero [0] (w.fn == 0)
  | .shr w => w.scalarOk .scalar .scalar .zero [0] (w.fn == 0)
  | .sra w => w.scalarOk .scalar .scalar .zero [0] (w.fn == 0)
  | .rot w => w.scalarOk .scalar .scalar .zero [0] (w.fn == 0)
  | .clz w => w.scalarOk .scalar .zero .zero [0] (w.fn == 0)
  | .popc w => w.scalarOk .scalar .zero .zero [0] (w.fn == 0)
  | .min w => w.scalarOk .scalar .scalar .zero intTys (w.fn == 0)
  | .max w => w.scalarOk .scalar .scalar .zero intTys (w.fn == 0)
  | .sel w => w.scalarOk .scalar .scalar .low16 [0] (w.fn == 0)
  | .cmpS w => w.scalarOk .scalar .scalar .zero intTys (w.fn.toNat ≤ 5)
  | .cmpP w => w.scalarOk .low16 .scalar .zero intTys (w.fn.toNat ≤ 5)
  | .aadd w => w.ok .low16 .low16
  | .ainc w => w.ok .low16 .low16 && decide (-8388608 ≤ w.immInt ∧ w.immInt ≤ 8388607)
  | .amod w => w.ok .low16 .low16 && decide (0 ≤ w.immInt ∧ w.immInt ≤ 65535)
  | .asetA w => w.ok .low16 .scalar .zero .zero [0] 0 (w.fn == 0) 0
  | .asetS w => w.ok .scalar .low16 .zero .zero [0] 0 (w.fn == 1) 0
  | .fadd w => w.ok .scalar .scalar .scalar .zero sfloatTys 1 (w.fn == 0) 0
  | .fsub w => w.ok .scalar .scalar .scalar .zero sfloatTys 1 (w.fn == 0) 0
  | .fmul w => w.ok .scalar .scalar .scalar .zero sfloatTys 1 (w.fn == 0) 0
  | .fma w => w.ok .scalar .scalar .scalar .scalar sfloatTys 1 (w.fn == 0) 0
  | .fmin w => w.ok .scalar .scalar .scalar .zero sfloatTys 0 (w.fn == 0) 0
  | .fmax w => w.ok .scalar .scalar .scalar .zero sfloatTys 0 (w.fn == 0) 0
  | .fcmpS w => w.ok .scalar .scalar .scalar .zero sfloatTys 0 (w.fn.toNat ≤ 7) 0
  | .fcmpP w => w.ok .low16 .scalar .scalar .zero sfloatTys 0 (w.fn.toNat ≤ 7) 0
  | .fcvt w => w.ok .scalar .scalar .zero .zero allTys 1
      (w.fn.toNat < 12 && !((w.fn == 0 || tyInt (w.fn.extractLsb' 0 4)) && tyInt w.ty && w.rnd != 0)) 0
  | .pand w => w.ok .low16 .low16 .low16 .zero [0] 0 (w.fn == 0) 0
  | .por w => w.ok .low16 .low16 .low16 .zero [0] 0 (w.fn == 0) 0
  | .pxor w => w.ok .low16 .low16 .low16 .zero [0] 0 (w.fn == 0) 0
  | .pnot w => w.ok .low16 .low16 .zero .zero [0] 0 (w.fn == 0) 0
  | .pmov w => w.ok .low16 .low16 .zero .zero [0] 0 (w.fn == 0) 0
  | .ldS w => w.ok .scalar .zero .zero intTys
  | .ldV w => w.ok .vreal .scalar .scalar allTys && w.b.extractLsb' 0 4 == 0 && w.mapmOk
  | .ldVB w => w.ok .vreal .zero .zero allTys
  | .ldVG w => w.ok .vreal .vreal .scalar [0, 2, 3, 5, 6, 7, 8, 9]
  | .ldVQ w => w.ok .vreal .vreal .scalar [0, 2, 3, 5, 6, 7, 8, 9] && w.b != w.d
  | .ldt w => w.ok .vreal .scalar .scalar [0, 1, 2, 3, 4, 5, 6, 7, 8, 9, 10, 11, 12] && w.mapmOk
      && (w.ty != 12 || w.mapm == 0)
  | .ldSW w => w.ok .vreal .scalar .scalar [0, 7] && w.b.extractLsb' 0 4 == 0 && w.mapmOk
  | .amoAdd w => w.ok .scalar .scalar .zero [0, 3, 6, 7]
  | .amoMin w => w.ok .scalar .scalar .zero [0, 3, 6, 7]
  | .amoMax w => w.ok .scalar .scalar .zero [0, 3, 6, 7]
  | .amoXchg w => w.ok .scalar .scalar .zero [0, 3, 6, 7]
  | .amoCas w => w.ok .scalar .scalar .scalar [0, 3, 6, 7]
  | .patld w => w.ok .scalar .zero .zero [0]
  | .stS w => w.ok .scalar .zero .zero intTys
  | .stV w => w.ok .vreal .zero .zero allTys
  | .stVS w => w.ok .vreal .vreal .zero [0, 2, 3, 5, 6, 7, 8, 9]
  | .stVC w => w.ok .vreal .zero .zero allTys
  | .stSW w => w.ok .vreal .zero .zero [0, 7]
  | .vadd w => w.ok .vreal .vsrc .vsrc .zero intTys 0 (w.fn == 0) w.ty
  | .vsub w => w.ok .vreal .vsrc .vsrc .zero intTys 0 (w.fn == 0) w.ty
  | .vadds w => w.ok .vreal .vsrc .vsrc .zero intTys 0 (w.fn == 0) w.ty
  | .vsubs w => w.ok .vreal .vsrc .vsrc .zero intTys 0 (w.fn == 0) w.ty
  | .vmul w => w.ok .vreal .vsrc .vsrc .zero intTys 0 (w.fn == 0) w.ty
  | .vmulh w => w.ok .vreal .vsrc .vsrc .zero intTys 0 (w.fn == 0) w.ty
  | .vmad w => w.ok .vreal .vsrc .vsrc .vsrc intTys 0 (w.fn == 0) w.ty
  | .vdot4 w => w.ok .vreal .vsrc .vsrc .vsrc [0, 1, 4] 0 (w.fn == 0) (if w.ty == 0 then 1 else w.ty)
  | .vand w => w.ok .vreal .vsrc .vsrc .zero intTys 0 (w.fn == 0) w.ty
  | .vor w => w.ok .vreal .vsrc .vsrc .zero intTys 0 (w.fn == 0) w.ty
  | .vxor w => w.ok .vreal .vsrc .vsrc .zero intTys 0 (w.fn == 0) w.ty
  | .vshl w => w.ok .vreal .vsrc .vsrc .zero intTys 0 (w.fn == 0) w.ty
  | .vshr w => w.ok .vreal .vsrc .vsrc .zero intTys 0 (w.fn == 0) w.ty
  | .vsra w => w.ok .vreal .vsrc .vsrc .zero intTys 0 (w.fn == 0) w.ty
  | .vmin w => w.ok .vreal .vsrc .vsrc .zero intTys 0 (w.fn == 0) w.ty
  | .vmax w => w.ok .vreal .vsrc .vsrc .zero intTys 0 (w.fn == 0) w.ty
  | .vabs w => w.ok .vreal .vsrc .zero .zero intTys 0 (w.fn == 0) w.ty
  | .vneg w => w.ok .vreal .vsrc .zero .zero intTys 0 (w.fn == 0) w.ty
  | .vcmp w => w.ok .low16 .vsrc .vsrc .zero intTys 0 (w.fn.toNat ≤ 5) w.ty
  | .vsel w => w.ok .vreal .vsrc .vsrc .low16 allTys 0 (w.fn == 0) (patTy w.ty)
  | .vmov w => w.ok .vreal .vsrc .zero .zero allTys 0 (w.fn == 0) (patTy w.ty)
  | .vbcastS w => w.ok .vreal .scalar .zero .zero allTys 0 (w.fn == 0) 0
  | .vbcastE w => w.ok .vreal .vsrc .zero .zero allTys 0
      (w.fn.getLsbD 12 && w.fn.extractLsb' 9 3 == 0 && (w.fn.extractLsb' 0 9).toNat * tyWidth w.ty < 4096) (patTy w.ty)
  | .vfadd w => w.ok .vreal .vsrc .vsrc .zero vfloatTys 2 (saltOk w.rnd w.fn) (patTy (floatTy w.ty))
  | .vfsub w => w.ok .vreal .vsrc .vsrc .zero vfloatTys 2 (saltOk w.rnd w.fn) (patTy (floatTy w.ty))
  | .vfmul w => w.ok .vreal .vsrc .vsrc .zero vfloatTys 2 (saltOk w.rnd w.fn) (patTy (floatTy w.ty))
  | .vfma w => w.ok .vreal .vsrc .vsrc .vsrc vfloatTys 2 (saltOk w.rnd w.fn) (patTy (floatTy w.ty))
  | .vfmin w => w.ok .vreal .vsrc .vsrc .zero vfloatTys 0 (w.fn == 0) (patTy (floatTy w.ty))
  | .vfmax w => w.ok .vreal .vsrc .vsrc .zero vfloatTys 0 (w.fn == 0) (patTy (floatTy w.ty))
  | .vfabs w => w.ok .vreal .vsrc .zero .zero vfloatTys 0 (w.fn == 0) (patTy (floatTy w.ty))
  | .vfcmp w => w.ok .low16 .vsrc .vsrc .zero vfloatTys 0 (w.fn.toNat ≤ 7) (patTy (floatTy w.ty))
  | .vcvt w => w.vcvtOk
  | .vpack w => w.vpackOk
  | .vunpk w => w.vunpkOk
  | .vnarrow w => w.vnarrowOk
  | .vredAdd w => w.vredOk
  | .vredMax w => w.vredOk
  | .vredMin w => w.vredOk
  | .vscanAdd w => w.vredOk
  | .vshuf w => w.ok .vreal .vsrc .zero .zero [0] 0 (w.fn.toNat < 64) 0
  | .patswap w => w.ok .zero .zero .zero .zero [0] 0 (w.fn == 0) 0
  | .vperm w => w.ok .vreal .vsrc .vsrc .zero allTys 0 (w.fn == 0) (patTy w.ty)
  | .vcompact w => w.ok .vreal .vsrc .vzero .low16 allTys 0 (w.fn == 0) (patTy w.ty) && w.b != w.dst
  | .vexpand w => w.ok .vreal .vsrc .vsrc .low16 allTys 0 (w.fn == 0) (patTy w.ty)
  | .vmapSet w => w.vmapOk 0 0 && w.fn.extractLsb' 3 4 == 0
  | .vmapCopy w => w.vmapOk 1 0 && w.fn.extractLsb' 3 4 == 0
  | .vmapOff w => w.vmapOk 2 24 && w.fn.extractLsb' 5 2 == 0
  | .vmapSlice w => w.vmapOk 3 48 && w.fn.extractLsb' 5 2 == 0
  | .vmapTr w => w.vmapOk 4 0
  | .vmapNone w => w.vmapOk 5 0 && w.a == 0 && w.fn.extractLsb' 3 4 == 0
  | .vmapTag w => w.vmapOk 6 16 && w.fn.extractLsb' 3 4 == 0
  | .vcoord w => w.ok .vreal .vreal .zero .zero intTys 0 (w.fn.toNat ≤ 4) 0
  | .vnoise w => w.ok .vreal .vreal .scalar .zero [0, 4, 5, 6] 0 (w.fn.toNat < 512 && (!w.fn.getLsbD 8 || w.b == 0)) 0
  | .vmaskcCausal w => w.vmaskcOk 0
  | .vmaskcBand w => w.vmaskcOk 1
  | .vmaskcWin w => w.vmaskcOk 2
  | .vmaskcLt w => w.vmaskcOk 3
  | .vmaskcGe w => w.vmaskcOk 4
  | .vtopk8 w => w.ok .veven .veven .veven .zero sortTys 0 (w.fn == 0) 0
  | .vsortStep w => w.ok .veven .veven .zero .zero sortTys 0
      (w.fn.toNat < 512 && (w.fn.extractLsb' 0 4).toNat ≤ 6 && 1 ≤ (w.fn.extractLsb' 4 4).toNat
        && (w.fn.extractLsb' 4 4).toNat ≤ 7 && (w.fn.extractLsb' 0 4).toNat < (w.fn.extractLsb' 4 4).toNat) 0
  | .vacr w => w.ok .vreal .zero .scalar .zero [0, 7] 0 (w.fn.toNat < 2048) 0
  | .vacw w => w.ok .zero .vsrc .scalar .zero [0, 7] 0 (w.fn.toNat < 2048) 6
  | .vacwAdd w => w.ok .zero .vsrc .scalar .zero [0, 7] 0 (w.fn.toNat < 4096 && w.fn.getLsbD 11) 6
  | .vexp2 w => w.sfOk
  | .vexp w => w.sfOk
  | .vlog2 w => w.sfOk
  | .vln w => w.sfOk
  | .vrcp w => w.sfOk
  | .vrsq w => w.sfOk
  | .vsqrt w => w.sfOk
  | .vtanh w => w.sfOk
  | .vsigm w => w.sfOk
  | .verf w => w.sfOk
  | .vsincos w => w.ok .vreal .vsrc .zero .vreal sfloatTys 0 (w.fn.toNat < 2 && (w.fn == 0 || w.ty == 8 || w.ty == 9))
      (patTy (floatTy w.ty)) && w.c != w.dst
  | .vpows w => w.ok .vreal .vsrc .vsrc .zero [0, 7] 0 (w.fn == 0) 6
  | .mma w => w.ok true true false false && w.denseFnOk true
  | .mmaZ w => w.ok true true false false && w.denseFnOk true
  | .mmaG w => w.ok true true false true && w.denseFnOk false
  | .mmaT w => w.ok true true false false && w.tya == 0 && w.tyb == 0 && w.fn.extractLsb' 0 2 != 3
      && w.fn.extractLsb' 2 2 != 3 && w.fn.toNat < 32
  | .mmaBS w => w.ok true true true false && w.denseFnOk false
  | .tzero w => w.ok false false false false && w.tya == 0 && w.tyb == 0 && w.fn == 0
  | .tload w => w.ok true false false false && (w.tya == 0 || w.tya == 7 || w.tya == 8) && w.tyb == 0 && w.fn == 0
  | .tmap w => w.ok true false false false && w.tya == 0 && w.tyb == 0 && w.fn == 0
  | .twait w => w.ok false false false false && w.tya == 0 && w.tyb == 0 && w.fn == 0
  | .cpy w => w.ok true false false [0, 1, 2, 3] 0x001 && w.noScope
  | .cpym w => w.ok true true false [0, 1, 2, 3] 0x01F && w.noScope && (w.fn.getLsbD 4 || w.fn.extractLsb' 0 4 == 0)
  | .cpyl w => w.ok true true false [0, 1, 2, 3] 0x3DF && w.noScope && w.fn.extractLsb' 6 2 != 3
      && w.fn.extractLsb' 8 2 != 3
  | .cpylTopk w => w.ok true true true [0, 1, 2, 3] 0x03F && w.noScope && w.fn.getLsbD 4 && w.fn.getLsbD 5
  | .cpyh w => w.ok true true false [0, 1, 2, 3] 0x001 && w.noScope
  | .atomAdd w => w.atomOk 0
  | .atomMin w => w.atomOk 1
  | .atomMax w => w.atomOk 2
  | .atomXchg w => w.atomOk 3
  | .atomCas w => w.atomOk 4
  | .atomk w => w.ok true true true [6] 0x0FF && (w.scope == 3 || w.scope == 4) && w.order == 0
      && (w.scope != 4 || w.b.toNat ≤ 62)
  | .collAR w => w.ok true false false [5] 0x003 && w.noScope && w.fn.extractLsb' 0 2 != 3
  | .collRS w => w.ok true false false [5] 0x003 && w.noScope && w.fn.extractLsb' 0 2 != 3
  | .collAG w => w.ok true false false [5] 0 && w.noScope
  | .collA2A w => w.ok true false false [5] 0 && w.noScope
  | .bkset w => w.ok true true true [5] 0 && w.noScope
  | .kick w => w.ok false true false [5] 0 && w.noScope
  | .sidx w => w.ok true false false [7] 0 && w.noScope
  | .rtabCommit w => w.ok false true false [7] 0 && w.noScope
  | .kvld w => w.ok true true true [4] 0x01F && w.noScope
  | .kvapp w => w.ok true true true [4] 0x00F && w.noScope
  | .kvremap w => w.ok true false true [4] 0x00F && w.noScope
  | .kvshare w => w.ok true true true [4] 0x00F && w.noScope
  | .kvprom w => w.ok false true true [4] 0x00F && w.noScope
  | .pfxfind w => w.ok false true false [4] 0x00F && w.noScope
  | .pfxins w => w.ok false true true [4] 0x01F && w.noScope
  | .attn w => w.ok true false false [4] 0x00F && w.noScope
  | .stnew w => w.ok true false false [7] 0 && w.noScope
  | .splice w => w.ok true false false [7] 0 && w.noScope
  | .stpin w => w.ok false true false [7] 0 && w.noScope
  | .stunpin w => w.ok false true true [7] 0 && w.noScope
  | .cpys w => w.ok true true true [0, 1, 2, 3] 0x003 && w.noScope && (w.fn.getLsbD 1 || w.c == 0)
  | .swcpyIn w => w.ok true false false [0, 1, 2, 3] 0x004 && w.noScope
  | .swcpyOut w => w.ok true false false [0, 1, 2, 3] 0x005 && w.noScope && w.fn.extractLsb' 0 2 == 1
  | .swcpyDec w => w.ok true false false [0, 1, 2, 3] 0x006 && w.noScope && w.fn.extractLsb' 0 2 == 2
  | .swcpyMerge w => w.ok true false false [0, 1, 2, 3] 0x007 && w.noScope && w.fn.extractLsb' 0 2 == 3
  | .sweep w => w.ok true false false [7] 0 && w.noScope
  | .fetchkv => true
  | .score => true
  | .scale => true
  | .mask => true
  | .smax => true
  | .weigh => true
  | .seqNext => true
  | .jump => true
  | .flush => true
  | .seqEnd => true
  | .submit => true
  | .memwr => true
  | .memrd => true
  | .root => true
  | .inval => true
  | .resume => true
  | .hunbind => true
  | .qcfg => true
  | .scfg => true
  | .kvcfg => true
  | .seqload => true
  | .stepgrp => true
  | .ftab => true
  | .collgrp => true
  | .rtabcfg => true
  | .domcfg => true
  | .abort => true
  | .attest => true
  | .dhalt => true
  | .dresume => true
  | .dread => true
  | .dbrk => true
  | .dprof => true
  | .dmaster => true
  | .statring => true
  | .capture => true
  | .framerel => true
  | .bundleDecode => true
  | .codeFetchLine => true
  | .pageWalk => true
  | .engineStart => true
  | .engineComplete => true
  | .cpymCoreCopy => true
  | .bucketFire => true
  | .stepVoteComplete => true
  | .fabricRequest => true
  | .promotionInstall => true
  | .repRepetition => true
  | .replayInject => true
  | .schedPass => true
  | .taskStart => true
  | .taskComplete => true
  | .ageTick => true
  | .gangReserve => true
  | .swapOut => true
  | .teamSaved => true
  | .freezeBoundary => true
  | .boundaryStop => true
  | .deadlineExpire => true
  | .forwardRetire => true
  | .afrUpdate => true
  | .powerGate => true
  | .powerHold => true
  | .thermalTrip => true
  | .powerOn => true
  | .firmwareAccept => true
  | .bootRetry => true
  | .watchdogExpire => true
  | .scanComplete => true
  | .scanAbortComplete => true
  | .holdExpire => true
  | .scrub => true
  | .preciseStop => true
  | .sample => true
  | .replaySubmit => true
  | .restore => true
  | .waitCycPasses => true
  | .freezeIssueHold => true
  | .messageUndeliverable => true
  | .powerRemoved => true

/-- A microword whose fields are as its row of R320 gives them; only a micro-operation has one. -/
def Instr.microOk (w : MicroWord) : Instr → Bool
  | .fetchkv => w.ok false false true false (w.n.toNat < 128) (w.cond == 0)
  | .score => w.ok true false true false (w.n == 0) (w.cond == 0)
  | .scale => w.ok true false false false (w.n == 0) (w.cond == 0)
  | .mask => w.ok true false false false
      (w.n.toNat < 32 && (let k := w.n.toNat % 4
                          let v := w.n.toNat / 4
                          k != 3 && (if k == 2 then 1 ≤ v && v ≤ 5 else v == 0))) (w.cond == 0)
  | .smax => w.ok true false true false (w.n == 0) (w.cond == 0)
  | .weigh => w.ok false true true true (w.n == 0) (w.cond == 0)
  | .seqNext => w.ok false false false false (w.n == 0) (w.cond == 0)
  | .jump => w.ok false false false false true (w.cond.toNat ≤ 2)
  | .flush => w.ok false true true false (w.n.toNat < 3) (w.cond == 0)
  | .seqEnd => w.ok false false false false (w.n == 0) (w.cond == 0)
  | _ => false

/-- A packet whose fields are as its row of R363 or R384 gives them; only a host command has one. -/
def Instr.packetOk (p : Packet) : Instr → Bool
  | .submit => p.ok 56 0xFF p.noPayload
  | .memwr => p.ok (if p.arg1.getLsbD 8 then 64 else 56) 0x1FF true
  | .memrd => p.ok (if p.arg1.getLsbD 8 then 64 else 56) 0xFFF000001FF p.noPayload
      && 1 ≤ (p.arg1.extractLsb' 32 12).toNat && (p.arg1.extractLsb' 32 12).toNat ≤ 4064
  | .root => p.ok 52 0xFF p.noPayload && p.arg0.toNat % 4096 == 0
  | .inval => p.ok 56 0xFFFFFFFFFFFF00FF p.noPayload && p.arg0.toNat % 4096 == 0
  | .resume => p.ok 56 0x1FF p.noPayload
  | .hunbind => p.ok 56 0xFF p.noPayload
  | .qcfg => p.ok 7 0x00FFFFFF03FF03FF p.noPayload
  | .scfg => p.ok 16 0 p.noPayload && p.arg0 != 0
  | .kvcfg => p.ok 4 0 (p.payload.length == 64)
  | .seqload => p.ok 10 0 (p.payload.length % 12 == 0 && p.arg0.toNat + p.payload.length / 12 ≤ 1024)
  | .stepgrp => p.ok 32 0xFFFFFFFF (p.payload.length % 2 == 0) && p.arg0 != 0
  | .ftab => p.ok 0 0 (p.payload.length == 64)
  | .collgrp => p.ok 32 3 (p.payload.length % 2 == 0) && p.arg0 != 0
  | .rtabcfg => p.ok 8 0xFFFFFFFFFFFFFF (p.payload.length == 4)
  | .domcfg => p.ok 14 0 (p.payload.length % 4 == 0 && p.arg0.toNat + p.payload.length / 4 ≤ 16384)
  | .abort => p.ok 56 0 p.noPayload
  | .attest => p.ok 0 0 (p.payload.length == 32)
  | .dhalt => p.ok 24 0 p.noPayload
  | .dresume => p.ok 24 0 p.noPayload
  | .dread => p.ok 24 0x3FFFFFFFFFF p.noPayload
      && 1 ≤ (p.arg1.extractLsb' 24 12).toNat && (p.arg1.extractLsb' 24 12).toNat ≤ 4064
  | .dbrk => p.ok 24 0x83FFFFFFFFFFFFFF p.noPayload
  | .dprof => p.ok 24 0x1FFFFFFFF p.noPayload
      && ((p.arg1.extractLsb' 0 32) == 0 || 1024 ≤ (p.arg1.extractLsb' 0 32).toNat)
  | .dmaster => p.ok 24 1 p.noPayload
  | .statring => p.ok 24 0xFFFFFFFFFFF000 p.noPayload
  | .capture => p.ok 24 3 (p.payload.length % 16 == 0 && p.payload.length ≤ 256)
  | .framerel => p.ok 24 0xFFFFFFFFFFFFFF p.noPayload
  | _ => false

end Sys2Proof
end

