-- ==== Sys2Proof/Decode.lean ====
section
/-! DEFINITION. From bits to instructions and back: the format fields of R43, the opcode spaces of R63 to R69, the
decode checks of a bundle in the order of R71 (all but the accumulator banks, which need the machine), microwords
(R317, R319), command packets (R361, R363); after them the encoder from the same tables. -/

namespace Sys2Proof

/-! ## Format fields (R43) -/

/-- The fields of payload bits [42:0] in format R (R43). -/
def RWord.ofBits (hd : Head) (p : BitVec 43) : RWord :=
  { hd := hd, dst := p.extractLsb' 37 6, a := p.extractLsb' 31 6, b := p.extractLsb' 25 6, c := p.extractLsb' 19 6, ty := p.extractLsb' 15 4, rnd := p.extractLsb' 13 2, fn := p.extractLsb' 0 13 }

def RWord.toBits (w : RWord) : BitVec 43 :=
  (w.dst ++ w.a ++ w.b ++ w.c ++ w.ty ++ w.rnd ++ w.fn : BitVec 43)

/-- The fields of payload bits [42:0] in format I (R43). -/
def IWord.ofBits (hd : Head) (p : BitVec 43) : IWord :=
  { hd := hd, dst := p.extractLsb' 37 6, a := p.extractLsb' 31 6, ty := p.extractLsb' 27 4, rnd := p.extractLsb' 25 2, fn := p.extractLsb' 19 6, imm19 := p.extractLsb' 0 19 }

def IWord.toBits (w : IWord) : BitVec 43 :=
  (w.dst ++ w.a ++ w.ty ++ w.rnd ++ w.fn ++ w.imm19 : BitVec 43)

/-- The fields of payload bits [42:0] in format L (R43). -/
def LWord.ofBits (hd : Head) (p : BitVec 43) : LWord :=
  { hd := hd, dst := p.extractLsb' 37 6, a := p.extractLsb' 31 6, low := p.extractLsb' 0 31 }

def LWord.toBits (w : LWord) : BitVec 43 :=
  (w.dst ++ w.a ++ w.low : BitVec 43)

/-- The fields of payload bits [42:0] in format M (R43). -/
def MWord.ofBits (hd : Head) (p : BitVec 43) : MWord :=
  { hd := hd, d := p.extractLsb' 37 6, areg := p.extractLsb' 33 4, amode := p.extractLsb' 31 2, b := p.extractLsb' 25 6, c := p.extractLsb' 19 6, ty := p.extractLsb' 15 4, disp := p.extractLsb' 0 15 }

def MWord.toBits (w : MWord) : BitVec 43 :=
  (w.d ++ w.areg ++ w.amode ++ w.b ++ w.c ++ w.ty ++ w.disp : BitVec 43)

/-- The fields of payload bits [42:0] in format X (R43). -/
def XWord.ofBits (hd : Head) (p : BitVec 43) : XWord :=
  { hd := hd, td := p.extractLsb' 39 4, z := p.extractLsb' 37 2, aa := p.extractLsb' 33 4, ab := p.extractLsb' 29 4, ax := p.extractLsb' 25 4, vi := p.extractLsb' 19 6, tya := p.extractLsb' 15 4, tyb := p.extractLsb' 11 4, fn := p.extractLsb' 0 11 }

def XWord.toBits (w : XWord) : BitVec 43 :=
  (w.td ++ w.z ++ w.aa ++ w.ab ++ w.ax ++ w.vi ++ w.tya ++ w.tyb ++ w.fn : BitVec 43)

/-- The fields of payload bits [42:0] in format E (R43). -/
def EWord.ofBits (hd : Head) (p : BitVec 43) : EWord :=
  { hd := hd, tok := p.extractLsb' 37 6, a := p.extractLsb' 31 6, b := p.extractLsb' 25 6, c := p.extractLsb' 19 6, q := p.extractLsb' 16 3, scope := p.extractLsb' 13 3, order := p.extractLsb' 11 2, fn := p.extractLsb' 0 11 }

def EWord.toBits (w : EWord) : BitVec 43 :=
  (w.tok ++ w.a ++ w.b ++ w.c ++ w.q ++ w.scope ++ w.order ++ w.fn : BitVec 43)

/-- The fields of payload bits [42:0] in format YT (R43). -/
def YTWord.ofBits (hd : Head) (p : BitVec 43) : YTWord :=
  { hd := hd, d := p.extractLsb' 37 6, a := p.extractLsb' 31 6, p := p.extractLsb' 27 4, disp := p.extractLsb' 0 27 }

def YTWord.toBits (w : YTWord) : BitVec 43 :=
  (w.d ++ w.a ++ w.p ++ w.disp : BitVec 43)

/-- The fields of payload bits [42:0] in format YC (R43). -/
def YCWord.ofBits (hd : Head) (p : BitVec 43) : YCWord :=
  { hd := hd, d := p.extractLsb' 37 6, a := p.extractLsb' 31 6, nm1 := p.extractLsb' 25 6, csrc := p.getLsbD 24, cnt := p.extractLsb' 0 24 }

def YCWord.toBits (w : YCWord) : BitVec 43 :=
  (w.d ++ w.a ++ w.nm1 ++ BitVec.ofBool w.csrc ++ w.cnt : BitVec 43)

/-- The fields of payload bits [42:0] in format YS (R43). -/
def YSWord.ofBits (hd : Head) (p : BitVec 43) : YSWord :=
  { hd := hd, d := p.extractLsb' 37 6, a := p.extractLsb' 31 6, b := p.extractLsb' 25 6, scope := p.extractLsb' 22 3, order := p.extractLsb' 20 2, fn := p.extractLsb' 0 20 }

def YSWord.toBits (w : YSWord) : BitVec 43 :=
  (w.d ++ w.a ++ w.b ++ w.scope ++ w.order ++ w.fn : BitVec 43)

/-! ## Opcode spaces (R63 to R69) -/

/-- What the opcode of a unit says: nothing assigned, a sub-operation that is not assigned (ILL_FIELD, R62), or an
instruction. -/
inductive OpRead
  | unassigned
  | badSub
  | instr (i : Instr)
  deriving DecidableEq, Repr

/-- The opcode space of SY (R63). -/
def readSY (opc : BitVec 8) (hd : Head) (p : BitVec 43) : OpRead :=
  match opc.toNat with
  | 0 => .instr (.nop (.ofBits hd p))
  | 1 => .instr (.br (.ofBits hd p))
  | 2 => .instr (.brp (.ofBits hd p))
  | 3 => .instr (.brs (.ofBits hd p))
  | 4 => .instr (.jmpi (.ofBits hd p))
  | 5 => .instr (.call (.ofBits hd p))
  | 6 => .instr (.ret (.ofBits hd p))
  | 8 => .instr (.loop (.ofBits hd p))
  | 9 => .instr (.rep (.ofBits hd p))
  | 10 =>
    let f := YSWord.ofBits hd p
    if f.fn == 1 then .instr (.waitCyc f)
    else .instr (.waitTok f)
  | 32 => .instr (.retire (.ofBits hd p))
  | 33 => .instr (.yield (.ofBits hd p))
  | 34 => .instr (.launch (.ofBits hd p))
  | 35 => .instr (.enq (.ofBits hd p))
  | 40 => .instr (.trap (.ofBits hd p))
  | 41 => .instr (.tren (.ofBits hd p))
  | 42 => .instr (.tret (.ofBits hd p))
  | 48 => .instr (.barInit (.ofBits hd p))
  | 49 => .instr (.barArrive (.ofBits hd p))
  | 50 => .instr (.barWait (.ofBits hd p))
  | 56 => .instr (.drain (.ofBits hd p))
  | 57 => .instr (.fenceQ (.ofBits hd p))
  | 64 => .instr (.mfc (.ofBits hd p))
  | 65 =>
    let f := YSWord.ofBits hd p
    if f.fn == 0 then .instr (.mtcTstat f)
    else if f.fn == 9 then .instr (.mtcWaitlim f)
    else .instr (.mtc f)
  | 72 => .instr (.stepC (.ofBits hd p))
  | 128 => .instr (.scanStart (.ofBits hd p))
  | 129 => .instr (.scanAbort (.ofBits hd p))
  | 130 => .instr (.scanRead (.ofBits hd p))
  | 131 => .instr (.cmapSet (.ofBits hd p))
  | 132 => .instr (.sqpop (.ofBits hd p))
  | 136 => .instr (.dbgHalt (.ofBits hd p))
  | 137 => .instr (.dbgResume (.ofBits hd p))
  | _ => .unassigned

/-- The opcode space of S0 and S1 (R64). -/
def readS (opc : BitVec 8) (hd : Head) (p : BitVec 43) : OpRead :=
  match opc.toNat with
  | 0 => .instr (.add (.ofBits hd p))
  | 1 => .instr (.sub (.ofBits hd p))
  | 2 => .instr (.mul (.ofBits hd p))
  | 3 => .instr (.mulh (.ofBits hd p))
  | 4 => .instr (.div (.ofBits hd p))
  | 5 => .instr (.rem (.ofBits hd p))
  | 8 => .instr (.addi (.ofBits hd p))
  | 9 => .instr (.movi (.ofBits hd p))
  | 10 => .instr (.movl (.ofBits hd p))
  | 11 => .instr (.mov (.ofBits hd p))
  | 16 => .instr (.and (.ofBits hd p))
  | 17 => .instr (.or (.ofBits hd p))
  | 18 => .instr (.xor (.ofBits hd p))
  | 19 => .instr (.andn (.ofBits hd p))
  | 20 => .instr (.shl (.ofBits hd p))
  | 21 => .instr (.shr (.ofBits hd p))
  | 22 => .instr (.sra (.ofBits hd p))
  | 23 => .instr (.rot (.ofBits hd p))
  | 24 => .instr (.clz (.ofBits hd p))
  | 25 => .instr (.popc (.ofBits hd p))
  | 26 => .instr (.min (.ofBits hd p))
  | 27 => .instr (.max (.ofBits hd p))
  | 28 => .instr (.sel (.ofBits hd p))
  | 29 => .instr (.cmpS (.ofBits hd p))
  | 30 => .instr (.cmpP (.ofBits hd p))
  | 32 => .instr (.aadd (.ofBits hd p))
  | 33 =>
    let f := RWord.ofBits hd p
    if f.fn == 0 then .instr (.asetA f)
    else if f.fn == 1 then .instr (.asetS f)
    else .badSub
  | 34 => .instr (.ainc (.ofBits hd p))
  | 35 => .instr (.amod (.ofBits hd p))
  | 48 => .instr (.fadd (.ofBits hd p))
  | 49 => .instr (.fsub (.ofBits hd p))
  | 50 => .instr (.fmul (.ofBits hd p))
  | 51 => .instr (.fma (.ofBits hd p))
  | 52 => .instr (.fmin (.ofBits hd p))
  | 53 => .instr (.fmax (.ofBits hd p))
  | 54 => .instr (.fcmpS (.ofBits hd p))
  | 55 => .instr (.fcmpP (.ofBits hd p))
  | 56 => .instr (.fcvt (.ofBits hd p))
  | 64 => .instr (.pand (.ofBits hd p))
  | 65 => .instr (.por (.ofBits hd p))
  | 66 => .instr (.pxor (.ofBits hd p))
  | 67 => .instr (.pnot (.ofBits hd p))
  | 68 => .instr (.pmov (.ofBits hd p))
  | _ => .unassigned

/-- The opcode space of LD (R65). -/
def readLD (opc : BitVec 8) (hd : Head) (p : BitVec 43) : OpRead :=
  match opc.toNat with
  | 0 => .instr (.ldS (.ofBits hd p))
  | 2 => .instr (.ldV (.ofBits hd p))
  | 3 => .instr (.ldVB (.ofBits hd p))
  | 4 => .instr (.ldVG (.ofBits hd p))
  | 5 => .instr (.ldVQ (.ofBits hd p))
  | 6 => .instr (.ldt (.ofBits hd p))
  | 8 => .instr (.ldSW (.ofBits hd p))
  | 16 => .instr (.amoAdd (.ofBits hd p))
  | 17 => .instr (.amoMin (.ofBits hd p))
  | 18 => .instr (.amoMax (.ofBits hd p))
  | 19 => .instr (.amoXchg (.ofBits hd p))
  | 20 => .instr (.amoCas (.ofBits hd p))
  | 24 => .instr (.patld (.ofBits hd p))
  | _ => .unassigned

/-- The opcode space of ST (R65). -/
def readST (opc : BitVec 8) (hd : Head) (p : BitVec 43) : OpRead :=
  match opc.toNat with
  | 0 => .instr (.stS (.ofBits hd p))
  | 2 => .instr (.stV (.ofBits hd p))
  | 4 => .instr (.stVS (.ofBits hd p))
  | 5 => .instr (.stVC (.ofBits hd p))
  | 8 => .instr (.stSW (.ofBits hd p))
  | _ => .unassigned

/-- The opcode space of V0, V1 and V2 (R66). -/
def readV (opc : BitVec 8) (hd : Head) (p : BitVec 43) : OpRead :=
  match opc.toNat with
  | 0 => .instr (.vadd (.ofBits hd p))
  | 1 => .instr (.vsub (.ofBits hd p))
  | 2 => .instr (.vadds (.ofBits hd p))
  | 3 => .instr (.vsubs (.ofBits hd p))
  | 4 => .instr (.vmul (.ofBits hd p))
  | 5 => .instr (.vmulh (.ofBits hd p))
  | 6 => .instr (.vmad (.ofBits hd p))
  | 7 => .instr (.vdot4 (.ofBits hd p))
  | 8 => .instr (.vand (.ofBits hd p))
  | 9 => .instr (.vor (.ofBits hd p))
  | 10 => .instr (.vxor (.ofBits hd p))
  | 11 => .instr (.vshl (.ofBits hd p))
  | 12 => .instr (.vshr (.ofBits hd p))
  | 13 => .instr (.vsra (.ofBits hd p))
  | 14 => .instr (.vmin (.ofBits hd p))
  | 15 => .instr (.vmax (.ofBits hd p))
  | 16 => .instr (.vabs (.ofBits hd p))
  | 17 => .instr (.vneg (.ofBits hd p))
  | 24 => .instr (.vcmp (.ofBits hd p))
  | 25 => .instr (.vsel (.ofBits hd p))
  | 26 => .instr (.vmov (.ofBits hd p))
  | 27 =>
    let f := RWord.ofBits hd p
    if f.fn.getLsbD 12 then .instr (.vbcastE f)
    else .instr (.vbcastS f)
  | 32 => .instr (.vfadd (.ofBits hd p))
  | 33 => .instr (.vfsub (.ofBits hd p))
  | 34 => .instr (.vfmul (.ofBits hd p))
  | 35 => .instr (.vfma (.ofBits hd p))
  | 36 => .instr (.vfmin (.ofBits hd p))
  | 37 => .instr (.vfmax (.ofBits hd p))
  | 38 => .instr (.vfabs (.ofBits hd p))
  | 39 => .instr (.vfcmp (.ofBits hd p))
  | 48 => .instr (.vcvt (.ofBits hd p))
  | 49 => .instr (.vpack (.ofBits hd p))
  | 50 => .instr (.vunpk (.ofBits hd p))
  | 51 => .instr (.vnarrow (.ofBits hd p))
  | 56 => .instr (.vredAdd (.ofBits hd p))
  | 57 => .instr (.vredMax (.ofBits hd p))
  | 58 => .instr (.vredMin (.ofBits hd p))
  | 59 => .instr (.vscanAdd (.ofBits hd p))
  | 64 => .instr (.vshuf (.ofBits hd p))
  | 65 => .instr (.patswap (.ofBits hd p))
  | 66 => .instr (.vperm (.ofBits hd p))
  | 67 => .instr (.vcompact (.ofBits hd p))
  | 68 => .instr (.vexpand (.ofBits hd p))
  | 72 =>
    let f := RWord.ofBits hd p
    if f.fn.extractLsb' 0 3 == 0 then .instr (.vmapSet f)
    else if f.fn.extractLsb' 0 3 == 1 then .instr (.vmapCopy f)
    else if f.fn.extractLsb' 0 3 == 2 then .instr (.vmapOff f)
    else if f.fn.extractLsb' 0 3 == 3 then .instr (.vmapSlice f)
    else if f.fn.extractLsb' 0 3 == 4 then .instr (.vmapTr f)
    else if f.fn.extractLsb' 0 3 == 5 then .instr (.vmapNone f)
    else if f.fn.extractLsb' 0 3 == 6 then .instr (.vmapTag f)
    else .badSub
  | 73 => .instr (.vcoord (.ofBits hd p))
  | 74 => .instr (.vnoise (.ofBits hd p))
  | 75 =>
    let f := RWord.ofBits hd p
    if f.fn.extractLsb' 5 3 == 0 then .instr (.vmaskcCausal f)
    else if f.fn.extractLsb' 5 3 == 1 then .instr (.vmaskcBand f)
    else if f.fn.extractLsb' 5 3 == 2 then .instr (.vmaskcWin f)
    else if f.fn.extractLsb' 5 3 == 3 then .instr (.vmaskcLt f)
    else if f.fn.extractLsb' 5 3 == 4 then .instr (.vmaskcGe f)
    else .badSub
  | 80 => .instr (.vtopk8 (.ofBits hd p))
  | 81 => .instr (.vsortStep (.ofBits hd p))
  | 88 => .instr (.vacr (.ofBits hd p))
  | 89 =>
    let f := RWord.ofBits hd p
    if f.fn.getLsbD 11 then .instr (.vacwAdd f)
    else .instr (.vacw f)
  | _ => .unassigned

/-- The opcode space of SF (R68). -/
def readSF (opc : BitVec 8) (hd : Head) (p : BitVec 43) : OpRead :=
  match opc.toNat with
  | 0 => .instr (.vexp2 (.ofBits hd p))
  | 1 => .instr (.vexp (.ofBits hd p))
  | 2 => .instr (.vlog2 (.ofBits hd p))
  | 3 => .instr (.vln (.ofBits hd p))
  | 4 => .instr (.vrcp (.ofBits hd p))
  | 5 => .instr (.vrsq (.ofBits hd p))
  | 6 => .instr (.vsqrt (.ofBits hd p))
  | 7 => .instr (.vtanh (.ofBits hd p))
  | 8 => .instr (.vsigm (.ofBits hd p))
  | 9 => .instr (.verf (.ofBits hd p))
  | 10 => .instr (.vsincos (.ofBits hd p))
  | 11 => .instr (.vpows (.ofBits hd p))
  | _ => .unassigned

/-- The opcode space of MX (R68). -/
def readMX (opc : BitVec 8) (hd : Head) (p : BitVec 43) : OpRead :=
  match opc.toNat with
  | 0 => .instr (.mma (.ofBits hd p))
  | 1 => .instr (.mmaT (.ofBits hd p))
  | 2 => .instr (.mmaG (.ofBits hd p))
  | 3 => .instr (.mmaZ (.ofBits hd p))
  | 4 => .instr (.mmaBS (.ofBits hd p))
  | 8 => .instr (.tzero (.ofBits hd p))
  | 9 => .instr (.tload (.ofBits hd p))
  | 10 => .instr (.tmap (.ofBits hd p))
  | 11 => .instr (.twait (.ofBits hd p))
  | _ => .unassigned

/-- The opcode space of EN (R69). -/
def readEN (opc : BitVec 8) (hd : Head) (p : BitVec 43) : OpRead :=
  match opc.toNat with
  | 0 => .instr (.cpy (.ofBits hd p))
  | 1 => .instr (.cpym (.ofBits hd p))
  | 2 =>
    let f := EWord.ofBits hd p
    if f.fn.getLsbD 5 then .instr (.cpylTopk f)
    else .instr (.cpyl f)
  | 3 => .instr (.cpyh (.ofBits hd p))
  | 8 =>
    let f := EWord.ofBits hd p
    if f.fn.extractLsb' 0 3 == 0 then .instr (.atomAdd f)
    else if f.fn.extractLsb' 0 3 == 1 then .instr (.atomMin f)
    else if f.fn.extractLsb' 0 3 == 2 then .instr (.atomMax f)
    else if f.fn.extractLsb' 0 3 == 3 then .instr (.atomXchg f)
    else if f.fn.extractLsb' 0 3 == 4 then .instr (.atomCas f)
    else .badSub
  | 9 => .instr (.atomk (.ofBits hd p))
  | 16 => .instr (.collAR (.ofBits hd p))
  | 17 => .instr (.collRS (.ofBits hd p))
  | 18 => .instr (.collAG (.ofBits hd p))
  | 19 => .instr (.collA2A (.ofBits hd p))
  | 24 => .instr (.bkset (.ofBits hd p))
  | 25 => .instr (.kick (.ofBits hd p))
  | 26 => .instr (.sidx (.ofBits hd p))
  | 27 => .instr (.rtabCommit (.ofBits hd p))
  | 32 => .instr (.kvld (.ofBits hd p))
  | 33 => .instr (.kvapp (.ofBits hd p))
  | 34 => .instr (.kvremap (.ofBits hd p))
  | 35 => .instr (.kvshare (.ofBits hd p))
  | 36 => .instr (.kvprom (.ofBits hd p))
  | 37 => .instr (.pfxfind (.ofBits hd p))
  | 38 => .instr (.pfxins (.ofBits hd p))
  | 39 => .instr (.attn (.ofBits hd p))
  | 48 => .instr (.stnew (.ofBits hd p))
  | 49 => .instr (.splice (.ofBits hd p))
  | 50 => .instr (.stpin (.ofBits hd p))
  | 51 => .instr (.stunpin (.ofBits hd p))
  | 52 => .instr (.cpys (.ofBits hd p))
  | 56 =>
    let f := EWord.ofBits hd p
    if f.fn.extractLsb' 0 2 == 0 then .instr (.swcpyIn f)
    else if f.fn.extractLsb' 0 2 == 1 then .instr (.swcpyOut f)
    else if f.fn.extractLsb' 0 2 == 2 then .instr (.swcpyDec f)
    else .instr (.swcpyMerge f)
  | 57 => .instr (.sweep (.ofBits hd p))
  | _ => .unassigned

/-- The instruction an opcode of a unit reads as (R61). `DIV` and `REM` stand in S0 only (R64). -/
def readOp (hd : Head) (opc : BitVec 8) (p : BitVec 43) : OpRead :=
  match hd.unit with
  | .sy => readSY opc hd p
  | .s0 => readS opc hd p
  | .s1 => if opc == 4 || opc == 5 then .unassigned else readS opc hd p
  | .ld => readLD opc hd p
  | .st => readST opc hd p
  | .v0 => readV opc hd p
  | .v1 => readV opc hd p
  | .v2 => readV opc hd p
  | .sf => readSF opc hd p
  | .mx => readMX opc hd p
  | .en => readEN opc hd p

/-! ## Op words (R35) -/

def immWordOf (w : Word) : ImmWord :=
  { stop := w.getLsbD 63, stall := w.extractLsb' 56 3, value := w.extractLsb' 0 56 }

def isImmWord (w : Word) : Bool := w.extractLsb' 59 4 == 15

def headOf (u : UnitCode) (w : Word) (imm : Option Word) : Head :=
  { unit := u, stop := w.getLsbD 63, stall := w.extractLsb' 56 3, guard := w.extractLsb' 44 4,
    gneg := w.getLsbD 43, imm := imm.map immWordOf }

/-- The instruction of one op word with the IMM word after it, whatever core it runs on. -/
def readWord (w : Word) (imm : Option Word) : OpRead :=
  match UnitCode.ofCode (w.extractLsb' 59 4) with
  | none => .unassigned
  | some u => readOp (headOf u w imm) (w.extractLsb' 48 8) (w.extractLsb' 0 43)

/-- One op word to a well-formed instruction, none for anything else. -/
def decodeWord (w : Word) (imm : Option Word) : Option Instr :=
  match readWord w imm with
  | .instr i => if i.wellFormed then some i else none
  | _ => none

/-! ## The encoder, from the same tables -/

/-- The head of an op word; microwords, packets and events have none. -/
def Instr.head : Instr → Option Head
  | .nop w => some w.hd
  | .br w => some w.hd
  | .brp w => some w.hd
  | .brs w => some w.hd
  | .jmpi w => some w.hd
  | .call w => some w.hd
  | .ret w => some w.hd
  | .loop w => some w.hd
  | .rep w => some w.hd
  | .waitTok w => some w.hd
  | .waitCyc w => some w.hd
  | .retire w => some w.hd
  | .yield w => some w.hd
  | .launch w => some w.hd
  | .enq w => some w.hd
  | .trap w => some w.hd
  | .tren w => some w.hd
  | .tret w => some w.hd
  | .barInit w => some w.hd
  | .barArrive w => some w.hd
  | .barWait w => some w.hd
  | .drain w => some w.hd
  | .fenceQ w => some w.hd
  | .mfc w => some w.hd
  | .mtc w => some w.hd
  | .mtcTstat w => some w.hd
  | .mtcWaitlim w => some w.hd
  | .stepC w => some w.hd
  | .scanStart w => some w.hd
  | .scanAbort w => some w.hd
  | .scanRead w => some w.hd
  | .cmapSet w => some w.hd
  | .sqpop w => some w.hd
  | .dbgHalt w => some w.hd
  | .dbgResume w => some w.hd
  | .add w => some w.hd
  | .sub w => some w.hd
  | .mul w => some w.hd
  | .mulh w => some w.hd
  | .div w => some w.hd
  | .rem w => some w.hd
  | .addi w => some w.hd
  | .movi w => some w.hd
  | .movl w => some w.hd
  | .mov w => some w.hd
  | .and w => some w.hd
  | .or w => some w.hd
  | .xor w => some w.hd
  | .andn w => some w.hd
  | .shl w => some w.hd
  | .shr w => some w.hd
  | .sra w => some w.hd
  | .rot w => some w.hd
  | .clz w => some w.hd
  | .popc w => some w.hd
  | .min w => some w.hd
  | .max w => some w.hd
  | .sel w => some w.hd
  | .cmpS w => some w.hd
  | .cmpP w => some w.hd
  | .aadd w => some w.hd
  | .ainc w => some w.hd
  | .amod w => some w.hd
  | .asetA w => some w.hd
  | .asetS w => some w.hd
  | .fadd w => some w.hd
  | .fsub w => some w.hd
  | .fmul w => some w.hd
  | .fma w => some w.hd
  | .fmin w => some w.hd
  | .fmax w => some w.hd
  | .fcmpS w => some w.hd
  | .fcmpP w => some w.hd
  | .fcvt w => some w.hd
  | .pand w => some w.hd
  | .por w => some w.hd
  | .pxor w => some w.hd
  | .pnot w => some w.hd
  | .pmov w => some w.hd
  | .ldS w => some w.hd
  | .ldV w => some w.hd
  | .ldVB w => some w.hd
  | .ldVG w => some w.hd
  | .ldVQ w => some w.hd
  | .ldt w => some w.hd
  | .ldSW w => some w.hd
  | .amoAdd w => some w.hd
  | .amoMin w => some w.hd
  | .amoMax w => some w.hd
  | .amoXchg w => some w.hd
  | .amoCas w => some w.hd
  | .patld w => some w.hd
  | .stS w => some w.hd
  | .stV w => some w.hd
  | .stVS w => some w.hd
  | .stVC w => some w.hd
  | .stSW w => some w.hd
  | .vadd w => some w.hd
  | .vsub w => some w.hd
  | .vadds w => some w.hd
  | .vsubs w => some w.hd
  | .vmul w => some w.hd
  | .vmulh w => some w.hd
  | .vmad w => some w.hd
  | .vdot4 w => some w.hd
  | .vand w => some w.hd
  | .vor w => some w.hd
  | .vxor w => some w.hd
  | .vshl w => some w.hd
  | .vshr w => some w.hd
  | .vsra w => some w.hd
  | .vmin w => some w.hd
  | .vmax w => some w.hd
  | .vabs w => some w.hd
  | .vneg w => some w.hd
  | .vcmp w => some w.hd
  | .vsel w => some w.hd
  | .vmov w => some w.hd
  | .vbcastS w => some w.hd
  | .vbcastE w => some w.hd
  | .vfadd w => some w.hd
  | .vfsub w => some w.hd
  | .vfmul w => some w.hd
  | .vfma w => some w.hd
  | .vfmin w => some w.hd
  | .vfmax w => some w.hd
  | .vfabs w => some w.hd
  | .vfcmp w => some w.hd
  | .vcvt w => some w.hd
  | .vpack w => some w.hd
  | .vunpk w => some w.hd
  | .vnarrow w => some w.hd
  | .vredAdd w => some w.hd
  | .vredMax w => some w.hd
  | .vredMin w => some w.hd
  | .vscanAdd w => some w.hd
  | .vshuf w => some w.hd
  | .patswap w => some w.hd
  | .vperm w => some w.hd
  | .vcompact w => some w.hd
  | .vexpand w => some w.hd
  | .vmapSet w => some w.hd
  | .vmapCopy w => some w.hd
  | .vmapOff w => some w.hd
  | .vmapSlice w => some w.hd
  | .vmapTr w => some w.hd
  | .vmapNone w => some w.hd
  | .vmapTag w => some w.hd
  | .vcoord w => some w.hd
  | .vnoise w => some w.hd
  | .vmaskcCausal w => some w.hd
  | .vmaskcBand w => some w.hd
  | .vmaskcWin w => some w.hd
  | .vmaskcLt w => some w.hd
  | .vmaskcGe w => some w.hd
  | .vtopk8 w => some w.hd
  | .vsortStep w => some w.hd
  | .vacr w => some w.hd
  | .vacw w => some w.hd
  | .vacwAdd w => some w.hd
  | .vexp2 w => some w.hd
  | .vexp w => some w.hd
  | .vlog2 w => some w.hd
  | .vln w => some w.hd
  | .vrcp w => some w.hd
  | .vrsq w => some w.hd
  | .vsqrt w => some w.hd
  | .vtanh w => some w.hd
  | .vsigm w => some w.hd
  | .verf w => some w.hd
  | .vsincos w => some w.hd
  | .vpows w => some w.hd
  | .mma w => some w.hd
  | .mmaZ w => some w.hd
  | .mmaG w => some w.hd
  | .mmaT w => some w.hd
  | .mmaBS w => some w.hd
  | .tzero w => some w.hd
  | .tload w => some w.hd
  | .tmap w => some w.hd
  | .twait w => some w.hd
  | .cpy w => some w.hd
  | .cpym w => some w.hd
  | .cpyl w => some w.hd
  | .cpylTopk w => some w.hd
  | .cpyh w => some w.hd
  | .atomAdd w => some w.hd
  | .atomMin w => some w.hd
  | .atomMax w => some w.hd
  | .atomXchg w => some w.hd
  | .atomCas w => some w.hd
  | .atomk w => some w.hd
  | .collAR w => some w.hd
  | .collRS w => some w.hd
  | .collAG w => some w.hd
  | .collA2A w => some w.hd
  | .bkset w => some w.hd
  | .kick w => some w.hd
  | .sidx w => some w.hd
  | .rtabCommit w => some w.hd
  | .kvld w => some w.hd
  | .kvapp w => some w.hd
  | .kvremap w => some w.hd
  | .kvshare w => some w.hd
  | .kvprom w => some w.hd
  | .pfxfind w => some w.hd
  | .pfxins w => some w.hd
  | .attn w => some w.hd
  | .stnew w => some w.hd
  | .splice w => some w.hd
  | .stpin w => some w.hd
  | .stunpin w => some w.hd
  | .cpys w => some w.hd
  | .swcpyIn w => some w.hd
  | .swcpyOut w => some w.hd
  | .swcpyDec w => some w.hd
  | .swcpyMerge w => some w.hd
  | .sweep w => some w.hd
  | .fetchkv => none
  | .score => none
  | .scale => none
  | .mask => none
  | .smax => none
  | .weigh => none
  | .seqNext => none
  | .jump => none
  | .flush => none
  | .seqEnd => none
  | .submit => none
  | .memwr => none
  | .memrd => none
  | .root => none
  | .inval => none
  | .resume => none
  | .hunbind => none
  | .qcfg => none
  | .scfg => none
  | .kvcfg => none
  | .seqload => none
  | .stepgrp => none
  | .ftab => none
  | .collgrp => none
  | .rtabcfg => none
  | .domcfg => none
  | .abort => none
  | .attest => none
  | .dhalt => none
  | .dresume => none
  | .dread => none
  | .dbrk => none
  | .dprof => none
  | .dmaster => none
  | .statring => none
  | .capture => none
  | .framerel => none
  | .bundleDecode => none
  | .codeFetchLine => none
  | .pageWalk => none
  | .engineStart => none
  | .engineComplete => none
  | .cpymCoreCopy => none
  | .bucketFire => none
  | .stepVoteComplete => none
  | .fabricRequest => none
  | .promotionInstall => none
  | .repRepetition => none
  | .replayInject => none
  | .schedPass => none
  | .taskStart => none
  | .taskComplete => none
  | .ageTick => none
  | .gangReserve => none
  | .swapOut => none
  | .teamSaved => none
  | .freezeBoundary => none
  | .boundaryStop => none
  | .deadlineExpire => none
  | .forwardRetire => none
  | .afrUpdate => none
  | .powerGate => none
  | .powerHold => none
  | .thermalTrip => none
  | .powerOn => none
  | .firmwareAccept => none
  | .bootRetry => none
  | .watchdogExpire => none
  | .scanComplete => none
  | .scanAbortComplete => none
  | .holdExpire => none
  | .scrub => none
  | .preciseStop => none
  | .sample => none
  | .replaySubmit => none
  | .restore => none
  | .waitCycPasses => none
  | .freezeIssueHold => none
  | .messageUndeliverable => none
  | .powerRemoved => none

/-- Opcode and payload bits [42:0] of an op word. -/
def Instr.opBits : Instr → Option (BitVec 8 × BitVec 43)
  | .nop w => some (0x00, w.toBits)
  | .br w => some (0x01, w.toBits)
  | .brp w => some (0x02, w.toBits)
  | .brs w => some (0x03, w.toBits)
  | .jmpi w => some (0x04, w.toBits)
  | .call w => some (0x05, w.toBits)
  | .ret w => some (0x06, w.toBits)
  | .loop w => some (0x08, w.toBits)
  | .rep w => some (0x09, w.toBits)
  | .waitTok w => some (0x0A, w.toBits)
  | .waitCyc w => some (0x0A, w.toBits)
  | .retire w => some (0x20, w.toBits)
  | .yield w => some (0x21, w.toBits)
  | .launch w => some (0x22, w.toBits)
  | .enq w => some (0x23, w.toBits)
  | .trap w => some (0x28, w.toBits)
  | .tren w => some (0x29, w.toBits)
  | .tret w => some (0x2A, w.toBits)
  | .barInit w => some (0x30, w.toBits)
  | .barArrive w => some (0x31, w.toBits)
  | .barWait w => some (0x32, w.toBits)
  | .drain w => some (0x38, w.toBits)
  | .fenceQ w => some (0x39, w.toBits)
  | .mfc w => some (0x40, w.toBits)
  | .mtc w => some (0x41, w.toBits)
  | .mtcTstat w => some (0x41, w.toBits)
  | .mtcWaitlim w => some (0x41, w.toBits)
  | .stepC w => some (0x48, w.toBits)
  | .scanStart w => some (0x80, w.toBits)
  | .scanAbort w => some (0x81, w.toBits)
  | .scanRead w => some (0x82, w.toBits)
  | .cmapSet w => some (0x83, w.toBits)
  | .sqpop w => some (0x84, w.toBits)
  | .dbgHalt w => some (0x88, w.toBits)
  | .dbgResume w => some (0x89, w.toBits)
  | .add w => some (0x00, w.toBits)
  | .sub w => some (0x01, w.toBits)
  | .mul w => some (0x02, w.toBits)
  | .mulh w => some (0x03, w.toBits)
  | .div w => some (0x04, w.toBits)
  | .rem w => some (0x05, w.toBits)
  | .addi w => some (0x08, w.toBits)
  | .movi w => some (0x09, w.toBits)
  | .movl w => some (0x0A, w.toBits)
  | .mov w => some (0x0B, w.toBits)
  | .and w => some (0x10, w.toBits)
  | .or w => some (0x11, w.toBits)
  | .xor w => some (0x12, w.toBits)
  | .andn w => some (0x13, w.toBits)
  | .shl w => some (0x14, w.toBits)
  | .shr w => some (0x15, w.toBits)
  | .sra w => some (0x16, w.toBits)
  | .rot w => some (0x17, w.toBits)
  | .clz w => some (0x18, w.toBits)
  | .popc w => some (0x19, w.toBits)
  | .min w => some (0x1A, w.toBits)
  | .max w => some (0x1B, w.toBits)
  | .sel w => some (0x1C, w.toBits)
  | .cmpS w => some (0x1D, w.toBits)
  | .cmpP w => some (0x1E, w.toBits)
  | .aadd w => some (0x20, w.toBits)
  | .ainc w => some (0x22, w.toBits)
  | .amod w => some (0x23, w.toBits)
  | .asetA w => some (0x21, w.toBits)
  | .asetS w => some (0x21, w.toBits)
  | .fadd w => some (0x30, w.toBits)
  | .fsub w => some (0x31, w.toBits)
  | .fmul w => some (0x32, w.toBits)
  | .fma w => some (0x33, w.toBits)
  | .fmin w => some (0x34, w.toBits)
  | .fmax w => some (0x35, w.toBits)
  | .fcmpS w => some (0x36, w.toBits)
  | .fcmpP w => some (0x37, w.toBits)
  | .fcvt w => some (0x38, w.toBits)
  | .pand w => some (0x40, w.toBits)
  | .por w => some (0x41, w.toBits)
  | .pxor w => some (0x42, w.toBits)
  | .pnot w => some (0x43, w.toBits)
  | .pmov w => some (0x44, w.toBits)
  | .ldS w => some (0x00, w.toBits)
  | .ldV w => some (0x02, w.toBits)
  | .ldVB w => some (0x03, w.toBits)
  | .ldVG w => some (0x04, w.toBits)
  | .ldVQ w => some (0x05, w.toBits)
  | .ldt w => some (0x06, w.toBits)
  | .ldSW w => some (0x08, w.toBits)
  | .amoAdd w => some (0x10, w.toBits)
  | .amoMin w => some (0x11, w.toBits)
  | .amoMax w => some (0x12, w.toBits)
  | .amoXchg w => some (0x13, w.toBits)
  | .amoCas w => some (0x14, w.toBits)
  | .patld w => some (0x18, w.toBits)
  | .stS w => some (0x00, w.toBits)
  | .stV w => some (0x02, w.toBits)
  | .stVS w => some (0x04, w.toBits)
  | .stVC w => some (0x05, w.toBits)
  | .stSW w => some (0x08, w.toBits)
  | .vadd w => some (0x00, w.toBits)
  | .vsub w => some (0x01, w.toBits)
  | .vadds w => some (0x02, w.toBits)
  | .vsubs w => some (0x03, w.toBits)
  | .vmul w => some (0x04, w.toBits)
  | .vmulh w => some (0x05, w.toBits)
  | .vmad w => some (0x06, w.toBits)
  | .vdot4 w => some (0x07, w.toBits)
  | .vand w => some (0x08, w.toBits)
  | .vor w => some (0x09, w.toBits)
  | .vxor w => some (0x0A, w.toBits)
  | .vshl w => some (0x0B, w.toBits)
  | .vshr w => some (0x0C, w.toBits)
  | .vsra w => some (0x0D, w.toBits)
  | .vmin w => some (0x0E, w.toBits)
  | .vmax w => some (0x0F, w.toBits)
  | .vabs w => some (0x10, w.toBits)
  | .vneg w => some (0x11, w.toBits)
  | .vcmp w => some (0x18, w.toBits)
  | .vsel w => some (0x19, w.toBits)
  | .vmov w => some (0x1A, w.toBits)
  | .vbcastS w => some (0x1B, w.toBits)
  | .vbcastE w => some (0x1B, w.toBits)
  | .vfadd w => some (0x20, w.toBits)
  | .vfsub w => some (0x21, w.toBits)
  | .vfmul w => some (0x22, w.toBits)
  | .vfma w => some (0x23, w.toBits)
  | .vfmin w => some (0x24, w.toBits)
  | .vfmax w => some (0x25, w.toBits)
  | .vfabs w => some (0x26, w.toBits)
  | .vfcmp w => some (0x27, w.toBits)
  | .vcvt w => some (0x30, w.toBits)
  | .vpack w => some (0x31, w.toBits)
  | .vunpk w => some (0x32, w.toBits)
  | .vnarrow w => some (0x33, w.toBits)
  | .vredAdd w => some (0x38, w.toBits)
  | .vredMax w => some (0x39, w.toBits)
  | .vredMin w => some (0x3A, w.toBits)
  | .vscanAdd w => some (0x3B, w.toBits)
  | .vshuf w => some (0x40, w.toBits)
  | .patswap w => some (0x41, w.toBits)
  | .vperm w => some (0x42, w.toBits)
  | .vcompact w => some (0x43, w.toBits)
  | .vexpand w => some (0x44, w.toBits)
  | .vmapSet w => some (0x48, w.toBits)
  | .vmapCopy w => some (0x48, w.toBits)
  | .vmapOff w => some (0x48, w.toBits)
  | .vmapSlice w => some (0x48, w.toBits)
  | .vmapTr w => some (0x48, w.toBits)
  | .vmapNone w => some (0x48, w.toBits)
  | .vmapTag w => some (0x48, w.toBits)
  | .vcoord w => some (0x49, w.toBits)
  | .vnoise w => some (0x4A, w.toBits)
  | .vmaskcCausal w => some (0x4B, w.toBits)
  | .vmaskcBand w => some (0x4B, w.toBits)
  | .vmaskcWin w => some (0x4B, w.toBits)
  | .vmaskcLt w => some (0x4B, w.toBits)
  | .vmaskcGe w => some (0x4B, w.toBits)
  | .vtopk8 w => some (0x50, w.toBits)
  | .vsortStep w => some (0x51, w.toBits)
  | .vacr w => some (0x58, w.toBits)
  | .vacw w => some (0x59, w.toBits)
  | .vacwAdd w => some (0x59, w.toBits)
  | .vexp2 w => some (0x00, w.toBits)
  | .vexp w => some (0x01, w.toBits)
  | .vlog2 w => some (0x02, w.toBits)
  | .vln w => some (0x03, w.toBits)
  | .vrcp w => some (0x04, w.toBits)
  | .vrsq w => some (0x05, w.toBits)
  | .vsqrt w => some (0x06, w.toBits)
  | .vtanh w => some (0x07, w.toBits)
  | .vsigm w => some (0x08, w.toBits)
  | .verf w => some (0x09, w.toBits)
  | .vsincos w => some (0x0A, w.toBits)
  | .vpows w => some (0x0B, w.toBits)
  | .mma w => some (0x00, w.toBits)
  | .mmaZ w => some (0x03, w.toBits)
  | .mmaG w => some (0x02, w.toBits)
  | .mmaT w => some (0x01, w.toBits)
  | .mmaBS w => some (0x04, w.toBits)
  | .tzero w => some (0x08, w.toBits)
  | .tload w => some (0x09, w.toBits)
  | .tmap w => some (0x0A, w.toBits)
  | .twait w => some (0x0B, w.toBits)
  | .cpy w => some (0x00, w.toBits)
  | .cpym w => some (0x01, w.toBits)
  | .cpyl w => some (0x02, w.toBits)
  | .cpylTopk w => some (0x02, w.toBits)
  | .cpyh w => some (0x03, w.toBits)
  | .atomAdd w => some (0x08, w.toBits)
  | .atomMin w => some (0x08, w.toBits)
  | .atomMax w => some (0x08, w.toBits)
  | .atomXchg w => some (0x08, w.toBits)
  | .atomCas w => some (0x08, w.toBits)
  | .atomk w => some (0x09, w.toBits)
  | .collAR w => some (0x10, w.toBits)
  | .collRS w => some (0x11, w.toBits)
  | .collAG w => some (0x12, w.toBits)
  | .collA2A w => some (0x13, w.toBits)
  | .bkset w => some (0x18, w.toBits)
  | .kick w => some (0x19, w.toBits)
  | .sidx w => some (0x1A, w.toBits)
  | .rtabCommit w => some (0x1B, w.toBits)
  | .kvld w => some (0x20, w.toBits)
  | .kvapp w => some (0x21, w.toBits)
  | .kvremap w => some (0x22, w.toBits)
  | .kvshare w => some (0x23, w.toBits)
  | .kvprom w => some (0x24, w.toBits)
  | .pfxfind w => some (0x25, w.toBits)
  | .pfxins w => some (0x26, w.toBits)
  | .attn w => some (0x27, w.toBits)
  | .stnew w => some (0x30, w.toBits)
  | .splice w => some (0x31, w.toBits)
  | .stpin w => some (0x32, w.toBits)
  | .stunpin w => some (0x33, w.toBits)
  | .cpys w => some (0x34, w.toBits)
  | .swcpyIn w => some (0x38, w.toBits)
  | .swcpyOut w => some (0x38, w.toBits)
  | .swcpyDec w => some (0x38, w.toBits)
  | .swcpyMerge w => some (0x38, w.toBits)
  | .sweep w => some (0x39, w.toBits)
  | .fetchkv => none
  | .score => none
  | .scale => none
  | .mask => none
  | .smax => none
  | .weigh => none
  | .seqNext => none
  | .jump => none
  | .flush => none
  | .seqEnd => none
  | .submit => none
  | .memwr => none
  | .memrd => none
  | .root => none
  | .inval => none
  | .resume => none
  | .hunbind => none
  | .qcfg => none
  | .scfg => none
  | .kvcfg => none
  | .seqload => none
  | .stepgrp => none
  | .ftab => none
  | .collgrp => none
  | .rtabcfg => none
  | .domcfg => none
  | .abort => none
  | .attest => none
  | .dhalt => none
  | .dresume => none
  | .dread => none
  | .dbrk => none
  | .dprof => none
  | .dmaster => none
  | .statring => none
  | .capture => none
  | .framerel => none
  | .bundleDecode => none
  | .codeFetchLine => none
  | .pageWalk => none
  | .engineStart => none
  | .engineComplete => none
  | .cpymCoreCopy => none
  | .bucketFire => none
  | .stepVoteComplete => none
  | .fabricRequest => none
  | .promotionInstall => none
  | .repRepetition => none
  | .replayInject => none
  | .schedPass => none
  | .taskStart => none
  | .taskComplete => none
  | .ageTick => none
  | .gangReserve => none
  | .swapOut => none
  | .teamSaved => none
  | .freezeBoundary => none
  | .boundaryStop => none
  | .deadlineExpire => none
  | .forwardRetire => none
  | .afrUpdate => none
  | .powerGate => none
  | .powerHold => none
  | .thermalTrip => none
  | .powerOn => none
  | .firmwareAccept => none
  | .bootRetry => none
  | .watchdogExpire => none
  | .scanComplete => none
  | .scanAbortComplete => none
  | .holdExpire => none
  | .scrub => none
  | .preciseStop => none
  | .sample => none
  | .replaySubmit => none
  | .restore => none
  | .waitCycPasses => none
  | .freezeIssueHold => none
  | .messageUndeliverable => none
  | .powerRemoved => none

/-- Does the instruction stand in a unit that executes it (R36, R64)? True of what has no unit. -/
def Instr.unitOk : Instr → Bool
  | .nop w => w.hd.unit == .sy
  | .br w => w.hd.unit == .sy
  | .brp w => w.hd.unit == .sy
  | .brs w => w.hd.unit == .sy
  | .jmpi w => w.hd.unit == .sy
  | .call w => w.hd.unit == .sy
  | .ret w => w.hd.unit == .sy
  | .loop w => w.hd.unit == .sy
  | .rep w => w.hd.unit == .sy
  | .waitTok w => w.hd.unit == .sy
  | .waitCyc w => w.hd.unit == .sy
  | .retire w => w.hd.unit == .sy
  | .yield w => w.hd.unit == .sy
  | .launch w => w.hd.unit == .sy
  | .enq w => w.hd.unit == .sy
  | .trap w => w.hd.unit == .sy
  | .tren w => w.hd.unit == .sy
  | .tret w => w.hd.unit == .sy
  | .barInit w => w.hd.unit == .sy
  | .barArrive w => w.hd.unit == .sy
  | .barWait w => w.hd.unit == .sy
  | .drain w => w.hd.unit == .sy
  | .fenceQ w => w.hd.unit == .sy
  | .mfc w => w.hd.unit == .sy
  | .mtc w => w.hd.unit == .sy
  | .mtcTstat w => w.hd.unit == .sy
  | .mtcWaitlim w => w.hd.unit == .sy
  | .stepC w => w.hd.unit == .sy
  | .scanStart w => w.hd.unit == .sy
  | .scanAbort w => w.hd.unit == .sy
  | .scanRead w => w.hd.unit == .sy
  | .cmapSet w => w.hd.unit == .sy
  | .sqpop w => w.hd.unit == .sy
  | .dbgHalt w => w.hd.unit == .sy
  | .dbgResume w => w.hd.unit == .sy
  | .add w => w.hd.unit == .s0 || w.hd.unit == .s1
  | .sub w => w.hd.unit == .s0 || w.hd.unit == .s1
  | .mul w => w.hd.unit == .s0 || w.hd.unit == .s1
  | .mulh w => w.hd.unit == .s0 || w.hd.unit == .s1
  | .div w => w.hd.unit == .s0
  | .rem w => w.hd.unit == .s0
  | .addi w => w.hd.unit == .s0 || w.hd.unit == .s1
  | .movi w => w.hd.unit == .s0 || w.hd.unit == .s1
  | .movl w => w.hd.unit == .s0 || w.hd.unit == .s1
  | .mov w => w.hd.unit == .s0 || w.hd.unit == .s1
  | .and w => w.hd.unit == .s0 || w.hd.unit == .s1
  | .or w => w.hd.unit == .s0 || w.hd.unit == .s1
  | .xor w => w.hd.unit == .s0 || w.hd.unit == .s1
  | .andn w => w.hd.unit == .s0 || w.hd.unit == .s1
  | .shl w => w.hd.unit == .s0 || w.hd.unit == .s1
  | .shr w => w.hd.unit == .s0 || w.hd.unit == .s1
  | .sra w => w.hd.unit == .s0 || w.hd.unit == .s1
  | .rot w => w.hd.unit == .s0 || w.hd.unit == .s1
  | .clz w => w.hd.unit == .s0 || w.hd.unit == .s1
  | .popc w => w.hd.unit == .s0 || w.hd.unit == .s1
  | .min w => w.hd.unit == .s0 || w.hd.unit == .s1
  | .max w => w.hd.unit == .s0 || w.hd.unit == .s1
  | .sel w => w.hd.unit == .s0 || w.hd.unit == .s1
  | .cmpS w => w.hd.unit == .s0 || w.hd.unit == .s1
  | .cmpP w => w.hd.unit == .s0 || w.hd.unit == .s1
  | .aadd w => w.hd.unit == .s0 || w.hd.unit == .s1
  | .ainc w => w.hd.unit == .s0 || w.hd.unit == .s1
  | .amod w => w.hd.unit == .s0 || w.hd.unit == .s1
  | .asetA w => w.hd.unit == .s0 || w.hd.unit == .s1
  | .asetS w => w.hd.unit == .s0 || w.hd.unit == .s1
  | .fadd w => w.hd.unit == .s0 || w.hd.unit == .s1
  | .fsub w => w.hd.unit == .s0 || w.hd.unit == .s1
  | .fmul w => w.hd.unit == .s0 || w.hd.unit == .s1
  | .fma w => w.hd.unit == .s0 || w.hd.unit == .s1
  | .fmin w => w.hd.unit == .s0 || w.hd.unit == .s1
  | .fmax w => w.hd.unit == .s0 || w.hd.unit == .s1
  | .fcmpS w => w.hd.unit == .s0 || w.hd.unit == .s1
  | .fcmpP w => w.hd.unit == .s0 || w.hd.unit == .s1
  | .fcvt w => w.hd.unit == .s0 || w.hd.unit == .s1
  | .pand w => w.hd.unit == .s0 || w.hd.unit == .s1
  | .por w => w.hd.unit == .s0 || w.hd.unit == .s1
  | .pxor w => w.hd.unit == .s0 || w.hd.unit == .s1
  | .pnot w => w.hd.unit == .s0 || w.hd.unit == .s1
  | .pmov w => w.hd.unit == .s0 || w.hd.unit == .s1
  | .ldS w => w.hd.unit == .ld
  | .ldV w => w.hd.unit == .ld
  | .ldVB w => w.hd.unit == .ld
  | .ldVG w => w.hd.unit == .ld
  | .ldVQ w => w.hd.unit == .ld
  | .ldt w => w.hd.unit == .ld
  | .ldSW w => w.hd.unit == .ld
  | .amoAdd w => w.hd.unit == .ld
  | .amoMin w => w.hd.unit == .ld
  | .amoMax w => w.hd.unit == .ld
  | .amoXchg w => w.hd.unit == .ld
  | .amoCas w => w.hd.unit == .ld
  | .patld w => w.hd.unit == .ld
  | .stS w => w.hd.unit == .st
  | .stV w => w.hd.unit == .st
  | .stVS w => w.hd.unit == .st
  | .stVC w => w.hd.unit == .st
  | .stSW w => w.hd.unit == .st
  | .vadd w => w.hd.unit == .v0 || w.hd.unit == .v1 || w.hd.unit == .v2
  | .vsub w => w.hd.unit == .v0 || w.hd.unit == .v1 || w.hd.unit == .v2
  | .vadds w => w.hd.unit == .v0 || w.hd.unit == .v1 || w.hd.unit == .v2
  | .vsubs w => w.hd.unit == .v0 || w.hd.unit == .v1 || w.hd.unit == .v2
  | .vmul w => w.hd.unit == .v0 || w.hd.unit == .v1 || w.hd.unit == .v2
  | .vmulh w => w.hd.unit == .v0 || w.hd.unit == .v1 || w.hd.unit == .v2
  | .vmad w => w.hd.unit == .v0 || w.hd.unit == .v1 || w.hd.unit == .v2
  | .vdot4 w => w.hd.unit == .v0 || w.hd.unit == .v1 || w.hd.unit == .v2
  | .vand w => w.hd.unit == .v0 || w.hd.unit == .v1 || w.hd.unit == .v2
  | .vor w => w.hd.unit == .v0 || w.hd.unit == .v1 || w.hd.unit == .v2
  | .vxor w => w.hd.unit == .v0 || w.hd.unit == .v1 || w.hd.unit == .v2
  | .vshl w => w.hd.unit == .v0 || w.hd.unit == .v1 || w.hd.unit == .v2
  | .vshr w => w.hd.unit == .v0 || w.hd.unit == .v1 || w.hd.unit == .v2
  | .vsra w => w.hd.unit == .v0 || w.hd.unit == .v1 || w.hd.unit == .v2
  | .vmin w => w.hd.unit == .v0 || w.hd.unit == .v1 || w.hd.unit == .v2
  | .vmax w => w.hd.unit == .v0 || w.hd.unit == .v1 || w.hd.unit == .v2
  | .vabs w => w.hd.unit == .v0 || w.hd.unit == .v1 || w.hd.unit == .v2
  | .vneg w => w.hd.unit == .v0 || w.hd.unit == .v1 || w.hd.unit == .v2
  | .vcmp w => w.hd.unit == .v0 || w.hd.unit == .v1 || w.hd.unit == .v2
  | .vsel w => w.hd.unit == .v0 || w.hd.unit == .v1 || w.hd.unit == .v2
  | .vmov w => w.hd.unit == .v0 || w.hd.unit == .v1 || w.hd.unit == .v2
  | .vbcastS w => w.hd.unit == .v0 || w.hd.unit == .v1 || w.hd.unit == .v2
  | .vbcastE w => w.hd.unit == .v0 || w.hd.unit == .v1 || w.hd.unit == .v2
  | .vfadd w => w.hd.unit == .v0 || w.hd.unit == .v1 || w.hd.unit == .v2
  | .vfsub w => w.hd.unit == .v0 || w.hd.unit == .v1 || w.hd.unit == .v2
  | .vfmul w => w.hd.unit == .v0 || w.hd.unit == .v1 || w.hd.unit == .v2
  | .vfma w => w.hd.unit == .v0 || w.hd.unit == .v1 || w.hd.unit == .v2
  | .vfmin w => w.hd.unit == .v0 || w.hd.unit == .v1 || w.hd.unit == .v2
  | .vfmax w => w.hd.unit == .v0 || w.hd.unit == .v1 || w.hd.unit == .v2
  | .vfabs w => w.hd.unit == .v0 || w.hd.unit == .v1 || w.hd.unit == .v2
  | .vfcmp w => w.hd.unit == .v0 || w.hd.unit == .v1 || w.hd.unit == .v2
  | .vcvt w => w.hd.unit == .v0 || w.hd.unit == .v1 || w.hd.unit == .v2
  | .vpack w => w.hd.unit == .v0 || w.hd.unit == .v1 || w.hd.unit == .v2
  | .vunpk w => w.hd.unit == .v0 || w.hd.unit == .v1 || w.hd.unit == .v2
  | .vnarrow w => w.hd.unit == .v0 || w.hd.unit == .v1 || w.hd.unit == .v2
  | .vredAdd w => w.hd.unit == .v0 || w.hd.unit == .v1 || w.hd.unit == .v2
  | .vredMax w => w.hd.unit == .v0 || w.hd.unit == .v1 || w.hd.unit == .v2
  | .vredMin w => w.hd.unit == .v0 || w.hd.unit == .v1 || w.hd.unit == .v2
  | .vscanAdd w => w.hd.unit == .v0 || w.hd.unit == .v1 || w.hd.unit == .v2
  | .vshuf w => w.hd.unit == .v0 || w.hd.unit == .v1 || w.hd.unit == .v2
  | .patswap w => w.hd.unit == .v0 || w.hd.unit == .v1 || w.hd.unit == .v2
  | .vperm w => w.hd.unit == .v0 || w.hd.unit == .v1 || w.hd.unit == .v2
  | .vcompact w => w.hd.unit == .v0 || w.hd.unit == .v1 || w.hd.unit == .v2
  | .vexpand w => w.hd.unit == .v0 || w.hd.unit == .v1 || w.hd.unit == .v2
  | .vmapSet w => w.hd.unit == .v0 || w.hd.unit == .v1 || w.hd.unit == .v2
  | .vmapCopy w => w.hd.unit == .v0 || w.hd.unit == .v1 || w.hd.unit == .v2
  | .vmapOff w => w.hd.unit == .v0 || w.hd.unit == .v1 || w.hd.unit == .v2
  | .vmapSlice w => w.hd.unit == .v0 || w.hd.unit == .v1 || w.hd.unit == .v2
  | .vmapTr w => w.hd.unit == .v0 || w.hd.unit == .v1 || w.hd.unit == .v2
  | .vmapNone w => w.hd.unit == .v0 || w.hd.unit == .v1 || w.hd.unit == .v2
  | .vmapTag w => w.hd.unit == .v0 || w.hd.unit == .v1 || w.hd.unit == .v2
  | .vcoord w => w.hd.unit == .v0 || w.hd.unit == .v1 || w.hd.unit == .v2
  | .vnoise w => w.hd.unit == .v0 || w.hd.unit == .v1 || w.hd.unit == .v2
  | .vmaskcCausal w => w.hd.unit == .v0 || w.hd.unit == .v1 || w.hd.unit == .v2
  | .vmaskcBand w => w.hd.unit == .v0 || w.hd.unit == .v1 || w.hd.unit == .v2
  | .vmaskcWin w => w.hd.unit == .v0 || w.hd.unit == .v1 || w.hd.unit == .v2
  | .vmaskcLt w => w.hd.unit == .v0 || w.hd.unit == .v1 || w.hd.unit == .v2
  | .vmaskcGe w => w.hd.unit == .v0 || w.hd.unit == .v1 || w.hd.unit == .v2
  | .vtopk8 w => w.hd.unit == .v0 || w.hd.unit == .v1 || w.hd.unit == .v2
  | .vsortStep w => w.hd.unit == .v0 || w.hd.unit == .v1 || w.hd.unit == .v2
  | .vacr w => w.hd.unit == .v0 || w.hd.unit == .v1 || w.hd.unit == .v2
  | .vacw w => w.hd.unit == .v0 || w.hd.unit == .v1 || w.hd.unit == .v2
  | .vacwAdd w => w.hd.unit == .v0 || w.hd.unit == .v1 || w.hd.unit == .v2
  | .vexp2 w => w.hd.unit == .sf
  | .vexp w => w.hd.unit == .sf
  | .vlog2 w => w.hd.unit == .sf
  | .vln w => w.hd.unit == .sf
  | .vrcp w => w.hd.unit == .sf
  | .vrsq w => w.hd.unit == .sf
  | .vsqrt w => w.hd.unit == .sf
  | .vtanh w => w.hd.unit == .sf
  | .vsigm w => w.hd.unit == .sf
  | .verf w => w.hd.unit == .sf
  | .vsincos w => w.hd.unit == .sf
  | .vpows w => w.hd.unit == .sf
  | .mma w => w.hd.unit == .mx
  | .mmaZ w => w.hd.unit == .mx
  | .mmaG w => w.hd.unit == .mx
  | .mmaT w => w.hd.unit == .mx
  | .mmaBS w => w.hd.unit == .mx
  | .tzero w => w.hd.unit == .mx
  | .tload w => w.hd.unit == .mx
  | .tmap w => w.hd.unit == .mx
  | .twait w => w.hd.unit == .mx
  | .cpy w => w.hd.unit == .en
  | .cpym w => w.hd.unit == .en
  | .cpyl w => w.hd.unit == .en
  | .cpylTopk w => w.hd.unit == .en
  | .cpyh w => w.hd.unit == .en
  | .atomAdd w => w.hd.unit == .en
  | .atomMin w => w.hd.unit == .en
  | .atomMax w => w.hd.unit == .en
  | .atomXchg w => w.hd.unit == .en
  | .atomCas w => w.hd.unit == .en
  | .atomk w => w.hd.unit == .en
  | .collAR w => w.hd.unit == .en
  | .collRS w => w.hd.unit == .en
  | .collAG w => w.hd.unit == .en
  | .collA2A w => w.hd.unit == .en
  | .bkset w => w.hd.unit == .en
  | .kick w => w.hd.unit == .en
  | .sidx w => w.hd.unit == .en
  | .rtabCommit w => w.hd.unit == .en
  | .kvld w => w.hd.unit == .en
  | .kvapp w => w.hd.unit == .en
  | .kvremap w => w.hd.unit == .en
  | .kvshare w => w.hd.unit == .en
  | .kvprom w => w.hd.unit == .en
  | .pfxfind w => w.hd.unit == .en
  | .pfxins w => w.hd.unit == .en
  | .attn w => w.hd.unit == .en
  | .stnew w => w.hd.unit == .en
  | .splice w => w.hd.unit == .en
  | .stpin w => w.hd.unit == .en
  | .stunpin w => w.hd.unit == .en
  | .cpys w => w.hd.unit == .en
  | .swcpyIn w => w.hd.unit == .en
  | .swcpyOut w => w.hd.unit == .en
  | .swcpyDec w => w.hd.unit == .en
  | .swcpyMerge w => w.hd.unit == .en
  | .sweep w => w.hd.unit == .en
  | .fetchkv => true
  | .score => true
  | .scale => true
  | .mask => true
  | .smax => true
  | .weigh => true
  | .seqNext => true
  | .jump => true
  | .flush => true
  | .seqEnd => true
  | .submit => true
  | .memwr => true
  | .memrd => true
  | .root => true
  | .inval => true
  | .resume => true
  | .hunbind => true
  | .qcfg => true
  | .scfg => true
  | .kvcfg => true
  | .seqload => true
  | .stepgrp => true
  | .ftab => true
  | .collgrp => true
  | .rtabcfg => true
  | .domcfg => true
  | .abort => true
  | .attest => true
  | .dhalt => true
  | .dresume => true
  | .dread => true
  | .dbrk => true
  | .dprof => true
  | .dmaster => true
  | .statring => true
  | .capture => true
  | .framerel => true
  | .bundleDecode => true
  | .codeFetchLine => true
  | .pageWalk => true
  | .engineStart => true
  | .engineComplete => true
  | .cpymCoreCopy => true
  | .bucketFire => true
  | .stepVoteComplete => true
  | .fabricRequest => true
  | .promotionInstall => true
  | .repRepetition => true
  | .replayInject => true
  | .schedPass => true
  | .taskStart => true
  | .taskComplete => true
  | .ageTick => true
  | .gangReserve => true
  | .swapOut => true
  | .teamSaved => true
  | .freezeBoundary => true
  | .boundaryStop => true
  | .deadlineExpire => true
  | .forwardRetire => true
  | .afrUpdate => true
  | .powerGate => true
  | .powerHold => true
  | .thermalTrip => true
  | .powerOn => true
  | .firmwareAccept => true
  | .bootRetry => true
  | .watchdogExpire => true
  | .scanComplete => true
  | .scanAbortComplete => true
  | .holdExpire => true
  | .scrub => true
  | .preciseStop => true
  | .sample => true
  | .replaySubmit => true
  | .restore => true
  | .waitCycPasses => true
  | .freezeIssueHold => true
  | .messageUndeliverable => true
  | .powerRemoved => true

/-- The Where column (R61): may a control core (`true`) or a compute core (`false`) execute it? -/
def Instr.whereOk (control : Bool) : Instr → Bool
  | .nop _ => true
  | .br _ => true
  | .brp _ => true
  | .brs _ => true
  | .jmpi _ => true
  | .call _ => true
  | .ret _ => true
  | .loop _ => true
  | .rep _ => !control
  | .waitTok _ => true
  | .waitCyc _ => true
  | .retire _ => !control
  | .yield _ => !control
  | .launch _ => !control
  | .enq _ => true
  | .trap _ => true
  | .tren _ => true
  | .tret _ => true
  | .barInit _ => !control
  | .barArrive _ => !control
  | .barWait _ => !control
  | .drain _ => true
  | .fenceQ _ => true
  | .mfc _ => true
  | .mtc _ => true
  | .mtcTstat _ => true
  | .mtcWaitlim _ => true
  | .stepC _ => !control
  | .scanStart _ => control
  | .scanAbort _ => control
  | .scanRead _ => control
  | .cmapSet _ => control
  | .sqpop _ => control
  | .dbgHalt _ => control
  | .dbgResume _ => control
  | .add _ => true
  | .sub _ => true
  | .mul _ => true
  | .mulh _ => true
  | .div _ => true
  | .rem _ => true
  | .addi _ => true
  | .movi _ => true
  | .movl _ => true
  | .mov _ => true
  | .and _ => true
  | .or _ => true
  | .xor _ => true
  | .andn _ => true
  | .shl _ => true
  | .shr _ => true
  | .sra _ => true
  | .rot _ => true
  | .clz _ => true
  | .popc _ => true
  | .min _ => true
  | .max _ => true
  | .sel _ => true
  | .cmpS _ => true
  | .cmpP _ => true
  | .aadd _ => true
  | .ainc _ => true
  | .amod _ => true
  | .asetA _ => true
  | .asetS _ => true
  | .fadd _ => true
  | .fsub _ => true
  | .fmul _ => true
  | .fma _ => true
  | .fmin _ => true
  | .fmax _ => true
  | .fcmpS _ => true
  | .fcmpP _ => true
  | .fcvt _ => true
  | .pand _ => true
  | .por _ => true
  | .pxor _ => true
  | .pnot _ => true
  | .pmov _ => true
  | .ldS _ => true
  | .ldV _ => !control
  | .ldVB _ => !control
  | .ldVG _ => !control
  | .ldVQ _ => !control
  | .ldt _ => !control
  | .ldSW _ => !control
  | .amoAdd _ => true
  | .amoMin _ => true
  | .amoMax _ => true
  | .amoXchg _ => true
  | .amoCas _ => true
  | .patld _ => !control
  | .stS _ => true
  | .stV _ => !control
  | .stVS _ => !control
  | .stVC _ => !control
  | .stSW _ => !control
  | .vadd _ => !control
  | .vsub _ => !control
  | .vadds _ => !control
  | .vsubs _ => !control
  | .vmul _ => !control
  | .vmulh _ => !control
  | .vmad _ => !control
  | .vdot4 _ => !control
  | .vand _ => !control
  | .vor _ => !control
  | .vxor _ => !control
  | .vshl _ => !control
  | .vshr _ => !control
  | .vsra _ => !control
  | .vmin _ => !control
  | .vmax _ => !control
  | .vabs _ => !control
  | .vneg _ => !control
  | .vcmp _ => !control
  | .vsel _ => !control
  | .vmov _ => !control
  | .vbcastS _ => !control
  | .vbcastE _ => !control
  | .vfadd _ => !control
  | .vfsub _ => !control
  | .vfmul _ => !control
  | .vfma _ => !control
  | .vfmin _ => !control
  | .vfmax _ => !control
  | .vfabs _ => !control
  | .vfcmp _ => !control
  | .vcvt _ => !control
  | .vpack _ => !control
  | .vunpk _ => !control
  | .vnarrow _ => !control
  | .vredAdd _ => !control
  | .vredMax _ => !control
  | .vredMin _ => !control
  | .vscanAdd _ => !control
  | .vshuf _ => !control
  | .patswap _ => !control
  | .vperm _ => !control
  | .vcompact _ => !control
  | .vexpand _ => !control
  | .vmapSet _ => !control
  | .vmapCopy _ => !control
  | .vmapOff _ => !control
  | .vmapSlice _ => !control
  | .vmapTr _ => !control
  | .vmapNone _ => !control
  | .vmapTag _ => !control
  | .vcoord _ => !control
  | .vnoise _ => !control
  | .vmaskcCausal _ => !control
  | .vmaskcBand _ => !control
  | .vmaskcWin _ => !control
  | .vmaskcLt _ => !control
  | .vmaskcGe _ => !control
  | .vtopk8 _ => !control
  | .vsortStep _ => !control
  | .vacr _ => !control
  | .vacw _ => !control
  | .vacwAdd _ => !control
  | .vexp2 _ => !control
  | .vexp _ => !control
  | .vlog2 _ => !control
  | .vln _ => !control
  | .vrcp _ => !control
  | .vrsq _ => !control
  | .vsqrt _ => !control
  | .vtanh _ => !control
  | .vsigm _ => !control
  | .verf _ => !control
  | .vsincos _ => !control
  | .vpows _ => !control
  | .mma _ => !control
  | .mmaZ _ => !control
  | .mmaG _ => !control
  | .mmaT _ => !control
  | .mmaBS _ => !control
  | .tzero _ => !control
  | .tload _ => !control
  | .tmap _ => !control
  | .twait _ => !control
  | .cpy _ => true
  | .cpym _ => !control
  | .cpyl _ => !control
  | .cpylTopk _ => !control
  | .cpyh _ => true
  | .atomAdd _ => true
  | .atomMin _ => true
  | .atomMax _ => true
  | .atomXchg _ => true
  | .atomCas _ => true
  | .atomk _ => !control
  | .collAR _ => true
  | .collRS _ => true
  | .collAG _ => true
  | .collA2A _ => true
  | .bkset _ => true
  | .kick _ => true
  | .sidx _ => !control
  | .rtabCommit _ => true
  | .kvld _ => !control
  | .kvapp _ => !control
  | .kvremap _ => !control
  | .kvshare _ => !control
  | .kvprom _ => !control
  | .pfxfind _ => !control
  | .pfxins _ => !control
  | .attn _ => !control
  | .stnew _ => true
  | .splice _ => !control
  | .stpin _ => !control
  | .stunpin _ => !control
  | .cpys _ => !control
  | .swcpyIn _ => !control
  | .swcpyOut _ => !control
  | .swcpyDec _ => !control
  | .swcpyMerge _ => !control
  | .sweep _ => true
  | .fetchkv => true
  | .score => true
  | .scale => true
  | .mask => true
  | .smax => true
  | .weigh => true
  | .seqNext => true
  | .jump => true
  | .flush => true
  | .seqEnd => true
  | .submit => true
  | .memwr => true
  | .memrd => true
  | .root => true
  | .inval => true
  | .resume => true
  | .hunbind => true
  | .qcfg => true
  | .scfg => true
  | .kvcfg => true
  | .seqload => true
  | .stepgrp => true
  | .ftab => true
  | .collgrp => true
  | .rtabcfg => true
  | .domcfg => true
  | .abort => true
  | .attest => true
  | .dhalt => true
  | .dresume => true
  | .dread => true
  | .dbrk => true
  | .dprof => true
  | .dmaster => true
  | .statring => true
  | .capture => true
  | .framerel => true
  | .bundleDecode => true
  | .codeFetchLine => true
  | .pageWalk => true
  | .engineStart => true
  | .engineComplete => true
  | .cpymCoreCopy => true
  | .bucketFire => true
  | .stepVoteComplete => true
  | .fabricRequest => true
  | .promotionInstall => true
  | .repRepetition => true
  | .replayInject => true
  | .schedPass => true
  | .taskStart => true
  | .taskComplete => true
  | .ageTick => true
  | .gangReserve => true
  | .swapOut => true
  | .teamSaved => true
  | .freezeBoundary => true
  | .boundaryStop => true
  | .deadlineExpire => true
  | .forwardRetire => true
  | .afrUpdate => true
  | .powerGate => true
  | .powerHold => true
  | .thermalTrip => true
  | .powerOn => true
  | .firmwareAccept => true
  | .bootRetry => true
  | .watchdogExpire => true
  | .scanComplete => true
  | .scanAbortComplete => true
  | .holdExpire => true
  | .scrub => true
  | .preciseStop => true
  | .sample => true
  | .replaySubmit => true
  | .restore => true
  | .waitCycPasses => true
  | .freezeIssueHold => true
  | .messageUndeliverable => true
  | .powerRemoved => true

def ImmWord.encode (i : ImmWord) : Word :=
  (BitVec.ofBool i.stop ++ (15 : BitVec 4) ++ i.stall ++ i.value : BitVec 64)

def Head.encode (h : Head) (opc : BitVec 8) (p : BitVec 43) : Word :=
  (BitVec.ofBool h.stop ++ h.unit.code ++ h.stall ++ opc ++ h.guard ++ BitVec.ofBool h.gneg ++ p : BitVec 64)

/-- The words of an op word instruction: the word, and its IMM word where it has one (R35, R38, R43). -/
def encode (i : Instr) : Option (List Word) :=
  match i.head, i.opBits with
  | some h, some (opc, p) =>
    some (h.encode opc p :: (match h.imm with
                             | some im => [im.encode]
                             | none => []))
  | _, _ => none

/-- Decode the words an encoder gives: a word, or a word and its IMM word. -/
def decodeWords : List Word → Option Instr
  | [w] => decodeWord w none
  | [w, im] => if isImmWord im then decodeWord w (some im) else none
  | _ => none

/-! ## Microwords (R317, R319) -/

def MicroWord.ofBits (b : BitVec 96) : MicroWord :=
  { ts := b.extractLsb' 88 4, tOut := b.extractLsb' 84 4, n := b.extractLsb' 74 10, cond := b.extractLsb' 70 4,
    resv := b.extractLsb' 64 6, offb := b.extractLsb' 32 32, offa := b.extractLsb' 0 32 }

def MicroWord.toBits (mop : BitVec 4) (w : MicroWord) : BitVec 96 :=
  (mop ++ w.ts ++ w.tOut ++ w.n ++ w.cond ++ w.resv ++ w.offb ++ w.offa : BitVec 96)

/-- The micro-operation a MOP names; MOP 10 to 15 name none (R323). -/
def microOfCode (mop : Nat) : Option Instr :=
  match mop with
  | 0 => some .fetchkv
  | 1 => some .score
  | 2 => some .scale
  | 3 => some .mask
  | 4 => some .smax
  | 5 => some .weigh
  | 6 => some .seqNext
  | 7 => some .jump
  | 8 => some .flush
  | 9 => some .seqEnd
  | _ => none

/-- The MOP of a micro-operation (R319). -/
def Instr.mop : Instr → Option (BitVec 4)
  | .nop _ => none
  | .br _ => none
  | .brp _ => none
  | .brs _ => none
  | .jmpi _ => none
  | .call _ => none
  | .ret _ => none
  | .loop _ => none
  | .rep _ => none
  | .waitTok _ => none
  | .waitCyc _ => none
  | .retire _ => none
  | .yield _ => none
  | .launch _ => none
  | .enq _ => none
  | .trap _ => none
  | .tren _ => none
  | .tret _ => none
  | .barInit _ => none
  | .barArrive _ => none
  | .barWait _ => none
  | .drain _ => none
  | .fenceQ _ => none
  | .mfc _ => none
  | .mtc _ => none
  | .mtcTstat _ => none
  | .mtcWaitlim _ => none
  | .stepC _ => none
  | .scanStart _ => none
  | .scanAbort _ => none
  | .scanRead _ => none
  | .cmapSet _ => none
  | .sqpop _ => none
  | .dbgHalt _ => none
  | .dbgResume _ => none
  | .add _ => none
  | .sub _ => none
  | .mul _ => none
  | .mulh _ => none
  | .div _ => none
  | .rem _ => none
  | .addi _ => none
  | .movi _ => none
  | .movl _ => none
  | .mov _ => none
  | .and _ => none
  | .or _ => none
  | .xor _ => none
  | .andn _ => none
  | .shl _ => none
  | .shr _ => none
  | .sra _ => none
  | .rot _ => none
  | .clz _ => none
  | .popc _ => none
  | .min _ => none
  | .max _ => none
  | .sel _ => none
  | .cmpS _ => none
  | .cmpP _ => none
  | .aadd _ => none
  | .ainc _ => none
  | .amod _ => none
  | .asetA _ => none
  | .asetS _ => none
  | .fadd _ => none
  | .fsub _ => none
  | .fmul _ => none
  | .fma _ => none
  | .fmin _ => none
  | .fmax _ => none
  | .fcmpS _ => none
  | .fcmpP _ => none
  | .fcvt _ => none
  | .pand _ => none
  | .por _ => none
  | .pxor _ => none
  | .pnot _ => none
  | .pmov _ => none
  | .ldS _ => none
  | .ldV _ => none
  | .ldVB _ => none
  | .ldVG _ => none
  | .ldVQ _ => none
  | .ldt _ => none
  | .ldSW _ => none
  | .amoAdd _ => none
  | .amoMin _ => none
  | .amoMax _ => none
  | .amoXchg _ => none
  | .amoCas _ => none
  | .patld _ => none
  | .stS _ => none
  | .stV _ => none
  | .stVS _ => none
  | .stVC _ => none
  | .stSW _ => none
  | .vadd _ => none
  | .vsub _ => none
  | .vadds _ => none
  | .vsubs _ => none
  | .vmul _ => none
  | .vmulh _ => none
  | .vmad _ => none
  | .vdot4 _ => none
  | .vand _ => none
  | .vor _ => none
  | .vxor _ => none
  | .vshl _ => none
  | .vshr _ => none
  | .vsra _ => none
  | .vmin _ => none
  | .vmax _ => none
  | .vabs _ => none
  | .vneg _ => none
  | .vcmp _ => none
  | .vsel _ => none
  | .vmov _ => none
  | .vbcastS _ => none
  | .vbcastE _ => none
  | .vfadd _ => none
  | .vfsub _ => none
  | .vfmul _ => none
  | .vfma _ => none
  | .vfmin _ => none
  | .vfmax _ => none
  | .vfabs _ => none
  | .vfcmp _ => none
  | .vcvt _ => none
  | .vpack _ => none
  | .vunpk _ => none
  | .vnarrow _ => none
  | .vredAdd _ => none
  | .vredMax _ => none
  | .vredMin _ => none
  | .vscanAdd _ => none
  | .vshuf _ => none
  | .patswap _ => none
  | .vperm _ => none
  | .vcompact _ => none
  | .vexpand _ => none
  | .vmapSet _ => none
  | .vmapCopy _ => none
  | .vmapOff _ => none
  | .vmapSlice _ => none
  | .vmapTr _ => none
  | .vmapNone _ => none
  | .vmapTag _ => none
  | .vcoord _ => none
  | .vnoise _ => none
  | .vmaskcCausal _ => none
  | .vmaskcBand _ => none
  | .vmaskcWin _ => none
  | .vmaskcLt _ => none
  | .vmaskcGe _ => none
  | .vtopk8 _ => none
  | .vsortStep _ => none
  | .vacr _ => none
  | .vacw _ => none
  | .vacwAdd _ => none
  | .vexp2 _ => none
  | .vexp _ => none
  | .vlog2 _ => none
  | .vln _ => none
  | .vrcp _ => none
  | .vrsq _ => none
  | .vsqrt _ => none
  | .vtanh _ => none
  | .vsigm _ => none
  | .verf _ => none
  | .vsincos _ => none
  | .vpows _ => none
  | .mma _ => none
  | .mmaZ _ => none
  | .mmaG _ => none
  | .mmaT _ => none
  | .mmaBS _ => none
  | .tzero _ => none
  | .tload _ => none
  | .tmap _ => none
  | .twait _ => none
  | .cpy _ => none
  | .cpym _ => none
  | .cpyl _ => none
  | .cpylTopk _ => none
  | .cpyh _ => none
  | .atomAdd _ => none
  | .atomMin _ => none
  | .atomMax _ => none
  | .atomXchg _ => none
  | .atomCas _ => none
  | .atomk _ => none
  | .collAR _ => none
  | .collRS _ => none
  | .collAG _ => none
  | .collA2A _ => none
  | .bkset _ => none
  | .kick _ => none
  | .sidx _ => none
  | .rtabCommit _ => none
  | .kvld _ => none
  | .kvapp _ => none
  | .kvremap _ => none
  | .kvshare _ => none
  | .kvprom _ => none
  | .pfxfind _ => none
  | .pfxins _ => none
  | .attn _ => none
  | .stnew _ => none
  | .splice _ => none
  | .stpin _ => none
  | .stunpin _ => none
  | .cpys _ => none
  | .swcpyIn _ => none
  | .swcpyOut _ => none
  | .swcpyDec _ => none
  | .swcpyMerge _ => none
  | .sweep _ => none
  | .fetchkv => some 0
  | .score => some 1
  | .scale => some 2
  | .mask => some 3
  | .smax => some 4
  | .weigh => some 5
  | .seqNext => some 6
  | .jump => some 7
  | .flush => some 8
  | .seqEnd => some 9
  | .submit => none
  | .memwr => none
  | .memrd => none
  | .root => none
  | .inval => none
  | .resume => none
  | .hunbind => none
  | .qcfg => none
  | .scfg => none
  | .kvcfg => none
  | .seqload => none
  | .stepgrp => none
  | .ftab => none
  | .collgrp => none
  | .rtabcfg => none
  | .domcfg => none
  | .abort => none
  | .attest => none
  | .dhalt => none
  | .dresume => none
  | .dread => none
  | .dbrk => none
  | .dprof => none
  | .dmaster => none
  | .statring => none
  | .capture => none
  | .framerel => none
  | .bundleDecode => none
  | .codeFetchLine => none
  | .pageWalk => none
  | .engineStart => none
  | .engineComplete => none
  | .cpymCoreCopy => none
  | .bucketFire => none
  | .stepVoteComplete => none
  | .fabricRequest => none
  | .promotionInstall => none
  | .repRepetition => none
  | .replayInject => none
  | .schedPass => none
  | .taskStart => none
  | .taskComplete => none
  | .ageTick => none
  | .gangReserve => none
  | .swapOut => none
  | .teamSaved => none
  | .freezeBoundary => none
  | .boundaryStop => none
  | .deadlineExpire => none
  | .forwardRetire => none
  | .afrUpdate => none
  | .powerGate => none
  | .powerHold => none
  | .thermalTrip => none
  | .powerOn => none
  | .firmwareAccept => none
  | .bootRetry => none
  | .watchdogExpire => none
  | .scanComplete => none
  | .scanAbortComplete => none
  | .holdExpire => none
  | .scrub => none
  | .preciseStop => none
  | .sample => none
  | .replaySubmit => none
  | .restore => none
  | .waitCycPasses => none
  | .freezeIssueHold => none
  | .messageUndeliverable => none
  | .powerRemoved => none

/-- A microword: the micro-operation and its fields. -/
def readMicro (b : BitVec 96) : Option (Instr × MicroWord) :=
  (microOfCode (b.extractLsb' 92 4).toNat).map (fun i => (i, MicroWord.ofBits b))

def decodeMicro (b : BitVec 96) : Option (Instr × MicroWord) :=
  match readMicro b with
  | some (i, w) => if i.microOk w then some (i, w) else none
  | none => none

def encodeMicro (i : Instr) (w : MicroWord) : Option (BitVec 96) := i.mop.map (fun m => w.toBits m)

/-! ## Command packets (R361, R363, R384) -/

def Packet.ofHeader (stream : BitVec 3) (h : BitVec 256) (payload : List Byte) : Packet :=
  { stream := stream, resvA := h.extractLsb' 16 16, seq := h.extractLsb' 32 32, len := h.extractLsb' 64 12,
    resvB := h.extractLsb' 76 20, resvC := h.extractLsb' 96 32, arg0 := h.extractLsb' 128 64,
    arg1 := h.extractLsb' 192 64, payload := payload }

def Packet.toHeader (op : BitVec 16) (p : Packet) : BitVec 256 :=
  (p.arg1 ++ p.arg0 ++ p.resvC ++ p.resvB ++ p.len ++ p.seq ++ p.resvA ++ op : BitVec 256)

/-- The command an OP names, none for an OP that is not listed (STATUS 0x10, R363). -/
def commandOfCode (op : Nat) : Option Instr :=
  match op with
  | 0x0001 => some .submit
  | 0x0002 => some .memwr
  | 0x0003 => some .memrd
  | 0x0004 => some .root
  | 0x0005 => some .inval
  | 0x0006 => some .resume
  | 0x0007 => some .hunbind
  | 0x0010 => some .qcfg
  | 0x0011 => some .scfg
  | 0x0012 => some .kvcfg
  | 0x0013 => some .seqload
  | 0x0014 => some .stepgrp
  | 0x0015 => some .ftab
  | 0x0016 => some .collgrp
  | 0x0017 => some .rtabcfg
  | 0x0018 => some .domcfg
  | 0x0020 => some .abort
  | 0x0021 => some .attest
  | 0x0030 => some .dhalt
  | 0x0031 => some .dresume
  | 0x0032 => some .dread
  | 0x0033 => some .dbrk
  | 0x0034 => some .dprof
  | 0x0035 => some .dmaster
  | 0x0036 => some .statring
  | 0x0037 => some .capture
  | 0x0038 => some .framerel
  | _ => none

/-- The OP of a host command (R363, R384). -/
def Instr.hostOp : Instr → Option (BitVec 16)
  | .nop _ => none
  | .br _ => none
  | .brp _ => none
  | .brs _ => none
  | .jmpi _ => none
  | .call _ => none
  | .ret _ => none
  | .loop _ => none
  | .rep _ => none
  | .waitTok _ => none
  | .waitCyc _ => none
  | .retire _ => none
  | .yield _ => none
  | .launch _ => none
  | .enq _ => none
  | .trap _ => none
  | .tren _ => none
  | .tret _ => none
  | .barInit _ => none
  | .barArrive _ => none
  | .barWait _ => none
  | .drain _ => none
  | .fenceQ _ => none
  | .mfc _ => none
  | .mtc _ => none
  | .mtcTstat _ => none
  | .mtcWaitlim _ => none
  | .stepC _ => none
  | .scanStart _ => none
  | .scanAbort _ => none
  | .scanRead _ => none
  | .cmapSet _ => none
  | .sqpop _ => none
  | .dbgHalt _ => none
  | .dbgResume _ => none
  | .add _ => none
  | .sub _ => none
  | .mul _ => none
  | .mulh _ => none
  | .div _ => none
  | .rem _ => none
  | .addi _ => none
  | .movi _ => none
  | .movl _ => none
  | .mov _ => none
  | .and _ => none
  | .or _ => none
  | .xor _ => none
  | .andn _ => none
  | .shl _ => none
  | .shr _ => none
  | .sra _ => none
  | .rot _ => none
  | .clz _ => none
  | .popc _ => none
  | .min _ => none
  | .max _ => none
  | .sel _ => none
  | .cmpS _ => none
  | .cmpP _ => none
  | .aadd _ => none
  | .ainc _ => none
  | .amod _ => none
  | .asetA _ => none
  | .asetS _ => none
  | .fadd _ => none
  | .fsub _ => none
  | .fmul _ => none
  | .fma _ => none
  | .fmin _ => none
  | .fmax _ => none
  | .fcmpS _ => none
  | .fcmpP _ => none
  | .fcvt _ => none
  | .pand _ => none
  | .por _ => none
  | .pxor _ => none
  | .pnot _ => none
  | .pmov _ => none
  | .ldS _ => none
  | .ldV _ => none
  | .ldVB _ => none
  | .ldVG _ => none
  | .ldVQ _ => none
  | .ldt _ => none
  | .ldSW _ => none
  | .amoAdd _ => none
  | .amoMin _ => none
  | .amoMax _ => none
  | .amoXchg _ => none
  | .amoCas _ => none
  | .patld _ => none
  | .stS _ => none
  | .stV _ => none
  | .stVS _ => none
  | .stVC _ => none
  | .stSW _ => none
  | .vadd _ => none
  | .vsub _ => none
  | .vadds _ => none
  | .vsubs _ => none
  | .vmul _ => none
  | .vmulh _ => none
  | .vmad _ => none
  | .vdot4 _ => none
  | .vand _ => none
  | .vor _ => none
  | .vxor _ => none
  | .vshl _ => none
  | .vshr _ => none
  | .vsra _ => none
  | .vmin _ => none
  | .vmax _ => none
  | .vabs _ => none
  | .vneg _ => none
  | .vcmp _ => none
  | .vsel _ => none
  | .vmov _ => none
  | .vbcastS _ => none
  | .vbcastE _ => none
  | .vfadd _ => none
  | .vfsub _ => none
  | .vfmul _ => none
  | .vfma _ => none
  | .vfmin _ => none
  | .vfmax _ => none
  | .vfabs _ => none
  | .vfcmp _ => none
  | .vcvt _ => none
  | .vpack _ => none
  | .vunpk _ => none
  | .vnarrow _ => none
  | .vredAdd _ => none
  | .vredMax _ => none
  | .vredMin _ => none
  | .vscanAdd _ => none
  | .vshuf _ => none
  | .patswap _ => none
  | .vperm _ => none
  | .vcompact _ => none
  | .vexpand _ => none
  | .vmapSet _ => none
  | .vmapCopy _ => none
  | .vmapOff _ => none
  | .vmapSlice _ => none
  | .vmapTr _ => none
  | .vmapNone _ => none
  | .vmapTag _ => none
  | .vcoord _ => none
  | .vnoise _ => none
  | .vmaskcCausal _ => none
  | .vmaskcBand _ => none
  | .vmaskcWin _ => none
  | .vmaskcLt _ => none
  | .vmaskcGe _ => none
  | .vtopk8 _ => none
  | .vsortStep _ => none
  | .vacr _ => none
  | .vacw _ => none
  | .vacwAdd _ => none
  | .vexp2 _ => none
  | .vexp _ => none
  | .vlog2 _ => none
  | .vln _ => none
  | .vrcp _ => none
  | .vrsq _ => none
  | .vsqrt _ => none
  | .vtanh _ => none
  | .vsigm _ => none
  | .verf _ => none
  | .vsincos _ => none
  | .vpows _ => none
  | .mma _ => none
  | .mmaZ _ => none
  | .mmaG _ => none
  | .mmaT _ => none
  | .mmaBS _ => none
  | .tzero _ => none
  | .tload _ => none
  | .tmap _ => none
  | .twait _ => none
  | .cpy _ => none
  | .cpym _ => none
  | .cpyl _ => none
  | .cpylTopk _ => none
  | .cpyh _ => none
  | .atomAdd _ => none
  | .atomMin _ => none
  | .atomMax _ => none
  | .atomXchg _ => none
  | .atomCas _ => none
  | .atomk _ => none
  | .collAR _ => none
  | .collRS _ => none
  | .collAG _ => none
  | .collA2A _ => none
  | .bkset _ => none
  | .kick _ => none
  | .sidx _ => none
  | .rtabCommit _ => none
  | .kvld _ => none
  | .kvapp _ => none
  | .kvremap _ => none
  | .kvshare _ => none
  | .kvprom _ => none
  | .pfxfind _ => none
  | .pfxins _ => none
  | .attn _ => none
  | .stnew _ => none
  | .splice _ => none
  | .stpin _ => none
  | .stunpin _ => none
  | .cpys _ => none
  | .swcpyIn _ => none
  | .swcpyOut _ => none
  | .swcpyDec _ => none
  | .swcpyMerge _ => none
  | .sweep _ => none
  | .fetchkv => none
  | .score => none
  | .scale => none
  | .mask => none
  | .smax => none
  | .weigh => none
  | .seqNext => none
  | .jump => none
  | .flush => none
  | .seqEnd => none
  | .submit => some 0x0001
  | .memwr => some 0x0002
  | .memrd => some 0x0003
  | .root => some 0x0004
  | .inval => some 0x0005
  | .resume => some 0x0006
  | .hunbind => some 0x0007
  | .qcfg => some 0x0010
  | .scfg => some 0x0011
  | .kvcfg => some 0x0012
  | .seqload => some 0x0013
  | .stepgrp => some 0x0014
  | .ftab => some 0x0015
  | .collgrp => some 0x0016
  | .rtabcfg => some 0x0017
  | .domcfg => some 0x0018
  | .abort => some 0x0020
  | .attest => some 0x0021
  | .dhalt => some 0x0030
  | .dresume => some 0x0031
  | .dread => some 0x0032
  | .dbrk => some 0x0033
  | .dprof => some 0x0034
  | .dmaster => some 0x0035
  | .statring => some 0x0036
  | .capture => some 0x0037
  | .framerel => some 0x0038
  | .bundleDecode => none
  | .codeFetchLine => none
  | .pageWalk => none
  | .engineStart => none
  | .engineComplete => none
  | .cpymCoreCopy => none
  | .bucketFire => none
  | .stepVoteComplete => none
  | .fabricRequest => none
  | .promotionInstall => none
  | .repRepetition => none
  | .replayInject => none
  | .schedPass => none
  | .taskStart => none
  | .taskComplete => none
  | .ageTick => none
  | .gangReserve => none
  | .swapOut => none
  | .teamSaved => none
  | .freezeBoundary => none
  | .boundaryStop => none
  | .deadlineExpire => none
  | .forwardRetire => none
  | .afrUpdate => none
  | .powerGate => none
  | .powerHold => none
  | .thermalTrip => none
  | .powerOn => none
  | .firmwareAccept => none
  | .bootRetry => none
  | .watchdogExpire => none
  | .scanComplete => none
  | .scanAbortComplete => none
  | .holdExpire => none
  | .scrub => none
  | .preciseStop => none
  | .sample => none
  | .replaySubmit => none
  | .restore => none
  | .waitCycPasses => none
  | .freezeIssueHold => none
  | .messageUndeliverable => none
  | .powerRemoved => none

def decodePacket (stream : BitVec 3) (h : BitVec 256) (payload : List Byte) : Option (Instr × Packet) :=
  match commandOfCode (h.extractLsb' 0 16).toNat with
  | some i =>
    let p := Packet.ofHeader stream h payload
    if i.packetOk p then some (i, p) else none
  | none => none

def encodePacket (i : Instr) (p : Packet) : Option (BitVec 256 × List Byte) :=
  i.hostOp.map (fun op => (p.toHeader op, p.payload))

/-- The host's question: the instruction the decoder reads from bits numbered as the table numbers them. Up to 64
bits is an op word (its next word all zeros), up to 96 a microword, up to 256 the header of a packet without
payload. -/
def decodeTableWord (nbits w : Nat) : Option Instr :=
  if nbits ≤ 64 then decodeWord (BitVec.ofNat 64 w) none
  else if nbits ≤ 96 then (decodeMicro (BitVec.ofNat 96 w)).map (·.1)
  else if nbits ≤ 128 && isImmWord (BitVec.ofNat 64 (w >>> 64)) then
    decodeWord (BitVec.ofNat 64 w) (some (BitVec.ofNat 64 (w >>> 64)))
  else (decodePacket 0 (BitVec.ofNat 256 w) []).map (·.1)

/-! ## What a word names: registers and tiles (R15, R21, R26, R75) -/

/-- The registers and tiles an op word names, as sources and as destinations. A token register stands apart: it is a
destination of the command's completion (R26). -/
structure Refs where
  srcS : List Reg6 := []
  dstS : List Reg6 := []
  srcA : List Nat := []
  dstA : List Nat := []
  srcP : List Nat := []
  dstP : List Nat := []
  srcV : List Nat := []
  dstV : List Nat := []
  tiles : List (BitVec 4) := []
  tok : Option Reg6 := none
  deriving DecidableEq, Repr

def realV (l : List Reg6) : List Nat := (l.filter (fun v => v.toNat < 56)).map (·.toNat)

/-- A pseudo-operand that depends on a map (R45). -/
def mapPseudo (v : Reg6) : Bool := (56 ≤ v.toNat && v.toNat ≤ 59) || v == 61

/-- The real register sources; with none of them, a map-dependent pseudo-operand reads the destination's map (R45). -/
def vSrcs (dst : Reg6) (l : List Reg6) : List Nat :=
  if realV l == [] && l.any mapPseudo then [dst.toNat] else realV l

def regGroup (base q : Nat) : List Nat := (List.range q).map (base + ·)

/-- The register groups of a width-changing instruction (R133). -/
def convRefs (w : RWord) (src dst : BitVec 4) : Refs :=
  match widthChange src dst with
  | .equal => { srcV := vSrcs w.dst [w.a], dstV := [w.dst.toNat] }
  | .widen q => { srcV := vSrcs w.dst [w.a], dstV := regGroup w.dst.toNat q }
  | .narrow q =>
    { srcV := if w.a.toNat < 56 then regGroup w.a.toNat q else vSrcs w.dst [w.a], dstV := [w.dst.toNat] }

/-- The address register a post-increment updates (R12, R43). -/
def MWord.postA (w : MWord) : List Nat := if w.amode == 1 then [w.areg.toNat] else []

/-- The address register and the vector register that MAPM names (R164). -/
def MWord.mapA (w : MWord) : List Nat := if w.mapm == 3 then [w.c.toNat] else []
def MWord.mapV (w : MWord) : List Nat := if w.mapm == 1 || w.mapm == 2 then [w.c.toNat] else []

/-- AINC of an EN word (R190). -/
def EWord.ainc (w : EWord) : Bool := w.fn.getLsbD 10
def EWord.postA (w : EWord) : List Nat := if w.ainc then [w.a.toNat] else []

/-- The registers of an `ATOM`: the pair of B at `.dom`, the pair of C for `cas`, A with RET only (R205). -/
def EWord.atomRefs (w : EWord) : Refs :=
  { tok := some w.tok, srcA := if w.fn.getLsbD 7 then [w.a.toNat] else [], dstA := w.postA
    srcS := (if w.scope == 4 then [w.b, w.b + 1] else [w.b])
      ++ (if w.fn.extractLsb' 0 3 == 4 then [w.c, w.c + 1] else [w.c]) }

/-- What each op word names. -/
def Instr.refs : Instr → Refs
  | .nop _ => {}
  | .br _ => {}
  | .brp w => { srcP := [w.p.toNat] }
  | .brs w => { srcS := [w.a] }
  | .jmpi w => { srcS := [w.a] }
  | .call _ => { dstS := [63] }
  | .ret _ => { srcS := [63] }
  | .loop w => { srcS := if w.csrc then [w.a] else [] }
  | .rep w => { srcS := if w.csrc then [w.a] else [] }
  | .waitTok w => { srcS := [w.a] }
  | .waitCyc w => { srcS := [w.a] }
  | .retire _ => {}
  | .yield w => { srcS := [w.a] }
  | .launch w => { srcS := [w.a], tok := some w.d }
  | .enq w => { srcS := [w.a, w.b], tok := some w.d }
  | .trap _ => {}
  | .tren _ => {}
  | .tret _ => {}
  | .barInit w => { srcS := [w.a] }
  | .barArrive w => { dstS := [w.d] }
  | .barWait w => { srcS := [w.a] }
  | .drain _ => {}
  | .fenceQ _ => {}
  | .mfc w => { dstS := [w.d] }
  | .mtc w => { srcS := [w.a] }
  | .mtcTstat w => { srcS := [w.a] }
  | .mtcWaitlim w => { srcS := [w.a] }
  | .stepC w => { srcS := [w.a, w.b], tok := some w.d }
  | .scanStart w => { srcS := [w.a], tok := some w.d }
  | .scanAbort w => { srcS := [w.a] }
  | .scanRead w => { srcS := [w.a], dstS := [w.d] }
  | .cmapSet w => { srcS := [w.a, w.b] }
  | .sqpop w => { dstS := [w.d] }
  | .dbgHalt w => { srcS := [w.a], tok := some w.d }
  | .dbgResume w => { srcS := [w.a] }
  | .add w => { srcS := [w.a, w.b], dstS := [w.dst] }
  | .sub w => { srcS := [w.a, w.b], dstS := [w.dst] }
  | .mul w => { srcS := [w.a, w.b], dstS := [w.dst] }
  | .mulh w => { srcS := [w.a, w.b], dstS := [w.dst] }
  | .div w => { srcS := [w.a, w.b], dstS := [w.dst] }
  | .rem w => { srcS := [w.a, w.b], dstS := [w.dst] }
  | .addi w => { srcS := [w.a], dstS := [w.dst] }
  | .movi w => { dstS := [w.dst] }
  | .movl w => { srcS := [w.a], dstS := [w.dst] }
  | .mov w => { srcS := [w.a], dstS := [w.dst] }
  | .and w => { srcS := [w.a, w.b], dstS := [w.dst] }
  | .or w => { srcS := [w.a, w.b], dstS := [w.dst] }
  | .xor w => { srcS := [w.a, w.b], dstS := [w.dst] }
  | .andn w => { srcS := [w.a, w.b], dstS := [w.dst] }
  | .shl w => { srcS := [w.a, w.b], dstS := [w.dst] }
  | .shr w => { srcS := [w.a, w.b], dstS := [w.dst] }
  | .sra w => { srcS := [w.a, w.b], dstS := [w.dst] }
  | .rot w => { srcS := [w.a, w.b], dstS := [w.dst] }
  | .clz w => { srcS := [w.a], dstS := [w.dst] }
  | .popc w => { srcS := [w.a], dstS := [w.dst] }
  | .min w => { srcS := [w.a, w.b], dstS := [w.dst] }
  | .max w => { srcS := [w.a, w.b], dstS := [w.dst] }
  | .sel w => { srcS := [w.a, w.b], srcP := [w.c.toNat], dstS := [w.dst] }
  | .cmpS w => { srcS := [w.a, w.b], dstS := [w.dst] }
  | .cmpP w => { srcS := [w.a, w.b], dstP := [w.dst.toNat] }
  | .aadd w => { srcA := [w.a.toNat], dstA := [w.dst.toNat] }
  | .ainc w => { srcA := [w.a.toNat], dstA := [w.dst.toNat] }
  | .amod w => { srcA := [w.a.toNat], dstA := [w.dst.toNat] }
  | .asetA w => { srcS := [w.a], dstA := [w.dst.toNat] }
  | .asetS w => { srcA := [w.a.toNat], dstS := [w.dst] }
  | .fadd w => { srcS := [w.a, w.b], dstS := [w.dst] }
  | .fsub w => { srcS := [w.a, w.b], dstS := [w.dst] }
  | .fmul w => { srcS := [w.a, w.b], dstS := [w.dst] }
  | .fma w => { srcS := [w.a, w.b, w.c], dstS := [w.dst] }
  | .fmin w => { srcS := [w.a, w.b], dstS := [w.dst] }
  | .fmax w => { srcS := [w.a, w.b], dstS := [w.dst] }
  | .fcmpS w => { srcS := [w.a, w.b], dstS := [w.dst] }
  | .fcmpP w => { srcS := [w.a, w.b], dstP := [w.dst.toNat] }
  | .fcvt w => { srcS := [w.a], dstS := [w.dst] }
  | .pand w => { srcP := [w.a.toNat, w.b.toNat], dstP := [w.dst.toNat] }
  | .por w => { srcP := [w.a.toNat, w.b.toNat], dstP := [w.dst.toNat] }
  | .pxor w => { srcP := [w.a.toNat, w.b.toNat], dstP := [w.dst.toNat] }
  | .pnot w => { srcP := [w.a.toNat], dstP := [w.dst.toNat] }
  | .pmov w => { srcP := [w.a.toNat], dstP := [w.dst.toNat] }
  | .ldS w => { srcA := [w.areg.toNat], dstA := w.postA, dstS := [w.d] }
  | .ldV w => { srcA := w.areg.toNat :: w.mapA, dstA := w.postA, srcV := w.mapV, dstV := [w.d.toNat] }
  | .ldVB w => { srcA := [w.areg.toNat], dstA := w.postA, dstV := [w.d.toNat] }
  | .ldVG w => { srcA := [w.areg.toNat], dstA := w.postA, srcS := [w.c], srcV := [w.b.toNat], dstV := [w.d.toNat] }
  | .ldVQ w => { srcA := [w.areg.toNat], dstA := w.postA, srcS := [w.c], dstV := [w.d.toNat, w.b.toNat] }
  | .ldt w => { srcA := w.areg.toNat :: w.mapA, dstA := w.postA, srcV := w.mapV, dstV := [w.d.toNat] }
  | .ldSW w => { srcA := w.areg.toNat :: w.mapA, dstA := w.postA, srcV := w.mapV, dstV := [w.d.toNat] }
  | .amoAdd w => { srcA := [w.areg.toNat], dstA := w.postA, srcS := [w.b], dstS := [w.d] }
  | .amoMin w => { srcA := [w.areg.toNat], dstA := w.postA, srcS := [w.b], dstS := [w.d] }
  | .amoMax w => { srcA := [w.areg.toNat], dstA := w.postA, srcS := [w.b], dstS := [w.d] }
  | .amoXchg w => { srcA := [w.areg.toNat], dstA := w.postA, srcS := [w.b], dstS := [w.d] }
  | .amoCas w => { srcA := [w.areg.toNat], dstA := w.postA, srcS := [w.b, w.c], dstS := [w.d] }
  | .patld w => { srcA := [w.areg.toNat], dstA := w.postA }
  | .stS w => { srcA := [w.areg.toNat], dstA := w.postA, srcS := [w.d] }
  | .stV w => { srcA := [w.areg.toNat], dstA := w.postA, srcV := [w.d.toNat] }
  | .stVS w => { srcA := [w.areg.toNat], dstA := w.postA, srcV := [w.d.toNat, w.b.toNat] }
  | .stVC w => { srcA := [w.areg.toNat], dstA := w.postA, srcV := [w.d.toNat] }
  | .stSW w => { srcA := [w.areg.toNat], dstA := w.postA, srcV := [w.d.toNat] }
  | .vadd w => { srcV := vSrcs w.dst [w.a, w.b], dstV := [w.dst.toNat] }
  | .vsub w => { srcV := vSrcs w.dst [w.a, w.b], dstV := [w.dst.toNat] }
  | .vadds w => { srcV := vSrcs w.dst [w.a, w.b], dstV := [w.dst.toNat] }
  | .vsubs w => { srcV := vSrcs w.dst [w.a, w.b], dstV := [w.dst.toNat] }
  | .vmul w => { srcV := vSrcs w.dst [w.a, w.b], dstV := [w.dst.toNat] }
  | .vmulh w => { srcV := vSrcs w.dst [w.a, w.b], dstV := [w.dst.toNat] }
  | .vmad w => { srcV := vSrcs w.dst [w.a, w.b, w.c], dstV := [w.dst.toNat] }
  | .vdot4 w => { srcV := vSrcs w.dst [w.a, w.b, w.c], dstV := [w.dst.toNat] }
  | .vand w => { srcV := vSrcs w.dst [w.a, w.b], dstV := [w.dst.toNat] }
  | .vor w => { srcV := vSrcs w.dst [w.a, w.b], dstV := [w.dst.toNat] }
  | .vxor w => { srcV := vSrcs w.dst [w.a, w.b], dstV := [w.dst.toNat] }
  | .vshl w => { srcV := vSrcs w.dst [w.a, w.b], dstV := [w.dst.toNat] }
  | .vshr w => { srcV := vSrcs w.dst [w.a, w.b], dstV := [w.dst.toNat] }
  | .vsra w => { srcV := vSrcs w.dst [w.a, w.b], dstV := [w.dst.toNat] }
  | .vmin w => { srcV := vSrcs w.dst [w.a, w.b], dstV := [w.dst.toNat] }
  | .vmax w => { srcV := vSrcs w.dst [w.a, w.b], dstV := [w.dst.toNat] }
  | .vabs w => { srcV := vSrcs w.dst [w.a], dstV := [w.dst.toNat] }
  | .vneg w => { srcV := vSrcs w.dst [w.a], dstV := [w.dst.toNat] }
  | .vcmp w => { srcV := realV [w.a, w.b], dstP := [w.dst.toNat] }
  | .vsel w => { srcV := vSrcs w.dst [w.a, w.b], srcP := [w.c.toNat], dstV := [w.dst.toNat] }
  | .vmov w => { srcV := vSrcs w.dst [w.a], dstV := [w.dst.toNat] }
  | .vbcastS w => { srcS := [w.a], dstV := [w.dst.toNat] }
  | .vbcastE w => { srcV := vSrcs w.dst [w.a], dstV := [w.dst.toNat] }
  | .vfadd w => { srcV := vSrcs w.dst [w.a, w.b], dstV := [w.dst.toNat] }
  | .vfsub w => { srcV := vSrcs w.dst [w.a, w.b], dstV := [w.dst.toNat] }
  | .vfmul w => { srcV := vSrcs w.dst [w.a, w.b], dstV := [w.dst.toNat] }
  | .vfma w => { srcV := vSrcs w.dst [w.a, w.b, w.c], dstV := [w.dst.toNat] }
  | .vfmin w => { srcV := vSrcs w.dst [w.a, w.b], dstV := [w.dst.toNat] }
  | .vfmax w => { srcV := vSrcs w.dst [w.a, w.b], dstV := [w.dst.toNat] }
  | .vfabs w => { srcV := vSrcs w.dst [w.a], dstV := [w.dst.toNat] }
  | .vfcmp w => { srcV := realV [w.a, w.b], dstP := [w.dst.toNat] }
  | .vcvt w => convRefs w (w.fn.extractLsb' 0 4) w.ty
  | .vpack w => convRefs w (w.fn.extractLsb' 0 4) w.ty
  | .vunpk w => convRefs w (w.fn.extractLsb' 0 4) w.ty
  | .vnarrow w => convRefs w (if w.fn.extractLsb' 0 4 == 0 then 3 else w.fn.extractLsb' 0 4) (if w.ty == 0 then 2 else w.ty)
  | .vredAdd w => { srcV := vSrcs w.dst [w.a], srcP := [w.c.toNat], dstV := [w.dst.toNat] }
  | .vredMax w => { srcV := vSrcs w.dst [w.a], srcP := [w.c.toNat], dstV := [w.dst.toNat] }
  | .vredMin w => { srcV := vSrcs w.dst [w.a], srcP := [w.c.toNat], dstV := [w.dst.toNat] }
  | .vscanAdd w => { srcV := vSrcs w.dst [w.a], srcP := [w.c.toNat], dstV := [w.dst.toNat] }
  | .vshuf w => { srcV := vSrcs w.dst [w.a], dstV := [w.dst.toNat] }
  | .patswap _ => {}
  | .vperm w => { srcV := vSrcs w.dst [w.a, w.b], dstV := [w.dst.toNat] }
  | .vcompact w => { srcV := vSrcs w.dst [w.a], srcP := [w.c.toNat], dstV := w.dst.toNat :: realV [w.b] }
  | .vexpand w => { srcV := vSrcs w.dst [w.a, w.b], srcP := [w.c.toNat], dstV := [w.dst.toNat] }
  | .vmapSet w => { srcV := vSrcs w.dst [w.a], dstV := [w.dst.toNat] }
  | .vmapCopy w => { srcV := vSrcs w.dst [w.a], dstV := [w.dst.toNat] }
  | .vmapOff w => { srcV := vSrcs w.dst [w.a], dstV := [w.dst.toNat] }
  | .vmapSlice w => { srcV := vSrcs w.dst [w.a], dstV := [w.dst.toNat] }
  | .vmapTr w => { srcV := vSrcs w.dst [w.a], dstV := [w.dst.toNat] }
  | .vmapNone w => { dstV := [w.dst.toNat] }
  | .vmapTag w => { srcV := vSrcs w.dst [w.a], dstV := [w.dst.toNat] }
  | .vcoord w => { srcV := [w.a.toNat], dstV := [w.dst.toNat] }
  | .vnoise w => { srcV := [w.a.toNat], srcS := [w.b], dstV := [w.dst.toNat] }
  | .vmaskcCausal w => { srcV := realV [w.a], srcS := if w.fn.getLsbD 4 then [w.b, w.c] else [w.b], dstP := [w.dst.toNat] }
  | .vmaskcBand w => { srcV := realV [w.a], srcS := if w.fn.getLsbD 4 then [w.b, w.c] else [w.b], dstP := [w.dst.toNat] }
  | .vmaskcWin w => { srcV := realV [w.a], srcS := if w.fn.getLsbD 4 then [w.b, w.c] else [w.b], dstP := [w.dst.toNat] }
  | .vmaskcLt w => { srcV := realV [w.a], srcS := if w.fn.getLsbD 4 then [w.b, w.c] else [w.b], dstP := [w.dst.toNat] }
  | .vmaskcGe w => { srcV := realV [w.a], srcS := if w.fn.getLsbD 4 then [w.b, w.c] else [w.b], dstP := [w.dst.toNat] }
  | .vtopk8 w => { srcV := [w.a.toNat, w.a.toNat + 1, w.b.toNat, w.b.toNat + 1], dstV := [w.dst.toNat, w.dst.toNat + 1] }
  | .vsortStep w => { srcV := [w.a.toNat, w.a.toNat + 1], dstV := [w.dst.toNat, w.dst.toNat + 1] }
  | .vacr w => { srcS := [w.b], dstV := [w.dst.toNat], tiles := [w.fn.extractLsb' 0 4] }
  | .vacw w => { srcV := realV [w.a], srcS := [w.b], tiles := [w.fn.extractLsb' 0 4] }
  | .vacwAdd w => { srcV := realV [w.a], srcS := [w.b], tiles := [w.fn.extractLsb' 0 4] }
  | .vexp2 w => { srcV := vSrcs w.dst [w.a], dstV := [w.dst.toNat] }
  | .vexp w => { srcV := vSrcs w.dst [w.a], dstV := [w.dst.toNat] }
  | .vlog2 w => { srcV := vSrcs w.dst [w.a], dstV := [w.dst.toNat] }
  | .vln w => { srcV := vSrcs w.dst [w.a], dstV := [w.dst.toNat] }
  | .vrcp w => { srcV := vSrcs w.dst [w.a], dstV := [w.dst.toNat] }
  | .vrsq w => { srcV := vSrcs w.dst [w.a], dstV := [w.dst.toNat] }
  | .vsqrt w => { srcV := vSrcs w.dst [w.a], dstV := [w.dst.toNat] }
  | .vtanh w => { srcV := vSrcs w.dst [w.a], dstV := [w.dst.toNat] }
  | .vsigm w => { srcV := vSrcs w.dst [w.a], dstV := [w.dst.toNat] }
  | .verf w => { srcV := vSrcs w.dst [w.a], dstV := [w.dst.toNat] }
  | .vsincos w => { srcV := vSrcs w.dst [w.a], dstV := [w.dst.toNat, w.c.toNat] }
  | .vpows w => { srcV := vSrcs w.dst [w.a, w.b], dstV := [w.dst.toNat] }
  | .mma w => { srcA := [w.aa.toNat, w.ab.toNat], tiles := [w.td] }
  | .mmaZ w => { srcA := [w.aa.toNat, w.ab.toNat], tiles := [w.td] }
  | .mmaG w => { srcA := [w.aa.toNat, w.ab.toNat], srcV := [w.vi.toNat], tiles := [w.td] }
  | .mmaT w => { srcA := [w.aa.toNat, w.ab.toNat], tiles := [w.td] }
  | .mmaBS w => { srcA := [w.aa.toNat, w.ab.toNat, w.ax.toNat], tiles := [w.td] }
  | .tzero w => { tiles := [w.td] }
  | .tload w => { srcA := [w.aa.toNat], tiles := [w.td] }
  | .tmap w => { srcA := [w.aa.toNat], tiles := [w.td] }
  | .twait w => { tiles := [w.td] }
  | .cpy w => { srcA := [w.a.toNat], dstA := w.postA, tok := some w.tok }
  | .cpym w => { srcA := [w.a.toNat], dstA := w.postA, tok := some w.tok, srcS := [w.b] }
  | .cpyl w => { srcA := [w.a.toNat], dstA := w.postA, tok := some w.tok, srcS := [w.b], tiles := [w.fn.extractLsb' 0 4] }
  | .cpylTopk w => { srcA := [w.a.toNat], dstA := w.postA, tok := some w.tok, srcS := [w.b, w.c], tiles := [w.fn.extractLsb' 0 4] }
  | .cpyh w => { srcA := [w.a.toNat], dstA := w.postA, tok := some w.tok, srcS := [w.b] }
  | .atomAdd w => w.atomRefs
  | .atomMin w => w.atomRefs
  | .atomMax w => w.atomRefs
  | .atomXchg w => w.atomRefs
  | .atomCas w => w.atomRefs
  | .atomk w => { srcA := [w.a.toNat], dstA := w.postA, tok := some w.tok, srcS := if w.scope == 4 then [w.b, w.b + 1, w.c] else [w.b, w.c] }
  | .collAR w => { srcA := [w.a.toNat], dstA := w.postA, tok := some w.tok }
  | .collRS w => { srcA := [w.a.toNat], dstA := w.postA, tok := some w.tok }
  | .collAG w => { srcA := [w.a.toNat], dstA := w.postA, tok := some w.tok }
  | .collA2A w => { srcA := [w.a.toNat], dstA := w.postA, tok := some w.tok }
  | .bkset w => { srcA := [w.a.toNat], dstA := w.postA, tok := some w.tok, srcS := [w.b, w.c] }
  | .kick w => { tok := some w.tok, srcS := [w.b] }
  | .sidx w => { srcA := [w.a.toNat], dstA := w.postA, tok := some w.tok }
  | .rtabCommit w => { tok := some w.tok, srcS := [w.b] }
  | .kvld w => { srcA := [w.a.toNat], dstA := w.postA, tok := some w.tok, srcS := [w.b, w.c] }
  | .kvapp w => { srcA := [w.a.toNat], dstA := w.postA, tok := some w.tok, srcS := [w.b, w.c] }
  | .kvremap w => { srcA := [w.a.toNat], dstA := w.postA, tok := some w.tok, srcS := [w.c] }
  | .kvshare w => { srcA := [w.a.toNat], dstA := w.postA, tok := some w.tok, srcS := [w.b, w.c] }
  | .kvprom w => { tok := some w.tok, srcS := [w.b, w.c] }
  | .pfxfind w => { tok := some w.tok, srcS := [w.b] }
  | .pfxins w => { tok := some w.tok, srcS := [w.b, w.c] }
  | .attn w => { srcA := [w.a.toNat], dstA := w.postA, tok := some w.tok }
  | .stnew w => { srcA := [w.a.toNat], dstA := w.postA, tok := some w.tok }
  | .splice w => { srcA := [w.a.toNat], dstA := w.postA, tok := some w.tok }
  | .stpin w => { tok := some w.tok, srcS := [w.b] }
  | .stunpin w => { tok := some w.tok, srcS := [w.b, w.c] }
  | .cpys w => { srcA := [w.a.toNat], dstA := w.postA, tok := some w.tok, srcS := [w.b, w.c] }
  | .swcpyIn w => { srcA := [w.a.toNat], dstA := w.postA, tok := some w.tok }
  | .swcpyOut w => { srcA := [w.a.toNat], dstA := w.postA, tok := some w.tok }
  | .swcpyDec w => { srcA := [w.a.toNat], dstA := w.postA, tok := some w.tok }
  | .swcpyMerge w => { srcA := [w.a.toNat], dstA := w.postA, tok := some w.tok }
  | .sweep w => { srcA := [w.a.toNat], dstA := w.postA, tok := some w.tok }
  | .fetchkv => {}
  | .score => {}
  | .scale => {}
  | .mask => {}
  | .smax => {}
  | .weigh => {}
  | .seqNext => {}
  | .jump => {}
  | .flush => {}
  | .seqEnd => {}
  | .submit => {}
  | .memwr => {}
  | .memrd => {}
  | .root => {}
  | .inval => {}
  | .resume => {}
  | .hunbind => {}
  | .qcfg => {}
  | .scfg => {}
  | .kvcfg => {}
  | .seqload => {}
  | .stepgrp => {}
  | .ftab => {}
  | .collgrp => {}
  | .rtabcfg => {}
  | .domcfg => {}
  | .abort => {}
  | .attest => {}
  | .dhalt => {}
  | .dresume => {}
  | .dread => {}
  | .dbrk => {}
  | .dprof => {}
  | .dmaster => {}
  | .statring => {}
  | .capture => {}
  | .framerel => {}
  | .bundleDecode => {}
  | .codeFetchLine => {}
  | .pageWalk => {}
  | .engineStart => {}
  | .engineComplete => {}
  | .cpymCoreCopy => {}
  | .bucketFire => {}
  | .stepVoteComplete => {}
  | .fabricRequest => {}
  | .promotionInstall => {}
  | .repRepetition => {}
  | .replayInject => {}
  | .schedPass => {}
  | .taskStart => {}
  | .taskComplete => {}
  | .ageTick => {}
  | .gangReserve => {}
  | .swapOut => {}
  | .teamSaved => {}
  | .freezeBoundary => {}
  | .boundaryStop => {}
  | .deadlineExpire => {}
  | .forwardRetire => {}
  | .afrUpdate => {}
  | .powerGate => {}
  | .powerHold => {}
  | .thermalTrip => {}
  | .powerOn => {}
  | .firmwareAccept => {}
  | .bootRetry => {}
  | .watchdogExpire => {}
  | .scanComplete => {}
  | .scanAbortComplete => {}
  | .holdExpire => {}
  | .scrub => {}
  | .preciseStop => {}
  | .sample => {}
  | .replaySubmit => {}
  | .restore => {}
  | .waitCycPasses => {}
  | .freezeIssueHold => {}
  | .messageUndeliverable => {}
  | .powerRemoved => {}

/-- The guard predicate is read as well, guarded or not (R40). -/
def Instr.guardP (i : Instr) : List Nat :=
  match i.head with
  | some h => if h.guard == 0 then [] else [h.guard.toNat]
  | none => []

/-! ## Decode of a bundle (R71) -/

/-- What a decode check depends on beside the words: the kind of core, the partition's vector registers and tiles
(R15, R21), and whether the bundle belongs to the body of an active loop (R80). -/
structure DecodeEnv where
  control : Bool
  vregs : Nat
  tiles : Nat
  inBody : Bool
  deriving DecidableEq, Repr

/-- A failed decode check: the cause and the word charged with it (R51, R71). -/
structure DecodeTrap where
  cause : Cause
  word : Word
  deriving DecidableEq, Repr

/-- Control registers by number (R27, R401): assigned, and whether only a control core has it. -/
def cregAssigned (n : Nat) : Bool :=
  n ≤ 5 || (8 ≤ n && n ≤ 11) || (0x10 ≤ n && n ≤ 0x13) || (0x20 ≤ n && n ≤ 0x24)

def cregControlOnly (n : Nat) : Bool := 0x20 ≤ n && n ≤ 0x24

/-- The control register number of `MFC` and `MTC` (R76). -/
def Instr.creg? : Instr → Option Nat
  | .mfc w => some (w.fn.toNat % 256)
  | .mtc w => some (w.fn.toNat % 256)
  | .mtcTstat w => some (w.fn.toNat % 256)
  | .mtcWaitlim w => some (w.fn.toNat % 256)
  | _ => none

/-- The words barred in the body of an active loop (R80). -/
def Instr.barredInBody : Instr → Bool
  | .br _ => true
  | .brp _ => true
  | .brs _ => true
  | .call _ => true
  | .ret _ => true
  | .jmpi _ => true
  | .loop _ => true
  | .yield _ => true
  | .retire _ => true
  | .trap _ => true
  | .tret _ => true
  | _ => false

def Instr.isPatswap : Instr → Bool
  | .patswap _ => true
  | _ => false

/-- Checks 4 to 9 of R71 step 3 on one non-IMM word, with the IMM word that follows it in the bundle and the words
already accepted (for R67). -/
def checkWord (env : DecodeEnv) (earlier : List Instr) (w : Word) (imm : Option Word) : Except Cause Instr :=
  match readWord w imm with
  | .unassigned => .error .illOpc
  | .badSub => .error .illField
  | .instr i =>
    let r := i.refs
    if !i.whereOk env.control then .error .illOpc
    else if !i.wellFormed || (i.isPatswap && earlier.any Instr.isPatswap) then .error .illField
    else if (r.srcV ++ r.dstV).any (fun v => env.vregs ≤ v) then .error .illVreg
    else if r.tiles.any (fun t => env.tiles ≤ t.toNat) then .error .illTile
    else if (match i.creg? with
             | some n => !cregAssigned n || (cregControlOnly n && !env.control)
             | none => false) then .error .illCreg
    else if env.inBody && i.barredInBody then .error .loopBody
    else .ok i

/-- R71 step 3 over the words of a bundle in address order; `prev` is the last non-IMM unit code and `immOk` says
that an IMM word may stand here. -/
def checkWords (env : DecodeEnv) (prev : Option Nat) (immOk : Bool) (acc : List Instr) :
    List Word → Except DecodeTrap (List Instr)
  | [] => .ok acc.reverse
  | w :: rest =>
    let u := (w.extractLsb' 59 4).toNat
    if (11 ≤ u && u ≤ 14) || (env.control && 5 ≤ u && u ≤ 9) then .error { cause := .illUnit, word := w }
    else if u == 15 then
      if !immOk then .error { cause := .illOrder, word := w }
      else if !w.getLsbD 63 && w.extractLsb' 56 3 != 0 then .error { cause := .illField, word := w }
      else checkWords env prev false acc rest
    else if prev.any (fun p => u ≤ p) then .error { cause := .illOrder, word := w }
    else if !w.getLsbD 63 && w.extractLsb' 56 3 != 0 then .error { cause := .illField, word := w }
    else
      let imm := match rest with
        | n :: _ => if isImmWord n then some n else none
        | [] => none
      match checkWord env acc w imm with
      | .error c => .error { cause := c, word := w }
      | .ok i => checkWords env (some u) true (i :: acc) rest

/-- The words of the bundle among the first eight: up to the first with STOP (R37). -/
def bundleWords : List Word → Option (List Word)
  | [] => none
  | w :: rest => if w.getLsbD 63 then some [w] else (bundleWords rest).map (w :: ·)

def Instr.isRep : Instr → Bool
  | .rep _ => true
  | _ => false

/-- An MX word that `REP` may repeat: not `TMAP` and not `TWAIT` (R179). -/
def Instr.repeatable : Instr → Bool
  | .mma _ => true
  | .mmaZ _ => true
  | .mmaG _ => true
  | .mmaT _ => true
  | .mmaBS _ => true
  | .tzero _ => true
  | .tload _ => true
  | _ => false

/-- R71 steps 2 to 4: the instructions of a bundle, or the trap. `ws` are the first eight words at the bundle
address. -/
def decodeBundle (env : DecodeEnv) (ws : List Word) : Except DecodeTrap (List Instr) :=
  match bundleWords ws with
  | none => .error { cause := .illLen, word := ws.getD 7 0 }
  | some bs =>
    match checkWords env none false [] bs with
    | .error t => .error t
    | .ok is =>
      if is.any Instr.isRep && !is.any Instr.repeatable then .error { cause := .illField, word := bs.headD 0 }
      else .ok is

/-- TMASK after a decode trap: the bit of the charged word's unit when it is 0 to 10 (R51). -/
def unitMask (w : Word) : BitVec 11 :=
  let u := (w.extractLsb' 59 4).toNat
  if u ≤ 10 then BitVec.ofNat 11 (2 ^ u) else 0

end Sys2Proof
end

