-- ==== Sys2Proof/Machine/Float.lean ====
section
/-! DEFINITION. Number formats and exact arithmetic (R107 to R115, R118): a float pattern is decoded to an exact
value, operations are exact, and one rounding ends each of them. -/

namespace Sys2Proof.Machine

/-- The exceptions of one element (R123). -/
structure Exc where
  inv : Bool
  ovf : Bool
  unf : Bool
  inx : Bool
  deriving DecidableEq, Repr

/-- No exception. -/
def excNone : Exc := { inv := false, ovf := false, unf := false, inx := false }

def excInvalid : Exc := { inv := true, ovf := false, unf := false, inx := false }

def Exc.or (a b : Exc) : Exc :=
  { inv := a.inv || b.inv, ovf := a.ovf || b.ovf, unf := a.unf || b.unf, inx := a.inx || b.inx }

/-- An exact value: a NaN keeps its sign, its fraction left-aligned to 23 bits, and whether it signals; a finite value
is (-1)^neg * m * 2^e. -/
inductive FVal
  | nan (neg : Bool) (frac : Nat) (signals : Bool)
  | inf (neg : Bool)
  | fin (neg : Bool) (m : Nat) (e : Int)
  deriving DecidableEq, Repr

/-- A float format (R107). -/
structure FloatFmt where
  width : Nat
  fbits : Nat
  emax : Nat
  bias : Int
  noInf : Bool
  deriving DecidableEq, Repr

def fp32 : FloatFmt := { width := 32, fbits := 23, emax := 255, bias := 127, noInf := false }
def bf16 : FloatFmt := { width := 16, fbits := 7, emax := 255, bias := 127, noInf := false }
def fp16 : FloatFmt := { width := 16, fbits := 10, emax := 31, bias := 15, noInf := false }
def e5m2 : FloatFmt := { width := 8, fbits := 2, emax := 31, bias := 15, noInf := false }
def e4m3 : FloatFmt := { width := 8, fbits := 3, emax := 15, bias := 7, noInf := true }

/-- The format of a float type code (R46): FP32 for TYPE 0 in a float instruction. -/
def fmtOf (t : BitVec 4) : FloatFmt :=
  match t.toNat with
  | 8 => bf16 | 9 => fp16 | 10 => e4m3 | 11 => e5m2 | _ => fp32

/-- The value of a pattern (R107, R108). -/
def FloatFmt.decode (f : FloatFmt) (x : Nat) : FVal :=
  let neg := x.testBit (f.width - 1)
  let frac := x % 2 ^ f.fbits
  let e := x / 2 ^ f.fbits % (f.emax + 1)
  if e = f.emax ∧ (if f.noInf then frac = 7 else True) then
    if frac = 0 then .inf neg
    else .nan neg (frac <<< (23 - f.fbits)) (!frac.testBit (f.fbits - 1))
  else if e = 0 then .fin neg frac (1 - f.bias - f.fbits)
  else .fin neg (2 ^ f.fbits + frac) (e - f.bias - f.fbits)

/-- Rounding modes; `sr` holds the 16 bits of the hash (R110). -/
inductive RMode
  | rne
  | rtz
  | sr (h : Nat)
  deriving DecidableEq, Repr

/-- `m / 2^k` rounded to an integer, and whether that changed the value (R110). -/
def roundShift (m k : Nat) (mode : RMode) : Nat × Bool :=
  let q := m >>> k
  let r := m % 2 ^ k
  if r = 0 then (q, false)
  else
    let up := match mode with
      | .rne => 2 ^ k < 2 * r || (2 ^ k = 2 * r && q % 2 = 1)
      | .rtz => false
      | .sr h => h < (r <<< 16) >>> k
    (if up then q + 1 else q, true)

/-- `m * 2^e` on the integer grid. -/
def roundInt (m : Nat) (e : Int) (mode : RMode) : Nat × Bool :=
  if 0 ≤ e then (m <<< e.toNat, false) else roundShift m (-e).toNat mode

/-- `m * 2^e` on the grid of multiples of 2^lsb. -/
def roundAt (m : Nat) (e lsb : Int) (mode : RMode) : Nat × Bool :=
  if lsb ≤ e then (m <<< (e - lsb).toNat, false) else roundShift m (lsb - e).toNat mode

def FloatFmt.signBit (f : FloatFmt) (neg : Bool) : Nat := if neg then 2 ^ (f.width - 1) else 0

/-- The pattern of infinity; for E4M3 the pattern of 448 (R111). -/
def FloatFmt.infPat (f : FloatFmt) : Nat := if f.noInf then 0x7E else f.emax * 2 ^ f.fbits

/-- The largest finite pattern (R107). -/
def FloatFmt.maxPat (f : FloatFmt) : Nat := if f.noInf then 0x7E else f.emax * 2 ^ f.fbits - 1

/-- The default NaN (R108). -/
def FloatFmt.nanPat (f : FloatFmt) : Nat :=
  if f.noInf then 0x7F else f.emax * 2 ^ f.fbits + 2 ^ (f.fbits - 1)

/-- A value delivered in a float format: the pattern and its exceptions (R110, R111, R123). An infinity delivered in a
format without one is invalid and not inexact (DESIGN CHOICE, log 156). -/
def FloatFmt.deliver (f : FloatFmt) (mode : RMode) (v : FVal) : Nat × Exc :=
  match v with
  | .nan neg frac signals =>
    let x := if f.noInf then 0x7F
             else f.emax * 2 ^ f.fbits + ((frac >>> (23 - f.fbits)) ||| 2 ^ (f.fbits - 1))
    (f.signBit neg + x, if signals then excInvalid else excNone)
  | .inf neg => (f.signBit neg + f.infPat, if f.noInf then excInvalid else excNone)
  | .fin neg m e =>
    if m = 0 then (f.signBit neg, excNone)
    else
      let emin := 1 - f.bias - f.fbits
      let lsb := max (e + Nat.log2 m - f.fbits) emin
      let (q0, inx) := roundAt m e lsb mode
      let carry := 2 ^ (f.fbits + 1) ≤ q0
      let q := if carry then q0 / 2 else q0
      let lsb := if carry then lsb + 1 else lsb
      if q < 2 ^ f.fbits then
        (f.signBit neg + q, { inv := false, ovf := false, unf := inx && q != 0, inx := inx })
      else
        let pat := (lsb - emin + 1).toNat * 2 ^ f.fbits + (q - 2 ^ f.fbits)
        if f.maxPat < pat then
          let sat := mode == .rtz || f.width == 8
          (f.signBit neg + (if sat then f.maxPat else f.infPat), { inv := false, ovf := true, unf := false, inx := true })
        else (f.signBit neg + pat, { inv := false, ovf := false, unf := false, inx := inx })

/-! ## Operations (R112 to R115) -/

def FVal.isNan : FVal → Bool
  | .nan _ _ _ => true
  | _ => false

def FVal.signals : FVal → Bool
  | .nan _ _ s => s
  | _ => false

def FVal.isInf : FVal → Bool
  | .inf _ => true
  | _ => false

def FVal.isZero : FVal → Bool
  | .fin _ m _ => m == 0
  | _ => false

def FVal.neg : FVal → Bool
  | .nan n _ _ => n
  | .inf n => n
  | .fin n _ _ => n

def FVal.quiet : FVal → FVal
  | .nan n f _ => .nan n (f ||| 2 ^ 22) false
  | v => v

def FVal.negate : FVal → FVal
  | .nan n f s => .nan n f s
  | .inf n => .inf (!n)
  | .fin n m e => .fin (!n) m e

/-- The default NaN as a value: positive and quiet. -/
def nanDefault : FVal := .nan false (2 ^ 22) false

/-- The first NaN among the operands, quieted, and whether any signals (R112). -/
def firstNan (l : List FVal) : Option (FVal × Exc) :=
  match l.find? FVal.isNan with
  | some v => some (v.quiet, if l.any FVal.signals then excInvalid else excNone)
  | none => none

/-- A signed integer as an exact value at exponent e, +0 for zero. -/
def valOfInt (x : Int) (e : Int) : FVal := .fin (x < 0) x.natAbs e

/-- The exact sum of values that are no NaN (R112, R113). -/
def addFinite (a b : FVal) : FVal × Exc :=
  match a, b with
  | .inf n, .inf n' => if n == n' then (a, excNone) else (nanDefault, excInvalid)
  | .inf _, _ => (a, excNone)
  | _, .inf _ => (b, excNone)
  | .fin n m e, .fin n' m' e' =>
    if m = 0 ∧ m' = 0 then (.fin (n && n') 0 0, excNone)
    else
      let lo := min e e'
      let x : Int := (m <<< (e - lo).toNat : Nat)
      let y : Int := (m' <<< (e' - lo).toNat : Nat)
      (valOfInt ((if n then -x else x) + (if n' then -y else y)) lo, excNone)
  | _, _ => (nanDefault, excNone)

def fAdd (a b : FVal) : FVal × Exc :=
  match firstNan [a, b] with
  | some r => r
  | none => addFinite a b

/-- `a - b`: only the sign of a NaN is kept (R112). -/
def fSub (a b : FVal) : FVal × Exc :=
  match firstNan [a, b] with
  | some r => r
  | none => addFinite a b.negate

/-- The exact product of values that are no NaN (R112, R113). -/
def mulFinite (a b : FVal) : FVal × Exc :=
  match a, b with
  | .fin n m e, .fin n' m' e' => (.fin (n ^^ n') (m * m') (e + e'), excNone)
  | _, _ => if a.isZero || b.isZero then (nanDefault, excInvalid) else (.inf (a.neg ^^ b.neg), excNone)

def fMul (a b : FVal) : FVal × Exc :=
  match firstNan [a, b] with
  | some r => r
  | none => mulFinite a b

/-- The exact `a * b + c`; an invalid product does not override the NaN order (R112). -/
def fFma (a b c : FVal) : FVal × Exc :=
  match firstNan [a, b, c] with
  | some (v, x) =>
    let bad := (a.isInf && b.isZero) || (a.isZero && b.isInf)
    (v, if bad then excInvalid else x)
  | none =>
    let (p, x) := mulFinite a b
    if p.isNan then (p, x) else addFinite p c

/-- The order of two values that are no NaN; -0 and +0 are equal. -/
def fOrd (a b : FVal) : Ordering :=
  match a, b with
  | .fin n m e, .fin n' m' e' =>
    let lo := min e e'
    let x : Int := (m <<< (e - lo).toNat : Nat)
    let y : Int := (m' <<< (e' - lo).toNat : Nat)
    compare (if n then -x else x) (if n' then -y else y)
  | .inf n, .inf n' => if n == n' then .eq else if n then .lt else .gt
  | .inf n, _ => if n then .lt else .gt
  | _, .inf n' => if n' then .gt else .lt
  | _, _ => .eq

/-- The smaller or larger operand (R115). -/
def fMinMax (wantMax : Bool) (a b : FVal) : FVal × Exc :=
  let x := if a.signals || b.signals then excInvalid else excNone
  if a.isNan && b.isNan then (a.quiet, x)
  else if a.isNan then (b, x)
  else if b.isNan then (a, x)
  else
    let aLow := match fOrd a b with
      | .lt => true
      | .gt => false
      | .eq => a.neg || !b.neg
    (if aLow != wantMax then a else b, x)

/-- A result that is a whole operand keeps its pattern; this delivers a value that the format holds exactly. -/
def FloatFmt.exact (f : FloatFmt) (v : FVal) : Nat := (f.deliver .rne v).1

/-- Bits of an unsigned square root, from bit `k` down. -/
def sqrtBits (x : Nat) : Nat → Nat → Nat
  | 0, r => r
  | k + 1, r => let r' := r + 2 ^ k; sqrtBits x k (if r' * r' ≤ x then r' else r)

/-- The square root of a nonnegative value to 40 bits and a sticky bit, which rounds as the exact root does. -/
def fSqrt (a : FVal) : FVal × Exc :=
  match firstNan [a] with
  | some r => r
  | none =>
    match a with
    | .fin n m e =>
      if m = 0 then (a, excNone)
      else if n then (nanDefault, excInvalid)
      else
        let (m, e) := if e % 2 = 0 then (m, e) else (2 * m, e - 1)
        let x := m <<< 60
        let r := sqrtBits x 48 0
        (.fin false (2 * r + (if r * r = x then 0 else 1)) (e / 2 - 31), excNone)
    | .inf n => if n then (nanDefault, excInvalid) else (a, excNone)
    | .nan _ _ _ => (a, excNone)

/-- An integer result: saturated to the type's range (R111). A saturated finite value is invalid and inexact and no
overflow, a saturated infinity invalid only (DESIGN CHOICE, log 156). -/
def intDeliver (w : Nat) (signed : Bool) (mode : RMode) (v : FVal) : Nat × Exc :=
  let lo : Int := if signed then -(2 ^ (w - 1) : Nat) else 0
  let hi : Int := if signed then (2 ^ (w - 1) : Nat) - 1 else (2 ^ w : Nat) - 1
  match v with
  | .nan _ _ _ => (0, excInvalid)
  | .inf n => (((if n then lo else hi) % (2 ^ w : Nat)).toNat, excInvalid)
  | .fin n m e =>
    let (q, inx) := roundInt m e mode
    let x : Int := if n then -(q : Int) else q
    let y := max lo (min hi x)
    ((y % (2 ^ w : Nat)).toNat,
      if y = x then { inv := false, ovf := false, unf := false, inx := inx } else { excInvalid with inx := true })

/-- The integer a pattern of width w stands for. -/
def intOf (w : Nat) (signed : Bool) (x : Nat) : Int :=
  if signed && x.testBit (w - 1) then (x : Int) - (2 ^ w : Nat) else x

/-- A pattern of type `t` as an exact value: an integer type or a float format. -/
def valOf (t : BitVec 4) (x : Nat) : FVal :=
  if tyInt t then valOfInt (intOf (tyWidth t) (tySigned t) x) 0 else (fmtOf t).decode x

/-- A value delivered in type `t`, saturating for an integer type. -/
def deliverTy (t : BitVec 4) (mode : RMode) (v : FVal) : Nat × Exc :=
  if tyInt t then intDeliver (tyWidth t) (tySigned t) mode v else (fmtOf t).deliver mode v

/-- A conversion (R111): equal types copy the pattern (R135), and integer to integer raises nothing (R100). -/
def convertPat (src dst : BitVec 4) (mode : RMode) (x : Nat) : Nat × Exc :=
  if src == dst then (x, excNone)
  else
    let (y, e) := deliverTy dst mode (valOf src x)
    (y, if tyInt src && tyInt dst then excNone else e)

/-! ## Scaled block elements (R116, R118) -/

/-- The magnitude of a Q4 code as a multiple of 2^(-3) (R118). -/
def q4Magnitude (ty : Nat) (code : Nat) : Nat :=
  let k := code % 8
  match ty with
  | 0 => if code < 8 then 8 * code else 8 * (16 - code)
  | 1 => [0, 4, 8, 12, 16, 24, 32, 48].getD k 0
  | 2 => if k = 0 then 0 else 2 ^ (k - 1)
  | _ => 8 * [0, 1, 2, 3, 4, 5, 8, 12].getD k 0

/-- A Q4 code as a value. -/
def q4Val (ty : Nat) (code : Nat) : FVal := .fin (8 ≤ code) (q4Magnitude ty code) (-3)

/-- A value times 2^k. -/
def FVal.scale (v : FVal) (k : Int) : FVal :=
  match v with
  | .fin n m e => .fin n m (e + k)
  | _ => v

/-- A finite value rounded `rne` to `p` significand bits, with unbounded exponent (R120). -/
def FVal.roundSig (v : FVal) (p : Nat) : FVal :=
  match v with
  | .fin n m e =>
    if m = 0 then v
    else
      let lsb := e + Nat.log2 m + 1 - p
      if lsb ≤ e then v else .fin n (roundShift m (lsb - e).toNat .rne).1 lsb
  | _ => v

end Sys2Proof.Machine
end

