-- ==== Sys2Proof/Config.lean ====
section
/-! DEFINITION. What the implementation fixes (R2) and the free values: constants without a body, on which no
proof can lean. -/

namespace Sys2Proof.Config

/-- Banks of 4 KiB in a core's SRAM pool (R2, R24). -/
def poolBanks : Nat := 384

/-- Scratchpad banks of a control core (R265). -/
def controlBanks : Nat := 64

/-- Physical compute cores of one stack group (R2). -/
def coresPerGroup : Nat := 25

/-- Bytes of one HBM stack, and of the window it owns (R268). -/
def stackBytes : Nat := 0xC00000000
def stackWindow : Nat := 2 ^ 36

/-- Cycles of one microsecond at 940 MHz (R1). -/
def cyclesPerMicro : Nat := 940

/-- Cycles of a scan that is not aborted (R403). -/
def scanCycles : Nat := 188000

/-- The address at which the boot ROM places a firmware body, in space 0 (R400). -/
def firmwareBase : Nat := 0x100000

/-- The physical address at which that body lies. The spec gives only the virtual address (log 5, DESIGN CHOICE). -/
def firmwarePhys : Nat := 0x100000

/-- A special function of R122. -/
inductive SpecialFn
  | exp2 | exp | log2 | ln | rcp | rsq | tanh | sigm | erf | sin | cos
  deriving DecidableEq, Repr

/-- FREE VALUE (log 6): the FP32 pattern a special function returns for an operand. R122 fixes only bounds and
special cases: the algorithms are fixed in the device and not given. -/
opaque specialFn : SpecialFn → BitVec 32 → BitVec 32

/-- FREE VALUE (log 7): the order in which a float reduction adds (R121, R209): for a collective by its number, an element
and a step, which of the summands left comes next. -/
opaque sumOrder : Nat → Nat → Nat → Nat

/-- FREE VALUE (log 8): signature and verdict of a scan (R103); the first argument is the physical core, the second
the model's counter of free values. -/
opaque scanSignature : Nat → Nat → BitVec 32
opaque scanMatches : Nat → Nat → Bool

/-- FREE VALUE (log 9): whether a Falcon-1024 signature verifies under the root key in the boot ROM (R391), and the
signature of the device identity over a digest (R393). The keys are not in the spec. -/
opaque falconVerify : List Byte → List Byte → Bool
opaque falconSign : List Byte → List Byte

/-- FREE VALUE (log 10): what is fused at manufacture (R389). -/
opaque minVersion : BitVec 32
opaque bootEndpoint : BitVec 24
opaque serial : BitVec 128

/-- FREE VALUE (log 11): a byte the spec leaves "old or new", or unspecified, drawn for a number of the model's
counter (R193, R196, R210). -/
opaque freeByte : Nat → Byte

/-- FREE VALUE (log 15): the ERR of a `DBG.HALT` that names no core of its group (R102, R106). -/
opaque haltErr : BitVec 7

/-- FREE VALUE (log 13): where firmware puts what it places itself, by a number of the model: the control core's
handle table (R277) and the capture area (R387). -/
opaque firmwarePlace : Nat → Nat

/-- FREE VALUE (log 170): the relocations of a firmware body, whose table the spec does not give: the offset of each IMM word,
and whether it takes the data base (R240) or the code base (R258); and the page at which that data base lies. -/
opaque relocations : List Byte → List (Nat × Bool)
opaque firmwarePage : BitVec 44

/-- The data base of a firmware body, a multiple of 4096 (R240). -/
def firmwareData : BitVec 56 := firmwarePage ++ (0 : BitVec 12)

end Sys2Proof.Config
end

