-- ==== Sys2Proof/Machine/State.lean ====
section
/-! DEFINITION. The state of the whole device as plain data (R7), the reasons the machine can stop, and the state
right after power is applied. Lists keyed by a number are canonical: keys strictly rising, and no entry equal to what
an unlisted key reads as. -/

namespace Sys2Proof.Machine

/-- Why the machine stops. -/
inductive Fault
  /-- Raised by `step` when the module has no power and nothing restores it (R388, R399): nothing is defined to
  happen then. Safe: the model stops. -/
  | powerOff
  deriving DecidableEq, Repr

/-- Why an instruction has no meaning in the model. -/
inductive Refusal
  /-- Raised by an arm of `exec` whose instruction has no meaning yet. Safe: the model stops. -/
  | notModelled (mnemonic : String)
  deriving DecidableEq, Repr

/-- Memory: addresses strictly rising, no zero byte listed; an unlisted byte reads as zero (R33, R388 stage 4). -/
abbrev Memory := List Host.Cell

/-- A list of values by number, in the same canonical form. -/
abbrev Store (α : Type) := List (Nat × α)

/-- A map descriptor in the layout of R16. -/
abbrev MapBits := BitVec 384

/-- A barrier (R84). -/
structure Barrier where
  count : Nat
  arrivals : Nat
  gen : BitVec 32
  deriving DecidableEq, Repr

/-- The counters of a loop or a repeat (R382). -/
structure Profile where
  addr : BitVec 56
  start : Nat
  issues : Nat
  fills : Vector Nat 11
  deriving DecidableEq, Repr

/-- A loop, active or suspended (R79, R80). `held` is the loop buffer: start address and op words of the body bundles that
the first pass has reached. -/
structure LoopState where
  base : BitVec 56
  n : Nat
  left : Nat
  pos : Nat
  first : Bool
  skip : Bool
  held : List (BitVec 56 × List Word)
  suspended : Bool
  prof : Profile
  deriving DecidableEq, Repr

/-- A repeating MX word: repetitions still to issue and the cycle of the next (R81), and whether its gang's match has already
moved the registers on to it. -/
structure RepState where
  instr : Instr
  left : Nat
  next : Nat
  advanced : Bool
  seq : Nat
  prof : Profile
  deriving DecidableEq, Repr

/-- Descriptors read in the cycle before a bundle issues, in cycle `due`: those of its LD and its MX word, each with the
bundle of a store of the context that lands in the cycle of the read (R164, R178). -/
structure PreRead where
  due : Nat
  ld : MapBits
  mx : MapBits
  ldEarly : Option (BitVec 56)
  mxEarly : Option (BitVec 56)
  deriving DecidableEq, Repr

/-- A context (R7). -/
structure Ctx where
  pc : BitVec 56
  s : Vector Word 64
  tokPend : BitVec 64
  a : Vector Word 16
  p : Vector PredBits 16
  v : Vector VecBits 56
  maps : Vector MapBits 56
  pins : BitVec 56
  loop : Option LoopState
  rep : Option RepState
  hnd : Bool
  te : Bool
  tcause : BitVec 7
  tpc : BitVec 56
  tval : Word
  tmask : BitVec 11
  tvec : BitVec 56
  waitlim : BitVec 14
  chken : Bool
  mapsoft : Bool
  /-- The context has issued `RETIRE` (R87). -/
  retired : Bool
  /-- The context stands stopped at a `YIELD`: its save mask and the address of the next bundle (R88). -/
  stopped : Option (Word × BitVec 56)
  /-- Earliest issue cycle by R39, R74. -/
  earliest : Nat
  /-- The descriptors of the bundle that issues next, when they have been read (R164). -/
  preread : Option PreRead
  /-- `FENCE.q`: a queue mask and the commands that must perform first (R83). -/
  fences : List (BitVec 8 × List Nat)
  /-- Since when the context is blocked (R294). -/
  blockedSince : Option Nat
  /-- The instructions that block it, for the wait conditions of R294. -/
  blockedOn : List Instr
  /-- Its next bundle has stopped the core at a breakpoint, and issues without a second hit (R385). -/
  brkPass : Bool
  /-- The address of the line of code on whose page its fetch is parked (R273). -/
  lineAt : Nat
  deriving DecidableEq, Repr

/-- Element reads of a gather or a two-cycle load: one group of (byte position in the result, address) per cycle, the
bytes collected so far, and what to do with them (R168, R171). `codes` says that the units read are 16 rows of 4-bit
codes to transpose (R169). -/
structure ReadJob where
  dst : Nat
  width : Nat
  groups : List (List (Nat × Nat))
  got : VecBits
  mask : VecBits
  map : Option MapBits
  season : Option (Bool × BitVec 32)
  codes : Bool
  own : Option Nat
  land : Nat
  deriving DecidableEq, Repr

/-- The MX operation of a job. -/
inductive MxKind
  | dense
  | gathered
  | tagged
  | sparse
  | zero
  | load
  deriving DecidableEq, Repr

/-- An MX operation in flight (R187): the units read so far, the operand places, and when it ends. `aCore` and `bCore`
are the cores whose scratchpads hold the operands (R185). -/
structure MxJob where
  kind : MxKind
  tile : BitVec 4
  start : Nat
  aCore : Fin 208
  bCore : Fin 208
  aAt : Nat
  bAt : Nat
  xAt : Nat
  rows : List Nat
  tya : BitVec 4
  tyb : BitVec 4
  qta : BitVec 2
  qtb : BitVec 2
  na : Nat
  nb : Nat
  fresh : Bool
  gang : Bool
  lastRep : Bool
  aGot : List (BitVec 256)
  bGot : List (BitVec 256)
  entries : Nat
  entryOk : Bool
  off : Nat
  fin : Nat
  deriving DecidableEq, Repr

/-- What takes effect in a cycle: the writes of registers and maps, bank actions and matrix work. A mask has a one for
every bit written. -/
inductive Act
  | setS (r : Reg6) (x : Word)
  | setA (r : BitVec 4) (x : Word)
  | setP (r : BitVec 4) (x mask : PredBits)
  | setV (r : Nat) (x mask : VecBits) (map : Option MapBits) (data : Bool) (own : Option Nat)
  | store (bytes : List Host.Cell)
  | loadS (ty : BitVec 4) (addr : Nat) (dst : Reg6)
  | loadPattern (bank : Bool) (n addr : Nat)
  | amo (op : BitVec 3) (ty : BitVec 4) (addr : Nat) (x y : Word) (dst : Reg6)
  | season (wide : Bool) (g : BitVec 32) (words later : List (Nat × BitVec 32)) (seen : List Nat)
  | reads (job : ReadJob)
  | pattern (bank : Bool) (n : Nat) (entry : BitVec 1280)
  | accRow (row : Nat) (x mask : VecBits)
  | mx (job : MxJob)
  | arrive (scope : BitVec 3) (b : Nat) (dst : Reg6)
  deriving DecidableEq, Repr

/-- An act in flight: its cycle, the bundle's number, the slot's unit, the context and the bundle address. -/
structure Pend where
  due : Nat
  seq : Nat
  unit : UnitCode
  ctx : Fin 4
  baddr : BitVec 56
  act : Act
  deriving DecidableEq, Repr

/-- An entry of a frame's replay buffer (R350): the header, the register's data, and the map that the result installs. The
mask has a one for every bit written, `data` says whether data is written, and the last fields are the producer's, for the
order of R10 and for STALL_SHORT. -/
structure ReplayEntry where
  header : Word
  data : VecBits
  mask : VecBits
  map : Option MapBits
  hasData : Bool
  own : Option Nat
  seq : Nat
  unit : UnitCode
  baddr : BitVec 56
  deriving DecidableEq, Repr

/-- How many elements raise each exception (R123). -/
structure ExcCount where
  inv : Nat
  ovf : Nat
  unf : Nat
  inx : Nat
  deriving DecidableEq, Repr

def ExcCount.zero : ExcCount := { inv := 0, ovf := 0, unf := 0, inx := 0 }

def ExcCount.add (a b : ExcCount) : ExcCount :=
  { inv := a.inv + b.inv, ovf := a.ovf + b.ovf, unf := a.unf + b.unf, inx := a.inx + b.inx }

/-- A scratchpad range of the scoreboard (R194). -/
structure Range where
  lo : Nat
  hi : Nat
  write : Bool
  deriving DecidableEq, Repr

/-- Where an outstanding engine command stands (R192, R195, R197). -/
inductive CmdState
  /-- issued, not started -/
  | queued
  /-- parked on a page or a far page, with the cause and the page's address space and address (R197, R315) -/
  | parked (cause : Cause) (asid : BitVec 8) (page : Nat)
  /-- started, and waiting for a peer, a host, a vote, a bucket, the sequencer or pops -/
  | waiting
  /-- its result is known; the status word is still to be written -/
  | done
  deriving DecidableEq, Repr

/-- An outstanding command of a core. `q` is its queue, 8 for a token without one (`LAUNCH`, `ENQ`, `SCAN.START`,
`DBG.HALT`). Register operands are those of the issue cycle. -/
structure Cmd where
  id : Nat
  ctx : Fin 4
  /-- the core that issued it -/
  by_ : Fin 208
  baddr : BitVec 56
  instr : Instr
  q : Nat
  tok : Reg6
  aReg : Word
  aOff : Nat
  b : Word
  b1 : Word
  c : Word
  c1 : Word
  issued : Nat
  readyAt : Nat
  storesBy : Nat
  after : List Nat
  ranges : List Range
  state : CmdState
  err : BitVec 7
  value : BitVec 56
  moved : Nat
  g : BitVec 32
  pin : Option (Nat × BitVec 32)
  targets : List (Fin 200)
  blob : List Byte
  aux : Nat
  /-- numbers of the messages of a `CPYH` that are answered, the members of the mask of a `CPYM`, or the chain of a `KVAPP` and its
  number in the arrivals (R222) -/
  got : List Nat
  /-- what a KV command has resolved SEQ to (R219) -/
  seqs : List Nat
  /-- bytes read before the rest: blocks of TAGGED pages of which a `CPYM` has moved some bytes and has to move others, by virtual
  address (R276); the descriptor of a collective on which a `DRAIN.core` has passed, by scratchpad address (R82, R248) -/
  kept : List Host.Cell
  exc : ExcCount
  doneAt : Nat
  deriving DecidableEq, Repr

/-- The start record of `ATTN` (R227). -/
structure AttnRec where
  kva : Word
  len : BitVec 32
  scale : BitVec 32
  qspad : BitVec 24
  ospad : BitVec 24
  tbase : BitVec 4
  nt : BitVec 4
  qpos : BitVec 24
  qbytes : BitVec 32
  obytes : BitVec 32
  param : Vector (BitVec 32) 6
  deriving DecidableEq, Repr

/-- The attention sequencer of a core (R318): the committed micro-state, and the pending part. -/
structure SeqState where
  running : Bool
  cmd : Nat
  space : BitVec 4
  attn : AttnRec
  mw : MicroWord
  pc : Nat
  restart : Nat
  start : Nat
  top : Nat
  /-- the page from which the walk to the next tile starts, held by the walker slot; 0 when none is (R312, R313) -/
  page : Nat
  m : Vector (BitVec 32) 128
  s : Vector (BitVec 32) 128
  ocur : Bool
  processed : Nat
  fetched : Bool
  smaxed : Bool
  weighed : Bool
  lo : Nat
  hi : Nat
  m' : Vector (BitVec 32) 128
  s' : Vector (BitVec 32) 128
  corr : Vector (BitVec 32) 128
  parked : Bool
  deriving DecidableEq, Repr

/-- A gang word that waits for its match or has met it (R185): the context, the cycle in which all issue, and whether it
is a repetition under `REP`. -/
structure GangWait where
  ctx : Fin 4
  go : Option Nat
  rep : Bool
  deriving DecidableEq, Repr

/-- How a team stops for a save (R294 to R296); a migration stops it by boundary or freeze (R299). -/
inductive StopKind
  | swap
  | boundary
  | freeze
  deriving DecidableEq, Repr

/-- The state a team owns on its core (R7), which a context frame keeps (R34). -/
structure Team where
  ctxs : Vector Ctx 4
  cur : Fin 4
  part : Word
  spad : Memory
  acc : Store VecBits
  tileMaps : Vector MapBits 16
  tileBusy : BitVec 16
  patA : Store (BitVec 1280)
  patB : Store (BitVec 1280)
  patActive : Bool
  bars : Vector Barrier 16
  pend : List Pend
  /-- The replay buffer of a frame (R350). -/
  buffer : List ReplayEntry
  /-- Entries of a replay buffer that a restored team still has to write (R351). -/
  replay : List Pend
  accRes : List (Nat × Nat)
  mxFree : Nat
  gatherFree : Nat
  gang : Option GangWait
  /-- Exceptions counted so far by the MX word whose work ends next, and its block-format flag (R123). -/
  mxExc : ExcCount
  mxBlk : Bool
  opq : List (BitVec 32)
  /-- The outstanding commands of the team, in order of issue. -/
  cmds : List Cmd
  seq : SeqState
  /-- The boundary B at which issue stopped for a save (R349, R350): results due later wait for the restore. -/
  stopAt : Option Nat
  /-- Scratchpad bytes as they stood before this cycle's writes, for a descriptor read in this cycle (R164). -/
  undo : List Host.Cell
  /-- The bytes that ST slots wrote in this cycle, with their context and bundle (R75, R178). -/
  fresh : List (Nat × Fin 4 × BitVec 56)
  deriving DecidableEq, Repr

/-- The scan of a physical core (R103): running since, and the last result, time and signature. -/
structure ScanState where
  running : Bool
  start : Nat
  aborting : Bool
  last : BitVec 2
  elapsed : BitVec 29
  sig : BitVec 32
  by_ : Option CmdRef
  baddr : BitVec 56
  /-- The head for which the scheduler aborts it (R292, R402). -/
  head : Option Nat
  deriving DecidableEq, Repr

/-- A forwarding entry (R300). -/
structure Fwd where
  task : Nat
  dest : Fin 200
  cmds : List Nat
  deriving DecidableEq, Repr

/-- A core: cores 0 to 199 are the physical compute cores, 25 a stack group; cores 200 to 207 are the control cores
(R2). -/
structure Core where
  task : Option Nat
  /-- a control core runs firmware (R400) -/
  firmware : Bool
  team : Team
  ibuf : List (Nat × BitVec 512)
  fetching : Option Nat
  poisoned : List (Nat × Nat)
  /-- No context issues before this cycle: the stall of R39. -/
  stallUntil : Nat
  request : Option StopKind
  requestAt : Nat
  holdIssue : Bool
  stopped : Bool
  haltReq : Bool
  haltBy : List CmdRef
  halted : Option Nat
  brks : Vector (Option (BitVec 56)) 4
  samplePeriod : Nat
  sampleBase : Nat
  loopProf : Bool
  lastIssue : Option (Nat × Fin 4 × BitVec 56)
  gated : Bool
  wakeAt : Nat
  scan : ScanState
  fwd : List Fwd
  deriving DecidableEq, Repr

/-- A held entry (R402). -/
structure Hold where
  entry : Nat
  old : Nat
  since : Nat
  deriving DecidableEq, Repr

/-- A stack group. -/
structure Group where
  cmap : Vector Byte 24
  afr : Word
  statq : List Word
  statqLost : Nat
  holds : List Hold
  /-- the task that has reserved logical cores, and these (R291) -/
  reserve : Option (Nat × List Nat)
  watchdogAt : Nat
  down : Bool
  deriving DecidableEq, Repr

/-- A task control block as the scheduler copies it (R279, R280). -/
structure Tcb where
  cbase : BitVec 56
  eoff : BitVec 32
  asid : BitVec 8
  queue : BitVec 7
  barf : Bool
  prio : BitVec 5
  grade : BitVec 2
  gang : BitVec 2
  aff : BitVec 4
  part : Word
  htab : BitVec 56
  nsucc : BitVec 4
  crmax : BitVec 8
  crec : BitVec 56
  deadline : Word
  fps : List (Nat × Nat)
  succs : List (BitVec 56)
  deriving DecidableEq, Repr

/-- Where a task stands (R282 to R299). -/
inductive TaskState
  | queued
  /-- placed; starts with the next `TASK_START` -/
  | placed
  | running
  /-- issue has stopped and the frame is being saved -/
  | saving (kind : StopKind)
  /-- saved and waiting for a wait condition (R294) -/
  | saved
  /-- in the resume list of its queue -/
  | resume
  /-- placed again; its frame is being restored -/
  | restoring
  /-- it has failed or retired; the completion is to come -/
  | ending
  /-- failed by deadline, its frame kept for the host (R297) -/
  | kept
  deriving DecidableEq, Repr

/-- How a task failed (R286, R355). -/
structure Failure where
  status : Byte
  cause : BitVec 7
  detail : Word
  member : Nat
  deriving DecidableEq, Repr

/-- A task known to the scheduler. -/
structure Task where
  id : Nat
  tcba : BitVec 56
  subAsid : BitVec 8
  tcb : Tcb
  queue : Nat
  order : Nat
  prio : Nat
  /-- since when it waits as its queue's head, and whether it has waited AGE_LIMIT (R288, R291) -/
  waitFrom : Option Nat
  aged : Bool
  host : Option (BitVec 3)
  state : TaskState
  /-- the cycle in which the start, save or restore in progress ends -/
  due : Option Nat
  /-- it stands in the resume list as a preempted team (R296), not a swapped one (R294) -/
  front : Bool
  /-- the core it migrates to (R299) -/
  dest : Option (Fin 200)
  /-- its deadline has passed, and the freeze for it is under way (R297) -/
  doomed : Bool
  dep : Nat
  mark : Option (BitVec 56)
  cores : List (Fin 200)
  started : Nat
  frames : List Team
  failure : Option Failure
  /-- the first nonzero ERR for the record, whether one came after a `RETIRE` (R87, R89), and the member it came from -/
  err : BitVec 7
  late : Bool
  errMember : Nat
  /-- the places of its frames in space 0, by member: address and bytes (R269) -/
  areas : List (Nat × Nat)
  /-- pages that its completion writes and that the host declared unmappable (R273, R356) -/
  unmapped : List Nat
  pins : List (Nat × BitVec 32)
  victimFor : Option Nat
  cluBars : Vector (Vector Barrier 16) 6
  stkBars : Vector Barrier 16
  deriving DecidableEq, Repr

/-- A TLB entry: a leaf's permissions, its page and its flags (R272). -/
structure TlbEntry where
  asid : BitVec 8
  base : Nat
  size : Nat
  pa : Nat
  w : Bool
  x : Bool
  tag : Bool
  d : Bool
  deriving DecidableEq, Repr

/-- A non-leaf entry in a walker's cache (R272): its space, its level, the part of the address that leads to it, and the
table it names. -/
structure WalkEntry where
  asid : BitVec 8
  level : Nat
  top : Nat
  table : Nat
  deriving DecidableEq, Repr

/-- A piece of a cluster slice: the command that stages through it, and its bytes, 4 KiB at most (R264). -/
structure Piece where
  cmd : Nat
  data : List Byte
  deriving DecidableEq, Repr

/-- Who is parked on a page (R273). -/
inductive Parkee
  | command (e : CmdRef)
  | fetch (e : CtxRef)
  /-- a fetch of a context whose team is saved -/
  | frame (task member : Nat) (ctx : Fin 4)
  /-- a peer's request, or far data that has arrived, performed again when the page is there -/
  | event (e : Event)
  /-- a KV page that a slot has released and that is still to be freed (R312): its space and header, the core and bundle that report,
  and the stream of the work (R365) -/
  | kvFree (space : BitVec 4) (header : Nat) (core : Fin 208) (baddr : BitVec 56) (host : BitVec 3)
  deriving DecidableEq, Repr

/-- A page on which requests are parked, with its posted fault record (R273). -/
structure ParkedPage where
  group : Fin 8
  asid : BitVec 8
  page : Nat
  cause : Cause
  line : Nat
  who : List Parkee
  deriving DecidableEq, Repr

/-- A KV space descriptor is kept as its 64 bytes (R304). -/
abbrev KvDesc := BitVec 512

/-- A coil; `uid` tells coils apart that look alike (R329), `gone` is the version that removed it (R233). -/
structure Coil where
  uid : Nat
  gone : Option (BitVec 32)
  base : BitVec 56
  rows : Nat
  stride : BitVec 32
  deriving DecidableEq, Repr

/-- A stitched tensor at its home (R228, R328, R331, R332). -/
structure Stitched where
  id : Nat
  home : Fin 8
  current : BitVec 32
  rowb : Nat
  closed : Bool
  versions : List (BitVec 32 × List Coil)
  pins : List (BitVec 32 × Nat)
  deriving DecidableEq, Repr

/-- A collective group with this device's rank (R368). -/
structure CollGroup where
  handle : BitVec 32
  die : Bool
  members : List Nat
  rank : Nat
  /-- how many collectives of this device on the group have reached the engine (R210) -/
  joined : Nat
  deriving DecidableEq, Repr

/-- A member's contribution to a collective that has arrived (R210, R370). -/
structure CollPart where
  own : Option CmdRef
  group : BitVec 32
  bucket : Option (BitVec 9)
  member : Nat
  cmd : BitVec 2
  op : BitVec 2
  ty : BitVec 4
  count : Nat
  data : List Byte
  /-- which collective of the member on the group it is, or which arming of the bucket (R210, R370) -/
  arming : Nat
  failed : Bool
  deriving DecidableEq, Repr

/-- A step group (R335, R336). Votes are (member, commit) in arrival order; each member's n-th belongs to step n. -/
structure StepGroup where
  handle : BitVec 32
  members : List Nat
  steps : Nat
  broken : Bool
  votes : List (Nat × Bool)
  deriving DecidableEq, Repr

/-- A gradient bucket (R211). -/
structure Bucket where
  cmd : CmdRef
  desc : List Byte
  /-- the space, address and length of its SRC, and which arming it is (R211, R370) -/
  asid : BitVec 8
  src : Nat
  len : Nat
  arming : Nat
  total : Nat
  counter : Nat
  fired : Bool
  deriving DecidableEq, Repr

/-- A bound replica table (R373). -/
structure Rtab where
  addr : BitVec 56
  queue : BitVec 7
  enabled : Bool
  commit : Option CmdRef
  deriving DecidableEq, Repr

/-- A command that capture recorded: its cycle, OP and packet (R387). -/
structure Captured where
  at_ : Nat
  op : BitVec 16
  pkt : Packet
  deriving DecidableEq, Repr

/-- Capture and replay of command streams (R387). -/
structure Capture where
  on : Bool
  replay : Bool
  paused : Bool
  ranges : List (Nat × BitVec 8 × Nat)
  packets : List Captured
  sums : List (BitVec 56 × Word)
  next : Nat
  /-- which recorded checksums the replay has compared -/
  used : List Nat
  deriving DecidableEq, Repr

/-- A debug request that this master has forwarded: the devices still to answer, and the answers (R383). -/
structure Forward where
  stream : BitVec 3
  seq : BitVec 32
  op : BitVec 16
  waiting : List Nat
  answers : List (Nat × Byte × Word × List Byte)
  deriving DecidableEq, Repr

/-- What leaves the device (R359, R362, R365, R383). -/
inductive OutMsg
  | response (stream : BitVec 3) (op : BitVec 16) (status : Byte) (seq : BitVec 32) (value : Word) (data : List Byte)
  | message (stream : BitVec 3) (kind : Byte) (x y z : Word)
  | fabric (endpoint : Nat) (by_ : Option CmdRef) (m : FabMsg)
  | forward (device : Nat) (instr : Instr) (p : Packet)
  deriving DecidableEq, Repr

/-- A fault of one slot at issue (R343). -/
structure SlotFault where
  unit : UnitCode
  cause : Cause
  tval : Word
  deriving DecidableEq, Repr

/-- What a slot does when its bundle commits: acts that land `lat` cycles later, and what takes effect at once. -/
inductive Effect
  | act (lat : Nat) (a : Act)
  | branch (target : BitVec 56)
  | loop (n count : Nat)
  | rep (r : RepState)
  | retire
  | yieldStop (mask : Word)
  | swTrap (n : Word)
  | tren
  | tret
  | creg (n : Nat) (x : Word)
  | barInit (scope : BitVec 3) (b : Nat) (count : Nat)
  | fence (mask : BitVec 8)
  | command (c : Cmd)
  | patswap
  | cmap (entry : Nat) (x : Byte)
  | sqpop (r : Reg6)
  | scanAbort (core : Nat)
  | dbgResume (core : Nat)
  | popOffsets (k : Nat)
  | badOffsets (k : Nat)
  | record (kind : BitVec 7) (aux : BitVec 45) (tval : Word)
  | pin (r : Nat)
  | busy (tile : BitVec 4)
  | tileMap (tile : BitVec 4) (m : MapBits)
  | mxBusy (until_ : Nat)
  | gatherBusy (until_ : Nat)
  | reserve (banks : List (Nat × Nat))
  /-- `WAIT.cyc` on a control core refreshes its watchdog (R400) -/
  | refresh
  deriving DecidableEq, Repr

/-- What a slot answers: the causes it fails with, its effects, the registers whose maps it reads, the vector
registers whose data it reads when these are not the word's sources, and its scratchpad reads as (cycles after issue,
address, bytes). -/
structure SlotRes where
  faults : List (Cause × Word) := []
  effects : List Effect := []
  maps : List Nat := []
  data : Option (List Nat) := none
  reads : List (Nat × Nat × Nat) := []
  deriving DecidableEq, Repr

/-- The bundle in progress: where it stands, its words still to execute, and what they have done so far. -/
structure Issue where
  core : Fin 208
  /-- its op words -/
  words : List Word
  ctx : Fin 4
  baddr : BitVec 56
  next : BitVec 56
  stall : Nat
  seq : Nat
  all : List Instr
  slots : List Instr
  effects : List (UnitCode × Effect)
  faults : List SlotFault
  deriving DecidableEq, Repr

/-- A packet on its way from the host: the cycle of its arrival, its stream, header and payload (R361). -/
structure HostPacket where
  due : Nat
  stream : BitVec 3
  header : BitVec 256
  payload : List Byte
  deriving DecidableEq, Repr

/-- The fetch of a firmware image (R391): none, one under way, or one to be repeated when its second has passed. -/
inductive ImageFetch
  | idle
  | running
  | waiting
  deriving DecidableEq, Repr

/-- The state of the device. -/
structure State where
  cycle : Nat
  gstep : BitVec 32
  mem : Memory
  poison : List Nat
  cores : Vector Core 208
  groups : Vector Group 8
  roots : Store (BitVec 52)
  tlbs : Vector (List TlbEntry) 48
  walkers : Vector (List WalkEntry) 8
  slices : Vector (List Piece) 48
  parked : List ParkedPage
  tasks : List Task
  /-- the saved teams that wait to be restored, every queue's resume list in order (R288, R294, R296) -/
  resumes : List Nat
  /-- TCBs not yet submitted that have a failed predecessor: space, address, predecessor (R287) -/
  marks : List (BitVec 8 × BitVec 56 × BitVec 56)
  queues : Vector Word 128
  credits : Vector Nat 128
  pointers : Vector Nat 24
  ageLimit : Nat
  spaces : Vector KvDesc 16
  seqStore : Store (BitVec 96)
  /-- promotions in flight, without their data (R315) -/
  promotions : List Promotion
  tensors : List Stitched
  factors : Vector (BitVec 32) 16
  staged : Vector (BitVec 32) 16
  stepGroup : Option StepGroup
  heldVotes : List (BitVec 32 × Nat × Bool)
  collGroups : List CollGroup
  collParts : List CollPart
  buckets : Store Bucket
  /-- how often each bucket has been armed (R370) -/
  armings : Store Nat
  rtabs : Store Rtab
  domain : Store (BitVec 24)
  device : BitVec 14
  master : Bool
  otherMaster : Bool
  statRing : Nat
  capture : Capture
  streams : Vector (Option (BitVec 24)) 8
  out : List OutMsg
  deferred : List Event
  /-- host commands that wait for what they need, in arrival order, and debug requests forwarded (R361, R383) -/
  heldCmds : List Event
  forwards : List Forward
  powered : Bool
  stage : Nat
  holding : Bool
  /-- is issue held in the wheel turn that runs, as the power controller stood when the turn began (R398)? -/
  heldTurn : Bool
  measured : BitVec 512
  /-- the bytes of a firmware image that its fetch has brought so far (R391) -/
  image : List Byte
  /-- how the fetch of an image stands (R391) -/
  imageFetch : ImageFetch
  images : BitVec 32
  version : BitVec 32
  /-- the model's own fields (log 3) -/
  turn : Nat
  agenda : List Event
  future : List (Nat × Event)
  inbox : List HostPacket
  ev : EvArg
  pkt : Packet
  issue : Issue
  delays : List Nat
  /-- where firmware puts the next context frames in space 0: address and bytes (log 110) -/
  areas : List (Nat × Nat)
  freeCtr : Nat
  nextSeq : Nat
  nextId : Nat
  deriving DecidableEq, Repr

/-! ## Reset -/

def Barrier.reset : Barrier := { count := 0, arrivals := 0, gen := 0 }

def Profile.reset : Profile := { addr := 0, start := 0, issues := 0, fills := Vector.replicate 11 0 }

/-- A context as R33 leaves it but for what its launch gives it. -/
def Ctx.reset : Ctx :=
  { pc := 0, s := Vector.replicate 64 0, tokPend := 0, a := Vector.replicate 16 0
    p := Vector.replicate 16 0, v := Vector.replicate 56 0, maps := Vector.replicate 56 0, pins := 0
    loop := none, rep := none, hnd := false, te := true, tcause := 0, tpc := 0, tval := 0, tmask := 0, tvec := 0
    waitlim := 20, chken := false, mapsoft := false, retired := false, stopped := none, earliest := 0, preread := none, fences := []
    blockedSince := none, blockedOn := [], brkPass := false, lineAt := 0 }

def MicroWord.reset : MicroWord := { ts := 0, tOut := 0, n := 0, cond := 0, resv := 0, offb := 0, offa := 0 }

def AttnRec.reset : AttnRec :=
  { kva := 0, len := 0, scale := 0, qspad := 0, ospad := 0, tbase := 0, nt := 0, qpos := 0, qbytes := 0, obytes := 0
    param := Vector.replicate 6 0 }

def SeqState.reset : SeqState :=
  { running := false, cmd := 0, space := 0, attn := AttnRec.reset, mw := MicroWord.reset, pc := 0, restart := 0
    start := 0, top := 0, page := 0, m := Vector.replicate 128 0, s := Vector.replicate 128 0, ocur := false, processed := 0
    fetched := false, smaxed := false, weighed := false, lo := 0, hi := 0, m' := Vector.replicate 128 0
    s' := Vector.replicate 128 0, corr := Vector.replicate 128 0, parked := false }

def Team.reset : Team :=
  { ctxs := Vector.replicate 4 Ctx.reset, cur := 0, part := 0, spad := [], acc := []
    tileMaps := Vector.replicate 16 0, tileBusy := 0, patA := [], patB := [], patActive := false
    bars := Vector.replicate 16 Barrier.reset, pend := [], buffer := [], replay := [], accRes := [], mxFree := 0, gatherFree := 0, gang := none, mxExc := ExcCount.zero, mxBlk := false
    opq := [], cmds := [], seq := SeqState.reset, stopAt := none, undo := [], fresh := [] }

def ScanState.reset : ScanState :=
  { running := false, start := 0, aborting := false, last := 0, elapsed := 0, sig := 0, by_ := none, baddr := 0, head := none }

def Core.reset : Core :=
  { task := none, firmware := false, team := Team.reset, ibuf := [], fetching := none, poisoned := [], stallUntil := 0
    request := none, requestAt := 0, holdIssue := false, stopped := false, haltReq := false, haltBy := []
    halted := none, brks := Vector.replicate 4 none, samplePeriod := 0
    sampleBase := 0, loopProf := false, lastIssue := none, gated := false, wakeAt := 0, scan := ScanState.reset
    fwd := [] }

def Group.reset : Group :=
  { cmap := Vector.replicate 24 0, afr := 0, statq := [], statqLost := 0, holds := [], reserve := none
    watchdogAt := 0, down := true }

def Capture.reset : Capture :=
  { on := false, replay := false, paused := false, ranges := [], packets := [], sums := [], next := 0
    used := [] }

def Packet.reset : Packet :=
  { stream := 0, resvA := 0, seq := 0, len := 0, resvB := 0, resvC := 0, arg0 := 0, arg1 := 0, payload := [] }

def Issue.reset : Issue :=
  { core := 0, words := [], ctx := 0, baddr := 0, next := 0, stall := 0, seq := 0, all := [], slots := [], effects := []
    faults := [] }

/-- A queue attribute word at reset: WEIGHT 1, everything else 0, so CAP 0 and the queue disabled (R282). -/
def queueReset : Word := 0x10000

/-- The device in the cycle power is applied, before stage 1 of R388 has done anything: the agenda holds nothing, so
the boot comes as the event POWER_ON. -/
def State.reset : State :=
  { cycle := 0, gstep := 0, mem := [], poison := []
    cores := Vector.replicate 208 Core.reset, groups := Vector.replicate 8 Group.reset, roots := []
    tlbs := Vector.replicate 48 [], walkers := Vector.replicate 8 [], slices := Vector.replicate 48 [], parked := [], tasks := [], resumes := [], marks := [], queues := Vector.replicate 128 queueReset
    credits := Vector.replicate 128 0, pointers := Vector.replicate 24 0, ageLimit := 200
    spaces := Vector.replicate 16 0, seqStore := [], promotions := [], tensors := [], factors := Vector.replicate 16 0
    staged := Vector.replicate 16 0, stepGroup := none, heldVotes := [], collGroups := [], collParts := []
    buckets := [], armings := [], rtabs := [], domain := [], device := 0, master := false, otherMaster := false, statRing := 0
    capture := Capture.reset, streams := Vector.replicate 8 none, out := [], deferred := [], heldCmds := [], forwards := [], powered := true
    stage := 0, holding := false, heldTurn := false, measured := 0, image := [], imageFetch := .idle, images := 0, version := 0, turn := 0, agenda := [], future := [], inbox := []
    ev := .none, pkt := Packet.reset, issue := Issue.reset, delays := [], areas := [], freeCtr := 0, nextSeq := 0, nextId := 0 }

end Sys2Proof.Machine
end

