-- ==== Sys2Proof/Machine/Operands.lean ====
section
/-! DEFINITION. Operand forms: elements of a register (R15), guards (R40), map descriptors and coordinates (R16 to
R18), pseudo-operands (R45), addresses (R12), immediates (R38, R45), the noise hash (R148) and the map helpers of
R134. -/

namespace Sys2Proof.Machine

/-! ## Elements (R14, R15) -/

/-- Elements of w bits in a vector register (R124). -/
def elemCount (w : Nat) : Nat := 4096 / w

/-- Element i of width w (R15). -/
def elem (x : VecBits) (i w : Nat) : Nat := (x.toNat >>> (w * i)) % 2 ^ w

/-- Numbers of w bits joined, the first lowest. -/
def packBits (w : Nat) (l : List Nat) : Nat := l.foldr (fun e acc => acc <<< w ||| e % 2 ^ w) 0

/-- A register from its elements. -/
def vecOf (w : Nat) (f : Nat → Nat) : VecBits := BitVec.ofNat 4096 (packBits w ((List.range (elemCount w)).map f))

/-- A write mask over elements of width w: all bits of every element that is chosen. -/
def elemMask (w : Nat) (f : Nat → Bool) : VecBits := vecOf w (fun i => if f i then 2 ^ w - 1 else 0)

/-- The bytes of a number, lowest first (R4). -/
def bytesOf (n x : Nat) : List Byte := (List.range n).map (fun i => BitVec.ofNat 8 (x >>> (8 * i)))

/-- The number that bytes make, lowest first (R4). -/
def natOf (l : List Byte) : Nat := l.foldr (fun b acc => acc <<< 8 ||| b.toNat) 0

/-- New bits under a mask, old bits outside it. -/
def merge (old x mask : BitVec n) : BitVec n := (old &&& ~~~mask) ||| (x &&& mask)

/-! ## Registers of a context -/

/-- Scalar register: s0 reads as zero (R9). -/
def Ctx.sReg (c : Ctx) (r : Reg6) : Word := if r = 0 then 0 else c.s.get ⟨r.toNat, r.isLt⟩

/-- Predicate register: p0 reads as all ones (R14). -/
def Ctx.pReg (c : Ctx) (r : BitVec 4) : PredBits := if r = 0 then BitVec.allOnes 512 else c.p.get ⟨r.toNat, r.isLt⟩

def Ctx.aReg (c : Ctx) (r : BitVec 4) : Word := c.a.get ⟨r.toNat, r.isLt⟩

/-- A real vector register. -/
def Ctx.vReg (c : Ctx) (r : Nat) : VecBits := c.v.toList.getD r 0

def Ctx.mapOf (c : Ctx) (r : Nat) : MapBits := c.maps.toList.getD r 0

/-- The guard of a word, inverted bit by bit with GNEG (R40). -/
def Ctx.guard (c : Ctx) (h : Head) : PredBits := if h.gneg then ~~~c.pReg h.guard else c.pReg h.guard

/-- Bit 0 of the guard decides for the scalar forms (R40). -/
def Ctx.guardBit (c : Ctx) (h : Head) : Bool := (c.guard h).getLsbD 0

/-- Is element i of width w active (R6, R14)? -/
def active (p : PredBits) (w i : Nat) : Bool := p.getLsbD (w / 8 * i)

/-- The write mask of a guard at width w. -/
def guardMask (p : PredBits) (w : Nat) : VecBits := elemMask w (active p w)

/-- The active elements of width w, ascending. -/
def activeElems (p : PredBits) (w : Nat) : List Nat := (List.range (elemCount w)).filter (active p w)

/-! ## Map descriptors (R16, R17) -/

def mapKind (m : MapBits) : Nat := (m.extractLsb' 0 2).toNat
def mapEw (m : MapBits) : Nat := (m.extractLsb' 2 2).toNat
def mapRank (m : MapBits) : Nat := (m.extractLsb' 4 3).toNat
def mapValid (m : MapBits) : Nat := (m.extractLsb' 8 10).toNat
def mapOrder (m : MapBits) (j : Nat) : Nat := (m.extractLsb' (18 + 2 * j) 2).toNat
def mapShape (m : MapBits) (d : Nat) : Nat := (m.extractLsb' (32 + 10 * d) 10).toNat
def mapOrigin (m : MapBits) (d : Nat) : Nat := (m.extractLsb' (72 + 24 * d) 24).toNat
def mapStep (m : MapBits) (d : Nat) : Int := (m.extractLsb' (168 + 16 * d) 16).toInt
def mapExtent (m : MapBits) (d : Nat) : Nat := (m.extractLsb' (232 + 24 * d) 24).toNat
def mapVtag (m : MapBits) : Nat := (m.extractLsb' 328 16).toNat
def mapCreg (m : MapBits) (k : Nat) : Nat := (m.extractLsb' (344 + 8 * k) 6).toNat
def mapCdim (m : MapBits) (k : Nat) : Nat := (m.extractLsb' (350 + 8 * k) 2).toNat
def mapNcar (m : MapBits) : Nat := (m.extractLsb' 360 2).toNat
def mapCctx (m : MapBits) (k : Nat) : Nat := (m.extractLsb' (362 + 2 * k) 2).toNat

def isNone (m : MapBits) : Bool := mapKind m == 0
def isAffine (m : MapBits) : Bool := mapKind m == 1
def isListed (m : MapBits) : Bool := mapKind m == 2

/-- Element width of a map in bits. -/
def mapWidth (m : MapBits) : Nat := match mapEw m with | 0 => 32 | 1 => 16 | _ => 8

/-- The EW code of a width in bits. -/
def ewOf (w : Nat) : Nat := if w = 32 then 0 else if w = 16 then 1 else 2

/-- The field of `len` bits at `lo` replaced by `x` modulo 2^len. -/
def mapPut (m : MapBits) (lo len : Nat) (x : Int) : MapBits :=
  (m &&& ~~~(BitVec.ofNat 384 ((2 ^ len - 1) <<< lo))) ||| BitVec.ofNat 384 ((x % (2 ^ len : Nat)).toNat <<< lo)

def mapSetKind (m : MapBits) (x : Nat) : MapBits := mapPut m 0 2 x
def mapSetEw (m : MapBits) (x : Nat) : MapBits := mapPut m 2 2 x
def mapSetValid (m : MapBits) (x : Nat) : MapBits := mapPut m 8 10 x
def mapSetOrder (m : MapBits) (j x : Nat) : MapBits := mapPut m (18 + 2 * j) 2 x
def mapSetShape (m : MapBits) (d x : Nat) : MapBits := mapPut m (32 + 10 * d) 10 x
def mapSetOrigin (m : MapBits) (d : Nat) (x : Int) : MapBits := mapPut m (72 + 24 * d) 24 x
def mapSetStep (m : MapBits) (d : Nat) (x : Int) : MapBits := mapPut m (168 + 16 * d) 16 x
def mapSetExtent (m : MapBits) (d : Nat) (x : Int) : MapBits := mapPut m (232 + 24 * d) 24 x
def mapSetVtag (m : MapBits) (x : Nat) : MapBits := mapPut m 328 16 x
def mapSetCreg (m : MapBits) (k x : Nat) : MapBits := mapPut m (344 + 8 * k) 6 x
def mapSetCdim (m : MapBits) (k x : Nat) : MapBits := mapPut m (350 + 8 * k) 2 x
def mapSetNcar (m : MapBits) (x : Nat) : MapBits := mapPut m 360 2 x
def mapSetCctx (m : MapBits) (k x : Nat) : MapBits := mapPut m (362 + 2 * k) 2 x

/-- The ordered dimensions ORDER[0] to ORDER[RANK-1]. -/
def mapDims (m : MapBits) : List Nat := (List.range (mapRank m)).map (mapOrder m)

/-- The slowest dimension, ORDER[RANK-1] (R134, R164). -/
def mapSlow (m : MapBits) : Nat := mapOrder m (mapRank m - 1)

/-- The carriers in use: none of an AFFINE map, NCAR of a LISTED one. -/
def mapCars (m : MapBits) : List Nat := if isListed m then List.range (mapNcar m) else []

def prodOf (l : List Nat) : Nat := l.foldl (· * ·) 1

/-- Is the descriptor well formed (R17)? -/
def mapWf (m : MapBits) : Bool :=
  isNone m
  || (mapKind m != 3 && mapEw m != 3 && 1 ≤ mapRank m && mapRank m ≤ 4
      && (mapDims m).all (fun d => d < mapRank m) && (mapDims m).Nodup
      && mapValid m ≤ prodOf ((mapDims m).map (mapShape m)) && mapValid m ≤ elemCount (mapWidth m)
      && (isAffine m
          || ((mapNcar m == 1 || mapNcar m == 2) && ((mapCars m).map (mapCdim m)).Nodup
              && (mapCars m).all (fun k => mapCdim m k < mapRank m) && mapEw m != 2)))

/-- The map as it is installed: every field its kind does not use reads as zero (R17). -/
def mapInstall (m : MapBits) : MapBits :=
  if isNone m then 0
  else
    let listed := (mapCars m).map (mapCdim m)
    let r := mapRank m
    let base := mapSetVtag (mapPut (mapSetValid (mapSetEw (mapSetKind 0 (mapKind m)) (mapEw m)) (mapValid m)) 4 3 r) (mapVtag m)
    let withOrder := (List.range r).foldl (fun x j => mapSetOrder x j (mapOrder m j)) base
    let withDims := (List.range r).foldl (fun x d =>
      let x := mapSetExtent (mapSetShape x d (mapShape m d)) d (mapExtent m d)
      if listed.contains d then x else mapSetStep (mapSetOrigin x d (mapOrigin m d)) d (mapStep m d)) withOrder
    if isListed m then
      (mapCars m).foldl (fun x k => mapSetCctx (mapSetCdim (mapSetCreg x k (mapCreg m k)) k (mapCdim m k)) k (mapCctx m k))
        (mapSetNcar withDims (mapNcar m))
    else withDims

/-- Does the map name register r of context c as a carrier (R19)? -/
def mapNames (m : MapBits) (c r : Nat) : Bool :=
  (mapCars m).any (fun k => mapCctx m k == c && mapCreg m k == r)

/-- The carrier checks of R146 and R164: registers below the context's count, of the own context. -/
def mapCarriersOk (m : MapBits) (own vregs : Nat) : Bool :=
  (mapCars m).all (fun k => mapCctx m k == own && mapCreg m k < vregs)

/-! ## Coordinates (R18) -/

/-- Place number k(d) of element i along dimension d. -/
def mapPlace (m : MapBits) (d : Nat) : Nat → List Nat → Nat
  | _, [] => 0
  | q, e :: rest => if e = d then q % mapShape m e else mapPlace m d (q / mapShape m e) rest

/-- Coordinate d of element i under an AFFINE or LISTED map; `carrier k i` is element i of carrier k. -/
def coordOf (carrier : Nat → Nat → Nat) (m : MapBits) (i d : Nat) : Nat :=
  if mapValid m ≤ i then 0xFFFFFF
  else if mapRank m ≤ d then 0
  else match (mapCars m).find? (fun k => mapCdim m k == d) with
    | some k => carrier k i % 2 ^ 24
    | none => ((mapOrigin m d + mapStep m d * mapPlace m d i (mapDims m)) % (2 ^ 24 : Nat)).toNat

/-- The `flat` value of element i (R18). -/
def flatOf (carrier : Nat → Nat → Nat) (m : MapBits) (i : Nat) : Nat :=
  if mapValid m ≤ i then 0xFFFFFFFF
  else ((List.range (mapRank m)).foldl (fun acc d => acc * mapExtent m d + coordOf carrier m i d) 0) % 2 ^ 32

/-- Coordinates through a register's map, with carriers in the own context; a NONE map reads as 0xFF_FFFF (R6, under
MAPMODE.SOFT: without it the slot has failed). -/
def Ctx.coord (c : Ctx) (m : MapBits) (i d : Nat) : Nat :=
  if isNone m then 0xFFFFFF else coordOf (fun k i => elem (c.vReg (mapCreg m k)) i (mapWidth m)) m i d

def Ctx.flat (c : Ctx) (m : MapBits) (i : Nat) : Nat :=
  if isNone m then 0xFFFFFFFF else flatOf (fun k i => elem (c.vReg (mapCreg m k)) i (mapWidth m)) m i

/-- MAP_NONE of register r, when its map is read while it is NONE (R262). -/
def Ctx.mapNone (c : Ctx) (r : Nat) : List (Cause × Word) :=
  if isNone (c.mapOf r) && !c.mapsoft then [(.mapNone, BitVec.ofNat 64 r)] else []

/-! ## Vector sources (R45, R124) -/

/-- The register whose map a map-dependent pseudo-operand reads: the first real source, or the destination (R45). -/
def srcMapReg (dst : Nat) (l : List Reg6) : Nat := (realV l).headD dst

/-- The immediate of a vector word (R45). -/
def immVal (h : Head) : Nat := match h.imm with | some i => i.value.toNat | none => 0

/-- Element i of a vector source at width w; `mr` is the register whose map the pseudo-operands read. `lane` is i mod 2^w
(DESIGN CHOICE, log 149, for i of 256 and more at 8 bits). -/
def Ctx.src (c : Ctx) (h : Head) (mr : Nat) (x : Reg6) (w i : Nat) : Nat :=
  if x.toNat < 56 then elem (c.vReg x.toNat) i w
  else if x = 60 then i % 2 ^ w
  else if x = 61 then c.flat (c.mapOf mr) i % 2 ^ w
  else if x = 62 then 0
  else if x = 63 then immVal h % 2 ^ w
  else c.coord (c.mapOf mr) i (x.toNat - 56) % 2 ^ w

/-- The MAP_NONE check of a slot's pseudo-operands (R20, R262). -/
def Ctx.pseudoFaults (c : Ctx) (dst : Nat) (l : List Reg6) : List (Cause × Word) :=
  if l.any mapPseudo then c.mapNone (srcMapReg dst l) else []

/-- Rule E of R126: the map of the first real source; none (keep) without one. -/
def Ctx.mapE (c : Ctx) (l : List Reg6) : Option MapBits := (realV l).head?.map c.mapOf

/-! ## Addresses (R11, R12) -/

def areaOff (a : Word) : Nat := (a.extractLsb' 0 24).toNat
def areaInc (a : Word) : Int := (a.extractLsb' 24 24).toInt
def areaMod (a : Word) : Nat := (a.extractLsb' 48 16).toNat

/-- The address for a displacement (R12). -/
def areaAddr (a : Word) (disp : Int) : Nat :=
  let off := areaOff a
  let w := 32 * areaMod a
  if areaMod a = 0 then ((off + disp) % (2 ^ 24 : Nat)).toNat
  else let base := off - off % w
       base + (((off - base : Nat) + disp) % (w : Int)).toNat

/-- An address register with OFF replaced, modulo 2^24. -/
def areaSetOff (a : Word) (off : Nat) : Word := (a &&& 0xFFFFFFFFFF000000) ||| BitVec.ofNat 64 (off % 2 ^ 24)

/-- The register after one post-increment by `inc` (R12). -/
def areaAdvance (a : Word) (inc : Int) : Word := areaSetOff a (areaAddr a inc)

/-- The displacement of an M word (R38, R43). -/
def dispInt (w : MWord) : Int :=
  if w.amode != 2 then 0
  else match w.hd.imm with
    | some i => i.value.toInt
    | none => w.disp.toInt

/-- The address of an M word's memory operand (R12). -/
def Ctx.memAddr (c : Ctx) (w : MWord) : Nat := areaAddr (c.aReg w.areg) (dispInt w)

/-! ## Scalar operands (R95) -/

/-- Width of a scalar type: 64 for TYPE 0 (R95). -/
def sWidth (t : BitVec 4) : Nat := if t == 0 then 64 else tyWidth t

/-- The integer that a register's low bits stand for under a type (R95). -/
def sVal (t : BitVec 4) (x : Word) : Int := intOf (sWidth t) (t == 0 || tySigned t) (x.toNat % 2 ^ sWidth t)

/-- A result truncated to the type and extended back to 64 bits (R95). -/
def sExt (t : BitVec 4) (x : Int) : Word :=
  BitVec.ofInt 64 (intOf (sWidth t) (t == 0 || tySigned t) (x % (2 ^ sWidth t : Nat)).toNat)

/-! ## Noise (R148) -/

def noiseMix (x : BitVec 32) : BitVec 32 :=
  let x := (x ^^^ (x >>> 16)) * 0x7FEB352D
  let x := (x ^^^ (x >>> 15)) * 0x846CA68B
  x ^^^ (x >>> 16)

/-- The hash of a key, a salt and four coordinates (R148). -/
def noise (key : Word) (salt : Nat) (cs : List Nat) : BitVec 32 :=
  let h := noiseMix (key.extractLsb' 0 32 ^^^ (BitVec.ofNat 32 salt * 0x01000193))
  let h := noiseMix (h ^^^ key.extractLsb' 32 32)
  cs.foldl (fun h c => noiseMix (h + BitVec.ofNat 32 c)) h

/-- The rounding mode of a vector element: `.sr` hashes the coordinates of the element under the result map
(R110). -/
def Ctx.rmode (c : Ctx) (gstep : BitVec 32) (rnd : BitVec 2) (salt : Nat) (m : MapBits) (i : Nat) : RMode :=
  match rnd.toNat with
  | 0 => .rne
  | 1 => .rtz
  | _ => .sr ((noise (gstep.zeroExtend 64) salt ((List.range 4).map (c.coord m i))).toNat % 2 ^ 16)

/-! ## Maps of width-changing instructions (R134) -/

/-- P of R134: the shape product below the slowest dimension. -/
def mapInner (m : MapBits) : Nat := prodOf (((mapDims m).take (mapRank m - 1)).map (mapShape m))

/-- ORIGIN[s] advanced to part h of M elements each (R134). -/
def mapPart (m : MapBits) (h M : Nat) : Int := mapOrigin m (mapSlow m) + mapStep m (mapSlow m) * (h * M / mapInner m : Nat)

/-- Part h of a map (R134). A SHAPE of 0 below the slowest dimension, for which M mod P has no value, gives NONE (DESIGN CHOICE,
log 187). -/
def mapcut (m : MapBits) (h M ew : Nat) : MapBits :=
  let s := mapSlow m
  if !isAffine m || mapInner m = 0 || M % mapInner m ≠ 0 then 0
  else mapSetValid (mapSetShape (mapSetOrigin (mapSetEw m ew) s (mapPart m h M)) s (M / mapInner m))
    (min (mapValid m - h * M) M)

/-- A map with ORIGIN[s] and VALID cleared, to compare parts. -/
def mapParts0 (m : MapBits) (s : Nat) : MapBits := mapSetValid (mapSetOrigin m s 0) 0

def mapjoin (ms : List MapBits) (M ew : Nat) : MapBits :=
  let m := ms.headD 0
  let s := mapSlow m
  let q := ms.length
  let ok (p : Nat × MapBits) : Bool :=
    mapParts0 p.2 s == mapParts0 m s && (mapOrigin p.2 s : Int) == mapPart m p.1 M % (2 ^ 24 : Nat)
  let valids := ms.map mapValid
  if !isAffine m || mapInner m = 0 || M % mapInner m ≠ 0 || mapShape m s ≠ M / mapInner m then 0
  else if !((List.range q).zip ms).all ok then 0
  else if (valids.zip valids.tail).any (fun p => p.1 < M && 0 < p.2) then 0
  else mapSetValid (mapSetShape (mapSetEw m ew) s (q * M / mapInner m)) (valids.foldl (· + ·) 0)

/-- The LISTED map of a gather (R142, R143, R166): RANK 1, one carrier. -/
def listedMap (ew carrier ctx valid extent vtag : Nat) : MapBits :=
  let m := mapPut (mapSetValid (mapSetEw (mapSetKind 0 2) ew) valid) 4 3 1
  let m := mapSetExtent (mapSetShape m 0 (if ew = 0 then 128 else 256)) 0 extent
  mapSetCctx (mapSetCreg (mapSetNcar (mapSetVtag m vtag) 1) 0 carrier) 0 ctx

end Sys2Proof.Machine
end

