-- ==== Sys2Proof/Machine/Flags.lean ====
section
/-! DEFINITION. Comparison codes (R47, R95, R114), the predicate bits they write (R131), and the exception counts of
a slot (R123, R379). The Phiril has no flags register: comparisons write scalars or predicates, and float exceptions
are counted in records. -/

namespace Sys2Proof.Machine

/-- An integer comparison (R47). -/
def intCc (cc : Nat) (a b : Int) : Bool :=
  match cc with
  | 0 => a = b
  | 1 => a ≠ b
  | 2 => a < b
  | 3 => a ≤ b
  | 4 => b < a
  | 5 => b ≤ a
  | _ => false

/-- A float comparison (R114). -/
def floatCc (cc : Nat) (a b : FVal) : Bool × Exc :=
  let x := if a.signals || b.signals then excInvalid else excNone
  if a.isNan || b.isNan then (cc == 1 || cc == 6, x)
  else
    let r := match fOrd a b with
      | .lt => [1, 2, 3, 7].contains cc
      | .eq => [0, 3, 5, 7].contains cc
      | .gt => [1, 4, 5, 7].contains cc
    (r, x)

/-- All w/8 bits of every element whose test holds (R131). -/
def predOf (w : Nat) (f : Nat → Bool) : PredBits :=
  BitVec.ofNat 512 (packBits (w / 8) ((List.range (elemCount w)).map (fun i => if f i then 2 ^ (w / 8) - 1 else 0)))

/-- The bits of a predicate that a guard at width w lets be written. -/
def predMask (g : PredBits) (w : Nat) : PredBits := predOf w (active g w)

def countExc (l : List Exc) : ExcCount :=
  { inv := l.countP (·.inv), ovf := l.countP (·.ovf), unf := l.countP (·.unf), inx := l.countP (·.inx) }

/-- AUX of an FP_EXC record: four counts saturating at 255, the unit code, and the block-format flag (R379). -/
def excAux (c : ExcCount) (unit : BitVec 4) (blk : Bool) : BitVec 45 :=
  BitVec.ofNat 45 (min c.inv 255 + min c.ovf 255 * 2 ^ 8 + min c.unf 255 * 2 ^ 16 + min c.inx 255 * 2 ^ 24
    + unit.toNat * 2 ^ 32 + (if blk then 2 ^ 36 else 0))

/-- A slot that raises invalid, overflow or underflow appends a record; inexact alone does not (R123). -/
def excReports (c : ExcCount) : Bool := 0 < c.inv || 0 < c.ovf || 0 < c.unf

end Sys2Proof.Machine
end

