-- ==== Sys2Proof/Machine/MatrixMath.lean ====
section
/-! DEFINITION. What the matrix unit computes (R116 to R120): operand rows and columns as exact values, exact products,
a tree of sums rounded to 32 significand bits, and one rounding into the accumulator. -/

namespace Sys2Proof.Machine

/-- A node of the sum tree: its value and the exceptions below it. -/
abbrev Node := FVal × Exc

/-- A finite value rounded to 32 significand bits, and whether that changed it (R120). -/
def roundNode (v : FVal) : FVal × Bool :=
  match v with
  | .fin n m e =>
    if m = 0 then (v, false)
    else
      let lsb := e + Nat.log2 m - 31
      if lsb ≤ e then (v, false)
      else let (q, x) := roundShift m (lsb - e).toNat .rne
           (.fin n q lsb, x)
  | _ => (v, false)

/-- A tree node: the sum of its children, rounded (R120). The exceptions of its own rounding and of the nodes below count for the element
(R123; DESIGN CHOICE, log 198). -/
def addNode (a b : Node) : Node :=
  let (v, x) := fAdd a.1 b.1
  let (v', inx) := roundNode v
  (v', { (a.2.or b.2).or x with inx := a.2.inx || b.2.inx || x.inx || inx })

/-- One level of a tree: nodes 2j and 2j+1 combined. -/
def treeLevel (f : α → α → α) : List α → List α
  | a :: b :: r => f a b :: treeLevel f r
  | l => l

/-- The root of a tree of at most 2^k leaves. -/
def treeRoot (f : α → α → α) : Nat → List α → List α
  | 0, l => l
  | k + 1, l => treeRoot f k (treeLevel f l)

def zeroVal : FVal := .fin false 0 0

/-- The sum of the products of a row and a column, in a tree with 2^k leaves (R120). -/
def dotTree (k : Nat) (row col : List FVal) : Node :=
  let leaves := (row.zip col).map (fun p => fMul p.1 p.2)
  (treeRoot addNode k (leaves ++ List.replicate (2 ^ k - leaves.length) (zeroVal, excNone))).headD (zeroVal, excNone)

/-- acc := round(acc + root, FP32, rne) (R120). -/
def accumulate (acc : Nat) (root : Node) : Nat × Exc :=
  let (v, x) := fAdd (fp32.decode acc) root.1
  let (p, y) := fp32.deliver .rne v
  (p, (root.2.or x).or y)

/-- TYPE 0 of a matrix operand is `.bf16` (R180). -/
def mxTy (t : BitVec 4) : BitVec 4 := if t = 0 then 8 else t

/-- Bits of a dense element, the K-step it gives, and log2 of the tree's leaves (R180). -/
def mxKstep (t : BitVec 4) : Nat := if tyWidth (mxTy t) = 16 then 16 else if tyWidth (mxTy t) = 8 then 32 else 64
def mxDepth (t : BitVec 4) : Nat := if mxKstep t = 16 then 4 else if mxKstep t = 32 then 5 else 6

/-- A dense operand element; a `.q4` operand has scale 1 (R180). -/
def mxVal (t : BitVec 4) (qt : BitVec 2) (x : Nat) : FVal :=
  if mxTy t = 12 then q4Val qt.toNat x else valOf (mxTy t) x

/-- Row r of a dense A operand of 128 units of 32 bytes (R180). -/
def denseRow (t : BitVec 4) (qt : BitVec 2) (unit : BitVec 256) : List FVal :=
  (List.range (mxKstep t)).map (fun k => mxVal t qt (unit.toNat >>> (tyWidth (mxTy t) * k) % 2 ^ tyWidth (mxTy t)))

/-- Column c of a dense B operand: row k holds 128 elements (R180). -/
def denseCol (t : BitVec 4) (qt : BitVec 2) (b : Nat) (c : Nat) : List FVal :=
  let w := tyWidth (mxTy t)
  (List.range (mxKstep t)).map (fun k => mxVal t qt (b >>> (w * (128 * k + c)) % 2 ^ w))

/-- The format code of a tagged block, a reserved one taken as ZERO (R117). -/
def blockCode (b : Nat) : Nat := if b % 256 ≤ 5 then b % 256 else 0

/-- The elements a tagged block supplies in a chunk of n blocks, scaled (R116, R118, R119). -/
def blockVals (n : Nat) (b : Nat) : List FVal :=
  let sc := b >>> 8 % 256
  let plain (t : BitVec 4) : List FVal :=
    let w := tyWidth t
    (List.range (496 / w)).map (fun j => (valOf t (b >>> (16 + w * j) % 2 ^ w)).scale ((sc : Int) - 127))
  match blockCode b with
  | 1 => (List.range 124).map (fun j => (q4Val (sc / 64) (b >>> (16 + 4 * j) % 16)).scale ((sc % 64 : Nat) - 32))
  | 2 => plain 10
  | 3 => plain 11
  | 4 => plain 1
  | 5 => plain 8
  | _ => List.replicate (124 / n) zeroVal

/-- A tagged chunk of n blocks of 64 bytes: its first 124 elements (R119). -/
def chunkVals (n : Nat) (bs : List Nat) : List FVal := ((bs.map (blockVals n)).flatten).take 124

/-- Cycles of the widest block: 32 for Q4 and ZERO, 64 for 8-bit, 128 for BF16 (R119). -/
def blockCycles (b : Nat) : Nat :=
  match blockCode b with
  | 0 => 32 | 1 => 32 | 5 => 128 | _ => 64

/-- Pairs of 32-byte units joined to 64-byte blocks. -/
def blocksOf : List (BitVec 256) → List Nat
  | a :: b :: r => (a.toNat + b.toNat <<< 256) :: blocksOf r
  | _ => []

/-- A list in groups of n. -/
def chunked (n : Nat) : Nat → List α → List (List α)
  | 0, _ => []
  | k + 1, l => l.take n :: chunked n k (l.drop n)

/-- One row of a tile: 128 columns accumulated; the exceptions of each element (R120). -/
def mmaRow (depth : Nat) (old : VecBits) (row : List FVal) (cols : List (List FVal)) : VecBits × List Exc :=
  let rs := (cols.zip (List.range 128)).map (fun p => accumulate (elem old p.2 32) (dotTree depth row p.1))
  (BitVec.ofNat 4096 (packBits 32 (rs.map (·.1))), rs.map (·.2))

/-- The rows of a product: `olds` are the accumulator rows it adds to. -/
def mmaRows (depth : Nat) (olds : List VecBits) (rows cols : List (List FVal)) : List VecBits × List Exc :=
  let rs := (olds.zip rows).map (fun p => mmaRow depth p.1 p.2 cols)
  (rs.map (·.1), (rs.map (·.2)).flatten)

end Sys2Proof.Machine
end

