-- ==== Sys2Proof/Machine/Ops.lean ====
section
/-! DEFINITION. The named operations over memory, registers and the device: memory in canonical form, the state of a
core, statistics records (R378 to R380), task failure (R355), taking an exception and returning from one (R90, R91,
R345), a slot and the commit of a bundle (R343), and what lands in a cycle (R10, R19, R161). -/

namespace Sys2Proof.Machine

/-! ## Memory in canonical form -/

/-- Addresses strictly rise and no zero byte is listed. -/
def Memory.wf : Memory → Bool
  | [] => true
  | [(_, b)] => b != 0
  | (a, b) :: (a', b') :: r => b != 0 && a < a' && Memory.wf ((a', b') :: r)

/-- One byte: an unlisted address reads as zero (R33, R388). -/
def memGet : Memory → Nat → Byte
  | [], _ => 0
  | (k, b) :: r, a => if k = a then b else memGet r a

/-- Write one byte, keeping the canonical form. -/
def memPut : Memory → Nat → Byte → Memory
  | [], a, b => if b = 0 then [] else [(a, b)]
  | (k, x) :: r, a, b =>
    if k < a then (k, x) :: memPut r a b
    else if k = a then (if b = 0 then r else (a, b) :: r)
    else if b = 0 then (k, x) :: r
    else (a, b) :: (k, x) :: r

/-- `n` bytes from `a` upward. -/
def memRead : Memory → Nat → Nat → List Byte
  | _, _, 0 => []
  | m, a, n + 1 =>
    let m' := m.dropWhile (fun c => c.1 < a)
    (match m' with
      | (k, b) :: _ => if k = a then b else 0
      | [] => 0) :: memRead m' (a + 1) n

/-- The cells of bytes from `a` upward, zero bytes left out. -/
def cellsOf : Nat → List Byte → Memory
  | _, [] => []
  | a, b :: r => if b = 0 then cellsOf (a + 1) r else (a, b) :: cellsOf (a + 1) r

/-- Bytes written from `a` upward. -/
def memWrite (m : Memory) (a : Nat) (bs : List Byte) : Memory :=
  m.takeWhile (fun c => c.1 < a) ++ cellsOf a bs ++ m.dropWhile (fun c => c.1 < a + bs.length)

/-- Bytes at any addresses, the later of two for one address remaining. -/
def memScatter (m : Memory) (cells : List Host.Cell) : Memory := cells.foldl (fun m c => memPut m c.1 c.2) m

/-- The little-endian number of `n` bytes at `a` (R4). -/
def memNat (m : Memory) (a n : Nat) : Nat := natOf (memRead m a n)

/-- The value under a number in a store, `d` for an unlisted number. -/
def storeGet (d : α) : Store α → Nat → α
  | [], _ => d
  | (k, x) :: r, a => if k = a then x else storeGet d r a

def storeFind : Store α → Nat → Option α
  | [], _ => none
  | (k, x) :: r, a => if k = a then some x else storeFind r a

/-- Put a value, or remove it with none, keeping numbers rising. -/
def storePut : Store α → Nat → Option α → Store α
  | [], a, x => match x with | some x => [(a, x)] | none => []
  | (k, y) :: r, a, x =>
    if k < a then (k, y) :: storePut r a x
    else if k = a then (match x with | some x => (a, x) :: r | none => r)
    else match x with
      | some x => (a, x) :: (k, y) :: r
      | none => (k, y) :: r

/-- Put a value that is removed when it is the default. -/
def storePutD [DecidableEq α] (d : α) (m : Store α) (a : Nat) (x : α) : Store α :=
  storePut m a (if x = d then none else some x)

/-! ## Cores -/

def State.coreAt (s : State) (c : Fin 208) : Core := s.cores.get c

def State.updCore (s : State) (c : Fin 208) (f : Core → Core) : State :=
  { s with cores := s.cores.set c (f (s.cores.get c)) }

/-- A halted core goes on; the halted time counts for no WAITLIM (R385). -/
def Core.resume (y : Core) (cycle : Nat) : Core :=
  match y.halted with
  | none => y
  | some h => { y with
      halted := none
      team := { y.team with ctxs := y.team.ctxs.map (fun x => { x with blockedSince := x.blockedSince.map (fun n => n + (cycle - h)) }) } }

def State.updTeam (s : State) (c : Fin 208) (f : Team → Team) : State :=
  s.updCore c (fun x => { x with team := f x.team })

def Team.updCtx (t : Team) (k : Fin 4) (f : Ctx → Ctx) : Team :=
  { t with ctxs := t.ctxs.set k (f (t.ctxs.get k)) }

def State.updCtx (s : State) (c : Fin 208) (k : Fin 4) (f : Ctx → Ctx) : State :=
  s.updTeam c (fun t => t.updCtx k f)

def State.ctxAt (s : State) (c : Fin 208) (k : Fin 4) : Ctx := (s.coreAt c).team.ctxs.get k

def State.groupAt (s : State) (g : Fin 8) : Group := s.groups.get g

def State.updGroup (s : State) (g : Fin 8) (f : Group → Group) : State :=
  { s with groups := s.groups.set g (f (s.groups.get g)) }

/-- Is it a control core (R2)? -/
def isControl (c : Fin 208) : Bool := 200 ≤ c.val

/-- The stack group of a core (R2, R29). -/
def groupOf (c : Fin 208) : Fin 8 :=
  ⟨if c.val < 200 then c.val / 25 else c.val - 200, by have := c.isLt; split <;> omega⟩

/-- The physical core of a stack group (R29). -/
def physCore (g : Fin 8) (p : Nat) : Fin 208 := ⟨25 * g.val + p % 25, by have := g.isLt; omega⟩

def computeCore (c : Fin 200) : Fin 208 := ⟨c.val, by have := c.isLt; omega⟩

def controlCore (g : Fin 8) : Fin 208 := ⟨200 + g.val, by have := g.isLt; omega⟩

/-- CORE_ID (R29); a control core's records carry PCORE 25 (log 20). -/
def coreId (c : Fin 208) : Nat := 32 * (groupOf c).val + (if c.val < 200 then c.val % 25 else 25)

/-- The logical entry that maps a physical core, if any (R31). -/
def State.logicalOf (s : State) (c : Fin 208) : Option Nat :=
  if isControl c then none
  else (List.range 24).find? (fun l => (s.groupAt (groupOf c)).cmap.toList.getD l 0 == BitVec.ofNat 8 (128 + c.val % 25))

/-- The physical core of a valid logical entry. -/
def State.physOf (s : State) (g : Fin 8) (l : Nat) : Option (Fin 208) :=
  let e := (s.groupAt g).cmap.toList.getD l 0
  if e.getLsbD 7 then some (physCore g (e.toNat % 32)) else none

/-! ## The partition (R23, R24, R265) -/

def partCtx (p : Word) : Nat := (p.extractLsb' 20 3).toNat
def partVregs (p : Word) : Nat := match (p.extractLsb' 18 2).toNat with | 0 => 16 | 1 => 32 | _ => 56
def partAccb (p : Word) : Nat := (p.extractLsb' 9 9).toNat
def partRfb (p : Word) : Nat := (p.extractLsb' 0 9).toNat
def partSpb (p : Word) : Nat := Config.poolBanks - partRfb p - partAccb p

/-- The limits of R23 and R24. -/
def partOk (p : Word) : Bool :=
  p.toNat < 2 ^ 23 && 1 ≤ partCtx p && partCtx p ≤ 4 && p.extractLsb' 18 2 != 3
    && partAccb p % 16 == 0 && partAccb p ≤ 256 && (partCtx p * partVregs p + 7) / 8 ≤ partRfb p
    && partRfb p + partAccb p + 32 ≤ Config.poolBanks

/-- Contexts of the team on a core; a control core has one (R265). -/
def ctxCount (c : Fin 208) (t : Team) : Nat := if isControl c then 1 else partCtx t.part

/-- Bytes of the scratchpad (R24, R265). -/
def spadSize (c : Fin 208) (t : Team) : Nat := 4096 * (if isControl c then Config.controlBanks else partSpb t.part)

def State.decodeEnv (s : State) (c : Fin 208) (inBody : Bool) : DecodeEnv :=
  let t := (s.coreAt c).team
  { control := isControl c, vregs := partVregs t.part, tiles := partAccb t.part / 16, inBody := inBody }

/-! ## The agenda, timers and messages -/

/-- An event in a later cycle. -/
def State.later (s : State) (d : Nat) (e : Event) : State := { s with future := s.future ++ [(s.cycle + d, e)] }

/-- An event in this cycle. -/
def State.now (s : State) (e : Event) : State := { s with agenda := s.agenda ++ [e] }

def event (i : Instr) (a : EvArg) : Event := { instr := i, arg := a, pkt := none }

/-- The next engine or fabric latency, which no rule fixes (R267): the head of the list, 0 when it is empty. -/
def State.takeDelay (s : State) : Nat × State := (s.delays.headD 0, { s with delays := s.delays.tail })

def State.send (s : State) (m : OutMsg) : State := { s with out := s.out ++ [m] }

/-- The host's streams that are open. -/
def State.openStreams (s : State) : List Nat :=
  (List.range 8).filter (fun i => (s.streams.toList.getD i none).isSome)

/-- A message on every open stream (R365). -/
def State.tellAll (s : State) (kind : Byte) (x y z : Word) : State :=
  s.openStreams.foldl (fun s i => s.send (.message (BitVec.ofNat 3 i) kind x y z)) s

/-! ## Statistics records (R378 to R380) -/

/-- The words of a record (R378). -/
def recordWords (kind : BitVec 7) (core : Nat) (aux : BitVec 45) (baddr : BitVec 56) (cyc : Nat) (tval : Word)
    (extra : List Word) : List Word :=
  [(1#1 ++ kind ++ BitVec.ofNat 3 extra.length ++ BitVec.ofNat 8 core ++ aux : BitVec 64),
   baddr.zeroExtend 64, BitVec.ofNat 64 cyc, tval] ++ extra

def queueWords : Nat := 8192

/-- The STATQ_LOST record of the records lost, once 32 words are free (R380). -/
def tellLost (g : Group) (gi : Nat) (cyc : Nat) : Group :=
  if 0 < g.statqLost && g.statq.length + 32 ≤ queueWords then
    { g with statq := g.statq ++ recordWords 0x12 (32 * gi + 31) 0 0 cyc (BitVec.ofNat 64 g.statqLost) [], statqLost := 0 }
  else g

/-- Offer a record to a group's queue: whole or not at all; lost records are counted and reported first (R380). -/
def offerRecord (g : Group) (gi : Nat) (cyc : Nat) (ws : List Word) : Group :=
  let g := tellLost g gi cyc
  if g.statqLost = 0 && g.statq.length + ws.length ≤ queueWords then { g with statq := g.statq ++ ws }
  else { g with statqLost := g.statqLost + 1 }

/-- Append a record of stack group `g` with the CORE byte given. -/
def State.recordAt (s : State) (g : Fin 8) (core : Nat) (kind : BitVec 7) (aux : BitVec 45) (baddr : BitVec 56)
    (tval : Word) (extra : List Word) : State :=
  s.updGroup g (fun x => offerRecord x g.val s.cycle (recordWords kind core aux baddr s.cycle tval extra))

/-- Append a core's record. -/
def State.record (s : State) (c : Fin 208) (kind : BitVec 7) (aux : BitVec 45) (baddr : BitVec 56) (tval : Word)
    (extra : List Word) : State :=
  s.recordAt (groupOf c) (coreId c) kind aux baddr tval extra

/-- Append the FP_EXC record of a slot or command, if its counts call for one (R123). -/
def State.recordExc (s : State) (c : Fin 208) (baddr : BitVec 56) (unit : BitVec 4) (x : ExcCount) (blk : Bool) : State :=
  if excReports x then s.record c Cause.fpExc.code (excAux x unit blk) baddr (baddr.zeroExtend 64) [] else s

/-! ## Tasks -/

def State.taskOf (s : State) (id : Nat) : Option Task := s.tasks.find? (fun t => t.id == id)

def State.updTask (s : State) (id : Nat) (f : Task → Task) : State :=
  { s with tasks := s.tasks.map (fun t => if t.id == id then f t else t) }

/-- The task that runs on a core. -/
def State.taskAt (s : State) (c : Fin 208) : Option Task := (s.coreAt c).task.bind s.taskOf

/-- The gang member that a core is (R281): its place in the task's core list. -/
def memberOf (t : Task) (c : Fin 208) : Nat := t.cores.idxOf (⟨c.val % 200, Nat.mod_lt _ (by decide)⟩ : Fin 200)

/-- An outstanding command that a failing task leaves: what has begun runs to its end; what has not begun, or has been
parked, ends with ERR 0x07 and the count moved, 0 for the first (R355). -/
def failCmd (c : Cmd) : Cmd :=
  match c.state with
  | .queued => { c with state := .done, err := 0x07, value := BitVec.ofNat 56 c.moved }
  | .parked _ _ _ => { c with state := .done, err := 0x07, value := BitVec.ofNat 56 c.moved }
  | .waiting => c
  | .done => c

/-- Fail a task: from this cycle on none of its contexts issues and its commands end (R355); the first cause decides.
The other members of a gang stop too and are recorded with GANG_ABORT, but for a deadline, which fails them all (R297, R301). -/
def State.failTask (s : State) (id : Nat) (f : Failure) : State :=
  match s.taskOf id with
  | none => s
  | some t =>
    if t.failure.isSome then s
    else
      let s := { s with tasks := s.tasks.map (fun t => if t.id == id then
        { t with failure := some f, state := .ending, due := none, dest := none, victimFor := none
                 frames := t.frames.map (fun x => { x with cmds := x.cmds.map failCmd }) } else t) }
      let on := t.cores.filter (fun c => (s.coreAt (computeCore c)).task == some id)
      let s := on.foldl (fun s c => s.updCore (computeCore c) (fun x =>
        { x with stopped := true, request := none, holdIssue := false
                 team := { x.team with cmds := x.team.cmds.map failCmd } })) s
      if t.tcb.gang = 0 || f.cause = Cause.deadline.code then s
      else (t.cores.zip (List.range t.cores.length)).foldl (fun s p =>
        if p.2 = f.member then s
        else s.record (computeCore p.1) Cause.gangAbort.code 0 0 (BitVec.ofNat 64 f.member) []) s

/-- Fail the task of a core with a cause of R348, as a reported cause: one record, one failure. -/
def State.failCore (s : State) (c : Fin 208) (cause : Cause) (baddr : BitVec 56) (tval : Word) : State :=
  let s := s.record c cause.code 0 baddr tval []
  match s.taskAt c with
  | some t => s.failTask t.id { status := 1, cause := cause.code, detail := tval, member := memberOf t c }
  | none => s

/-! ## The reset of a control core (R354) -/

/-- The ROM asks the boot server for the image: the first message of 4096 bytes (R388 stage 2, R391). -/
def State.fetchImage (s : State) : State :=
  State.send { s with image := [], imageFetch := .running } (.fabric Config.bootEndpoint.toNat none (.read 0 0 4096))

/-- A control core as a reset leaves it: its outstanding commands, which run on or end as a failed task's do (R355, R356; DESIGN
CHOICE, log 184), its attention sequencer until then, and a stop asked for. -/
def Core.resetWith (y : Core) : Core :=
  { Core.reset with team := { Team.reset with cmds := y.team.cmds.map failCmd, seq := y.team.seq }, haltReq := y.haltReq, haltBy := y.haltBy }

/-- The control core is reset, the host is told, and its firmware is fetched again, with a fetch under way or to come if there is
one (R354, R391). -/
def State.resetControl (s : State) (g : Fin 8) : State :=
  let c := controlCore g
  let s := s.record c Cause.watchdog.code 0 0 (BitVec.ofNat 64 g.val) []
  let s := s.send (.message 0 3 (BitVec.ofNat 64 g.val) 0 0)
  let s := (s.updCore c Core.resetWith).updGroup g (fun x => { x with down := true })
  if s.imageFetch = .idle then s.fetchImage else s

/-! ## Taking an exception and returning from one -/

/-- A loop that a trap suspends (R80): it keeps its count and position. -/
def suspendLoop (l : Option LoopState) : Option LoopState := l.map (fun l => { l with suspended := true })

/-- Trap entry (R90): the trap registers are written, TE closes, HND is set, a loop is suspended, and the context goes
on at TVEC no earlier than two cycles later (R344). -/
def Ctx.trap (c : Ctx) (cycle : Nat) (cause : Cause) (pc : BitVec 56) (tval : Word) (mask : BitVec 11) : Ctx :=
  { c with tcause := cause.code, tpc := pc, tval := tval, tmask := mask, te := false, hnd := true
           loop := suspendLoop c.loop, pc := c.tvec, earliest := cycle + 2, blockedSince := none, blockedOn := []
           preread := none, brkPass := false }

/-- Take a precise trap on a core; with traps closed or no handler it is a double fault: the team stops as for a
failure, one DOUBLE_FAULT record is appended, and the task fails with the cause not taken (R345). A control core has no
task and only stops (log 21). -/
def State.takeTrap (s : State) (c : Fin 208) (k : Fin 4) (cause : Cause) (pc : BitVec 56) (tval : Word)
    (mask : BitVec 11) : State :=
  let x := s.ctxAt c k
  if x.te && x.tvec != 0 then s.updCtx c k (fun x => x.trap s.cycle cause pc tval mask)
  else
    let s := s.record c Cause.doubleFault.code 0 pc (BitVec.ofNat 64 (cause.code.toNat + x.tcause.toNat * 256)) []
    match s.taskAt c with
    | some t => s.failTask t.id { status := 1, cause := cause.code, detail := tval, member := memberOf t c }
    | none => s.updCore c (fun x => { x with stopped := true })

/-- Does a body bundle at `a` lie in the loop buffer (R80)? -/
def loopHolds (l : LoopState) (a : BitVec 56) : Option Nat :=
  let i := (l.held.map (·.1)).idxOf a
  if i < l.held.length then some i else none

/-- Return from an exception (R91): PC := TPC, HND cleared, TE set; a suspended loop resumes when the target is a held
body bundle and is abandoned otherwise (R80). -/
def Ctx.trapReturn (c : Ctx) : Ctx :=
  { c with pc := c.tpc, hnd := false, te := true
           loop := match c.loop with
             | some l =>
               if l.suspended then (loopHolds l c.tpc).map (fun i => { l with suspended := false, pos := i })
               else some l
             | none => none }

/-! ## Barriers (R84, R85) -/

/-- A barrier as a launch leaves it, for the contexts that share it (R84). -/
def launchBarrier (contexts : Nat) : Barrier := { count := contexts, arrivals := 0, gen := 0 }

/-- The members of a task by its GANG code (R281). -/
def gangMembers (gang : Nat) : Nat := match gang with | 0 => 1 | 1 => 4 | 2 => 16 | _ => 24

/-- One arrival at a barrier (R85). -/
def Barrier.arrive (b : Barrier) : Barrier :=
  if b.arrivals + 1 = b.count then { b with arrivals := 0, gen := b.gen + 1 }
  else { b with arrivals := b.arrivals + 1 }

/-- The logical cluster of a gang member's core: its place in the member order (R281). -/
def clusterIx (t : Task) (c : Fin 208) : Nat := memberOf t c / 4

/-- A barrier of a scope as a core sees it; none when the task has no barrier at that scope (R84). -/
def State.barrier (s : State) (c : Fin 208) (scope b : Nat) : Option Barrier :=
  match scope with
  | 0 => some ((s.coreAt c).team.bars.toList.getD b Barrier.reset)
  | 1 => match s.taskAt c with
    | some t => if t.tcb.gang = 0 then none
                else some (((t.cluBars.toList.getD (clusterIx t c) (Vector.replicate 16 Barrier.reset)).toList).getD b Barrier.reset)
    | none => none
  | _ => match s.taskAt c with
    | some t => if t.tcb.gang.toNat < 2 then none else some (t.stkBars.toList.getD b Barrier.reset)
    | none => none

def setAt (v : Vector α n) (i : Nat) (f : α → α) : Vector α n := if h : i < n then v.set i (f (v.get ⟨i, h⟩)) else v

def State.updBarrier (s : State) (c : Fin 208) (scope b : Nat) (f : Barrier → Barrier) : State :=
  match scope with
  | 0 => s.updTeam c (fun t => { t with bars := setAt t.bars b f })
  | _ => match s.taskAt c with
    | none => s
    | some t => s.updTask t.id (fun t =>
        if scope = 1 then { t with cluBars := setAt t.cluBars (clusterIx t c) (fun v => setAt v b f) }
        else { t with stkBars := setAt t.stkBars b f })

/-! ## Register writes with their side effects (R9, R14, R19) -/

def unnamed (m : MapBits) (k r : Nat) : MapBits := if mapNames m k r then 0 else m

/-- Data written to register r of context k: the pin bit clears and every map that names it becomes NONE, in the
context's registers and in the tiles (R19). -/
def Team.dataWritten (t : Team) (k : Fin 4) (r : Nat) : Team :=
  if ((t.ctxs.get k).pins.getLsbD r) then
    let t := t.updCtx k (fun c => { c with pins := c.pins &&& ~~~(BitVec.ofNat 56 (2 ^ r)), maps := c.maps.map (fun m => unnamed m k.val r) })
    { t with tileMaps := t.tileMaps.map (fun m => unnamed m k.val r) }
  else t

/-- The carriers of an installed map are pinned (R19). -/
def Team.pinCarriers (t : Team) (m : MapBits) : Team :=
  (mapCars m).foldl (fun t k =>
    if h : mapCctx m k < 4 then
      t.updCtx ⟨mapCctx m k, h⟩ (fun c => { c with pins := c.pins ||| BitVec.ofNat 56 (2 ^ mapCreg m k) })
    else t) t

/-- Write a vector register: data under a mask, then the map. A data write whose mask selects no element counts as a data
write to a pinned register too (R19; DESIGN CHOICE, log 185). -/
def Team.setV (t : Team) (k : Fin 4) (r : Nat) (x mask : VecBits) (map : Option MapBits) (data : Bool) : Team :=
  let t := if data then
      (t.dataWritten k r).updCtx k (fun c => { c with v := setAt c.v r (fun old => merge old x mask) })
    else t
  match map with
  | some m => (t.updCtx k (fun c => { c with maps := setAt c.maps r (fun _ => m) })).pinCarriers m
  | none => t

def Ctx.setS (c : Ctx) (r : Reg6) (x : Word) : Ctx := if r = 0 then c else { c with s := c.s.set r.toNat x r.isLt }

def Ctx.setA (c : Ctx) (r : BitVec 4) (x : Word) : Ctx := { c with a := c.a.set r.toNat x r.isLt }

def Ctx.setP (c : Ctx) (r : BitVec 4) (x mask : PredBits) : Ctx :=
  if r = 0 then c else { c with p := setAt c.p r.toNat (fun old => merge old x mask) }

/-- One row of 128 FP32 values of the accumulator (R21): row r of tile t is row 128t + r. -/
def accRowOf (t : Team) (row : Nat) : VecBits := storeGet 0 t.acc row

def Team.setAccRow (t : Team) (row : Nat) (x mask : VecBits) : Team :=
  { t with acc := storePutD 0 t.acc row (merge (accRowOf t row) x mask) }

/-! ## Work in flight -/

/-- Is the act a register result, which a restored frame delivers (R349, R350)? -/
def Act.isResult : Act → Bool
  | .setS _ _ => true
  | .setA _ _ => true
  | .setP _ _ _ => true
  | .setV _ _ _ _ _ _ => true
  | _ => false

/-- Acts that read in their cycle, before any write of it (R161). -/
def Act.isRead : Act → Bool
  | .reads _ => true
  | .loadS _ _ _ => true
  | .loadPattern _ _ _ => true
  | .mx _ => true
  | _ => false

/-- Read-modify-writes of the scratchpad, before plain writes (R161). -/
def Act.isRmw : Act → Bool
  | .amo _ _ _ _ _ _ => true
  | .season _ _ _ _ _ => true
  | _ => false

/-- Does the act write the scratchpad from the core side? -/
def Act.writesSpad : Act → Bool
  | .store _ => true
  | a => a.isRmw

/-- Order of issue: bundle, then unit code (R10, R161). -/
def Pend.before (p q : Pend) : Bool :=
  p.seq < q.seq || (p.seq == q.seq && p.unit.code.toNat ≤ q.unit.code.toNat)

/-- Work in flight is kept in order of issue. -/
def insertPend : List Pend → Pend → List Pend
  | [], p => [p]
  | q :: r, p => if q.before p then q :: insertPend r p else p :: q :: r

def Team.push (t : Team) (p : Pend) : Team := { t with pend := insertPend t.pend p }

/-! ## Slots (R26, R40, R75, R343) -/

/-- The core and context of the bundle in progress. -/
def State.icore (s : State) : Core := s.coreAt s.issue.core
def State.ictx (s : State) : Ctx := s.ctxAt s.issue.core s.issue.ctx

/-- TOKEN_BUSY: a slot would write a register whose token is pending (R26). -/
def tokenFaults (c : Ctx) (r : Refs) : List (Cause × Word) :=
  ((r.dstS ++ r.tok.toList).filter (fun x => c.tokPend.getLsbD x.toNat)).map (fun x => (.tokenBusy, x.zeroExtend 64))

/-- Which registers an act still has to write: data and, apart, maps. A result for s0 or p0 is discarded and comes too late for
no read (R9, R14). -/
def Act.writes (a : Act) (r : Refs) (data maps : List Nat) (g : List Nat) : Bool :=
  match a with
  | .setS x _ => x != 0 && r.srcS.contains x
  | .amo _ _ _ _ _ x => x != 0 && r.srcS.contains x
  | .arrive _ _ x => x != 0 && r.srcS.contains x
  | .loadS _ _ x => x != 0 && r.srcS.contains x
  | .setA x _ => r.srcA.contains x.toNat
  | .setP x _ _ => x != 0 && (r.srcP ++ g).contains x.toNat
  | .setV x _ _ m d _ => (d && data.contains x) || (m.isSome && maps.contains x)
  | .reads j => data.contains j.dst || (j.map.isSome && maps.contains j.dst)
  | _ => false

/-- Do the bytes an act will write overlap a read `(cycles after issue, address, bytes)`, at or after the read? The second
half of an SW64 `ST.SW` is written one cycle later. -/
def Pend.hits (p : Pend) (now : Nat) (rd : Nat × Nat × Nat) : Bool :=
  let meets (wide : Bool) (w : Nat × BitVec 32) : Bool := w.1 < rd.2.1 + rd.2.2 && rd.2.1 < w.1 + (if wide then 8 else 4)
  match p.act with
  | .store bs => now + rd.1 ≤ p.due && bs.any (fun b => rd.2.1 ≤ b.1 && b.1 < rd.2.1 + rd.2.2)
  | .season wide _ ws later _ =>
    (now + rd.1 ≤ p.due && ws.any (meets wide)) || (now + rd.1 ≤ p.due + 1 && later.any (meets wide))
  | _ => false

/-- STALL_SHORT (R75): the first result or store in flight that the slot reads too early. -/
def stallFaults (now seq : Nat) (k : Fin 4) (c : Ctx) (t : Team) (r : Refs) (g : List Nat) (res : SlotRes) :
    List (Cause × Word) :=
  if !c.chken then []
  else
    let data := res.data.getD r.srcV
    match (t.pend ++ t.replay).find? (fun p => p.ctx == k && p.seq != seq
        && ((now < p.due && p.act.writes r data res.maps g) || res.reads.any (p.hits now))) with
    | some p => [(.stallShort, p.baddr.zeroExtend 64)]
    | none => []

/-- The fault of a slot: of several causes the lower code (R343), and of several SPAD_RANGE the lowest address (R162). -/
def worst : List (Cause × Word) → Option (Cause × Word)
  | [] => none
  | x :: r => match worst r with
    | some y =>
      if y.1.code.toNat < x.1.code.toNat || (x.1 == .spadRange && y.1 == .spadRange && y.2.toNat < x.2.toNat) then some y
      else some x
    | none => some x

/-! ## Acts and effects -/

/-- Bank action of `AMO` (R177): the new value of an element. -/
def amoNew (op : BitVec 3) (ty : BitVec 4) (old x y : Nat) : Nat × Exc :=
  let w := sWidth ty
  if op = 3 then (x, excNone)
  else if op = 4 then (if old = x then y else old, excNone)
  else if ty = 7 then
    let a := fp32.decode old
    let b := fp32.decode x
    if op = 0 then
      let (v, e) := fAdd a b
      let (p, e') := fp32.deliver .rne v
      (p, e.or e')
    else
      let (v, e) := fMinMax (op == 2) a b
      (fp32.exact v, e)
  else
    let sg := ty == 0 || tySigned ty
    let a := intOf w sg old
    let b := intOf w sg x
    if op = 0 then ((old + x) % 2 ^ w, excNone)
    else (if op = 1 then (if a ≤ b then old else x) else (if b ≤ a then old else x), excNone)

/-- A value read at the width of a type, extended to 64 bits: a float is zero-extended (R165, R177). -/
def extLoad (ty : BitVec 4) (x : Nat) : Word :=
  if tyInt ty || ty = 0 then sExt ty x else BitVec.ofNat 64 x

/-- An engine command at issue, with no operands yet. -/
def Cmd.new (i : Instr) (q : Nat) (tok : Reg6) : Cmd :=
  { id := 0, ctx := 0, by_ := 0, baddr := 0, instr := i, q := q, tok := tok, aReg := 0, aOff := 0, b := 0, b1 := 0, c := 0, c1 := 0
    issued := 0, readyAt := 0, storesBy := 0, after := [], ranges := [], state := .queued, err := 0, value := 0
    moved := 0, g := 0, pin := none, targets := [], blob := [], aux := 0, got := [], seqs := [], kept := [], exc := ExcCount.zero, doneAt := 0 }

/-- The op word of an instruction. -/
def rawWord (i : Instr) : Word := ((encode i).getD []).headD 0

end Sys2Proof.Machine
end

