-- ==== Sys2Proof/Machine/Season.lean ====
section
/-! DEFINITION. The arithmetic of seasoned words (R234 to R236): the decay factor, the decayed value, the merge-add and
the merge. The power of two of R235 is computed to 120 bits, which rounds to FP32 as the exact power does. -/

namespace Sys2Proof.Machine

/-- The natural logarithm of 2 times 2^160. -/
def ln2Fixed : Nat := 1013035739299659071135698605846798551586536899366

/-- Terms i, i + 1, … of the exponential series of `y / 2^160`, each times 2^160. -/
def expTerms (y : Nat) : Nat → Nat → Nat → Nat
  | 0, _, _ => 0
  | n + 1, i, t => t + expTerms y n (i + 1) ((t * y / (i + 1)) >>> 160)

/-- `2^(f / 2^60)` times 2^160 for f below 2^60. -/
def pow2Frac (f : Nat) : Nat := expTerms ((f * ln2Fixed) >>> 60) 50 0 (2 ^ 160)

/-- 2^t for an FP32 value t, as a value that rounds to FP32 as the exact power does (R235). -/
def pow2Val (t : FVal) : FVal :=
  match t with
  | .nan _ _ _ => t.quiet
  | .inf n => if n then .fin false 0 0 else .inf false
  | .fin n m e =>
    if m = 0 then .fin false 1 0
    else
      let top := e + Nat.log2 m
      if top < -26 then .fin false 1 0
      else if 8 ≤ top then (if n then .fin false 0 0 else .fin false 1 300)
      else
        let x : Int := (roundInt m (e + 60) .rtz).1
        let x := if n then -x else x
        let k := x / (2 ^ 60 : Nat)
        let f := (x % (2 ^ 60 : Nat)).toNat
        if f = 0 then .fin false 1 k
        else .fin false (2 * (pow2Frac f >>> 40) + 1) (k - 121)

/-- factor(n, l) of R235, as an FP32 pattern. -/
def swFactor (n l : Nat) : Nat :=
  let (t, _) := fMul (valOfInt n 0) (fp32.decode l)
  fp32.exact (pow2Val (fp32.decode (fp32.exact t)))

/-- scaled(v, n, l) of R235, on FP32 patterns. -/
def swScaled (v n l : Nat) : Nat :=
  let x := fp32.decode v
  if n = 0 || x.isZero then v
  else if x.isNan then fp32.exact x.quiet
  else
    let f := swFactor n l
    if f = 0 then 0 else fp32.exact (fMul x (fp32.decode f)).1

/-! Fields of a seasoned word (R234); `wide` says SW64. -/

def swWidth (wide : Bool) : Nat := if wide then 8 else 4
def swStampBits (wide : Bool) : Nat := if wide then 24 else 16
def swStamp (wide : Bool) (w : Nat) : Nat := if wide then w >>> 8 % 2 ^ 24 else w % 2 ^ 16

/-- VALUE widened exactly to FP32. -/
def swValue (wide : Bool) (w : Nat) : Nat := if wide then w >>> 32 else w >>> 16 <<< 16

/-- The factor of a word: FT[0] for SW32, FT[FIDX] for SW64. -/
def swLambda (ft : Vector (BitVec 32) 16) (wide : Bool) (w : Nat) : Nat :=
  (ft.toList.getD (if wide then w >>> 4 % 16 else 0) 0).toNat

/-- Steps from a stamp to g, modulo the stamp width. -/
def swElapsed (wide : Bool) (g stamp : Nat) : Nat := (g + 2 ^ swStampBits wide - stamp) % 2 ^ swStampBits wide

/-- decay(word, g) of R235. -/
def swDecay (ft : Vector (BitVec 32) 16) (wide : Bool) (w g : Nat) : Nat :=
  swScaled (swValue wide w) (swElapsed wide (g % 2 ^ swStampBits wide) (swStamp wide w)) (swLambda ft wide w)

/-- A word with a new FP32 or BF16 pattern and stamp; FIDX and SOFT are kept. -/
def swMake (wide : Bool) (old val stamp : Nat) : Nat :=
  let st := stamp % 2 ^ swStampBits wide
  if wide then val <<< 32 + st <<< 8 + old % 256 else val <<< 16 + st

def swFmt (wide : Bool) : FloatFmt := if wide then fp32 else bf16

/-- mergeadd(word, x, g) of R236, with the exceptions of its addition. -/
def swMergeAdd (ft : Vector (BitVec 32) 16) (wide : Bool) (w x g : Nat) : Nat × Exc :=
  let (v, e) := fAdd (fp32.decode (swDecay ft wide w g)) (fp32.decode x)
  let (p, e') := (swFmt wide).deliver .rne v
  (swMake wide w p g, e.or e')

/-- The word as a sweep or `SWCPY.dec` rewrites it: decayed to g and stamped g (R237, R238). -/
def swRewrite (ft : Vector (BitVec 32) 16) (wide : Bool) (w g : Nat) : Nat :=
  swMake wide w ((swFmt wide).exact (fp32.decode (swDecay ft wide w g))) g

/-- merge(a into b, g) of R236. -/
def swMerge (ft : Vector (BitVec 32) 16) (wide : Bool) (a b g : Nat) : Nat × Exc :=
  let g := g % 2 ^ swStampBits wide
  let na := swElapsed wide g (swStamp wide a)
  let nb := swElapsed wide g (swStamp wide b)
  let (s, m) := if na < nb then (swStamp wide a, na) else (swStamp wide b, nb)
  let x := swScaled (swValue wide a) (na - m) (swLambda ft wide a)
  let y := swScaled (swValue wide b) (nb - m) (swLambda ft wide b)
  let (v, e) := fAdd (fp32.decode x) (fp32.decode y)
  let (p, e') := (swFmt wide).deliver .rne v
  (swMake wide b p s, e.or e')

end Sys2Proof.Machine
end

