-- ==== Sys2Proof/Machine/Landing.lean ====
section
/-! DEFINITION. What lands in a cycle: bank actions in the order of R161, results in the order of R10, gathers
(R168), the work of the matrix unit (R182 to R187), and deferred barrier arrivals (R250). -/

namespace Sys2Proof.Machine

def allCores : List (Fin 208) := (List.range 208).map (fun i => ⟨i % 208, Nat.mod_lt _ (by decide)⟩)

/-! ## The scratchpad (R24) -/

def State.spadBytes (s : State) (c : Fin 208) (a n : Nat) : List Byte := memRead (s.coreAt c).team.spad a n

/-- Bytes written to a core's scratchpad; the bytes they replace are kept for descriptor reads of this cycle. -/
def Team.spadPut (t : Team) (cells : List Host.Cell) : Team :=
  { t with spad := memScatter t.spad cells, undo := cells.map (fun x => (x.1, memGet t.spad x.1)) ++ t.undo }

/-- Bytes as they stood before this cycle's writes (R164). -/
def Team.spadBefore (t : Team) (a n : Nat) : List Byte :=
  (List.range n).map (fun i => match t.undo.reverse.find? (fun x => x.1 == a + i) with
    | some x => x.2
    | none => memGet t.spad (a + i))

/-- A scratchpad of `size` bytes as matrix work reads it: a byte past its end, which a repetition may reach when its address
registers were changed after the check at issue, is free (log 23). -/
structure OperandMem where
  mem : Memory
  size : Nat
  base : Nat
  deriving DecidableEq, Repr

/-- The scratchpad of a core as an operand memory; the free bytes of a cycle are numbered apart from all others. -/
def State.operandMem (s : State) (c : Fin 208) : OperandMem :=
  { mem := (s.coreAt c).team.spad, size := spadSize c (s.coreAt c).team, base := (208 * s.cycle + c.val) * 2 ^ 40 }

/-- The 32 bytes at an address. -/
def OperandMem.unit (m : OperandMem) (a : Nat) : BitVec 256 :=
  if a + 32 ≤ m.size then BitVec.ofNat 256 (natOf (memRead m.mem a 32))
  else BitVec.ofNat 256 (natOf ((List.range 32).map (fun i => Config.freeByte (2 * (m.base + a + i) + 1))))

/-- `n` units of 32 bytes from an address. -/
def unitsAt (m : OperandMem) (a n : Nat) : List (BitVec 256) := (List.range n).map (fun i => m.unit (a + 32 * i))

/-! ## Gathers and two-cycle loads (R168, R171) -/

/-- One element of a gather: its pattern in the result. -/
def gatherElem (ft : Vector (BitVec 32) 16) (m : Memory) (width : Nat) (season : Option (Bool × BitVec 32)) (a : Nat) : Nat :=
  let x := memNat m a width
  match season with
  | some (wide, g) => swDecay ft wide x g.toNat
  | none => x

/-- The group of reads a job makes in this cycle: the job afterwards. -/
def ReadJob.run (j : ReadJob) (ft : Vector (BitVec 32) 16) (m : Memory) : ReadJob :=
  match j.groups with
  | [] => j
  | g :: r =>
    let w := match j.season with | some _ => 32 | none => 8 * j.width
    let put (acc : VecBits) (p : Nat × Nat) : VecBits :=
      acc ||| BitVec.ofNat 4096 (gatherElem ft m j.width j.season p.2 <<< (w * p.1))
    { j with groups := r, got := g.foldl put j.got }

/-- Code k of the result is code k div 16 of row k mod 16 (R169). -/
def transposeCodes (x : VecBits) : VecBits :=
  BitVec.ofNat 4096 (packBits 4 ((List.range 1024).map (fun k => elem x (k % 16 * 64 + k / 16) 4)))

/-! ## Matrix work (R181 to R187) -/

/-- Cycles in which a dense operand is read. -/
def denseReads : Nat := 16

/-- The operands of a product as exact rows and columns, and its tree depth. -/
def MxJob.operands (j : MxJob) : List (List FVal) × List (List FVal) × Nat :=
  if j.kind = .tagged then
    ((chunked j.na 128 (blocksOf j.aGot)).map (chunkVals j.na), (chunked j.nb 128 (blocksOf j.bGot)).map (chunkVals j.nb), 7)
  else
    let b := packBits 256 (j.bGot.map (·.toNat))
    (j.aGot.map (denseRow j.tya j.qta), (List.range 128).map (denseCol j.tyb j.qtb b), mxDepth j.tya)

/-- Add a product to the tile: the accumulator afterwards and the counts of exceptions. -/
def MxJob.multiply (j : MxJob) (acc : Store VecBits) : Store VecBits × ExcCount :=
  let (rows, cols, depth) := j.operands
  let base := 128 * j.tile.toNat
  let olds := (List.range 128).map (fun r => if j.fresh then 0 else storeGet 0 acc (base + r))
  let (news, xs) := mmaRows depth olds rows cols
  ((news.zip (List.range 128)).foldl (fun m p => storePutD 0 m (base + p.2) p.1) acc, countExc xs)

/-- Reserved block formats met by `MMA.T`: one BLK_FMT record each, with the block's scratchpad offset (R117). -/
def MxJob.badBlocks (j : MxJob) : List Nat :=
  let bad (base : Nat) (l : List (BitVec 256)) : List Nat :=
    (((blocksOf l).zip (List.range 512)).filter (fun p => 5 < p.1 % 256)).map (fun p => base + 64 * p.2)
  if j.kind = .tagged then bad j.aAt j.aGot ++ bad j.bAt j.bGot else []

/-- Occupancy of `MMA.T` (R119, R183). -/
def MxJob.occupancy (j : MxJob) : Nat :=
  ((blocksOf j.aGot ++ blocksOf j.bGot).map blockCycles).foldl max (32 * max j.na j.nb)

/-- The work is over: accumulate, append records, and clear the tile's busy bit after the last repetition (R22). -/
def State.mxFinish (s : State) (c : Fin 208) (p : Pend) (j : MxJob) : State :=
  let s := match j.kind with
    | .zero => s
    | .load => s
    | .sparse => s
    | _ =>
      let (acc, x) := j.multiply (s.coreAt c).team.acc
      let s := j.badBlocks.foldl (fun s a => s.record c Cause.blkFmt.code 0 p.baddr (BitVec.ofNat 64 a) []) s
      s.updTeam c (fun t => { t with acc := acc, mxExc := t.mxExc.add x, mxBlk := t.mxBlk || j.badBlocks != [] })
  if j.lastRep then
    let s := match j.kind with
      | .zero => s
      | .load => s
      | _ =>
        (s.recordExc c p.baddr 9 (s.coreAt c).team.mxExc (s.coreAt c).team.mxBlk).updTeam c
          (fun t => { t with mxExc := ExcCount.zero, mxBlk := false })
    s.updTeam c (fun t => { t with tileBusy := t.tileBusy &&& ~~~(BitVec.ofNat 16 (2 ^ j.tile.toNat)) })
  else s

/-- Read the units of cycle `k` (from 1) of an operand that is read at eight units a cycle. -/
def operandUnits (m : OperandMem) (at_ k last : Nat) : List (BitVec 256) :=
  if 1 ≤ k && k ≤ last then unitsAt m (at_ + 256 * (k - 1)) 8 else []

/-- An entry of an `MMA.BS` table: its word, and whether it is taken (R184). -/
def bsEntryOk (size : Nat) (a b : Nat) (w : Nat) : Bool :=
  w < 2 ^ 48 && a % 32 == 0 && b % 32 == 0 && a + 4096 ≤ size && b + 4096 ≤ size

/-- The matrix unit is held until a cycle, in which the next repetition issues (R81, R187). -/
def Team.mxUntil (t : Team) (j : MxJob) (until_ : Nat) : Team :=
  { t with mxFree := until_
           ctxs := if j.lastRep then t.ctxs else t.ctxs.map (fun x => { x with rep := x.rep.map (fun r => { r with next := until_ }) }) }

/-- A block-sparse walk in cycle `k` after its issue: the header, an entry word, the operands of the running entry, or
its accumulation (R184). Bits [63:13] of the header are not looked at (DESIGN CHOICE, log 201). -/
def State.sparseStep (s : State) (c : Fin 208) (p : Pend) (j : MxJob) (k : Nat) : State × MxJob :=
  let t := (s.coreAt c).team
  let pad := s.operandMem c
  let skip (s : State) (a : Nat) : State := s.record c Cause.bsSkip.code 0 p.baddr (BitVec.ofNat 64 a) []
  if k = 1 then
    let n := (pad.unit j.xAt).toNat % 2 ^ 13
    let m := min n 4096
    let j := { j with entries := m, fin := j.start + (if m = 0 then 4 else 8 + 16 * m) }
    let s := s.updTeam c (fun t => t.mxUntil j (j.start + 4 + 16 * m))
    (if 4096 < n then skip s j.xAt else s, j)
  else
    let e := (k - 3) / 16
    let (s, j) :=
      if k % 16 = 3 && e < j.entries then
        let at_ := j.xAt + 8 + 8 * e
        let w := if at_ + 8 ≤ spadSize c t then memNat t.spad at_ 8 else 2 ^ 63
        let a := (j.aAt + w % 2 ^ 24) % 2 ^ 24
        let b := (j.bAt + w / 2 ^ 24 % 2 ^ 24) % 2 ^ 24
        if bsEntryOk (spadSize c t) a b w then (s, { j with rows := [a, b] }) else (skip s at_, { j with rows := [] })
      else (s, j)
    let r := k - 4
    let i := r % 16
    let j := if 1 ≤ r && i = 1 then { j with off := (j.rows ++ [0, 0]).headD 0, na := (j.rows ++ [0, 0]).getD 1 0, entryOk := j.rows != [], aGot := [], bGot := [] } else j
    if r = 0 || j.entries * 16 < r || !j.entryOk then (s, j)
    else
      let q := if i = 0 then 16 else i
      let j := { j with aGot := j.aGot ++ operandUnits pad j.off q 16, bGot := j.bGot ++ operandUnits pad j.na q 16 }
      if i = 0 then
        let (acc, x) := { j with kind := .dense }.multiply t.acc
        (s.updTeam c (fun t => { t with acc := acc, mxExc := t.mxExc.add x }), j)
      else (s, j)

/-- Matrix work in this cycle; what remains is put back in flight. -/
def State.mxRun (s : State) (c : Fin 208) (p : Pend) (j : MxJob) : State :=
  let k := s.cycle - j.start
  let again (s : State) (j : MxJob) (due : Nat) : State := s.updTeam c (fun t => t.push { p with due := due, act := .mx j })
  let ma := s.operandMem j.aCore
  let mb := s.operandMem j.bCore
  let extra := if j.gang then 4 else 0
  if j.fin ≤ s.cycle && 0 < j.fin then s.mxFinish c p j
  else match j.kind with
    | .zero =>
      let bank := 16 * j.tile.toNat + (k - 1)
      let s := s.updTeam c (fun t => { t with acc := (List.range 8).foldl (fun m r => storePut m (8 * bank + r) none) t.acc })
      if k = 16 then s.mxFinish c p j else again s j (s.cycle + 1)
    | .load =>
      let r := k - 2
      let s := match j.aGot with
        | [] => s
        | _ =>
          let row := if j.tya = 8 then
              BitVec.ofNat 4096 (packBits 32 ((List.range 128).map (fun i => packBits 256 (j.aGot.map (·.toNat)) >>> (16 * i) % 2 ^ 16 * 2 ^ 16)))
            else BitVec.ofNat 4096 (packBits 256 (j.aGot.map (·.toNat)))
          s.updTeam c (fun t => { t with acc := storePutD 0 t.acc (128 * j.tile.toNat + r) row })
      let size := if j.tya = 8 then 256 else 512
      let j := { j with aGot := if k ≤ 128 then unitsAt ma (j.aAt + size * (k - 1)) (size / 32) else [] }
      if k = 129 then s.mxFinish c p j else again s j (s.cycle + 1)
    | .sparse =>
      let (s, j) := s.sparseStep c p j k
      again s j (s.cycle + 1)
    | .gathered =>
      let rows := if k ≤ 8 then (j.rows.drop (16 * (k - 1))).take 16 else []
      let j := { j with aGot := j.aGot ++ (rows.map (fun a => unitsAt ma a 1)).flatten
                        bGot := j.bGot ++ operandUnits mb j.bAt (k - 8) 16 }
      again s j (if k < 24 then s.cycle + 1 else j.fin)
    | .dense =>
      let j := { j with aGot := j.aGot ++ operandUnits ma j.aAt k 16, bGot := j.bGot ++ operandUnits mb j.bAt k 16 }
      again s j (if k < 16 then s.cycle + 1 else j.fin)
    | .tagged =>
      let j := { j with aGot := j.aGot ++ operandUnits ma j.aAt k (32 * j.na), bGot := j.bGot ++ operandUnits mb j.bAt k (32 * j.nb) }
      if k < 32 * max j.na j.nb then again s j (s.cycle + 1)
      else
        let o := j.occupancy
        let j := { j with fin := j.start + o + 4 + extra }
        let s := s.updTeam c (fun t => t.mxUntil j (j.start + o))
        again s j j.fin

/-! ## One act (R10, R19, R161) -/

/-- Bytes of an element written by `AMO`. -/
def State.runAmo (s : State) (c : Fin 208) (p : Pend) (op : BitVec 3) (ty : BitVec 4) (a : Nat) (x y : Word) (dst : Reg6) : State :=
  let w := sWidth ty
  let t := (s.coreAt c).team
  let old := memNat t.spad a (w / 8)
  let (new, e) := amoNew op ty old (x.toNat % 2 ^ w) (y.toNat % 2 ^ w)
  let cells := (List.range (w / 8)).zip (bytesOf (w / 8) new) |>.map (fun q => (a + q.1, q.2))
  let s := s.updTeam c (fun t => (t.spadPut cells).push { p with due := s.cycle + 2, act := .setS dst (extLoad ty old) })
  s.recordExc c p.baddr p.unit.code (countExc [e]) false

/-- Merge-adds of `ST.SW` in this cycle; the second half of an SW64 store follows in the next (R176). -/
def State.runSeason (s : State) (c : Fin 208) (p : Pend) (wide : Bool) (g : BitVec 32) (ws later : List (Nat × BitVec 32))
    (seen : List Nat) : State :=
  let n := swWidth wide
  let go (acc : Team × List Exc) (w : Nat × BitVec 32) : Team × List Exc :=
    let old := memNat acc.1.spad w.1 n
    let (new, e) := swMergeAdd s.factors wide old w.2.toNat g.toNat
    (acc.1.spadPut (((List.range n).zip (bytesOf n new)).map (fun q => (w.1 + q.1, q.2))), acc.2 ++ [e])
  let (t, es) := ws.foldl go ((s.coreAt c).team, [])
  let x := countExc es
  let tot : ExcCount := { inv := x.inv + seen.getD 0 0, ovf := x.ovf + seen.getD 1 0, unf := x.unf + seen.getD 2 0, inx := x.inx + seen.getD 3 0 }
  let s := s.updTeam c (fun _ => { t with fresh := (ws.map (fun w => (List.range n).map (fun i => (w.1 + i, p.ctx, p.baddr)))).flatten ++ t.fresh })
  if later = [] then s.recordExc c p.baddr p.unit.code tot false
  else s.updTeam c (fun t => t.push { p with due := s.cycle + 1, act := .season wide g later [] [tot.inv, tot.ovf, tot.unf, tot.inx] })

/-- An arrival at a barrier: the generation before it goes to the destination (R85), one cycle after the arrival (DESIGN
CHOICE, log 153). -/
def State.runArrive (s : State) (c : Fin 208) (p : Pend) (scope b : Nat) (dst : Reg6) : State :=
  match s.barrier c scope b with
  | none => s
  | some x =>
    let s := s.updBarrier c scope b Barrier.arrive
    if dst = 0 then s
    else s.updTeam c (fun t => t.push { p with due := s.cycle + 1, act := .setS dst (x.gen.zeroExtend 64) })

/-- An act takes effect. -/
def State.runAct (s : State) (c : Fin 208) (p : Pend) : State :=
  match p.act with
  | .setS r x => s.updCtx c p.ctx (fun k => k.setS r x)
  | .setA r x => s.updCtx c p.ctx (fun k => k.setA r x)
  | .setP r x m => s.updCtx c p.ctx (fun k => k.setP r x m)
  | .setV r x m map data _ => s.updTeam c (fun t => t.setV p.ctx r x m map data)
  | .store bs => s.updTeam c (fun t => { t.spadPut bs with fresh := bs.map (fun b => (b.1, p.ctx, p.baddr)) ++ t.fresh })
  | .loadS ty a dst =>
    let x := memNat (s.coreAt c).team.spad a (sWidth ty / 8)
    s.updTeam c (fun t => t.push { p with due := s.cycle + 3, act := .setS dst (extLoad ty x) })
  | .loadPattern bank n a =>
    let e := BitVec.ofNat 1280 (memNat (s.coreAt c).team.spad a 160 % 2 ^ 1025)
    s.updTeam c (fun t => t.push { p with due := s.cycle + 6, act := .pattern bank n e })
  | .amo op ty a x y dst => s.runAmo c p op ty a x y dst
  | .season wide g ws later seen => s.runSeason c p wide g ws later seen
  | .reads j =>
    let j := j.run s.factors (s.coreAt c).team.spad
    s.updTeam c (fun t =>
      if j.groups = [] then t.push { p with due := j.land, act := .setV j.dst (if j.codes then transposeCodes j.got else j.got) j.mask j.map true j.own }
      else t.push { p with due := s.cycle + 1, act := .reads j })
  | .pattern bank n e =>
    s.updTeam c (fun t => if bank then { t with patB := storePutD 0 t.patB n e } else { t with patA := storePutD 0 t.patA n e })
  | .accRow row x m => s.updTeam c (fun t => t.setAccRow row x m)
  | .mx j => s.mxRun c p j
  | .arrive scope b dst => s.runArrive c p scope.toNat b dst

/-- May the act take effect now? The results of a team that is stopped for a save wait for its restore (R350). -/
def Team.ready (t : Team) (cycle : Nat) (p : Pend) : Bool := p.due ≤ cycle && !(t.stopAt.isSome && p.act.isResult)

/-- The acts of one phase that are due on a core. -/
def State.landCore (s : State) (phase : Act → Bool) (c : Fin 208) : State :=
  let t := (s.coreAt c).team
  let due := t.pend.filter (fun p => t.ready s.cycle p && phase p.act)
  if due = [] then s
  else
    let s := s.updTeam c (fun t => { t with pend := t.pend.filter (fun p => !(t.ready s.cycle p && phase p.act)) })
    due.foldl (fun s p => s.runAct c p) s

/-- Everything that is due in this cycle lands: reads, then read-modify-writes, then writes (R161). -/
def State.land (s : State) : State :=
  let cs := allCores.filter (fun c => (s.coreAt c).team.pend != [])
  let s := cs.foldl (fun s c => s.landCore Act.isRead c) s
  let s := cs.foldl (fun s c => s.landCore Act.isRmw c) s
  cs.foldl (fun s c => s.landCore (fun a => !a.isRead && !a.isRmw) c) s

end Sys2Proof.Machine
end

