-- ==== Sys2Proof/Machine/Commit.lean ====
section
/-! DEFINITION. A slot of a bundle and the commit of the bundle: every slot is checked against the state before the
bundle, then all of them take effect or none does (R6, R90, R343); where the PC goes (R39, R74, R77, R79 to R81); the
engine commands a bundle starts (R26, R83, R191, R193). -/

namespace Sys2Proof.Machine

/-! ## Effects at commit -/

/-- The map a slot installs, made NONE when the bundle overwrites a carrier it names: any data write of another slot, or
of its own but for its own carrier destination (R19). `written` are the bundle's data writes with their units. -/
def bundleMap (written : List (UnitCode × Nat)) (k : Nat) (u : UnitCode) (own : Option Nat) (m : MapBits) : MapBits :=
  if written.any (fun w => mapNames m k w.2 && !(w.1 == u && own == some w.2)) then 0 else m

/-- The vector registers whose data the effects write. -/
def dataWrites (es : List (UnitCode × Effect)) : List (UnitCode × Nat) :=
  es.filterMap (fun e => match e.2 with
    | .act _ (.setV r _ _ _ d _) => if d then some (e.1, r) else none
    | .act _ (.reads j) => some (e.1, j.dst)
    | _ => none)

/-- The act with its map checked against the bundle's data writes. -/
def bundleAct (written : List (UnitCode × Nat)) (k : Nat) (u : UnitCode) : Act → Act
  | .setV r x mask m d own => .setV r x mask (m.map (bundleMap written k u own)) d own
  | .reads j => .reads { j with map := j.map.map (bundleMap written k u j.own) }
  | a => a

/-- The last cycle in which a store already issued by the team writes its bank (R193). -/
def Team.storesDone (t : Team) (seq : Nat) : Nat :=
  ((t.pend.filter (fun p => p.act.writesSpad && p.seq != seq)).map (fun p =>
    match p.act with | .season _ _ _ later _ => if later = [] then p.due else p.due + 1 | _ => p.due)).foldl max 0

/-- The commands a fence makes a command of queue q wait for (R83). -/
def fencedBy (c : Ctx) (q : Nat) : List Nat :=
  ((c.fences.filter (fun f => f.1.getLsbD q)).map (·.2)).flatten

/-- An engine command enters its queue: the token becomes pending in the issue cycle (R26, R191). -/
def State.addCmd (s : State) (c : Fin 208) (k : Fin 4) (x : Cmd) : State :=
  let t := (s.coreAt c).team
  let id := s.nextId
  let (d, s) := s.takeDelay
  let x := { x with id := id, ctx := k, by_ := c, baddr := s.issue.baddr, issued := s.cycle, readyAt := s.cycle + 1 + d, storesBy := t.storesDone s.issue.seq
                    after := fencedBy (t.ctxs.get k) x.q }
  let s := { s with nextId := id + 1 }
  let s := s.updTeam c (fun t => { t with cmds := t.cmds ++ [x] })
  if x.tok = (0 : Reg6) then s
  else s.updCtx c k (fun y => { y with tokPend := y.tokPend ||| BitVec.ofNat 64 (2 ^ x.tok.toNat) })

/-- Pop the next word of a group's statistics queue; an empty queue yields 0 (R105). Lost records are reported once 32 words are
free (R380). -/
def State.popStat (s : State) (g : Fin 8) : Word × State :=
  match (s.groupAt g).statq with
  | [] => (0, s)
  | w :: r => (w, s.updGroup g (fun x => tellLost { x with statq := r } g.val s.cycle))

/-- The scheduler runs its procedure in this cycle, or after the turns of the cores that issue in it (R289, R403). -/
def State.kick (s : State) : State :=
  if s.agenda.any (fun e => e.instr == .schedPass) || s.future.any (fun f => f.2.instr == .schedPass) then s
  else if s.turn = 0 then s.now (event .schedPass .none)
  else s.later 1 (event .schedPass .none)

/-- `CMAP.SET`: the entry, and the hold it begins when one valid core replaces another (R104, R402). A reservation of an entry
that maps no core any more ends, and the scheduler looks at the cores again (R289, R303). -/
def State.setCmap (s : State) (g : Fin 8) (l : Nat) (x : Byte) : State :=
  let old := (s.groupAt g).cmap.toList.getD l 0
  let s := (s.updGroup g (fun y => { y with
    cmap := setAt y.cmap l (fun _ => x), holds := y.holds.filter (fun h => h.entry != l)
    reserve := y.reserve.filter (fun r => x.getLsbD 7 || !r.2.contains l) })).kick
  if old.getLsbD 7 && x.getLsbD 7 && old != x then
    let s := s.updGroup g (fun y => { y with holds := y.holds ++ [{ entry := l, old := old.toNat % 32, since := s.cycle }] })
    if h : l < 24 then s.later 64 (event .holdExpire (.hold { group := g, entry := ⟨l, h⟩, since := s.cycle })) else s
  else s

/-- A write of a control register that the slot's checks let pass (R28, R29, R93). -/
def Ctx.setCreg (c : Ctx) (n : Nat) (x : Word) : Ctx :=
  match n with
  | 0x00 => { c with te := x.getLsbD 0 }
  | 0x01 => { c with tcause := x.extractLsb' 0 7 }
  | 0x02 => { c with tpc := x.extractLsb' 0 56 &&& ~~~7 }
  | 0x03 => { c with tval := x }
  | 0x04 => { c with tmask := x.extractLsb' 0 11 }
  | 0x05 => { c with tvec := x.extractLsb' 0 56 &&& ~~~7 }
  | 0x09 => { c with waitlim := BitVec.ofNat 14 (max 1 (min 10000 x.toNat)) }
  | 0x0A => { c with chken := x.getLsbD 0 }
  | 0x0B => { c with mapsoft := x.getLsbD 0 }
  | _ => c

/-! ## Loop counters (R382) -/

/-- Element width by which a vector word's guard selects. -/
def guardWidth : Instr → Nat
  | .ldt w => if w.ty = 12 then 8 else tyWidth w.ty
  | .ldV w | .ldVB w | .ldVG w | .ldVQ w | .stV w | .stVS w | .stVC w => tyWidth w.ty
  | .ldSW _ | .stSW _ => 32
  | .vadd w | .vsub w | .vadds w | .vsubs w | .vmul w | .vmulh w | .vmad w | .vand w | .vor w | .vxor w | .vshl w
  | .vshr w | .vsra w | .vmin w | .vmax w | .vabs w | .vneg w | .vcmp w | .vsel w | .vmov w | .vbcastS w | .vbcastE w
  | .vfadd w | .vfsub w | .vfmul w | .vfma w | .vfmin w | .vfmax w | .vfabs w | .vfcmp w | .vcvt w | .vpack w
  | .vunpk w | .vredAdd w | .vredMax w | .vredMin w | .vscanAdd w | .vperm w | .vcompact w | .vexpand w | .vcoord w
  | .vnoise w | .vmaskcCausal w | .vmaskcBand w | .vmaskcWin w | .vmaskcLt w | .vmaskcGe w => tyWidth w.ty
  | .vnarrow w => if w.ty = 0 then 16 else tyWidth w.ty
  | .vexp2 w | .vexp w | .vlog2 w | .vln w | .vrcp w | .vrsq w | .vsqrt w | .vtanh w | .vsigm w | .verf w
  | .vsincos w => tyWidth w.ty
  | _ => 32

/-- Does the unit's word act through bit 0 of its guard (R40)? `PATLD`, the scalar loads and stores and `PATSWAP` do
(of `PATSWAP`, a V0–V2 word without elements: DEDUCED, log 190). -/
def scalarForm : Instr → Bool
  | .ldS _ | .stS _ | .amoAdd _ | .amoMin _ | .amoMax _ | .amoXchg _ | .amoCas _ | .patld _ | .patswap _ => true
  | i => match i.head with
    | some h => match h.unit with
      | .ld | .st | .v0 | .v1 | .v2 | .sf => false
      | _ => true
    | none => true

/-- Did the word's guard select an element or hold (R382)? -/
def guardSelects (c : Ctx) (i : Instr) : Bool :=
  match i.head with
  | none => false
  | some h => if scalarForm i then c.guardBit h else (activeElems (c.guard h) (guardWidth i)) != []

def satInc (n : Nat) : Nat := min (n + 1) (2 ^ 32 - 1)

/-- Count one issue of a word of a unit that has an effect. -/
def Profile.countUnit (p : Profile) (cycle : Nat) (u : UnitCode) : Profile :=
  { p with
    start := if p.issues = 0 then cycle else p.start
    issues := satInc p.issues
    fills := setAt p.fills u.code.toNat satInc }

/-- Count one issue of the words given. -/
def Profile.count (p : Profile) (cycle : Nat) (c : Ctx) (ws : List Instr) : Profile :=
  { p with
    start := if p.issues = 0 then cycle else p.start
    issues := satInc p.issues
    fills := ws.foldl (fun v i => match i.head with
      | some h => if guardSelects c i then setAt v h.unit.code.toNat satInc else v
      | none => v) p.fills }

/-- The LOOPPROF record of a loop or repeat that ends, when profiling is on (R379, R382). -/
def State.profRecord (s : State) (c : Fin 208) (k : Fin 4) (rep : Bool) (p : Profile) : State :=
  if (s.coreAt c).loopProf then
    let cyc := min (s.cycle - p.start + 1) (2 ^ 32 - 1)
    let f := p.fills.toList
    let extra := (List.range 6).map (fun i => BitVec.ofNat 64 (f.getD (2 * i) 0 + f.getD (2 * i + 1) 0 * 2 ^ 32))
    s.record c 0x60 (BitVec.ofNat 45 ((if rep then 1 else 0) + 2 * k.val)) p.addr (BitVec.ofNat 64 (p.issues + cyc * 2 ^ 32)) extra
  else s

/-! ## Counts (R50, R81) -/

/-- The count of a `LOOP` or `REP` word (R50). -/
def countOf (x : Ctx) (w : YCWord) : Nat := if w.csrc then (x.sReg w.a).toNat else w.cnt.toNat + 1

/-- How often a bundle issues its MX word (R81): a `REP` whose guard is false does nothing, and one whose count is too
high has failed. -/
def repCount (x : Ctx) (is : List Instr) : Nat :=
  (is.findSome? (fun i => match i with
    | .rep w => if x.guardBit w.hd then some (min (countOf x w) 4096) else none
    | _ => none)).getD 1

/-- An abort of a running scan, for a head of the scheduler or none: it completes within 2 µs, and before the scan would
(R103, R403). -/
def State.abortScan (s : State) (c : Fin 208) (head : Option Nat) : State :=
  let (d, s) := s.takeDelay
  let left := (s.coreAt c).scan.start + Config.scanCycles - 1 - s.cycle
  (s.updCore c (fun y => { y with scan := { y.scan with aborting := true, head := head } })).later
    (max 1 (min left (1 + min d (2 * Config.cyclesPerMicro - 1)))) (event .scanAbortComplete (.core c))

/-- One effect of a slot. `FENCE.q` comes before the commands of its own bundle, which wait behind it too (DESIGN CHOICE, log
152). -/
def State.effect (s : State) (written : List (UnitCode × Nat)) (u : UnitCode) (e : Effect) : State :=
  let c := s.issue.core
  let k := s.issue.ctx
  let pend (lat : Nat) (a : Act) : Pend :=
    { due := s.cycle + lat, seq := s.issue.seq, unit := u, ctx := k, baddr := s.issue.baddr, act := a }
  match e with
  | .act lat a =>
    let p := pend lat (bundleAct written k.val u a)
    if lat = 0 then s.runAct c p else s.updTeam c (fun t => t.push p)
  | .branch target => s.updCtx c k (fun x => { x with pc := target, earliest := s.cycle + 2 + s.issue.stall })
  | .loop n count => s.updCtx c k (fun x =>
      { x with loop := some { base := s.issue.next, n := n, left := count, pos := 0, first := true, skip := count == 0
                              held := [], suspended := false, prof := { Profile.reset with addr := s.issue.baddr } } })
  | .rep r =>
    if r.left = 0 then s.profRecord c k true r.prof else s.updCtx c k (fun x => { x with rep := some r })
  | .retire => s.updCtx c k (fun x => { x with retired := true })
  | .yieldStop mask => s.updCtx c k (fun x => { x with stopped := some (mask, s.issue.next) })
  | .swTrap _ => s
  | .tren => s.updCtx c k (fun x => { x with te := true })
  | .tret => s.updCtx c k (fun x => { x.trapReturn with earliest := s.cycle + 2 + s.issue.stall })
  | .creg n x => s.updCtx c k (fun y => y.setCreg n x)
  | .barInit scope b count => s.updBarrier c scope.toNat b (fun x => { x with count := count, arrivals := 0 })
  | .fence mask => s.updCtx c k (fun x => { x with fences := x.fences ++ [(mask,
      (((s.coreAt c).team.cmds.filter (fun y => y.ctx == k && y.q < 8 && mask.getLsbD y.q && y.issued < s.cycle)).map (·.id)))] })
  | .command x =>
    let s := s.addCmd c k x
    if x.q = 8 then s.now (event .engineStart (.cmd { core := c, id := s.nextId - 1 })) else s
  | .patswap => s.updTeam c (fun t => { t with patActive := !t.patActive })
  | .cmap l x => s.setCmap (groupOf c) l x
  | .sqpop r =>
    let (w, s) := s.popStat (groupOf c)
    s.updTeam c (fun t => t.push (pend 4 (.setS r w)))
  | .scanAbort p =>
    let x := physCore (groupOf c) p
    if (s.coreAt x).scan.running && !(s.coreAt x).scan.aborting then
      s.abortScan x none
    else s
  | .dbgResume p =>
    s.updCore (physCore (groupOf c) p) (fun y => y.resume s.cycle)
  | .popOffsets n => s.updTeam c (fun t => { t with opq := t.opq.drop n })
  | .badOffsets n => s.updTeam c (fun x => { x with cmds := x.cmds.map (fun y =>
      match y.instr with
      | .sidx _ => if y.state != .done && y.blob != [] then { y with aux := y.aux + n } else y
      | _ => y) })
  | .record kind aux tval => s.record c kind aux s.issue.baddr tval []
  | .pin r => s.updCtx c k (fun x => { x with pins := x.pins ||| BitVec.ofNat 56 (2 ^ r) })
  | .busy t => s.updTeam c (fun x => { x with tileBusy := x.tileBusy ||| BitVec.ofNat 16 (2 ^ t.toNat) })
  | .tileMap t m => s.updTeam c (fun x =>
      let m := bundleMap written k.val u none m
      { x with tileMaps := x.tileMaps.set t.toNat m t.isLt }.pinCarriers m)
  | .mxBusy n => s.updTeam c (fun t => { t with mxFree := n })
  | .gatherBusy n => s.updTeam c (fun t => { t with gatherFree := n })
  | .reserve l => s.updTeam c (fun t => { t with accRes := t.accRes ++ l })
  | .refresh => s.updGroup (groupOf c) (fun g => { g with watchdogAt := s.cycle })

/-! ## The commit (R343) -/

/-- Is it a word of the MX unit? -/
def usesMx (i : Instr) : Bool := (i.head.map (·.unit)) == some .mx

/-- The words of a bundle that issue: with a repeat count of 0 the MX word does not (R81). -/
def issuedWords (x : Ctx) (is : List Instr) : List Instr := if repCount x is = 0 then is.filter (fun i => !usesMx i) else is

/-- After a body bundle of an active loop: the next body bundle, the next pass, or the end (R79). -/
def State.loopNext (s : State) (c : Fin 208) (k : Fin 4) (l : LoopState) (before : Ctx) : State :=
  let l := { l with
    held := if l.held.length ≤ l.pos then l.held ++ [(s.issue.baddr, s.issue.words)] else l.held
    prof := l.prof.count s.cycle before (issuedWords before s.issue.all) }
  if l.pos + 1 < l.n then s.updCtx c k (fun x => { x with loop := some { l with pos := l.pos + 1 } })
  else if 1 < l.left then
    s.updCtx c k (fun x => { x with pc := l.base, loop := some { l with pos := 0, left := l.left - 1, first := false } })
  else (s.updCtx c k (fun x => { x with loop := none })).profRecord c k false l.prof

/-- The loop of the context, when the bundle at hand is one of its body. -/
def Ctx.activeLoop (c : Ctx) : Option LoopState := c.loop.filter (fun l => !l.suspended)

/-- The number of a software trap among the effects (R90). -/
def swTrapOf (es : List (UnitCode × Effect)) : Option Word :=
  es.findSome? (fun e => match e.2 with | .swTrap n => some n | _ => none)

/-- The row of an accumulator access as its bank (R21, R154, R155). -/
def accBank (x : Ctx) (w : RWord) : Nat :=
  16 * (w.fn.extractLsb' 0 4).toNat + ((w.fn.extractLsb' 4 7).toNat + (x.sReg w.b).toNat) % 128 / 8

/-- The accumulator accesses of a vector word that issues in a cycle, as (cycle, bank) (R154, R155). -/
def bankUse (x : Ctx) (cycle : Nat) : Instr → List (Nat × Nat)
  | .vacr w => [(cycle + 1, accBank x w)]
  | .vacw w => [(cycle + 3, accBank x w)]
  | .vacwAdd w => [(cycle + 1, accBank x w), (cycle + 3, accBank x w)]
  | _ => []

/-- The accesses of a bundle that commits are reserved; an element-wise word makes them whatever its guard (R71 step 5). -/
def Team.reserveBanks (t : Team) (x : Ctx) (cycle : Nat) (is : List Instr) : Team :=
  let uses := (is.map (bankUse x cycle)).flatten
  { t with accRes := if uses = [] then t.accRes else t.accRes.filter (fun b => cycle < b.1) ++ uses }

/-- Every slot takes effect: first the PC moves on, then the effects in unit order, then the loop; a `TRAP` traps after
the commit (R90). -/
def State.commit (s : State) : State :=
  let c := s.issue.core
  let k := s.issue.ctx
  let before := s.ictx
  let q := s.issue
  let written := dataWrites q.effects
  let s := s.updCtx c k (fun x => { x with
    pc := s.issue.next, earliest := s.cycle + 1 + s.issue.stall, blockedSince := none, blockedOn := [], preread := none, brkPass := false })
  let s := s.updCore c (fun x => { x with
    stallUntil := s.cycle + 1 + s.issue.stall, lastIssue := some (s.cycle, k, s.issue.baddr) })
  let s := s.updTeam c (fun t => t.reserveBanks before s.cycle q.all)
  let s := q.effects.foldl (fun s e => s.effect written e.1 e.2) s
  let s := match before.activeLoop with
    | some l => s.loopNext c k l before
    | none => s
  match swTrapOf q.effects with
  | some n =>
    let s := s.takeTrap c k .swTrap q.next n 1
    s.updCtx c k (fun x => { x with earliest := s.cycle + 2 + q.stall })
  | none => s

/-- The slot that decides TCAUSE and TVAL: the lowest unit code (R343). -/
def lowestFault : List SlotFault → Option SlotFault
  | [] => none
  | f :: r => match lowestFault r with
    | some g => if g.unit.code.toNat < f.unit.code.toNat then some g else some f
    | none => some f

/-- TMASK: the bit of every slot that failed (R343). -/
def faultMask (l : List SlotFault) : BitVec 11 :=
  l.foldl (fun m f => m ||| BitVec.ofNat 11 (2 ^ f.unit.code.toNat)) 0

/-- A body bundle that traps in the first pass counts as held (R80). -/
def State.holdBody (s : State) (c : Fin 208) (k : Fin 4) (a : BitVec 56) (ws : List Word) : State :=
  s.updCtx c k (fun x => { x with loop := x.loop.map (fun l =>
    if !l.suspended && l.held.length ≤ l.pos then { l with held := l.held ++ [(a, ws)] } else l) })

/-- The end of a bundle: all slots take effect, or one trap is taken and none does (R343). -/
def State.close (s : State) : State :=
  match lowestFault s.issue.faults with
  | none => s.commit
  | some f =>
    let c := s.issue.core
    let k := s.issue.ctx
    let s := s.holdBody c k s.issue.baddr s.issue.words
    let s := s.updCore c (fun x => { x with stallUntil := max x.stallUntil (s.cycle + 1), lastIssue := some (s.cycle, k, s.issue.baddr) })
    s.takeTrap c k f.cause s.issue.baddr f.tval (faultMask s.issue.faults)

/-- What a slot adds to the bundle in progress: its effects, or its fault; a scalar form whose guard is false adds
nothing (R40). -/
def State.addSlot (s : State) (i : Instr) (h : Head) (r : SlotRes) : Issue :=
  let c := s.ictx
  if scalarForm i && !c.guardBit h then s.issue
  else
    let fs := r.faults ++ tokenFaults c i.refs
      ++ stallFaults s.cycle s.issue.seq s.issue.ctx c (s.coreAt s.issue.core).team i.refs i.guardP r
    match worst fs with
    | some f => { s.issue with faults := s.issue.faults ++ [{ unit := h.unit, cause := f.1, tval := f.2 }] }
    | none => { s.issue with effects := s.issue.effects ++ r.effects.map (fun e => (h.unit, e)) }

/-- A slot executes: it joins the bundle in progress, and the last one ends the bundle. -/
def State.slot (s : State) (i : Instr) (h : Head) (r : SlotRes) : State :=
  let s := { s with issue := s.addSlot i h r }
  if s.issue.slots = [] then s.close else s

end Sys2Proof.Machine
end

