-- ==== Sys2Proof/Machine/Translate.lean ====
section
/-! DEFINITION. Physical and virtual memory: the stacks (R268), the five-level walk (R269 to R271), the TLBs (R272,
R274), byte access in an address space, and parked pages (R273). -/

namespace Sys2Proof.Machine

/-- Does the physical address exist (R268)? -/
def paOk (a : Nat) : Bool := a / Config.stackWindow < 8 && a % Config.stackWindow < Config.stackBytes

/-- The stack that owns a physical address (R268). -/
def stackOf (a : Nat) : Fin 8 := ⟨a / Config.stackWindow % 8, Nat.mod_lt _ (by decide)⟩

/-- Fields of a page table entry (R270). -/
def pteV (e : Nat) : Bool := e.testBit 0
def pteLeaf (e : Nat) : Bool := e.testBit 1
def pteW (e : Nat) : Bool := e.testBit 2
def pteX (e : Nat) : Bool := e.testBit 3
def pteTag (e : Nat) : Bool := e.testBit 4
def pteC (e : Nat) : Bool := e.testBit 5
def pteD (e : Nat) : Bool := e.testBit 8
def ptePfn (e : Nat) : Nat := e / 4096 % 2 ^ 40
def pteResv (e : Nat) : Bool := e / 2 ^ 52 % 16 != 0 || e / 2 ^ 9 % 8 != 0 || e.testBit 6

/-- A leaf a walk finds: the entries of the page, and what a TLB entry of it holds. -/
structure Leaf where
  ptes : List Nat
  entry : TlbEntry
  deriving DecidableEq, Repr

/-- The 64 KiB group that holds L0 entry `i` of a table: consistent or not (R270). -/
def groupOk (m : Memory) (table i e : Nat) : Bool :=
  let g := i / 16 * 16
  let base := ptePfn (memNat m (table + 8 * g) 8)
  base % 16 == 0 && (List.range 16).all (fun j =>
    let x := memNat m (table + 8 * (g + j)) 8
    pteV x && pteLeaf x && pteC x && !pteResv x && pteW x == pteW e && pteX x == pteX e && pteTag x == pteTag e
      && ptePfn x == base + j)

/-- The entries of the 64 KiB group of L0 entry `i`. -/
def groupPtes (table i : Nat) : List Nat := (List.range 16).map (fun j => table + 8 * (i / 16 * 16 + j))

/-- A walk from a table at a level, checks in the order of R271 up to PA_HOLE; an entry that lies on a poisoned word is an
uncorrectable error of the memory that the walk reads (R353; DEDUCED, log 207). D of a 64 KiB page is that of all its entries (R270). -/
def walkFrom (m : Memory) (poison : List Nat) (asid : BitVec 8) (va : Nat) (code : Bool) : Nat → Nat → Except Cause Leaf
  | level, table =>
    let shift := 12 + 9 * level
    let i := va / 2 ^ shift % (if level = 4 then 256 else 512)
    let at_ := table + 8 * i
    if !paOk at_ then .error .paHole
    else if poison.contains at_ then .error .hbmUe
    else
      let e := memNat m at_ 8
      let leaf (base size pa : Nat) (ptes : List Nat) : Except Cause Leaf :=
        if !paOk pa then .error .paHole
        else .ok { ptes := ptes, entry := { asid := asid, base := base, size := size, pa := pa, w := pteW e, x := pteX e, tag := pteTag e
                                            d := ptes.all (fun a => pteD (memNat m a 8)) } }
      if !pteV e then .error (if code then .fetchPage else .pageNp)
      else if pteResv e then .error .pteBad
      else if pteLeaf e then
        if 2 ≤ level then .error .pteBad
        else if level = 1 then
          if pteC e || ptePfn e % 512 ≠ 0 then .error .pteBad
          else leaf (va / 2 ^ 21 * 2 ^ 21) (2 ^ 21) (ptePfn e * 4096) [at_]
        else if pteC e then
          if (groupPtes table i).any poison.contains then .error .hbmUe
          else if !groupOk m table i e then .error .pteBad
          else leaf (va / 2 ^ 16 * 2 ^ 16) (2 ^ 16) (ptePfn e / 16 * 2 ^ 16) (groupPtes table i)
        else leaf (va / 2 ^ 12 * 2 ^ 12) (2 ^ 12) (ptePfn e * 4096) [at_]
      else if pteW e || pteX e || pteTag e || pteC e then .error .pteBad
      else match level with
        | 0 => .error .pteBad
        | l + 1 => walkFrom m poison asid va code l (ptePfn e * 4096)
  termination_by structural level => level

/-- The poisoned word that a walk meets first. -/
def walkPoison (m : Memory) (poison : List Nat) (va : Nat) : Nat → Nat → Nat
  | level, table =>
    let i := va / 2 ^ (12 + 9 * level) % (if level = 4 then 256 else 512)
    let at_ := table + 8 * i
    if poison.contains at_ then at_
    else match level with
      | 0 => ((groupPtes table i).find? poison.contains).getD at_
      | l + 1 => walkPoison m poison va l (ptePfn (memNat m at_ 8) * 4096)
  termination_by structural level => level

/-- The part of an address that leads to an entry of a level. -/
def walkTop (va level : Nat) : Nat := va / 2 ^ (12 + 9 * level)

/-- The sound non-leaf entries that a walk from a table at a level reads, the deepest first (R272). -/
def walkNodes (m : Memory) (poison : List Nat) (asid : BitVec 8) (va : Nat) : Nat → Nat → List WalkEntry → List WalkEntry
  | 0, _, l => l
  | n + 1, table, l =>
    let at_ := table + 8 * (walkTop va (n + 1) % (if n = 3 then 256 else 512))
    let e := memNat m at_ 8
    if !paOk at_ || poison.contains at_ || !pteV e || pteResv e || pteLeaf e || pteW e || pteX e || pteTag e || pteC e then l
    else walkNodes m poison asid va n (ptePfn e * 4096) ({ asid := asid, level := n + 1, top := walkTop va (n + 1), table := ptePfn e * 4096 } :: l)

/-- Is the cached entry on the way to an address? -/
def WalkEntry.leads (e : WalkEntry) (asid : BitVec 8) (va : Nat) : Bool := e.asid == asid && e.top == walkTop va e.level

/-- Where a walk of a stack group's walker begins: below the deepest cached entry on the way, else at the root; none for a
space without one (R269, R271, R272). -/
def State.walkStart (s : State) (g : Fin 8) (asid : BitVec 8) (va : Nat) : Option (Nat × Nat) :=
  (storeFind s.roots asid.toNat).map (fun r =>
    match [1, 2, 3, 4].findSome? (fun l => (s.walkers.get g).find? (fun e => e.level == l && e.leads asid va)) with
    | some e => (e.level - 1, e.table)
    | none => (4, r.toNat))

/-- The walk of an address space (R269, R271). -/
def State.walk (s : State) (g : Fin 8) (asid : BitVec 8) (va : Nat) (code : Bool) : Except Cause Leaf :=
  match s.walkStart g asid va with
  | none => .error .asidBad
  | some p => walkFrom s.mem s.poison asid va code p.1 p.2

def walkCacheEntries : Nat := 64

/-- The walker caches the non-leaf entries that a walk reads; with the cache full the oldest go (R272). -/
def State.cacheWalk (s : State) (g : Fin 8) (asid : BitVec 8) (va : Nat) : State :=
  match s.walkStart g asid va with
  | none => s
  | some p => { s with walkers := s.walkers.set g ((walkNodes s.mem s.poison asid va p.1 p.2 [] ++ s.walkers.get g).take walkCacheEntries) }

/-- Set bits of a byte of memory. -/
def memOr (m : Memory) (a : Nat) (x : Byte) : Memory := memPut m a (memGet m a ||| x)

/-- The walker sets A in every entry of the page (R270). -/
def State.setAccessed (s : State) (l : Leaf) : State := { s with mem := l.ptes.foldl (fun m a => memOr m a 0x80) s.mem }

/-- The walker sets D in every entry of the page (R270). -/
def State.setDirty (s : State) (l : Leaf) : State := { s with mem := l.ptes.foldl (fun m a => memOr m (a + 1) 1) s.mem }

/-- The cluster whose copy engine serves a core; a control core uses cluster 0 of its group (R272). -/
def State.clusterOf (s : State) (c : Fin 208) : Fin 48 :=
  let l := (s.logicalOf c).getD 0
  ⟨(6 * (groupOf c).val + l / 4) % 48, Nat.mod_lt _ (by decide)⟩

def TlbEntry.covers (e : TlbEntry) (asid : BitVec 8) (va : Nat) : Bool :=
  e.asid == asid && e.base ≤ va && va < e.base + e.size

def tlbEntries : Nat := 2048

/-- The walker that serves a cluster's copy engine. -/
def walkerOf (k : Fin 48) : Fin 8 := ⟨k.val / 6, by have := k.isLt; omega⟩

/-- A miss fills one entry; with the TLB full the oldest goes (R272). -/
def State.tlbFill (s : State) (k : Fin 48) (e : TlbEntry) : State :=
  { s with tlbs := s.tlbs.set k ((e :: s.tlbs.get k).take tlbEntries) }

/-- The entry that maps an address, from the TLB or by a walk. -/
def State.tlbEntry (s : State) (k : Fin 48) (asid : BitVec 8) (va : Nat) (code : Bool) : State × Except Cause TlbEntry :=
  match (s.tlbs.get k).find? (fun e => e.covers asid va) with
  | some e => (s, .ok e)
  | none =>
    let g := walkerOf k
    match s.walk g asid va code with
    | .error c => (s.cacheWalk g asid va, .error c)
    | .ok l => (((s.cacheWalk g asid va).setAccessed l).tlbFill k l.entry, .ok l.entry)

/-- How an access uses a page. -/
inductive Access
  | read
  | write
  | code
  deriving DecidableEq, Repr

/-- Translate one address (R271 step 5, R272): the physical address and the TAGGED attribute. -/
def State.translate (s : State) (k : Fin 48) (asid : BitVec 8) (va : Nat) (acc : Access) :
    State × Except Cause (Nat × Bool) :=
  match s.tlbEntry k asid va (acc == .code) with
  | (s, .error c) => (s, .error c)
  | (s, .ok e) =>
    let pa := e.pa + (va - e.base)
    match acc with
    | .code => if !e.x || e.tag then (s, .error .fetchNx) else (s, .ok (pa, e.tag))
    | .read => (s, .ok (pa, e.tag))
    | .write =>
      if !e.w then (s, .error .pageRo)
      else if e.d then (s, .ok (pa, e.tag))
      else
        let done (s : State) : State × Except Cause (Nat × Bool) :=
          ({ s with tlbs := s.tlbs.set k ((s.tlbs.get k).map (fun x => if x == e then { x with d := true } else x)) }, .ok (pa, e.tag))
        match s.walk (walkerOf k) asid va false with
        | .ok l => done (s.setDirty l)
        | .error .hbmUe => (s, .error .hbmUe)
        | .error _ => done s

/-- TVAL of a translation fault (R348): the ASID, the poisoned word that the walk met, or the virtual address. -/
def State.faultTval (s : State) (k : Fin 48) (asid : BitVec 8) (x : Cause) (va : Nat) : Nat :=
  match x with
  | .asidBad => asid.toNat
  | .hbmUe => match s.walkStart (walkerOf k) asid va with
    | some p => walkPoison s.mem s.poison va p.1 p.2
    | none => va
  | _ => va

/-- ERR of a translation fault that does not park (R196, R271, R353). -/
def faultErr (x : Cause) : BitVec 7 := match x with | .pageRo => 0x08 | .hbmUe => 0x05 | _ => 0x01

/-- An address range cut where pages of 4 KiB meet. -/
def pageParts : Nat → Nat → Nat → List (Nat × Nat)
  | 0, _, _ => []
  | fuel + 1, a, n =>
    if n = 0 then []
    else let k := min n (4096 - a % 4096)
         (a, k) :: pageParts fuel (a + k) (n - k)

/-- Translate every page of a range, in order: the physical pieces, or the first fault with its address. -/
def State.pieces (s : State) (k : Fin 48) (asid : BitVec 8) (acc : Access) :
    List (Nat × Nat) → State × Except (Cause × Nat) (List (Nat × Nat × Bool))
  | [] => (s, .ok [])
  | (a, n) :: r =>
    match s.translate k asid a acc with
    | (s, .error c) => (s, .error (c, a))
    | (s, .ok (pa, tag)) =>
      match s.pieces k asid acc r with
      | (s, .error e) => (s, .error e)
      | (s, .ok l) => (s, .ok ((pa, n, tag) :: l))

/-- Bytes of an address space. -/
def State.vread (s : State) (k : Fin 48) (asid : BitVec 8) (va n : Nat) : State × Except (Cause × Nat) (List Byte) :=
  match s.pieces k asid .read (pageParts (n / 4096 + 2) va n) with
  | (s, .error e) => (s, .error e)
  | (s, .ok l) => (s, .ok ((l.map (fun p => memRead s.mem p.1 p.2.1)).flatten))

/-- Where an address lies by the page tables as they stand, with no access made. -/
def State.lookup (s : State) (asid : BitVec 8) (va : Nat) : Option Nat :=
  match storeFind s.roots asid.toNat with
  | none => none
  | some r => match walkFrom s.mem [] asid va false 4 r.toNat with
    | .ok l => some (l.entry.pa + (va - l.entry.base))
    | .error _ => none

/-- The physical pieces of a range that is mapped now, page by page. -/
def State.piecesNow (s : State) (asid : BitVec 8) (va n : Nat) : List (Nat × Nat) :=
  (pageParts (n / 4096 + 2) va n).filterMap (fun p => (s.lookup asid p.1).map (fun pa => (pa, p.2)))

/-- A poisoned location is whole again once it is wholly written (R353). -/
def State.unpoison (s : State) (a n : Nat) : State :=
  if s.poison = [] then s else { s with poison := s.poison.filter (fun p => !(a ≤ p && p + 8 ≤ a + n)) }

/-- Bytes written at a physical address. -/
def State.pwrite (s : State) (a : Nat) (bs : List Byte) : State :=
  State.unpoison { s with mem := memWrite s.mem a bs } a bs.length

/-- Write the pieces of a range in order. -/
def State.writePieces (s : State) : List (Nat × Nat × Bool) → List Byte → State
  | [], _ => s
  | (pa, n, _) :: r, bs => (s.pwrite pa (bs.take n)).writePieces r (bs.drop n)

/-- Bytes written in an address space; nothing is written when a page of the range faults. -/
def State.vwrite (s : State) (k : Fin 48) (asid : BitVec 8) (va : Nat) (bs : List Byte) : State × Except (Cause × Nat) Unit :=
  match s.pieces k asid .write (pageParts (bs.length / 4096 + 2) va bs.length) with
  | (s, .error e) => (s, .error e)
  | (s, .ok l) => (s.writePieces l bs, .ok ())

/-- A little-endian word of an address space; faults read as none. -/
def State.vword (s : State) (k : Fin 48) (asid : BitVec 8) (va n : Nat) : State × Option Nat :=
  match s.vread k asid va n with
  | (s, .ok bs) => (s, some (natOf bs))
  | (s, .error _) => (s, none)

/-- Write and forget whether a page faulted (a record whose page is gone is lost). -/
def State.vput (s : State) (k : Fin 48) (asid : BitVec 8) (va : Nat) (bs : List Byte) : State := (s.vwrite k asid va bs).1

/-- Where firmware and the scheduler's own accesses translate (R272). -/
def firmwareCluster (g : Fin 8) : Fin 48 := ⟨6 * g.val, by have := g.isLt; omega⟩

/-- Park a request on a page: one posted fault record for each (ASID, page), forwarded to the host (R273, R365). -/
def State.park (s : State) (g : Fin 8) (asid : BitVec 8) (va : Nat) (cause : Cause) (line : Nat) (who : Parkee) (stream : Option (BitVec 3)) : State :=
  let page := va / 4096 * 4096
  match s.parked.find? (fun p => p.asid == asid && p.page == page) with
  | some _ => { s with parked := s.parked.map (fun p =>
      if p.asid == asid && p.page == page && !p.who.contains who then { p with who := p.who ++ [who] } else p) }
  | none =>
    let s := { s with parked := s.parked ++ ([{ group := g, asid := asid, page := page, cause := cause, line := line, who := [who] }] : List ParkedPage) }
    s.send (.message (stream.getD 0) 2 (BitVec.ofNat 64 page) (BitVec.ofNat 64 (asid.toNat + cause.code.toNat * 256)) 1)

end Sys2Proof.Machine
end

