-- ==== Sys2Proof/Machine/Fetch.lean ====
section
/-! DEFINITION. From the PC to a bundle in progress: the instruction buffer (R41, R275), decode (R71), the block
conditions (R22, R26, R82, R168, R185, R187, R191, R194, R227), the descriptor read (R164), the accumulator banks
(R71 step 5), and the choice of the context that issues (R293). -/

namespace Sys2Proof.Machine

/-! ## The instruction buffer (R41, R275) -/

def bufferLines : Nat := 1024

/-- The op word at a code address, if its line is in the buffer. -/
def ibufWord (c : Core) (a : Nat) : Option Word :=
  (c.ibuf.find? (fun l => l.1 == a / 64)).map (fun l => l.2.extractLsb' (a % 64 * 8) 64)

/-- Words of a bundle: up to the word with STOP, or the eighth; or the line that is missing. -/
inductive BundleRead
  | miss (line : Nat)
  | words (l : List Word)
  deriving DecidableEq, Repr

/-- The words of a bundle; one that runs past code address 2^56 goes on in line 0 (R242; DESIGN CHOICE, log 206). -/
def readWords (c : Core) : Nat → Nat → List Word → BundleRead
  | 0, _, acc => .words acc.reverse
  | n + 1, a, acc =>
    match ibufWord c a with
    | none => .miss (a / 64)
    | some w => if w.getLsbD 63 then .words (w :: acc).reverse else readWords c n ((a + 8) % 2 ^ 56) (w :: acc)

/-- The lines of a bundle become the most recently used (R275). -/
def touchLine (l : List (Nat × BitVec 512)) (n : Nat) : List (Nat × BitVec 512) :=
  match l.find? (fun x => x.1 == n) with
  | some x => if l.head?.map (·.1) == some n then l else x :: l.filter (fun y => y.1 != n)
  | none => l

def putLine (l : List (Nat × BitVec 512)) (n : Nat) (x : BitVec 512) : List (Nat × BitVec 512) :=
  ((n, x) :: l.filter (fun y => y.1 != n)).take bufferLines

/-! ## Block conditions (R343 stage 2) -/

/-- The SF and gather words of a bundle. -/
def usesSf (i : Instr) : Bool := (i.head.map (·.unit)) == some .sf
def usesEn (i : Instr) : Bool := (i.head.map (·.unit)) == some .en
def usesGather : Instr → Bool
  | .ldVG _ | .ldVQ _ | .stVS _ | .mmaG _ => true
  | _ => false

/-- The queue an instruction's command enters (R191): the vote of `STEP.C` goes through queue 5 (R94). -/
def queueOf : Instr → Option Nat
  | .cpy w | .cpym w | .cpyl w | .cpylTopk w | .cpyh w | .atomAdd w | .atomMin w | .atomMax w | .atomXchg w | .atomCas w
  | .atomk w | .collAR w | .collRS w | .collAG w | .collA2A w | .bkset w | .kick w | .sidx w | .rtabCommit w | .kvld w
  | .kvapp w | .kvremap w | .kvshare w | .kvprom w | .pfxfind w | .pfxins w | .attn w | .stnew w | .splice w | .stpin w
  | .stunpin w | .cpys w | .swcpyIn w | .swcpyOut w | .swcpyDec w | .swcpyMerge w | .sweep w => some w.q.toNat
  | .stepC _ => some 5
  | _ => none

/-- Commands that record no scratchpad range (R194). -/
def recordsRange : Instr → Bool
  | .kick _ | .rtabCommit _ | .kvprom _ | .pfxfind _ | .pfxins _ | .stpin _ | .stunpin _ | .stepC _ => false
  | .atomAdd w | .atomMin w | .atomMax w | .atomXchg w | .atomCas w => w.fn.getLsbD 7
  | i => usesEn i

/-- Does the command hold its queue entry? A bucket's entry is freed when it is armed, from when on `aux` is not 0 (R191,
R192). -/
def holdsEntry (c : Cmd) : Bool :=
  match c.instr with
  | .bkset _ => c.aux == 0
  | _ => true

def queueLen (c : Core) (q : Nat) : Nat := (c.team.cmds.filter (fun x => x.q == q && holdsEntry x)).length

/-- The first core of a logical cluster, and a core's place in it (R29). -/
def State.clusterBase (s : State) (c : Fin 208) : Nat := (s.logicalOf c).getD 0 / 4 * 4
def State.posOf (s : State) (c : Fin 208) : Nat := (s.logicalOf c).getD 0 % 4

/-- Does a `CPYM` mask name the issuing core? -/
def State.maskOwn (s : State) (c : Fin 208) (mask : Word) : Bool := mask.getLsbD (s.posOf c)

/-- Have the accesses of a command been performed that the agents of a scope can see? The metadata of an index command is read when
it waits for pops (R213), and the source and the handle of a `CPYH.out` when it waits for the host, whose memory is within no scope
(R82, R201, R247). -/
def Cmd.performed (x : Cmd) : Bool :=
  x.state == .done
    || (match x.instr with | .sidx _ => x.state == .waiting | .cpyh w => w.fn.getLsbD 0 && x.state == .waiting | _ => false)

/-- Is it a collective, or a bucket's? -/
def isColl : Instr → Bool
  | .collAR _ | .collRS _ | .collAG _ | .collA2A _ | .bkset _ => true
  | _ => false

/-- May a collective's descriptor still change before it is read: by a store issued before the command (R193), or by an earlier
command whose recorded range overlaps it (R194)? -/
def descOpen (t : Team) (cycle : Nat) (x : Cmd) : Bool :=
  decide (cycle < x.storesBy)
    || (t.cmds.takeWhile (fun y => y.id != x.id)).any (fun y =>
      y.state != .done && y.ranges.any (fun r => r.write && r.lo < x.aOff + 32 && x.aOff < r.hi))

/-- Does a collective's DST lie in the scratchpad, by its descriptor as read, or as it stands when nothing that comes before the
command can change it any more (R193, R248)? Until then it may. -/
def collInPad (t : Team) (cycle : Nat) (x : Cmd) : Bool :=
  let b := if x.blob != [] then x.blob else if x.kept != [] then x.kept.map (·.2) else memRead t.spad x.aOff 32
  (x.blob == [] && x.kept == [] && descOpen t cycle x) || (b.getD 21 0).getLsbD 1

/-- Is it a `DRAIN.core` that acts? -/
def drainsCore (x : Ctx) : Instr → Bool
  | .drain w => w.scope == 0 && x.guardBit w.hd
  | _ => false

/-- As a `DRAIN.core` passes, the collectives of its context that it need not wait for are settled: their descriptors are read, so that
no later store turns one into a writer of the scratchpad (R82, R193, R248). -/
def State.drainReads (s : State) (c : Fin 208) (k : Fin 4) (is : List Instr) : State :=
  if is.any (drainsCore (s.ctxAt c k)) then
    s.updTeam c (fun t => { t with cmds := t.cmds.map (fun x =>
      if x.ctx == k && isColl x.instr && x.blob == [] && x.kept == [] then
        { x with kept := (List.range 32).map (fun i => (x.aOff + i, memGet t.spad (x.aOff + i))) }
      else x) })
  else s


/-- Does a command write bytes of the scratchpad of its own core (R82)? A `CPYS` also writes VTAG, as it starts (R232). -/
def State.writesOwn (s : State) (c : Fin 208) (x : Cmd) : Bool :=
  match x.instr with
  | .cpy w | .cpyh w => w.fn.getLsbD 0 == false
  | .cpys w => w.fn.getLsbD 0 == false || x.blob == []
  | .cpym _ => s.maskOwn c x.b
  | .cpyl w | .cpylTopk w => w.fn.getLsbD 4
  | .atomAdd w | .atomMin w | .atomMax w | .atomXchg w | .atomCas w => w.fn.getLsbD 7
  | .collAR _ | .collRS _ | .collAG _ | .collA2A _ | .bkset _ => collInPad (s.coreAt c).team s.cycle x
  | .swcpyIn _ | .swcpyDec _ | .kvld _ | .attn _ => true
  | _ => false

/-- Does a `DRAIN` of a scope wait for the command (R82)? `.core` looks at writes of the own scratchpad only. -/
def State.drains (s : State) (c : Fin 208) (scope : Nat) (x : Cmd) : Bool :=
  x.q < 8 && !x.performed && usesEn x.instr && (scope != 0 || s.writesOwn c x)

/-- The condition of one instruction that blocks while it does not hold (R82); a false guard waits for nothing. -/
def State.waits (s : State) (c : Fin 208) (k : Fin 4) (i : Instr) : Bool :=
  let x := s.ctxAt c k
  match i with
  | .waitTok w => x.guardBit w.hd && (x.sReg w.a &&& x.tokPend &&& ~~~1) != 0
  | .waitCyc w => x.guardBit w.hd && s.cycle < (x.sReg w.a).toNat
  | .barWait w => x.guardBit w.hd &&
    match s.barrier c w.scope.toNat (w.fn.toNat % 16) with
    | some b => b.gen == (x.sReg w.a).extractLsb' 0 32
    | none => false
  | .drain w => x.guardBit w.hd &&
    (s.coreAt c).team.cmds.any (fun y => y.ctx == k && s.drains c w.scope.toNat y)
  | _ => false

/-- Does the bundle block (R22, R26, R82, R168, R187, R191, R194, R227)? -/
def State.blocks (s : State) (c : Fin 208) (k : Fin 4) (is : List Instr) : Bool :=
  let y := s.coreAt c
  let t := y.team
  let x := t.ctxs.get k
  is.any (fun i =>
    let r := i.refs
    r.srcS.any (fun q => x.tokPend.getLsbD q.toNat)
    || r.tiles.any (fun q => t.tileBusy.getLsbD q.toNat)
    || s.waits c k i
    || (usesGather i && s.cycle < t.gatherFree)
    || (usesMx i && (s.cycle < t.mxFree || t.ctxs.toList.any (fun z => z.rep.isSome)))
    || ((usesMx i || usesSf i) && t.seq.running)
    || (match queueOf i with | some q => 16 < queueLen y q + (is.filter (fun j => queueOf j == some q)).length | none => false)
    || (recordsRange i && 32 ≤ (y.team.cmds.filter (fun z => recordsRange z.instr)).length))

/-! ## Gang words (R185) -/

/-- Is the word a gang word whose guard holds? -/
def isGangWord (x : Ctx) : Instr → Bool
  | .mma w | .mmaZ w | .mmaT w => w.fn.getLsbD 4 && x.guardBit w.hd
  | _ => false

/-- The members of a cluster or 4×4 gang that a core belongs to. -/
def State.gangCores (s : State) (c : Fin 208) : List (Fin 200) :=
  match s.taskAt c with
  | some t => if t.tcb.gang = 1 || t.tcb.gang = 2 then t.cores else []
  | none => []

/-- Does a member hold a gang word that waits for its match? -/
def gangReady (t : Team) : Bool := (t.gang.map (fun g => g.go.isNone)).getD false

/-- The address registers that an MX word names (R81). -/
def mxRegs : Instr → List (BitVec 4)
  | .mma w | .mmaZ w | .mmaG w | .mmaT w => [w.aa, w.ab].dedup
  | .mmaBS w => [w.aa, w.ab, w.ax].dedup
  | .tload w => [w.aa]
  | _ => []

/-- The named address registers advance between two repetitions (R12, R81). -/
def Ctx.advance (x : Ctx) (i : Instr) : Ctx :=
  (mxRegs i).foldl (fun x r => x.setA r (areaAdvance (x.aReg r) (areaInc (x.aReg r)))) x

/-- The registers move on to a repetition, once (R81). -/
def Ctx.moveOn (x : Ctx) : Ctx :=
  match x.rep with
  | some r => if r.advanced then x else { x.advance r.instr with rep := some { r with advanced := true } }
  | none => x

/-- The match is made for a member: its cycle is set, and the registers of a repetition advance. -/
def Team.gangGo (t : Team) (go : Nat) : Team :=
  match t.gang with
  | none => t
  | some g =>
    let t := { t with gang := some { g with go := some go } }
    if g.rep then t.updCtx g.ctx Ctx.moveOn else t

/-! ## Matrix words (R179, R185, R187) -/

/-- OFF of an address register after wrapping, for each of n repetitions (R81, R179). -/
def repOffs : Nat → Word → List Nat
  | 0, _ => []
  | n + 1, a => areaAddr a 0 :: repOffs n (areaAdvance a (areaInc a))

/-- The cores whose scratchpads hold the operands of a gang word: members (gr, 0) and (0, gc) of the square grid (R185). -/
def State.gangSources (s : State) (c : Fin 208) : Fin 208 × Fin 208 :=
  match s.taskAt c with
  | none => (c, c)
  | some t =>
    let side := if t.tcb.gang = 1 then 2 else 4
    let m := memberOf t c
    let core (i : Nat) : Fin 208 := match t.cores[i]? with | some x => computeCore x | none => c
    (core (m / side * side), core (m % side))

/-- The context with which a member waits. -/
def Team.gangCtx (t : Team) : Fin 4 := (t.gang.map (·.ctx)).getD t.cur

/-- An address register of the context of a core that issued the matched gang word (R185). -/
def State.gangReg (s : State) (c : Fin 208) (r : BitVec 4) : Word :=
  let t := (s.coreAt c).team
  (t.ctxs.get t.gangCtx).aReg r

/-- Is the word a gang word by its GANG bit? -/
def gangBit : Instr → Bool
  | .mma w | .mmaZ w | .mmaT w => w.fn.getLsbD 4
  | _ => false

/-- The cores of the A and the B operand. -/
def State.mxCores (s : State) (c : Fin 208) (i : Instr) : Fin 208 × Fin 208 := if gangBit i then s.gangSources c else (c, c)

/-- The address registers that give A and B. -/
def State.mxA (s : State) (c : Fin 208) (k : Fin 4) (i : Instr) (r : BitVec 4) : Word :=
  if gangBit i then s.gangReg (s.mxCores c i).1 r else (s.ctxAt c k).aReg r
def State.mxB (s : State) (c : Fin 208) (k : Fin 4) (i : Instr) (r : BitVec 4) : Word :=
  if gangBit i then s.gangReg (s.mxCores c i).2 r else (s.ctxAt c k).aReg r

/-- The payload of an MX word. -/
def mxWord : Instr → Option XWord
  | .mma w | .mmaZ w | .mmaG w | .mmaT w | .mmaBS w | .tzero w | .tload w | .tmap w | .twait w => some w
  | _ => none

/-- Blocks of a tagged chunk (R179). -/
def mxNa (w : XWord) : Nat := 2 ^ (w.fn.toNat % 4)
def mxNb (w : XWord) : Nat := 2 ^ (w.fn.toNat / 4 % 4)

/-- What the unit does for a word. -/
def mxKind : Instr → MxKind
  | .mmaG _ => .gathered
  | .mmaT _ => .tagged
  | .mmaBS _ => .sparse
  | .tzero _ => .zero
  | .tload _ => .load
  | _ => .dense

/-- The occupancy as far as it is known at issue: that of `MMA.T` and `MMA.BS` grows as they read (R183, R184, R187). -/
def mxOcc (i : Instr) (w : XWord) : Nat :=
  match mxKind i with
  | .dense => 16 | .gathered => 24 | .zero => 16 | .load => 128 | .sparse => 4
  | .tagged => 32 * max (mxNa w) (mxNb w)

/-- The work of one issue of an MX word (R187): `fresh` takes +0 for the old tile, `last` clears its busy bit. -/
def State.mxJob (s : State) (c : Fin 208) (k : Fin 4) (i : Instr) (w : XWord) (fresh last : Bool) : MxJob :=
  let a := areaAddr (s.mxA c k i w.aa) 0
  let x := s.ctxAt c k
  let extra := if gangBit i then 4 else 0
  { kind := mxKind i, tile := w.td, start := s.cycle, aCore := (s.mxCores c i).1, bCore := (s.mxCores c i).2
    aAt := a, bAt := areaAddr (s.mxB c k i w.ab) 0, xAt := areaAddr (x.aReg w.ax) 0
    rows := if mxKind i = .gathered then (List.range 128).map (fun r => a + 32 * elem (x.vReg w.vi.toNat) r 32) else []
    tya := w.tya, tyb := w.tyb, qta := w.fn.extractLsb' 0 2, qtb := w.fn.extractLsb' 2 2
    na := mxNa w, nb := mxNb w, fresh := fresh, gang := gangBit i, lastRep := last, aGot := [], bGot := []
    entries := 0, entryOk := false, off := 0
    fin := match mxKind i with | .dense => s.cycle + 20 + extra | .gathered => s.cycle + 28 | _ => 0 }

/-! ## Accumulator banks (R71 step 5) -/

/-- Does the word accumulate banks of a tile? -/
def writesTile : Instr → Bool
  | .mma _ | .mmaZ _ | .mmaG _ | .mmaT _ | .mmaBS _ | .tzero _ | .tload _ => true
  | _ => false

/-- Matrix work with its occupancy and, for a block-sparse walk, its number of entries: as far as they are read they are
known, and the rest is taken from the scratchpads as they stand (log 22). -/
structure BankJob where
  job : MxJob
  occ : Nat
  entries : Nat
  deriving DecidableEq, Repr

def State.bankJob (s : State) (j : MxJob) : BankJob :=
  let ma := s.operandMem j.aCore
  let mb := s.operandMem j.bCore
  let rest (m : OperandMem) (a n : Nat) (got : List (BitVec 256)) : List (BitVec 256) :=
    got ++ unitsAt m (a + 32 * got.length) (256 * n - got.length)
  match j.kind with
  | .tagged => { job := j, occ := ({ j with aGot := rest ma j.aAt j.na j.aGot, bGot := rest mb j.bAt j.nb j.bGot } : MxJob).occupancy, entries := 0 }
  | .sparse => { job := j, occ := 0, entries := if j.fin = 0 then min ((ma.unit j.xAt).toNat % 2 ^ 13) 4096 else j.entries }
  | _ => { job := j, occ := 0, entries := 0 }

/-- Does the work take an accumulator bank in a cycle (R187)? A gang form is four cycles later. -/
def BankJob.takes (b : BankJob) (u : Nat × Nat) : Bool :=
  let c := b.job.start + (if b.job.gang then 4 else 0)
  let j := u.2 - 16 * b.job.tile.toNat
  16 * b.job.tile.toNat ≤ u.2 && j < 16
    && (match b.job.kind with
      | .dense => u.1 == c + 5 + j
      | .gathered => u.1 == c + 13 + j
      | .tagged => u.1 + 11 == c + b.occ + j
      | .sparse => c + 9 + j ≤ u.1 && (u.1 - (c + 9 + j)) % 16 == 0 && (u.1 - (c + 9 + j)) / 16 < b.entries
      | .zero => u.1 == c + 1 + j
      | .load => c + 2 + 8 * j ≤ u.1 && u.1 ≤ c + 9 + 8 * j)

/-- The accesses of work that is no block-sparse walk. -/
def BankJob.uses (b : BankJob) : List (Nat × Nat) :=
  let c := b.job.start
  ((List.range 144).map (fun d => (List.range 16).map (fun j => (c + d, 16 * b.job.tile.toNat + j)))).flatten.filter b.takes

/-- Would two pieces of work take one bank in one cycle? Two walks of one tile do when they are a multiple of 16 cycles
apart and the first still runs. -/
def BankJob.meets (a b : BankJob) : Bool :=
  if b.job.kind != .sparse then b.uses.any a.takes
  else if a.job.kind != .sparse then a.uses.any b.takes
  else a.job.tile == b.job.tile && 0 < a.entries && (a.job.start - b.job.start) % 16 == 0 && (a.job.start - b.job.start) / 16 < b.entries

/-- The matrix work of the team that is under way. -/
def Team.mxJobs (t : Team) : List MxJob :=
  t.pend.filterMap (fun p => match p.act with | .mx j => some j | _ => none)

/-- The first word of the bundle, in unit order, that takes part in a conflict of accumulator banks if the bundle issues in
a cycle: with an access that is in flight, or with another word of the bundle. The MX word of a `REP` with a register count of
0 takes part as well (R71, R81; DEDUCED, log 186). -/
def State.bankConflict (s : State) (c : Fin 208) (k : Fin 4) (cycle : Nat) (is : List Instr) : Option Instr :=
  let t := (s.coreAt c).team
  let x := t.ctxs.get k
  let uses := is.map (fun i => (i, bankUse x cycle i))
  let own := is.filterMap (fun i => if writesTile i then (mxWord i).map (fun w => s.bankJob { s.mxJob c k i w false false with start := cycle }) else none)
  if own = [] && uses.all (fun u => u.2.isEmpty) then none
  else
    let jobs := t.mxJobs.map s.bankJob
    uses.findSome? (fun p =>
      let others := (uses.filter (fun q => q.1 != p.1)).map (·.2)
      if p.2.any (fun b => t.accRes.contains b || others.any (·.contains b) || jobs.any (·.takes b) || own.any (·.takes b)) then some p.1
      else if writesTile p.1 && own.any (fun o => t.accRes.any o.takes || others.any (·.any o.takes) || jobs.any o.meets) then some p.1
      else none)

/-! ## Opening a bundle -/

/-- The address of the descriptor a word reads in the cycle before its bundle issues (R164, R186). -/
def descAddr (x : Ctx) : Instr → Option Nat
  | .ldV w | .ldt w | .ldSW w => if w.mapm == 3 then some (areaAddr (x.aReg (w.c.extractLsb' 0 4)) 0) else none
  | .tmap w => if x.guardBit w.hd then some (areaAddr (x.aReg w.aa) 0) else none
  | _ => none

def readDesc (t : Team) (a : Option Nat) : MapBits :=
  match a with
  | some a => BitVec.ofNat 384 (natOf (t.spadBefore a 48))
  | none => 0

/-- The first store of the context that the read of the descriptor in this cycle comes too early for: one that lands in this
cycle, or one still in flight (R75, R178). -/
def readEarly (t : Team) (k : Fin 4) (cycle : Nat) (a : Option Nat) : Option (BitVec 56) :=
  a.bind (fun a =>
    match t.fresh.find? (fun x => x.2.1 == k && a ≤ x.1 && x.1 < a + 48) with
    | some x => some x.2.2
    | none => (t.pend.find? (fun p => p.ctx == k && p.hits cycle (0, a, 48))).map (·.baddr))

/-- What an attempt to issue from a context came to. -/
inductive Attempt
  /-- nothing issues: a hold, a trap, or a stall -/
  | none
  /-- the context is blocked -/
  | blocked
  /-- a bundle is in progress; its first word is to execute -/
  | first (i : Instr)
  deriving DecidableEq, Repr

/-- Is a fetch of the context parked on a page (R41)? -/
def State.fetchParked (s : State) (c : Fin 208) (k : Fin 4) : Bool :=
  s.parked.any (fun p => p.who.contains (.fetch { core := c, ctx := k }))

/-- The op words of the context's next bundle in its loop buffer, once the first pass has reached it (R79). -/
def Ctx.heldWords (x : Ctx) : Option (List Word) :=
  x.activeLoop.bind (fun l => (l.held[l.pos]?).map (·.2))

/-- The words of the context's next bundle: from the loop buffer, else from the instruction buffer. -/
def State.nextWords (s : State) (c : Fin 208) (k : Fin 4) : BundleRead :=
  match (s.ctxAt c k).heldWords with
  | some ws => .words ws
  | none => readWords (s.coreAt c) 8 (s.ctxAt c k).pc.toNat []

/-- Decode the context's next bundle, when it is present. -/
def State.nextBundle (s : State) (c : Fin 208) (k : Fin 4) : Option (List Word × Except DecodeTrap (List Instr)) :=
  match s.nextWords c k with
  | .miss _ => none
  | .words ws => some (ws, decodeBundle (s.decodeEnv c (s.ctxAt c k).activeLoop.isSome) ws)

/-- Does a breakpoint stand at the context's next bundle that it has not stopped at yet (R385)? -/
def State.atBreak (s : State) (c : Fin 208) (k : Fin 4) : Bool :=
  (s.coreAt c).brks.toList.contains (some (s.ctxAt c k).pc) && !(s.ctxAt c k).brkPass

/-- Is a context that blocked still blocked? One that waits with a gang word stops at a breakpoint set in the meantime. -/
def State.stillBlocked (s : State) (c : Fin 208) (k : Fin 4) : Bool :=
  s.fetchParked c k
  || match s.nextBundle c k with
    | some (_, .ok is) => s.blocks c k is
        || (is.any (isGangWord (s.ctxAt c k)) && repCount (s.ctxAt c k) is != 0 && s.gangCores c != [] && gangReady (s.coreAt c).team
          && !s.atBreak c k)
    | _ => false

/-- The context blocks from this cycle (R293, R294). -/
def State.block (s : State) (c : Fin 208) (k : Fin 4) (is : List Instr) : State :=
  s.updCtx c k (fun x => { x with blockedSince := some (x.blockedSince.getD s.cycle), blockedOn := is })

/-- The instructions that block a bundle: the first that blocks by itself, else all of them together. -/
def State.blockedBy (s : State) (c : Fin 208) (k : Fin 4) (is : List Instr) : List Instr :=
  match is.find? (fun i => s.blocks c k [i]) with
  | some i => [i]
  | none => is

/-- Does the bundle still have to read a descriptor in the cycle before it issues (R164)? -/
def State.mustPreread (s : State) (c : Fin 208) (k : Fin 4) (is : List Instr) : Bool :=
  let x := s.ctxAt c k
  is.any (fun i => (descAddr x i).isSome) && !(match x.preread with | some r => r.due == s.cycle | none => false)

/-- The descriptors are read in this cycle, in which the core stalls (R164). -/
def State.prereadDesc (s : State) (c : Fin 208) (k : Fin 4) (is : List Instr) : State :=
  let t := (s.coreAt c).team
  let x := t.ctxs.get k
  let ld := is.findSome? (fun i => if usesMx i then none else descAddr x i)
  let mx := is.findSome? (fun i => if usesMx i then descAddr x i else none)
  let r : PreRead := { due := s.cycle + 1, ld := readDesc t ld, mx := readDesc t mx
                       ldEarly := readEarly t k s.cycle ld, mxEarly := readEarly t k s.cycle mx }
  (s.updCtx c k (fun x => { x with preread := some r })).updCore c (fun y => { y with stallUntil := s.cycle + 1 })

/-- Issue a bundle that has passed decode and does not block: the descriptor read first, then the bundle is in progress
(R343). -/
def State.openIssue (s : State) (c : Fin 208) (k : Fin 4) (ws : List Word) (is : List Instr) : State × Attempt :=
  if s.mustPreread c k is then (s.prereadDesc c k is, .none)
  else
    let x := s.ctxAt c k
    let s := s.drainReads c k is
    let stall := match is.getLast?.bind Instr.head with
      | some h => (match h.imm with | some m => m.stall | none => h.stall).toNat
      | none => 0
    match is with
    | [] => (s, .none)
    | i :: r =>
      ({ s with nextSeq := s.nextSeq + 1
                issue := { core := c, words := ws, ctx := k, baddr := x.pc, next := x.pc + BitVec.ofNat 56 (8 * ws.length), stall := stall
                           seq := s.nextSeq, all := is, slots := r, effects := [], faults := [] } }, .first i)

/-- A skipped loop body is fetched but not issued (R79). -/
def State.skipBody (s : State) (c : Fin 208) (k : Fin 4) (l : LoopState) (n : Nat) : State :=
  { s.updCtx c k (fun x =>
      { x with pc := x.pc + BitVec.ofNat 56 (8 * n), brkPass := false, loop := if l.pos + 1 < l.n then some { l with pos := l.pos + 1 } else none })
    with turn := c.val }

/-- A line that is not in the buffer is fetched; the context holds and the team does not switch (R41, R275). -/
def State.fetchLine (s : State) (c : Fin 208) (line : Nat) : State :=
  let (d, s) := s.takeDelay
  (s.updCore c (fun y => { y with fetching := some line })).later (1 + d)
    (event .codeFetchLine (.line { core := c, line := line, badWord := none, badAgain := false }))

/-- Does the bundle hold an op word whose parity failed twice (R41, R353)? -/
def badParity (y : Core) (a n : Nat) : Bool :=
  y.poisoned.any (fun p => a ≤ 64 * p.1 + 8 * p.2 && 64 * p.1 + 8 * p.2 < a + 8 * n)

/-- The lines of a bundle of n words at code address a have been used (R275). -/
def State.touched (s : State) (c : Fin 208) (a n : Nat) : State :=
  s.updCore c (fun y => { y with ibuf := touchLine (touchLine y.ibuf (a / 64)) ((a + 8 * n - 8) / 64) })

/-- The cores that halt with a core: its gang (R385). -/
def State.haltSet (s : State) (c : Fin 208) : List (Fin 208) :=
  match s.taskAt c with
  | some t => if t.tcb.gang = 0 then [c] else t.cores.map computeCore
  | none => [c]

/-- Ask a core and its gang to stop; issue is held from now on (R385). -/
def State.askHaltOf (s : State) (c : Fin 208) : State :=
  ((s.haltSet c).foldl (fun s m => s.updCore m (fun y => { y with haltReq := y.halted.isNone })) s).now (event .preciseStop (.core c))

/-- The bundle at a breakpoint: the core stops before it, and it issues without a second hit (R385). -/
def State.hitBreak (s : State) (c : Fin 208) (k : Fin 4) : State :=
  (s.updCtx c k (fun x => { x with brkPass := true })).askHaltOf c

/-- This member's word waits for its match from now on (R185). -/
def State.gangArrive (s : State) (c : Fin 208) (k : Fin 4) (rep : Bool) : State :=
  s.updTeam c (fun t => { t with gang := some { ctx := k, go := none, rep := rep } })

/-- A gang word that is matched in this cycle issues, else its bundle waits for its match (R185). -/
def State.gangIssue (s : State) (c : Fin 208) (k : Fin 4) (i : Instr) (ws : List Word) (is : List Instr) : State × Attempt :=
  match (s.coreAt c).team.gang with
  | some g =>
    if g.go = some s.cycle && g.ctx == k then s.openIssue c k ws is
    else if g.go.isNone then (s.block c k [i], .blocked)
    else ((s.block c k [i]).gangArrive c k false, .blocked)
  | none => ((s.block c k [i]).gangArrive c k false, .blocked)

/-- A bundle that is decoded: the accumulator banks first, then the block conditions, the gang and the descriptors (R71,
R343). A bundle that comes out of a block is decoded again (log 28). -/
def State.attemptDecoded (s : State) (c : Fin 208) (k : Fin 4) (ws : List Word) (is : List Instr) : State × Attempt :=
  let x := s.ctxAt c k
  match s.bankConflict c k (if s.mustPreread c k is then s.cycle + 1 else s.cycle) is with
  | some i => ((s.holdBody c k x.pc ws).takeTrap c k .illAccbank x.pc (rawWord i) (unitMask (rawWord i)), .none)
  | none =>
    if s.blocks c k is then (s.block c k (s.blockedBy c k is), .blocked)
    else match is.find? (isGangWord x) with
      | some i =>
        if s.gangCores c = [] || repCount x is = 0 then s.openIssue c k ws is else s.gangIssue c k i ws is
      | none => s.openIssue c k ws is

/-- An op word whose parity failed twice: the task fails, and a control core is reset (R353, R354). -/
def State.parityFail (s : State) (c : Fin 208) (a : BitVec 56) : State :=
  let s := s.failCore c .opwParity a (a.zeroExtend 64)
  if isControl c then s.resetControl (groupOf c) else s

/-- Try to issue the next bundle of a context (R41, R71, R343). A bundle in the loop buffer is not fetched (R79). -/
def State.attempt (s : State) (c : Fin 208) (k : Fin 4) : State × Attempt :=
  let y := s.coreAt c
  let x := y.team.ctxs.get k
  if s.fetchParked c k then (s.block c k [], .blocked)
  else
    match s.nextWords c k with
    | .miss line => (s.fetchLine c line, .none)
    | .words ws =>
      let held := x.heldWords.isSome
      let s := if held then s else s.touched c x.pc.toNat ws.length
      match x.activeLoop.filter (·.skip) with
      | some l => (s.skipBody c k l ws.length, .none)
      | none =>
        if !held && badParity y x.pc.toNat ws.length then (s.parityFail c x.pc, .none)
        else if s.atBreak c k then (s.hitBreak c k, .none)
        else
          match decodeBundle (s.decodeEnv c x.activeLoop.isSome) ws with
          | .error d => ((s.holdBody c k x.pc ws).takeTrap c k d.cause x.pc d.word (unitMask d.word), .none)
          | .ok is => s.attemptDecoded c k ws is

/-- Has the context neither retired nor stopped at a `YIELD`? -/
def Ctx.live (x : Ctx) : Bool := !x.retired && x.stopped.isNone

/-- Contexts of a core in round-robin order after the current one, the current one last (R293). -/
def roundRobin (cur : Fin 4) : List (Fin 4) := [cur + 1, cur + 2, cur + 3, cur]

/-- The context that issues: the current one until it blocks or retires, then the first ready one after it (R293). A gang
word issues in the cycle of its match (R185). -/
def State.pick (s : State) (c : Fin 208) : Option (Fin 4) :=
  let t := (s.coreAt c).team
  let x := t.ctxs.get t.cur
  match t.gang.bind (fun g => if !g.rep && g.go == some s.cycle then some g.ctx else none) with
  | some k => some k
  | none =>
    if x.live && x.blockedSince.isNone then some t.cur
    else (roundRobin t.cur).find? (fun k => k.val < ctxCount c t && (t.ctxs.get k).live
      && ((t.ctxs.get k).blockedSince.isNone || !s.stillBlocked c k))

/-- May the core issue in this cycle, but for a freeze that holds it (R349)? -/
def State.issueOpen (s : State) (c : Fin 208) : Bool :=
  let y := s.coreAt c
  (if isControl c then y.firmware
   else !s.heldTurn && match s.taskAt c with | some t => t.state == .running | none => false)
  && !y.stopped && y.halted.isNone && !y.haltReq && y.team.stopAt.isNone && y.fetching.isNone
  && !y.gated && !y.scan.running && y.stallUntil ≤ s.cycle

/-- Would the last `RETIRE` of the team issue in this cycle (R298)? -/
def State.retiresNow (s : State) (c : Fin 208) : Bool :=
  let y := s.coreAt c
  match s.pick c with
  | some k =>
    s.issueOpen c && (s.ctxAt c k).earliest ≤ s.cycle
      && (List.finRange 4).all (fun j => j == k || partCtx y.team.part ≤ j.val || (s.ctxAt c j).retired)
      && (match s.nextBundle c k with
        | some (_, .ok is) => !s.blocks c k is && is.any (fun i => match i with | .retire w => (s.ctxAt c k).guardBit w.hd | _ => false)
        | _ => false)
  | none => false

/-- May the core issue in this cycle at all? A freeze that holds issue does not stop the last `RETIRE` (R298). -/
def State.mayIssue (s : State) (c : Fin 208) : Bool := s.issueOpen c && (!(s.coreAt c).holdIssue || s.retiresNow c)

/-- May repetitions of a core issue in this cycle (R81)? -/
def State.mayRepeat (s : State) (c : Fin 208) : Bool :=
  let y := s.coreAt c
  (match s.taskAt c with | some t => t.state == .running | none => false)
    && !s.heldTurn && !y.stopped && y.halted.isNone && !y.haltReq && !y.holdIssue && y.team.stopAt.isNone

/-- A context is chosen: it is current, and no longer blocked. -/
def State.chosen (s : State) (c : Fin 208) (k : Fin 4) : State :=
  s.updTeam c (fun t => { t.updCtx k (fun x => { x with blockedSince := none, blockedOn := [] }) with cur := k })

/-- The turn of a core: one attempt to issue a bundle. -/
def State.tryCore (s : State) (c : Fin 208) : State × Option Instr :=
  let s := { s with turn := c.val + 1 }
  match s.pick c with
  | none => (s, none)
  | some k =>
    let s := s.chosen c k
    if s.cycle < (s.ctxAt c k).earliest then (s, none)
    else match s.attempt c k with
      | (s, .first i) => (s, some i)
      | (s, _) => (s, none)

/-- The first core from the turn on that may issue. -/
def State.nextCore (s : State) : Option (Fin 208) := allCores.find? (fun c => s.turn ≤ c.val && s.mayIssue c)

end Sys2Proof.Machine
end

