-- ==== Sys2Proof/Machine/Load.lean ====
section
/-! DEFINITION. The meanings of the LD instructions (R160 to R172, R177). -/

namespace Sys2Proof.Machine

/-! ## Shared operations of LD and ST -/

/-- SPAD_ALIGN, with the address (R162). -/
def alignFaults (al a : Nat) : List (Cause × Word) := if a % al = 0 then [] else [(.spadAlign, BitVec.ofNat 64 a)]

/-- SPAD_RANGE of accesses (address, bytes) in a scratchpad of `size` bytes, with the lowest failing address (R13,
R162). -/
def rangeFaults (size : Nat) (l : List (Nat × Nat)) : List (Cause × Word) :=
  match (l.filter (fun p => size < p.1 + p.2)).map (·.1) with
  | [] => []
  | a :: r => [(.spadRange, BitVec.ofNat 64 (r.foldl min a))]

/-- The checks of an access at `a` that must be a multiple of `al` (R162). -/
def State.memFaults (s : State) (al a : Nat) (l : List (Nat × Nat)) : List (Cause × Word) :=
  alignFaults al a ++ rangeFaults (spadSize s.issue.core s.icore.team) l

/-- The post-increment of `[a+]` (R12), with latency 1. -/
def postFx (c : Ctx) (w : MWord) (inc : Int) : List Effect :=
  if w.amode = 1 then [.act 1 (.setA w.areg (areaAdvance (c.aReg w.areg) inc))] else []

/-- The post-increment by INC. -/
def postInc (c : Ctx) (w : MWord) : List Effect := postFx c w (areaInc (c.aReg w.areg))

/-- Bytes of a vector element. -/
def elemBytes (ty : BitVec 4) : Nat := tyWidth ty / 8

/-- The addresses of a gather or scatter: one for each element (R166). -/
def gatherAddr (c : Ctx) (w : MWord) (i : Nat) : Nat :=
  c.memAddr w + elemBytes w.ty * elem (c.vReg w.b.toNat) i (tyWidth w.ty)

/-- The elements that the gather unit handles in one cycle, by cycle (R168). -/
def gatherGroups (ty : BitVec 4) (f : Nat → Option Nat) : List (List (Nat × Nat)) :=
  let m := elemCount (tyWidth ty) / 8
  (List.range 8).map (fun j => (List.range m).filterMap (fun i => (f (j * m + i)).map (fun a => (j * m + i, a))))

/-! ## Map sources (R164) -/

/-- ORIGIN of the slowest dimension moved on by STEP times SHAPE; NONE unless AFFINE. -/
def mapNext (m : MapBits) : MapBits :=
  let d := mapSlow m
  if isAffine m then mapSetOrigin m d (mapOrigin m d + mapStep m d * mapShape m d) else 0

/-- The descriptor that was read for the LD word. -/
def Ctx.ldDesc (c : Ctx) : MapBits := match c.preread with | some r => r.ld | none => 0

/-- The result map by MAPM; none keeps the destination's. -/
def Ctx.mapmOf (c : Ctx) (w : MWord) : Option MapBits :=
  match w.mapm.toNat with
  | 0 => none
  | 1 => some (c.mapOf w.c.toNat)
  | 2 => some (mapNext (c.mapOf w.c.toNat))
  | _ => some (mapInstall c.ldDesc)

/-- The address of the descriptor. -/
def Ctx.descAt (c : Ctx) (w : MWord) : Nat := areaAddr (c.aReg (w.c.extractLsb' 0 4)) 0

/-- The checks of a descriptor: its bytes in range, R17, its carriers, and the stores it comes too early for. -/
def State.mapmFaults (s : State) (w : MWord) : List (Cause × Word) :=
  let c := s.ictx
  let t := s.icore.team
  if w.mapm = 3 then
    rangeFaults (spadSize s.issue.core t) [(c.descAt w, 48)]
      ++ (if mapWf c.ldDesc && mapCarriersOk c.ldDesc s.issue.ctx.val (partVregs t.part) then [] else [(.mapBad, w.d.zeroExtend 64)])
      ++ (if c.chken then (c.preread.bind (·.ldEarly)).toList.map (fun b => (.stallShort, b.zeroExtend 64)) else [])
  else []

/-- The registers whose maps MAPM reads. -/
def mapmReads (w : MWord) : List Nat := if w.mapm = 1 || w.mapm = 2 then [w.c.toNat] else []

/-! ## Loads into a vector register -/

/-- A load job that reads its groups from issue + 1 on and lands `lat` cycles after issue. -/
def State.loadJob (s : State) (w : MWord) (lat width : Nat) (mask : VecBits) (groups : List (List (Nat × Nat))) : ReadJob :=
  { dst := w.d.toNat, width := width, groups := groups, got := 0, mask := mask, map := none, season := none
    codes := false, own := none, land := s.cycle + lat }

def execLdS (w : MWord) (s : State) : Host.Outcome State Fault Refusal :=
  let a := s.ictx.memAddr w
  let n := sWidth w.ty / 8
  .next (s.slot (.ldS w) w.hd
    { faults := s.memFaults n a [(a, n)], effects := .act 1 (.loadS w.ty a w.d) :: postInc s.ictx w, reads := [(1, a, n)] })

/-- R164, R165. -/
def execLdV (w : MWord) (s : State) : Host.Outcome State Fault Refusal :=
  let a := s.ictx.memAddr w
  let j := s.loadJob w 6 512 (guardMask (s.ictx.guard w.hd) (tyWidth w.ty)) [[(0, a)]]
  .next (s.slot (.ldV w) w.hd
    { faults := s.memFaults 32 a [(a, 512)] ++ s.mapmFaults w
      effects := .act 1 (.reads { j with map := s.ictx.mapmOf w }) :: postInc s.ictx w
      maps := mapmReads w, data := some [], reads := [(1, a, 512)] })

/-- R165: one element to every active one; the map stays. -/
def execLdVB (w : MWord) (s : State) : Host.Outcome State Fault Refusal :=
  let a := s.ictx.memAddr w
  let n := elemBytes w.ty
  let j := s.loadJob w 6 n (guardMask (s.ictx.guard w.hd) (tyWidth w.ty))
    [(List.range (elemCount (tyWidth w.ty))).map (fun i => (i, a))]
  .next (s.slot (.ldVB w) w.hd
    { faults := s.memFaults n a [(a, n)], effects := .act 1 (.reads j) :: postInc s.ictx w, reads := [(1, a, n)] })

/-- EXTENT[0] of a gather's map (R166). -/
def gatherExtent (x : Word) : Nat := if x.toNat % 2 ^ 24 = 0 then 0xFFFFFF else x.toNat % 2 ^ 24

/-- The reads of a gather, for the checking scoreboard. -/
def gatherReads (n : Nat) (groups : List (List (Nat × Nat))) : List (Nat × Nat × Nat) :=
  ((groups.zip (List.range groups.length)).map (fun g => g.1.map (fun p => (1 + g.2, p.2, n)))).flatten

/-- R166, R168. -/
def execLdVG (w : MWord) (s : State) : Host.Outcome State Fault Refusal :=
  let c := s.ictx
  let p := c.guard w.hd
  let b := tyWidth w.ty
  let x := c.sReg w.c
  let groups := gatherGroups w.ty (fun i => if active p b i then some (gatherAddr c w i) else none)
  let m := listedMap (ewOf b) w.b.toNat s.issue.ctx.val (elemCount b) (gatherExtent x) (x.toNat / 2 ^ 24 % 2 ^ 16)
  let j := { s.loadJob w 13 (b / 8) (guardMask p b) groups with map := some m }
  .next (s.slot (.ldVG w) w.hd
    { faults := s.memFaults (b / 8) (c.memAddr w) (groups.flatten.map (fun q => (q.2, b / 8)))
      effects := .act 1 (.reads j) :: postInc c w ++ [.gatherBusy (s.cycle + 8)]
      data := some [w.b.toNat], reads := gatherReads (b / 8) groups })

/-- R167: offsets come from the operand queue; one that fails its check yields 0 and is reported through `SIDX`. -/
def execLdVQ (w : MWord) (s : State) : Host.Outcome State Fault Refusal :=
  let c := s.ictx
  let t := s.icore.team
  let p := c.guard w.hd
  let b := tyWidth w.ty
  let k := min (min (c.sReg w.c).toNat (elemCount b)) t.opq.length
  let off (i : Nat) : Nat := (t.opq.getD i 0).toNat
  let addr (i : Nat) : Nat := c.memAddr w + b / 8 * off i
  let fits (i : Nat) : Bool := addr i + b / 8 ≤ spadSize s.issue.core t
  let groups := gatherGroups w.ty (fun i => if i < k && active p b i && fits i then some (addr i) else none)
  let bad := ((List.range k).filter (fun i => active p b i && !fits i)).length
  let m := listedMap (ewOf b) w.b.toNat s.issue.ctx.val k 0xFFFFFF 0
  let j := { s.loadJob w 13 (b / 8) (guardMask p b) groups with map := some m, own := some w.b.toNat }
  let carrier := vecOf b (fun i => if i < k then off i else 0)
  .next (s.slot (.ldVQ w) w.hd
    { faults := s.memFaults (b / 8) (c.memAddr w) []
      effects := .act 13 (.setV w.b.toNat carrier (guardMask p b) none true none) :: .act 1 (.reads j) :: postInc c w
        ++ [.gatherBusy (s.cycle + 8), .popOffsets k] ++ (if 0 < bad then [.badOffsets bad] else [])
      data := some [], reads := gatherReads (b / 8) groups })

/-- The coordinates at which a transposed load fills past the edge (R170). -/
def Ctx.edge (c : Ctx) (m : MapBits) (i : Nat) : Bool :=
  isAffine m && (List.range (mapRank m)).any (fun d => mapExtent m d ≤ c.coord m i d)

/-- R169, R170. -/
def execLdt (w : MWord) (s : State) : Host.Outcome State Fault Refusal :=
  let c := s.ictx
  let a := c.memAddr w
  let stride := 32 * (w.b.toNat % 16 + 1)
  let p := c.guard w.hd
  let fx (j : ReadJob) (rows : List Nat) : SlotRes :=
    { faults := s.memFaults 32 a (rows.map (fun r => (a + r * stride, 32))) ++ s.mapmFaults w
      effects := .act 1 (.reads { j with map := c.mapmOf w }) :: postInc c w
      maps := if w.mapm = 0 && w.ty != 12 then [w.d.toNat] else mapmReads w
      data := some [], reads := rows.map (fun r => (1, a + r * stride, 32)) }
  .next (s.slot (.ldt w) w.hd
    (if w.ty = 12 then
      fx { s.loadJob w 6 32 (guardMask p 8) [(List.range 16).map (fun r => (r, a + r * stride))] with codes := true } (List.range 16)
    else
      let b := tyWidth w.ty
      let m := (c.mapmOf w).getD (c.mapOf w.d.toNat)
      let full := (List.range (elemCount b)).filter (fun i => !c.edge m i)
      let rows := (List.range 16).filter (fun r => full.any (fun i => i % 16 == r))
      fx (s.loadJob w 6 (b / 8) (guardMask p b) [full.map (fun i => (i, a + i % 16 * stride + b / 8 * (i / 16)))]) rows))

/-- A map as `LD.SW` installs it, with EW 32 (R171); one that is not well-formed at that width becomes NONE (log 172). -/
def swMap (m : MapBits) : MapBits :=
  if isNone m then m else if mapWf (mapSetEw m 0) then mapSetEw m 0 else 0

/-- R171: the decayed values of seasoned words, SW32 in one cycle and SW64 in two. -/
def execLdSW (w : MWord) (s : State) : Host.Outcome State Fault Refusal :=
  let c := s.ictx
  let a := c.memAddr w
  let wide := w.ty = 7
  let n := swWidth wide
  let part (lo hi : Nat) : List (Nat × Nat) := ((List.range hi).drop lo).map (fun i => (i, a + n * i))
  let j := s.loadJob w 10 n (guardMask (c.guard w.hd) 32) (if wide then [part 0 64, part 64 128] else [part 0 128])
  .next (s.slot (.ldSW w) w.hd
    { faults := s.memFaults 32 a [(a, 128 * n)] ++ s.mapmFaults w
      effects := .act 1 (.reads { j with map := (c.mapmOf w).map swMap, season := some (wide, s.gstep) }) :: postInc c w
      maps := mapmReads w, data := some []
      reads := if wide then [(1, a, 512), (2, a + 512, 512)] else [(1, a, 512)] })

/-- `AMO`: one read-modify-write in cycle issue + 3 (R177). -/
def State.amoRes (s : State) (w : MWord) (op : BitVec 3) : SlotRes :=
  let a := s.ictx.memAddr w
  let n := sWidth w.ty / 8
  { faults := s.memFaults n a [(a, n)]
    effects := .act 3 (.amo op w.ty a (s.ictx.sReg w.b) (s.ictx.sReg w.c) w.d) :: postInc s.ictx w }

def execAmoAdd (w : MWord) (s : State) : Host.Outcome State Fault Refusal := .next (s.slot (.amoAdd w) w.hd (s.amoRes w 0))
def execAmoMin (w : MWord) (s : State) : Host.Outcome State Fault Refusal := .next (s.slot (.amoMin w) w.hd (s.amoRes w 1))
def execAmoMax (w : MWord) (s : State) : Host.Outcome State Fault Refusal := .next (s.slot (.amoMax w) w.hd (s.amoRes w 2))
def execAmoXchg (w : MWord) (s : State) : Host.Outcome State Fault Refusal := .next (s.slot (.amoXchg w) w.hd (s.amoRes w 3))
def execAmoCas (w : MWord) (s : State) : Host.Outcome State Fault Refusal := .next (s.slot (.amoCas w) w.hd (s.amoRes w 4))

/-- R172, R141: the entry goes to the bank that is shadow at issue. -/
def execPatld (w : MWord) (s : State) : Host.Outcome State Fault Refusal :=
  let a := s.ictx.memAddr w
  .next (s.slot (.patld w) w.hd
    { faults := s.memFaults 32 a [(a, 160)]
      effects := .act 1 (.loadPattern (!s.icore.team.patActive) w.d.toNat a) :: postInc s.ictx w, reads := [(1, a, 160)] })

end Sys2Proof.Machine
end

