-- ==== Sys2Proof/Machine/Engine.lean ====
section
/-! DEFINITION. What every engine command shares: where it stands (R34, R195), how it is issued (R190, R191), when it may
start (R83, R192 to R194, R206), faults (R196, R197, R353), and the move of a view's elements (R198, R199, R276). -/

namespace Sys2Proof.Machine

/-! ## Where a command stands -/

/-- The home of a command: the team on a core, or the saved frame of a member of a task (R34). -/
inductive CmdHome
  | core (c : Fin 208)
  | frame (task member : Nat)
  deriving DecidableEq, Repr

def Team.hasCmd (t : Team) (id : Nat) : Bool := t.cmds.any (fun c => c.id == id)

/-- The frame that holds a command, if a saved team does. -/
def Task.frameOf (t : Task) (id : Nat) : Option Nat :=
  (List.range t.frames.length).find? (fun i => ((t.frames[i]?).map (fun f => f.hasCmd id)).getD false)

/-- Find a command: on the core named, else wherever its team is now. -/
def State.cmdHome (s : State) (e : CmdRef) : Option CmdHome :=
  if (s.coreAt e.core).team.hasCmd e.id then some (.core e.core)
  else match allCores.find? (fun c => (s.coreAt c).team.hasCmd e.id) with
    | some c => some (.core c)
    | none => s.tasks.findSome? (fun t => (t.frameOf e.id).map (fun i => .frame t.id i))

def State.homeTeam (s : State) (h : CmdHome) : Team :=
  match h with
  | .core c => (s.coreAt c).team
  | .frame t m => match s.taskOf t with
    | some x => x.frames.getD m Team.reset
    | none => Team.reset

/-- Change the i-th of a list. -/
def modifyAt (f : α → α) : List α → Nat → List α
  | [], _ => []
  | x :: r, 0 => f x :: r
  | x :: r, n + 1 => x :: modifyAt f r n

def State.updHome (s : State) (h : CmdHome) (f : Team → Team) : State :=
  match h with
  | .core c => s.updTeam c f
  | .frame t m => s.updTask t (fun x => { x with frames := modifyAt f x.frames m })

/-- The task whose command it is; a control core has none. -/
def State.homeTask (s : State) (h : CmdHome) : Option Task :=
  match h with
  | .core c => s.taskAt c
  | .frame t _ => s.taskOf t

def State.findCmd (s : State) (e : CmdRef) : Option (CmdHome × Cmd) :=
  match s.cmdHome e with
  | some h => ((s.homeTeam h).cmds.find? (fun c => c.id == e.id)).map (fun c => (h, c))
  | none => none

def putCmd (c : Cmd) (l : List Cmd) : List Cmd := l.map (fun x => if x.id == c.id then c else x)

def State.putCmdAt (s : State) (h : CmdHome) (c : Cmd) : State := s.updHome h (fun t => { t with cmds := putCmd c t.cmds })

/-- The engine of a command as it works: the home, the core that reports, the copy engine's TLB, the address space, the
bytes of scratchpad. -/
structure Eng where
  home : CmdHome
  core : Fin 208
  tlb : Fin 48
  asid : BitVec 8
  size : Nat
  host : BitVec 3
  deriving DecidableEq, Repr

def State.eng (s : State) (e : CmdRef) (h : CmdHome) : Eng :=
  let t := s.homeTask h
  let core := match h with | .core c => c | .frame _ _ => e.core
  { home := h, core := core, tlb := s.clusterOf core, asid := (t.map (fun x => x.tcb.asid)).getD 0
    size := spadSize core (s.homeTeam h), host := (t.bind (fun x => x.host)).getD 0 }

def Eng.ref (e : Eng) (c : Cmd) : CmdRef := { core := e.core, id := c.id }

/-! ## Issue (R190) -/

/-- The address register of an EN word. -/
def enArea (w : EWord) : BitVec 4 := w.a.extractLsb' 0 4

/-- OFF of aA after wrapping (R198). -/
def Ctx.enAddr (c : Ctx) (w : EWord) : Nat := areaAddr (c.aReg (enArea w)) 0

/-- The command of an EN word with its operands as they stand at issue. -/
def Ctx.enCmd (c : Ctx) (i : Instr) (w : EWord) : Cmd :=
  { Cmd.new i w.q.toNat w.tok with
    aReg := c.aReg (enArea w), aOff := c.enAddr w
    b := c.sReg w.b, b1 := c.sReg (w.b + 1), c := c.sReg w.c, c1 := c.sReg (w.c + 1) }

/-- A range at an address register: one that runs past the circular buffer takes in the whole buffer (R12, R194). -/
def Range.wrap (r : Range) (a : Word) : Range :=
  let w := 32 * areaMod a
  if w ≠ 0 && r.lo - r.lo % w + w < r.hi then { r with lo := r.lo - r.lo % w } else r

def readRange (a n : Nat) : Range := { lo := a, hi := a + n, write := false }
def writeRange (a n : Nat) : Range := { lo := a, hi := a + n, write := true }

/-- n bytes at the command's address register, read or written. -/
def Cmd.reads (c : Cmd) (n : Nat) : Range := (readRange c.aOff n).wrap c.aReg
def Cmd.writes (c : Cmd) (n : Nat) : Range := (writeRange c.aOff n).wrap c.aReg

/-- The slot of an EN word: its command with the ranges recorded at issue, and the advance of aA under AINC (R190,
R194). -/
def State.enRes (s : State) (i : Instr) (w : EWord) (faults : List (Cause × Word)) (ranges : List Range)
    (extra : List Effect) : SlotRes :=
  let c := s.ictx
  { faults := faults
    effects := (if w.fn.getLsbD 10 then [.act 1 (.setA (enArea w) (areaAdvance (c.aReg (enArea w)) (areaInc (c.aReg (enArea w)))))] else [])
      ++ .command { c.enCmd i w with ranges := ranges.map (·.wrap (c.aReg (enArea w))) } :: extra }

/-- The whole scratchpad, for a range not known at issue (R194). -/
def State.wholeRange (s : State) (write : Bool) : Range := { lo := 0, hi := spadSize s.issue.core s.icore.team, write := write }

/-- A command that reads a view descriptor: its address must be a multiple of 32 (R198). -/
def State.viewRes (s : State) (i : Instr) (w : EWord) (faults : List (Cause × Word)) (write : Bool) : SlotRes :=
  s.enRes i w (alignFaults 32 (s.ictx.enAddr w) ++ faults) [readRange (s.ictx.enAddr w) 128, s.wholeRange write] []

/-! ## Ends and faults -/

/-- The command's result is known; its word is written after the next latency (R195, R267). -/
def State.endCmd (s : State) (c : Cmd) (err : BitVec 7) (value : Nat) : State × Cmd :=
  let (d, s) := s.takeDelay
  (s, { c with state := .done, err := err, value := BitVec.ofNat 56 value, doneAt := s.cycle + d })

/-- A translation fault of a command: PAGE_NP parks it (R197), PAGE_RO ends it with ERR 0x08, a poisoned page table with 0x05, the
others with ERR 0x01, each reported (R271, R347, R353). -/
def State.cmdFault (s : State) (e : Eng) (c : Cmd) (asid : BitVec 8) (cause : Cause) (va : Nat) : State × Cmd :=
  match cause with
  | .pageNp =>
    (s.park (groupOf e.core) asid va .pageNp va (.command (e.ref c)) (some e.host)
    , { c with state := .parked .pageNp asid (va / 4096 * 4096) })
  | x => (s.record e.core x.code 0 c.baddr (BitVec.ofNat 64 (s.faultTval e.tlb asid x va)) []).endCmd c (faultErr x) c.moved

/-- The first poisoned word that n bytes at a physical address touch (R353). -/
def State.poisonIn (s : State) (a n : Nat) : Option Nat := s.poison.find? (fun p => p < a + n && a < p + 8)

/-- HBM_UE: a command that reads a poisoned location ends with ERR 0x05 (R353). -/
def State.poisonFault (s : State) (e : Eng) (c : Cmd) (pa : Nat) : State × Cmd :=
  (s.record e.core Cause.hbmUe.code 0 c.baddr (BitVec.ofNat 64 pa) []).endCmd c 0x05 c.moved

/-- The FP_EXC record of a command's conversions and sums, stamped with the EN bundle address (R123, R199). -/
def State.cmdExc (s : State) (e : Eng) (c : Cmd) : State := s.recordExc e.core c.baddr UnitCode.en.code c.exc false

/-- A command ends part way: with its ERR, its VAL the elements moved, and the record of what it converted (R123, R196). -/
def State.failCmd (s : State) (e : Eng) (c : Cmd) (err : BitVec 7) : State × Cmd := (s.cmdExc e c).endCmd c err c.moved

/-- Bytes of an address space read by a command: the bytes, or the fault. -/
inductive CmdRead
  | bytes (l : List Byte)
  | stop (c : Cmd)
  deriving DecidableEq, Repr

def State.cmdRead (s : State) (e : Eng) (c : Cmd) (asid : BitVec 8) (va n : Nat) : State × CmdRead :=
  match s.pieces e.tlb asid .read (pageParts (n / 4096 + 2) va n) with
  | (s, .error (x, a)) => let (s, c) := s.cmdFault e c asid x a; (s, .stop c)
  | (s, .ok l) =>
    match l.findSome? (fun p => s.poisonIn p.1 p.2.1) with
    | some pa => let (s, c) := s.poisonFault e c pa; (s, .stop c)
    | none => (s, .bytes ((l.map (fun p => memRead s.mem p.1 p.2.1)).flatten))

/-- The pieces of a range for writing, or the fault. -/
inductive CmdSpan
  | pieces (l : List (Nat × Nat × Bool))
  | stop (c : Cmd)
  deriving DecidableEq, Repr

def State.cmdSpan (s : State) (e : Eng) (c : Cmd) (asid : BitVec 8) (acc : Access) (va n : Nat) : State × CmdSpan :=
  match s.pieces e.tlb asid acc (pageParts (n / 4096 + 2) va n) with
  | (s, .error (x, a)) => let (s, c) := s.cmdFault e c asid x a; (s, .stop c)
  | (s, .ok l) => (s, .pieces l)

/-! ## The scratchpad as the engine sees it -/

def State.engPad (s : State) (e : Eng) (a n : Nat) : List Byte := memRead (s.homeTeam e.home).spad a n

/-- The engine writes the scratchpad; the bytes replaced are kept for a descriptor read of this cycle (R164). -/
def Team.engPut (t : Team) (a : Nat) (bs : List Byte) : Team :=
  { t with spad := memWrite t.spad a bs, undo := ((List.range bs.length).map (fun i => (a + i, memGet t.spad (a + i)))) ++ t.undo }

def State.engPadWrite (s : State) (e : Eng) (a : Nat) (bs : List Byte) : State := s.updHome e.home (fun t => t.engPut a bs)

/-! ## Writes of the copy engines, which the buckets count (R211) -/

/-- Bytes that two ranges share. -/
def overlapLen (a n b m : Nat) : Nat := min (a + n) (b + m) - max a b

/-- Count a write of n bytes at a physical address; a bucket that reaches its total fires (R211). -/
def State.countBuckets (s : State) (a n : Nat) : State :=
  if s.buckets = [] then s
  else
    let add (b : Bucket) : Nat := ((s.piecesNow b.asid b.src b.len).map (fun p => overlapLen a n p.1 p.2)).foldl (· + ·) 0
    let due := s.buckets.filter (fun p => !p.2.fired && p.2.counter < p.2.total && p.2.total ≤ p.2.counter + add p.2)
    { s with buckets := s.buckets.map (fun p => (p.1, { p.2 with counter := p.2.counter + add p.2 }))
             agenda := s.agenda ++ due.map (fun p => event .bucketFire (.bucket (BitVec.ofNat 9 p.1))) }

/-- A copy engine writes bytes at a physical address. -/
def State.engWrite (s : State) (a : Nat) (bs : List Byte) : State := (s.pwrite a bs).countBuckets a bs.length

/-! ## View descriptors (R198, R199) -/

/-- The number of n bytes at a place of a record. -/
def natAt (l : List Byte) (a n : Nat) : Nat := natOf ((l.drop a).take n)

structure View where
  base : Nat
  spad : Nat
  mty : BitVec 4
  sty : BitVec 4
  rnd : BitVec 2
  salt : Nat
  n : Vector Nat 4
  m : Vector Int 4
  st : Vector Int 4
  resv : Bool
  deriving DecidableEq, Repr

/-- A view from its 128 bytes. -/
def viewOf (b : List Byte) : View :=
  let w := natAt b 8 8
  let cnt (d : Nat) : Nat := natAt b (16 + 4 * d) 4
  let ms (d : Nat) : Int := (BitVec.ofNat 64 (natAt b (24 + 8 * d) 8)).toInt
  let ss (d : Nat) : Int := (BitVec.ofNat 32 (natAt b (52 + 4 * d) 4)).toInt
  { base := natAt b 0 7, spad := w % 2 ^ 24, mty := BitVec.ofNat 4 (w >>> 24), sty := BitVec.ofNat 4 (w >>> 28)
    rnd := BitVec.ofNat 2 (w >>> 32), salt := w >>> 34 % 256
    n := #v[cnt 0, cnt 1, cnt 2, cnt 3], m := #v[0, ms 1, ms 2, ms 3], st := #v[0, ss 1, ss 2, ss 3]
    resv := natAt b 7 1 != 0 || w >>> 42 != 0 || natAt b 68 12 != 0 }

def View.raw (v : View) : Bool := v.mty == 0
/-- Bytes of an element in memory and in the scratchpad. -/
def View.mw (v : View) : Nat := if v.mty = 0 then 1 else tyWidth v.mty / 8
def View.sw (v : View) : Nat := if v.sty = 0 then 1 else tyWidth v.sty / 8

/-- Is a field of the view invalid (R199)? -/
def View.bad (v : View) : Bool :=
  v.resv || v.n.toList.any (fun n => n == 0 || 2 ^ 24 < n) || ((v.mty == 0) != (v.sty == 0))
    || 12 ≤ v.mty.toNat || 12 ≤ v.sty.toNat
    || v.spad % 32 != 0 || v.st.toList.any (fun x => x % 32 != 0)
    || v.rnd == 3 || (v.rnd != 2 && v.salt != 0)

/-- Is BASE or an MSTR no multiple of the element (R199)? -/
def View.misaligned (v : View) (mw : Nat) : Bool := v.base % mw != 0 || v.m.toList.any (fun x => x % (mw : Int) != 0)

/-- The lowest and highest scratchpad byte of the view's elements of `sw` bytes. -/
def View.span (v : View) (sw : Nat) : Int × Int :=
  let far (d : Nat) : Int := v.st.toList.getD d 0 * ((v.n.toList.getD d 1 : Nat) - 1)
  let ds := [far 1, far 2, far 3]
  ((v.spad : Int) + (ds.map (fun x => min x 0)).foldl (· + ·) 0,
   (v.spad : Int) + (ds.map (fun x => max x 0)).foldl (· + ·) 0 + sw * v.n.toList.getD 0 1)

def View.outside (v : View) (sw size : Nat) : Bool := let (lo, hi) := v.span sw; lo < 0 || (size : Int) < hi

/-- The view's scratchpad range for the scoreboard (R194, R216). -/
def View.range (v : View) (sw : Nat) (write : Bool) : Range :=
  let (lo, hi) := v.span sw
  { lo := lo.toNat, hi := hi.toNat, write := write }

/-- Elements, and rows of dimension 0. -/
def View.count (v : View) : Nat := v.n.toList.foldl (· * ·) 1
def View.rows (v : View) : Nat := v.n.toList.tail.foldl (· * ·) 1

/-- Place numbers along dimensions 1 to 3 of a row. -/
def View.places (v : View) (r : Nat) : Nat × Nat × Nat :=
  let n1 := v.n.toList.getD 1 1
  let n2 := v.n.toList.getD 2 1
  (r % n1, r / n1 % n2, r / (n1 * n2))

def offsetBy (l : Vector Int 4) (p : Nat × Nat × Nat) : Int := l.toList.getD 1 0 * p.1 + l.toList.getD 2 0 * p.2.1 + l.toList.getD 3 0 * p.2.2

/-- Memory and scratchpad address of a row's first element (R199). -/
def View.rowMem (v : View) (r : Nat) : Nat := (((v.base : Int) + offsetBy v.m (v.places r)) % (2 ^ 56 : Nat)).toNat
def View.rowPad (v : View) (r : Nat) : Nat := ((v.spad : Int) + offsetBy v.st (v.places r)).toNat

/-- Consecutive elements of one row in one page: the number of the first, its memory and scratchpad address, and how many. -/
structure Part where
  at_ : Nat
  va : Nat
  spad : Nat
  n : Nat
  deriving DecidableEq, Repr

/-- The parts of a row of n elements, cut where pages meet. -/
def rowParts (at_ va spad mw sw n : Nat) : List Part :=
  (pageParts (mw * n / 4096 + 2) va (mw * n)).map (fun p =>
    let i := (p.1 - va) / mw
    { at_ := at_ + i, va := p.1 % 2 ^ 56, spad := spad + sw * i, n := p.2 / mw })

/-- The parts of a view, in the order its elements move. -/
def View.parts (v : View) (mw sw : Nat) : List Part :=
  ((List.range v.rows).map (fun r =>
    rowParts (r * v.n.toList.getD 0 1) (v.rowMem r) (v.rowPad r) mw sw (v.n.toList.getD 0 1))).flatten

/-- One element under the view's conversion from `src` to `dst` (R199): coordinates (i0, i1, i2, i3) for `.sr`. -/
def View.convert (v : View) (g : BitVec 32) (src dst : BitVec 4) (k x : Nat) : Nat × Exc :=
  if src = dst then (x, excNone)
  else
    let n0 := v.n.toList.getD 0 1
    let (i1, i2, i3) := v.places (k / n0)
    let mode : RMode := match v.rnd.toNat with
      | 0 => .rne
      | 1 => .rtz
      | _ => .sr ((noise (g.zeroExtend 64) v.salt [k % n0, i1, i2, i3]).toNat % 2 ^ 16)
    convertPat src dst mode x

/-- Bytes as elements of w bytes. -/
def elemsOf (w : Nat) (l : List Byte) : List Nat := (chunked w (l.length / max w 1) l).map natOf

/-- Elements k, k + 1, … converted: the bytes they become and the exceptions. -/
def View.convertAll (v : View) (g : BitVec 32) (src dst : BitVec 4) (sw dw k : Nat) (l : List Byte) : List Byte × ExcCount :=
  if src = dst then (l, ExcCount.zero)
  else
    let xs := elemsOf sw l
    let rs := (xs.zip (List.range xs.length)).map (fun p => v.convert g src dst (k + p.2) p.1)
    ((rs.map (fun r => bytesOf dw r.1)).flatten, countExc (rs.map (·.2)))

/-! ## The move of parts -/

/-- Elements lo to hi - 1 of a part, with the widths of an element in memory and in the scratchpad; none when it has none of
them. -/
def Part.clip (p : Part) (mw sw lo hi : Nat) : List Part :=
  let a := max lo p.at_
  let b := min hi (p.at_ + p.n)
  if b ≤ a then [] else [{ at_ := a, va := (p.va + mw * (a - p.at_)) % 2 ^ 56, spad := p.spad + sw * (a - p.at_), n := b - a }]

/-- Does byte i take the new value? Each byte as the free bytes choose (R193, R196); with `block`, the physical address of byte
0, each 64-byte block as a whole: on a TAGGED page (R276). -/
def takesNew (n : Nat) (block : Option Nat) (i : Nat) : Bool :=
  (Config.freeByte (2 * (match block with | some pa => n + 2 ^ 64 * (1 + (pa + i) / 64) | none => n + i))).getLsbD 0

/-- Each byte old or new. -/
def mixBytes (n : Nat) (block : Option Nat) (old new : List Byte) : List Byte :=
  ((old.zip new).zip (List.range new.length)).map (fun p => if takesNew n block p.2 then p.1.2 else p.1.1)

/-- How parts move: the access to memory, whether it reads there, the bytes of an element there and in the scratchpad, the
action on one part, and the place it writes. -/
structure Mover where
  acc : Access
  reads : Bool
  bytes : Nat
  pad : Nat
  act : State → Cmd → Part → Nat → State × Cmd
  old : State → Part → Nat → List Byte
  put : State → Part → Nat → List Byte → State

/-- The bytes that parts after a failure would have received are each old or new (R196); the buckets count those written (R211). -/
def State.leaveRest (s : State) (m : Mover) (e : Eng) (asid : BitVec 8) (c : Cmd) (l : List Part) : State :=
  let n := s.freeCtr
  l.foldl (fun s p =>
    match (s.translate e.tlb asid p.va m.acc).2 with
    | .ok (pa, tag) =>
      if m.reads && (s.poisonIn pa (m.bytes * p.n)).isSome then s
      else
        let was := m.old s p pa
        let new := m.old (m.act s c p pa).1 p pa
        let (n, block) := if tag && !m.reads then (n, some pa) else (s.freeCtr, none)
        let s := { m.put s p pa (mixBytes n block was new) with freeCtr := s.freeCtr + new.length }
        if m.reads then s
        else ((List.range new.length).filter (takesNew n block)).foldl (fun s i => s.countBuckets (pa + i) 1) s
    | .error _ => s) s

/-- What a stopped command leaves: after a failure the rest is old or new, byte by byte. -/
def State.stopAt (m : Mover) (e : Eng) (asid : BitVec 8) (l : List Part) (r : State × Cmd) : State × Cmd :=
  match r.2.state with
  | .done => (r.1.leaveRest m e asid r.2 l, r.2)
  | _ => r

/-- The lowest poisoned word that n bytes at a physical address touch (R353). -/
def State.firstPoison (s : State) (a n : Nat) : Option Nat :=
  (s.poison.filter (fun p => p < a + n && a < p + 8)).foldl (fun o p => match o with | some q => some (min p q) | none => some p) none

/-- Do two parts hold bytes of one 64-byte block? -/
def Part.sharesBlock (p q : Part) (mw : Nat) : Bool := p.va / 64 ≤ (q.va + mw * q.n - 1) / 64 && q.va / 64 ≤ (p.va + mw * p.n - 1) / 64

/-- How many parts of a list belong to the blocks of the first `n`: up to the last one that shares a block with one of them. -/
def tiedParts (mw : Nat) : Nat → List Part → Nat
  | 0, _ => 0
  | _, [] => 0
  | n + 1, p :: r =>
    1 + tiedParts mw (max n (((List.range r.length).zip r).foldl (fun k q => if p.sharesBlock q.2 mw then q.1 + 1 else k) 0)) r

/-- The part whose translation decides whether the first one moves: on a TAGGED page a block moves as one access, so every part
of it has to be there (R244, R276). -/
def State.firstFault (s : State) (m : Mover) (e : Eng) (asid : BitVec 8) (p : Part) (r : List Part) : Part :=
  match (s.translate e.tlb asid p.va m.acc).2 with
  | .ok (_, true) =>
    (((p :: r).take (tiedParts m.bytes 1 (p :: r))).find? (fun q =>
      match (s.translate e.tlb asid q.va m.acc).2 with | .error _ => true | .ok _ => false)).getD p
  | _ => p

/-- Apply the action to each part in order, translating it first; a fault stops the command there, and a poisoned word at the
element that reads it (R196, R197, R353). -/
def State.overParts (s : State) (m : Mover) (e : Eng) (asid : BitVec 8) : Cmd → List Part → State × Cmd
  | c, [] => (s, c)
  | c, p :: r =>
    let q := s.firstFault m e asid p r
    match s.translate e.tlb asid q.va m.acc with
    | (s, .error x) => State.stopAt m e asid (p :: r) (s.cmdFault e c asid x q.va)
    | (s, .ok (pa, _)) =>
      match (if m.reads then s.firstPoison pa (m.bytes * p.n) else none) with
      | some q =>
        let k := p.at_ + (q - pa) / m.bytes
        let (s, c) := (p.clip m.bytes m.pad 0 k).foldl (fun (x : State × Cmd) p => m.act x.1 x.2 p pa) (s, c)
        let rest := (List.range p.n).map (fun i => p.clip m.bytes m.pad (max k (p.at_ + i)) (p.at_ + i + 1))
        State.stopAt m e asid (rest.flatten ++ r) (s.poisonFault e { c with moved := k } q)
      | none =>
        let (s, c) := m.act s c p pa
        State.overParts s m e asid { c with moved := p.at_ + p.n } r

/-- Parts that are still to move. -/
def restParts (c : Cmd) (l : List Part) : List Part := l.filter (fun p => c.moved ≤ p.at_)

/-- Bytes read at a virtual address, those that the command keeps of a block as they were read with it (R276). -/
def Cmd.asKept (c : Cmd) (va : Nat) (bs : List Byte) : List Byte :=
  if c.kept = [] then bs
  else (bs.zip (List.range bs.length)).map (fun p => ((c.kept.find? (fun x => x.1 == va + p.2)).map (·.2)).getD p.1)

/-- Parts that move from memory to the scratchpad, each passed through `f` (part number, bytes read). -/
def moverIn (e : Eng) (mw sw : Nat) (f : Cmd → Nat → List Byte → List Byte × ExcCount) : Mover :=
  { acc := .read, reads := true, bytes := mw, pad := sw
    act := fun s c p pa =>
      let (bs, x) := f c p.at_ (c.asKept p.va (memRead s.mem pa (mw * p.n)))
      (s.engPadWrite e p.spad bs, { c with exc := c.exc.add x })
    old := fun s p _ => s.engPad e p.spad (sw * p.n)
    put := fun s p _ bs => s.engPadWrite e p.spad bs }

/-- Parts that move from the scratchpad to memory. -/
def moverOut (e : Eng) (mw sw : Nat) (f : Cmd → Nat → List Byte → List Byte × ExcCount) : Mover :=
  { acc := .write, reads := false, bytes := mw, pad := sw
    act := fun s c p pa =>
      let (bs, x) := f c p.at_ (s.engPad e p.spad (sw * p.n))
      (s.engWrite pa bs, { c with exc := c.exc.add x })
    old := fun s p pa => memRead s.mem pa (mw * p.n)
    put := fun s _ pa bs => s.pwrite pa bs }

/-- The move of a view in either direction with its conversion (R199). -/
def View.mover (v : View) (e : Eng) (out : Bool) : Mover :=
  if out then moverOut e v.mw v.sw (fun c k l => v.convertAll c.g v.sty v.mty v.sw v.mw k l)
  else moverIn e v.mw v.sw (fun c k l => v.convertAll c.g v.mty v.sty v.mw v.sw k l)

/-- A command that still runs ends with success. -/
def State.succeed (s : State) (e : Eng) (c : Cmd) (value : Nat) : State × Cmd :=
  let s := match c.state with | .parked _ _ _ => s | _ => s.cmdExc e c
  match c.state with
  | .queued => s.endCmd c 0 value
  | _ => (s, c)

/-! ## TAGGED pages (R276) -/

/-- Is every byte of the 64-byte block at `a` moved by some part? -/
def blockCovered (mw : Nat) (ps : List Part) (a : Nat) : Bool :=
  (List.range 64).all (fun i => ps.any (fun p => p.va ≤ a + i && a + i < p.va + mw * p.n))

/-- A copy fails when a TAGGED page meets a typed view or a block that is not moved whole. A page that is not present shows
its tag when it is (log 160). -/
def State.taggedBad (s : State) (e : Eng) (asid : BitVec 8) (acc : Access) (typed : Bool) (mw : Nat) (ps : List Part) : Bool :=
  ps.any (fun p =>
    match (s.translate e.tlb asid p.va acc).2 with
    | .ok (_, true) => typed || !(blockCovered mw ps (p.va / 64 * 64) && blockCovered mw ps ((p.va + mw * p.n - 1) / 64 * 64))
    | _ => false)

/-! ## When a command may start -/

def Range.clash (a b : Range) : Bool := (a.write || b.write) && a.lo < b.hi && b.lo < a.hi

/-- The commands of a team before one of its commands. -/
def cmdsBefore (id : Nat) : List Cmd → List Cmd
  | [] => []
  | x :: r => if x.id == id then [] else x :: cmdsBefore id r

/-- The order of an `ATOM`: 2 `.rel` and 3 `.ar` release (R206). -/
def atomWord : Instr → Option EWord
  | .atomAdd w | .atomMin w | .atomMax w | .atomXchg w | .atomCas w => some w
  | _ => none

/-- Does a releasing `ATOM` wait for an off-core access that its context issued before, whatever the scope (R206)? -/
def releaseWaits (c : Cmd) (before : List Cmd) : Bool :=
  match atomWord c.instr with
  | some w => 2 ≤ w.order.toNat && before.any (fun x => x.ctx == c.ctx && x.q < 8 && !x.performed && usesEn x.instr)
  | none => false

/-- Every outstanding command with its home. -/
def State.allCmds (s : State) : List (CmdHome × Cmd) :=
  (allCores.map (fun c => ((s.coreAt c).team.cmds).map (fun x => (CmdHome.core c, x)))).flatten
    ++ (s.tasks.map (fun t => ((t.frames.zip (List.range t.frames.length)).map (fun p =>
      (p.1.cmds).map (fun x => (CmdHome.frame t.id p.2, x)))).flatten)).flatten

/-- Does the command take a walker slot of its cluster for its run (R313)? -/
def takesSlot : Instr → Bool
  | .kvld _ | .kvapp _ | .attn _ => true
  | _ => false

/-- Does it hold one now: has it begun, and not ended? -/
def holdsSlot (c : Cmd) : Bool :=
  takesSlot c.instr && (match c.state with | .queued => c.seqs != [] | .done => false | _ => true)

def walkerSlots : Nat := 8

/-- Is a walker slot of the core's cluster free for a command (R313)? The slot of a saved team's command is one of the cluster
from which it was issued. -/
def State.slotFree (s : State) (x : Fin 208) (c : Cmd) : Bool :=
  let used (l : List Cmd) : Nat := (l.filter (fun d => d.id != c.id && holdsSlot d)).length
  ((allCores.filter (fun y => s.clusterOf y == s.clusterOf x)).map (fun y => used (s.coreAt y).team.cmds)).foldl (· + ·) 0
    + used ((s.tasks.map (fun t => (t.frames.map (fun f => f.cmds.filter (fun d => s.clusterOf d.by_ == s.clusterOf x))).flatten)).flatten)
    < walkerSlots

/-- May a command start (R83, R192, R193, R194, R195, R206, R313)? `true_` are its ranges as its descriptor gives them. -/
def State.mayStart (s : State) (h : CmdHome) (c : Cmd) (true_ : List Range) : Bool :=
  let before := cmdsBefore c.id (s.homeTeam h).cmds
  c.q == 8
  || (c.state == .queued && c.readyAt ≤ s.cycle && c.storesBy ≤ s.cycle
      && (match h with | .core x => c.q != 4 || s.slotFree x c | .frame _ _ => !recordsRange c.instr && (c.q != 4 || s.slotFree c.by_ c))
      && !before.any (fun x => x.q == c.q && holdsEntry x)
      && c.after.all (fun i => !before.any (fun x => x.id == i && x.state != .done))
      && !releaseWaits c before
      && !(before.any (fun x => x.ranges.any (fun a => true_.any (fun b => a.clash b)))))

end Sys2Proof.Machine
end

