-- ==== Sys2Proof/Machine/Atomic.lean ====
section
/-! DEFINITION. Remote atomics (R205 to R207, R372): the words `ATOM` and `ATOMK`, what the memory controller does, and
the runs of their commands. -/

namespace Sys2Proof.Machine

/-! ## The words -/

/-- TYPE, OP and RET of `ATOM`. -/
def atomTy (w : EWord) : BitVec 4 := w.fn.extractLsb' 3 4
def atomOp (w : EWord) : BitVec 3 := w.fn.extractLsb' 0 3
def atomRet (w : EWord) : Bool := w.fn.getLsbD 7

/-- Bytes of the element. -/
def atomLen (w : EWord) : Nat := sWidth (atomTy w) / 8

/-- R190, R205, R253: the range of the old value is recorded when RET = 1. -/
def State.atomRes (s : State) (i : Instr) (w : EWord) : SlotRes :=
  s.enRes i w [] (if atomRet w then [writeRange (s.ictx.enAddr w) (atomLen w)] else []) []

def execAtomAdd (w : EWord) (s : State) : Host.Outcome State Fault Refusal := .next (s.slot (.atomAdd w) w.hd (s.atomRes (.atomAdd w) w))
def execAtomMin (w : EWord) (s : State) : Host.Outcome State Fault Refusal := .next (s.slot (.atomMin w) w.hd (s.atomRes (.atomMin w) w))
def execAtomMax (w : EWord) (s : State) : Host.Outcome State Fault Refusal := .next (s.slot (.atomMax w) w.hd (s.atomRes (.atomMax w) w))
def execAtomXchg (w : EWord) (s : State) : Host.Outcome State Fault Refusal := .next (s.slot (.atomXchg w) w.hd (s.atomRes (.atomXchg w) w))
def execAtomCas (w : EWord) (s : State) : Host.Outcome State Fault Refusal := .next (s.slot (.atomCas w) w.hd (s.atomRes (.atomCas w) w))

/-- FP32 values of the row (R207). -/
def atomkLen (w : EWord) : Nat := 32 * (w.fn.toNat % 256 + 1)

/-- R190, R207. -/
def execAtomk (w : EWord) (s : State) : Host.Outcome State Fault Refusal :=
  .next (s.slot (.atomk w) w.hd (s.enRes (.atomk w) w [] [readRange (s.ictx.enAddr w) (4 * atomkLen w)] []))

/-! ## At the memory controller -/

/-- One read-modify-write at a physical address: the old value and the exceptions (R205, R245). -/
def State.atomAt (s : State) (pa : Nat) (op : BitVec 3) (ty : BitVec 4) (x y : Word) : State × Nat × Exc :=
  let w := sWidth ty
  let old := memNat s.mem pa (w / 8)
  let (new, e) := amoNew op ty old (x.toNat % 2 ^ w) (y.toNat % 2 ^ w)
  (s.pwrite pa (bytesOf (w / 8) new), old, e)

/-- What `ATOMK` finds at its home row. -/
inductive AtomkEnd
  | keyBad
  | duplicate
  | added (x : ExcCount)
  deriving DecidableEq, Repr

/-- The data after a row is added, and the exceptions. -/
def addRow (data : List Byte) (row : List (BitVec 32)) : List Byte × List Exc :=
  let rs := (elemsOf 4 data).zip row |>.map (fun p =>
    let (v, x) := fAdd (fp32.decode p.1) (fp32.decode p.2.toNat)
    let (q, y) := fp32.deliver .rne v
    (bytesOf 4 q, x.or y))
  ((rs.map (·.1)).flatten, rs.map (·.2))

/-- The bytes of the pieces of a range. -/
def State.piecesRead (s : State) (l : List (Nat × Nat × Bool)) : List Byte := (l.map (fun p => memRead s.mem p.1 p.2.1)).flatten

/-- R207 on the record in the pieces given: the header's KEY and MASK, then the sum. A duplicate appends its record at
the stack group that owns the header. -/
def State.atomkAt (s : State) (l : List (Nat × Nat × Bool)) (addr : Nat) (baddr : BitVec 56) (key : Word) (row : List (BitVec 32)) :
    State × AtomkEnd :=
  let b := s.piecesRead l
  let slot := (key.extractLsb' 32 3).toNat
  let mask := (b.headD 0)
  if natAt b 4 4 ≠ key.toNat % 2 ^ 32 then (s, .keyBad)
  else if mask.getLsbD slot then
    let g := stackOf ((l.map (·.1)).headD 0)
    (s.recordAt g (32 * g.val + 31) Cause.atomkDup.code (key.extractLsb' 0 35 |>.zeroExtend 45) baddr (BitVec.ofNat 64 addr) [], .duplicate)
  else
    let (d, xs) := addRow (b.drop 64) row
    (s.writePieces l ((mask ||| BitVec.ofNat 8 (2 ^ slot)) :: (b.take 64).tail ++ d), .added (countExc xs))

/-- Does a range hold a TAGGED page (R276)? -/
def taggedAny (l : List (Nat × Nat × Bool)) : Bool := l.any (fun p => p.2.2)

/-- The first poisoned word of pieces. -/
def State.poisonPieces (s : State) (l : List (Nat × Nat × Bool)) : Option Nat := l.findSome? (fun p => s.poisonIn p.1 p.2.1)

/-! ## The target (R205, R360) -/

inductive Target
  | here
  | peer (endpoint : Nat)
  /-- outside the domain -/
  | none
  deriving DecidableEq, Repr

/-- The target device at `.dom` (SCOPE 4), this device at every other scope. -/
def State.atomTarget (s : State) (scope : BitVec 3) (device : Word) : Target :=
  if scope ≠ 4 then .here
  else match storeFind s.domain (device.toNat % 2 ^ 14) with
    | some ep => if device.toNat % 2 ^ 14 = s.device.toNat then .here else .peer ep.toNat
    | none => .none

/-- The end of an `ATOM`: the old value goes to the scratchpad with RET, its low 56 bits to VAL (R205). -/
def State.endAtom (s : State) (e : Eng) (c : Cmd) (w : EWord) (old : Nat) : State × Cmd :=
  let s := if atomRet w then s.engPadWrite e c.aOff (bytesOf (atomLen w) old) else s
  (s.cmdExc e c).endCmd c 0 old

/-- R205. -/
def State.runAtom (s : State) (e : Eng) (c : Cmd) (w : EWord) : State × Cmd :=
  let a := c.b.toNat % 2 ^ 56
  if 2 ^ 56 ≤ c.b.toNat || (w.scope = 4 && 2 ^ 14 ≤ c.b1.toNat) then s.endCmd c 0x02 0
  else if a % atomLen w ≠ 0 then s.endCmd c 0x04 0
  else if atomRet w && e.size < c.aOff + atomLen w then s.endCmd c 0x03 0
  else match s.atomTarget w.scope c.b1 with
    | .none => s.endCmd c 0x20 0
    | .peer ep => (s.send (.fabric ep (some (e.ref c)) (.atom e.asid a (atomOp w) (atomTy w) c.c c.c1)), { c with state := .waiting, aux := ep })
    | .here =>
      match s.cmdSpan e c e.asid .write a (atomLen w) with
      | (s, .stop c) => (s, c)
      | (s, .pieces l) =>
        if taggedAny l then s.endCmd c 0x08 0
        else match s.poisonPieces l with
          | some q => s.poisonFault e c q
          | none =>
            let (s, old, x) := s.atomAt ((l.map (·.1)).headD 0) (atomOp w) (atomTy w) c.c c.c1
            s.endAtom e { c with exc := countExc [x] } w old

/-- The row that `ATOMK` reads from the scratchpad. -/
def State.atomkRow (s : State) (e : Eng) (c : Cmd) (w : EWord) : List (BitVec 32) :=
  (elemsOf 4 (s.engPad e c.aOff (4 * atomkLen w))).map (fun x => BitVec.ofNat 32 x)

/-- R207, R372. -/
def State.runAtomk (s : State) (e : Eng) (c : Cmd) (w : EWord) : State × Cmd :=
  let a := c.b.toNat % 2 ^ 56
  if 2 ^ 56 ≤ c.b.toNat || 2 ^ 35 ≤ c.c.toNat || (w.scope = 4 && 2 ^ 14 ≤ c.b1.toNat) then s.endCmd c 0x02 0
  else if a % 64 ≠ 0 then s.endCmd c 0x04 0
  else if e.size < c.aOff + 4 * atomkLen w then s.endCmd c 0x03 0
  else match s.atomTarget w.scope c.b1 with
    | .none => s.endCmd c 0x20 0
    | .peer ep => (s.send (.fabric ep (some (e.ref c)) (.atomk e.asid a c.c (s.atomkRow e c w))), { c with state := .waiting, aux := ep })
    | .here =>
      match s.cmdSpan e c e.asid .write a (64 + 4 * atomkLen w) with
      | (s, .stop c) => (s, c)
      | (s, .pieces l) =>
        if taggedAny l then s.endCmd c 0x08 0
        else match s.poisonPieces l with
          | some q => s.poisonFault e c q
          | none =>
            match s.atomkAt l a c.baddr c.c (s.atomkRow e c w) with
            | (s, .keyBad) => (s.record e.core Cause.atomkKey.code 0 c.baddr (BitVec.ofNat 64 a) []).endCmd c 0x28 0
            | (s, .duplicate) => s.endCmd c 0 1
            | (s, .added x) => let c := { c with exc := x }; (s.cmdExc e c).endCmd c 0 0

/-- The exceptions of a row's sums, as a peer's answer to `ATOMK` carries them: four counts of 32 bits (log 66). -/
def excBytes (x : ExcCount) : List Byte := bytesOf 4 x.inv ++ bytesOf 4 x.ovf ++ bytesOf 4 x.unf ++ bytesOf 4 x.inx

def excOf (b : List Byte) : ExcCount := { inv := natAt b 0 4, ovf := natAt b 4 4, unf := natAt b 8 4, inx := natAt b 12 4 }

/-- The answer of a peer to an `ATOM` or `ATOMK`: ERR 0x06 is reported with FABRIC_FAIL, 0x28 with ATOMK_KEY (R359,
R207). The exceptions of the sums made there are recorded here, with the command's bundle address (R123, R205). -/
def State.peerAnswer (s : State) (e : Eng) (c : Cmd) (err : BitVec 7) (value : BitVec 56) (data : List Byte) : State × Cmd :=
  if err = 0x06 then (s.record e.core Cause.fabricFail.code 0 c.baddr (BitVec.ofNat 64 c.aux) []).endCmd c err 0
  else if err = 0x28 then (s.record e.core Cause.atomkKey.code 0 c.baddr (BitVec.ofNat 64 (c.b.toNat % 2 ^ 56)) []).endCmd c err 0
  else if err ≠ 0 then s.endCmd c err 0
  else match atomWord c.instr with
    | some w =>
      let old := natOf (data.take (atomLen w))
      let x := (amoNew (atomOp w) (atomTy w) old (c.c.toNat % 2 ^ sWidth (atomTy w)) (c.c1.toNat % 2 ^ sWidth (atomTy w))).2
      s.endAtom e { c with exc := countExc [x] } w old
    | none => let c := { c with exc := excOf data }; (s.cmdExc e c).endCmd c 0 value.toNat

end Sys2Proof.Machine
end

