-- ==== Sys2Proof/Machine/Collective.lean ====
section
/-! DEFINITION. Queue 5 and queue 7 commands that meet other devices or later events: collectives (R208 to R210, R368 to
R370, R376), gradient buckets (R211, R212), votes (R94, R336), the sparse-index engine (R213, R214) and replica commits
(R215, R373). -/

namespace Sys2Proof.Machine

/-! ## The words (R190) -/

/-- A command that names a descriptor of n bytes at aA; `whole` are the accesses not known at issue (R194). -/
def State.descRes (s : State) (i : Instr) (w : EWord) (n : Nat) (whole : List Bool) : SlotRes :=
  s.enRes i w [] (readRange (s.ictx.enAddr w) n :: whole.map s.wholeRange) []

def execCollAR (w : EWord) (s : State) : Host.Outcome State Fault Refusal :=
  .next (s.slot (.collAR w) w.hd (s.descRes (.collAR w) w 32 [true]))
def execCollRS (w : EWord) (s : State) : Host.Outcome State Fault Refusal :=
  .next (s.slot (.collRS w) w.hd (s.descRes (.collRS w) w 32 [true]))
def execCollAG (w : EWord) (s : State) : Host.Outcome State Fault Refusal :=
  .next (s.slot (.collAG w) w.hd (s.descRes (.collAG w) w 32 [true]))
def execCollA2A (w : EWord) (s : State) : Host.Outcome State Fault Refusal :=
  .next (s.slot (.collA2A w) w.hd (s.descRes (.collA2A w) w 32 [true]))
def execBkset (w : EWord) (s : State) : Host.Outcome State Fault Refusal :=
  .next (s.slot (.bkset w) w.hd (s.descRes (.bkset w) w 32 []))
def execKick (w : EWord) (s : State) : Host.Outcome State Fault Refusal :=
  .next (s.slot (.kick w) w.hd (s.enRes (.kick w) w [] [] []))
def execSidx (w : EWord) (s : State) : Host.Outcome State Fault Refusal :=
  .next (s.slot (.sidx w) w.hd (s.descRes (.sidx w) w 32 []))
def execRtabCommit (w : EWord) (s : State) : Host.Outcome State Fault Refusal :=
  .next (s.slot (.rtabCommit w) w.hd (s.enRes (.rtabCommit w) w [] [] []))

/-! ## Collective descriptors (R208, R209) -/

/-- A collective: descriptor fields with the command (0 AR, 1 RS, 2 AG, 3 A2A) and OP (0 add, 1 max, 2 min). -/
structure CollDesc where
  src : Nat
  dst : Nat
  count : Nat
  ty : BitVec 4
  ssp : Bool
  dsp : Bool
  group : BitVec 32
  cmd : BitVec 2
  op : BitVec 2
  bad : Bool
  deriving DecidableEq, Repr

def collTypeOk (t : BitVec 4) : Bool := t == 0 || t == 3 || t == 6 || t == 7 || t == 8

/-- The descriptor of a `COLL` word, or with `bucket` that of a `BKSET`, which names its own command and OP (R211). -/
def collDesc (b : List Byte) (bucket : Bool) (cmd op : BitVec 2) : CollDesc :=
  let x := natAt b 20 4
  let resv : Nat := natAt b 7 1 + natAt b 15 1 + natAt b 28 4 + (x &&& (if bucket then 0xFFF33CF0 else 0xFFFFFCF0)) % 2 ^ 32
  let kind := x >>> 14 % 4
  let bop := x >>> 18 % 4
  { src := natAt b 0 7, dst := natAt b 8 7, count := natAt b 16 4, ty := BitVec.ofNat 4 x
    ssp := x.testBit 8, dsp := x.testBit 9, group := BitVec.ofNat 32 (natAt b 24 4)
    cmd := if bucket then BitVec.ofNat 2 kind else cmd, op := if bucket then BitVec.ofNat 2 bop else op
    bad := resv != 0 || natAt b 16 4 == 0 || 2 ^ 28 < natAt b 16 4 || !collTypeOk (BitVec.ofNat 4 x)
      || (bucket && (2 ≤ kind || bop == 3 || x.testBit 8)) }

def collTy (t : BitVec 4) : BitVec 4 := if t = 0 then 7 else t
def CollDesc.w (d : CollDesc) : Nat := tyWidth (collTy d.ty) / 8

/-- Bytes of SRC and of DST in a group of p members (R209). -/
def CollDesc.srcLen (d : CollDesc) (p : Nat) : Nat := d.w * d.count * (if d.cmd = 1 || d.cmd = 3 then p else 1)
def CollDesc.dstLen (d : CollDesc) (p : Nat) : Nat := d.w * d.count * (if d.cmd = 2 || d.cmd = 3 then p else 1)

/-- The descriptor of a command that has read it; `BKSET` names its own command. -/
def cmdColl (c : Cmd) : CollDesc :=
  let b := c.blob.take 32
  match c.instr with
  | .collAR w => collDesc b false 0 (w.fn.extractLsb' 0 2)
  | .collRS w => collDesc b false 1 (w.fn.extractLsb' 0 2)
  | .collAG _ => collDesc b false 2 0
  | .collA2A _ => collDesc b false 3 0
  | _ => collDesc b true 0 0

/-- The bucket of a `BKSET`. -/
def cmdBucket (c : Cmd) : Option (BitVec 9) := match c.instr with | .bkset _ => some (c.b.extractLsb' 0 9) | _ => none

def State.collGroup (s : State) (g : BitVec 32) : Option CollGroup := s.collGroups.find? (fun x => x.handle == g)

/-- The endpoints of members, one more than each, 0 for an index outside the domain. -/
def State.endpointsOf (s : State) (l : List Nat) : List Nat := l.map (fun i => ((storeFind s.domain i).map (fun e => e.toNat + 1)).getD 0)

/-- Send a message to every other member of a group at its endpoint; a member outside the domain cannot be reached, and its index
stands for the endpoint it does not have. -/
def State.tellMembers (s : State) (members eps : List Nat) (by_ : Option CmdRef) (m : FabMsg) : State :=
  (members.zip eps).foldl (fun s p =>
    if p.1 = s.device.toNat then s
    else if p.2 ≠ 0 then s.send (.fabric (p.2 - 1) by_ m)
    else s.now (event .messageUndeliverable (match m, by_ with
        | .vote h _ _, _ => .lost (.vote h)
        | _, some r => .lost (.command r p.1)
        | _, none => .none))) s

/-! ## Matching (R210, R370) -/

def CollPart.sameAs (a b : CollPart) : Bool := a.group == b.group && a.bucket == b.bucket && a.arming == b.arming

/-- The number of a part's collective, which every member forms alike (R377). -/
def CollPart.key (p : CollPart) : Nat :=
  p.group.toNat + 2 ^ 32 * ((p.bucket.map (fun b => b.toNat + 1)).getD 0) + 2 ^ 42 * p.arming

/-- The first part of a member under a group and bucket. -/
def partOf (l : List CollPart) (k : CollPart) (member : Nat) : Option CollPart :=
  l.find? (fun p => p.sameAs k && p.member == member)

/-- Remove the first part that equals one. -/
def dropPart (l : List CollPart) (p : CollPart) : List CollPart := l.erase p

/-- A sum in FP32 of the summands left: at each step two of them, as the order given picks them, make a partial sum by `rne`
(R121, R209). The first argument counts the steps left. -/
def sumInOrder (pick : Nat → Nat) : Nat → List Nat → Exc → Nat × Exc
  | 0, l, e => (l.headD 0, e)
  | n + 1, l, e =>
    let i := pick (2 * n) % l.length
    let r := l.eraseIdx i
    let j := pick (2 * n + 1) % r.length
    let (v, x) := fAdd (fp32.decode (l.getD i 0)) (fp32.decode (r.getD j 0))
    let (p, y) := fp32.deliver .rne v
    sumInOrder pick n (p :: r.eraseIdx j) (e.or (x.or y))

/-- A reduced element of the members' patterns (R121, R209): integers wrap, `max` and `min` are exact, and a float sum is
formed in a free order and rounded once to TYPE (log 7). -/
def reduceElem (pick : Nat → Nat) (op : BitVec 2) (ty : BitVec 4) (xs : List Nat) : Nat × Exc :=
  let w := tyWidth ty
  let f32 (x : Nat) : Nat := fp32.exact (valOf ty x)
  if tyInt ty then
    let v (x : Nat) : Int := intOf w (tySigned ty) x
    match xs with
    | [] => (0, excNone)
    | x :: r =>
      if op = 0 then (r.foldl (fun a b => (a + b) % 2 ^ w) x, excNone)
      else if op = 1 then (r.foldl (fun a b => if v a < v b then b else a) x, excNone)
      else (r.foldl (fun a b => if v b < v a then b else a) x, excNone)
  else match xs with
    | [] => (0, excNone)
    | [x] => (x, excNone)
    | x :: r =>
      if op ≠ 0 then
        r.foldl (fun a b => let (v, e) := fMinMax (op == 1) (valOf ty a.1) (valOf ty b); (deliverTy ty .rne v |>.1, a.2.or e)) (x, excNone)
      else
        let (p, e) := sumInOrder pick r.length (xs.map f32) excNone
        let (q, e') := deliverTy ty .rne (fp32.decode p)
        (q, e.or e')

/-- What DST receives: the parts in rank order and this device's rank m (R209). With one member nothing is reduced
(R369). `id` numbers the collective, alike on every member, and each element of the reduction has its order of addition (R377). -/
def collResult (id : Nat) (d : CollDesc) (m : Nat) (parts : List (List Byte)) : List Byte × ExcCount :=
  let n := d.w * d.count
  match d.cmd.toNat with
  | 2 => ((parts.map (fun l => l.take n)).flatten, ExcCount.zero)
  | 3 => ((parts.map (fun l => (l.drop (n * m)).take n)).flatten, ExcCount.zero)
  | k =>
    let own (l : List Byte) : List Nat := elemsOf d.w (if k = 1 then (l.drop (n * m)).take n else l.take n)
    let es := parts.map own
    let rs := (List.range d.count).map (fun i => reduceElem (Config.sumOrder id (if k = 1 then m * d.count + i else i)) d.op (collTy d.ty) (es.map (fun l => l.getD i 0)))
    ((rs.map (fun r => bytesOf d.w r.1)).flatten, countExc (rs.map (·.2)))

/-- `n` free bytes (log 11). -/
def State.freeBytes (s : State) (n : Nat) : State × List Byte :=
  ({ s with freeCtr := s.freeCtr + n }, (List.range n).map (fun i => Config.freeByte (2 * (s.freeCtr + i))))

/-- A bucket is unarmed when its collective ends (R211). -/
def State.dropBucket (s : State) (c : Cmd) : State :=
  match cmdBucket c with
  | some b => if c.aux = 0 then s else { s with buckets := storePut s.buckets b.toNat none }
  | none => s

/-- VAL: COUNT, or the counter of the bucket (R209, R211). -/
def State.collValue (s : State) (c : Cmd) : Nat :=
  match cmdBucket c with
  | some b => ((storeFind s.buckets b.toNat).map (·.counter)).getD 0
  | none => (cmdColl c).count

def State.endColl (s : State) (e : Eng) (c : Cmd) (err : BitVec 7) : State × Cmd :=
  let v := if err = 0 || (cmdBucket c).isSome then s.collValue c else 0
  let s := s.dropBucket c
  let (s, c) := s.endCmd c err v
  (s.cmdExc e c, c)

/-- A fault or poisoned data ends a collective: its reduction's exceptions are recorded all the same (R123), and the bucket of a
fired one is disarmed, with its counter for VAL (R211). -/
def State.stopColl (s : State) (e : Eng) (c : Cmd) : State × Cmd :=
  match c.state with
  | .done =>
    let (s, c) := if (cmdBucket c).isSome then (s.dropBucket c, { c with value := BitVec.ofNat 56 (s.collValue c) }) else (s, c)
    (s.cmdExc e c, c)
  | _ => (s, c)

/-- Does a range of the command's space hold a TAGGED page (R276)? -/
def State.taggedIn (s : State) (e : Eng) (acc : Access) (a n : Nat) : Bool :=
  (pageParts (n / 4096 + 2) a n).any (fun p => match (s.translate e.tlb e.asid p.1 acc).2 with | .ok (_, t) => t | .error _ => false)

/-- Write DST: in the scratchpad when the team is on its core, else in memory, where a fault parks (R195, R197, R209), and a
TAGGED page is not written (R276, log 70). `aux` 2 says that the result stands in the blob. -/
def State.collDeliver (s : State) (e : Eng) (c : Cmd) : State × Cmd :=
  let d := cmdColl c
  let data := c.blob.drop 32
  if d.dsp then
    match e.home with
    | .core _ => (s.engPadWrite e d.dst data).endColl e c 0
    | .frame _ _ => (s, c)
  else match s.cmdSpan e c e.asid .write d.dst data.length with
    | (s, .stop c) => s.stopColl e c
    | (s, .pieces l) => if taggedAny l then s.endColl e c 0x02 else (s.writePieces l data).endColl e c 0

/-- After a failure of a matched collective DST is unspecified (R210, R356). -/
def State.collSpoil (s : State) (e : Eng) (c : Cmd) (p : Nat) : State :=
  let d := cmdColl c
  let (s, bs) := s.freeBytes (d.dstLen p)
  if d.dsp then s.engPadWrite e d.dst bs
  else match s.cmdSpan e c e.asid .write d.dst bs.length with
    | (t, .pieces l) => t.writePieces l bs
    | _ => s

/-- The matched collective of this device ends, or its result is delivered (R209, R210). -/
def State.collEnd (s : State) (r : CmdRef) (g : CollGroup) (parts : List CollPart) : State :=
  match s.findCmd r with
  | none => s
  | some (h, c) =>
    let e := s.eng r h
    let own := parts.getD g.rank { own := none, group := 0, bucket := none, member := 0, cmd := 0, op := 0, ty := 0, count := 0, data := [], arming := 0, failed := true }
    let fail (err : BitVec 7) : State :=
      let s := s.record e.core Cause.collFail.code 0 c.baddr (g.handle.zeroExtend 64) []
      let s := s.collSpoil e c g.members.length
      let (s, c) := s.endColl e c err
      s.putCmdAt h c
    if parts.any (·.failed) then fail 0x31
    else if parts.any (fun p => p.count != own.count || collTy p.ty != collTy own.ty || p.cmd != own.cmd || p.op != own.op) then fail 0x32
    else
      let (bs, x) := collResult own.key (cmdColl c) g.rank (parts.map (·.data))
      let c := { c with blob := c.blob.take 32 ++ bs, aux := 2, exc := x, state := .waiting }
      let s := s.putCmdAt h c
      let (s, c) := s.collDeliver e c
      s.putCmdAt h c

/-- Match what can be matched for the group and bucket of a part. -/
def State.collMatch (s : State) (k : CollPart) : State :=
  match s.collGroup k.group with
  | none => s
  | some g =>
    let ps := g.members.map (partOf s.collParts k)
    if ps.any (·.isNone) then s
    else
      let ps := ps.filterMap id
      let s := { s with collParts := ps.foldl dropPart s.collParts }
      match (ps.getD g.rank k).own with
      | some r => s.collEnd r g ps
      | none => s

/-- Match until nothing more matches; every match uses up a part of this device. -/
def State.collSettle (s : State) : State :=
  s.collParts.foldl (fun s k => s.collMatch k) s

/-- Which arming of its bucket a command is, or which collective of this device on its group (R210, R370). -/
def State.armingOf (s : State) (c : Cmd) : Nat :=
  match cmdBucket c with
  | some b => ((storeFind s.buckets b.toNat).map (·.arming)).getD 0
  | none => c.g.toNat

/-- A collective reaches the engine, its descriptor read: it is the next one on its group (R210), and its members are told at the
endpoints that they have now (R360). A bucket's has its arming for a number. -/
def State.enterColl (s : State) (c : Cmd) : State × Cmd :=
  match s.collGroup (cmdColl c).group with
  | none => (s, c)
  | some g =>
    let c := { c with got := s.endpointsOf g.members }
    if (cmdBucket c).isSome then (s, c)
    else ({ s with collGroups := s.collGroups.map (fun x => if x.handle == g.handle then { x with joined := x.joined + 1 } else x) }
      , { c with g := BitVec.ofNat 32 (g.joined + 1) })

/-- This device's part joins, and the members are told (R210). -/
def State.joinColl (s : State) (c : Cmd) (r : CmdRef) (g : CollGroup) (d : CollDesc) (data : List Byte) : State :=
  let p : CollPart := { own := some r, group := g.handle, bucket := cmdBucket c, member := s.device.toNat, cmd := d.cmd, op := d.op
                        ty := d.ty, count := d.count, data := data, arming := s.armingOf c, failed := false }
  let s := { s with collParts := s.collParts ++ [p] }
  s.tellMembers g.members c.got (some r) (.coll g.handle p.bucket s.device.toNat d.cmd d.op d.ty d.count data p.arming)

/-- A member that fails before it joins: the others end with ERR 0x31 (R210, R376). -/
def State.failColl (s : State) (c : Cmd) (group : BitVec 32) : State :=
  match s.collGroup group with
  | none => s
  | some g =>
    let p : CollPart := { own := none, group := group, bucket := cmdBucket c, member := s.device.toNat, cmd := 0, op := 0, ty := 0
                          count := 0, data := [], arming := s.armingOf c, failed := true }
    { s with collParts := s.collParts ++ [p] }.tellMembers g.members c.got none (.collFail group p.bucket s.device.toNat p.arming)

/-- Do two ranges of bytes overlap? -/
def overlaps (a n b m : Nat) : Bool := a < b + m && b < a + n

/-- The ERR of a descriptor before any transfer (R196, R208, R210, R276, R376). -/
def State.collErr (s : State) (e : Eng) (d : CollDesc) : Option (BitVec 7) :=
  if d.bad then some 0x02
  else match s.collGroup d.group with
    | none => some 0x30
    | some g =>
      let p := g.members.length
      if d.ssp == d.dsp && overlaps d.src (d.srcLen p) d.dst (d.dstLen p) then some 0x02
      else if (!d.ssp && d.src % d.w != 0) || (!d.dsp && d.dst % d.w != 0) then some 0x04
      else if (d.ssp && e.size < d.src + d.srcLen p) || (d.dsp && e.size < d.dst + d.dstLen p) then some 0x03
      else if (!d.ssp && s.taggedIn e .read d.src (d.srcLen p)) || (!d.dsp && s.taggedIn e .write d.dst (d.dstLen p)) then some 0x02
      else none

/-- The scratchpad ranges of SRC and DST (R216). -/
def CollDesc.spans (d : CollDesc) (p : Nat) : List Range :=
  (if d.ssp then [readRange d.src (d.srcLen p)] else []) ++ (if d.dsp then [writeRange d.dst (d.dstLen p)] else [])

/-- SRC is read and the collective begins; it ends when every member's part is here (R209, R210). -/
def State.beginColl (s : State) (e : Eng) (c : Cmd) : State × Cmd :=
  let d := cmdColl c
  match s.collErr e d with
  | some x => (if x = 0x30 then s else s.failColl c d.group).endColl e c x
  | none =>
    match s.collGroup d.group with
    | none => (s, c)
    | some g =>
      let go (s : State) (data : List Byte) : State × Cmd := (s.joinColl c (e.ref c) g d data, { c with state := .waiting })
      if d.ssp then go s (s.engPad e d.src (d.srcLen g.members.length))
      else match s.cmdRead e c e.asid d.src (d.srcLen g.members.length) with
        | (s, .bytes l) => go s l
        | (s, .stop c) => State.stopColl (match c.state with | .done => s.failColl c d.group | _ => s) e c

/-- The descriptor of a collective, as read by a `DRAIN.core` that has passed on it, or as it stands (R193). -/
def State.collBytes (s : State) (e : Eng) (c : Cmd) : List Byte := c.asKept c.aOff (s.engPad e c.aOff 32)

/-- R208 to R210. -/
def State.runColl (s : State) (e : Eng) (c : Cmd) : State × Cmd :=
  if e.size < c.aOff + 32 then s.endCmd c 0x03 0
  else
    let (s, c) := if c.blob = [] then s.enterColl { c with blob := s.collBytes e c } else (s, c)
    let d := cmdColl c
    s.beginColl e { c with ranges := c.reads 32 :: d.spans (((s.collGroup d.group).map (·.members.length)).getD 1) }

/-! ## Gradient buckets (R211, R212) -/

/-- Arm a bucket; its SRC is read when it fires. `aux`: 1 armed, 3 fired with SRC still to be read, 2 matched. The watched span of
a snapshot whose GROUP is not configured at the arming is that of a group of one (R211; DESIGN CHOICE, log 203). -/
def State.runBkset (s : State) (e : Eng) (c : Cmd) : State × Cmd :=
  if 512 ≤ c.b.toNat then s.endCmd c 0x38 0
  else if c.c.toNat = 0 || 2 ^ 48 < c.c.toNat then s.endCmd c 0x02 0
  else if e.size < c.aOff + 32 then s.endCmd c 0x03 0
  else
    let c := if c.blob = [] then { c with blob := s.collBytes e c } else c
    let d := cmdColl c
    if d.bad then s.endCmd c 0x02 0
    else if (storeFind s.buckets c.b.toNat).isSome then s.endCmd c 0x38 0
    else
      let p := ((s.collGroup d.group).map (·.members.length)).getD 1
      let n := storeGet 0 s.armings c.b.toNat + 1
      let b : Bucket := { cmd := e.ref c, desc := c.blob, asid := e.asid, src := d.src, len := d.srcLen p, arming := n
                          total := c.c.toNat, counter := 0, fired := false }
      ({ s with buckets := storePut s.buckets c.b.toNat (some b), armings := storePut s.armings c.b.toNat (some n) }
      , { c with state := .waiting, aux := 1 })

/-- `KICK` starts the collective of an armed bucket (R212). -/
def State.runKick (s : State) (c : Cmd) : State × Cmd :=
  if 512 ≤ c.b.toNat then s.endCmd c 0x38 0
  else match storeFind s.buckets c.b.toNat with
    | none => s.endCmd c 0x39 0
    | some b =>
      let s := if b.fired then s else s.now (event .bucketFire (.bucket (c.b.extractLsb' 0 9)))
      s.endCmd c 0 b.counter

/-- The collective of a fired bucket starts as if it had been issued now (R211). -/
def State.fireBucket (s : State) (b : Bucket) : State :=
  match s.findCmd b.cmd with
  | none => s
  | some (h, c) =>
    if c.state == .waiting && (c.aux = 1 || c.aux = 3) then
      let (s, c) := if c.aux = 1 then s.enterColl c else (s, c)
      let (s, c) := s.beginColl (s.eng b.cmd h) { c with aux := 3 }
      (s.putCmdAt h c).collSettle
    else s

/-- BUCKET_FIRE (R211): once for each arming. -/
def execBucketFire (s : State) : Host.Outcome State Fault Refusal :=
  .next (match s.ev with
    | .bucket n =>
      match storeFind s.buckets n.toNat with
      | some b => if b.fired then s else { s with buckets := storePut s.buckets n.toNat (some { b with fired := true }) }.fireBucket b
      | none => s
    | _ => s)

/-! ## Votes (R94, R336, R371) -/

/-- How many votes of a member stand. -/
def StepGroup.cast (g : StepGroup) (m : Nat) : Nat := (g.votes.filter (fun v => v.1 == m)).length

/-- A member's vote in the current step. -/
def StepGroup.vote (g : StepGroup) (m : Nat) : Option Bool := (((g.votes.filter (fun v => v.1 == m))[g.steps]?).map (·.2))

/-- Have all members voted in the current step? -/
def StepGroup.complete (g : StepGroup) : Bool := g.members.all (fun m => (g.vote m).isSome)

/-- The step is decided when every vote is here. -/
def State.voteCheck (s : State) : State :=
  match s.stepGroup with
  | some g => if g.complete && !g.broken then s.now (event .stepVoteComplete (.vote { handle := g.handle, lost := false })) else s
  | none => s

/-- `STEP.C` (R94): `aux` is the step that this vote belongs to. -/
def State.runStepC (s : State) (e : Eng) (c : Cmd) : State × Cmd :=
  match s.stepGroup with
  | none => s.endCmd c 0x01 s.gstep.toNat
  | some g =>
    if c.b.toNat ≠ g.handle.toNat || c.b = 0 then s.endCmd c 0x01 s.gstep.toNat
    else if g.broken then s.endCmd c 0x02 s.gstep.toNat
    else
      let commit := c.aReg != 0
      let n := g.cast s.device.toNat
      let s := { s with stepGroup := some { g with votes := g.votes ++ [(s.device.toNat, commit)] } }
      let s := s.tellMembers g.members (s.endpointsOf g.members) (some (e.ref c)) (.vote g.handle s.device.toNat commit)
      (s.voteCheck, { c with state := .waiting, aux := n })

/-- A core to name a command by. -/
def homeRef (h : CmdHome) (c : Cmd) : CmdRef := { core := match h with | .core x => x | .frame _ _ => 0, id := c.id }

/-- Is the command a vote that waits? -/
def waitingVote (c : Cmd) : Bool := (match c.instr with | .stepC _ => true | _ => false) && c.state == .waiting

/-- The word of a vote that ends in this cycle (R94). -/
def State.endVote (s : State) (h : CmdHome) (c : Cmd) (err : BitVec 7) (adv : Bool) : State :=
  let c := { c with state := .done, err := err, value := BitVec.ofNat 56 (adv.toNat * 2 ^ 32 + s.gstep.toNat), doneAt := s.cycle }
  (s.putCmdAt h c).now (event .engineComplete (.cmd (homeRef h c)))

/-- STEP_VOTE_COMPLETE (R94, R336, R337, R339): GSTEP advances when all commit, and the staged factor table becomes
current then; a lost vote breaks the group. -/
def execStepVoteComplete (s : State) : Host.Outcome State Fault Refusal :=
  .next (match s.ev with
    | .vote v =>
      match s.stepGroup with
      | none => s
      | some g =>
        if g.handle ≠ v.handle then s
        else if v.lost then
          let s := { s with stepGroup := some { g with broken := true } }
          (s.allCmds.filter (fun x => waitingVote x.2)).foldl (fun s x => s.endVote x.1 x.2 0x02 false) s
        else if !g.complete || g.broken then s
        else
          let adv := g.members.all (fun m => g.vote m == some true)
          let s := { s with stepGroup := some { g with steps := g.steps + 1 }, gstep := if adv then s.gstep + 1 else s.gstep
                            factors := if adv then s.staged else s.factors }
          let s := (s.allCmds.filter (fun x => waitingVote x.2 && x.2.aux == g.steps)).foldl (fun s x => s.endVote x.1 x.2 0 adv) s
          s.voteCheck
    | _ => s)

/-! ## The sparse-index engine (R213, R214) -/

def opqSize : Nat := 1024

/-- LENGTH, run-list form, BASE and STRIDE of a descriptor. -/
def sidxLength (b : List Byte) : Nat := natAt b 8 4
def sidxRuns (b : List Byte) : Bool := (natAt b 12 1).testBit 0
def sidxBad (b : List Byte) : Bool :=
  natAt b 7 1 != 0 || 2 ≤ natAt b 12 1 || 8 ≤ natAt b 13 1 || natAt b 14 2 != 0 || natAt b 24 8 != 0

/-- Bytes of metadata. -/
def sidxBytes (b : List Byte) : Nat := if sidxRuns b then 4 * sidxLength b else (sidxLength b + 7) / 8

/-- The positions of a run list from its pairs. -/
def runPositions : Nat → List Nat → List Nat
  | _, [] => []
  | pos, p :: r =>
    let a := pos + p % 2 ^ 16
    let n := p / 2 ^ 16
    ((List.range n).map (fun i => a + i)) ++ runPositions (a + n) r

/-- The offsets that the metadata read so far gives (R213). -/
def sidxOffsets (b meta_ : List Byte) : List (BitVec 32) :=
  let ps := if sidxRuns b then runPositions 0 (elemsOf 4 meta_)
    else (List.range (min (sidxLength b) (8 * meta_.length))).filter (fun p => (meta_.getD (p / 8) 0).getLsbD (p % 8))
  ps.map (fun p => BitVec.ofNat 32 (natAt b 16 4 + natAt b 20 4 * p))

/-- Offsets move to the operand queue while it has room; `moved` counts them. -/
def sidxFill (q : List (BitVec 32)) (c : Cmd) : List (BitVec 32) × Cmd :=
  let more := ((sidxOffsets (c.blob.take 32) (c.blob.drop 32)).drop c.moved).take (opqSize - q.length)
  (q ++ more, { c with moved := c.moved + more.length })

/-- Read the metadata page by page. -/
def State.sidxRead (s : State) (e : Eng) : Cmd → List (Nat × Nat) → State × Cmd
  | c, [] => (s, { c with state := .waiting })
  | c, (a, n) :: r =>
    match s.cmdRead e c e.asid a n with
    | (s, .stop c) => (s, c)
    | (s, .bytes l) => State.sidxRead s e { c with blob := c.blob ++ l } r

/-- R213: metadata is read, and offsets are produced. After a failure VAL counts the offsets produced (R196); those that stand in
the queue stay for `LD.VQ` (DESIGN CHOICE, log 191). -/
def State.runSidx (s : State) (e : Eng) (c : Cmd) : State × Cmd :=
  if e.size < c.aOff + 32 then s.endCmd c 0x03 0
  else
    let c := if c.blob = [] then { c with blob := s.engPad e c.aOff 32 } else c
    let b := c.blob.take 32
    if sidxBad b then s.endCmd c 0x02 0
    else if sidxRuns b && natAt b 0 7 % 2 ≠ 0 then s.endCmd c 0x04 0
    else
      let at_ := c.blob.length - 32
      let n := sidxBytes b - at_
      let (s, c) := s.sidxRead e c (pageParts (n / 4096 + 2) (natAt b 0 7 + at_) n)
      let (q, c) := sidxFill (s.homeTeam e.home).opq c
      (s.updHome e.home (fun t => { t with opq := q }), if c.state == .done then { c with value := BitVec.ofNat 56 c.moved } else c)

/-- Have all offsets been popped, or has every context of the team retired (R214)? -/
def sidxOver (t : Team) (ctxs : Nat) (c : Cmd) : Bool :=
  (match c.instr with | .sidx _ => true | _ => false) && c.state == .waiting
    && ((t.opq == [] && (sidxOffsets (c.blob.take 32) (c.blob.drop 32)).length ≤ c.moved)
      || (t.ctxs.toList.take ctxs).all (·.retired))

/-- The result of `SIDX`: offsets, and those whose access failed (R214). -/
def State.endSidx (s : State) (e : Eng) (c : Cmd) : State × Cmd :=
  let n := (sidxOffsets (c.blob.take 32) (c.blob.drop 32)).length
  let s := if c.aux = 0 then s else s.record e.core Cause.sidxAddr.code 0 c.baddr (BitVec.ofNat 64 c.aux) []
  let s := s.updHome e.home (fun t => { t with opq := [] })
  (s, { c with state := .done, err := if c.aux = 0 then 0 else 0x3A, value := BitVec.ofNat 56 (n % 2 ^ 32 + c.aux % 2 ^ 24 * 2 ^ 32), doneAt := s.cycle })

/-! ## Replica tables (R215, R373) -/

/-- R215: PEND is set, and the switch completes the token. -/
def State.runRtab (s : State) (e : Eng) (c : Cmd) : State × Cmd :=
  match (if 256 ≤ c.b.toNat then none else storeFind s.rtabs c.b.toNat) with
  | none => s.endCmd c 0x3C 0
  | some r =>
    if !r.enabled || (s.queues.get ⟨r.queue.toNat, r.queue.isLt⟩).extractLsb' 40 16 == 0 || r.commit.isSome then s.endCmd c 0x3C 0
    else match s.cmdSpan e c 0 .write r.addr.toNat 8 with
      | (s, .stop c) => (s, c)
      | (s, .pieces l) =>
        match s.poisonPieces l with
        | some q => s.poisonFault e c q
        | none =>
        let b := s.piecesRead l
        let s := s.writePieces l (b.take 4 ++ [b.getD 4 0 ||| 2] ++ b.drop 5)
        ({ s with rtabs := storePut s.rtabs c.b.toNat (some { r with commit := some (e.ref c) }) }, { c with state := .waiting })

/-- Is the command a `CPYM` with elements still to stage or to copy (R202, R264)? -/
def cpymStands (c : Cmd) : Bool := (match c.instr with | .cpym _ => true | _ => false) && c.state == .waiting

/-- Does a command wait only for its team, its page or a piece of the slice? -/
def awaitsDelivery (c : Cmd) : Bool := (isColl c.instr && c.state == .waiting && c.aux == 2) || (cpymStands c && c.targets == [])

end Sys2Proof.Machine
end

