-- ==== Sys2Proof/Machine/Control.lean ====
section
/-! DEFINITION. The meanings of the SY instructions (R76 to R94, R102 to R106). -/

namespace Sys2Proof.Machine

/-! ## Shared operations -/

/-- The target of a Y.T branch: the bundle address plus 8 times DISP27 (R49). -/
def branchTarget (baddr : BitVec 56) (disp : BitVec 27) : Int := baddr.toNat + 8 * disp.toInt

/-- A Y.T branch that is taken or not: BR_WRAP only when it is taken (R77, R346). -/
def State.branchRes (s : State) (taken : Bool) (disp : BitVec 27) (extra : List Effect) : SlotRes :=
  let t := branchTarget s.issue.baddr disp
  if !taken then {}
  else if t < 0 || (2 ^ 56 : Nat) ≤ t then { faults := [(.brWrap, s.issue.baddr.zeroExtend 64)] }
  else { effects := extra ++ [.branch (BitVec.ofInt 56 t)] }

/-- A jump through a register: BAD_TARGET when bits [2:0] or [63:56] are not zero (R78). -/
def jumpRes (x : Word) : SlotRes :=
  if x.extractLsb' 0 3 != 0 || x.extractLsb' 56 8 != 0 then { faults := [(.badTarget, x)] }
  else { effects := [.branch (x.extractLsb' 0 56)] }

/-- The condition of `BRP` (R77). -/
def brpTaken (mode : Reg6) (p : PredBits) : Bool :=
  match mode.toNat with
  | 0 => p.getLsbD 0
  | 1 => p != 0
  | _ => p == BitVec.allOnes 512

/-- LCORE of a core that logical entry `l` of its group maps (R29). -/
def lcoreWord (g l : Nat) : Nat := g * 2 ^ 13 + l / 4 * 2 ^ 10 + l % 4 * 2 ^ 8 + (24 * g + l) % 256

/-- Is a task on its way to the core by migration (R299)? -/
def State.destined (s : State) (c : Fin 208) : Bool := s.tasks.any (fun t => (t.dest.map computeCore) == some c)

/-- CBUSY (R401). -/
def State.busyBit (s : State) (g : Fin 8) (l : Nat) : Bool :=
  let x := s.groupAt g
  match s.physOf g l with
  | none => true
  | some c =>
    (s.coreAt c).task.isSome || s.destined c || (s.coreAt c).scan.running
      || (x.reserve.map (fun r => r.2.contains l)).getD false || x.holds.any (fun h => h.entry == l)

/-- A control register as a bundle reads it in its issue cycle (R27 to R32, R401). -/
def State.creg (s : State) (c : Fin 208) (k : Fin 4) (n : Nat) : Word :=
  let x := s.ctxAt c k
  let g := groupOf c
  let cmap (j : Nat) : Word := BitVec.ofNat 64 (packBits 8 ((((s.groupAt g).cmap.toList.drop (8 * j)).take 8).map (·.toNat)))
  match n with
  | 0x00 => BitVec.ofNat 64 (4 * k.val + 2 * x.hnd.toNat + x.te.toNat)
  | 0x01 => x.tcause.zeroExtend 64
  | 0x02 => x.tpc.zeroExtend 64
  | 0x03 => x.tval
  | 0x04 => x.tmask.zeroExtend 64
  | 0x05 => x.tvec.zeroExtend 64
  | 0x08 => (s.coreAt c).team.part
  | 0x09 => x.waitlim.zeroExtend 64
  | 0x0A => BitVec.ofNat 64 x.chken.toNat
  | 0x0B => BitVec.ofNat 64 x.mapsoft.toNat
  | 0x10 => s.gstep.zeroExtend 64
  | 0x11 => BitVec.ofNat 64 (coreId c)
  | 0x12 => BitVec.ofNat 64 (lcoreWord g.val ((s.logicalOf c).getD 0))
  | 0x13 => BitVec.ofNat 64 s.cycle
  | 0x20 => cmap 0
  | 0x21 => cmap 1
  | 0x22 => cmap 2
  | 0x23 => (s.groupAt g).afr
  | 0x24 => BitVec.ofNat 64 (packBits 1 ((List.range 24).map (fun l => (s.busyBit g l).toNat)))
  | _ => 0

/-- The bits of a control register that are marked RO (R23, R28, R29, R31, R32, R401). -/
def cregRo (n : Nat) : Word :=
  match n with
  | 0x00 => 0xE
  | 0x08 => BitVec.allOnes 64
  | 0x10 => 0xFFFFFFFF
  | 0x11 => 0xFF
  | 0x12 => 0xFFFF
  | 0x13 => BitVec.allOnes 64
  | 0x20 => BitVec.allOnes 64
  | 0x21 => BitVec.allOnes 64
  | 0x22 => BitVec.allOnes 64
  | 0x23 => BitVec.allOnes 64
  | 0x24 => BitVec.allOnes 64
  | _ => 0

/-- A write of a control register: ILL_CREG when it would change an RO field (R93). -/
def State.mtcRes (s : State) (i : Instr) (n : Nat) (x : Word) : SlotRes :=
  let old := s.creg s.issue.core s.issue.ctx n
  if x &&& cregRo n != old &&& cregRo n then { faults := [(.illCreg, rawWord i)] }
  else { effects := [.creg n x] }

/-- BAR_SCOPE for a barrier outside its gang level, beside the instruction's own cause, or what the instruction does (R84,
R343). -/
def State.barRes (s : State) (scope : BitVec 3) (b : Nat) (r : SlotRes) : SlotRes :=
  match s.barrier s.issue.core scope.toNat b with
  | none => { faults := (.barScope, scope.zeroExtend 64) :: r.faults }
  | some _ => r

/-- The cycles until the last scratchpad store that the context has issued writes its bank (R250). -/
def State.storesLeft (s : State) : Nat :=
  let t := s.icore.team
  ((t.pend.filter (fun p => p.act.writesSpad && p.ctx == s.issue.ctx)).map (fun p =>
    match p.act with
    | .season _ _ _ later _ => (if later = [] then p.due else p.due + 1) - s.cycle
    | _ => p.due - s.cycle)).foldl max 0

/-- Does the register name a physical core of a group (R102)? -/
def groupCore (x : Word) : Bool := x.toNat < Config.coresPerGroup

/-- CMAP_BAD for a register that names none, or what the instruction does (R102). -/
def physRes (x : Word) (r : SlotRes) : SlotRes := if groupCore x then r else { faults := [(.cmapBad, x)] }

/-- The scan status word of `SCAN.READ` (R103). -/
def State.scanWord (s : State) (c : Fin 208) : Word :=
  let y := (s.coreAt c).scan
  let e := if y.running then (s.cycle - y.start) / Config.cyclesPerMicro else y.elapsed.toNat
  BitVec.ofNat 64 (y.running.toNat * 2 ^ 63 + y.last.toNat * 2 ^ 61 + e % 2 ^ 29 * 2 ^ 32 + y.sig.toNat)

/-- What makes `CMAP.SET` trap (R104). A core for which a migrating task is destined counts as one that runs it (DESIGN CHOICE, log 197). -/
def State.cmapBad (s : State) (g : Fin 8) (l x : Word) : Bool :=
  let old := (s.groupAt g).cmap.toList
  23 < l.toNat || 255 < x.toNat || x.extractLsb' 5 2 != 0 || 24 < x.toNat % 32
    || (x.getLsbD 7 && (List.range 24).any (fun j => j != l.toNat && (old.getD j 0).getLsbD 7 && (old.getD j 0).toNat % 32 == x.toNat % 32))
    || (match s.physOf g l.toNat with | some c => (s.coreAt c).task.isSome || s.destined c | none => false)

/-! ## Branches, loops and waits -/

def execNop (w : YSWord) (s : State) : Host.Outcome State Fault Refusal := .next (s.slot (.nop w) w.hd {})

/-- R77, R346. -/
def execBr (w : YTWord) (s : State) : Host.Outcome State Fault Refusal :=
  .next (s.slot (.br w) w.hd (s.branchRes true w.disp []))

/-- R77, R346. -/
def execBrp (w : YTWord) (s : State) : Host.Outcome State Fault Refusal :=
  .next (s.slot (.brp w) w.hd (s.branchRes (brpTaken w.d (s.ictx.pReg w.p)) w.disp []))

/-- R77, R346: a signed 64-bit comparison with zero. -/
def execBrs (w : YTWord) (s : State) : Host.Outcome State Fault Refusal :=
  .next (s.slot (.brs w) w.hd (s.branchRes (intCc (w.d.toNat % 16) (s.ictx.sReg w.a).toInt 0) w.disp []))

/-- R77, R78. -/
def execJmpi (w : YSWord) (s : State) : Host.Outcome State Fault Refusal :=
  .next (s.slot (.jmpi w) w.hd (jumpRes (s.ictx.sReg w.a)))

/-- R77: s63 := next with latency 1 (R78). -/
def execCall (w : YTWord) (s : State) : Host.Outcome State Fault Refusal :=
  .next (s.slot (.call w) w.hd (s.branchRes true w.disp [.act 1 (.setS 63 (s.issue.next.zeroExtend 64))]))

/-- R77, R78. -/
def execRet (w : YSWord) (s : State) : Host.Outcome State Fault Refusal :=
  .next (s.slot (.ret w) w.hd (jumpRes (s.ictx.sReg 63)))

/-- R79: BAD_COUNT above 2^24. -/
def execLoop (w : YCWord) (s : State) : Host.Outcome State Fault Refusal :=
  .next (s.slot (.loop w) w.hd
    (if 2 ^ 24 < countOf s.ictx w then { faults := [(.badCount, s.ictx.sReg w.a)] }
     else { effects := [.loop (w.nm1.toNat + 1) (countOf s.ictx w)] }))

/-- A `REP` whose MX word's guard is false counts its issues at once, with nothing filled, and is over (R382, log 163). -/
def State.repIdle (s : State) (w : YCWord) : List Effect :=
  let n := countOf s.ictx w
  match s.issue.all.find? usesMx with
  | some i =>
    if n = 0 || (i.head.map s.ictx.guardBit).getD true then []
    else [.rep { instr := i, left := 0, next := s.cycle, advanced := false, seq := s.issue.seq
                 prof := { Profile.reset with addr := s.issue.baddr, start := s.cycle, issues := n } }]
  | none => []

/-- R81: BAD_COUNT of a register count above 4096; the repetitions are the MX word's. -/
def execRep (w : YCWord) (s : State) : Host.Outcome State Fault Refusal :=
  .next (s.slot (.rep w) w.hd
    (if w.csrc && 4096 < countOf s.ictx w then { faults := [(.badCount, s.ictx.sReg w.a)] } else { effects := s.repIdle w }))

/-- R82: the wait is over when the bundle issues. -/
def execWaitTok (w : YSWord) (s : State) : Host.Outcome State Fault Refusal := .next (s.slot (.waitTok w) w.hd {})

/-- R82; on a control core the issue refreshes the watchdog (R354, R400). -/
def execWaitCyc (w : YSWord) (s : State) : Host.Outcome State Fault Refusal :=
  .next (s.slot (.waitCyc w) w.hd (if isControl s.issue.core then { effects := [.refresh] } else {}))

/-- R87. -/
def execRetire (w : YSWord) (s : State) : Host.Outcome State Fault Refusal :=
  .next (s.slot (.retire w) w.hd { effects := [.retire] })

/-- R88: the context stops when a boundary request is pending and the TCB accepts the boundary grade. -/
def execYield (w : YSWord) (s : State) : Host.Outcome State Fault Refusal :=
  let wanted := s.icore.request == some .boundary
    && (match s.taskAt s.issue.core with | some t => t.tcb.grade.getLsbD 0 | none => false)
  .next (s.slot (.yield w) w.hd (if wanted then { effects := [.yieldStop (s.ictx.sReg w.a)] } else {}))

/-! ## Submission -/

/-- R89: the queue is the TCB's. -/
def execLaunch (w : YSWord) (s : State) : Host.Outcome State Fault Refusal :=
  .next (s.slot (.launch w) w.hd { effects := [.command { Cmd.new (.launch w) 8 w.d with aReg := s.ictx.sReg w.a }] })

/-- R89: the queue is sB. -/
def execEnq (w : YSWord) (s : State) : Host.Outcome State Fault Refusal :=
  .next (s.slot (.enq w) w.hd
    { effects := [.command { Cmd.new (.enq w) 8 w.d with aReg := s.ictx.sReg w.a, b := s.ictx.sReg w.b }] })

/-! ## Traps -/

/-- R90: the bundle commits and traps then. -/
def execTrap (w : YSWord) (s : State) : Host.Outcome State Fault Refusal :=
  .next (s.slot (.trap w) w.hd { effects := [.swTrap (w.fn.zeroExtend 64)] })

/-- R91. -/
def execTren (w : YSWord) (s : State) : Host.Outcome State Fault Refusal :=
  .next (s.slot (.tren w) w.hd { effects := [.tren] })

/-- R91. -/
def execTret (w : YSWord) (s : State) : Host.Outcome State Fault Refusal :=
  .next (s.slot (.tret w) w.hd { effects := [.tret] })

/-! ## Barriers, drains and fences -/

/-- R85: BAD_COUNT for 0 and above 65535. -/
def execBarInit (w : YSWord) (s : State) : Host.Outcome State Fault Refusal :=
  let x := s.ictx.sReg w.a
  .next (s.slot (.barInit w) w.hd (s.barRes w.scope (w.fn.toNat % 16)
    (if x = 0 || 65535 < x.toNat then { faults := [(.badCount, x)] }
     else { effects := [.barInit w.scope (w.fn.toNat % 16) x.toNat] })))

/-- R85; ORDER 2 is `.rel`, whose arrival follows the stores that the context has issued (R86, R250). -/
def execBarArrive (w : YSWord) (s : State) : Host.Outcome State Fault Refusal :=
  .next (s.slot (.barArrive w) w.hd (s.barRes w.scope (w.fn.toNat % 16)
    { effects := [.act (if w.order = 2 then s.storesLeft else 0) (.arrive w.scope (w.fn.toNat % 16) w.d)] }))

/-- R85: the wait is over when the bundle issues. -/
def execBarWait (w : YSWord) (s : State) : Host.Outcome State Fault Refusal :=
  .next (s.slot (.barWait w) w.hd (s.barRes w.scope (w.fn.toNat % 16) {}))

/-- R82. -/
def execDrain (w : YSWord) (s : State) : Host.Outcome State Fault Refusal := .next (s.slot (.drain w) w.hd {})

/-- R83. -/
def execFenceQ (w : YSWord) (s : State) : Host.Outcome State Fault Refusal :=
  .next (s.slot (.fenceQ w) w.hd { effects := [.fence (w.fn.extractLsb' 0 8)] })

/-! ## Control registers and the global step -/

/-- R93. -/
def execMfc (w : YSWord) (s : State) : Host.Outcome State Fault Refusal :=
  .next (s.slot (.mfc w) w.hd
    { effects := [.act 1 (.setS w.d (s.creg s.issue.core s.issue.ctx (w.fn.toNat % 256)))] })

/-- R93. -/
def execMtc (w : YSWord) (s : State) : Host.Outcome State Fault Refusal :=
  .next (s.slot (.mtc w) w.hd (s.mtcRes (.mtc w) (w.fn.toNat % 256) (s.ictx.sReg w.a)))

/-- R28, R93: TE alone is written. -/
def execMtcTstat (w : YSWord) (s : State) : Host.Outcome State Fault Refusal :=
  .next (s.slot (.mtcTstat w) w.hd (s.mtcRes (.mtcTstat w) 0 (s.ictx.sReg w.a)))

/-- R29: the whole value is clamped. -/
def execMtcWaitlim (w : YSWord) (s : State) : Host.Outcome State Fault Refusal :=
  .next (s.slot (.mtcWaitlim w) w.hd (s.mtcRes (.mtcWaitlim w) 9 (s.ictx.sReg w.a)))

/-- R94: the vote goes through queue 5. -/
def execStepC (w : YSWord) (s : State) : Host.Outcome State Fault Refusal :=
  .next (s.slot (.stepC w) w.hd
    { effects := [.command { Cmd.new (.stepC w) 5 w.d with aReg := s.ictx.sReg w.a, b := s.ictx.sReg w.b }] })

/-! ## Control-core instructions -/

/-- R103. -/
def execScanStart (w : YSWord) (s : State) : Host.Outcome State Fault Refusal :=
  .next (s.slot (.scanStart w) w.hd { effects := [.command { Cmd.new (.scanStart w) 8 w.d with aReg := s.ictx.sReg w.a }] })

/-- R103. -/
def execScanAbort (w : YSWord) (s : State) : Host.Outcome State Fault Refusal :=
  .next (s.slot (.scanAbort w) w.hd (physRes (s.ictx.sReg w.a) { effects := [.scanAbort (s.ictx.sReg w.a).toNat] }))

/-- R103. -/
def execScanRead (w : YSWord) (s : State) : Host.Outcome State Fault Refusal :=
  .next (s.slot (.scanRead w) w.hd (physRes (s.ictx.sReg w.a)
    { effects := [.act 1 (.setS w.d (s.scanWord (physCore (groupOf s.issue.core) (s.ictx.sReg w.a).toNat)))] }))

/-- R104. -/
def execCmapSet (w : YSWord) (s : State) : Host.Outcome State Fault Refusal :=
  let l := s.ictx.sReg w.a
  let x := s.ictx.sReg w.b
  .next (s.slot (.cmapSet w) w.hd
    (if s.cmapBad (groupOf s.issue.core) l x then { faults := [(.cmapBad, x)] }
     else { effects := [.cmap l.toNat (x.extractLsb' 0 8)] }))

/-- R105. -/
def execSqpop (w : YSWord) (s : State) : Host.Outcome State Fault Refusal :=
  .next (s.slot (.sqpop w) w.hd { effects := [.sqpop w.d] })

/-- R106. -/
def execDbgHalt (w : YSWord) (s : State) : Host.Outcome State Fault Refusal :=
  .next (s.slot (.dbgHalt w) w.hd { effects := [.command { Cmd.new (.dbgHalt w) 8 w.d with aReg := s.ictx.sReg w.a }] })

/-- R106. -/
def execDbgResume (w : YSWord) (s : State) : Host.Outcome State Fault Refusal :=
  .next (s.slot (.dbgResume w) w.hd (physRes (s.ictx.sReg w.a) { effects := [.dbgResume (s.ictx.sReg w.a).toNat] }))

end Sys2Proof.Machine
end

