-- ==== Sys2Proof/Machine/Scalar.lean ====
section
/-! DEFINITION. The meanings of the integer, address-register and predicate instructions of S0 and S1 (R95 to R98,
R101). -/

namespace Sys2Proof.Machine

/-! ## Shared operations -/

/-- A scalar result with its latency (R73). -/
def scalarRes (lat : Nat) (d : Reg6) (x : Word) : SlotRes := { effects := [.act lat (.setS d x)] }

/-- An address-register result (R98). -/
def areaRes (d : Reg6) (x : Word) : SlotRes := { effects := [.act 1 (.setA (d.extractLsb' 0 4) x)] }

/-- A predicate result: all 512 bits (R95, R101). -/
def predRes (lat : Nat) (d : Reg6) (x : PredBits) : SlotRes :=
  { effects := [.act lat (.setP (d.extractLsb' 0 4) x (BitVec.allOnes 512))] }

/-- All bits or none. -/
def predAll (b : Bool) : PredBits := if b then BitVec.allOnes 512 else 0

/-- The operands of a typed operation (R95). -/
def opA (c : Ctx) (w : RWord) : Int := sVal w.ty (c.sReg w.a)
def opB (c : Ctx) (w : RWord) : Int := sVal w.ty (c.sReg w.b)

/-- Quotient and remainder toward zero, with the results of R96 for a zero divisor. -/
def divOf (a b : Int) : Int := if b = 0 then -1 else a.tdiv b
def remOf (a b : Int) : Int := if b = 0 then a else a.tmod b

/-- Leading zeros of a 64-bit word (R95). -/
def clz64 (x : Word) : Nat := if x = 0 then 64 else 63 - Nat.log2 x.toNat

/-- Ones of a 64-bit word. -/
def popc64 (x : Word) : Nat := (List.range 64).countP (fun i => x.getLsbD i)

/-! ## Integer operations (R95 to R97) -/

def execAdd (w : RWord) (s : State) : Host.Outcome State Fault Refusal :=
  .next (s.slot (.add w) w.hd (scalarRes 1 w.dst (s.ictx.sReg w.a + s.ictx.sReg w.b)))

def execSub (w : RWord) (s : State) : Host.Outcome State Fault Refusal :=
  .next (s.slot (.sub w) w.hd (scalarRes 1 w.dst (s.ictx.sReg w.a - s.ictx.sReg w.b)))

def execMul (w : RWord) (s : State) : Host.Outcome State Fault Refusal :=
  .next (s.slot (.mul w) w.hd (scalarRes 3 w.dst (s.ictx.sReg w.a * s.ictx.sReg w.b)))

/-- Bits [127:64] of the signed product. -/
def execMulh (w : RWord) (s : State) : Host.Outcome State Fault Refusal :=
  .next (s.slot (.mulh w) w.hd
    (scalarRes 3 w.dst (BitVec.ofInt 64 ((s.ictx.sReg w.a).toInt * (s.ictx.sReg w.b).toInt / (2 ^ 64 : Nat)))))

/-- R95, R96. -/
def execDiv (w : RWord) (s : State) : Host.Outcome State Fault Refusal :=
  .next (s.slot (.div w) w.hd (scalarRes 20 w.dst (sExt w.ty (divOf (opA s.ictx w) (opB s.ictx w)))))

/-- R95, R96. -/
def execRem (w : RWord) (s : State) : Host.Outcome State Fault Refusal :=
  .next (s.slot (.rem w) w.hd (scalarRes 20 w.dst (sExt w.ty (remOf (opA s.ictx w) (opB s.ictx w)))))

/-- R97. -/
def execAddi (w : IWord) (s : State) : Host.Outcome State Fault Refusal :=
  .next (s.slot (.addi w) w.hd (scalarRes 1 w.dst (s.ictx.sReg w.a + BitVec.ofInt 64 w.immInt)))

/-- R97. -/
def execMovi (w : IWord) (s : State) : Host.Outcome State Fault Refusal :=
  .next (s.slot (.movi w) w.hd (scalarRes 1 w.dst (BitVec.ofInt 64 w.immInt)))

/-- R97: sA[7:0] above the 56 bits of VALUE. -/
def execMovl (w : LWord) (s : State) : Host.Outcome State Fault Refusal :=
  .next (s.slot (.movl w) w.hd
    (scalarRes 1 w.dst (BitVec.ofNat 64 ((s.ictx.sReg w.a).toNat % 256 * 2 ^ 56 + immVal w.hd))))

def execMov (w : RWord) (s : State) : Host.Outcome State Fault Refusal :=
  .next (s.slot (.mov w) w.hd (scalarRes 1 w.dst (s.ictx.sReg w.a)))

def execAnd (w : RWord) (s : State) : Host.Outcome State Fault Refusal :=
  .next (s.slot (.and w) w.hd (scalarRes 1 w.dst (s.ictx.sReg w.a &&& s.ictx.sReg w.b)))

def execOr (w : RWord) (s : State) : Host.Outcome State Fault Refusal :=
  .next (s.slot (.or w) w.hd (scalarRes 1 w.dst (s.ictx.sReg w.a ||| s.ictx.sReg w.b)))

def execXor (w : RWord) (s : State) : Host.Outcome State Fault Refusal :=
  .next (s.slot (.xor w) w.hd (scalarRes 1 w.dst (s.ictx.sReg w.a ^^^ s.ictx.sReg w.b)))

def execAndn (w : RWord) (s : State) : Host.Outcome State Fault Refusal :=
  .next (s.slot (.andn w) w.hd (scalarRes 1 w.dst (s.ictx.sReg w.a &&& ~~~s.ictx.sReg w.b)))

/-- Shift amounts are sB[5:0] (R95). -/
def shiftBy (c : Ctx) (w : RWord) : Nat := (c.sReg w.b).toNat % 64

def execShl (w : RWord) (s : State) : Host.Outcome State Fault Refusal :=
  .next (s.slot (.shl w) w.hd (scalarRes 1 w.dst (s.ictx.sReg w.a <<< shiftBy s.ictx w)))

def execShr (w : RWord) (s : State) : Host.Outcome State Fault Refusal :=
  .next (s.slot (.shr w) w.hd (scalarRes 1 w.dst (s.ictx.sReg w.a >>> shiftBy s.ictx w)))

def execSra (w : RWord) (s : State) : Host.Outcome State Fault Refusal :=
  .next (s.slot (.sra w) w.hd (scalarRes 1 w.dst ((s.ictx.sReg w.a).sshiftRight (shiftBy s.ictx w))))

def execRot (w : RWord) (s : State) : Host.Outcome State Fault Refusal :=
  .next (s.slot (.rot w) w.hd (scalarRes 1 w.dst ((s.ictx.sReg w.a).rotateLeft (shiftBy s.ictx w))))

def execClz (w : RWord) (s : State) : Host.Outcome State Fault Refusal :=
  .next (s.slot (.clz w) w.hd (scalarRes 1 w.dst (BitVec.ofNat 64 (clz64 (s.ictx.sReg w.a)))))

def execPopc (w : RWord) (s : State) : Host.Outcome State Fault Refusal :=
  .next (s.slot (.popc w) w.hd (scalarRes 1 w.dst (BitVec.ofNat 64 (popc64 (s.ictx.sReg w.a)))))

def execMin (w : RWord) (s : State) : Host.Outcome State Fault Refusal :=
  .next (s.slot (.min w) w.hd (scalarRes 1 w.dst (sExt w.ty (Min.min (opA s.ictx w) (opB s.ictx w)))))

def execMax (w : RWord) (s : State) : Host.Outcome State Fault Refusal :=
  .next (s.slot (.max w) w.hd (scalarRes 1 w.dst (sExt w.ty (Max.max (opA s.ictx w) (opB s.ictx w)))))

/-- Bit 0 of pC chooses (R95). -/
def execSel (w : RWord) (s : State) : Host.Outcome State Fault Refusal :=
  .next (s.slot (.sel w) w.hd
    (scalarRes 1 w.dst (if (s.ictx.pReg (w.c.extractLsb' 0 4)).getLsbD 0 then s.ictx.sReg w.a else s.ictx.sReg w.b)))

/-- The outcome of `CMP` (R47, R95). -/
def cmpOf (c : Ctx) (w : RWord) : Bool := intCc (w.fn.toNat % 16) (opA c w) (opB c w)

def execCmpS (w : RWord) (s : State) : Host.Outcome State Fault Refusal :=
  .next (s.slot (.cmpS w) w.hd (scalarRes 1 w.dst (BitVec.ofNat 64 (cmpOf s.ictx w).toNat)))

def execCmpP (w : RWord) (s : State) : Host.Outcome State Fault Refusal :=
  .next (s.slot (.cmpP w) w.hd (predRes 1 w.dst (predAll (cmpOf s.ictx w))))

/-! ## Address registers (R98) -/

/-- The address register a 6-bit field names. -/
def Ctx.aField (c : Ctx) (r : Reg6) : Word := c.aReg (r.extractLsb' 0 4)

def execAadd (w : IWord) (s : State) : Host.Outcome State Fault Refusal :=
  .next (s.slot (.aadd w) w.hd (areaRes w.dst (areaSetOff (s.ictx.aField w.a) (areaAddr (s.ictx.aField w.a) w.immInt))))

def execAinc (w : IWord) (s : State) : Host.Outcome State Fault Refusal :=
  .next (s.slot (.ainc w) w.hd (areaRes w.dst
    ((s.ictx.aField w.a &&& 0xFFFF000000FFFFFF) ||| BitVec.ofNat 64 ((w.immInt % (2 ^ 24 : Nat)).toNat * 2 ^ 24))))

def execAmod (w : IWord) (s : State) : Host.Outcome State Fault Refusal :=
  .next (s.slot (.amod w) w.hd (areaRes w.dst
    ((s.ictx.aField w.a &&& 0x0000FFFFFFFFFFFF) ||| BitVec.ofNat 64 ((w.immInt % (2 ^ 16 : Nat)).toNat * 2 ^ 48))))

/-- aD := sA. -/
def execAsetA (w : RWord) (s : State) : Host.Outcome State Fault Refusal :=
  .next (s.slot (.asetA w) w.hd (areaRes w.dst (s.ictx.sReg w.a)))

/-- sD := aA. -/
def execAsetS (w : RWord) (s : State) : Host.Outcome State Fault Refusal :=
  .next (s.slot (.asetS w) w.hd (scalarRes 1 w.dst (s.ictx.aField w.a)))

/-! ## Predicates (R101) -/

/-- The predicate register a 6-bit field names. -/
def Ctx.pField (c : Ctx) (r : Reg6) : PredBits := c.pReg (r.extractLsb' 0 4)

def execPand (w : RWord) (s : State) : Host.Outcome State Fault Refusal :=
  .next (s.slot (.pand w) w.hd (predRes 1 w.dst (s.ictx.pField w.a &&& s.ictx.pField w.b)))

def execPor (w : RWord) (s : State) : Host.Outcome State Fault Refusal :=
  .next (s.slot (.por w) w.hd (predRes 1 w.dst (s.ictx.pField w.a ||| s.ictx.pField w.b)))

def execPxor (w : RWord) (s : State) : Host.Outcome State Fault Refusal :=
  .next (s.slot (.pxor w) w.hd (predRes 1 w.dst (s.ictx.pField w.a ^^^ s.ictx.pField w.b)))

def execPnot (w : RWord) (s : State) : Host.Outcome State Fault Refusal :=
  .next (s.slot (.pnot w) w.hd (predRes 1 w.dst (~~~s.ictx.pField w.a)))

def execPmov (w : RWord) (s : State) : Host.Outcome State Fault Refusal :=
  .next (s.slot (.pmov w) w.hd (predRes 1 w.dst (s.ictx.pField w.a)))

end Sys2Proof.Machine
end

