-- ==== Sys2Proof/Machine/ScalarFloat.lean ====
section
/-! DEFINITION. The meanings of the scalar float instructions (R99, R100). -/

namespace Sys2Proof.Machine

/-- The FP_EXC record of a slot, when its exceptions call for one (R123). -/
def State.excFx (s : State) (u : UnitCode) (es : List Exc) : List Effect :=
  let c := countExc es
  if excReports c then [.record Cause.fpExc.code (excAux c u.code false) (s.issue.baddr.zeroExtend 64)] else []

/-- A float operand: the low bits of a scalar register (R99). -/
def Ctx.fReg (c : Ctx) (ty : BitVec 4) (r : Reg6) : FVal :=
  (fmtOf ty).decode ((c.sReg r).toNat % 2 ^ (fmtOf ty).width)

/-- RND of a scalar: `.rne` or `.rtz` (R99). -/
def scalarMode (rnd : BitVec 2) : RMode := if rnd = 1 then .rtz else .rne

/-- A rounded float result, zero-extended, with latency 4. -/
def State.floatRes (s : State) (w : RWord) (v : FVal × Exc) : SlotRes :=
  let (p, e) := (fmtOf w.ty).deliver (scalarMode w.rnd) v.1
  { effects := .act 4 (.setS w.dst (BitVec.ofNat 64 p)) :: s.excFx w.hd.unit [v.2.or e] }

/-- A result that is one of the operands (R115). -/
def State.floatPick (s : State) (w : RWord) (v : FVal × Exc) : SlotRes :=
  { effects := .act 4 (.setS w.dst (BitVec.ofNat 64 ((fmtOf w.ty).exact v.1))) :: s.excFx w.hd.unit [v.2] }

def execFadd (w : RWord) (s : State) : Host.Outcome State Fault Refusal :=
  .next (s.slot (.fadd w) w.hd (s.floatRes w (fAdd (s.ictx.fReg w.ty w.a) (s.ictx.fReg w.ty w.b))))

def execFsub (w : RWord) (s : State) : Host.Outcome State Fault Refusal :=
  .next (s.slot (.fsub w) w.hd (s.floatRes w (fSub (s.ictx.fReg w.ty w.a) (s.ictx.fReg w.ty w.b))))

def execFmul (w : RWord) (s : State) : Host.Outcome State Fault Refusal :=
  .next (s.slot (.fmul w) w.hd (s.floatRes w (fMul (s.ictx.fReg w.ty w.a) (s.ictx.fReg w.ty w.b))))

def execFma (w : RWord) (s : State) : Host.Outcome State Fault Refusal :=
  .next (s.slot (.fma w) w.hd
    (s.floatRes w (fFma (s.ictx.fReg w.ty w.a) (s.ictx.fReg w.ty w.b) (s.ictx.fReg w.ty w.c))))

def execFmin (w : RWord) (s : State) : Host.Outcome State Fault Refusal :=
  .next (s.slot (.fmin w) w.hd (s.floatPick w (fMinMax false (s.ictx.fReg w.ty w.a) (s.ictx.fReg w.ty w.b))))

def execFmax (w : RWord) (s : State) : Host.Outcome State Fault Refusal :=
  .next (s.slot (.fmax w) w.hd (s.floatPick w (fMinMax true (s.ictx.fReg w.ty w.a) (s.ictx.fReg w.ty w.b))))

/-- The outcome of `FCMP` (R114). -/
def fcmpOf (c : Ctx) (w : RWord) : Bool × Exc := floatCc (w.fn.toNat % 16) (c.fReg w.ty w.a) (c.fReg w.ty w.b)

def execFcmpS (w : RWord) (s : State) : Host.Outcome State Fault Refusal :=
  .next (s.slot (.fcmpS w) w.hd
    { effects := .act 4 (.setS w.dst (BitVec.ofNat 64 (fcmpOf s.ictx w).1.toNat)) :: s.excFx w.hd.unit [(fcmpOf s.ictx w).2] })

def execFcmpP (w : RWord) (s : State) : Host.Outcome State Fault Refusal :=
  .next (s.slot (.fcmpP w) w.hd
    { effects := .act 4 (.setP (w.dst.extractLsb' 0 4) (predAll (fcmpOf s.ictx w).1) (BitVec.allOnes 512))
        :: s.excFx w.hd.unit [(fcmpOf s.ictx w).2] })

/-- The value `FCVT` converts: source code 0 is the signed 64-bit integer (R100). -/
def fcvtSource (src : BitVec 4) (x : Word) : FVal :=
  if src = 0 then valOfInt x.toInt 0 else valOf src (x.toNat % 2 ^ tyWidth src)

/-- `FCVT` (R100, R111): integer to integer raises nothing; destination code 0 is `.f32`. -/
def fcvtOf (w : RWord) (x : Word) : Word × Exc :=
  let src := w.fn.extractLsb' 0 4
  let dst := if w.ty = 0 then 7 else w.ty
  let (p, e) := deliverTy dst (scalarMode w.rnd) (fcvtSource src x)
  (extLoad dst p, if (src = 0 || tyInt src) && tyInt dst then excNone else e)

def execFcvt (w : RWord) (s : State) : Host.Outcome State Fault Refusal :=
  .next (s.slot (.fcvt w) w.hd
    { effects := .act 4 (.setS w.dst (fcvtOf w (s.ictx.sReg w.a)).1) :: s.excFx w.hd.unit [(fcvtOf w (s.ictx.sReg w.a)).2] })

end Sys2Proof.Machine
end

