-- ==== Sys2Proof/Machine/Vector.lean ====
section
/-! DEFINITION. The integer, selection, move, width-changing and reduction instructions of V0 to V2 (R124 to R138). -/

namespace Sys2Proof.Machine

/-! ## Shared operations of the vector units -/

/-- TYPE 0 as `.i32` (R128). -/
def vTy (t : BitVec 4) : BitVec 4 := if t = 0 then 3 else t

/-- TYPE 0 as `.f32` (R130). -/
def fTy (t : BitVec 4) : BitVec 4 := if t = 0 then 7 else t

/-- The write of the destination register: data under the guard at width b, and its map (R20, R40). -/
def State.vecAct (s : State) (w : RWord) (lat b d : Nat) (map : Option MapBits) (x : VecBits) : Effect :=
  .act lat (.setV d x (guardMask (s.ictx.guard w.hd) b) map true none)

/-- Registers whose maps rule E and the pseudo-operands read (R45, R126). -/
def mapReads (dst : Nat) (srcs : List Reg6) : List Nat :=
  (realV srcs).take 1 ++ (if srcs.any mapPseudo then [srcMapReg dst srcs] else [])

/-- A slot that writes one vector register. -/
def State.vecRes (s : State) (w : RWord) (lat b : Nat) (srcs : List Reg6) (map : Option MapBits) (x : VecBits) : SlotRes :=
  { faults := s.ictx.pseudoFaults w.dst.toNat srcs, effects := [s.vecAct w lat b w.dst.toNat map x]
    maps := mapReads w.dst.toNat srcs, data := some (realV srcs) }

/-- Element i of a source as an integer of type `ty`. -/
def Ctx.isrc (c : Ctx) (w : RWord) (mr : Nat) (ty : BitVec 4) (r : Reg6) (i : Nat) : Int :=
  intOf (tyWidth ty) (tySigned ty) (c.src w.hd mr r (tyWidth ty) i)

/-- An element-wise integer operation: exact, then modulo 2^w (R128). -/
def State.vint (s : State) (w : RWord) (srcs : List Reg6) (f : List Int → Int) : SlotRes :=
  let c := s.ictx
  let ty := vTy w.ty
  let b := tyWidth ty
  let mr := srcMapReg w.dst.toNat srcs
  s.vecRes w 2 b srcs (c.mapE srcs) (vecOf b (fun i => ((f (srcs.map (fun r => c.isrc w mr ty r i))) % (2 ^ b : Nat)).toNat))

/-- The operands of a list of two or three. -/
def arg (l : List Int) (i : Nat) : Int := l.getD i 0

/-- The range of an integer type. -/
def tyMin (t : BitVec 4) : Int := if tySigned t then -(2 ^ (tyWidth t - 1) : Nat) else 0
def tyMax (t : BitVec 4) : Int := if tySigned t then (2 ^ (tyWidth t - 1) : Nat) - 1 else (2 ^ tyWidth t : Nat) - 1

def satTo (t : BitVec 4) (x : Int) : Int := max (tyMin t) (min (tyMax t) x)

/-- The unsigned pattern of an operand. -/
def pat (w : RWord) (x : Int) : Nat := (x % (2 ^ tyWidth (vTy w.ty) : Nat)).toNat

/-- The shift amount: b modulo w bits (R128). -/
def vshift (w : RWord) (l : List Int) : Nat := pat w (arg l 1) % tyWidth (vTy w.ty)

/-! ## Integer arithmetic (R128, R129) -/

def execVadd (w : RWord) (s : State) : Host.Outcome State Fault Refusal :=
  .next (s.slot (.vadd w) w.hd (s.vint w [w.a, w.b] (fun l => arg l 0 + arg l 1)))

def execVsub (w : RWord) (s : State) : Host.Outcome State Fault Refusal :=
  .next (s.slot (.vsub w) w.hd (s.vint w [w.a, w.b] (fun l => arg l 0 - arg l 1)))

def execVadds (w : RWord) (s : State) : Host.Outcome State Fault Refusal :=
  .next (s.slot (.vadds w) w.hd (s.vint w [w.a, w.b] (fun l => satTo (vTy w.ty) (arg l 0 + arg l 1))))

def execVsubs (w : RWord) (s : State) : Host.Outcome State Fault Refusal :=
  .next (s.slot (.vsubs w) w.hd (s.vint w [w.a, w.b] (fun l => satTo (vTy w.ty) (arg l 0 - arg l 1))))

def execVmul (w : RWord) (s : State) : Host.Outcome State Fault Refusal :=
  .next (s.slot (.vmul w) w.hd (s.vint w [w.a, w.b] (fun l => arg l 0 * arg l 1)))

/-- Bits [2w-1:w] of the exact product. -/
def execVmulh (w : RWord) (s : State) : Host.Outcome State Fault Refusal :=
  .next (s.slot (.vmulh w) w.hd (s.vint w [w.a, w.b] (fun l => arg l 0 * arg l 1 / (2 ^ tyWidth (vTy w.ty) : Nat))))

def execVmad (w : RWord) (s : State) : Host.Outcome State Fault Refusal :=
  .next (s.slot (.vmad w) w.hd (s.vint w [w.a, w.b, w.c] (fun l => arg l 0 * arg l 1 + arg l 2)))

def execVand (w : RWord) (s : State) : Host.Outcome State Fault Refusal :=
  .next (s.slot (.vand w) w.hd (s.vint w [w.a, w.b] (fun l => (pat w (arg l 0) &&& pat w (arg l 1) : Nat))))

def execVor (w : RWord) (s : State) : Host.Outcome State Fault Refusal :=
  .next (s.slot (.vor w) w.hd (s.vint w [w.a, w.b] (fun l => (pat w (arg l 0) ||| pat w (arg l 1) : Nat))))

def execVxor (w : RWord) (s : State) : Host.Outcome State Fault Refusal :=
  .next (s.slot (.vxor w) w.hd (s.vint w [w.a, w.b] (fun l => (pat w (arg l 0) ^^^ pat w (arg l 1) : Nat))))

def execVshl (w : RWord) (s : State) : Host.Outcome State Fault Refusal :=
  .next (s.slot (.vshl w) w.hd (s.vint w [w.a, w.b] (fun l => (pat w (arg l 0) <<< vshift w l : Nat))))

def execVshr (w : RWord) (s : State) : Host.Outcome State Fault Refusal :=
  .next (s.slot (.vshr w) w.hd (s.vint w [w.a, w.b] (fun l => (pat w (arg l 0) >>> vshift w l : Nat))))

/-- Filled with the sign bit, under either kind of type. -/
def execVsra (w : RWord) (s : State) : Host.Outcome State Fault Refusal :=
  .next (s.slot (.vsra w) w.hd (s.vint w [w.a, w.b]
    (fun l => intOf (tyWidth (vTy w.ty)) true (pat w (arg l 0)) / (2 ^ vshift w l : Nat))))

def execVmin (w : RWord) (s : State) : Host.Outcome State Fault Refusal :=
  .next (s.slot (.vmin w) w.hd (s.vint w [w.a, w.b] (fun l => Min.min (arg l 0) (arg l 1))))

def execVmax (w : RWord) (s : State) : Host.Outcome State Fault Refusal :=
  .next (s.slot (.vmax w) w.hd (s.vint w [w.a, w.b] (fun l => Max.max (arg l 0) (arg l 1))))

def execVabs (w : RWord) (s : State) : Host.Outcome State Fault Refusal :=
  .next (s.slot (.vabs w) w.hd (s.vint w [w.a] (fun l => ((arg l 0).natAbs : Nat))))

def execVneg (w : RWord) (s : State) : Host.Outcome State Fault Refusal :=
  .next (s.slot (.vneg w) w.hd (s.vint w [w.a] (fun l => -arg l 0)))

/-- One lane of `VDOT4` (R129). An immediate in C is VALUE mod 2^32, though its fit is checked at TYPE (DESIGN CHOICE,
log 148). -/
def Ctx.dotLane (c : Ctx) (w : RWord) (mr j : Nat) : Int :=
  let ty : BitVec 4 := if w.ty = 4 then 4 else 1
  (List.range 4).foldl (fun acc m => acc + c.isrc w mr ty w.a (4 * j + m) * c.isrc w mr ty w.b (4 * j + m))
    (c.src w.hd mr w.c 32 j : Nat)

/-- R129: the map is C's when C is a register. -/
def execVdot4 (w : RWord) (s : State) : Host.Outcome State Fault Refusal :=
  let c := s.ictx
  let srcs := [w.a, w.b, w.c]
  let mr := srcMapReg w.dst.toNat srcs
  let r := s.vecRes w 2 32 srcs (if w.c.toNat < 56 then some (c.mapOf w.c.toNat) else none)
    (vecOf 32 (fun j => (c.dotLane w mr j % (2 ^ 32 : Nat)).toNat))
  .next (s.slot (.vdot4 w) w.hd { r with
    maps := realV [w.c] ++ (if srcs.any mapPseudo then [mr] else []) })

/-! ## Compares, selection and moves (R131, R132) -/

/-- The register whose map a pseudo-operand reads in a word without a vector destination (log 16): with no real source it
is none. -/
def noMapReg : Nat := 63

/-- A predicate written element by element (R131). -/
def State.vpred (s : State) (w : RWord) (lat b : Nat) (srcs : List Reg6) (f : Nat → Bool) (extra : List Effect) : SlotRes :=
  let g := s.ictx.guard w.hd
  { faults := s.ictx.pseudoFaults noMapReg srcs
    effects := .act lat (.setP (w.dst.extractLsb' 0 4) (predOf b f) (predMask g b)) :: extra
    maps := if srcs.any mapPseudo then [srcMapReg noMapReg srcs] else [], data := some (realV srcs) }

def execVcmp (w : RWord) (s : State) : Host.Outcome State Fault Refusal :=
  let c := s.ictx
  let mr := srcMapReg noMapReg [w.a, w.b]
  .next (s.slot (.vcmp w) w.hd (s.vpred w 2 (tyWidth (vTy w.ty)) [w.a, w.b]
    (fun i => intCc (w.fn.toNat % 16) (c.isrc w mr (vTy w.ty) w.a i) (c.isrc w mr (vTy w.ty) w.b i)) []))

/-- The map of `VSEL` (R132). -/
def Ctx.selMap (c : Ctx) (w : RWord) : Option MapBits :=
  if w.a.toNat < 56 && w.b.toNat < 56 && c.mapOf w.a.toNat != c.mapOf w.b.toNat then some 0 else c.mapE [w.a, w.b]

def execVsel (w : RWord) (s : State) : Host.Outcome State Fault Refusal :=
  let c := s.ictx
  let b := tyWidth w.ty
  let mr := srcMapReg w.dst.toNat [w.a, w.b]
  let p := c.pField w.c
  let r := s.vecRes w 2 b [w.a, w.b] (c.selMap w) (vecOf b (fun i => if active p b i then c.src w.hd mr w.a b i else c.src w.hd mr w.b b i))
  .next (s.slot (.vsel w) w.hd { r with maps := realV [w.a, w.b] ++ r.maps })

def execVmov (w : RWord) (s : State) : Host.Outcome State Fault Refusal :=
  let c := s.ictx
  let b := tyWidth w.ty
  .next (s.slot (.vmov w) w.hd (s.vecRes w 2 b [w.a] (c.mapE [w.a])
    (vecOf b (c.src w.hd (srcMapReg w.dst.toNat [w.a]) w.a b))))

def execVbcastS (w : RWord) (s : State) : Host.Outcome State Fault Refusal :=
  let b := tyWidth w.ty
  .next (s.slot (.vbcastS w) w.hd (s.vecRes w 2 b [] none (vecOf b (fun _ => (s.ictx.sReg w.a).toNat))))

def execVbcastE (w : RWord) (s : State) : Host.Outcome State Fault Refusal :=
  let c := s.ictx
  let b := tyWidth w.ty
  .next (s.slot (.vbcastE w) w.hd (s.vecRes w 2 b [w.a] (c.mapE [w.a])
    (vecOf b (fun _ => c.src w.hd (srcMapReg w.dst.toNat [w.a]) w.a b (w.fn.toNat % 512)))))

/-! ## Width changes (R133 to R137) -/

/-- Element k of the source of a width change: of the register group on the wide side, or of A (R133). In a widening word c0–c3
and `flat` read the map of vD at index k for the whole group (DEDUCED, log 189). -/
def Ctx.groupSrc (c : Ctx) (w : RWord) (ws wd k : Nat) : Nat :=
  let m := 4096 / ws
  if w.a.toNat < 56 && wd < ws then elem (c.vReg (w.a.toNat + k / m)) (k % m) ws
  else c.src w.hd (srcMapReg w.dst.toNat [w.a]) w.a ws k

/-- The map of destination h of a width change; none keeps it (R134), as with a pseudo-operand in A,
which has no map (DEDUCED, log 188). -/
def Ctx.resizeMap (c : Ctx) (w : RWord) (ws wd h : Nat) : Option MapBits :=
  if 56 ≤ w.a.toNat then none
  else if ws = wd then c.mapE [w.a]
  else if ws < wd then some (mapcut (c.mapOf w.a.toNat) h (4096 / wd) (ewOf wd))
  else some (mapjoin ((List.range (ws / wd)).map (fun j => c.mapOf (w.a.toNat + j))) (4096 / ws) (ewOf wd))

/-- MAP_NONE of a word written with `.sr`, by its result map alone (R262). -/
def Ctx.srFaults (c : Ctx) (rnd : BitVec 2) (d : Nat) (map : Option MapBits) : List (Cause × Word) :=
  if rnd = 2 && isNone (map.getD (c.mapOf d)) && !c.mapsoft then [(.mapNone, BitVec.ofNat 64 d)] else []

/-- A width change from ws to wd bits: every destination register of the group in one cycle (R133). `conv` takes the
destination register, its map, the element and the source pattern. -/
def State.resize (s : State) (w : RWord) (lat ws wd : Nat) (keep : Bool) (conv : MapBits → Nat → Nat → Nat × Exc) : SlotRes :=
  let c := s.ictx
  let q := max 1 (wd / ws)
  let n := 4096 / wd
  let map (h : Nat) : Option MapBits := if keep then none else c.resizeMap w ws wd h
  let one (h : Nat) : List (Nat × Exc) :=
    let m := (map h).getD (c.mapOf (w.dst.toNat + h))
    (List.range n).map (fun i => conv m i (c.groupSrc w ws wd (h * n + i)))
  let rs := (List.range q).map one
  let g := c.guard w.hd
  let exc := (rs.map (fun l => ((l.zip (List.range n)).filter (fun p => active g wd p.2)).map (fun p => p.1.2))).flatten
  let srcs := if w.a.toNat < 56 && wd < ws then (List.range (ws / wd)).map (fun j => w.a.toNat + j) else realV [w.a]
  { faults := c.pseudoFaults w.dst.toNat [w.a] ++ (((List.range q).map (fun h => c.srFaults w.rnd (w.dst.toNat + h) (map h))).flatten)
    effects := (rs.zip (List.range q)).map (fun p => s.vecAct w lat wd (w.dst.toNat + p.2) (map p.2) (BitVec.ofNat 4096 (packBits wd (p.1.map (·.1)))))
      ++ s.excFx w.hd.unit exc
    maps := srcs ++ (if [w.a].any mapPseudo then [srcMapReg w.dst.toNat [w.a]] else [])
      ++ (if w.rnd = 2 && w.a.toNat ≥ 56 then (List.range q).map (fun h => w.dst.toNat + h) else [])
    data := some srcs }

/-- R135. -/
def execVcvt (w : RWord) (s : State) : Host.Outcome State Fault Refusal :=
  let src := fTy (w.fn.extractLsb' 0 4)
  let dst := fTy w.ty
  let salt := w.fn.toNat / 16 % 256
  .next (s.slot (.vcvt w) w.hd (s.resize w 4 (tyWidth src) (tyWidth dst) false
    (fun m i x => convertPat src dst (s.ictx.rmode s.gstep w.rnd salt m i) x)))

/-- R136: the low w bits. -/
def execVpack (w : RWord) (s : State) : Host.Outcome State Fault Refusal :=
  .next (s.slot (.vpack w) w.hd (s.resize w 2 (tyWidth (w.fn.extractLsb' 0 4)) (tyWidth w.ty) false (fun _ _ x => (x, excNone))))

/-- R136: extension by the source type, or a Q4 code decoded; from `.q4` the maps stay. -/
def execVunpk (w : RWord) (s : State) : Host.Outcome State Fault Refusal :=
  let src := w.fn.extractLsb' 0 4
  let b := tyWidth w.ty
  let conv (x : Nat) : Nat :=
    if src = 12 then
      (if w.ty = 10 then e4m3.exact (q4Val (w.fn.toNat / 16 % 4) x) else (intOf 4 true x % (2 ^ b : Nat)).toNat)
    else (intOf (tyWidth src) (tySigned src) x % (2 ^ b : Nat)).toNat
  .next (s.slot (.vunpk w) w.hd (s.resize w 2 (tyWidth src) b (src = 12) (fun _ _ x => (conv x, excNone))))

/-- One element of `VNARROW` (R137). -/
def narrowOf (src dst : BitVec 4) (sh : Nat) (rnd : BitVec 2) (x : Nat) : Nat :=
  let a := intOf (tyWidth src) (tySigned src) x
  let q := (roundShift a.natAbs sh (scalarMode rnd)).1
  (satTo dst (if a < 0 then -(q : Int) else q) % (2 ^ tyWidth dst : Nat)).toNat

def execVnarrow (w : RWord) (s : State) : Host.Outcome State Fault Refusal :=
  let src := vTy (w.fn.extractLsb' 0 4)
  let dst : BitVec 4 := if w.ty = 0 then 2 else w.ty
  .next (s.slot (.vnarrow w) w.hd (s.resize w 2 (tyWidth src) (tyWidth dst) false
    (fun _ _ x => (narrowOf src dst (w.fn.toNat / 16 % 64) w.rnd x, excNone))))

/-! ## Reductions and scans (R138) -/

/-- What a reduction does. -/
inductive RedOp
  | add
  | max
  | min
  deriving DecidableEq, Repr

/-- The pattern a non-contributing element counts as. -/
def RedOp.identity (o : RedOp) (t : BitVec 4) : Nat :=
  let sign := 2 ^ (tyWidth t - 1)
  match o with
  | .add => 0
  | .max => if tyInt t then (tyMin t % (2 ^ tyWidth t : Nat)).toNat else sign + (fmtOf t).infPat
  | .min => if tyInt t then (tyMax t).toNat else (fmtOf t).infPat

/-- A node of the float tree below its root (R138). Its own rounding counts for the element (R123; DESIGN CHOICE, log 198). -/
def RedOp.node (o : RedOp) (a b : Node) : Node :=
  match o with
  | .add =>
    let (v, x) := fAdd a.1 b.1
    let (p, y) := fp32.deliver .rne v
    (fp32.decode p, ((a.2.or b.2).or x).or y)
  | .max => let (v, x) := fMinMax true a.1 b.1; (v, (a.2.or b.2).or x)
  | .min => let (v, x) := fMinMax false a.1 b.1; (v, (a.2.or b.2).or x)

/-- The root of a float segment delivered in its type: the exact sum of two nodes is rounded once. -/
def RedOp.root (o : RedOp) (t : BitVec 4) (a b : Node) : Nat × Exc :=
  match o with
  | .add =>
    let (v, x) := fAdd a.1 b.1
    let (p, y) := (fmtOf t).deliver .rne v
    (p, ((a.2.or b.2).or x).or y)
  | _ => let n := o.node a b; ((fmtOf t).exact n.1, n.2)

/-- The reduction of one segment of 2^g patterns (R138). -/
def RedOp.segment (o : RedOp) (t : BitVec 4) (g : Nat) (l : List Nat) : Nat × Exc :=
  if tyInt t then
    let xs : List Int := l.map (intOf (tyWidth t) (tySigned t))
    let x : Int := match o with
      | .add => xs.foldl (· + ·) 0
      | .max => xs.foldl Max.max (tyMin t)
      | .min => xs.foldl Min.min (tyMax t)
    ((x % (2 ^ tyWidth t : Nat)).toNat, excNone)
  else if g = 0 then (l.headD 0, excNone)
  else match treeRoot o.node (g - 1) (l.map (fun x => ((fmtOf t).decode x, excNone))) with
    | a :: b :: _ => o.root t a b
    | _ => (0, excNone)

/-- The patterns that take part: those of elements active in pC, and the identity. -/
def State.redLeaves (s : State) (w : RWord) (o : RedOp) : List Nat :=
  let c := s.ictx
  let t := fTy w.ty
  let b := tyWidth t
  let p := c.pField w.c
  let mr := srcMapReg w.dst.toNat [w.a]
  (List.range (elemCount b)).map (fun i => if active p b i then c.src w.hd mr w.a b i else o.identity t)

/-- `VRED`: N/G results, then zero bits; the map is NONE. -/
def State.vred (s : State) (w : RWord) (o : RedOp) : SlotRes :=
  let t := fTy w.ty
  let b := tyWidth t
  let n := elemCount b
  let g := w.fn.toNat
  let rs := (chunked (2 ^ g) (n / 2 ^ g) (s.redLeaves w o)).map (o.segment t g)
  let exc := ((rs.zip (List.range n)).filter (fun p => active (s.ictx.guard w.hd) b p.2)).map (·.1.2)
  let r := s.vecRes w 6 b [w.a] (some 0) (vecOf b (fun i => (rs.getD i (0, excNone)).1))
  { r with effects := r.effects ++ s.excFx w.hd.unit exc, maps := if [w.a].any mapPseudo then [w.dst.toNat] else [] }

def execVredAdd (w : RWord) (s : State) : Host.Outcome State Fault Refusal := .next (s.slot (.vredAdd w) w.hd (s.vred w .add))
def execVredMax (w : RWord) (s : State) : Host.Outcome State Fault Refusal := .next (s.slot (.vredMax w) w.hd (s.vred w .max))
def execVredMin (w : RWord) (s : State) : Host.Outcome State Fault Refusal := .next (s.slot (.vredMin w) w.hd (s.vred w .min))

/-- Running sums of a segment, each step rounded to FP32 (R138): the delivered patterns with their exceptions. The first contribution
is the first sum, a −0 with its sign (DEDUCED, log 200); a step's own rounding counts for the element (R123; DESIGN CHOICE, log 198). -/
def scanFloat (t : BitVec 4) : Option FVal → List Nat → List (Nat × Exc)
  | _, [] => []
  | acc, x :: r =>
    let v := (fmtOf t).decode x
    let (sum, e) := match acc with | none => (v, excNone) | some a => fAdd a v
    let (p, e') := fp32.deliver .rne sum
    let (q, e'') := (fmtOf t).deliver .rne (fp32.decode p)
    (q, (e.or e').or e'') :: scanFloat t (some (fp32.decode p)) r

def scanInt (t : BitVec 4) : Nat → List Nat → List (Nat × Exc)
  | _, [] => []
  | acc, x :: r => let y := (acc + x) % 2 ^ tyWidth t; (y, excNone) :: scanInt t y r

def execVscanAdd (w : RWord) (s : State) : Host.Outcome State Fault Refusal :=
  let t := fTy w.ty
  let b := tyWidth t
  let n := elemCount b
  let g := 2 ^ w.fn.toNat
  let rs := ((chunked g (n / g) (s.redLeaves w .add)).map (fun l => if tyInt t then scanInt t 0 l else scanFloat t none l)).flatten
  let exc := ((rs.zip (List.range n)).filter (fun p => active (s.ictx.guard w.hd) b p.2)).map (·.1.2)
  let r := s.vecRes w 6 b [w.a] (s.ictx.mapE [w.a]) (BitVec.ofNat 4096 (packBits b (rs.map (·.1))))
  .next (s.slot (.vscanAdd w) w.hd { r with effects := r.effects ++ s.excFx w.hd.unit exc })

end Sys2Proof.Machine
end

