-- ==== Sys2Proof/Machine/VectorFloat.lean ====
section
/-! DEFINITION. The vector float instructions (R130, R131). -/

namespace Sys2Proof.Machine

/-- Element i of a source as an exact value of float type `ty`. -/
def Ctx.fsrc (c : Ctx) (w : RWord) (mr : Nat) (ty : BitVec 4) (r : Reg6) (i : Nat) : FVal :=
  (fmtOf ty).decode (c.src w.hd mr r (tyWidth ty) i)

/-- The exceptions of the elements the guard selects. -/
def activeExc (g : PredBits) (b : Nat) (l : List (Nat × Exc)) : List Exc :=
  ((l.zip (List.range l.length)).filter (fun p => active g b p.2)).map (·.1.2)

/-- Delivered elements written with their map and their exceptions. -/
def State.vfloatRes (s : State) (w : RWord) (lat : Nat) (srcs : List Reg6) (map : Option MapBits) (l : List (Nat × Exc)) : SlotRes :=
  let b := tyWidth (fTy w.ty)
  let r := s.vecRes w lat b srcs map (BitVec.ofNat 4096 (packBits b (l.map (·.1))))
  { r with effects := r.effects ++ s.excFx w.hd.unit (activeExc (s.ictx.guard w.hd) b l) }

/-- An element-wise float operation: exact, then rounded once by RND (R110, R130). -/
def State.vfloat (s : State) (w : RWord) (srcs : List Reg6) (f : List FVal → FVal × Exc) : SlotRes :=
  let c := s.ictx
  let ty := fTy w.ty
  let mr := srcMapReg w.dst.toNat srcs
  let map := c.mapE srcs
  let m := map.getD (c.mapOf w.dst.toNat)
  let one (i : Nat) : Nat × Exc :=
    let (v, x) := f (srcs.map (fun r => c.fsrc w mr ty r i))
    let (p, y) := (fmtOf ty).deliver (c.rmode s.gstep w.rnd (w.fn.toNat % 256) m i) v
    (p, x.or y)
  let r := s.vfloatRes w 4 srcs map ((List.range (elemCount (tyWidth ty))).map one)
  { r with faults := r.faults ++ c.srFaults w.rnd w.dst.toNat map
           maps := r.maps ++ (if w.rnd = 2 && map.isNone then [w.dst.toNat] else []) }

/-- Operand i of a list of float operands. -/
def farg (l : List FVal) (i : Nat) : FVal := l.getD i zeroVal

def execVfadd (w : RWord) (s : State) : Host.Outcome State Fault Refusal :=
  .next (s.slot (.vfadd w) w.hd (s.vfloat w [w.a, w.b] (fun l => fAdd (farg l 0) (farg l 1))))

def execVfsub (w : RWord) (s : State) : Host.Outcome State Fault Refusal :=
  .next (s.slot (.vfsub w) w.hd (s.vfloat w [w.a, w.b] (fun l => fSub (farg l 0) (farg l 1))))

def execVfmul (w : RWord) (s : State) : Host.Outcome State Fault Refusal :=
  .next (s.slot (.vfmul w) w.hd (s.vfloat w [w.a, w.b] (fun l => fMul (farg l 0) (farg l 1))))

def execVfma (w : RWord) (s : State) : Host.Outcome State Fault Refusal :=
  .next (s.slot (.vfma w) w.hd (s.vfloat w [w.a, w.b, w.c] (fun l => fFma (farg l 0) (farg l 1) (farg l 2))))

/-- The smaller or larger element, which is one of the operands (R115). -/
def State.vfpick (s : State) (w : RWord) (wantMax : Bool) : SlotRes :=
  let c := s.ictx
  let ty := fTy w.ty
  let srcs := [w.a, w.b]
  let mr := srcMapReg w.dst.toNat srcs
  s.vfloatRes w 4 srcs (c.mapE srcs) ((List.range (elemCount (tyWidth ty))).map (fun i =>
    let (v, x) := fMinMax wantMax (c.fsrc w mr ty w.a i) (c.fsrc w mr ty w.b i)
    ((fmtOf ty).exact v, x)))

def execVfmin (w : RWord) (s : State) : Host.Outcome State Fault Refusal := .next (s.slot (.vfmin w) w.hd (s.vfpick w false))
def execVfmax (w : RWord) (s : State) : Host.Outcome State Fault Refusal := .next (s.slot (.vfmax w) w.hd (s.vfpick w true))

/-- R130: the sign bit clears; nothing is raised. -/
def execVfabs (w : RWord) (s : State) : Host.Outcome State Fault Refusal :=
  let c := s.ictx
  let b := tyWidth (fTy w.ty)
  .next (s.slot (.vfabs w) w.hd (s.vecRes w 4 b [w.a] (c.mapE [w.a])
    (vecOf b (fun i => c.src w.hd (srcMapReg w.dst.toNat [w.a]) w.a b i % 2 ^ (b - 1)))))

/-- R114, R131. -/
def execVfcmp (w : RWord) (s : State) : Host.Outcome State Fault Refusal :=
  let c := s.ictx
  let ty := fTy w.ty
  let b := tyWidth ty
  let mr := srcMapReg noMapReg [w.a, w.b]
  let rs := (List.range (elemCount b)).map (fun i => floatCc (w.fn.toNat % 16) (c.fsrc w mr ty w.a i) (c.fsrc w mr ty w.b i))
  let exc := activeExc (c.guard w.hd) b (rs.map (fun r => (0, r.2)))
  .next (s.slot (.vfcmp w) w.hd (s.vpred w 4 b [w.a, w.b] (fun i => (rs.getD i (false, excNone)).1) (s.excFx w.hd.unit exc)))

end Sys2Proof.Machine
end

