-- ==== Sys2Proof/Machine/Shuffle.lean ====
section
/-! DEFINITION. Shuffles, gathers in a register, compaction, expansion and sorting (R139 to R145, R151 to R153). -/

namespace Sys2Proof.Machine

/-! ## The pattern memory (R139 to R141) -/

/-- Entry n of the active bank. -/
def Team.patEntry (t : Team) (n : Nat) : BitVec 1280 := storeGet 0 (if t.patActive then t.patB else t.patA) n

/-- Lane j by an entry: zero, or lane SRC of A (R140). -/
def patLane (e : BitVec 1280) (a : Nat → Nat) (j : Nat) : Nat :=
  if e.getLsbD (8 * j + 7) then 0 else a (e.extractLsb' (8 * j) 7).toNat

/-- R140: with CPRES the map is A's, otherwise NONE. Under CPRES with a pseudo-operand in A the destination keeps its map
(DESIGN CHOICE, log 159). -/
def execVshuf (w : RWord) (s : State) : Host.Outcome State Fault Refusal :=
  let c := s.ictx
  let e := s.icore.team.patEntry (w.fn.toNat % 64)
  let cpres := e.getLsbD 1024
  let r := s.vecRes w 3 32 [w.a] (if cpres then c.mapE [w.a] else some 0)
    (vecOf 32 (patLane e (c.src w.hd (srcMapReg w.dst.toNat [w.a]) w.a 32)))
  .next (s.slot (.vshuf w) w.hd { r with maps :=
    (if cpres then realV [w.a] else []) ++ (if mapPseudo w.a then [w.dst.toNat] else []) })

/-- R141: bundles from the next cycle on use the other bank. -/
def execPatswap (w : RWord) (s : State) : Host.Outcome State Fault Refusal :=
  .next (s.slot (.patswap w) w.hd { effects := [.patswap] })

/-! ## Gathers, compaction, expansion -/

/-- The map of `VPERM` (R142). -/
def Ctx.permMap (c : Ctx) (w : RWord) (k : Nat) : MapBits :=
  let b := tyWidth w.ty
  let m := if w.a.toNat < 56 then c.mapOf w.a.toNat else 0
  if w.b.toNat < 56 && b != 8 && isAffine m && mapRank m == 1 && mapOrigin m 0 == 0 && mapStep m 0 == 1 && mapWidth m == b then
    listedMap (ewOf b) w.b.toNat k (elemCount b) (mapExtent m 0) (mapVtag m)
  else 0

/-- R142. -/
def execVperm (w : RWord) (s : State) : Host.Outcome State Fault Refusal :=
  let c := s.ictx
  let b := tyWidth w.ty
  let srcs := [w.a, w.b]
  let mr := srcMapReg w.dst.toNat srcs
  .next (s.slot (.vperm w) w.hd (s.vecRes w 3 b srcs (some (c.permMap w s.issue.ctx.val)) (vecOf b (fun i =>
    let k := c.src w.hd mr w.b b i
    if k < elemCount b then c.src w.hd mr w.a b k else 0))))

/-- Can the map of a compaction follow (R143)? -/
def Ctx.compactFollows (c : Ctx) (w : RWord) : Bool :=
  let b := tyWidth w.ty
  let m := c.mapOf w.a.toNat
  w.a.toNat < 56 && w.b.toNat < 56 && b != 8 && mapWidth m == b && mapRank m == 1
    && (isAffine m || (isListed m && mapNcar m == 1))

/-- R143, R144, R261: the carrier's data first, its own map unchanged, then the packed data with the map that names it. -/
def execVcompact (w : RWord) (s : State) : Host.Outcome State Fault Refusal :=
  let c := s.ictx
  let b := tyWidth w.ty
  let n := elemCount b
  let picks := (List.range n).filter (active (c.pField w.c) b)
  let mr := srcMapReg w.dst.toNat [w.a]
  let m := c.mapOf w.a.toNat
  let follows := c.compactFollows w
  let mask := guardMask (c.guard w.hd) b
  let data := vecOf b (fun j => match picks[j]? with | some i => c.src w.hd mr w.a b i | none => 0)
  let carrier := vecOf b (fun j => match picks[j]? with | some i => c.coord m i 0 | none => 0)
  let map := if follows then listedMap (ewOf b) w.b.toNat s.issue.ctx.val picks.length (mapExtent m 0) (mapVtag m) else 0
  .next (s.slot (.vcompact w) w.hd
    { faults := c.pseudoFaults w.dst.toNat [w.a]
      effects := (if follows then [.act 3 (.setV w.b.toNat carrier mask none true none)] else [])
        ++ [.act 3 (.setV w.dst.toNat data mask (some map) true (if follows then some w.b.toNat else none))]
      maps := realV [w.a] ++ (if mapPseudo w.a then [w.dst.toNat] else []), data := some (realV [w.a]) })

/-- R145: the map is B's when B is a register. -/
def execVexpand (w : RWord) (s : State) : Host.Outcome State Fault Refusal :=
  let c := s.ictx
  let b := tyWidth w.ty
  let p := c.pField w.c
  let srcs := [w.a, w.b]
  let mr := srcMapReg w.dst.toNat srcs
  let before (i : Nat) : Nat := ((List.range i).filter (active p b)).length
  let r := s.vecRes w 3 b srcs (if w.b.toNat < 56 then some (c.mapOf w.b.toNat) else none)
    (vecOf b (fun i => if active p b i then c.src w.hd mr w.a b (before i) else c.src w.hd mr w.b b i))
  .next (s.slot (.vexpand w) w.hd { r with maps := realV [w.b] ++ (if srcs.any mapPseudo then [mr] else []) })

/-! ## Sorting (R151 to R153) -/

/-- An entry of a pair of registers: the value's pattern, its index, and whether it comes from A. -/
structure SortEntry where
  x : Nat
  ix : Nat
  fromA : Bool
  deriving DecidableEq, Repr

/-- The order of two values under a type: a NaN is below every number and equal to a NaN (R151). -/
def sortOrd (t : BitVec 4) (a b : Nat) : Ordering :=
  if tyInt t then compare (intOf 32 (tySigned t) a) (intOf 32 (tySigned t) b)
  else
    let x := fp32.decode a
    let y := fp32.decode b
    if x.isNan then (if y.isNan then .eq else .lt) else if y.isNan then .gt else fOrd x y

/-- Does entry a rank above entry b (R151)? -/
def SortEntry.above (t : BitVec 4) (a b : SortEntry) : Bool :=
  match sortOrd t a.x b.x with
  | .gt => true
  | .lt => false
  | .eq => a.ix < b.ix || (a.ix == b.ix && a.fromA && !b.fromA)

/-- Insert an entry behind those that do not rank below it. -/
def insertRanked (t : BitVec 4) (e : SortEntry) : List SortEntry → List SortEntry
  | [] => [e]
  | f :: r => if e.above t f then e :: f :: r else f :: insertRanked t e r

/-- Entries in descending rank; entries of equal rank stay in lane order (log 24). -/
def rankEntries (t : BitVec 4) (l : List SortEntry) : List SortEntry := l.foldl (fun acc e => insertRanked t e acc) []

/-- Entry i of the pair at an even register. -/
def Ctx.pairEntry (c : Ctx) (r : Reg6) (fromA : Bool) (i : Nat) : SortEntry :=
  { x := elem (c.vReg r.toNat) i 32, ix := elem (c.vReg (r.toNat + 1)) i 32, fromA := fromA }

/-- The 128 entries written to the pair of destination registers; both maps are NONE. -/
def State.pairRes (s : State) (w : RWord) (srcs : List Nat) (l : List SortEntry) : SlotRes :=
  { effects := [s.vecAct w 3 32 w.dst.toNat (some 0) (BitVec.ofNat 4096 (packBits 32 (l.map (·.x))))
              , s.vecAct w 3 32 (w.dst.toNat + 1) (some 0) (BitVec.ofNat 4096 (packBits 32 (l.map (·.ix))))]
    data := some srcs }

/-- R152: the 8 highest of each group of 16. -/
def execVtopk8 (w : RWord) (s : State) : Host.Outcome State Fault Refusal :=
  let c := s.ictx
  let t := fTy w.ty
  let group (g : Nat) : List SortEntry :=
    let lanes := (List.range 8).map (8 * g + ·)
    (rankEntries t (lanes.map (c.pairEntry w.a true) ++ lanes.map (c.pairEntry w.b false))).take 8
  .next (s.slot (.vtopk8 w) w.hd (s.pairRes w [w.a.toNat, w.a.toNat + 1, w.b.toNat, w.b.toNat + 1]
    (((List.range 16).map group).flatten)))

/-- The entry of lane i after one compare-exchange (R153); a pair of equal rank stays as it is (log 24). -/
def Ctx.sortLane (c : Ctx) (w : RWord) (t : BitVec 4) (i : Nat) : SortEntry :=
  let j := w.fn.toNat % 16
  let k := w.fn.toNat / 16 % 16
  let low := !i.testBit j
  let other := if low then i + 2 ^ j else i - 2 ^ j
  let mine := c.pairEntry w.a true i
  let theirs := c.pairEntry w.a true other
  let desc := (min i other).testBit k != w.fn.getLsbD 8
  if low == desc then (if theirs.above t mine then theirs else mine)
  else (if mine.above t theirs then theirs else mine)

/-- R153. -/
def execVsortStep (w : RWord) (s : State) : Host.Outcome State Fault Refusal :=
  .next (s.slot (.vsortStep w) w.hd (s.pairRes w [w.a.toNat, w.a.toNat + 1]
    ((List.range 128).map (s.ictx.sortLane w (fTy w.ty)))))

end Sys2Proof.Machine
end

