-- ==== Sys2Proof/Machine/Coord.lean ====
section
/-! DEFINITION. Map and coordinate instructions (R146 to R150) and the accumulator ports (R154, R155). -/

namespace Sys2Proof.Machine

/-! ## VMAP (R146) -/

/-- The map a `VMAP` reads: a pseudo-operand has none (log 25). -/
def Ctx.vmapSrc (c : Ctx) (w : RWord) : MapBits := if w.a.toNat < 56 then c.mapOf w.a.toNat else 0

def vmapD (w : RWord) : Nat := w.fn.toNat / 8 % 4
def vmapD2 (w : RWord) : Nat := w.fn.toNat / 32 % 4

/-- MAP_BAD, with the destination register. -/
def vmapFaults (w : RWord) (ok : Bool) : List (Cause × Word) := if ok then [] else [(.mapBad, w.dst.zeroExtend 64)]

/-- Is dimension d listed by a carrier? -/
def mapLists (m : MapBits) (d : Nat) : Bool := (mapCars m).any (fun k => mapCdim m k == d)

/-- A `VMAP` that writes the map alone. -/
def State.vmapOnly (w : RWord) (ok : Bool) (m : MapBits) (reads : List Nat) (data : List Nat) : SlotRes :=
  { faults := vmapFaults w ok, effects := [.act 2 (.setV w.dst.toNat 0 0 (some m) false none)], maps := reads, data := some data }

/-- A `VMAP` that copies A's data and writes a map (R146); its guard is read at 32 bits (DESIGN CHOICE, log 199). -/
def State.vmapData (s : State) (w : RWord) (ok : Bool) (m : MapBits) : SlotRes :=
  let c := s.ictx
  { s.vecRes w 2 32 [w.a] (some m) (vecOf 32 (c.src w.hd (srcMapReg w.dst.toNat [w.a]) w.a 32)) with
    faults := c.pseudoFaults w.dst.toNat [w.a] ++ vmapFaults w ok }

/-- A dimension is checked against RANK, of a map that is not NONE only. -/
def dimOk (m : MapBits) (d : Nat) : Bool := isNone m || d < mapRank m

/-- `.set`: the descriptor in bytes 0 to 47 of A. -/
def execVmapSet (w : RWord) (s : State) : Host.Outcome State Fault Refusal :=
  let c := s.ictx
  let x := vecOf 32 (c.src w.hd (srcMapReg w.dst.toNat [w.a]) w.a 32)
  let m := x.extractLsb' 0 384
  let r := State.vmapOnly w (mapWf m && mapCarriersOk m s.issue.ctx.val (partVregs s.icore.team.part)) (mapInstall m)
    (if mapPseudo w.a then [w.dst.toNat] else []) (realV [w.a])
  .next (s.slot (.vmapSet w) w.hd { r with faults := c.pseudoFaults w.dst.toNat [w.a] ++ r.faults })

def execVmapCopy (w : RWord) (s : State) : Host.Outcome State Fault Refusal :=
  .next (s.slot (.vmapCopy w) w.hd (State.vmapOnly w true (s.ictx.vmapSrc w) (realV [w.a]) []))

/-- `.off`: ORIGIN[d] moves; a listed dimension gives NONE. -/
def vmapOffMap (m : MapBits) (d : Nat) (x : Imm56) : MapBits :=
  if isNone m || mapLists m d then 0 else mapSetOrigin m d (mapOrigin m d + (x.extractLsb' 0 24).toInt)

def execVmapOff (w : RWord) (s : State) : Host.Outcome State Fault Refusal :=
  let m := s.ictx.vmapSrc w
  .next (s.slot (.vmapOff w) w.hd (s.vmapData w (dimOk m (vmapD w)) (vmapOffMap m (vmapD w) (BitVec.ofNat 56 (immVal w.hd)))))

/-- `.slice`: ORIGIN[d] moves back and EXTENT[d] is replaced; a listed dimension gives NONE. -/
def vmapSliceMap (m : MapBits) (d : Nat) (x : Imm56) : MapBits :=
  if isNone m || mapLists m d then 0
  else mapSetExtent (mapSetOrigin m d (mapOrigin m d - (x.extractLsb' 0 24).toNat)) d (x.extractLsb' 24 24).toNat

def execVmapSlice (w : RWord) (s : State) : Host.Outcome State Fault Refusal :=
  let m := s.ictx.vmapSrc w
  .next (s.slot (.vmapSlice w) w.hd (s.vmapData w (dimOk m (vmapD w)) (vmapSliceMap m (vmapD w) (BitVec.ofNat 56 (immVal w.hd)))))

def swapDim (d d2 x : Nat) : Nat := if x = d then d2 else if x = d2 then d else x

/-- `.tr`: dimensions d and d2 exchanged. -/
def vmapTrMap (m : MapBits) (d d2 : Nat) : MapBits :=
  if isNone m then 0
  else
    let put (x : MapBits) (a b : Nat) : MapBits :=
      mapSetExtent (mapSetStep (mapSetOrigin (mapSetShape x a (mapShape m b)) a (mapOrigin m b)) a (mapStep m b)) a (mapExtent m b)
    let x := put (put m d d2) d2 d
    let x := (List.range (mapRank m)).foldl (fun x j => mapSetOrder x j (swapDim d d2 (mapOrder m j))) x
    (mapCars m).foldl (fun x k => mapSetCdim x k (swapDim d d2 (mapCdim m k))) x

def execVmapTr (w : RWord) (s : State) : Host.Outcome State Fault Refusal :=
  let m := s.ictx.vmapSrc w
  let r := vmapTrMap m (vmapD w) (vmapD2 w)
  .next (s.slot (.vmapTr w) w.hd (s.vmapData w (dimOk m (vmapD w) && dimOk m (vmapD2 w) && mapWf r) r))

def execVmapNone (w : RWord) (s : State) : Host.Outcome State Fault Refusal :=
  .next (s.slot (.vmapNone w) w.hd (State.vmapOnly w true 0 [] []))

/-- `.tag`: VTAG := VALUE[15:0]. -/
def execVmapTag (w : RWord) (s : State) : Host.Outcome State Fault Refusal :=
  let m := s.ictx.vmapSrc w
  .next (s.slot (.vmapTag w) w.hd (s.vmapData w true (if isNone m then 0 else mapSetVtag m (immVal w.hd % 2 ^ 16))))

/-! ## Coordinates, noise and masks -/

/-- R147: coordinate d, or `flat` for d = 4; A's data is not read. -/
def execVcoord (w : RWord) (s : State) : Host.Outcome State Fault Refusal :=
  let c := s.ictx
  let b := tyWidth (vTy w.ty)
  let m := c.mapOf w.a.toNat
  let r := s.vecRes w 2 b [w.a] (some m) (vecOf b (fun i => if w.fn.toNat = 4 then c.flat m i else c.coord m i w.fn.toNat))
  .next (s.slot (.vcoord w) w.hd { r with faults := c.mapNone w.a.toNat, maps := [w.a.toNat], data := some [] })

/-- R149: the key is sB, or GSTEP at issue with KEYG. -/
def execVnoise (w : RWord) (s : State) : Host.Outcome State Fault Refusal :=
  let c := s.ictx
  let b := tyWidth (if w.ty = 0 then 6 else w.ty)
  let m := c.mapOf w.a.toNat
  let key := if w.fn.getLsbD 8 then s.gstep.zeroExtend 64 else c.sReg w.b
  let r := s.vecRes w 2 b [w.a] (some m)
    (vecOf b (fun i => (noise key (w.fn.toNat % 256) ((List.range 4).map (c.coord m i))).toNat))
  .next (s.slot (.vnoise w) w.hd { r with faults := c.mapNone w.a.toNat, maps := [w.a.toNat], data := some [] })

/-- The rule of a kind of `VMASKC` on x, y and the parameter (R150). -/
abbrev MaskRule := Nat → Nat → Word → Bool

/-- The bit of element i (R150): the rule, and on a map that is not NONE the edge and VALID tests. -/
def Ctx.maskBit (c : Ctx) (w : RWord) (rule : MaskRule) (i : Nat) : Bool :=
  let m := c.vmapSrc w
  let da := w.fn.toNat % 4
  let db := w.fn.toNat / 4 % 4
  let dbs := w.fn.getLsbD 4
  let x := c.coord m i da
  let y := if dbs then (c.sReg w.c).toNat % 2 ^ 24 else c.coord m i db
  rule x y (c.sReg w.b)
    && (isNone m || (i < mapValid m
        && !(w.fn.getLsbD 8 && (mapExtent m da ≤ x || (!dbs && mapExtent m db ≤ y)))))

/-- A `VMASKC`; a pseudo-operand in A has no map (log 25). -/
def State.vmaskc (s : State) (w : RWord) (rule : MaskRule) : SlotRes :=
  let c := s.ictx
  let r := s.vpred w 2 (tyWidth w.ty) [] (c.maskBit w rule) []
  { r with
    faults := if isNone (c.vmapSrc w) && !c.mapsoft then [(.mapNone, w.a.zeroExtend 64)] else []
    maps := realV [w.a], data := some [] }

def execVmaskcCausal (w : RWord) (s : State) : Host.Outcome State Fault Refusal :=
  .next (s.slot (.vmaskcCausal w) w.hd (s.vmaskc w (fun x y _ => x ≤ y)))

def execVmaskcBand (w : RWord) (s : State) : Host.Outcome State Fault Refusal :=
  .next (s.slot (.vmaskcBand w) w.hd (s.vmaskc w (fun x y b => ((x : Int) - y).natAbs ≤ b.toInt)))

def execVmaskcWin (w : RWord) (s : State) : Host.Outcome State Fault Refusal :=
  .next (s.slot (.vmaskcWin w) w.hd (s.vmaskc w (fun x y b =>
    (b.extractLsb' 0 32).toInt ≤ (y : Int) - x && (y : Int) - x ≤ (b.extractLsb' 32 32).toInt)))

def execVmaskcLt (w : RWord) (s : State) : Host.Outcome State Fault Refusal :=
  .next (s.slot (.vmaskcLt w) w.hd (s.vmaskc w (fun x _ b => (x : Int) < b.toInt)))

def execVmaskcGe (w : RWord) (s : State) : Host.Outcome State Fault Refusal :=
  .next (s.slot (.vmaskcGe w) w.hd (s.vmaskc w (fun x _ b => b.toInt ≤ (x : Int))))

/-! ## Accumulator ports -/

/-- The tile and row of `VACR` and `VACW`. -/
def accTile (w : RWord) : Nat := w.fn.toNat % 16
def accRowNo (w : RWord) (b : Word) : Nat := (w.fn.toNat / 16 % 128 + b.toNat) % 128

/-- The row of a tile as it stands. -/
def State.accRead (s : State) (w : RWord) : VecBits :=
  accRowOf s.icore.team (128 * accTile w + accRowNo w (s.ictx.sReg w.b))

/-- Element r of a carrier of a tile map, of any context of the team (R154). -/
def Team.carrierElem (t : Team) (m : MapBits) (k r : Nat) : Nat :=
  match t.ctxs.toList[mapCctx m k]? with
  | some x => elem (x.vReg (mapCreg m k)) r 32
  | none => 0

/-- One row of a tile as a map with SHAPE 1 and VALID 128; a tile map's VALID reads as 16,384 (R154, R186). -/
def rowOf (m : MapBits) (s : Nat) (origin : Int) : MapBits :=
  mapSetValid (mapSetShape (mapSetOrigin m s origin) s 1) 128

/-- The map of row r by the tile map m, for context k (R154). -/
def Team.rowMap (t : Team) (m : MapBits) (k r : Nat) : MapBits :=
  let c := mapOrder m 0
  let s := mapOrder m 1
  if isAffine m then
    if mapShape m c = 128 then rowOf m s (mapOrigin m s + mapStep m s * r) else 0
  else if !isListed m then 0
  else match (mapCars m).find? (fun j => mapCdim m j == s) with
    | none => 0
    | some j =>
      let row := rowOf m s (t.carrierElem m j r : Nat)
      match (mapCars m).find? (fun j => mapCdim m j == c) with
      | none => mapInstall (mapSetKind row 1)
      | some i =>
        if mapCctx m i ≠ k then 0
        else mapInstall (mapSetCctx (mapSetCdim (mapSetCreg (mapSetNcar row 1) 0 (mapCreg m i)) 0 c) 0 k)

/-- R154. -/
def execVacr (w : RWord) (s : State) : Host.Outcome State Fault Refusal :=
  let t := s.icore.team
  let m := t.rowMap (t.tileMaps.toList.getD (accTile w) 0) s.issue.ctx.val (accRowNo w (s.ictx.sReg w.b))
  .next (s.slot (.vacr w) w.hd (s.vecRes w 5 32 [] (some m) (s.accRead w)))

/-- The row as `VACW` writes it, in cycle issue + 3 and under the guard. -/
def State.accWrite (s : State) (w : RWord) (x : VecBits) : Effect :=
  .act 3 (.accRow (128 * accTile w + accRowNo w (s.ictx.sReg w.b)) x (guardMask (s.ictx.guard w.hd) 32))

/-- The register whose map a pseudo-operand of `VACW` reads (log 16). -/
def State.accSrc (s : State) (w : RWord) (i : Nat) : Nat := s.ictx.src w.hd (srcMapReg noMapReg [w.a]) w.a 32 i

def State.accRes (s : State) (w : RWord) (effects : List Effect) : SlotRes :=
  { faults := s.ictx.pseudoFaults noMapReg [w.a], effects := effects
    maps := if mapPseudo w.a then [noMapReg] else [], data := some (realV [w.a]) }

/-- R155, ADD = 0. -/
def execVacw (w : RWord) (s : State) : Host.Outcome State Fault Refusal :=
  .next (s.slot (.vacw w) w.hd (s.accRes w [s.accWrite w (vecOf 32 (s.accSrc w))]))

/-- R155, ADD = 1. -/
def execVacwAdd (w : RWord) (s : State) : Host.Outcome State Fault Refusal :=
  let old := s.accRead w
  let rs := (List.range 128).map (fun i =>
    let (v, x) := fAdd (fp32.decode (elem old i 32)) (fp32.decode (s.accSrc w i))
    let (p, y) := fp32.deliver .rne v
    (p, x.or y))
  .next (s.slot (.vacwAdd w) w.hd (s.accRes w (s.accWrite w (BitVec.ofNat 4096 (packBits 32 (rs.map (·.1))))
    :: s.excFx w.hd.unit (activeExc (s.ictx.guard w.hd) 32 rs))))

end Sys2Proof.Machine
end

