-- ==== Sys2Proof/Machine/Copy.lean ====
section
/-! DEFINITION. The copies `CPY`, `CPYM`, `CPYL` and `CPYH` (R198 to R204): their words, and the runs of their commands. -/

namespace Sys2Proof.Machine

/-! ## CPY (R200) -/

/-- DIR: is it `.out`? -/
def dirOut (w : EWord) : Bool := w.fn.getLsbD 0

/-- R190, R198, R200. -/
def execCpy (w : EWord) (s : State) : Host.Outcome State Fault Refusal :=
  .next (s.slot (.cpy w) w.hd (s.viewRes (.cpy w) w [] (!dirOut w)))

/-- The descriptor and GSTEP are read once, when the command starts (R193, R199). -/
def State.readView (s : State) (e : Eng) (c : Cmd) : Cmd :=
  if c.blob = [] then { c with blob := s.engPad e c.aOff 128, g := s.gstep } else c

/-- The ERR of a view that fails before any transfer, in the order of R199. -/
def View.fault (v : View) (mw sw size : Nat) : Option (BitVec 7) :=
  if v.bad then some 0x02 else if v.misaligned mw then some 0x04 else if v.outside sw size then some 0x03 else none

/-- R200: the view's elements move, unless the view fails. -/
def State.runCpy (s : State) (e : Eng) (c : Cmd) (out : Bool) : State × Cmd :=
  if e.size < c.aOff + 128 then s.endCmd c 0x03 0
  else
    let c := s.readView e c
    let v := viewOf c.blob
    let c := { c with ranges := [c.reads 128, v.range v.sw (!out)] }
    match v.fault v.mw v.sw e.size with
    | some x => s.endCmd c x 0
    | none =>
      let ps := v.parts v.mw v.sw
      if s.taggedBad e e.asid (if out then .write else .read) (!v.raw) v.mw ps then s.failCmd e c 0x02
      else
        let (s, c) := s.overParts (v.mover e out) e e.asid c (restParts c ps)
        s.succeed e c v.count

/-! ## CPYM (R202) -/

/-- BAR: does each copy make an arrival? -/
def cpymBar (w : EWord) : Bool := w.fn.getLsbD 4

/-- R202: BAR = 1 outside a gang traps BAR_SCOPE with TVAL 1. -/
def execCpym (w : EWord) (s : State) : Host.Outcome State Fault Refusal :=
  let c := s.issue.core
  let alone := match s.taskAt c with | some t => t.tcb.gang == 0 | none => true
  let a := s.ictx.enAddr w
  .next (s.slot (.cpym w) w.hd
    (s.enRes (.cpym w) w (alignFaults 32 a ++ (if cpymBar w && alone then [(.barScope, 1)] else []))
      (readRange a 128 :: (if s.maskOwn c (s.ictx.sReg w.b) then [s.wholeRange true] else [])) []))

/-- The gang member that a position of the issuing cluster runs, none when the core is neither the issuing core nor in
the gang. A task without a gang has its own core as member 0. -/
def State.maskMember (s : State) (c : Fin 208) (pos : Nat) : Option (Fin 200) :=
  let num (n : Nat) : Fin 200 := ⟨n % 200, Nat.mod_lt _ (by decide)⟩
  match s.taskAt c with
  | none => if pos = s.posOf c then some 0 else none
  | some t =>
    if pos = s.posOf c then some (num (if t.tcb.gang = 0 then 0 else memberOf t c))
    else if t.tcb.gang = 0 then none
    else match s.physOf (groupOf c) (s.clusterBase c + pos) with
      | some x => if (s.coreAt x).task == some t.id then some (num (memberOf t x)) else none
      | none => none

/-- The members of a mask, none when the mask is invalid (ERR 0x10). -/
def State.maskMembers (s : State) (c : Fin 208) (mask : Word) : Option (List (Fin 200)) :=
  let ms := ((List.range 4).filter (fun p => mask.getLsbD p)).map (s.maskMember c)
  if mask = 0 || 16 ≤ mask.toNat || ms.any (·.isNone) then none else some (ms.filterMap id)

/-- Pieces of 4 KiB in a cluster slice, and the most that one command holds (R264). -/
def slicePieces : Nat := 512
def pieceBytes : Nat := 4096
def cmdPieces : Nat := 16

/-- Bytes cut into pieces. -/
def piecesOf (id : Nat) (bs : List Byte) : List Piece :=
  (chunked pieceBytes ((bs.length + pieceBytes - 1) / pieceBytes) bs).map (fun b => { cmd := id, data := b })

/-- What a command has staged, and the slices without it (R264). -/
def State.stagedBy (s : State) (id : Nat) : List Byte :=
  ((s.slices.toList.flatten.filter (fun p => p.cmd == id)).map (·.data)).flatten
def State.freePieces (s : State) (id : Nat) : State := { s with slices := s.slices.map (fun l => l.filter (fun p => p.cmd != id)) }

/-- Elements lo to hi - 1 of a view. -/
def View.slice (v : View) (lo hi : Nat) : List Part := ((v.parts v.mw v.sw).map (fun p => p.clip v.mw v.sw lo hi)).flatten

/-- The move of elements from memory to the slice: their bytes stand in the blob until all are read. -/
def View.stager (v : View) : Mover :=
  { acc := .read, reads := true, bytes := v.mw, pad := v.sw
    act := fun s c p pa =>
      let (bs, x) := v.convertAll c.g v.mty v.sty v.mw v.sw p.at_ (c.asKept p.va (memRead s.mem pa (v.mw * p.n)))
      (s, { c with blob := c.blob ++ bs, exc := c.exc.add x })
    old := fun _ _ _ => [], put := fun s _ _ _ => s }

/-- Elements from where the copy stands up to `hi` are read for staging. -/
def State.stageView (s : State) (e : Eng) (c : Cmd) (v : View) (hi : Nat) : State × Cmd :=
  s.overParts v.stager e e.asid { c with state := .queued, blob := c.blob.take 128 } (v.slice c.moved hi)

/-- The core on which a member of the command's gang runs. -/
def State.targetCore (s : State) (h : CmdHome) (m : Fin 200) : Option (Fin 208) :=
  match h with
  | .frame _ _ => none
  | .core c => match s.taskAt c with
    | none => some c
    | some t => if t.tcb.gang = 0 then some c else (t.cores[m.val]?).map computeCore

/-- The members of a `CPYM`'s mask. -/
def Cmd.members (c : Cmd) : List (Fin 200) := c.got.map (fun n => ⟨n % 200, Nat.mod_lt _ (by decide)⟩)

/-- After a failure every copy's elements that follow are each old or new (R196). -/
def State.spillCopies (s : State) (e : Eng) (c : Cmd) (v : View) : State :=
  (c.members.filterMap (s.targetCore e.home)).foldl (fun s x =>
    s.leaveRest (v.mover { e with home := .core x } false) e e.asid c (v.slice c.moved v.count)) s

/-- The 64-byte blocks that a part touches. -/
def Part.blocks (p : Part) (mw : Nat) : List Nat :=
  (List.range ((p.va + mw * p.n - 1) / 64 + 1 - p.va / 64)).map (fun i => 64 * (p.va / 64 + i))

/-- What a command keeps once elements lo to hi - 1 are staged: the blocks of TAGGED pages that it has read and of which it has bytes
still to move. Each such block is read once, as a whole (R244, R276). -/
def State.keepBlocks (s : State) (e : Eng) (c : Cmd) (v : View) (lo hi : Nat) : List Host.Cell :=
  let later := if hi < v.count then v.slice hi v.count else []
  let due (b : Nat) : Bool := later.any (fun p => p.va < b + 64 && b < p.va + v.mw * p.n)
  let old := c.kept.filter (fun x => due (x.1 / 64 * 64))
  let new := ((((v.slice lo hi).map (fun p => p.blocks v.mw)).flatten).dedup).filter (fun b => due b && !old.any (fun x => x.1 == b))
  old ++ (new.map (fun b => match (s.translate e.tlb e.asid b .read).2 with
    | .ok (pa, true) => (List.range 64).map (fun i => (b + i, memGet s.mem (pa + i)))
    | _ => [])).flatten

/-- R202, R264: the elements that follow are staged, up to 16 pieces of them, and a copy into each masked core follows as an
event of its own; without free pieces the command waits. Elements staged before a fault are copied first. -/
def State.cpymNext (s : State) (e : Eng) (c : Cmd) (v : View) : State × Cmd :=
  let hi := min v.count (c.moved + cmdPieces * pieceBytes / v.sw)
  if slicePieces < (s.slices.get e.tlb).length + ((hi - c.moved) * v.sw + pieceBytes - 1) / pieceBytes then (s, { c with state := .waiting })
  else
    let r := s.stageView e c v hi
    let (t, d) := if r.2.state == .queued || r.2.moved ≤ c.moved then r else s.stageView e c v r.2.moved
    match d.state with
    | .queued =>
      let t := { t with slices := t.slices.set e.tlb (t.slices.get e.tlb ++ piecesOf c.id (d.blob.drop 128)) }
      (d.members.foldl (fun s m => s.now (event .cpymCoreCopy (.copy { core := e.core, id := c.id, target := m }))) t
      , { d with blob := d.blob.take 128, state := .waiting, moved := c.moved, targets := d.members
                 kept := s.keepBlocks e c v c.moved (c.moved + (d.blob.length - 128) / v.sw) })
    | .done => ((t.spillCopies e d v).cmdExc e d, d)
    | _ => (t, d)

/-- R202: the view is read once and staged in the cluster slice. -/
def State.runCpym (s : State) (e : Eng) (c : Cmd) : State × Cmd :=
  match (if c.blob = [] then s.maskMembers e.core c.b else some c.members) with
  | none => s.endCmd c 0x10 0
  | some ms =>
    if e.size < c.aOff + 128 then s.endCmd c 0x03 0
    else
      let c := { s.readView e c with got := ms.map Fin.val }
      let v := viewOf (c.blob.take 128)
      let c := { c with ranges := c.reads 128 :: (if s.maskOwn e.core c.b then [v.range v.sw true] else []) }
      match v.fault v.mw v.sw e.size with
      | some x => s.endCmd c x 0
      | none =>
        if s.taggedBad e e.asid .read (!v.raw) v.mw (v.parts v.mw v.sw) then s.failCmd e c 0x02
        else s.cpymNext e c v

/-- Staged bytes land at the places of parts in a scratchpad. -/
def Team.putParts (t : Team) (sw : Nat) : List Part → List Byte → Team
  | [], _ => t
  | p :: r, bs => (t.engPut p.spad (bs.take (sw * p.n))).putParts sw r (bs.drop (sw * p.n))

/-- One copy of what is staged: the member's scratchpad, with the last elements its arrival, and after the last member the
end of the command or the elements that follow (R85, R202, R264). -/
def State.cpymCopy (s : State) (e : Eng) (c : Cmd) (m : Fin 200) (x : Fin 208) : State × Cmd :=
  let v := viewOf (c.blob.take 128)
  let data := s.stagedBy c.id
  let hi := c.moved + data.length / v.sw
  let s := s.updTeam x (fun t => t.putParts v.sw (v.slice c.moved hi) data)
  let s := match c.instr with
    | .cpym w => if cpymBar w && v.count ≤ hi then s.updBarrier e.core 1 (w.fn.toNat % 16) Barrier.arrive else s
    | _ => s
  let c := { c with targets := c.targets.filter (fun y => y != m) }
  if c.targets != [] then (s, c)
  else
    let s := s.freePieces c.id
    if v.count ≤ hi then s.succeed e { c with state := .queued } v.count
    else (s, { c with moved := hi })

/-- CPYM_CORE_COPY (R202); a member whose team is out waits for its restore (R195). -/
def execCpymCoreCopy (s : State) : Host.Outcome State Fault Refusal :=
  .next (match s.ev with
    | .copy r =>
      match s.findCmd { core := r.core, id := r.id } with
      | some (h, c) =>
        match s.targetCore h r.target with
        | some x =>
          if c.state == .waiting && c.targets.contains r.target then
            let (s, c) := s.cpymCopy (s.eng { core := r.core, id := r.id } h) c r.target x
            s.putCmdAt h c
          else s
        | none => s
      | none => s
    | _ => s)

/-! ## CPYL (R203, R204) -/

def cpylTile (w : EWord) : Nat := w.fn.toNat % 16
def cpylOut (w : EWord) : Bool := w.fn.getLsbD 4
def cpylFmt (w : EWord) : Nat := (w.fn.extractLsb' 6 2).toNat
def cpylRnd (w : EWord) : Nat := (w.fn.extractLsb' 8 2).toNat

/-- First row and rows of sB, none when they are out of range (ERR 0x11). -/
def cpylRows (b : Word) : Option (Nat × Nat) :=
  let r0 := b.toNat % 128
  let m := b.toNat / 256 % 256
  if b.getLsbD 7 || 2 ^ 16 ≤ b.toNat || m = 0 || 128 < r0 + m then none else some (r0, m)

/-- Bytes of a row of FMT (R203). -/
def cpylRow (w : EWord) : Nat := if cpylFmt w = 0 then 512 else 256

/-- The tile is busy from issue until its last access performs (R203). -/
def State.cpylRes (s : State) (i : Instr) (w : EWord) (len : Nat) (write : Bool) : SlotRes :=
  let a := s.ictx.enAddr w
  s.enRes i w [] [{ lo := a, hi := a + len, write := write }] [.busy (w.fn.extractLsb' 0 4)]

/-- R203. -/
def execCpyl (w : EWord) (s : State) : Host.Outcome State Fault Refusal :=
  let m := (s.ictx.sReg w.b).toNat / 256 % 256
  .next (s.slot (.cpyl w) w.hd (s.cpylRes (.cpyl w) w (m * cpylRow w) (cpylOut w)))

/-- R204. -/
def execCpylTopk (w : EWord) (s : State) : Host.Outcome State Fault Refusal :=
  let m := (s.ictx.sReg w.b).toNat / 256 % 256
  .next (s.slot (.cpylTopk w) w.hd (s.cpylRes (.cpylTopk w) w (8 * ((s.ictx.sReg w.c).toNat % 128) * m) true))

/-- Coordinate d of the element in row r and column c of a tile: a listed dimension takes the element of its carrier that
stands at the place along it (R18, R21, R186). -/
def Team.tileCoord (t : Team) (m : MapBits) (r c d : Nat) : Nat :=
  if mapRank m ≤ d then 0
  else match (mapCars m).find? (fun k => mapCdim m k == d) with
    | some k => t.carrierElem m k (if mapOrder m 0 = d then c else r) % 2 ^ 24
    | none => ((mapOrigin m d + mapStep m d * mapPlace m d (128 * r + c) (mapDims m)) % (2 ^ 24 : Nat)).toNat

/-- The tile's busy bit clears (R203). -/
def Team.freeTile (t : Team) (n : Nat) : Team := { t with tileBusy := t.tileBusy &&& ~~~(BitVec.ofNat 16 (2 ^ n)) }

def State.endCpyl (s : State) (e : Eng) (c : Cmd) (w : EWord) (err : BitVec 7) (value : Nat) : State × Cmd :=
  let (s, c) := s.endCmd c err value
  ((s.updHome e.home (fun t => t.freeTile (cpylTile w))).cmdExc e c, c)

/-- Element c of row r of the tile on its way to the scratchpad (R203); at `.f32` its 32 bits, a signalling
NaN as it is (DEDUCED, log 196). -/
def Team.cpylElem (t : Team) (w : EWord) (g : BitVec 32) (m : MapBits) (r c : Nat) : Nat × Exc :=
  let x := elem (accRowOf t (128 * cpylTile w + r)) c 32
  if cpylFmt w = 0 then (x, excNone)
  else
    let mode : RMode := match cpylRnd w with
      | 0 => .rne
      | 1 => .rtz
      | _ => .sr ((noise (g.zeroExtend 64) 0 ((List.range 4).map (t.tileCoord m r c))).toNat % 2 ^ 16)
    convertPat 7 (if cpylFmt w = 1 then 8 else 9) mode x

/-- R203: rows r0 to r0 + m − 1 move, when nothing fails. -/
def State.runCpyl (s : State) (e : Eng) (c : Cmd) (w : EWord) : State × Cmd :=
  let t := s.homeTeam e.home
  let map := t.tileMaps.toList.getD (cpylTile w) 0
  let len := cpylRow w
  match cpylRows c.b with
  | none => s.endCpyl e c w 0x11 0
  | some (r0, m) =>
    if !cpylOut w && (cpylFmt w = 2 || cpylRnd w ≠ 0) then s.endCpyl e c w 0x02 0
    else if e.size < c.aOff + m * len then s.endCpyl e c w 0x03 0
    else if cpylRnd w = 2 && isNone map then s.endCpyl e c w 0x12 0
    else if cpylOut w then
      let row (j : Nat) : List (Nat × Exc) := (List.range 128).map (t.cpylElem w s.gstep map (r0 + j))
      let rows := (List.range m).map row
      let s := s.engPadWrite e c.aOff ((rows.map (fun l => (l.map (fun p => bytesOf (len / 128) p.1)).flatten)).flatten)
      s.endCpyl e { c with exc := countExc ((rows.map (fun l => l.map (·.2))).flatten) } w 0 m
    else
      let wide (l : List Byte) : VecBits :=
        if cpylFmt w = 0 then BitVec.ofNat 4096 (natOf l)
        else BitVec.ofNat 4096 (packBits 32 ((elemsOf 2 l).map (fun x => x * 2 ^ 16)))
      let s := (List.range m).foldl (fun s j => s.updHome e.home (fun t =>
        { t with acc := storePutD 0 t.acc (128 * cpylTile w + r0 + j) (wide (s.engPad e (c.aOff + j * len) len)) })) s
      s.endCpyl e c w 0 m

/-- Does (value, index) x rank above y (R151, R204)? -/
def rankAbove (x y : Nat × Nat) : Bool :=
  let a := fp32.decode x.1
  let b := fp32.decode y.1
  if a.isNan then b.isNan && x.2 < y.2
  else if b.isNan then true
  else match fOrd a b with
    | .gt => true
    | .eq => x.2 < y.2
    | .lt => false

def rankInsert (x : Nat × Nat) : List (Nat × Nat) → List (Nat × Nat)
  | [] => [x]
  | y :: r => if rankAbove x y then x :: y :: r else y :: rankInsert x r

/-- (value, index) pairs in descending rank. -/
def rankSort (l : List (Nat × Nat)) : List (Nat × Nat) := l.foldl (fun acc x => rankInsert x acc) []

/-- The columns of a row that take part, with their indices (R204). -/
def Team.topCols (t : Team) (tile : Nat) (m : MapBits) (r : Nat) : List (Nat × Nat) :=
  let d := mapOrder m 0
  let ix (c : Nat) : Nat := if isNone m then c else t.tileCoord m r c d
  ((List.range 128).filter (fun c => isNone m || ix c < mapExtent m d)).map (fun c =>
    (elem (accRowOf t (128 * tile + r)) c 32, ix c))

/-- The k places of a row: values, then indices (R204). -/
def topRecord (k : Nat) (l : List (Nat × Nat)) : List Byte :=
  let l := (rankSort l).take k ++ List.replicate (k - l.length) (0xFF800000, 0xFFFFFFFF)
  (l.map (fun p => bytesOf 4 p.1)).flatten ++ (l.map (fun p => bytesOf 4 p.2)).flatten

/-- R204. -/
def State.runTopk (s : State) (e : Eng) (c : Cmd) (w : EWord) : State × Cmd :=
  let t := s.homeTeam e.home
  let k := c.c.toNat
  match cpylRows c.b with
  | none => s.endCpyl e c w 0x11 0
  | some (r0, m) =>
    if k = 0 || 64 < k then s.endCpyl e c w 0x11 0
    else if e.size < c.aOff + 8 * k * m then s.endCpyl e c w 0x03 0
    else
      let map := t.tileMaps.toList.getD (cpylTile w) 0
      let s := s.engPadWrite e c.aOff (((List.range m).map (fun j => topRecord k (t.topCols (cpylTile w) map (r0 + j)))).flatten)
      s.endCpyl e c w 0 m

/-! ## CPYH (R201, R277, R367) -/

/-- R190, R198, R201. -/
def execCpyh (w : EWord) (s : State) : Host.Outcome State Fault Refusal :=
  .next (s.slot (.cpyh w) w.hd (s.viewRes (.cpyh w) w [] (!dirOut w)))

/-- A handle entry (R277). -/
structure Handle where
  haddr : Nat
  len : Nat
  ep : Nat
  bound : Bool
  rd : Bool
  wr : Bool
  deriving DecidableEq, Repr

def handleOf (b : List Byte) : Handle :=
  let f := natAt b 20 1
  { haddr := natAt b 0 8, len := natAt b 8 6, ep := natAt b 16 3, bound := f.testBit 0, rd := f.testBit 1, wr := f.testBit 2 }

/-- Entries of a control core's own table (R277). -/
def controlHandles : Nat := 1024

/-- Where a task's handle table stands (R33, R277). -/
def State.handleTable (s : State) (e : Eng) : Nat := match s.homeTask e.home with | some t => t.tcb.htab.toNat | none => 0

/-- The header and the entry of a handle: bytes, none when it is at or above COUNT, or the fault that stops the command. -/
inductive HandleRead
  | entry (l : List Byte)
  | unbound
  | stop (c : Cmd)
  deriving DecidableEq, Repr

def State.readHandle (s : State) (e : Eng) (c : Cmd) (h : Nat) : State × HandleRead :=
  match s.homeTask e.home with
  | none =>
    let base := Config.firmwarePlace 0
    if natOf (s.engPad e base 4) ≤ h || controlHandles ≤ h then (s, .unbound) else (s, .entry (s.engPad e (base + 32 + 32 * h) 32))
  | some _ =>
    let base := s.handleTable e
    match s.cmdRead e c e.asid base 4 with
    | (s, .stop c) => (s, .stop c)
    | (s, .bytes l) =>
      if natOf l ≤ h then (s, .unbound)
      else match s.cmdRead e c e.asid ((base + 32 + 32 * h) % 2 ^ 56) 32 with
        | (s, .stop c) => (s, .stop c)
        | (s, .bytes l) => (s, .entry l)

/-- The messages of a transfer: at most 4096 bytes of one row each (R367). `va` is the host address. -/
def View.messages (v : View) (haddr : Nat) : List Part :=
  let mw := v.mw
  let n0 := v.n.toList.getD 0 1
  let per := 4096 / mw
  ((List.range v.rows).map (fun r =>
    (List.range ((n0 + per - 1) / per)).map (fun j =>
      ({ at_ := r * n0 + j * per, va := (haddr + v.rowMem r + mw * (j * per)) % 2 ^ 64
         spad := v.rowPad r + v.sw * (j * per), n := min per (n0 - j * per) } : Part)))).flatten

/-- Send the messages of a transfer. -/
def View.sendAll (v : View) (e : Eng) (c : Cmd) (h : Handle) (out : Bool) (s : State) : State × Cmd :=
  (v.messages h.haddr).foldl (fun (a : State × Cmd) p =>
    let (s, c) := a
    if out then
      let (bs, x) := v.convertAll c.g v.sty v.mty v.sw v.mw p.at_ (s.engPad e p.spad (v.sw * p.n))
      (s.send (.fabric h.ep (some (e.ref c)) (.write 0 p.va bs)), { c with exc := c.exc.add x })
    else (s.send (.fabric h.ep (some (e.ref c)) (.read 0 p.va (v.mw * p.n))), c)) (s, c)

/-- R201: every check comes before any transfer; then the messages go out and the command waits for the host. The address of an
entry of a task's table that it read while bound stands in `aux` for `HUNBIND`, whatever the end (R278). -/
def State.runCpyh (s : State) (e : Eng) (c : Cmd) (out : Bool) : State × Cmd :=
  if 2 ^ 16 ≤ c.b.toNat then s.endCmd c 0x02 0
  else if e.size < c.aOff + 128 then s.endCmd c 0x03 0
  else
    let c := s.readView e c
    let v := viewOf (c.blob.take 128)
    let c := { c with ranges := [c.reads 128, v.range v.sw (!out)] }
    match v.fault v.mw v.sw e.size with
    | some x => s.endCmd c x 0
    | none =>
      match s.readHandle e c c.b.toNat with
      | (s, .stop c) => (s, c)
      | (s, .unbound) => s.endCmd c 0x18 0
      | (s, .entry l) =>
        let h := handleOf l
        if !h.bound then s.endCmd c 0x18 0
        else
        let c := { c with aux := if (s.homeTask e.home).isSome then s.handleTable e + 32 + 32 * c.b.toNat else 0 }
        if (List.range v.rows).any (fun r => h.len < v.rowMem r + v.mw * v.n.toList.getD 0 1) then s.endCmd c 0x19 0
        else if (if out then !h.wr else !h.rd) then s.endCmd c 0x08 0
        else
          let c := { c with blob := c.blob.take 128 ++ l, state := .waiting }
          v.sendAll e c h out s

/-- Elements in the longest run of answered messages from the first (R196). -/
def answeredPrefix (got : List Nat) : List Part → Nat → Nat
  | [], _ => 0
  | p :: r, i => if got.contains i then p.n + answeredPrefix got r (i + 1) else 0

/-- The host's answer to message number n of a transfer: the data of an `.in` is written, a refusal ends the command with
ERR 0x06 (R201, R277, R367). -/
def State.hostAnswer (s : State) (e : Eng) (c : Cmd) (out : Bool) (err : BitVec 7) (n : Nat) (data : List Byte) : State × Cmd :=
  let v := viewOf (c.blob.take 128)
  let ms := v.messages (handleOf (c.blob.drop 128)).haddr
  if err ≠ 0 then
    ((s.record e.core Cause.hostFault.code 0 c.baddr (c.b.zeroExtend 64) []).cmdExc e c).endCmd c 0x06 (answeredPrefix c.got ms 0)
  else match ms[n]? with
    | none => (s, c)
    | some p =>
      if c.got.contains n then (s, c)
      else
        let (s, c) :=
          if out then (s, c)
          else
            let (bs, x) := v.convertAll c.g v.mty v.sty v.mw v.sw p.at_ (data.take (v.mw * p.n))
            (s.engPadWrite e p.spad bs, { c with exc := c.exc.add x })
        let c := { c with got := n :: c.got }
        if c.got.length = ms.length then s.succeed e { c with state := .queued } v.count else (s, c)

end Sys2Proof.Machine
end

