-- ==== Sys2Proof/Machine/Kv.lean ====
section
/-! DEFINITION. KV spaces and their commands (R217 to R227, R304 to R316): the structures in device memory, taking and
freeing blocks, the walk, promotions from the far tier, and the commands but for the attention sequencer. -/

namespace Sys2Proof.Machine

/-! ## Actions on a space's structures

An action reads and writes the structures in the space's address space. Its writes are kept apart until the action is
whole, so that an action that stops leaves the structures as they were (R223, R311). -/

/-- Why an action stops. -/
inductive KvStop
  | fault (cause : Cause) (va : Nat)
  | poison (pa : Nat)
  | err (e : BitVec 7)
  /-- an ERR whose cause is reported -/
  | report (e : BitVec 7) (cause : Cause) (tval : Nat)
  /-- a consumer has met a far page, at a position -/
  | far (header pos : Nat)
  deriving DecidableEq, Repr

/-- The device with the writes of the action so far, oldest first, and the engine's place. `noTag` says that the action may
not read a TAGGED page either (R276). -/
structure KvSt where
  s : State
  log : List (Nat × List Byte)
  tlb : Fin 48
  space : BitVec 4
  noTag : Bool
  deriving DecidableEq, Repr

abbrev KvM (α : Type) := ExceptT KvStop (StateM KvSt) α

def KvM.run (m : KvM α) (s : State) (tlb : Fin 48) (space : BitVec 4) : Except KvStop α × KvSt :=
  StateT.run (ExceptT.run m) { s := s, log := [], tlb := tlb, space := space, noTag := false }

/-- The device once the writes of an action are made. -/
def KvSt.commit (k : KvSt) : State := k.log.foldl (fun s w => s.pwrite w.1 w.2) k.s

/-! Fields of a space descriptor (R304). -/

def kvField (d : KvDesc) (byte lo n : Nat) : Nat := (d.extractLsb' (8 * byte + lo) n).toNat
def kvBita (d : KvDesc) : Nat := kvField d 0 0 56
def kvPool (d : KvDesc) : Nat := kvField d 8 0 56
def kvRpool (d : KvDesc) : Nat := kvField d 16 0 56
def kvHpool (d : KvDesc) : Nat := kvField d 24 0 56
def kvNseq (d : KvDesc) : Nat := kvField d 32 0 21
def kvLayers (d : KvDesc) : Nat := kvField d 36 0 8 + 1
def kvHeads (d : KvDesc) : Nat := kvField d 37 0 8 + 1
def kvRb (d : KvDesc) : Nat := kvField d 38 0 13
def kvPt (d : KvDesc) : Nat := 16 * 2 ^ kvField d 40 0 3
def kvV (d : KvDesc) : Bool := kvField d 40 3 1 == 1
def kvPfxl (d : KvDesc) : Nat := kvField d 41 0 5
def kvAsid (d : KvDesc) : BitVec 8 := d.extractLsb' (8 * 42) 8
def kvPhaseq (d : KvDesc) : Nat := kvField d 43 0 7
def kvPhe (d : KvDesc) : Bool := kvField d 43 7 1 == 1
def kvFare (d : KvDesc) : Nat := kvField d 44 0 24
def kvEpoch (d : KvDesc) : Nat := kvField d 48 0 32
def kvLate (d : KvDesc) : Nat := kvField d 52 0 32
def kvPfxa (d : KvDesc) : Nat := kvField d 56 0 56

/-- A field of 32 bits replaced. -/
def kvSet32 (d : KvDesc) (byte x : Nat) : KvDesc :=
  BitVec.ofNat 512 (d.toNat - kvField d byte 0 32 * 2 ^ (8 * byte) + x % 2 ^ 32 * 2 ^ (8 * byte))

def State.kvDesc (s : State) (space : BitVec 4) : KvDesc := s.spaces.get ⟨space.toNat, space.isLt⟩

def State.setKvDesc (s : State) (space : BitVec 4) (d : KvDesc) : State :=
  { s with spaces := s.spaces.set space.toNat d space.isLt }

/-- The descriptor of the action's space. -/
def kvD : KvM KvDesc := do
  let k ← get
  pure (k.s.kvDesc k.space)

def kvTranslate (va : Nat) (acc : Access) : KvM (Nat × Bool) := do
  let k ← get
  let r := k.s.translate k.tlb (kvAsid (k.s.kvDesc k.space)) (va % 2 ^ 56) acc
  set { k with s := r.1 }
  match r.2 with
  | .error c => throw (KvStop.fault c (va % 2 ^ 56))
  | .ok p => pure p

/-- Bytes read at a physical address with the action's own writes over them. -/
def overlay (a : Nat) (bs : List Byte) (w : Nat × List Byte) : List Byte :=
  if w.1 + w.2.length ≤ a || a + bs.length ≤ w.1 then bs
  else (bs.zip (List.range bs.length)).map (fun p =>
    if w.1 ≤ a + p.2 && a + p.2 < w.1 + w.2.length then w.2.getD (a + p.2 - w.1) 0 else p.1)

def kvReadParts : List (Nat × Nat) → KvM (List Byte)
  | [] => pure []
  | (va, n) :: r => do
    let (pa, tag) ← kvTranslate va .read
    let k ← get
    if tag && k.noTag then throw (KvStop.err 0x08)
    match k.s.poisonIn pa n with
    | some q => throw (KvStop.poison q)
    | none =>
      let rest ← kvReadParts r
      pure (k.log.foldl (fun bs w => overlay pa bs w) (memRead k.s.mem pa n) ++ rest)

def kvRead (va n : Nat) : KvM (List Byte) := kvReadParts (pageParts (n / 4096 + 2) va n)

def kvNat (va n : Nat) : KvM Nat := do
  let b ← kvRead va n
  pure (natOf b)

/-- From here on an action that meets a TAGGED page fails with ERR 0x08 (R276). -/
def kvNoTag : KvM Unit := modify (fun k => { k with noTag := true })

/-- An action that stops without harm: what it has read so far stays read. -/
def kvTry (m : KvM α) (other : α) : KvM α := tryCatch m (fun _ => pure other)

/-- A write; a TAGGED page fails it with ERR 0x08 (R276). -/
def kvWriteParts : List (Nat × Nat) → List Byte → KvM Unit
  | [], _ => pure ()
  | (va, n) :: r, bs => do
    let (pa, tag) ← kvTranslate va .write
    if tag then throw (KvStop.err 0x08)
    modify (fun k => { k with log := k.log ++ [(pa, bs.take n)] })
    kvWriteParts r (bs.drop n)

def kvWrite (va : Nat) (bs : List Byte) : KvM Unit := kvWriteParts (pageParts (bs.length / 4096 + 2) va bs.length) bs

def kvPut (va n x : Nat) : KvM Unit := kvWrite va (bytesOf n x)

/-! ## Pools (R304) -/

/-- The first free block of a pool; an empty one fails with ERR 0x43 (R311). -/
def kvTake (word : Nat) : KvM Nat := do
  let b ← kvNat word 8
  if b % 2 ^ 56 = 0 then throw (KvStop.report 0x43 .kvPool word)
  let n ← kvNat (b % 2 ^ 56) 8
  kvPut word 8 n
  pure (b % 2 ^ 56)

/-- Return a block to a pool. -/
def kvGive (word b : Nat) : KvM Unit := do
  let n ← kvNat word 8
  kvPut b 8 n
  kvPut word 8 b

/-! ## Sequences and chains (R305 to R307) -/

/-- The address of a table entry. -/
def kvEntryAt (d : KvDesc) (seq : Nat) : Nat := (kvBita d + 8 * seq) % 2 ^ 56

def entryV (x : Nat) : Bool := x.testBit 0
def entryRo (x : Nat) : Bool := x.testBit 1
def entryRoot (x : Nat) : Nat := x % 2 ^ 56 / 64 * 64

/-- An entry with its ROOT and flags replaced; its reserved bits stay. -/
def entryMake (old root : Nat) (ro : Bool) : Nat := old / 2 ^ 56 * 2 ^ 56 + root + old % 64 / 4 * 4 + 2 * ro.toNat + 1

/-- The entry of a sequence that resolves (R305). -/
def kvEntry (seq : Nat) : KvM Nat := do
  let d ← kvD
  if kvNseq d ≤ seq then throw (KvStop.err 0x40)
  let e ← kvNat (kvEntryAt d seq) 8
  if entryV e then pure e else throw (KvStop.err 0x40)

/-- The entry of a sequence for an append, which reads no TAGGED page (R276). -/
def kvEntryNoTag (seq : Nat) : KvM Nat := do
  kvNoTag
  kvEntry seq

/-- Root tables have this many chains. -/
def kvChains (d : KvDesc) : Nat := kvLayers d * kvHeads d

def kvChainAt (root k : Nat) : Nat := (root + 64 + 32 * k) % 2 ^ 56

/-- Fields of a KV address (R219). -/
def kvaSeq (a : Word) : Nat := (a.extractLsb' 40 20).toNat
def kvaLayer (a : Word) : Nat := (a.extractLsb' 32 8).toNat
def kvaHead (a : Word) : Nat := (a.extractLsb' 24 8).toNat
def kvaPos (a : Word) : Nat := (a.extractLsb' 0 24).toNat

/-- A chain descriptor (R306). -/
structure KvChain where
  at_ : Nat
  tail : Nat
  commit : Nat
  pcommit : Nat
  epoch : Nat
  deriving DecidableEq, Repr

def kvChain (at_ : Nat) : KvM KvChain := do
  let b ← kvRead at_ 20
  pure { at_ := at_, tail := natAt b 0 7, commit := natAt b 8 3, pcommit := natAt b 12 3, epoch := natAt b 16 4 }

/-- The published length (R307). -/
def KvChain.published (c : KvChain) (d : KvDesc) : Nat := if c.epoch = kvEpoch d then c.pcommit else c.commit

/-- The chain that a KV address names in the root table of an entry (R305). -/
def kvChainOf (a : Word) (e : Nat) : KvM KvChain := do
  let d ← kvD
  kvChain (kvChainAt (entryRoot e) (kvaLayer a * kvHeads d + kvaHead a))

/-! ## Pages (R309, R310) -/

/-- A page header. -/
structure KvPage where
  at_ : Nat
  succ : Nat
  skip : Nat
  first : Nat
  count : Nat
  fmt : Nat
  refs : Nat
  pver : Nat
  ros : Bool
  far : Bool
  prom : Bool
  data : Nat
  deriving DecidableEq, Repr

def kvPage (p : Nat) : KvM KvPage := do
  let b ← kvRead p 64
  let f := natAt b 36 1
  pure { at_ := p, succ := natAt b 0 7, skip := natAt b 8 7, first := natAt b 16 3, count := natAt b 20 2 % 512, fmt := natAt b 22 1
         refs := natAt b 24 4, pver := natAt b 32 4, ros := f.testBit 0, far := f.testBit 1, prom := f.testBit 2, data := natAt b 40 7 }

def kvBad (p : Nat) : KvStop := .report 0x02 .kvBad p

/-- Are FIRST and COUNT as the rules have them? -/
def KvPage.ok (p : KvPage) (d : KvDesc) : Bool := p.first % kvPt d == 0 && 1 ≤ p.count && p.count ≤ kvPt d

/-- The walk to the page that holds position q (R310): `last` is the header before. FIRST falls with every move, so the
fuel is enough for every chain that keeps the rules. -/
def kvFind (q : Nat) : Nat → Nat → Nat → KvM KvPage
  | 0, last, _ => throw (kvBad last)
  | fuel + 1, last, p => do
    if p = 0 then throw (kvBad last)
    let d ← kvD
    let h ← kvPage p
    if !h.ok d then throw (kvBad p)
    if h.first ≤ q then
      if q < h.first + h.count then pure h else throw (kvBad p)
    else if h.skip = 0 then kvFind q fuel p h.succ
    else
      let k ← kvPage h.skip
      if q / kvPt d ≤ k.first / kvPt d then kvFind q fuel p h.skip else kvFind q fuel p h.succ

def kvFuel : Nat := 2 ^ 20 + 1

/-- The page of a position whose rows a consumer reads: a far one stops it (R315). -/
def kvNear (tail q : Nat) : KvM KvPage := do
  let h ← kvFind q kvFuel tail tail
  if h.far then throw (KvStop.far h.at_ q) else pure h

/-- The rows of tokens q to q + n − 1 of one page, K or V rows (R309). -/
def kvRows (h : KvPage) (v : Bool) (q n : Nat) : KvM (List Byte) := do
  let d ← kvD
  kvRead (h.data + (if v then kvPt d * kvRb d else 0) + (q - h.first) * kvRb d) (n * kvRb d)

/-! ## References and freeing (R312) -/

/-- SPACE of a KV word. -/
def kvSpace (w : EWord) : BitVec 4 := w.fn.extractLsb' 0 4

/-- The pages of a space that running sequencers, `KVLD` and `KVAPP` commands hold (R312, R313): with its page a slot holds
every older page of the chain, since only a freed page gives up its reference to the next. -/
def Team.kvHolds (t : Team) (space : BitVec 4) (p : Nat) : Bool :=
  (t.seq.running && t.seq.space == space && t.seq.page == p)
    || t.cmds.any (fun c => match c.instr with | .kvld w | .kvapp w => kvSpace w == space && c.aux == p | _ => false)

def State.kvHeld (s : State) (space : BitVec 4) (p : Nat) : Bool :=
  allCores.any (fun c => (s.coreAt c).team.kvHolds space p) || s.tasks.any (fun t => t.frames.any (fun f => f.kvHolds space p))

/-- Change the REFS word at an address by adding. -/
def kvRef (at_ : Nat) (up : Bool) : KvM Nat := do
  let n ← kvNat at_ 4
  let m := if up then n + 1 else n - 1
  kvPut at_ 4 m
  pure m

/-- Free a page without references and what that frees down the chain. -/
def kvFreePage : Nat → Nat → KvM Unit
  | 0, _ => pure ()
  | fuel + 1, p => do
    let k ← get
    if k.s.kvHeld k.space p then pure ()
    else
      let d ← kvD
      let h ← kvPage p
      if !h.far then kvGive (kvPool d) h.data
      kvGive (kvHpool d) p
      if h.succ = 0 then pure ()
      else
        let n ← kvRef (h.succ + 24) false
        if n = 0 then kvFreePage fuel h.succ else pure ()

/-- A page loses one reference. -/
def kvDropPage (p : Nat) : KvM Unit := do
  let n ← kvRef (p + 24) false
  if n = 0 then kvFreePage kvFuel p else pure ()

/-- The tail pages of a root table. -/
def kvTails (root : Nat) : KvM (List Nat) := do
  let d ← kvD
  let b ← kvRead (root + 64) (32 * kvChains d)
  pure (((List.range (kvChains d)).map (fun k => natAt b (32 * k) 7)).filter (fun t => t != 0))

/-- A root table loses one reference. -/
def kvDropRoot (root : Nat) : KvM Unit := do
  let n ← kvRef root false
  if n = 0 then
    let d ← kvD
    let ts ← kvTails root
    ts.forM kvDropPage
    kvGive (kvRpool d) root
  else pure ()

/-- A slot has released a page: it is freed when nothing else refers to it (R312). -/
def kvRelease (p : Nat) : KvM Unit := do
  if p = 0 then pure ()
  else
    let h ← kvPage p
    if h.refs = 0 then kvFreePage kvFuel p else pure ()

/-! ## Appending (R307, R311) -/

/-- A new page after t: header first, then the data block, whose lack returns the header. -/
def kvNewBlocks : KvM (Nat × Nat) := do
  let d ← kvD
  let p ← kvTake (kvHpool d)
  let b ← kvTake (kvPool d)
  pure (p, b)

/-- The bytes of a page header. -/
def KvPage.bytes (h : KvPage) : List Byte :=
  bytesOf 8 h.succ ++ bytesOf 8 h.skip ++ bytesOf 4 h.first ++ bytesOf 2 h.count ++ bytesOf 1 h.fmt ++ [0] ++ bytesOf 4 h.refs
    ++ List.replicate 4 0 ++ bytesOf 4 h.pver ++ bytesOf 4 (h.ros.toNat + 2 * h.far.toNat + 4 * h.prom.toNat) ++ bytesOf 8 h.data
    ++ List.replicate 16 0

/-- The table of the sequence, split when it is shared: its address. -/
def kvSplit (seq e : Nat) : KvM Nat := do
  let d ← kvD
  let root := entryRoot e
  let n ← kvNat root 4
  if n ≤ 1 then pure root
  else
    let r ← kvTake (kvRpool d)
    let r := r / 64 * 64
    let b ← kvRead root (64 + 32 * kvChains d)
    kvWrite r (bytesOf 4 1 ++ b.drop 4)
    let ts ← kvTails root
    ts.forM (fun t => do let _ ← kvRef (t + 24) true; pure ())
    kvPut root 4 (n - 1)
    kvPut (kvEntryAt d seq) 8 (entryMake e r (entryRo e))
    pure r

/-- The page to which the next token of a chain goes: the tail, a new page, or a private copy of a shared one. -/
def kvTailPage (c : KvChain) : KvM KvPage := do
  let d ← kvD
  let pt := kvPt d
  if c.tail = 0 then
    let (p, b) ← kvNewBlocks
    kvPut c.at_ 8 p
    pure { at_ := p, succ := 0, skip := 0, first := 0, count := 0, fmt := 8, refs := 1, pver := 0, ros := false, far := false, prom := false, data := b }
  else
    let t ← kvPage c.tail
    if !t.ok d then throw (kvBad c.tail)
    if t.count = pt then
      let (p, b) ← kvNewBlocks
      kvPut c.at_ 8 p
      let i := (t.first + pt) / pt
      pure { at_ := p, succ := t.at_, skip := if (i - 1) % 64 = 0 then t.at_ else t.skip, first := t.first + pt, count := 0, fmt := t.fmt
             refs := 1, pver := 0, ros := false, far := false, prom := false, data := b }
    else
      if t.far then throw (KvStop.far t.at_ c.commit)
      if 1 < t.refs || t.ros then
        let (p, b) ← kvNewBlocks
        let k ← kvRead t.data (t.count * kvRb d)
        let v ← kvRead (t.data + pt * kvRb d) (t.count * kvRb d)
        kvWrite b k
        kvWrite (b + pt * kvRb d) v
        if t.succ != 0 then
          let _ ← kvRef (t.succ + 24) true
        kvDropPage t.at_
        kvPut c.at_ 8 p
        pure { t with at_ := p, refs := 1, ros := false, data := b }
      else pure t

/-- Token number `j` of an append is written: K row, V row, COUNT and COMMIT. -/
def kvAppendRow (c : KvChain) (k v : List Byte) : KvM Unit := do
  let d ← kvD
  let h ← kvTailPage c
  kvWrite (h.data + h.count * kvRb d) k
  kvWrite (h.data + (kvPt d + h.count) * kvRb d) v
  if h.count = 0 || h.at_ != c.tail then kvWrite h.at_ { h with count := h.count + 1 }.bytes
  else kvPut (h.at_ + 20) 2 (h.count + 1)
  kvPut (c.at_ + 8) 4 (c.commit + 1)

/-! ## Sharing (R223, R224, R312) -/

/-- Bind DST entries to root tables: every source is read before any entry is written; then the old tables lose their
references. Each triple is (DST, its old entry, the new root). -/
def kvBind (ro : Bool) (l : List (Nat × Nat × Nat)) : KvM Unit := do
  let d ← kvD
  l.forM (fun p => do let _ ← kvRef p.2.2 true; pure ())
  l.forM (fun p => kvPut (kvEntryAt d p.1) 8 (entryMake p.2.1 p.2.2 ro))
  l.forM (fun p => if entryV p.2.1 then kvDropRoot (entryRoot p.2.1) else pure ())

/-- Set ROS on the tail page of every chain of a root table (R311). -/
def kvMarkTails (root : Nat) : KvM Unit := do
  let ts ← kvTails root
  ts.forM (fun t => do
    let f ← kvNat (t + 36) 1
    kvPut (t + 36) 1 (if f % 2 = 0 then f + 1 else f))

/-- A sequence that resolved to entry `e` becomes read-only: the tail pages of that root table, and its entry while it names that
table. A remap since then stands after this, and its entry as it left it (R219; DEDUCED, log 208). -/
def kvFreeze (seq e : Nat) : KvM Unit := do
  let d ← kvD
  let now ← kvNat (kvEntryAt d seq) 8
  if entryV now && entryRoot now == entryRoot e then kvPut (kvEntryAt d seq) 8 (entryMake now (entryRoot e) true)
  kvMarkTails (entryRoot e)

/-- The entries of DST sequences, valid or not. -/
def kvEntries (l : List Nat) : KvM (List Nat) := do
  let d ← kvD
  l.mapM (fun q => kvNat (kvEntryAt d q) 8)

/-- `KVREMAP` of pairs (SRC, DST) (R223). -/
def kvRemap (pairs : List (Nat × Nat)) : KvM Unit := do
  let d ← kvD
  if pairs.any (fun p => kvNseq d ≤ p.1 || kvNseq d ≤ p.2) then throw (KvStop.err 0x47)
  let src ← kvEntries (pairs.map (·.1))
  if src.any (fun e => !entryV e) then throw (KvStop.err 0x47)
  let dst ← kvEntries (pairs.map (·.2))
  let l := ((pairs.zip (src.zip dst)).filter (fun p => p.1.1 != p.1.2)).map (fun p => (p.1.2, p.2.2, entryRoot p.2.1))
  kvBind false l

/-- `KVSHARE` of a source, which resolved to entry `e`, with DST sequences (R224). -/
def kvShare (src e : Nat) (dsts : List Nat) : KvM Unit := do
  let d ← kvD
  if dsts.any (fun q => kvNseq d ≤ q) then throw (KvStop.err 0x47)
  let old ← kvEntries dsts
  kvBind true (((dsts.zip old).filter (fun p => p.1 != src)).map (fun p => (p.1, p.2, entryRoot e)))
  kvFreeze src e

/-! ## The prefix index (R226, R314) -/

/-- What a search of a bucket chain ends with: the entry found, or the first free place, or the last bucket. -/
inductive PfxEnd
  | found (x : Nat)
  | free (at_ : Nat)
  | full (last : Nat)
  deriving DecidableEq, Repr

/-- The entries of one bucket: HASH and the word beside it. -/
def pfxEntries (b : List Byte) : List (Nat × Nat) := (List.range 3).map (fun i => (natAt b (16 * i) 8, natAt b (16 * i + 8) 8))

/-- Search the chain from a bucket. -/
def pfxSearch (hash : Nat) : Nat → Option Nat → Nat → KvM PfxEnd
  | 0, free, b => pure (match free with | some a => .free a | none => .full b)
  | fuel + 1, free, b => do
    let l ← kvRead b 64
    let es := pfxEntries l
    match es.find? (fun e => e.2.testBit 63 && e.1 == hash) with
    | some e => pure (.found e.2)
    | none =>
      let here := ((List.range 3).find? (fun i => !(es.getD i (0, 0)).2.testBit 63)).map (fun i => b + 16 * i)
      let free := match free with | some a => some a | none => here
      let next := natAt l 48 7
      if next = 0 then pure (match free with | some a => .free a | none => .full b)
      else pfxSearch hash fuel free next

/-- The bucket of a hash; a space without an index fails with ERR 0x40. -/
def pfxBucket (hash : Nat) : KvM Nat := do
  let d ← kvD
  if kvPfxa d = 0 then throw (KvStop.err 0x40)
  pure (kvPfxa d + 64 * (hash % 2 ^ kvPfxl d))

/-- VAL of an index entry: SEQ, LENGTH and LOST (R226). -/
def pfxVal (x : Nat) (lost : Bool) : Nat := x % 2 ^ 44 + lost.toNat * 2 ^ 44

def pfxFuel : Nat := 2 ^ 26

def pfxFind (hash : Nat) : KvM Nat := do
  let b ← pfxBucket hash
  match ← pfxSearch hash pfxFuel none b with
  | .found x => pure (pfxVal x false)
  | _ => throw (KvStop.err 0x44)

/-- Insert a hash for a sequence, which resolved to entry `e` and whose published length, that of its chain of layer 0 and head
0, is `len` (R226). -/
def pfxInsert (hash seq e len : Nat) (adopt : Bool) : KvM Nat := do
  let d ← kvD
  let b ← pfxBucket hash
  let c ← kvChain (kvChainAt (entryRoot e) 0)
  if c.published d != len then throw (KvStop.err 0x42)
  let word := 2 ^ 63 + len * 2 ^ 20 + seq
  match ← pfxSearch hash pfxFuel none b with
  | .found x =>
    if adopt && x % 2 ^ 20 != seq then kvRemap [(x % 2 ^ 20, seq)]
    pure (pfxVal x true)
  | .free a =>
    kvPut a 8 hash
    kvPut (a + 8) 8 word
    kvFreeze seq e
    pure (pfxVal word false)
  | .full last =>
    let n ← kvTake (kvHpool d)
    kvWrite n (bytesOf 8 hash ++ bytesOf 8 word ++ List.replicate 48 0)
    kvPut (last + 48) 8 n
    kvFreeze seq e
    pure (pfxVal word false)

/-! ## Promotions (R315) -/

/-- Start a promotion: PVER is recorded, PROM set, and a block taken. -/
def kvPromote (header : Nat) : KvM (KvPage × Nat) := do
  let d ← kvD
  let h ← kvPage header
  let b ← kvTake (kvPool d)
  kvPut (header + 36) 1 (h.ros.toNat + 2 * h.far.toNat + 4)
  pure (h, b)

/-- Bytes of a data block. -/
def kvBlockLen (d : KvDesc) : Nat := 2 * kvPt d * kvRb d

/-- Install far data, or discard it: the answer says whether it was installed. Bytes 32 to 47 are written as one. -/
def kvInstall (p : Promotion) : KvM Bool := do
  let d ← kvD
  let h ← kvPage p.header
  if h.pver == p.version.toNat && h.far then
    kvWrite p.block (p.data.take (kvBlockLen d))
    kvWrite (p.header + 32) (bytesOf 4 h.pver ++ bytesOf 4 h.ros.toNat ++ bytesOf 8 p.block)
    pure true
  else
    kvGive (kvPool d) p.block
    pure false

/-- A promotion that was lost: the block goes back, and the page stays far. -/
def kvAbandon (p : Promotion) : KvM Unit := do
  let d ← kvD
  kvGive (kvPool d) p.block
  let h ← kvPage p.header
  if h.pver == p.version.toNat && h.far then kvPut (h.at_ + 36) 1 (h.ros.toNat + 2)

/-! ## Commands -/

/-- The word of a KV command. -/
def kvWord : Instr → Option EWord
  | .kvld w | .kvapp w | .kvremap w | .kvshare w | .kvprom w | .pfxfind w | .pfxins w | .attn w => some w
  | _ => none

/-- Ask the far tier for the rows of a page; the promotion is in flight, for the stream of the work that started it (R365). -/
def State.askFar (s : State) (space : BitVec 4) (host : BitVec 3) (by_ : Option CmdRef) (h : KvPage) (block : Nat) : State :=
  let d := s.kvDesc space
  { s with promotions := s.promotions ++ [({ space := space, header := h.at_, version := BitVec.ofNat 32 h.pver, block := block, data := [], prom := by_, host := host } : Promotion)] }.send
    (.fabric (kvFare d) by_ (.read (kvAsid d) h.data (kvBlockLen d)))

/-- How a stop ends or parks a command; none for a far page, which `kvStop` treats. -/
def State.kvEnd (s : State) (e : Eng) (c : Cmd) (asid : BitVec 8) (x : KvStop) : State × Cmd :=
  match x with
  | .fault x va => s.cmdFault e c asid x va
  | .poison pa => s.poisonFault e c pa
  | .err x => s.endCmd c x c.moved
  | .report x cause tval => (s.record e.core cause.code 0 c.baddr (BitVec.ofNat 64 tval) []).endCmd c x c.moved
  | .far _ _ => (s, c)

/-- The KV address of a consumer: that of its operand, or of the sequencer's start record. -/
def State.kvaOf (s : State) (e : Eng) (c : Cmd) : Word :=
  match c.instr with
  | .attn _ => (s.homeTeam e.home).seq.attn.kva
  | _ => c.b

/-- A consumer that stops: a far page starts a demand promotion and parks it; KV_FAR is posted with the KV address of the
row (R315, R316, log 56). -/
def State.kvStop (s : State) (e : Eng) (c : Cmd) (space : BitVec 4) (x : KvStop) : State × Cmd :=
  let d := s.kvDesc space
  match x with
  | .far p pos =>
    match (kvPromote p).run s e.tlb space with
    | (.error y, k) => k.s.kvEnd e c (kvAsid d) y
    | (.ok (h, b), k) =>
      let va := (s.kvaOf e c).toNat / 2 ^ 24 * 2 ^ 24 + pos % 2 ^ 24
      ((k.commit.askFar space e.host (some (e.ref c)) h b).record e.core Cause.kvFar.code 0 c.baddr (BitVec.ofNat 64 va) []
      , { c with state := .parked .kvFar (kvAsid d) p })
  | x => s.kvEnd e c (kvAsid d) x

/-- Run an action of a command: its answer with the state, or the stopped command. -/
def State.kvDo (s : State) (e : Eng) (c : Cmd) (space : BitVec 4) (m : KvM α) (ok : State → α → State × Cmd) : State × Cmd :=
  match m.run s e.tlb space with
  | (.ok x, k) => ok k.commit x
  | (.error x, k) => k.s.kvStop e c space x

/-- SEQ resolves once, when the command starts: the entry that it gave is kept (R219). -/
def State.kvSeq (s : State) (e : Eng) (c : Cmd) (space : BitVec 4) (entry : KvM Nat) (ok : State → Cmd → Nat → State × Cmd) : State × Cmd :=
  match c.seqs with
  | [] => s.kvDo e c space entry (fun s x => ok s { c with seqs := [x] } x)
  | x :: _ => ok s c x

/-- The record of a stop that ends no command (R347): its cause and address. -/
def State.kvReport (s : State) (k : Fin 48) (core : Fin 208) (baddr : BitVec 56) (asid : BitVec 8) (x : KvStop) : State :=
  let rec_ (c : Cause) (v : Nat) : State := s.record core c.code 0 baddr (BitVec.ofNat 64 v) []
  match x with
  | .fault c va => rec_ c (s.faultTval k asid c va)
  | .poison pa => rec_ .hbmUe pa
  | .report _ c v => rec_ c v
  | .err _ => s
  | .far _ _ => s

/-- A walker slot releases its page (R312). Its freeing parks while a page that it needs is absent; any other stop is reported
(R347, R356). -/
def State.kvUnhold (s : State) (e : Eng) (baddr : BitVec 56) (space : BitVec 4) (p : Nat) : State :=
  if p = 0 then s
  else match (kvRelease p).run s e.tlb space with
    | (.ok _, k) => k.commit
    | (.error (.fault .pageNp va), k) =>
      k.s.park (groupOf e.core) (kvAsid (s.kvDesc space)) va .pageNp va (.kvFree space p e.core baddr e.host) (some e.host)
    | (.error x, k) => k.s.kvReport e.tlb e.core baddr (kvAsid (s.kvDesc space)) x

/-- The command's slot holds another page from now on. -/
def State.kvHold (s : State) (e : Eng) (c : Cmd) (space : BitVec 4) (p : Nat) : State × Cmd :=
  if c.aux = p then (s, c)
  else
    let old := c.aux
    let c := { c with aux := p }
    ((s.putCmdAt e.home c).kvUnhold e c.baddr space old, c)

/-- The pages from one on in walk order, with their rows read; a fault ends the list (R313). -/
def kvAhead : Nat → Nat → KvM (List KvPage)
  | 0, _ => pure []
  | n + 1, p => kvTry (do
    if p = 0 then pure []
    else
      let d ← kvD
      let h ← kvPage p
      if !h.ok d then pure []
      else
        kvTry (do if h.far then pure () else let _ ← kvRead h.data (kvBlockLen d)) ()
        let r ← kvAhead n h.succ
        pure (h :: r)) []

/-- The run-ahead of a slot whose consumer stands at the page of position q, over the next four pages: it starts a prefetch
promotion of each far page that it meets and that has none in flight; what it cannot reach parks nothing (R313, R315). -/
def State.runAhead (s : State) (e : Eng) (space : BitVec 4) (page q : Nat) : State :=
  match (kvTry (do
      let h ← kvFind q kvFuel page page
      let l ← kvAhead 4 h.succ
      pure (l.filter (fun h => h.far && !h.prom))) [] : KvM (List KvPage)).run s e.tlb space with
  | (.error _, k) => k.s
  | (.ok l, k) => l.foldl (fun s h =>
      match (kvPromote h.at_).run s e.tlb space with
      | (.ok (h, b), k) => k.commit.askFar space e.host none h b
      | (.error _, k) => k.s) k.s

/-- The ERR of an operand before anything is read: an unconfigured space, reserved bits of a KV address, a layer or head
beyond the space's counts (R218). -/
def kvBadAddr (d : KvDesc) (a : Word) : Bool :=
  !kvV d || a.extractLsb' 60 4 != 0 || kvLayers d ≤ kvaLayer a || kvHeads d ≤ kvaHead a

/-- R217, R239: the range of n bytes at aA. -/
def State.kvRes (s : State) (i : Instr) (w : EWord) (ranges : List Range) : SlotRes := s.enRes i w [] ranges []

def execKvld (w : EWord) (s : State) : Host.Outcome State Fault Refusal :=
  .next (s.slot (.kvld w) w.hd (s.kvRes (.kvld w) w
    [writeRange (s.ictx.enAddr w) ((s.ictx.sReg w.c).toNat % 2 ^ 16 * kvRb (s.kvDesc (kvSpace w)))]))
def execKvapp (w : EWord) (s : State) : Host.Outcome State Fault Refusal :=
  .next (s.slot (.kvapp w) w.hd (s.kvRes (.kvapp w) w
    [readRange (s.ictx.enAddr w) (2 * ((s.ictx.sReg w.c).toNat % 2 ^ 16) * kvRb (s.kvDesc (kvSpace w)))]))
def execKvremap (w : EWord) (s : State) : Host.Outcome State Fault Refusal :=
  .next (s.slot (.kvremap w) w.hd (s.kvRes (.kvremap w) w [readRange (s.ictx.enAddr w) (8 * ((s.ictx.sReg w.c).toNat % 2 ^ 11))]))
def execKvshare (w : EWord) (s : State) : Host.Outcome State Fault Refusal :=
  .next (s.slot (.kvshare w) w.hd (s.kvRes (.kvshare w) w [readRange (s.ictx.enAddr w) (4 * ((s.ictx.sReg w.c).toNat % 2 ^ 11))]))
def execKvprom (w : EWord) (s : State) : Host.Outcome State Fault Refusal := .next (s.slot (.kvprom w) w.hd (s.kvRes (.kvprom w) w []))
def execPfxfind (w : EWord) (s : State) : Host.Outcome State Fault Refusal := .next (s.slot (.pfxfind w) w.hd (s.kvRes (.pfxfind w) w []))
def execPfxins (w : EWord) (s : State) : Host.Outcome State Fault Refusal := .next (s.slot (.pfxins w) w.hd (s.kvRes (.pfxins w) w []))

/-! ### KVLD (R221) -/

/-- The rows from a token on, of one page, or of those at or beyond the published length: their number and bytes. -/
def kvLoadRows (tail published : Nat) (v : Bool) (q n : Nat) : KvM (Nat × List Byte) := do
  let d ← kvD
  if published ≤ q then pure (n, List.replicate (n * kvRb d) 0)
  else
    let h ← kvNear tail q
    let m := min n (min (published - q) (h.first + h.count - q))
    let b ← kvRows h v q m
    pure (m, b)

/-- After a failure each byte of the rows that were still to come is old or new (R196). -/
def State.kvldRest (s : State) (e : Eng) (c : Cmd) (space : BitVec 4) (tail published : Nat) (v : Bool) (pos n rb : Nat) : State :=
  (List.range (n - c.moved)).foldl (fun s i =>
    let j := c.moved + i
    match (kvLoadRows tail published v (pos + j) 1).run s e.tlb space with
    | (.ok (_, b), k) =>
      let old := k.s.engPad e (c.aOff + j * rb) rb
      { k.s.engPadWrite e (c.aOff + j * rb) (mixBytes k.s.freeCtr none old b) with freeCtr := k.s.freeCtr + rb }
    | (.error _, _) => s) s

/-- Rows move page by page. -/
def State.kvldRows (s : State) (e : Eng) (space : BitVec 4) (tail published : Nat) (v : Bool) (pos n rb : Nat) : Nat → Cmd → State × Cmd
  | 0, c => (s, c)
  | fuel + 1, c =>
    if n ≤ c.moved then s.endCmd c 0 (min n (published - pos))
    else
      match (kvLoadRows tail published v (pos + c.moved) (n - c.moved)).run s e.tlb space with
      | (.error x, k) =>
        let (s, c) := k.s.kvStop e c space x
        match c.state with
        | .done => (s.kvldRest e c space tail published v pos n rb, c)
        | _ => (s, c)
      | (.ok (m, b), k) =>
        let s := k.s.engPadWrite e (c.aOff + c.moved * rb) b
        let s := if pos + c.moved < published then s.runAhead e space tail (pos + c.moved) else s
        s.kvldRows e space tail published v pos n rb fuel { c with moved := c.moved + m }

/-- R221. The chain is resolved once: its tail and published length stand in the first 12 bytes of the blob; `aux` is the
page that the walker slot holds. The slot runs ahead of the newest row wanted, and then of each page as its rows move. -/
def State.runKvld (s : State) (e : Eng) (c : Cmd) (w : EWord) : State × Cmd :=
  let space := kvSpace w
  let d := s.kvDesc space
  let n := c.c.toNat % 2 ^ 16
  let pos := kvaPos c.b
  if kvBadAddr d c.b || 2 ^ 16 ≤ c.c.toNat || n = 0 || 4096 < n || 2 ^ 24 < pos + n then s.endCmd c 0x40 0
  else if e.size < c.aOff + n * kvRb d then s.endCmd c 0x03 0
  else
    let go (s : State) (c : Cmd) : State × Cmd :=
      s.kvldRows e space (natAt c.blob 0 8) (natAt c.blob 8 4) (w.fn.getLsbD 4) pos n (kvRb d) (n + 1) c
    if c.blob = [] then
      s.kvSeq e c space (kvEntry (kvaSeq c.b)) (fun s c x => s.kvDo e c space (kvChainOf c.b x) (fun s ch =>
        let (s, c) := s.kvHold e { c with blob := bytesOf 8 ch.tail ++ bytesOf 4 (ch.published d) } space ch.tail
        let top := min (pos + n) (ch.published d)
        go (if pos < top then s.runAhead e space ch.tail (top - 1) else s) c))
    else go s c

/-! ### KVAPP (R222, R311) -/

/-- The start of an append through an entry: the address of the chain and its tail, after the split and R307. -/
def kvOpen (a : Word) (e : Nat) : KvM (Nat × Nat) := do
  kvNoTag
  let d ← kvD
  if entryRo e then throw (KvStop.report 0x41 .kvRo a.toNat)
  let root ← kvSplit (kvaSeq a) e
  let at_ := kvChainAt root (kvaLayer a * kvHeads d + kvaHead a)
  let c ← kvChain at_
  if c.epoch != kvEpoch d then
    kvPut (at_ + 12) 4 c.commit
    kvPut (at_ + 16) 4 (kvEpoch d)
  pure (at_, c.tail)

/-- One token: the tail page afterwards. -/
def kvAppend (at_ pos : Nat) (k v : List Byte) : KvM Nat := do
  kvNoTag
  let c ← kvChain at_
  if c.commit != pos then throw (KvStop.err 0x42)
  kvAppendRow c k v
  let c ← kvChain at_
  pure c.tail

def State.kvappRows (s : State) (e : Eng) (space : BitVec 4) (at_ pos n rb : Nat) : Nat → Cmd → State × Cmd
  | 0, c => (s, c)
  | fuel + 1, c =>
    if n ≤ c.moved then s.endCmd c 0 n
    else
      let k := s.engPad e (c.aOff + c.moved * rb) rb
      let v := s.engPad e (c.aOff + (n + c.moved) * rb) rb
      match (kvAppend at_ (pos + c.moved) k v).run s e.tlb space with
      | (.error x, k) => k.s.kvStop e c space x
      | (.ok p, k) =>
        let fresh := p != c.aux
        let (s, c) := k.commit.kvHold e c space p
        (if fresh then s.runAhead e space p (pos + c.moved) else s).kvappRows e space at_ pos n rb fuel { c with moved := c.moved + 1 }

/-! Appends to one chain are serialised in the order of their arrival (R222). One arrives when it has resolved SEQ: `got` is its chain
and its number. One that stops midway, on an absent page say, holds the later ones back until it ends. -/

/-- Every other append that stands in a space. -/
def State.otherAppends (s : State) (c : Cmd) (space : BitVec 4) : List (CmdHome × Cmd) :=
  s.allCmds.filter (fun x => x.2.id != c.id && x.2.state != .done && x.2.got != []
    && (match x.2.instr with | .kvapp w => kvSpace w == space | _ => false))

/-- The number of an append among the arrivals. -/
def Cmd.arrival (c : Cmd) : Nat := c.got.getD 1 0

/-- Does an append wait: for one that has begun on its chain, or for one that arrived earlier for the same sequence, layer and head
and can begin? -/
def State.appendWaits (s : State) (c : Cmd) (space : BitVec 4) (chain : Nat) : Bool :=
  (s.otherAppends c space).any (fun x =>
    if x.2.seqs != [] then x.2.got.headD 0 == chain
    else x.2.b >>> 24 == c.b >>> 24 && (match x.1 with | .core _ => true | .frame _ _ => false) && (c.got == [] || x.2.arrival < c.arrival))

/-- The chain of an append, and its number: after those that stand. -/
def State.appendArrives (s : State) (c : Cmd) (space : BitVec 4) (chain : Nat) : Cmd :=
  { c with got := [chain, if c.got = [] then 1 + ((s.otherAppends c space).map (fun x => x.2.arrival)).foldl max 0 else c.arrival] }

/-- R222. The address of the chain stands in the first 8 bytes of the blob; `aux` is the page that the walker slot holds, the
tail. The slot runs ahead from there, and from each new tail. -/
def State.runKvapp (s : State) (e : Eng) (c : Cmd) (w : EWord) : State × Cmd :=
  let space := kvSpace w
  let d := s.kvDesc space
  let n := c.c.toNat % 2 ^ 16
  let pos := kvaPos c.b
  if kvBadAddr d c.b || 2 ^ 16 ≤ c.c.toNat || n = 0 || 256 < n || 2 ^ 24 < pos + n then s.endCmd c 0x40 0
  else if e.size < c.aOff + 2 * n * kvRb d then s.endCmd c 0x03 0
  else
    let go (s : State) (c : Cmd) : State × Cmd := s.kvappRows e space (natAt c.blob 0 8) pos n (kvRb d) (n + 1) c
    if c.blob = [] then
      s.kvSeq e c space (kvEntryNoTag (kvaSeq c.b)) (fun s d x =>
        let chain := kvChainAt (entryRoot x) (kvaLayer c.b * kvHeads (s.kvDesc space) + kvaHead c.b)
        if !entryRo x && c.seqs == [] && s.appendWaits c space chain then (s, s.appendArrives c space chain)
        else
          let c := s.appendArrives d space chain
          s.kvDo e c space (kvOpen c.b x) (fun s p =>
            let (s, c) := s.kvHold e { c with blob := bytesOf 8 p.1, got := [p.1, c.arrival] } space p.2
            go (if pos = 0 then s else s.runAhead e space p.2 (pos - 1)) c))
    else go s c

/-! ### KVREMAP and KVSHARE -/

/-- The entries of a list of k bytes each, none when its count is out of range. -/
def State.kvList (s : State) (e : Eng) (c : Cmd) (k : Nat) : Except (BitVec 7) (List Nat) :=
  let n := c.c.toNat % 2 ^ 11
  if 2 ^ 11 ≤ c.c.toNat || n = 0 || 1024 < n then .error 0x47
  else if e.size < c.aOff + k * n then .error 0x03
  else .ok (elemsOf k (s.engPad e c.aOff (k * n)))

def hasDup : List Nat → Bool
  | [] => false
  | x :: r => r.contains x || hasDup r

/-- R223. -/
def State.runKvremap (s : State) (e : Eng) (c : Cmd) (w : EWord) : State × Cmd :=
  let space := kvSpace w
  if !kvV (s.kvDesc space) then s.endCmd c 0x40 0
  else match s.kvList e c 8 with
    | .error x => s.endCmd c x 0
    | .ok l =>
      let pairs := l.map (fun x => (x % 2 ^ 20, x / 2 ^ 32 % 2 ^ 20))
      if l.any (fun x => x / 2 ^ 20 % 2 ^ 12 != 0 || x / 2 ^ 52 != 0) || hasDup (pairs.map (·.2)) then s.endCmd c 0x47 0
      else s.kvDo e c space (kvRemap pairs) (fun s _ => s.endCmd c 0 l.length)

/-- R224. A nonzero LAYER, HEAD or POS of sB is a reserved operand bit (R218; DEDUCED, log 193). -/
def State.runKvshare (s : State) (e : Eng) (c : Cmd) (w : EWord) : State × Cmd :=
  let space := kvSpace w
  if kvBadAddr (s.kvDesc space) c.b || c.b.extractLsb' 0 40 != 0 then s.endCmd c 0x40 0
  else match s.kvList e c 4 with
    | .error x => s.endCmd c x 0
    | .ok l =>
      if l.any (fun x => 2 ^ 20 ≤ x) || hasDup l then s.endCmd c 0x47 0
      else s.kvSeq e c space (kvEntry (kvaSeq c.b)) (fun s c x => s.kvDo e c space (kvShare (kvaSeq c.b) x l) (fun s _ => s.endCmd c 0 l.length))

/-! ### KVPROM (R225) -/

/-- The far pages that hold positions `lo` to `hi - 1`, newest first. -/
def kvFarPages (tail lo : Nat) : Nat → Nat → KvM (List Nat)
  | 0, _ => pure []
  | fuel + 1, hi => do
    if hi ≤ lo then pure []
    else
      let h ← kvFind (hi - 1) kvFuel tail tail
      let r ← kvFarPages tail lo fuel h.first
      pure (if h.far then h.at_ :: r else r)

/-- Every promotion starts in one action; none when one cannot. -/
def kvPromoteAll (l : List Nat) : KvM (List (KvPage × Nat)) := l.mapM kvPromote

def kvPromRange (tail published pos n : Nat) : KvM (List (KvPage × Nat)) := do
  let l ← kvFarPages tail pos (n / 16 + 2) (min (pos + n) published)
  kvPromoteAll l

/-- R225: `aux` holds the counts of VAL; the command ends when every promotion has been installed or discarded. The chain is
resolved once, and its tail and published length stand in the blob (R219, R307). -/
def State.runKvprom (s : State) (e : Eng) (c : Cmd) (w : EWord) : State × Cmd :=
  let space := kvSpace w
  let d := s.kvDesc space
  let n := c.c.toNat
  if kvBadAddr d c.b || 2 ^ 24 ≤ n || n = 0 || 2 ^ 24 < kvaPos c.b + n then s.endCmd c 0x40 0
  else
    let go (s : State) (c : Cmd) : State × Cmd :=
      s.kvDo e c space (kvPromRange (natAt c.blob 0 8) (natAt c.blob 8 4) (kvaPos c.b) n) (fun s l =>
        if l = [] then s.endCmd c 0 0
        else
          (l.foldl (fun s p => s.askFar space e.host (some (e.ref c)) p.1 p.2) s, { c with state := .waiting }))
    if c.blob = [] then
      s.kvSeq e c space (kvEntry (kvaSeq c.b)) (fun s c x => s.kvDo e c space (kvChainOf c.b x) (fun s ch =>
        go s { c with blob := bytesOf 8 ch.tail ++ bytesOf 4 (ch.published d) }))
    else go s c

/-! ### PFXFIND and PFXINS (R226) -/

def State.runPfxfind (s : State) (e : Eng) (c : Cmd) (w : EWord) : State × Cmd :=
  let space := kvSpace w
  if !kvV (s.kvDesc space) then s.endCmd c 0x40 0
  else s.kvDo e c space (pfxFind c.b.toNat) (fun s x => s.endCmd c 0 x)

/-- R226. A nonzero LAYER or HEAD of sC is a reserved operand bit (R218; DEDUCED, log 194). -/
def State.runPfxins (s : State) (e : Eng) (c : Cmd) (w : EWord) : State × Cmd :=
  let space := kvSpace w
  if kvBadAddr (s.kvDesc space) c.c || c.c.extractLsb' 24 16 != 0 then s.endCmd c 0x40 0
  else s.kvSeq e c space (kvEntry (kvaSeq c.c)) (fun s c r => s.kvDo e c space (pfxInsert c.b.toNat (kvaSeq c.c) r (kvaPos c.c) (w.fn.getLsbD 4))
    (fun s x => s.endCmd c 0 x))

/-! ## The arrival of far data (R315) -/

/-- The promotion in flight that an arrival answers. -/
def State.promOf (s : State) (space : BitVec 4) (header block : Nat) : Option Promotion :=
  s.promotions.find? (fun p => p.space == space && p.header == header && p.block == block)

def State.dropProm (s : State) (p : Promotion) : State := { s with promotions := s.promotions.erase p }

/-- A `KVPROM` learns of an install or a discard, and ends with its last promotion (R225). -/
def State.promDone (s : State) (p : Promotion) (installed : Bool) : State :=
  match p.prom.bind s.findCmd with
  | none => s
  | some (h, c) =>
    match c.instr with
    | .kvprom _ =>
      if c.state == .waiting then
        let c := { c with aux := c.aux + (if installed then 1 else 2 ^ 24) }
        let (s, c) := if s.promotions.any (fun q => (q.prom.map (·.id)) == some c.id) then (s, c) else s.endCmd c 0 c.aux
        s.putCmdAt h c
      else s
    | _ => s

/-- Consumers parked on a page go on when it is near, or when it was their own promotion that was discarded. -/
def State.farDone (s : State) (asid : BitVec 8) (header : Nat) (near : Bool) (own : Option CmdRef) : State :=
  let wake (c : Cmd) : Cmd :=
    if c.state == .parked .kvFar asid header && (near || (own.map (·.id)) == some c.id) then { c with state := .queued, readyAt := s.cycle } else c
  let team (t : Team) : Team := { t with cmds := t.cmds.map wake }
  { s with cores := s.cores.map (fun x => if x.team.cmds = [] then x else { x with team := team x.team })
           tasks := s.tasks.map (fun t => { t with frames := t.frames.map team }) }

/-- The end of an arrival: installed, or discarded with LATE counted. -/
def State.promEnd (s : State) (p : Promotion) (installed : Bool) : State :=
  let d := s.kvDesc p.space
  let s := if installed then s else s.setKvDesc p.space (kvSet32 d 52 (kvLate d + 1))
  ((s.dropProm p).promDone p installed).farDone (kvAsid d) p.header installed p.prom

/-- The engine of a promotion, and its bundle: those of the command that started it, else the walker's of group 0, for the stream
that the promotion keeps (R365). -/
def State.promEng (s : State) (p : Promotion) : Eng × BitVec 56 :=
  match p.prom.bind (fun r => (s.findCmd r).map (fun x => (r, x))) with
  | some (r, h, c) => (s.eng r h, c.baddr)
  | none => ({ home := .core (controlCore 0), core := controlCore 0, tlb := firmwareCluster 0, asid := kvAsid (s.kvDesc p.space), size := 0, host := p.host }, 0)

/-- The data of a promotion arrives; while a page of the structures is absent the arrival waits for a RESUME, and any other
stop is reported and ends the promotion, which installs nothing (R347). -/
def State.promArrive (s : State) (p : Promotion) (data : List Byte) : State :=
  let asid := kvAsid (s.kvDesc p.space)
  let (e, b) := s.promEng p
  match (kvInstall { p with data := data }).run s e.tlb p.space with
  | (.error (.fault .pageNp va), k) =>
    k.s.park (groupOf e.core) asid va .pageNp va (.event (event .promotionInstall (.promotion { p with data := data }))) (some e.host)
  | (.error x, k) => (((k.s.kvReport e.tlb e.core b asid x).dropProm p).promDone p false).farDone asid p.header false p.prom
  | (.ok x, k) => k.commit.promEnd p x

/-- The block of a lost promotion goes back: `last` when a page that this needs can never be mapped. None when the loss waits
for its page (R273, R347). -/
def State.promBack (s : State) (p : Promotion) (last : Bool) : State × Bool :=
  let asid := kvAsid (s.kvDesc p.space)
  let (e, b) := s.promEng p
  match (kvAbandon p).run s e.tlb p.space with
  | (.ok _, k) => (k.commit, true)
  | (.error (.fault .pageNp va), k) =>
    if last then (k.s.kvReport e.tlb e.core b asid (.fault .pageNp va), true)
    else (k.s.park (groupOf e.core) asid va .pageNp va (.event (event .messageUndeliverable (.lost (.promotion p.space p.header p.block)))) (some e.host), false)
  | (.error x, k) => (k.s.kvReport e.tlb e.core b asid x, true)

/-- A promotion that is lost: its consumer, or its `KVPROM`, ends with ERR 0x45 (R225, R315). -/
def State.promLost (s : State) (p : Promotion) (last : Bool) : State :=
  match s.promBack p last with
  | (s, false) => s
  | (s, true) =>
  let s := s.dropProm p
  match p.prom.bind s.findCmd with
  | none => s
  | some (h, c) =>
    if c.state == .parked .kvFar (kvAsid (s.kvDesc p.space)) p.header then
      let (s, c) := s.endCmd c 0x45 c.moved
      s.putCmdAt h c
    else match c.instr with
      | .kvprom _ =>
        if c.state == .waiting then
          let (s, c) := s.endCmd c 0x45 c.aux
          s.putCmdAt h c
        else s
      | _ => s

/-- PROMOTION_INSTALL (R225, R315). -/
def execPromotionInstall (s : State) : Host.Outcome State Fault Refusal :=
  .next (match s.ev with
    | .promotion e =>
      match s.promOf e.space e.header e.block with
      | some p => s.promArrive p e.data
      | none => s
    | _ => s)

end Sys2Proof.Machine
end

