-- ==== Sys2Proof/Machine/SfBound.lean ====
section
/-! DEFINITION. The bounds of the special functions (R122): the exact functions in fixed point, close enough to decide
whether an FP32 pattern lies within a bound. A number is an integer in units of 2^-256; log 6 says how close. -/

namespace Sys2Proof.Machine

/-- The number 1. -/
def fixOne : Int := 2 ^ 256

def fixMul (a b : Int) : Int := a * b / fixOne
def fixDiv (a b : Int) : Int := a * fixOne / b

/-- The value of an FP32 pattern's magnitude and sign, exactly; an infinity counts as 2^128. -/
def fixOf (v : FVal) : Int :=
  let sgn (n : Bool) (a : Nat) : Int := if n then -(a : Int) else a
  match v with
  | .fin n m e => sgn n (if -256 ≤ e then m * 2 ^ (e + 256).toNat else m / 2 ^ (-256 - e).toNat)
  | .inf n => sgn n (2 ^ 384)
  | .nan _ _ _ => 0

/-- atanh z for |z| ≤ 1/3: the sum of z^(2k+1) / (2k+1). -/
def fixAtanh (z : Int) : Int :=
  let q := fixMul z z
  ((List.range 90).foldl (fun (a : Int × Int) (k : Nat) => (a.1 + a.2 / (2 * (k : Int) + 1), fixMul a.2 q)) (0, z)).1

/-- ln 2 = 2 atanh (1/3). -/
def fixLn2 : Int := 2 * fixAtanh (fixOne / 3)

/-- arctan (1/n): the alternating sum of 1 / ((2k+1) n^(2k+1)). -/
def fixAtanInv (n : Int) : Int :=
  ((List.range 64).foldl (fun (a : Int × Int) (k : Nat) =>
    (if k % 2 = 0 then a.1 + a.2 / (2 * (k : Int) + 1) else a.1 - a.2 / (2 * (k : Int) + 1), a.2 / (n * n))) (0, fixOne / n)).1

/-- π = 16 arctan (1/5) - 4 arctan (1/239). -/
def fixPi : Int := 16 * fixAtanInv 5 - 4 * fixAtanInv 239

/-- The sum of r^k / k! for 0 ≤ r < 1. -/
def fixExpSum (r : Int) : Int :=
  ((List.range 64).foldl (fun (a : Int × Int) (k : Nat) => (a.1 + a.2, fixMul a.2 r / ((k : Int) + 1))) (0, fixOne)).1

/-- Times 2^k. -/
def fixScale (y k : Int) : Int := if 0 ≤ k then y * 2 ^ k.toNat else y / 2 ^ (-k).toNat

/-- 2^x, 0 below 2^-200; no greater x than 200 is asked for. -/
def fixExp2 (x : Int) : Int :=
  if x < -200 * fixOne then 0
  else
    let x := min x (200 * fixOne)
    let k := x / fixOne
    fixScale (fixExpSum (fixMul (x - k * fixOne) fixLn2)) k

/-- e^x in the same way. -/
def fixExp (x : Int) : Int :=
  if x < -200 * fixOne then 0
  else
    let x := min x (200 * fixOne)
    let k := x / fixLn2
    fixScale (fixExpSum (x - k * fixLn2)) k

/-- ln x for a positive x. -/
def fixLn (x : Int) : Int :=
  let l := Nat.log2 x.toNat
  let m := if 256 ≤ l then x / 2 ^ (l - 256) else x * 2 ^ (256 - l)
  2 * fixAtanh (fixDiv (m - fixOne) (m + fixOne)) + ((l : Int) - 256) * fixLn2

def fixLog2 (x : Int) : Int := fixDiv (fixLn x) fixLn2

def fixSqrt (x : Int) : Int := Nat.sqrt (x * fixOne).toNat

/-- An odd function by its values at positive arguments. -/
def fixOddOf (f : Int → Int) (x : Int) : Int := if x < 0 then -(f (-x)) else f x

def fixTanh (x : Int) : Int :=
  fixOddOf (fun a => if 100 * fixOne < a then fixOne else let e := fixExp (2 * a); fixDiv (e - fixOne) (e + fixOne)) x

/-- 1 / (1 + e^-x). -/
def fixSigm (x : Int) : Int :=
  if x < -200 * fixOne then 0 else fixDiv fixOne (fixOne + fixExp (-x))

/-- erf x = 2/√π times the sum of (-1)^k x^(2k+1) / (k! (2k+1)); 1 above 6. -/
def fixErf (x : Int) : Int :=
  fixOddOf (fun a =>
    if 6 * fixOne < a then fixOne
    else
      let q := fixMul a a
      let t := ((List.range 400).foldl (fun (s : Int × Int) (k : Nat) =>
        (if k % 2 = 0 then s.1 + s.2 / (2 * (k : Int) + 1) else s.1 - s.2 / (2 * (k : Int) + 1), fixMul s.2 q / ((k : Int) + 1))) (0, a)).1
      fixDiv (2 * t) (fixSqrt fixPi)) x

/-- The alternating sum of every second power: cos from (0, 1), sin from (1, r). -/
def fixTrig (n : Int) (t r : Int) : Int :=
  let q := fixMul r r
  ((List.range 64).foldl (fun (s : Int × Int) (k : Nat) =>
    (if k % 2 = 0 then s.1 + s.2 else s.1 - s.2, fixMul s.2 q / ((n + 2 * k + 1) * (n + 2 * k + 2)))) (0, t)).1

def fixSin (x : Int) : Int := let r := x % (2 * fixPi); fixTrig 1 r r
def fixCos (x : Int) : Int := let r := x % (2 * fixPi); fixTrig 0 fixOne r

/-- The exact function (R122). -/
def fixFn (fn : Config.SpecialFn) (x : Int) : Int :=
  match fn with
  | .exp2 => fixExp2 x
  | .exp => fixExp x
  | .log2 => fixLog2 x
  | .ln => fixLn x
  | .rcp => fixDiv fixOne x
  | .rsq => fixDiv fixOne (fixSqrt x)
  | .tanh => fixTanh x
  | .sigm => fixSigm x
  | .erf => fixErf x
  | .sin => fixSin x
  | .cos => fixCos x

/-- The bound: so many ulps of the exact result, or 2^-22 (R122). -/
def sfBound (fn : Config.SpecialFn) (y : Int) : Int :=
  let ulp : Int := 2 ^ ((max ((Nat.log2 y.natAbs : Int) - 256) (-126)) + 233).toNat
  match fn with
  | .exp2 | .log2 | .rcp | .rsq => ulp
  | .exp | .ln | .tanh | .sigm | .erf => 2 * ulp
  | .sin | .cos => 2 ^ 234

/-- Where the exact result lies: strictly between two numbers, or at both where it is known exactly. The distance is what the
fixed point may err by, cut where the function's own limits are (log 6). -/
def sfRange (fn : Config.SpecialFn) (x : Int) : Int × Int :=
  let y := fixFn fn x
  if x = 0 || (fn == .rsq && y * y * x == fixOne * fixOne * fixOne) then (y, y)
  else
    let err : Int := 2 ^ 64 + y.natAbs / 2 ^ 160 + (match fn with
      | .sin | .cos => (x.natAbs : Int) / 2 ^ 240
      | .erf => if 6 * fixOne < x.natAbs then 2 ^ 206 else 0
      | _ => 0)
    let (lo, hi) := (y - err, y + err)
    match fn with
    | .exp2 | .exp => (max 0 lo, hi)
    | .sigm => (max 0 lo, min fixOne hi)
    | .tanh => let m := min fixOne x.natAbs; if x < 0 then (max (-m) lo, hi) else (lo, min m hi)
    | .erf | .sin | .cos => (max (-fixOne) lo, min fixOne hi)
    | _ => (lo, hi)

/-- Does a pattern lie within the bound of the function at x, wherever in its range the exact result is? The ulp is that of
the range's end nearer to zero, which no power of two parts from the result. -/
def sfWithin (fn : Config.SpecialFn) (x : Int) (p : Nat) : Bool :=
  match fp32.decode p with
  | .nan _ _ _ => false
  | v =>
    let (lo, hi) := sfRange fn x
    let b := sfBound fn (if lo.natAbs ≤ hi.natAbs then lo else hi)
    decide (fixOf v - b ≤ lo) && decide (hi ≤ fixOf v + b)

/-- A result of the function at x within its bound: the free value, or where that lies outside, the exact value
rounded. -/
def sfValue (fn : Config.SpecialFn) (x : Nat) : Nat :=
  let a := fixOf (fp32.decode x)
  let y := fixFn fn a
  let p := (Config.specialFn fn (BitVec.ofNat 32 x)).toNat
  if sfWithin fn a p then p else (fp32.deliver .rne (.fin (decide (y < 0)) y.natAbs (-256))).1

end Sys2Proof.Machine
end

