-- ==== Sys2Proof/Machine/Sf.lean ====
section
/-! DEFINITION. The special-function unit (R122, R156 to R158). What R122 fixes is computed: special cases, exact results,
definite overflow and the correctly rounded square root. Every other result is the free value of log 6, kept within the
bound. -/

namespace Sys2Proof.Machine

/-- A result of the FP32 computation: its pattern and its exceptions. -/
abbrev SfResult := Nat × Exc

/-- Is a delivered FP32 pattern nonzero and below the smallest normal (R123)? -/
def tinyVal (f : FloatFmt) (p : Nat) : Bool :=
  let m := p % 2 ^ (f.width - 1)
  m != 0 && m < 2 ^ f.fbits

/-- The bounded result of a function at an operand: inexact, or as the caller knows (R122, R123). -/
def sfFree (fn : Config.SpecialFn) (x : Nat) (inexact : Nat → Bool) : SfResult :=
  let p := sfValue fn x
  let inf := p % 2 ^ 31 == fp32.infPat
  let inx := inexact p || inf
  (p, { inv := false, ovf := inf, unf := inx && tinyVal fp32 p, inx := inx })

/-- An exact result. -/
def sfExact (v : FVal) : SfResult := (fp32.exact v, excNone)

def sfInvalid : SfResult := (fp32.exact nanDefault, excInvalid)

/-- Overflow to an infinity (R111). -/
def sfOverflow (neg : Bool) : SfResult :=
  (fp32.exact (.inf neg), { inv := false, ovf := true, unf := false, inx := true })

/-- A NaN operand (R112), or what the function does. -/
def sfOf (x : Nat) (f : FVal → SfResult) : SfResult :=
  let v := fp32.decode x
  match firstNan [v] with
  | some (q, e) => (fp32.exact q, e)
  | none => f v

def one32 : FVal := .fin false 1 0

/-- The integer a finite value is, if it is one. -/
def intVal (v : FVal) : Option Int :=
  match v with
  | .fin n m e =>
    let (q, inx) := roundInt m e .rtz
    if inx then none else some (if n then -(q : Int) else q)
  | _ => none

/-- The exponent of a positive power of two. -/
def log2Val (v : FVal) : Option Int :=
  match v with
  | .fin false m e => if m != 0 && m == 2 ^ Nat.log2 m then some (e + Nat.log2 m) else none
  | _ => none

/-- 2^x: exact for an integer x; overflow from 128 on. For an integer x the FP32 result is never inexact, also where it
overflows or vanishes (DESIGN CHOICE, log 158). -/
def sfExp2 (x : Nat) : SfResult :=
  sfOf x (fun v => match v with
    | .inf n => sfExact (if n then zeroVal else .inf false)
    | _ => match intVal v with
      | some k =>
        let (p, e) := fp32.deliver .rne (.fin false 1 (max (-300) (min 300 k)))
        (p, { inv := false, ovf := e.ovf, unf := false, inx := false })
      | none => if fOrd (.fin false 128 0) v != .gt then sfOverflow false else sfFree .exp2 x (fun _ => true))

/-- e^x: overflow from 0x42B17218, the least FP32 value above the logarithm of the limit. -/
def sfExp (x : Nat) : SfResult :=
  sfOf x (fun v => match v with
    | .inf n => sfExact (if n then zeroVal else .inf false)
    | _ =>
      if v.isZero then sfExact one32
      else if fOrd (fp32.decode 0x42B17218) v != .gt then sfOverflow false else sfFree .exp x (fun _ => true))

/-- log₂ x: exact for a power of two. -/
def sfLog2 (x : Nat) : SfResult :=
  sfOf x (fun v =>
    if v.isZero then sfExact (.inf true)
    else if v.neg then sfInvalid
    else if v.isInf then sfExact (.inf false)
    else match log2Val v with
      | some k => sfExact (valOfInt k 0)
      | none => sfFree .log2 x (fun _ => true))

def sfLn (x : Nat) : SfResult :=
  sfOf x (fun v =>
    if v.isZero then sfExact (.inf true)
    else if v.neg then sfInvalid
    else if v.isInf then sfExact (.inf false)
    else if fOrd v one32 = .eq then sfExact zeroVal
    else sfFree .ln x (fun _ => true))

/-- The exponent of a power of two of either sign. -/
def powerVal (v : FVal) : Option Int :=
  match v with
  | .fin _ m e => log2Val (.fin false m e)
  | _ => none

/-- 1/x: exact for a power of two, whose reciprocal alone is an FP32 value (R326); overflow when 1/|x| reaches 2^128. -/
def sfRcp (x : Nat) : SfResult :=
  sfOf x (fun v =>
    if v.isZero then sfExact (.inf v.neg)
    else if v.isInf then sfExact (.fin v.neg 0 0)
    else if fOrd (.fin false (x % 2 ^ 31) (-149)) (.fin false 1 (-128)) != .gt && x % 2 ^ 31 < 2 ^ 23 then sfOverflow v.neg
    else match powerVal v with
      | some k => sfExact (.fin v.neg 1 (-k))
      | none => sfFree .rcp x (fun _ => true))

/-- 1/√x: inexact unless the square of the result times x is 1. -/
def sfRsq (x : Nat) : SfResult :=
  sfOf x (fun v =>
    if v.isZero then sfExact (.inf v.neg)
    else if v.neg then sfInvalid
    else if v.isInf then sfExact zeroVal
    else sfFree .rsq x (fun p => fOrd (fMul (fMul (fp32.decode p) (fp32.decode p)).1 v).1 one32 != .eq))

/-- √x, correctly rounded. -/
def sfSqrt (x : Nat) : SfResult :=
  sfOf x (fun v =>
    let (r, e) := fSqrt v
    let (p, e') := fp32.deliver .rne r
    (p, e.or e'))

/-- A function that is 0 at 0 and 1 with the operand's sign at an infinity. -/
def sfOdd (fn : Config.SpecialFn) (x : Nat) : SfResult :=
  sfOf x (fun v =>
    if v.isInf then sfExact (.fin v.neg 1 0)
    else if v.isZero then sfFree fn x (fun p => p % 2 ^ 31 != 0)
    else sfFree fn x (fun _ => true))

def sfTanh (x : Nat) : SfResult := sfOdd .tanh x
def sfErf (x : Nat) : SfResult := sfOdd .erf x

def sfSigm (x : Nat) : SfResult :=
  sfOf x (fun v =>
    if v.isInf then sfExact (if v.neg then zeroVal else one32)
    else sfFree .sigm x (fun p => !(v.isZero && p == 0x3F000000)))

def sfSin (x : Nat) : SfResult :=
  sfOf x (fun v => if v.isInf then sfInvalid else sfFree .sin x (fun p => !(v.isZero && p % 2 ^ 31 == 0)))

def sfCos (x : Nat) : SfResult :=
  sfOf x (fun v => if v.isInf then sfInvalid else sfFree .cos x (fun p => !(v.isZero && p == 0x3F800000)))

/-- The FP32 result rounded `rne` to the type (R156); tininess by the delivered value (R123). The rounding
to 16 bits counts inexact whatever the function (DESIGN CHOICE, log 158). -/
def sfRound (ty : BitVec 4) (r : SfResult) : SfResult :=
  if tyWidth ty = 32 then r
  else
    let (p, e) := (fmtOf ty).deliver .rne (fp32.decode r.1)
    let inx := r.2.inx || e.inx
    (p, { inv := r.2.inv || e.inv, ovf := r.2.ovf || e.ovf, unf := inx && tinyVal (fmtOf ty) p, inx := inx })

/-- One element: a 16-bit operand is widened exactly; a signalling NaN raises invalid. -/
def sfElem (ty : BitVec 4) (f : Nat → SfResult) (x : Nat) : SfResult :=
  let (p, e) := fp32.deliver .rne ((fmtOf ty).decode x)
  let r := sfRound ty (f (if tyWidth ty = 32 then x else p))
  (r.1, r.2.or (if tyWidth ty = 32 then excNone else e))

/-- The predicate bits of the elements the word processes: all of 128, or a half of 256 (R156). -/
def sfHalf (w : RWord) (b : Nat) : PredBits :=
  predOf b (fun i => b = 32 || i / 128 = w.fn.toNat % 2)

/-- A SF word: one function for each destination register, the map by rule E (R156, R157). c0–c3 and
`flat` in A of `VSINCOS` read the map of vD for both results (R45; DEDUCED, log 192). -/
def State.sf (s : State) (w : RWord) (fs : List (Nat × (Nat → SfResult))) : SlotRes :=
  let c := s.ictx
  let ty := fTy w.ty
  let b := tyWidth ty
  let mr := srcMapReg w.dst.toNat [w.a]
  let g := c.guard w.hd &&& sfHalf w b
  let rs := fs.map (fun f => (f.1, (List.range (elemCount b)).map (fun i =>
    if active g b i then sfElem ty f.2 (c.src w.hd mr w.a b i) else (0, excNone))))
  let exc := match rs with
    | [(_, l)] => activeExc g b l
    | [(_, l), (_, l')] => activeExc g b ((l.zip l').map (fun p => (0, p.1.2.or p.2.2)))
    | _ => []
  { faults := c.pseudoFaults w.dst.toNat [w.a]
    effects := rs.map (fun r => .act 8 (.setV r.1 (BitVec.ofNat 4096 (packBits b (r.2.map (·.1)))) (guardMask g b) (c.mapE [w.a]) true none))
      ++ s.excFx w.hd.unit exc
    maps := mapReads w.dst.toNat [w.a], data := some (realV [w.a]) }

/-- A SF word of one result. -/
def State.sf1 (s : State) (w : RWord) (f : Nat → SfResult) : SlotRes := s.sf w [(w.dst.toNat, f)]

def execVexp2 (w : RWord) (s : State) : Host.Outcome State Fault Refusal := .next (s.slot (.vexp2 w) w.hd (s.sf1 w sfExp2))
def execVexp (w : RWord) (s : State) : Host.Outcome State Fault Refusal := .next (s.slot (.vexp w) w.hd (s.sf1 w sfExp))
def execVlog2 (w : RWord) (s : State) : Host.Outcome State Fault Refusal := .next (s.slot (.vlog2 w) w.hd (s.sf1 w sfLog2))
def execVln (w : RWord) (s : State) : Host.Outcome State Fault Refusal := .next (s.slot (.vln w) w.hd (s.sf1 w sfLn))
def execVrcp (w : RWord) (s : State) : Host.Outcome State Fault Refusal := .next (s.slot (.vrcp w) w.hd (s.sf1 w sfRcp))
def execVrsq (w : RWord) (s : State) : Host.Outcome State Fault Refusal := .next (s.slot (.vrsq w) w.hd (s.sf1 w sfRsq))
def execVsqrt (w : RWord) (s : State) : Host.Outcome State Fault Refusal := .next (s.slot (.vsqrt w) w.hd (s.sf1 w sfSqrt))
def execVtanh (w : RWord) (s : State) : Host.Outcome State Fault Refusal := .next (s.slot (.vtanh w) w.hd (s.sf1 w sfTanh))
def execVsigm (w : RWord) (s : State) : Host.Outcome State Fault Refusal := .next (s.slot (.vsigm w) w.hd (s.sf1 w sfSigm))
def execVerf (w : RWord) (s : State) : Host.Outcome State Fault Refusal := .next (s.slot (.verf w) w.hd (s.sf1 w sfErf))

/-- R157: sin to vD and cos to vC. -/
def execVsincos (w : RWord) (s : State) : Host.Outcome State Fault Refusal :=
  .next (s.slot (.vsincos w) w.hd (s.sf w [(w.dst.toNat, sfSin), (w.c.toNat, sfCos)]))

/-- R158: the decay factor of n steps, bit-exact with `LD.SW`. -/
def execVpows (w : RWord) (s : State) : Host.Outcome State Fault Refusal :=
  let c := s.ictx
  let srcs := [w.a, w.b]
  let mr := srcMapReg w.dst.toNat srcs
  .next (s.slot (.vpows w) w.hd (s.vecRes w 8 32 srcs (c.mapE srcs)
    (vecOf 32 (fun i => swFactor (c.src w.hd mr w.a 32 i) (c.src w.hd mr w.b 32 i)))))

end Sys2Proof.Machine
end

