-- ==== Sys2Proof/Machine/Sequencer.lean ====
section
/-! DEFINITION. The attention sequencer (R227, R317 to R325): the start of `ATTN`, the ten micro-operations, failure,
parking and restart. -/

namespace Sys2Proof.Machine

/-! ## The start record (R227) -/

/-- R217, R227, R239. -/
def execAttn (w : EWord) (s : State) : Host.Outcome State Fault Refusal :=
  .next (s.slot (.attn w) w.hd (s.kvRes (.attn w) w [readRange (s.ictx.enAddr w) 64, s.wholeRange true]))

def attnOf (b : List Byte) : AttnRec :=
  let f (a n : Nat) : BitVec 32 := BitVec.ofNat 32 (natAt b a n)
  { kva := BitVec.ofNat 64 (natAt b 0 8), len := f 8 4, scale := f 12 4, qspad := BitVec.ofNat 24 (natAt b 16 3)
    ospad := BitVec.ofNat 24 (natAt b 20 3), tbase := BitVec.ofNat 4 (natAt b 26 1), nt := BitVec.ofNat 4 (natAt b 26 1 / 16)
    qpos := BitVec.ofNat 24 (natAt b 28 3), qbytes := f 32 4, obytes := f 36 4
    param := #v[f 40 4, f 44 4, f 48 4, f 52 4, f 56 4, f 60 4] }

def attnEntry (b : List Byte) : Nat := natAt b 24 2 % 1024

/-- Does the record fail with ERR 0x46 (R227)? -/
def attnBad (b : List Byte) (tiles size : Nat) : Bool :=
  let r := attnOf b
  natAt b 19 1 != 0 || natAt b 23 1 != 0 || 1024 ≤ natAt b 24 2 || natAt b 27 1 != 0 || natAt b 31 1 != 0
    || r.len == 0 || 2 ^ 24 < r.len.toNat || r.nt == 0 || tiles < r.tbase.toNat + r.nt.toNat
    || r.qspad.toNat % 32 != 0 || r.ospad.toNat % 32 != 0
    || size < r.qspad.toNat + r.qbytes.toNat || size < r.ospad.toNat + r.obytes.toNat

/-- The tiles of a sequencer as bits of the busy register. -/
def SeqState.tileBits (q : SeqState) : BitVec 16 :=
  BitVec.ofNat 16 ((2 ^ q.attn.nt.toNat - 1) * 2 ^ q.attn.tbase.toNat)

def Team.seqBusy (t : Team) (on : Bool) : Team :=
  { t with tileBusy := if on then t.tileBusy ||| t.seq.tileBits else t.tileBusy &&& ~~~t.seq.tileBits }

/-- The pending part is discarded, and the sequencer stands at its restart point (R318, R324). -/
def SeqState.restarted (q : SeqState) : SeqState :=
  { q with pc := q.restart, fetched := false, smaxed := false, weighed := false, lo := 0, hi := 0
           m' := Vector.replicate 128 0, s' := Vector.replicate 128 0, corr := Vector.replicate 128 0 }

/-- The sequencer stops where it is: parked, or for a save. Its tiles count as not busy (R324). -/
def Team.seqHalt (t : Team) : Team :=
  if t.seq.running then { t with seq := { t.seq.restarted with parked := true } }.seqBusy false else t

/-- The sequencer goes on at its restart point (R324). -/
def Team.seqResume (t : Team) : Team :=
  if t.seq.running then { t with seq := { t.seq with parked := false } }.seqBusy true else t

/-- The sequencer at the start of a run (R318). -/
def SeqState.begin_ (id entry : Nat) (space : BitVec 4) (r : AttnRec) (published tail : Nat) : SeqState :=
  { SeqState.reset with
    running := true, cmd := id, space := space, attn := r, pc := entry, restart := entry
    start := kvaPos r.kva, top := min (kvaPos r.kva + r.len.toNat) published, page := tail
    m := Vector.replicate 128 0xFF800000 }

/-- R227: the record is read once and checked, SEQ resolved, and the sequencer starts; a parked run goes on. The ranges are the true
ones from the reading on (R194, R239). -/
def State.runAttn (s : State) (e : Eng) (c : Cmd) (w : EWord) : State × Cmd :=
  let t := s.homeTeam e.home
  let space := kvSpace w
  if t.seq.running && t.seq.cmd == c.id then (s.updHome e.home Team.seqResume, { c with state := .waiting })
  else if e.size < c.aOff + 64 then s.endCmd c 0x03 0
  else
    let b := if c.blob = [] then s.engPad e c.aOff 64 else c.blob
    let r := attnOf b
    let c := { c with blob := b, ranges := [c.reads 64, readRange r.qspad.toNat r.qbytes.toNat, writeRange r.ospad.toNat r.obytes.toNat] }
    if kvBadAddr (s.kvDesc space) r.kva then s.endCmd c 0x40 0
    else if attnBad b (partAccb t.part / 16) e.size then s.endCmd c 0x46 0
    else s.kvSeq e c space (kvEntry (kvaSeq r.kva)) (fun s c x => s.kvDo e c space (kvChainOf r.kva x) (fun s ch =>
      let q := SeqState.begin_ c.id (attnEntry b) space r (ch.published (s.kvDesc space)) ch.tail
      (s.updHome e.home (fun t => { t with seq := q }.seqBusy true)
      , { c with state := .waiting })))

/-! ## Shared operations -/

/-- The engine of a core's sequencer. -/
def State.seqEng (s : State) (c : Fin 208) : Eng := s.eng { core := c, id := (s.coreAt c).team.seq.cmd } (.core c)

/-- The `ATTN` command of a core's sequencer. -/
def State.seqCmd (s : State) (c : Fin 208) : Option Cmd :=
  let t := (s.coreAt c).team
  t.cmds.find? (fun x => x.id == t.seq.cmd)

def State.updSeq (s : State) (c : Fin 208) (f : SeqState → SeqState) : State := s.updTeam c (fun t => { t with seq := f t.seq })

/-- The sequencer's run is over: the tiles are released, the page it held too, and its command is as given. -/
def State.seqOver (s : State) (c : Fin 208) (x : Cmd) : State :=
  let t := (s.coreAt c).team
  let e := s.seqEng c
  let s := (s.updTeam c (fun t => { t.seqBusy false with seq := { t.seq with running := false, parked := false, page := 0 } })).putCmdAt (.core c) x
  s.kvUnhold e x.baddr t.seq.space t.seq.page

/-- SEQ_FAIL (R316, R323): reported, and the token completes with ERR 0x46 and the tokens processed. -/
def State.seqFail (s : State) (c : Fin 208) (reason : Nat) : State :=
  let q := (s.coreAt c).team.seq
  match s.seqCmd c with
  | none => s.updTeam c (fun t => { t.seqBusy false with seq := { t.seq with running := false } })
  | some x =>
    let s := s.record c Cause.seqFail.code 0 x.baddr (BitVec.ofNat 64 (q.pc % 1024 + reason * 2 ^ 12)) []
    let (s, x) := s.endCmd x 0x46 q.processed
    s.seqOver c x

/-- The word done, the micro-PC moves on (R320). -/
def State.seqStep (s : State) (c : Fin 208) : State := s.updSeq c (fun q => { q with pc := q.pc + 1 })

/-- D, the dimensions of a head (R318). -/
def State.seqD (s : State) (c : Fin 208) : Nat := kvRb (s.kvDesc (s.coreAt c).team.seq.space) / 2

def SeqState.nq (q : SeqState) : Nat := (q.attn.param.get 0).toNat % 128 + 1
def SeqState.nqBad (q : SeqState) : Bool := 128 ≤ (q.attn.param.get 0).toNat

/-- Does a staged region lie within OBYTES (R319)? -/
def SeqState.inside (q : SeqState) (off : BitVec 32) (n : Nat) : Bool := off.toNat + n ≤ q.attn.obytes.toNat

/-- The scratchpad address of an offset. -/
def SeqState.at_ (q : SeqState) (off : BitVec 32) : Nat := q.attn.ospad.toNat + off.toNat

def SeqState.tileOk (q : SeqState) (t : Nat) : Bool := t < q.attn.nt.toNat
/-- The number of a tile, and its first accumulator row. -/
def SeqState.tile (q : SeqState) (t : Nat) : Nat := (q.attn.tbase.toNat + t) % 16
def SeqState.tileRow (q : SeqState) (t r : Nat) : Nat := 128 * q.tile t + r

/-- A micro-operation of a running sequencer: the first rule it breaks, or its effect (R323). -/
def State.micro (s : State) (i : Instr) (checks : SeqState → List (Bool × Nat)) (f : State → Fin 208 → State) :
    Host.Outcome State Fault Refusal :=
  .next (match s.ev with
    | .core c =>
      let q := (s.coreAt c).team.seq
      if !q.running || q.parked then s
      else match ((!i.microOk q.mw, 1) :: checks q).find? (fun p => p.1) with
        | some p => s.seqFail c p.2
        | none => f s c
    | _ => s)

/-! ## FETCHKV (R313, R320, R324) -/

/-- The rows of positions lo to hi − 1 of the chain, newest page first: (position, bytes) of each page. A page that is not
BF16 breaks rule 4. -/
def kvTile (page : Nat) (v : Bool) (lo : Nat) : Nat → Nat → KvM (List (Nat × Nat × List Byte))
  | 0, _ => pure []
  | fuel + 1, hi => do
    if hi ≤ lo then pure []
    else
      let h ← kvNear page (hi - 1)
      let a := max lo h.first
      let b ← kvRows h v a (hi - a)
      let r ← kvTile page v lo fuel h.first
      pure ((h.fmt, a, b) :: r)

/-- Elements of two bytes of a tile's rows by column and dimension, 0 outside. -/
def tileElem (l : List (Nat × Nat × List Byte)) (lo d c x : Nat) : Nat :=
  match l.find? (fun p => p.2.1 ≤ lo + c) with
  | some p => natAt p.2.2 (2 * d * (lo + c - p.2.1) + 2 * x) 2
  | none => 0

/-- The staged bytes of K and V: columns from lo, everything else zero. -/
def stageBytes (d lo n : Nat) (k v : List (Nat × Nat × List Byte)) : List Byte :=
  let el (l : List (Nat × Nat × List Byte)) (c x : Nat) : List Byte := bytesOf 2 (if c < n && x < d then tileElem l lo d c x else 0)
  ((List.range d).map (fun x => ((List.range 128).map (fun c => el k c x)).flatten)).flatten
    ++ ((List.range 128).map (fun c => ((List.range 128).map (fun x => el v c x)).flatten)).flatten

/-- The run parks or ends with its command (R324). -/
def State.seqStopped (s : State) (c : Fin 208) (x : Cmd) : State :=
  match x.state with
  | .parked _ _ _ => (s.updTeam c Team.seqHalt).putCmdAt (.core c) x
  | _ => s.seqOver c x

def State.fetchkv (s : State) (c : Fin 208) : State :=
  let q := (s.coreAt c).team.seq
  let e := s.seqEng c
  let d := s.seqD c
  let hi := q.top
  let lo := max q.start (hi - (q.mw.n.toNat + 1))
  let s := s.updSeq c (fun q => { q with restart := q.pc })
  match s.seqCmd c with
  | none => s
  | some x =>
    match (do
        let k ← kvTile q.page false lo 129 hi
        let v ← kvTile q.page true lo 129 hi
        pure (k, v) : KvM _).run s e.tlb q.space with
    | (.error st, k) =>
      let (s, x) := k.s.kvStop e { x with moved := q.processed } q.space st
      s.seqStopped c x
    | (.ok (k, v), st) =>
      let s := st.s
      if (k ++ v).any (fun p => p.1 != 8) then s.seqFail c 4
      else
        let s := s.engPadWrite e (q.at_ q.mw.offa) (stageBytes d lo (hi - lo) k v)
        let s := s.updSeq c (fun q => { q with lo := lo, hi := hi, fetched := true })
        (if lo < hi then s.runAhead e q.space q.page lo else s).seqStep c

def execFetchkv (s : State) : Host.Outcome State Fault Refusal :=
  let d (q : SeqState) : Nat := kvRb (s.kvDesc q.space) / 2
  s.micro .fetchkv (fun q => [(128 < d q, 4), (!q.inside q.mw.offa (256 * d q + 32768), 3)]) State.fetchkv

/-! ## SCORE, SCALE and MASK -/

/-- Units of 32 bytes of a scratchpad. -/
def Team.units (t : Team) (a n : Nat) : List (BitVec 256) := (List.range n).map (fun i => BitVec.ofNat 256 (memNat t.spad (a + 32 * i) 32))

/-- Rows accumulated over BF16 K-steps: A at `a`, B at `b`, 4096 bytes a step each (R120, R180). The exceptions of a
micro-operation's sums leave no record (log 157). -/
def Team.mxSteps (t : Team) (a b steps : Nat) (olds : List VecBits) : List VecBits :=
  (List.range steps).foldl (fun olds k =>
    let rows := (t.units (a + 4096 * k) olds.length).map (denseRow 8 0)
    let bn := memNat t.spad (b + 4096 * k) 4096
    (mmaRows 4 olds rows ((List.range 128).map (denseCol 8 0 bn))).1) olds

/-- The map that `SCORE` gives its tile (R321). -/
def scoreMap (lo hi nq : Nat) : MapBits :=
  let m := mapPut (mapSetKind 0 1) 4 3 2
  let m := mapSetOrder (mapSetOrder m 0 0) 1 1
  let m := mapSetStep (mapSetStep m 0 1) 1 1
  let m := mapSetShape (mapSetShape m 0 128) 1 128
  mapSetExtent (mapSetExtent (mapSetOrigin (mapSetOrigin m 0 lo) 1 0) 0 hi) 1 nq

/-- Rows of a tile replaced from row 0. -/
def Team.putRows (t : Team) (q : SeqState) (tile : Nat) (rows : List VecBits) : Team :=
  { t with acc := (rows.zip (List.range 128)).foldl (fun m p => storePutD 0 m (q.tileRow tile p.2) p.1) t.acc }

def Team.tileRows (t : Team) (q : SeqState) (tile n : Nat) : List VecBits := (List.range n).map (fun r => accRowOf t (q.tileRow tile r))

def execScore (s : State) : Host.Outcome State Fault Refusal :=
  let d (q : SeqState) : Nat := kvRb (s.kvDesc q.space) / 2
  s.micro .score (fun q => [(!q.tileOk q.mw.ts.toNat, 2), (!q.inside q.mw.offa (256 * d q) || q.attn.qbytes.toNat < 256 * d q, 3)
      , (!q.fetched, 5), (q.nqBad, 6)])
    (fun s c => (s.updTeam c (fun t =>
      let q := t.seq
      let ts := q.mw.ts.toNat
      let t := t.putRows q ts (t.mxSteps q.attn.qspad.toNat (q.at_ q.mw.offa) (d q / 16) (List.replicate 128 0))
      { t with tileMaps := setAt t.tileMaps (q.tile ts) (fun _ => scoreMap q.lo q.hi q.nq) })).seqStep c)

/-- Element c of row r of a tile changed. -/
def mapRow (f : Nat → Nat → Nat) (x : VecBits) : VecBits := vecOf 32 (fun c => f c (elem x c 32))

/-- TS is scaled by SCALE; the exceptions of the products leave no record (log 157). -/
def execScale (s : State) : Host.Outcome State Fault Refusal :=
  s.micro .scale (fun q => [(!q.tileOk q.mw.ts.toNat, 2), (!q.fetched, 5)])
    (fun s c => (s.updTeam c (fun t =>
      let q := t.seq
      let sc := fp32.decode q.attn.scale.toNat
      t.putRows q q.mw.ts.toNat ((t.tileRows q q.mw.ts.toNat 128).map
        (mapRow (fun _ x => fp32.exact (fMul (fp32.decode x) sc).1))))).seqStep c)

/-- Does the position pass the kind of `MASK` (R320)? -/
def SeqState.seen (q : SeqState) (pos : Nat) : Bool :=
  match q.mw.n.toNat % 4 with
  | 1 => pos ≤ q.attn.qpos.toNat
  | 2 => q.attn.qpos.toNat ≤ pos + (q.attn.param.toList.getD (q.mw.n.toNat / 4 % 8) 0).toNat && pos ≤ q.attn.qpos.toNat
  | _ => true

def negInf : Nat := 0xFF800000

def execMask (s : State) : Host.Outcome State Fault Refusal :=
  s.micro .mask (fun q => [(!q.tileOk q.mw.ts.toNat, 2), (!q.fetched, 5), (q.nqBad, 6)])
    (fun s c => (s.updTeam c (fun t =>
      let q := t.seq
      t.putRows q q.mw.ts.toNat (((t.tileRows q q.mw.ts.toNat 128).zip (List.range 128)).map (fun p =>
        mapRow (fun k x => if q.nq ≤ p.2 || q.hi - q.lo ≤ k || !q.seen (q.lo + k) then negInf else x) p.1)))).seqStep c)

/-! ## SMAX and WEIGH (R322) -/

def fp32Max (a b : Nat) : Nat := fp32.exact (fMinMax true (fp32.decode a) (fp32.decode b)).1

/-- exp(x − y) in FP32. -/
def expDiff (x y : Nat) : Nat := (sfExp (fp32.exact (fSub (fp32.decode x) (fp32.decode y)).1)).1

/-- The sum of 128 values in a tree whose nodes round to FP32. -/
def treeSum (l : List Nat) : Nat := (treeRoot (fun a b => fp32.exact (fAdd (fp32.decode a) (fp32.decode b)).1) 7 l).headD 0

/-- One row of `SMAX`: M′, S′, corr and the BF16 patterns of P; its exceptions leave no record (log 157). -/
def smaxRow (m sOld : Nat) (row : VecBits) : Nat × Nat × Nat × List Nat :=
  let xs := (List.range 128).map (fun c => elem row c 32)
  let mt := xs.tail.foldl fp32Max (xs.headD negInf)
  let m' := fp32Max m mt
  let same := m' == negInf || fOrd (fp32.decode m') (fp32.decode m) == .eq && !(fp32.decode m').isNan && !(fp32.decode m).isNan
  let corr := if same then 0x3F800000 else expDiff m m'
  let ps := xs.map (fun x => if x = negInf then 0 else bf16.exact (fp32.decode (expDiff x m')))
  let sum := treeSum (ps.map (fun p => fp32.exact (bf16.decode p)))
  (m', fp32.exact (fFma (fp32.decode sOld) (fp32.decode corr) (fp32.decode sum)).1, corr, ps)

/-- P of one row in P layout at a scratchpad address (R320). -/
def Team.putP (t : Team) (at_ r : Nat) (ps : List Nat) : Team :=
  (List.range 8).foldl (fun t k => t.engPut (at_ + 4096 * k + 32 * r) (((ps.drop (16 * k)).take 16).map (bytesOf 2)).flatten) t

/-- A row vector with entry r replaced. -/
def putRow (v : Vector (BitVec 32) 128) (r x : Nat) : Vector (BitVec 32) 128 := setAt v r (fun _ => BitVec.ofNat 32 x)

def rowGet (v : Vector (BitVec 32) 128) (r : Nat) : Nat := (v.toList.getD r 0).toNat

def Team.smax (t : Team) (r : Nat) : Team :=
  let q := t.seq
  let (m, sm, corr, ps) := smaxRow (rowGet q.m r) (rowGet q.s r) (accRowOf t (q.tileRow q.mw.ts.toNat r))
  { t.putP (q.at_ q.mw.offa) r ps with seq := { q with m' := putRow q.m' r m, s' := putRow q.s' r sm, corr := putRow q.corr r corr } }

def execSmax (s : State) : Host.Outcome State Fault Refusal :=
  s.micro .smax (fun q => [(!q.tileOk q.mw.ts.toNat, 2), (!q.inside q.mw.offa 32768, 3), (!q.fetched, 5), (q.nqBad, 6)])
    (fun s c => ((s.updTeam c (fun t => (List.range t.seq.nq).foldl Team.smax t)).updSeq c (fun q => { q with smaxed := true })).seqStep c)

/-- The row that `WEIGH` scales: the current output, read as +0 where the committed M is −∞. -/
def Team.weighRow (t : Team) (r : Nat) : VecBits :=
  let q := t.seq
  let old := if rowGet q.m r = negInf then 0 else accRowOf t (q.tileRow (q.mw.tOut.toNat + q.ocur.toNat) r)
  let corr := fp32.decode (rowGet q.corr r)
  mapRow (fun _ x => fp32.exact (fMul corr (fp32.decode x)).1) old

def execWeigh (s : State) : Host.Outcome State Fault Refusal :=
  s.micro .weigh (fun q => [(!q.tileOk (q.mw.tOut.toNat + 1), 2), (!q.inside q.mw.offa 32768 || !q.inside q.mw.offb 32768, 3)
      , (!q.fetched || !q.smaxed, 5), (q.nqBad, 6)])
    (fun s c => ((s.updTeam c (fun t =>
      let q := t.seq
      let rows := t.mxSteps (q.at_ q.mw.offa) (q.at_ q.mw.offb) 8 ((List.range q.nq).map t.weighRow)
      t.putRows q (q.mw.tOut.toNat + 1 - q.ocur.toNat) rows)).updSeq c (fun q => { q with weighed := true })).seqStep c)

/-! ## NEXT, JUMP, FLUSH and END -/

/-- The walk goes on from the page that holds the new TOP − 1; the one held before is released. -/
def State.seqWalk (s : State) (c : Fin 208) : State :=
  let q := (s.coreAt c).team.seq
  let e := s.seqEng c
  if q.top ≤ q.start then s
  else match (kvFind (q.top - 1) kvFuel q.page q.page).run s e.tlb q.space with
    | (.error _, _) => s
    | (.ok h, k) =>
      if h.at_ = q.page then k.s
      else (k.s.updSeq c (fun q => { q with page := h.at_ })).kvUnhold e (((s.seqCmd c).map (·.baddr)).getD 0) q.space q.page

def execSeqNext (s : State) : Host.Outcome State Fault Refusal :=
  s.micro .seqNext (fun q => [(!q.weighed, 5)])
    (fun s c =>
      let s := s.updSeq c (fun q => { q with
        m := q.m', s := q.s', ocur := !q.ocur, top := q.lo, processed := q.processed + (q.hi - q.lo)
        fetched := false, smaxed := false, weighed := false, lo := 0, hi := 0 })
      (s.seqWalk c).seqStep c)

/-- Does the condition of `JUMP` hold (R319)? -/
def SeqState.jumps (q : SeqState) : Bool :=
  match q.mw.cond.toNat with
  | 0 => true
  | 1 => q.start < q.top
  | _ => q.top == q.start

def execJump (s : State) : Host.Outcome State Fault Refusal :=
  s.micro .jump (fun _ => []) (fun s c => s.updSeq c (fun q => { q with pc := if q.jumps then q.mw.n.toNat else q.pc + 1 }))

/-- a / b, to more bits than any format keeps, with a sticky last bit. -/
def fDiv (a b : FVal) : FVal × Exc :=
  match firstNan [a, b] with
  | some r => r
  | none =>
    let n := a.neg != b.neg
    match a, b with
    | .fin _ m e, .fin _ k f =>
      if k = 0 then (if m = 0 then (nanDefault, excInvalid) else (.inf n, excNone))
      else
        let x := m * 2 ^ (64 + k.log2 + 1)
        (.fin n (2 * (x / k) + (if x % k = 0 then 0 else 1)) (e - f - 65 - k.log2 - 1), excNone)
    | .inf _, .inf _ => (nanDefault, excInvalid)
    | .inf _, _ => (.inf n, excNone)
    | _, _ => (.fin n 0 0, excNone)

/-- Bytes that `FLUSH` writes for D dimensions (R320). -/
def flushLen (q : SeqState) (d : Nat) : Nat :=
  if q.mw.n.getLsbD 0 then q.nq * (4 * d + 8) else q.nq * d * (if q.mw.n.getLsbD 1 then 2 else 4)

/-- The bytes themselves; the exceptions of the quotients and of their rounding leave no record (log 157). -/
def Team.flushBytes (t : Team) (d : Nat) : List Byte :=
  let q := t.seq
  let bf := q.mw.n.getLsbD 1
  let row (r : Nat) : VecBits := accRowOf t (q.tileRow (q.mw.tOut.toNat + q.ocur.toNat) r)
  let out (r x : Nat) : List Byte :=
    let o := elem (row r) x 32
    if q.mw.n.getLsbD 0 then bytesOf 4 o
    else
      let sv := rowGet q.s r
      let v := if sv = 0 then zeroVal else (fDiv (fp32.decode o) (fp32.decode sv)).1
      if bf then bytesOf 2 (bf16.exact v) else bytesOf 4 (fp32.exact v)
  let o := ((List.range q.nq).map (fun r => ((List.range d).map (out r)).flatten)).flatten
  if q.mw.n.getLsbD 0 then
    o ++ ((List.range q.nq).map (fun r => bytesOf 4 (rowGet q.m r))).flatten ++ ((List.range q.nq).map (fun r => bytesOf 4 (rowGet q.s r))).flatten
  else o

def execFlush (s : State) : Host.Outcome State Fault Refusal :=
  let d (q : SeqState) : Nat := kvRb (s.kvDesc q.space) / 2
  s.micro .flush (fun q => [(!q.tileOk (q.mw.tOut.toNat + 1), 2), (!q.inside q.mw.offa (flushLen q (d q)), 3), (128 < d q, 4), (q.nqBad, 6)])
    (fun s c => ((s.updTeam c (fun t => t.engPut (t.seq.at_ t.seq.mw.offa) (t.flushBytes (d t.seq)))).updSeq c
      (fun q => { q with restart := q.pc })).seqStep c)

def execSeqEnd (s : State) : Host.Outcome State Fault Refusal :=
  s.micro .seqEnd (fun _ => []) (fun s c =>
    match s.seqCmd c with
    | none => s.updTeam c (fun t => { t.seqBusy false with seq := { t.seq with running := false } })
    | some x =>
      let (s, x) := s.endCmd x 0 (s.coreAt c).team.seq.processed
      s.seqOver c x)

end Sys2Proof.Machine
end

