-- ==== Sys2Proof/Machine/Submit.lean ====
section
/-! DEFINITION. Task control blocks and their submission (R89, R279, R280, R282), and which tasks of the queues are ready
(R255, R284, R288). -/

namespace Sys2Proof.Machine

/-! ## The task control block (R279) -/

def tcbBytes : Nat := 256

/-- The footprint ranges of a TCB: offset and length. -/
def footprints (b : List Byte) : List (Nat × Nat) :=
  (List.range 8).map (fun k => (natAt b (64 + 8 * k) 3, natAt b (67 + 8 * k) 3))

def tcbOf (b : List Byte) : Tcb :=
  { cbase := BitVec.ofNat 56 (natAt b 0 7), eoff := BitVec.ofNat 32 (natAt b 8 4), asid := b.getD 12 0
    queue := (b.getD 13 0).extractLsb' 0 7, barf := (b.getD 13 0).getLsbD 7, prio := (b.getD 14 0).extractLsb' 0 5
    grade := (b.getD 15 0).extractLsb' 0 2, gang := (b.getD 15 0).extractLsb' 2 2, aff := (b.getD 15 0).extractLsb' 4 4
    part := BitVec.ofNat 64 (natAt b 16 8), htab := BitVec.ofNat 56 (natAt b 24 7), nsucc := (b.getD 36 0).extractLsb' 0 4
    crmax := b.getD 37 0, crec := BitVec.ofNat 56 (natAt b 40 7), deadline := BitVec.ofNat 64 (natAt b 48 8)
    fps := (footprints b).filter (fun f => f.2 != 0)
    succs := ((List.range 8).map (fun k => BitVec.ofNat 56 (natAt b (128 + 8 * k) 7))).take (natAt b 36 1 % 16) }

/-- DEP. -/
def tcbDep (b : List Byte) : Nat := natAt b 32 4

/-- Is a reserved bit set, or SCHED nonzero (R279, R280)? -/
def tcbReserved (b : List Byte) : Bool :=
  natAt b 7 1 != 0 || 32 ≤ natAt b 14 1 || natAt b 31 1 != 0 || 16 ≤ natAt b 36 1 || natAt b 38 2 != 0 || natAt b 47 1 != 0
    || natAt b 56 8 != 0 || (List.range 8).any (fun k => natAt b (70 + 8 * k) 2 != 0 || natAt b (135 + 8 * k) 1 != 0)
    || (b.drop 192).any (fun x => x != 0)

/-- Do two of the ranges overlap? -/
def footprintsClash : List (Nat × Nat) → Bool
  | [] => false
  | f :: r => r.any (fun g => f.1 < g.1 + g.2 && g.1 < f.1 + f.2) || footprintsClash r

/-- Does a field fail its checks (R280)? `cap` is QCAP of the queue it enters. -/
def tcbBad (a : Nat) (b : List Byte) (cap : Nat) : Bool :=
  let t := tcbOf b
  a % tcbBytes != 0 || tcbReserved b || t.cbase.toNat % 4096 != 0 || t.eoff.toNat % 8 != 0 || 23 < t.prio.toNat
    || cap < t.prio.toNat || (8 ≤ t.aff.toNat && t.aff.toNat < 15) || 8 < t.nsucc.toNat
    || (footprints b).any (fun f => f.1 % 32 != 0 || f.2 % 32 != 0) || footprintsClash t.fps

/-! ## Queues (R282) -/

def State.queueAttr (s : State) (q : Nat) : Word := s.queues.toList.getD q 0

def queueCap (w : Word) : Nat := (w.extractLsb' 40 16).toNat
def queuePlace (w : Word) : BitVec 8 := w.extractLsb' 32 8
def queueBard (w : Word) : BitVec 2 := w.extractLsb' 24 2
def queueWeight (w : Word) : Nat := (w.extractLsb' 16 8).toNat
def queueQcap (w : Word) : Nat := (w.extractLsb' 5 5).toNat
def queueQpri (w : Word) : Nat := (w.extractLsb' 0 5).toNat

/-- The entries of a queue: a task holds one from submission until it is placed. -/
def State.entries (s : State) (q : Nat) : List Task := s.tasks.filter (fun t => t.queue == q && t.state == .queued)

/-- The resume list of a queue, in order. -/
def State.resumeList (s : State) (q : Nat) : List Task :=
  s.resumes.filterMap (fun id => (s.taskOf id).filter (fun t => t.queue == q && t.state == .resume))

/-! ## Readiness (R255, R284, R288) -/

/-- Is the task a barrier task in its queue (BARD, R282)? -/
def State.isBarrier (s : State) (t : Task) : Bool :=
  match (queueBard (s.queueAttr t.queue)).toNat with
  | 0 => t.tcb.barf
  | 1 => true
  | _ => false

/-- Has the task not completed? -/
def Task.alive (t : Task) : Bool := t.state != .kept

/-- Ready: DEP is 0, and no barrier holds it: a barrier task waits for every task before it, and a task behind a barrier
task waits for that one's start (R255, R284). -/
def State.isReady (s : State) (t : Task) : Bool :=
  let before := s.tasks.filter (fun x => x.queue == t.queue && x.order < t.order && x.alive)
  t.state == .queued && t.dep == 0 && t.failure.isNone
    && (if s.isBarrier t then before.isEmpty else !before.any (fun x => (x.state == .queued || x.state == .placed) && s.isBarrier x))

/-- A queue's head: its oldest ready task (R288). -/
def State.headOf (s : State) (q : Nat) : Option Task := (s.entries q).find? (fun t => t.mark.isNone && s.isReady t)

/-- What a queue offers: its resume list stands ahead of its head (R288). -/
def State.frontOf (s : State) (q : Nat) : Option Task :=
  match s.resumeList q with
  | t :: _ => some t
  | [] => s.headOf q

/-! ## Failure before start, and submission -/

/-- A task that fails before it starts (STATUS 2, R286), with its record; no core issued it. -/
def State.failEarly (s : State) (id : Nat) (cause : Cause) (detail : Word) : State :=
  (s.recordAt 0 31 cause.code 0 0 detail []).failTask id { status := 2, cause := cause.code, detail := detail, member := 0 }

/-- What a submission came to. -/
inductive SubmitEnd
  | queued (q : Nat)
  | refused (err : BitVec 7)
  | fault (cause : Cause) (va : Nat)
  deriving DecidableEq, Repr

/-- Does a TCB already stand in a queue or run (R280)? -/
def State.taskAtTcb (s : State) (asid : BitVec 8) (a : BitVec 56) : Option Task :=
  s.tasks.find? (fun t => t.alive && t.subAsid == asid && t.tcba == a)

/-- The task of a TCB accepted into queue q (R280, R284, R287, R288). -/
def State.enterTask (s : State) (asid : BitVec 8) (a : BitVec 56) (b : List Byte) (q : Nat) (host : Option (BitVec 3)) : State :=
  let tcb := tcbOf b
  let t : Task :=
    { id := s.nextId, tcba := a, subAsid := asid, tcb := tcb, queue := q, order := s.nextId
      prio := max (queueQpri (s.queueAttr q)) tcb.prio.toNat, waitFrom := none, aged := false, host := host, state := .queued
      due := none, front := false, dest := none, doomed := false, dep := tcbDep b
      mark := (s.marks.find? (fun m => m.1 == asid && m.2.1 == a)).map (·.2.2)
      cores := [], started := 0, frames := [], failure := none, err := 0, late := false, errMember := 0, areas := [], unmapped := [], pins := [], victimFor := none
      cluBars := Vector.replicate 6 (Vector.replicate 16 (launchBarrier (4 * partCtx tcb.part)))
      stkBars := Vector.replicate 16 (launchBarrier (gangMembers tcb.gang.toNat * partCtx tcb.part)) }
  { s with tasks := s.tasks ++ [t], nextId := s.nextId + 1, marks := s.marks.filter (fun m => !(m.1 == asid && m.2.1 == a)) }.kick

/-- Submit the TCB at a virtual address, to the queue given or to the TCB's own. The refusals in the order: queue, fields,
full queue (R89, R280, R282). The task of a poisoned TCB fails before its start, in the queue that its bytes name as they
stand (R353, log 168). -/
def State.submitTcb (s : State) (k : Fin 48) (asid : BitVec 8) (a : Nat) (queue : Option Word) (host : Option (BitVec 3)) :
    State × SubmitEnd :=
  if ((queue.map (fun q => decide (128 ≤ q.toNat))).getD false) then (s, .refused 0x03)
  else if 2 ^ 56 ≤ a then (s, .refused 0x02)
  else match s.pieces k asid .read (pageParts 2 a tcbBytes) with
    | (s, .error (x, va)) => (s, .fault x va)
    | (s, .ok l) =>
      let b := (l.map (fun p => memRead s.mem p.1 p.2.1)).flatten
      let q := ((queue.map (·.toNat)).getD (tcbOf b).queue.toNat)
      let w := s.queueAttr q
      if queueCap w = 0 || queuePlace w = 0 then (s, .refused 0x03)
      else match l.findSome? (fun p => s.poisonIn p.1 p.2.1) with
      | some pa => ((s.enterTask asid (BitVec.ofNat 56 a) b q host).failEarly s.nextId .hbmUe (BitVec.ofNat 64 pa), .queued q)
      | none =>
        if tcbBad a b (queueQcap w) || (s.taskAtTcb asid (BitVec.ofNat 56 a)).isSome then (s, .refused 0x04)
        else if queueCap w ≤ (s.entries q).length then (s, .refused 0x01)
        else (s.enterTask asid (BitVec.ofNat 56 a) b q host, .queued q)

/-- `LAUNCH` and `ENQ` (R89): a page fault parks the submission, a page that stays absent is ERR 0x02. -/
def State.runLaunch (s : State) (e : Eng) (c : Cmd) (queue : Option Word) : State × Cmd :=
  match s.submitTcb e.tlb e.asid c.aReg.toNat queue none with
  | (s, .queued q) => s.endCmd c 0 q
  | (s, .refused x) => s.endCmd c x 0
  | (s, .fault .pageNp va) => s.cmdFault e c e.asid .pageNp va
  | (s, .fault x va) =>
    let (s, c) := s.cmdFault e c e.asid x va
    (s, { c with err := 0x02, value := 0 })

end Sys2Proof.Machine
end

