-- ==== Sys2Proof/Machine/Sched.lean ====
section
/-! DEFINITION. The scheduler's choice (R288 to R292, R299): placement, reservations, preemption requests, migration, the
procedure of R289, aging and the forecast (R302). -/

namespace Sys2Proof.Machine

/-! ## Free cores and shapes (R281, R290, R291, R396) -/

/-- May the task take a physical core: is it free, and does no reservation keep it from the task (R290, R291, R402)? An entry
that `CMAP.SET` has made valid may be taken once its core's scan has ended, whatever the result (R103, log 155). -/
def State.coreFree (s : State) (g : Fin 8) (t : Task) (l : Nat) : Bool :=
  match s.physOf g l with
  | none => false
  | some c =>
    let x := s.groupAt g
    (s.coreAt c).task.isNone && !(s.coreAt c).scan.running && !s.destined c && !x.holds.any (fun h => h.entry == l)
      && (match x.reserve with
        | none => true
        | some r => r.1 == t.id || !r.2.contains l
            || (match s.taskOf r.1 with | some h => decide (h.prio < t.prio) | none => true))

/-- The sets of logical cores of a group that a gang level can take, in the order of choice, each in member order
(R281, R290). -/
def shapesOf (gang : BitVec 2) : List (List Nat) :=
  match gang.toNat with
  | 0 => (List.range 24).map (fun l => [l])
  | 1 => (List.range 6).map (fun k => (List.range 4).map (fun i => 4 * k + i))
  | 2 => [List.range 16, (List.range 8).map (fun i => 16 + i) ++ (List.range 8).map (fun i => 8 + i)]
  | _ => [List.range 24]

/-- The shapes of a group whose entries are all mapped (R396). -/
def State.shapesIn (s : State) (g : Fin 8) (gang : BitVec 2) : List (List Nat) :=
  (shapesOf gang).filter (fun x => x.all (fun l => (s.physOf g l).isSome))

/-- The stack groups that the queue's PLACE allows and that hold mapped cores (R290). -/
def State.groupsFor (s : State) (t : Task) : List (Fin 8) :=
  (List.finRange 8).filter (fun g => (queuePlace (s.queueAttr t.queue)).getLsbD g.val && (List.range 24).any (fun l => (s.physOf g l).isSome))

def State.freeCount (s : State) (g : Fin 8) (t : Task) : Nat := ((List.range 24).filter (s.coreFree g t)).length

/-- The reservation that a task holds: the group and the cores (R291). -/
def State.reservedFor (s : State) (t : Task) : Option (Fin 8 × List Nat) :=
  (List.finRange 8).findSome? (fun g => match (s.groupAt g).reserve with
    | some r => if r.1 = t.id then some (g, r.2) else none
    | none => none)

/-- The physical cores of logical entries. -/
def State.coresOf (s : State) (g : Fin 8) (ls : List Nat) : List (Fin 200) :=
  ls.filterMap (fun l => (s.physOf g l).bind (fun c => if h : c.val < 200 then some ⟨c.val, h⟩ else none))

/-- Is every core of the shape free for the task? -/
def State.shapeFree (s : State) (g : Fin 8) (t : Task) (x : List Nat) : Bool := x.all (s.coreFree g t)

/-- The fit of a group: the first free shape; a gang with a reservation takes the reserved one only. -/
def State.fitIn (s : State) (g : Fin 8) (t : Task) : Option (List Nat) :=
  (s.shapesIn g t.tcb.gang).find? (fun x => s.shapeFree g t x
    && (match s.reservedFor t with | some r => r.1 == g && x == r.2 | none => true))

/-- The best of a list of groups: the most free cores, the lower number on a tie. -/
def State.bestGroup (s : State) (t : Task) (l : List (Fin 8)) : Option (Fin 8) :=
  l.foldl (fun b g => match b with
    | none => some g
    | some h => if s.freeCount h t < s.freeCount g t then some g else some h) none

/-- The group of R290 among those given: AFF if it is among them. -/
def State.pickGroup (s : State) (t : Task) (l : List (Fin 8)) : Option (Fin 8) :=
  match l.find? (fun g => g.val == t.tcb.aff.toNat) with
  | some g => some g
  | none => s.bestGroup t l

/-- Where a task goes: the group and the logical cores, in member order (R290). -/
def State.placeOf (s : State) (t : Task) : Option (Fin 8 × List Nat) :=
  match s.pickGroup t ((s.groupsFor t).filter (fun g => (s.fitIn g t).isSome)) with
  | some g => (s.fitIn g t).map (fun x => (g, x))
  | none => none

/-! ## Placement (R290) -/

/-- Has the save of a team begun to take effect, or has one of its contexts stopped for it? -/
def Core.stopping (y : Core) : Bool := y.team.stopAt.isSome || y.team.ctxs.toList.any (fun x => x.stopped.isSome)

/-- Withdraw the requests of a head that are not yet taken (R292). -/
def State.withdraw (s : State) (id : Nat) : State :=
  let s := s.tasks.foldl (fun s t =>
    if t.victimFor != some id then s
    else
      let s := s.updTask t.id (fun t => { t with victimFor := none })
      if t.state == .running && !t.doomed && !t.cores.any (fun c => (s.coreAt (computeCore c)).stopping) then
        t.cores.foldl (fun s c => s.updCore (computeCore c) (fun y => { y with request := none, holdIssue := false })) s
      else s) s
  allCores.foldl (fun s c => if (s.coreAt c).scan.head = some id then s.updCore c (fun y => { y with scan := { y.scan with head := none } }) else s) s

/-- A reservation ends (R291). -/
def State.unreserve (s : State) (id : Nat) : State :=
  { s with groups := s.groups.map (fun g => match g.reserve with
      | some r => if r.1 = id then { g with reserve := none } else g
      | none => g) }

/-- Wake the gated cores among those of a placement: the start waits up to 2 µs (R398). -/
def State.wakeCores (s : State) (cs : List (Fin 200)) : State × Nat :=
  if cs.any (fun c => (s.coreAt (computeCore c)).gated) then
    let (d, s) := s.takeDelay
    (cs.foldl (fun s c => s.updCore (computeCore c) (fun y => { y with gated := false })) s, s.cycle + min d (2 * Config.cyclesPerMicro))
  else (s, s.cycle)

/-- Give a task its cores, in member order: a new task starts, a saved one is restored (R290, R294). -/
def State.placeAt (s : State) (t : Task) (cs : List (Fin 200)) : State :=
  let s := (s.unreserve t.id).withdraw t.id
  let (s, at_) := s.wakeCores cs
  let (d, s) := if t.state == .queued then (0, s) else s.takeDelay
  let s := cs.foldl (fun s c => s.updCore (computeCore c) (fun y => { y with task := some t.id })) s
  let s := { s with resumes := s.resumes.filter (fun i => i != t.id) }
  s.updTask t.id (fun x => { x with
    state := if t.state == .queued then .placed else .restoring, due := some (at_ + d), waitFrom := none, cores := cs, front := false })

/-- place(t) of R290: none when there is no fit. -/
def State.place? (s : State) (t : Task) : Option State := (s.placeOf t).map (fun p => s.placeAt t (s.coresOf p.1 p.2))

/-! ## Preemption (R292) -/

/-- Have all contexts of all members issued their `RETIRE` (R87, R298)? -/
def State.retiring (s : State) (t : Task) : Bool :=
  t.cores.all (fun c => let x := (s.coreAt (computeCore c)).team
                        (x.ctxs.toList.take (partCtx x.part)).all (·.retired))

/-- The highest logical core of a task's cores. -/
def State.topCore (s : State) (t : Task) : Nat :=
  (t.cores.map (fun c => 24 * (groupOf (computeCore c)).val + ((s.logicalOf (computeCore c)).getD 0))).foldl max 0

/-- May a task be stopped: does it run, with no failure, deadline or last `RETIRE` that ends it, and no halted core (R298, R385)? -/
def State.mayStop (s : State) (t : Task) : Bool :=
  t.state == .running && t.failure.isNone && !t.doomed && !s.retiring t && !t.cores.any (fun c => (s.coreAt (computeCore c)).halted.isSome)

/-- May a task be asked to stop that no request concerns yet? -/
def State.askable (s : State) (t : Task) : Bool :=
  s.mayStop t && t.victimFor.isNone && t.dest.isNone && !t.cores.any (fun c => (s.coreAt (computeCore c)).request.isSome)

/-- May a task be asked to stop by a grade: one that is to stop as soon already is spoken for, and a freeze takes the place of a
boundary request that stands (R292; DEDUCED, log 183). -/
def State.stopsBy (s : State) (t : Task) (k : StopKind) : Bool :=
  s.mayStop t && t.cores.all (fun c => match (s.coreAt (computeCore c)).request with
    | none => true
    | some r => k == .freeze && r == .boundary)

/-- The grade by which level L stops a task, if the task accepts one (R292). -/
def gradeFor (lvl : Nat) (t : Task) : Option StopKind :=
  if 20 ≤ lvl && t.tcb.grade.getLsbD 1 then some .freeze else if t.tcb.grade.getLsbD 0 then some .boundary else none

/-- Is one task a better victim than another: lower priority, then later start, then the higher logical core? -/
def State.victimBefore (s : State) (a b : Task) : Bool :=
  a.prio < b.prio || (a.prio == b.prio && (b.started < a.started || (a.started == b.started && s.topCore b < s.topCore a)))

/-- The tasks of a list from the best victim on. -/
def State.sortVictims (s : State) (l : List Task) : List Task :=
  let rec ins (t : Task) : List Task → List Task
    | [] => [t]
    | x :: r => if s.victimBefore t x then t :: x :: r else x :: ins t r
  l.foldl (fun acc t => ins t acc) []

/-- Ask every member of a task to stop; a freeze may find its boundary in this cycle (R349). -/
def State.ask (s : State) (t : Task) (k : StopKind) : State :=
  t.cores.foldl (fun s c =>
    let s := s.updCore (computeCore c) (fun y => { y with request := some k, requestAt := s.cycle })
    if k = .freeze then s.now (event .freezeBoundary (.core (computeCore c))) else s) s

/-- Does a head have a request under way? -/
def State.hasRequest (s : State) (h : Task) : Bool :=
  s.tasks.any (fun t => t.victimFor == some h.id) || allCores.any (fun c => (s.coreAt c).scan.running && (s.coreAt c).scan.head == some h.id)

/-- The cores that a gang head asks for: those reserved, or the first shape of the chosen group. -/
def State.gangTarget (s : State) (h : Task) : List (Fin 200) :=
  match s.reservedFor h with
  | some r => s.coresOf r.1 r.2
  | none =>
    match s.pickGroup h ((s.groupsFor h).filter (fun g => s.shapesIn g h.tcb.gang != [])) with
    | some g => s.coresOf g ((s.shapesIn g h.tcb.gang).headD [])
    | none => []

/-- The scan under way in an allowed group that a head aborts: the lowest physical core (R292 step 1). -/
def State.scanFor (s : State) (h : Task) : Option (Fin 208) :=
  (s.groupsFor h).findSome? (fun g => ((List.range 25).map (physCore g)).find? (fun c => (s.coreAt c).scan.running && !(s.coreAt c).scan.aborting))

/-- preempt(h, L) of R292; a victim that was to migrate is preempted instead. -/
def State.preempt (s : State) (h : Task) (lvl : Nat) : State :=
  if s.hasRequest h then s
  else match (if 20 ≤ lvl then s.scanFor h else none) with
  | some c => s.abortScan c (some h.id)
  | none =>
    let gs := s.groupsFor h
    let cs := if h.tcb.gang = 0 then [] else s.gangTarget h
    let cands := s.sortVictims (s.tasks.filter (fun t => t.prio < lvl && (match gradeFor lvl t with | some k => s.stopsBy t k | none => false)
      && (if h.tcb.gang = 0 then t.cores.any (fun c => gs.contains (groupOf (computeCore c))) else t.cores.any (cs.contains ·))))
    let cands := if h.tcb.gang = 0 then cands.take 1 else cands
    cands.foldl (fun s t => match gradeFor lvl t with
      | some k => (s.ask t k).updTask t.id (fun t => { t with victimFor := some h.id, dest := none })
      | none => s) s

/-! ## Migration (R299, R300) -/

def fwdEntries : Nat := 64

/-- A core to which a running task may migrate, in an allowed group that a test admits: a free core that no reservation
keeps for a gang. -/
def State.migrateTo (s : State) (t : Task) (ok : Fin 8 → Bool) : Option (Fin 200) :=
  let free (g : Fin 8) (l : Nat) : Bool := s.coreFree g t l
    && (match (s.groupAt g).reserve with | some r => !r.2.contains l | none => true)
  match s.pickGroup t ((s.groupsFor t).filter (fun g => ok g && (List.range 24).any (free g))) with
  | some g => ((List.range 24).find? (free g)).bind (fun l => (s.coresOf g [l]).head?)
  | none => none

/-- May the task migrate now? -/
def State.mayMigrate (s : State) (t : Task) : Bool :=
  s.askable t && t.tcb.gang == 0 && (t.tcb.grade.getLsbD 0 || t.tcb.grade.getLsbD 1)
    && t.cores.all (fun c => (s.coreAt (computeCore c)).fwd.length < fwdEntries)

/-- Is the task on a core that a reservation needs? -/
def State.onReserved (s : State) (t : Task) : Bool :=
  t.cores.any (fun c => match (s.groupAt (groupOf (computeCore c))).reserve with
    | some r => ((s.logicalOf (computeCore c)).map (fun l => r.2.contains l)).getD false
    | none => false)

/-- Where the scheduler moves a running task, if anywhere: off a reserved core, or to its affinity group. -/
def State.migration (s : State) (t : Task) : Option (Fin 200) :=
  if !s.mayMigrate t then none
  else if s.onReserved t then s.migrateTo t (fun _ => true)
  else if t.cores.any (fun c => (groupOf (computeCore c)).val != t.tcb.aff.toNat) then s.migrateTo t (fun g => g.val == t.tcb.aff.toNat)
  else none

/-- Begin the migrations; a task that accepts both grades stops by boundary. -/
def State.migrate (s : State) : State :=
  s.tasks.foldl (fun s t => match s.migration t with
    | some d => (s.ask t (if t.tcb.grade.getLsbD 0 then .boundary else .freeze)).updTask t.id (fun t => { t with dest := some d })
    | none => s) s

/-! ## The procedure of R289 -/

/-- A gang of a queue whose reserved cores are all free: it takes them, whatever stands before it in its queue (R291, R303). -/
def State.reservedReady (s : State) (q : Nat) : Option Task :=
  s.tasks.find? (fun t => t.queue == q && (s.reservedFor t).isSome && s.isReady t && (s.placeOf t).isSome)

/-- The task that a queue offers: a gang that takes its reserved cores, else its resume entry or head (R288, R291). -/
def State.offered (s : State) (q : Nat) : Option Task := match s.reservedReady q with | some t => some t | none => s.frontOf q

/-- The queues that offer a task of priority L. -/
def State.offering (s : State) (lvl : Nat) : List Nat :=
  (List.range 128).filter (fun q => match s.offered q with | some t => t.prio == lvl | none => false)

/-- The first queue of a set from a pointer upward, wrapping at 127. -/
def fromPointer (e : List Nat) (p : Nat) : Option Nat :=
  match e.find? (fun q => p ≤ q) with
  | some q => some q
  | none => e.head?

def State.creditOf (s : State) (q : Nat) : Nat := s.credits.toList.getD q 0
def State.setCredit (s : State) (q n : Nat) : State := { s with credits := setAt s.credits q (fun _ => n) }

/-- The queue that R289 chooses: one with credit, or else the first. -/
def State.choose (s : State) (lvl : Nat) (e : List Nat) : Option Nat :=
  let p := s.pointers.toList.getD lvl 0
  match fromPointer (e.filter (fun q => 0 < s.creditOf q)) p with
  | some q => some q
  | none => fromPointer e p

/-- One turn of the inner loop: the queues left, which are at least one fewer or one task is placed. E is set once for a level: a queue
leaves it when it has no head or does not place, so its next head has its turn here whatever its priority (R289). -/
def State.schedTurn (s : State) (lvl : Nat) (e : List Nat) : State × List Nat :=
  let a := s.offering lvl
  let s := if a.all (fun q => s.creditOf q == 0) then a.foldl (fun s q => s.setCredit q (queueWeight (s.queueAttr q))) s else s
  match s.choose lvl e with
  | none => (s, [])
  | some q =>
    match s.offered q with
    | none => (s, e.erase q)
    | some t =>
      match s.place? t with
      | some s =>
        let s := s.setCredit q (s.creditOf q - 1)
        let empty := (s.offered q).isNone
        let s := if s.creditOf q = 0 || empty then { s with pointers := setAt s.pointers lvl (fun _ => (q + 1) % 128) } else s
        (s, if empty then e.erase q else e)
      | none => (s.preempt t lvl, e.erase q)

def State.schedLevel (lvl : Nat) : Nat → State → List Nat → State
  | 0, s, _ => s
  | n + 1, s, e => if e = [] then s else let (s, e) := s.schedTurn lvl e; State.schedLevel lvl n s e

/-- Tasks that have a failed predecessor fail when they become ready (R287). -/
def State.failMarked (s : State) : State :=
  s.tasks.foldl (fun s t => match t.mark with
    | some p => if s.isReady t then s.failEarly t.id .predFail (p.zeroExtend 64) else s
    | none => s) s

/-- A queue's head waits from the cycle in which it becomes the head (R288). -/
def State.markHeads (s : State) : State :=
  { s with tasks := s.tasks.map (fun t =>
      if t.state != .queued then t
      else if (s.headOf t.queue).map (·.id) == some t.id then { t with waitFrom := some (t.waitFrom.getD s.cycle) }
      else { t with waitFrom := none }) }

/-- SCHED_PASS (R289, R292, R299); a task that is the head when those before it are placed waits from then on (R288). -/
def execSchedPass (s : State) : Host.Outcome State Fault Refusal :=
  let s := s.failMarked.markHeads
  let n := s.tasks.length + 129
  .next (((List.range 24).foldl (fun s i => State.schedLevel (23 - i) n s (s.offering (23 - i))) s).migrate.markHeads)

/-! ## Aging and reservations (R288, R291) -/

/-- The task whose AGE_LIMIT has passed rises by one, up to QCAP, and its wait is counted again. -/
def State.age (s : State) (t : Task) : State :=
  let cap := queueQcap (s.queueAttr t.queue)
  (s.updTask t.id (fun t => { t with prio := if t.prio < cap then t.prio + 1 else t.prio, waitFrom := some s.cycle, aged := true })).kick

/-- Has a head waited AGE_LIMIT with something to gain by it? -/
def State.ageDue (s : State) (t : Task) : Bool :=
  t.state == .queued
    && (match t.waitFrom with | some w => decide (w + s.ageLimit * Config.cyclesPerMicro ≤ s.cycle) | none => false)
    && (t.prio < queueQcap (s.queueAttr t.queue) || (t.tcb.gang != 0 && !t.aged))

/-- AGE_TICK (R288). -/
def execAgeTick (s : State) : Host.Outcome State Fault Refusal :=
  .next (match s.ev with
    | .task id => match s.taskOf id with
      | some t => if s.ageDue t then s.age t else s
      | none => s
    | _ => s)

/-- Running tasks on the cores of a shape. -/
def State.tasksOn (s : State) (g : Fin 8) (x : List Nat) : Nat :=
  ((s.coresOf g x).filter (fun c => (s.coreAt (computeCore c)).task.isSome)).length

/-- The group and shape that a gang head reserves, when the group has no reservation yet: the shape with the fewest running
tasks, the earlier one on a tie (R291). -/
def State.reserveOf (s : State) (t : Task) : Option (Fin 8 × List Nat) :=
  if t.tcb.gang = 0 || !t.aged || t.state != .queued || (s.reservedFor t).isSome || (s.headOf t.queue).map (·.id) != some t.id then none
  else match s.pickGroup t ((s.groupsFor t).filter (fun g => s.shapesIn g t.tcb.gang != [])) with
  | none => none
  | some g =>
    if (s.groupAt g).reserve.isSome then none
    else ((s.shapesIn g t.tcb.gang).foldl (fun b x => match b with
      | none => some x
      | some y => if s.tasksOn g x < s.tasksOn g y then some x else some y) none).map (fun x => (g, x))

/-- GANG_RESERVE (R291). -/
def execGangReserve (s : State) : Host.Outcome State Fault Refusal :=
  .next (match s.ev with
    | .task id => match s.taskOf id with
      | some t => match s.reserveOf t with
        | some (g, x) => (s.updGroup g (fun y => { y with reserve := some (t.id, x) })).kick
        | none => s
      | none => s
    | _ => s)

/-! ## The forecast (R32, R302) -/

/-- BUSY, QREADY and FCAST of a group. -/
def State.forecast (s : State) (g : Fin 8) : Word :=
  let mine (t : Task) : Bool := t.cores.any (fun c => groupOf (computeCore c) == g)
  let busy := ((List.range 25).filter (fun p => (s.coreAt (physCore g p)).task.isSome)).length
  let allows (q : Nat) : Bool := (queuePlace (s.queueAttr q)).getLsbD g.val
  let ready := ((List.range 128).filter (fun q => allows q && (s.headOf q).isSome)).length
    + (s.tasks.filter (fun t => t.state == .resume && allows t.queue)).length
  let waiting := (s.tasks.filter (fun t => t.state == .resume && !t.front && mine t)).length
  BitVec.ofNat 64 (min ready 65535 * 2 ^ 16 + min busy 255 * 2 ^ 8 + min 24 (busy + min ready 65535 + waiting))

/-- AFR_UPDATE: once per microsecond, for every group. -/
def execAfrUpdate (s : State) : Host.Outcome State Fault Refusal :=
  .next ((List.finRange 8).foldl (fun s g => s.updGroup g (fun x => { x with afr := s.forecast g })) s)

end Sys2Proof.Machine
end

