-- ==== Sys2Proof/Machine/Frame.lean ====
section
/-! DEFINITION. Stopping, saving and restoring teams (R34, R88, R188, R294 to R298, R349 to R351), and the start of a
task's teams (R33). -/

namespace Sys2Proof.Machine

/-! ## Launch state (R33) -/

/-- A context of a team as it starts. -/
def launchCtx (t : Task) (k : Nat) : Ctx :=
  { Ctx.reset with
    pc := t.tcb.cbase + t.tcb.eoff.zeroExtend 56
    s := ((Vector.replicate 64 0).set 1 (t.tcba.zeroExtend 64)).set 2 (BitVec.ofNat 64 k) |>.set 3 (t.tcb.htab.zeroExtend 64) }

/-- A team as it starts. -/
def launchTeam (t : Task) : Team :=
  { Team.reset with
    part := t.tcb.part, bars := Vector.replicate 16 (launchBarrier (partCtx t.tcb.part))
    ctxs := #v[launchCtx t 0, launchCtx t 1, launchCtx t 2, launchCtx t 3] }

/-- A core takes a team that starts to issue in this cycle: the instruction buffer is dropped (R275). -/
def Core.attach (y : Core) (task cycle : Nat) (t : Team) : Core :=
  { y with task := some task, team := t, ibuf := [], poisoned := [], fetching := none, stallUntil := cycle, request := none
           holdIssue := false, stopped := false, lastIssue := none }

/-- A core is free of its task. -/
def Core.detach (y : Core) : Core :=
  { y with task := none, team := Team.reset, ibuf := [], poisoned := [], fetching := none, request := none, holdIssue := false
           stopped := false, lastIssue := none }

/-- The contexts that a team has. -/
def Team.live (t : Team) : List Ctx := t.ctxs.toList.take (partCtx t.part)

def Team.allRetired (t : Team) : Bool := t.live.all (·.retired)

/-! ## Stopping -/

/-- Issue of the team stops at boundary B, and the sequencer stops at its restart point. -/
def Team.stop (t : Team) (b : Nat) : Team := { t.seqHalt with stopAt := some b }

/-- Every member of a task stops in this cycle, and the save begins. -/
def State.stopAll (s : State) (t : Task) (k : StopKind) : State :=
  let s := t.cores.foldl (fun s c => s.updTeam (computeCore c) (fun x => if x.stopAt.isSome then x else x.stop s.cycle)) s
  s.updTask t.id (fun t => { t with state := .saving k, due := none })

/-- A blocked context's limit has passed: the smallest WAITLIM among the blocked contexts, counted from the cycle in which
the last of them blocked (R294). -/
def State.limitPassed (s : State) (c : Fin 208) : Bool :=
  let l := ((s.coreAt c).team.live).filter (fun x => !x.retired && x.stopped.isNone)
  match l.map (fun x => x.blockedSince) with
  | [] => false
  | bs =>
    if bs.any (·.isNone) then false
    else
      let since := (bs.filterMap id).foldl max 0
      let lim := (l.map (fun x => x.waitlim.toNat)).foldl min 10000
      decide (since + lim * Config.cyclesPerMicro ≤ s.cycle)

/-- Is a context of the member ready again? -/
def State.someReady (s : State) (c : Fin 208) : Bool :=
  (List.finRange 4).any (fun k => k.val < partCtx (s.coreAt c).team.part && (s.ctxAt c k).live && !s.stillBlocked c k)

/-- May the task be swapped out now: has every member that has not retired passed its limit with no context ready (R294)? A
halted member waits (R385). -/
def State.swapDue (s : State) (t : Task) : Bool :=
  t.state == .running && t.failure.isNone
    && t.cores.all (fun c => let x := computeCore c
        (s.coreAt x).halted.isNone && !(s.coreAt x).haltReq && (s.coreAt x).team.stopAt.isNone
          && ((s.coreAt x).team.allRetired || (s.limitPassed x && !s.someReady x)))
    && t.cores.any (fun c => !(s.coreAt (computeCore c)).team.allRetired)

/-- SWAP_OUT (R294). -/
def execSwapOut (s : State) : Host.Outcome State Fault Refusal :=
  .next (match s.ev with
    | .task id => match s.taskOf id with
      | some t => if s.swapDue t then s.stopAll t .swap else s
      | none => s
    | _ => s)

/-- Acts that write the scratchpad, a tile or the pattern memory: they perform before a save. -/
def Act.pendsWrite (a : Act) : Bool :=
  match a with
  | .accRow _ _ _ => true
  | .mx _ => true
  | a => a.writesSpad

/-- Results of the team that are pending (R349). -/
def Team.pendingResults (t : Team) : Nat :=
  (t.pend.filter (fun p => p.act.isResult || (match p.act with | .reads _ => true | .loadS _ _ _ => true | _ => false))).length + t.replay.length

/-- Is this cycle the boundary B of a freeze that the core is asked for (R349)? -/
def State.atBoundary (s : State) (c : Fin 208) : Bool :=
  let y := s.coreAt c
  y.request == some .freeze && y.halted.isNone && y.team.stopAt.isNone
    && !(match y.lastIssue with | some l => l.1 == s.cycle | none => false) && !y.team.pend.any (fun p => p.act.pendsWrite) && y.team.pendingResults ≤ 48 && !s.retiresNow c

/-- The task of a core that a stop still concerns: it runs and is not retiring (R87, R298), or its deadline has passed (R297). -/
def State.stoppable (s : State) (c : Fin 208) : Option Task :=
  match s.taskAt c with
  | some t => if t.state == .running && t.failure.isNone && (t.doomed || !s.retiring t) then some t else none
  | none => none

/-- FREEZE_BOUNDARY (R349): the core stops; with the last member the save begins. -/
def execFreezeBoundary (s : State) : Host.Outcome State Fault Refusal :=
  .next (match s.ev with
    | .core c => match s.stoppable c with
      | some t =>
        if s.atBoundary c then
          let s := s.updTeam c (fun x => x.stop s.cycle)
          if t.cores.all (fun m => (s.coreAt (computeCore m)).team.stopAt.isSome) then s.stopAll t .freeze else s
        else s
      | none => s
    | _ => s)

/-- Cycles after a freeze request from which no context issues until B (R349). -/
def freezeGrace : Nat := 16

/-- FREEZE_ISSUE_HOLD (R349). -/
def execFreezeIssueHold (s : State) : Host.Outcome State Fault Refusal :=
  .next (match s.ev with
    | .core c =>
      let y := s.coreAt c
      if y.request == some .freeze && y.requestAt + freezeGrace ≤ s.cycle && y.team.stopAt.isNone then
        s.updCore c (fun y => { y with holdIssue := true })
      else s
    | _ => s)

/-- Has every context of every member stopped at a `YIELD` or retired, with no token pending and no tile busy (R88, R295)? -/
def State.boundaryReached (s : State) (t : Task) : Bool :=
  t.state == .running && t.failure.isNone && !s.retiring t
    && t.cores.all (fun c => let y := s.coreAt (computeCore c)
        y.request == some .boundary && y.halted.isNone && y.team.tileBusy == 0
          && y.team.live.all (fun x => (x.retired || x.stopped.isSome) && x.tokPend == 0))

/-- BOUNDARY_STOP (R295). -/
def execBoundaryStop (s : State) : Host.Outcome State Fault Refusal :=
  .next (match s.ev with
    | .task id => match s.taskOf id with
      | some t => if s.boundaryReached t then s.stopAll t .boundary else s
      | none => s
    | _ => s)

/-! ## The frame (R34, R88, R350) -/

/-- The tiles that repetitions still to issue will work on (R188). -/
def Team.repTiles (t : Team) : BitVec 16 :=
  t.ctxs.toList.foldl (fun m x => match x.rep.bind (fun r => mxWord r.instr) with
    | some w => m ||| BitVec.ofNat 16 (2 ^ w.td.toNat)
    | none => m) 0

/-- Is no tile busy but for repetitions still to issue? -/
def Team.tilesIdle (t : Team) : Bool := t.tileBusy &&& ~~~t.repTiles == 0

/-- Have the bank actions and the MX work of a stopped team performed, and are its tiles idle (R188, R294)? A tile that waits
for repetitions is idle between two of them (log 165). -/
def Team.settled (t : Team) : Bool := t.tilesIdle && t.pend.all (fun p => p.act.isResult)

/-- The header of a replay entry (R350). -/
def replayHeader (ctx : Fin 4) (mapw : Bool) (file reg delay : Nat) : Word :=
  (BitVec.ofNat 40 0 ++ BitVec.ofNat 2 ctx.val ++ BitVec.ofBool mapw ++ BitVec.ofNat 2 file ++ BitVec.ofNat 6 reg
    ++ BitVec.ofNat 8 0 ++ BitVec.ofNat 5 delay : BitVec 64)

/-- The entry of a result that is pending at boundary B (R350). -/
def Pend.entry (p : Pend) (b : Nat) : Option ReplayEntry :=
  let e (mapw : Bool) (file reg : Nat) (x mask : VecBits) (map : Option MapBits) (data : Bool) (own : Option Nat) : ReplayEntry :=
    { header := replayHeader p.ctx mapw file reg (p.due - b), data := x, mask := mask, map := map, hasData := data, own := own
      seq := p.seq, unit := p.unit, baddr := p.baddr }
  match p.act with
  | .setS r x => some (e false 0 r.toNat (x.zeroExtend 4096) 0 none true none)
  | .setA r x => some (e false 1 r.toNat (x.zeroExtend 4096) 0 none true none)
  | .setP r x mask => some (e false 2 r.toNat (x.zeroExtend 4096) (mask.zeroExtend 4096) none true none)
  | .setV r x mask map data own => some (e map.isSome 3 r x mask map data own)
  | _ => none

/-- The write that an entry makes when its team begins to issue again at cycle Rs (R351). -/
def ReplayEntry.pend (e : ReplayEntry) (rs : Nat) : Pend :=
  let reg := (e.header.extractLsb' 13 6).toNat
  { due := rs + (e.header.extractLsb' 0 5).toNat, seq := e.seq, unit := e.unit, ctx := (e.header.extractLsb' 22 2).toFin, baddr := e.baddr
    act := match (e.header.extractLsb' 19 2).toNat with
      | 0 => .setS (BitVec.ofNat 6 reg) (e.data.setWidth 64)
      | 1 => .setA (BitVec.ofNat 4 reg) (e.data.setWidth 64)
      | 2 => .setP (BitVec.ofNat 4 reg) (e.data.setWidth 512) (e.mask.setWidth 512)
      | _ => .setV reg e.data e.mask e.map e.hasData e.own }

/-- Scratchpad bytes outside the footprint read as zero after the restore (R34). -/
def inFootprint (fps : List (Nat × Nat)) (a : Nat) : Bool := fps.any (fun f => f.1 ≤ a && a < f.1 + f.2)

/-- The frame of a full save: results not landed become the replay buffer, and the counts of R350 hold every stall. -/
def Team.frame (t : Team) (stall : Nat) (fps : List (Nat × Nat)) : Team :=
  { t with
    spad := t.spad.filter (fun c => inFootprint fps c.1), pend := [], replay := [], accRes := [], gang := none
    buffer := (t.replay ++ t.pend).filterMap (fun p => p.entry (t.stopAt.getD stall))
    tileBusy := 0, undo := [], fresh := []
    ctxs := t.ctxs.map (fun x => { x with earliest := max x.earliest stall, preread := none }) }

/-- The scalars that a `YIELD` mask saves, the others at their launch value (R88). -/
def savedScalars (now launch : Vector Word 64) (mask : Word) : Vector Word 64 :=
  Vector.ofFn (fun i : Fin 64 => if i.val != 0 && mask.getLsbD i.val then now.get i else launch.get i)

/-- A context of a boundary save: the address after its `YIELD`, and the scalars of its mask (R88, R298). -/
def Ctx.boundary (x launch : Ctx) : Ctx :=
  match x.stopped with
  | some (mask, next) => { launch with pc := next, s := savedScalars x.s launch.s mask }
  | none => { launch with pc := x.pc, retired := x.retired }

/-- The frame of a boundary save: all else takes its launch value, and results not landed are lost (R88, R351). Barriers and
commands that hold no token stay, and a sequencer that is parked for one (R357). -/
def Team.boundaryFrame (t : Team) (task : Task) : Team :=
  let l := launchTeam task
  { l with
    cur := t.cur, bars := t.bars, cmds := t.cmds, opq := t.opq, seq := t.seq, stopAt := t.stopAt
    ctxs := Vector.ofFn (fun i : Fin 4 => (t.ctxs.get i).boundary (l.ctxs.get i)) }

/-- A fetch that is parked for a core's context follows its team into the frame, and back (R41, R273). -/
def State.moveFetches (s : State) (c : Fin 208) (task member : Nat) (out : Bool) : State :=
  { s with parked := s.parked.map (fun p => { p with who := p.who.map (fun w => match w with
      | .fetch e => if out && e.core == c then .frame task member e.ctx else w
      | .frame t m k => if !out && t == task && m == member then .fetch { core := c, ctx := k } else w
      | .command _ => w
      | .event _ => w
      | .kvFree _ _ _ _ _ => w) }) }

/-- The frames of a task, in member order. -/
def State.framesOf (s : State) (t : Task) (k : StopKind) : List Team :=
  t.cores.map (fun c => let y := s.coreAt (computeCore c)
    match k with
    | .boundary => y.team.boundaryFrame t
    | _ => y.team.frame y.stallUntil t.tcb.fps)

/-- The commands of a team that are outstanding at a migration (R300). -/
def Team.outstanding (t : Team) : List Nat := (t.cmds.filter (fun c => c.state != .done)).map (·.id)

/-- The members leave their cores. -/
def State.leaveCores (s : State) (t : Task) : State :=
  (t.cores.zip (List.range t.cores.length)).foldl (fun s p =>
    (s.moveFetches (computeCore p.1) t.id p.2 true).updCore (computeCore p.1) Core.detach) s

/-- A deadline task fails once it is frozen, and its frame is kept (R297). -/
def State.deadlineFail (s : State) (t : Task) (started : Bool) : State :=
  let s := match (if started then t.cores.head? else none) with
    | some c => s.record (computeCore c) Cause.deadline.code 0 0 t.tcb.deadline []
    | none => s.recordAt 0 31 Cause.deadline.code 0 0 t.tcb.deadline []
  s.failTask t.id { status := if started then 1 else 2, cause := Cause.deadline.code, detail := t.tcb.deadline, member := 0 }

/-- A frame's place in space 0 is written or read, page by page: the first fault or poisoned word, and its address. The bytes
of a frame are free: the spec gives it no layout (R269, R273, R353, log 166). -/
def State.moveArea (s : State) (g : Fin 8) (write : Bool) (a : Nat × Nat) : State × Option (Cause × Nat) :=
  match s.pieces (firmwareCluster g) 0 (if write then .write else .read) (pageParts (a.2 / 4096 + 2) a.1 a.2) with
  | (s, .error (.hbmUe, va)) => (s, some (.hbmUe, s.faultTval (firmwareCluster g) 0 .hbmUe va))
  | (s, .error (_, va)) => (s, some (.pteBad, va))
  | (s, .ok l) =>
    if write then (let (s, bs) := s.freeBytes a.2; (s.writePieces l bs, none))
    else (s, (l.findSome? (fun p => s.poisonIn p.1 p.2.1)).map (fun pa => (.hbmUe, pa)))

/-- Every member's frame in turn: the task fails with the first that cannot be moved. -/
def State.moveAreas (s : State) (t : Task) (write : Bool) (areas : List (Nat × Nat)) : State × Bool :=
  (t.cores.zip (areas.zip (List.range areas.length))).foldl (fun r p =>
    if !r.2 then r
    else match r.1.moveArea (groupOf (computeCore p.1)) write p.2.1 with
      | (s, none) => (s, true)
      | (s, some (x, a)) => ((s.record (computeCore p.1) x.code 0 0 (BitVec.ofNat 64 a) []).failTask t.id
          { status := 1, cause := x.code, detail := BitVec.ofNat 64 a, member := p.2.2 }, false)) (s, true)

/-- The frames of a save that is no migration go to the places that firmware gives. -/
def State.keepFrames (s : State) (t : Task) : State × Bool :=
  if t.dest.isSome then (s, true)
  else
    let areas := s.areas.take t.cores.length
    State.moveAreas { s.updTask t.id (fun t => { t with areas := areas }) with areas := s.areas.drop t.cores.length } t true areas

/-- The save of a task ends (R294, R296, R297, R299): its frames are full, its cores free. -/
def State.teamSaved (s : State) (t : Task) (k : StopKind) : State :=
  let frames := s.framesOf t k
  match s.keepFrames t with
  | (s, false) => s
  | (s, true) =>
  let old := t.cores
  let s := s.leaveCores t
  let s := s.updTask t.id (fun t => { t with frames := frames, due := none, victimFor := none })
  if t.doomed then (s.deadlineFail t true).kick
  else match t.dest with
  | some d =>
    let out := (frames.map Team.outstanding).flatten
    let s := if out = [] then s else old.foldl (fun s c => s.updCore (computeCore c) (fun y =>
      { y with fwd := y.fwd ++ [{ task := t.id, dest := d, cmds := out }] })) s
    let (s, at_) := s.wakeCores [d]
    let (n, s) := s.takeDelay
    let s := s.updCore (computeCore d) (fun y => { y with task := some t.id })
    (s.updTask t.id (fun t => { t with state := .restoring, cores := [d], due := some (at_ + n), dest := none })).kick
  | none =>
    match k with
    | .swap => (s.updTask t.id (fun t => { t with state := .saved })).kick
    | _ => { s.updTask t.id (fun t => { t with state := .resume, front := true }) with resumes := t.id :: s.resumes }.kick

/-- Is a core of the task halted? The scheduler then neither swaps, preempts nor migrates it (R385). -/
def State.anyHalted (s : State) (t : Task) : Bool := t.cores.any (fun c => (s.coreAt (computeCore c)).halted.isSome)

/-- TEAM_SAVED. -/
def execTeamSaved (s : State) : Host.Outcome State Fault Refusal :=
  .next (match s.ev with
    | .task id => match s.taskOf id with
      | some t => match t.state with
        | .saving k => if t.failure.isNone && !s.anyHalted t then s.teamSaved t k else s
        | _ => s
      | none => s
    | _ => s)

/-! ## The resume list (R294) -/

/-- A saved team whose wait is over enters its queue's resume list. -/
def State.enterResume (s : State) (id : Nat) : State :=
  { s.updTask id (fun t => { t with state := .resume, front := false }) with resumes := s.resumes ++ [id] }.kick

/-- A member of a saved task as it would stand on a core: for the conditions that its contexts wait for. -/
def State.asOnCore (s : State) (t : Task) (m : Nat) (c : Fin 208) : State :=
  s.updCore c (fun y => { y with task := some t.id, team := t.frames.getD m Team.reset })

/-- Does a saved context wait for the cycle of a `WAIT.cyc`? -/
def waitsCycle (x : Ctx) : Option Nat :=
  match x.blockedOn with
  | [.waitCyc w] => some (x.sReg w.a).toNat
  | _ => none

/-- Does it wait for its gang with a ready word (R185)? -/
def waitsGang (s : State) (c : Fin 208) (x : Ctx) : Bool :=
  s.gangCores c != [] && (match x.blockedOn with | [i] => isGangWord x i | _ => false)

/-- Is a wait condition of a saved context resolved, other than by the passing of a cycle (R294)? -/
def State.waitOver (s : State) (t : Task) (m : Nat) (c : Fin 208) (k : Fin 4) : Bool :=
  let x := (t.frames.getD m Team.reset).ctxs.get k
  x.live && k.val < partCtx (t.frames.getD m Team.reset).part
    && !s.parked.any (fun p => p.who.contains (.frame t.id m k))
    && (waitsCycle x).isNone && !waitsGang (s.asOnCore t m c) c x && (x.blockedOn = [] || !(s.asOnCore t m c).blocks c k x.blockedOn)

/-- Does a saved member's own work need a core: repetitions, its sequencer, a result to deliver, or a command that could start
there (R195, log 167)? -/
def State.workWaits (s : State) (t : Task) (m : Nat) (c : Fin 208) : Bool :=
  let f := t.frames.getD m Team.reset
  let u := s.asOnCore t m c
  f.ctxs.toList.any (fun x => x.rep.isSome)
    || f.cmds.any (fun x => awaitsDelivery x || cpymStands x
        || (f.seq.running && x.id == f.seq.cmd && x.state == .waiting)
        || (recordsRange x.instr && u.mayStart (.core c) x x.ranges)
        || s.deferred.any (fun d => match d.arg with
            | .fabric e => (match e.msg with | .answer r _ _ _ => r.id == x.id | _ => false)
            | _ => false))

/-- Is a wait condition of a saved task resolved? One condition in any member suffices. -/
def State.mayResume (s : State) (t : Task) : Bool :=
  (t.cores.zip (List.range t.cores.length)).any (fun p =>
    s.workWaits t p.2 (computeCore p.1) || (List.finRange 4).any (fun k => s.waitOver t p.2 (computeCore p.1) k))

/-- Does a cycle that a saved task waits for pass? -/
def State.cycleDue (s : State) (t : Task) : Bool :=
  t.state == .saved && t.frames.any (fun f => f.live.any (fun x => x.live && (match waitsCycle x with | some n => decide (n ≤ s.cycle) | none => false)))

/-- CYCLE_OF_WAIT_CYC_PASSES (R294). -/
def execWaitCycPasses (s : State) : Host.Outcome State Fault Refusal :=
  .next (match s.ev with
    | .task id => match s.taskOf id with
      | some t => if s.cycleDue t then s.enterResume id else s
      | none => s
    | _ => s)

/-! ## Restore (R34, R88, R351) -/

/-- A team that begins to issue at cycle Rs: every count goes on from there. -/
def Team.restored (t : Team) (rs : Nat) : Team :=
  let b := t.stopAt.getD rs
  let at_ (n : Nat) : Nat := rs + (n - b)
  let parked := t.cmds.any (fun c => c.id == t.seq.cmd && (match c.state with | .parked _ _ _ => true | _ => false))
  let t := if parked then t else t.seqResume
  { t with
    stopAt := none, mxFree := at_ t.mxFree, gatherFree := at_ t.gatherFree
    replay := t.buffer.map (fun e => e.pend rs), buffer := [], tileBusy := t.tileBusy ||| t.repTiles
    ctxs := t.ctxs.map (fun x => { x with
      earliest := at_ x.earliest, stopped := none, blockedSince := none, blockedOn := [], preread := none
      rep := x.rep.map (fun r => { r with next := at_ r.next }) }) }

/-- RESTORE: the frames go to the cores, and what waited for the team goes on (R195). -/
def execRestore (s : State) : Host.Outcome State Fault Refusal :=
  .next (match s.ev with
    | .task id => match s.taskOf id with
      | some t =>
        if t.state == .restoring && t.failure.isNone then match s.moveAreas t false t.areas with
        | (s, false) => s
        | (s, true) =>
          let s := (t.cores.zip (t.frames.zip (List.range t.frames.length))).foldl (fun s p =>
            (s.updCore (computeCore p.1) (fun y => y.attach t.id s.cycle (p.2.1.restored s.cycle))).moveFetches (computeCore p.1) t.id p.2.2 false) s
          let s := s.updTask id (fun t => { t with state := .running, frames := [], areas := [], due := none })
          { s with agenda := s.agenda ++ s.deferred, deferred := [] }
        else s
      | none => s
    | _ => s)

/-- REPLAY_INJECT (R351): at the end of the cycle before the one from which an entry is readable, it is written, as the
write of the bundle that issued it: before every result of later bundles that lands then (R10). Entries of a team that is
stopped again stay pending. -/
def execReplayInject (s : State) : Host.Outcome State Fault Refusal :=
  .next (match s.ev with
    | .core c =>
      let due (p : Pend) : Bool := (s.coreAt c).team.stopAt.isNone && decide (p.due ≤ s.cycle + 1)
      let l := (s.coreAt c).team.replay.filter due
      let s := s.updTeam c (fun t => { t with replay := t.replay.filter (fun p => !due p) })
      l.foldl (fun s p => s.runAct c p) s
    | _ => s)

/-! ## Forwarding (R300) -/

/-- Is a command still outstanding anywhere? -/
def State.cmdLives (s : State) (id : Nat) : Bool := s.allCmds.any (fun p => p.2.id == id && p.2.state != .done)

/-- FORWARD_RETIRE: the entry goes when every command outstanding at the migration has made its last access. -/
def execForwardRetire (s : State) : Host.Outcome State Fault Refusal :=
  .next (match s.ev with
    | .fwd r => s.updCore (computeCore r.core) (fun y =>
        { y with fwd := y.fwd.filter (fun f => !(f.task == r.task && f.cmds.all (fun i => !s.cmdLives i))) })
    | _ => s)

end Sys2Proof.Machine
end

