-- ==== Sys2Proof/Machine/Shake.lean ====
section
/-! DEFINITION. SHAKE256 (R387, R391 to R393), as FIPS 202 gives it: the spec names the function and does not define it
(log 26, PRESUMED). -/

namespace Sys2Proof.Machine

/-- The state of the sponge: 25 lanes, lane 5y + x in column x and row y. -/
abbrev Lanes := List (BitVec 64)

def Lanes.lane (a : Lanes) (i : Nat) : BitVec 64 := a.getD i 0

/-- The walk of ρ and π: from the place (x, y) to (y, 2x + 3y), starting at (1, 0), it visits every place but (0, 0). -/
def walkPlaces : Nat → Nat → List Nat
  | 0, p => [p]
  | n + 1, p => p :: walkPlaces n (p / 5 + 5 * ((2 * (p % 5) + 3 * (p / 5)) % 5))

/-- Where the lanes go: the source, the destination, and the rotation (t + 1)(t + 2)/2 of the walk's t-th stride. -/
def laneMoves : List (Nat × Nat × Nat) :=
  let l := walkPlaces 24 1
  ((l.zip l.tail).zip (List.range 24)).map (fun m => (m.1.1, m.1.2, (m.2 + 1) * (m.2 + 2) / 2 % 64))

/-- One step of the register that generates the constants of ι: feedback x^8 + x^6 + x^5 + x^4 + 1. -/
def lfsrStep (r : Nat) : Nat := if 128 ≤ r then (2 * r) ^^^ 0x171 else 2 * r

/-- A constant of ι from seven outputs of the register, output j at bit 2^j - 1; and the register afterwards. -/
def iotaConst (r : Nat) : Nat × Nat :=
  (List.range 7).foldl (fun (c, r) j => (if r % 2 = 1 then c + 2 ^ (2 ^ j - 1) else c, lfsrStep r)) (0, r)

/-- θ: every lane takes in the parities of the columns beside it. -/
def Lanes.theta (a : Lanes) : Lanes :=
  let parity := (List.range 5).map (fun x => a.lane x ^^^ a.lane (x + 5) ^^^ a.lane (x + 10) ^^^ a.lane (x + 15) ^^^ a.lane (x + 20))
  let mix := (List.range 5).map (fun x => parity.getD ((x + 4) % 5) 0 ^^^ (parity.getD ((x + 1) % 5) 0).rotateLeft 1)
  (a.zip (mix ++ mix ++ mix ++ mix ++ mix)).map (fun p => p.1 ^^^ p.2)

/-- ρ and π: the lanes move along the walk and turn on the way. -/
def Lanes.rhoPi (a : Lanes) : Lanes := laneMoves.foldl (fun b m => b.set m.2.1 ((a.lane m.1).rotateLeft m.2.2)) a

/-- χ on one row of five lanes. -/
def chiRow (r : Lanes) : Lanes := (List.range 5).map (fun x => r.lane x ^^^ (r.lane ((x + 2) % 5) &&& ~~~ r.lane ((x + 1) % 5)))

def Lanes.chi (a : Lanes) : Lanes := ((List.range 5).map (fun y => chiRow ((a.drop (5 * y)).take 5))).flatten

/-- The permutation: 24 rounds, the register running on. -/
def keccakF (a : Lanes) : Lanes :=
  ((List.range 24).foldl (fun (s : Lanes × Nat) _ =>
    let (c, r) := iotaConst s.2
    (s.1.theta.rhoPi.chi.modifyHead (· ^^^ BitVec.ofNat 64 c), r)) (a, 1)).1

def shakeRate : Nat := 136

/-- A block of the rate enters the state. -/
def shakeAbsorb (a : Lanes) (b : List Byte) : Lanes :=
  keccakF ((List.range 25).map (fun i => a.lane i ^^^ BitVec.ofNat 64 (natOf ((b.drop (8 * i)).take 8))))

/-- The message with its suffix and padding. -/
def shakePad (m : List Byte) : List Byte :=
  let n := shakeRate - m.length % shakeRate
  if n = 1 then m ++ [0x9F] else m ++ [0x1F] ++ List.replicate (n - 2) 0 ++ [0x80]

/-- SHAKE256 of a message, n bytes of output, n at most the rate. -/
def shake256 (m : List Byte) (n : Nat) : List Byte :=
  let p := shakePad m
  let a := (List.range (p.length / shakeRate)).foldl (fun a i => shakeAbsorb a ((p.drop (shakeRate * i)).take shakeRate)) (List.replicate 25 0)
  ((a.map (fun x => bytesOf 8 x.toNat)).flatten).take n

end Sys2Proof.Machine
end

