-- ==== Sys2Proof/Machine/Stitched.lean ====
section
/-! DEFINITION. Stitched tensors (R228 to R233, R328 to R334) and seasoned words in memory (R237, R238, R340, R342): the
home operations, `CPYS`, `SWCPY` and `SWEEP`. -/

namespace Sys2Proof.Machine

/-! ## Tensors at home (R328 to R332) -/

def State.tensorOf (s : State) (id : Nat) : Option Stitched := s.tensors.find? (fun t => t.id == id)

def State.putTensor (s : State) (t : Stitched) : State :=
  { s with tensors := s.tensors.map (fun x => if x.id == t.id then t else x) }

/-- A version's list, while the home keeps it (R331). -/
def Stitched.coils (t : Stitched) (v : BitVec 32) : List Coil :=
  ((t.versions.find? (fun p => p.1 == v)).map (·.2)).getD []

def Stitched.pinsOf (t : Stitched) (v : BitVec 32) : Nat := ((t.pins.find? (fun p => p.1 == v)).map (·.2)).getD 0

/-- May a version take one more pin (R231)? -/
def Stitched.pinOk (t : Stitched) (v : BitVec 32) : Bool :=
  if t.pinsOf v = 0 then t.pins.length < 16 else t.pinsOf v < 65535

def Stitched.pin (t : Stitched) (v : BitVec 32) : Stitched :=
  if t.pinsOf v = 0 then { t with pins := t.pins ++ [(v, 1)] }
  else { t with pins := t.pins.map (fun p => if p.1 == v then (p.1, p.2 + 1) else p) }

def Stitched.unpin (t : Stitched) (v : BitVec 32) : Stitched :=
  { t with pins := (t.pins.map (fun p => if p.1 == v then (p.1, p.2 - 1) else p)).filter (fun p => p.2 != 0) }

/-- Is the version current or pinned? A closed tensor has no current version left to keep (R331, R332). -/
def Stitched.keeps (t : Stitched) (v : BitVec 32) : Bool := v == t.current || t.pinsOf v != 0

/-- Lists of versions that are neither current nor pinned are discarded, and each coil of theirs that no kept version
contains is retired with one record, in the order of the list (R233, R331). A closed tensor without pins frees its id
(R332). -/
def State.retireCoils (s : State) (id : Nat) (baddr : BitVec 56) : State :=
  match s.tensorOf id with
  | none => s
  | some t =>
    let kept := t.versions.filter (fun p => t.keeps p.1)
    let still (c : Coil) : Bool := kept.any (fun p => p.2.any (fun x => x.uid == c.uid))
    let dead := (((t.versions.filter (fun p => !t.keeps p.1)).map (·.2)).flatten).filter (fun c => !still c)
    let s := s.putTensor { t with versions := kept }
    let s := dead.foldl (fun s c => s.recordAt t.home (32 * t.home.val + 31) Cause.coilRetire.code 0 baddr (c.base.zeroExtend 64)
      [BitVec.ofNat 64 (id + (c.gone.getD 0).toNat * 2 ^ 16)]) s
    if t.closed && t.pins = [] then { s with tensors := s.tensors.filter (fun x => x.id != id) } else s

/-- Release one pin of a version (R231, R232). -/
def State.unpinTensor (s : State) (id : Nat) (v : BitVec 32) (baddr : BitVec 56) : State :=
  match s.tensorOf id with
  | none => s
  | some t => (s.putTensor (t.unpin v)).retireCoils id baddr

/-- The lowest free id from 1 to 65535 (R229). -/
def State.freeTensorId (s : State) : Option Nat :=
  (List.range (s.tensors.length + 1)).map (· + 1) |>.find? (fun i => i < 65536 && (s.tensorOf i).isNone)

/-! ## Records of coils (R228) -/

/-- A coil of 16 bytes, none when a field is invalid. -/
def coilOf (uid : Nat) (b : List Byte) : Option Coil :=
  let rows := natAt b 8 4
  let stride := natAt b 12 4
  if natAt b 7 1 != 0 || natAt b 0 7 % 32 != 0 || stride % 32 != 0 || rows == 0 || 2 ^ 24 < rows then none
  else some { uid := uid, gone := none, base := BitVec.ofNat 56 (natAt b 0 7), rows := rows, stride := BitVec.ofNat 32 stride }

/-- `n` coils from byte 16 of a record; each is a new coil (R329). -/
def coilsOf (uid : Nat) (b : List Byte) (n : Nat) : Option (List Coil) :=
  let l := (List.range n).map (fun i => coilOf (uid + i) ((b.drop (16 + 16 * i)).take 16))
  if l.any (·.isNone) then none else some (l.filterMap id)

def coilRows (l : List Coil) : Nat := (l.map (·.rows)).foldl (· + ·) 0

/-- The first rows of the coils of a list, and its row total last. -/
def coilFirsts : Nat → List Coil → List Nat
  | n, [] => [n]
  | n, c :: r => n :: coilFirsts (n + c.rows) r

/-! ## STNEW, SPLICE, STPIN and STUNPIN -/

def execStnew (w : EWord) (s : State) : Host.Outcome State Fault Refusal :=
  .next (s.slot (.stnew w) w.hd (s.enRes (.stnew w) w [] [s.wholeRange false] []))
def execSplice (w : EWord) (s : State) : Host.Outcome State Fault Refusal :=
  .next (s.slot (.splice w) w.hd (s.enRes (.splice w) w [] [s.wholeRange false] []))
def execStpin (w : EWord) (s : State) : Host.Outcome State Fault Refusal :=
  .next (s.slot (.stpin w) w.hd (s.enRes (.stpin w) w [] [] []))
def execStunpin (w : EWord) (s : State) : Host.Outcome State Fault Refusal :=
  .next (s.slot (.stunpin w) w.hd (s.enRes (.stunpin w) w [] [] []))

/-- R229. -/
def State.runStnew (s : State) (e : Eng) (c : Cmd) : State × Cmd :=
  let h := s.engPad e c.aOff 16
  let n := natAt h 4 2
  let c := { c with ranges := [c.reads (16 + 16 * n)] }
  if e.size < c.aOff + 16 then s.endCmd c 0x03 0
  else if natAt h 6 10 != 0 || natAt h 0 4 == 0 || 2 ^ 20 < natAt h 0 4 || n == 0 || 1024 < n then s.endCmd c 0x4B 0
  else if e.size < c.aOff + 16 + 16 * n then s.endCmd c 0x03 0
  else match coilsOf s.nextId (s.engPad e c.aOff (16 + 16 * n)) n with
    | none => s.endCmd c 0x4B 0
    | some l =>
      if 2 ^ 24 < coilRows l then s.endCmd c 0x4B 0
      else match s.freeTensorId with
        | none => s.endCmd c 0x48 0
        | some id =>
          let t : Stitched := { id := id, home := groupOf c.by_, current := 1, rowb := natAt h 0 4, closed := false
                                versions := [(1, l)], pins := [] }
          { s with tensors := s.tensors ++ [t], nextId := s.nextId + n }.endCmd c 0 id

/-- What a splice leaves of a tensor: the ERR, or the tensor at its new version (R230, R331, R332). -/
def Stitched.splice (t : Stitched) (ins : List Coil) (p nrem : Nat) (expect : BitVec 32) : Except (BitVec 7) Stitched :=
  let old := t.coils t.current
  let firsts := coilFirsts 0 old
  if expect ≠ 0 ∧ expect ≠ t.current then .error 0x4D
  else if !firsts.contains p || !firsts.contains (p + nrem) then .error 0x49
  else
    let new := old.take (firsts.idxOf p) ++ ins ++ old.drop (firsts.idxOf (p + nrem))
    if 2 ^ 24 < coilRows new || 1024 < new.length then .error 0x4B
    else
      let v := t.current + 1
      let mark (c : Coil) : Coil :=
        if old.any (fun x => x.uid == c.uid) && !new.any (fun x => x.uid == c.uid) then { c with gone := some v } else c
      .ok { t with current := v, closed := new == [], versions := (t.versions.map (fun q => (q.1, q.2.map mark))) ++ [(v, new)] }

/-- R230, in the order of its table. -/
def State.runSplice (s : State) (e : Eng) (c : Cmd) : State × Cmd :=
  let h := s.engPad e c.aOff 16
  let n := natAt h 2 2
  let c := { c with ranges := [c.reads (16 + 16 * n)] }
  if e.size < c.aOff + 16 then s.endCmd c 0x03 0
  else if 1024 < n then s.endCmd c 0x4B 0
  else if e.size < c.aOff + 16 + 16 * n then s.endCmd c 0x03 0
  else match coilsOf s.nextId (s.engPad e c.aOff (16 + 16 * n)) n with
    | none => s.endCmd c 0x4B 0
    | some ins =>
      match s.tensorOf (natAt h 0 2) with
      | none => s.endCmd c 0x48 0
      | some t =>
        if t.closed then s.endCmd c 0x48 0
        else match t.splice ins (natAt h 4 4) (natAt h 8 4) (BitVec.ofNat 32 (natAt h 12 4)) with
          | .error x => s.endCmd c x 0
          | .ok t =>
            (({ s with nextId := s.nextId + n }.putTensor t).retireCoils t.id c.baddr).endCmd c 0 t.current.toNat

/-- Change the pins a command's task holds. -/
def State.updPins (s : State) (e : Eng) (f : List (Nat × BitVec 32) → List (Nat × BitVec 32)) : State :=
  match s.homeTask e.home with
  | some t => s.updTask t.id (fun t => { t with pins := f t.pins })
  | none => s

/-- R231. -/
def State.runStpin (s : State) (e : Eng) (c : Cmd) : State × Cmd :=
  let id := c.b.toNat
  if 2 ^ 16 ≤ id then s.endCmd c 0x02 0
  else match s.tensorOf id with
    | none => s.endCmd c 0x48 0
    | some t =>
      if t.closed then s.endCmd c 0x48 0
      else if !t.pinOk t.current then s.endCmd c 0x4A 0
      else ((s.putTensor (t.pin t.current)).updPins e (fun l => l ++ [(id, t.current)])).endCmd c 0 t.current.toNat

/-- R231, R332. -/
def State.runStunpin (s : State) (e : Eng) (c : Cmd) : State × Cmd :=
  let id := c.b.toNat
  let v := c.c.extractLsb' 0 32
  if 2 ^ 16 ≤ id || 2 ^ 32 ≤ c.c.toNat then s.endCmd c 0x02 0
  else match s.tensorOf id with
    | none => s.endCmd c 0x48 0
    | some t =>
      if t.pinsOf v = 0 then s.endCmd c 0x4A 0
      else ((s.unpinTensor id v c.baddr).updPins e (fun l => l.erase (id, v))).endCmd c 0 0

/-! ## CPYS (R232) -/

def cpysVer (w : EWord) : Bool := w.fn.getLsbD 1

/-- R198, R232, R239: the view is read and written. -/
def execCpys (w : EWord) (s : State) : Host.Outcome State Fault Refusal :=
  let a := s.ictx.enAddr w
  .next (s.slot (.cpys w) w.hd (s.enRes (.cpys w) w (alignFaults 32 a) [writeRange a 128, s.wholeRange (!dirOut w)] []))

/-- Is a field of the view invalid for a tensor (R199, R232)? -/
def View.badRows (v : View) : Bool :=
  v.bad || 2 ^ 32 ≤ v.base || v.m.toList.getD 1 0 != 0 || v.n.toList.getD 2 1 != 1 || v.n.toList.getD 3 1 != 1

/-- The memory address of a logical row (R232). -/
def rowAddr : List Coil → Nat → Nat
  | [], _ => 0
  | c :: r, x => if x < c.rows then (((c.base.toNat : Int) + c.stride.toInt * x) % (2 ^ 56 : Nat)).toNat else rowAddr r (x - c.rows)

/-- The parts of a view of tensor rows, in the order its elements move. -/
def View.tensorParts (v : View) (l : List Coil) : List Part :=
  let n0 := v.n.toList.getD 0 1
  ((List.range (v.n.toList.getD 1 1)).map (fun i => rowParts (i * n0) (rowAddr l (v.base + i)) (v.rowPad i) v.mw v.sw n0)).flatten

/-- The version a `CPYS` uses: the tensor with its pin, or the ERR. -/
def State.cpysVersion (s : State) (c : Cmd) (w : EWord) : Except (BitVec 7) (Stitched × BitVec 32) :=
  match c.pin with
  | some (id, v) => match s.tensorOf id with | some t => .ok (t, v) | none => .error 0x48
  | none =>
    match s.tensorOf c.b.toNat with
    | none => .error 0x48
    | some t =>
      let v := c.c.extractLsb' 0 32
      if cpysVer w then (if t.pinsOf v = 0 then .error 0x4A else .ok (t, v))
      else if t.closed then .error 0x48
      else if !t.pinOk t.current then .error 0x4A
      else .ok (t.pin t.current, t.current)

/-- Move the rows of a tensor once every check has passed (R232). -/
def State.moveRows (s : State) (e : Eng) (c : Cmd) (w : EWord) (v : View) (l : List Coil) : State × Cmd :=
  let ps := v.tensorParts l
  if s.taggedBad e e.asid (if dirOut w then .write else .read) (!v.raw) v.mw ps then s.failCmd e c 0x02
  else
    let (s, c) := s.overParts (v.mover e (dirOut w)) e e.asid c (restParts c ps)
    s.succeed e c v.count

/-- R232. With VER = 0 the pin is taken at the start and released with the status word. VTAG is written as the checks that R232
names have passed, and so before a TAGGED page ends the command (R276; DEDUCED, log 205). -/
def State.runCpys (s : State) (e : Eng) (c : Cmd) (w : EWord) : State × Cmd :=
  if 2 ^ 16 ≤ c.b.toNat || 2 ^ 32 ≤ c.c.toNat then s.endCmd c 0x02 0
  else if e.size < c.aOff + 128 then s.endCmd c 0x03 0
  else
    let first := c.blob = []
    let c := s.readView e c
    let v := viewOf c.blob
    let c := { c with ranges := [c.writes 128, v.range v.sw (!dirOut w)] }
    if v.badRows then s.endCmd c 0x02 0
    else if v.m.toList.any (fun x => x % (v.mw : Int) != 0) then s.endCmd c 0x04 0
    else if v.outside v.sw e.size then s.endCmd c 0x03 0
    else match s.cpysVersion c w with
      | .error x => s.failCmd e c x
      | .ok (t, ver) =>
        let s := s.putTensor t
        let c := { c with pin := if cpysVer w then none else some (t.id, ver) }
        let l := t.coils ver
        if coilRows l < v.base + v.n.toList.getD 1 1 || t.rowb < v.mw * v.n.toList.getD 0 1 then s.endCmd c 0x49 0
        else
          let s := if first then s.engPadWrite e (c.aOff + 121) (bytesOf 2 (ver.toNat % 2 ^ 16)) else s
          s.moveRows e c w v l

/-! ## SWCPY (R237) -/

def swcpyWide (w : EWord) : Bool := w.fn.getLsbD 2

def execSwcpyIn (w : EWord) (s : State) : Host.Outcome State Fault Refusal :=
  .next (s.slot (.swcpyIn w) w.hd (s.viewRes (.swcpyIn w) w [] true))
def execSwcpyOut (w : EWord) (s : State) : Host.Outcome State Fault Refusal :=
  .next (s.slot (.swcpyOut w) w.hd (s.viewRes (.swcpyOut w) w [] false))
def execSwcpyDec (w : EWord) (s : State) : Host.Outcome State Fault Refusal :=
  .next (s.slot (.swcpyDec w) w.hd (s.viewRes (.swcpyDec w) w [] true))
def execSwcpyMerge (w : EWord) (s : State) : Host.Outcome State Fault Refusal :=
  .next (s.slot (.swcpyMerge w) w.hd (s.viewRes (.swcpyMerge w) w [] false))

/-- The merge of scratchpad words into memory words, each one read-modify-write (R236, R237, R342). After a failure the words
that are left are not merged (R356). -/
def swMerger (e : Eng) (wide : Bool) : Mover :=
  let n := swWidth wide
  { acc := .write, reads := true, bytes := n, pad := n
    act := fun s c p pa =>
      let rs := ((elemsOf n (s.engPad e p.spad (n * p.n))).zip (elemsOf n (memRead s.mem pa (n * p.n)))).map
        (fun q => swMerge s.factors wide q.1 q.2 c.g.toNat)
      (s.engWrite pa ((rs.map (fun r => bytesOf n r.1)).flatten), { c with exc := c.exc.add (countExc (rs.map (·.2))) })
    old := fun s p pa => memRead s.mem pa (n * p.n)
    put := fun s _ _ _ => s }

/-- How the words of a mode move (R237). -/
def swMover (s : State) (e : Eng) (i : Instr) (wide : Bool) : Mover :=
  let n := swWidth wide
  match i with
  | .swcpyOut _ => moverOut e n n (fun _ _ l => (l, ExcCount.zero))
  | .swcpyDec _ => moverIn e n n (fun c _ l =>
      (((elemsOf n l).map (fun x => bytesOf n (swRewrite s.factors wide x c.g.toNat))).flatten, ExcCount.zero))
  | .swcpyMerge _ => swMerger e wide
  | _ => moverIn e n n (fun _ _ l => (l, ExcCount.zero))

/-- R237. A TAGGED page fails a merge with ERR 0x08 and the other modes with 0x4C (R276). -/
def State.runSwcpy (s : State) (e : Eng) (c : Cmd) (w : EWord) : State × Cmd :=
  if e.size < c.aOff + 128 then s.endCmd c 0x03 0
  else
    let c := s.readView e c
    let v := viewOf c.blob
    let n := swWidth (swcpyWide w)
    let inward := match c.instr with | .swcpyOut _ => false | .swcpyMerge _ => false | _ => true
    let c := { c with ranges := [c.reads 128, v.range n inward] }
    let m := swMover s e c.instr (swcpyWide w)
    if v.mty != 0 || v.sty != 0 || v.rnd != 0 || v.salt != 0 then s.endCmd c 0x4C 0
    else match v.fault n n e.size with
      | some x => s.endCmd c x 0
      | none =>
        let ps := v.parts n n
        if s.taggedBad e e.asid m.acc true n ps then
          s.failCmd e c (match c.instr with | .swcpyMerge _ => 0x08 | _ => 0x4C)
        else
          let (s, c) := s.overParts m e e.asid c (restParts c ps)
          s.succeed e c v.count

/-! ## SWEEP (R238, R340) -/

def execSweep (w : EWord) (s : State) : Host.Outcome State Fault Refusal :=
  .next (s.slot (.sweep w) w.hd (s.enRes (.sweep w) w [] [readRange (s.ictx.enAddr w) 32] []))

/-- Is a word stale at g: are at least 2^(W−1) steps past since its stamp? -/
def swStale (wide : Bool) (g x : Nat) : Bool :=
  2 ^ (swStampBits wide - 1) ≤ swElapsed wide (g % 2 ^ swStampBits wide) (swStamp wide x)

/-- The sweep of the pieces of a range: `moved` words are passed, `aux` of them were rewritten. -/
def State.sweepPages (s : State) (e : Eng) (wide : Bool) : Cmd → List (Nat × Nat) → State × Cmd
  | c, [] => s.endCmd c 0 c.aux
  | c, (a, n) :: r =>
    match s.translate e.tlb e.asid a .read with
    | (s, .error x) => s.cmdFault e c e.asid x a
    | (s, .ok (pa, tag)) =>
      match s.poisonIn pa n with
      | some q => s.poisonFault e c q
      | none =>
        let k := swWidth wide
        let xs := elemsOf k (memRead s.mem pa n)
        let stale := (xs.filter (swStale wide c.g.toNat)).length
        let next : Cmd := { c with moved := c.moved + n / k, aux := c.aux + stale }
        if stale = 0 then s.sweepPages e wide next r
        else if tag then s.endCmd c 0x08 c.moved
        else match s.translate e.tlb e.asid a .write with
          | (s, .error x) => s.cmdFault e c e.asid x a
          | (s, .ok _) =>
            let new := xs.map (fun x => if swStale wide c.g.toNat x then swRewrite s.factors wide x c.g.toNat else x)
            (s.pwrite pa ((new.map (bytesOf k)).flatten)).sweepPages e wide next r

/-- R238: one step for the whole sweep; its slots are timing (R340). -/
def State.runSweep (s : State) (e : Eng) (c : Cmd) : State × Cmd :=
  if e.size < c.aOff + 32 then s.endCmd c 0x03 0
  else
    let c := if c.blob = [] then { c with blob := s.engPad e c.aOff 32, g := s.gstep } else c
    let b := c.blob
    let wide := (natAt b 12 1).testBit 0
    let k := swWidth wide
    if natAt b 7 1 != 0 || 2 ≤ natAt b 12 1 || natAt b 13 19 != 0 || natAt b 8 4 == 0 then s.endCmd c 0x4C 0
    else if natAt b 0 7 % k ≠ 0 then s.endCmd c 0x04 0
    else
      let n := k * (natAt b 8 4 - c.moved)
      let ps := (pageParts (n / 4096 + 2) (natAt b 0 7 + k * c.moved) n).map (fun p => (p.1 % 2 ^ 56, p.2))
      s.sweepPages e wide c ps

end Sys2Proof.Machine
end

