-- ==== Sys2Proof/Machine/Finish.lean ====
section
/-! DEFINITION. A task's start (R24, R33, R290, R308, R373), its deadline (R297), and its completion (R284 to R287, R355). -/

namespace Sys2Proof.Machine

/-! ## Start -/

/-- EPOCH advances in every space whose phase queue starts a barrier task (R308). -/
def State.advanceEpochs (s : State) (q : Nat) : State :=
  { s with spaces := s.spaces.map (fun d =>
      if kvPhe d && kvPhaseq d == q then kvSet32 d 48 ((kvEpoch d + 1) % 2 ^ 32) else d) }

/-- A pending commit ends: its token completes in this cycle. -/
def State.endCommit (s : State) (n : Nat) (r : Rtab) (e : CmdRef) (err : BitVec 7) (gen : Nat) : State :=
  let s := { s with rtabs := storePut s.rtabs n (some { r with commit := none }) }
  match s.findCmd e with
  | some (h, c) => (s.putCmdAt h { c with state := .done, err := err, value := BitVec.ofNat 56 gen, doneAt := s.cycle }).now (event .engineComplete (.cmd e))
  | none => s

/-- A translation fault of the scheduler's own access is reported, with the TVAL of its cause (R347, R348). -/
def State.schedFault (s : State) (asid : BitVec 8) (x : Cause) (va : Nat) : State :=
  s.recordAt 0 31 x.code 0 0 (BitVec.ofNat 64 (s.faultTval (firmwareCluster 0) asid x va)) []

/-- The switch of one replica table whose commit is pending (R373): CUR, GEN and PEND, and the commit's token. A table that
cannot be written, or is poisoned, is reported and fails its commit (R347, R353, R356). -/
def State.switchTable (s : State) (n : Nat) (r : Rtab) : State :=
  match r.commit with
  | none => s
  | some e =>
    match s.pieces (firmwareCluster 0) 0 .write (pageParts 2 r.addr.toNat 8) with
    | (s, .error (x, va)) =>
      (s.schedFault 0 x va).endCommit n r e (faultErr x) 0
    | (s, .ok l) =>
      match s.poisonPieces l with
      | some pa => (s.recordAt 0 31 Cause.hbmUe.code 0 0 (BitVec.ofNat 64 pa) []).endCommit n r e 0x05 0
      | none =>
      let b := s.piecesRead l
      let gen := (natAt b 0 4 + 1) % 2 ^ 32
      (s.writePieces l (bytesOf 4 gen ++ [(b.getD 4 0 ^^^ 1) &&& ~~~2] ++ b.drop 5)).endCommit n r e 0 gen

/-- The tables that the next barrier start in a queue switches. -/
def State.dueTables (s : State) (q : Nat) : List (Nat × Rtab) :=
  s.rtabs.filter (fun p => p.2.enabled && p.2.queue.toNat == q && p.2.commit.isSome)

/-- A barrier task's start in a switch queue switches its pending tables (R373). -/
def State.switchTables (s : State) (q : Nat) : State := (s.dueTables q).foldl (fun s p => s.switchTable p.1 p.2) s

/-- The first absent page of a list of ranges to be written (R273). -/
def State.absentPage (s : State) (asid : BitVec 8) (l : List (Nat × Nat)) : Option Nat :=
  l.findSome? (fun p => match (s.pieces (firmwareCluster 0) asid .write (pageParts (p.2 / 4096 + 2) p.1 p.2)).2 with
    | .error (.pageNp, va) => some va
    | _ => none)

/-- Is the event parked on a page? -/
def State.eventParked (s : State) (e : Event) : Bool := s.parked.any (fun p => p.who.contains (.event e))

/-- May a placed task start: has every older task of its queue that is placed started (R255)? -/
def State.startsNext (s : State) (t : Task) : Bool :=
  !s.tasks.any (fun x => x.queue == t.queue && x.order < t.order && x.state == .placed && x.failure.isNone)

/-- The members of a task start in this cycle; a barrier start publishes first (R33, R308, R373). -/
def State.startTask (s : State) (t : Task) : State :=
  let s := if s.isBarrier t then (s.advanceEpochs t.queue).switchTables t.queue else s
  let s := t.cores.foldl (fun s c => s.updCore (computeCore c) (fun y => y.attach t.id s.cycle (launchTeam t))) s
  (s.updTask t.id (fun t => { t with state := .running, started := s.cycle, due := none })).kick

/-- TASK_START (R33): PART is checked, and the task starts behind the older placed ones of its queue (R255). A barrier start
waits for the page of a replica table that it switches (R273). -/
def execTaskStart (s : State) : Host.Outcome State Fault Refusal :=
  .next (match s.ev with
    | .task id => match s.taskOf id with
      | some t =>
        let e := event .taskStart (.task id)
        if t.state != .placed || t.failure.isSome || !s.startsNext t || s.eventParked e then s
        else if !partOk t.tcb.part then
          let s := match t.cores with
            | c :: _ => s.record (computeCore c) Cause.partBad.code 0 0 t.tcb.part []
            | [] => s
          s.failTask id { status := 2, cause := Cause.partBad.code, detail := t.tcb.part, member := 0 }
        else match (if s.isBarrier t then s.absentPage 0 ((s.dueTables t.queue).map (fun p => (p.2.addr.toNat, 8))) else none) with
          | some va => s.park 0 0 va .pageNp va (.event e) t.host
          | none => s.startTask t
      | none => s
    | _ => s)

/-! ## Deadlines (R297) -/

/-- Has CYCLE passed the deadline of a task that has not completed? -/
def State.deadlineDue (s : State) (t : Task) : Bool :=
  t.tcb.deadline != 0 && t.tcb.deadline.toNat < s.cycle && !t.doomed && t.failure.isNone && t.alive

/-- DEADLINE_EXPIRE: a running task is asked to freeze; one that has not started fails before its start. -/
def execDeadlineExpire (s : State) : Host.Outcome State Fault Refusal :=
  .next (match s.ev with
    | .task id => match s.taskOf id with
      | some t =>
        if !s.deadlineDue t then s
        else
          let s := s.updTask id (fun t => { t with doomed := true })
          match t.state with
          | .queued => s.deadlineFail t false
          | .placed => s.deadlineFail t false
          | .running => s.ask t .freeze
          | .saving _ => s
          | _ => { s with resumes := s.resumes.filter (fun i => i != id) }.deadlineFail t true
      | none => s
    | _ => s)

/-! ## Capture and replay at a completion (R387) -/

/-- The checksum of the listed ranges. -/
def State.captureSum (s : State) : State × Word :=
  let (s, bs) := s.capture.ranges.foldl (fun (p : State × List Byte) r =>
    match p.1.vread (firmwareCluster 0) r.2.1 r.1 r.2.2 with
    | (s, .ok l) => (s, p.2 ++ l)
    | (s, .error _) => (s, p.2)) (s, [])
  (s, BitVec.ofNat 64 (natOf (shake256 bs 8)))

/-- A capture records the checksum; a replay compares it with the one recorded with the TCB's address, and a mismatch pauses
it. -/
def State.captureDone (s : State) (a : BitVec 56) : State :=
  if s.capture.on then
    let (s, x) := s.captureSum
    if s.capture.replay then
      match (List.range s.capture.sums.length).find? (fun i => !s.capture.used.contains i && (s.capture.sums[i]?.map (·.1)) == some a) with
      | none => s
      | some i =>
        let y := (s.capture.sums.getD i (0, 0)).2
        let s := { s with capture := { s.capture with used := i :: s.capture.used } }
        if x = y then s
        else { s.recordAt 0 31 0x62 0 0 y [x] with capture := { s.capture with paused := true } }
    else { s with capture := { s.capture with sums := s.capture.sums ++ [(a, x)] } }
  else s

/-! ## Completion (R285) -/

/-- Decrement DEP of a TCB, one indivisible step: the new state, and whether DEP was 0 already (R284, R287). A word that cannot be
written, or is poisoned, is reported, and the scheduler's own count of a task that it knows goes on (R347, R353, R356). -/
def State.decrementDep (s : State) (asid : BitVec 8) (a : BitVec 56) : State × Bool :=
  let t := s.taskAtTcb asid a
  let mirror (s : State) (n : Nat) : State := match t with | some t => s.updTask t.id (fun t => { t with dep := n }) | none => s
  let alone (s : State) : State × Bool :=
    match t with
    | some t => if t.dep = 0 then (s, true) else (mirror s (t.dep - 1), false)
    | none => (s, false)
  match s.pieces (firmwareCluster 0) asid .write (pageParts 2 (a.toNat + 32) 4) with
  | (s, .ok l) =>
    match s.poisonPieces l with
    | some pa => alone (s.recordAt 0 31 Cause.hbmUe.code 0 0 (BitVec.ofNat 64 pa) [])
    | none =>
      let d := natOf (s.piecesRead l)
      if d = 0 then (s, true) else (mirror (s.writePieces l (bytesOf 4 (d - 1))) (d - 1), false)
  | (s, .error (x, va)) => alone (s.schedFault asid x va)

/-- Decrement every successor in list order; the addresses that were at 0. -/
def State.decrementAll (s : State) (asid : BitVec 8) : List (BitVec 56) → State × List (BitVec 56)
  | [] => (s, [])
  | a :: r =>
    let (s, zero) := s.decrementDep asid a
    let (s, l) := s.decrementAll asid r
    (s, if zero then a :: l else l)

/-- A failed task marks its successors (R287). -/
def State.markSuccessor (s : State) (asid : BitVec 8) (pred a : BitVec 56) : State :=
  match s.taskAtTcb asid a with
  | some t => if t.state == .queued then s.updTask t.id (fun t => { t with mark := some pred }) else s
  | none => { s with marks := s.marks.filter (fun m => !(m.1 == asid && m.2.1 == a)) ++ [(asid, a, pred)] }

/-- A queued successor whose DEP was already 0 fails with DEP_UNDER (R287). -/
def State.failUnder (s : State) (asid : BitVec 8) (pred a : BitVec 56) : State :=
  match s.taskAtTcb asid a with
  | some t => if t.state == .queued then s.failEarly t.id .depUnder (pred.zeroExtend 64) else s
  | none => s

/-- STATUS, CAUSE, ERR and MEMBER of a task's record (R87, R286). -/
def Task.status (t : Task) : Byte := match t.failure with | some f => f.status | none => if t.late then 1 else 0
def Task.cause (t : Task) : Byte := match t.failure with | some f => f.cause.zeroExtend 8 | none => 0
def Task.member (t : Task) : Byte := BitVec.ofNat 8 (match t.failure with | some f => f.member | none => t.errMember)
def Task.detail (t : Task) : Word := match t.failure with | some f => f.detail | none => 0

/-- The completion record (R286). -/
def Task.record (t : Task) (cycle under : Nat) : List Byte :=
  bytesOf 8 t.tcba.toNat ++ bytesOf 8 cycle ++ [t.status, t.cause, t.err.zeroExtend 8, t.member]
    ++ bytesOf 2 t.pins.length ++ bytesOf 2 under ++ bytesOf 8 t.detail.toNat
    ++ ((t.pins.take t.tcb.crmax.toNat).map (fun p => bytesOf 8 (p.1 + p.2.toNat * 2 ^ 16))).flatten

/-- Is the work of a team over: bank actions and MX work performed, tiles idle, and every status word written (R87, R355)? -/
def Team.workOver (t : Team) : Bool := t.tilesIdle && t.cmds == [] && t.pend.all (fun p => p.act.isResult)

/-- Has a task completed: has every member retired with its work over, or has the work of a failed one ended? -/
def State.taskOver (s : State) (t : Task) : Bool :=
  let on := t.cores.filter (fun c => (s.coreAt (computeCore c)).task == some t.id)
  match t.failure with
  | some _ => t.state == .ending && on.all (fun c => (s.coreAt (computeCore c)).team.workOver) && t.frames.all (fun f => f.cmds == [])
  | none => t.state == .running && !t.doomed && on.all (fun c => let x := (s.coreAt (computeCore c)).team
                                                    x.allRetired && x.tileBusy == 0 && x.cmds == [])

/-- The cores of a task that has completed are free, and no fetch of it stays parked. -/
def State.freeCores (s : State) (t : Task) : State :=
  let on := t.cores.filter (fun c => (s.coreAt (computeCore c)).task == some t.id)
  let s := on.foldl (fun s c => s.updCore (computeCore c) Core.detach) s
  { s with parked := s.parked.map (fun p => { p with who := p.who.filter (fun w => match w with
      | .fetch e => !on.any (fun c => computeCore c == e.core)
      | .frame i _ _ => i != t.id
      | .command _ => true
      | .event _ => true
      | .kvFree _ _ _ _ _ => true) }) }

/-- The completion record is written; one that cannot be is reported (R347, R356). -/
def State.writeRecord (s : State) (t : Task) (under : Nat) : State :=
  match s.vwrite (firmwareCluster 0) t.subAsid t.tcb.crec.toNat (t.record s.cycle under) with
  | (s, .ok _) => s
  | (s, .error (x, va)) => s.schedFault t.subAsid x va

/-- What the completion of a task writes: its record and its successors' DEP words (R284, R286), but for what touches a page that the
host has declared unmappable: the completion does not wait for it, and it is reported (R273, R356). -/
def Task.endWrites (t : Task) : List (Nat × Nat) :=
  let l : List (Nat × Nat) :=
    (if t.tcb.crec = 0 then [] else [(t.tcb.crec.toNat, (t.record 0 0).length)]) ++ t.tcb.succs.map (fun a => (a.toNat + 32, 4))
  l.filter (fun w => !t.unmapped.any (fun page => w.1 < page + 4096 && page < w.1 + w.2))

/-- The steps of R285: pins, record, successors, notice, and the barriers that this completion releases. -/
def State.completeTask (s : State) (t : Task) : State :=
  let s := t.pins.foldl (fun s p => s.unpinTensor p.1 p.2 0) s
  let (s, under) := s.decrementAll t.subAsid t.tcb.succs
  let s := if t.tcb.crec = 0 then s else s.writeRecord t under.length
  let s := if t.status = 0 then s else t.tcb.succs.foldl (fun s a => s.markSuccessor t.subAsid t.tcba a) s
  let s := match t.host with
    | some h => s.send (.message h 1 (t.tcba.zeroExtend 64) (BitVec.ofNat 64 (natOf [t.status, t.cause, t.err.zeroExtend 8, t.member])) (t.tcb.crec.zeroExtend 64))
    | none => s
  let s := ((s.freeCores t).unreserve t.id).withdraw t.id
  let keep := t.frames != [] && t.cause.toNat == Cause.deadline.code.toNat
  let s := { s with
    resumes := s.resumes.filter (fun i => i != t.id)
    tasks := if keep then s.tasks.map (fun (x : Task) => if x.id == t.id then { x with state := .kept } else x) else s.tasks.filter (fun (x : Task) => x.id != t.id) }
  let s := under.foldl (fun s a => s.failUnder t.subAsid t.tcba a) s
  (s.captureDone t.tcba).kick

/-- TASK_COMPLETE: once every page that it writes is there (R273). -/
def execTaskComplete (s : State) : Host.Outcome State Fault Refusal :=
  .next (match s.ev with
    | .task id => match s.taskOf id with
      | some t =>
        let e := event .taskComplete (.task id)
        if !s.taskOver t || s.eventParked e then s
        else match s.absentPage t.subAsid t.endWrites with
          | some va => s.park 0 t.subAsid va .pageNp va (.event e) t.host
          | none => s.completeTask t
      | none => s
    | _ => s)

end Sys2Proof.Machine
end

