-- ==== Sys2Proof/Machine/HostCmd.lean ====
section
/-! DEFINITION. The host's commands 0x0001 to 0x0021 (R361 to R366), with what each configures (R269, R273, R274, R278,
R282, R283, R304, R317, R335, R339, R360, R368, R373, R393). -/

namespace Sys2Proof.Machine

/-! ## Packets and answers (R361, R362) -/

/-- STATUS, VAL and the data that follow a response header. -/
structure Answer where
  status : Byte
  value : Word
  data : List Byte
  deriving DecidableEq, Repr

def Answer.done (n : Nat) : Answer := { status := 0, value := BitVec.ofNat 64 n, data := [] }
def Answer.fail (st : Byte) : Answer := { status := st, value := 0, data := [] }
/-- A field or the payload is invalid. -/
def Answer.bad : Answer := Answer.fail 0x11
def Answer.busy : Answer := Answer.fail 0x12

/-- A command is answered, or it waits for what it needs. -/
inductive HostEnd
  | answer (a : Answer)
  | hold
  deriving DecidableEq, Repr

/-- An answer of a device to a request that this master has forwarded (R383). -/
def State.noteAnswer (s : State) (device : Nat) (stream : BitVec 3) (seq : BitVec 32) (op : BitVec 16) (a : Answer) : State :=
  { s with forwards := s.forwards.map (fun f =>
      if f.stream == stream && f.seq == seq && f.op == op && f.waiting.contains device then
        { f with waiting := f.waiting.erase device, answers := f.answers ++ [(device, a.status, a.value, a.data)] }
      else f) }

/-- The endpoint by which a debug master names itself: no fabric endpoint. -/
def selfEndpoint : Nat := 2 ^ 24

/-- The response of the command at hand, on its stream or to the debug master that sent it (R362, R383). -/
def State.respond (s : State) (op : Nat) (a : Answer) : State :=
  let p := s.pkt
  match s.ev with
  | .master ep _ =>
    if ep = selfEndpoint then s.noteAnswer s.device.toNat p.stream p.seq (BitVec.ofNat 16 op) a
    else s.send (.fabric ep none (.debugAnswer p.stream p.seq (BitVec.ofNat 16 op) a.status a.value a.data))
  | _ => s.send (.response p.stream (BitVec.ofNat 16 (op + 2 ^ 15)) a.status p.seq a.value a.data)

/-- The stream that orders an event, none for a debug master's request. -/
def streamOf (e : Event) : Option (BitVec 3) :=
  match e.arg with
  | .master _ _ => none
  | _ => e.pkt.map (·.stream)

/-- The operand of a command that comes again after a wait. -/
def againArg : EvArg → EvArg
  | .master ep _ => .master ep true
  | _ => .again

/-- Has the command waited before? -/
def isAgain : EvArg → Bool
  | .again => true
  | .master _ b => b
  | _ => false

/-- Is a reserved header bit set, or LEN not the payload's length (R361)? -/
def packetBad (p : Packet) : Bool :=
  p.resvA != 0 || p.resvB != 0 || p.resvC != 0 || p.payload.length != p.len.toNat || 4064 < p.len.toNat

/-- Does an argument hold only the bits that its row names (R363)? -/
def onlyBits (x : Word) (mask : Nat) : Bool := x &&& ~~~(BitVec.ofNat 64 mask) == 0

/-- Is the command a debug request (R383)? -/
def isDebug : Instr → Bool
  | .dhalt | .dresume | .dread | .dbrk | .dprof | .dmaster | .statring | .capture | .framerel => true
  | _ => false

/-- A captured stream keeps every later command as it arrives, with its cycle, one of an unknown OP too (R387). -/
def State.captureCmd (s : State) (op : Nat) (p : Packet) : State :=
  if s.capture.on && !s.capture.replay then
    { s with capture := { s.capture with packets := s.capture.packets ++ [{ at_ := s.cycle, op := BitVec.ofNat 16 op, pkt := p }] } }
  else s

/-- Does a replay under way stand in place of the streams (R387)? -/
def State.replaying (s : State) : Bool :=
  s.capture.on && s.capture.replay && !s.capture.paused && s.capture.next < s.capture.packets.length

/-- Must a command that arrives wait: behind one of its stream that waits (R361), or for the end of a replay (R387)? -/
def State.mustWait (s : State) (p : Packet) (i : Instr) : Bool :=
  s.heldCmds.any (fun h => streamOf h == some p.stream) || (s.replaying && !isDebug i)

/-- One command of a stream: a stream that is not open delivers none, a command behind one that waits waits too, and every
command has one response (R361, R362, R391). -/
def State.hostCmd (s : State) (i : Instr) (op : Nat) (run : State → Packet → State × HostEnd) : State :=
  let p := s.pkt
  let e : Event := { instr := i, arg := .held, pkt := some p }
  let arrives := s.ev == .none
  if arrives && (s.streams.get ⟨p.stream.toNat, p.stream.isLt⟩).isNone then s
  else
    let s := if arrives then s.captureCmd op p else s
    if arrives && s.mustWait p i then { s with heldCmds := s.heldCmds ++ [e] }
    else if packetBad p then s.respond op Answer.bad
    else match run s p with
      | (s, .answer a) => s.respond op a
      | (s, .hold) => { s with heldCmds := { e with arg := againArg s.ev } :: s.heldCmds }

/-- The commands that wait come again, before all else that this cycle holds: the first of each stream, and every request of a
master (R361). While a replay runs, a command of a stream that has not begun waits on. -/
def State.retryHeld (s : State) : State :=
  let first (pre : List Event) (e : Event) : Bool :=
    match streamOf e with
    | none => true
    | some k => !pre.any (fun x => streamOf x == some k) && (isAgain e.arg || isDebug e.instr || !s.replaying)
  let rec split : List Event → List Event → List Event × List Event
    | _, [] => ([], [])
    | pre, e :: r =>
      let (go, stay) := split (pre ++ [e]) r
      if first pre e then (e :: go, stay) else (go, e :: stay)
  let (go, stay) := split [] s.heldCmds
  { s with heldCmds := stay, agenda := go ++ s.agenda }

/-- A command that answers in the step that takes it. -/
def answering (f : State → Packet → State × Answer) (s : State) (p : Packet) : State × HostEnd :=
  let (s, a) := f s p
  (s, .answer a)

/-- A command whose arguments hold only the bits of the masks and whose payload has one of the lengths allowed. -/
def withArgs (m0 m1 : Nat) (len : Nat → Bool) (f : State → Packet → State × Answer) (s : State) (p : Packet) : State × Answer :=
  if onlyBits p.arg0 m0 && onlyBits p.arg1 m1 && len p.payload.length then f s p else (s, Answer.bad)

def noPayload (n : Nat) : Bool := n == 0

def addrBits : Nat := 2 ^ 56 - 1

/-! ## SUBMIT (R89, R280, R354, R363) -/

/-- VAL is the queue number; a translation that would park is STATUS 0x13 (R362). -/
def State.hostSubmit (s : State) (p : Packet) : State × Answer :=
  match s.submitTcb (firmwareCluster 0) (p.arg1.extractLsb' 0 8) p.arg0.toNat none (some p.stream) with
  | (s, .queued q) => (s, Answer.done q)
  | (s, .refused x) => (s, Answer.fail (x.zeroExtend 8))
  | (s, .fault _ _) => (s, Answer.fail 0x13)

/-- Submissions wait while a control core's firmware is being reloaded (R354). -/
def execSubmit (s : State) : Host.Outcome State Fault Refusal :=
  .next (s.hostCmd .submit 0x0001 (fun s p =>
    if s.groups.toList.any (·.down) then (s, .hold)
    else answering (withArgs addrBits 0xFF noPayload State.hostSubmit) s p))

/-! ## Device memory (R362, R363) -/

/-- The physical address of one byte of a host command, none where it does not translate. -/
def State.hostAddr (s : State) (phys : Bool) (asid : BitVec 8) (a n : Nat) (acc : Access) : State × Option Nat :=
  if phys then (s, if paOk a && paOk (a + n - 1) then some a else none)
  else match s.translate (firmwareCluster 0) asid (a % 2 ^ 56) acc with
    | (s, .ok (pa, _)) => (s, some pa)
    | (s, .error _) => (s, none)

/-- Write page by page: VAL counts the bytes moved. -/
def State.hostWrite (s : State) (phys : Bool) (asid : BitVec 8) : List (Nat × Nat) → List Byte → Nat → State × Answer
  | [], _, m => (s, Answer.done m)
  | (a, n) :: r, bs, m =>
    match s.hostAddr phys asid a n .write with
    | (s, none) => (s, { status := 0x13, value := BitVec.ofNat 64 m, data := [] })
    | (s, some pa) => (s.pwrite pa (bs.take n)).hostWrite phys asid r (bs.drop n) (m + n)

/-- Read page by page: the data read stands after the header, and poisoned data ends it with STATUS 0x14. -/
def State.hostRead (s : State) (phys : Bool) (asid : BitVec 8) : List (Nat × Nat) → List Byte → State × Answer
  | [], l => (s, { status := 0, value := BitVec.ofNat 64 l.length, data := l })
  | (a, n) :: r, l =>
    match s.hostAddr phys asid a n .read with
    | (s, none) => (s, { status := 0x13, value := BitVec.ofNat 64 l.length, data := l })
    | (s, some pa) =>
      match s.poisonIn pa n with
      | some q =>
        let l := l ++ memRead s.mem pa (q - pa)
        (s, { status := 0x14, value := BitVec.ofNat 64 l.length, data := l })
      | none => s.hostRead phys asid r (l ++ memRead s.mem pa n)

/-- The address of a memory command: 56 bits, or 52 physical ones. -/
def hostRange (p : Packet) (n : Nat) : List (Nat × Nat) := pageParts (n / 4096 + 2) p.arg0.toNat n

def physOk (p : Packet) : Bool := !p.arg1.getLsbD 8 || p.arg0.toNat < 2 ^ 52

def execMemwr (s : State) : Host.Outcome State Fault Refusal :=
  .next (s.hostCmd .memwr 0x0002 (answering (withArgs addrBits 0x1FF (fun _ => true) (fun s p =>
    if !physOk p then (s, Answer.bad)
    else s.hostWrite (p.arg1.getLsbD 8) (p.arg1.extractLsb' 0 8) (hostRange p p.payload.length) p.payload 0))))

def execMemrd (s : State) : Host.Outcome State Fault Refusal :=
  .next (s.hostCmd .memrd 0x0003 (answering (withArgs addrBits (0xFFF * 2 ^ 32 + 0x1FF) noPayload (fun s p =>
    let n := (p.arg1.extractLsb' 32 12).toNat
    if n = 0 || 4064 < n || !physOk p then (s, Answer.bad)
    else s.hostRead (p.arg1.getLsbD 8) (p.arg1.extractLsb' 0 8) (hostRange p n) []))))

/-! ## Translation (R269, R273, R274) -/

/-- The root of a space for all eight walkers; every table is 4 KiB-aligned (R269). -/
def execRoot (s : State) : Host.Outcome State Fault Refusal :=
  .next (s.hostCmd .root 0x0004 (answering (withArgs (2 ^ 52 - 4096) 0xFF noPayload (fun s p =>
    ({ s with roots := storePut s.roots (p.arg1.toNat % 256) (if p.arg0 = 0 then none else some (p.arg0.extractLsb' 0 52)) }, Answer.done 0)))))

/-- Does a TLB entry map into a range of an address space? -/
def TlbEntry.meets (e : TlbEntry) (asid : BitVec 8) (a n : Nat) : Bool := e.asid == asid && e.base < a + n && a < e.base + e.size

/-- Does a walk cache entry lead into a range of an address space? -/
def WalkEntry.meets (e : WalkEntry) (asid : BitVec 8) (a n : Nat) : Bool :=
  let size := 2 ^ (12 + 9 * e.level)
  e.asid == asid && e.top * size < a + n && a < (e.top + 1) * size

/-- R274: no access is under way between two steps, so the entries go and the command is complete. -/
def execInval (s : State) : Host.Outcome State Fault Refusal :=
  .next (s.hostCmd .inval 0x0005 (answering (withArgs (2 ^ 56 - 4096) (2 ^ 64 - 2 ^ 16 + 0xFF) noPayload (fun s p =>
    let n := (p.arg1.extractLsb' 16 48).toNat * 4096
    let asid := p.arg1.extractLsb' 0 8
    ({ s with tlbs := s.tlbs.map (fun l => l.filter (fun e => !e.meets asid p.arg0.toNat n))
              walkers := s.walkers.map (fun l => l.filter (fun e => !e.meets asid p.arg0.toNat n)) }, Answer.done 0)))))

/-- An `ATTN` ends as given, and with it the sequencer's run that is its own (R318, R324). -/
def State.endAttn (s : State) (h : CmdHome) (e : Eng) (c : Cmd) (err : BitVec 7) : State :=
  let q := (s.homeTeam h).seq
  let mine := q.running && q.cmd == c.id
  let (s, c) := s.endCmd c err (if mine then q.processed else 0)
  if !mine then s.putCmdAt h c
  else match h with
    | .core x => s.seqOver x c
    | .frame _ _ => (s.updHome h (fun t => { t with seq := { t.seq with running := false, parked := false, page := 0 } })).putCmdAt h c
        |>.kvUnhold e c.baddr q.space q.page

/-- A parked command whose page cannot be mapped ends with ERR 0x01, a submission with ERR 0x02 (R89, R197, R273). What it has not moved
stays as it was (R196; DEDUCED, log 202). -/
def State.unmapCmd (s : State) (h : CmdHome) (e : Eng) (c : Cmd) : State :=
  match c.instr with
  | .launch _ | .enq _ => let (s, c) := s.endCmd c 0x02 0; s.putCmdAt h c
  | .attn _ => s.endAttn h e c 0x01
  | i =>
    if isColl i then
      let s := if c.blob = [] || (c.aux = 2) then s else s.failColl c (cmdColl c).group
      let (s, c) := s.endColl e c 0x01
      s.putCmdAt h c
    else let (s, c) := s.failCmd e c 0x01; s.putCmdAt h c

/-- A parked command goes on: it walks again from the root, at the element where it stopped (R197, R273). -/
def State.goOn (s : State) (h : CmdHome) (r : CmdRef) (c : Cmd) : State :=
  if isColl c.instr && 2 ≤ c.aux then
    let s := s.putCmdAt h { c with state := .waiting }
    match (if c.aux = 3 then cmdBucket c else none) with
    | some n => match storeFind s.buckets n.toNat with | some b => s.fireBucket b | none => s
    | none => s
  else
    let s := s.putCmdAt h { c with state := .queued, readyAt := s.cycle }
    if c.q = 8 then s.now (event .engineStart (.cmd r)) else s

/-- An event that waited for a page: again, or ended: a peer's request is answered with ERR 0x01, far data is lost, the commit of
a replica table there fails with ERR 0x01, and a completion goes on: what it cannot write there is reported (R356). -/
def State.serveEvent (s : State) (unmap : Bool) (page : Nat) (e : Event) : State :=
  if !unmap then s.now e
  else match e.arg with
    | .fabric m => match m.by_ with
      | some r => s.send (.fabric m.src none (.answer r 0x01 0 []))
      | none => s
    | .promotion p => match s.promOf p.space p.header p.block with
      | some p => s.promLost p true
      | none => s
    | .lost (.promotion space header block) => match s.promOf space header block with
      | some p => s.promLost p true
      | none => s
    | .task id => match s.taskOf id with
      | some t =>
        if e.instr = .taskStart then ((s.dueTables t.queue).filter (fun p => page < p.2.addr.toNat + 8 && p.2.addr.toNat < page + 4096)).foldl (fun s p =>
          match p.2.commit with | some c => s.endCommit p.1 p.2 c 0x01 0 | none => s) s
        else (s.updTask id (fun t => { t with unmapped := page :: t.unmapped })).now e
      | none => s
    | _ => s

/-- The line of a bundle and the one after it; past code address 2^56 comes line 0 (R242; DESIGN CHOICE, log 206). -/
def bundleLines (pc : BitVec 56) : List Nat := [pc.toNat / 64, (pc.toNat / 64 + 1) % 2 ^ 50]

/-- One parked request of a page: resumed, or ended because the page is unmappable (R273). A fetch takes both lines of its bundle
again (R41, R242). -/
def State.servePark (s : State) (unmap : Bool) (p : ParkedPage) (w : Parkee) : State :=
  let failFetch (s : State) (t : Task) (member : Nat) (rec_ : State) (line : Nat) : State :=
    if s.cycle ≠ rec_.cycle then s
    else rec_.failTask t.id { status := 1, cause := Cause.fetchPage.code, detail := BitVec.ofNat 64 line, member := member }
  match w with
  | .command r =>
    match s.findCmd r with
    | none => s
    | some (h, c) => match c.state with
      | .parked _ a v => if a == p.asid && v == p.page then (if unmap then s.unmapCmd h (s.eng r h) c else s.goOn h r c) else s
      | _ => s
  | .event e => s.serveEvent unmap p.page e
  | .kvFree space header core baddr host =>
    if unmap then s.kvReport (s.clusterOf core) core baddr p.asid (.fault .pageNp p.page)
    else s.kvUnhold { home := .core core, core := core, tlb := s.clusterOf core, asid := p.asid, size := 0, host := host } baddr space header
  | .fetch x =>
    let y := s.ctxAt x.core x.ctx
    if !unmap then s.updCore x.core (fun z => { z with ibuf := z.ibuf.filter (fun l => !(bundleLines y.pc).contains l.1) })
    else
      let line := y.lineAt
      let rec_ := s.record x.core Cause.fetchPage.code 0 (s.ctxAt x.core x.ctx).pc (BitVec.ofNat 64 line) []
      match s.taskAt x.core with
      | some t => failFetch s t (memberOf t x.core) rec_ line
      | none => rec_.updCore x.core (fun y => { y with stopped := true })
  | .frame id m k =>
    if !unmap then s
    else match s.taskOf id with
      | none => s
      | some t =>
        let pc := ((t.frames.getD m Team.reset).ctxs.get k).pc
        let line := ((t.frames.getD m Team.reset).ctxs.get k).lineAt
        failFetch s t m (s.recordAt 0 31 Cause.fetchPage.code 0 pc (BitVec.ofNat 64 line) []) line

/-- R273: the requests walk again from the root, so the walk caches give up what leads to the page. -/
def execResume (s : State) : Host.Outcome State Fault Refusal :=
  .next (s.hostCmd .resume 0x0006 (answering (withArgs (2 ^ 56 - 4096) 0x1FF noPayload (fun s p =>
    let mine (x : ParkedPage) : Bool := x.asid == p.arg1.extractLsb' 0 8 && x.page == p.arg0.toNat
    let l := s.parked.filter mine
    let s := { s with parked := s.parked.filter (fun x => !mine x)
                      walkers := s.walkers.map (fun l => l.filter (fun e => !e.meets (p.arg1.extractLsb' 0 8) p.arg0.toNat 4096)) }
    let s := l.foldl (fun s x => x.who.foldl (fun s w => s.servePark (p.arg1.getLsbD 8) x w) s) s
    (s, Answer.done 0)))))

/-! ## HUNBIND (R278) -/

/-- Has a `CPYH` read the entry at an address while it was bound, and not completed? -/
def State.usesHandle (s : State) (asid : BitVec 8) (a : Nat) : Bool :=
  s.allCmds.any (fun x => (match x.2.instr with | .cpyh _ => true | _ => false) && x.2.aux != 0 && x.2.aux % 2 ^ 56 == a
    && ((s.homeTask x.1).map (fun t => t.tcb.asid)).getD 0 == asid)

/-- BOUND is cleared at once; the answer comes when every `CPYH` that read the entry has completed. -/
def State.hostUnbind (s : State) (p : Packet) : State × HostEnd :=
  let asid := p.arg1.extractLsb' 0 8
  let wait (s : State) : State × HostEnd := if s.usesHandle asid p.arg0.toNat then (s, .hold) else (s, .answer (Answer.done 0))
  if !(onlyBits p.arg0 addrBits && onlyBits p.arg1 0xFF && p.payload == []) then (s, .answer Answer.bad)
  else if isAgain s.ev then wait s
  else match s.hostAddr false asid (p.arg0.toNat + 20) 1 .write with
    | (s, none) => (s, .answer (Answer.fail 0x13))
    | (s, some pa) => wait (s.pwrite pa [memGet s.mem pa &&& ~~~1])

def execHunbind (s : State) : Host.Outcome State Fault Refusal := .next (s.hostCmd .hunbind 0x0007 State.hostUnbind)

/-! ## Queues and the scheduler (R282, R283, R364) -/

/-- Is a field of an attribute word invalid (R282, R364)? -/
def queueBad (w : Word) : Bool :=
  w.extractLsb' 56 8 != 0 || w.extractLsb' 26 6 != 0 || w.extractLsb' 10 6 != 0 || queueBard w == 3 || queueWeight w == 0
    || 23 < queueQpri w || 23 < queueQcap w || queueQcap w < queueQpri w

/-- The reservations of a queue's tasks in groups that PLACE does not allow end (R290, R303). -/
def State.dropReserves (s : State) (q : Nat) : State :=
  (s.tasks.filter (fun t => t.queue == q && (match s.reservedFor t with | some r => !(s.groupsFor t).contains r.1 | none => false))).foldl
    (fun s t => s.unreserve t.id) s

def execQcfg (s : State) : Host.Outcome State Fault Refusal :=
  .next (s.hostCmd .qcfg 0x0010 (answering (withArgs 0x7F (2 ^ 64 - 1) noPayload (fun s p =>
    let q := p.arg0.toNat
    let cap := queueCap p.arg1
    if queueBad p.arg1 then (s, Answer.bad)
    else if (cap = 0 && ((s.entries q).length != 0 || (s.resumeList q).length != 0)) || (cap != 0 && cap < (s.entries q).length) then (s, Answer.busy)
    else (({ s with queues := setAt s.queues q (fun _ => p.arg1) }.dropReserves q).kick, Answer.done 0)))))

def execScfg (s : State) : Host.Outcome State Fault Refusal :=
  .next (s.hostCmd .scfg 0x0011 (answering (withArgs 0xFFFF 0 noPayload (fun s p =>
    if p.arg0 = 0 then (s, Answer.bad) else ({ s with ageLimit := p.arg0.toNat }, Answer.done 0)))))

/-! ## KV spaces and the sequencer store (R304, R317) -/

/-- Is a field of a descriptor invalid (R304)? -/
def kvBadDesc (b : List Byte) : Bool :=
  let r := natAt b 38 2
  natAt b 7 1 != 0 || natAt b 15 1 != 0 || natAt b 23 1 != 0 || natAt b 31 1 != 0 || natAt b 63 1 != 0 || 2 ^ 21 ≤ natAt b 32 4
    || 2 ^ 13 ≤ r || 16 ≤ natAt b 40 1 || 32 ≤ natAt b 41 1 || natAt b 47 1 != 0
    || ((natAt b 40 1).testBit 3 && (natAt b 32 4 == 0 || 2 ^ 20 < natAt b 32 4 || r % 32 != 0 || r < 32 || 4096 < r
      || 4 < natAt b 40 1 % 8 || 24 < natAt b 41 1 || natAt b 56 7 % 64 != 0))

/-- Does a KV command or `ATTN` name the space? -/
def State.kvNamed (s : State) (space : BitVec 4) : Bool :=
  s.allCmds.any (fun x => match kvWord x.2.instr with | some w => kvSpace w == space | none => false)

/-- EPOCH and LATE are the device's own (R304, R308). -/
def execKvcfg (s : State) : Host.Outcome State Fault Refusal :=
  .next (s.hostCmd .kvcfg 0x0012 (answering (withArgs 0xF 0 (fun n => n == 64) (fun s p =>
    let space := p.arg0.extractLsb' 0 4
    if kvBadDesc p.payload then (s, Answer.bad)
    else if s.kvNamed space then (s, Answer.busy)
    else
      let old := (s.kvDesc space).extractLsb' 384 64
      let new := BitVec.ofNat 512 (natOf (p.payload.take 48) + old.toNat * 2 ^ 384 + natOf (p.payload.drop 56) * 2 ^ 448)
      (s.setKvDesc space new, Answer.done 0)))))

/-- A load waits until no `ATTN` runs on any core. -/
def execSeqload (s : State) : Host.Outcome State Fault Refusal :=
  .next (s.hostCmd .seqload 0x0013 (fun s p =>
    let n := p.payload.length / 12
    if !(onlyBits p.arg0 0x3FF && p.arg1 == 0) || p.payload.length % 12 != 0 || n == 0 || 1024 < p.arg0.toNat + n then (s, .answer Answer.bad)
    else if allCores.any (fun c => (s.coreAt c).team.seq.running) then (s, .hold)
    else ({ s with seqStore := (List.range n).foldl (fun m i =>
      storePutD 0 m (p.arg0.toNat + i) (BitVec.ofNat 96 (natAt p.payload (12 * i) 12))) s.seqStore }, .answer (Answer.done 0))))

/-! ## Step groups, factors, collective groups, replica tables and the domain -/

/-- Member indexes, 2 bytes each. -/
def memberList (b : List Byte) : List Nat := elemsOf 2 b

/-- Is the list invalid on this device: without it, with a repeat, or empty (R335, R368)? -/
def State.badMembers (s : State) (l : List Nat) : Bool := !l.contains s.device.toNat || l.dedup.length != l.length || l.any (16384 ≤ ·)

/-- Is a `STEP.C` of this device on the group outstanding? -/
def State.voteOut (s : State) (h : BitVec 32) : Bool :=
  s.allCmds.any (fun x => (match x.2.instr with | .stepC _ => true | _ => false) && x.2.b.toNat == h.toNat)

/-- R335, R339, R371: the group, its starting GSTEP, the votes held for it, and the staged table. -/
def execStepgrp (s : State) : Host.Outcome State Fault Refusal :=
  .next (s.hostCmd .stepgrp 0x0014 (answering (withArgs (2 ^ 32 - 1) (2 ^ 32 - 1) (fun n => n % 2 == 0) (fun s p =>
    let h := p.arg0.extractLsb' 0 32
    let l := memberList p.payload
    if h = 0 || s.badMembers l then (s, Answer.bad)
    else if (match s.stepGroup with | some g => g.handle != h || s.voteOut h | none => false) then (s, Answer.busy)
    else
      let g : StepGroup := { handle := h, members := l, steps := 0, broken := false
                             votes := (s.heldVotes.filter (fun v => v.1 == h)).map (fun v => v.2) }
      ({ s with stepGroup := some g, gstep := p.arg1.extractLsb' 0 32, factors := s.staged
                heldVotes := s.heldVotes.filter (fun v => v.1 != h) }.voteCheck, Answer.done 0)))))

/-- The staged table; in no step group it is current at once (R339). -/
def execFtab (s : State) : Host.Outcome State Fault Refusal :=
  .next (s.hostCmd .ftab 0x0015 (answering (withArgs 0 0 (fun n => n == 64) (fun s p =>
    let t := Vector.ofFn (fun i : Fin 16 => BitVec.ofNat 32 (natAt p.payload (4 * i.val) 4))
    ({ s with staged := t, factors := if s.stepGroup.isNone then t else s.factors }, Answer.done 0)))))

/-- Is a collective on the group outstanding on this device? -/
def State.collOut (s : State) (h : BitVec 32) : Bool :=
  s.allCmds.any (fun x => isColl x.2.instr && x.2.blob != [] && x.2.aux != 1 && (cmdColl x.2).group == h)

/-- R368. -/
def execCollgrp (s : State) : Host.Outcome State Fault Refusal :=
  .next (s.hostCmd .collgrp 0x0016 (answering (withArgs (2 ^ 32 - 1) 3 (fun n => n % 2 == 0) (fun s p =>
    let h := p.arg0.extractLsb' 0 32
    let l := memberList p.payload
    let rest := s.collGroups.filter (fun g => g.handle != h)
    if h = 0 then (s, Answer.bad)
    else if p.arg1.getLsbD 1 then
      if (s.collGroup h).isNone then (s, Answer.bad)
      else if s.collOut h then (s, Answer.busy)
      else ({ s with collGroups := rest }, Answer.done 0)
    else if s.badMembers l || l.any (fun i => (storeFind s.domain i).isNone) || 256 ≤ rest.length then (s, Answer.bad)
    else if (s.collGroup h).isSome && s.collOut h then (s, Answer.busy)
    else
      let g : CollGroup := { handle := h, die := p.arg1.getLsbD 0, members := l, rank := l.idxOf s.device.toNat, joined := 0 }
      ({ s with collGroups := rest ++ [g] }.collSettle, Answer.done 0)))))

/-- R373. A commit that waits fails when its table is unbound or has no enabled queue (ERR 0x3C). -/
def execRtabcfg (s : State) : Host.Outcome State Fault Refusal :=
  .next (s.hostCmd .rtabcfg 0x0017 (answering (withArgs 0xFF addrBits (fun n => n == 4) (fun s p =>
    let b := p.payload
    let n := p.arg0.toNat
    let old := (storeFind s.rtabs n).bind (·.commit)
    if natAt b 1 3 != 0 then (s, Answer.bad)
    else if (b.getD 0 0).getLsbD 7 then
      ({ s with rtabs := storePut s.rtabs n (some { addr := p.arg1.extractLsb' 0 56, queue := (b.getD 0 0).extractLsb' 0 7, enabled := true, commit := old }) }, Answer.done 0)
    else
      let s := { s with rtabs := storePut s.rtabs n none }
      match old.bind s.findCmd with
      | some (h, c) => let (s, c) := s.endCmd c 0x3C 0; (s.putCmdAt h c, Answer.done 0)
      | none => (s, Answer.done 0)))))

/-- R360: an entry that is invalid changes nothing. -/
def execDomcfg (s : State) : Host.Outcome State Fault Refusal :=
  .next (s.hostCmd .domcfg 0x0018 (answering (withArgs 0x3FFF 0 (fun n => n % 4 == 0) (fun s p =>
    let es := elemsOf 4 p.payload
    if 16384 < p.arg0.toNat + es.length || es.any (fun x => x / 2 ^ 24 % 128 != 0) then (s, Answer.bad)
    else ({ s with domain := (es.zip (List.range es.length)).foldl (fun m x =>
      storePut m (p.arg0.toNat + x.2) (if 2 ^ 31 ≤ x.1 then some (BitVec.ofNat 24 x.1) else none)) s.domain }, Answer.done 0)))))

/-! ## ABORT and ATTEST (R355, R363, R393) -/

/-- The task fails with HOST_ABORT; one that has not started fails before its start. -/
def State.abortTask (s : State) (t : Task) : State :=
  if t.state == .queued || t.state == .placed then s.failEarly t.id .hostAbort 0
  else
    let s := match (if t.frames = [] then t.cores.head? else none) with
      | some c => s.record (computeCore c) Cause.hostAbort.code 0 0 0 []
      | none => s.recordAt 0 31 Cause.hostAbort.code 0 0 0 []
    s.failTask t.id { status := 1, cause := Cause.hostAbort.code, detail := 0, member := 0 }

def execAbort (s : State) : Host.Outcome State Fault Refusal :=
  .next (s.hostCmd .abort 0x0020 (answering (withArgs addrBits 0 noPayload (fun s p =>
    match s.tasks.find? (fun t => t.alive && t.failure.isNone && t.tcba == p.arg0.extractLsb' 0 56) with
    | some t => ({ s.abortTask t with resumes := (s.abortTask t).resumes.filter (fun i => i != t.id) }, Answer.done 1)
    | none => (s, Answer.done 0)))))

/-- Bytes 0 to 311 of a report. -/
def State.report (s : State) (nonce : List Byte) : List Byte :=
  nonce ++ bytesOf 64 s.measured.toNat ++ bytesOf 4 s.version.toNat ++ bytesOf 4 s.images.toNat ++ bytesOf 16 Config.serial.toNat
    ++ ((s.groups.toList.map (fun g => g.cmap.toList)).flatten)

/-- R393: MEAS and CMAP are read in this cycle. -/
def execAttest (s : State) : Host.Outcome State Fault Refusal :=
  .next (s.hostCmd .attest 0x0021 (answering (withArgs 0 0 (fun n => n == 32) (fun s p =>
    let r := s.report p.payload
    let sig := Config.falconSign (shake256 r 64)
    let d := r ++ bytesOf 2 sig.length ++ sig
    (s, { status := 0, value := BitVec.ofNat 64 d.length, data := d })))))

end Sys2Proof.Machine
end

