-- ==== Sys2Proof/Machine/Debug.lean ====
section
/-! DEFINITION. Debug requests 0x0030 to 0x0038 with the debug master (R383, R384), precise stops (R385), sampling (R386),
and the replay of captured streams (R387). -/

namespace Sys2Proof.Machine

/-! ## The target of a request (R383) -/

def debugDevice (p : Packet) : Nat := (p.arg0.extractLsb' 0 14).toNat
def debugAllDev (p : Packet) : Bool := p.arg0.getLsbD 14
def debugCoreId (p : Packet) : Nat := (p.arg0.extractLsb' 15 8).toNat
def debugAllCore (p : Packet) : Bool := p.arg0.getLsbD 23

/-- The physical cores of every valid entry, in CORE_ID order. -/
def State.mappedCores (s : State) : List (Fin 208) := allCores.filter (fun c => (s.logicalOf c).isSome)

/-- The cores that a request names: one by CORE_ID, or every mapped core; none for a physical core above 24. -/
def State.debugCores (s : State) (p : Packet) : Option (List (Fin 208)) :=
  if debugAllCore p then some s.mappedCores
  else if 25 ≤ debugCoreId p % 32 then none
  else some [physCore ⟨debugCoreId p / 32 % 8, Nat.mod_lt _ (by decide)⟩ (debugCoreId p % 32)]

/-- A device index of the domain other than this device's, or this device's own. -/
def State.reachable (s : State) (d : Nat) : Bool := d == s.device.toNat || (storeFind s.domain d).isSome

/-- The devices of a request: one, or every device of the domain in index order. -/
def State.debugDevices (s : State) (p : Packet) : List Nat :=
  if debugAllDev p then (List.range 16384).filter s.reachable else [debugDevice p]

/-- The answer to a forwarded request: the largest VAL, and the first nonzero STATUS in device-index order (R383). -/
def forwardAnswer (l : List (Nat × Byte × Word × List Byte)) : Answer :=
  let bad := l.filter (fun a => a.2.1 != 0)
  let first := bad.foldl (fun (n : Nat) a => min n a.1) 16384
  { status := ((bad.find? (fun a => a.1 == first)).map (fun a => a.2.1)).getD 0, value := BitVec.ofNat 64 ((l.map (fun a => a.2.2.1.toNat)).foldl max 0)
    data := (l.map (fun a => a.2.2.2)).flatten }

/-- Send a request to its devices; the device itself takes it as a request of its own. -/
def State.forwardAll (s : State) (i : Instr) (p : Packet) (ds : List Nat) : State :=
  ds.foldl (fun s d =>
    if d = s.device.toNat then s.now { instr := i, arg := .master selfEndpoint false, pkt := some p }
    else s.send (.forward d i p)) s

/-- The debug master's part: forward once, then wait for every answer. -/
def State.debugForward (s : State) (i : Instr) (op : Nat) (p : Packet) : State × HostEnd :=
  let mine (f : Forward) : Bool := f.stream == p.stream && f.seq == p.seq && f.op.toNat == op
  if isAgain s.ev then
    match s.forwards.find? mine with
    | none => (s, .answer (Answer.done 0))
    | some f =>
      if f.waiting = [] then ({ s with forwards := s.forwards.filter (fun f => !mine f) }, .answer (forwardAnswer f.answers))
      else (s, .hold)
  else
    let ds := s.debugDevices p
    if !s.master || ds.any (fun d => !s.reachable d) then (s, .answer Answer.bad)
    else
      let f : Forward := { stream := p.stream, seq := p.seq, op := BitVec.ofNat 16 op, waiting := ds, answers := [] }
      ({ s with forwards := s.forwards ++ [f] }.forwardAll i p ds, .hold)

/-- A debug request: forwarded by the master when it names another device, else performed here (R383). -/
def State.debugCmd (s : State) (i : Instr) (op : Nat) (run : State → Packet → State × HostEnd) : State :=
  s.hostCmd i op (fun s p =>
    let fromMaster := match s.ev with | .master _ _ => true | _ => false
    if p.arg0.extractLsb' 24 40 != 0 then (s, .answer Answer.bad)
    else if !fromMaster && (debugAllDev p || debugDevice p != s.device.toNat) then s.debugForward i op p
    else run s p)

/-- A request whose ARG1 has only the bits of a mask and which has no payload. -/
def debugPlain (m1 : Nat) (f : State → Packet → State × HostEnd) (s : State) (p : Packet) : State × HostEnd :=
  if onlyBits p.arg1 m1 && p.payload == [] then f s p else (s, .answer Answer.bad)

/-- The same on the cores named. -/
def debugOn (m1 : Nat) (f : State → Packet → List (Fin 208) → State × HostEnd) : State → Packet → State × HostEnd :=
  debugPlain m1 (fun s p => match s.debugCores p with
    | some cs => f s p cs
    | none => (s, .answer Answer.bad))

/-! ## Precise stops (R385) -/

/-- Ask cores to stop (R385). -/
def State.askHalt (s : State) (cs : List (Fin 208)) : State :=
  cs.foldl (fun s c => if (s.coreAt c).halted.isSome then s else s.askHaltOf c) s

/-- Is no result of the team pending, and no write of it still to land? A core under scan stops after the scan. -/
def State.quiet (s : State) (c : Fin 208) : Bool :=
  let y := s.coreAt c
  y.team.pend == [] && y.team.replay == [] && !y.scan.running

/-- The bundle that a stopped core issues next, 0 with no task. -/
def Core.nextBaddr (y : Core) : BitVec 56 := if y.task.isNone then 0 else (y.team.ctxs.get y.team.cur).pc

/-- One core stops: the record, and the tokens of the `DBG.HALT` that asked. -/
def State.haltCore (s : State) (c : Fin 208) : State :=
  if (s.coreAt c).halted.isSome then s
  else
    let s := s.record c Cause.dbgStop.code 0 (s.coreAt c).nextBaddr (BitVec.ofNat 64 s.cycle) []
    let by_ := (s.coreAt c).haltBy
    let s := s.updCore c (fun y => { y with halted := some s.cycle, haltReq := false, haltBy := [] })
    by_.foldl (fun s r => match s.findCmd r with
      | some (h, x) => (s.putCmdAt h { x with state := .done, err := 0, value := BitVec.ofNat 56 s.cycle, doneAt := s.cycle }).now (event .engineComplete (.cmd r))
      | none => s) s

/-- PRECISE_STOP (R385): every member of a gang stops in one cycle. -/
def execPreciseStop (s : State) : Host.Outcome State Fault Refusal :=
  .next (match s.ev with
    | .core c =>
      let l := s.haltSet c
      if (s.coreAt c).haltReq && l.all s.quiet then (l.foldl State.haltCore s).retryHeld else s
    | _ => s)

/-- The latest stop cycle among cores. -/
def State.lastStop (s : State) (cs : List (Fin 208)) : Nat := (cs.map (fun c => (s.coreAt c).halted.getD 0)).foldl max 0

/-- DHALT (R384, R385): with every named core halted before this cycle the answer is STATUS 0x12 and the stop cycle. -/
def execDhalt (s : State) : Host.Outcome State Fault Refusal :=
  .next (s.debugCmd .dhalt 0x0030 (debugOn 0 (fun s _ cs =>
    let halted := cs.all (fun c => match (s.coreAt c).halted with | some n => n < s.cycle | none => false)
    if isAgain s.ev then
      if cs.any (fun c => (s.coreAt c).haltReq) then (s, .hold) else (s, .answer (Answer.done (s.lastStop cs)))
    else if halted && cs != [] then (s, .answer { Answer.busy with value := BitVec.ofNat 64 (s.lastStop cs) })
    else (s.askHalt cs, .hold))))

/-- DRESUME (R384). -/
def execDresume (s : State) : Host.Outcome State Fault Refusal :=
  .next (s.debugCmd .dresume 0x0031 (debugOn 0 (fun s _ cs =>
    (cs.foldl (fun s c => s.updCore c (fun y => y.resume s.cycle)) s, .answer (Answer.done 0)))))

/-! ## DREAD (R24, R384) -/

/-- One byte of a vector. -/
def byteOf (x : VecBits) (i : Nat) : Byte := x.extractLsb' (8 * i) 8

/-- One byte of the SRAM pool by physical offset, in the layout of R24. -/
def Team.poolByte (t : Team) (off : Nat) : Byte :=
  let bank := off / 4096
  let rf := partRfb t.part
  let acc := partAccb t.part
  if bank < rf then
    let n := off / 512
    let c := t.ctxs.toList.getD (n / partVregs t.part) Ctx.reset
    if partCtx t.part * partVregs t.part ≤ n then 0 else byteOf (c.v.toList.getD (n % partVregs t.part) 0) (off % 512)
  else if bank < rf + acc then
    let a := off - 4096 * rf
    byteOf (accRowOf t (a / 512)) (a % 512)
  else
    let spb := partSpb t.part
    memGet t.spad (32 * ((off % 4096 / 32) * spb + (bank - rf - acc)) + off % 32)

/-- The scalar image of a context (R384). -/
def State.scalarImage (s : State) (c : Fin 208) (k : Fin 4) : List Byte :=
  let x := s.ctxAt c k
  (x.s.toList.map (fun r => bytesOf 8 r.toNat)).flatten ++ (x.a.toList.map (fun r => bytesOf 8 r.toNat)).flatten ++ bytesOf 8 x.pc.toNat
    ++ (x.p.toList.zip (List.range 16) |>.map (fun r => bytesOf 64 (if r.2 = 0 then 2 ^ 512 - 1 else r.1.toNat))).flatten
    ++ ((List.range 12).map (fun n => bytesOf 8 (if n = 6 || n = 7 then 0 else (s.creg c k n).toNat))).flatten

/-- The bytes of a space from an offset, none past its end or for a space that does not exist. -/
def State.debugBytes (s : State) (c : Fin 208) (space : Nat) (k : Fin 4) (off n : Nat) : Option (List Byte) :=
  let t := (s.coreAt c).team
  let cut (size : Nat) (f : Unit → List Byte) : Option (List Byte) := if off + n ≤ size then some (f ()) else none
  match space with
  | 0 => cut (spadSize c t) (fun _ => memRead t.spad off n)
  | 1 => cut (4096 * Config.poolBanks) (fun _ => (List.range n).map (fun i => t.poolByte (off + i)))
  | 2 => cut 1768 (fun _ => ((s.scalarImage c k).drop off).take n)
  | 3 => cut 2688 (fun _ => (((s.ctxAt c k).maps.toList.map (fun m => bytesOf 48 m.toNat)).flatten.drop off).take n)
  | _ => none

/-- DREAD (R384): one halted core. -/
def execDread (s : State) : Host.Outcome State Fault Refusal :=
  .next (s.debugCmd .dread 0x0032 (debugOn (2 ^ 42 - 1) (fun s p cs =>
    let n := (p.arg1.extractLsb' 24 12).toNat
    let k : Fin 4 := ⟨(p.arg1.extractLsb' 40 2).toNat % 4, Nat.mod_lt _ (by decide)⟩
    match cs with
    | [c] =>
      if debugAllCore p || n = 0 || 4064 < n then (s, .answer Answer.bad)
      else if (s.coreAt c).halted.isNone then (s, .answer Answer.busy)
      else match s.debugBytes c (p.arg1.extractLsb' 36 4).toNat k (p.arg1.extractLsb' 0 24).toNat n with
        | some l => (s, .answer { status := 0, value := BitVec.ofNat 64 l.length, data := l })
        | none => (s, .answer Answer.bad)
    | _ => (s, .answer Answer.bad))))

/-! ## Breakpoints, profiling, the master, the ring, frames (R384) -/

def execDbrk (s : State) : Host.Outcome State Fault Refusal :=
  .next (s.debugCmd .dbrk 0x0033 (debugOn (2 ^ 63 + 2 ^ 58 - 1) (fun s p cs =>
    let x := if p.arg1.getLsbD 63 then some (p.arg1.extractLsb' 0 56) else none
    (cs.foldl (fun s c => s.updCore c (fun y => { y with brks := setAt y.brks (p.arg1.extractLsb' 56 2).toNat (fun _ => x) })) s
    , .answer (Answer.done 0)))))

/-- R382, R386: the sample period counts from the request. -/
def execDprof (s : State) : Host.Outcome State Fault Refusal :=
  .next (s.debugCmd .dprof 0x0034 (debugOn (2 ^ 33 - 1) (fun s p cs =>
    let n := (p.arg1.extractLsb' 0 32).toNat
    if n != 0 && n < 1024 then (s, .answer Answer.bad)
    else (cs.foldl (fun s c => s.updCore c (fun y => { y with samplePeriod := n, sampleBase := s.cycle, loopProf := p.arg1.getLsbD 32 })) s
         , .answer (Answer.done 0)))))

/-- The other devices of the domain learn who is master. -/
def execDmaster (s : State) : Host.Outcome State Fault Refusal :=
  .next (s.debugCmd .dmaster 0x0035 (debugPlain 1 (fun s p =>
    let on := p.arg1.getLsbD 0
    if on && s.otherMaster then (s, .answer Answer.busy)
    else
      let s := if !on && !s.master then s
        else s.domain.foldl (fun s m => if m.1 = s.device.toNat then s else s.send (.fabric m.2.toNat none (.masterDeclared on))) s
      ({ s with master := on }, .answer (Answer.done 0)))))

/-- R381: 0 stops the ring. -/
def execStatring (s : State) : Host.Outcome State Fault Refusal :=
  .next (s.debugCmd .statring 0x0036 (debugPlain (2 ^ 56 - 4096) (fun s p =>
    ({ s with statRing := p.arg1.toNat }, .answer (Answer.done 0)))))

/-- R297: the frame of a task that failed with DEADLINE. -/
def execFramerel (s : State) : Host.Outcome State Fault Refusal :=
  .next (s.debugCmd .framerel 0x0038 (debugPlain addrBits (fun s p =>
    let mine (t : Task) : Bool := t.state == .kept && t.tcba == p.arg1.extractLsb' 0 56
    if s.tasks.any mine then ({ s with tasks := s.tasks.filter (fun t => !mine t) }, .answer (Answer.done 0))
    else (s, .answer Answer.bad))))

/-! ## Capture and replay (R387) -/

/-- The ranges of a `CAPTURE`: address, space and length. -/
def captureRanges (b : List Byte) : List (Nat × BitVec 8 × Nat) :=
  (chunked 16 (b.length / 16) b).map (fun r => (natAt r 0 7, r.getD 7 0, natAt r 8 8))

/-- Where the capture area lies (log 13). -/
def captureArea : Nat := Config.firmwarePlace 1

/-- The bytes of the ranges in list order, if every page translates. -/
def State.captureRead (s : State) : List (Nat × BitVec 8 × Nat) → State × Option (List Byte)
  | [] => (s, some [])
  | r :: l =>
    match s.vread (firmwareCluster 0) r.2.1 r.1 r.2.2 with
    | (s, .error _) => (s, none)
    | (s, .ok bs) => let (s, x) := s.captureRead l; (s, x.map (bs ++ ·))

/-- Restore the ranges from the area. -/
def State.captureRestore (s : State) (at_ : Nat) : List (Nat × BitVec 8 × Nat) → State
  | [] => s
  | r :: l => (s.vput (firmwareCluster 0) r.2.1 r.1 (memRead s.mem at_ r.2.2)).captureRestore (at_ + r.2.2) l

/-- The commands of the streams that have arrived and not begun: those that a capture finds waiting are later than it, and are
recorded as it begins (R387; DEDUCED, log 169). -/
def State.waitingPackets (s : State) : List Captured :=
  ((s.agenda ++ s.heldCmds).filter (fun e => e.arg == .held)).filterMap (fun e =>
    e.pkt.map (fun p => { at_ := s.cycle, op := e.instr.hostOp.getD 0, pkt := p }))

/-- The packets without the last one like this: a `CAPTURE` that starts a replay ends the capture, and is no command of it (R387;
DEDUCED, log 169). -/
def withoutLast (l : List Captured) (op : BitVec 16) (p : Packet) : List Captured :=
  (l.reverse.eraseP (fun x => x.op == op && x.pkt == p)).reverse

/-- CAPTURE: off, on, or replay from the first captured packet. -/
def execCapture (s : State) : Host.Outcome State Fault Refusal :=
  .next (s.debugCmd .capture 0x0037 (fun s p =>
    let rs := captureRanges p.payload
    if !onlyBits p.arg1 3 || p.payload.length % 16 != 0 || 256 < p.payload.length then (s, .answer Answer.bad)
    else if !p.arg1.getLsbD 0 then ({ s with capture := { s.capture with on := false } }, .answer (Answer.done 0))
    else if s.tasks.any Task.alive then (s, .answer Answer.busy)
    else if p.arg1.getLsbD 1 then
      ({ s with capture := { s.capture with
            on := true, replay := true, paused := false, next := 0, used := [], packets := withoutLast s.capture.packets 0x37 p } }.captureRestore
          captureArea s.capture.ranges
      , .answer (Answer.done captureArea))
    else match s.captureRead rs with
      | (s, none) => (s, .answer (Answer.fail 0x13))
      | (s, some bs) =>
        ({ s.pwrite captureArea bs with capture := { Capture.reset with on := true, ranges := rs, packets := s.waitingPackets } }, .answer (Answer.done captureArea))))

/-- Must a captured packet wait for the task before it: a task, or the `CAPTURE` that ended the recording? One with on = 1 stands among
the packets only when it was refused, and is taken in its place (R387; DEDUCED, log 169). -/
def Captured.waits (x : Captured) : Bool := x.op == 0x0001 || (x.op == 0x0037 && !x.pkt.arg1.getLsbD 0)

/-- May the replay take its next packet: one that waits only when the task before has completed and been compared, and nothing while a
command that it gave waits? -/
def State.replayDue (s : State) : Bool :=
  s.replaying && !s.heldCmds.any (fun e => isAgain e.arg)
    && (match s.capture.packets[s.capture.next]? with
      | some x => !x.waits || !s.tasks.any Task.alive
      | none => false)

/-- REPLAY_SUBMIT: the next captured command is taken, one of an unknown OP by its answer (R363). -/
def execReplaySubmit (s : State) : Host.Outcome State Fault Refusal :=
  .next (if s.replayDue then
      match s.capture.packets[s.capture.next]? with
      | some x =>
        let s := { s with capture := { s.capture with next := s.capture.next + 1 } }
        match commandOfCode x.op.toNat with
        | some i => s.now { instr := i, arg := .held, pkt := some x.pkt }
        | none => s.send (.response x.pkt.stream (x.op ||| 0x8000) 0x10 x.pkt.seq 0 [])
      | none => s
    else s)

/-! ## Sampling (R386) -/

/-- Is a sample due in this cycle? -/
def State.sampleDue (s : State) (c : Fin 208) : Bool :=
  let y := s.coreAt c
  y.samplePeriod != 0 && y.sampleBase + y.samplePeriod ≤ s.cycle

/-- The context that a sample looks at: the current one, or with that one retired or stopped the next that lives. -/
def State.sampled (s : State) (c : Fin 208) : Fin 4 :=
  let t := (s.coreAt c).team
  if (t.ctxs.get t.cur).live then t.cur
  else ((roundRobin t.cur).find? (fun k => k.val < ctxCount c t && (t.ctxs.get k).live)).getD t.cur

/-- SAMPLE: the bundle issued in this cycle, or the one that blocks or stalls. -/
def execSample (s : State) : Host.Outcome State Fault Refusal :=
  .next (match s.ev with
    | .core c =>
      if !s.sampleDue c then s
      else
        let y := s.coreAt c
        let k := s.sampled c
        let x := y.team.ctxs.get k
        let (ctx, st, a) : Nat × Nat × BitVec 56 :=
          if y.task.isNone then (0, 3, 0)
          else match y.lastIssue.filter (fun l => l.1 == s.cycle) with
            | some l => (l.2.1.val, 0, l.2.2)
            | none => (k.val, if x.blockedSince.isSome then 1 else 2, x.pc)
        (s.record c 0x61 (BitVec.ofNat 45 (ctx + 4 * st)) a 0 []).updCore c (fun y => { y with sampleBase := s.cycle })
    | _ => s)

end Sys2Proof.Machine
end

