-- ==== Sys2Proof/Machine/Power.lean ====
section
/-! DEFINITION. Power-up and firmware (R388 to R396, R400), watchdogs (R354), scans and holds (R103, R402 to R404), the power
controllers (R397 to R399), and soft errors (R352, R353). -/

namespace Sys2Proof.Machine

/-! ## Power (R388, R399) -/

/-- The module loses its power: all state is lost, and only power coming back is still to happen. -/
def State.powerLost (s : State) : State :=
  { State.reset with
    powered := false, cycle := s.cycle, device := s.device, out := s.out, delays := s.delays, areas := s.areas, freeCtr := s.freeCtr
    future := s.future.filter (fun f => f.2.instr == .powerOn), inbox := s.inbox }

def execThermalTrip (s : State) : Host.Outcome State Fault Refusal := .next s.powerLost

def execPowerRemoved (s : State) : Host.Outcome State Fault Refusal := .next s.powerLost

/-- The compute cores whose scan fails: as given, else as the free values say (log 8). -/
def State.bootFailing (s : State) : List (Fin 208) :=
  match s.ev with
  | .powerOn e => e.failing.map computeCore
  | _ => allCores.filter (fun c => c.val < 200 && !Config.scanMatches c.val 0)

/-- A core as the boot scan leaves it (R103, R395). -/
def bootCore (failing : List (Fin 208)) (c : Fin 208) : Core :=
  if isControl c then Core.reset
  else { Core.reset with scan := { ScanState.reset with
    last := if failing.contains c then 2 else 1, elapsed := 200, sig := Config.scanSignature c.val 0 } }

/-- POWER_ON (R388): CYCLE starts at 0, and the device comes as far as the fetch of the image. -/
def execPowerOn (s : State) : Host.Outcome State Fault Refusal :=
  .next (if s.stage ≠ 0 then s
    else
      let failing := s.bootFailing
      { State.reset with
        stage := 2, device := s.device, out := s.out, delays := s.delays, areas := s.areas, freeCtr := s.freeCtr
        future := s.future.map (fun (f : Nat × Event) => (f.1 - s.cycle, f.2))
        inbox := (s.inbox.filter (fun (p : HostPacket) => s.cycle < p.due)).map (fun (p : HostPacket) => { p with due := p.due - s.cycle })
        cores := Vector.ofFn (bootCore failing) }.fetchImage)

/-! ## The firmware image (R390, R391) -/

def imageMagic : Nat := 0x4C524948
def imageVersion (b : List Byte) : BitVec 32 := BitVec.ofNat 32 (natAt b 4 4)
def imageBody (b : List Byte) : Nat := natAt b 8 4
def imageSig (b : List Byte) : Nat := natAt b 12 2

/-- The digest over bytes 0 to 63 + BODYLEN (R391). -/
def imageDigest (b : List Byte) : List Byte := shake256 (b.take (64 + imageBody b)) 64

/-- Are MAGIC, the reserved fields and the lengths valid? -/
def imageWellFormed (b : List Byte) : Bool :=
  let n := imageBody b
  natAt b 0 4 == imageMagic && n % 64 == 0 && 64 ≤ n && n ≤ 2 ^ 23 && 1 ≤ imageSig b && imageSig b ≤ 1462 && natAt b 14 2 == 0
    && (List.range 8).all (fun i => natAt b (19 + 4 * i) 1 % 128 == 0) && natAt b 48 16 == 0 && b.length == 64 + n + imageSig b

/-- Does the ROM accept the image (R391)? -/
def imageAccepted (b : List Byte) : Bool :=
  imageWellFormed b && decide (Config.minVersion.toNat ≤ (imageVersion b).toNat)
    && Config.falconVerify (imageDigest b) (b.drop (64 + imageBody b))

/-- The stream endpoints of the image (R390). -/
def imageStreams (b : List Byte) : Vector (Option (BitVec 24)) 8 :=
  Vector.ofFn (fun i : Fin 8 =>
    if (natAt b (19 + 4 * i.val) 1).testBit 7 then some (BitVec.ofNat 24 (natAt b (16 + 4 * i.val) 3)) else none)

/-- MEAS after an image (R392). -/
def extendMeas (m : BitVec 512) (digest : List Byte) : BitVec 512 := BitVec.ofNat 512 (natOf (shake256 (bytesOf 64 m.toNat ++ digest) 64))

/-- The body of an image with its relocations applied (R240, R258, R400); none when a sum does not fit in 56 bits, or a word to relocate
lies outside the body (DESIGN CHOICE, log 170). -/
def imageLoaded (b : List Byte) : Option (List Byte) :=
  let body := (b.drop 64).take (imageBody b)
  (Config.relocations body).foldl (fun o r => o.bind (fun l =>
    let x := natAt l r.1 7 + (if r.2 then Config.firmwareData.toNat else Config.firmwareBase)
    if x < 2 ^ 56 ∧ r.1 + 8 ≤ l.length then some (l.take r.1 ++ bytesOf 7 x ++ l.drop (r.1 + 7)) else none)) (some body)

/-- The image is measured and its body placed (R392, R400); a poisoned word that it writes whole is whole again (R353). -/
def State.installImage (s : State) (b : List Byte) (body : List Byte) : State :=
  { s.pwrite Config.firmwarePhys body with
    measured := extendMeas s.measured (imageDigest b), images := s.images + 1, version := imageVersion b }

/-- Where the ROM puts the page tables of space 0 for the firmware (log 5). -/
def romTables : Nat := 0x1000

/-- The ROM maps the first 10 MiB of space 0 to the same physical addresses, readable, writable and executable (log 5). -/
def State.romMap (s : State) : State :=
  let table (i : Nat) : List Byte := bytesOf 8 (romTables + 4096 * i + 1)
  let leaves := ((List.range 5).map (fun i => bytesOf 8 (2 ^ 21 * i + 0x18F))).flatten
  let m := memWrite (memWrite (memWrite (memWrite s.mem romTables (table 1)) (romTables + 4096) (table 2)) (romTables + 8192) (table 3))
    (romTables + 12288) leaves
  { s with mem := m, roots := storePut s.roots 0 (some (BitVec.ofNat 52 romTables)) }

/-- A context as a control core leaves reset for firmware (R400). -/
def firmwareTeam : Team :=
  { Team.reset with bars := Vector.replicate 16 (launchBarrier 1), ctxs := Team.reset.ctxs.set 0 { Ctx.reset with pc := BitVec.ofNat 56 Config.firmwareBase } }

/-- The control core of a group starts its firmware; commands of before its reset run on to their ends (log 184). -/
def State.startFirmware (s : State) (g : Fin 8) : State :=
  (s.updCore (controlCore g) (fun y => { Core.reset with
    firmware := true, team := { firmwareTeam with cmds := y.team.cmds, seq := y.team.seq }, stallUntil := s.cycle, haltReq := y.haltReq, haltBy := y.haltBy })).updGroup g
    (fun x => { x with watchdogAt := s.cycle, down := false })

/-- Has the physical core passed its last scan? -/
def State.passed (s : State) (c : Fin 208) : Bool := (s.coreAt c).scan.last == 1

/-- The initial CMAP of a group: the passing cores in ascending order (R396). -/
def State.bootCmap (s : State) (g : Fin 8) : Vector Byte 24 :=
  let ps := (List.range 25).filter (fun p => s.passed (physCore g p))
  Vector.ofFn (fun l : Fin 24 => match ps[l.val]? with | some p => BitVec.ofNat 8 (128 + p) | none => 0)

/-- One second, after which the fetch of an image is repeated (R391). -/
def retryCycles : Nat := 940000000

/-- A ready message's fields (R365, R394). -/
def State.ready (s : State) : Word × Word × Word :=
  (s.version.zeroExtend 64, s.measured.extractLsb' 0 64, s.measured.extractLsb' 64 64)

/-- FIRMWARE_ACCEPT: at boot the stages 2 to 6 (R388), memory whole and zero but for what the ROM places (log 171); later the
reload of the control cores that were reset (R354, R392, R394). An image that is not accepted, or that does not load, is
fetched again after a second (R391). -/
def execFirmwareAccept (s : State) : Host.Outcome State Fault Refusal :=
  .next (match s.ev with
    | .image b =>
      let down := (List.finRange 8).filter (fun g => (s.groupAt g).down)
      if !(s.stage = 2 || (s.stage = 6 && down != [])) then { s with imageFetch := .idle }
      else match (if imageAccepted b then imageLoaded b else none) with
      | none => { s with imageFetch := .waiting }.later retryCycles (event .bootRetry .none)
      | some body =>
      let s := { s with imageFetch := .idle }
      if s.stage = 2 then
        let s := State.installImage (State.romMap { s with mem := [], poison := [] }) b body
        let s := (List.finRange 8).foldl (fun s g => (s.startFirmware g).updGroup g (fun x => { x with cmap := s.bootCmap g })) s
        let s := { s with streams := imageStreams b, stage := 6 }
        let (v, x, y) := s.ready
        s.tellAll 4 v x y
      else
        let s := s.installImage b body
        down.foldl (fun s g =>
          let s := s.startFirmware g
          let (v, x, y) := s.ready
          s.send (.message 0 4 v x y)) s
    | _ => s)

/-- A message of the fetch arrives (R391): the image is complete, or its header is not valid, or the next message is asked
for. Only the message that is awaited counts. -/
def State.takeImage (s : State) (at_ : Nat) (data : List Byte) : State :=
  let b := s.image ++ data
  let total := 64 + imageBody b + imageSig b
  if s.imageFetch ≠ .running || at_ ≠ s.image.length then s
  else if data = [] || (64 ≤ b.length && (natAt b 0 4 != imageMagic || 2 ^ 24 ≤ total || total ≤ b.length)) then
    { s with image := [], imageFetch := .waiting }.now (event .firmwareAccept (.image b))
  else State.send { s with image := b } (.fabric Config.bootEndpoint.toNat none (.read 0 b.length 4096))

/-- BOOT_RETRY (R391): a second after the fetch that failed. -/
def execBootRetry (s : State) : Host.Outcome State Fault Refusal :=
  .next (if s.imageFetch ≠ .waiting then s
    else if s.stage = 2 || (s.stage = 6 && s.groups.toList.any (·.down)) then s.fetchImage
    else { s with imageFetch := .idle })

/-! ## Watchdogs (R354) -/

/-- Cycles in which firmware must refresh the watchdog. -/
def watchdogCycles : Nat := 1000 * Config.cyclesPerMicro

def State.watchdogDue (s : State) (g : Fin 8) : Bool :=
  (s.coreAt (controlCore g)).firmware && (s.groupAt g).watchdogAt + watchdogCycles < s.cycle

/-- WATCHDOG_EXPIRE. -/
def execWatchdogExpire (s : State) : Host.Outcome State Fault Refusal :=
  .next (match s.ev with
    | .group g => if s.watchdogDue g then s.resetControl g else s
    | _ => s)

/-! ## Scans and holds (R103, R402 to R404) -/

def physNumber (c : Fin 208) : Nat := c.val % 25

/-- The holds that name a core end with its scan (R402): the entries that they freed. -/
def State.endHolds (s : State) (c : Fin 208) : State × List Nat :=
  let g := groupOf c
  let l := ((s.groupAt g).holds.filter (fun h => h.old == physNumber c)).map (·.entry)
  (s.updGroup g (fun x => { x with holds := x.holds.filter (fun h => h.old != physNumber c) }), l)

/-- The token of a scan, and the wheel of placement turns again. -/
def State.scanToken (s : State) (by_ : Option CmdRef) (err : BitVec 7) (value : Nat) : State :=
  match by_ with
  | none => s
  | some r => match s.findCmd r with
    | some (h, c) => (s.putCmdAt h { c with state := .done, err := err, value := BitVec.ofNat 56 value, doneAt := s.cycle }).now (event .engineComplete (.cmd r))
    | none => s

/-- SCAN_COMPLETE (R403, R404): a scan under abort does not complete. -/
def execScanComplete (s : State) : Host.Outcome State Fault Refusal :=
  .next (match s.ev with
    | .core c =>
      let x := (s.coreAt c).scan
      if !x.running || x.aborting || s.cycle < x.start + Config.scanCycles then s
      else
        let n := s.freeCtr
        let sig := Config.scanSignature c.val n
        let ok := Config.scanMatches c.val n
        let s := { s with freeCtr := n + 1 }.updCore c (fun y =>
          { y with scan := { y.scan with running := false, last := if ok then 1 else 2, elapsed := 200, sig := sig, by_ := none, head := none } })
        let s := if ok then s else s.record c Cause.scanFail.code 0 x.baddr (BitVec.ofNat 64 (physNumber c)) []
        let (s, _) := s.endHolds c
        (s.scanToken x.by_ (if ok then 0 else 1) sig.toNat).kick
    | _ => s)

/-- The head for which a scan was aborted takes the held entry in the same cycle (R402): a gang the first free shape that holds it. -/
def State.placeHead (s : State) (g : Fin 8) (head : Option Nat) (entries : List Nat) : State :=
  match head.bind s.taskOf with
  | some t =>
    let fit := (s.shapesIn g t.tcb.gang).find? (fun x => entries.any (x.contains ·) && s.shapeFree g t x)
    match (if (t.mark.isNone && s.isReady t) || t.state == .resume then fit else none) with
    | some x => s.placeAt t (s.coresOf g x)
    | none => s
  | none => s

/-- SCAN_ABORT_COMPLETE (R103, R402): ERR 0x02 and the cycles run. -/
def execScanAbortComplete (s : State) : Host.Outcome State Fault Refusal :=
  .next (match s.ev with
    | .core c =>
      let x := (s.coreAt c).scan
      if !x.running || !x.aborting then s
      else
        let n := s.cycle - x.start
        let s := s.updCore c (fun y => { y with scan :=
          { y.scan with running := false, aborting := false, last := 3, elapsed := BitVec.ofNat 29 (n / Config.cyclesPerMicro), by_ := none, head := none } })
        let (s, l) := s.endHolds c
        ((s.scanToken x.by_ 2 n).placeHead (groupOf c) x.head l).kick
    | _ => s)

/-- HOLD_EXPIRE (R402): 64 cycles without a `SCAN.START` naming the old core. -/
def execHoldExpire (s : State) : Host.Outcome State Fault Refusal :=
  .next (match s.ev with
    | .hold h =>
      let mine (x : Hold) : Bool := x.entry == h.entry.val && x.since == h.since
      match (s.groupAt h.group).holds.find? mine with
      | some x =>
        if (s.coreAt (physCore h.group x.old)).scan.running then s
        else (s.updGroup h.group (fun y => { y with holds := y.holds.filter (fun x => !mine x) })).kick
      | none => s
    | _ => s)

/-- `SCAN.START` as its token starts (R102, R103, R398): refused at once, or running; a gated core wakes first. A refused one that
names a core completes and ends the core's hold (R402), and the scheduler looks at the freed entry (R289). -/
def State.runScanStart (s : State) (e : Eng) (c : Cmd) : State × Cmd :=
  let x := physCore (groupOf e.core) c.aReg.toNat
  let y := s.coreAt x
  if 24 < c.aReg.toNat || y.task.isSome || (s.logicalOf x).isSome || y.scan.running || s.destined x then
    let s := if 24 < c.aReg.toNat then s else match s.endHolds x with | (t, []) => t | (t, _) => t.kick
    (s, { c with state := .done, err := 3, value := 0, doneAt := s.cycle })
  else
    let (s, at_) := if y.gated then (let (d, s) := s.takeDelay; (s, s.cycle + min d (2 * Config.cyclesPerMicro))) else (s, s.cycle)
    let s := s.updCore x (fun y => { y with gated := false, scan := { y.scan with running := true, start := at_, aborting := false, by_ := some (e.ref c), baddr := c.baddr, head := none } })
    ((s.later (at_ + Config.scanCycles - s.cycle) (event .scanComplete (.core x))), { c with state := .waiting })

/-! ## The power controllers (R398) -/

/-- The mapped cores of a group from entry 0 on. -/
def State.mappedOf (s : State) (g : Fin 8) : List (Fin 208) := (List.range 24).filterMap (s.physOf g)

/-- The idle mapped cores that stay clocked: the lowest entries, up to max(FCAST, BUSY) cores in all. -/
def State.gateGroup (s : State) (g : Fin 8) : State :=
  let w := (s.groupAt g).afr
  let keep := max (w.toNat % 256) (w.toNat / 256 % 256)
  let cs := s.mappedOf g
  let idle := cs.filter (fun c => (s.coreAt c).task.isNone)
  let on := idle.take (keep - (cs.length - idle.length))
  idle.foldl (fun s c => s.updCore c (fun y => { y with gated := !on.contains c })) s

/-- POWER_GATE: once per microsecond. -/
def execPowerGate (s : State) : Host.Outcome State Fault Refusal := .next ((List.finRange 8).foldl State.gateGroup s)

/-- POWER_HOLD: module power averaged over 1 ms. -/
def execPowerHold (s : State) : Host.Outcome State Fault Refusal :=
  .next (match s.ev with
    | .milliWatt n => { s with holding := if 1800000 < n then true else if n < 1750000 then false else s.holding }
    | _ => s)

/-! ## Soft errors (R352, R353) -/

/-- Zero 32 bytes of a vector. -/
def zeroRow (x : VecBits) (i : Nat) : VecBits := x &&& ~~~(BitVec.ofNat 4096 ((2 ^ 256 - 1) * 2 ^ (256 * i)))

/-- A row of a bank rewritten with zeros (R24, R353). -/
def Team.clearRow (t : Team) (bank row : Nat) : Team :=
  let rf := partRfb t.part
  let acc := partAccb t.part
  let at_ := (4096 * bank + 32 * row) / 512
  if bank < rf then
    let n := partVregs t.part
    if h : at_ / n < 4 then
      t.updCtx ⟨at_ / n, h⟩ (fun x => { x with v := setAt x.v (at_ % n) (fun v => zeroRow v (row % 16)) })
    else t
  else if bank < rf + acc then
    let r := at_ - 8 * rf
    { t with acc := storePutD 0 t.acc r (zeroRow (accRowOf t r) (row % 16)) }
  else
    { t with spad := memWrite t.spad (32 * (row * partSpb t.part + (bank - rf - acc))) (List.replicate 32 0) }

/-- Does the row belong to what the task uses: register file, accumulator or footprint? -/
def rowUsed (t : Team) (fps : List (Nat × Nat)) (bank row : Nat) : Bool :=
  let k := partRfb t.part + partAccb t.part
  let a := 32 * (row * partSpb t.part + (bank - k))
  bank < k || fps.any (fun f => f.1 < a + 32 && a < f.1 + f.2)

/-- A record of a soft error: the location, and a compute core for its pool. -/
def State.softRecord (s : State) (c : Cause) (core : Nat) (g : Fin 8) (location : Nat) : State :=
  s.recordAt g core c.code 0 0 (BitVec.ofNat 64 location) []

/-- An uncorrectable error in a core's pool. -/
def State.poolError (s : State) (c : Fin 208) (bank row : Nat) (met : Bool) : State :=
  let at_ := 4096 * bank + 32 * row
  let fail (s : State) (t : Task) : State :=
    s.failTask t.id { status := 1, cause := Cause.sramUe.code, detail := BitVec.ofNat 64 at_, member := memberOf t c }
  let s := s.softRecord .sramUe (coreId c) (groupOf c) at_
  let used := match s.taskAt c with | some t => met || rowUsed (s.coreAt c).team t.tcb.fps bank row | none => false
  let s := if met then s else s.updTeam c (fun t => t.clearRow bank row)
  match s.taskAt c with
  | some t => if used then fail s t else s
  | none => s

/-- SCRUB: by the table of R353, each place in its way; ECC and scrub act from the end of boot (R388). -/
def execScrub (s : State) : Host.Outcome State Fault Refusal :=
  .next (match s.ev with
    | .soft e => if s.stage ≠ 6 then s
      else match e.place with
      | .corePool core bank row =>
        let c := computeCore core
        if e.uncorrectable then s.poolError c (bank % Config.poolBanks) (row % 128) e.met
        else s.softRecord .eccCe (coreId c) (groupOf c) (4096 * (bank % Config.poolBanks) + 32 * (row % 128))
      | .deviceMemory pa =>
        let g := stackOf pa
        if !e.uncorrectable then s.softRecord .eccCe (32 * g.val + 31) g pa
        else
          let s := { s with poison := pa / 8 * 8 :: s.poison.filter (fun p => p != pa / 8 * 8) }
          if e.met then s else s.softRecord .hbmUe (32 * g.val + 31) g pa
      | .codeBuffer core line =>
        let s := s.softRecord .eccCe (coreId core) (groupOf core) (64 * line)
        if e.uncorrectable then s.updCore core (fun y => { y with ibuf := y.ibuf.filter (fun l => l.1 != line) }) else s
      | .tlb cluster i =>
        let g : Fin 8 := ⟨cluster.val / 6, by have := cluster.isLt; omega⟩
        let s := s.softRecord .eccCe (32 * g.val + 31) g i
        if e.uncorrectable then { s with tlbs := s.tlbs.set cluster ((s.tlbs.get cluster).eraseIdx i) } else s
      | .walkCache g i =>
        let s := s.softRecord .eccCe (32 * g.val + 31) g i
        if e.uncorrectable then { s with walkers := s.walkers.set g ((s.walkers.get g).eraseIdx i) } else s
      | .clusterSlice cluster r =>
        let g : Fin 8 := ⟨cluster.val / 6, by have := cluster.isLt; omega⟩
        if !e.uncorrectable then s.softRecord .eccCe (32 * g.val + 31) g 0
        else match r.bind s.findCmd with
          | some (h, c) =>
            if c.state == .done then s else let (s, c) := s.failCmd (s.eng (homeRef h c) h) c 0x05; s.putCmdAt h c
          | none => s
      | .controlPad g =>
        if e.uncorrectable then s.resetControl g else s.softRecord .eccCe (coreId (controlCore g)) g 0
    | _ => s)

end Sys2Proof.Machine
end

