-- ==== Sys2Proof/Machine/Events.lean ====
section
/-! DEFINITION. The machine's own events: an engine command starts and completes (R192 to R197, R210, R216), messages from
the fabric (R359), code lines (R41, R275), walks (R271), and the decode of a bundle (R71). -/

namespace Sys2Proof.Machine

/-! ## ENGINE_START (R192 to R194) -/

/-- The ranges of a command as its descriptor in the scratchpad gives them (R194, R216, R239). -/
def State.trueRanges (s : State) (e : Eng) (c : Cmd) : List Range :=
  let view (desc : Range) (sw : View → Nat) (write : Bool) : List Range :=
    if e.size < c.aOff + 128 then [desc] else let v := viewOf (s.engPad e c.aOff 128); [desc, v.range (sw v) write]
  let coll (b : Cmd) : List Range :=
    let d := cmdColl b
    c.reads 32 :: d.spans (((s.collGroup d.group).map (·.members.length)).getD 1)
  let desc := c.reads 128
  if c.blob != [] then c.ranges
  else match c.instr with
    | .cpy w => view desc View.sw (!dirOut w)
    | .cpyh w => view desc View.sw (!dirOut w)
    | .cpys w => view (c.writes 128) View.sw (!dirOut w)
    | .cpym _ => if s.maskOwn e.core c.b then view desc View.sw true else [desc]
    | .swcpyIn w | .swcpyDec w => view desc (fun _ => swWidth (swcpyWide w)) true
    | .swcpyOut w | .swcpyMerge w => view desc (fun _ => swWidth (swcpyWide w)) false
    | .collAR _ | .collRS _ | .collAG _ | .collA2A _ => coll { c with blob := s.collBytes e c }
    | .attn _ =>
      let r := attnOf (s.engPad e c.aOff 64)
      [c.reads 64, readRange r.qspad.toNat r.qbytes.toNat, writeRange r.ospad.toNat r.obytes.toNat]
    | .stnew _ => [c.reads (16 + 16 * natAt (s.engPad e c.aOff 16) 4 2)]
    | .splice _ => [c.reads (16 + 16 * natAt (s.engPad e c.aOff 16) 2 2)]
    | _ => c.ranges

/-- `DBG.HALT` (R102, R106): the token waits for the stop; a core that is halted already answers at once, with ERR 0x01 unless it
stopped in this cycle (R385). -/
def State.runDbgHalt (s : State) (e : Eng) (c : Cmd) : State × Cmd :=
  let x := physCore (groupOf e.core) c.aReg.toNat
  let done (err : BitVec 7) (n : Nat) : Cmd := { c with state := .done, err := err, value := BitVec.ofNat 56 n, doneAt := s.cycle }
  if 24 < c.aReg.toNat then (s, done Config.haltErr 0)
  else match (s.coreAt x).halted with
    | some n => (s, done (if n = s.cycle then 0 else 1) n)
    | none => (s.askHalt [x]).updCore x (fun y => { y with haltBy := y.haltBy ++ [e.ref c] }) |> (·, { c with state := .waiting })

/-- A command runs: to its end, or as far as it comes. -/
def State.runCmd (s : State) (e : Eng) (c : Cmd) : State × Cmd :=
  match c.instr with
  | .cpy w => s.runCpy e c (dirOut w)
  | .cpym _ => s.runCpym e c
  | .cpyl w => s.runCpyl e c w
  | .cpylTopk w => s.runTopk e c w
  | .cpyh w => s.runCpyh e c (dirOut w)
  | .atomAdd w | .atomMin w | .atomMax w | .atomXchg w | .atomCas w => s.runAtom e c w
  | .atomk w => s.runAtomk e c w
  | .collAR _ | .collRS _ | .collAG _ | .collA2A _ => s.runColl e c
  | .bkset _ => s.runBkset e c
  | .kick _ => s.runKick c
  | .sidx _ => s.runSidx e c
  | .rtabCommit _ => s.runRtab e c
  | .kvld w => s.runKvld e c w
  | .kvapp w => s.runKvapp e c w
  | .kvremap w => s.runKvremap e c w
  | .kvshare w => s.runKvshare e c w
  | .kvprom w => s.runKvprom e c w
  | .pfxfind w => s.runPfxfind e c w
  | .pfxins w => s.runPfxins e c w
  | .attn w => s.runAttn e c w
  | .stnew _ => s.runStnew e c
  | .splice _ => s.runSplice e c
  | .stpin _ => s.runStpin e c
  | .stunpin _ => s.runStunpin e c
  | .cpys w => s.runCpys e c w
  | .swcpyIn w | .swcpyOut w | .swcpyDec w | .swcpyMerge w => s.runSwcpy e c w
  | .sweep _ => s.runSweep e c
  | .stepC _ => s.runStepC e c
  | .launch _ => s.runLaunch e c none
  | .enq _ => s.runLaunch e c (some c.b)
  | .scanStart _ => s.runScanStart e c
  | .dbgHalt _ => s.runDbgHalt e c
  | _ => s.endCmd c 0 0

/-- A collective whose result waits to be written goes on (R195), or a `CPYM` that waits for pieces (R264). -/
def State.deliverAgain (s : State) (r : CmdRef) (h : CmdHome) (c : Cmd) : State :=
  let e := s.eng r h
  let (s, c) := if cpymStands c then (match h with | .core _ => s.runCpym e c | .frame _ _ => (s, c)) else s.collDeliver e c
  s.putCmdAt h c

/-- ENGINE_START: a command that may start now. -/
def execEngineStart (s : State) : Host.Outcome State Fault Refusal :=
  .next (match s.ev with
    | .cmd r =>
      match s.findCmd r with
      | none => s
      | some (h, c) =>
        let e := s.eng r h
        if awaitsDelivery c then s.deliverAgain r h c
        else if c.state == .queued && s.mayStart h c (s.trueRanges e c) then
          let (s, c) := s.runCmd e c
          (s.putCmdAt h c).collSettle
        else s
    | _ => s)

/-! ## ENGINE_COMPLETE (R25, R26, R87, R192, R195) -/

/-- May the status word be written now? Words of one queue are written in issue order, but for an armed bucket's. -/
def State.mayComplete (s : State) (h : CmdHome) (c : Cmd) : Bool :=
  c.state == .done && c.doneAt ≤ s.cycle
    && (c.q == 8 || !holdsEntry c || !(cmdsBefore c.id (s.homeTeam h).cmds).any (fun x => x.q == c.q && holdsEntry x))

/-- The status word (R25). -/
def Cmd.word (c : Cmd) : Word := (1#1 ++ c.err ++ c.value : BitVec 64)

/-- The word goes to the token register, unless the task has failed (R355), and the pending bit clears. -/
def Team.writeToken (t : Team) (c : Cmd) : Team :=
  t.updCtx c.ctx (fun x => { x.setS c.tok c.word with tokPend := x.tokPend &&& ~~~(BitVec.ofNat 64 (2 ^ c.tok.toNat)) })

/-- What a nonzero ERR leaves in the completion record: the first one (R87, R89), and the member whose word made the task fail
(R286). An earlier failure of a submission without a token stands before a late word's (DESIGN CHOICE, log 154). -/
def Task.noteErr (t : Task) (c : Cmd) (retired : Bool) (member : Nat) : Task :=
  if c.err = 0 then t
  else if c.tok = (0 : Reg6) then { t with err := if t.err = 0 then c.err else t.err }
  else if retired then
    { t with err := if t.err = 0 then c.err else t.err, late := true, errMember := if t.late then t.errMember else member }
  else t

/-- Is the part that of a command of this device? -/
def CollPart.ownedBy (p : CollPart) (r : CmdRef) : Bool := match p.own with | some o => o.id == r.id | none => false

/-- Did a `COLL` end before it began, its descriptor unread? A `BKSET` joins no collective before it is armed (R211). -/
def Cmd.unread (c : Cmd) : Bool := c.blob == [] && (cmdBucket c).isNone

/-- A collective that ends abandoned, or a bucket that is, was no member's part: the others learn that this device failed (R210,
R355, R370). The descriptor of one that had not begun is read for it. -/
def State.dropMember (s : State) (e : Eng) (r : CmdRef) (c : Cmd) : State :=
  if !(isColl c.instr && c.err = 0x07 && c.aux != 2) then s
  else
    let (s, c) := if c.unread && c.aOff + 32 ≤ e.size then s.enterColl { c with blob := s.collBytes e c } else (s, c)
    if c.blob = [] then s
    else { s with collParts := s.collParts.filter (fun p => !p.ownedBy r) }.failColl c (cmdColl c).group

/-- What a command gives up with its word: a pin (R232), the page of its walk (R312), its pieces (R264), the sequencer (R318). -/
def State.releaseCmd (s : State) (e : Eng) (c : Cmd) : State :=
  match c.instr with
  | .cpys _ => match c.pin with
    | some p => s.unpinTensor p.1 p.2 c.baddr
    | none => s
  | .kvld w | .kvapp w => if c.aux = 0 then s else (s.putCmdAt e.home { c with aux := 0 }).kvUnhold e c.baddr (kvSpace w) c.aux
  | .cpym _ => s.freePieces c.id
  | .attn _ =>
    let q := (s.homeTeam e.home).seq
    if q.running && q.cmd == c.id then
      (s.updHome e.home (fun t => { t.seqBusy false with seq := { t.seq with running := false, parked := false, page := 0 } })).kvUnhold e c.baddr q.space q.page
    else s
  | .cpyl _ | .cpylTopk _ => if c.err = 0x07 then s.updHome e.home (fun t => match c.instr with
      | .cpyl w | .cpylTopk w => t.freeTile (cpylTile w)
      | _ => t) else s
  | .bkset _ => if c.err = 0x07 then s.dropBucket c else s
  | _ => s

/-- The command without its entry; an abandoned `ATTN` reports the tokens processed (R355). -/
def State.finalCmd (s : State) (h : CmdHome) (c : Cmd) : Cmd :=
  match c.instr with
  | .attn _ =>
    let q := (s.homeTeam h).seq
    if c.err = 0x07 && q.running && q.cmd == c.id then { c with value := BitVec.ofNat 56 q.processed } else c
  | _ => c

/-- A command completes: its word is written, unless its task has failed or its control core has been reset. -/
def State.completeCmd (s : State) (r : CmdRef) (h : CmdHome) (c : Cmd) : State :=
  let e := s.eng r h
  let c := s.finalCmd h c
  let failed := match s.homeTask h with | some t => t.failure.isSome | none => false
  let retired := ((s.homeTeam h).ctxs.get c.ctx).retired
  let s := ((if c.err = 0x07 then s.cmdExc e c else s).dropMember e r c).releaseCmd e c
  let s := s.updHome h (fun t =>
    let t := if failed || !(t.ctxs.get c.ctx).tokPend.getLsbD c.tok.toNat then t else t.writeToken c
    { t with cmds := t.cmds.filter (fun x => x.id != c.id) })
  match s.homeTask h with
  | some t => s.updTask t.id (fun t => t.noteErr c retired (match h with | .core x => memberOf t x | .frame _ m => m))
  | none => s

/-- ENGINE_COMPLETE: the status word is written; an index command whose offsets are used up ends first (R214). -/
def execEngineComplete (s : State) : Host.Outcome State Fault Refusal :=
  .next (match s.ev with
    | .cmd r =>
      match s.findCmd r with
      | none => s
      | some (h, c) =>
        let e := s.eng r h
        let n := match h with | .core x => ctxCount x (s.homeTeam h) | .frame _ _ => partCtx (s.homeTeam h).part
        let (s, c) := if sidxOver (s.homeTeam h) n c then (let (s, c) := s.endSidx e c; (s.putCmdAt h c, c)) else (s, c)
        if s.mayComplete h c then s.completeCmd r h c else s
    | _ => s)

/-- A command of a failed task that waits for what will not come ends with ERR 0x07; one that has been answered for, or waits
for others only, runs on (R355). -/
def State.abandon (s : State) (h : CmdHome) (c : Cmd) : State :=
  let r := homeRef h c
  let end_ (n : Nat) : State := let (s, c) := s.endCmd c 0x07 n; s.putCmdAt h c
  if c.state != .waiting then s
  else match c.instr with
    | .sidx _ => end_ c.moved
    | .attn _ => s.endAttn h (s.eng r h) c 0x07
    | i =>
      if !isColl i then s
      else if c.aux = 1 then end_ (s.collValue c)
      else if s.collParts.any (fun p => p.ownedBy r) then end_ 0
      else s

/-! ## FABRIC_REQUEST (R359) -/

/-- The answer to a request that wants one. -/
def State.reply (s : State) (e : FabEvent) (err : BitVec 7) (value : Nat) (data : List Byte) : State :=
  match e.by_ with
  | some r => s.send (.fabric e.src none (.answer r err (BitVec.ofNat 56 value) data))
  | none => s

/-- A fault that a peer's request meets here is reported (R347, R353): its cause and address. -/
def State.serveFault (s : State) (e : FabEvent) (x : Cause) (a : Nat) (err : BitVec 7) : State :=
  (s.recordAt 0 31 x.code 0 0 (BitVec.ofNat 64 a) []).reply e err 0 []

/-- A request on a range of this device's memory: performed when its pages are there, parked while one is absent, answered
with the ERR of another fault or of poisoned data. -/
def State.serveRange (s : State) (e : FabEvent) (asid : BitVec 8) (acc : Access) (reads tagged : Bool) (a n : Nat)
    (f : State → List (Nat × Nat × Bool) → State) : State :=
  match s.pieces (firmwareCluster 0) asid acc (pageParts (n / 4096 + 2) a n) with
  | (s, .error (.pageNp, va)) => s.park 0 asid va .pageNp va (.event (event .fabricRequest (.fabric e))) none
  | (s, .error (x, va)) => s.serveFault e x (s.faultTval (firmwareCluster 0) asid x va) (faultErr x)
  | (s, .ok l) =>
    if tagged && taggedAny l then s.reply e 0x08 0 []
    else match (if reads then s.poisonPieces l else none) with
      | some pa => s.serveFault e .hbmUe pa 0x05
      | none => f s l

/-- Does an answer write the scratchpad, so that it waits for the team (R195)? -/
def answerWrites (c : Cmd) (err : BitVec 7) : Bool :=
  err == 0 && (match c.instr with
    | .cpyh w => !dirOut w
    | i => match atomWord i with | some w => atomRet w | none => false)

/-- The answer of a peer or host to a command of this device. -/
def State.takeAnswer (s : State) (e : FabEvent) (r : CmdRef) (err : BitVec 7) (value : BitVec 56) (data : List Byte) : State :=
  match s.findCmd r with
  | none => s
  | some (h, c) =>
    if c.state != .waiting then s
    else
      let away := match h with | .frame _ _ => true | .core _ => false
      if away && answerWrites c err then { s with deferred := s.deferred ++ [event .fabricRequest (.fabric e)] }
      else
        let g := s.eng r h
        let done (x : State × Cmd) : State := x.1.putCmdAt h x.2
        match c.instr with
        | .cpyh w => done (s.hostAnswer g c (dirOut w) err value.toNat data)
        | .atomAdd _ | .atomMin _ | .atomMax _ | .atomXchg _ | .atomCas _ | .atomk _ => done (s.peerAnswer g c err value data)
        | _ => s

/-- A vote counts in its group; for a group not configured yet it is held (R336, R371). -/
def State.takeVote (s : State) (handle : BitVec 32) (member : Nat) (commit : Bool) : State :=
  match s.stepGroup with
  | some g =>
    if g.handle = handle then { s with stepGroup := some { g with votes := g.votes ++ [(member, commit)] } }.voteCheck
    else { s with heldVotes := s.heldVotes ++ [(handle, member, commit)] }
  | none => { s with heldVotes := s.heldVotes ++ [(handle, member, commit)] }

/-- Is a collective of this device over, or not begun here by this device's count? -/
def State.collPast (s : State) (p : CollPart) : Bool :=
  (match p.bucket with
    | some b => p.arming ≤ storeGet 0 s.armings b.toNat
    | none => match s.collGroup p.group with | some g => p.arming ≤ g.joined | none => false)
  && !s.collParts.any (fun q => q.sameAs p && q.member == s.device.toNat)
  && !s.allCmds.any (fun x => isColl x.2.instr && x.2.blob != [] && x.2.aux != 2 && x.2.state != .done
      && (cmdColl x.2).group == p.group && cmdBucket x.2 == p.bucket && s.armingOf x.2 == p.arming)

/-- A member's part of a collective arrives (R210): the failure of one whose part is here takes its place, and what comes when the
collective is over here is dropped. -/
def State.takePart (s : State) (p : CollPart) : State :=
  if s.collPast p then s
  else { s with collParts := s.collParts.filter (fun (q : CollPart) => !(p.failed && q.sameAs p && q.member == p.member)) ++ [p] }.collSettle

/-- FABRIC_REQUEST: each message is performed once. The bundle address of an ATOMK_DUP record for a peer's `ATOMK` is 0: the message
carries none (R207; DESIGN CHOICE, log 204). -/
def execFabricRequest (s : State) : Host.Outcome State Fault Refusal :=
  .next (match s.ev with
    | .fabric e =>
      match e.msg with
      | .read asid a n => s.serveRange e asid .read true false a n (fun s l => s.reply e 0 n (s.piecesRead l))
      | .write asid a bs => s.serveRange e asid .write false false a bs.length (fun s l => (s.writePieces l bs).reply e 0 bs.length [])
      | .atom asid a op ty x y =>
        let n := sWidth ty / 8
        s.serveRange e asid .write true true a n (fun s l =>
          let (s, old, _) := s.atomAt ((l.map (·.1)).headD 0) op ty x y
          s.reply e 0 old (bytesOf n old))
      | .atomk asid a key row =>
        s.serveRange e asid .write true true a (64 + 4 * row.length) (fun s l =>
          match s.atomkAt l a 0 key row with
          | (s, .keyBad) => s.reply e 0x28 0 []
          | (s, .duplicate) => s.reply e 0 1 []
          | (s, .added x) => s.reply e 0 0 (excBytes x))
      | .merge asid a wide x g =>
        let n := swWidth wide
        s.serveRange e asid .write true true a n (fun s l =>
          let (new, _) := swMerge s.factors wide (x.toNat % 2 ^ (8 * n)) (natOf (s.piecesRead l)) g.toNat
          (s.writePieces l (bytesOf n new)).reply e 0 1 [])
      | .vote handle member commit => s.takeVote handle member commit
      | .coll group bucket member cmd op ty count data arming => s.takePart
          { own := none, group := group, bucket := bucket, member := member, cmd := cmd, op := op, ty := ty, count := count
            data := data, arming := arming, failed := false }
      | .collFail group bucket member arming => s.takePart
          { own := none, group := group, bucket := bucket, member := member, cmd := 0, op := 0, ty := 0, count := 0, data := []
            arming := arming, failed := true }
      | .image at_ data => s.takeImage at_ data
      | .answer r err value data => s.takeAnswer e r err value data
      | .masterDeclared on => { s with otherMaster := on }
      | .debugAnswer stream seq op status value data =>
        match s.domain.find? (fun m => m.2.toNat == e.src) with
        | some m => (s.noteAnswer m.1 stream seq op { status := status, value := value, data := data }).retryHeld
        | none => s
    | _ => s)

/-! ## MESSAGE_CANNOT_BE_DELIVERED (R210, R315, R336, R359) -/

/-- A command whose message to an endpoint is lost ends with ERR 0x06, a collective also when it is matched and its result is still
to be written. -/
def State.loseCmd (s : State) (r : CmdRef) (endpoint : Nat) : State :=
  match s.findCmd r with
  | none => s
  | some (h, c) =>
    let g := s.eng r h
    let done (x : State × Cmd) : State := x.1.putCmdAt h x.2
    let lost (s : State) : State := s.record g.core Cause.fabricFail.code 0 c.baddr (BitVec.ofNat 64 endpoint) []
    if isColl c.instr && c.aux = 2 && c.state != .done then
      done (((lost s).collSpoil g c (((s.collGroup (cmdColl c).group).map (·.members.length)).getD 1)).endColl g c 0x06)
    else if c.state != .waiting then s
    else
      match c.instr with
      | .cpyh w => done (s.hostAnswer g c (dirOut w) 0x06 0 [])
      | .atomAdd _ | .atomMin _ | .atomMax _ | .atomXchg _ | .atomCas _ | .atomk _ => done (s.peerAnswer g c 0x06 0 [])
      | i =>
        if isColl i && s.collParts.any (fun p => p.ownedBy r) then
          let s := lost s
          let s := { s with collParts := s.collParts.filter (fun p => !p.ownedBy r) }.failColl c (cmdColl c).group
          done (s.endColl g c 0x06)
        else s

def execMessageUndeliverable (s : State) : Host.Outcome State Fault Refusal :=
  .next (match s.ev with
    | .lost (.command r ep) => s.loseCmd r ep
    | .lost (.vote handle) => s.now (event .stepVoteComplete (.vote { handle := handle, lost := true }))
    | .lost (.promotion space header block) => match s.promOf space header block with
      | some p => s.promLost p false
      | none => s
    | .lost .image => if s.imageFetch = .running then { s with image := [], imageFetch := .waiting }.later retryCycles (event .bootRetry .none) else s
    | _ => s)

/-! ## Code lines (R41, R275, R353) -/

/-- One line of code, and its words that are poisoned in memory. -/
def State.codeLine (s : State) (c : Fin 208) (line : Nat) : State × Except Cause (BitVec 512 × List (Nat × Nat)) :=
  let asid := ((s.taskAt c).map (fun t => t.tcb.asid)).getD 0
  match s.translate (s.clusterOf c) asid (64 * line % 2 ^ 56) .code with
  | (s, .error x) => (s, .error x)
  | (s, .ok (pa, _)) =>
    (s, .ok (BitVec.ofNat 512 (natOf (memRead s.mem pa 64)),
      ((List.range 8).filter (fun i => (s.poisonIn (pa + 8 * i) 8).isSome)).map (fun i => (line, i))))

/-- A line enters the buffer; words that failed their parity twice are marked. -/
def Core.addLine (y : Core) (line : Nat) (x : BitVec 512) (bad : List (Nat × Nat)) : Core :=
  { y with ibuf := putLine y.ibuf line x, poisoned := bad ++ y.poisoned.filter (fun p => p.1 != line) }

/-- A line that follows the one asked for, when it translates. -/
def State.prefetch (s : State) (c : Fin 208) (line : Nat) : State :=
  match s.codeLine c line with
  | (s, .ok (x, bad)) => s.updCore c (fun y => y.addLine line x bad)
  | (s, .error _) => s

/-- A line that does not translate: parked while its page is absent (FETCH_PAGE), else the task fails (R271). -/
def State.codeFault (s : State) (c : Fin 208) (line : Nat) (x : Cause) : State :=
  let t := s.taskAt c
  let asid := (t.map (fun t => t.tcb.asid)).getD 0
  let k := (s.coreAt c).team.cur
  let va := 64 * line % 2 ^ 56
  match x with
  | .fetchPage => (s.updCtx c k (fun y => { y with lineAt := va })).park (groupOf c) asid va .fetchPage va (.fetch { core := c, ctx := k }) (t.bind (·.host))
  | x =>
    let s := s.failCore c x (s.ctxAt c k).pc (BitVec.ofNat 64 (s.faultTval (s.clusterOf c) asid x va))
    if isControl c then s.updCore c (fun y => { y with stopped := true }) else s

/-- CODE_FETCH_LINE: the line that the core waits for and the three after it. -/
def execCodeFetchLine (s : State) : Host.Outcome State Fault Refusal :=
  .next (match s.ev with
    | .line e =>
      if (s.coreAt e.core).fetching ≠ some e.line then s
      else
        let s := s.updCore e.core (fun y => { y with fetching := none })
        match s.codeLine e.core e.line with
        | (s, .error x) => s.codeFault e.core e.line x
        | (s, .ok (x, bad)) =>
          let twice := match e.badWord with | some w => if e.badAgain then [(e.line, w)] else [] | none => []
          let s := s.updCore e.core (fun y => y.addLine e.line x (twice ++ bad))
          [1, 2, 3].foldl (fun s i => s.prefetch e.core (e.line + i)) s
    | _ => s)

/-! ## PAGE_WALK (R271, R272) -/

/-- A walk for a cluster's copy engine: its TLB is filled and A is set, D too for a write. The requests of the model walk
within their own steps and park there. -/
def execPageWalk (s : State) : Host.Outcome State Fault Refusal :=
  .next (match s.ev with
    | .walk e => (s.translate e.cluster e.asid e.va (if e.code then .code else if e.write then .write else .read)).1
    | _ => s)

/-! ## BUNDLE_DECODE (R71) -/

/-- The core's next bundle is decoded: its first word is then to execute, or it has trapped, blocked or missed. -/
def execBundleDecode (s : State) : Host.Outcome State Fault Refusal :=
  .next (match s.ev with
    | .core c =>
      if s.issue.slots = [] && s.mayIssue c then
        let turn := s.turn
        match s.tryCore c with
        | (s, some i) => { s with turn := turn, issue := { s.issue with slots := i :: s.issue.slots } }
        | (s, none) => { s with turn := turn }
      else s
    | _ => s)

end Sys2Proof.Machine
end

