-- ==== Sys2Proof/Machine/Matrix.lean ====
section
/-! DEFINITION. The MX instructions (R179 to R189) and the repetitions of `REP` (R81). -/

namespace Sys2Proof.Machine

/-! ## The slot -/

/-- How often the bundle at hand issues its MX word, and whether a `REP` says so. -/
def State.mxCount (s : State) : Nat := repCount s.ictx s.issue.all
def State.mxRep (s : State) : Bool :=
  s.issue.all.any (fun i => match i with | .rep w => s.ictx.guardBit w.hd | _ => false)

/-- The effects of a matrix word that writes a tile: the work of its first issue, the tile's busy bit, and what remains
to repeat (R22, R81, R187). -/
def State.mxFx (s : State) (i : Instr) (w : XWord) (fresh : Bool) : List Effect :=
  let c := s.ictx
  let n := s.mxCount
  [.act 1 (.mx (s.mxJob s.issue.core s.issue.ctx i w fresh (n == 1))), .busy w.td, .mxBusy (s.cycle + mxOcc i w)]
    ++ (if s.mxRep then
      [.rep { instr := i, left := n - 1, next := s.cycle + mxOcc i w, advanced := false, seq := s.issue.seq
              prof := ({ Profile.reset with addr := s.issue.baddr }).count s.cycle c [i] }]
      else [])

/-- The reads of an operand at eight units a cycle, from `first` on. -/
def unitReads (a first cycles : Nat) : List (Nat × Nat × Nat) := (List.range cycles).map (fun j => (first + j, a + 256 * j, 256))

/-- SPAD_ALIGN of operand addresses. -/
def mxAlign (l : List Nat) : List (Cause × Word) := (l.map (alignFaults 32)).flatten

/-- SPAD_RANGE of the accesses of all repetitions (R162). -/
def State.mxRange (s : State) (l : List (Nat × Nat)) : List (Cause × Word) := rangeFaults (spadSize s.issue.core s.icore.team) l

/-- MX_GANG outside a cluster or 4×4 gang (R185). -/
def State.gangFaults (s : State) (i : Instr) : List (Cause × Word) :=
  if gangBit i && s.gangCores s.issue.core = [] then
    [(.mxGang, match s.taskAt s.issue.core with | some t => t.tcb.gang.zeroExtend 64 | none => 0)]
  else []

/-- A matrix product with operands of `asz` and `bsz` bytes (R181, R183). -/
def State.mmaRes (s : State) (i : Instr) (w : XWord) (asz bsz : Nat) (fresh : Bool) : SlotRes :=
  let n := s.mxCount
  let c := s.issue.core
  let k := s.issue.ctx
  let as := repOffs n (s.mxA c k i w.aa)
  let bs := repOffs n (s.mxB c k i w.ab)
  let own (x : Fin 208) (l : List (Nat × Nat × Nat)) := if x = c then l else []
  if n = 0 then {}
  else
    { faults := s.gangFaults i ++ mxAlign (as ++ bs) ++ s.mxRange (as.map (fun a => (a, asz)) ++ bs.map (fun b => (b, bsz)))
      effects := s.mxFx i w fresh
      reads := own (s.mxCores c i).1 (unitReads (as.headD 0) 1 (asz / 256)) ++ own (s.mxCores c i).2 (unitReads (bs.headD 0) 1 (bsz / 256)) }

/-- R181. -/
def execMma (w : XWord) (s : State) : Host.Outcome State Fault Refusal :=
  .next (s.slot (.mma w) w.hd (s.mmaRes (.mma w) w 4096 4096 false))

/-- R181: +0 for the old value, in the first repetition only. -/
def execMmaZ (w : XWord) (s : State) : Host.Outcome State Fault Refusal :=
  .next (s.slot (.mmaZ w) w.hd (s.mmaRes (.mmaZ w) w 4096 4096 true))

/-- R183. -/
def execMmaT (w : XWord) (s : State) : Host.Outcome State Fault Refusal :=
  .next (s.slot (.mmaT w) w.hd (s.mmaRes (.mmaT w) w (8192 * mxNa w) (8192 * mxNb w) false))

/-- The tile map of `MMA.G` (R182). -/
def gatherTileMap (m : MapBits) (i k : Nat) : MapBits :=
  if isAffine m && mapRank m == 2 && mapShape m (mapOrder m 0) == 128 then
    let d := mapOrder m 1
    let x := mapSetStep (mapSetOrigin (mapSetKind m 2) d 0) d 0
    mapSetCctx (mapSetCdim (mapSetCreg (mapSetNcar x 1) 0 i) 0 d) 0 k
  else 0

/-- R182. -/
def execMmaG (w : XWord) (s : State) : Host.Outcome State Fault Refusal :=
  let c := s.ictx
  let n := s.mxCount
  let as := repOffs n (c.aReg w.aa)
  let bs := repOffs n (c.aReg w.ab)
  let idx := (List.range 128).map (fun r => elem (c.vReg w.vi.toNat) r 32)
  let rows (a : Nat) : List (Nat × Nat) := idx.map (fun i => (a + 32 * i, 32))
  .next (s.slot (.mmaG w) w.hd
    (if n = 0 then {} else
      { faults := mxAlign (as ++ bs) ++ s.mxRange ((as.map rows).flatten ++ bs.map (fun b => (b, 4096)))
        effects := s.mxFx (.mmaG w) w false
          ++ [.gatherBusy (s.cycle + 8)
            , .tileMap w.td (gatherTileMap (s.icore.team.tileMaps.get ⟨w.td.toNat, w.td.isLt⟩) w.vi.toNat s.issue.ctx.val)]
        reads := ((rows (as.headD 0)).zip (List.range 128)).map (fun p => (1 + p.2 / 16, p.1)) ++ unitReads (bs.headD 0) 9 16 }))

/-- The reads of a block-sparse walk as far as the table shows them at issue: the header, and the first entry with its operands
(R178, R184, log 164). -/
def State.bsReads (s : State) (a b x : Nat) : List (Nat × Nat × Nat) :=
  let t := s.icore.team
  let size := spadSize s.issue.core t
  let w := memNat t.spad (x + 8) 8
  let at_ (o : Nat) (n : Nat) : Nat := (o + w / 2 ^ n % 2 ^ 24) % 2 ^ 24
  (1, x, 8) :: (if memNat t.spad x 8 % 2 ^ 13 = 0 || size < x + 16 then [] else
    (3, x + 8, 8) :: (if bsEntryOk size (at_ a 0) (at_ b 24) w then unitReads (at_ a 0) 5 16 ++ unitReads (at_ b 24) 5 16 else []))

/-- R184: the header is checked at issue; the entries name their operands as they are read. -/
def execMmaBS (w : XWord) (s : State) : Host.Outcome State Fault Refusal :=
  let n := s.mxCount
  let xs := repOffs n (s.ictx.aReg w.ax)
  .next (s.slot (.mmaBS w) w.hd
    (if n = 0 then {} else
      { faults := mxAlign xs ++ s.mxRange (xs.map (fun x => (x, 8))), effects := s.mxFx (.mmaBS w) w false
        reads := s.bsReads (areaAddr (s.ictx.aReg w.aa) 0) (areaAddr (s.ictx.aReg w.ab) 0) (xs.headD 0) }))

/-- R186. -/
def execTzero (w : XWord) (s : State) : Host.Outcome State Fault Refusal :=
  .next (s.slot (.tzero w) w.hd (if s.mxCount = 0 then {} else { effects := s.mxFx (.tzero w) w false }))

/-- R186. -/
def execTload (w : XWord) (s : State) : Host.Outcome State Fault Refusal :=
  let n := s.mxCount
  let as := repOffs n (s.ictx.aReg w.aa)
  let size := if w.tya = 8 then 256 else 512
  .next (s.slot (.tload w) w.hd
    (if n = 0 then {} else
      { faults := mxAlign as ++ s.mxRange (as.map (fun a => (a, 128 * size))), effects := s.mxFx (.tload w) w false
        reads := (List.range 128).map (fun r => (1 + r, as.headD 0 + size * r, size)) }))

/-- Is the descriptor a tile map (R186)? Its carriers may be of any context of the team. -/
def tileMapOk (m : MapBits) (ctxs vregs : Nat) : Bool :=
  isNone m
  || (mapWf m && mapEw m == 0 && mapRank m == 2 && mapValid m == 0 && 16384 ≤ mapShape m 0 * mapShape m 1
      && (mapCars m).all (fun k => mapCctx m k < ctxs && mapCreg m k < vregs))

/-- R186: the descriptor was read in the cycle before. -/
def execTmap (w : XWord) (s : State) : Host.Outcome State Fault Refusal :=
  let c := s.ictx
  let t := s.icore.team
  let a := areaAddr (c.aReg w.aa) 0
  let m := match c.preread with | some r => r.mx | none => 0
  .next (s.slot (.tmap w) w.hd
    { faults := alignFaults 32 a ++ s.mxRange [(a, 48)]
        ++ (if tileMapOk m (partCtx t.part) (partVregs t.part) then [] else [(.mapBad, BitVec.ofNat 64 (64 + w.td.toNat))])
        ++ (if c.chken then (c.preread.bind (·.mxEarly)).toList.map (fun b => (.stallShort, b.zeroExtend 64)) else [])
      effects := [.tileMap w.td (mapInstall m), .mxBusy (s.cycle + 2)] })

/-- R186: the bundle issues when the tile is not busy. -/
def execTwait (w : XWord) (s : State) : Host.Outcome State Fault Refusal := .next (s.slot (.twait w) w.hd {})

/-! ## Repetitions (R81) -/

/-- One repetition issues: its work begins, the unit is held for its occupancy, and after the last one the counters of the
`REP` are reported (R382). A repetition of `MMA.G` does not wait for the gather unit of R168 (DEDUCED, log 195). -/
def State.repIssue (s : State) (c : Fin 208) (k : Fin 4) (r : RepState) : State :=
  match mxWord r.instr with
  | none => s.updCtx c k (fun x => { x with rep := none })
  | some w =>
    let last := r.left ≤ 1
    let p : Pend := { due := s.cycle + 1, seq := r.seq, unit := .mx, ctx := k, baddr := r.prof.addr
                      act := .mx (s.mxJob c k r.instr w false last) }
    let until_ := s.cycle + mxOcc r.instr w
    let prof := r.prof.countUnit s.cycle .mx
    let s := s.updTeam c (fun t => { t.push p with
      mxFree := until_, gatherFree := if mxKind r.instr = .gathered then s.cycle + 8 else t.gatherFree })
    let s := s.updCtx c k (fun x => { x with rep := if last then none else some { r with left := r.left - 1, next := until_, advanced := false, prof := prof } })
    if last then s.profRecord c k true prof else s

/-- REP_REPETITION (R81): the registers advance and the word issues again; a gang word meets its match first (R185). -/
def execRepRepetition (s : State) : Host.Outcome State Fault Refusal :=
  .next (match s.ev with
    | .ctx e =>
      match (s.ctxAt e.core e.ctx).rep with
      | none => s
      | some r =>
        if gangBit r.instr && s.gangCores e.core != [] then
          match (s.coreAt e.core).team.gang with
          | some g =>
            if g.rep && g.go = some s.cycle then s.repIssue e.core e.ctx r
            else if g.go.isNone then s
            else s.gangArrive e.core e.ctx true
          | none => s.gangArrive e.core e.ctx true
        else (s.updCtx e.core e.ctx Ctx.moveOn).repIssue e.core e.ctx r
    | _ => s)

end Sys2Proof.Machine
end

