-- ==== Sys2Proof/Machine/Store.lean ====
section
/-! DEFINITION. The meanings of the ST instructions (R173 to R176). -/

namespace Sys2Proof.Machine

/-- The cells of a value of `n` bytes at an address. -/
def cellsAt (a n x : Nat) : List Host.Cell := ((List.range n).zip (bytesOf n x)).map (fun p => (a + p.1, p.2))

/-- The addresses and bytes an ST word stores, for the statements: those of the plain forms. -/
def stVCells (c : Ctx) (w : MWord) : List Host.Cell :=
  let b := tyWidth w.ty
  ((activeElems (c.guard w.hd) b).map (fun i => cellsAt (c.memAddr w + b / 8 * i) (b / 8) (elem (c.vReg w.d.toNat) i b))).flatten

def execStS (w : MWord) (s : State) : Host.Outcome State Fault Refusal :=
  let a := s.ictx.memAddr w
  let n := sWidth w.ty / 8
  .next (s.slot (.stS w) w.hd
    { faults := s.memFaults n a [(a, n)]
      effects := .act 3 (.store (cellsAt a n (s.ictx.sReg w.d).toNat)) :: postInc s.ictx w })

def execStV (w : MWord) (s : State) : Host.Outcome State Fault Refusal :=
  let a := s.ictx.memAddr w
  .next (s.slot (.stV w) w.hd
    { faults := s.memFaults 32 a [(a, 512)], effects := .act 3 (.store (stVCells s.ictx w)) :: postInc s.ictx w })

/-- R174: eight cycles of stores, the later element of two for one address remaining. -/
def execStVS (w : MWord) (s : State) : Host.Outcome State Fault Refusal :=
  let c := s.ictx
  let p := c.guard w.hd
  let b := tyWidth w.ty
  let groups := gatherGroups w.ty (fun i => if active p b i then some (gatherAddr c w i) else none)
  let cells (g : List (Nat × Nat)) : List Host.Cell :=
    (g.map (fun q => cellsAt q.2 (b / 8) (elem (c.vReg w.d.toNat) q.1 b))).flatten
  .next (s.slot (.stVS w) w.hd
    { faults := s.memFaults (b / 8) (c.memAddr w) (groups.flatten.map (fun q => (q.2, b / 8)))
      effects := (groups.zip (List.range 8)).map (fun g => .act (3 + g.2) (.store (cells g.1)))
        ++ postInc c w ++ [.gatherBusy (s.cycle + 8)] })

/-- R175: the active elements packed; OFF moves by their bytes. -/
def execStVC (w : MWord) (s : State) : Host.Outcome State Fault Refusal :=
  let c := s.ictx
  let a := c.memAddr w
  let n := elemBytes w.ty
  let els := activeElems (c.guard w.hd) (tyWidth w.ty)
  let cells := ((els.zip (List.range els.length)).map (fun p => cellsAt (a + n * p.2) n (elem (c.vReg w.d.toNat) p.1 (tyWidth w.ty)))).flatten
  .next (s.slot (.stVC w) w.hd
    { faults := s.memFaults n a (if els = [] then [] else [(a, n * els.length)])
      effects := .act 3 (.store cells) :: (if els = [] then [] else postFx c w (n * els.length : Nat)) })

/-- R176: merge-adds, the second half of an SW64 store a cycle later. -/
def execStSW (w : MWord) (s : State) : Host.Outcome State Fault Refusal :=
  let c := s.ictx
  let a := c.memAddr w
  let wide := w.ty = 7
  let n := swWidth wide
  let ws := (activeElems (c.guard w.hd) 32).map (fun i => (i, BitVec.ofNat 32 (elem (c.vReg w.d.toNat) i 32)))
  let at_ (l : List (Nat × BitVec 32)) : List (Nat × BitVec 32) := l.map (fun p => (a + n * p.1, p.2))
  let first := if wide then ws.filter (fun p => p.1 < 64) else ws
  let later := if wide then ws.filter (fun p => 64 ≤ p.1) else []
  .next (s.slot (.stSW w) w.hd
    { faults := s.memFaults 32 a [(a, 128 * n)]
      effects := .act 3 (.season wide s.gstep (at_ first) (at_ later) []) :: postInc c w })

end Sys2Proof.Machine
end

