-- ==== Sys2Proof/Machine/Dispatch.lean ====
section
/-! DEFINITION. One arm per instruction: a direct call of its meaning. -/

namespace Sys2Proof.Machine

def exec (i : Instr) (s : State) : Host.Outcome State Fault Refusal :=
  match i with
  | .nop w => Sys2Proof.Machine.execNop w s
  | .br w => Sys2Proof.Machine.execBr w s
  | .brp w => Sys2Proof.Machine.execBrp w s
  | .brs w => Sys2Proof.Machine.execBrs w s
  | .jmpi w => Sys2Proof.Machine.execJmpi w s
  | .call w => Sys2Proof.Machine.execCall w s
  | .ret w => Sys2Proof.Machine.execRet w s
  | .loop w => Sys2Proof.Machine.execLoop w s
  | .rep w => Sys2Proof.Machine.execRep w s
  | .waitTok w => Sys2Proof.Machine.execWaitTok w s
  | .waitCyc w => Sys2Proof.Machine.execWaitCyc w s
  | .retire w => Sys2Proof.Machine.execRetire w s
  | .yield w => Sys2Proof.Machine.execYield w s
  | .launch w => Sys2Proof.Machine.execLaunch w s
  | .enq w => Sys2Proof.Machine.execEnq w s
  | .trap w => Sys2Proof.Machine.execTrap w s
  | .tren w => Sys2Proof.Machine.execTren w s
  | .tret w => Sys2Proof.Machine.execTret w s
  | .barInit w => Sys2Proof.Machine.execBarInit w s
  | .barArrive w => Sys2Proof.Machine.execBarArrive w s
  | .barWait w => Sys2Proof.Machine.execBarWait w s
  | .drain w => Sys2Proof.Machine.execDrain w s
  | .fenceQ w => Sys2Proof.Machine.execFenceQ w s
  | .mfc w => Sys2Proof.Machine.execMfc w s
  | .mtc w => Sys2Proof.Machine.execMtc w s
  | .mtcTstat w => Sys2Proof.Machine.execMtcTstat w s
  | .mtcWaitlim w => Sys2Proof.Machine.execMtcWaitlim w s
  | .stepC w => Sys2Proof.Machine.execStepC w s
  | .scanStart w => Sys2Proof.Machine.execScanStart w s
  | .scanAbort w => Sys2Proof.Machine.execScanAbort w s
  | .scanRead w => Sys2Proof.Machine.execScanRead w s
  | .cmapSet w => Sys2Proof.Machine.execCmapSet w s
  | .sqpop w => Sys2Proof.Machine.execSqpop w s
  | .dbgHalt w => Sys2Proof.Machine.execDbgHalt w s
  | .dbgResume w => Sys2Proof.Machine.execDbgResume w s
  | .add w => Sys2Proof.Machine.execAdd w s
  | .sub w => Sys2Proof.Machine.execSub w s
  | .mul w => Sys2Proof.Machine.execMul w s
  | .mulh w => Sys2Proof.Machine.execMulh w s
  | .div w => Sys2Proof.Machine.execDiv w s
  | .rem w => Sys2Proof.Machine.execRem w s
  | .addi w => Sys2Proof.Machine.execAddi w s
  | .movi w => Sys2Proof.Machine.execMovi w s
  | .movl w => Sys2Proof.Machine.execMovl w s
  | .mov w => Sys2Proof.Machine.execMov w s
  | .and w => Sys2Proof.Machine.execAnd w s
  | .or w => Sys2Proof.Machine.execOr w s
  | .xor w => Sys2Proof.Machine.execXor w s
  | .andn w => Sys2Proof.Machine.execAndn w s
  | .shl w => Sys2Proof.Machine.execShl w s
  | .shr w => Sys2Proof.Machine.execShr w s
  | .sra w => Sys2Proof.Machine.execSra w s
  | .rot w => Sys2Proof.Machine.execRot w s
  | .clz w => Sys2Proof.Machine.execClz w s
  | .popc w => Sys2Proof.Machine.execPopc w s
  | .min w => Sys2Proof.Machine.execMin w s
  | .max w => Sys2Proof.Machine.execMax w s
  | .sel w => Sys2Proof.Machine.execSel w s
  | .cmpS w => Sys2Proof.Machine.execCmpS w s
  | .cmpP w => Sys2Proof.Machine.execCmpP w s
  | .aadd w => Sys2Proof.Machine.execAadd w s
  | .ainc w => Sys2Proof.Machine.execAinc w s
  | .amod w => Sys2Proof.Machine.execAmod w s
  | .asetA w => Sys2Proof.Machine.execAsetA w s
  | .asetS w => Sys2Proof.Machine.execAsetS w s
  | .fadd w => Sys2Proof.Machine.execFadd w s
  | .fsub w => Sys2Proof.Machine.execFsub w s
  | .fmul w => Sys2Proof.Machine.execFmul w s
  | .fma w => Sys2Proof.Machine.execFma w s
  | .fmin w => Sys2Proof.Machine.execFmin w s
  | .fmax w => Sys2Proof.Machine.execFmax w s
  | .fcmpS w => Sys2Proof.Machine.execFcmpS w s
  | .fcmpP w => Sys2Proof.Machine.execFcmpP w s
  | .fcvt w => Sys2Proof.Machine.execFcvt w s
  | .pand w => Sys2Proof.Machine.execPand w s
  | .por w => Sys2Proof.Machine.execPor w s
  | .pxor w => Sys2Proof.Machine.execPxor w s
  | .pnot w => Sys2Proof.Machine.execPnot w s
  | .pmov w => Sys2Proof.Machine.execPmov w s
  | .ldS w => Sys2Proof.Machine.execLdS w s
  | .ldV w => Sys2Proof.Machine.execLdV w s
  | .ldVB w => Sys2Proof.Machine.execLdVB w s
  | .ldVG w => Sys2Proof.Machine.execLdVG w s
  | .ldVQ w => Sys2Proof.Machine.execLdVQ w s
  | .ldt w => Sys2Proof.Machine.execLdt w s
  | .ldSW w => Sys2Proof.Machine.execLdSW w s
  | .amoAdd w => Sys2Proof.Machine.execAmoAdd w s
  | .amoMin w => Sys2Proof.Machine.execAmoMin w s
  | .amoMax w => Sys2Proof.Machine.execAmoMax w s
  | .amoXchg w => Sys2Proof.Machine.execAmoXchg w s
  | .amoCas w => Sys2Proof.Machine.execAmoCas w s
  | .patld w => Sys2Proof.Machine.execPatld w s
  | .stS w => Sys2Proof.Machine.execStS w s
  | .stV w => Sys2Proof.Machine.execStV w s
  | .stVS w => Sys2Proof.Machine.execStVS w s
  | .stVC w => Sys2Proof.Machine.execStVC w s
  | .stSW w => Sys2Proof.Machine.execStSW w s
  | .vadd w => Sys2Proof.Machine.execVadd w s
  | .vsub w => Sys2Proof.Machine.execVsub w s
  | .vadds w => Sys2Proof.Machine.execVadds w s
  | .vsubs w => Sys2Proof.Machine.execVsubs w s
  | .vmul w => Sys2Proof.Machine.execVmul w s
  | .vmulh w => Sys2Proof.Machine.execVmulh w s
  | .vmad w => Sys2Proof.Machine.execVmad w s
  | .vdot4 w => Sys2Proof.Machine.execVdot4 w s
  | .vand w => Sys2Proof.Machine.execVand w s
  | .vor w => Sys2Proof.Machine.execVor w s
  | .vxor w => Sys2Proof.Machine.execVxor w s
  | .vshl w => Sys2Proof.Machine.execVshl w s
  | .vshr w => Sys2Proof.Machine.execVshr w s
  | .vsra w => Sys2Proof.Machine.execVsra w s
  | .vmin w => Sys2Proof.Machine.execVmin w s
  | .vmax w => Sys2Proof.Machine.execVmax w s
  | .vabs w => Sys2Proof.Machine.execVabs w s
  | .vneg w => Sys2Proof.Machine.execVneg w s
  | .vcmp w => Sys2Proof.Machine.execVcmp w s
  | .vsel w => Sys2Proof.Machine.execVsel w s
  | .vmov w => Sys2Proof.Machine.execVmov w s
  | .vbcastS w => Sys2Proof.Machine.execVbcastS w s
  | .vbcastE w => Sys2Proof.Machine.execVbcastE w s
  | .vfadd w => Sys2Proof.Machine.execVfadd w s
  | .vfsub w => Sys2Proof.Machine.execVfsub w s
  | .vfmul w => Sys2Proof.Machine.execVfmul w s
  | .vfma w => Sys2Proof.Machine.execVfma w s
  | .vfmin w => Sys2Proof.Machine.execVfmin w s
  | .vfmax w => Sys2Proof.Machine.execVfmax w s
  | .vfabs w => Sys2Proof.Machine.execVfabs w s
  | .vfcmp w => Sys2Proof.Machine.execVfcmp w s
  | .vcvt w => Sys2Proof.Machine.execVcvt w s
  | .vpack w => Sys2Proof.Machine.execVpack w s
  | .vunpk w => Sys2Proof.Machine.execVunpk w s
  | .vnarrow w => Sys2Proof.Machine.execVnarrow w s
  | .vredAdd w => Sys2Proof.Machine.execVredAdd w s
  | .vredMax w => Sys2Proof.Machine.execVredMax w s
  | .vredMin w => Sys2Proof.Machine.execVredMin w s
  | .vscanAdd w => Sys2Proof.Machine.execVscanAdd w s
  | .vshuf w => Sys2Proof.Machine.execVshuf w s
  | .patswap w => Sys2Proof.Machine.execPatswap w s
  | .vperm w => Sys2Proof.Machine.execVperm w s
  | .vcompact w => Sys2Proof.Machine.execVcompact w s
  | .vexpand w => Sys2Proof.Machine.execVexpand w s
  | .vmapSet w => Sys2Proof.Machine.execVmapSet w s
  | .vmapCopy w => Sys2Proof.Machine.execVmapCopy w s
  | .vmapOff w => Sys2Proof.Machine.execVmapOff w s
  | .vmapSlice w => Sys2Proof.Machine.execVmapSlice w s
  | .vmapTr w => Sys2Proof.Machine.execVmapTr w s
  | .vmapNone w => Sys2Proof.Machine.execVmapNone w s
  | .vmapTag w => Sys2Proof.Machine.execVmapTag w s
  | .vcoord w => Sys2Proof.Machine.execVcoord w s
  | .vnoise w => Sys2Proof.Machine.execVnoise w s
  | .vmaskcCausal w => Sys2Proof.Machine.execVmaskcCausal w s
  | .vmaskcBand w => Sys2Proof.Machine.execVmaskcBand w s
  | .vmaskcWin w => Sys2Proof.Machine.execVmaskcWin w s
  | .vmaskcLt w => Sys2Proof.Machine.execVmaskcLt w s
  | .vmaskcGe w => Sys2Proof.Machine.execVmaskcGe w s
  | .vtopk8 w => Sys2Proof.Machine.execVtopk8 w s
  | .vsortStep w => Sys2Proof.Machine.execVsortStep w s
  | .vacr w => Sys2Proof.Machine.execVacr w s
  | .vacw w => Sys2Proof.Machine.execVacw w s
  | .vacwAdd w => Sys2Proof.Machine.execVacwAdd w s
  | .vexp2 w => Sys2Proof.Machine.execVexp2 w s
  | .vexp w => Sys2Proof.Machine.execVexp w s
  | .vlog2 w => Sys2Proof.Machine.execVlog2 w s
  | .vln w => Sys2Proof.Machine.execVln w s
  | .vrcp w => Sys2Proof.Machine.execVrcp w s
  | .vrsq w => Sys2Proof.Machine.execVrsq w s
  | .vsqrt w => Sys2Proof.Machine.execVsqrt w s
  | .vtanh w => Sys2Proof.Machine.execVtanh w s
  | .vsigm w => Sys2Proof.Machine.execVsigm w s
  | .verf w => Sys2Proof.Machine.execVerf w s
  | .vsincos w => Sys2Proof.Machine.execVsincos w s
  | .vpows w => Sys2Proof.Machine.execVpows w s
  | .mma w => Sys2Proof.Machine.execMma w s
  | .mmaZ w => Sys2Proof.Machine.execMmaZ w s
  | .mmaG w => Sys2Proof.Machine.execMmaG w s
  | .mmaT w => Sys2Proof.Machine.execMmaT w s
  | .mmaBS w => Sys2Proof.Machine.execMmaBS w s
  | .tzero w => Sys2Proof.Machine.execTzero w s
  | .tload w => Sys2Proof.Machine.execTload w s
  | .tmap w => Sys2Proof.Machine.execTmap w s
  | .twait w => Sys2Proof.Machine.execTwait w s
  | .cpy w => Sys2Proof.Machine.execCpy w s
  | .cpym w => Sys2Proof.Machine.execCpym w s
  | .cpyl w => Sys2Proof.Machine.execCpyl w s
  | .cpylTopk w => Sys2Proof.Machine.execCpylTopk w s
  | .cpyh w => Sys2Proof.Machine.execCpyh w s
  | .atomAdd w => Sys2Proof.Machine.execAtomAdd w s
  | .atomMin w => Sys2Proof.Machine.execAtomMin w s
  | .atomMax w => Sys2Proof.Machine.execAtomMax w s
  | .atomXchg w => Sys2Proof.Machine.execAtomXchg w s
  | .atomCas w => Sys2Proof.Machine.execAtomCas w s
  | .atomk w => Sys2Proof.Machine.execAtomk w s
  | .collAR w => Sys2Proof.Machine.execCollAR w s
  | .collRS w => Sys2Proof.Machine.execCollRS w s
  | .collAG w => Sys2Proof.Machine.execCollAG w s
  | .collA2A w => Sys2Proof.Machine.execCollA2A w s
  | .bkset w => Sys2Proof.Machine.execBkset w s
  | .kick w => Sys2Proof.Machine.execKick w s
  | .sidx w => Sys2Proof.Machine.execSidx w s
  | .rtabCommit w => Sys2Proof.Machine.execRtabCommit w s
  | .kvld w => Sys2Proof.Machine.execKvld w s
  | .kvapp w => Sys2Proof.Machine.execKvapp w s
  | .kvremap w => Sys2Proof.Machine.execKvremap w s
  | .kvshare w => Sys2Proof.Machine.execKvshare w s
  | .kvprom w => Sys2Proof.Machine.execKvprom w s
  | .pfxfind w => Sys2Proof.Machine.execPfxfind w s
  | .pfxins w => Sys2Proof.Machine.execPfxins w s
  | .attn w => Sys2Proof.Machine.execAttn w s
  | .stnew w => Sys2Proof.Machine.execStnew w s
  | .splice w => Sys2Proof.Machine.execSplice w s
  | .stpin w => Sys2Proof.Machine.execStpin w s
  | .stunpin w => Sys2Proof.Machine.execStunpin w s
  | .cpys w => Sys2Proof.Machine.execCpys w s
  | .swcpyIn w => Sys2Proof.Machine.execSwcpyIn w s
  | .swcpyOut w => Sys2Proof.Machine.execSwcpyOut w s
  | .swcpyDec w => Sys2Proof.Machine.execSwcpyDec w s
  | .swcpyMerge w => Sys2Proof.Machine.execSwcpyMerge w s
  | .sweep w => Sys2Proof.Machine.execSweep w s
  | .fetchkv => Sys2Proof.Machine.execFetchkv s
  | .score => Sys2Proof.Machine.execScore s
  | .scale => Sys2Proof.Machine.execScale s
  | .mask => Sys2Proof.Machine.execMask s
  | .smax => Sys2Proof.Machine.execSmax s
  | .weigh => Sys2Proof.Machine.execWeigh s
  | .seqNext => Sys2Proof.Machine.execSeqNext s
  | .jump => Sys2Proof.Machine.execJump s
  | .flush => Sys2Proof.Machine.execFlush s
  | .seqEnd => Sys2Proof.Machine.execSeqEnd s
  | .submit => Sys2Proof.Machine.execSubmit s
  | .memwr => Sys2Proof.Machine.execMemwr s
  | .memrd => Sys2Proof.Machine.execMemrd s
  | .root => Sys2Proof.Machine.execRoot s
  | .inval => Sys2Proof.Machine.execInval s
  | .resume => Sys2Proof.Machine.execResume s
  | .hunbind => Sys2Proof.Machine.execHunbind s
  | .qcfg => Sys2Proof.Machine.execQcfg s
  | .scfg => Sys2Proof.Machine.execScfg s
  | .kvcfg => Sys2Proof.Machine.execKvcfg s
  | .seqload => Sys2Proof.Machine.execSeqload s
  | .stepgrp => Sys2Proof.Machine.execStepgrp s
  | .ftab => Sys2Proof.Machine.execFtab s
  | .collgrp => Sys2Proof.Machine.execCollgrp s
  | .rtabcfg => Sys2Proof.Machine.execRtabcfg s
  | .domcfg => Sys2Proof.Machine.execDomcfg s
  | .abort => Sys2Proof.Machine.execAbort s
  | .attest => Sys2Proof.Machine.execAttest s
  | .dhalt => Sys2Proof.Machine.execDhalt s
  | .dresume => Sys2Proof.Machine.execDresume s
  | .dread => Sys2Proof.Machine.execDread s
  | .dbrk => Sys2Proof.Machine.execDbrk s
  | .dprof => Sys2Proof.Machine.execDprof s
  | .dmaster => Sys2Proof.Machine.execDmaster s
  | .statring => Sys2Proof.Machine.execStatring s
  | .capture => Sys2Proof.Machine.execCapture s
  | .framerel => Sys2Proof.Machine.execFramerel s
  | .bundleDecode => Sys2Proof.Machine.execBundleDecode s
  | .codeFetchLine => Sys2Proof.Machine.execCodeFetchLine s
  | .pageWalk => Sys2Proof.Machine.execPageWalk s
  | .engineStart => Sys2Proof.Machine.execEngineStart s
  | .engineComplete => Sys2Proof.Machine.execEngineComplete s
  | .cpymCoreCopy => Sys2Proof.Machine.execCpymCoreCopy s
  | .bucketFire => Sys2Proof.Machine.execBucketFire s
  | .stepVoteComplete => Sys2Proof.Machine.execStepVoteComplete s
  | .fabricRequest => Sys2Proof.Machine.execFabricRequest s
  | .promotionInstall => Sys2Proof.Machine.execPromotionInstall s
  | .repRepetition => Sys2Proof.Machine.execRepRepetition s
  | .replayInject => Sys2Proof.Machine.execReplayInject s
  | .schedPass => Sys2Proof.Machine.execSchedPass s
  | .taskStart => Sys2Proof.Machine.execTaskStart s
  | .taskComplete => Sys2Proof.Machine.execTaskComplete s
  | .ageTick => Sys2Proof.Machine.execAgeTick s
  | .gangReserve => Sys2Proof.Machine.execGangReserve s
  | .swapOut => Sys2Proof.Machine.execSwapOut s
  | .teamSaved => Sys2Proof.Machine.execTeamSaved s
  | .freezeBoundary => Sys2Proof.Machine.execFreezeBoundary s
  | .boundaryStop => Sys2Proof.Machine.execBoundaryStop s
  | .deadlineExpire => Sys2Proof.Machine.execDeadlineExpire s
  | .forwardRetire => Sys2Proof.Machine.execForwardRetire s
  | .afrUpdate => Sys2Proof.Machine.execAfrUpdate s
  | .powerGate => Sys2Proof.Machine.execPowerGate s
  | .powerHold => Sys2Proof.Machine.execPowerHold s
  | .thermalTrip => Sys2Proof.Machine.execThermalTrip s
  | .powerOn => Sys2Proof.Machine.execPowerOn s
  | .firmwareAccept => Sys2Proof.Machine.execFirmwareAccept s
  | .bootRetry => Sys2Proof.Machine.execBootRetry s
  | .watchdogExpire => Sys2Proof.Machine.execWatchdogExpire s
  | .scanComplete => Sys2Proof.Machine.execScanComplete s
  | .scanAbortComplete => Sys2Proof.Machine.execScanAbortComplete s
  | .holdExpire => Sys2Proof.Machine.execHoldExpire s
  | .scrub => Sys2Proof.Machine.execScrub s
  | .preciseStop => Sys2Proof.Machine.execPreciseStop s
  | .sample => Sys2Proof.Machine.execSample s
  | .replaySubmit => Sys2Proof.Machine.execReplaySubmit s
  | .restore => Sys2Proof.Machine.execRestore s
  | .waitCycPasses => Sys2Proof.Machine.execWaitCycPasses s
  | .freezeIssueHold => Sys2Proof.Machine.execFreezeIssueHold s
  | .messageUndeliverable => Sys2Proof.Machine.execMessageUndeliverable s
  | .powerRemoved => Sys2Proof.Machine.execPowerRemoved s

end Sys2Proof.Machine
end

