-- ==== Sys2Proof/Machine/Gang.lean ====
section
/-! DEFINITION. The match of gang words (R185): how each member of a gang stands with the word that it waits with, and the cycle in which
all of them issue. -/

namespace Sys2Proof.Machine

/-- How a member stands in this cycle with the gang word that it waits with. -/
inductive GangStand
  /-- it could not issue -/
  | waits
  /-- its bundle has to read a descriptor first (R164) -/
  | reads
  /-- its bundle would trap in this cycle: ILL_ACCBANK (R71), or a cause that arises at issue (R343) -/
  | traps
  | ready
  deriving DecidableEq, Repr

/-- The slots of a bundle that would fail if it issued now (R343): each is checked against the state of this cycle, and the bundle is
kept from closing. -/
def State.issueFaults (s : State) (c : Fin 208) (k : Fin 4) (ws : List Word) (is : List Instr) : List SlotFault :=
  match s.openIssue c k ws is with
  | (s, .first i) =>
    (is.foldl (fun s j => match exec j s with | .next t => t | _ => s) { s with issue := { s.issue with slots := [i] } }).issue.faults
  | _ => []

/-- How a member stands: its word issues when nothing that it waits for is left, and no slot of its bundle fails. -/
def State.gangStand (s : State) (c : Fin 208) : GangStand :=
  match (s.coreAt c).team.gang with
  | none => .waits
  | some g =>
    let x := s.ctxAt c g.ctx
    if g.go.isSome then .waits
    else if g.rep then
      match x.rep with
      | some r => if s.mayRepeat c && r.next ≤ s.cycle then .ready else .waits
      | none => .waits
    else if !s.mayIssue c || s.cycle < x.earliest || s.fetchParked c g.ctx || s.atBreak c g.ctx then .waits
    else match s.nextBundle c g.ctx with
      | some (ws, .ok is) =>
        if s.blocks c g.ctx is then .waits
        else if s.mustPreread c g.ctx is then .reads
        else if (s.bankConflict c g.ctx s.cycle is).isSome || s.issueFaults c g.ctx ws is != [] then .traps
        else .ready
      | _ => .waits

/-- A member reads the descriptors of its gang bundle, which is to issue in the next cycle (R164). -/
def State.gangRead (s : State) (c : Fin 208) : State :=
  match s.nextBundle c (s.coreAt c).team.gangCtx with
  | some (_, .ok is) => s.prereadDesc c (s.coreAt c).team.gangCtx is
  | _ => s

/-- The members of one task: when every one could issue its word in this cycle all do, bundles in their cores' turns and repetitions
by their events. Descriptors are read in the cycle before, and a bundle that would trap does so alone and leaves the others waiting
(DEDUCED, log 34). -/
def State.gangTask (s : State) (t : Task) : State :=
  let ms := t.cores.map (fun m => (computeCore m, s.gangStand (computeCore m)))
  let go (s : State) (l : List (Fin 208 × GangStand)) : State := l.foldl (fun s m => s.updTeam m.1 (fun t => t.gangGo s.cycle)) s
  if ms.any (fun m => m.2 == .waits) then s
  else if ms.any (fun m => m.2 == .reads) then (ms.filter (fun m => m.2 == .reads)).foldl (fun s m => s.gangRead m.1) s
  else if ms.any (fun m => m.2 == .traps) then go s (ms.filter (fun m => m.2 == .traps))
  else
    (ms.filter (fun m => ((s.coreAt m.1).team.gang.map (·.rep)).getD false)).foldl (fun s m =>
      s.now (event .repRepetition (.ctx { core := m.1, ctx := (s.coreAt m.1).team.gangCtx }))) (go s ms)

/-- Does a member of the task wait with a gang word? -/
def State.gangWaits (s : State) (t : Task) : Bool :=
  t.state == .running && (t.tcb.gang == 1 || t.tcb.gang == 2) && t.cores.any (fun m => gangReady (s.coreAt (computeCore m)).team)

/-- The gang words that are matched in this cycle, before the cores' turns. -/
def State.gangMatch (s : State) : State := (s.tasks.filter s.gangWaits).foldl State.gangTask s

end Sys2Proof.Machine
end

