-- ==== Sys2Proof/Machine/Tick.lean ====
section
/-! DEFINITION. The order of work: events first, then the words of the bundle in progress, then the next core's bundle,
and with nothing left in the cycle the next cycle with all that falls due in it. -/

namespace Sys2Proof.Machine

/-! ## What falls due with a cycle -/

/-- Descriptor reads look back one cycle (R164); reservations and fences that no longer count go. -/
def Team.prune (t : Team) (cycle : Nat) : Team :=
  { t with
    undo := [], fresh := [], accRes := t.accRes.filter (fun b => cycle ≤ b.1)
    ctxs := t.ctxs.map (fun x =>
      if x.fences = [] then x
      else { x with fences := x.fences.filter (fun f => f.2.any (fun i => t.cmds.any (fun c => c.id == i && c.state != .done))) }) }

def Team.stale (t : Team) : Bool := t.undo != [] || t.fresh != [] || t.accRes != [] || t.ctxs.toList.any (fun x => x.fences != [])

def State.prune (s : State) : State :=
  allCores.foldl (fun s c => if (s.coreAt c).team.stale then s.updTeam c (fun t => t.prune s.cycle) else s) s

/-- Timers that are due, in the order in which they were set. -/
def State.dueTimers (s : State) : State :=
  { s with agenda := s.agenda ++ (s.future.filter (fun f => f.1 ≤ s.cycle)).map (·.2)
           future := s.future.filter (fun f => s.cycle < f.1) }

/-- Is a command of the stream still to take effect (R361)? -/
def State.streamBusy (s : State) (k : BitVec 3) : Bool := (s.heldCmds ++ s.agenda).any (fun e => streamOf e == some k)

/-- A packet arrives: the command that its OP names, or the answer to an OP that names none (R363). That answer, and what the
stream brings after it, waits for the commands before it (R361, R362, log 27): the packets that wait stand last. -/
def State.arrive (r : State × List HostPacket) (p : HostPacket) : State × List HostPacket :=
  let (s, kept) := r
  let op := p.header.extractLsb' 0 16
  let q := Packet.ofHeader p.stream p.header p.payload
  if kept.any (fun x => x.stream == p.stream) then (s, kept ++ [p])
  else match commandOfCode op.toNat with
  | some i => ({ s with agenda := s.agenda ++ [{ instr := i, arg := .none, pkt := some q }] }, kept)
  | none =>
    if (s.streams.get p.stream.toFin).isNone then (s, kept)
    else if s.streamBusy p.stream || s.replaying then (s, kept ++ [p])
    else ((s.captureCmd op.toNat q).send (.response p.stream (op ||| 0x8000) 0x10 q.seq 0 []), kept)

/-- The packets of the cycle, in the order in which the host sent them. -/
def State.arrivals (s : State) : State :=
  let (t, kept) := (s.inbox.filter (fun p => p.due ≤ s.cycle)).foldl State.arrive (s, [])
  { t with inbox := kept ++ s.inbox.filter (fun p => s.cycle < p.due) }

/-- Index commands fill the operand queue as it drains (R213, R214). -/
def Team.refill (t : Team) : Team :=
  match t.cmds.find? (fun c => (match c.instr with | .sidx _ => true | _ => false) && c.state == .waiting) with
  | some c => let (q, c) := sidxFill t.opq c; { t with opq := q, cmds := putCmd c t.cmds }
  | none => t

def State.refill (s : State) : State :=
  allCores.foldl (fun s c => if (s.coreAt c).team.cmds = [] then s else s.updTeam c Team.refill) s

/-- Cycles of a wheel turn (R266). -/
def turnCycles : Nat := 1024

/-- As a wheel turn begins it is settled whether it is held: every fourth one while the power controller
holds (R398; which turns are the fourth ones: DESIGN CHOICE, log 209). -/
def State.beginTurn (s : State) : State :=
  if s.cycle % turnCycles = 0 then { s with heldTurn := s.holding && s.cycle / turnCycles % 4 == 3 } else s

/-- Under a power hold no WAITLIM counts (R398); that of a halted core is made good as it resumes (R385). -/
def State.holdClocks (s : State) : State :=
  if s.heldTurn then
    allCores.foldl (fun s c =>
      if (s.coreAt c).task.isNone || (s.coreAt c).halted.isSome then s
      else s.updTeam c (fun t => { t with ctxs := t.ctxs.map (fun x => { x with blockedSince := x.blockedSince.map (· + 1) }) })) s
  else s

/-- Has the task of a command failed, or is its control core down after a reset (log 184)? -/
def State.orphaned (s : State) (h : CmdHome) : Bool :=
  match s.homeTask h, h with
  | some t, _ => t.failure.isSome
  | none, .core c => isControl c && (s.groupAt (groupOf c)).down
  | none, .frame _ _ => false

/-- Commands that wait for what will not come are abandoned (R355). -/
def State.abandonAll (s : State) : State :=
  if s.tasks.all (fun t => t.failure.isNone) && s.groups.toList.all (fun g => !g.down) then s
  else s.allCmds.foldl (fun s x => if s.orphaned x.1 then s.abandon x.1 x.2 else s) s

/-- A swap is called off: the team goes on, its results of the meantime landing first (R294). -/
def State.callOff (s : State) (t : Task) : State :=
  let s := t.cores.foldl (fun s c => s.updCore (computeCore c) (fun y =>
    { y with stallUntil := max y.stallUntil (s.cycle + 1), team := { y.team.seqResume with stopAt := none } })) s
  s.updTask t.id (fun t => { t with state := .running, due := none })

/-- Is a member of a task that is stopped ready, with the tiles of its sequencer as busy as they were? -/
def State.readyAgain (s : State) (t : Task) : Bool :=
  let u := t.cores.foldl (fun s c => s.updTeam (computeCore c) Team.seqResume) s
  t.cores.any (fun c => u.someReady (computeCore c))

/-- A stopped team whose work has performed begins its transfer (R188, R294); one that is to be swapped and is ready before that
goes on, unless its deadline has passed (R297). A halted team stays where it is (R385). -/
def State.beginSave (s : State) (t : Task) : State :=
  match t.state with
  | .saving k =>
    if s.anyHalted t then s
    else if k = .swap && !t.doomed && t.due.isNone && t.failure.isNone && s.readyAgain t then s.callOff t
    else if t.due.isNone && t.failure.isNone && t.cores.all (fun c => (s.coreAt (computeCore c)).team.settled) then
      let (d, s) := s.takeDelay
      s.updTask t.id (fun t => { t with due := some (s.cycle + d) })
    else s
  | .saved => if t.failure.isNone && s.mayResume t then s.enterResume t.id else s
  | _ => s

def State.beginSaves (s : State) : State := s.tasks.foldl State.beginSave s

/-! ## The events of a cycle -/

/-- Is a cycle that was set reached? -/
def reached (d : Option Nat) (cycle : Nat) : Bool := match d with | some n => decide (n ≤ cycle) | none => false

def eventIf (b : Bool) (i : Instr) (a : EvArg) : List Event := if b then [event i a] else []

def State.taskEvents (s : State) (t : Task) : List Event :=
  let due := reached t.due s.cycle
  eventIf (due && t.state == .placed) .taskStart (.task t.id)
    ++ eventIf (due && (match t.state with | .saving _ => !s.anyHalted t | _ => false)) .teamSaved (.task t.id)
    ++ eventIf (due && t.state == .restoring) .restore (.task t.id)
    ++ eventIf (s.cycleDue t) .waitCycPasses (.task t.id)
    ++ eventIf (s.deadlineDue t) .deadlineExpire (.task t.id)
    ++ eventIf (s.boundaryReached t) .boundaryStop (.task t.id)
    ++ eventIf (s.swapDue t) .swapOut (.task t.id)
    ++ eventIf (s.ageDue t) .ageTick (.task t.id)
    ++ eventIf (s.reserveOf t).isSome .gangReserve (.task t.id)
    ++ eventIf (s.taskOver t) .taskComplete (.task t.id)

/-- The events of one outstanding command. -/
def State.cmdEvents (s : State) (c : Fin 208) (x : Cmd) : List Event :=
  let r : CmdRef := { core := c, id := x.id }
  match x.state with
  | .queued => eventIf (x.readyAt ≤ s.cycle && x.storesBy ≤ s.cycle) .engineStart (.cmd r)
  | .done => eventIf (x.doneAt ≤ s.cycle) .engineComplete (.cmd r)
  | .waiting =>
    match x.instr with
    | .sidx _ => eventIf (sidxOver (s.coreAt c).team (ctxCount c (s.coreAt c).team) x) .engineComplete (.cmd r)
    | .cpym _ => if x.targets = [] then [event .engineStart (.cmd r)] else x.targets.map (fun m => event .cpymCoreCopy (.copy { core := c, id := x.id, target := m }))
    | _ => eventIf (awaitsDelivery x) .engineStart (.cmd r)
  | .parked _ _ _ => []

/-- Commands of saved frames: those that need no scratchpad start, and status words arrive (R34, R195). -/
def State.frameEvents (s : State) (t : Task) : List Event :=
  ((t.frames.map (fun f => f.cmds)).flatten.map (fun x => match x.state with
    | .queued => eventIf (x.readyAt ≤ s.cycle && !recordsRange x.instr) .engineStart (.cmd { core := 0, id := x.id })
    | .done => eventIf (x.doneAt ≤ s.cycle) .engineComplete (.cmd { core := 0, id := x.id })
    | _ => [])).flatten

def State.coreEvents (s : State) (c : Fin 208) : List Event :=
  let y := s.coreAt c
  let t := y.team
  eventIf (y.request == some .freeze && s.atBoundary c && (s.stoppable c).isSome) .freezeBoundary (.core c)
    ++ eventIf (y.request == some .freeze && y.requestAt + freezeGrace ≤ s.cycle && t.stopAt.isNone && !y.holdIssue) .freezeIssueHold (.core c)
    ++ eventIf (y.haltReq && (s.haltSet c).all s.quiet) .preciseStop (.core c)
    ++ (if s.mayRepeat c then ((List.finRange 4).map (fun k => match (t.ctxs.get k).rep with
          | some r => eventIf (r.next ≤ s.cycle) .repRepetition (.ctx { core := c, ctx := k })
          | none => [])).flatten else [])
    ++ (t.cmds.map (s.cmdEvents c)).flatten
    ++ (if h : c.val < 200 then y.fwd.map (fun f => event .forwardRetire (.fwd { core := ⟨c.val, h⟩, task := f.task })) else [])

/-- The microword at the micro-PC of a running sequencer (R318, R319); one that cannot be read fails the run (R323). -/
def State.seqFetch (s : State) (c : Fin 208) : State :=
  let q := (s.coreAt c).team.seq
  if !q.running || q.parked || (s.coreAt c).team.stopAt.isSome then s
  else if 1024 ≤ q.pc then s.seqFail c 5
  else match decodeMicro (storeGet 0 s.seqStore q.pc) with
    | some (i, m) => (s.updSeq c (fun q => { q with mw := m })).now (event i (.core c))
    | none => s.seqFail c 1

def State.seqFetches (s : State) : State := allCores.foldl (fun s c => if (s.coreAt c).team.seq.running then s.seqFetch c else s) s

/-- The events of the device as a whole. -/
def State.deviceEvents (s : State) : List Event :=
  (if s.stage = 6 && s.cycle % Config.cyclesPerMicro = 0 then [event .afrUpdate .none, event .powerGate .none] else [])
    ++ ((List.finRange 8).map (fun g => eventIf (s.watchdogDue g) .watchdogExpire (.group g))).flatten
    ++ eventIf s.replayDue .replaySubmit .none

def State.dueEvents (s : State) : List Event :=
  (s.tasks.map s.taskEvents).flatten ++ (allCores.map s.coreEvents).flatten ++ (s.tasks.map s.frameEvents).flatten ++ s.deviceEvents

/-- The next cycle: what has been in flight lands, timers run out, and all that is due stands on the agenda. -/
def State.tick (s : State) : State :=
  let s := { s with cycle := s.cycle + 1, turn := 0 }.beginTurn
  let s := (s.prune.land.dueTimers.retryHeld.arrivals.refill.holdClocks.abandonAll.beginSaves).seqFetches
  { s with agenda := s.agenda ++ s.dueEvents }

/-- What a cycle still holds when every core has had its turn: power-up, samples (R386), and entries of a replay buffer that
are readable in the next (R351). -/
def State.closing (s : State) : List Event :=
  eventIf (s.stage = 0) .powerOn .none
    ++ (allCores.map (fun c =>
      eventIf (s.sampleDue c) .sample (.core c)
        ++ eventIf ((s.coreAt c).team.stopAt.isNone && (s.coreAt c).team.replay.any (fun p => p.due ≤ s.cycle + 1)) .replayInject (.core c))).flatten

/-! ## The order of work -/

/-- What the machine does next. -/
inductive Turn
  /-- an instruction executes -/
  | run (i : Instr) (s : State)
  /-- a move of the machine that executes none -/
  | idle (s : State)
  /-- no power, and nothing that restores it -/
  | off
  deriving DecidableEq, Repr

/-- Set the operands of an event. -/
def State.takeEvent (s : State) (e : Event) (es : List Event) : State :=
  { s with agenda := es, ev := e.arg, pkt := e.pkt.getD s.pkt }

/-- The end of a cycle: what it still holds, or the next cycle; without power only time passes. -/
def State.endCycle (s : State) : State :=
  if !s.powered then { s with cycle := s.cycle + 1 }.dueTimers
  else if s.closing = [] then s.tick
  else { s with agenda := s.closing }

def State.turnOf (s : State) : Turn :=
  match s.agenda with
  | e :: es => .run e.instr (s.takeEvent e es)
  | [] =>
    match s.issue.slots with
    | i :: r => .run i { s with issue := { s.issue with slots := r } }
    | [] =>
      if !s.powered && s.future.isEmpty then .off
      else
        let s := if s.turn = 0 then s.gangMatch else s
        if s.agenda != [] then .idle s
        else match s.nextCore with
          | some c => match s.tryCore c with
            | (s, some i) => .run i s
            | (s, none) => .idle s
          | none => .idle s.endCycle

end Sys2Proof.Machine
end

