-- ==== Sys2Proof/Machine/Place.lean ====
section
/-! DEFINITION. How an instruction is placed where the next step fetches it (log 14): an op word in a code line of core 0
(or of control core 0 for a word of the control cores), a microword in the control store of a running sequencer, a packet
on stream 0. -/

namespace Sys2Proof.Machine

/-- The partition of the placed team: one context, 56 vector registers, all tiles (R23, R24). -/
def placePart : Word := BitVec.ofNat 64 (1 <<< 20 + 2 <<< 18 + 256 <<< 9 + 7)

def placeTcb : Tcb :=
  { cbase := 0, eoff := 0, asid := 0, queue := 0, barf := false, prio := 0, grade := 0, gang := 0, aff := 0
    part := placePart, htab := 0, nsucc := 0, crmax := 0, crec := 0, deadline := 0, fps := [], succs := [] }

/-- The task that runs on core 0. -/
def placeTask : Task :=
  { id := 0, tcba := 0, subAsid := 0, tcb := placeTcb, queue := 0, order := 0, prio := 0, waitFrom := none, aged := false
    host := none, state := .running, due := none, front := false, dest := none, doomed := false, dep := 0, mark := none
    cores := [0], started := 0, frames := [], failure := none, err := 0, late := false, errMember := 0, areas := [], unmapped := [], pins := [], victimFor := none
    cluBars := Vector.replicate 6 (Vector.replicate 16 Barrier.reset), stkBars := Vector.replicate 16 Barrier.reset }

/-- Does the word run only on a control core? -/
def controlOnly (i : Instr) : Bool := !i.whereOk false

/-- The code line: the word with STOP set, or the word and its IMM word with STOP set, so that the bundle is this
instruction alone. -/
def placeLine (nbits w : Nat) : BitVec 512 :=
  if nbits ≤ 64 then BitVec.ofNat 512 (w % 2 ^ 64 ||| 2 ^ 63) else BitVec.ofNat 512 (w % 2 ^ 128 ||| 2 ^ 127)

/-- Core `c` about to fetch at PC 0. -/
def placeCore (y : Core) (control : Bool) (line : BitVec 512) : Core :=
  { y with
    task := if control then none else some 0, firmware := control, stopped := false, haltReq := false, halted := none
    holdIssue := false, fetching := none, gated := false, stallUntil := 0, ibuf := [(0, line)]
    scan := ScanState.reset
    team := { y.team with
      cur := 0, part := placePart, gang := none, stopAt := none
      ctxs := y.team.ctxs.set 0 { y.team.ctxs.get 0 with
        pc := 0, loop := none, rep := none, retired := false, stopped := none, earliest := 0, blockedSince := none
        preread := none } } }

/-- A word in the instruction buffer. A word that reads a descriptor finds it read in the cycle before. -/
def State.placeOp (s : State) (nbits w : Nat) (i : Instr) : State :=
  let ctl := controlOnly i
  let c : Fin 208 := if ctl then 200 else 0
  let s := s.updCore c (fun y => placeCore y ctl (placeLine nbits w))
  let s := s.updCtx c 0 (fun x => { x with preread := if (descAddr x i).isSome then some { due := s.cycle, ld := 0, mx := 0, ldEarly := none, mxEarly := none } else none })
  { s with tasks := if ctl then s.tasks else placeTask :: s.tasks.filter (fun t => t.id != 0)
           powered := true, stage := 6, holding := false, heldTurn := false, agenda := [], issue := Issue.reset, turn := c.val }

/-- An instruction placed for the next step. -/
def State.place (s : State) (nbits w : Nat) : State :=
  if nbits ≤ 64 then
    match decodeWord (BitVec.ofNat 64 w) none with
    | some i => s.placeOp nbits w i
    | none => s
  else if nbits ≤ 96 then
    match decodeMicro (BitVec.ofNat 96 w) with
    | some (i, m) =>
      let s := s.updTeam 0 (fun t => { t with seq := { t.seq with running := true, mw := m } })
      { s with powered := true, stage := 6, agenda := [event i (.core 0)], seqStore := storePutD 0 s.seqStore (s.coreAt 0).team.seq.pc (BitVec.ofNat 96 w) }
    | none => s
  else if nbits ≤ 128 && isImmWord (BitVec.ofNat 64 (w >>> 64)) then
    match decodeWord (BitVec.ofNat 64 w) (some (BitVec.ofNat 64 (w >>> 64))) with
    | some i => s.placeOp nbits w i
    | none => s
  else
    match decodePacket 0 (BitVec.ofNat 256 w) [] with
    | some (i, p) => { s with powered := true, stage := 6, streams := s.streams.set 0 (some 0), agenda := [{ instr := i, arg := .none, pkt := some p }] }
    | none => s

end Sys2Proof.Machine
end

