-- ==== Sys2Proof/Machine/Step.lean ====
section
/-! DEFINITION. One step of the machine, and the state that fetches a given instruction next. -/

namespace Sys2Proof.Machine

/-- One step: what is next in the order of work. -/
def step (s : State) : Host.Outcome State Fault Refusal :=
  match s.turnOf with
  | .run i s => exec i s
  | .idle s => .next s
  | .off => .fault .powerOff

/-- The state with an instruction placed so that the next step runs it (log 14). -/
def State.withFetchWord (s : State) (nbits w : Nat) : State := s.place nbits w

end Sys2Proof.Machine
end

