-- ==== Sys2Proof/Safety.lean ====
section
/-! DEFINITION. The words of the statements: memories in canonical form, a bundle of one word that issues without a
hazard, and what its issue changes. -/

namespace Sys2Proof.Machine

/-- Every memory of the state is in its canonical form: device memory, the scratchpads, and those that saved frames keep. -/
def State.memWf (s : State) : Prop :=
  Memory.wf s.mem = true ∧ (∀ c : Fin 208, Memory.wf (s.coreAt c).team.spad = true)
    ∧ ∀ t ∈ s.tasks, ∀ f ∈ t.frames, Memory.wf f.spad = true

/-- The bundle in progress is one word, outside a loop: nothing before it has done anything, and nothing is to come. -/
def State.lone (s : State) : Prop :=
  s.issue.slots = [] ∧ s.issue.effects = [] ∧ s.issue.faults = [] ∧ s.ictx.activeLoop = none

/-- A lone word that acts and meets no hazard: a scalar form's guard holds (R40), no token that it would write is pending
(R26), and with CHKEN no result in flight is read too early (R75). `r` gives the maps, vector registers and scratchpad
bytes that the word reads. -/
def State.unhindered (s : State) (i : Instr) (h : Head) (r : SlotRes) : Prop :=
  s.lone ∧ (scalarForm i = true → s.ictx.guardBit h = true) ∧ tokenFaults s.ictx i.refs = []
    ∧ stallFaults s.cycle s.issue.seq s.issue.ctx s.ictx s.icore.team i.refs i.guardP r = []

/-- An act of the issuing context, in flight for `lat` cycles. -/
def State.flight (s : State) (u : UnitCode) (lat : Nat) (a : Act) : Pend :=
  { due := s.cycle + lat, seq := s.issue.seq, unit := u, ctx := s.issue.ctx, baddr := s.issue.baddr, act := a }

/-- What the issue of a bundle changes by itself (R39, R74): the context goes on at the next bundle no earlier than the
stall allows, the accumulator banks that its words use are reserved (R71 step 5), and the acts given are in flight. Everything
else stands as before. -/
def State.issued (s : State) (u : UnitCode) (acts : List (Nat × Act)) : State :=
  s.updCore s.issue.core (fun y => { y with
    stallUntil := s.cycle + 1 + s.issue.stall
    lastIssue := some (s.cycle, s.issue.ctx, s.issue.baddr)
    team := { y.team with
      pend := acts.foldl (fun l a => insertPend l (s.flight u a.1 a.2)) y.team.pend
      accRes := (y.team.reserveBanks s.ictx s.cycle s.issue.all).accRes
      ctxs := y.team.ctxs.set s.issue.ctx { y.team.ctxs.get s.issue.ctx with
        pc := s.issue.next, earliest := s.cycle + 1 + s.issue.stall, blockedSince := none, blockedOn := []
        preread := none, brkPass := false } } })

/-- The record of the bundle in progress replaced. -/
def State.withIssue (s : State) (q : Issue) : State := { s with issue := q }

/-- The instruction answers the next state `t`, but for the record of the bundle in progress, which is over. -/
def State.gives (s : State) (i : Instr) (t : State) : Prop :=
  ∃ q : Issue, q.slots = [] ∧ exec i s = .next (t.withIssue q)

/-- A map as it is installed by a word that writes the registers `ds`: NONE when it names one of them as a carrier, but for
the word's own carrier destination (R19). -/
def keptMap (k : Fin 4) (ds : List Nat) (own : Option Nat) (m : MapBits) : MapBits :=
  if ds.any (fun d => mapNames m k.val d && own != some d) then 0 else m

/-- An act with its map as it is installed. -/
def Act.kept (k : Fin 4) (ds : List Nat) : Act → Act
  | .setV r x mask m data own => .setV r x mask (m.map (keptMap k ds own)) data own
  | .reads j => .reads { j with map := j.map.map (keptMap k ds j.own) }
  | a => a

/-- The vector register whose data an act writes. -/
def Act.writesV : Act → Option Nat
  | .setV r _ _ _ d _ => if d then some r else none
  | .reads j => some j.dst
  | _ => none

/-- An issue whose acts write vector registers and install maps. -/
def State.installs (s : State) (u : UnitCode) (acts : List (Nat × Act)) : State :=
  s.issued u (acts.map (fun a => (a.1, a.2.kept s.issue.ctx (acts.filterMap (fun a => a.2.writesV)))))

/-- What a bundle of several words changes whose acts, with their units, are these: the PC moves on once, the banks are reserved,
and the acts are in flight together; a map that names a carrier which the bundle writes is NONE (R6, R10, R19, R343). -/
def State.together (s : State) (acts : List (UnitCode × Nat × Act)) : State :=
  let written := acts.filterMap (fun a => a.2.2.writesV.map (fun r => (a.1, r)))
  (s.issued .sy []).updTeam s.issue.core (fun t => { t with
    pend := acts.foldl (fun l a => insertPend l (s.flight a.1 a.2.1 (bundleAct written s.issue.ctx.val a.1 a.2.2))) t.pend })

/-- The exceptions of the issuing word, counted and recorded (R123). -/
def State.raises (s : State) (u : UnitCode) (es : List Exc) : State :=
  s.recordExc s.issue.core s.issue.baddr u.code (countExc es) false

/-- What the trap of a lone word at issue changes (R90, R343, R344): its trap registers, with the address of the bundle and the
unit's bit in TMASK; TE closes, HND is set, a loop is suspended, and the context goes on at TVEC no earlier than two cycles
later. Everything else stands as before. -/
def State.trapped (s : State) (u : UnitCode) (e : Cause) (v : Word) : State :=
  (s.updCore s.issue.core (fun y => { y with
    stallUntil := max y.stallUntil (s.cycle + 1), lastIssue := some (s.cycle, s.issue.ctx, s.issue.baddr) })).updCtx s.issue.core
      s.issue.ctx (fun x => { x with
        tcause := e.code, tpc := s.issue.baddr, tval := v, tmask := BitVec.ofNat 11 (2 ^ u.code.toNat), te := false, hnd := true
        loop := suspendLoop x.loop, pc := x.tvec, earliest := s.cycle + 2, blockedSince := none, blockedOn := [], preread := none
        brkPass := false })

/-- Traps are open and a handler is set (R345). -/
def State.open_ (s : State) : Prop := s.ictx.te = true ∧ s.ictx.tvec ≠ 0

/-- The word meets no hazard and traps with the cause and value given. -/
def State.traps (s : State) (i : Instr) (h : Head) (r : SlotRes) (e : Cause) (v : Word) : Prop :=
  s.unhindered i h r → s.open_ → s.gives i (s.trapped h.unit e v)

/-- The team that issues, changed. -/
def State.updOwn (s : State) (f : Team → Team) : State := s.updTeam s.issue.core f

/-- The context that issues, changed. -/
def State.updSelf (s : State) (f : Ctx → Ctx) : State := s.updCtx s.issue.core s.issue.ctx f

/-- The word passes its checks, meets no hazard and writes one vector register: element j, of b bits, is `f j` modulo 2^b
for every j, `lat` cycles after issue, under the guard, with the map given (none keeps the register's). `chk` gives the
checks of the word and the maps and registers that it reads. -/
def State.writesVec (s : State) (i : Instr) (w : RWord) (chk : SlotRes) (lat b : Nat) (map : Option MapBits) (f : Nat → Int) : Prop :=
  chk.faults = [] → s.unhindered i w.hd chk →
    ∃ x : VecBits, (∀ j < elemCount b, (elem x j b : Int) = f j % (2 ^ b : Nat))
      ∧ s.gives i (s.installs w.hd.unit [(lat, .setV w.dst.toNat x (guardMask (s.ictx.guard w.hd) b) map true none)])

/-- The same for a float result: element j is the pattern of `f j`, and the exceptions of the elements that the guard `g`
selects, of those numbered below n, are recorded. -/
def State.writesFloat (s : State) (i : Instr) (w : RWord) (chk : SlotRes) (lat b n : Nat) (g : PredBits) (map : Option MapBits)
    (f : Nat → Nat × Exc) : Prop :=
  chk.faults = [] → s.unhindered i w.hd chk →
    ∃ x : VecBits, (∀ j < elemCount b, elem x j b = (f j).1 % 2 ^ b)
      ∧ s.gives i ((s.installs w.hd.unit [(lat, .setV w.dst.toNat x (guardMask g b) map true none)]).raises w.hd.unit
        (((List.range n).filter (active g b)).map (fun j => (f j).2)))

/-- The same for a predicate: all bits of element j, of b bits, are set when `f j` holds and clear otherwise. -/
def State.writesPred (s : State) (i : Instr) (w : RWord) (chk : SlotRes) (lat b : Nat) (es : List Exc) (f : Nat → Bool) : Prop :=
  8 ≤ b → chk.faults = [] → s.unhindered i w.hd chk →
    ∃ x : PredBits, (∀ j < 512, x.getLsbD j = f (j / (b / 8)))
      ∧ s.gives i ((s.issued w.hd.unit [(lat, .setP (w.dst.extractLsb' 0 4) x (predMask (s.ictx.guard w.hd) b))]).raises w.hd.unit es)

/-- The checks and reads of a word with the vector sources given: its pseudo-operands, the maps that it takes and reads
through, the registers that it reads. -/
def State.vecChk (s : State) (w : RWord) (srcs : List Reg6) : SlotRes :=
  { faults := s.ictx.pseudoFaults w.dst.toNat srcs, maps := mapReads w.dst.toNat srcs, data := some (realV srcs) }

/-- The state in which the host's command at hand runs: one that arrives while streams are captured has been kept (R387). -/
def State.taken (s : State) (i : Instr) : State :=
  if s.ev = .none then s.captureCmd (i.hostOp.getD 0).toNat s.pkt else s

/-- The host's command at hand runs: its packet is well formed (R361), and when it arrives its stream is open and no command
before it waits. -/
def State.takes (s : State) (i : Instr) : Prop :=
  packetBad s.pkt = false ∧ (s.ev = .none → (s.streams.get s.pkt.stream.toFin).isSome ∧ (s.taken i).mustWait s.pkt i = false)

/-- The command runs, its arguments have only the bits that its row names, and it is answered in the state given (R361 to
R363). -/
def State.answers (s : State) (i : Instr) (op : Nat) (t : State) (a : Answer) : Prop := s.takes i → exec i s = .next (t.respond op a)

/-- A debug request is for this device: the master forwards nothing (R383). -/
def State.takesDebug (s : State) : Prop :=
  s.pkt.arg0.extractLsb' 24 40 = 0
    ∧ ((∃ ep b, s.ev = .master ep b) ∨ (debugAllDev s.pkt = false ∧ debugDevice s.pkt = s.device.toNat))

/-- The micro-operation at hand runs on core c: the sequencer runs, is not parked, and no reserved field is set. -/
def State.sequences (s : State) (c : Fin 208) (i : Instr) : Prop :=
  s.ev = .core c ∧ (s.coreAt c).team.seq.running = true ∧ (s.coreAt c).team.seq.parked = false
    ∧ i.microOk (s.coreAt c).team.seq.mw = true

/-- The micro-PC moves on (R320). -/
def Team.seqOn (t : Team) : Team := { t with seq := { t.seq with pc := t.seq.pc + 1 } }

/-! ## Engine commands that start -/

/-- A command that has not begun. -/
def Cmd.fresh (c : Cmd) : Prop := c.state = .queued ∧ c.blob = [] ∧ c.moved = 0 ∧ c.pin = none ∧ c.exc = ExcCount.zero ∧ c.seqs = [] ∧ c.aux = 0

/-- A command has ended with the ERR and VAL given; its word is still to be written. -/
def Cmd.ended (c : Cmd) (err : BitVec 7) (value : Nat) : Prop := c.state = .done ∧ c.err = err ∧ c.value = BitVec.ofNat 56 value

/-- The command runs and ends at once; nothing else has changed but the list of latencies. -/
def State.endsAtOnce (s : State) (e : Eng) (c : Cmd) (err : BitVec 7) (value : Nat) : Prop :=
  (s.runCmd e c).2.ended err value ∧ (s.runCmd e c).1 = { s with delays := s.delays.tail }

/-- The ERR of a copy by its register operands, before it reads its view (R201, R202, R232, R405). -/
def State.operandErr (s : State) (e : Eng) (c : Cmd) : Option (BitVec 7) :=
  match c.instr with
  | .cpym _ => if s.maskMembers e.core c.b = none then some 0x10 else none
  | .cpyh _ => if 2 ^ 16 ≤ c.b.toNat then some 0x02 else none
  | .cpys _ => if 2 ^ 16 ≤ c.b.toNat ∨ 2 ^ 32 ≤ c.c.toNat then some 0x02 else none
  | _ => none

/-- Does the command read a view descriptor (R198)? -/
def readsView : Instr → Prop
  | .cpy _ | .cpym _ | .cpyh _ | .cpys _ | .swcpyIn _ | .swcpyOut _ | .swcpyDec _ | .swcpyMerge _ => True
  | _ => False

/-- The view is one part, n elements from scratchpad offset `a` on, whose memory lies at physical address `pa` on a page that
is not TAGGED, with no poison there; `t` is the state once it is translated. -/
def State.onePart (s : State) (e : Eng) (ps : List Part) (acc : Access) (bytes a n pa : Nat) (t : State) : Prop :=
  ∃ p : Part, ps = [p] ∧ p.at_ = 0 ∧ p.spad = a ∧ p.n = n ∧ s.translate e.tlb e.asid p.va acc = (t, .ok (pa, false))
    ∧ t.firstPoison pa (bytes * n) = none

/-- Every byte of a memory outside n bytes from `a` on is as before. -/
def keepsOutside (m m' : Memory) (a n : Nat) : Prop := ∀ b, b < a ∨ a + n ≤ b → memGet m' b = memGet m b

end Sys2Proof.Machine
end

