-- ==== Sys2Proof/Certificates/Slice0/Obligations.lean ====
section
/-! DEFINITION. The statements for the provers. -/

open Sys2Proof Sys2Proof.Machine

/-! ## Scalar, address and predicate instructions -/

/-- The integer instructions of S0 and S1 that write a scalar register (R95, R97, R98): each completes, with its result in
flight for its latency (R73) and nothing else changed but the context's PC and its issue times.
The immediate forms (R97): the immediate is IMM19 or, with an IMM word, VALUE, sign-extended; `MOVL` puts VALUE below the
low byte of sA. -/
def Obligations.ScalarIntegerAndImmediateResults : Prop :=
  (
  ∀ (s : State) (w : RWord),
    let x := s.ictx.sReg w.a
    let y := s.ictx.sReg w.b
    let sets (i : Instr) (lat : Nat) (v : Word) : Prop :=
      s.unhindered i w.hd {} → s.gives i (s.issued w.hd.unit [(lat, .setS w.dst v)])
    sets (.add w) 1 (x + y) ∧ sets (.sub w) 1 (x - y) ∧ sets (.mul w) 3 (x * y)
      ∧ sets (.mulh w) 3 (BitVec.ofInt 64 (x.toInt * y.toInt / 2 ^ 64))
      ∧ sets (.div w) 20 (sExt w.ty (if sVal w.ty y = 0 then -1 else (sVal w.ty x).tdiv (sVal w.ty y)))
      ∧ sets (.rem w) 20 (sExt w.ty (if sVal w.ty y = 0 then sVal w.ty x else (sVal w.ty x).tmod (sVal w.ty y)))
      ∧ sets (.mov w) 1 x ∧ sets (.and w) 1 (x &&& y) ∧ sets (.or w) 1 (x ||| y) ∧ sets (.xor w) 1 (x ^^^ y)
      ∧ sets (.andn w) 1 (x &&& ~~~y)
      ∧ sets (.shl w) 1 (x <<< (y.toNat % 64)) ∧ sets (.shr w) 1 (x >>> (y.toNat % 64))
      ∧ sets (.sra w) 1 (x.sshiftRight (y.toNat % 64)) ∧ sets (.rot w) 1 (x.rotateLeft (y.toNat % 64))
      ∧ sets (.clz w) 1 (BitVec.ofNat 64 (if x = 0 then 64 else 63 - Nat.log2 x.toNat))
      ∧ sets (.popc w) 1 (BitVec.ofNat 64 ((List.range 64).countP (fun i => x.getLsbD i)))
      ∧ sets (.min w) 1 (sExt w.ty (if sVal w.ty x ≤ sVal w.ty y then sVal w.ty x else sVal w.ty y))
      ∧ sets (.max w) 1 (sExt w.ty (if sVal w.ty x ≤ sVal w.ty y then sVal w.ty y else sVal w.ty x))
      ∧ sets (.sel w) 1 (if (s.ictx.pReg (w.c.extractLsb' 0 4)).getLsbD 0 then x else y)
      ∧ sets (.cmpS w) 1 (if intCc (w.fn.toNat % 16) (sVal w.ty x) (sVal w.ty y) then 1 else 0)
      ∧ sets (.asetS w) 1 (s.ictx.aReg (w.a.extractLsb' 0 4))
  ) ∧ (
  ∀ s : State,
    (∀ w : IWord, s.unhindered (.addi w) w.hd {} →
      s.gives (.addi w) (s.issued w.hd.unit [(1, .setS w.dst (s.ictx.sReg w.a + (match w.hd.imm with
        | some m => m.value.signExtend 64
        | none => w.imm19.signExtend 64)))]))
      ∧ (∀ w : IWord, s.unhindered (.movi w) w.hd {} →
      s.gives (.movi w) (s.issued w.hd.unit [(1, .setS w.dst (match w.hd.imm with
        | some m => m.value.signExtend 64
        | none => w.imm19.signExtend 64))]))
      ∧ (∀ (w : LWord) (m : ImmWord), w.hd.imm = some m → s.unhindered (.movl w) w.hd {} →
      s.gives (.movl w) (s.issued w.hd.unit [(1, .setS w.dst (((s.ictx.sReg w.a).extractLsb' 0 8) ++ m.value))]))
  )

/-- The instructions that write an address register (R98): the fields that are not named keep their value, and OFF moves as
R12 gives it.
The instructions that write a whole predicate register (R95, R101). -/
def Obligations.AddressAndPredicateResults : Prop :=
  (
  ∀ s : State,
    (∀ w : IWord,
      let x := s.ictx.aReg (w.a.extractLsb' 0 4)
      let d := w.dst.extractLsb' 0 4
      (s.unhindered (.aadd w) w.hd {} → ∃ v : Word, s.gives (.aadd w) (s.issued w.hd.unit [(1, .setA d v)])
        ∧ areaOff v = areaAddr x w.immInt % 2 ^ 24 ∧ v.extractLsb' 24 40 = x.extractLsb' 24 40)
        ∧ (s.unhindered (.ainc w) w.hd {} → -8388608 ≤ w.immInt → w.immInt ≤ 8388607 →
          ∃ v : Word, s.gives (.ainc w) (s.issued w.hd.unit [(1, .setA d v)])
            ∧ areaInc v = w.immInt ∧ areaOff v = areaOff x ∧ areaMod v = areaMod x)
        ∧ (s.unhindered (.amod w) w.hd {} → 0 ≤ w.immInt → w.immInt ≤ 65535 →
          ∃ v : Word, s.gives (.amod w) (s.issued w.hd.unit [(1, .setA d v)])
            ∧ (areaMod v : Int) = w.immInt ∧ areaOff v = areaOff x ∧ areaInc v = areaInc x))
      ∧ (∀ w : RWord, s.unhindered (.asetA w) w.hd {} →
        s.gives (.asetA w) (s.issued w.hd.unit [(1, .setA (w.dst.extractLsb' 0 4) (s.ictx.sReg w.a))]))
  ) ∧ (
  ∀ (s : State) (w : RWord),
    let p := s.ictx.pReg (w.a.extractLsb' 0 4)
    let q := s.ictx.pReg (w.b.extractLsb' 0 4)
    let sets (i : Instr) (v : PredBits) : Prop :=
      s.unhindered i w.hd {} → s.gives i (s.issued w.hd.unit [(1, .setP (w.dst.extractLsb' 0 4) v (BitVec.allOnes 512))])
    sets (.pand w) (p &&& q) ∧ sets (.por w) (p ||| q) ∧ sets (.pxor w) (p ^^^ q) ∧ sets (.pnot w) (~~~p) ∧ sets (.pmov w) p
      ∧ sets (.cmpP w) (if intCc (w.fn.toNat % 16) (sVal w.ty (s.ictx.sReg w.a)) (sVal w.ty (s.ictx.sReg w.b))
          then BitVec.allOnes 512 else 0)
  )

/-- Division does not trap (R96): a zero divisor gives a quotient with all bits of the type set and the dividend as remainder,
and the type minimum divided by -1 gives the minimum and 0. -/
def Obligations.DivisionCorners : Prop :=
  ∀ (s : State) (w : RWord), w.ty.toNat ≤ 6 →
    let n := sWidth w.ty
    let x := sVal w.ty (s.ictx.sReg w.a)
    let y := sVal w.ty (s.ictx.sReg w.b)
    let results (q r : Word) : Prop :=
      (s.unhindered (.div w) w.hd {} → s.gives (.div w) (s.issued w.hd.unit [(20, .setS w.dst q)]))
        ∧ (s.unhindered (.rem w) w.hd {} → s.gives (.rem w) (s.issued w.hd.unit [(20, .setS w.dst r)]))
    (y = 0 → ∃ q r : Word, results q r ∧ q.toNat % 2 ^ n = 2 ^ n - 1 ∧ sVal w.ty q = (if w.ty = 0 ∨ tySigned w.ty then -1 else 2 ^ n - 1)
        ∧ sVal w.ty r = x)
      ∧ (x = -2 ^ (n - 1) → y = -1 → ∃ q r : Word, results q r ∧ sVal w.ty q = -2 ^ (n - 1) ∧ r = 0)

/-- The scalar float instructions (R99, R100): operands are the low bits of their registers, the exact result is rounded once
by RND, and the exceptions are recorded (R123). -/
def Obligations.ScalarFloatResults : Prop :=
  ∀ (s : State) (w : RWord),
    let f := fmtOf w.ty
    let x := f.decode ((s.ictx.sReg w.a).toNat % 2 ^ f.width)
    let y := f.decode ((s.ictx.sReg w.b).toNat % 2 ^ f.width)
    let z := f.decode ((s.ictx.sReg w.c).toNat % 2 ^ f.width)
    let mode : RMode := if w.rnd = 1 then .rtz else .rne
    let u := w.hd.unit
    let rounds (i : Instr) (v : FVal × Exc) : Prop :=
      s.unhindered i w.hd {} →
        s.gives i ((s.issued u [(4, .setS w.dst (BitVec.ofNat 64 (f.deliver mode v.1).1))]).raises u [v.2.or (f.deliver mode v.1).2])
    let picks (i : Instr) (v : FVal × Exc) : Prop :=
      s.unhindered i w.hd {} → s.gives i ((s.issued u [(4, .setS w.dst (BitVec.ofNat 64 (f.exact v.1)))]).raises u [v.2])
    let cc := floatCc (w.fn.toNat % 16) x y
    rounds (.fadd w) (fAdd x y) ∧ rounds (.fsub w) (fSub x y) ∧ rounds (.fmul w) (fMul x y) ∧ rounds (.fma w) (fFma x y z)
      ∧ picks (.fmin w) (fMinMax false x y) ∧ picks (.fmax w) (fMinMax true x y)
      ∧ (s.unhindered (.fcmpS w) w.hd {} →
        s.gives (.fcmpS w) ((s.issued u [(4, .setS w.dst (if cc.1 then 1 else 0))]).raises u [cc.2]))
      ∧ (s.unhindered (.fcmpP w) w.hd {} →
        s.gives (.fcmpP w) ((s.issued u [(4, .setP (w.dst.extractLsb' 0 4) (if cc.1 then BitVec.allOnes 512 else 0)
          (BitVec.allOnes 512))]).raises u [cc.2]))
      ∧ (s.unhindered (.fcvt w) w.hd {} →
        s.gives (.fcvt w) ((s.issued u [(4, .setS w.dst (fcvtOf w (s.ictx.sReg w.a)).1)]).raises u [(fcvtOf w (s.ictx.sReg w.a)).2]))

/-! ## Vector instructions -/

/-- The element-wise integer instructions (R128): exact on the operands as the type reads them, then modulo 2^w, latency 2,
with the map of the first real source (R126). -/
def Obligations.VectorIntegerResults : Prop :=
  ∀ (s : State) (w : RWord),
    let ty := vTy w.ty
    let n := tyWidth ty
    let src (l : List Reg6) (r : Reg6) : Nat → Int := s.ictx.isrc w (srcMapReg w.dst.toNat l) ty r
    let ab := [w.a, w.b]
    let a := src ab w.a
    let b := src ab w.b
    let pa (j : Nat) : Nat := (a j % (2 ^ n : Nat)).toNat
    let pb (j : Nat) : Nat := (b j % (2 ^ n : Nat)).toNat
    let lo : Int := if tySigned ty then -2 ^ (n - 1) else 0
    let hi : Int := if tySigned ty then 2 ^ (n - 1) - 1 else 2 ^ n - 1
    let two (i : Instr) (f : Nat → Int) : Prop := s.writesVec i w (s.vecChk w ab) 2 n (s.ictx.mapE ab) f
    let one (i : Instr) (f : Nat → Int) : Prop := s.writesVec i w (s.vecChk w [w.a]) 2 n (s.ictx.mapE [w.a]) f
    two (.vadd w) (fun j => a j + b j) ∧ two (.vsub w) (fun j => a j - b j) ∧ two (.vmul w) (fun j => a j * b j)
      ∧ two (.vadds w) (fun j => max lo (min hi (a j + b j))) ∧ two (.vsubs w) (fun j => max lo (min hi (a j - b j)))
      ∧ two (.vmulh w) (fun j => a j * b j / 2 ^ n)
      ∧ two (.vmin w) (fun j => if a j ≤ b j then a j else b j) ∧ two (.vmax w) (fun j => if a j ≤ b j then b j else a j)
      ∧ two (.vand w) (fun j => (pa j &&& pb j : Nat)) ∧ two (.vor w) (fun j => (pa j ||| pb j : Nat))
      ∧ two (.vxor w) (fun j => (pa j ^^^ pb j : Nat))
      ∧ two (.vshl w) (fun j => pa j * 2 ^ (pb j % n)) ∧ two (.vshr w) (fun j => pa j / 2 ^ (pb j % n))
      ∧ two (.vsra w) (fun j => intOf n true (pa j) / 2 ^ (pb j % n))
      ∧ one (.vabs w) (fun j => |src [w.a] w.a j|) ∧ one (.vneg w) (fun j => -src [w.a] w.a j)
      ∧ s.writesVec (.vmad w) w (s.vecChk w [w.a, w.b, w.c]) 2 n (s.ictx.mapE [w.a, w.b, w.c])
        (fun j => src [w.a, w.b, w.c] w.a j * src [w.a, w.b, w.c] w.b j + src [w.a, w.b, w.c] w.c j)

/-- Selection, moves and broadcasts (R132).
Vector comparisons (R131): each element sets or clears all its bits of the predicate, under the guard. That a pseudo-operand of
a comparison has the map NONE (log 16) and that guard-active elements alone raise exceptions (log 42) are the model's
choices, and so is the width of TYPE 0 of `VSEL`, `VMOV` and `VBCAST` (log 40). -/
def Obligations.VectorMoveAndCompareResults : Prop :=
  (
  ∀ (s : State) (w : RWord),
    let n := tyWidth w.ty
    let ab := [w.a, w.b]
    let src (l : List Reg6) (r : Reg6) (j : Nat) : Nat := s.ictx.src w.hd (srcMapReg w.dst.toNat l) r n j
    s.writesVec (.vsel w) w { s.vecChk w ab with maps := realV ab ++ mapReads w.dst.toNat ab } 2 n
        (if w.a.toNat < 56 ∧ w.b.toNat < 56 ∧ s.ictx.mapOf w.a.toNat ≠ s.ictx.mapOf w.b.toNat then some 0 else s.ictx.mapE ab)
        (fun j => if (s.ictx.pReg (w.c.extractLsb' 0 4)).getLsbD (n / 8 * j) then src ab w.a j else src ab w.b j)
      ∧ s.writesVec (.vmov w) w (s.vecChk w [w.a]) 2 n (s.ictx.mapE [w.a]) (fun j => src [w.a] w.a j)
      ∧ s.writesVec (.vbcastS w) w (s.vecChk w []) 2 n none (fun _ => (s.ictx.sReg w.a).toNat)
      ∧ s.writesVec (.vbcastE w) w (s.vecChk w [w.a]) 2 n (s.ictx.mapE [w.a]) (fun _ => src [w.a] w.a (w.fn.toNat % 512))
  ) ∧ (
  ∀ (s : State) (w : RWord),
    let ab := [w.a, w.b]
    let mr := srcMapReg noMapReg ab
    let chk : SlotRes :=
      { faults := s.ictx.pseudoFaults noMapReg ab, maps := if ab.any mapPseudo then [mr] else [], data := some (realV ab) }
    let cc (j : Nat) : Bool × Exc := floatCc (w.fn.toNat % 16) (s.ictx.fsrc w mr (fTy w.ty) w.a j) (s.ictx.fsrc w mr (fTy w.ty) w.b j)
    let n := tyWidth (fTy w.ty)
    s.writesPred (.vcmp w) w chk 2 (tyWidth (vTy w.ty)) []
        (fun j => intCc (w.fn.toNat % 16) (s.ictx.isrc w mr (vTy w.ty) w.a j) (s.ictx.isrc w mr (vTy w.ty) w.b j))
      ∧ s.writesPred (.vfcmp w) w chk 4 n (((List.range (elemCount n)).filter (active (s.ictx.guard w.hd) n)).map (fun j => (cc j).2))
        (fun j => (cc j).1)
  )

/-- The element-wise float instructions (R130): the exact result of the operands, rounded once by RND at the element's
coordinates (R110); `VFMIN`, `VFMAX` and `VFABS` deliver an operand. That guard-active elements alone raise exceptions is the
model's choice (log 42). -/
def Obligations.VectorFloatResults : Prop :=
  ∀ (s : State) (w : RWord),
    let ty := fTy w.ty
    let n := tyWidth ty
    let N := elemCount n
    let g := s.ictx.guard w.hd
    let src (l : List Reg6) (r : Reg6) (j : Nat) : FVal := s.ictx.fsrc w (srcMapReg w.dst.toNat l) ty r j
    let rounds (i : Instr) (l : List Reg6) (f : Nat → FVal × Exc) : Prop :=
      let map := s.ictx.mapE l
      let m := map.getD (s.ictx.mapOf w.dst.toNat)
      s.writesFloat i w
        { faults := s.ictx.pseudoFaults w.dst.toNat l ++ s.ictx.srFaults w.rnd w.dst.toNat map
          maps := mapReads w.dst.toNat l ++ (if w.rnd = 2 ∧ map.isNone then [w.dst.toNat] else []), data := some (realV l) }
        4 n N g map (fun j =>
          let d := (fmtOf ty).deliver (s.ictx.rmode s.gstep w.rnd (w.fn.toNat % 256) m j) (f j).1
          (d.1, (f j).2.or d.2))
    let ab := [w.a, w.b]
    let a := src ab w.a
    let b := src ab w.b
    let abc := [w.a, w.b, w.c]
    let picks (i : Instr) (f : Nat → FVal × Exc) : Prop :=
      s.writesFloat i w (s.vecChk w ab) 4 n N g (s.ictx.mapE ab) (fun j => ((fmtOf ty).exact (f j).1, (f j).2))
    rounds (.vfadd w) ab (fun j => fAdd (a j) (b j)) ∧ rounds (.vfsub w) ab (fun j => fSub (a j) (b j))
      ∧ rounds (.vfmul w) ab (fun j => fMul (a j) (b j))
      ∧ rounds (.vfma w) abc (fun j => fFma (src abc w.a j) (src abc w.b j) (src abc w.c j))
      ∧ picks (.vfmin w) (fun j => fMinMax false (a j) (b j)) ∧ picks (.vfmax w) (fun j => fMinMax true (a j) (b j))
      ∧ s.writesVec (.vfabs w) w (s.vecChk w [w.a]) 4 n (s.ictx.mapE [w.a])
        (fun j => (s.ictx.src w.hd (srcMapReg w.dst.toNat [w.a]) w.a n j : Nat) % (2 ^ (n - 1) : Int))

/-- Width changes (R133 to R137): element i of destination register h is made from element h·N + i of the source, by the
conversion of the instruction, and the maps are cut or joined (R134). That a pseudo-operand of `VUNPK.q4` is read as 4-bit
elements (log 41) and that guard-active elements alone raise exceptions (log 42) are the model's choices. -/
def Obligations.WidthChangeResults : Prop :=
  ∀ (s : State) (w : RWord),
    let c := s.ictx
    let changes (i : Instr) (lat ws wd : Nat) (keep : Bool) (f : MapBits → Nat → Nat → Nat × Exc) : Prop :=
      let q := max 1 (wd / ws)
      let n := 4096 / wd
      let map (h : Nat) : Option MapBits := if keep then none else c.resizeMap w ws wd h
      let at_ (h j : Nat) : Nat × Exc := f ((map h).getD (c.mapOf (w.dst.toNat + h))) j (c.groupSrc w ws wd (h * n + j))
      let srcs := if w.a.toNat < 56 ∧ wd < ws then (List.range (ws / wd)).map (fun j => w.a.toNat + j) else realV [w.a]
      let chk : SlotRes :=
        { faults := c.pseudoFaults w.dst.toNat [w.a] ++ ((List.range q).map (fun h => c.srFaults w.rnd (w.dst.toNat + h) (map h))).flatten
          maps := srcs ++ (if mapPseudo w.a then [w.dst.toNat] else [])
            ++ (if w.rnd = 2 ∧ 56 ≤ w.a.toNat then (List.range q).map (fun h => w.dst.toNat + h) else [])
          data := some srcs }
      chk.faults = [] → s.unhindered i w.hd chk →
        ∃ x : Nat → VecBits, (∀ h < q, ∀ j < n, elem (x h) j wd = (at_ h j).1 % 2 ^ wd)
          ∧ s.gives i ((s.installs w.hd.unit ((List.range q).map (fun h =>
              (lat, .setV (w.dst.toNat + h) (x h) (guardMask (c.guard w.hd) wd) (map h) true none)))).raises w.hd.unit
            (((List.range q).map (fun h => ((List.range n).filter (active (c.guard w.hd) wd)).map (fun j => (at_ h j).2))).flatten))
    let fcode := w.fn.extractLsb' 0 4
    let dst := tyWidth w.ty
    changes (.vcvt w) 4 (tyWidth (fTy fcode)) (tyWidth (fTy w.ty)) false
        (fun m j x => convertPat (fTy fcode) (fTy w.ty) (c.rmode s.gstep w.rnd (w.fn.toNat / 16 % 256) m j) x)
      ∧ changes (.vpack w) 2 (tyWidth fcode) dst false (fun _ _ x => (x, excNone))
      ∧ changes (.vunpk w) 2 (tyWidth fcode) dst (fcode = 12) (fun _ _ x =>
        (if fcode = 12 ∧ w.ty = 10 then e4m3.exact (q4Val (w.fn.toNat / 16 % 4) x)
          else (intOf (tyWidth fcode) (fcode = 12 || tySigned fcode) x % (2 ^ dst : Nat)).toNat, excNone))
      ∧ changes (.vnarrow w) 2 (tyWidth (vTy fcode)) (tyWidth (if w.ty = 0 then 2 else w.ty)) false (fun _ _ x =>
        (narrowOf (vTy fcode) (if w.ty = 0 then 2 else w.ty) (w.fn.toNat / 16 % 64) w.rnd x, excNone))

/-- Reductions and scans (R138): a reduction of segments of 2^FN elements gives one result for each segment and zero above
them, and its map is NONE; a scan gives the running sums of each segment.
`VDOT4` (R129): each 32-bit lane of C plus four products of bytes, with C's map when C is a register. That guard-active elements
alone raise exceptions (log 42), that the roundings inside a tree or before a step of a scan count for the element (log 198), with what
a float scan starts (log 200) and how an immediate C of `VDOT4` is read (log 148) are the model's choices. -/
def Obligations.ReductionAndDotResults : Prop :=
  (
  ∀ (s : State) (w : RWord),
    let t := fTy w.ty
    let b := tyWidth t
    let k := 2 ^ w.fn.toNat
    let n := elemCount b / k
    let leaves (o : RedOp) (h : Nat) : List Nat := ((s.redLeaves w o).drop (k * h)).take k
    let chk (maps : List Nat) : SlotRes := { s.vecChk w [w.a] with maps := maps }
    let reduces (i : Instr) (o : RedOp) : Prop :=
      s.writesFloat i w (chk (if mapPseudo w.a then [w.dst.toNat] else [])) 6 b n (s.ictx.guard w.hd) (some 0)
        (fun h => if h < n then o.segment t w.fn.toNat (leaves o h) else (0, excNone))
    reduces (.vredAdd w) .add ∧ reduces (.vredMax w) .max ∧ reduces (.vredMin w) .min
      ∧ s.writesFloat (.vscanAdd w) w (s.vecChk w [w.a]) 6 b (n * k) (s.ictx.guard w.hd) (s.ictx.mapE [w.a])
        (fun j => if j < n * k then
          (if tyInt t then scanInt t 0 (leaves .add (j / k)) else scanFloat t none (leaves .add (j / k))).getD (j % k) (0, excNone)
          else (0, excNone))
  ) ∧ (
  ∀ (s : State) (w : RWord),
    let l := [w.a, w.b, w.c]
    let mr := srcMapReg w.dst.toNat l
    let ty : BitVec 4 := if w.ty = 4 then 4 else 1
    let p (k : Nat) : Int := s.ictx.isrc w mr ty w.a k * s.ictx.isrc w mr ty w.b k
    s.writesVec (.vdot4 w) w
      { faults := s.ictx.pseudoFaults w.dst.toNat l, maps := realV [w.c] ++ (if l.any mapPseudo then [mr] else [])
        data := some (realV l) }
      2 32 (if w.c.toNat < 56 then some (s.ictx.mapOf w.c.toNat) else none)
      (fun j => s.ictx.src w.hd mr w.c 32 j + p (4 * j) + p (4 * j + 1) + p (4 * j + 2) + p (4 * j + 3))
  )

/-- Register shuffles (R139, R140, R142, R145): the pattern entry of the active bank, an index vector, or expansion of a
packed register into the elements of a predicate.
`VCOMPACT` (R143, R144): the elements that the predicate selects, packed and followed by zeros; when the map can follow,
their coordinates go to the carrier register B, and D's map names it. The map of `VSHUF` with a pseudo-operand in A is the
model's choice (log 159), and so is the width of TYPE 0 of `VPERM`, `VCOMPACT` and `VEXPAND` (log 40). -/
def Obligations.ShuffleAndCompactResults : Prop :=
  (
  ∀ (s : State) (w : RWord),
    let c := s.ictx
    let e := s.icore.team.patEntry (w.fn.toNat % 64)
    let cpres := e.getLsbD 1024
    let b := tyWidth w.ty
    let p := c.pReg (w.c.extractLsb' 0 4)
    let ab := [w.a, w.b]
    let src (l : List Reg6) (r : Reg6) (k j : Nat) : Nat := c.src w.hd (srcMapReg w.dst.toNat l) r k j
    s.writesVec (.vshuf w) w
        { s.vecChk w [w.a] with maps := (if cpres then realV [w.a] else []) ++ (if mapPseudo w.a then [w.dst.toNat] else []) }
        3 32 (if cpres then c.mapE [w.a] else some 0)
        (fun j => if e.getLsbD (8 * j + 7) then 0 else src [w.a] w.a 32 (e.extractLsb' (8 * j) 7).toNat)
      ∧ s.writesVec (.vperm w) w (s.vecChk w ab) 3 b (some (c.permMap w s.issue.ctx.val))
        (fun j => if src ab w.b b j < elemCount b then src ab w.a b (src ab w.b b j) else 0)
      ∧ s.writesVec (.vexpand w) w
        { s.vecChk w ab with maps := realV [w.b] ++ (if ab.any mapPseudo then [srcMapReg w.dst.toNat ab] else []) }
        3 b (if w.b.toNat < 56 then some (c.mapOf w.b.toNat) else none)
        (fun j => if active p b j then src ab w.a b ((List.range j).countP (active p b)) else src ab w.b b j)
  ) ∧ (
  ∀ (s : State) (w : RWord),
    let c := s.ictx
    let b := tyWidth w.ty
    let picks := (List.range (elemCount b)).filter (active (c.pReg (w.c.extractLsb' 0 4)) b)
    let m := c.mapOf w.a.toNat
    let mask := guardMask (c.guard w.hd) b
    let chk : SlotRes :=
      { faults := c.pseudoFaults w.dst.toNat [w.a], maps := realV [w.a] ++ (if mapPseudo w.a then [w.dst.toNat] else [])
        data := some (realV [w.a]) }
    chk.faults = [] → s.unhindered (.vcompact w) w.hd chk →
      ∃ x y : VecBits,
        (∀ j < elemCount b, elem x j b = (if h : j < picks.length then c.src w.hd (srcMapReg w.dst.toNat [w.a]) w.a b picks[j] % 2 ^ b else 0)
            ∧ elem y j b = (if h : j < picks.length then c.coord m picks[j] 0 % 2 ^ b else 0))
          ∧ s.gives (.vcompact w) (s.installs w.hd.unit
            (if c.compactFollows w then
              [ (3, .setV w.b.toNat y mask none true none)
              , (3, .setV w.dst.toNat x mask (some (listedMap (ewOf b) w.b.toNat s.issue.ctx.val picks.length (mapExtent m 0) (mapVtag m)))
                  true (some w.b.toNat))]
            else [(3, .setV w.dst.toNat x mask (some 0) true none)]))
  )

/-- Sorting (R151 to R153): entries of value and index in two registers; `VTOPK8` keeps the eight highest of each group of
sixteen, `VSORT.STEP` exchanges the lanes of each pair. Both maps become NONE.
A list of entries in rank order holds the entries it was made from, and no entry ranks above one that stands before it
(R151). The order of entries of equal rank
is the model's choice (log 24). -/
def Obligations.SortResults : Prop :=
  (
  ∀ (s : State) (w : RWord),
    let t := fTy w.ty
    let mask := guardMask (s.ictx.guard w.hd) 32
    let pairs (i : Instr) (srcs : List Nat) (f : Nat → SortEntry) : Prop :=
      s.unhindered i w.hd { data := some srcs } →
        ∃ x y : VecBits, (∀ j < 128, elem x j 32 = (f j).x % 2 ^ 32 ∧ elem y j 32 = (f j).ix % 2 ^ 32)
          ∧ s.gives i (s.installs w.hd.unit
            [(3, .setV w.dst.toNat x mask (some 0) true none), (3, .setV (w.dst.toNat + 1) y mask (some 0) true none)])
    let lanes (g : Nat) : List Nat := (List.range 8).map (8 * g + ·)
    let ranked (g : Nat) : List SortEntry :=
      rankEntries t ((lanes g).map (s.ictx.pairEntry w.a true) ++ (lanes g).map (s.ictx.pairEntry w.b false))
    pairs (.vtopk8 w) [w.a.toNat, w.a.toNat + 1, w.b.toNat, w.b.toNat + 1] (fun j => (ranked (j / 8)).getD (j % 8) ⟨0, 0, true⟩)
      ∧ pairs (.vsortStep w) [w.a.toNat, w.a.toNat + 1] (s.ictx.sortLane w t)
  ) ∧ (
  ∀ (t : BitVec 4) (l : List SortEntry),
    (rankEntries t l).Perm l ∧ (rankEntries t l).Pairwise (fun a b => b.above t a = false)
  )

/-- The map instructions (R146): `.set`, `.copy` and `.none` write the map alone; the others copy the data of A at 32 bits
with the changed map. That a pseudo-operand in A has no map (log 25) and that the guard of such a copy is read at 32 bits (log 199) are
the model's choices. -/
def Obligations.MapResults : Prop :=
  ∀ (s : State) (w : RWord),
    let c := s.ictx
    let m := c.vmapSrc w
    let d := vmapD w
    let d2 := vmapD2 w
    let src (j : Nat) : Nat := c.src w.hd (srcMapReg w.dst.toNat [w.a]) w.a 32 j
    let imm : BitVec 56 := BitVec.ofNat 56 (immVal w.hd)
    let only (i : Instr) (chk : SlotRes) (n : MapBits) : Prop :=
      chk.faults = [] → s.unhindered i w.hd chk →
        s.gives i (s.installs w.hd.unit [(2, .setV w.dst.toNat 0 0 (some n) false none)])
    let both (i : Instr) (ok : Prop) (n : MapBits) : Prop :=
      ok → s.writesVec i w (s.vecChk w [w.a]) 2 32 (some n) (fun j => src j)
    (∃ x : VecBits, (∀ j < 128, elem x j 32 = src j % 2 ^ 32)
        ∧ (mapWf (x.extractLsb' 0 384) → mapCarriersOk (x.extractLsb' 0 384) s.issue.ctx.val (partVregs s.icore.team.part) →
          only (.vmapSet w) { faults := c.pseudoFaults w.dst.toNat [w.a], maps := if mapPseudo w.a then [w.dst.toNat] else []
                              data := some (realV [w.a]) } (mapInstall (x.extractLsb' 0 384))))
      ∧ only (.vmapCopy w) { maps := realV [w.a], data := some [] } m
      ∧ only (.vmapNone w) { maps := [], data := some [] } 0
      ∧ both (.vmapOff w) (isNone m ∨ d < mapRank m)
        (if isNone m ∨ mapLists m d then 0 else mapSetOrigin m d (mapOrigin m d + (imm.extractLsb' 0 24).toInt))
      ∧ both (.vmapSlice w) (isNone m ∨ d < mapRank m)
        (if isNone m ∨ mapLists m d then 0
          else mapSetExtent (mapSetOrigin m d (mapOrigin m d - (imm.extractLsb' 0 24).toNat)) d (imm.extractLsb' 24 24).toNat)
      ∧ both (.vmapTr w) ((isNone m ∨ d < mapRank m) ∧ (isNone m ∨ d2 < mapRank m) ∧ mapWf (vmapTrMap m d d2)) (vmapTrMap m d d2)
      ∧ both (.vmapTag w) True (if isNone m then 0 else mapSetVtag m (immVal w.hd % 2 ^ 16))

/-- Coordinates, noise and coordinate masks (R147, R149, R150). A pseudo-operand in A has
no map: the model's choice (log 25). -/
def Obligations.CoordinateResults : Prop :=
  ∀ (s : State) (w : RWord),
    let c := s.ictx
    let m := c.mapOf w.a.toNat
    let chk : SlotRes := { faults := c.mapNone w.a.toNat, maps := [w.a.toNat], data := some [] }
    let key := if w.fn.getLsbD 8 then s.gstep.zeroExtend 64 else c.sReg w.b
    s.writesVec (.vcoord w) w chk 2 (tyWidth (vTy w.ty)) (some m) (fun j => if w.fn.toNat = 4 then c.flat m j else c.coord m j w.fn.toNat)
      ∧ s.writesVec (.vnoise w) w chk 2 (tyWidth (if w.ty = 0 then 6 else w.ty)) (some m)
        (fun j => (noise key (w.fn.toNat % 256) [c.coord m j 0, c.coord m j 1, c.coord m j 2, c.coord m j 3]).toNat)
      ∧ (let k := c.vmapSrc w
         let da := w.fn.toNat % 4
         let db := w.fn.toNat / 4 % 4
         let scalar := w.fn.getLsbD 4
         let x (j : Nat) := c.coord k j da
         let y (j : Nat) := if scalar then (c.sReg w.c).toNat % 2 ^ 24 else c.coord k j db
         let b := c.sReg w.b
         let inside (j : Nat) : Bool :=
           isNone k || (j < mapValid k && !(w.fn.getLsbD 8 && (mapExtent k da ≤ x j || (!scalar && mapExtent k db ≤ y j))))
         let masks (i : Instr) (rule : Nat → Bool) : Prop :=
           s.writesPred i w { faults := if isNone k && !c.mapsoft then [(.mapNone, w.a.zeroExtend 64)] else [], maps := realV [w.a], data := some [] }
             2 (tyWidth w.ty) [] (fun j => rule j && inside j)
         masks (.vmaskcCausal w) (fun j => x j ≤ y j)
           ∧ masks (.vmaskcBand w) (fun j => |(x j : Int) - y j| ≤ b.toInt)
           ∧ masks (.vmaskcWin w) (fun j => (b.extractLsb' 0 32).toInt ≤ (y j : Int) - x j && (y j : Int) - x j ≤ (b.extractLsb' 32 32).toInt)
           ∧ masks (.vmaskcLt w) (fun j => (x j : Int) < b.toInt)
           ∧ masks (.vmaskcGe w) (fun j => b.toInt ≤ (x j : Int)))

/-- The accumulator ports (R154, R155): a row of 128 FP32 values is read with latency 5 and its map, or written in cycle
issue + 3, as it is or added to the old values with one rounding each. The map of a pseudo-operand of `VACW` (log 16), the VALID
of a row that a carrier lists (log 46) and that guard-active elements alone raise exceptions (log 42) are the model's choices. -/
def Obligations.AccumulatorPortResults : Prop :=
  ∀ (s : State) (w : RWord),
    let t := s.icore.team
    let row := accRowNo w (s.ictx.sReg w.b)
    let g := s.ictx.guard w.hd
    let src (j : Nat) : Nat := s.ictx.src w.hd (srcMapReg noMapReg [w.a]) w.a 32 j
    let chk : SlotRes :=
      { faults := s.ictx.pseudoFaults noMapReg [w.a], maps := if mapPseudo w.a then [noMapReg] else [], data := some (realV [w.a]) }
    let sum (j : Nat) : FVal × Exc := fAdd (fp32.decode (elem (s.accRead w) j 32)) (fp32.decode (src j))
    s.writesVec (.vacr w) w (s.vecChk w []) 5 32 (some (t.rowMap (t.tileMaps.toList.getD (accTile w) 0) s.issue.ctx.val row))
        (fun j => elem (s.accRead w) j 32)
      ∧ (chk.faults = [] → s.unhindered (.vacw w) w.hd chk →
        ∃ x : VecBits, (∀ j < 128, elem x j 32 = src j % 2 ^ 32)
          ∧ s.gives (.vacw w) (s.issued w.hd.unit [(3, .accRow (128 * accTile w + row) x (guardMask g 32))]))
      ∧ (chk.faults = [] → s.unhindered (.vacwAdd w) w.hd chk →
        ∃ x : VecBits, (∀ j < 128, elem x j 32 = (fp32.deliver .rne (sum j).1).1 % 2 ^ 32)
          ∧ s.gives (.vacwAdd w) ((s.issued w.hd.unit [(3, .accRow (128 * accTile w + row) x (guardMask g 32))]).raises w.hd.unit
            (((List.range 128).filter (active g 32)).map (fun j => (sum j).2.or (fp32.deliver .rne (sum j).1).2))))

/-- The special functions (R156 to R158): the function of each active element of the half that the word works on, with
latency 8 and the map of A. Values of the functions that the spec bounds only are free (log 6). That guard-active elements alone
raise exceptions (log 42), and which ones `VEXP2` of an integer raises (log 158), are the model's choices. -/
def Obligations.SpecialFunctionResults : Prop :=
  ∀ (s : State) (w : RWord),
    let ty := fTy w.ty
    let b := tyWidth ty
    let g := s.ictx.guard w.hd &&& sfHalf w b
    let src (j : Nat) : Nat := s.ictx.src w.hd (srcMapReg w.dst.toNat [w.a]) w.a b j
    let at_ (f : Nat → SfResult) (j : Nat) : Nat × Exc := if active g b j then sfElem ty f (src j) else (0, excNone)
    let chk := s.vecChk w [w.a]
    let mask := guardMask g b
    let fn (i : Instr) (f : Nat → SfResult) : Prop := s.writesFloat i w chk 8 b (elemCount b) g (s.ictx.mapE [w.a]) (at_ f)
    fn (.vexp2 w) sfExp2 ∧ fn (.vexp w) sfExp ∧ fn (.vlog2 w) sfLog2 ∧ fn (.vln w) sfLn ∧ fn (.vrcp w) sfRcp ∧ fn (.vrsq w) sfRsq
      ∧ fn (.vsqrt w) sfSqrt ∧ fn (.vtanh w) sfTanh ∧ fn (.vsigm w) sfSigm ∧ fn (.verf w) sfErf
      ∧ (chk.faults = [] → s.unhindered (.vsincos w) w.hd chk →
        ∃ x y : VecBits, (∀ j < elemCount b, elem x j b = (at_ sfSin j).1 % 2 ^ b ∧ elem y j b = (at_ sfCos j).1 % 2 ^ b)
          ∧ s.gives (.vsincos w) ((s.installs w.hd.unit
              [(8, .setV w.dst.toNat x mask (s.ictx.mapE [w.a]) true none), (8, .setV w.c.toNat y mask (s.ictx.mapE [w.a]) true none)]).raises
              w.hd.unit (((List.range (elemCount b)).filter (active g b)).map (fun j => (at_ sfSin j).2.or (at_ sfCos j).2))))
      ∧ s.writesVec (.vpows w) w (s.vecChk w [w.a, w.b]) 8 32 (s.ictx.mapE [w.a, w.b])
        (fun j => swFactor (s.ictx.src w.hd (srcMapReg w.dst.toNat [w.a, w.b]) w.a 32 j)
          (s.ictx.src w.hd (srcMapReg w.dst.toNat [w.a, w.b]) w.b 32 j))

/-! ## Scratchpad access -/

/-- Scalar loads and stores, `AMO` and `PATLD` (R163, R172, R173, R177): an access that is aligned and in range acts on the
scratchpad in its cycle, and `[a+]` moves OFF by INC with latency 1 (R12). A store puts the low bytes of sD, the lowest
first (R4). -/
def Obligations.ScalarMemoryResults : Prop :=
  ∀ (s : State) (w : MWord),
    let c := s.ictx
    let a := c.memAddr w
    let size := spadSize s.issue.core s.icore.team
    let n := sWidth w.ty / 8
    let post : List (Nat × Act) :=
      if w.amode = 1 then [(1, .setA w.areg (areaAdvance (c.aReg w.areg) (areaInc (c.aReg w.areg))))] else []
    let access (i : Instr) (al len : Nat) (reads : List (Nat × Nat × Nat)) (lat : Nat) (act : Act) : Prop :=
      a % al = 0 → a + len ≤ size → s.unhindered i w.hd { reads := reads } → s.gives i (s.issued w.hd.unit ((lat, act) :: post))
    let amo (i : Instr) (op : BitVec 3) : Prop := access i n n [] 3 (.amo op w.ty a (c.sReg w.b) (c.sReg w.c) w.d)
    access (.ldS w) n n [(1, a, n)] 1 (.loadS w.ty a w.d)
      ∧ access (.stS w) n n [] 3 (.store ((List.range n).map (fun k => (a + k, (c.sReg w.d).extractLsb' (8 * k) 8))))
      ∧ amo (.amoAdd w) 0 ∧ amo (.amoMin w) 1 ∧ amo (.amoMax w) 2 ∧ amo (.amoXchg w) 3 ∧ amo (.amoCas w) 4
      ∧ access (.patld w) 32 160 [(1, a, 160)] 1 (.loadPattern (!s.icore.team.patActive) w.d.toNat a)

/-- Vector loads (R164 to R171): the job that reads in the cycles after issue and lands with the latency of its form, under
the guard, with the map that MAPM or the form gives.
The elements that a job reads in a cycle are the little-endian numbers at their addresses (R4, R165, R168). The guard and the
map of `LD.SW` at 32 bits (logs 49, 172), the guard of a transposed `.q4` load by bytes (log 50) and descriptors of `desc=` that
need no alignment (log 51) are the model's choices. -/
def Obligations.VectorLoadResults : Prop :=
  (
  ∀ (s : State) (w : MWord),
    let c := s.ictx
    let a := c.memAddr w
    let size := spadSize s.issue.core s.icore.team
    let b := tyWidth w.ty
    let n := b / 8
    let N := elemCount b
    let g := c.guard w.hd
    let post : List (Nat × Act) :=
      if w.amode = 1 then [(1, .setA w.areg (areaAdvance (c.aReg w.areg) (areaInc (c.aReg w.areg))))] else []
    let gr (f : Nat → Option Nat) : List (List (Nat × Nat)) := gatherGroups w.ty f
    (a % 32 = 0 → a + 512 ≤ size → s.mapmFaults w = [] →
        s.unhindered (.ldV w) w.hd { maps := mapmReads w, data := some [], reads := [(1, a, 512)] } →
        s.gives (.ldV w) (s.installs w.hd.unit
          ((1, .reads { s.loadJob w 6 512 (guardMask g b) [[(0, a)]] with map := c.mapmOf w }) :: post)))
      ∧ (a % n = 0 → a + n ≤ size → s.unhindered (.ldVB w) w.hd { reads := [(1, a, n)] } →
        s.gives (.ldVB w) (s.installs w.hd.unit ((1, .reads (s.loadJob w 6 n (guardMask g b) [(List.range N).map (fun i => (i, a))])) :: post)))
      ∧ (let groups := gr (fun i => if active g b i then some (gatherAddr c w i) else none)
         let x := c.sReg w.c
         a % n = 0 → (∀ i < N, active g b i → gatherAddr c w i + n ≤ size) →
         s.unhindered (.ldVG w) w.hd { data := some [w.b.toNat], reads := gatherReads n groups } →
         s.gives (.ldVG w) ((s.installs w.hd.unit ((1, .reads { s.loadJob w 13 n (guardMask g b) groups with
             map := some (listedMap (ewOf b) w.b.toNat s.issue.ctx.val N (gatherExtent x) (x.toNat / 2 ^ 24 % 2 ^ 16)) }) :: post)).updOwn
           (fun t => { t with gatherFree := s.cycle + 8 })))
      ∧ (let q := s.icore.team.opq
         let k := min (min (c.sReg w.c).toNat N) q.length
         let off (i : Nat) : Nat := (q.getD i 0).toNat
         let fits (i : Nat) : Bool := a + n * off i + n ≤ size
         let groups := gr (fun i => if i < k && active g b i && fits i then some (a + n * off i) else none)
         a % n = 0 → (∀ i < k, active g b i → fits i) → s.unhindered (.ldVQ w) w.hd { data := some [], reads := gatherReads n groups } →
         s.gives (.ldVQ w) ((s.installs w.hd.unit
             ((13, .setV w.b.toNat (vecOf b (fun i => if i < k then off i else 0)) (guardMask g b) none true none)
               :: (1, .reads { s.loadJob w 13 n (guardMask g b) groups with
                  map := some (listedMap (ewOf b) w.b.toNat s.issue.ctx.val k 0xFFFFFF 0), own := some w.b.toNat }) :: post)).updOwn
           (fun t => { t with gatherFree := s.cycle + 8, opq := t.opq.drop k })))
      ∧ (let st := 32 * (w.b.toNat % 16 + 1)
         w.ty = 12 → a % 32 = 0 → a + 15 * st + 32 ≤ size → s.mapmFaults w = [] →
         s.unhindered (.ldt w) w.hd { maps := mapmReads w, data := some [], reads := (List.range 16).map (fun r => (1, a + r * st, 32)) } →
         s.gives (.ldt w) (s.installs w.hd.unit
           ((1, .reads { s.loadJob w 6 32 (guardMask g 8) [(List.range 16).map (fun r => (r, a + r * st))] with
              codes := true, map := c.mapmOf w }) :: post)))
      ∧ (let st := 32 * (w.b.toNat % 16 + 1)
         let m := (c.mapmOf w).getD (c.mapOf w.d.toNat)
         let full := (List.range N).filter (fun i => !c.edge m i)
         let rows := (List.range 16).filter (fun r => full.any (fun i => i % 16 == r))
         w.ty ≠ 12 → a % 32 = 0 → (∀ r ∈ rows, a + r * st + 32 ≤ size) → s.mapmFaults w = [] →
         s.unhindered (.ldt w) w.hd { maps := if w.mapm = 0 then [w.d.toNat] else mapmReads w, data := some []
                                      reads := rows.map (fun r => (1, a + r * st, 32)) } →
         s.gives (.ldt w) (s.installs w.hd.unit
           ((1, .reads { s.loadJob w 6 n (guardMask g b) [full.map (fun i => (i, a + i % 16 * st + n * (i / 16)))] with
              map := c.mapmOf w }) :: post)))
      ∧ (let wide := w.ty = 7
         let k := if wide then 8 else 4
         let part (lo hi : Nat) : List (Nat × Nat) := ((List.range hi).drop lo).map (fun i => (i, a + k * i))
         a % 32 = 0 → a + 128 * k ≤ size → s.mapmFaults w = [] →
         s.unhindered (.ldSW w) w.hd { maps := mapmReads w, data := some []
                                       reads := if wide then [(1, a, 512), (2, a + 512, 512)] else [(1, a, 512)] } →
         s.gives (.ldSW w) (s.installs w.hd.unit
           ((1, .reads { s.loadJob w 10 k (guardMask g 32) (if wide then [part 0 64, part 64 128] else [part 0 128]) with
              map := (c.mapmOf w).map swMap, season := some (wide, s.gstep) }) :: post)))
  ) ∧ (
  ∀ (ft : Vector (BitVec 32) 16) (m : Memory) (j : ReadJob) (g : List (Nat × Nat)) (r : List (List (Nat × Nat))),
    j.season = none → j.groups = g :: r → (g.map (·.1)).Nodup →
      (∀ p ∈ g, 8 * j.width * (p.1 + 1) ≤ 4096 ∧ elem j.got p.1 (8 * j.width) = 0) →
        (j.run ft m).groups = r
          ∧ (∀ p ∈ g, elem (j.run ft m).got p.1 (8 * j.width) = memNat m p.2 j.width)
          ∧ (∀ i, 8 * j.width * (i + 1) ≤ 4096 → i ∉ g.map (·.1) → elem (j.run ft m).got i (8 * j.width) = elem j.got i (8 * j.width))
  )

/-- Vector stores (R173 to R176): each active element of the register goes to its address, the lowest byte first, in the
cycle that the form gives. -/
def Obligations.VectorStoreResults : Prop :=
  ∀ (s : State) (w : MWord),
    let c := s.ictx
    let a := c.memAddr w
    let size := spadSize s.issue.core s.icore.team
    let b := tyWidth w.ty
    let n := b / 8
    let g := c.guard w.hd
    let els := (List.range (elemCount b)).filter (active g b)
    let x := c.vReg w.d.toNat
    let bytes (at_ i : Nat) : List Host.Cell := (List.range n).map (fun k => (at_ + k, x.extractLsb' (b * i + 8 * k) 8))
    let post (inc : Int) : List (Nat × Act) := if w.amode = 1 then [(1, .setA w.areg (areaAdvance (c.aReg w.areg) inc))] else []
    let inc := areaInc (c.aReg w.areg)
    b % 8 = 0 →
      (a % 32 = 0 → a + 512 ≤ size → s.unhindered (.stV w) w.hd {} →
        s.gives (.stV w) (s.issued w.hd.unit ((3, .store ((els.map (fun i => bytes (a + n * i) i)).flatten)) :: post inc)))
      ∧ (a % n = 0 → (els ≠ [] → a + n * els.length ≤ size) → s.unhindered (.stVC w) w.hd {} →
        s.gives (.stVC w) (s.issued w.hd.unit
          ((3, .store (((List.range els.length).map (fun k => bytes (a + n * k) (els.getD k 0))).flatten))
            :: if els = [] then [] else post (n * els.length : Nat))))
      ∧ (a % n = 0 → (∀ i ∈ els, gatherAddr c w i + n ≤ size) → s.unhindered (.stVS w) w.hd {} →
        s.gives (.stVS w) ((s.issued w.hd.unit
          ((List.range 8).map (fun k => (3 + k, .store ((((List.range (elemCount b / 8)).map (elemCount b / 8 * k + ·)).filter (active g b)).map
            (fun i => bytes (gatherAddr c w i) i)).flatten)) ++ post inc)).updOwn (fun t => { t with gatherFree := s.cycle + 8 })))
      ∧ (let wide := w.ty = 7
         let k := if wide then 8 else 4
         let words (f : Nat → Bool) : List (Nat × BitVec 32) :=
           (((List.range 128).filter (active g 32)).filter f).map (fun i => (a + k * i, x.extractLsb' (32 * i) 32))
         a % 32 = 0 → a + 128 * k ≤ size → s.unhindered (.stSW w) w.hd {} →
         s.gives (.stSW w) (s.issued w.hd.unit ((3, .season wide s.gstep (words (fun i => !wide || i < 64)) (words (fun i => wide && 64 ≤ i)) [])
           :: post inc)))

/-- Where a word that issues alone traps, with its cause and TVAL (R90, R343, R344): an access out of range or not aligned
(R13, R162), a bad target, count, barrier scope, control register or core map (R78 to R85, R93, R102 to R104), a branch past
the code space (R77, R346), a map that is NONE or bad (R18, R45, R146, R164, R186), a gang word without its gang (R185), a
write under a pending token (R26), and with CHKEN a read that comes too early (R75). Nothing else of the device changes but
when the core may issue again. These clauses are the model's choices: a descriptor of `desc=` needs no alignment (log 51); which
bits make an `MTC` trap (log 17); TVAL of CMAP_BAD is sA for `SCAN.ABORT`, `SCAN.READ` and `DBG.RESUME` (log 19), where R92 gives sB
for `CMAP.SET` only; STALL_SHORT names the first producer (log 32); SPAD_ALIGN takes the first operand in the order A, B (log 33);
and a pseudo-operand in A of `VMAP` and `VMASKC` has the map NONE (log 25). -/
def Obligations.IssueTraps : Prop :=
  (
  ∀ (s : State) (w : MWord),
    let c := s.ictx
    let a := c.memAddr w
    let size := spadSize s.issue.core s.icore.team
    let m := sWidth w.ty / 8
    let b := tyWidth w.ty
    let n := b / 8
    let g := c.guard w.hd
    let els := (List.range (elemCount b)).filter (active g b)
    let groups := gatherGroups w.ty (fun i => if active g b i then some (gatherAddr c w i) else none)
    let desc : List (Nat × Nat) := if w.mapm = 3 then [(areaAddr (c.aReg (w.c.extractLsb' 0 4)) 0, 48)] else []
    let wellMapped : Prop := mapWf c.ldDesc = true ∧ mapCarriersOk c.ldDesc s.issue.ctx.val (partVregs s.icore.team.part) = true
    let mapped : Prop := w.mapm = 3 → wellMapped ∧ (c.chken = true → c.preread.bind (·.ldEarly) = none)
    let misaligned (i : Instr) (al : Nat) (l : List (Nat × Nat)) (r : SlotRes) : Prop :=
      (∀ x ∈ l, x.1 + x.2 ≤ size) → a % al ≠ 0 → s.traps i w.hd r .spadAlign (BitVec.ofNat 64 a)
    let outside (i : Instr) (l : List (Nat × Nat)) (r : SlotRes) : Prop :=
      ∀ x ∈ l, size < x.1 + x.2 → (∀ y ∈ l, size < y.1 + y.2 → x.1 ≤ y.1) → s.traps i w.hd r .spadRange (BitVec.ofNat 64 x.1)
    let access (i : Instr) (al : Nat) (l : List (Nat × Nat)) (r : SlotRes) : Prop := misaligned i al l r ∧ outside i l r
    let wide := if w.ty = 7 then 8 else 4
    let rows : List Nat :=
      if w.ty = 12 then List.range 16
      else (List.range 16).filter (fun r => ((List.range (elemCount b)).filter (fun i =>
        !c.edge ((c.mapmOf w).getD (c.mapOf w.d.toNat)) i)).any (fun i => i % 16 == r))
    let st := 32 * (w.b.toNat % 16 + 1)
    let rdV : SlotRes := { maps := mapmReads w, data := some [], reads := [(1, a, 512)] }
    let rdT : SlotRes := { maps := if w.mapm = 0 ∧ w.ty ≠ 12 then [w.d.toNat] else mapmReads w, data := some []
                           reads := rows.map (fun r => (1, a + r * st, 32)) }
    let rdSW : SlotRes := { maps := mapmReads w, data := some []
                            reads := if w.ty = 7 then [(1, a, 512), (2, a + 512, 512)] else [(1, a, 512)] }
    access (.ldS w) m [(a, m)] { reads := [(1, a, m)] } ∧ access (.stS w) m [(a, m)] {}
      ∧ access (.amoAdd w) m [(a, m)] {} ∧ access (.amoMin w) m [(a, m)] {} ∧ access (.amoMax w) m [(a, m)] {}
      ∧ access (.amoXchg w) m [(a, m)] {} ∧ access (.amoCas w) m [(a, m)] {}
      ∧ access (.patld w) 32 [(a, 160)] { reads := [(1, a, 160)] }
      ∧ access (.ldVB w) n [(a, n)] { reads := [(1, a, n)] }
      ∧ access (.ldVG w) n (els.map (fun i => (gatherAddr c w i, n))) { data := some [w.b.toNat], reads := gatherReads n groups }
      ∧ (let k := min (min (c.sReg w.c).toNat (elemCount b)) s.icore.team.opq.length
         let at_ (i : Nat) : Nat := a + n * (s.icore.team.opq.getD i 0).toNat
         misaligned (.ldVQ w) n [] { data := some [], reads := gatherReads n (gatherGroups w.ty (fun i =>
           if i < k && active g b i && at_ i + n ≤ size then some (at_ i) else none)) })
      ∧ access (.stV w) 32 [(a, 512)] {}
      ∧ access (.stVC w) n (if els = [] then [] else [(a, n * els.length)]) {}
      ∧ access (.stVS w) n (els.map (fun i => (gatherAddr c w i, n))) {}
      ∧ access (.stSW w) 32 [(a, 128 * wide)] {}
      ∧ (mapped → access (.ldV w) 32 ((a, 512) :: desc) rdV
        ∧ access (.ldt w) 32 (rows.map (fun r => (a + r * st, 32)) ++ desc) rdT
        ∧ access (.ldSW w) 32 ((a, 128 * wide) :: desc) rdSW)
      ∧ (w.mapm = 3 → ¬ wellMapped → (c.chken = true → c.preread.bind (·.ldEarly) = none) →
        s.traps (.ldV w) w.hd rdV .mapBad (w.d.zeroExtend 64) ∧ s.traps (.ldt w) w.hd rdT .mapBad (w.d.zeroExtend 64)
          ∧ s.traps (.ldSW w) w.hd rdSW .mapBad (w.d.zeroExtend 64))
      ∧ (∀ x, w.mapm = 3 → c.chken = true → c.preread.bind (·.ldEarly) = some x →
        s.traps (.ldV w) w.hd rdV .stallShort (x.zeroExtend 64) ∧ s.traps (.ldt w) w.hd rdT .stallShort (x.zeroExtend 64)
          ∧ s.traps (.ldSW w) w.hd rdSW .stallShort (x.zeroExtend 64))
  ) ∧ (
  ∀ s : State,
    let c := s.ictx
    (∀ w : YTWord,
      let t : Int := s.issue.baddr.toNat + 8 * w.disp.toInt
      let wraps (i : Instr) (taken : Prop) : Prop :=
        taken → t < 0 ∨ 2 ^ 56 ≤ t → s.traps i w.hd {} .brWrap (s.issue.baddr.zeroExtend 64)
      wraps (.br w) True ∧ wraps (.call w) True ∧ wraps (.brs w) (intCc (w.d.toNat % 16) (c.sReg w.a).toInt 0)
        ∧ wraps (.brp w) ((w.d = 0 ∧ (c.pReg w.p).getLsbD 0 = true) ∨ (w.d = 1 ∧ ∃ j < 512, (c.pReg w.p).getLsbD j = true)
          ∨ (w.d = 2 ∧ ∀ j < 512, (c.pReg w.p).getLsbD j = true)))
      ∧ (∀ w : YCWord,
        (2 ^ 24 < countOf c w → s.traps (.loop w) w.hd {} .badCount (c.sReg w.a))
          ∧ (w.csrc = true → 4096 < countOf c w → s.traps (.rep w) w.hd {} .badCount (c.sReg w.a)))
      ∧ (∀ w : YSWord,
        let x := c.sReg w.a
        let jump (i : Instr) (x : Word) : Prop := x.toNat % 8 ≠ 0 ∨ 2 ^ 56 ≤ x.toNat → s.traps i w.hd {} .badTarget x
        let inScope : Prop := (s.barrier s.issue.core w.scope.toNat (w.fn.toNat % 16)).isSome
        let scope (i : Instr) : Prop := ¬ inScope → s.traps i w.hd {} .barScope (w.scope.zeroExtend 64)
        let creg (i : Instr) (n : Nat) : Prop :=
          x &&& cregRo n ≠ s.creg s.issue.core s.issue.ctx n &&& cregRo n → s.traps i w.hd {} .illCreg (rawWord i)
        let phys (i : Instr) : Prop := 25 ≤ x.toNat → s.traps i w.hd {} .cmapBad x
        jump (.jmpi w) x ∧ jump (.ret w) (c.sReg 63)
          ∧ (x = 0 ∨ 65535 < x.toNat → s.traps (.barInit w) w.hd {} .badCount x)
          ∧ (x ≠ 0 → x.toNat ≤ 65535 → scope (.barInit w)) ∧ scope (.barArrive w) ∧ scope (.barWait w)
          ∧ creg (.mtc w) (w.fn.toNat % 256) ∧ creg (.mtcTstat w) 0
          ∧ phys (.scanAbort w) ∧ phys (.scanRead w) ∧ phys (.dbgResume w)
          ∧ (s.cmapBad (groupOf s.issue.core) x (c.sReg w.b) = true → s.traps (.cmapSet w) w.hd {} .cmapBad (c.sReg w.b)))
  ) ∧ (
  ∀ (s : State) (w : RWord),
    let c := s.ictx
    let dst : Word := w.dst.zeroExtend 64
    let none_ (i : Instr) (l : List Reg6) : Prop :=
      let r := srcMapReg w.dst.toNat l
      (∃ v ∈ l, mapPseudo v = true) → isNone (c.mapOf r) = true → c.mapsoft = false →
        s.traps i w.hd (s.vecChk w l) .mapNone (BitVec.ofNat 64 r)
    let two (i : Instr) : Prop := none_ i [w.a, w.b]
    let coords (i : Instr) : Prop := isNone (c.mapOf w.a.toNat) = true → c.mapsoft = false →
      s.traps i w.hd { maps := [w.a.toNat], data := some [] } .mapNone (BitVec.ofNat 64 w.a.toNat)
    let masks (i : Instr) : Prop := isNone (c.vmapSrc w) = true → c.mapsoft = false →
      s.traps i w.hd { maps := realV [w.a], data := some [] } .mapNone (w.a.zeroExtend 64)
    let m := c.vmapSrc w
    let high (d : Nat) : Prop := isNone m = false ∧ mapRank m ≤ d
    two (.vadd w) ∧ two (.vsub w) ∧ two (.vmul w) ∧ two (.vadds w) ∧ two (.vsubs w) ∧ two (.vmulh w) ∧ two (.vmin w) ∧ two (.vmax w)
      ∧ two (.vand w) ∧ two (.vor w) ∧ two (.vxor w) ∧ two (.vshl w) ∧ two (.vshr w) ∧ two (.vsra w) ∧ two (.vperm w)
      ∧ none_ (.vabs w) [w.a] ∧ none_ (.vneg w) [w.a] ∧ none_ (.vmov w) [w.a] ∧ none_ (.vbcastE w) [w.a] ∧ none_ (.vmad w) [w.a, w.b, w.c]
      ∧ coords (.vcoord w) ∧ coords (.vnoise w)
      ∧ masks (.vmaskcCausal w) ∧ masks (.vmaskcBand w) ∧ masks (.vmaskcWin w) ∧ masks (.vmaskcLt w) ∧ masks (.vmaskcGe w)
      ∧ (high (vmapD w) → s.traps (.vmapOff w) w.hd (s.vecChk w [w.a]) .mapBad dst)
      ∧ (high (vmapD w) → s.traps (.vmapSlice w) w.hd (s.vecChk w [w.a]) .mapBad dst)
      ∧ (high (vmapD w) ∨ high (vmapD2 w) ∨ mapWf (vmapTrMap m (vmapD w) (vmapD2 w)) = false →
        s.traps (.vmapTr w) w.hd (s.vecChk w [w.a]) .mapBad dst)
      ∧ (w.a.toNat < 56 →
        let d := (c.vReg w.a.toNat).extractLsb' 0 384
        ¬ (mapWf d = true ∧ mapCarriersOk d s.issue.ctx.val (partVregs s.icore.team.part) = true) →
          s.traps (.vmapSet w) w.hd { data := some [w.a.toNat] } .mapBad dst)
  ) ∧ (
  ∀ (s : State) (w : XWord),
    let c := s.ictx
    let n := s.mxCount
    let size := spadSize s.issue.core s.icore.team
    let a := areaAddr (c.aReg w.aa) 0
    let operands (i : Instr) (l : List Nat) (acc : List (Nat × Nat)) (r : SlotRes) : Prop :=
      n ≠ 0 → s.gangFaults i = [] →
        ((∀ x ∈ acc, x.1 + x.2 ≤ size) → ∀ x, l.find? (fun a => a % 32 != 0) = some x → s.traps i w.hd r .spadAlign (BitVec.ofNat 64 x))
          ∧ (∀ x ∈ acc, size < x.1 + x.2 → (∀ y ∈ acc, size < y.1 + y.2 → x.1 ≤ y.1) →
            s.traps i w.hd r .spadRange (BitVec.ofNat 64 x.1))
    let product (i : Instr) (asz bsz : Nat) (fresh : Bool) : Prop :=
      let as := repOffs n (s.mxA s.issue.core s.issue.ctx i w.aa)
      let bs := repOffs n (s.mxB s.issue.core s.issue.ctx i w.ab)
      let r := s.mmaRes i w asz bsz fresh
      operands i (as ++ bs) (as.map (fun x => (x, asz)) ++ bs.map (fun x => (x, bsz))) r
        ∧ (n ≠ 0 → gangBit i = true → s.gangCores s.issue.core = [] →
          (∀ x ∈ as, x % 32 = 0 ∧ x + asz ≤ size) → (∀ x ∈ bs, x % 32 = 0 ∧ x + bsz ≤ size) →
            s.traps i w.hd r .mxGang (match s.taskAt s.issue.core with | some t => t.tcb.gang.zeroExtend 64 | none => 0))
    let as := repOffs n (c.aReg w.aa)
    let xs := repOffs n (c.aReg w.ax)
    let row := if w.tya = 8 then 256 else 512
    product (.mma w) 4096 4096 false ∧ product (.mmaZ w) 4096 4096 true ∧ product (.mmaT w) (8192 * mxNa w) (8192 * mxNb w) false
      ∧ (let bs := repOffs n (c.aReg w.ab)
         let rows (x : Nat) : List (Nat × Nat) := (List.range 128).map (fun r => (x + 32 * elem (c.vReg w.vi.toNat) r 32, 32))
         operands (.mmaG w) (as ++ bs) ((as.map rows).flatten ++ bs.map (fun x => (x, 4096)))
           { reads := ((rows (as.headD 0)).zip (List.range 128)).map (fun p => (1 + p.2 / 16, p.1)) ++ unitReads (bs.headD 0) 9 16 })
      ∧ operands (.mmaBS w) xs (xs.map (fun x => (x, 8)))
        { reads := s.bsReads (areaAddr (c.aReg w.aa) 0) (areaAddr (c.aReg w.ab) 0) (xs.headD 0) }
      ∧ operands (.tload w) as (as.map (fun x => (x, 128 * row)))
        { reads := (List.range 128).map (fun r => (1 + r, as.headD 0 + row * r, row)) }
      ∧ (let map : MapBits := match c.preread with | some r => r.mx | none => 0
         let early := c.preread.bind (·.mxEarly)
         let ok : Prop := tileMapOk map (partCtx s.icore.team.part) (partVregs s.icore.team.part) = true
         let calm : Prop := c.chken = true → early = none
         (ok → calm → a + 48 ≤ size → a % 32 ≠ 0 → s.traps (.tmap w) w.hd {} .spadAlign (BitVec.ofNat 64 a))
          ∧ (ok → calm → size < a + 48 → s.traps (.tmap w) w.hd {} .spadRange (BitVec.ofNat 64 a))
          ∧ (¬ ok → calm → s.traps (.tmap w) w.hd {} .mapBad (BitVec.ofNat 64 (64 + w.td.toNat)))
          ∧ (∀ x, c.chken = true → early = some x → s.traps (.tmap w) w.hd {} .stallShort (x.zeroExtend 64)))
  ) ∧ (
  ∀ s : State,
    let c := s.ictx
    let t := s.icore.team
    let free (i : Instr) (r : SlotRes) : Prop := stallFaults s.cycle s.issue.seq s.issue.ctx c t i.refs i.guardP r = []
    let runs (i : Instr) (h : Head) : Prop := s.lone ∧ (scalarForm i = true → c.guardBit h = true)
    let busy (i : Instr) (h : Head) (d : Reg6) : Prop :=
      c.tokPend.getLsbD d.toNat = true → runs i h → free i {} → s.open_ → s.gives i (s.trapped h.unit .tokenBusy (d.zeroExtend 64))
    (∀ w : RWord,
      let y (i : Instr) : Prop := busy i w.hd w.dst
      y (.add w) ∧ y (.sub w) ∧ y (.mul w) ∧ y (.mulh w) ∧ y (.div w) ∧ y (.rem w) ∧ y (.mov w) ∧ y (.and w) ∧ y (.or w) ∧ y (.xor w)
        ∧ y (.andn w) ∧ y (.shl w) ∧ y (.shr w) ∧ y (.sra w) ∧ y (.rot w) ∧ y (.clz w) ∧ y (.popc w) ∧ y (.min w) ∧ y (.max w)
        ∧ y (.sel w) ∧ y (.cmpS w) ∧ y (.asetS w) ∧ y (.fadd w) ∧ y (.fsub w) ∧ y (.fmul w) ∧ y (.fma w) ∧ y (.fmin w) ∧ y (.fmax w)
        ∧ y (.fcmpS w) ∧ y (.fcvt w))
      ∧ (∀ w : IWord, busy (.addi w) w.hd w.dst ∧ busy (.movi w) w.hd w.dst)
      ∧ (∀ w : YSWord, busy (.mfc w) w.hd w.d ∧ busy (.sqpop w) w.hd w.d ∧ busy (.launch w) w.hd w.d ∧ busy (.enq w) w.hd w.d
        ∧ busy (.stepC w) w.hd w.d ∧ busy (.scanStart w) w.hd w.d ∧ busy (.dbgHalt w) w.hd w.d)
      ∧ (∀ w : EWord, busy (.kick w) w.hd w.tok ∧ busy (.kvld w) w.hd w.tok ∧ busy (.rtabCommit w) w.hd w.tok)
      ∧ (∀ (p : Pend) (l : List Pend),
        let short (i : Instr) (h : Head) (hit : Prop) : Prop :=
          hit → runs i h → tokenFaults c i.refs = [] → s.open_ → s.gives i (s.trapped h.unit .stallShort (p.baddr.zeroExtend 64))
        t.pend = p :: l → p.ctx = s.issue.ctx → p.seq ≠ s.issue.seq → c.chken = true → s.cycle < p.due →
          (∀ w : RWord,
            short (.add w) w.hd (∃ r x, p.act = .setS r x ∧ r ≠ 0 ∧ (r = w.a ∨ r = w.b))
              ∧ short (.pand w) w.hd (∃ r x m, p.act = .setP r x m ∧ r ≠ 0 ∧ (r.toNat = w.a.toNat ∨ r.toNat = w.b.toNat))
              ∧ short (.vadd w) w.hd (∃ r x m n o, p.act = .setV r x m n true o ∧ r < 56 ∧ (r = w.a.toNat ∨ r = w.b.toNat)))
            ∧ (∀ w : IWord, short (.aadd w) w.hd (∃ r x, p.act = .setA r x ∧ r.toNat = w.a.toNat))
            ∧ (∀ w : MWord, short (.ldS w) w.hd (∃ bs, p.act = .store bs ∧
              ∃ b ∈ bs, c.memAddr w ≤ b.1 ∧ b.1 < c.memAddr w + sWidth w.ty / 8)))
  )

/-! ## Matrix words -/

/-- The matrix words that work on a tile (R181 to R187): with a count of 0 nothing happens (R81); otherwise the first
repetition is in flight, the tile is busy (R22), the unit is held for the occupancy, and what remains under `REP` is kept
for the cycles that follow.
`TMAP` installs the descriptor that was read in the cycle before, and pins its carriers (R19, R186); `TWAIT` does nothing
once its bundle issues.
`PATSWAP` (R141): bundles from the next cycle on read the other bank of the pattern memory. How repetitions read their
registers (log 23) and which reads of `MMA.BS` CHKEN looks at (log 164) are the model's choices. -/
def Obligations.MatrixWordResults : Prop :=
  (
  ∀ (s : State) (w : XWord),
    let n := s.mxCount
    let u := w.hd.unit
    let size := spadSize s.issue.core s.icore.team
    let as := repOffs n (s.ictx.aReg w.aa)
    let bs := repOffs n (s.ictx.aReg w.ab)
    let xs := repOffs n (s.ictx.aReg w.ax)
    let fits (l : List Nat) (len : Nat) : Prop := ∀ a ∈ l, a % 32 = 0 ∧ a + len ≤ size
    let works (i : Instr) (fresh : Bool) (ok : Prop) (r : SlotRes) (extra : State → State) : Prop :=
      let t := (s.issued u [(1, .mx (s.mxJob s.issue.core s.issue.ctx i w fresh (n == 1)))]).updOwn (fun y => { y with
        tileBusy := y.tileBusy ||| BitVec.ofNat 16 (2 ^ w.td.toNat), mxFree := s.cycle + mxOcc i w })
      let p := ({ Profile.reset with addr := s.issue.baddr }).count s.cycle s.ictx [i]
      (n = 0 → s.unhindered i w.hd {} → s.gives i (s.issued u []))
        ∧ (n ≠ 0 → ok → s.unhindered i w.hd r → s.gives i (extra (
          if !s.mxRep then t
          else if n = 1 then t.profRecord s.issue.core s.issue.ctx true p
          else t.updSelf (fun x => { x with rep := some {
            instr := i, left := n - 1, next := s.cycle + mxOcc i w, advanced := false, seq := s.issue.seq, prof := p } }))))
    let own (c : Fin 208) (l : List (Nat × Nat × Nat)) := if c = s.issue.core then l else []
    let product (i : Instr) (asz bsz : Nat) (fresh : Bool) : Prop :=
      let as := repOffs n (s.mxA s.issue.core s.issue.ctx i w.aa)
      let bs := repOffs n (s.mxB s.issue.core s.issue.ctx i w.ab)
      works i fresh (s.gangFaults i = [] ∧ fits as asz ∧ fits bs bsz)
        { reads := own (s.mxCores s.issue.core i).1 (unitReads (as.headD 0) 1 (asz / 256)) ++ own (s.mxCores s.issue.core i).2 (unitReads (bs.headD 0) 1 (bsz / 256)) } id
    let rows (a : Nat) : List Nat := (List.range 128).map (fun r => a + 32 * elem (s.ictx.vReg w.vi.toNat) r 32)
    product (.mma w) 4096 4096 false ∧ product (.mmaZ w) 4096 4096 true ∧ product (.mmaT w) (8192 * mxNa w) (8192 * mxNb w) false
      ∧ works (.mmaG w) false (fits bs 4096 ∧ ∀ a ∈ as, a % 32 = 0 ∧ ∀ r ∈ rows a, r + 32 ≤ size)
        { reads := ((rows (as.headD 0)).zip (List.range 128)).map (fun p => (1 + p.2 / 16, p.1, 32)) ++ unitReads (bs.headD 0) 9 16 }
        (fun t => t.updOwn (fun y => ({ y with
          gatherFree := s.cycle + 8
          tileMaps := y.tileMaps.set w.td.toNat (gatherTileMap (s.icore.team.tileMaps.get w.td.toFin) w.vi.toNat s.issue.ctx.val) w.td.isLt }).pinCarriers
            (gatherTileMap (s.icore.team.tileMaps.get w.td.toFin) w.vi.toNat s.issue.ctx.val)))
      ∧ works (.mmaBS w) false (fits xs 8)
        { reads := s.bsReads (areaAddr (s.ictx.aReg w.aa) 0) (areaAddr (s.ictx.aReg w.ab) 0) (xs.headD 0) } id
      ∧ works (.tzero w) false True {} id
      ∧ (let row := if w.tya = 8 then 256 else 512
         works (.tload w) false (fits as (128 * row)) { reads := (List.range 128).map (fun r => (1 + r, as.headD 0 + row * r, row)) } id)
  ) ∧ (
  ∀ (s : State) (w : XWord) (p : PreRead),
    let a := areaAddr (s.ictx.aReg w.aa) 0
    let m := mapInstall p.mx
    (s.ictx.preread = some p → a % 32 = 0 → a + 48 ≤ spadSize s.issue.core s.icore.team →
        tileMapOk p.mx (partCtx s.icore.team.part) (partVregs s.icore.team.part) → (s.ictx.chken = true → p.mxEarly = none) →
        s.unhindered (.tmap w) w.hd {} →
        s.gives (.tmap w) ((s.issued w.hd.unit []).updOwn (fun y =>
          { ({ y with tileMaps := y.tileMaps.set w.td.toNat m w.td.isLt } : Team).pinCarriers m with mxFree := s.cycle + 2 })))
      ∧ (s.unhindered (.twait w) w.hd {} → s.gives (.twait w) (s.issued w.hd.unit []))
  ) ∧ (
  ∀ (s : State) (w : RWord), s.unhindered (.patswap w) w.hd {} →
    s.gives (.patswap w) ((s.issued w.hd.unit []).updOwn (fun t => { t with patActive := !t.patActive }))
  )

/-! ## System instructions -/

/-- Branches, calls and jumps (R77, R78, R346): a taken branch puts the target in the PC, and the context issues no earlier
than two cycles later and its stall (R39, R74); one not taken goes on at the next bundle. `CALL` writes `next` to s63.
Loops, repeats and waits (R79 to R82, R87, R88): what each leaves when its bundle issues. That a `REP` whose MX word's guard is
false counts its issues at once is the model's choice (log 163). -/
def Obligations.BranchLoopAndWaitResults : Prop :=
  (
  ∀ s : State,
    let goes (u : UnitCode) (acts : List (Nat × Act)) (t : BitVec 56) : State :=
      (s.issued u acts).updSelf (fun x => { x with pc := t, earliest := s.cycle + 2 + s.issue.stall })
    (∀ w : YTWord,
      let t : Int := s.issue.baddr.toNat + 8 * w.disp.toInt
      let u := w.hd.unit
      let p := s.ictx.pReg w.p
      let branch (i : Instr) (taken : Prop) (acts : List (Nat × Act)) : Prop :=
        (taken → 0 ≤ t → t < 2 ^ 56 → s.unhindered i w.hd {} → s.gives i (goes u acts (BitVec.ofInt 56 t)))
          ∧ (¬ taken → s.unhindered i w.hd {} → s.gives i (s.issued u []))
      branch (.br w) True [] ∧ branch (.call w) True [(1, .setS 63 (s.issue.next.zeroExtend 64))]
        ∧ branch (.brs w) (intCc (w.d.toNat % 16) (s.ictx.sReg w.a).toInt 0) []
        ∧ (w.d = 0 → branch (.brp w) (p.getLsbD 0) []) ∧ (w.d = 1 → branch (.brp w) (∃ j < 512, p.getLsbD j) [])
        ∧ (w.d = 2 → branch (.brp w) (∀ j < 512, p.getLsbD j) []))
      ∧ (∀ w : YSWord,
        let jump (i : Instr) (x : Word) : Prop :=
          x.toNat % 8 = 0 → x.toNat < 2 ^ 56 → s.unhindered i w.hd {} → s.gives i (goes w.hd.unit [] (x.extractLsb' 0 56))
        jump (.jmpi w) (s.ictx.sReg w.a) ∧ jump (.ret w) (s.ictx.sReg 63))
  ) ∧ (
  ∀ s : State,
    (∀ w : YCWord,
      let l : LoopState :=
        { base := s.issue.next, n := w.nm1.toNat + 1, left := countOf s.ictx w, pos := 0, first := true, skip := countOf s.ictx w == 0
          held := [], suspended := false, prof := { addr := s.issue.baddr, start := 0, issues := 0, fills := Vector.replicate 11 0 } }
      (countOf s.ictx w ≤ 2 ^ 24 → s.unhindered (.loop w) w.hd {} →
        s.gives (.loop w) ((s.issued w.hd.unit []).updSelf (fun x => { x with loop := some l })))
        ∧ ((w.csrc → countOf s.ictx w ≤ 4096) → s.unhindered (.rep w) w.hd {} →
          s.gives (.rep w) (match s.issue.all.find? usesMx with
            | some i => if countOf s.ictx w ≠ 0 ∧ (i.head.map s.ictx.guardBit).getD true = false then
                (s.issued w.hd.unit []).profRecord s.issue.core s.issue.ctx true
                  { Profile.reset with addr := s.issue.baddr, start := s.cycle, issues := countOf s.ictx w }
              else s.issued w.hd.unit []
            | none => s.issued w.hd.unit [])))
      ∧ (∀ w : YSWord,
        let u := w.hd.unit
        let only (i : Instr) : Prop := s.unhindered i w.hd {} → s.gives i (s.issued u [])
        let self (i : Instr) (f : Ctx → Ctx) : Prop := s.unhindered i w.hd {} → s.gives i ((s.issued u []).updSelf f)
        only (.nop w) ∧ only (.waitTok w) ∧ only (.drain w)
          ∧ (isControl s.issue.core = false → only (.waitCyc w))
          ∧ (isControl s.issue.core = true → s.unhindered (.waitCyc w) w.hd {} →
            s.gives (.waitCyc w) ((s.issued u []).updGroup (groupOf s.issue.core) (fun g => { g with watchdogAt := s.cycle })))
          ∧ self (.retire w) (fun x => { x with retired := true })
          ∧ (let wanted : Prop := s.icore.request = some .boundary ∧ ∃ t, s.taskAt s.issue.core = some t ∧ t.tcb.grade.getLsbD 0
             (wanted → self (.yield w) (fun x => { x with stopped := some (s.ictx.sReg w.a, s.issue.next) })) ∧ (¬ wanted → only (.yield w)))
          ∧ ((s.barrier s.issue.core w.scope.toNat (w.fn.toNat % 16)).isSome → only (.barWait w))
          ∧ self (.fenceQ w) (fun x => { x with fences := x.fences ++ [(w.fn.extractLsb' 0 8,
            ((s.icore.team.cmds.filter (fun y => y.ctx == s.issue.ctx && y.q < 8 && (w.fn.extractLsb' 0 8).getLsbD y.q
              && y.issued < s.cycle)).map (·.id)))] }))
  )

/-- The return from a trap (R91): `TREN` sets TE; `TRET` sets PC to TPC, clears HND and sets TE, and resumes or abandons a
suspended loop (R80). Neither changes TCAUSE, TVAL or TMASK. -/
def Obligations.TrapReturnResults : Prop :=
  ∀ (s : State) (w : YSWord),
    let u := w.hd.unit
    (s.unhindered (.tren w) w.hd {} → s.gives (.tren w) ((s.issued u []).updSelf (fun x => { x with te := true })))
      ∧ (s.unhindered (.tret w) w.hd {} → s.gives (.tret w) ((s.issued u []).updSelf (fun x => { x with
          pc := x.tpc, hnd := false, te := true, earliest := s.cycle + 2 + s.issue.stall
          loop := x.loop.bind (fun l => if l.suspended then (loopHolds l x.tpc).map (fun i => { l with suspended := false, pos := i }) else some l) })))

/-- Barriers (R84 to R86, R250): `BAR.INIT` sets the count and clears the arrivals; an arrival is counted in the issue cycle,
or with `.rel` after the stores that the context has issued.
An arrival at a barrier of the team (R85): it raises the arrivals by one, or clears them and moves the generation on when
the count is reached; the generation before it goes to the destination, a cycle later by the model's choice (log 153). -/
def Obligations.BarrierResults : Prop :=
  (
  ∀ (s : State) (w : YSWord),
    let b := w.fn.toNat % 16
    let n := s.ictx.sReg w.a
    let lat := if w.order = 2 then s.storesLeft else 0
    let act : Act := .arrive w.scope b w.d
    (s.barrier s.issue.core w.scope.toNat b).isSome →
      (n ≠ 0 → n.toNat ≤ 65535 → s.unhindered (.barInit w) w.hd {} →
        s.gives (.barInit w) ((s.issued w.hd.unit []).updBarrier s.issue.core w.scope.toNat b (fun x => { x with count := n.toNat, arrivals := 0 })))
      ∧ (s.unhindered (.barArrive w) w.hd {} → lat ≠ 0 → s.gives (.barArrive w) (s.issued w.hd.unit [(lat, act)]))
      ∧ (s.unhindered (.barArrive w) w.hd {} → lat = 0 →
        s.gives (.barArrive w) ((s.issued w.hd.unit []).runArrive s.issue.core (s.flight w.hd.unit 0 act) w.scope.toNat b w.d))
  ) ∧ (
  ∀ (s : State) (c : Fin 208) (p : Pend) (b : Fin 16) (d : Reg6),
    let x := (s.coreAt c).team.bars.get b
    let t := s.runArrive c p 0 b.val d
    let y := (t.coreAt c).team.bars.get b
    y.count = x.count
      ∧ (x.arrivals + 1 = x.count → y.arrivals = 0 ∧ y.gen = x.gen + 1)
      ∧ (x.arrivals + 1 ≠ x.count → y.arrivals = x.arrivals + 1 ∧ y.gen = x.gen)
      ∧ (d ≠ 0 → (t.coreAt c).team.pend = insertPend (s.coreAt c).team.pend { p with due := s.cycle + 1, act := .setS d (x.gen.zeroExtend 64) })
      ∧ (d = 0 → (t.coreAt c).team.pend = (s.coreAt c).team.pend)
      ∧ (∀ j : Fin 16, j ≠ b → (t.coreAt c).team.bars.get j = (s.coreAt c).team.bars.get j)
  )

/-- Control registers (R27 to R32, R93): `MFC` reads the register in the issue cycle, with latency 1; `MTC` writes what is
not read-only, with effect at once: TE of TSTAT alone, WAITLIM clamped to 1 and 10,000. Which bits make an `MTC` trap (log 17)
and what LCORE and PCORE read as on a control core (logs 18 and 20) are the model's choices. -/
def Obligations.ControlRegisterResults : Prop :=
  ∀ (s : State) (w : YSWord),
    let c := s.ictx
    let n := w.fn.toNat % 256
    let x := s.ictx.sReg w.a
    let old := s.creg s.issue.core s.issue.ctx
    let reads (k : Nat) (v : Word) : Prop := n = k → s.unhindered (.mfc w) w.hd {} → s.gives (.mfc w) (s.issued w.hd.unit [(1, .setS w.d v)])
    let writes (i : Instr) (k : Nat) (f : Ctx → Ctx) : Prop :=
      x &&& cregRo k = old k &&& cregRo k → s.unhindered i w.hd {} → s.gives i ((s.issued w.hd.unit []).updSelf f)
    reads n (old n) ∧ reads 0x00 (BitVec.ofNat 64 (4 * s.issue.ctx.val + 2 * c.hnd.toNat + c.te.toNat))
      ∧ reads 0x01 (c.tcause.zeroExtend 64) ∧ reads 0x02 (c.tpc.zeroExtend 64) ∧ reads 0x03 c.tval ∧ reads 0x04 (c.tmask.zeroExtend 64)
      ∧ reads 0x05 (c.tvec.zeroExtend 64) ∧ reads 0x08 s.icore.team.part ∧ reads 0x09 (c.waitlim.zeroExtend 64)
      ∧ reads 0x10 (s.gstep.zeroExtend 64) ∧ reads 0x13 (BitVec.ofNat 64 s.cycle)
      ∧ writes (.mtcTstat w) 0 (fun y => { y with te := x.getLsbD 0 })
      ∧ writes (.mtcWaitlim w) 9 (fun y => { y with waitlim := BitVec.ofNat 14 (max 1 (min 10000 x.toNat)) })
      ∧ writes (.mtc w) n (fun y => y.setCreg n x)
      ∧ (n = 3 → writes (.mtc w) 3 (fun y => { y with tval := x }))
      ∧ (n = 5 → writes (.mtc w) 5 (fun y => { y with tvec := (x.extractLsb' 3 53) ++ (0#3) }))

/-- The instructions of control cores that act at once (R103 to R106): aborts and reads of scans, the core map with its holds
(R402), the next word of the statistics queue, with the record of lost records once 32 words are free (R380), and the end of
a halt. The fields of that record that no rule gives (log 54), when an abort completes (log 136) and that a core destined
for a migrating task counts as running it (log 197) are the model's choices. -/
def Obligations.ControlCoreResults : Prop :=
  ∀ (s : State) (w : YSWord),
    let a := s.ictx.sReg w.a
    let g := groupOf s.issue.core
    let phys := physCore g a.toNat
    let t := s.issued w.hd.unit []
    let scan := (t.coreAt phys).scan
    (a.toNat < 25 → s.unhindered (.scanAbort w) w.hd {} →
        s.gives (.scanAbort w) (if scan.running ∧ ¬ scan.aborting then t.abortScan phys none else t))
      ∧ (a.toNat < 25 → s.unhindered (.scanRead w) w.hd {} →
        s.gives (.scanRead w) (s.issued w.hd.unit [(1, .setS w.d (s.scanWord phys))]))
      ∧ (a.toNat < 25 → s.unhindered (.dbgResume w) w.hd {} → s.gives (.dbgResume w) (t.updCore phys (fun y => y.resume s.cycle)))
      ∧ (s.cmapBad g a (s.ictx.sReg w.b) = false → s.unhindered (.cmapSet w) w.hd {} →
        s.gives (.cmapSet w) (t.setCmap g a.toNat ((s.ictx.sReg w.b).extractLsb' 0 8)))
      ∧ (∀ (x : Word) (r : List Word), (s.groupAt g).statq = x :: r → s.unhindered (.sqpop w) w.hd {} →
        s.gives (.sqpop w) ((t.updGroup g (fun y => tellLost { y with statq := r } g.val s.cycle)).updOwn (fun y =>
          y.push (s.flight w.hd.unit 4 (.setS w.d x)))))
      ∧ ((s.groupAt g).statq = [] → s.unhindered (.sqpop w) w.hd {} →
        s.gives (.sqpop w) (s.issued w.hd.unit [(4, .setS w.d 0)]))

/-! ## Engine commands -/

/-- Every EN word puts its command, with the operands and ranges of the issue cycle, behind the outstanding commands, and
under AINC moves OFF of aA by INC (R190, R191, R194); nothing else happens until the command starts.
The instructions that begin a command without a queue, and the vote of queue 5 (R89, R94, R103, R106): the command
stands with its operands of the issue cycle, its token is pending, and the one without a queue starts in the same cycle.
A command that enters its queue (R26, R191): it stands last among the outstanding commands of the team, with a number
of its own and the cycle and bundle of its issue, and its token is pending unless it is s0. That one without a queue starts in the
cycle of its issue (log 36) and how a range past the circular buffer is recorded (log 161) are the model's choices. -/
def Obligations.CommandWordResults : Prop :=
  (
  ∀ (s : State) (w : EWord),
    let c := s.ictx
    let a := c.enAddr w
    let size := spadSize s.issue.core s.icore.team
    let sC := (c.sReg w.c).toNat
    let acts : List (Nat × Act) :=
      if w.fn.getLsbD 10 then [(1, .setA (enArea w) (areaAdvance (c.aReg (enArea w)) (areaInc (c.aReg (enArea w)))))] else []
    let queued (i : Instr) (l : List Range) : State :=
      (s.issued w.hd.unit acts).addCmd s.issue.core s.issue.ctx { c.enCmd i w with ranges := l.map (·.wrap (c.aReg (enArea w))) }
    let queues (i : Instr) (l : List Range) : Prop := s.unhindered i w.hd {} → s.gives i (queued i l)
    let rd (n : Nat) : Range := { lo := a, hi := a + n, write := false }
    let wr (n : Nat) : Range := { lo := a, hi := a + n, write := true }
    let all (write : Bool) : Range := { lo := 0, hi := size, write := write }
    let view (i : Instr) (write : Bool) : Prop := a % 32 = 0 → queues i [rd 128, all write]
    let atom (i : Instr) : Prop := queues i (if atomRet w then [wr (sWidth (w.fn.extractLsb' 3 4) / 8)] else [])
    let alone : Prop := ∀ t, s.taskAt s.issue.core = some t → t.tcb.gang = 0
    let tile (t : State) : State := t.updOwn (fun y => { y with tileBusy := y.tileBusy ||| BitVec.ofNat 16 (2 ^ (w.fn.toNat % 16)) })
    let rows := (c.sReg w.b).toNat / 256 % 256
    let rb := kvRb (s.kvDesc (kvSpace w))
    view (.cpy w) (!dirOut w) ∧ view (.cpyh w) (!dirOut w) ∧ view (.swcpyIn w) true ∧ view (.swcpyOut w) false
      ∧ view (.swcpyDec w) true ∧ view (.swcpyMerge w) false
      ∧ (a % 32 = 0 → queues (.cpys w) [wr 128, all (!dirOut w)])
      ∧ (a % 32 = 0 → ¬ (w.fn.getLsbD 4 ∧ alone) →
        queues (.cpym w) (rd 128 :: if s.maskOwn s.issue.core (c.sReg w.b) then [all true] else []))
      ∧ (s.unhindered (.cpyl w) w.hd {} → s.gives (.cpyl w) (tile (queued (.cpyl w)
          [{ lo := a, hi := a + rows * cpylRow w, write := cpylOut w }])))
      ∧ (s.unhindered (.cpylTopk w) w.hd {} → s.gives (.cpylTopk w) (tile (queued (.cpylTopk w) [wr (8 * (sC % 128) * rows)])))
      ∧ atom (.atomAdd w) ∧ atom (.atomMin w) ∧ atom (.atomMax w) ∧ atom (.atomXchg w) ∧ atom (.atomCas w)
      ∧ queues (.atomk w) [rd (4 * (32 * (w.fn.toNat % 256 + 1)))]
      ∧ queues (.collAR w) [rd 32, all true] ∧ queues (.collRS w) [rd 32, all true] ∧ queues (.collAG w) [rd 32, all true]
      ∧ queues (.collA2A w) [rd 32, all true] ∧ queues (.bkset w) [rd 32] ∧ queues (.kick w) [] ∧ queues (.sidx w) [rd 32]
      ∧ queues (.rtabCommit w) []
      ∧ queues (.kvld w) [wr (sC % 2 ^ 16 * rb)] ∧ queues (.kvapp w) [rd (2 * (sC % 2 ^ 16) * rb)]
      ∧ queues (.kvremap w) [rd (8 * (sC % 2 ^ 11))] ∧ queues (.kvshare w) [rd (4 * (sC % 2 ^ 11))] ∧ queues (.kvprom w) []
      ∧ queues (.pfxfind w) [] ∧ queues (.pfxins w) [] ∧ queues (.attn w) [rd 64, all true]
      ∧ queues (.stnew w) [all false] ∧ queues (.splice w) [all false] ∧ queues (.stpin w) [] ∧ queues (.stunpin w) []
      ∧ queues (.sweep w) [rd 32]
  ) ∧ (
  ∀ (s : State) (w : YSWord),
    let a := s.ictx.sReg w.a
    let b := s.ictx.sReg w.b
    let adds (x : Cmd) : State := (s.issued w.hd.unit []).addCmd s.issue.core s.issue.ctx x
    let begins (i : Instr) (x : Cmd) : Prop := s.unhindered i w.hd {} →
      s.gives i ((adds x).now (event .engineStart (.cmd { core := s.issue.core, id := s.nextId })))
    begins (.launch w) { Cmd.new (.launch w) 8 w.d with aReg := a } ∧ begins (.enq w) { Cmd.new (.enq w) 8 w.d with aReg := a, b := b }
      ∧ begins (.scanStart w) { Cmd.new (.scanStart w) 8 w.d with aReg := a } ∧ begins (.dbgHalt w) { Cmd.new (.dbgHalt w) 8 w.d with aReg := a }
      ∧ (s.unhindered (.stepC w) w.hd {} → s.gives (.stepC w) (adds { Cmd.new (.stepC w) 5 w.d with aReg := a, b := b }))
  ) ∧ (
  ∀ (s : State) (c : Fin 208) (k : Fin 4) (x : Cmd),
    let t := s.addCmd c k x
    t.nextId = s.nextId + 1
      ∧ (∃ y : Cmd, (t.coreAt c).team.cmds = (s.coreAt c).team.cmds ++ [y] ∧ y.id = s.nextId ∧ y.ctx = k ∧ y.baddr = s.issue.baddr
          ∧ y.issued = s.cycle ∧ s.cycle < y.readyAt ∧ y.instr = x.instr ∧ y.q = x.q ∧ y.tok = x.tok ∧ y.state = x.state
          ∧ y.by_ = c ∧ y.aReg = x.aReg ∧ y.b = x.b ∧ y.c = x.c ∧ y.ranges = x.ranges)
      ∧ (∀ r : Reg6, (t.ctxAt c k).tokPend.getLsbD r.toNat = ((s.ctxAt c k).tokPend.getLsbD r.toNat || (r == x.tok && x.tok != 0)))
      ∧ (t.ctxAt c k).s = (s.ctxAt c k).s ∧ t.mem = s.mem
  )

/-! ## Micro-operations of the attention sequencer -/

/-- The micro-operations (R318 to R322): each checks its tiles, regions, order and rows, acts on the tiles, the row vectors
and the scratchpad, and moves the micro-PC on.
The micro-operations that control the run (R319, R320, R323): `FETCHKV` stages the next tile of K and V, `NEXT` commits
the pending part and steps to the tile below, `JUMP` chooses the micro-PC, `END` completes the `ATTN` command with the tokens
processed.
A micro-operation that finds a reserved field set, its tile outside the record's, or a tile not fetched fails the run with
the number of the first rule broken (R323). That one runs a cycle (log 88) and that their floats append no record (log 157) are
the model's choices. -/
def Obligations.MicroOperationResults : Prop :=
  (
  ∀ (s : State) (c : Fin 208),
    let q := (s.coreAt c).team.seq
    let d := kvRb (s.kvDesc q.space) / 2
    let tile (n : Nat) : Prop := n < q.attn.nt.toNat
    let inside (off : BitVec 32) (n : Nat) : Prop := off.toNat + n ≤ q.attn.obytes.toNat
    let rows : Prop := (q.attn.param.get 0).toNat < 128
    let runs (i : Instr) (ok : Prop) (f : Team → Team) : Prop :=
      s.sequences c i → ok → exec i s = .next (s.updTeam c (fun t => (f t).seqOn))
    let ts := q.mw.ts.toNat
    runs .score (tile ts ∧ inside q.mw.offa (256 * d) ∧ 256 * d ≤ q.attn.qbytes.toNat ∧ q.fetched = true ∧ rows) (fun t =>
        let u := t.putRows q ts (t.mxSteps q.attn.qspad.toNat (q.attn.ospad.toNat + q.mw.offa.toNat) (d / 16) (List.replicate 128 0))
        { u with tileMaps := setAt u.tileMaps (q.tile ts) (fun _ => scoreMap q.lo q.hi q.nq) })
      ∧ runs .scale (tile ts ∧ q.fetched = true) (fun t => t.putRows q ts ((t.tileRows q ts 128).map
        (mapRow (fun _ x => fp32.exact (fMul (fp32.decode x) (fp32.decode q.attn.scale.toNat)).1))))
      ∧ runs .mask (tile ts ∧ q.fetched = true ∧ rows) (fun t => t.putRows q ts (((t.tileRows q ts 128).zip (List.range 128)).map (fun p =>
        mapRow (fun k x => if q.nq ≤ p.2 ∨ q.hi - q.lo ≤ k ∨ ¬ q.seen (q.lo + k) then 0xFF800000 else x) p.1)))
      ∧ runs .smax (tile ts ∧ inside q.mw.offa 32768 ∧ q.fetched = true ∧ rows) (fun t =>
        let u := (List.range q.nq).foldl Team.smax t
        { u with seq := { u.seq with smaxed := true } })
      ∧ runs .weigh (tile (q.mw.tOut.toNat + 1) ∧ inside q.mw.offa 32768 ∧ inside q.mw.offb 32768 ∧ q.fetched = true ∧ q.smaxed = true ∧ rows)
        (fun t =>
          let u := t.putRows q (q.mw.tOut.toNat + 1 - q.ocur.toNat)
            (t.mxSteps (q.at_ q.mw.offa) (q.at_ q.mw.offb) 8 ((List.range q.nq).map t.weighRow))
          { u with seq := { u.seq with weighed := true } })
      ∧ runs .flush (tile (q.mw.tOut.toNat + 1) ∧ inside q.mw.offa (flushLen q d) ∧ d ≤ 128 ∧ rows) (fun t =>
        let u := t.engPut (q.at_ q.mw.offa) (t.flushBytes d)
        { u with seq := { u.seq with restart := u.seq.pc } })
  ) ∧ (
  ∀ (s : State) (c : Fin 208),
    let q := (s.coreAt c).team.seq
    let d := kvRb (s.kvDesc q.space) / 2
    (∀ (x : Cmd) (k v : List (Nat × Nat × List Byte)) (st : KvSt),
      let hi := q.top
      let lo := max q.start (hi - (q.mw.n.toNat + 1))
      let s1 := s.updSeq c (fun q => { q with restart := q.pc })
      s.sequences c .fetchkv → d ≤ 128 → q.mw.offa.toNat + (256 * d + 32768) ≤ q.attn.obytes.toNat → s.seqCmd c = some x →
      KvM.run (do
        let k ← kvTile q.page false lo 129 hi
        let v ← kvTile q.page true lo 129 hi
        pure (k, v)) s1 (s.seqEng c).tlb q.space = (.ok (k, v), st) →
      (∀ p ∈ k ++ v, p.1 = 8) →
        let s2 := (st.s.engPadWrite (s.seqEng c) (q.at_ q.mw.offa) (stageBytes d lo (hi - lo) k v)).updSeq c
          (fun q => { q with lo := lo, hi := hi, fetched := true })
        exec .fetchkv s = .next ((if lo < hi then s2.runAhead (s.seqEng c) q.space q.page lo else s2).seqStep c))
      ∧ (s.sequences c .seqNext → q.weighed = true →
        exec .seqNext s = .next (((s.updSeq c (fun q => { q with
          m := q.m', s := q.s', ocur := !q.ocur, top := q.lo, processed := q.processed + (q.hi - q.lo)
          fetched := false, smaxed := false, weighed := false, lo := 0, hi := 0 })).seqWalk c).seqStep c))
      ∧ (s.sequences c .jump →
        let taken : Prop := q.mw.cond.toNat = 0 ∨ q.mw.cond.toNat = 1 ∧ q.start < q.top ∨ 2 ≤ q.mw.cond.toNat ∧ q.top = q.start
        (taken → exec .jump s = .next (s.updSeq c (fun q => { q with pc := q.mw.n.toNat })))
          ∧ (¬ taken → exec .jump s = .next (s.updSeq c (fun q => { q with pc := q.pc + 1 }))))
      ∧ (∀ x : Cmd, s.sequences c .seqEnd → s.seqCmd c = some x →
        exec .seqEnd s = .next ((s.endCmd x 0 q.processed).1.seqOver c (s.endCmd x 0 q.processed).2))
  ) ∧ (
  ∀ (s : State) (c : Fin 208) (i : Instr),
    let q := (s.coreAt c).team.seq
    i ∈ [.fetchkv, .score, .scale, .mask, .smax, .weigh, .seqNext, .jump, .flush, .seqEnd] →
    s.ev = .core c → q.running = true → q.parked = false →
      (i.microOk q.mw = false → exec i s = .next (s.seqFail c 1))
      ∧ (i.microOk q.mw = true → i ∈ [.score, .scale, .mask, .smax] → q.attn.nt.toNat ≤ q.mw.ts.toNat → exec i s = .next (s.seqFail c 2))
      ∧ (i.microOk q.mw = true → i = .scale → q.mw.ts.toNat < q.attn.nt.toNat → q.fetched = false → exec i s = .next (s.seqFail c 5))
      ∧ (i.microOk q.mw = true → i = .seqNext → q.weighed = false → exec i s = .next (s.seqFail c 5))
  )

/-! ## The host's commands -/

/-- Configuration commands (R269, R274, R282, R283, R304, R317, R339, R360, R368, R373): what each puts in force, and the
answer. What an address of `ROOT` must be (log 115), that `KVCFG` keeps EPOCH and LATE (log 119), and which member lists (log 120)
and domain and table entries (log 124) are taken are the model's readings. -/
def Obligations.HostConfigurationResults : Prop :=
  ∀ s : State,
    let p := s.pkt
    let a := p.arg0
    let b := p.arg1
    let empty : Prop := p.payload = []
    let only (x : Word) (m : Nat) : Prop := x &&& ~~~(BitVec.ofNat 64 m) = 0
    let puts (i : Instr) (op : Nat) (ok : Prop) (f : State → State) : Prop := ok → s.answers i op (f (s.taken i)) (Answer.done 0)
    puts .root 0x04 (empty ∧ only a (2 ^ 52 - 4096) ∧ only b 0xFF)
        (fun u => { u with roots := storePut u.roots (b.toNat % 256) (if a = 0 then none else some (a.extractLsb' 0 52)) })
      ∧ (let n := (b.extractLsb' 16 48).toNat * 4096
         puts .inval 0x05 (empty ∧ only a (2 ^ 56 - 4096) ∧ only b (2 ^ 64 - 2 ^ 16 + 0xFF)) (fun u => { u with
           tlbs := u.tlbs.map (fun l => l.filter (fun e => !(e.asid == b.extractLsb' 0 8
             && decide (e.base < a.toNat + n) && decide (a.toNat < e.base + e.size))))
           walkers := u.walkers.map (fun l => l.filter (fun e => !(e.asid == b.extractLsb' 0 8
             && decide (e.top * 2 ^ (12 + 9 * e.level) < a.toNat + n) && decide (a.toNat < (e.top + 1) * 2 ^ (12 + 9 * e.level))))) }))
      ∧ (let u := s.taken .qcfg
         let q := a.toNat
         let cap := queueCap b
         puts .qcfg 0x10 (empty ∧ only a 0x7F ∧ queueBad b = false
           ∧ (cap = 0 → u.entries q = [] ∧ u.resumeList q = []) ∧ (cap ≠ 0 → (u.entries q).length ≤ cap))
           (fun u => (State.dropReserves { u with queues := setAt u.queues q (fun _ => b) } q).kick))
      ∧ puts .scfg 0x11 (empty ∧ only a 0xFFFF ∧ b = 0 ∧ a ≠ 0) (fun u => { u with ageLimit := a.toNat })
      ∧ puts .kvcfg 0x12 (p.payload.length = 64 ∧ only a 0xF ∧ b = 0 ∧ kvBadDesc p.payload = false ∧ (s.taken .kvcfg).kvNamed (a.extractLsb' 0 4) = false)
        (fun u => u.setKvDesc (a.extractLsb' 0 4) (BitVec.ofNat 512 (natOf (p.payload.take 48)
          + ((u.kvDesc (a.extractLsb' 0 4)).extractLsb' 384 64).toNat * 2 ^ 384 + natOf (p.payload.drop 56) * 2 ^ 448)))
      ∧ (let n := p.payload.length / 12
         puts .seqload 0x13 (only a 0x3FF ∧ b = 0 ∧ p.payload.length % 12 = 0 ∧ n ≠ 0 ∧ a.toNat + n ≤ 1024
           ∧ ∀ c : Fin 208, ((s.taken .seqload).coreAt c).team.seq.running = false)
           (fun u => { u with seqStore := (List.range n).foldl (fun m i =>
             storePutD 0 m (a.toNat + i) (BitVec.ofNat 96 (natAt p.payload (12 * i) 12))) u.seqStore }))
      ∧ (let h := a.extractLsb' 0 32
         let l := memberList p.payload
         puts .stepgrp 0x14 (p.payload.length % 2 = 0 ∧ only a (2 ^ 32 - 1) ∧ only b (2 ^ 32 - 1) ∧ h ≠ 0 ∧ (s.taken .stepgrp).badMembers l = false
           ∧ ∀ g, (s.taken .stepgrp).stepGroup = some g → g.handle = h ∧ (s.taken .stepgrp).voteOut h = false)
           (fun u => ({ u with
             stepGroup := some { handle := h, members := l, steps := 0, broken := false
                                 votes := (u.heldVotes.filter (fun v => v.1 == h)).map (fun v => v.2) }
             gstep := b.extractLsb' 0 32, factors := u.staged, heldVotes := u.heldVotes.filter (fun v => v.1 != h) } : State).voteCheck))
      ∧ (let t := Vector.ofFn (fun i : Fin 16 => BitVec.ofNat 32 (natAt p.payload (4 * i.val) 4))
         puts .ftab 0x15 (p.payload.length = 64 ∧ a = 0 ∧ b = 0)
           (fun u => { u with staged := t, factors := if u.stepGroup.isNone then t else u.factors }))
      ∧ (let h := a.extractLsb' 0 32
         let l := memberList p.payload
         let u := s.taken .collgrp
         let rest := u.collGroups.filter (fun g => g.handle != h)
         puts .collgrp 0x16 (p.payload.length % 2 = 0 ∧ only a (2 ^ 32 - 1) ∧ only b 3 ∧ h ≠ 0 ∧ b.getLsbD 1 = false ∧ u.badMembers l = false
           ∧ (∀ i ∈ l, (storeFind u.domain i).isSome) ∧ rest.length < 256 ∧ ((u.collGroup h).isSome → u.collOut h = false))
           (fun u => ({ u with collGroups := rest ++ [{ handle := h, die := b.getLsbD 0, members := l, rank := l.idxOf u.device.toNat, joined := 0 }] } : State).collSettle))
      ∧ (let x := p.payload.getD 0 0
         let u := s.taken .rtabcfg
         let old := (storeFind u.rtabs a.toNat).bind (·.commit)
         puts .rtabcfg 0x17 (p.payload.length = 4 ∧ only a 0xFF ∧ only b (2 ^ 56 - 1) ∧ natAt p.payload 1 3 = 0 ∧ x.getLsbD 7)
           (fun u => { u with rtabs := storePut u.rtabs a.toNat (some
             { addr := b.extractLsb' 0 56, queue := x.extractLsb' 0 7, enabled := true, commit := old }) }))
      ∧ (let es := elemsOf 4 p.payload
         puts .domcfg 0x18 (p.payload.length % 4 = 0 ∧ only a 0x3FFF ∧ b = 0 ∧ a.toNat + es.length ≤ 16384 ∧ ∀ x ∈ es, x / 2 ^ 24 % 128 = 0)
           (fun u => { u with domain := (es.zip (List.range es.length)).foldl (fun m x =>
             storePut m (a.toNat + x.2) (if 2 ^ 31 ≤ x.1 then some (BitVec.ofNat 24 x.1) else none)) u.domain }))

/-- The other commands of the host (R89, R273, R278, R355, R362, R363, R393). Signatures and fused values are
free (logs 9 and 10). The order of the failures of `SUBMIT` (logs 91, 117) and that it waits for firmware (log 118), and how `MEMWR`
and `MEMRD` walk (log 116), are the model's choices, and so are the drop of a packet on a closed stream (log 121) and the
walk-cache entries that `RESUME` drops (log 182) and what a page that cannot be mapped leaves unwritten (log 202).
A command with a malformed packet is answered with STATUS 0x11 and changes nothing else, and a command on a stream that
is not open has no effect (R361, R362, R391). -/
def Obligations.HostCommandResults : Prop :=
  (
  ∀ s : State,
    let p := s.pkt
    let a := p.arg0
    let b := p.arg1
    let empty : Prop := p.payload = []
    let only (x : Word) (m : Nat) : Prop := x &&& ~~~(BitVec.ofNat 64 m) = 0
    let asid := b.extractLsb' 0 8
    let phys : Prop := b.getLsbD 8 → a.toNat < 2 ^ 52
    (let r := (s.taken .submit).submitTcb (firmwareCluster 0) asid a.toNat none (some p.stream)
     empty → only a (2 ^ 56 - 1) → only b 0xFF → (∀ g : Fin 8, ((s.taken .submit).groupAt g).down = false) →
       (∀ q, r.2 = .queued q → s.answers .submit 0x01 r.1 (Answer.done q))
         ∧ (∀ x, r.2 = .refused x → s.answers .submit 0x01 r.1 (Answer.fail (x.zeroExtend 8))))
      ∧ (let r := (s.taken .memwr).hostWrite (b.getLsbD 8) asid (hostRange p p.payload.length) p.payload 0
         only a (2 ^ 56 - 1) → only b 0x1FF → phys → s.answers .memwr 0x02 r.1 r.2)
      ∧ (let n := (b.extractLsb' 32 12).toNat
         let r := (s.taken .memrd).hostRead (b.getLsbD 8) asid (hostRange p n) []
         empty → only a (2 ^ 56 - 1) → only b (0xFFF * 2 ^ 32 + 0x1FF) → n ≠ 0 → n ≤ 4064 → phys → s.answers .memrd 0x03 r.1 r.2)
      ∧ (let u := s.taken .resume
         let mine (x : ParkedPage) : Bool := x.asid == asid && x.page == a.toNat
         empty → only a (2 ^ 56 - 4096) → only b 0x1FF →
           s.answers .resume 0x06 ((u.parked.filter mine).foldl (fun s x => x.who.foldl (fun s w => s.servePark (b.getLsbD 8) x w) s)
             { u with parked := u.parked.filter (fun x => !mine x), walkers := u.walkers.map (fun l => l.filter (fun e => !e.meets asid a.toNat 4096)) })
             (Answer.done 0))
      ∧ (∀ (t : State) (pa : Nat), (s.taken .hunbind).hostAddr false asid (a.toNat + 20) 1 .write = (t, some pa) →
         let v := t.pwrite pa [memGet t.mem pa &&& ~~~1]
         empty → only a (2 ^ 56 - 1) → only b 0xFF → isAgain s.ev = false → v.usesHandle asid a.toNat = false →
           s.answers .hunbind 0x07 v (Answer.done 0))
      ∧ (let u := s.taken .abort
         let named (t : Task) : Bool := t.alive && t.failure.isNone && t.tcba == a.extractLsb' 0 56
         empty → only a (2 ^ 56 - 1) → b = 0 →
           (u.tasks.find? named = none → s.answers .abort 0x20 u (Answer.done 0))
             ∧ (∀ t, u.tasks.find? named = some t → s.answers .abort 0x20
               { u.abortTask t with resumes := (u.abortTask t).resumes.filter (fun i => i != t.id) } (Answer.done 1)))
      ∧ (let r := (s.taken .attest).report p.payload
         let d := r ++ bytesOf 2 (Config.falconSign (shake256 r 64)).length ++ Config.falconSign (shake256 r 64)
         p.payload.length = 32 → a = 0 → b = 0 →
           s.answers .attest 0x21 (s.taken .attest) { status := 0, value := BitVec.ofNat 64 d.length, data := d })
  ) ∧ (
  ∀ (s : State) (i : Instr) (op : Nat), (i, op) ∈ [(.submit, 0x01), (.memwr, 0x02), (.memrd, 0x03), (.root, 0x04), (.inval, 0x05),
      (.resume, 0x06), (.hunbind, 0x07), (.qcfg, 0x10), (.scfg, 0x11), (.kvcfg, 0x12), (.seqload, 0x13), (.stepgrp, 0x14), (.ftab, 0x15),
      (.collgrp, 0x16), (.rtabcfg, 0x17), (.domcfg, 0x18), (.abort, 0x20), (.attest, 0x21), (.dhalt, 0x30), (.dresume, 0x31), (.dread, 0x32),
      (.dbrk, 0x33), (.dprof, 0x34), (.dmaster, 0x35), (.statring, 0x36), (.capture, 0x37), (.framerel, 0x38)] →
    (s.ev = .none → s.streams.get s.pkt.stream.toFin = none → exec i s = .next s)
      ∧ (packetBad s.pkt = true → (s.ev = .none → (s.streams.get s.pkt.stream.toFin).isSome ∧ (s.taken i).mustWait s.pkt i = false) →
        exec i s = .next ((s.taken i).respond op Answer.bad))
  )

/-- Debug requests that this device performs itself (R384, R385, R387). Where the capture area lies is the model's choice (log
13), and so are which packets a capture holds as it begins and as its replay starts (log 169), which fields a request checks (log 125), the answer of a halt of several
cores (log 126) and the order of a capture's ranges (log 130). -/
def Obligations.DebugRequestResults : Prop :=
  ∀ (s : State) (cs : List (Fin 208)),
    let p := s.pkt
    let b := p.arg1
    let only (m : Nat) : Prop := b &&& ~~~(BitVec.ofNat 64 m) = 0 ∧ p.payload = []
    let named (i : Instr) : Prop := (s.taken i).debugCores p = some cs
    let does (i : Instr) (op : Nat) (ok : Prop) (f : State → State) (a : Answer) : Prop :=
      s.takesDebug → ok → s.answers i op (f (s.taken i)) a
    let each (f : Core → Core) (u : State) : State := cs.foldl (fun s c => s.updCore c f) u
    (let i : Instr := .dhalt
     let u := s.taken i
     s.takesDebug → named i → only 0 →
       (isAgain s.ev = true → (∀ c ∈ cs, (u.coreAt c).haltReq = false) → s.answers i 0x30 u (Answer.done (u.lastStop cs)))
         ∧ (isAgain s.ev = false → (∃ c ∈ cs, (u.coreAt c).halted = none) → s.takes i →
           exec i s = .next { u.askHalt cs with heldCmds := { instr := i, arg := againArg s.ev, pkt := some p } :: (u.askHalt cs).heldCmds }))
      ∧ does .dresume 0x31 (named .dresume ∧ only 0) (each (fun y => y.resume s.cycle)) (Answer.done 0)
      ∧ (∀ (c : Fin 208) (l : List Byte),
         let n := (b.extractLsb' 24 12).toNat
         let k : Fin 4 := ⟨(b.extractLsb' 40 2).toNat, by omega⟩
         does .dread 0x32 (named .dread ∧ cs = [c] ∧ only (2 ^ 42 - 1) ∧ debugAllCore p = false ∧ n ≠ 0 ∧ n ≤ 4064
             ∧ ((s.taken .dread).coreAt c).halted.isSome
             ∧ (s.taken .dread).debugBytes c (b.extractLsb' 36 4).toNat k (b.extractLsb' 0 24).toNat n = some l) id
           { status := 0, value := BitVec.ofNat 64 l.length, data := l })
      ∧ does .dbrk 0x33 (named .dbrk ∧ only (2 ^ 63 + 2 ^ 58 - 1)) (each (fun y => { y with
           brks := y.brks.set (b.extractLsb' 56 2).toNat (if b.getLsbD 63 then some (b.extractLsb' 0 56) else none) (by omega) })) (Answer.done 0)
      ∧ (let n := (b.extractLsb' 0 32).toNat
         does .dprof 0x34 (named .dprof ∧ only (2 ^ 33 - 1) ∧ (n = 0 ∨ 1024 ≤ n))
           (each (fun y => { y with samplePeriod := n, sampleBase := s.cycle, loopProf := b.getLsbD 32 })) (Answer.done 0))
      ∧ (let on := b.getLsbD 0
         does .dmaster 0x35 (only 1 ∧ ¬ (on = true ∧ (s.taken .dmaster).otherMaster = true)) (fun u =>
           { (if on = false ∧ u.master = false then u
              else u.domain.foldl (fun s m => if m.1 = s.device.toNat then s else s.send (.fabric m.2.toNat none (.masterDeclared on))) u) with
             master := on })
           (Answer.done 0))
      ∧ does .statring 0x36 (only (2 ^ 56 - 4096)) (fun u => { u with statRing := b.toNat }) (Answer.done 0)
      ∧ (let u := s.taken .capture
         b &&& ~~~3 = 0 → p.payload.length % 16 = 0 → p.payload.length ≤ 256 →
           (b.getLsbD 0 = false → does .capture 0x37 True (fun u => { u with capture := { u.capture with on := false } }) (Answer.done 0))
             ∧ (b = 3 → u.tasks.any Task.alive = false → does .capture 0x37 True (fun u =>
               ({ u with capture := { u.capture with
                   on := true, replay := true, paused := false, next := 0, used := [], packets := withoutLast u.capture.packets 0x37 p } } : State).captureRestore
                 captureArea u.capture.ranges) (Answer.done captureArea))
             ∧ (∀ t bs, b = 1 → u.tasks.any Task.alive = false → u.captureRead (captureRanges p.payload) = (t, some bs) →
               does .capture 0x37 True (fun _ => { t.pwrite captureArea bs with
                 capture := { Capture.reset with on := true, ranges := captureRanges p.payload, packets := t.waitingPackets } }) (Answer.done captureArea))
             ∧ (∀ t, b = 1 → u.tasks.any Task.alive = false → u.captureRead (captureRanges p.payload) = (t, none) →
               does .capture 0x37 True (fun _ => t) (Answer.fail 0x13)))
      ∧ (let mine (t : Task) : Bool := t.state == .kept && t.tcba == b.extractLsb' 0 56
         does .framerel 0x38 (only (2 ^ 56 - 1) ∧ (s.taken .framerel).tasks.any mine) (fun u => { u with tasks := u.tasks.filter (fun t => !mine t) })
           (Answer.done 0))

/-- The copies (R198 to R204, R264, R277, R405), as a command of theirs starts. An operand, a descriptor out of range or a bad
view ends it with its ERR and nothing moved. A raw view of one row and page moves: `CPY` to the
scratchpad or to memory, every other byte as before; `CPYM` into the cluster slice, with one copy to come for each masked core;
`CPYH` checks its handle and sends its messages. `CPYL` moves rows of a tile as it starts, and frees the tile.
The staging of a whole command in 16 pieces at most is R264. These are the model's choices: the order of the failures of a view and
of `CPYH` (logs 59, 60), which no rule gives; the pieces in which a view is staged (log 162); that a command makes its accesses in
the step that starts it (log 4); and that a copy is one event of its own (log 3). -/
def Obligations.CopyCommandResults : Prop :=
  (
  ∀ (s : State) (e : Eng) (c : Cmd), c.fresh → readsView c.instr →
    (∀ x, s.operandErr e c = some x → s.endsAtOnce e c x 0)
      ∧ (s.operandErr e c = none → e.size < c.aOff + 128 → s.endsAtOnce e c 0x03 0)
      ∧ (let v := viewOf (s.engPad e c.aOff 128)
         (∃ w, c.instr = .cpy w ∨ c.instr = .cpym w ∨ c.instr = .cpyh w) → s.operandErr e c = none → c.aOff + 128 ≤ e.size →
           (v.bad = true → s.endsAtOnce e c 0x02 0)
             ∧ (v.bad = false → v.misaligned v.mw = true → s.endsAtOnce e c 0x04 0)
             ∧ (v.bad = false → v.misaligned v.mw = false → v.outside v.sw e.size = true → s.endsAtOnce e c 0x03 0))
  ) ∧ (
  ∀ (s t : State) (e : Eng) (c : Cmd) (core : Fin 208) (a n pa : Nat), c.fresh → e.home = .core core → c.aOff + 128 ≤ e.size → n ≤ 65536 →
    let v := viewOf (s.engPad e c.aOff 128)
    let spad := (s.coreAt core).team.spad
    let r := s.runCmd e c
    v.fault v.mw v.sw e.size = none → v.raw = true → Memory.wf spad = true → Memory.wf t.mem = true →
      (∀ w, c.instr = .cpy w → dirOut w = false → s.onePart e (v.parts v.mw v.sw) .read 1 a n pa t →
        r.2.ended 0 v.count ∧ r.1.mem = t.mem ∧ memRead (r.1.coreAt core).team.spad a n = memRead t.mem pa n
          ∧ keepsOutside spad (r.1.coreAt core).team.spad a n)
        ∧ (∀ w, c.instr = .cpy w → dirOut w = true → s.onePart e (v.parts v.mw v.sw) .write 1 a n pa t →
          r.2.ended 0 v.count ∧ memRead r.1.mem pa n = memRead spad a n ∧ keepsOutside t.mem r.1.mem pa n
            ∧ (r.1.coreAt core).team.spad = spad)
        ∧ (∀ w ms, c.instr = .cpym w → s.maskMembers e.core c.b = some ms → s.onePart e (v.parts v.mw v.sw) .read 1 a n pa t → n = v.count →
          (∀ k, ∀ p ∈ s.slices.get k, p.cmd ≠ c.id) → (s.slices.get e.tlb).length + (n + 4095) / 4096 ≤ 512 →
            r.2.state = .waiting ∧ r.2.targets = ms ∧ r.1.stagedBy c.id = memRead t.mem pa n ∧ r.1.mem = t.mem
              ∧ (∀ d : Fin 208, r.1.coreAt d = s.coreAt d)
              ∧ r.1.agenda = s.agenda ++ ms.map (fun m => event .cpymCoreCopy (.copy { core := e.core, id := c.id, target := m })))
        ∧ (∀ w u l, c.instr = .cpyh w → s.operandErr e c = none →
          let d := { s.readView e c with ranges := [c.reads 128, v.range v.sw (!dirOut w)] }
          let h := handleOf l
          (s.readHandle e d c.b.toNat = (u, .unbound) → r.2.ended 0x18 0)
            ∧ (s.readHandle e d c.b.toNat = (u, .entry l) →
              (h.bound = false → r.2.ended 0x18 0)
                ∧ (h.bound = true → (∃ k < v.rows, h.len < v.rowMem k + v.n.toList.getD 0 1) → r.2.ended 0x19 0)
                ∧ (h.bound = true → (∀ k < v.rows, v.rowMem k + v.n.toList.getD 0 1 ≤ h.len) →
                  (dirOut w = true → h.wr = false → r.2.ended 0x08 0) ∧ (dirOut w = false → h.rd = false → r.2.ended 0x08 0)
                    ∧ (dirOut w = true → h.wr = true → r.2.state = .waiting ∧ r.1.out = u.out ++ (v.messages h.haddr).map (fun p =>
                      .fabric h.ep (some (e.ref c)) (.write 0 p.va (memRead (u.coreAt core).team.spad p.spad p.n))))
                    ∧ (dirOut w = false → h.rd = true → r.2.state = .waiting ∧ r.1.out = u.out ++ (v.messages h.haddr).map (fun p =>
                      .fabric h.ep (some (e.ref c)) (.read 0 p.va p.n))))))
  ) ∧ (
  ∀ (s : State) (e : Eng) (c : Cmd) (core : Fin 208) (w : EWord), c.fresh → e.home = .core core →
    let t := (s.coreAt core).team
    let r := s.runCmd e c
    let u := (r.1.coreAt core).team
    let base := 128 * cpylTile w
    let size := if cpylFmt w = 0 then 4 else 2
    let map := t.tileMaps.toList.getD (cpylTile w) 0
    Memory.wf t.spad = true → (t.acc.map (·.1)).Pairwise (· < ·) →
      (c.instr = .cpyl w ∨ c.instr = .cpylTopk w → r.1.mem = s.mem ∧ u.tileBusy = t.tileBusy &&& ~~~(BitVec.ofNat 16 (2 ^ cpylTile w))
        ∧ (cpylRows c.b = none → r.2.ended 0x11 0 ∧ u.spad = t.spad ∧ u.acc = t.acc))
        ∧ (∀ r0 m, c.instr = .cpyl w → cpylRows c.b = some (r0, m) →
          let bad := cpylOut w = false ∧ (cpylFmt w = 2 ∨ cpylRnd w ≠ 0)
          let fits := c.aOff + m * (128 * size) ≤ e.size
          (bad → r.2.ended 0x02 0 ∧ u.spad = t.spad ∧ u.acc = t.acc)
            ∧ (¬ bad → ¬ fits → r.2.ended 0x03 0 ∧ u.spad = t.spad ∧ u.acc = t.acc)
            ∧ (¬ bad → fits → cpylRnd w = 2 → isNone map = true → r.2.ended 0x12 0 ∧ u.spad = t.spad ∧ u.acc = t.acc)
            ∧ (¬ bad → fits → (cpylRnd w = 2 → isNone map = false) →
              r.2.ended 0 m
                ∧ (cpylOut w = true → u.acc = t.acc ∧ keepsOutside t.spad u.spad c.aOff (m * (128 * size))
                  ∧ ∀ j < m, ∀ k < 128, memNat u.spad (c.aOff + j * (128 * size) + size * k) size
                    = (t.cpylElem w s.gstep map (r0 + j) k).1 % 2 ^ (8 * size))
                ∧ (cpylOut w = false → u.spad = t.spad ∧ (∀ q, q < base + r0 ∨ base + r0 + m ≤ q → accRowOf u q = accRowOf t q)
                  ∧ ∀ j < m, ∀ k < 128, elem (accRowOf u (base + r0 + j)) k 32
                    = memNat t.spad (c.aOff + j * (128 * size) + size * k) size * (if size = 4 then 1 else 2 ^ 16))))
        ∧ (∀ r0 m, c.instr = .cpylTopk w → cpylRows c.b = some (r0, m) →
          let n := c.c.toNat
          (n = 0 ∨ 64 < n → r.2.ended 0x11 0 ∧ u.spad = t.spad)
            ∧ (1 ≤ n → n ≤ 64 → e.size < c.aOff + 8 * n * m → r.2.ended 0x03 0 ∧ u.spad = t.spad)
            ∧ (1 ≤ n → n ≤ 64 → c.aOff + 8 * n * m ≤ e.size →
              r.2.ended 0 m ∧ keepsOutside t.spad u.spad c.aOff (8 * n * m) ∧ ∀ j < m,
                memRead u.spad (c.aOff + 8 * n * j) (8 * n) = topRecord n (t.topCols (cpylTile w) map (r0 + j))))
  )

/-! ## Events -/

/-- The events of a task's life (R33, R282 to R299): each, when its condition holds, makes its change.
A member of a gang with an invalid partition does not start: the task fails with STATUS 2 and PART_BAD (R23, R286).
A deadline that has passed freezes a running task: each core of it is asked to freeze, and nothing else of a core changes (R297); one that
is being saved is marked, one that waits saved fails.
A scheduler pass offers every level from the highest priority down, and then moves what may migrate (R289, R292, R299);
the activity forecast and the power gates are renewed for every group. Where a frame lies and what its bytes are (log 166), that
a start or a completion waits for the pages that it writes (log 181), who holds back whom in a queue (log 100), what a deadline
does to a task that has not started (log 98) and the order and grade of migrations (log 109) are the model's choices. -/
def Obligations.TaskAndSchedulerResults : Prop :=
  (
  ∀ (s : State) (id : Nat) (t : Task), s.ev = .task id → s.taskOf id = some t →
    let does (i : Instr) (ok : Prop) (u : State) : Prop := ok → exec i s = .next u
    (let e := event .taskStart (.task id)
     let b := if s.isBarrier t then (s.advanceEpochs t.queue).switchTables t.queue else s
     let starts : Prop := t.state = .placed ∧ t.failure = none ∧ partOk t.tcb.part = true ∧ s.startsNext t = true ∧ s.eventParked e = false
     let absent : Option Nat := if s.isBarrier t then s.absentPage 0 ((s.dueTables t.queue).map (fun p => (p.2.addr.toNat, 8))) else none
     does .taskStart (starts ∧ absent = none)
      (let v := t.cores.foldl (fun u c => u.updCore (computeCore c) (fun y => y.attach id u.cycle (launchTeam t))) b
       (v.updTask id (fun t => { t with state := .running, started := v.cycle, due := none })).kick)
      ∧ (∀ va, does .taskStart (starts ∧ absent = some va) (s.park 0 0 va .pageNp va (.event e) t.host)))
      ∧ does .taskStart (t.state = .placed ∧ s.startsNext t = false) s
      ∧ (let e := event .taskComplete (.task id)
         let done_ : Prop := s.taskOver t = true ∧ s.eventParked e = false
         does .taskComplete (done_ ∧ s.absentPage t.subAsid t.endWrites = none) (s.completeTask t)
          ∧ (∀ va, does .taskComplete (done_ ∧ s.absentPage t.subAsid t.endWrites = some va)
            (s.park 0 t.subAsid va .pageNp va (.event e) t.host)))
      ∧ does .swapOut (s.swapDue t = true) (s.stopAll t .swap)
      ∧ does .boundaryStop (s.boundaryReached t = true) (s.stopAll t .boundary)
      ∧ (∀ k, does .teamSaved (t.state = .saving k ∧ t.failure = none ∧ s.anyHalted t = false) (s.teamSaved t k))
      ∧ (∀ k, does .teamSaved (t.state = .saving k ∧ s.anyHalted t = true) s)
      ∧ does .waitCycPasses (s.cycleDue t = true) (s.enterResume id)
      ∧ does .ageTick (s.ageDue t = true) (s.age t)
      ∧ (∀ (g : Fin 8) x, does .gangReserve (s.reserveOf t = some (g, x))
        (s.updGroup g (fun y => { y with reserve := some (t.id, x) })).kick)
      ∧ does .deadlineExpire (s.deadlineDue t = true ∧ (t.state = .queued ∨ t.state = .placed))
        ((s.updTask id (fun t => { t with doomed := true })).deadlineFail t false)
      ∧ (s.deadlineDue t = true → t.state = .running → ∃ u, exec .deadlineExpire s = .next u
        ∧ (∀ m ∈ t.cores, (u.coreAt (computeCore m)).request = some .freeze ∧ (u.coreAt (computeCore m)).requestAt = s.cycle
          ∧ (u.coreAt (computeCore m)).team = (s.coreAt (computeCore m)).team)
        ∧ (∀ c : Fin 208, (∀ m ∈ t.cores, computeCore m ≠ c) → u.coreAt c = s.coreAt c)
        ∧ u.agenda = s.agenda ++ t.cores.map (fun m => event .freezeBoundary (.core (computeCore m)))
        ∧ u.tasks = s.tasks.map (fun x => if x.id == id then { x with doomed := true } else x) ∧ u.mem = s.mem)
      ∧ (∀ k, does .deadlineExpire (s.deadlineDue t = true ∧ t.state = .saving k) (s.updTask id (fun t => { t with doomed := true })))
      ∧ does .deadlineExpire (s.deadlineDue t = true ∧ (t.state = .saved ∨ t.state = .resume ∨ t.state = .restoring ∨ t.state = .ending))
        (State.deadlineFail { s.updTask id (fun t => { t with doomed := true }) with resumes := s.resumes.filter (fun i => i != id) } t true)
      ∧ (∀ r : State, s.moveAreas t false t.areas = (r, true) →
         let u := t.cores.zip (t.frames.zip (List.range t.frames.length)) |>.foldl (fun s p =>
           (s.updCore (computeCore p.1) (fun y => y.attach t.id s.cycle (p.2.1.restored s.cycle))).moveFetches (computeCore p.1) t.id p.2.2 false) r
         let v := u.updTask id (fun t => { t with state := .running, frames := [], areas := [], due := none })
         does .restore (t.state = .restoring ∧ t.failure = none) { v with agenda := v.agenda ++ v.deferred, deferred := [] })
      ∧ (∀ r : State, s.moveAreas t false t.areas = (r, false) → does .restore (t.state = .restoring ∧ t.failure = none) r)
  ) ∧ (
  ∀ (s : State) (t : Task) (c : Fin 200) (r : List (Fin 200)),
    s.ev = .task t.id → s.taskOf t.id = some t → t.state = .placed → t.failure = none → t.cores = c :: r → partOk t.tcb.part = false →
      s.startsNext t = true → s.eventParked (event .taskStart (.task t.id)) = false →
      exec .taskStart s = .next ((s.record (computeCore c) 0x52 0 0 t.tcb.part []).failTask t.id
        { status := 2, cause := 0x52, detail := t.tcb.part, member := 0 })
  ) ∧ (
  ∀ s : State,
    (let u := s.failMarked.markHeads
     exec .schedPass s = .next (((List.range 24).foldl (fun x i => State.schedLevel (23 - i) (u.tasks.length + 129) x (x.offering (23 - i))) u).migrate.markHeads))
      ∧ (∃ t, exec .afrUpdate s = .next t ∧ (∀ g : Fin 8, ∃ u, (t.groupAt g).afr = State.forecast u g) ∧ t.mem = s.mem ∧ t.tasks = s.tasks)
      ∧ (∃ t, exec .powerGate s = .next t ∧ t.mem = s.mem ∧ t.tasks = s.tasks ∧ t.groups = s.groups
        ∧ ∀ c : Fin 208, (t.coreAt c).team = (s.coreAt c).team)
  )

/-- Events that stop and resume issue, write results taken along by a save, and sample (R300, R349, R351, R385 to R387). Which
context a sample names when none issues (log 129) and when a replay takes a command (log 130) are the model's choices. -/
def Obligations.CoreEventResults : Prop :=
  ∀ (s : State) (c : Fin 208), s.ev = .core c →
    let y := s.coreAt c
    (∀ t, s.stoppable c = some t → s.atBoundary c = true →
        let u := s.updTeam c (fun x => x.stop s.cycle)
        exec .freezeBoundary s = .next (if t.cores.all (fun m => (u.coreAt (computeCore m)).team.stopAt.isSome) then u.stopAll t .freeze else u))
      ∧ (y.request = some .freeze → y.requestAt + freezeGrace ≤ s.cycle → y.team.stopAt = none →
        exec .freezeIssueHold s = .next (s.updCore c (fun y => { y with holdIssue := true })))
      ∧ (let due (p : Pend) : Bool := p.due ≤ s.cycle + 1
         (y.team.stopAt = none → exec .replayInject s = .next ((y.team.replay.filter due).foldl (fun u p => u.runAct c p)
           (s.updTeam c (fun t => { t with replay := t.replay.filter (fun p => !due p) }))))
          ∧ (y.team.stopAt.isSome → exec .replayInject s = .next s))
      ∧ (y.haltReq = true → (∀ x ∈ s.haltSet c, s.quiet x = true) →
        exec .preciseStop s = .next ((s.haltSet c).foldl State.haltCore s).retryHeld)
      ∧ (s.sampleDue c = true → y.task = none →
        exec .sample s = .next ((s.record c 0x61 12 0 0 []).updCore c (fun y => { y with sampleBase := s.cycle })))
      ∧ (∀ (k : Fin 4) (b : BitVec 56), s.sampleDue c = true → y.task.isSome → y.lastIssue = some (s.cycle, k, b) →
        exec .sample s = .next ((s.record c 0x61 (BitVec.ofNat 45 k.val) b 0 []).updCore c (fun y => { y with sampleBase := s.cycle })))
      ∧ (s.sampleDue c = true → y.task.isSome → (∀ l, y.lastIssue = some l → l.1 ≠ s.cycle) →
        let k := s.sampled c
        let x := s.ctxAt c k
        exec .sample s = .next ((s.record c 0x61 (BitVec.ofNat 45 (k.val + if x.blockedSince.isSome then 4 else 8)) x.pc 0 []).updCore c
          (fun y => { y with sampleBase := s.cycle })))
      ∧ (s.issue.slots = [] → s.mayIssue c = true → ∀ (u : State) (i : Instr), s.tryCore c = (u, some i) →
        exec .bundleDecode s = .next { u with turn := s.turn, issue := { u.issue with slots := i :: u.issue.slots } })
      ∧ (∀ x : Captured, s.replayDue = true → s.capture.packets[s.capture.next]? = some x →
        let u : State := { s with capture := { s.capture with next := s.capture.next + 1 } }
        (∀ i, commandOfCode x.op.toNat = some i → exec .replaySubmit s = .next (u.now { instr := i, arg := .held, pkt := some x.pkt }))
          ∧ (commandOfCode x.op.toNat = none → exec .replaySubmit s = .next (u.send (.response x.pkt.stream (x.op ||| 0x8000) 0x10 x.pkt.seq 0 []))))

/-- Power and boot (R388 to R394, R398, R399): removing power clears the device, but for what lies outside it; power-on
begins at cycle 0 and fetches the image; an accepted image starts the firmware; a hold begins above 1.8 kW (1800000
milliwatt) and ends below 1.75 kW (1750000 milliwatt) of module power. Whether an image is accepted rests on a free value (log 9); a
relocation that cannot be made fails the load (log 170). That the boot stages 2 to 6 are one step (logs 131, 171), where the body lies (log 5)
and what is left without power (log 12) are the model's choices. -/
def Obligations.PowerEventResults : Prop :=
  ∀ s : State,
    let dark (i : Instr) : Prop := ∃ t, exec i s = .next t ∧ t.powered = false ∧ t.stage = 0 ∧ t.mem = [] ∧ t.tasks = [] ∧ t.gstep = 0
      ∧ t.agenda = [] ∧ t.cycle = s.cycle ∧ t.device = s.device ∧ (∀ c : Fin 208, t.coreAt c = Core.reset) ∧ (∀ f ∈ t.future, f.2.instr = .powerOn)
    dark .powerRemoved ∧ dark .thermalTrip
      ∧ (s.stage = 0 → ∃ t, exec .powerOn s = .next t ∧ t.cycle = 0 ∧ t.stage = 2 ∧ t.powered = true ∧ t.mem = [] ∧ t.tasks = [])
      ∧ (s.stage ≠ 0 → exec .powerOn s = .next s)
      ∧ (∀ b body, s.ev = .image b → s.stage = 2 → imageAccepted b = true → imageLoaded b = some body →
        ∃ t, exec .firmwareAccept s = .next t ∧ t.stage = 6 ∧ t.streams = imageStreams b ∧ t.poison = []
          ∧ t.mem = memWrite ({ s with mem := [] } : State).romMap.mem Config.firmwarePhys body)
      ∧ (∀ b, s.ev = .image b → s.stage = 2 → imageAccepted b = false ∨ imageLoaded b = none →
        exec .firmwareAccept s = .next ({ s with imageFetch := .waiting }.later 940000000 (event .bootRetry .none)))
      ∧ (s.stage = 2 → s.imageFetch = .waiting → exec .bootRetry s = .next s.fetchImage)
      ∧ (s.imageFetch ≠ .waiting → exec .bootRetry s = .next s)
      ∧ (∀ n, s.ev = .milliWatt n → ∃ t, exec .powerHold s = .next t
        ∧ t = { s with holding := t.holding } ∧ (1800000 < n → t.holding = true) ∧ (n < 1750000 → t.holding = false)
        ∧ (1750000 ≤ n → n ≤ 1800000 → t.holding = s.holding))
      ∧ (∀ g, s.ev = .group g → s.watchdogDue g = true → exec .watchdogExpire s = .next (s.resetControl g))

/-- Scans, holds and soft errors (R103, R352, R353, R402 to R404). Verdict and signature of a scan are free values (log 8): a match
and a mismatch, with its SCAN_FAIL record, are stated for the verdict each. A corrected error of any place appends an ECC_CE record
and does nothing else; an uncorrectable one is handled by its place: device memory, a core's pool, the instruction buffer, the TLB,
the walk cache, a slice piece, a control core's scratchpad. The place that the record of a soft error names is the model's choice
(log 138), and its PCORE (log 55). -/
def Obligations.ScanAndErrorEventResults : Prop :=
  ∀ s : State,
    (∀ c : Fin 208, s.ev = .core c →
      let x := (s.coreAt c).scan
      (x.running = true → x.aborting = false → x.start + Config.scanCycles ≤ s.cycle → Config.scanMatches c.val s.freeCtr = true →
        let z (x : ScanState) : ScanState := { x with
          running := false, last := 1, elapsed := 200, sig := Config.scanSignature c.val s.freeCtr, by_ := none, head := none }
        exec .scanComplete s = .next ((((({ s with freeCtr := s.freeCtr + 1 } : State).updCore c (fun y => { y with scan := z y.scan })).endHolds c).1.scanToken
          x.by_ 0 (Config.scanSignature c.val s.freeCtr).toNat).kick))
        ∧ (x.running = true → x.aborting = false → x.start + Config.scanCycles ≤ s.cycle → Config.scanMatches c.val s.freeCtr = false →
          let z (x : ScanState) : ScanState := { x with
            running := false, last := 2, elapsed := 200, sig := Config.scanSignature c.val s.freeCtr, by_ := none, head := none }
          let u := ({ s with freeCtr := s.freeCtr + 1 } : State).updCore c (fun y => { y with scan := z y.scan })
          exec .scanComplete s = .next ((((u.record c 0x5C 0 x.baddr (BitVec.ofNat 64 (c.val % 25)) []).endHolds c).1.scanToken
            x.by_ 1 (Config.scanSignature c.val s.freeCtr).toNat).kick))
        ∧ (x.running = true → x.aborting = true →
          let z (x : ScanState) : ScanState := { x with
            running := false, aborting := false, last := 3
            elapsed := BitVec.ofNat 29 ((s.cycle - x.start) / Config.cyclesPerMicro), by_ := none, head := none }
          let u := (s.updCore c (fun y => { y with scan := z y.scan })).endHolds c
          exec .scanAbortComplete s = .next (((u.1.scanToken x.by_ 2 (s.cycle - x.start)).placeHead (groupOf c) x.head u.2).kick)))
      ∧ (∀ (h : HoldRef) (x : Hold), s.ev = .hold h →
        let mine (y : Hold) : Bool := y.entry == h.entry.val && y.since == h.since
        (s.groupAt h.group).holds.find? mine = some x → (s.coreAt (physCore h.group x.old)).scan.running = false →
          exec .holdExpire s = .next (s.updGroup h.group (fun y => { y with holds := y.holds.filter (fun x => !mine x) })).kick)
      ∧ (s.stage ≠ 6 → exec .scrub s = .next s)
      ∧ (s.stage = 6 →
        let hits (p : ErrorPlace) (met : Bool) : Prop := s.ev = .soft { place := p, uncorrectable := true, met := met }
        (∀ e, s.ev = .soft e → e.uncorrectable = false →
          ∃ g core loc, exec .scrub s = .next (s.recordAt g core 0x58 0 0 loc []) ∧ ∀ pa, e.place = .deviceMemory pa → loc = BitVec.ofNat 64 pa)
          ∧ (∀ pa met, hits (.deviceMemory pa) met →
            let g := stackOf pa
            let u : State := { s with poison := pa / 8 * 8 :: s.poison.filter (fun p => p != pa / 8 * 8) }
            exec .scrub s = .next (if met then u else u.recordAt g (32 * g.val + 31) 0x5A 0 0 (BitVec.ofNat 64 pa) []))
          ∧ (∀ core bank row met, hits (.corePool core bank row) met →
            let c := computeCore core
            let b := bank % Config.poolBanks
            let r := row % 128
            let u := s.recordAt (groupOf c) (coreId c) 0x59 0 0 (BitVec.ofNat 64 (4096 * b + 32 * r)) []
            let v := if met then u else u.updTeam c (fun t => t.clearRow b r)
            (s.taskAt c = none → exec .scrub s = .next v)
              ∧ (∀ t, s.taskAt c = some t → exec .scrub s = .next (if met || rowUsed (s.coreAt c).team t.tcb.fps b r then
                v.failTask t.id { status := 1, cause := 0x59, detail := 4096 * b + 32 * r, member := memberOf t c } else v)))
          ∧ (∀ core line met, hits (.codeBuffer core line) met →
            exec .scrub s = .next ((s.recordAt (groupOf core) (coreId core) 0x58 0 0 (BitVec.ofNat 64 (64 * line)) []).updCore core
              (fun y => { y with ibuf := y.ibuf.filter (fun l => l.1 != line) })))
          ∧ (∀ cluster i met, hits (.tlb cluster i) met → ∃ u, exec .scrub s = .next u
            ∧ u.tlbs = s.tlbs.set cluster ((s.tlbs.get cluster).eraseIdx i) ∧ u.mem = s.mem ∧ u.tasks = s.tasks ∧ u.cores = s.cores)
          ∧ (∀ g i met, hits (.walkCache g i) met → ∃ u, exec .scrub s = .next u
            ∧ u.walkers = s.walkers.set g ((s.walkers.get g).eraseIdx i) ∧ u.mem = s.mem ∧ u.tasks = s.tasks ∧ u.cores = s.cores)
          ∧ (∀ cluster r h c met, hits (.clusterSlice cluster (some r)) met → s.findCmd r = some (h, c) → c.state ≠ .done →
            let u := s.failCmd (s.eng (homeRef h c) h) c 0x05
            u.2.ended 0x05 c.moved ∧ exec .scrub s = .next (u.1.putCmdAt h u.2))
          ∧ (∀ g met, hits (.controlPad g) met → exec .scrub s = .next (s.resetControl g)))

/-- Engine events (R192 to R195, R202, R211, R225, R336 to R339, R359): a command that may start runs and ends or waits; a
status word is written when its command may complete: it stands in the token register, whose token is pending no more, in the frame of
a team that is out (R25, R34, R192, R195), and every other scalar register and token is as before; messages of the fabric are performed; a step commits. What frees a queue
(log 39), in which space a peer resolves an address (log 65), how far code is fetched ahead (log 141) and when a walk happens (log
140) are the model's choices. -/
def Obligations.EngineEventResults : Prop :=
  ∀ s : State,
    (∀ (r : CmdRef) (h : CmdHome) (c : Cmd), s.ev = .cmd r → s.findCmd r = some (h, c) →
      (awaitsDelivery c = false → c.state = .queued → s.mayStart h c (s.trueRanges (s.eng r h) c) = true →
        exec .engineStart s = .next (((s.runCmd (s.eng r h) c).1.putCmdAt h (s.runCmd (s.eng r h) c).2).collSettle))
        ∧ ((∀ n, sidxOver (s.homeTeam h) n c = false) → s.mayComplete h c = true →
          exec .engineComplete s = .next (s.completeCmd r h c)
            ∧ (let o := (s.homeTeam h).ctxs.get c.ctx
               let y := (s.completeCmd r h c).homeTeam h
               let z := y.ctxs.get c.ctx
               (∀ x ∈ y.cmds, x.id ≠ c.id)
                 ∧ (∀ q : Reg6, q ≠ c.tok → z.sReg q = o.sReg q ∧ z.tokPend.getLsbD q.toNat = o.tokPend.getLsbD q.toNat)
                 ∧ ((∀ t, s.homeTask h = some t → t.failure = none) → c.tok ≠ 0 → o.tokPend.getLsbD c.tok.toNat = true →
                   z.sReg c.tok = (1#1 ++ c.err ++ (s.finalCmd h c).value : BitVec 64) ∧ z.tokPend.getLsbD c.tok.toNat = false))))
      ∧ (∀ (r : CopyRef) (h : CmdHome) (c : Cmd) (x : Fin 208), s.ev = .copy r → s.findCmd { core := r.core, id := r.id } = some (h, c) →
        s.targetCore h r.target = some x → c.state = .waiting → r.target ∈ c.targets →
          let u := s.cpymCopy (s.eng { core := r.core, id := r.id } h) c r.target x
          exec .cpymCoreCopy s = .next (u.1.putCmdAt h u.2))
      ∧ (∀ (n : BitVec 9) (b : Bucket), s.ev = .bucket n → storeFind s.buckets n.toNat = some b → b.fired = false →
        exec .bucketFire s = .next (({ s with buckets := storePut s.buckets n.toNat (some { b with fired := true }) } : State).fireBucket b))
      ∧ (∀ (v : VoteEnd) (g : StepGroup), s.ev = .vote v → s.stepGroup = some g → g.handle = v.handle → v.lost = false →
        g.complete = true → g.broken = false →
          let all := g.members.all (fun m => g.vote m == some true)
          let u : State := { s with
            stepGroup := some { g with steps := g.steps + 1 }, gstep := if all then s.gstep + 1 else s.gstep
            factors := if all then s.staged else s.factors }
          exec .stepVoteComplete s = .next (((u.allCmds.filter (fun x => waitingVote x.2 && x.2.aux == g.steps)).foldl
            (fun s x => s.endVote x.1 x.2 0 all) u).voteCheck))
      ∧ (∀ e : FabEvent, s.ev = .fabric e →
        (∀ asid a n, e.msg = .read asid a n → exec .fabricRequest s = .next
          (s.serveRange e asid .read true false a n (fun s l => s.reply e 0 n (s.piecesRead l))))
          ∧ (∀ asid a bs, e.msg = .write asid a bs → exec .fabricRequest s = .next
            (s.serveRange e asid .write false false a bs.length (fun s l => (s.writePieces l bs).reply e 0 bs.length [])))
          ∧ (∀ handle m ok, e.msg = .vote handle m ok → exec .fabricRequest s = .next (s.takeVote handle m ok)))
      ∧ (∀ (e : Promotion) p, s.ev = .promotion e → s.promOf e.space e.header e.block = some p →
        exec .promotionInstall s = .next (s.promArrive p e.data))
      ∧ (∀ handle, s.ev = .lost (.vote handle) → exec .messageUndeliverable s = .next (s.now (event .stepVoteComplete (.vote { handle := handle, lost := true }))))
      ∧ (∀ e : WalkReq, s.ev = .walk e → exec .pageWalk s = .next
        (s.translate e.cluster e.asid e.va (if e.code then .code else if e.write then .write else .read)).1)
      ∧ (∀ (e : FetchLine) (u : State) (x : BitVec 512), s.ev = .line e → (s.coreAt e.core).fetching = some e.line → e.badWord = none →
        (s.updCore e.core (fun y => { y with fetching := none })).codeLine e.core e.line = (u, .ok (x, [])) →
          exec .codeFetchLine s = .next ([1, 2, 3].foldl (fun v i => v.prefetch e.core (e.line + i)) (u.updCore e.core (fun y => y.addLine e.line x []))))
      ∧ (∀ (r : FwdRef), s.ev = .fwd r → exec .forwardRetire s = .next (s.updCore (computeCore r.core) (fun y =>
        { y with fwd := y.fwd.filter (fun f => !(f.task == r.task && f.cmds.all (fun i => !s.cmdLives i))) })))
      ∧ (∀ (e : CtxRef) (r : RepState), s.ev = .ctx e → (s.ctxAt e.core e.ctx).rep = some r →
        (gangBit r.instr = false ∨ s.gangCores e.core = []) →
          exec .repRepetition s = .next ((s.updCtx e.core e.ctx Ctx.moveOn).repIssue e.core e.ctx r))

/-! ## The machine as a whole -/

/-- Reset (R27, R33, R388): memory and scratchpads list nothing, no task and no command exists, CYCLE and GSTEP are 0, no
stream is open. In every context the scalar, address and vector registers and all maps are zero, and so are the predicates but for p0;
no token is pending and no register pinned; traps are open, the trap registers are zero and WAITLIM is 20; no loop, repetition, fence,
stop or retirement stands. What the spec gives no reset value is the model's choice (log 2), and so are that a device at reset has power and no boot stage behind it (log 147) and that memory
which nothing has written reads as zero (log 1). -/
def Obligations.ResetValues : Prop :=
  let s := State.reset
  s.cycle = 0 ∧ s.gstep = 0 ∧ s.mem = [] ∧ s.poison = [] ∧ s.tasks = [] ∧ s.stage = 0 ∧ s.powered = true ∧ s.capture.on = false
    ∧ (∀ i : Fin 8, s.streams.get i = none) ∧ (∀ i : Fin 16, s.spaces.get i = 0)
    ∧ (∀ c : Fin 208, (s.coreAt c).task = none ∧ (s.coreAt c).team.spad = [] ∧ (s.coreAt c).team.acc = [] ∧ (s.coreAt c).team.cmds = []
      ∧ ∀ k : Fin 4, let x := s.ctxAt c k
        (∀ r, x.sReg r = 0) ∧ (∀ r, x.aReg r = 0) ∧ (∀ r, x.pReg r = if r = 0 then BitVec.allOnes 512 else 0) ∧ (∀ r, x.vReg r = 0)
          ∧ (∀ r, x.mapOf r = 0) ∧ x.pc = 0 ∧ x.tokPend = 0 ∧ x.pins = 0 ∧ x.te = true ∧ x.hnd = false ∧ x.tcause = 0 ∧ x.tpc = 0 ∧ x.tval = 0
          ∧ x.tmask = 0 ∧ x.tvec = 0 ∧ x.waitlim = 20 ∧ x.chken = false ∧ x.mapsoft = false ∧ x.loop = none ∧ x.rep = none ∧ x.fences = []
          ∧ x.retired = false ∧ x.stopped = none)

/-- A launched team (R27, R33, R84): all registers are zero but for p0, s1 with the TCB's address, s2 with the context number
and s3 with the handle table; maps, pins, tokens, tiles, the pool and the pattern memory are clear. -/
def Obligations.LaunchState : Prop :=
  ∀ (t : Task) (k : Fin 4),
    let u := launchTeam t
    let x := u.ctxs.get k
    x.pc = t.tcb.cbase + t.tcb.eoff.zeroExtend 56
      ∧ (∀ r : Reg6, x.sReg r = if r = 1 then t.tcba.zeroExtend 64 else if r = 2 then BitVec.ofNat 64 k.val
          else if r = 3 then t.tcb.htab.zeroExtend 64 else 0)
      ∧ (∀ r, x.aReg r = 0) ∧ (∀ r, x.pReg r = if r = 0 then BitVec.allOnes 512 else 0) ∧ (∀ r, x.vReg r = 0) ∧ (∀ r, x.mapOf r = 0)
      ∧ x.pins = 0 ∧ x.tokPend = 0 ∧ u.tileBusy = 0 ∧ u.spad = [] ∧ u.acc = [] ∧ u.patA = [] ∧ u.patB = [] ∧ (∀ i : Fin 16, u.tileMaps.get i = 0)
      ∧ x.te = true ∧ x.hnd = false ∧ x.tcause = 0 ∧ x.tpc = 0 ∧ x.tval = 0 ∧ x.tmask = 0 ∧ x.tvec = 0 ∧ x.waitlim = 20 ∧ x.chken = false
      ∧ x.mapsoft = false ∧ u.part = t.tcb.part ∧ (∀ b : Fin 16, u.bars.get b = { count := partCtx t.tcb.part, arrivals := 0, gen := 0 })

/-- Predicate registers (R14): 512 bits each; an element of w bytes at index i is governed by bit w·i; p0 reads as all ones and
discards what is written to it. -/
def Obligations.PredicateRegisters : Prop :=
  (∀ (p : PredBits) (w i : Nat), active p (8 * w) i = p.getLsbD (w * i))
    ∧ (∀ x : Ctx, (∀ k < 512, (x.pReg 0).getLsbD k = true) ∧ ∀ v m, x.setP 0 v m = x)
    ∧ (∀ (x : Ctx) (r q : BitVec 4) (v m : PredBits), r ≠ 0 → ∀ k < 512,
      ((x.setP r v m).pReg q).getLsbD k = if q = r ∧ m.getLsbD k = true then v.getLsbD k else (x.pReg q).getLsbD k)

/-- A result that lands writes its register and nothing else (R9, R10, R14): s0 and p0 discard it, a predicate changes under its
mask, and every other register, every other context and core, and memory read as before.
Results of one cycle land in order of issue, those of one bundle in unit order (R10): work in flight stays in that order
whatever enters it, and of two results for one register that are due together the later one remains. -/
def Obligations.RegisterLanding : Prop :=
  (
  ∀ (s : State) (c : Fin 208) (p : Pend) (x : Word),
    let t := s.runAct c p
    let others : Prop := t.mem = s.mem ∧ (∀ d : Fin 208, d ≠ c → t.coreAt d = s.coreAt d)
      ∧ (∀ k : Fin 4, k ≠ p.ctx → t.ctxAt c k = s.ctxAt c k) ∧ (t.coreAt c).team.spad = (s.coreAt c).team.spad
      ∧ (t.coreAt c).team.acc = (s.coreAt c).team.acc ∧ (t.coreAt c).team.pend = (s.coreAt c).team.pend
    let y := s.ctxAt c p.ctx
    let z := t.ctxAt c p.ctx
    (∀ r, p.act = .setS r x → others ∧ z = { y with s := z.s } ∧ ∀ q, z.sReg q = if q = r ∧ r ≠ 0 then x else y.sReg q)
      ∧ (∀ r, p.act = .setA r x → others ∧ z = { y with a := z.a } ∧ ∀ q, z.aReg q = if q = r then x else y.aReg q)
      ∧ (∀ r v m, p.act = .setP r v m → others ∧ z = { y with p := z.p } ∧ ∀ q, ∀ k < 512,
        (z.pReg q).getLsbD k = if q = r ∧ r ≠ 0 ∧ m.getLsbD k = true then v.getLsbD k else (y.pReg q).getLsbD k)
  ) ∧ (
  ∀ (l : List Pend) (p : Pend), (insertPend l p).Perm (p :: l)
    ∧ (l.Pairwise (fun a b => a.before b = true) → (insertPend l p).Pairwise (fun a b => a.before b = true))
  ) ∧ (
  ∀ (s : State) (c : Fin 208) (p q : Pend) (r : Reg6) (x y : Word),
    p.act = .setS r x → q.act = .setS r y → r ≠ 0 → p.ctx = q.ctx → p.due ≤ s.cycle → q.due ≤ s.cycle →
    (p.seq < q.seq ∨ (p.seq = q.seq ∧ p.unit.code.toNat < q.unit.code.toNat)) →
    (s.coreAt c).team.pend = [] → (s.coreAt c).team.stopAt = none →
      let lands (a b : Pend) : State := ((s.updTeam c (fun t => t.push a)).updTeam c (fun t => t.push b)).landCore (fun a => !a.isRead && !a.isRmw) c
      ((lands p q).ctxAt c p.ctx).sReg r = y ∧ ((lands q p).ctxAt c p.ctx).sReg r = y ∧ ((lands p q).coreAt c).team.pend = []
  )

/-- Data written to a vector register (R19): the bytes under the mask change and every other register keeps its data; the pin
bit is clear afterwards, and when it was set no map of the context and no tile map names the register. An installed map pins
its carriers. -/
def Obligations.VectorRegisterLanding : Prop :=
  ∀ (t : Team) (k : Fin 4) (r : Nat) (x m : VecBits), r < 56 →
    let y := t.ctxs.get k
    let u := t.setV k r x m none true
    let z := u.ctxs.get k
    (∀ i < 4096, (z.vReg r).getLsbD i = if m.getLsbD i then x.getLsbD i else (y.vReg r).getLsbD i)
      ∧ (∀ q ≠ r, z.vReg q = y.vReg q) ∧ z.pins.getLsbD r = false ∧ (∀ q ≠ r, z.pins.getLsbD q = y.pins.getLsbD q)
      ∧ z.s = y.s ∧ z.a = y.a ∧ z.p = y.p ∧ (∀ j : Fin 4, j ≠ k → u.ctxs.get j = t.ctxs.get j) ∧ u.spad = t.spad ∧ u.acc = t.acc
      ∧ (y.pins.getLsbD r = true → (∀ q : Fin 56, mapNames (z.maps.get q) k.val r = false) ∧ ∀ q : Fin 16, mapNames (u.tileMaps.get q) k.val r = false)
      ∧ (y.pins.getLsbD r = false → z.maps = y.maps ∧ u.tileMaps = t.tileMaps)
      ∧ (∀ n : MapBits, let w := t.setV k r x m (some n) false
        (w.ctxs.get k).mapOf r = n ∧ (w.ctxs.get k).v = y.v
          ∧ ∀ i ∈ mapCars n, ∀ j : Fin 4, mapCctx n i = j.val → mapCreg n i < 56 → (w.ctxs.get j).pins.getLsbD (mapCreg n i) = true)

/-- What the other acts do when they land (R162 to R177, R141, R155, R161, R236). A store: each byte stored reads back, every
other byte of the scratchpad, all registers, the accumulator and all of device memory read as before. A scalar load reads its bytes,
the lowest first, and its value, extended by its type, follows 3 cycles after the read (R178); `AMO` of TYPE 0, 3, 6
or 7 replaces the element and returns what stood there 2 cycles after; the pattern entry is read and lands; a merge-add replaces
each word; a row of the accumulator changes under its mask; the group reads of a vector load go on, one group of banks a cycle, to
the register. Matrix work at its bank (R180 to R187): the elements of a tile become the old ones, or zero for `MMA.Z`, plus the dot
products of the rows and columns read (R181 to R183), `TZERO` clears bank after bank, `TLOAD` writes row after row, every other row,
register and byte is as before, and the busy bit clears after the last repetition. `MMA.BS` (R184) reads the header in its first cycle,
which holds the unit for 4 + 16n cycles, entry e in cycle 3 + 16e and its operands from cycle 5 + 16e on, eight units of each a cycle, and
adds the product in cycle 20 + 16e; an entry that fails the checks, and a header above 4096, appends a BS_SKIP record. That all banks of a
product change in one cycle (log 53), and that bits [63:13] of that header are not looked at (log 201), are the model's choices. -/
def Obligations.BankActionLanding : Prop :=
  (
  ∀ (s : State) (c : Fin 208) (p : Pend) (bs : List Host.Cell), p.act = .store bs → Memory.wf (s.coreAt c).team.spad = true →
    let t := s.runAct c p
    (∀ b ∈ bs, (∀ d ∈ bs, d.1 = b.1 → d = b) → memGet (t.coreAt c).team.spad b.1 = b.2)
      ∧ (∀ a, (∀ b ∈ bs, b.1 ≠ a) → memGet (t.coreAt c).team.spad a = memGet (s.coreAt c).team.spad a)
      ∧ Memory.wf (t.coreAt c).team.spad = true ∧ t.mem = s.mem ∧ (t.coreAt c).team.ctxs = (s.coreAt c).team.ctxs
      ∧ (t.coreAt c).team.acc = (s.coreAt c).team.acc ∧ (t.coreAt c).team.pend = (s.coreAt c).team.pend
      ∧ ∀ d : Fin 208, d ≠ c → t.coreAt d = s.coreAt d
  ) ∧ (
  ∀ (s : State) (c : Fin 208) (p : Pend),
    let x := (s.coreAt c).team
    let y := ((s.runAct c p).coreAt c).team
    let follows (d : Nat) (a : Act) : Prop := y.pend = insertPend x.pend { p with due := s.cycle + d, act := a }
    let frame : Prop := y.ctxs = x.ctxs ∧ (s.runAct c p).mem = s.mem ∧ ∀ d : Fin 208, d ≠ c → (s.runAct c p).coreAt d = s.coreAt d
    (∀ ty a r, p.act = .loadS ty a r → ty.toNat < 12 →
      let n := sWidth ty
      let old := memNat x.spad a (n / 8)
      frame ∧ y.spad = x.spad ∧ y.acc = x.acc ∧ ∃ v : Word, follows 3 (.setS r v)
        ∧ (tySigned ty = false → v.toNat = old)
        ∧ (tySigned ty = true → v.toInt = if 2 ^ (n - 1) ≤ old then (old : Int) - 2 ^ n else old))
      ∧ (∀ op ty a v w r, p.act = .amo op ty a v w r → Memory.wf x.spad = true → (ty = 0 ∨ ty = 3 ∨ ty = 6 ∨ ty = 7) →
        let n := sWidth ty / 8
        let old := memNat x.spad a n
        frame ∧ y.acc = x.acc ∧ follows 2 (.setS r (extLoad ty old)) ∧ Memory.wf y.spad = true
          ∧ (∀ b, b < a ∨ a + n ≤ b → memGet y.spad b = memGet x.spad b)
          ∧ memNat y.spad a n = (amoNew op ty old (v.toNat % 2 ^ (8 * n)) (w.toNat % 2 ^ (8 * n))).1 % 2 ^ (8 * n)
          ∧ (op = 0 → ty ≠ 7 → memNat y.spad a n = (old + v.toNat) % 2 ^ (8 * n))
          ∧ (op = 3 → memNat y.spad a n = v.toNat % 2 ^ (8 * n))
          ∧ (op = 4 → memNat y.spad a n = if old = v.toNat % 2 ^ (8 * n) then w.toNat % 2 ^ (8 * n) else old))
      ∧ (∀ bank n a, p.act = .loadPattern bank n a → frame ∧ y.spad = x.spad ∧ y.patA = x.patA ∧ y.patB = x.patB
        ∧ ∃ e : BitVec 1280, e.toNat = memNat x.spad a 160 % 2 ^ 1025 ∧ follows 6 (.pattern bank n e))
      ∧ (∀ bank n e, p.act = .pattern bank n e → (x.patA.map (·.1)).Pairwise (· < ·) → (x.patB.map (·.1)).Pairwise (· < ·) →
        frame ∧ y.spad = x.spad ∧ y.pend = x.pend ∧ ∀ i,
          storeGet 0 y.patA i = (if bank = false ∧ i = n then e else storeGet 0 x.patA i)
            ∧ storeGet 0 y.patB i = if bank = true ∧ i = n then e else storeGet 0 x.patB i)
      ∧ (∀ r v m, p.act = .accRow r v m → (x.acc.map (·.1)).Pairwise (· < ·) →
        frame ∧ y.spad = x.spad ∧ y.pend = x.pend ∧ (∀ q ≠ r, accRowOf y q = accRowOf x q)
          ∧ ∀ k < 4096, (accRowOf y r).getLsbD k = if m.getLsbD k = true then v.getLsbD k else (accRowOf x r).getLsbD k)
      ∧ (∀ wide g ws later seen, p.act = .season wide g ws later seen → Memory.wf x.spad = true →
        let n := if wide then 8 else 4
        (ws.map (·.1)).Pairwise (fun a b => a + n ≤ b) →
        frame ∧ y.acc = x.acc ∧ Memory.wf y.spad = true
          ∧ (∀ w ∈ ws, memNat y.spad w.1 n = (swMergeAdd s.factors wide (memNat x.spad w.1 n) w.2.toNat g.toNat).1 % 2 ^ (8 * n))
          ∧ (∀ b, (∀ w ∈ ws, b < w.1 ∨ w.1 + n ≤ b) → memGet y.spad b = memGet x.spad b)
          ∧ (later = [] → y.pend = x.pend) ∧ (later ≠ [] → ∃ l, follows 1 (.season wide g later [] l)))
      ∧ (∀ j, p.act = .reads j →
        let i := j.run s.factors x.spad
        frame ∧ y.spad = x.spad ∧ (i.groups ≠ [] → follows 1 (.reads i))
          ∧ (i.groups = [] → y.pend = insertPend x.pend { p with
            due := i.land, act := .setV i.dst (if i.codes then transposeCodes i.got else i.got) i.mask i.map true i.own }))
  ) ∧ (
  ∀ (s : State) (c : Fin 208) (p : Pend) (j : MxJob), p.act = .mx j → ((s.coreAt c).team.acc.map (·.1)).Pairwise (· < ·) →
    let x := (s.coreAt c).team
    let y := ((s.runAct c p).coreAt c).team
    let base := 128 * j.tile.toNat
    let bit := BitVec.ofNat 16 (2 ^ j.tile.toNat)
    let others : Prop := y.ctxs = x.ctxs ∧ y.spad = x.spad ∧ ∀ r, r < base ∨ base + 128 ≤ r → accRowOf y r = accRowOf x r
    let follows (a : Act) : Prop := y.pend = insertPend x.pend { p with due := s.cycle + 1, act := a }
    (j.kind = .dense ∨ j.kind = .gathered ∨ j.kind = .tagged → 0 < j.fin → j.fin ≤ s.cycle →
        let rows := j.operands.1
        let cols := j.operands.2.1
        let depth := j.operands.2.2
        let old (r : Nat) : VecBits := if j.fresh then 0 else accRowOf x (base + r)
        others ∧ y.pend = x.pend ∧ y.tileBusy = (if j.lastRep then x.tileBusy &&& ~~~bit else x.tileBusy)
          ∧ ∀ r < 128, ∀ (row : List FVal), rows[r]? = some row → ∀ k < 128, ∀ (col : List FVal), cols[k]? = some col →
            elem (accRowOf y (base + r)) k 32 = (accumulate (elem (old r) k 32) (dotTree depth row col)).1 % 2 ^ 32)
      ∧ (j.kind = .zero → s.cycle < j.fin ∨ j.fin = 0 → j.start < s.cycle → s.cycle ≤ j.start + 16 →
        let n := s.cycle - j.start - 1
        others ∧ (∀ r, base + 8 * n ≤ r → r < base + 8 * n + 8 → accRowOf y r = 0)
          ∧ (∀ r, r < base + 8 * n ∨ base + 8 * n + 8 ≤ r → accRowOf y r = accRowOf x r)
          ∧ (n = 15 → j.lastRep = true → y.tileBusy = x.tileBusy &&& ~~~bit))
      ∧ (j.kind = .load → s.cycle < j.fin ∨ j.fin = 0 → j.start + 2 ≤ s.cycle → s.cycle ≤ j.start + 129 → j.aGot ≠ [] →
        let n := s.cycle - j.start - 2
        let d := packBits 256 (j.aGot.map (·.toNat))
        others ∧ (∀ r ≠ base + n, accRowOf y r = accRowOf x r)
          ∧ (∀ k < 128, elem (accRowOf y (base + n)) k 32
            = if j.tya = 8 then d / 2 ^ (16 * k) % 2 ^ 16 * 2 ^ 16 else d / 2 ^ (32 * k) % 2 ^ 32)
          ∧ (n = 127 → j.lastRep = true → y.tileBusy = x.tileBusy &&& ~~~bit))
      ∧ (j.kind = .sparse → j.fresh = false → j.start < s.cycle →
        let k := s.cycle - j.start
        let size := spadSize c x
        let pad := s.operandMem c
        let goesOn (u : State) (i : MxJob) : Prop := s.runAct c p = u.updTeam c (fun t => t.push { p with due := s.cycle + 1, act := .mx i })
        let skips (u : State) (a : Nat) : State := u.record c 0x15 0 p.baddr (BitVec.ofNat 64 a) []
        (0 < j.fin → j.fin ≤ s.cycle → others ∧ y.acc = x.acc ∧ y.pend = x.pend
            ∧ y.tileBusy = (if j.lastRep then x.tileBusy &&& ~~~bit else x.tileBusy))
          ∧ (s.cycle < j.fin ∨ j.fin = 0 →
            (k = 1 → j.xAt + 32 ≤ size →
                let n := memNat x.spad j.xAt 8 % 2 ^ 13
                let m := min n 4096
                let u := s.updTeam c (fun t => t.mxUntil j (j.start + 4 + 16 * m))
                goesOn (if 4096 < n then skips u j.xAt else u) { j with entries := m, fin := j.start + (if m = 0 then 4 else 8 + 16 * m) })
              ∧ (∀ e < j.entries, k = 3 + 16 * e → j.xAt + 8 * e + 16 ≤ size →
                let w := memNat x.spad (j.xAt + 8 + 8 * e) 8
                let a := (j.aAt + w % 2 ^ 24) % 2 ^ 24
                let b := (j.bAt + w / 2 ^ 24 % 2 ^ 24) % 2 ^ 24
                let taken : Prop := w < 2 ^ 48 ∧ a % 32 = 0 ∧ b % 32 = 0 ∧ a + 4096 ≤ size ∧ b + 4096 ≤ size
                ∃ i : MxJob, (taken → i.rows = [a, b] ∧ goesOn s i) ∧ (¬ taken → i.rows = [] ∧ goesOn (skips s (j.xAt + 8 + 8 * e)) i))
              ∧ (∀ e < j.entries, ∀ q, 1 ≤ q → q ≤ 16 → k = 4 + 16 * e + q →
                (q = 1 → j.rows = [] → ∃ i : MxJob, goesOn s i ∧ i.entryOk = false)
                  ∧ (∀ a b, q = 1 → j.rows = [a, b] → ∃ i : MxJob, goesOn s i ∧ i.off = a ∧ i.na = b ∧ i.entryOk = true
                    ∧ i.aGot = unitsAt pad a 8 ∧ i.bGot = unitsAt pad b 8)
                  ∧ (1 < q → j.entryOk = false → others ∧ y.acc = x.acc)
                  ∧ (1 < q → q < 16 → j.entryOk = true → others ∧ y.acc = x.acc ∧ ∃ i : MxJob, follows (.mx i)
                    ∧ i.off = j.off ∧ i.na = j.na ∧ i.entryOk = true ∧ i.aGot = j.aGot ++ unitsAt pad (j.off + 256 * (q - 1)) 8
                    ∧ i.bGot = j.bGot ++ unitsAt pad (j.na + 256 * (q - 1)) 8)
                  ∧ (q = 16 → j.entryOk = true →
                    let i := { j with
                      kind := .dense, aGot := j.aGot ++ unitsAt pad (j.off + 3840) 8, bGot := j.bGot ++ unitsAt pad (j.na + 3840) 8 }
                    others ∧ (∃ z : MxJob, follows (.mx z))
                      ∧ ∀ r < 128, ∀ (row : List FVal), i.operands.1[r]? = some row → ∀ n < 128, ∀ (col : List FVal), i.operands.2.1[n]? = some col →
                        elem (accRowOf y (base + r)) n 32
                          = (accumulate (elem (accRowOf x (base + r)) n 32) (dotTree i.operands.2.2 row col)).1 % 2 ^ 32))))
  )

/-- The frame of `exec` for the words that put results in flight, alone in their bundle and outside a loop: whether the word
issues or traps, its issue leaves device memory, every scratchpad, the accumulators, the pattern memory, the tiles, the barriers
and, on every core, the registers, maps, pins and pending tokens as they are (R10, R39, R74, R343). `PATSWAP` alone changes the
active bank (R141), `LD.VQ` alone the operand queue and, while no task fails, the commands (R167).
A scalar word whose guard is false has no effect at all: its bundle issues, and nothing else changes (R40). -/
def Obligations.WordFrame : Prop :=
  (
  ∀ (i : Instr) (s t : State) (h : Head), i.head = some h → i.unitOk = true →
    (h.unit = .s0 ∨ h.unit = .s1 ∨ h.unit = .ld ∨ h.unit = .st ∨ h.unit = .v0 ∨ h.unit = .v1 ∨ h.unit = .v2 ∨ h.unit = .sf) →
      s.lone → exec i s = .next t →
    t.mem = s.mem ∧ t.poison = s.poison ∧ ∀ c : Fin 208,
      let x := (s.coreAt c).team
      let y := (t.coreAt c).team
      y.spad = x.spad ∧ y.acc = x.acc ∧ y.patA = x.patA ∧ y.patB = x.patB ∧ y.tileMaps = x.tileMaps ∧ y.tileBusy = x.tileBusy
        ∧ y.bars = x.bars ∧ y.replay = x.replay ∧ y.seq = x.seq ∧ y.part = x.part
        ∧ ((∀ w, i ≠ .patswap w) → y.patActive = x.patActive)
        ∧ ((∀ w, i ≠ .ldVQ w) → y.opq = x.opq)
        ∧ ((∀ w, i ≠ .ldVQ w) → s.ictx.te = true → s.ictx.tvec ≠ 0 → y.cmds = x.cmds)
        ∧ ∀ k : Fin 4,
          let a := x.ctxs.get k
          let b := y.ctxs.get k
          b.s = a.s ∧ b.a = a.a ∧ b.p = a.p ∧ b.v = a.v ∧ b.maps = a.maps ∧ b.pins = a.pins ∧ b.tokPend = a.tokPend ∧ b.tvec = a.tvec
            ∧ b.waitlim = a.waitlim ∧ b.chken = a.chken ∧ b.mapsoft = a.mapsoft ∧ b.fences = a.fences ∧ b.retired = a.retired
            ∧ b.stopped = a.stopped ∧ b.rep = a.rep
            ∧ (c ≠ s.issue.core ∨ k ≠ s.issue.ctx → b = a)
  ) ∧ (
  ∀ (i : Instr) (s : State) (h : Head),
    i.head = some h → scalarForm i = true → s.ictx.guardBit h = false → s.lone → s.gives i (s.issued h.unit [])
  )

/-- Trap entry (R90, R344): the trap registers are written, TE closes, HND is set, a loop is suspended, and the context goes on
at TVEC no earlier than two cycles later; every other register is as before.
`TRAP` (R90): its bundle commits, and the handler is entered with SW_TRAP, the address of the next bundle and its number. -/
def Obligations.TrapEntry : Prop :=
  (
  ∀ (s : State) (c : Fin 208) (k : Fin 4) (e : Cause) (pc : BitVec 56) (v : Word) (m : BitVec 11),
    let y := s.ctxAt c k
    let t := s.takeTrap c k e pc v m
    let z := t.ctxAt c k
    y.te = true → y.tvec ≠ 0 →
      z.tcause = e.code ∧ z.tpc = pc ∧ z.tval = v ∧ z.tmask = m ∧ z.te = false ∧ z.hnd = true ∧ z.loop = y.loop.map (fun l => { l with suspended := true })
        ∧ z.pc = y.tvec ∧ z.tvec = y.tvec ∧ z.earliest = s.cycle + 2 ∧ z.s = y.s ∧ z.tokPend = y.tokPend ∧ z.a = y.a ∧ z.p = y.p ∧ z.v = y.v ∧ z.maps = y.maps
        ∧ z.pins = y.pins ∧ z.waitlim = y.waitlim ∧ z.chken = y.chken ∧ z.mapsoft = y.mapsoft ∧ z.fences = y.fences
        ∧ (∀ j : Fin 4, j ≠ k → t.ctxAt c j = s.ctxAt c j) ∧ (∀ d : Fin 208, d ≠ c → t.coreAt d = s.coreAt d) ∧ t = { s with cores := t.cores }
  ) ∧ (
  ∀ (s : State) (w : YSWord),
    s.ictx.te = true → s.ictx.tvec ≠ 0 → s.unhindered (.trap w) w.hd {} →
      s.gives (.trap w) ((s.issued w.hd.unit []).updSelf (fun x => { x with
        tcause := 0x50, tpc := s.issue.next, tval := w.fn.zeroExtend 64, tmask := 1, te := false, hnd := true
        loop := suspendLoop x.loop, pc := x.tvec, earliest := s.cycle + 2 + s.issue.stall }))
  )

/-- A double fault (R345): no handler runs, the team stops, the task fails with STATUS 1, CAUSE the code of the trap that could
not be taken and DETAIL its TVAL, and the statistics queue of the stack group is offered one DOUBLE_FAULT record with the
untaken cause in TVAL[6:0] and TCAUSE in TVAL[14:8]. -/
def Obligations.DoubleFault : Prop :=
  ∀ (s : State) (c : Fin 208) (k : Fin 4) (e : Cause) (pc : BitVec 56) (v : Word) (m : BitVec 11),
    let y := s.ctxAt c k
    let u := s.takeTrap c k e pc v m
    let q := (offerRecord (s.groupAt (groupOf c)) (groupOf c).val s.cycle
      (recordWords 0x57 (coreId c) 0 pc s.cycle (BitVec.ofNat 64 (e.code.toNat + 2 ^ 8 * y.tcause.toNat)) [])).statq
    (y.te = false ∨ y.tvec = 0) →
      ∀ t : Task, s.taskAt c = some t → t.failure = none →
        (u.ctxAt c k).pc = y.pc ∧ (u.taskOf t.id).bind (·.failure) = some { status := 1, cause := e.code, detail := v, member := memberOf t c }
          ∧ (∀ d ∈ t.cores, (s.coreAt (computeCore d)).task = some t.id → (u.coreAt (computeCore d)).stopped = true)
          ∧ (∃ l, (u.groupAt (groupOf c)).statq = q ++ l ∧ (t.tcb.gang = 0 → l = []))

/-- A bundle that fails at issue has no effect (R343): when a word of it has failed, its end changes no register, map or pin, no
scratchpad, no memory, and puts nothing in flight; it traps with the cause and value of the lowest unit that failed, and every
unit that failed has its bit in TMASK. -/
def Obligations.FailedBundleHasNoEffect : Prop :=
  ∀ (s : State) (f : SlotFault), f ∈ s.issue.faults → (∀ g ∈ s.issue.faults, f.unit.code.toNat ≤ g.unit.code.toNat ∧ (g.unit = f.unit → g = f)) →
    let t := s.close
    let z := t.ictx
    let y := s.ictx
    t.mem = s.mem ∧ t.poison = s.poison
      ∧ (∀ c : Fin 208, let a := (s.coreAt c).team
        let b := (t.coreAt c).team
        b.spad = a.spad ∧ b.acc = a.acc ∧ b.pend = a.pend ∧ b.bars = a.bars ∧ b.tileMaps = a.tileMaps ∧ b.patActive = a.patActive
          ∧ b.accRes = a.accRes ∧ b.tileBusy = a.tileBusy ∧ b.opq = a.opq ∧ b.patA = a.patA ∧ b.patB = a.patB
          ∧ ∀ k : Fin 4, let p := a.ctxs.get k
            let q := b.ctxs.get k
            q.s = p.s ∧ q.a = p.a ∧ q.p = p.p ∧ q.v = p.v ∧ q.maps = p.maps ∧ q.pins = p.pins ∧ q.tokPend = p.tokPend ∧ q.tvec = p.tvec)
      ∧ (y.te = true → y.tvec ≠ 0 → z.tcause = f.cause.code ∧ z.tval = f.tval ∧ z.tpc = s.issue.baddr ∧ z.pc = y.tvec
        ∧ ∀ u : UnitCode, u.code.toNat ≤ 10 → (z.tmask.getLsbD u.code.toNat = true ↔ ∃ g ∈ s.issue.faults, g.unit = u))

/-- A step runs what is next (R37, R71, R343): an event with its operands; the next word of the bundle in progress; or, when the
loop buffer or the instruction buffer holds the context's next bundle, it decodes and nothing holds it (no breakpoint, no bank
conflict, no block, no gang word, no descriptor to read), the first word of that bundle, with the record of the bundle opened at
the PC and no register, map, scratchpad or memory changed. The first turn of a cycle matches the gang words that wait (R185):
`g` is the state after that. The conditions are read there, and in the state `v` in which the context is chosen and the bundle's
lines are marked as used. That the banks are checked before the blocks, and again after one, is log 28
(DEDUCED); the order of a cycle's work, one word a step, is log 3 (DESIGN CHOICE), the cycle of a gang word log 34, and where a bundle goes on
that runs past code address 2^56 log 206. -/
def Obligations.StepRunsInstruction : Prop :=
  ∀ s : State,
    (∀ (e : Event) es, s.agenda = e :: es → step s = exec e.instr { s with agenda := es, ev := e.arg, pkt := e.pkt.getD s.pkt })
      ∧ (∀ (i : Instr) is, s.agenda = [] → s.issue.slots = i :: is → step s = exec i { s with issue := { s.issue with slots := is } })
      ∧ (∀ (c : Fin 208) (k : Fin 4) (ws : List Word) (i : Instr) (is : List Instr),
        let g := if s.turn = 0 then s.gangMatch else s
        let x := g.ctxAt c k
        let u := ({ g with turn := c.val + 1 } : State).chosen c k
        let v := if x.heldWords.isSome then u else u.touched c x.pc.toNat ws.length
        s.agenda = [] → s.issue.slots = [] → s.powered = true → g.agenda = [] → g.nextCore = some c → g.pick c = some k → x.earliest ≤ g.cycle →
          g.fetchParked c k = false → g.nextWords c k = .words ws → (∀ l, x.activeLoop = some l → l.skip = false) →
          (x.heldWords.isSome = true ∨ badParity (g.coreAt c) x.pc.toNat ws.length = false) →
          (x.brkPass = true ∨ ∀ b ∈ (g.coreAt c).brks.toList, b ≠ some x.pc) →
          decodeBundle (g.decodeEnv c x.activeLoop.isSome) ws = .ok (i :: is) → v.mustPreread c k (i :: is) = false →
          v.bankConflict c k g.cycle (i :: is) = none → v.blocks c k (i :: is) = false → (∀ j ∈ i :: is, isGangWord x j = false) →
            ∃ t : State, step s = exec i t
              ∧ t.issue.core = c ∧ t.issue.ctx = k ∧ t.issue.baddr = x.pc ∧ t.issue.next = x.pc + BitVec.ofNat 56 (8 * ws.length)
              ∧ t.issue.words = ws ∧ t.issue.all = i :: is ∧ t.issue.slots = is ∧ t.issue.effects = [] ∧ t.issue.faults = []
              ∧ t.mem = g.mem ∧ t.cycle = g.cycle
              ∧ ∀ d : Fin 208, (t.coreAt d).team.spad = (g.coreAt d).team.spad ∧ (t.coreAt d).team.pend = (g.coreAt d).team.pend
                ∧ ∀ j : Fin 4, let a := g.ctxAt d j
                  let b := t.ctxAt d j
                  b.s = a.s ∧ b.a = a.a ∧ b.p = a.p ∧ b.v = a.v ∧ b.maps = a.maps ∧ b.pins = a.pins ∧ b.pc = a.pc ∧ b.tokPend = a.tokPend
                    ∧ b.loop = a.loop)

/-- The words of a bundle take effect together (R6, R343). While words are still to execute, an op word changes only the record
of the bundle: the later words see the registers and memory as they stood before it. When the last word of several has executed
and none has failed, the acts of all of them are put in flight in one cycle, in unit order, and the PC moves on once.
A bundle in the body of a loop advances the loop (R79, R80): said of `NOP`, which does nothing else. The next bundle of the body
follows; after the last the PC returns to the first, with one pass less to make; after the last pass the loop is over and its
counters are reported (R382), for which a word that a repeat count of 0 keeps from issuing is not counted (R81). The first pass puts
the bundle in the loop buffer. -/
def Obligations.BundleCommitAndLoop : Prop :=
  (
  ∀ (i : Instr) (s t : State), i.head.isSome = true → s.issue.slots ≠ [] → exec i s = .next t →
    t = { s with issue := t.issue } ∧ t.issue.slots = s.issue.slots ∧ t.issue.baddr = s.issue.baddr ∧ t.issue.next = s.issue.next
  ) ∧ (
  ∀ (i : Instr) (s : State) (h : Head) (r : SlotRes) (acts : List (UnitCode × Nat × Act)),
    i.head = some h → exec i s = .next (s.slot i h r) → s.issue.slots = [] → s.issue.faults = [] → s.ictx.activeLoop = none →
    (scalarForm i = true → s.ictx.guardBit h = true) → r.faults = [] → tokenFaults s.ictx i.refs = [] →
    stallFaults s.cycle s.issue.seq s.issue.ctx s.ictx s.icore.team i.refs i.guardP r = [] →
    s.issue.effects ++ r.effects.map (fun e => (h.unit, e)) = acts.map (fun a => (a.1, .act a.2.1 a.2.2)) → (∀ a ∈ acts, a.2.1 ≠ 0) →
      s.gives i (s.together acts)
  ) ∧ (
  ∀ (s : State) (w : YSWord) (l : LoopState),
    s.issue.slots = [] → s.issue.effects = [] → s.issue.faults = [] → s.ictx.activeLoop = some l →
    stallFaults s.cycle s.issue.seq s.issue.ctx s.ictx s.icore.team (Instr.nop w).refs (Instr.nop w).guardP {} = [] →
      let u := s.issued w.hd.unit []
      let m := { l with
        held := if l.held.length ≤ l.pos then l.held ++ [(s.issue.baddr, s.issue.words)] else l.held
        prof := l.prof.count s.cycle s.ictx (issuedWords s.ictx s.issue.all) }
      (l.pos + 1 < l.n → s.gives (.nop w) (u.updSelf (fun x => { x with loop := some { m with pos := l.pos + 1 } })))
        ∧ (l.n ≤ l.pos + 1 → 1 < l.left → s.gives (.nop w)
          (u.updSelf (fun x => { x with pc := l.base, loop := some { m with pos := 0, left := l.left - 1, first := false } })))
        ∧ (l.n ≤ l.pos + 1 → l.left ≤ 1 → s.gives (.nop w)
          ((u.updSelf (fun x => { x with loop := none })).profRecord s.issue.core s.issue.ctx false m.prof))
  )

/-- Words written out from the encoding tables, one of each unit (R37, R38, R43): `NOP`, `BR`, `ADD`, `ADDI`, `SUB` in S1,
`LD.S`, `ST.V`, `VADD`, `VSUB` in V1, `VMOV` in V2, `VEXP2`, `TZERO` and `CPY`; and `ADDI` with an IMM word after it. -/
def Obligations.WordsDecode : Prop :=
  decodeWord (1#1 ++ 0#4 ++ 0#3 ++ 0x00#8 ++ 2#4 ++ 0#1 ++ 0#6 ++ 0#6 ++ 0#6 ++ 0#3 ++ 0#2 ++ 0#20 : BitVec 64) none
      = some (.nop { hd := { unit := .sy, stop := true, stall := 0, guard := 2, gneg := false, imm := none }, d := 0, a := 0, b := 0, scope := 0, order := 0, fn := 0 })
    ∧ decodeWord (1#1 ++ 0#4 ++ 0#3 ++ 0x01#8 ++ 2#4 ++ 0#1 ++ 0#6 ++ 0#6 ++ 0#4 ++ 0x7FFFFFE#27 : BitVec 64) none
      = some (.br { hd := { unit := .sy, stop := true, stall := 0, guard := 2, gneg := false, imm := none }, d := 0, a := 0, p := 0, disp := 134217726 })
    ∧ decodeWord (1#1 ++ 1#4 ++ 0#3 ++ 0x00#8 ++ 2#4 ++ 0#1 ++ 1#6 ++ 2#6 ++ 63#6 ++ 0#6 ++ 0#4 ++ 0#2 ++ 0#13 : BitVec 64) none
      = some (.add { hd := { unit := .s0, stop := true, stall := 0, guard := 2, gneg := false, imm := none }, dst := 1, a := 2, b := 63, c := 0, ty := 0, rnd := 0, fn := 0 })
    ∧ decodeWord (1#1 ++ 1#4 ++ 0#3 ++ 0x08#8 ++ 2#4 ++ 0#1 ++ 1#6 ++ 2#6 ++ 0#4 ++ 0#2 ++ 0#6 ++ 0x7FFFE#19 : BitVec 64) none
      = some (.addi { hd := { unit := .s0, stop := true, stall := 0, guard := 2, gneg := false, imm := none }, dst := 1, a := 2, ty := 0, rnd := 0, fn := 0, imm19 := 524286 })
    ∧ decodeWord (0#1 ++ 1#4 ++ 0#3 ++ 0x08#8 ++ 2#4 ++ 0#1 ++ 1#6 ++ 2#6 ++ 0#4 ++ 0#2 ++ 0#6 ++ 0#19 : BitVec 64)
        (some (1#1 ++ 15#4 ++ 0#3 ++ 0x80000000000001#56 : BitVec 64))
      = some (.addi { hd := { unit := .s0, stop := false, stall := 0, guard := 2, gneg := false, imm := some { stop := true, stall := 0, value := 0x80000000000001 } }, dst := 1, a := 2, ty := 0, rnd := 0, fn := 0, imm19 := 0 })
    ∧ decodeWord (1#1 ++ 2#4 ++ 0#3 ++ 0x01#8 ++ 2#4 ++ 1#1 ++ 3#6 ++ 4#6 ++ 5#6 ++ 0#6 ++ 0#4 ++ 0#2 ++ 0#13 : BitVec 64) none
      = some (.sub { hd := { unit := .s1, stop := true, stall := 0, guard := 2, gneg := true, imm := none }, dst := 3, a := 4, b := 5, c := 0, ty := 0, rnd := 0, fn := 0 })
    ∧ decodeWord (1#1 ++ 3#4 ++ 0#3 ++ 0x00#8 ++ 2#4 ++ 0#1 ++ 1#6 ++ 2#4 ++ 2#2 ++ 0#6 ++ 0#6 ++ 3#4 ++ 0x40#15 : BitVec 64) none
      = some (.ldS { hd := { unit := .ld, stop := true, stall := 0, guard := 2, gneg := false, imm := none }, d := 1, areg := 2, amode := 2, b := 0, c := 0, ty := 3, disp := 64 })
    ∧ decodeWord (1#1 ++ 4#4 ++ 0#3 ++ 0x02#8 ++ 2#4 ++ 0#1 ++ 9#6 ++ 3#4 ++ 0#2 ++ 0#6 ++ 0#6 ++ 11#4 ++ 0#15 : BitVec 64) none
      = some (.stV { hd := { unit := .st, stop := true, stall := 0, guard := 2, gneg := false, imm := none }, d := 9, areg := 3, amode := 0, b := 0, c := 0, ty := 11, disp := 0 })
    ∧ decodeWord (1#1 ++ 5#4 ++ 0#3 ++ 0x00#8 ++ 2#4 ++ 0#1 ++ 1#6 ++ 2#6 ++ 60#6 ++ 0#6 ++ 2#4 ++ 0#2 ++ 0#13 : BitVec 64) none
      = some (.vadd { hd := { unit := .v0, stop := true, stall := 0, guard := 2, gneg := false, imm := none }, dst := 1, a := 2, b := 60, c := 0, ty := 2, rnd := 0, fn := 0 })
    ∧ decodeWord (1#1 ++ 6#4 ++ 0#3 ++ 0x01#8 ++ 2#4 ++ 0#1 ++ 55#6 ++ 2#6 ++ 3#6 ++ 0#6 ++ 3#4 ++ 0#2 ++ 0#13 : BitVec 64) none
      = some (.vsub { hd := { unit := .v1, stop := true, stall := 0, guard := 2, gneg := false, imm := none }, dst := 55, a := 2, b := 3, c := 0, ty := 3, rnd := 0, fn := 0 })
    ∧ decodeWord (1#1 ++ 7#4 ++ 0#3 ++ 0x1A#8 ++ 2#4 ++ 0#1 ++ 5#6 ++ 6#6 ++ 0#6 ++ 0#6 ++ 0#4 ++ 0#2 ++ 0#13 : BitVec 64) none
      = some (.vmov { hd := { unit := .v2, stop := true, stall := 0, guard := 2, gneg := false, imm := none }, dst := 5, a := 6, b := 0, c := 0, ty := 0, rnd := 0, fn := 0 })
    ∧ decodeWord (1#1 ++ 8#4 ++ 0#3 ++ 0x00#8 ++ 2#4 ++ 0#1 ++ 1#6 ++ 2#6 ++ 0#6 ++ 0#6 ++ 7#4 ++ 0#2 ++ 0#13 : BitVec 64) none
      = some (.vexp2 { hd := { unit := .sf, stop := true, stall := 0, guard := 2, gneg := false, imm := none }, dst := 1, a := 2, b := 0, c := 0, ty := 7, rnd := 0, fn := 0 })
    ∧ decodeWord (1#1 ++ 9#4 ++ 0#3 ++ 0x08#8 ++ 0#4 ++ 0#1 ++ 15#4 ++ 0#2 ++ 0#4 ++ 0#4 ++ 0#4 ++ 0#6 ++ 0#4 ++ 0#4 ++ 0#11 : BitVec 64) none
      = some (.tzero { hd := { unit := .mx, stop := true, stall := 0, guard := 0, gneg := false, imm := none }, td := 15, z := 0, aa := 0, ab := 0, ax := 0, vi := 0, tya := 0, tyb := 0, fn := 0 })
    ∧ decodeWord (1#1 ++ 10#4 ++ 0#3 ++ 0x00#8 ++ 0#4 ++ 0#1 ++ 1#6 ++ 2#6 ++ 0#6 ++ 0#6 ++ 3#3 ++ 0#3 ++ 0#2 ++ 1#11 : BitVec 64) none
      = some (.cpy { hd := { unit := .en, stop := true, stall := 0, guard := 0, gneg := false, imm := none }, tok := 1, a := 2, b := 0, c := 0, q := 3, scope := 0, order := 0, fn := 1 })

/-- Decoding gives back every well-formed instruction that was encoded: op words with their IMM word, microwords, and packets. -/
def Obligations.DecodeEncode : Prop :=
  ∀ i : Instr,
    (i.wellFormed = true → i.unitOk = true → i.head.isSome = true → ∃ ws, encode i = some ws ∧ decodeWords ws = some i)
      ∧ (∀ w : MicroWord, i.microOk w = true → ∃ b, encodeMicro i w = some b ∧ decodeMicro b = some (i, w))
      ∧ (∀ p : Packet, i.packetOk p = true → ∃ h l, encodePacket i p = some (h, l) ∧ decodePacket p.stream h l = some (i, p))

/-- Reserved unit codes and misplaced words are refused by name (R51, R71): in a bundle that closes within eight words, a first word
of unit 11 to 14, or of unit 5 to 9 on a control core, gives ILL_UNIT, and an IMM word that stands first gives ILL_ORDER, each with that
word for TVAL; eight words without STOP give ILL_LEN with the eighth word. -/
def Obligations.ReservedWordsRefused : Prop :=
  ∀ (env : DecodeEnv) (w : Word) (ws : List Word),
    let u := (w.extractLsb' 59 4).toNat
    let closes : Prop := ∃ x ∈ w :: ws, x.getLsbD 63 = true
    (closes → ((11 ≤ u ∧ u ≤ 14) ∨ (env.control = true ∧ 5 ≤ u ∧ u ≤ 9)) →
        decodeBundle env (w :: ws) = .error { cause := .illUnit, word := w })
      ∧ (closes → u = 15 → decodeBundle env (w :: ws) = .error { cause := .illOrder, word := w })
      ∧ ((∀ x ∈ w :: ws, x.getLsbD 63 = false) → ∀ h : (w :: ws).length = 8,
        decodeBundle env (w :: ws) = .error { cause := .illLen, word := (w :: ws)[7] })

/-- Every instruction answers a next state in every state: none ends in a fault or a refusal. A step stops only without power,
with nothing in progress and no power to come (R388); that it stops there is the model's choice (log 12). -/
def Obligations.EveryInstructionCompletes : Prop :=
  (∀ (i : Instr) (s : State), ∃ t, exec i s = .next t)
    ∧ (∀ s : State, (∃ t, step s = .next t)
      ∨ (step s = .fault .powerOff ∧ s.powered = false ∧ s.agenda = [] ∧ s.issue.slots = [] ∧ s.future = []))

/-- The memories are in canonical form at reset. The form is the model's own (log 1). -/
def Obligations.ResetMemoryCanonical : Prop :=
 State.reset.memWf

/-- The invariant of the memories, kept by every step: from any state whose device memory, scratchpads and saved frames are in
canonical form, whatever the step does (opens a bundle, executes a word, an event, a host's command or a command of the scheduler,
ends a cycle), they are so afterwards. What lands in a cycle keeps it too (R161). The canonical form is the model's own (log 1);
that an unlisted byte reads as zero is R33 and R388. -/
def Obligations.StepKeepsMemoryCanonical : Prop :=
  (∀ s t : State, s.memWf → step s = .next t → t.memWf) ∧ (∀ s : State, s.memWf → s.land.memWf)

/-- Stitched tensors and seasoned words (R228 to R233, R237, R238, R329, R340, R405), as a command of theirs starts: its ERR when
something fails, with nothing moved, and else what it does. `STNEW` gives the lowest free id and version 1; `SPLICE` makes the
next version; `STPIN` and `STUNPIN` count a pin; `CPYS` writes the version that it uses into its view and moves the rows; `SWCPY`
moves words as they are, decayed to GSTEP, or merged into memory; `SWEEP` rewrites the stale words and no other.
Moves are stated of rows in one page. Coil retirement when a version is dropped (R233) is the tensor's own step. These are the
model's choices: the order of the ERRs of `CPYS` (log 86), the ERR of a merge and of `SWEEP` on a TAGGED page (log 84), that a sweep is
one step (log 85), and that a command makes its accesses in the step that starts it (log 4). -/
def Obligations.TensorAndSeasonResults : Prop :=
  (
  ∀ (s : State) (e : Eng) (c : Cmd), c.fresh →
    let h := s.engPad e c.aOff 16
    let r := s.runCmd e c
    (∀ w, c.instr = .stnew w →
      let n := natAt h 4 2
      let bad := natAt h 6 10 ≠ 0 ∨ natAt h 0 4 = 0 ∨ 2 ^ 20 < natAt h 0 4 ∨ n = 0 ∨ 1024 < n
      let l := coilsOf s.nextId (s.engPad e c.aOff (16 + 16 * n)) n
      (e.size < c.aOff + 16 → s.endsAtOnce e c 0x03 0)
        ∧ (c.aOff + 16 ≤ e.size → bad → s.endsAtOnce e c 0x4B 0)
        ∧ (c.aOff + 16 ≤ e.size → ¬ bad → e.size < c.aOff + 16 + 16 * n → s.endsAtOnce e c 0x03 0)
        ∧ (c.aOff + 16 + 16 * n ≤ e.size → ¬ bad → (l = none ∨ ∃ cs, l = some cs ∧ 2 ^ 24 < coilRows cs) → s.endsAtOnce e c 0x4B 0)
        ∧ (∀ cs, c.aOff + 16 + 16 * n ≤ e.size → ¬ bad → l = some cs → coilRows cs ≤ 2 ^ 24 →
          (s.freeTensorId = none → s.endsAtOnce e c 0x48 0)
            ∧ (∀ id, s.freeTensorId = some id →
              r.2.ended 0 id ∧ 1 ≤ id ∧ id < 65536 ∧ s.tensorOf id = none ∧ (∀ i, 1 ≤ i → i < id → (s.tensorOf i).isSome)
                ∧ r.1.mem = s.mem ∧ r.1.tensors = s.tensors ++ [{ id := id, home := groupOf c.by_, current := 1, rowb := natAt h 0 4
                                                                  closed := false, versions := [(1, cs)], pins := [] }])))
      ∧ (∀ w, c.instr = .splice w →
        let n := natAt h 2 2
        let l := coilsOf s.nextId (s.engPad e c.aOff (16 + 16 * n)) n
        let p := natAt h 4 4
        let q := p + natAt h 8 4
        let expect := BitVec.ofNat 32 (natAt h 12 4)
        (e.size < c.aOff + 16 → s.endsAtOnce e c 0x03 0)
          ∧ (c.aOff + 16 ≤ e.size → 1024 < n → s.endsAtOnce e c 0x4B 0)
          ∧ (c.aOff + 16 ≤ e.size → n ≤ 1024 → e.size < c.aOff + 16 + 16 * n → s.endsAtOnce e c 0x03 0)
          ∧ (c.aOff + 16 + 16 * n ≤ e.size → n ≤ 1024 → l = none → s.endsAtOnce e c 0x4B 0)
          ∧ (∀ ins, c.aOff + 16 + 16 * n ≤ e.size → n ≤ 1024 → l = some ins →
            (s.tensorOf (natAt h 0 2) = none → s.endsAtOnce e c 0x48 0)
              ∧ (∀ t, s.tensorOf (natAt h 0 2) = some t →
                let old := t.coils t.current
                let firsts := coilFirsts 0 old
                let new := old.take (firsts.idxOf p) ++ ins ++ old.drop (firsts.idxOf q)
                (t.closed = true → s.endsAtOnce e c 0x48 0)
                  ∧ (t.closed = false → expect ≠ 0 → expect ≠ t.current → s.endsAtOnce e c 0x4D 0)
                  ∧ (t.closed = false → (expect = 0 ∨ expect = t.current) → (p ∉ firsts ∨ q ∉ firsts) → s.endsAtOnce e c 0x49 0)
                  ∧ (t.closed = false → (expect = 0 ∨ expect = t.current) → p ∈ firsts → q ∈ firsts →
                    (2 ^ 24 < coilRows new ∨ 1024 < new.length → s.endsAtOnce e c 0x4B 0)
                      ∧ (coilRows new ≤ 2 ^ 24 → new.length ≤ 1024 → r.2.ended 0 (t.current + 1).toNat ∧ r.1.mem = s.mem
                        ∧ (new ≠ [] → (r.1.tensorOf t.id).map (fun x => (x.current, x.closed, x.pins, x.versions.getLast?.map (fun y => y.2.map (·.uid))))
                          = some (t.current + 1, false, t.pins, some (new.map (·.uid)))))))))
      ∧ (∀ w, c.instr = .stpin w →
        let id := c.b.toNat
        (2 ^ 16 ≤ id → s.endsAtOnce e c 0x02 0)
          ∧ (id < 2 ^ 16 → s.tensorOf id = none → s.endsAtOnce e c 0x48 0)
          ∧ (∀ t, id < 2 ^ 16 → s.tensorOf id = some t →
            (t.closed = true → s.endsAtOnce e c 0x48 0)
              ∧ (t.closed = false → t.pinOk t.current = false → s.endsAtOnce e c 0x4A 0)
              ∧ (t.closed = false → t.pinOk t.current = true → r.2.ended 0 t.current.toNat ∧ r.1.tensorOf id = some (t.pin t.current)
                ∧ ((∀ p ∈ t.pins, p.2 ≠ 0) → (t.pin t.current).pinsOf t.current = t.pinsOf t.current + 1))))
      ∧ (∀ w, c.instr = .stunpin w →
        let id := c.b.toNat
        let v := c.c.extractLsb' 0 32
        (2 ^ 16 ≤ id ∨ 2 ^ 32 ≤ c.c.toNat → s.endsAtOnce e c 0x02 0)
          ∧ (id < 2 ^ 16 → c.c.toNat < 2 ^ 32 → s.tensorOf id = none → s.endsAtOnce e c 0x48 0)
          ∧ (∀ t, id < 2 ^ 16 → c.c.toNat < 2 ^ 32 → s.tensorOf id = some t →
            (t.pinsOf v = 0 → s.endsAtOnce e c 0x4A 0)
              ∧ (t.pinsOf v ≠ 0 → r.2.ended 0 0 ∧ (t.closed = false → (r.1.tensorOf id).map (·.pins) = some (t.unpin v).pins))))
  ) ∧ (
  ∀ (s t : State) (e : Eng) (c : Cmd) (core : Fin 208) (w : EWord) (a n pa : Nat), c.fresh → e.home = .core core → c.instr = .cpys w →
    s.operandErr e c = none → c.aOff + 128 ≤ e.size →
    let v := viewOf (s.engPad e c.aOff 128)
    let spad := (s.coreAt core).team.spad
    let r := s.runCmd e c
    let skewed := v.m.toList.any (fun x => x % (v.mw : Int) != 0) = true
    let fine := v.badRows = false ∧ ¬ skewed ∧ v.outside v.sw e.size = false
    (v.badRows = true → s.endsAtOnce e c 0x02 0)
      ∧ (v.badRows = false → skewed → s.endsAtOnce e c 0x04 0)
      ∧ (v.badRows = false → ¬ skewed → v.outside v.sw e.size = true → s.endsAtOnce e c 0x03 0)
      ∧ (∀ x, fine → s.cpysVersion c w = .error x → s.endsAtOnce e c x 0)
      ∧ (s.tensorOf c.b.toNat = none → s.cpysVersion c w = .error 0x48)
      ∧ (∀ x ver, fine → s.cpysVersion c w = .ok (x, ver) →
        let l := x.coils ver
        let pad := memWrite spad (c.aOff + 121) (bytesOf 2 (ver.toNat % 2 ^ 16))
        let u := (s.putTensor x).engPadWrite e (c.aOff + 121) (bytesOf 2 (ver.toNat % 2 ^ 16))
        (coilRows l < v.base + v.n.toList.getD 1 1 ∨ x.rowb < v.mw * v.n.toList.getD 0 1 → r.2.ended 0x49 0)
          ∧ (v.base + v.n.toList.getD 1 1 ≤ coilRows l → v.mw * v.n.toList.getD 0 1 ≤ x.rowb → v.raw = true → Memory.wf spad = true →
            Memory.wf t.mem = true →
            (dirOut w = false → u.onePart e (v.tensorParts l) .read 1 a n pa t →
              r.2.ended 0 v.count ∧ r.2.pin = (if cpysVer w then none else some (x.id, ver)) ∧ r.1.mem = t.mem
                ∧ memRead (r.1.coreAt core).team.spad a n = memRead t.mem pa n ∧ keepsOutside pad (r.1.coreAt core).team.spad a n)
              ∧ (dirOut w = true → u.onePart e (v.tensorParts l) .write 1 a n pa t →
                r.2.ended 0 v.count ∧ r.2.pin = (if cpysVer w then none else some (x.id, ver)) ∧ (r.1.coreAt core).team.spad = pad
                  ∧ memRead r.1.mem pa n = memRead pad a n ∧ keepsOutside t.mem r.1.mem pa n)))
  ) ∧ (
  ∀ (s t : State) (e : Eng) (c : Cmd) (core : Fin 208) (w : EWord) (a n pa : Nat), c.fresh → e.home = .core core → c.aOff + 128 ≤ e.size →
    let v := viewOf (s.engPad e c.aOff 128)
    let k := swWidth (swcpyWide w)
    let spad := (s.coreAt core).team.spad
    let r := s.runCmd e c
    let pad := (r.1.coreAt core).team.spad
    let typed := v.mty ≠ 0 ∨ v.sty ≠ 0 ∨ v.rnd ≠ 0 ∨ v.salt ≠ 0
    (c.instr = .swcpyIn w ∨ c.instr = .swcpyOut w ∨ c.instr = .swcpyDec w ∨ c.instr = .swcpyMerge w →
      (typed → s.endsAtOnce e c 0x4C 0) ∧ (∀ x, ¬ typed → v.fault k k e.size = some x → s.endsAtOnce e c x 0))
      ∧ (¬ typed → v.fault k k e.size = none → Memory.wf spad = true → Memory.wf t.mem = true →
        (c.instr = .swcpyIn w → s.onePart e (v.parts k k) .read k a n pa t →
          r.2.ended 0 v.count ∧ r.1.mem = t.mem ∧ memRead pad a (k * n) = memRead t.mem pa (k * n) ∧ keepsOutside spad pad a (k * n))
          ∧ (c.instr = .swcpyDec w → s.onePart e (v.parts k k) .read k a n pa t →
            r.2.ended 0 v.count ∧ r.1.mem = t.mem ∧ keepsOutside spad pad a (k * n) ∧ ∀ i < n,
              memNat pad (a + k * i) k = swRewrite s.factors (swcpyWide w) (memNat t.mem (pa + k * i) k) s.gstep.toNat % 2 ^ (8 * k))
          ∧ (c.instr = .swcpyOut w → s.onePart e (v.parts k k) .write k a n pa t →
            r.2.ended 0 v.count ∧ pad = spad ∧ memRead r.1.mem pa (k * n) = memRead spad a (k * n) ∧ keepsOutside t.mem r.1.mem pa (k * n))
          ∧ (c.instr = .swcpyMerge w → s.onePart e (v.parts k k) .write k a n pa t →
            r.2.ended 0 v.count ∧ pad = spad ∧ keepsOutside t.mem r.1.mem pa (k * n) ∧ ∀ i < n,
              memNat r.1.mem (pa + k * i) k
                = (swMerge s.factors (swcpyWide w) (memNat spad (a + k * i) k) (memNat t.mem (pa + k * i) k) s.gstep.toNat).1 % 2 ^ (8 * k)))
  ) ∧ (
  ∀ (s : State) (e : Eng) (c : Cmd) (w : EWord), c.fresh → c.instr = .sweep w →
    let b := s.engPad e c.aOff 32
    let wide := (natAt b 12 1).testBit 0
    let k := swWidth wide
    let n := natAt b 8 4
    let bad := natAt b 7 1 ≠ 0 ∨ 2 ≤ natAt b 12 1 ∨ natAt b 13 19 ≠ 0 ∨ n = 0
    let r := s.runCmd e c
    (e.size < c.aOff + 32 → s.endsAtOnce e c 0x03 0)
      ∧ (c.aOff + 32 ≤ e.size → bad → s.endsAtOnce e c 0x4C 0)
      ∧ (c.aOff + 32 ≤ e.size → ¬ bad → natAt b 0 7 % k ≠ 0 → s.endsAtOnce e c 0x04 0)
      ∧ (∀ (t u : State) (pa : Nat) (tag : Bool) (q : Nat × Bool), c.aOff + 32 ≤ e.size → ¬ bad → natAt b 0 7 % k = 0 →
        natAt b 0 7 % 4096 + k * n ≤ 4096 → s.translate e.tlb e.asid (natAt b 0 7) .read = (t, .ok (pa, tag)) → t.poisonIn pa (k * n) = none →
        t.translate e.tlb e.asid (natAt b 0 7) .write = (u, .ok q) → Memory.wf u.mem = true →
          let word (i : Nat) : Nat := memNat t.mem (pa + k * i) k
          let stale := (List.range n).filter (fun i => swStale wide s.gstep.toNat (word i))
          (stale = [] → r.2.ended 0 0 ∧ r.1.mem = t.mem)
            ∧ (stale ≠ [] → tag = true → r.2.ended 0x08 0 ∧ r.1.mem = t.mem)
            ∧ (stale ≠ [] → tag = false → r.2.ended 0 stale.length ∧ keepsOutside u.mem r.1.mem pa (k * n) ∧ ∀ i < n,
              memNat r.1.mem (pa + k * i) k
                = (if swStale wide s.gstep.toNat (word i) then swRewrite s.factors wide (word i) s.gstep.toNat else word i) % 2 ^ (8 * k)))
  )

/-- No op word touches device memory, the page tables' roots, the TLBs, the KV spaces, the device's number and domain, the
streams of the host, GSTEP or CYCLE itself: these change through the engines, the host and the events alone (R7, R191). -/
def Obligations.WordsLeaveDeviceState : Prop :=
  ∀ (i : Instr) (s t : State), i.head.isSome = true → exec i s = .next t →
    t.mem = s.mem ∧ t.poison = s.poison ∧ t.roots = s.roots ∧ t.tlbs = s.tlbs ∧ t.spaces = s.spaces ∧ t.domain = s.domain ∧ t.device = s.device
      ∧ t.streams = s.streams ∧ t.gstep = s.gstep ∧ t.cycle = s.cycle ∧ t.factors = s.factors ∧ t.tensors = s.tensors ∧ t.queues = s.queues
      ∧ t.powered = s.powered ∧ t.stage = s.stage

/-- The read-modify-write of `ATOM` (R205): the old value is returned, the element holds the new value, and every other byte of
device memory is as before. -/
def Obligations.AtomAtMemory : Prop :=
  ∀ (s : State) (a : Nat) (op : BitVec 3) (ty : BitVec 4) (x y : Word), Memory.wf s.mem = true → (ty = 0 ∨ ty = 3 ∨ ty = 6 ∨ ty = 7) →
    let n := sWidth ty / 8
    let old := memNat s.mem a n
    let r := s.atomAt a op ty x y
    r.2.1 = old ∧ memNat r.1.mem a n = (amoNew op ty old (x.toNat % 2 ^ (8 * n)) (y.toNat % 2 ^ (8 * n))).1 % 2 ^ (8 * n)
      ∧ (∀ b, b < a ∨ a + n ≤ b → memGet r.1.mem b = memGet s.mem b) ∧ Memory.wf r.1.mem = true
      ∧ (op = 0 → ty ≠ 7 → memNat r.1.mem a n = (old + x.toNat) % 2 ^ (8 * n))
      ∧ (op = 3 → memNat r.1.mem a n = x.toNat % 2 ^ (8 * n))
      ∧ (op = 4 → memNat r.1.mem a n = if old = x.toNat % 2 ^ (8 * n) then y.toNat % 2 ^ (8 * n) else old)

/-- What the host writes at a physical address it reads back, and every other byte is as before (R363). -/
def Obligations.HostMemoryRoundTrip : Prop :=
  ∀ (s : State) (asid : BitVec 8) (a : Nat) (bs : List Byte), Memory.wf s.mem = true → 1 ≤ bs.length → paOk a = true → paOk (a + bs.length - 1) = true →
    s.poison = [] →
      let w := s.hostWrite true asid [(a, bs.length)] bs 0
      w.2.status = 0 ∧ w.2.value = BitVec.ofNat 64 bs.length ∧ (w.1.hostRead true asid [(a, bs.length)] []).2.data = bs
        ∧ (w.1.hostRead true asid [(a, bs.length)] []).2.status = 0
        ∧ ∀ b, b < a ∨ a + bs.length ≤ b → memGet w.1.mem b = memGet s.mem b

/-- A statistics record enters its group's queue whole or not at all (R380): with room for it and nothing lost before, its words
stand last; without room the count of lost records rises by one and the queue is as before. The fields of the record of lost records
that no rule gives are the model's choice (log 54). -/
def Obligations.RecordsAreWhole : Prop :=
  ∀ (g : Group) (n cyc : Nat) (ws : List Word),
    let h := offerRecord g n cyc ws
    (g.statqLost = 0 → g.statq.length + ws.length ≤ 8192 → h.statq = g.statq ++ ws ∧ h.statqLost = 0)
      ∧ (g.statqLost = 0 → 8192 < g.statq.length + ws.length → h.statq = g.statq ∧ h.statqLost = 1)
      ∧ (0 < g.statqLost → 8192 < g.statq.length + 32 → h.statq = g.statq ∧ h.statqLost = g.statqLost + 1)
      ∧ (0 < g.statqLost → g.statq.length + 32 ≤ 8192 → ws.length ≤ 28 →
        h.statq = g.statq ++ recordWords 0x12 (32 * n + 31) 0 0 cyc (BitVec.ofNat 64 g.statqLost) [] ++ ws ∧ h.statqLost = 0)

/-- The other engine commands, as one of theirs starts (R89, R94, R103, R106, R205, R207 to R215, R218 to R227, R405): its ERR when
something fails, in the order of the rules, and else what it does. A KV command acts on the structures as a whole or not at all
(R223, R311); a `KVAPP` waits while an append that came before it stands at its chain (R222); `KVLD` writes zeros for rows that are
not published; `ATTN` starts the sequencer; a collective joins its group with its
part; `BKSET` arms, `KICK` fires; `LAUNCH` and `ENQ` submit; `STEP.C` votes; `SCAN.START` and `DBG.HALT` start on a core or answer at
once. The order among the ERRs of one command, and ERRs that no rule gives, are the model's choices: logs 15, 68, 69, 73, 74, 76, 83,
87, 90, 91, 135, 193 and 194; so are a `DBG.HALT` in the cycle of the stop (log 174), a failed `BKSET`, which takes no arming number
(log 176), and that a command makes its accesses in the step that starts it (log 4). -/
def Obligations.EngineServiceResults : Prop :=
  (
  ∀ (s : State) (e : Eng) (c : Cmd) (w : EWord), c.fresh →
    let space := kvSpace w
    let d := s.kvDesc space
    let r := s.runCmd e c
    let n := c.c.toNat
    let wholeAt (u : State) (m : KvM Nat) : Prop :=
      (∀ x k, m.run u e.tlb space = (.ok x, k) → r.2.ended 0 x ∧ r.1.mem = k.commit.mem)
        ∧ (∀ x k, m.run u e.tlb space = (.error (.err x), k) → r.2.ended x 0 ∧ r.1.mem = k.s.mem)
    let whole := wholeAt s
    let resolved (a : Word) (m : Nat → KvM Nat) : Prop :=
      (∀ x k, (kvEntry (kvaSeq a)).run s e.tlb space = (.error (.err x), k) → r.2.ended x 0 ∧ r.1.mem = k.s.mem)
        ∧ (∀ x k, (kvEntry (kvaSeq a)).run s e.tlb space = (.ok x, k) → wholeAt k.commit (m x))
    let counted (m : KvM Unit) (k : Nat) : KvM Nat := do m; pure k
    (c.instr = .kvld w →
      let pos := kvaPos c.b
      (kvBadAddr d c.b = true ∨ n = 0 ∨ 4096 < n ∨ 2 ^ 24 < pos + n → s.endsAtOnce e c 0x40 0)
        ∧ (kvBadAddr d c.b = false → 1 ≤ n → n ≤ 4096 → pos + n ≤ 2 ^ 24 →
          (e.size < c.aOff + n * kvRb d → s.endsAtOnce e c 0x03 0)
            ∧ (c.aOff + n * kvRb d ≤ e.size →
              (∀ x k, (kvEntry (kvaSeq c.b)).run s e.tlb space = (.error (.err x), k) → r.2.ended x 0)
                ∧ (∀ (core : Fin 208) x k ch k', e.home = .core core → Memory.wf (s.coreAt core).team.spad = true →
                  (kvEntry (kvaSeq c.b)).run s e.tlb space = (.ok x, k) → (kvChainOf c.b x).run k.commit e.tlb space = (.ok ch, k') →
                    ch.published d ≤ pos → r.2.ended 0 0 ∧ memRead (r.1.coreAt core).team.spad c.aOff (n * kvRb d) = List.replicate (n * kvRb d) 0
                      ∧ keepsOutside (s.coreAt core).team.spad (r.1.coreAt core).team.spad c.aOff (n * kvRb d)))))
      ∧ (c.instr = .kvapp w →
        let pos := kvaPos c.b
        (kvBadAddr d c.b = true ∨ n = 0 ∨ 256 < n ∨ 2 ^ 24 < pos + n → s.endsAtOnce e c 0x40 0)
          ∧ (kvBadAddr d c.b = false → 1 ≤ n → n ≤ 256 → pos + n ≤ 2 ^ 24 →
            (e.size < c.aOff + 2 * n * kvRb d → s.endsAtOnce e c 0x03 0)
              ∧ (∀ x k, c.aOff + 2 * n * kvRb d ≤ e.size → (kvEntryNoTag (kvaSeq c.b)).run s e.tlb space = (.error (.err x), k) →
                r.2.ended x 0 ∧ r.1.mem = k.s.mem)
              ∧ (∀ x k, c.aOff + 2 * n * kvRb d ≤ e.size → (kvEntryNoTag (kvaSeq c.b)).run s e.tlb space = (.ok x, k) → entryRo x = false →
                k.commit.appendWaits c space (kvChainAt (entryRoot x) (kvaLayer c.b * kvHeads (k.commit.kvDesc space) + kvaHead c.b)) = true →
                  r.2.state = c.state ∧ r.1 = k.commit)
              ∧ (∀ x k y z k', c.aOff + 2 * n * kvRb d ≤ e.size → (kvEntryNoTag (kvaSeq c.b)).run s e.tlb space = (.ok x, k) →
                (kvOpen c.b x).run k.commit e.tlb space = (.error (.report y .kvRo z), k') → r.2.ended y 0 ∧ r.1.mem = k'.s.mem)))
      ∧ (c.instr = .kvremap w →
        (kvV d = false → s.endsAtOnce e c 0x40 0)
          ∧ (kvV d = true → (n = 0 ∨ 1024 < n) → s.endsAtOnce e c 0x47 0)
          ∧ (kvV d = true → 1 ≤ n → n ≤ 1024 → e.size < c.aOff + 8 * n → s.endsAtOnce e c 0x03 0)
          ∧ (kvV d = true → 1 ≤ n → n ≤ 1024 → c.aOff + 8 * n ≤ e.size →
            let l := elemsOf 8 (s.engPad e c.aOff (8 * n))
            let pairs := l.map (fun x => (x % 2 ^ 20, x / 2 ^ 32 % 2 ^ 20))
            let bad := (∃ x ∈ l, x / 2 ^ 20 % 2 ^ 12 ≠ 0 ∨ x / 2 ^ 52 ≠ 0) ∨ ¬ (pairs.map (·.2)).Nodup
            (bad → s.endsAtOnce e c 0x47 0) ∧ (¬ bad → whole (counted (kvRemap pairs) n))))
      ∧ (c.instr = .kvshare w →
        (kvBadAddr d c.b = true ∨ c.b.extractLsb' 0 40 ≠ 0 → s.endsAtOnce e c 0x40 0)
          ∧ (kvBadAddr d c.b = false → c.b.extractLsb' 0 40 = 0 →
            (n = 0 ∨ 1024 < n → s.endsAtOnce e c 0x47 0)
              ∧ (1 ≤ n → n ≤ 1024 → e.size < c.aOff + 4 * n → s.endsAtOnce e c 0x03 0)
              ∧ (1 ≤ n → n ≤ 1024 → c.aOff + 4 * n ≤ e.size →
                let l := elemsOf 4 (s.engPad e c.aOff (4 * n))
                let bad := (∃ x ∈ l, 2 ^ 20 ≤ x) ∨ ¬ l.Nodup
                (bad → s.endsAtOnce e c 0x47 0) ∧ (¬ bad → resolved c.b (fun x => counted (kvShare (kvaSeq c.b) x l) n)))))
      ∧ (c.instr = .kvprom w → (kvBadAddr d c.b = true ∨ 2 ^ 24 ≤ n ∨ n = 0 ∨ 2 ^ 24 < kvaPos c.b + n) → s.endsAtOnce e c 0x40 0)
      ∧ (c.instr = .pfxfind w → (kvV d = false → s.endsAtOnce e c 0x40 0) ∧ (kvV d = true → whole (pfxFind c.b.toNat)))
      ∧ (c.instr = .pfxins w →
        let bad := kvBadAddr d c.c = true ∨ c.c.extractLsb' 24 16 ≠ 0
        (bad → s.endsAtOnce e c 0x40 0)
          ∧ (¬ bad → resolved c.c (fun x => pfxInsert c.b.toNat (kvaSeq c.c) x (kvaPos c.c) (w.fn.getLsbD 4))))
      ∧ (c.instr = .attn w → (s.homeTeam e.home).seq.running = false →
        let b := s.engPad e c.aOff 64
        let a := attnOf b
        let bad := attnBad b (partAccb (s.homeTeam e.home).part / 16) e.size = true
        (e.size < c.aOff + 64 → s.endsAtOnce e c 0x03 0)
          ∧ (c.aOff + 64 ≤ e.size → kvBadAddr d a.kva = true → s.endsAtOnce e c 0x40 0)
          ∧ (c.aOff + 64 ≤ e.size → kvBadAddr d a.kva = false → bad → s.endsAtOnce e c 0x46 0)
          ∧ (∀ (core : Fin 208) x k ch k', e.home = .core core → c.aOff + 64 ≤ e.size → kvBadAddr d a.kva = false → ¬ bad →
            (kvEntry (kvaSeq a.kva)).run s e.tlb space = (.ok x, k) → (kvChainOf a.kva x).run k.commit e.tlb space = (.ok ch, k') →
              r.2.state = .waiting ∧ (r.1.coreAt core).team.seq = SeqState.begin_ c.id (attnEntry b) space a (ch.published (k'.s.kvDesc space)) ch.tail))
  ) ∧ (
  ∀ (s : State) (e : Eng) (c : Cmd) (w : EWord), c.fresh →
    let r := s.runCmd e c
    let b := s.engPad e c.aOff 32
    let d := cmdColl { c with blob := b }
    (c.instr = .collAR w ∨ c.instr = .collRS w ∨ c.instr = .collAG w ∨ c.instr = .collA2A w →
      (e.size < c.aOff + 32 → s.endsAtOnce e c 0x03 0)
        ∧ (c.aOff + 32 ≤ e.size →
          (∀ x, s.collErr e d = some x → r.2.ended x 0 ∧ r.1.mem = s.mem)
            ∧ (d.bad = true → s.collErr e d = some 0x02)
            ∧ (d.bad = false → s.collGroup d.group = none → s.collErr e d = some 0x30)
            ∧ (∀ g, s.collErr e d = none → s.collGroup d.group = some g → d.ssp = true →
              r.2.state = .waiting ∧ r.1.mem = s.mem
                ∧ r.1.collParts = s.collParts ++ [{ own := some (e.ref c), group := g.handle, bucket := none, member := s.device.toNat, cmd := d.cmd
                                                    op := d.op, ty := d.ty, count := d.count
                                                    data := s.engPad e d.src (d.srcLen g.members.length)
                                                    arming := (g.joined + 1) % 2 ^ 32, failed := false }])))
      ∧ (c.instr = .bkset w →
        (512 ≤ c.b.toNat → s.endsAtOnce e c 0x38 0)
          ∧ (c.b.toNat < 512 → (c.c = 0 ∨ 2 ^ 48 < c.c.toNat) → s.endsAtOnce e c 0x02 0)
          ∧ (c.b.toNat < 512 → c.c ≠ 0 → c.c.toNat ≤ 2 ^ 48 →
            (e.size < c.aOff + 32 → s.endsAtOnce e c 0x03 0)
              ∧ (c.aOff + 32 ≤ e.size → d.bad = true → s.endsAtOnce e c 0x02 0)
              ∧ (c.aOff + 32 ≤ e.size → d.bad = false → (storeFind s.buckets c.b.toNat).isSome = true → s.endsAtOnce e c 0x38 0)
              ∧ (c.aOff + 32 ≤ e.size → d.bad = false → storeFind s.buckets c.b.toNat = none → (s.buckets.map (·.1)).Pairwise (· < ·) →
                r.2.state = .waiting ∧ holdsEntry r.2 = false
                  ∧ (storeFind r.1.buckets c.b.toNat).map (fun x => (x.total, x.counter, x.fired, x.src)) = some (c.c.toNat, 0, false, d.src))))
      ∧ (c.instr = .kick w →
        (512 ≤ c.b.toNat → s.endsAtOnce e c 0x38 0)
          ∧ (c.b.toNat < 512 → storeFind s.buckets c.b.toNat = none → s.endsAtOnce e c 0x39 0)
          ∧ (∀ x, c.b.toNat < 512 → storeFind s.buckets c.b.toNat = some x → r.2.ended 0 x.counter
            ∧ r.1.agenda = s.agenda ++ (if x.fired then [] else [event .bucketFire (.bucket (c.b.extractLsb' 0 9))])))
      ∧ (c.instr = .sidx w →
        (e.size < c.aOff + 32 → s.endsAtOnce e c 0x03 0)
          ∧ (c.aOff + 32 ≤ e.size → sidxBad b = true → s.endsAtOnce e c 0x02 0)
          ∧ (c.aOff + 32 ≤ e.size → sidxBad b = false → sidxRuns b = true → natAt b 0 7 % 2 ≠ 0 → s.endsAtOnce e c 0x04 0))
      ∧ (c.instr = .rtabCommit w →
        (256 ≤ c.b.toNat ∨ storeFind s.rtabs c.b.toNat = none → s.endsAtOnce e c 0x3C 0)
          ∧ (∀ x, c.b.toNat < 256 → storeFind s.rtabs c.b.toNat = some x → (x.enabled = false ∨ x.commit.isSome = true) → s.endsAtOnce e c 0x3C 0)
          ∧ (∀ x t l, c.b.toNat < 256 → storeFind s.rtabs c.b.toNat = some x → x.enabled = true → x.commit = none →
            (s.queues.get ⟨x.queue.toNat, x.queue.isLt⟩).extractLsb' 40 16 ≠ 0 → s.cmdSpan e c 0 .write x.addr.toNat 8 = (t, .pieces l) →
              (∀ q, t.poisonPieces l = some q → r.2.ended 0x05 0) ∧ (t.poisonPieces l = none → (s.rtabs.map (·.1)).Pairwise (· < ·) →
              r.2.state = .waiting ∧ (storeFind r.1.rtabs c.b.toNat).bind (·.commit) = some (e.ref c)
                ∧ r.1.mem = (t.writePieces l ((t.piecesRead l).take 4 ++ [(t.piecesRead l).getD 4 0 ||| 2] ++ (t.piecesRead l).drop 5)).mem)))
  ) ∧ (
  ∀ (s : State) (e : Eng) (c : Cmd) (w : EWord), c.fresh → atomWord c.instr = some w ∨ c.instr = .atomk w →
    let a := c.b.toNat % 2 ^ 56
    let keyed : Prop := c.instr = .atomk w
    let badOp := 2 ^ 56 ≤ c.b.toNat ∨ (keyed ∧ 2 ^ 35 ≤ c.c.toNat) ∨ (w.scope = 4 ∧ 2 ^ 14 ≤ c.b1.toNat)
    let size := if keyed then 64 else atomLen w
    let touches := keyed ∨ atomRet w = true
    let pad := if keyed then 4 * atomkLen w else atomLen w
    (badOp → s.endsAtOnce e c 0x02 0)
      ∧ (¬ badOp → a % size ≠ 0 → s.endsAtOnce e c 0x04 0)
      ∧ (¬ badOp → a % size = 0 → touches → e.size < c.aOff + pad → s.endsAtOnce e c 0x03 0)
      ∧ (¬ badOp → a % size = 0 → (touches → c.aOff + pad ≤ e.size) → w.scope = 4 → storeFind s.domain (c.b1.toNat % 2 ^ 14) = none →
        s.endsAtOnce e c 0x20 0)
  ) ∧ (
  ∀ (s : State) (e : Eng) (c : Cmd) (w : YSWord), c.fresh →
    let r := s.runCmd e c
    let x := physCore (groupOf e.core) c.aReg.toNat
    (c.instr = .launch w ∨ c.instr = .enq w →
      let q := s.submitTcb e.tlb e.asid c.aReg.toNat (if c.instr = .enq w then some c.b else none) none
      (∀ k, q.2 = .queued k → r.2.ended 0 k ∧ r.1.tasks = q.1.tasks) ∧ (∀ f, q.2 = .refused f → r.2.ended f 0 ∧ r.1.tasks = q.1.tasks))
      ∧ (c.instr = .stepC w →
        (s.stepGroup = none → s.endsAtOnce e c 0x01 s.gstep.toNat)
          ∧ (∀ g, s.stepGroup = some g →
            (c.b = 0 ∨ c.b.toNat ≠ g.handle.toNat → s.endsAtOnce e c 0x01 s.gstep.toNat)
              ∧ (c.b ≠ 0 → c.b.toNat = g.handle.toNat → g.broken = true → s.endsAtOnce e c 0x02 s.gstep.toNat)
              ∧ (c.b ≠ 0 → c.b.toNat = g.handle.toNat → g.broken = false →
                r.2.state = .waiting ∧ r.1.gstep = s.gstep
                  ∧ r.1.stepGroup = some { g with votes := g.votes ++ [(s.device.toNat, c.aReg != 0)] })))
      ∧ (c.instr = .scanStart w →
        (24 < c.aReg.toNat ∨ (s.coreAt x).task.isSome = true ∨ (s.logicalOf x).isSome = true ∨ (s.coreAt x).scan.running = true ∨ s.destined x = true →
          r.2.ended 3 0 ∧ r.1.coreAt x = s.coreAt x)
          ∧ (c.aReg.toNat ≤ 24 → (s.coreAt x).task = none → s.logicalOf x = none → (s.coreAt x).scan.running = false → s.destined x = false →
            (s.coreAt x).gated = false → r.2.state = .waiting ∧ (r.1.coreAt x).scan.running = true ∧ (r.1.coreAt x).scan.start = s.cycle
              ∧ r.1.future = s.future ++ [(s.cycle + Config.scanCycles, event .scanComplete (.core x))]))
      ∧ (c.instr = .dbgHalt w →
        (24 < c.aReg.toNat → r.2.ended Config.haltErr 0 ∧ r.1 = s)
          ∧ (∀ n, c.aReg.toNat ≤ 24 → (s.coreAt x).halted = some n → r.2.ended (if n = s.cycle then 0 else 1) n ∧ r.1 = s)
          ∧ (c.aReg.toNat ≤ 24 → (s.coreAt x).halted = none → x ∈ s.haltSet x → r.2.state = .waiting ∧ (r.1.coreAt x).haltReq = true
            ∧ (r.1.coreAt x).haltBy = (s.coreAt x).haltBy ++ [e.ref c]))
  )
end

