-- ==== Sys2Proof/Laws/State.lean ====
section
/-! SUPPORT. What the named updates of State change and leave: one lemma for each field and update, by rfl, and what a
core, a context and a group read as after an update. -/

namespace Sys2Proof.Machine

/-! ## Updates of the device -/

@[simp] theorem State.updCore_cycle (s : State) (c : Fin 208) (f : Core → Core) : (s.updCore c f).cycle = s.cycle := rfl
@[simp] theorem State.updCore_gstep (s : State) (c : Fin 208) (f : Core → Core) : (s.updCore c f).gstep = s.gstep := rfl
@[simp] theorem State.updCore_mem (s : State) (c : Fin 208) (f : Core → Core) : (s.updCore c f).mem = s.mem := rfl
@[simp] theorem State.updCore_poison (s : State) (c : Fin 208) (f : Core → Core) : (s.updCore c f).poison = s.poison := rfl
@[simp] theorem State.updCore_groups (s : State) (c : Fin 208) (f : Core → Core) : (s.updCore c f).groups = s.groups := rfl
@[simp] theorem State.updCore_roots (s : State) (c : Fin 208) (f : Core → Core) : (s.updCore c f).roots = s.roots := rfl
@[simp] theorem State.updCore_tlbs (s : State) (c : Fin 208) (f : Core → Core) : (s.updCore c f).tlbs = s.tlbs := rfl
@[simp] theorem State.updCore_walkers (s : State) (c : Fin 208) (f : Core → Core) : (s.updCore c f).walkers = s.walkers := rfl
@[simp] theorem State.updCore_slices (s : State) (c : Fin 208) (f : Core → Core) : (s.updCore c f).slices = s.slices := rfl
@[simp] theorem State.updCore_parked (s : State) (c : Fin 208) (f : Core → Core) : (s.updCore c f).parked = s.parked := rfl
@[simp] theorem State.updCore_tasks (s : State) (c : Fin 208) (f : Core → Core) : (s.updCore c f).tasks = s.tasks := rfl
@[simp] theorem State.updCore_resumes (s : State) (c : Fin 208) (f : Core → Core) : (s.updCore c f).resumes = s.resumes := rfl
@[simp] theorem State.updCore_marks (s : State) (c : Fin 208) (f : Core → Core) : (s.updCore c f).marks = s.marks := rfl
@[simp] theorem State.updCore_queues (s : State) (c : Fin 208) (f : Core → Core) : (s.updCore c f).queues = s.queues := rfl
@[simp] theorem State.updCore_credits (s : State) (c : Fin 208) (f : Core → Core) : (s.updCore c f).credits = s.credits := rfl
@[simp] theorem State.updCore_pointers (s : State) (c : Fin 208) (f : Core → Core) : (s.updCore c f).pointers = s.pointers := rfl
@[simp] theorem State.updCore_ageLimit (s : State) (c : Fin 208) (f : Core → Core) : (s.updCore c f).ageLimit = s.ageLimit := rfl
@[simp] theorem State.updCore_spaces (s : State) (c : Fin 208) (f : Core → Core) : (s.updCore c f).spaces = s.spaces := rfl
@[simp] theorem State.updCore_seqStore (s : State) (c : Fin 208) (f : Core → Core) : (s.updCore c f).seqStore = s.seqStore := rfl
@[simp] theorem State.updCore_promotions (s : State) (c : Fin 208) (f : Core → Core) : (s.updCore c f).promotions = s.promotions := rfl
@[simp] theorem State.updCore_tensors (s : State) (c : Fin 208) (f : Core → Core) : (s.updCore c f).tensors = s.tensors := rfl
@[simp] theorem State.updCore_factors (s : State) (c : Fin 208) (f : Core → Core) : (s.updCore c f).factors = s.factors := rfl
@[simp] theorem State.updCore_staged (s : State) (c : Fin 208) (f : Core → Core) : (s.updCore c f).staged = s.staged := rfl
@[simp] theorem State.updCore_stepGroup (s : State) (c : Fin 208) (f : Core → Core) : (s.updCore c f).stepGroup = s.stepGroup := rfl
@[simp] theorem State.updCore_heldVotes (s : State) (c : Fin 208) (f : Core → Core) : (s.updCore c f).heldVotes = s.heldVotes := rfl
@[simp] theorem State.updCore_collGroups (s : State) (c : Fin 208) (f : Core → Core) : (s.updCore c f).collGroups = s.collGroups := rfl
@[simp] theorem State.updCore_collParts (s : State) (c : Fin 208) (f : Core → Core) : (s.updCore c f).collParts = s.collParts := rfl
@[simp] theorem State.updCore_buckets (s : State) (c : Fin 208) (f : Core → Core) : (s.updCore c f).buckets = s.buckets := rfl
@[simp] theorem State.updCore_armings (s : State) (c : Fin 208) (f : Core → Core) : (s.updCore c f).armings = s.armings := rfl
@[simp] theorem State.updCore_rtabs (s : State) (c : Fin 208) (f : Core → Core) : (s.updCore c f).rtabs = s.rtabs := rfl
@[simp] theorem State.updCore_domain (s : State) (c : Fin 208) (f : Core → Core) : (s.updCore c f).domain = s.domain := rfl
@[simp] theorem State.updCore_device (s : State) (c : Fin 208) (f : Core → Core) : (s.updCore c f).device = s.device := rfl
@[simp] theorem State.updCore_master (s : State) (c : Fin 208) (f : Core → Core) : (s.updCore c f).master = s.master := rfl
@[simp] theorem State.updCore_otherMaster (s : State) (c : Fin 208) (f : Core → Core) : (s.updCore c f).otherMaster = s.otherMaster := rfl
@[simp] theorem State.updCore_statRing (s : State) (c : Fin 208) (f : Core → Core) : (s.updCore c f).statRing = s.statRing := rfl
@[simp] theorem State.updCore_capture (s : State) (c : Fin 208) (f : Core → Core) : (s.updCore c f).capture = s.capture := rfl
@[simp] theorem State.updCore_streams (s : State) (c : Fin 208) (f : Core → Core) : (s.updCore c f).streams = s.streams := rfl
@[simp] theorem State.updCore_out (s : State) (c : Fin 208) (f : Core → Core) : (s.updCore c f).out = s.out := rfl
@[simp] theorem State.updCore_deferred (s : State) (c : Fin 208) (f : Core → Core) : (s.updCore c f).deferred = s.deferred := rfl
@[simp] theorem State.updCore_heldCmds (s : State) (c : Fin 208) (f : Core → Core) : (s.updCore c f).heldCmds = s.heldCmds := rfl
@[simp] theorem State.updCore_forwards (s : State) (c : Fin 208) (f : Core → Core) : (s.updCore c f).forwards = s.forwards := rfl
@[simp] theorem State.updCore_powered (s : State) (c : Fin 208) (f : Core → Core) : (s.updCore c f).powered = s.powered := rfl
@[simp] theorem State.updCore_stage (s : State) (c : Fin 208) (f : Core → Core) : (s.updCore c f).stage = s.stage := rfl
@[simp] theorem State.updCore_holding (s : State) (c : Fin 208) (f : Core → Core) : (s.updCore c f).holding = s.holding := rfl
@[simp] theorem State.updCore_heldTurn (s : State) (c : Fin 208) (f : Core → Core) : (s.updCore c f).heldTurn = s.heldTurn := rfl
@[simp] theorem State.updCore_measured (s : State) (c : Fin 208) (f : Core → Core) : (s.updCore c f).measured = s.measured := rfl
@[simp] theorem State.updCore_image (s : State) (c : Fin 208) (f : Core → Core) : (s.updCore c f).image = s.image := rfl
@[simp] theorem State.updCore_imageFetch (s : State) (c : Fin 208) (f : Core → Core) : (s.updCore c f).imageFetch = s.imageFetch := rfl
@[simp] theorem State.updCore_images (s : State) (c : Fin 208) (f : Core → Core) : (s.updCore c f).images = s.images := rfl
@[simp] theorem State.updCore_version (s : State) (c : Fin 208) (f : Core → Core) : (s.updCore c f).version = s.version := rfl
@[simp] theorem State.updCore_turn (s : State) (c : Fin 208) (f : Core → Core) : (s.updCore c f).turn = s.turn := rfl
@[simp] theorem State.updCore_agenda (s : State) (c : Fin 208) (f : Core → Core) : (s.updCore c f).agenda = s.agenda := rfl
@[simp] theorem State.updCore_future (s : State) (c : Fin 208) (f : Core → Core) : (s.updCore c f).future = s.future := rfl
@[simp] theorem State.updCore_inbox (s : State) (c : Fin 208) (f : Core → Core) : (s.updCore c f).inbox = s.inbox := rfl
@[simp] theorem State.updCore_ev (s : State) (c : Fin 208) (f : Core → Core) : (s.updCore c f).ev = s.ev := rfl
@[simp] theorem State.updCore_pkt (s : State) (c : Fin 208) (f : Core → Core) : (s.updCore c f).pkt = s.pkt := rfl
@[simp] theorem State.updCore_issue (s : State) (c : Fin 208) (f : Core → Core) : (s.updCore c f).issue = s.issue := rfl
@[simp] theorem State.updCore_delays (s : State) (c : Fin 208) (f : Core → Core) : (s.updCore c f).delays = s.delays := rfl
@[simp] theorem State.updCore_areas (s : State) (c : Fin 208) (f : Core → Core) : (s.updCore c f).areas = s.areas := rfl
@[simp] theorem State.updCore_freeCtr (s : State) (c : Fin 208) (f : Core → Core) : (s.updCore c f).freeCtr = s.freeCtr := rfl
@[simp] theorem State.updCore_nextSeq (s : State) (c : Fin 208) (f : Core → Core) : (s.updCore c f).nextSeq = s.nextSeq := rfl
@[simp] theorem State.updCore_nextId (s : State) (c : Fin 208) (f : Core → Core) : (s.updCore c f).nextId = s.nextId := rfl
@[simp] theorem State.updTeam_cycle (s : State) (c : Fin 208) (f : Team → Team) : (s.updTeam c f).cycle = s.cycle := rfl
@[simp] theorem State.updTeam_gstep (s : State) (c : Fin 208) (f : Team → Team) : (s.updTeam c f).gstep = s.gstep := rfl
@[simp] theorem State.updTeam_mem (s : State) (c : Fin 208) (f : Team → Team) : (s.updTeam c f).mem = s.mem := rfl
@[simp] theorem State.updTeam_poison (s : State) (c : Fin 208) (f : Team → Team) : (s.updTeam c f).poison = s.poison := rfl
@[simp] theorem State.updTeam_groups (s : State) (c : Fin 208) (f : Team → Team) : (s.updTeam c f).groups = s.groups := rfl
@[simp] theorem State.updTeam_roots (s : State) (c : Fin 208) (f : Team → Team) : (s.updTeam c f).roots = s.roots := rfl
@[simp] theorem State.updTeam_tlbs (s : State) (c : Fin 208) (f : Team → Team) : (s.updTeam c f).tlbs = s.tlbs := rfl
@[simp] theorem State.updTeam_walkers (s : State) (c : Fin 208) (f : Team → Team) : (s.updTeam c f).walkers = s.walkers := rfl
@[simp] theorem State.updTeam_slices (s : State) (c : Fin 208) (f : Team → Team) : (s.updTeam c f).slices = s.slices := rfl
@[simp] theorem State.updTeam_parked (s : State) (c : Fin 208) (f : Team → Team) : (s.updTeam c f).parked = s.parked := rfl
@[simp] theorem State.updTeam_tasks (s : State) (c : Fin 208) (f : Team → Team) : (s.updTeam c f).tasks = s.tasks := rfl
@[simp] theorem State.updTeam_resumes (s : State) (c : Fin 208) (f : Team → Team) : (s.updTeam c f).resumes = s.resumes := rfl
@[simp] theorem State.updTeam_marks (s : State) (c : Fin 208) (f : Team → Team) : (s.updTeam c f).marks = s.marks := rfl
@[simp] theorem State.updTeam_queues (s : State) (c : Fin 208) (f : Team → Team) : (s.updTeam c f).queues = s.queues := rfl
@[simp] theorem State.updTeam_credits (s : State) (c : Fin 208) (f : Team → Team) : (s.updTeam c f).credits = s.credits := rfl
@[simp] theorem State.updTeam_pointers (s : State) (c : Fin 208) (f : Team → Team) : (s.updTeam c f).pointers = s.pointers := rfl
@[simp] theorem State.updTeam_ageLimit (s : State) (c : Fin 208) (f : Team → Team) : (s.updTeam c f).ageLimit = s.ageLimit := rfl
@[simp] theorem State.updTeam_spaces (s : State) (c : Fin 208) (f : Team → Team) : (s.updTeam c f).spaces = s.spaces := rfl
@[simp] theorem State.updTeam_seqStore (s : State) (c : Fin 208) (f : Team → Team) : (s.updTeam c f).seqStore = s.seqStore := rfl
@[simp] theorem State.updTeam_promotions (s : State) (c : Fin 208) (f : Team → Team) : (s.updTeam c f).promotions = s.promotions := rfl
@[simp] theorem State.updTeam_tensors (s : State) (c : Fin 208) (f : Team → Team) : (s.updTeam c f).tensors = s.tensors := rfl
@[simp] theorem State.updTeam_factors (s : State) (c : Fin 208) (f : Team → Team) : (s.updTeam c f).factors = s.factors := rfl
@[simp] theorem State.updTeam_staged (s : State) (c : Fin 208) (f : Team → Team) : (s.updTeam c f).staged = s.staged := rfl
@[simp] theorem State.updTeam_stepGroup (s : State) (c : Fin 208) (f : Team → Team) : (s.updTeam c f).stepGroup = s.stepGroup := rfl
@[simp] theorem State.updTeam_heldVotes (s : State) (c : Fin 208) (f : Team → Team) : (s.updTeam c f).heldVotes = s.heldVotes := rfl
@[simp] theorem State.updTeam_collGroups (s : State) (c : Fin 208) (f : Team → Team) : (s.updTeam c f).collGroups = s.collGroups := rfl
@[simp] theorem State.updTeam_collParts (s : State) (c : Fin 208) (f : Team → Team) : (s.updTeam c f).collParts = s.collParts := rfl
@[simp] theorem State.updTeam_buckets (s : State) (c : Fin 208) (f : Team → Team) : (s.updTeam c f).buckets = s.buckets := rfl
@[simp] theorem State.updTeam_armings (s : State) (c : Fin 208) (f : Team → Team) : (s.updTeam c f).armings = s.armings := rfl
@[simp] theorem State.updTeam_rtabs (s : State) (c : Fin 208) (f : Team → Team) : (s.updTeam c f).rtabs = s.rtabs := rfl
@[simp] theorem State.updTeam_domain (s : State) (c : Fin 208) (f : Team → Team) : (s.updTeam c f).domain = s.domain := rfl
@[simp] theorem State.updTeam_device (s : State) (c : Fin 208) (f : Team → Team) : (s.updTeam c f).device = s.device := rfl
@[simp] theorem State.updTeam_master (s : State) (c : Fin 208) (f : Team → Team) : (s.updTeam c f).master = s.master := rfl
@[simp] theorem State.updTeam_otherMaster (s : State) (c : Fin 208) (f : Team → Team) : (s.updTeam c f).otherMaster = s.otherMaster := rfl
@[simp] theorem State.updTeam_statRing (s : State) (c : Fin 208) (f : Team → Team) : (s.updTeam c f).statRing = s.statRing := rfl
@[simp] theorem State.updTeam_capture (s : State) (c : Fin 208) (f : Team → Team) : (s.updTeam c f).capture = s.capture := rfl
@[simp] theorem State.updTeam_streams (s : State) (c : Fin 208) (f : Team → Team) : (s.updTeam c f).streams = s.streams := rfl
@[simp] theorem State.updTeam_out (s : State) (c : Fin 208) (f : Team → Team) : (s.updTeam c f).out = s.out := rfl
@[simp] theorem State.updTeam_deferred (s : State) (c : Fin 208) (f : Team → Team) : (s.updTeam c f).deferred = s.deferred := rfl
@[simp] theorem State.updTeam_heldCmds (s : State) (c : Fin 208) (f : Team → Team) : (s.updTeam c f).heldCmds = s.heldCmds := rfl
@[simp] theorem State.updTeam_forwards (s : State) (c : Fin 208) (f : Team → Team) : (s.updTeam c f).forwards = s.forwards := rfl
@[simp] theorem State.updTeam_powered (s : State) (c : Fin 208) (f : Team → Team) : (s.updTeam c f).powered = s.powered := rfl
@[simp] theorem State.updTeam_stage (s : State) (c : Fin 208) (f : Team → Team) : (s.updTeam c f).stage = s.stage := rfl
@[simp] theorem State.updTeam_holding (s : State) (c : Fin 208) (f : Team → Team) : (s.updTeam c f).holding = s.holding := rfl
@[simp] theorem State.updTeam_heldTurn (s : State) (c : Fin 208) (f : Team → Team) : (s.updTeam c f).heldTurn = s.heldTurn := rfl
@[simp] theorem State.updTeam_measured (s : State) (c : Fin 208) (f : Team → Team) : (s.updTeam c f).measured = s.measured := rfl
@[simp] theorem State.updTeam_image (s : State) (c : Fin 208) (f : Team → Team) : (s.updTeam c f).image = s.image := rfl
@[simp] theorem State.updTeam_imageFetch (s : State) (c : Fin 208) (f : Team → Team) : (s.updTeam c f).imageFetch = s.imageFetch := rfl
@[simp] theorem State.updTeam_images (s : State) (c : Fin 208) (f : Team → Team) : (s.updTeam c f).images = s.images := rfl
@[simp] theorem State.updTeam_version (s : State) (c : Fin 208) (f : Team → Team) : (s.updTeam c f).version = s.version := rfl
@[simp] theorem State.updTeam_turn (s : State) (c : Fin 208) (f : Team → Team) : (s.updTeam c f).turn = s.turn := rfl
@[simp] theorem State.updTeam_agenda (s : State) (c : Fin 208) (f : Team → Team) : (s.updTeam c f).agenda = s.agenda := rfl
@[simp] theorem State.updTeam_future (s : State) (c : Fin 208) (f : Team → Team) : (s.updTeam c f).future = s.future := rfl
@[simp] theorem State.updTeam_inbox (s : State) (c : Fin 208) (f : Team → Team) : (s.updTeam c f).inbox = s.inbox := rfl
@[simp] theorem State.updTeam_ev (s : State) (c : Fin 208) (f : Team → Team) : (s.updTeam c f).ev = s.ev := rfl
@[simp] theorem State.updTeam_pkt (s : State) (c : Fin 208) (f : Team → Team) : (s.updTeam c f).pkt = s.pkt := rfl
@[simp] theorem State.updTeam_issue (s : State) (c : Fin 208) (f : Team → Team) : (s.updTeam c f).issue = s.issue := rfl
@[simp] theorem State.updTeam_delays (s : State) (c : Fin 208) (f : Team → Team) : (s.updTeam c f).delays = s.delays := rfl
@[simp] theorem State.updTeam_areas (s : State) (c : Fin 208) (f : Team → Team) : (s.updTeam c f).areas = s.areas := rfl
@[simp] theorem State.updTeam_freeCtr (s : State) (c : Fin 208) (f : Team → Team) : (s.updTeam c f).freeCtr = s.freeCtr := rfl
@[simp] theorem State.updTeam_nextSeq (s : State) (c : Fin 208) (f : Team → Team) : (s.updTeam c f).nextSeq = s.nextSeq := rfl
@[simp] theorem State.updTeam_nextId (s : State) (c : Fin 208) (f : Team → Team) : (s.updTeam c f).nextId = s.nextId := rfl
@[simp] theorem State.updCtx_cycle (s : State) (c : Fin 208) (k : Fin 4) (f : Ctx → Ctx) : (s.updCtx c k f).cycle = s.cycle := rfl
@[simp] theorem State.updCtx_gstep (s : State) (c : Fin 208) (k : Fin 4) (f : Ctx → Ctx) : (s.updCtx c k f).gstep = s.gstep := rfl
@[simp] theorem State.updCtx_mem (s : State) (c : Fin 208) (k : Fin 4) (f : Ctx → Ctx) : (s.updCtx c k f).mem = s.mem := rfl
@[simp] theorem State.updCtx_poison (s : State) (c : Fin 208) (k : Fin 4) (f : Ctx → Ctx) : (s.updCtx c k f).poison = s.poison := rfl
@[simp] theorem State.updCtx_groups (s : State) (c : Fin 208) (k : Fin 4) (f : Ctx → Ctx) : (s.updCtx c k f).groups = s.groups := rfl
@[simp] theorem State.updCtx_roots (s : State) (c : Fin 208) (k : Fin 4) (f : Ctx → Ctx) : (s.updCtx c k f).roots = s.roots := rfl
@[simp] theorem State.updCtx_tlbs (s : State) (c : Fin 208) (k : Fin 4) (f : Ctx → Ctx) : (s.updCtx c k f).tlbs = s.tlbs := rfl
@[simp] theorem State.updCtx_walkers (s : State) (c : Fin 208) (k : Fin 4) (f : Ctx → Ctx) : (s.updCtx c k f).walkers = s.walkers := rfl
@[simp] theorem State.updCtx_slices (s : State) (c : Fin 208) (k : Fin 4) (f : Ctx → Ctx) : (s.updCtx c k f).slices = s.slices := rfl
@[simp] theorem State.updCtx_parked (s : State) (c : Fin 208) (k : Fin 4) (f : Ctx → Ctx) : (s.updCtx c k f).parked = s.parked := rfl
@[simp] theorem State.updCtx_tasks (s : State) (c : Fin 208) (k : Fin 4) (f : Ctx → Ctx) : (s.updCtx c k f).tasks = s.tasks := rfl
@[simp] theorem State.updCtx_resumes (s : State) (c : Fin 208) (k : Fin 4) (f : Ctx → Ctx) : (s.updCtx c k f).resumes = s.resumes := rfl
@[simp] theorem State.updCtx_marks (s : State) (c : Fin 208) (k : Fin 4) (f : Ctx → Ctx) : (s.updCtx c k f).marks = s.marks := rfl
@[simp] theorem State.updCtx_queues (s : State) (c : Fin 208) (k : Fin 4) (f : Ctx → Ctx) : (s.updCtx c k f).queues = s.queues := rfl
@[simp] theorem State.updCtx_credits (s : State) (c : Fin 208) (k : Fin 4) (f : Ctx → Ctx) : (s.updCtx c k f).credits = s.credits := rfl
@[simp] theorem State.updCtx_pointers (s : State) (c : Fin 208) (k : Fin 4) (f : Ctx → Ctx) : (s.updCtx c k f).pointers = s.pointers := rfl
@[simp] theorem State.updCtx_ageLimit (s : State) (c : Fin 208) (k : Fin 4) (f : Ctx → Ctx) : (s.updCtx c k f).ageLimit = s.ageLimit := rfl
@[simp] theorem State.updCtx_spaces (s : State) (c : Fin 208) (k : Fin 4) (f : Ctx → Ctx) : (s.updCtx c k f).spaces = s.spaces := rfl
@[simp] theorem State.updCtx_seqStore (s : State) (c : Fin 208) (k : Fin 4) (f : Ctx → Ctx) : (s.updCtx c k f).seqStore = s.seqStore := rfl
@[simp] theorem State.updCtx_promotions (s : State) (c : Fin 208) (k : Fin 4) (f : Ctx → Ctx) : (s.updCtx c k f).promotions = s.promotions := rfl
@[simp] theorem State.updCtx_tensors (s : State) (c : Fin 208) (k : Fin 4) (f : Ctx → Ctx) : (s.updCtx c k f).tensors = s.tensors := rfl
@[simp] theorem State.updCtx_factors (s : State) (c : Fin 208) (k : Fin 4) (f : Ctx → Ctx) : (s.updCtx c k f).factors = s.factors := rfl
@[simp] theorem State.updCtx_staged (s : State) (c : Fin 208) (k : Fin 4) (f : Ctx → Ctx) : (s.updCtx c k f).staged = s.staged := rfl
@[simp] theorem State.updCtx_stepGroup (s : State) (c : Fin 208) (k : Fin 4) (f : Ctx → Ctx) : (s.updCtx c k f).stepGroup = s.stepGroup := rfl
@[simp] theorem State.updCtx_heldVotes (s : State) (c : Fin 208) (k : Fin 4) (f : Ctx → Ctx) : (s.updCtx c k f).heldVotes = s.heldVotes := rfl
@[simp] theorem State.updCtx_collGroups (s : State) (c : Fin 208) (k : Fin 4) (f : Ctx → Ctx) : (s.updCtx c k f).collGroups = s.collGroups := rfl
@[simp] theorem State.updCtx_collParts (s : State) (c : Fin 208) (k : Fin 4) (f : Ctx → Ctx) : (s.updCtx c k f).collParts = s.collParts := rfl
@[simp] theorem State.updCtx_buckets (s : State) (c : Fin 208) (k : Fin 4) (f : Ctx → Ctx) : (s.updCtx c k f).buckets = s.buckets := rfl
@[simp] theorem State.updCtx_armings (s : State) (c : Fin 208) (k : Fin 4) (f : Ctx → Ctx) : (s.updCtx c k f).armings = s.armings := rfl
@[simp] theorem State.updCtx_rtabs (s : State) (c : Fin 208) (k : Fin 4) (f : Ctx → Ctx) : (s.updCtx c k f).rtabs = s.rtabs := rfl
@[simp] theorem State.updCtx_domain (s : State) (c : Fin 208) (k : Fin 4) (f : Ctx → Ctx) : (s.updCtx c k f).domain = s.domain := rfl
@[simp] theorem State.updCtx_device (s : State) (c : Fin 208) (k : Fin 4) (f : Ctx → Ctx) : (s.updCtx c k f).device = s.device := rfl
@[simp] theorem State.updCtx_master (s : State) (c : Fin 208) (k : Fin 4) (f : Ctx → Ctx) : (s.updCtx c k f).master = s.master := rfl
@[simp] theorem State.updCtx_otherMaster (s : State) (c : Fin 208) (k : Fin 4) (f : Ctx → Ctx) : (s.updCtx c k f).otherMaster = s.otherMaster := rfl
@[simp] theorem State.updCtx_statRing (s : State) (c : Fin 208) (k : Fin 4) (f : Ctx → Ctx) : (s.updCtx c k f).statRing = s.statRing := rfl
@[simp] theorem State.updCtx_capture (s : State) (c : Fin 208) (k : Fin 4) (f : Ctx → Ctx) : (s.updCtx c k f).capture = s.capture := rfl
@[simp] theorem State.updCtx_streams (s : State) (c : Fin 208) (k : Fin 4) (f : Ctx → Ctx) : (s.updCtx c k f).streams = s.streams := rfl
@[simp] theorem State.updCtx_out (s : State) (c : Fin 208) (k : Fin 4) (f : Ctx → Ctx) : (s.updCtx c k f).out = s.out := rfl
@[simp] theorem State.updCtx_deferred (s : State) (c : Fin 208) (k : Fin 4) (f : Ctx → Ctx) : (s.updCtx c k f).deferred = s.deferred := rfl
@[simp] theorem State.updCtx_heldCmds (s : State) (c : Fin 208) (k : Fin 4) (f : Ctx → Ctx) : (s.updCtx c k f).heldCmds = s.heldCmds := rfl
@[simp] theorem State.updCtx_forwards (s : State) (c : Fin 208) (k : Fin 4) (f : Ctx → Ctx) : (s.updCtx c k f).forwards = s.forwards := rfl
@[simp] theorem State.updCtx_powered (s : State) (c : Fin 208) (k : Fin 4) (f : Ctx → Ctx) : (s.updCtx c k f).powered = s.powered := rfl
@[simp] theorem State.updCtx_stage (s : State) (c : Fin 208) (k : Fin 4) (f : Ctx → Ctx) : (s.updCtx c k f).stage = s.stage := rfl
@[simp] theorem State.updCtx_holding (s : State) (c : Fin 208) (k : Fin 4) (f : Ctx → Ctx) : (s.updCtx c k f).holding = s.holding := rfl
@[simp] theorem State.updCtx_heldTurn (s : State) (c : Fin 208) (k : Fin 4) (f : Ctx → Ctx) : (s.updCtx c k f).heldTurn = s.heldTurn := rfl
@[simp] theorem State.updCtx_measured (s : State) (c : Fin 208) (k : Fin 4) (f : Ctx → Ctx) : (s.updCtx c k f).measured = s.measured := rfl
@[simp] theorem State.updCtx_image (s : State) (c : Fin 208) (k : Fin 4) (f : Ctx → Ctx) : (s.updCtx c k f).image = s.image := rfl
@[simp] theorem State.updCtx_imageFetch (s : State) (c : Fin 208) (k : Fin 4) (f : Ctx → Ctx) : (s.updCtx c k f).imageFetch = s.imageFetch := rfl
@[simp] theorem State.updCtx_images (s : State) (c : Fin 208) (k : Fin 4) (f : Ctx → Ctx) : (s.updCtx c k f).images = s.images := rfl
@[simp] theorem State.updCtx_version (s : State) (c : Fin 208) (k : Fin 4) (f : Ctx → Ctx) : (s.updCtx c k f).version = s.version := rfl
@[simp] theorem State.updCtx_turn (s : State) (c : Fin 208) (k : Fin 4) (f : Ctx → Ctx) : (s.updCtx c k f).turn = s.turn := rfl
@[simp] theorem State.updCtx_agenda (s : State) (c : Fin 208) (k : Fin 4) (f : Ctx → Ctx) : (s.updCtx c k f).agenda = s.agenda := rfl
@[simp] theorem State.updCtx_future (s : State) (c : Fin 208) (k : Fin 4) (f : Ctx → Ctx) : (s.updCtx c k f).future = s.future := rfl
@[simp] theorem State.updCtx_inbox (s : State) (c : Fin 208) (k : Fin 4) (f : Ctx → Ctx) : (s.updCtx c k f).inbox = s.inbox := rfl
@[simp] theorem State.updCtx_ev (s : State) (c : Fin 208) (k : Fin 4) (f : Ctx → Ctx) : (s.updCtx c k f).ev = s.ev := rfl
@[simp] theorem State.updCtx_pkt (s : State) (c : Fin 208) (k : Fin 4) (f : Ctx → Ctx) : (s.updCtx c k f).pkt = s.pkt := rfl
@[simp] theorem State.updCtx_issue (s : State) (c : Fin 208) (k : Fin 4) (f : Ctx → Ctx) : (s.updCtx c k f).issue = s.issue := rfl
@[simp] theorem State.updCtx_delays (s : State) (c : Fin 208) (k : Fin 4) (f : Ctx → Ctx) : (s.updCtx c k f).delays = s.delays := rfl
@[simp] theorem State.updCtx_areas (s : State) (c : Fin 208) (k : Fin 4) (f : Ctx → Ctx) : (s.updCtx c k f).areas = s.areas := rfl
@[simp] theorem State.updCtx_freeCtr (s : State) (c : Fin 208) (k : Fin 4) (f : Ctx → Ctx) : (s.updCtx c k f).freeCtr = s.freeCtr := rfl
@[simp] theorem State.updCtx_nextSeq (s : State) (c : Fin 208) (k : Fin 4) (f : Ctx → Ctx) : (s.updCtx c k f).nextSeq = s.nextSeq := rfl
@[simp] theorem State.updCtx_nextId (s : State) (c : Fin 208) (k : Fin 4) (f : Ctx → Ctx) : (s.updCtx c k f).nextId = s.nextId := rfl
@[simp] theorem State.updGroup_cycle (s : State) (g : Fin 8) (f : Group → Group) : (s.updGroup g f).cycle = s.cycle := rfl
@[simp] theorem State.updGroup_gstep (s : State) (g : Fin 8) (f : Group → Group) : (s.updGroup g f).gstep = s.gstep := rfl
@[simp] theorem State.updGroup_mem (s : State) (g : Fin 8) (f : Group → Group) : (s.updGroup g f).mem = s.mem := rfl
@[simp] theorem State.updGroup_poison (s : State) (g : Fin 8) (f : Group → Group) : (s.updGroup g f).poison = s.poison := rfl
@[simp] theorem State.updGroup_cores (s : State) (g : Fin 8) (f : Group → Group) : (s.updGroup g f).cores = s.cores := rfl
@[simp] theorem State.updGroup_roots (s : State) (g : Fin 8) (f : Group → Group) : (s.updGroup g f).roots = s.roots := rfl
@[simp] theorem State.updGroup_tlbs (s : State) (g : Fin 8) (f : Group → Group) : (s.updGroup g f).tlbs = s.tlbs := rfl
@[simp] theorem State.updGroup_walkers (s : State) (g : Fin 8) (f : Group → Group) : (s.updGroup g f).walkers = s.walkers := rfl
@[simp] theorem State.updGroup_slices (s : State) (g : Fin 8) (f : Group → Group) : (s.updGroup g f).slices = s.slices := rfl
@[simp] theorem State.updGroup_parked (s : State) (g : Fin 8) (f : Group → Group) : (s.updGroup g f).parked = s.parked := rfl
@[simp] theorem State.updGroup_tasks (s : State) (g : Fin 8) (f : Group → Group) : (s.updGroup g f).tasks = s.tasks := rfl
@[simp] theorem State.updGroup_resumes (s : State) (g : Fin 8) (f : Group → Group) : (s.updGroup g f).resumes = s.resumes := rfl
@[simp] theorem State.updGroup_marks (s : State) (g : Fin 8) (f : Group → Group) : (s.updGroup g f).marks = s.marks := rfl
@[simp] theorem State.updGroup_queues (s : State) (g : Fin 8) (f : Group → Group) : (s.updGroup g f).queues = s.queues := rfl
@[simp] theorem State.updGroup_credits (s : State) (g : Fin 8) (f : Group → Group) : (s.updGroup g f).credits = s.credits := rfl
@[simp] theorem State.updGroup_pointers (s : State) (g : Fin 8) (f : Group → Group) : (s.updGroup g f).pointers = s.pointers := rfl
@[simp] theorem State.updGroup_ageLimit (s : State) (g : Fin 8) (f : Group → Group) : (s.updGroup g f).ageLimit = s.ageLimit := rfl
@[simp] theorem State.updGroup_spaces (s : State) (g : Fin 8) (f : Group → Group) : (s.updGroup g f).spaces = s.spaces := rfl
@[simp] theorem State.updGroup_seqStore (s : State) (g : Fin 8) (f : Group → Group) : (s.updGroup g f).seqStore = s.seqStore := rfl
@[simp] theorem State.updGroup_promotions (s : State) (g : Fin 8) (f : Group → Group) : (s.updGroup g f).promotions = s.promotions := rfl
@[simp] theorem State.updGroup_tensors (s : State) (g : Fin 8) (f : Group → Group) : (s.updGroup g f).tensors = s.tensors := rfl
@[simp] theorem State.updGroup_factors (s : State) (g : Fin 8) (f : Group → Group) : (s.updGroup g f).factors = s.factors := rfl
@[simp] theorem State.updGroup_staged (s : State) (g : Fin 8) (f : Group → Group) : (s.updGroup g f).staged = s.staged := rfl
@[simp] theorem State.updGroup_stepGroup (s : State) (g : Fin 8) (f : Group → Group) : (s.updGroup g f).stepGroup = s.stepGroup := rfl
@[simp] theorem State.updGroup_heldVotes (s : State) (g : Fin 8) (f : Group → Group) : (s.updGroup g f).heldVotes = s.heldVotes := rfl
@[simp] theorem State.updGroup_collGroups (s : State) (g : Fin 8) (f : Group → Group) : (s.updGroup g f).collGroups = s.collGroups := rfl
@[simp] theorem State.updGroup_collParts (s : State) (g : Fin 8) (f : Group → Group) : (s.updGroup g f).collParts = s.collParts := rfl
@[simp] theorem State.updGroup_buckets (s : State) (g : Fin 8) (f : Group → Group) : (s.updGroup g f).buckets = s.buckets := rfl
@[simp] theorem State.updGroup_armings (s : State) (g : Fin 8) (f : Group → Group) : (s.updGroup g f).armings = s.armings := rfl
@[simp] theorem State.updGroup_rtabs (s : State) (g : Fin 8) (f : Group → Group) : (s.updGroup g f).rtabs = s.rtabs := rfl
@[simp] theorem State.updGroup_domain (s : State) (g : Fin 8) (f : Group → Group) : (s.updGroup g f).domain = s.domain := rfl
@[simp] theorem State.updGroup_device (s : State) (g : Fin 8) (f : Group → Group) : (s.updGroup g f).device = s.device := rfl
@[simp] theorem State.updGroup_master (s : State) (g : Fin 8) (f : Group → Group) : (s.updGroup g f).master = s.master := rfl
@[simp] theorem State.updGroup_otherMaster (s : State) (g : Fin 8) (f : Group → Group) : (s.updGroup g f).otherMaster = s.otherMaster := rfl
@[simp] theorem State.updGroup_statRing (s : State) (g : Fin 8) (f : Group → Group) : (s.updGroup g f).statRing = s.statRing := rfl
@[simp] theorem State.updGroup_capture (s : State) (g : Fin 8) (f : Group → Group) : (s.updGroup g f).capture = s.capture := rfl
@[simp] theorem State.updGroup_streams (s : State) (g : Fin 8) (f : Group → Group) : (s.updGroup g f).streams = s.streams := rfl
@[simp] theorem State.updGroup_out (s : State) (g : Fin 8) (f : Group → Group) : (s.updGroup g f).out = s.out := rfl
@[simp] theorem State.updGroup_deferred (s : State) (g : Fin 8) (f : Group → Group) : (s.updGroup g f).deferred = s.deferred := rfl
@[simp] theorem State.updGroup_heldCmds (s : State) (g : Fin 8) (f : Group → Group) : (s.updGroup g f).heldCmds = s.heldCmds := rfl
@[simp] theorem State.updGroup_forwards (s : State) (g : Fin 8) (f : Group → Group) : (s.updGroup g f).forwards = s.forwards := rfl
@[simp] theorem State.updGroup_powered (s : State) (g : Fin 8) (f : Group → Group) : (s.updGroup g f).powered = s.powered := rfl
@[simp] theorem State.updGroup_stage (s : State) (g : Fin 8) (f : Group → Group) : (s.updGroup g f).stage = s.stage := rfl
@[simp] theorem State.updGroup_holding (s : State) (g : Fin 8) (f : Group → Group) : (s.updGroup g f).holding = s.holding := rfl
@[simp] theorem State.updGroup_heldTurn (s : State) (g : Fin 8) (f : Group → Group) : (s.updGroup g f).heldTurn = s.heldTurn := rfl
@[simp] theorem State.updGroup_measured (s : State) (g : Fin 8) (f : Group → Group) : (s.updGroup g f).measured = s.measured := rfl
@[simp] theorem State.updGroup_image (s : State) (g : Fin 8) (f : Group → Group) : (s.updGroup g f).image = s.image := rfl
@[simp] theorem State.updGroup_imageFetch (s : State) (g : Fin 8) (f : Group → Group) : (s.updGroup g f).imageFetch = s.imageFetch := rfl
@[simp] theorem State.updGroup_images (s : State) (g : Fin 8) (f : Group → Group) : (s.updGroup g f).images = s.images := rfl
@[simp] theorem State.updGroup_version (s : State) (g : Fin 8) (f : Group → Group) : (s.updGroup g f).version = s.version := rfl
@[simp] theorem State.updGroup_turn (s : State) (g : Fin 8) (f : Group → Group) : (s.updGroup g f).turn = s.turn := rfl
@[simp] theorem State.updGroup_agenda (s : State) (g : Fin 8) (f : Group → Group) : (s.updGroup g f).agenda = s.agenda := rfl
@[simp] theorem State.updGroup_future (s : State) (g : Fin 8) (f : Group → Group) : (s.updGroup g f).future = s.future := rfl
@[simp] theorem State.updGroup_inbox (s : State) (g : Fin 8) (f : Group → Group) : (s.updGroup g f).inbox = s.inbox := rfl
@[simp] theorem State.updGroup_ev (s : State) (g : Fin 8) (f : Group → Group) : (s.updGroup g f).ev = s.ev := rfl
@[simp] theorem State.updGroup_pkt (s : State) (g : Fin 8) (f : Group → Group) : (s.updGroup g f).pkt = s.pkt := rfl
@[simp] theorem State.updGroup_issue (s : State) (g : Fin 8) (f : Group → Group) : (s.updGroup g f).issue = s.issue := rfl
@[simp] theorem State.updGroup_delays (s : State) (g : Fin 8) (f : Group → Group) : (s.updGroup g f).delays = s.delays := rfl
@[simp] theorem State.updGroup_areas (s : State) (g : Fin 8) (f : Group → Group) : (s.updGroup g f).areas = s.areas := rfl
@[simp] theorem State.updGroup_freeCtr (s : State) (g : Fin 8) (f : Group → Group) : (s.updGroup g f).freeCtr = s.freeCtr := rfl
@[simp] theorem State.updGroup_nextSeq (s : State) (g : Fin 8) (f : Group → Group) : (s.updGroup g f).nextSeq = s.nextSeq := rfl
@[simp] theorem State.updGroup_nextId (s : State) (g : Fin 8) (f : Group → Group) : (s.updGroup g f).nextId = s.nextId := rfl
@[simp] theorem State.updTask_cycle (s : State) (n : Nat) (f : Task → Task) : (s.updTask n f).cycle = s.cycle := rfl
@[simp] theorem State.updTask_gstep (s : State) (n : Nat) (f : Task → Task) : (s.updTask n f).gstep = s.gstep := rfl
@[simp] theorem State.updTask_mem (s : State) (n : Nat) (f : Task → Task) : (s.updTask n f).mem = s.mem := rfl
@[simp] theorem State.updTask_poison (s : State) (n : Nat) (f : Task → Task) : (s.updTask n f).poison = s.poison := rfl
@[simp] theorem State.updTask_cores (s : State) (n : Nat) (f : Task → Task) : (s.updTask n f).cores = s.cores := rfl
@[simp] theorem State.updTask_groups (s : State) (n : Nat) (f : Task → Task) : (s.updTask n f).groups = s.groups := rfl
@[simp] theorem State.updTask_roots (s : State) (n : Nat) (f : Task → Task) : (s.updTask n f).roots = s.roots := rfl
@[simp] theorem State.updTask_tlbs (s : State) (n : Nat) (f : Task → Task) : (s.updTask n f).tlbs = s.tlbs := rfl
@[simp] theorem State.updTask_walkers (s : State) (n : Nat) (f : Task → Task) : (s.updTask n f).walkers = s.walkers := rfl
@[simp] theorem State.updTask_slices (s : State) (n : Nat) (f : Task → Task) : (s.updTask n f).slices = s.slices := rfl
@[simp] theorem State.updTask_parked (s : State) (n : Nat) (f : Task → Task) : (s.updTask n f).parked = s.parked := rfl
@[simp] theorem State.updTask_resumes (s : State) (n : Nat) (f : Task → Task) : (s.updTask n f).resumes = s.resumes := rfl
@[simp] theorem State.updTask_marks (s : State) (n : Nat) (f : Task → Task) : (s.updTask n f).marks = s.marks := rfl
@[simp] theorem State.updTask_queues (s : State) (n : Nat) (f : Task → Task) : (s.updTask n f).queues = s.queues := rfl
@[simp] theorem State.updTask_credits (s : State) (n : Nat) (f : Task → Task) : (s.updTask n f).credits = s.credits := rfl
@[simp] theorem State.updTask_pointers (s : State) (n : Nat) (f : Task → Task) : (s.updTask n f).pointers = s.pointers := rfl
@[simp] theorem State.updTask_ageLimit (s : State) (n : Nat) (f : Task → Task) : (s.updTask n f).ageLimit = s.ageLimit := rfl
@[simp] theorem State.updTask_spaces (s : State) (n : Nat) (f : Task → Task) : (s.updTask n f).spaces = s.spaces := rfl
@[simp] theorem State.updTask_seqStore (s : State) (n : Nat) (f : Task → Task) : (s.updTask n f).seqStore = s.seqStore := rfl
@[simp] theorem State.updTask_promotions (s : State) (n : Nat) (f : Task → Task) : (s.updTask n f).promotions = s.promotions := rfl
@[simp] theorem State.updTask_tensors (s : State) (n : Nat) (f : Task → Task) : (s.updTask n f).tensors = s.tensors := rfl
@[simp] theorem State.updTask_factors (s : State) (n : Nat) (f : Task → Task) : (s.updTask n f).factors = s.factors := rfl
@[simp] theorem State.updTask_staged (s : State) (n : Nat) (f : Task → Task) : (s.updTask n f).staged = s.staged := rfl
@[simp] theorem State.updTask_stepGroup (s : State) (n : Nat) (f : Task → Task) : (s.updTask n f).stepGroup = s.stepGroup := rfl
@[simp] theorem State.updTask_heldVotes (s : State) (n : Nat) (f : Task → Task) : (s.updTask n f).heldVotes = s.heldVotes := rfl
@[simp] theorem State.updTask_collGroups (s : State) (n : Nat) (f : Task → Task) : (s.updTask n f).collGroups = s.collGroups := rfl
@[simp] theorem State.updTask_collParts (s : State) (n : Nat) (f : Task → Task) : (s.updTask n f).collParts = s.collParts := rfl
@[simp] theorem State.updTask_buckets (s : State) (n : Nat) (f : Task → Task) : (s.updTask n f).buckets = s.buckets := rfl
@[simp] theorem State.updTask_armings (s : State) (n : Nat) (f : Task → Task) : (s.updTask n f).armings = s.armings := rfl
@[simp] theorem State.updTask_rtabs (s : State) (n : Nat) (f : Task → Task) : (s.updTask n f).rtabs = s.rtabs := rfl
@[simp] theorem State.updTask_domain (s : State) (n : Nat) (f : Task → Task) : (s.updTask n f).domain = s.domain := rfl
@[simp] theorem State.updTask_device (s : State) (n : Nat) (f : Task → Task) : (s.updTask n f).device = s.device := rfl
@[simp] theorem State.updTask_master (s : State) (n : Nat) (f : Task → Task) : (s.updTask n f).master = s.master := rfl
@[simp] theorem State.updTask_otherMaster (s : State) (n : Nat) (f : Task → Task) : (s.updTask n f).otherMaster = s.otherMaster := rfl
@[simp] theorem State.updTask_statRing (s : State) (n : Nat) (f : Task → Task) : (s.updTask n f).statRing = s.statRing := rfl
@[simp] theorem State.updTask_capture (s : State) (n : Nat) (f : Task → Task) : (s.updTask n f).capture = s.capture := rfl
@[simp] theorem State.updTask_streams (s : State) (n : Nat) (f : Task → Task) : (s.updTask n f).streams = s.streams := rfl
@[simp] theorem State.updTask_out (s : State) (n : Nat) (f : Task → Task) : (s.updTask n f).out = s.out := rfl
@[simp] theorem State.updTask_deferred (s : State) (n : Nat) (f : Task → Task) : (s.updTask n f).deferred = s.deferred := rfl
@[simp] theorem State.updTask_heldCmds (s : State) (n : Nat) (f : Task → Task) : (s.updTask n f).heldCmds = s.heldCmds := rfl
@[simp] theorem State.updTask_forwards (s : State) (n : Nat) (f : Task → Task) : (s.updTask n f).forwards = s.forwards := rfl
@[simp] theorem State.updTask_powered (s : State) (n : Nat) (f : Task → Task) : (s.updTask n f).powered = s.powered := rfl
@[simp] theorem State.updTask_stage (s : State) (n : Nat) (f : Task → Task) : (s.updTask n f).stage = s.stage := rfl
@[simp] theorem State.updTask_holding (s : State) (n : Nat) (f : Task → Task) : (s.updTask n f).holding = s.holding := rfl
@[simp] theorem State.updTask_heldTurn (s : State) (n : Nat) (f : Task → Task) : (s.updTask n f).heldTurn = s.heldTurn := rfl
@[simp] theorem State.updTask_measured (s : State) (n : Nat) (f : Task → Task) : (s.updTask n f).measured = s.measured := rfl
@[simp] theorem State.updTask_image (s : State) (n : Nat) (f : Task → Task) : (s.updTask n f).image = s.image := rfl
@[simp] theorem State.updTask_imageFetch (s : State) (n : Nat) (f : Task → Task) : (s.updTask n f).imageFetch = s.imageFetch := rfl
@[simp] theorem State.updTask_images (s : State) (n : Nat) (f : Task → Task) : (s.updTask n f).images = s.images := rfl
@[simp] theorem State.updTask_version (s : State) (n : Nat) (f : Task → Task) : (s.updTask n f).version = s.version := rfl
@[simp] theorem State.updTask_turn (s : State) (n : Nat) (f : Task → Task) : (s.updTask n f).turn = s.turn := rfl
@[simp] theorem State.updTask_agenda (s : State) (n : Nat) (f : Task → Task) : (s.updTask n f).agenda = s.agenda := rfl
@[simp] theorem State.updTask_future (s : State) (n : Nat) (f : Task → Task) : (s.updTask n f).future = s.future := rfl
@[simp] theorem State.updTask_inbox (s : State) (n : Nat) (f : Task → Task) : (s.updTask n f).inbox = s.inbox := rfl
@[simp] theorem State.updTask_ev (s : State) (n : Nat) (f : Task → Task) : (s.updTask n f).ev = s.ev := rfl
@[simp] theorem State.updTask_pkt (s : State) (n : Nat) (f : Task → Task) : (s.updTask n f).pkt = s.pkt := rfl
@[simp] theorem State.updTask_issue (s : State) (n : Nat) (f : Task → Task) : (s.updTask n f).issue = s.issue := rfl
@[simp] theorem State.updTask_delays (s : State) (n : Nat) (f : Task → Task) : (s.updTask n f).delays = s.delays := rfl
@[simp] theorem State.updTask_areas (s : State) (n : Nat) (f : Task → Task) : (s.updTask n f).areas = s.areas := rfl
@[simp] theorem State.updTask_freeCtr (s : State) (n : Nat) (f : Task → Task) : (s.updTask n f).freeCtr = s.freeCtr := rfl
@[simp] theorem State.updTask_nextSeq (s : State) (n : Nat) (f : Task → Task) : (s.updTask n f).nextSeq = s.nextSeq := rfl
@[simp] theorem State.updTask_nextId (s : State) (n : Nat) (f : Task → Task) : (s.updTask n f).nextId = s.nextId := rfl
@[simp] theorem State.record_cycle (s : State) (c : Fin 208) (kind : BitVec 7) (aux : BitVec 45) (a : BitVec 56) (v : Word) (l : List Word) : (s.record c kind aux a v l).cycle = s.cycle := rfl
@[simp] theorem State.record_gstep (s : State) (c : Fin 208) (kind : BitVec 7) (aux : BitVec 45) (a : BitVec 56) (v : Word) (l : List Word) : (s.record c kind aux a v l).gstep = s.gstep := rfl
@[simp] theorem State.record_mem (s : State) (c : Fin 208) (kind : BitVec 7) (aux : BitVec 45) (a : BitVec 56) (v : Word) (l : List Word) : (s.record c kind aux a v l).mem = s.mem := rfl
@[simp] theorem State.record_poison (s : State) (c : Fin 208) (kind : BitVec 7) (aux : BitVec 45) (a : BitVec 56) (v : Word) (l : List Word) : (s.record c kind aux a v l).poison = s.poison := rfl
@[simp] theorem State.record_cores (s : State) (c : Fin 208) (kind : BitVec 7) (aux : BitVec 45) (a : BitVec 56) (v : Word) (l : List Word) : (s.record c kind aux a v l).cores = s.cores := rfl
@[simp] theorem State.record_roots (s : State) (c : Fin 208) (kind : BitVec 7) (aux : BitVec 45) (a : BitVec 56) (v : Word) (l : List Word) : (s.record c kind aux a v l).roots = s.roots := rfl
@[simp] theorem State.record_tlbs (s : State) (c : Fin 208) (kind : BitVec 7) (aux : BitVec 45) (a : BitVec 56) (v : Word) (l : List Word) : (s.record c kind aux a v l).tlbs = s.tlbs := rfl
@[simp] theorem State.record_walkers (s : State) (c : Fin 208) (kind : BitVec 7) (aux : BitVec 45) (a : BitVec 56) (v : Word) (l : List Word) : (s.record c kind aux a v l).walkers = s.walkers := rfl
@[simp] theorem State.record_slices (s : State) (c : Fin 208) (kind : BitVec 7) (aux : BitVec 45) (a : BitVec 56) (v : Word) (l : List Word) : (s.record c kind aux a v l).slices = s.slices := rfl
@[simp] theorem State.record_parked (s : State) (c : Fin 208) (kind : BitVec 7) (aux : BitVec 45) (a : BitVec 56) (v : Word) (l : List Word) : (s.record c kind aux a v l).parked = s.parked := rfl
@[simp] theorem State.record_tasks (s : State) (c : Fin 208) (kind : BitVec 7) (aux : BitVec 45) (a : BitVec 56) (v : Word) (l : List Word) : (s.record c kind aux a v l).tasks = s.tasks := rfl
@[simp] theorem State.record_resumes (s : State) (c : Fin 208) (kind : BitVec 7) (aux : BitVec 45) (a : BitVec 56) (v : Word) (l : List Word) : (s.record c kind aux a v l).resumes = s.resumes := rfl
@[simp] theorem State.record_marks (s : State) (c : Fin 208) (kind : BitVec 7) (aux : BitVec 45) (a : BitVec 56) (v : Word) (l : List Word) : (s.record c kind aux a v l).marks = s.marks := rfl
@[simp] theorem State.record_queues (s : State) (c : Fin 208) (kind : BitVec 7) (aux : BitVec 45) (a : BitVec 56) (v : Word) (l : List Word) : (s.record c kind aux a v l).queues = s.queues := rfl
@[simp] theorem State.record_credits (s : State) (c : Fin 208) (kind : BitVec 7) (aux : BitVec 45) (a : BitVec 56) (v : Word) (l : List Word) : (s.record c kind aux a v l).credits = s.credits := rfl
@[simp] theorem State.record_pointers (s : State) (c : Fin 208) (kind : BitVec 7) (aux : BitVec 45) (a : BitVec 56) (v : Word) (l : List Word) : (s.record c kind aux a v l).pointers = s.pointers := rfl
@[simp] theorem State.record_ageLimit (s : State) (c : Fin 208) (kind : BitVec 7) (aux : BitVec 45) (a : BitVec 56) (v : Word) (l : List Word) : (s.record c kind aux a v l).ageLimit = s.ageLimit := rfl
@[simp] theorem State.record_spaces (s : State) (c : Fin 208) (kind : BitVec 7) (aux : BitVec 45) (a : BitVec 56) (v : Word) (l : List Word) : (s.record c kind aux a v l).spaces = s.spaces := rfl
@[simp] theorem State.record_seqStore (s : State) (c : Fin 208) (kind : BitVec 7) (aux : BitVec 45) (a : BitVec 56) (v : Word) (l : List Word) : (s.record c kind aux a v l).seqStore = s.seqStore := rfl
@[simp] theorem State.record_promotions (s : State) (c : Fin 208) (kind : BitVec 7) (aux : BitVec 45) (a : BitVec 56) (v : Word) (l : List Word) : (s.record c kind aux a v l).promotions = s.promotions := rfl
@[simp] theorem State.record_tensors (s : State) (c : Fin 208) (kind : BitVec 7) (aux : BitVec 45) (a : BitVec 56) (v : Word) (l : List Word) : (s.record c kind aux a v l).tensors = s.tensors := rfl
@[simp] theorem State.record_factors (s : State) (c : Fin 208) (kind : BitVec 7) (aux : BitVec 45) (a : BitVec 56) (v : Word) (l : List Word) : (s.record c kind aux a v l).factors = s.factors := rfl
@[simp] theorem State.record_staged (s : State) (c : Fin 208) (kind : BitVec 7) (aux : BitVec 45) (a : BitVec 56) (v : Word) (l : List Word) : (s.record c kind aux a v l).staged = s.staged := rfl
@[simp] theorem State.record_stepGroup (s : State) (c : Fin 208) (kind : BitVec 7) (aux : BitVec 45) (a : BitVec 56) (v : Word) (l : List Word) : (s.record c kind aux a v l).stepGroup = s.stepGroup := rfl
@[simp] theorem State.record_heldVotes (s : State) (c : Fin 208) (kind : BitVec 7) (aux : BitVec 45) (a : BitVec 56) (v : Word) (l : List Word) : (s.record c kind aux a v l).heldVotes = s.heldVotes := rfl
@[simp] theorem State.record_collGroups (s : State) (c : Fin 208) (kind : BitVec 7) (aux : BitVec 45) (a : BitVec 56) (v : Word) (l : List Word) : (s.record c kind aux a v l).collGroups = s.collGroups := rfl
@[simp] theorem State.record_collParts (s : State) (c : Fin 208) (kind : BitVec 7) (aux : BitVec 45) (a : BitVec 56) (v : Word) (l : List Word) : (s.record c kind aux a v l).collParts = s.collParts := rfl
@[simp] theorem State.record_buckets (s : State) (c : Fin 208) (kind : BitVec 7) (aux : BitVec 45) (a : BitVec 56) (v : Word) (l : List Word) : (s.record c kind aux a v l).buckets = s.buckets := rfl
@[simp] theorem State.record_armings (s : State) (c : Fin 208) (kind : BitVec 7) (aux : BitVec 45) (a : BitVec 56) (v : Word) (l : List Word) : (s.record c kind aux a v l).armings = s.armings := rfl
@[simp] theorem State.record_rtabs (s : State) (c : Fin 208) (kind : BitVec 7) (aux : BitVec 45) (a : BitVec 56) (v : Word) (l : List Word) : (s.record c kind aux a v l).rtabs = s.rtabs := rfl
@[simp] theorem State.record_domain (s : State) (c : Fin 208) (kind : BitVec 7) (aux : BitVec 45) (a : BitVec 56) (v : Word) (l : List Word) : (s.record c kind aux a v l).domain = s.domain := rfl
@[simp] theorem State.record_device (s : State) (c : Fin 208) (kind : BitVec 7) (aux : BitVec 45) (a : BitVec 56) (v : Word) (l : List Word) : (s.record c kind aux a v l).device = s.device := rfl
@[simp] theorem State.record_master (s : State) (c : Fin 208) (kind : BitVec 7) (aux : BitVec 45) (a : BitVec 56) (v : Word) (l : List Word) : (s.record c kind aux a v l).master = s.master := rfl
@[simp] theorem State.record_otherMaster (s : State) (c : Fin 208) (kind : BitVec 7) (aux : BitVec 45) (a : BitVec 56) (v : Word) (l : List Word) : (s.record c kind aux a v l).otherMaster = s.otherMaster := rfl
@[simp] theorem State.record_statRing (s : State) (c : Fin 208) (kind : BitVec 7) (aux : BitVec 45) (a : BitVec 56) (v : Word) (l : List Word) : (s.record c kind aux a v l).statRing = s.statRing := rfl
@[simp] theorem State.record_capture (s : State) (c : Fin 208) (kind : BitVec 7) (aux : BitVec 45) (a : BitVec 56) (v : Word) (l : List Word) : (s.record c kind aux a v l).capture = s.capture := rfl
@[simp] theorem State.record_streams (s : State) (c : Fin 208) (kind : BitVec 7) (aux : BitVec 45) (a : BitVec 56) (v : Word) (l : List Word) : (s.record c kind aux a v l).streams = s.streams := rfl
@[simp] theorem State.record_out (s : State) (c : Fin 208) (kind : BitVec 7) (aux : BitVec 45) (a : BitVec 56) (v : Word) (l : List Word) : (s.record c kind aux a v l).out = s.out := rfl
@[simp] theorem State.record_deferred (s : State) (c : Fin 208) (kind : BitVec 7) (aux : BitVec 45) (a : BitVec 56) (v : Word) (l : List Word) : (s.record c kind aux a v l).deferred = s.deferred := rfl
@[simp] theorem State.record_heldCmds (s : State) (c : Fin 208) (kind : BitVec 7) (aux : BitVec 45) (a : BitVec 56) (v : Word) (l : List Word) : (s.record c kind aux a v l).heldCmds = s.heldCmds := rfl
@[simp] theorem State.record_forwards (s : State) (c : Fin 208) (kind : BitVec 7) (aux : BitVec 45) (a : BitVec 56) (v : Word) (l : List Word) : (s.record c kind aux a v l).forwards = s.forwards := rfl
@[simp] theorem State.record_powered (s : State) (c : Fin 208) (kind : BitVec 7) (aux : BitVec 45) (a : BitVec 56) (v : Word) (l : List Word) : (s.record c kind aux a v l).powered = s.powered := rfl
@[simp] theorem State.record_stage (s : State) (c : Fin 208) (kind : BitVec 7) (aux : BitVec 45) (a : BitVec 56) (v : Word) (l : List Word) : (s.record c kind aux a v l).stage = s.stage := rfl
@[simp] theorem State.record_holding (s : State) (c : Fin 208) (kind : BitVec 7) (aux : BitVec 45) (a : BitVec 56) (v : Word) (l : List Word) : (s.record c kind aux a v l).holding = s.holding := rfl
@[simp] theorem State.record_heldTurn (s : State) (c : Fin 208) (kind : BitVec 7) (aux : BitVec 45) (a : BitVec 56) (v : Word) (l : List Word) : (s.record c kind aux a v l).heldTurn = s.heldTurn := rfl
@[simp] theorem State.record_measured (s : State) (c : Fin 208) (kind : BitVec 7) (aux : BitVec 45) (a : BitVec 56) (v : Word) (l : List Word) : (s.record c kind aux a v l).measured = s.measured := rfl
@[simp] theorem State.record_image (s : State) (c : Fin 208) (kind : BitVec 7) (aux : BitVec 45) (a : BitVec 56) (v : Word) (l : List Word) : (s.record c kind aux a v l).image = s.image := rfl
@[simp] theorem State.record_imageFetch (s : State) (c : Fin 208) (kind : BitVec 7) (aux : BitVec 45) (a : BitVec 56) (v : Word) (l : List Word) : (s.record c kind aux a v l).imageFetch = s.imageFetch := rfl
@[simp] theorem State.record_images (s : State) (c : Fin 208) (kind : BitVec 7) (aux : BitVec 45) (a : BitVec 56) (v : Word) (l : List Word) : (s.record c kind aux a v l).images = s.images := rfl
@[simp] theorem State.record_version (s : State) (c : Fin 208) (kind : BitVec 7) (aux : BitVec 45) (a : BitVec 56) (v : Word) (l : List Word) : (s.record c kind aux a v l).version = s.version := rfl
@[simp] theorem State.record_turn (s : State) (c : Fin 208) (kind : BitVec 7) (aux : BitVec 45) (a : BitVec 56) (v : Word) (l : List Word) : (s.record c kind aux a v l).turn = s.turn := rfl
@[simp] theorem State.record_agenda (s : State) (c : Fin 208) (kind : BitVec 7) (aux : BitVec 45) (a : BitVec 56) (v : Word) (l : List Word) : (s.record c kind aux a v l).agenda = s.agenda := rfl
@[simp] theorem State.record_future (s : State) (c : Fin 208) (kind : BitVec 7) (aux : BitVec 45) (a : BitVec 56) (v : Word) (l : List Word) : (s.record c kind aux a v l).future = s.future := rfl
@[simp] theorem State.record_inbox (s : State) (c : Fin 208) (kind : BitVec 7) (aux : BitVec 45) (a : BitVec 56) (v : Word) (l : List Word) : (s.record c kind aux a v l).inbox = s.inbox := rfl
@[simp] theorem State.record_ev (s : State) (c : Fin 208) (kind : BitVec 7) (aux : BitVec 45) (a : BitVec 56) (v : Word) (l : List Word) : (s.record c kind aux a v l).ev = s.ev := rfl
@[simp] theorem State.record_pkt (s : State) (c : Fin 208) (kind : BitVec 7) (aux : BitVec 45) (a : BitVec 56) (v : Word) (l : List Word) : (s.record c kind aux a v l).pkt = s.pkt := rfl
@[simp] theorem State.record_issue (s : State) (c : Fin 208) (kind : BitVec 7) (aux : BitVec 45) (a : BitVec 56) (v : Word) (l : List Word) : (s.record c kind aux a v l).issue = s.issue := rfl
@[simp] theorem State.record_delays (s : State) (c : Fin 208) (kind : BitVec 7) (aux : BitVec 45) (a : BitVec 56) (v : Word) (l : List Word) : (s.record c kind aux a v l).delays = s.delays := rfl
@[simp] theorem State.record_areas (s : State) (c : Fin 208) (kind : BitVec 7) (aux : BitVec 45) (a : BitVec 56) (v : Word) (l : List Word) : (s.record c kind aux a v l).areas = s.areas := rfl
@[simp] theorem State.record_freeCtr (s : State) (c : Fin 208) (kind : BitVec 7) (aux : BitVec 45) (a : BitVec 56) (v : Word) (l : List Word) : (s.record c kind aux a v l).freeCtr = s.freeCtr := rfl
@[simp] theorem State.record_nextSeq (s : State) (c : Fin 208) (kind : BitVec 7) (aux : BitVec 45) (a : BitVec 56) (v : Word) (l : List Word) : (s.record c kind aux a v l).nextSeq = s.nextSeq := rfl
@[simp] theorem State.record_nextId (s : State) (c : Fin 208) (kind : BitVec 7) (aux : BitVec 45) (a : BitVec 56) (v : Word) (l : List Word) : (s.record c kind aux a v l).nextId = s.nextId := rfl
@[simp] theorem State.later_cycle (s : State) (d : Nat) (e : Event) : (s.later d e).cycle = s.cycle := rfl
@[simp] theorem State.later_gstep (s : State) (d : Nat) (e : Event) : (s.later d e).gstep = s.gstep := rfl
@[simp] theorem State.later_mem (s : State) (d : Nat) (e : Event) : (s.later d e).mem = s.mem := rfl
@[simp] theorem State.later_poison (s : State) (d : Nat) (e : Event) : (s.later d e).poison = s.poison := rfl
@[simp] theorem State.later_cores (s : State) (d : Nat) (e : Event) : (s.later d e).cores = s.cores := rfl
@[simp] theorem State.later_groups (s : State) (d : Nat) (e : Event) : (s.later d e).groups = s.groups := rfl
@[simp] theorem State.later_roots (s : State) (d : Nat) (e : Event) : (s.later d e).roots = s.roots := rfl
@[simp] theorem State.later_tlbs (s : State) (d : Nat) (e : Event) : (s.later d e).tlbs = s.tlbs := rfl
@[simp] theorem State.later_walkers (s : State) (d : Nat) (e : Event) : (s.later d e).walkers = s.walkers := rfl
@[simp] theorem State.later_slices (s : State) (d : Nat) (e : Event) : (s.later d e).slices = s.slices := rfl
@[simp] theorem State.later_parked (s : State) (d : Nat) (e : Event) : (s.later d e).parked = s.parked := rfl
@[simp] theorem State.later_tasks (s : State) (d : Nat) (e : Event) : (s.later d e).tasks = s.tasks := rfl
@[simp] theorem State.later_resumes (s : State) (d : Nat) (e : Event) : (s.later d e).resumes = s.resumes := rfl
@[simp] theorem State.later_marks (s : State) (d : Nat) (e : Event) : (s.later d e).marks = s.marks := rfl
@[simp] theorem State.later_queues (s : State) (d : Nat) (e : Event) : (s.later d e).queues = s.queues := rfl
@[simp] theorem State.later_credits (s : State) (d : Nat) (e : Event) : (s.later d e).credits = s.credits := rfl
@[simp] theorem State.later_pointers (s : State) (d : Nat) (e : Event) : (s.later d e).pointers = s.pointers := rfl
@[simp] theorem State.later_ageLimit (s : State) (d : Nat) (e : Event) : (s.later d e).ageLimit = s.ageLimit := rfl
@[simp] theorem State.later_spaces (s : State) (d : Nat) (e : Event) : (s.later d e).spaces = s.spaces := rfl
@[simp] theorem State.later_seqStore (s : State) (d : Nat) (e : Event) : (s.later d e).seqStore = s.seqStore := rfl
@[simp] theorem State.later_promotions (s : State) (d : Nat) (e : Event) : (s.later d e).promotions = s.promotions := rfl
@[simp] theorem State.later_tensors (s : State) (d : Nat) (e : Event) : (s.later d e).tensors = s.tensors := rfl
@[simp] theorem State.later_factors (s : State) (d : Nat) (e : Event) : (s.later d e).factors = s.factors := rfl
@[simp] theorem State.later_staged (s : State) (d : Nat) (e : Event) : (s.later d e).staged = s.staged := rfl
@[simp] theorem State.later_stepGroup (s : State) (d : Nat) (e : Event) : (s.later d e).stepGroup = s.stepGroup := rfl
@[simp] theorem State.later_heldVotes (s : State) (d : Nat) (e : Event) : (s.later d e).heldVotes = s.heldVotes := rfl
@[simp] theorem State.later_collGroups (s : State) (d : Nat) (e : Event) : (s.later d e).collGroups = s.collGroups := rfl
@[simp] theorem State.later_collParts (s : State) (d : Nat) (e : Event) : (s.later d e).collParts = s.collParts := rfl
@[simp] theorem State.later_buckets (s : State) (d : Nat) (e : Event) : (s.later d e).buckets = s.buckets := rfl
@[simp] theorem State.later_armings (s : State) (d : Nat) (e : Event) : (s.later d e).armings = s.armings := rfl
@[simp] theorem State.later_rtabs (s : State) (d : Nat) (e : Event) : (s.later d e).rtabs = s.rtabs := rfl
@[simp] theorem State.later_domain (s : State) (d : Nat) (e : Event) : (s.later d e).domain = s.domain := rfl
@[simp] theorem State.later_device (s : State) (d : Nat) (e : Event) : (s.later d e).device = s.device := rfl
@[simp] theorem State.later_master (s : State) (d : Nat) (e : Event) : (s.later d e).master = s.master := rfl
@[simp] theorem State.later_otherMaster (s : State) (d : Nat) (e : Event) : (s.later d e).otherMaster = s.otherMaster := rfl
@[simp] theorem State.later_statRing (s : State) (d : Nat) (e : Event) : (s.later d e).statRing = s.statRing := rfl
@[simp] theorem State.later_capture (s : State) (d : Nat) (e : Event) : (s.later d e).capture = s.capture := rfl
@[simp] theorem State.later_streams (s : State) (d : Nat) (e : Event) : (s.later d e).streams = s.streams := rfl
@[simp] theorem State.later_out (s : State) (d : Nat) (e : Event) : (s.later d e).out = s.out := rfl
@[simp] theorem State.later_deferred (s : State) (d : Nat) (e : Event) : (s.later d e).deferred = s.deferred := rfl
@[simp] theorem State.later_heldCmds (s : State) (d : Nat) (e : Event) : (s.later d e).heldCmds = s.heldCmds := rfl
@[simp] theorem State.later_forwards (s : State) (d : Nat) (e : Event) : (s.later d e).forwards = s.forwards := rfl
@[simp] theorem State.later_powered (s : State) (d : Nat) (e : Event) : (s.later d e).powered = s.powered := rfl
@[simp] theorem State.later_stage (s : State) (d : Nat) (e : Event) : (s.later d e).stage = s.stage := rfl
@[simp] theorem State.later_holding (s : State) (d : Nat) (e : Event) : (s.later d e).holding = s.holding := rfl
@[simp] theorem State.later_heldTurn (s : State) (d : Nat) (e : Event) : (s.later d e).heldTurn = s.heldTurn := rfl
@[simp] theorem State.later_measured (s : State) (d : Nat) (e : Event) : (s.later d e).measured = s.measured := rfl
@[simp] theorem State.later_image (s : State) (d : Nat) (e : Event) : (s.later d e).image = s.image := rfl
@[simp] theorem State.later_imageFetch (s : State) (d : Nat) (e : Event) : (s.later d e).imageFetch = s.imageFetch := rfl
@[simp] theorem State.later_images (s : State) (d : Nat) (e : Event) : (s.later d e).images = s.images := rfl
@[simp] theorem State.later_version (s : State) (d : Nat) (e : Event) : (s.later d e).version = s.version := rfl
@[simp] theorem State.later_turn (s : State) (d : Nat) (e : Event) : (s.later d e).turn = s.turn := rfl
@[simp] theorem State.later_agenda (s : State) (d : Nat) (e : Event) : (s.later d e).agenda = s.agenda := rfl
@[simp] theorem State.later_inbox (s : State) (d : Nat) (e : Event) : (s.later d e).inbox = s.inbox := rfl
@[simp] theorem State.later_ev (s : State) (d : Nat) (e : Event) : (s.later d e).ev = s.ev := rfl
@[simp] theorem State.later_pkt (s : State) (d : Nat) (e : Event) : (s.later d e).pkt = s.pkt := rfl
@[simp] theorem State.later_issue (s : State) (d : Nat) (e : Event) : (s.later d e).issue = s.issue := rfl
@[simp] theorem State.later_delays (s : State) (d : Nat) (e : Event) : (s.later d e).delays = s.delays := rfl
@[simp] theorem State.later_areas (s : State) (d : Nat) (e : Event) : (s.later d e).areas = s.areas := rfl
@[simp] theorem State.later_freeCtr (s : State) (d : Nat) (e : Event) : (s.later d e).freeCtr = s.freeCtr := rfl
@[simp] theorem State.later_nextSeq (s : State) (d : Nat) (e : Event) : (s.later d e).nextSeq = s.nextSeq := rfl
@[simp] theorem State.later_nextId (s : State) (d : Nat) (e : Event) : (s.later d e).nextId = s.nextId := rfl
@[simp] theorem State.now_cycle (s : State) (e : Event) : (s.now e).cycle = s.cycle := rfl
@[simp] theorem State.now_gstep (s : State) (e : Event) : (s.now e).gstep = s.gstep := rfl
@[simp] theorem State.now_mem (s : State) (e : Event) : (s.now e).mem = s.mem := rfl
@[simp] theorem State.now_poison (s : State) (e : Event) : (s.now e).poison = s.poison := rfl
@[simp] theorem State.now_cores (s : State) (e : Event) : (s.now e).cores = s.cores := rfl
@[simp] theorem State.now_groups (s : State) (e : Event) : (s.now e).groups = s.groups := rfl
@[simp] theorem State.now_roots (s : State) (e : Event) : (s.now e).roots = s.roots := rfl
@[simp] theorem State.now_tlbs (s : State) (e : Event) : (s.now e).tlbs = s.tlbs := rfl
@[simp] theorem State.now_walkers (s : State) (e : Event) : (s.now e).walkers = s.walkers := rfl
@[simp] theorem State.now_slices (s : State) (e : Event) : (s.now e).slices = s.slices := rfl
@[simp] theorem State.now_parked (s : State) (e : Event) : (s.now e).parked = s.parked := rfl
@[simp] theorem State.now_tasks (s : State) (e : Event) : (s.now e).tasks = s.tasks := rfl
@[simp] theorem State.now_resumes (s : State) (e : Event) : (s.now e).resumes = s.resumes := rfl
@[simp] theorem State.now_marks (s : State) (e : Event) : (s.now e).marks = s.marks := rfl
@[simp] theorem State.now_queues (s : State) (e : Event) : (s.now e).queues = s.queues := rfl
@[simp] theorem State.now_credits (s : State) (e : Event) : (s.now e).credits = s.credits := rfl
@[simp] theorem State.now_pointers (s : State) (e : Event) : (s.now e).pointers = s.pointers := rfl
@[simp] theorem State.now_ageLimit (s : State) (e : Event) : (s.now e).ageLimit = s.ageLimit := rfl
@[simp] theorem State.now_spaces (s : State) (e : Event) : (s.now e).spaces = s.spaces := rfl
@[simp] theorem State.now_seqStore (s : State) (e : Event) : (s.now e).seqStore = s.seqStore := rfl
@[simp] theorem State.now_promotions (s : State) (e : Event) : (s.now e).promotions = s.promotions := rfl
@[simp] theorem State.now_tensors (s : State) (e : Event) : (s.now e).tensors = s.tensors := rfl
@[simp] theorem State.now_factors (s : State) (e : Event) : (s.now e).factors = s.factors := rfl
@[simp] theorem State.now_staged (s : State) (e : Event) : (s.now e).staged = s.staged := rfl
@[simp] theorem State.now_stepGroup (s : State) (e : Event) : (s.now e).stepGroup = s.stepGroup := rfl
@[simp] theorem State.now_heldVotes (s : State) (e : Event) : (s.now e).heldVotes = s.heldVotes := rfl
@[simp] theorem State.now_collGroups (s : State) (e : Event) : (s.now e).collGroups = s.collGroups := rfl
@[simp] theorem State.now_collParts (s : State) (e : Event) : (s.now e).collParts = s.collParts := rfl
@[simp] theorem State.now_buckets (s : State) (e : Event) : (s.now e).buckets = s.buckets := rfl
@[simp] theorem State.now_armings (s : State) (e : Event) : (s.now e).armings = s.armings := rfl
@[simp] theorem State.now_rtabs (s : State) (e : Event) : (s.now e).rtabs = s.rtabs := rfl
@[simp] theorem State.now_domain (s : State) (e : Event) : (s.now e).domain = s.domain := rfl
@[simp] theorem State.now_device (s : State) (e : Event) : (s.now e).device = s.device := rfl
@[simp] theorem State.now_master (s : State) (e : Event) : (s.now e).master = s.master := rfl
@[simp] theorem State.now_otherMaster (s : State) (e : Event) : (s.now e).otherMaster = s.otherMaster := rfl
@[simp] theorem State.now_statRing (s : State) (e : Event) : (s.now e).statRing = s.statRing := rfl
@[simp] theorem State.now_capture (s : State) (e : Event) : (s.now e).capture = s.capture := rfl
@[simp] theorem State.now_streams (s : State) (e : Event) : (s.now e).streams = s.streams := rfl
@[simp] theorem State.now_out (s : State) (e : Event) : (s.now e).out = s.out := rfl
@[simp] theorem State.now_deferred (s : State) (e : Event) : (s.now e).deferred = s.deferred := rfl
@[simp] theorem State.now_heldCmds (s : State) (e : Event) : (s.now e).heldCmds = s.heldCmds := rfl
@[simp] theorem State.now_forwards (s : State) (e : Event) : (s.now e).forwards = s.forwards := rfl
@[simp] theorem State.now_powered (s : State) (e : Event) : (s.now e).powered = s.powered := rfl
@[simp] theorem State.now_stage (s : State) (e : Event) : (s.now e).stage = s.stage := rfl
@[simp] theorem State.now_holding (s : State) (e : Event) : (s.now e).holding = s.holding := rfl
@[simp] theorem State.now_heldTurn (s : State) (e : Event) : (s.now e).heldTurn = s.heldTurn := rfl
@[simp] theorem State.now_measured (s : State) (e : Event) : (s.now e).measured = s.measured := rfl
@[simp] theorem State.now_image (s : State) (e : Event) : (s.now e).image = s.image := rfl
@[simp] theorem State.now_imageFetch (s : State) (e : Event) : (s.now e).imageFetch = s.imageFetch := rfl
@[simp] theorem State.now_images (s : State) (e : Event) : (s.now e).images = s.images := rfl
@[simp] theorem State.now_version (s : State) (e : Event) : (s.now e).version = s.version := rfl
@[simp] theorem State.now_turn (s : State) (e : Event) : (s.now e).turn = s.turn := rfl
@[simp] theorem State.now_future (s : State) (e : Event) : (s.now e).future = s.future := rfl
@[simp] theorem State.now_inbox (s : State) (e : Event) : (s.now e).inbox = s.inbox := rfl
@[simp] theorem State.now_ev (s : State) (e : Event) : (s.now e).ev = s.ev := rfl
@[simp] theorem State.now_pkt (s : State) (e : Event) : (s.now e).pkt = s.pkt := rfl
@[simp] theorem State.now_issue (s : State) (e : Event) : (s.now e).issue = s.issue := rfl
@[simp] theorem State.now_delays (s : State) (e : Event) : (s.now e).delays = s.delays := rfl
@[simp] theorem State.now_areas (s : State) (e : Event) : (s.now e).areas = s.areas := rfl
@[simp] theorem State.now_freeCtr (s : State) (e : Event) : (s.now e).freeCtr = s.freeCtr := rfl
@[simp] theorem State.now_nextSeq (s : State) (e : Event) : (s.now e).nextSeq = s.nextSeq := rfl
@[simp] theorem State.now_nextId (s : State) (e : Event) : (s.now e).nextId = s.nextId := rfl
@[simp] theorem State.send_cycle (s : State) (m : OutMsg) : (s.send m).cycle = s.cycle := rfl
@[simp] theorem State.send_gstep (s : State) (m : OutMsg) : (s.send m).gstep = s.gstep := rfl
@[simp] theorem State.send_mem (s : State) (m : OutMsg) : (s.send m).mem = s.mem := rfl
@[simp] theorem State.send_poison (s : State) (m : OutMsg) : (s.send m).poison = s.poison := rfl
@[simp] theorem State.send_cores (s : State) (m : OutMsg) : (s.send m).cores = s.cores := rfl
@[simp] theorem State.send_groups (s : State) (m : OutMsg) : (s.send m).groups = s.groups := rfl
@[simp] theorem State.send_roots (s : State) (m : OutMsg) : (s.send m).roots = s.roots := rfl
@[simp] theorem State.send_tlbs (s : State) (m : OutMsg) : (s.send m).tlbs = s.tlbs := rfl
@[simp] theorem State.send_walkers (s : State) (m : OutMsg) : (s.send m).walkers = s.walkers := rfl
@[simp] theorem State.send_slices (s : State) (m : OutMsg) : (s.send m).slices = s.slices := rfl
@[simp] theorem State.send_parked (s : State) (m : OutMsg) : (s.send m).parked = s.parked := rfl
@[simp] theorem State.send_tasks (s : State) (m : OutMsg) : (s.send m).tasks = s.tasks := rfl
@[simp] theorem State.send_resumes (s : State) (m : OutMsg) : (s.send m).resumes = s.resumes := rfl
@[simp] theorem State.send_marks (s : State) (m : OutMsg) : (s.send m).marks = s.marks := rfl
@[simp] theorem State.send_queues (s : State) (m : OutMsg) : (s.send m).queues = s.queues := rfl
@[simp] theorem State.send_credits (s : State) (m : OutMsg) : (s.send m).credits = s.credits := rfl
@[simp] theorem State.send_pointers (s : State) (m : OutMsg) : (s.send m).pointers = s.pointers := rfl
@[simp] theorem State.send_ageLimit (s : State) (m : OutMsg) : (s.send m).ageLimit = s.ageLimit := rfl
@[simp] theorem State.send_spaces (s : State) (m : OutMsg) : (s.send m).spaces = s.spaces := rfl
@[simp] theorem State.send_seqStore (s : State) (m : OutMsg) : (s.send m).seqStore = s.seqStore := rfl
@[simp] theorem State.send_promotions (s : State) (m : OutMsg) : (s.send m).promotions = s.promotions := rfl
@[simp] theorem State.send_tensors (s : State) (m : OutMsg) : (s.send m).tensors = s.tensors := rfl
@[simp] theorem State.send_factors (s : State) (m : OutMsg) : (s.send m).factors = s.factors := rfl
@[simp] theorem State.send_staged (s : State) (m : OutMsg) : (s.send m).staged = s.staged := rfl
@[simp] theorem State.send_stepGroup (s : State) (m : OutMsg) : (s.send m).stepGroup = s.stepGroup := rfl
@[simp] theorem State.send_heldVotes (s : State) (m : OutMsg) : (s.send m).heldVotes = s.heldVotes := rfl
@[simp] theorem State.send_collGroups (s : State) (m : OutMsg) : (s.send m).collGroups = s.collGroups := rfl
@[simp] theorem State.send_collParts (s : State) (m : OutMsg) : (s.send m).collParts = s.collParts := rfl
@[simp] theorem State.send_buckets (s : State) (m : OutMsg) : (s.send m).buckets = s.buckets := rfl
@[simp] theorem State.send_armings (s : State) (m : OutMsg) : (s.send m).armings = s.armings := rfl
@[simp] theorem State.send_rtabs (s : State) (m : OutMsg) : (s.send m).rtabs = s.rtabs := rfl
@[simp] theorem State.send_domain (s : State) (m : OutMsg) : (s.send m).domain = s.domain := rfl
@[simp] theorem State.send_device (s : State) (m : OutMsg) : (s.send m).device = s.device := rfl
@[simp] theorem State.send_master (s : State) (m : OutMsg) : (s.send m).master = s.master := rfl
@[simp] theorem State.send_otherMaster (s : State) (m : OutMsg) : (s.send m).otherMaster = s.otherMaster := rfl
@[simp] theorem State.send_statRing (s : State) (m : OutMsg) : (s.send m).statRing = s.statRing := rfl
@[simp] theorem State.send_capture (s : State) (m : OutMsg) : (s.send m).capture = s.capture := rfl
@[simp] theorem State.send_streams (s : State) (m : OutMsg) : (s.send m).streams = s.streams := rfl
@[simp] theorem State.send_deferred (s : State) (m : OutMsg) : (s.send m).deferred = s.deferred := rfl
@[simp] theorem State.send_heldCmds (s : State) (m : OutMsg) : (s.send m).heldCmds = s.heldCmds := rfl
@[simp] theorem State.send_forwards (s : State) (m : OutMsg) : (s.send m).forwards = s.forwards := rfl
@[simp] theorem State.send_powered (s : State) (m : OutMsg) : (s.send m).powered = s.powered := rfl
@[simp] theorem State.send_stage (s : State) (m : OutMsg) : (s.send m).stage = s.stage := rfl
@[simp] theorem State.send_holding (s : State) (m : OutMsg) : (s.send m).holding = s.holding := rfl
@[simp] theorem State.send_heldTurn (s : State) (m : OutMsg) : (s.send m).heldTurn = s.heldTurn := rfl
@[simp] theorem State.send_measured (s : State) (m : OutMsg) : (s.send m).measured = s.measured := rfl
@[simp] theorem State.send_image (s : State) (m : OutMsg) : (s.send m).image = s.image := rfl
@[simp] theorem State.send_imageFetch (s : State) (m : OutMsg) : (s.send m).imageFetch = s.imageFetch := rfl
@[simp] theorem State.send_images (s : State) (m : OutMsg) : (s.send m).images = s.images := rfl
@[simp] theorem State.send_version (s : State) (m : OutMsg) : (s.send m).version = s.version := rfl
@[simp] theorem State.send_turn (s : State) (m : OutMsg) : (s.send m).turn = s.turn := rfl
@[simp] theorem State.send_agenda (s : State) (m : OutMsg) : (s.send m).agenda = s.agenda := rfl
@[simp] theorem State.send_future (s : State) (m : OutMsg) : (s.send m).future = s.future := rfl
@[simp] theorem State.send_inbox (s : State) (m : OutMsg) : (s.send m).inbox = s.inbox := rfl
@[simp] theorem State.send_ev (s : State) (m : OutMsg) : (s.send m).ev = s.ev := rfl
@[simp] theorem State.send_pkt (s : State) (m : OutMsg) : (s.send m).pkt = s.pkt := rfl
@[simp] theorem State.send_issue (s : State) (m : OutMsg) : (s.send m).issue = s.issue := rfl
@[simp] theorem State.send_delays (s : State) (m : OutMsg) : (s.send m).delays = s.delays := rfl
@[simp] theorem State.send_areas (s : State) (m : OutMsg) : (s.send m).areas = s.areas := rfl
@[simp] theorem State.send_freeCtr (s : State) (m : OutMsg) : (s.send m).freeCtr = s.freeCtr := rfl
@[simp] theorem State.send_nextSeq (s : State) (m : OutMsg) : (s.send m).nextSeq = s.nextSeq := rfl
@[simp] theorem State.send_nextId (s : State) (m : OutMsg) : (s.send m).nextId = s.nextId := rfl
@[simp] theorem State.takeDelay_cycle (s : State) : (s.takeDelay.2).cycle = s.cycle := rfl
@[simp] theorem State.takeDelay_gstep (s : State) : (s.takeDelay.2).gstep = s.gstep := rfl
@[simp] theorem State.takeDelay_mem (s : State) : (s.takeDelay.2).mem = s.mem := rfl
@[simp] theorem State.takeDelay_poison (s : State) : (s.takeDelay.2).poison = s.poison := rfl
@[simp] theorem State.takeDelay_cores (s : State) : (s.takeDelay.2).cores = s.cores := rfl
@[simp] theorem State.takeDelay_groups (s : State) : (s.takeDelay.2).groups = s.groups := rfl
@[simp] theorem State.takeDelay_roots (s : State) : (s.takeDelay.2).roots = s.roots := rfl
@[simp] theorem State.takeDelay_tlbs (s : State) : (s.takeDelay.2).tlbs = s.tlbs := rfl
@[simp] theorem State.takeDelay_walkers (s : State) : (s.takeDelay.2).walkers = s.walkers := rfl
@[simp] theorem State.takeDelay_slices (s : State) : (s.takeDelay.2).slices = s.slices := rfl
@[simp] theorem State.takeDelay_parked (s : State) : (s.takeDelay.2).parked = s.parked := rfl
@[simp] theorem State.takeDelay_tasks (s : State) : (s.takeDelay.2).tasks = s.tasks := rfl
@[simp] theorem State.takeDelay_resumes (s : State) : (s.takeDelay.2).resumes = s.resumes := rfl
@[simp] theorem State.takeDelay_marks (s : State) : (s.takeDelay.2).marks = s.marks := rfl
@[simp] theorem State.takeDelay_queues (s : State) : (s.takeDelay.2).queues = s.queues := rfl
@[simp] theorem State.takeDelay_credits (s : State) : (s.takeDelay.2).credits = s.credits := rfl
@[simp] theorem State.takeDelay_pointers (s : State) : (s.takeDelay.2).pointers = s.pointers := rfl
@[simp] theorem State.takeDelay_ageLimit (s : State) : (s.takeDelay.2).ageLimit = s.ageLimit := rfl
@[simp] theorem State.takeDelay_spaces (s : State) : (s.takeDelay.2).spaces = s.spaces := rfl
@[simp] theorem State.takeDelay_seqStore (s : State) : (s.takeDelay.2).seqStore = s.seqStore := rfl
@[simp] theorem State.takeDelay_promotions (s : State) : (s.takeDelay.2).promotions = s.promotions := rfl
@[simp] theorem State.takeDelay_tensors (s : State) : (s.takeDelay.2).tensors = s.tensors := rfl
@[simp] theorem State.takeDelay_factors (s : State) : (s.takeDelay.2).factors = s.factors := rfl
@[simp] theorem State.takeDelay_staged (s : State) : (s.takeDelay.2).staged = s.staged := rfl
@[simp] theorem State.takeDelay_stepGroup (s : State) : (s.takeDelay.2).stepGroup = s.stepGroup := rfl
@[simp] theorem State.takeDelay_heldVotes (s : State) : (s.takeDelay.2).heldVotes = s.heldVotes := rfl
@[simp] theorem State.takeDelay_collGroups (s : State) : (s.takeDelay.2).collGroups = s.collGroups := rfl
@[simp] theorem State.takeDelay_collParts (s : State) : (s.takeDelay.2).collParts = s.collParts := rfl
@[simp] theorem State.takeDelay_buckets (s : State) : (s.takeDelay.2).buckets = s.buckets := rfl
@[simp] theorem State.takeDelay_armings (s : State) : (s.takeDelay.2).armings = s.armings := rfl
@[simp] theorem State.takeDelay_rtabs (s : State) : (s.takeDelay.2).rtabs = s.rtabs := rfl
@[simp] theorem State.takeDelay_domain (s : State) : (s.takeDelay.2).domain = s.domain := rfl
@[simp] theorem State.takeDelay_device (s : State) : (s.takeDelay.2).device = s.device := rfl
@[simp] theorem State.takeDelay_master (s : State) : (s.takeDelay.2).master = s.master := rfl
@[simp] theorem State.takeDelay_otherMaster (s : State) : (s.takeDelay.2).otherMaster = s.otherMaster := rfl
@[simp] theorem State.takeDelay_statRing (s : State) : (s.takeDelay.2).statRing = s.statRing := rfl
@[simp] theorem State.takeDelay_capture (s : State) : (s.takeDelay.2).capture = s.capture := rfl
@[simp] theorem State.takeDelay_streams (s : State) : (s.takeDelay.2).streams = s.streams := rfl
@[simp] theorem State.takeDelay_out (s : State) : (s.takeDelay.2).out = s.out := rfl
@[simp] theorem State.takeDelay_deferred (s : State) : (s.takeDelay.2).deferred = s.deferred := rfl
@[simp] theorem State.takeDelay_heldCmds (s : State) : (s.takeDelay.2).heldCmds = s.heldCmds := rfl
@[simp] theorem State.takeDelay_forwards (s : State) : (s.takeDelay.2).forwards = s.forwards := rfl
@[simp] theorem State.takeDelay_powered (s : State) : (s.takeDelay.2).powered = s.powered := rfl
@[simp] theorem State.takeDelay_stage (s : State) : (s.takeDelay.2).stage = s.stage := rfl
@[simp] theorem State.takeDelay_holding (s : State) : (s.takeDelay.2).holding = s.holding := rfl
@[simp] theorem State.takeDelay_heldTurn (s : State) : (s.takeDelay.2).heldTurn = s.heldTurn := rfl
@[simp] theorem State.takeDelay_measured (s : State) : (s.takeDelay.2).measured = s.measured := rfl
@[simp] theorem State.takeDelay_image (s : State) : (s.takeDelay.2).image = s.image := rfl
@[simp] theorem State.takeDelay_imageFetch (s : State) : (s.takeDelay.2).imageFetch = s.imageFetch := rfl
@[simp] theorem State.takeDelay_images (s : State) : (s.takeDelay.2).images = s.images := rfl
@[simp] theorem State.takeDelay_version (s : State) : (s.takeDelay.2).version = s.version := rfl
@[simp] theorem State.takeDelay_turn (s : State) : (s.takeDelay.2).turn = s.turn := rfl
@[simp] theorem State.takeDelay_agenda (s : State) : (s.takeDelay.2).agenda = s.agenda := rfl
@[simp] theorem State.takeDelay_future (s : State) : (s.takeDelay.2).future = s.future := rfl
@[simp] theorem State.takeDelay_inbox (s : State) : (s.takeDelay.2).inbox = s.inbox := rfl
@[simp] theorem State.takeDelay_ev (s : State) : (s.takeDelay.2).ev = s.ev := rfl
@[simp] theorem State.takeDelay_pkt (s : State) : (s.takeDelay.2).pkt = s.pkt := rfl
@[simp] theorem State.takeDelay_issue (s : State) : (s.takeDelay.2).issue = s.issue := rfl
@[simp] theorem State.takeDelay_areas (s : State) : (s.takeDelay.2).areas = s.areas := rfl
@[simp] theorem State.takeDelay_freeCtr (s : State) : (s.takeDelay.2).freeCtr = s.freeCtr := rfl
@[simp] theorem State.takeDelay_nextSeq (s : State) : (s.takeDelay.2).nextSeq = s.nextSeq := rfl
@[simp] theorem State.takeDelay_nextId (s : State) : (s.takeDelay.2).nextId = s.nextId := rfl

/-! ## Updates of a team and of a context -/

@[simp] theorem Team.updCtx_cur (t : Team) (k : Fin 4) (f : Ctx → Ctx) : (t.updCtx k f).cur = t.cur := rfl
@[simp] theorem Team.updCtx_part (t : Team) (k : Fin 4) (f : Ctx → Ctx) : (t.updCtx k f).part = t.part := rfl
@[simp] theorem Team.updCtx_spad (t : Team) (k : Fin 4) (f : Ctx → Ctx) : (t.updCtx k f).spad = t.spad := rfl
@[simp] theorem Team.updCtx_acc (t : Team) (k : Fin 4) (f : Ctx → Ctx) : (t.updCtx k f).acc = t.acc := rfl
@[simp] theorem Team.updCtx_tileMaps (t : Team) (k : Fin 4) (f : Ctx → Ctx) : (t.updCtx k f).tileMaps = t.tileMaps := rfl
@[simp] theorem Team.updCtx_tileBusy (t : Team) (k : Fin 4) (f : Ctx → Ctx) : (t.updCtx k f).tileBusy = t.tileBusy := rfl
@[simp] theorem Team.updCtx_patA (t : Team) (k : Fin 4) (f : Ctx → Ctx) : (t.updCtx k f).patA = t.patA := rfl
@[simp] theorem Team.updCtx_patB (t : Team) (k : Fin 4) (f : Ctx → Ctx) : (t.updCtx k f).patB = t.patB := rfl
@[simp] theorem Team.updCtx_patActive (t : Team) (k : Fin 4) (f : Ctx → Ctx) : (t.updCtx k f).patActive = t.patActive := rfl
@[simp] theorem Team.updCtx_bars (t : Team) (k : Fin 4) (f : Ctx → Ctx) : (t.updCtx k f).bars = t.bars := rfl
@[simp] theorem Team.updCtx_pend (t : Team) (k : Fin 4) (f : Ctx → Ctx) : (t.updCtx k f).pend = t.pend := rfl
@[simp] theorem Team.updCtx_buffer (t : Team) (k : Fin 4) (f : Ctx → Ctx) : (t.updCtx k f).buffer = t.buffer := rfl
@[simp] theorem Team.updCtx_replay (t : Team) (k : Fin 4) (f : Ctx → Ctx) : (t.updCtx k f).replay = t.replay := rfl
@[simp] theorem Team.updCtx_accRes (t : Team) (k : Fin 4) (f : Ctx → Ctx) : (t.updCtx k f).accRes = t.accRes := rfl
@[simp] theorem Team.updCtx_mxFree (t : Team) (k : Fin 4) (f : Ctx → Ctx) : (t.updCtx k f).mxFree = t.mxFree := rfl
@[simp] theorem Team.updCtx_gatherFree (t : Team) (k : Fin 4) (f : Ctx → Ctx) : (t.updCtx k f).gatherFree = t.gatherFree := rfl
@[simp] theorem Team.updCtx_gang (t : Team) (k : Fin 4) (f : Ctx → Ctx) : (t.updCtx k f).gang = t.gang := rfl
@[simp] theorem Team.updCtx_mxExc (t : Team) (k : Fin 4) (f : Ctx → Ctx) : (t.updCtx k f).mxExc = t.mxExc := rfl
@[simp] theorem Team.updCtx_mxBlk (t : Team) (k : Fin 4) (f : Ctx → Ctx) : (t.updCtx k f).mxBlk = t.mxBlk := rfl
@[simp] theorem Team.updCtx_opq (t : Team) (k : Fin 4) (f : Ctx → Ctx) : (t.updCtx k f).opq = t.opq := rfl
@[simp] theorem Team.updCtx_cmds (t : Team) (k : Fin 4) (f : Ctx → Ctx) : (t.updCtx k f).cmds = t.cmds := rfl
@[simp] theorem Team.updCtx_seq (t : Team) (k : Fin 4) (f : Ctx → Ctx) : (t.updCtx k f).seq = t.seq := rfl
@[simp] theorem Team.updCtx_stopAt (t : Team) (k : Fin 4) (f : Ctx → Ctx) : (t.updCtx k f).stopAt = t.stopAt := rfl
@[simp] theorem Team.updCtx_undo (t : Team) (k : Fin 4) (f : Ctx → Ctx) : (t.updCtx k f).undo = t.undo := rfl
@[simp] theorem Team.updCtx_fresh (t : Team) (k : Fin 4) (f : Ctx → Ctx) : (t.updCtx k f).fresh = t.fresh := rfl
@[simp] theorem Team.push_ctxs (t : Team) (p : Pend) : (t.push p).ctxs = t.ctxs := rfl
@[simp] theorem Team.push_cur (t : Team) (p : Pend) : (t.push p).cur = t.cur := rfl
@[simp] theorem Team.push_part (t : Team) (p : Pend) : (t.push p).part = t.part := rfl
@[simp] theorem Team.push_spad (t : Team) (p : Pend) : (t.push p).spad = t.spad := rfl
@[simp] theorem Team.push_acc (t : Team) (p : Pend) : (t.push p).acc = t.acc := rfl
@[simp] theorem Team.push_tileMaps (t : Team) (p : Pend) : (t.push p).tileMaps = t.tileMaps := rfl
@[simp] theorem Team.push_tileBusy (t : Team) (p : Pend) : (t.push p).tileBusy = t.tileBusy := rfl
@[simp] theorem Team.push_patA (t : Team) (p : Pend) : (t.push p).patA = t.patA := rfl
@[simp] theorem Team.push_patB (t : Team) (p : Pend) : (t.push p).patB = t.patB := rfl
@[simp] theorem Team.push_patActive (t : Team) (p : Pend) : (t.push p).patActive = t.patActive := rfl
@[simp] theorem Team.push_bars (t : Team) (p : Pend) : (t.push p).bars = t.bars := rfl
@[simp] theorem Team.push_buffer (t : Team) (p : Pend) : (t.push p).buffer = t.buffer := rfl
@[simp] theorem Team.push_replay (t : Team) (p : Pend) : (t.push p).replay = t.replay := rfl
@[simp] theorem Team.push_accRes (t : Team) (p : Pend) : (t.push p).accRes = t.accRes := rfl
@[simp] theorem Team.push_mxFree (t : Team) (p : Pend) : (t.push p).mxFree = t.mxFree := rfl
@[simp] theorem Team.push_gatherFree (t : Team) (p : Pend) : (t.push p).gatherFree = t.gatherFree := rfl
@[simp] theorem Team.push_gang (t : Team) (p : Pend) : (t.push p).gang = t.gang := rfl
@[simp] theorem Team.push_mxExc (t : Team) (p : Pend) : (t.push p).mxExc = t.mxExc := rfl
@[simp] theorem Team.push_mxBlk (t : Team) (p : Pend) : (t.push p).mxBlk = t.mxBlk := rfl
@[simp] theorem Team.push_opq (t : Team) (p : Pend) : (t.push p).opq = t.opq := rfl
@[simp] theorem Team.push_cmds (t : Team) (p : Pend) : (t.push p).cmds = t.cmds := rfl
@[simp] theorem Team.push_seq (t : Team) (p : Pend) : (t.push p).seq = t.seq := rfl
@[simp] theorem Team.push_stopAt (t : Team) (p : Pend) : (t.push p).stopAt = t.stopAt := rfl
@[simp] theorem Team.push_undo (t : Team) (p : Pend) : (t.push p).undo = t.undo := rfl
@[simp] theorem Team.push_fresh (t : Team) (p : Pend) : (t.push p).fresh = t.fresh := rfl
@[simp] theorem Team.spadPut_ctxs (t : Team) (l : List Host.Cell) : (t.spadPut l).ctxs = t.ctxs := rfl
@[simp] theorem Team.spadPut_cur (t : Team) (l : List Host.Cell) : (t.spadPut l).cur = t.cur := rfl
@[simp] theorem Team.spadPut_part (t : Team) (l : List Host.Cell) : (t.spadPut l).part = t.part := rfl
@[simp] theorem Team.spadPut_acc (t : Team) (l : List Host.Cell) : (t.spadPut l).acc = t.acc := rfl
@[simp] theorem Team.spadPut_tileMaps (t : Team) (l : List Host.Cell) : (t.spadPut l).tileMaps = t.tileMaps := rfl
@[simp] theorem Team.spadPut_tileBusy (t : Team) (l : List Host.Cell) : (t.spadPut l).tileBusy = t.tileBusy := rfl
@[simp] theorem Team.spadPut_patA (t : Team) (l : List Host.Cell) : (t.spadPut l).patA = t.patA := rfl
@[simp] theorem Team.spadPut_patB (t : Team) (l : List Host.Cell) : (t.spadPut l).patB = t.patB := rfl
@[simp] theorem Team.spadPut_patActive (t : Team) (l : List Host.Cell) : (t.spadPut l).patActive = t.patActive := rfl
@[simp] theorem Team.spadPut_bars (t : Team) (l : List Host.Cell) : (t.spadPut l).bars = t.bars := rfl
@[simp] theorem Team.spadPut_pend (t : Team) (l : List Host.Cell) : (t.spadPut l).pend = t.pend := rfl
@[simp] theorem Team.spadPut_buffer (t : Team) (l : List Host.Cell) : (t.spadPut l).buffer = t.buffer := rfl
@[simp] theorem Team.spadPut_replay (t : Team) (l : List Host.Cell) : (t.spadPut l).replay = t.replay := rfl
@[simp] theorem Team.spadPut_accRes (t : Team) (l : List Host.Cell) : (t.spadPut l).accRes = t.accRes := rfl
@[simp] theorem Team.spadPut_mxFree (t : Team) (l : List Host.Cell) : (t.spadPut l).mxFree = t.mxFree := rfl
@[simp] theorem Team.spadPut_gatherFree (t : Team) (l : List Host.Cell) : (t.spadPut l).gatherFree = t.gatherFree := rfl
@[simp] theorem Team.spadPut_gang (t : Team) (l : List Host.Cell) : (t.spadPut l).gang = t.gang := rfl
@[simp] theorem Team.spadPut_mxExc (t : Team) (l : List Host.Cell) : (t.spadPut l).mxExc = t.mxExc := rfl
@[simp] theorem Team.spadPut_mxBlk (t : Team) (l : List Host.Cell) : (t.spadPut l).mxBlk = t.mxBlk := rfl
@[simp] theorem Team.spadPut_opq (t : Team) (l : List Host.Cell) : (t.spadPut l).opq = t.opq := rfl
@[simp] theorem Team.spadPut_cmds (t : Team) (l : List Host.Cell) : (t.spadPut l).cmds = t.cmds := rfl
@[simp] theorem Team.spadPut_seq (t : Team) (l : List Host.Cell) : (t.spadPut l).seq = t.seq := rfl
@[simp] theorem Team.spadPut_stopAt (t : Team) (l : List Host.Cell) : (t.spadPut l).stopAt = t.stopAt := rfl
@[simp] theorem Team.spadPut_fresh (t : Team) (l : List Host.Cell) : (t.spadPut l).fresh = t.fresh := rfl
@[simp] theorem Team.setAccRow_ctxs (t : Team) (n : Nat) (x m : VecBits) : (t.setAccRow n x m).ctxs = t.ctxs := rfl
@[simp] theorem Team.setAccRow_cur (t : Team) (n : Nat) (x m : VecBits) : (t.setAccRow n x m).cur = t.cur := rfl
@[simp] theorem Team.setAccRow_part (t : Team) (n : Nat) (x m : VecBits) : (t.setAccRow n x m).part = t.part := rfl
@[simp] theorem Team.setAccRow_spad (t : Team) (n : Nat) (x m : VecBits) : (t.setAccRow n x m).spad = t.spad := rfl
@[simp] theorem Team.setAccRow_tileMaps (t : Team) (n : Nat) (x m : VecBits) : (t.setAccRow n x m).tileMaps = t.tileMaps := rfl
@[simp] theorem Team.setAccRow_tileBusy (t : Team) (n : Nat) (x m : VecBits) : (t.setAccRow n x m).tileBusy = t.tileBusy := rfl
@[simp] theorem Team.setAccRow_patA (t : Team) (n : Nat) (x m : VecBits) : (t.setAccRow n x m).patA = t.patA := rfl
@[simp] theorem Team.setAccRow_patB (t : Team) (n : Nat) (x m : VecBits) : (t.setAccRow n x m).patB = t.patB := rfl
@[simp] theorem Team.setAccRow_patActive (t : Team) (n : Nat) (x m : VecBits) : (t.setAccRow n x m).patActive = t.patActive := rfl
@[simp] theorem Team.setAccRow_bars (t : Team) (n : Nat) (x m : VecBits) : (t.setAccRow n x m).bars = t.bars := rfl
@[simp] theorem Team.setAccRow_pend (t : Team) (n : Nat) (x m : VecBits) : (t.setAccRow n x m).pend = t.pend := rfl
@[simp] theorem Team.setAccRow_buffer (t : Team) (n : Nat) (x m : VecBits) : (t.setAccRow n x m).buffer = t.buffer := rfl
@[simp] theorem Team.setAccRow_replay (t : Team) (n : Nat) (x m : VecBits) : (t.setAccRow n x m).replay = t.replay := rfl
@[simp] theorem Team.setAccRow_accRes (t : Team) (n : Nat) (x m : VecBits) : (t.setAccRow n x m).accRes = t.accRes := rfl
@[simp] theorem Team.setAccRow_mxFree (t : Team) (n : Nat) (x m : VecBits) : (t.setAccRow n x m).mxFree = t.mxFree := rfl
@[simp] theorem Team.setAccRow_gatherFree (t : Team) (n : Nat) (x m : VecBits) : (t.setAccRow n x m).gatherFree = t.gatherFree := rfl
@[simp] theorem Team.setAccRow_gang (t : Team) (n : Nat) (x m : VecBits) : (t.setAccRow n x m).gang = t.gang := rfl
@[simp] theorem Team.setAccRow_mxExc (t : Team) (n : Nat) (x m : VecBits) : (t.setAccRow n x m).mxExc = t.mxExc := rfl
@[simp] theorem Team.setAccRow_mxBlk (t : Team) (n : Nat) (x m : VecBits) : (t.setAccRow n x m).mxBlk = t.mxBlk := rfl
@[simp] theorem Team.setAccRow_opq (t : Team) (n : Nat) (x m : VecBits) : (t.setAccRow n x m).opq = t.opq := rfl
@[simp] theorem Team.setAccRow_cmds (t : Team) (n : Nat) (x m : VecBits) : (t.setAccRow n x m).cmds = t.cmds := rfl
@[simp] theorem Team.setAccRow_seq (t : Team) (n : Nat) (x m : VecBits) : (t.setAccRow n x m).seq = t.seq := rfl
@[simp] theorem Team.setAccRow_stopAt (t : Team) (n : Nat) (x m : VecBits) : (t.setAccRow n x m).stopAt = t.stopAt := rfl
@[simp] theorem Team.setAccRow_undo (t : Team) (n : Nat) (x m : VecBits) : (t.setAccRow n x m).undo = t.undo := rfl
@[simp] theorem Team.setAccRow_fresh (t : Team) (n : Nat) (x m : VecBits) : (t.setAccRow n x m).fresh = t.fresh := rfl
@[simp] theorem Ctx.setA_pc (c : Ctx) (r : BitVec 4) (x : Word) : (c.setA r x).pc = c.pc := rfl
@[simp] theorem Ctx.setA_s (c : Ctx) (r : BitVec 4) (x : Word) : (c.setA r x).s = c.s := rfl
@[simp] theorem Ctx.setA_tokPend (c : Ctx) (r : BitVec 4) (x : Word) : (c.setA r x).tokPend = c.tokPend := rfl
@[simp] theorem Ctx.setA_p (c : Ctx) (r : BitVec 4) (x : Word) : (c.setA r x).p = c.p := rfl
@[simp] theorem Ctx.setA_v (c : Ctx) (r : BitVec 4) (x : Word) : (c.setA r x).v = c.v := rfl
@[simp] theorem Ctx.setA_maps (c : Ctx) (r : BitVec 4) (x : Word) : (c.setA r x).maps = c.maps := rfl
@[simp] theorem Ctx.setA_pins (c : Ctx) (r : BitVec 4) (x : Word) : (c.setA r x).pins = c.pins := rfl
@[simp] theorem Ctx.setA_loop (c : Ctx) (r : BitVec 4) (x : Word) : (c.setA r x).loop = c.loop := rfl
@[simp] theorem Ctx.setA_rep (c : Ctx) (r : BitVec 4) (x : Word) : (c.setA r x).rep = c.rep := rfl
@[simp] theorem Ctx.setA_hnd (c : Ctx) (r : BitVec 4) (x : Word) : (c.setA r x).hnd = c.hnd := rfl
@[simp] theorem Ctx.setA_te (c : Ctx) (r : BitVec 4) (x : Word) : (c.setA r x).te = c.te := rfl
@[simp] theorem Ctx.setA_tcause (c : Ctx) (r : BitVec 4) (x : Word) : (c.setA r x).tcause = c.tcause := rfl
@[simp] theorem Ctx.setA_tpc (c : Ctx) (r : BitVec 4) (x : Word) : (c.setA r x).tpc = c.tpc := rfl
@[simp] theorem Ctx.setA_tval (c : Ctx) (r : BitVec 4) (x : Word) : (c.setA r x).tval = c.tval := rfl
@[simp] theorem Ctx.setA_tmask (c : Ctx) (r : BitVec 4) (x : Word) : (c.setA r x).tmask = c.tmask := rfl
@[simp] theorem Ctx.setA_tvec (c : Ctx) (r : BitVec 4) (x : Word) : (c.setA r x).tvec = c.tvec := rfl
@[simp] theorem Ctx.setA_waitlim (c : Ctx) (r : BitVec 4) (x : Word) : (c.setA r x).waitlim = c.waitlim := rfl
@[simp] theorem Ctx.setA_chken (c : Ctx) (r : BitVec 4) (x : Word) : (c.setA r x).chken = c.chken := rfl
@[simp] theorem Ctx.setA_mapsoft (c : Ctx) (r : BitVec 4) (x : Word) : (c.setA r x).mapsoft = c.mapsoft := rfl
@[simp] theorem Ctx.setA_retired (c : Ctx) (r : BitVec 4) (x : Word) : (c.setA r x).retired = c.retired := rfl
@[simp] theorem Ctx.setA_stopped (c : Ctx) (r : BitVec 4) (x : Word) : (c.setA r x).stopped = c.stopped := rfl
@[simp] theorem Ctx.setA_earliest (c : Ctx) (r : BitVec 4) (x : Word) : (c.setA r x).earliest = c.earliest := rfl
@[simp] theorem Ctx.setA_preread (c : Ctx) (r : BitVec 4) (x : Word) : (c.setA r x).preread = c.preread := rfl
@[simp] theorem Ctx.setA_fences (c : Ctx) (r : BitVec 4) (x : Word) : (c.setA r x).fences = c.fences := rfl
@[simp] theorem Ctx.setA_blockedSince (c : Ctx) (r : BitVec 4) (x : Word) : (c.setA r x).blockedSince = c.blockedSince := rfl
@[simp] theorem Ctx.setA_blockedOn (c : Ctx) (r : BitVec 4) (x : Word) : (c.setA r x).blockedOn = c.blockedOn := rfl
@[simp] theorem Ctx.setA_brkPass (c : Ctx) (r : BitVec 4) (x : Word) : (c.setA r x).brkPass = c.brkPass := rfl
@[simp] theorem Ctx.setA_lineAt (c : Ctx) (r : BitVec 4) (x : Word) : (c.setA r x).lineAt = c.lineAt := rfl
@[simp] theorem Ctx.trap_s (c : Ctx) (n : Nat) (k : Cause) (a : BitVec 56) (v : Word) (m : BitVec 11) : (c.trap n k a v m).s = c.s := rfl
@[simp] theorem Ctx.trap_tokPend (c : Ctx) (n : Nat) (k : Cause) (a : BitVec 56) (v : Word) (m : BitVec 11) : (c.trap n k a v m).tokPend = c.tokPend := rfl
@[simp] theorem Ctx.trap_a (c : Ctx) (n : Nat) (k : Cause) (a : BitVec 56) (v : Word) (m : BitVec 11) : (c.trap n k a v m).a = c.a := rfl
@[simp] theorem Ctx.trap_p (c : Ctx) (n : Nat) (k : Cause) (a : BitVec 56) (v : Word) (m : BitVec 11) : (c.trap n k a v m).p = c.p := rfl
@[simp] theorem Ctx.trap_v (c : Ctx) (n : Nat) (k : Cause) (a : BitVec 56) (v : Word) (m : BitVec 11) : (c.trap n k a v m).v = c.v := rfl
@[simp] theorem Ctx.trap_maps (c : Ctx) (n : Nat) (k : Cause) (a : BitVec 56) (v : Word) (m : BitVec 11) : (c.trap n k a v m).maps = c.maps := rfl
@[simp] theorem Ctx.trap_pins (c : Ctx) (n : Nat) (k : Cause) (a : BitVec 56) (v : Word) (m : BitVec 11) : (c.trap n k a v m).pins = c.pins := rfl
@[simp] theorem Ctx.trap_rep (c : Ctx) (n : Nat) (k : Cause) (a : BitVec 56) (v : Word) (m : BitVec 11) : (c.trap n k a v m).rep = c.rep := rfl
@[simp] theorem Ctx.trap_tvec (c : Ctx) (n : Nat) (k : Cause) (a : BitVec 56) (v : Word) (m : BitVec 11) : (c.trap n k a v m).tvec = c.tvec := rfl
@[simp] theorem Ctx.trap_waitlim (c : Ctx) (n : Nat) (k : Cause) (a : BitVec 56) (v : Word) (m : BitVec 11) : (c.trap n k a v m).waitlim = c.waitlim := rfl
@[simp] theorem Ctx.trap_chken (c : Ctx) (n : Nat) (k : Cause) (a : BitVec 56) (v : Word) (m : BitVec 11) : (c.trap n k a v m).chken = c.chken := rfl
@[simp] theorem Ctx.trap_mapsoft (c : Ctx) (n : Nat) (k : Cause) (a : BitVec 56) (v : Word) (m : BitVec 11) : (c.trap n k a v m).mapsoft = c.mapsoft := rfl
@[simp] theorem Ctx.trap_retired (c : Ctx) (n : Nat) (k : Cause) (a : BitVec 56) (v : Word) (m : BitVec 11) : (c.trap n k a v m).retired = c.retired := rfl
@[simp] theorem Ctx.trap_stopped (c : Ctx) (n : Nat) (k : Cause) (a : BitVec 56) (v : Word) (m : BitVec 11) : (c.trap n k a v m).stopped = c.stopped := rfl
@[simp] theorem Ctx.trap_fences (c : Ctx) (n : Nat) (k : Cause) (a : BitVec 56) (v : Word) (m : BitVec 11) : (c.trap n k a v m).fences = c.fences := rfl
@[simp] theorem Ctx.trap_lineAt (c : Ctx) (n : Nat) (k : Cause) (a : BitVec 56) (v : Word) (m : BitVec 11) : (c.trap n k a v m).lineAt = c.lineAt := rfl
@[simp] theorem Ctx.trapReturn_s (c : Ctx) : (c.trapReturn).s = c.s := rfl
@[simp] theorem Ctx.trapReturn_tokPend (c : Ctx) : (c.trapReturn).tokPend = c.tokPend := rfl
@[simp] theorem Ctx.trapReturn_a (c : Ctx) : (c.trapReturn).a = c.a := rfl
@[simp] theorem Ctx.trapReturn_p (c : Ctx) : (c.trapReturn).p = c.p := rfl
@[simp] theorem Ctx.trapReturn_v (c : Ctx) : (c.trapReturn).v = c.v := rfl
@[simp] theorem Ctx.trapReturn_maps (c : Ctx) : (c.trapReturn).maps = c.maps := rfl
@[simp] theorem Ctx.trapReturn_pins (c : Ctx) : (c.trapReturn).pins = c.pins := rfl
@[simp] theorem Ctx.trapReturn_rep (c : Ctx) : (c.trapReturn).rep = c.rep := rfl
@[simp] theorem Ctx.trapReturn_tcause (c : Ctx) : (c.trapReturn).tcause = c.tcause := rfl
@[simp] theorem Ctx.trapReturn_tpc (c : Ctx) : (c.trapReturn).tpc = c.tpc := rfl
@[simp] theorem Ctx.trapReturn_tval (c : Ctx) : (c.trapReturn).tval = c.tval := rfl
@[simp] theorem Ctx.trapReturn_tmask (c : Ctx) : (c.trapReturn).tmask = c.tmask := rfl
@[simp] theorem Ctx.trapReturn_tvec (c : Ctx) : (c.trapReturn).tvec = c.tvec := rfl
@[simp] theorem Ctx.trapReturn_waitlim (c : Ctx) : (c.trapReturn).waitlim = c.waitlim := rfl
@[simp] theorem Ctx.trapReturn_chken (c : Ctx) : (c.trapReturn).chken = c.chken := rfl
@[simp] theorem Ctx.trapReturn_mapsoft (c : Ctx) : (c.trapReturn).mapsoft = c.mapsoft := rfl
@[simp] theorem Ctx.trapReturn_retired (c : Ctx) : (c.trapReturn).retired = c.retired := rfl
@[simp] theorem Ctx.trapReturn_stopped (c : Ctx) : (c.trapReturn).stopped = c.stopped := rfl
@[simp] theorem Ctx.trapReturn_earliest (c : Ctx) : (c.trapReturn).earliest = c.earliest := rfl
@[simp] theorem Ctx.trapReturn_preread (c : Ctx) : (c.trapReturn).preread = c.preread := rfl
@[simp] theorem Ctx.trapReturn_fences (c : Ctx) : (c.trapReturn).fences = c.fences := rfl
@[simp] theorem Ctx.trapReturn_blockedSince (c : Ctx) : (c.trapReturn).blockedSince = c.blockedSince := rfl
@[simp] theorem Ctx.trapReturn_blockedOn (c : Ctx) : (c.trapReturn).blockedOn = c.blockedOn := rfl
@[simp] theorem Ctx.trapReturn_brkPass (c : Ctx) : (c.trapReturn).brkPass = c.brkPass := rfl
@[simp] theorem Ctx.trapReturn_lineAt (c : Ctx) : (c.trapReturn).lineAt = c.lineAt := rfl

/-! ## What an update leaves at its place and elsewhere -/

theorem get_set_self {α : Type} {n : Nat} (v : Vector α n) (i : Nat) (h : i < n) (x : α) : (v.set i x h).get ⟨i, h⟩ = x := by
  change (v.set i x h)[i] = x
  exact Vector.getElem_set_self h

theorem get_set_ne {α : Type} {n : Nat} (v : Vector α n) (i : Nat) (h : i < n) (j : Fin n) (x : α) (e : j.val ≠ i) :
    (v.set i x h).get j = v.get j := by
  change (v.set i x h)[j.val] = v[j.val]
  exact Vector.getElem_set_ne h j.isLt (Ne.symm e)

@[simp] theorem State.coreAt_updCore (s : State) (c : Fin 208) (f : Core → Core) : (s.updCore c f).coreAt c = f (s.coreAt c) :=
  get_set_self s.cores c.val c.isLt _

theorem State.coreAt_updCore_ne (s : State) {c d : Fin 208} (f : Core → Core) (h : d ≠ c) :
    (s.updCore c f).coreAt d = s.coreAt d :=
  get_set_ne s.cores c.val c.isLt d _ (fun e => h (Fin.ext e))

@[simp] theorem State.coreAt_updTeam (s : State) (c : Fin 208) (f : Team → Team) :
    (s.updTeam c f).coreAt c = { s.coreAt c with team := f (s.coreAt c).team } := State.coreAt_updCore s c _

theorem State.coreAt_updTeam_ne (s : State) {c d : Fin 208} (f : Team → Team) (h : d ≠ c) :
    (s.updTeam c f).coreAt d = s.coreAt d := State.coreAt_updCore_ne s _ h

@[simp] theorem Team.get_updCtx (t : Team) (k : Fin 4) (f : Ctx → Ctx) : (t.updCtx k f).ctxs.get k = f (t.ctxs.get k) :=
  get_set_self t.ctxs k.val k.isLt _

theorem Team.get_updCtx_ne (t : Team) {k j : Fin 4} (f : Ctx → Ctx) (h : j ≠ k) : (t.updCtx k f).ctxs.get j = t.ctxs.get j :=
  get_set_ne t.ctxs k.val k.isLt j _ (fun e => h (Fin.ext e))

theorem State.coreAt_updCtx (s : State) (c : Fin 208) (k : Fin 4) (f : Ctx → Ctx) :
    (s.updCtx c k f).coreAt c = { s.coreAt c with team := (s.coreAt c).team.updCtx k f } := State.coreAt_updCore s c _

theorem State.coreAt_updCtx_ne (s : State) {c d : Fin 208} (k : Fin 4) (f : Ctx → Ctx) (h : d ≠ c) :
    (s.updCtx c k f).coreAt d = s.coreAt d := State.coreAt_updCore_ne s _ h

@[simp] theorem State.ctxAt_updCtx (s : State) (c : Fin 208) (k : Fin 4) (f : Ctx → Ctx) :
    (s.updCtx c k f).ctxAt c k = f (s.ctxAt c k) := by
  unfold State.ctxAt
  rw [State.coreAt_updCtx]
  exact Team.get_updCtx ..

theorem State.ctxAt_updCtx_ne (s : State) (c : Fin 208) {k j : Fin 4} (f : Ctx → Ctx) (h : j ≠ k) :
    (s.updCtx c k f).ctxAt c j = s.ctxAt c j := by
  unfold State.ctxAt
  rw [State.coreAt_updCtx]
  exact Team.get_updCtx_ne _ _ h

@[simp] theorem State.coreAt_updGroup (s : State) (g : Fin 8) (f : Group → Group) (c : Fin 208) :
    (s.updGroup g f).coreAt c = s.coreAt c := rfl

@[simp] theorem State.coreAt_record (s : State) (c d : Fin 208) (kind : BitVec 7) (aux : BitVec 45) (a : BitVec 56) (v : Word)
    (l : List Word) : (s.record c kind aux a v l).coreAt d = s.coreAt d := rfl

@[simp] theorem State.groupAt_updGroup (s : State) (g : Fin 8) (f : Group → Group) :
    (s.updGroup g f).groupAt g = f (s.groupAt g) := get_set_self s.groups g.val g.isLt _

theorem State.groupAt_updGroup_ne (s : State) {g h : Fin 8} (f : Group → Group) (e : h ≠ g) :
    (s.updGroup g f).groupAt h = s.groupAt h :=
  get_set_ne s.groups g.val g.isLt h _ (fun x => e (Fin.ext x))

@[simp] theorem State.groupAt_updCore (s : State) (c : Fin 208) (f : Core → Core) (g : Fin 8) :
    (s.updCore c f).groupAt g = s.groupAt g := rfl

theorem State.ictx_eq (s : State) : s.ictx = s.ctxAt s.issue.core s.issue.ctx := rfl

/-! ## Registers -/

/-- A write of a scalar register reads back, but for s0, which reads as zero (R9). -/
@[simp] theorem Ctx.sReg_setS (c : Ctx) (r : Reg6) (x : Word) : (c.setS r x).sReg r = if r = 0 then 0 else x := by
  unfold Ctx.sReg
  split
  · rfl
  · next h =>
    rw [Ctx.setS, if_neg h]
    exact get_set_self c.s r.toNat r.isLt x

/-- A write of a scalar register leaves the others. -/
theorem Ctx.sReg_setS_ne (c : Ctx) {r q : Reg6} (x : Word) (h : q ≠ r) : (c.setS r x).sReg q = c.sReg q := by
  have h' : q.toNat ≠ r.toNat := fun e => h (BitVec.eq_of_toNat_eq e)
  unfold Ctx.sReg
  split
  · rfl
  · unfold Ctx.setS
    split
    · rfl
    · exact get_set_ne c.s r.toNat r.isLt ⟨q.toNat, q.isLt⟩ x h'

/-- A write of an address register reads back (R11). -/
@[simp] theorem Ctx.aReg_setA (c : Ctx) (r : BitVec 4) (x : Word) : (c.setA r x).aReg r = x :=
  get_set_self c.a r.toNat r.isLt x

theorem Ctx.aReg_setA_ne (c : Ctx) {r q : BitVec 4} (x : Word) (h : q ≠ r) : (c.setA r x).aReg q = c.aReg q :=
  get_set_ne c.a r.toNat r.isLt ⟨q.toNat, q.isLt⟩ x (fun e => h (BitVec.eq_of_toNat_eq e))

theorem get_setAt {α : Type} {n : Nat} (v : Vector α n) (i : Nat) (h : i < n) (f : α → α) :
    (setAt v i f).get ⟨i, h⟩ = f (v.get ⟨i, h⟩) := by
  rw [setAt, dif_pos h]
  exact get_set_self v i h _

theorem get_setAt_ne {α : Type} {n : Nat} (v : Vector α n) (i : Nat) (j : Fin n) (f : α → α) (e : j.val ≠ i) :
    (setAt v i f).get j = v.get j := by
  unfold setAt
  split
  · next h => exact get_set_ne v i h j _ e
  · rfl

/-- A write of a predicate register changes the bits under the mask; p0 reads as all ones (R14). -/
@[simp] theorem Ctx.pReg_setP (c : Ctx) (r : BitVec 4) (x m : PredBits) :
    (c.setP r x m).pReg r = if r = 0 then BitVec.allOnes 512 else merge (c.pReg r) x m := by
  unfold Ctx.pReg
  split
  · rfl
  · next h =>
    rw [Ctx.setP, if_neg h]
    exact get_setAt c.p r.toNat r.isLt _

theorem Ctx.pReg_setP_ne (c : Ctx) {r q : BitVec 4} (x m : PredBits) (h : q ≠ r) : (c.setP r x m).pReg q = c.pReg q := by
  have h' : q.toNat ≠ r.toNat := fun e => h (BitVec.eq_of_toNat_eq e)
  unfold Ctx.pReg
  split
  · rfl
  · unfold Ctx.setP
    split
    · rfl
    · exact get_setAt_ne c.p r.toNat ⟨q.toNat, q.isLt⟩ _ h'

end Sys2Proof.Machine
end

