-- ==== Sys2Proof/Laws/Slot.lean ====
section
/-! SUPPORT. The issue of a bundle, said once: what a slot does when more words follow, what the last slot does, and what a
word that is alone in its bundle gives. -/

namespace Sys2Proof.Machine

@[simp] theorem State.withIssue_issue (s : State) (q : Issue) : (s.withIssue q).issue = q := rfl
@[simp] theorem State.withIssue_withIssue (s : State) (q r : Issue) : (s.withIssue q).withIssue r = s.withIssue r := rfl
theorem State.withIssue_self (s : State) : s.withIssue s.issue = s := rfl
@[simp] theorem State.withIssue_coreAt (s : State) (q : Issue) (c : Fin 208) : (s.withIssue q).coreAt c = s.coreAt c := rfl
theorem State.updCore_withIssue (s : State) (q : Issue) (c : Fin 208) (f : Core → Core) :
    (s.withIssue q).updCore c f = (s.updCore c f).withIssue q := rfl

theorem State.updCore_updCore (s : State) (c : Fin 208) (f g : Core → Core) :
    (s.updCore c f).updCore c g = s.updCore c (fun y => g (f y)) := by
  have h : ((s.cores.set c.val (f (s.cores.get c)) c.isLt).set c.val (g ((s.cores.set c.val (f (s.cores.get c)) c.isLt).get c)) c.isLt)
      = s.cores.set c.val (g (f (s.cores.get c))) c.isLt := by
    rw [get_set_self s.cores c.val c.isLt]
    exact Vector.set_set ..
  exact congrArg (fun v => ({ s with cores := v } : State)) h

/-- While words of the bundle are still to execute, a slot changes the record of the bundle in progress only (R343). -/
theorem State.addSlot_slots (s : State) (i : Instr) (h : Head) (r : SlotRes) : (s.addSlot i h r).slots = s.issue.slots := by
  unfold State.addSlot
  simp only
  split
  · rfl
  · split <;> rfl

theorem State.slot_more (s : State) (i : Instr) (h : Head) (r : SlotRes) (hs : s.issue.slots ≠ []) :
    s.slot i h r = s.withIssue (s.addSlot i h r) := by
  unfold State.slot
  simp only [State.addSlot_slots, if_neg hs]
  rfl

/-- The last slot ends the bundle. -/
theorem State.slot_last (s : State) (i : Instr) (h : Head) (r : SlotRes) (hs : s.issue.slots = []) :
    s.slot i h r = (s.withIssue (s.addSlot i h r)).close := by
  unfold State.slot
  simp only [State.addSlot_slots, if_pos hs]
  rfl

/-- A word that acts and meets no fault adds its effects. -/
theorem State.addSlot_ok {s : State} {i : Instr} {h : Head} {r : SlotRes} (hr : s.unhindered i h r) (hf : r.faults = []) :
    s.addSlot i h r = { s.issue with effects := r.effects.map (fun e => (h.unit, e)) } := by
  obtain ⟨⟨_, h2, _, _⟩, hg, htok, hst⟩ := hr
  have hw : worst (r.faults ++ tokenFaults s.ictx i.refs
      ++ stallFaults s.cycle s.issue.seq s.issue.ctx s.ictx (s.coreAt s.issue.core).team i.refs i.guardP r) = none := by
    rw [hf, htok, show stallFaults s.cycle s.issue.seq s.issue.ctx s.ictx (s.coreAt s.issue.core).team i.refs i.guardP r = [] from hst]
    rfl
  have hb : ¬ (scalarForm i && !s.ictx.guardBit h) = true := by
    cases hsf : scalarForm i with
    | false => simp
    | true => simp [hg hsf]
  unfold State.addSlot
  simp only [if_neg hb, hw, h2, List.nil_append]

/-- The state in which the effects of a bundle are taken: the PC has moved on. -/
def State.begun (s : State) : State :=
  ((s.updCtx s.issue.core s.issue.ctx (fun x => { x with
    pc := s.issue.next, earliest := s.cycle + 1 + s.issue.stall, blockedSince := none, blockedOn := [], preread := none
    brkPass := false })).updCore
    s.issue.core (fun x => { x with
      stallUntil := s.cycle + 1 + s.issue.stall, lastIssue := some (s.cycle, s.issue.ctx, s.issue.baddr) })).updTeam
    s.issue.core (fun t => t.reserveBanks s.ictx s.cycle s.issue.all)

/-- A bundle without a fault, outside a loop and without `TRAP`, takes every effect in order. -/
theorem State.close_plain (s : State) (hf : s.issue.faults = []) (hl : s.ictx.activeLoop = none)
    (ht : swTrapOf s.issue.effects = none) :
    s.close = s.issue.effects.foldl (fun t e => t.effect (dataWrites s.issue.effects) e.1 e.2) s.begun := by
  unfold State.close
  rw [hf]
  simp only [lowestFault]
  unfold State.commit
  simp only [hl, ht]
  rfl

/-- A lone word without a fault of its own: every one of its effects is taken, in order. -/
theorem State.slot_lone {s : State} {i : Instr} {h : Head} {r : SlotRes} (hr : s.unhindered i h r) (hf : r.faults = [])
    (ht : swTrapOf (r.effects.map (fun e => (h.unit, e))) = none) :
    s.slot i h r = (r.effects.map (fun e => (h.unit, e))).foldl
      (fun t e => t.effect (dataWrites (r.effects.map (fun e => (h.unit, e)))) e.1 e.2)
      (s.withIssue { s.issue with effects := r.effects.map (fun e => (h.unit, e)) }).begun := by
  rw [State.slot_last _ _ _ _ hr.1.1, State.addSlot_ok hr hf]
  exact State.close_plain _ hr.1.2.2.1 hr.1.2.2.2 ht

/-- An effect that only puts an act in flight. -/
theorem State.effect_act (s : State) (w : List (UnitCode × Nat)) (u : UnitCode) (lat : Nat) (a : Act) (h : lat ≠ 0) :
    s.effect w u (.act lat a) = s.updTeam s.issue.core (fun t => t.push (s.flight u lat (bundleAct w s.issue.ctx.val u a))) := by
  unfold State.effect
  simp only [if_neg h]
  rfl

/-- Do two records name the same bundle? -/
def Issue.same (q r : Issue) : Prop := q.core = r.core ∧ q.ctx = r.ctx ∧ q.seq = r.seq ∧ q.baddr = r.baddr

/-- The PC has moved on and nothing is in flight yet: an issue without acts. -/
theorem State.begun_eq (s : State) (u : UnitCode) : s.begun = s.issued u [] := by
  unfold State.begun State.updCtx State.updTeam
  rw [State.updCore_updCore, State.updCore_updCore]
  rfl

theorem State.issued_withIssue (s : State) (u : UnitCode) (acts : List (Nat × Act)) (es : List (UnitCode × Effect)) :
    (s.withIssue { s.issue with effects := es }).issued u acts = (s.issued u acts).withIssue { s.issue with effects := es } := rfl

/-- One more act in flight. -/
theorem State.issued_push (s : State) (u : UnitCode) (acts : List (Nat × Act)) (lat : Nat) (a : Act) :
    (s.issued u acts).updTeam s.issue.core (fun t => t.push (s.flight u lat a)) = s.issued u (acts ++ [(lat, a)]) := by
  unfold State.updTeam State.issued
  rw [State.updCore_updCore]
  simp only [List.foldl_append]
  rfl

theorem State.effect_issued (s : State) (w : List (UnitCode × Nat)) (u : UnitCode) (q : Issue) (hq : q.same s.issue)
    (acts : List (Nat × Act)) (lat : Nat) (a : Act) (h : lat ≠ 0) :
    ((s.issued u acts).withIssue q).effect w u (.act lat a)
      = (s.issued u (acts ++ [(lat, bundleAct w s.issue.ctx.val u a)])).withIssue q := by
  obtain ⟨h1, h2, h3, h4⟩ := hq
  rw [State.effect_act _ _ _ _ _ h, ← State.issued_push]
  unfold State.flight State.updTeam
  simp only [State.withIssue_issue, h1, h2, h3, h4]
  rfl

/-- The effects of acts, one after the other. -/
theorem State.foldl_acts (s : State) (w : List (UnitCode × Nat)) (u : UnitCode) (q : Issue) (hq : q.same s.issue)
    (acts done : List (Nat × Act)) (hl : ∀ a ∈ acts, a.1 ≠ 0) :
    (acts.map (fun a => (u, Effect.act a.1 a.2))).foldl (fun t e => t.effect w e.1 e.2) ((s.issued u done).withIssue q)
      = (s.issued u (done ++ acts.map (fun a => (a.1, bundleAct w s.issue.ctx.val u a.2)))).withIssue q := by
  induction acts generalizing done with
  | nil => simp
  | cons a r ih =>
    rw [List.map_cons, List.foldl_cons, State.effect_issued s w u q hq _ _ _ (hl a (List.mem_cons_self ..)),
      ih _ (fun b hb => hl b (List.mem_cons_of_mem _ hb))]
    simp

/-- A lone word's effects: the acts first, which are then in flight, and what follows them. -/
theorem State.slot_acts {s : State} {i : Instr} {h : Head} {r : SlotRes} (hr : s.unhindered i h r) (hf : r.faults = [])
    (acts : List (Nat × Act)) (rest : List Effect) (he : r.effects = acts.map (fun a => .act a.1 a.2) ++ rest)
    (hl : ∀ a ∈ acts, a.1 ≠ 0) (ht : swTrapOf (r.effects.map (fun e => (h.unit, e))) = none) :
    s.slot i h r = (rest.map (fun e => (h.unit, e))).foldl
      (fun t e => t.effect (dataWrites (r.effects.map (fun e => (h.unit, e)))) e.1 e.2)
      ((s.issued h.unit (acts.map (fun a =>
        (a.1, bundleAct (dataWrites (r.effects.map (fun e => (h.unit, e)))) s.issue.ctx.val h.unit a.2)))).withIssue
        { s.issue with effects := r.effects.map (fun e => (h.unit, e)) }) := by
  have e : r.effects.map (fun e => (h.unit, e))
      = acts.map (fun a => (h.unit, Effect.act a.1 a.2)) ++ rest.map (fun e => (h.unit, e)) := by
    rw [he, List.map_append, List.map_map]; rfl
  rw [State.slot_lone hr hf ht, State.begun_eq _ h.unit, State.issued_withIssue]
  generalize dataWrites (r.effects.map (fun e => (h.unit, e))) = w
  conv => lhs; rw [e]
  rw [List.foldl_append]
  have := State.foldl_acts s w h.unit { s.issue with effects := r.effects.map (fun e => (h.unit, e)) } ⟨rfl, rfl, rfl, rfl⟩ acts [] hl
  rw [List.nil_append] at this
  rw [← e, this]

theorem swTrapOf_acts (u : UnitCode) (acts : List (Nat × Act)) :
    swTrapOf (acts.map (fun a => (u, Effect.act a.1 a.2))) = none := by
  unfold swTrapOf
  induction acts with
  | nil => rfl
  | cons a r ih => exact ih

/-- An act that installs no map is no business of the bundle's other writes. -/
def Act.mapless : Act → Bool
  | .setV _ _ _ (some _) _ _ => false
  | .reads j => j.map.isNone
  | _ => true

theorem bundleAct_mapless (w : List (UnitCode × Nat)) (k : Nat) (u : UnitCode) {a : Act} (h : a.mapless = true) :
    bundleAct w k u a = a := by
  cases a with
  | setV r x mask map data own =>
    cases map with
    | none => rfl
    | some m => simp [Act.mapless] at h
  | reads j =>
    obtain ⟨_, _, _, _, _, map, _, _, _, _⟩ := j
    cases map with
    | none => rfl
    | some m => simp [Act.mapless] at h
  | _ => rfl

/-- A lone word whose only effects are acts that install no map. -/
theorem State.gives_acts {s : State} {i : Instr} {h : Head} {r : SlotRes} (hx : exec i s = .next (s.slot i h r))
    (hr : s.unhindered i h r) (hf : r.faults = []) (acts : List (Nat × Act)) (he : r.effects = acts.map (fun a => .act a.1 a.2))
    (hl : ∀ a ∈ acts, a.1 ≠ 0 ∧ a.2.mapless = true) : s.gives i (s.issued h.unit acts) := by
  have ht : swTrapOf (r.effects.map (fun e => (h.unit, e))) = none := by
    rw [he, List.map_map]; exact swTrapOf_acts ..
  refine ⟨{ s.issue with effects := r.effects.map (fun e => (h.unit, e)) }, hr.1.1, ?_⟩
  rw [hx, State.slot_acts hr hf acts [] (by rw [he, List.append_nil]) (fun a ha => (hl a ha).1) ht]
  simp only [List.map_nil, List.foldl_nil]
  congr 3
  conv => rhs; rw [← List.map_id acts]
  apply List.map_congr_left
  intro a ha
  simp only [bundleAct_mapless _ _ _ (hl a ha).2, id]

/-! ## Words that install maps -/

theorem dataWrites_acts (u : UnitCode) (acts : List (Nat × Act)) :
    dataWrites (acts.map (fun a => (u, Effect.act a.1 a.2))) = (acts.filterMap (fun a => a.2.writesV)).map (fun r => (u, r)) := by
  unfold dataWrites
  induction acts with
  | nil => rfl
  | cons a r ih =>
    simp only [List.map_cons, List.filterMap_cons, ih]
    obtain ⟨lat, a⟩ := a
    cases a with
    | setV r x mask map data own => cases data <;> rfl
    | reads j => rfl
    | _ => rfl

theorem bundleMap_own (u : UnitCode) (k : Fin 4) (ds : List Nat) (own : Option Nat) (m : MapBits) :
    bundleMap (ds.map (fun r => (u, r))) k.val u own m = keptMap k ds own m := by
  unfold bundleMap keptMap
  simp only [List.any_map, Function.comp_def, BEq.rfl, Bool.true_and]
  rfl

theorem bundleAct_own (u : UnitCode) (k : Fin 4) (ds : List Nat) (a : Act) :
    bundleAct (ds.map (fun r => (u, r))) k.val u a = a.kept k ds := by
  cases a with
  | setV r x mask map data own => simp only [bundleAct, Act.kept, funext (bundleMap_own u k ds own)]
  | reads j => simp only [bundleAct, Act.kept, funext (bundleMap_own u k ds j.own)]
  | _ => rfl

/-- Effects that write no vector register. -/
def Effect.isPlain : Effect → Bool
  | .act _ _ => false
  | .swTrap _ => false
  | _ => true

theorem dataWrites_append_plain (u : UnitCode) (l : List (UnitCode × Effect)) (rest : List Effect) (h : ∀ e ∈ rest, e.isPlain = true) :
    dataWrites (l ++ rest.map (fun e => (u, e))) = dataWrites l := by
  unfold dataWrites
  rw [List.filterMap_append, List.filterMap_map]
  refine (congrArg (_ ++ ·) ?_).trans (List.append_nil _)
  rw [List.filterMap_eq_nil_iff]
  intro e he
  have := h e he
  cases e <;> first | rfl | simp [Effect.isPlain] at this

theorem swTrapOf_append_plain (u : UnitCode) (acts : List (Nat × Act)) (rest : List Effect) (h : ∀ e ∈ rest, e.isPlain = true) :
    swTrapOf (acts.map (fun a => (u, Effect.act a.1 a.2)) ++ rest.map (fun e => (u, e))) = none := by
  unfold swTrapOf
  rw [List.findSome?_append]
  have h1 := swTrapOf_acts u acts
  unfold swTrapOf at h1
  rw [h1]
  induction rest with
  | nil => rfl
  | cons e r ih =>
    have he := h e (List.mem_cons_self ..)
    have hr := ih (fun x hx => h x (List.mem_cons_of_mem _ hx))
    cases e <;> first | exact hr | simp [Effect.isPlain] at he

/-- A lone word: its acts are in flight, with their maps as they are installed, and what else it does follows. -/
theorem State.slot_installs {s : State} {i : Instr} {h : Head} {r : SlotRes} (hr : s.unhindered i h r) (hf : r.faults = [])
    (acts : List (Nat × Act)) (rest : List Effect) (he : r.effects = acts.map (fun a => .act a.1 a.2) ++ rest)
    (hl : ∀ a ∈ acts, a.1 ≠ 0) (hp : ∀ e ∈ rest, e.isPlain = true) :
    s.slot i h r = (rest.map (fun e => (h.unit, e))).foldl
      (fun t e => t.effect ((acts.filterMap (fun a => a.2.writesV)).map (fun r => (h.unit, r))) e.1 e.2)
      ((s.installs h.unit acts).withIssue { s.issue with effects := r.effects.map (fun e => (h.unit, e)) }) := by
  have e : r.effects.map (fun e => (h.unit, e))
      = acts.map (fun a => (h.unit, Effect.act a.1 a.2)) ++ rest.map (fun e => (h.unit, e)) := by
    rw [he, List.map_append, List.map_map]; rfl
  have ht : swTrapOf (r.effects.map (fun e => (h.unit, e))) = none := by
    rw [e]; exact swTrapOf_append_plain _ _ _ hp
  have hd : dataWrites (r.effects.map (fun e => (h.unit, e))) = (acts.filterMap (fun a => a.2.writesV)).map (fun r => (h.unit, r)) := by
    rw [e, dataWrites_append_plain _ _ _ hp, dataWrites_acts]
  rw [State.slot_acts hr hf acts rest he hl ht, hd]
  simp only [bundleAct_own]
  rfl

/-- A lone word with acts only. -/
theorem State.gives_installs {s : State} {i : Instr} {h : Head} {r : SlotRes} (hx : exec i s = .next (s.slot i h r))
    (hr : s.unhindered i h r) (hf : r.faults = []) (acts : List (Nat × Act)) (he : r.effects = acts.map (fun a => .act a.1 a.2))
    (hl : ∀ a ∈ acts, a.1 ≠ 0) : s.gives i (s.installs h.unit acts) := by
  refine ⟨{ s.issue with effects := r.effects.map (fun e => (h.unit, e)) }, hr.1.1, ?_⟩
  rw [hx, State.slot_installs hr hf acts [] (by rw [he, List.append_nil]) hl (by intro e he; simp at he)]
  rfl

/-- A lone word with acts, and one more thing that it does to the state. -/
theorem State.gives_then {s : State} {i : Instr} {h : Head} {r : SlotRes} (hx : exec i s = .next (s.slot i h r))
    (hr : s.unhindered i h r) (hf : r.faults = []) (acts : List (Nat × Act)) (rest : List Effect)
    (he : r.effects = acts.map (fun a => .act a.1 a.2) ++ rest) (hl : ∀ a ∈ acts, a.1 ≠ 0) (hp : ∀ e ∈ rest, e.isPlain = true)
    (t : State) (ht : ∀ w q, q.same s.issue → (rest.map (fun e => (h.unit, e))).foldl (fun t e => t.effect w e.1 e.2)
      ((s.installs h.unit acts).withIssue q) = t.withIssue q) : s.gives i t := by
  refine ⟨{ s.issue with effects := r.effects.map (fun e => (h.unit, e)) }, hr.1.1, ?_⟩
  rw [hx, State.slot_installs hr hf acts rest he hl hp]
  exact congrArg Host.Outcome.next (ht _ { s.issue with effects := r.effects.map (fun e => (h.unit, e)) } ⟨rfl, rfl, rfl, rfl⟩)

end Sys2Proof.Machine
end

