-- ==== Sys2Proof/Laws/Vector.lean ====
section
/-! SUPPORT. Elements of vector and predicate registers, exceptions of a word, and the words that write vector
registers. -/

namespace Sys2Proof.Machine

/-! ## Elements -/

theorem packBits_elem (w : Nat) (l : List Nat) (i : Nat) (h : i < l.length) :
    (packBits w l >>> (w * i)) % 2 ^ w = l[i] % 2 ^ w := by
  induction l generalizing i with
  | nil => simp at h
  | cons e r ih =>
    have hc : packBits w (e :: r) = packBits w r <<< w ||| e % 2 ^ w := rfl
    have he : e % 2 ^ w < 2 ^ w := Nat.mod_lt _ (Nat.two_pow_pos w)
    rw [hc, ← Nat.shiftLeft_add_eq_or_of_lt he, Nat.shiftLeft_eq]
    cases i with
    | zero => simp [Nat.add_mod]
    | succ i =>
      have : (packBits w r * 2 ^ w + e % 2 ^ w) >>> (w * (i + 1)) = packBits w r >>> (w * i) := by
        rw [Nat.mul_succ, Nat.add_comm (w * i), Nat.shiftRight_add, Nat.shiftRight_eq_div_pow _ w, Nat.mul_comm (packBits w r),
          Nat.mul_add_div (Nat.two_pow_pos w), Nat.div_eq_of_lt he, Nat.add_zero]
      rw [this, ih i (by simpa using h)]
      rfl

theorem elem_ofNat (n w i : Nat) (h : w * (i + 1) ≤ 4096) : elem (BitVec.ofNat 4096 n) i w = (n >>> (w * i)) % 2 ^ w := by
  unfold elem
  rw [BitVec.toNat_ofNat]
  apply Nat.eq_of_testBit_eq
  intro k
  simp only [Nat.testBit_mod_two_pow, Nat.testBit_shiftRight]
  by_cases hk : k < w
  · have : w * i + k < 4096 := by rw [Nat.mul_succ] at h; omega
    simp [hk, this]
  · simp [hk]

theorem elemCount_le (w i : Nat) (h : i < elemCount w) : w * (i + 1) ≤ 4096 := by
  unfold elemCount at h
  rcases Nat.eq_zero_or_pos w with rfl | hw
  · simp
  · calc w * (i + 1) ≤ w * (4096 / w) := Nat.mul_le_mul_left _ h
      _ ≤ 4096 := Nat.mul_div_le ..

/-- Element i of a register that is written as a list of patterns. -/
theorem elem_packBits (w : Nat) (l : List Nat) (i : Nat) (h : i < elemCount w) (hl : i < l.length) :
    elem (BitVec.ofNat 4096 (packBits w l)) i w = l[i] % 2 ^ w := by
  rw [elem_ofNat _ _ _ (elemCount_le w i h), packBits_elem w l i hl]

/-- Element i of a register that is written from its elements. -/
theorem elem_vecOf (w : Nat) (f : Nat → Nat) (i : Nat) (h : i < elemCount w) : elem (vecOf w f) i w = f i % 2 ^ w := by
  unfold vecOf
  rw [elem_packBits w _ i h (by simpa using h)]
  simp

/-- Bit j of a predicate that is written from its elements. -/
theorem predOf_getLsbD (b : Nat) (f : Nat → Bool) (hb : b = 8 ∨ b = 16 ∨ b = 32) (j : Nat) (h : j < 512) :
    (predOf b f).getLsbD j = f (j / (b / 8)) := by
  have hw : 0 < b / 8 := by omega
  have hj : j / (b / 8) < elemCount b := by unfold elemCount; rcases hb with rfl | rfl | rfl <;> omega
  have hm : j = b / 8 * (j / (b / 8)) + j % (b / 8) := (Nat.div_add_mod ..).symm
  have e := packBits_elem (b / 8) ((List.range (elemCount b)).map (fun i => if f i then 2 ^ (b / 8) - 1 else 0)) (j / (b / 8)) (by simpa using hj)
  have e2 := congrArg (fun x => x.testBit (j % (b / 8))) e
  simp only [Nat.testBit_mod_two_pow, Nat.testBit_shiftRight, ← hm, Nat.mod_lt _ hw, List.getElem_map, List.getElem_range] at e2
  unfold predOf
  rw [BitVec.getLsbD_ofNat]
  simp only [h, decide_true, Bool.true_and] at e2 ⊢
  rw [e2]
  cases f (j / (b / 8)) <;> simp [Nat.mod_lt _ hw]

/-! ## Exceptions of a word -/

theorem Act.kept_mapless (k : Fin 4) (ds : List Nat) (a : Act) (h : a.mapless = true) : a.kept k ds = a := by
  cases a with
  | setV r x mask map data own =>
    cases map with
    | none => rfl
    | some m => simp [Act.mapless] at h
  | reads j =>
    obtain ⟨_, _, _, _, _, map, _, _, _, _⟩ := j
    cases map with
    | none => rfl
    | some m => simp [Act.mapless] at h
  | _ => rfl

/-- Acts that install no map are in flight as they are. -/
theorem State.installs_mapless (s : State) (u : UnitCode) (acts : List (Nat × Act)) (h : ∀ a ∈ acts, a.2.mapless = true) :
    s.installs u acts = s.issued u acts := by
  unfold State.installs
  congr 1
  conv => rhs; rw [← List.map_id acts]
  apply List.map_congr_left
  intro a ha
  simp only [Act.kept_mapless _ _ _ (h a ha), id]

/-- The exceptions of a word as its effect records them. -/
theorem State.effect_excFx (s : State) (u : UnitCode) (es : List Exc) (t : State) (w : List (UnitCode × Nat)) (q : Issue)
    (hq : q.same s.issue) (ht : t.issue = s.issue) :
    ((s.excFx u es).map (fun e => (u, e))).foldl (fun t e => t.effect w e.1 e.2) (t.withIssue q) = (t.raises u es).withIssue q := by
  unfold State.excFx State.raises State.recordExc
  dsimp only
  split
  · simp only [List.map_cons, List.map_nil, List.foldl_cons, List.foldl_nil, State.effect, State.withIssue_issue]
    obtain ⟨h1, h2, h3, h4⟩ := hq
    rw [h1, h4, ht]; rfl
  · rfl

theorem State.excFx_plain (s : State) (u : UnitCode) (es : List Exc) : ∀ e ∈ s.excFx u es, e.isPlain = true := by
  unfold State.excFx; dsimp only; split <;> simp [Effect.isPlain]

/-- A lone word with acts and exceptions. -/
theorem State.gives_raises {s : State} {i : Instr} {h : Head} {r : SlotRes} (hx : exec i s = .next (s.slot i h r))
    (hr : s.unhindered i h r) (hf : r.faults = []) (acts : List (Nat × Act)) (es : List Exc)
    (he : r.effects = acts.map (fun a => .act a.1 a.2) ++ s.excFx h.unit es) (hl : ∀ a ∈ acts, a.1 ≠ 0) :
    s.gives i ((s.installs h.unit acts).raises h.unit es) :=
  State.gives_then hx hr hf acts (s.excFx h.unit es) he hl (s.excFx_plain h.unit es) _
    (fun w q hq => State.effect_excFx s h.unit es (s.installs h.unit acts) w q hq rfl)

/-- The exceptions of the active elements of a list of results. -/
theorem activeExc_eq (g : PredBits) (b n : Nat) (f : Nat → Nat × Exc) :
    (((((List.range n).map f).zip (List.range n)).filter (fun p => active g b p.2)).map (fun p => p.1.2))
      = ((List.range n).filter (active g b)).map (fun j => (f j).2) := by
  have : ((List.range n).map f).zip (List.range n) = (List.range n).map (fun j => (f j, j)) := by
    rw [← List.map_prod_right_eq_zip]
  rw [this, List.filter_map, List.map_map]
  rfl

/-! ## Words that write one vector register -/

/-- A word whose one effect writes a register from its elements. -/
theorem State.writesVec_of {s : State} {i : Instr} {w : RWord} {chk r : SlotRes} {lat b : Nat} {map : Option MapBits} {f : Nat → Int}
    (g : Nat → Nat) (hx : exec i s = .next (s.slot i w.hd r)) (he : r.effects = [s.vecAct w lat b w.dst.toNat map (vecOf b g)])
    (hl : lat ≠ 0) (hf : r.faults = chk.faults) (hu : s.unhindered i w.hd chk → s.unhindered i w.hd r)
    (hg : ∀ j < elemCount b, (g j : Int) % (2 ^ b : Nat) = f j % (2 ^ b : Nat)) : s.writesVec i w chk lat b map f := by
  intro h1 h2
  refine ⟨vecOf b g, fun j hj => ?_, ?_⟩
  · rw [elem_vecOf _ _ _ hj, ← hg j hj]; norm_cast
  · exact State.gives_installs hx (hu h2) (hf.trans h1) [(lat, _)] he (by simpa using hl)

/-- The same for elements that are exact integers, taken modulo 2^b. -/
theorem State.writesVec_int {s : State} {i : Instr} {w : RWord} {chk r : SlotRes} {lat b : Nat} {map : Option MapBits}
    {f : Nat → Int} (g : Nat → Int) (hx : exec i s = .next (s.slot i w.hd r))
    (he : r.effects = [s.vecAct w lat b w.dst.toNat map (vecOf b (fun j => (g j % (2 ^ b : Nat)).toNat))])
    (hl : lat ≠ 0) (hf : r.faults = chk.faults) (hu : s.unhindered i w.hd chk → s.unhindered i w.hd r)
    (hg : ∀ j < elemCount b, g j = f j) : s.writesVec i w chk lat b map f :=
  State.writesVec_of _ hx he hl hf hu (fun j hj => by
    have hp : (0 : Int) < (2 ^ b : Nat) := by exact_mod_cast Nat.two_pow_pos b
    rw [Int.toNat_of_nonneg (Int.emod_nonneg _ (by omega)), hg j hj, Int.emod_emod_of_dvd _ (dvd_refl _)])

/-- A word whose effects write one register from a list of results, with their exceptions. -/
theorem State.writesFloat_of {s : State} {i : Instr} {w : RWord} {chk r : SlotRes} {lat b n : Nat} {g : PredBits}
    {map : Option MapBits} {f : Nat → Nat × Exc} (x : VecBits) (es : List Exc) (hx : exec i s = .next (s.slot i w.hd r))
    (he : r.effects = .act lat (.setV w.dst.toNat x (guardMask g b) map true none) :: s.excFx w.hd.unit es)
    (hl : lat ≠ 0) (hf : r.faults = chk.faults) (hu : s.unhindered i w.hd chk → s.unhindered i w.hd r)
    (hg : ∀ j < elemCount b, elem x j b = (f j).1 % 2 ^ b) (hes : es = ((List.range n).filter (active g b)).map (fun j => (f j).2)) :
    s.writesFloat i w chk lat b n g map f := by
  intro h1 h2
  refine ⟨x, hg, ?_⟩
  rw [← hes]
  exact State.gives_raises hx (hu h2) (hf.trans h1) [(lat, _)] es he (by simpa using hl)

end Sys2Proof.Machine
end

