-- ==== Sys2Proof/Laws/Command.lean ====
section
/-! SUPPORT. A command that enters its queue, and words that do one more thing when they issue. -/

namespace Sys2Proof.Machine

/-- Where the record of the bundle stands does not matter to a command that enters its queue. -/
theorem State.addCmd_withIssue (s : State) (q : Issue) (hq : q.same s.issue) (c : Fin 208) (k : Fin 4) (x : Cmd) :
    (s.withIssue q).addCmd c k x = (s.addCmd c k x).withIssue q := by
  obtain ⟨_, _, h3, h4⟩ := hq
  unfold State.addCmd State.takeDelay
  simp only [State.withIssue_issue, h3, h4]
  by_cases h : x.tok = 0
  · rw [if_pos h, if_pos h]; rfl
  · rw [if_neg h, if_neg h]; rfl

theorem State.addCmd_nextId (s : State) (c : Fin 208) (k : Fin 4) (x : Cmd) : (s.addCmd c k x).nextId = s.nextId + 1 := by
  unfold State.addCmd
  by_cases h : x.tok = 0
  · simp only [h, if_true]; rfl
  · simp only [h, if_false]; rfl

/-- A lone word with acts that install no map, and what else it does. -/
theorem State.gives_one {s : State} {i : Instr} {h : Head} {r : SlotRes} {t : State} (acts : List (Nat × Act)) (e : List Effect)
    (hx : exec i s = .next (s.slot i h r)) (hr : s.unhindered i h r) (hf : r.faults = [])
    (he : r.effects = acts.map (fun a => .act a.1 a.2) ++ e) (hl : ∀ a ∈ acts, a.1 ≠ 0 ∧ a.2.mapless) (hp : ∀ x ∈ e, x.isPlain)
    (ht : ∀ w q, q.same s.issue → (e.map (fun e => (h.unit, e))).foldl (fun t e => t.effect w e.1 e.2)
      ((s.issued h.unit acts).withIssue q) = t.withIssue q) : s.gives i t := by
  refine State.gives_then hx hr hf acts e he (fun a ha => (hl a ha).1) hp t (fun w q hq => ?_)
  rw [State.installs_mapless _ _ _ (fun a ha => (hl a ha).2)]
  exact ht w q hq

/-- The effect of an EN word's command. -/
theorem State.effect_command (s : State) (w : List (UnitCode × Nat)) (u : UnitCode) (q : Issue) (hq : q.same s.issue) (x : Cmd)
    (h : x.q ≠ 8) : (s.withIssue q).effect w u (.command x) = (s.addCmd s.issue.core s.issue.ctx x).withIssue q := by
  unfold State.effect
  simp only [State.withIssue_issue, hq.1, hq.2.1, if_neg h]
  exact State.addCmd_withIssue s q hq ..

/-- The effect of a command without a queue: it starts in the same cycle. -/
theorem State.effect_begin (s : State) (w : List (UnitCode × Nat)) (u : UnitCode) (q : Issue) (hq : q.same s.issue) (x : Cmd)
    (h : x.q = 8) : (s.withIssue q).effect w u (.command x)
      = ((s.addCmd s.issue.core s.issue.ctx x).now (event .engineStart (.cmd { core := s.issue.core, id := s.nextId }))).withIssue q := by
  unfold State.effect
  simp only [State.withIssue_issue, hq.1, hq.2.1, if_pos h, State.addCmd_withIssue s q hq]
  have e := State.addCmd_nextId s s.issue.core s.issue.ctx x
  show State.now _ _ = _
  have e2 : ((s.addCmd s.issue.core s.issue.ctx x).withIssue q).nextId - 1 = s.nextId := by
    show (s.addCmd s.issue.core s.issue.ctx x).nextId - 1 = _
    omega
  rw [e2]
  rfl

end Sys2Proof.Machine
end

