-- ==== Sys2Proof/Laws/Encode.lean ====
section
/-! SUPPORT. The fields of an encoded word are the fields it was encoded from, for every format of R43, for the head of an
op word and its IMM word (R35), for a microword (R319) and for a packet header (R361). -/

namespace Sys2Proof

theorem extract_append_high {n m : Nat} (x : BitVec n) (y : BitVec m) (a k : Nat) (h : m ≤ a) :
    (x ++ y).extractLsb' a k = x.extractLsb' (a - m) k := by
  ext i hi
  rw [BitVec.getElem_extractLsb', BitVec.getLsbD_append, BitVec.getElem_extractLsb', if_neg (by omega)]
  congr 1; omega

theorem extract_append_low {n m : Nat} (x : BitVec n) (y : BitVec m) (a k : Nat) (h : a + k ≤ m) :
    (x ++ y).extractLsb' a k = y.extractLsb' a k := by
  ext i hi
  rw [BitVec.getElem_extractLsb', BitVec.getLsbD_append, BitVec.getElem_extractLsb', if_pos (by omega)]

theorem extract_all {m : Nat} (y : BitVec m) : y.extractLsb' 0 m = y := by
  ext i hi
  simp

theorem bit_append_high {n m : Nat} (x : BitVec n) (y : BitVec m) (a : Nat) (h : m ≤ a) :
    (x ++ y).getLsbD a = x.getLsbD (a - m) := by
  rw [BitVec.getLsbD_append, if_neg (by omega)]

theorem bit_append_low {n m : Nat} (x : BitVec n) (y : BitVec m) (a : Nat) (h : a < m) : (x ++ y).getLsbD a = y.getLsbD a := by
  rw [BitVec.getLsbD_append, if_pos h]

theorem bit_ofBool (b : Bool) : (BitVec.ofBool b).getLsbD 0 = b := by cases b <;> rfl

/-! ## Formats -/

theorem RWord.ofBits_toBits (w : RWord) : RWord.ofBits w.hd w.toBits = w := by
  unfold RWord.ofBits RWord.toBits
  simp (disch := omega) only [extract_append_high, extract_append_low, Nat.reduceSub, extract_all]

theorem IWord.ofBits_toBits (w : IWord) : IWord.ofBits w.hd w.toBits = w := by
  unfold IWord.ofBits IWord.toBits
  simp (disch := omega) only [extract_append_high, extract_append_low, Nat.reduceSub, extract_all]

theorem LWord.ofBits_toBits (w : LWord) : LWord.ofBits w.hd w.toBits = w := by
  unfold LWord.ofBits LWord.toBits
  simp (disch := omega) only [extract_append_high, extract_append_low, Nat.reduceSub, extract_all]

theorem MWord.ofBits_toBits (w : MWord) : MWord.ofBits w.hd w.toBits = w := by
  unfold MWord.ofBits MWord.toBits
  simp (disch := omega) only [extract_append_high, extract_append_low, Nat.reduceSub, extract_all]

theorem XWord.ofBits_toBits (w : XWord) : XWord.ofBits w.hd w.toBits = w := by
  unfold XWord.ofBits XWord.toBits
  simp (disch := omega) only [extract_append_high, extract_append_low, Nat.reduceSub, extract_all]

theorem EWord.ofBits_toBits (w : EWord) : EWord.ofBits w.hd w.toBits = w := by
  unfold EWord.ofBits EWord.toBits
  simp (disch := omega) only [extract_append_high, extract_append_low, Nat.reduceSub, extract_all]

theorem YTWord.ofBits_toBits (w : YTWord) : YTWord.ofBits w.hd w.toBits = w := by
  unfold YTWord.ofBits YTWord.toBits
  simp (disch := omega) only [extract_append_high, extract_append_low, Nat.reduceSub, extract_all]

theorem YCWord.ofBits_toBits (w : YCWord) : YCWord.ofBits w.hd w.toBits = w := by
  unfold YCWord.ofBits YCWord.toBits
  simp (disch := omega) only [extract_append_high, extract_append_low, Nat.reduceSub, extract_all, bit_append_high, bit_append_low, bit_ofBool]

theorem YSWord.ofBits_toBits (w : YSWord) : YSWord.ofBits w.hd w.toBits = w := by
  unfold YSWord.ofBits YSWord.toBits
  simp (disch := omega) only [extract_append_high, extract_append_low, Nat.reduceSub, extract_all]

/-! ## The head and the IMM word -/

theorem immWordOf_encode (i : ImmWord) : immWordOf i.encode = i := by
  unfold immWordOf ImmWord.encode
  simp (disch := omega) only [extract_append_high, extract_append_low, bit_append_high, Nat.reduceSub, extract_all, bit_ofBool]

theorem isImmWord_encode (i : ImmWord) : isImmWord i.encode = true := by
  unfold isImmWord ImmWord.encode
  simp (disch := omega) only [extract_append_high, extract_append_low, Nat.reduceSub, extract_all]
  rfl

theorem UnitCode.ofCode_code (u : UnitCode) : UnitCode.ofCode u.code = some u := by cases u <;> rfl

theorem Head.encode_unit (h : Head) (opc : BitVec 8) (p : BitVec 43) : (h.encode opc p).extractLsb' 59 4 = h.unit.code := by
  unfold Head.encode
  simp (disch := omega) only [extract_append_high, extract_append_low, Nat.reduceSub, extract_all]

theorem Head.encode_opc (h : Head) (opc : BitVec 8) (p : BitVec 43) : (h.encode opc p).extractLsb' 48 8 = opc := by
  unfold Head.encode
  simp (disch := omega) only [extract_append_high, extract_append_low, Nat.reduceSub, extract_all]

theorem Head.encode_payload (h : Head) (opc : BitVec 8) (p : BitVec 43) : (h.encode opc p).extractLsb' 0 43 = p := by
  unfold Head.encode
  simp (disch := omega) only [extract_append_low, extract_all]

theorem headOf_encode (h : Head) (opc : BitVec 8) (p : BitVec 43) (imm : Option Word) (hi : imm.map immWordOf = h.imm) :
    headOf h.unit (h.encode opc p) imm = h := by
  unfold headOf Head.encode
  rw [hi]
  simp (disch := omega) only [extract_append_high, extract_append_low, bit_append_high, bit_append_low, Nat.reduceSub, extract_all, bit_ofBool]

/-- An encoded op word with its IMM word reads as what its unit reads from its opcode and payload. -/
theorem readWord_encode (h : Head) (opc : BitVec 8) (p : BitVec 43) (imm : Option Word) (hi : imm.map immWordOf = h.imm) :
    readWord (h.encode opc p) imm = readOp h opc p := by
  unfold readWord
  rw [Head.encode_unit, UnitCode.ofCode_code]
  simp only [headOf_encode h opc p imm hi, Head.encode_opc, Head.encode_payload]

/-- A well-formed instruction that its unit reads from its own opcode and payload decodes from its encoding. -/
theorem decode_encode_of {i : Instr} {h : Head} {opc : BitVec 8} {p : BitVec 43} (hh : i.head = some h)
    (ho : i.opBits = some (opc, p)) (hr : readOp h opc p = .instr i) (hw : i.wellFormed = true) :
    (encode i).bind decodeWords = some i := by
  unfold encode
  rw [hh, ho]
  simp only [Option.bind_some]
  cases him : h.imm with
  | none =>
    simp only [decodeWords]
    unfold decodeWord
    rw [readWord_encode h opc p none (by rw [him]; rfl), hr]
    simp only [hw, if_true]
  | some im =>
    simp only [decodeWords, isImmWord_encode, if_true]
    unfold decodeWord
    rw [readWord_encode h opc p (some im.encode) (by rw [him, Option.map_some, immWordOf_encode]), hr]
    simp only [hw, if_true]

/-! ## Microwords and packets -/

theorem MicroWord.ofBits_toBits (m : BitVec 4) (w : MicroWord) : MicroWord.ofBits (w.toBits m) = w := by
  unfold MicroWord.ofBits MicroWord.toBits
  simp (disch := omega) only [extract_append_high, extract_append_low, Nat.reduceSub, extract_all]

theorem MicroWord.toBits_mop (m : BitVec 4) (w : MicroWord) : (w.toBits m).extractLsb' 92 4 = m := by
  unfold MicroWord.toBits
  simp (disch := omega) only [extract_append_high, Nat.reduceSub, extract_all]

/-- A micro-operation with the fields its row allows decodes from its encoding. -/
theorem decodeMicro_encode {i : Instr} {m : BitVec 4} (hm : i.mop = some m) (hc : microOfCode m.toNat = some i) (w : MicroWord)
    (hw : i.microOk w = true) : (encodeMicro i w).bind decodeMicro = some (i, w) := by
  unfold encodeMicro
  rw [hm]
  simp only [Option.map_some, Option.bind_some]
  unfold decodeMicro readMicro
  rw [MicroWord.toBits_mop, hc]
  simp only [Option.map_some, MicroWord.ofBits_toBits, hw, if_true]

theorem Packet.ofHeader_toHeader (op : BitVec 16) (p : Packet) : Packet.ofHeader p.stream (p.toHeader op) p.payload = p := by
  unfold Packet.ofHeader Packet.toHeader
  simp (disch := omega) only [extract_append_high, extract_append_low, Nat.reduceSub, extract_all]

theorem Packet.toHeader_op (op : BitVec 16) (p : Packet) : (p.toHeader op).extractLsb' 0 16 = op := by
  unfold Packet.toHeader
  simp (disch := omega) only [extract_append_low, extract_all]

/-- A command with the fields its row allows decodes from its packet. -/
theorem decodePacket_encode {i : Instr} {op : BitVec 16} (hm : i.hostOp = some op) (hc : commandOfCode op.toNat = some i) (p : Packet)
    (hw : i.packetOk p = true) : (encodePacket i p).bind (fun x => decodePacket p.stream x.1 x.2) = some (i, p) := by
  unfold encodePacket
  rw [hm]
  simp only [Option.map_some, Option.bind_some]
  unfold decodePacket
  rw [Packet.toHeader_op, hc]
  simp only [Packet.ofHeader_toHeader, hw, if_true]

end Sys2Proof
end

