-- ==== Sys2Proof/Laws/Memory.lean ====
section
/-! SUPPORT. Memory: every operation keeps the canonical form, and what a byte reads as after a write. -/

namespace Sys2Proof.Machine

/-! ## The canonical form, with a lower bound for its addresses -/

/-- Canonical, and every address is at least `n`. -/
def Memory.wfFrom : Nat → Memory → Bool
  | _, [] => true
  | n, (a, b) :: r => decide (n ≤ a) && (b != 0) && Memory.wfFrom (a + 1) r

theorem Memory.wfFrom_nil (n : Nat) : Memory.wfFrom n [] = true := rfl

theorem Memory.wfFrom_cons (n a : Nat) (b : Byte) (r : Memory) :
    Memory.wfFrom n ((a, b) :: r) = true ↔ n ≤ a ∧ b ≠ 0 ∧ Memory.wfFrom (a + 1) r = true := by
  simp [Memory.wfFrom, and_assoc]

theorem Memory.wf_eq_wfFrom (m : Memory) : Memory.wf m = Memory.wfFrom 0 m := by
  induction m with
  | nil => rfl
  | cons c r ih =>
    obtain ⟨a, b⟩ := c
    cases r with
    | nil => simp [Memory.wf, Memory.wfFrom]
    | cons c' r' =>
      obtain ⟨a', b'⟩ := c'
      simp only [Memory.wf, ih, Memory.wfFrom]
      simp only [Nat.zero_le, decide_true, Bool.true_and, Nat.succ_le_iff]
      cases b != 0 <;> cases decide (a < a') <;> simp

theorem Memory.wfFrom_mono {n n' : Nat} {m : Memory} (h : n' ≤ n) (hm : Memory.wfFrom n m = true) :
    Memory.wfFrom n' m = true := by
  cases m with
  | nil => rfl
  | cons c r =>
    obtain ⟨a, b⟩ := c
    rw [Memory.wfFrom_cons] at hm ⊢
    exact ⟨le_trans h hm.1, hm.2⟩

theorem Memory.wfFrom_memPut {n a : Nat} {b : Byte} {m : Memory} (hn : n ≤ a) (hm : Memory.wfFrom n m = true) :
    Memory.wfFrom n (memPut m a b) = true := by
  induction m generalizing n with
  | nil =>
    unfold memPut
    split
    · rfl
    · rw [Memory.wfFrom_cons]; exact ⟨hn, by assumption, rfl⟩
  | cons c r ih =>
    obtain ⟨k, x⟩ := c
    rw [Memory.wfFrom_cons] at hm
    obtain ⟨h1, h2, h3⟩ := hm
    unfold memPut
    split
    · rw [Memory.wfFrom_cons]; exact ⟨h1, h2, ih (by omega) h3⟩
    · split
      · split
        · exact Memory.wfFrom_mono (by omega) h3
        · rw [Memory.wfFrom_cons]; exact ⟨hn, by assumption, by subst_vars; exact h3⟩
      · split
        · rw [Memory.wfFrom_cons]; exact ⟨h1, h2, h3⟩
        · rw [Memory.wfFrom_cons, Memory.wfFrom_cons]
          exact ⟨hn, by assumption, by omega, h2, h3⟩

/-- Writing a byte keeps the canonical form. -/
theorem Memory.wf_memPut {m : Memory} (a : Nat) (b : Byte) (hm : Memory.wf m = true) : Memory.wf (memPut m a b) = true := by
  rw [Memory.wf_eq_wfFrom] at hm ⊢
  exact Memory.wfFrom_memPut (Nat.zero_le a) hm

/-- Writing scattered bytes keeps the canonical form. -/
theorem Memory.wf_memScatter {m : Memory} (cells : List Host.Cell) (hm : Memory.wf m = true) :
    Memory.wf (memScatter m cells) = true := by
  unfold memScatter
  induction cells generalizing m with
  | nil => exact hm
  | cons c r ih => exact ih (Memory.wf_memPut c.1 c.2 hm)

theorem Memory.wfFrom_cellsOf (a : Nat) (bs : List Byte) : Memory.wfFrom a (cellsOf a bs) = true := by
  induction bs generalizing a with
  | nil => rfl
  | cons b r ih =>
    unfold cellsOf
    split
    · exact Memory.wfFrom_mono (by omega) (ih (a + 1))
    · rw [Memory.wfFrom_cons]; exact ⟨le_refl a, by assumption, ih (a + 1)⟩

theorem Memory.cellsOf_lt {a : Nat} {bs : List Byte} {c : Host.Cell} (h : c ∈ cellsOf a bs) : c.1 < a + bs.length := by
  induction bs generalizing a with
  | nil => simp [cellsOf] at h
  | cons b r ih =>
    unfold cellsOf at h
    split at h
    · have := ih h; simp only [List.length_cons]; omega
    · rcases List.mem_cons.mp h with rfl | h
      · simp
      · have := ih h; simp only [List.length_cons]; omega

/-- Two canonical pieces, the second from a bound that the first stays below. -/
theorem Memory.wfFrom_append {n k : Nat} {l r : Memory} (hl : Memory.wfFrom n l = true) (hk : ∀ c ∈ l, c.1 < k) (hn : n ≤ k)
    (hr : Memory.wfFrom k r = true) : Memory.wfFrom n (l ++ r) = true := by
  induction l generalizing n with
  | nil => exact Memory.wfFrom_mono hn hr
  | cons c t ih =>
    obtain ⟨a, b⟩ := c
    rw [Memory.wfFrom_cons] at hl
    rw [List.cons_append, Memory.wfFrom_cons]
    have ha : a < k := hk (a, b) (List.mem_cons_self ..)
    exact ⟨hl.1, hl.2.1, ih hl.2.2 (fun c hc => hk c (List.mem_cons_of_mem _ hc)) ha⟩

theorem Memory.wfFrom_takeWhile {n : Nat} {m : Memory} (f : Host.Cell → Bool) (hm : Memory.wfFrom n m = true) :
    Memory.wfFrom n (m.takeWhile f) = true := by
  induction m generalizing n with
  | nil => rfl
  | cons c r ih =>
    obtain ⟨a, b⟩ := c
    rw [Memory.wfFrom_cons] at hm
    rw [List.takeWhile_cons]
    split
    · rw [Memory.wfFrom_cons]; exact ⟨hm.1, hm.2.1, ih hm.2.2⟩
    · rfl

theorem Memory.wfFrom_dropWhile {n k : Nat} {m : Memory} (hm : Memory.wfFrom n m = true) :
    Memory.wfFrom k (m.dropWhile (fun c => c.1 < k)) = true := by
  induction m generalizing n with
  | nil => rfl
  | cons c r ih =>
    obtain ⟨a, b⟩ := c
    rw [Memory.wfFrom_cons] at hm
    rw [List.dropWhile_cons]
    split
    · exact ih hm.2.2
    · rename_i h
      rw [Memory.wfFrom_cons]; exact ⟨by simpa using h, hm.2.1, hm.2.2⟩

/-- Writing a run of bytes keeps the canonical form. -/
theorem Memory.wf_memWrite {m : Memory} (a : Nat) (bs : List Byte) (hm : Memory.wf m = true) :
    Memory.wf (memWrite m a bs) = true := by
  rw [Memory.wf_eq_wfFrom] at hm ⊢
  unfold memWrite
  rw [List.append_assoc]
  refine Memory.wfFrom_append (Memory.wfFrom_takeWhile _ hm) (k := a) ?_ (Nat.zero_le a) ?_
  · intro c hc
    simpa using List.mem_takeWhile_imp hc
  · exact Memory.wfFrom_append (Memory.wfFrom_cellsOf a bs) (fun c hc => Memory.cellsOf_lt hc) (Nat.le_add_right ..)
      (Memory.wfFrom_dropWhile hm)

/-! ## What a byte reads as -/

theorem memGet_of_lt {n a : Nat} {m : Memory} (hm : Memory.wfFrom n m = true) (h : a < n) : memGet m a = 0 := by
  induction m generalizing n with
  | nil => rfl
  | cons c r ih =>
    obtain ⟨k, b⟩ := c
    rw [Memory.wfFrom_cons] at hm
    unfold memGet
    rw [if_neg (by omega)]
    exact ih hm.2.2 (by omega)

theorem memGet_memPut_from {n : Nat} {m : Memory} (hm : Memory.wfFrom n m = true) (a : Nat) (b : Byte) (x : Nat) :
    memGet (memPut m a b) x = if x = a then b else memGet m x := by
  induction m generalizing n with
  | nil =>
    unfold memPut
    split
    · next h => subst h; simp [memGet]
    · simp only [memGet, eq_comm (a := a)]
  | cons c r ih =>
    obtain ⟨k, y⟩ := c
    rw [Memory.wfFrom_cons] at hm
    unfold memPut
    split
    · next h =>
      simp only [memGet, ih hm.2.2]
      split
      · next e => rw [if_neg (by omega)]
      · rfl
    · split
      · next h =>
        subst h
        split
        · next hb =>
          subst hb
          split
          · next e => subst e; exact memGet_of_lt hm.2.2 (by omega)
          · next e => simp only [memGet, if_neg (Ne.symm e)]
        · simp only [memGet, eq_comm (a := k)]
          split <;> rfl
      · next h1 h2 =>
        split
        · next hb =>
          subst hb
          split
          · next e =>
            subst e
            simp only [memGet]
            rw [if_neg (by omega)]
            exact memGet_of_lt hm.2.2 (by omega)
          · rfl
        · simp only [memGet, eq_comm (a := a)]

/-- A byte that was written reads back; every other byte reads as before. -/
theorem memGet_memPut {m : Memory} (hm : Memory.wf m = true) (a : Nat) (b : Byte) (x : Nat) :
    memGet (memPut m a b) x = if x = a then b else memGet m x := by
  rw [Memory.wf_eq_wfFrom] at hm
  exact memGet_memPut_from hm a b x

/-- Addresses outside the cells written read as before. -/
theorem memGet_memScatter_other {m : Memory} (hm : Memory.wf m = true) (cells : List Host.Cell) (x : Nat)
    (h : ∀ c ∈ cells, c.1 ≠ x) : memGet (memScatter m cells) x = memGet m x := by
  unfold memScatter
  induction cells generalizing m with
  | nil => rfl
  | cons c r ih =>
    rw [List.foldl_cons, ih (Memory.wf_memPut c.1 c.2 hm) (fun d hd => h d (List.mem_cons_of_mem _ hd)), memGet_memPut hm,
      if_neg (Ne.symm (h c (List.mem_cons_self ..)))]

theorem memGet_append_left {l r : Memory} {k x : Nat} (hr : Memory.wfFrom k r = true) (hx : x < k) :
    memGet (l ++ r) x = memGet l x := by
  induction l with
  | nil => simpa [memGet] using memGet_of_lt hr hx
  | cons c t ih =>
    obtain ⟨a, b⟩ := c
    simp only [List.cons_append, memGet, ih]

theorem memGet_append_right {l r : Memory} {x : Nat} (hl : ∀ c ∈ l, c.1 ≠ x) : memGet (l ++ r) x = memGet r x := by
  induction l with
  | nil => rfl
  | cons c t ih =>
    obtain ⟨a, b⟩ := c
    have ha : a ≠ x := hl (a, b) (List.mem_cons_self ..)
    simp only [List.cons_append, memGet, if_neg ha]
    exact ih (fun c hc => hl c (List.mem_cons_of_mem _ hc))

theorem memGet_takeWhile {n a x : Nat} {m : Memory} (hm : Memory.wfFrom n m = true) (hx : x < a) :
    memGet (m.takeWhile (fun c => c.1 < a)) x = memGet m x := by
  induction m generalizing n with
  | nil => rfl
  | cons c r ih =>
    obtain ⟨k, b⟩ := c
    rw [Memory.wfFrom_cons] at hm
    rw [List.takeWhile_cons]
    split
    · simp only [memGet, ih hm.2.2]
    · next h =>
      have h : a ≤ k := by simpa using h
      simp only [memGet]
      rw [if_neg (by omega), memGet_of_lt hm.2.2 (by omega)]

theorem memGet_dropWhile {a x : Nat} {m : Memory} (hx : a ≤ x) :
    memGet (m.dropWhile (fun c => c.1 < a)) x = memGet m x := by
  induction m with
  | nil => rfl
  | cons c r ih =>
    obtain ⟨k, b⟩ := c
    rw [List.dropWhile_cons]
    split
    · next h =>
      have h : k < a := by simpa using h
      simp only [memGet]
      rw [if_neg (by omega), ih]
    · rfl

theorem memGet_cellsOf (a x : Nat) (bs : List Byte) :
    memGet (cellsOf a bs) x = if a ≤ x ∧ x < a + bs.length then bs.getD (x - a) 0 else 0 := by
  induction bs generalizing a with
  | nil => simp [cellsOf, memGet]
  | cons b r ih =>
    have key : (if a ≤ x ∧ x < a + (b :: r).length then (b :: r).getD (x - a) 0 else 0)
        = if a = x then b else memGet (cellsOf (a + 1) r) x := by
      rw [ih]
      by_cases e : a = x
      · subst e; simp
      · by_cases h : a + 1 ≤ x ∧ x < a + 1 + r.length
        · obtain ⟨k, rfl⟩ : ∃ k, x = a + 1 + k := ⟨x - (a + 1), by omega⟩
          rw [if_pos ⟨by omega, by simp; omega⟩, if_neg e, if_pos h]
          have e1 : a + 1 + k - a = k + 1 := by omega
          have e2 : a + 1 + k - (a + 1) = k := by omega
          rw [e1, e2, List.getD_cons_succ]
        · rw [if_neg e, if_neg h, if_neg]
          simp only [List.length_cons]; omega
    rw [key, cellsOf]
    split
    · next hb =>
      subst hb
      split
      · next e => subst e; exact memGet_of_lt (Memory.wfFrom_cellsOf (a + 1) r) (by omega)
      · rfl
    · rfl

/-- Read after write: a byte of the run written reads as written, and every other byte reads as before. -/
theorem memGet_memWrite {m : Memory} (hm : Memory.wf m = true) (a : Nat) (bs : List Byte) (x : Nat) :
    memGet (memWrite m a bs) x = if a ≤ x ∧ x < a + bs.length then bs.getD (x - a) 0 else memGet m x := by
  rw [Memory.wf_eq_wfFrom] at hm
  unfold memWrite
  rw [List.append_assoc]
  have hr : Memory.wfFrom a (cellsOf a bs ++ m.dropWhile (fun c => c.1 < a + bs.length)) = true :=
    Memory.wfFrom_append (Memory.wfFrom_cellsOf a bs) (fun c hc => Memory.cellsOf_lt hc) (Nat.le_add_right ..)
      (Memory.wfFrom_dropWhile hm)
  rcases Nat.lt_or_ge x a with hx | hx
  · rw [memGet_append_left hr hx, memGet_takeWhile hm hx, if_neg (by omega)]
  · have hl : ∀ c ∈ m.takeWhile (fun c => c.1 < a), c.1 ≠ x := by
      intro c hc
      have h : c.1 < a := by simpa using List.mem_takeWhile_imp hc
      omega
    rw [memGet_append_right hl]
    rcases Nat.lt_or_ge x (a + bs.length) with hx' | hx'
    · rw [memGet_append_left (Memory.wfFrom_dropWhile hm) hx', memGet_cellsOf, if_pos ⟨hx, hx'⟩]
      rw [if_pos ⟨hx, hx'⟩]
    · have hl : ∀ c ∈ cellsOf a bs, c.1 ≠ x := by
        intro c hc
        have := Memory.cellsOf_lt hc
        omega
      rw [memGet_append_right hl, memGet_dropWhile hx', if_neg (by omega)]

/-- Reading a run of a canonical memory reads its bytes one by one. -/
theorem memRead_eq {m : Memory} (hm : Memory.wf m = true) (a n : Nat) :
    memRead m a n = (List.range n).map (fun i => memGet m (a + i)) := by
  rw [Memory.wf_eq_wfFrom] at hm
  suffices h : ∀ k, ∀ m' : Memory, Memory.wfFrom k m' = true → (∀ x, a ≤ x → memGet m' x = memGet m x) →
      memRead m' a n = (List.range n).map (fun i => memGet m (a + i)) from h 0 m hm (fun _ _ => rfl)
  intro k m' hm' he
  induction n generalizing a m' k with
  | zero => rfl
  | succ n ih =>
    unfold memRead
    have hd := Memory.wfFrom_dropWhile (k := a) hm'
    have hg : ∀ x, a ≤ x → memGet (m'.dropWhile (fun c => c.1 < a)) x = memGet m x := fun x hx => by
      rw [memGet_dropWhile hx, he x hx]
    simp only
    generalize m'.dropWhile (fun c => c.1 < a) = d at hd hg
    rw [ih (a + 1) a d hd (fun x hx => hg x (by omega)), List.range_succ_eq_map, List.map_cons, List.map_map]
    congr 1
    · rw [Nat.add_zero, ← hg a (le_refl a)]
      cases d with
      | nil => rfl
      | cons c r =>
        obtain ⟨j, b⟩ := c
        rw [Memory.wfFrom_cons] at hd
        simp only [memGet]
        split
        · rfl
        · exact (memGet_of_lt hd.2.2 (by omega)).symm
    · apply List.map_congr_left
      intro i _
      simp only [Function.comp, Nat.succ_eq_add_one]
      congr 1; omega

/-! ## Stores by number -/

/-- Numbers rise from `n`. -/
def Store.wfFrom {α : Type} : Nat → Store α → Prop
  | _, [] => True
  | n, (a, _) :: r => n ≤ a ∧ Store.wfFrom (a + 1) r

theorem storeGet_of_lt {α : Type} {d : α} {n a : Nat} {m : Store α} (hm : Store.wfFrom n m) (h : a < n) : storeGet d m a = d := by
  induction m generalizing n with
  | nil => rfl
  | cons c r ih =>
    obtain ⟨k, x⟩ := c
    obtain ⟨h1, h2⟩ := hm
    unfold storeGet
    rw [if_neg (by omega)]
    exact ih h2 (by omega)

/-- A value put under a number reads back; every other number reads as before. -/
theorem storeGet_storePutD {α : Type} [DecidableEq α] {d : α} {n : Nat} {m : Store α} (hm : Store.wfFrom n m) (a : Nat) (x : α) (y : Nat) :
    storeGet d (storePutD d m a x) y = if y = a then x else storeGet d m y := by
  unfold storePutD
  induction m generalizing n with
  | nil =>
    by_cases h : x = d
    · subst h; simp [storePut, storeGet]
    · simp only [if_neg h, storePut, storeGet, eq_comm (a := a)]
  | cons c r ih =>
    obtain ⟨k, z⟩ := c
    obtain ⟨h1, h2⟩ := hm
    simp only [storePut]
    split
    · next h =>
      simp only [storeGet, ih h2]
      split
      · next e => rw [if_neg (by omega)]
      · rfl
    · split
      · next h =>
        subst h
        by_cases hx : x = d
        · subst hx
          simp only [if_true]
          split
          · next e => subst e; exact storeGet_of_lt h2 (by omega)
          · next e => simp only [storeGet, if_neg (Ne.symm e)]
        · simp only [if_neg hx, storeGet, eq_comm (a := k)]
          split <;> rfl
      · next g1 g2 =>
        by_cases hx : x = d
        · subst hx
          simp only [if_true]
          split
          · next e =>
            subst e
            simp only [storeGet]
            rw [if_neg (by omega)]
            exact storeGet_of_lt h2 (by omega)
          · rfl
        · simp only [if_neg hx, storeGet, eq_comm (a := a)]

end Sys2Proof.Machine
end

