-- ==== Sys2Proof/Laws/Keep.lean ====
section
/-! SUPPORT. What the issue of a bundle and the landing of its results keep: the state outside cores, groups and tasks, and
the canonical form of every scratchpad. -/

namespace Sys2Proof.Machine

/-- The state that no op word touches: device memory, translation, KV spaces, identity, streams, GSTEP and CYCLE. -/
structure Outer where
  mem : Memory
  poison : List Nat
  roots : Store (BitVec 52)
  tlbs : Vector (List TlbEntry) 48
  spaces : Vector KvDesc 16
  domain : Store (BitVec 24)
  device : BitVec 14
  streams : Vector (Option (BitVec 24)) 8
  gstep : BitVec 32
  cycle : Nat
  factors : Vector (BitVec 32) 16
  tensors : List Stitched
  queues : Vector Word 128
  powered : Bool
  stage : Nat

def State.outer (s : State) : Outer :=
  { mem := s.mem, poison := s.poison, roots := s.roots, tlbs := s.tlbs, spaces := s.spaces, domain := s.domain, device := s.device
    streams := s.streams, gstep := s.gstep, cycle := s.cycle, factors := s.factors, tensors := s.tensors, queues := s.queues
    powered := s.powered, stage := s.stage }

/-- Every scratchpad is in canonical form. -/
def State.spadsWf (s : State) : Prop := ∀ c : Fin 208, Memory.wf (s.coreAt c).team.spad = true

/-- The state outside is the same, and scratchpads stay in canonical form. -/
def Keeps (s t : State) : Prop := t.outer = s.outer ∧ (s.spadsWf → t.spadsWf)

theorem Keeps.same (s : State) : Keeps s s := ⟨rfl, id⟩

theorem Keeps.trans {s t u : State} (h : Keeps s t) (g : Keeps t u) : Keeps s u := ⟨g.1.trans h.1, fun w => g.2 (h.2 w)⟩

theorem Keeps.foldl {α : Type} (f : State → α → State) (hf : ∀ s a, Keeps s (f s a)) (l : List α) (s : State) : Keeps s (l.foldl f s) := by
  induction l generalizing s with
  | nil => exact Keeps.same s
  | cons a l ih => exact (hf s a).trans (ih (f s a))

/-! ## The named updates -/

theorem keeps_updCore_at (s : State) (c : Fin 208) (f : Core → Core)
    (hf : Memory.wf (s.coreAt c).team.spad = true → Memory.wf (f (s.coreAt c)).team.spad = true) : Keeps s (s.updCore c f) := by
  refine ⟨rfl, fun h d => ?_⟩
  by_cases e : d = c
  · subst e
    rw [State.coreAt_updCore]
    exact hf (h d)
  · rw [State.coreAt_updCore_ne s f e]
    exact h d

theorem keeps_updCore (s : State) (c : Fin 208) (f : Core → Core)
    (hf : ∀ y, Memory.wf y.team.spad = true → Memory.wf (f y).team.spad = true) : Keeps s (s.updCore c f) :=
  keeps_updCore_at s c f (hf _)

theorem keeps_updTeam_at (s : State) (c : Fin 208) (f : Team → Team)
    (hf : Memory.wf (s.coreAt c).team.spad = true → Memory.wf (f (s.coreAt c).team).spad = true) : Keeps s (s.updTeam c f) :=
  keeps_updCore_at s c _ hf

theorem keeps_updTeam (s : State) (c : Fin 208) (f : Team → Team)
    (hf : ∀ y, Memory.wf y.spad = true → Memory.wf (f y).spad = true) : Keeps s (s.updTeam c f) := keeps_updTeam_at s c f (hf _)

theorem keeps_updCtx (s : State) (c : Fin 208) (k : Fin 4) (f : Ctx → Ctx) : Keeps s (s.updCtx c k f) :=
  keeps_updTeam s c _ (fun _ h => h)

/-- A change outside the cores, of none of the fields above. -/
theorem keeps_cores {s t : State} (h : t.outer = s.outer) (g : t.cores = s.cores) : Keeps s t := by
  refine ⟨h, fun w c => ?_⟩
  have := w c
  unfold State.coreAt at *
  rw [g]
  exact this

theorem keeps_updTask (s : State) (id : Nat) (f : Task → Task) : Keeps s (s.updTask id f) := keeps_cores rfl rfl
theorem keeps_updGroup (s : State) (g : Fin 8) (f : Group → Group) : Keeps s (s.updGroup g f) := keeps_cores rfl rfl
theorem keeps_later (s : State) (d : Nat) (e : Event) : Keeps s (s.later d e) := keeps_cores rfl rfl
theorem keeps_now (s : State) (e : Event) : Keeps s (s.now e) := keeps_cores rfl rfl
theorem keeps_takeDelay (s : State) : Keeps s s.takeDelay.2 := keeps_cores rfl rfl
theorem keeps_withIssue (s : State) (q : Issue) : Keeps s (s.withIssue q) := keeps_cores rfl rfl

theorem keeps_record (s : State) (c : Fin 208) (kind : BitVec 7) (aux : BitVec 45) (a : BitVec 56) (v : Word) (l : List Word) :
    Keeps s (s.record c kind aux a v l) := keeps_cores rfl rfl

theorem keeps_recordExc (s : State) (c : Fin 208) (a : BitVec 56) (u : BitVec 4) (x : ExcCount) (b : Bool) : Keeps s (s.recordExc c a u x b) := by
  unfold State.recordExc
  split
  · exact keeps_record ..
  · exact Keeps.same s

theorem keeps_updBarrier (s : State) (c : Fin 208) (n b : Nat) (f : Barrier → Barrier) : Keeps s (s.updBarrier c n b f) := by
  unfold State.updBarrier
  split
  · exact keeps_updTeam s c _ (fun _ h => h)
  · split
    · exact Keeps.same s
    · exact keeps_updTask ..

/-! ## Traps and failures -/

theorem keeps_failTask (s : State) (id : Nat) (f : Failure) : Keeps s (s.failTask id f) := by
  unfold State.failTask
  split
  · exact Keeps.same s
  · split
    · exact Keeps.same s
    · dsimp only
      have gone : ∀ (u : State) (l : List (Fin 200)), Keeps u (l.foldl (fun s c => s.updCore (computeCore c) (fun x =>
          { x with stopped := true, request := none, holdIssue := false
                   team := { x.team with cmds := x.team.cmds.map failCmd } })) u) :=
        fun u l => by
          refine Keeps.foldl _ (fun s c => ?_) l u
          exact keeps_updCore _ _ _ (fun _ h => h)
      split
      · refine Keeps.trans ?_ (gone _ _)
        exact keeps_cores rfl rfl
      · refine Keeps.trans ?_ (Keeps.foldl _ (fun s p => ?_) _ _)
        · refine Keeps.trans ?_ (gone _ _)
          exact keeps_cores rfl rfl
        · split
          · exact Keeps.same _
          · exact keeps_record ..

theorem keeps_takeTrap (s : State) (c : Fin 208) (k : Fin 4) (e : Cause) (pc : BitVec 56) (v : Word) (m : BitVec 11) :
    Keeps s (s.takeTrap c k e pc v m) := by
  unfold State.takeTrap
  dsimp only
  split
  · exact keeps_updCtx ..
  · split
    · exact (keeps_record ..).trans (keeps_failTask ..)
    · exact (keeps_record ..).trans (keeps_updCore _ _ _ (fun _ h => h))

/-! ## Acts that land -/

theorem Team.pinCarriers_spad (t : Team) (m : MapBits) : (t.pinCarriers m).spad = t.spad := by
  unfold Team.pinCarriers
  induction mapCars m generalizing t with
  | nil => rfl
  | cons a l ih =>
    rw [List.foldl_cons, ih]
    split <;> rfl

theorem Team.setV_spad (t : Team) (k : Fin 4) (r : Nat) (x m : VecBits) (map : Option MapBits) (d : Bool) :
    (t.setV k r x m map d).spad = t.spad := by
  unfold Team.setV Team.dataWritten
  cases map <;> cases d <;> simp only [Team.pinCarriers_spad, Team.updCtx, Bool.false_eq_true, if_false, if_true] <;> split <;> rfl

theorem Team.wf_spadPut {t : Team} (l : List Host.Cell) (h : Memory.wf t.spad = true) : Memory.wf (t.spadPut l).spad = true :=
  Memory.wf_memScatter l h

theorem keeps_runAmo (s : State) (c : Fin 208) (p : Pend) (op : BitVec 3) (ty : BitVec 4) (a : Nat) (x y : Word) (d : Reg6) :
    Keeps s (s.runAmo c p op ty a x y d) := by
  unfold State.runAmo
  refine Keeps.trans (keeps_updTeam s c _ (fun y h => ?_)) (keeps_recordExc ..)
  exact Team.wf_spadPut (t := y) _ h

theorem keeps_runSeason (s : State) (c : Fin 208) (p : Pend) (wide : Bool) (g : BitVec 32) (ws later : List (Nat × BitVec 32)) (seen : List Nat) :
    Keeps s (s.runSeason c p wide g ws later seen) := by
  unfold State.runSeason
  have key : ∀ (n : Nat) (new : Team → Nat × BitVec 32 → List Byte) (exc : Team → Nat × BitVec 32 → Exc) (l : List (Nat × BitVec 32)) (a : Team × List Exc),
      Memory.wf a.1.spad = true → Memory.wf (l.foldl (fun (acc : Team × List Exc) (w : Nat × BitVec 32) =>
        (acc.1.spadPut (((List.range n).zip (new acc.1 w)).map (fun q => (w.1 + q.1, q.2))), acc.2 ++ [exc acc.1 w])) a).1.spad = true := by
    intro n new exc l
    induction l with
    | nil => exact fun _ h => h
    | cons x l ih => intro a h; exact ih _ (Team.wf_spadPut _ h)
  have base : ∀ f : Team → Team, (Memory.wf (s.coreAt c).team.spad = true → Memory.wf (f (s.coreAt c).team).spad = true) → Keeps s (s.updTeam c f) :=
    fun f hf => keeps_updTeam_at s c f hf
  dsimp only
  split
  · refine Keeps.trans (base _ (fun h => ?_)) (keeps_recordExc ..)
    exact key (swWidth wide) (fun t w => bytesOf (swWidth wide) (swMergeAdd s.factors wide (memNat t.spad w.1 (swWidth wide)) w.2.toNat g.toNat).1)
      (fun t w => (swMergeAdd s.factors wide (memNat t.spad w.1 (swWidth wide)) w.2.toNat g.toNat).2) ws _ h
  · refine Keeps.trans (base _ (fun h => ?_)) (keeps_updTeam _ _ _ (fun _ h => h))
    exact key (swWidth wide) (fun t w => bytesOf (swWidth wide) (swMergeAdd s.factors wide (memNat t.spad w.1 (swWidth wide)) w.2.toNat g.toNat).1)
      (fun t w => (swMergeAdd s.factors wide (memNat t.spad w.1 (swWidth wide)) w.2.toNat g.toNat).2) ws _ h

theorem keeps_runArrive (s : State) (c : Fin 208) (p : Pend) (n b : Nat) (d : Reg6) : Keeps s (s.runArrive c p n b d) := by
  unfold State.runArrive
  split
  · exact Keeps.same s
  · dsimp only
    split
    · exact keeps_updBarrier ..
    · exact (keeps_updBarrier ..).trans (keeps_updTeam _ _ _ (fun _ h => h))

theorem keeps_mxFinish (s : State) (c : Fin 208) (p : Pend) (j : MxJob) : Keeps s (s.mxFinish c p j) := by
  unfold State.mxFinish
  have work : ∀ (l : List Nat) (f : Team → Team), (∀ y, Memory.wf y.spad = true → Memory.wf (f y).spad = true) →
      Keeps s ((l.foldl (fun s a => s.record c Cause.blkFmt.code 0 p.baddr (BitVec.ofNat 64 a) []) s).updTeam c f) :=
    fun l f hf => (Keeps.foldl _ (fun s a => keeps_record ..) l s).trans (keeps_updTeam _ _ _ hf)
  have last : ∀ u : State, Keeps u (if j.lastRep then
      State.updTeam (match j.kind with
        | .zero => u
        | .load => u
        | _ => (u.recordExc c p.baddr 9 (u.coreAt c).team.mxExc (u.coreAt c).team.mxBlk).updTeam c
            (fun t => { t with mxExc := ExcCount.zero, mxBlk := false })) c
          (fun t => { t with tileBusy := t.tileBusy &&& ~~~(BitVec.ofNat 16 (2 ^ j.tile.toNat)) })
      else u) := by
    intro u
    split
    · refine Keeps.trans ?_ (keeps_updTeam _ _ _ (fun _ h => h))
      split
      · exact Keeps.same u
      · exact Keeps.same u
      · exact (keeps_recordExc ..).trans (keeps_updTeam _ _ _ (fun _ h => h))
    · exact Keeps.same u
  refine Keeps.trans ?_ (last _)
  split
  · exact Keeps.same s
  · exact Keeps.same s
  · exact Keeps.same s
  · exact work _ _ (fun _ h => h)

theorem Team.mxUntil_spad (t : Team) (j : MxJob) (n : Nat) : (t.mxUntil j n).spad = t.spad := rfl

theorem keeps_sparseStep (s : State) (c : Fin 208) (p : Pend) (j : MxJob) (k : Nat) : Keeps s (s.sparseStep c p j k).1 := by
  unfold State.sparseStep
  dsimp only
  split
  · split
    · refine Keeps.trans ?_ (keeps_record ..)
      exact keeps_updTeam _ _ _ (fun _ h => h)
    · exact keeps_updTeam _ _ _ (fun _ h => h)
  · split <;> (try split) <;> (try dsimp only) <;> (try split) <;> (try split) <;> (try split) <;> (try dsimp only) <;> (try split)
    all_goals first
      | exact Keeps.same s
      | exact keeps_record ..
      | exact keeps_updTeam s c _ (fun _ h => h)
      | (refine Keeps.trans ?_ (keeps_updTeam _ c _ (fun _ h => h)); exact keeps_record ..)

theorem keeps_mxRun (s : State) (c : Fin 208) (p : Pend) (j : MxJob) : Keeps s (s.mxRun c p j) := by
  unfold State.mxRun
  have again : ∀ (u : State) (k : MxJob) (n : Nat), Keeps u (u.updTeam c (fun t => t.push { p with due := n, act := .mx k })) :=
    fun u k n => keeps_updTeam _ _ _ (fun _ h => h)
  dsimp only
  split
  · exact keeps_mxFinish ..
  · split
    · split
      · refine Keeps.trans ?_ (keeps_mxFinish ..)
        exact keeps_updTeam _ _ _ (fun _ h => h)
      · refine Keeps.trans ?_ (again ..)
        exact keeps_updTeam _ _ _ (fun _ h => h)
    · have row : Keeps s (match j.aGot with
          | [] => s
          | _ => s.updTeam c (fun t => { t with acc := storePutD 0 t.acc (128 * j.tile.toNat + (s.cycle - j.start - 2)) (if j.tya = 8 then
              BitVec.ofNat 4096 (packBits 32 ((List.range 128).map (fun i => packBits 256 (j.aGot.map (·.toNat)) >>> (16 * i) % 2 ^ 16 * 2 ^ 16)))
            else BitVec.ofNat 4096 (packBits 256 (j.aGot.map (·.toNat)))) })) := by
        split
        · exact Keeps.same s
        · exact keeps_updTeam _ _ _ (fun _ h => h)
      split
      · exact row.trans (keeps_mxFinish ..)
      · exact row.trans (again ..)
    · exact (keeps_sparseStep s c p j _).trans (again ..)
    · exact again ..
    · exact again ..
    · split
      · exact again ..
      · refine Keeps.trans ?_ (again ..)
        exact keeps_updTeam _ _ _ (fun _ h => h)

theorem keeps_runAct (s : State) (c : Fin 208) (p : Pend) : Keeps s (s.runAct c p) := by
  unfold State.runAct
  split
  · exact keeps_updCtx ..
  · exact keeps_updCtx ..
  · exact keeps_updCtx ..
  · refine keeps_updTeam _ _ _ (fun y h => ?_)
    rw [Team.setV_spad]; exact h
  · exact keeps_updTeam _ _ _ (fun y h => Team.wf_spadPut (t := y) _ h)
  · exact keeps_updTeam _ _ _ (fun _ h => h)
  · exact keeps_updTeam _ _ _ (fun _ h => h)
  · exact keeps_runAmo ..
  · exact keeps_runSeason ..
  · refine keeps_updTeam _ _ _ (fun y h => ?_)
    split
    · exact h
    · exact h
  · refine keeps_updTeam _ _ _ (fun y h => ?_)
    split
    · exact h
    · exact h
  · exact keeps_updTeam _ _ _ (fun _ h => h)
  · exact keeps_mxRun ..
  · exact keeps_runArrive ..

/-! ## A cycle's landing -/

theorem keeps_landCore (s : State) (phase : Act → Bool) (c : Fin 208) : Keeps s (s.landCore phase c) := by
  unfold State.landCore
  dsimp only
  split
  · exact Keeps.same s
  · refine Keeps.trans ?_ (Keeps.foldl _ (fun s p => keeps_runAct s c p) _ _)
    exact keeps_updTeam _ _ _ (fun _ h => h)

theorem keeps_land (s : State) : Keeps s s.land := by
  have one : ∀ (f : Act → Bool) (l : List (Fin 208)) (u : State), Keeps u (l.foldl (fun s c => s.landCore f c) u) :=
    fun f l u => Keeps.foldl _ (fun s c => keeps_landCore s f c) l u
  exact ((one ..).trans (one ..)).trans (one ..)

/-! ## The issue of a bundle -/

theorem keeps_addCmd (s : State) (c : Fin 208) (k : Fin 4) (x : Cmd) : Keeps s (s.addCmd c k x) := by
  unfold State.addCmd
  dsimp only
  split
  · refine Keeps.trans (t := { s.takeDelay.2 with nextId := s.nextId + 1 }) (keeps_cores rfl rfl) ?_
    exact keeps_updTeam _ _ _ (fun _ h => h)
  · refine Keeps.trans (Keeps.trans (t := { s.takeDelay.2 with nextId := s.nextId + 1 }) (keeps_cores rfl rfl) ?_) (keeps_updCtx ..)
    exact keeps_updTeam _ _ _ (fun _ h => h)

theorem keeps_kick (s : State) : Keeps s s.kick := by
  unfold State.kick
  split
  · exact Keeps.same s
  · split
    · exact keeps_now ..
    · exact keeps_later ..

theorem keeps_setCmap (s : State) (g : Fin 8) (l : Nat) (x : Byte) : Keeps s (s.setCmap g l x) := by
  unfold State.setCmap
  dsimp only
  split
  · split
    · exact (((keeps_updGroup ..).trans (keeps_kick _)).trans (keeps_updGroup ..)).trans (keeps_later ..)
    · exact ((keeps_updGroup ..).trans (keeps_kick _)).trans (keeps_updGroup ..)
  · exact (keeps_updGroup ..).trans (keeps_kick _)

theorem keeps_profRecord (s : State) (c : Fin 208) (k : Fin 4) (b : Bool) (p : Profile) : Keeps s (s.profRecord c k b p) := by
  unfold State.profRecord
  split
  · exact keeps_record ..
  · exact Keeps.same s

theorem keeps_abortScan (s : State) (c : Fin 208) (h : Option Nat) : Keeps s (s.abortScan c h) := by
  unfold State.abortScan
  dsimp only
  refine Keeps.trans (Keeps.trans (keeps_takeDelay s) ?_) (keeps_later ..)
  exact keeps_updCore _ _ _ (fun _ h => h)

theorem Core.resume_spad (y : Core) (n : Nat) : (y.resume n).team.spad = y.team.spad := by
  unfold Core.resume
  split <;> rfl

theorem keeps_popStat (s : State) (g : Fin 8) : Keeps s (s.popStat g).2 := by
  unfold State.popStat
  split
  · exact Keeps.same s
  · exact keeps_updGroup ..

theorem keeps_effect (s : State) (w : List (UnitCode × Nat)) (u : UnitCode) (e : Effect) : Keeps s (s.effect w u e) := by
  unfold State.effect
  dsimp only
  split
  · split
    · exact keeps_runAct ..
    · exact keeps_updTeam _ _ _ (fun _ h => h)
  · exact keeps_updCtx ..
  · exact keeps_updCtx ..
  · split
    · exact keeps_profRecord ..
    · exact keeps_updCtx ..
  · exact keeps_updCtx ..
  · exact keeps_updCtx ..
  · exact Keeps.same s
  · exact keeps_updCtx ..
  · exact keeps_updCtx ..
  · exact keeps_updCtx ..
  · exact keeps_updBarrier ..
  · exact keeps_updCtx ..
  · split
    · exact (keeps_addCmd ..).trans (keeps_now ..)
    · exact keeps_addCmd ..
  · exact keeps_updTeam _ _ _ (fun _ h => h)
  · exact keeps_setCmap ..
  · refine Keeps.trans (keeps_popStat s (groupOf s.issue.core)) ?_
    exact keeps_updTeam _ _ _ (fun _ h => h)
  · split
    · exact keeps_abortScan ..
    · exact Keeps.same s
  · refine keeps_updCore _ _ _ (fun y h => ?_)
    rw [Core.resume_spad]
    exact h
  · exact keeps_updTeam _ _ _ (fun _ h => h)
  · exact keeps_updTeam _ _ _ (fun _ h => h)
  · exact keeps_record ..
  · exact keeps_updCtx ..
  · exact keeps_updTeam _ _ _ (fun _ h => h)
  · refine keeps_updTeam _ _ _ (fun y h => ?_)
    rw [Team.pinCarriers_spad]
    exact h
  · exact keeps_updTeam _ _ _ (fun _ h => h)
  · exact keeps_updTeam _ _ _ (fun _ h => h)
  · exact keeps_updTeam _ _ _ (fun _ h => h)
  · exact keeps_updGroup ..

theorem keeps_loopNext (s : State) (c : Fin 208) (k : Fin 4) (l : LoopState) (x : Ctx) : Keeps s (s.loopNext c k l x) := by
  unfold State.loopNext
  dsimp only
  split
  · exact keeps_updCtx ..
  · split
    · exact keeps_updCtx ..
    · exact (keeps_updCtx ..).trans (keeps_profRecord ..)

theorem keeps_commit (s : State) : Keeps s s.commit := by
  unfold State.commit
  dsimp only
  have run : ∀ (u : State) (w : List (UnitCode × Nat)) (l : List (UnitCode × Effect)), Keeps u (l.foldl (fun s e => s.effect w e.1 e.2) u) :=
    fun u w l => Keeps.foldl _ (fun s e => keeps_effect s w e.1 e.2) l u
  have begin_ : ∀ f n g b, Keeps s (((s.updCtx s.issue.core s.issue.ctx f).updCore s.issue.core
      (fun x => { x with stallUntil := n, lastIssue := g })).updTeam s.issue.core (fun t => t.reserveBanks s.ictx b s.issue.all)) := fun f n g b => by
    refine Keeps.trans (Keeps.trans (keeps_updCtx s s.issue.core s.issue.ctx f) ?_) (keeps_updTeam _ _ _ (fun _ h => h))
    exact keeps_updCore _ _ _ (fun _ h => h)
  have ends : ∀ (u : State) (o : Option LoopState) (x : Ctx), Keeps u (match o with
      | some l => u.loopNext s.issue.core s.issue.ctx l x
      | none => u) := fun u o x => by
    split
    · exact keeps_loopNext ..
    · exact Keeps.same u
  split
  · refine Keeps.trans (Keeps.trans ?_ (keeps_takeTrap ..)) (keeps_updCtx ..)
    exact ((begin_ _ _ _ _).trans (run _ _ _)).trans (ends _ _ _)
  · exact ((begin_ _ _ _ _).trans (run _ _ _)).trans (ends _ _ _)

theorem keeps_close (s : State) : Keeps s s.close := by
  unfold State.close
  split
  · exact keeps_commit s
  · dsimp only
    refine Keeps.trans ?_ (keeps_takeTrap ..)
    refine Keeps.trans (t := s.holdBody s.issue.core s.issue.ctx s.issue.baddr s.issue.words) ?_ ?_
    · unfold State.holdBody
      exact keeps_updCtx ..
    · exact keeps_updCore _ _ _ (fun _ h => h)

theorem keeps_slot (s : State) (i : Instr) (h : Head) (r : SlotRes) : Keeps s (s.slot i h r) := by
  unfold State.slot
  dsimp only
  split
  · exact (keeps_withIssue s _).trans (keeps_close _)
  · exact keeps_withIssue s _

/-- Every op word is a slot of the bundle in progress. -/
theorem exec_slot (i : Instr) (s : State) (h : i.head.isSome = true) : ∃ h r, exec i s = .next (s.slot i h r) := by
  cases i <;> first | exact (Bool.false_ne_true h).elim | exact ⟨_, _, rfl⟩

/-! ## What single operations change -/

/-- As a cycle begins only the hold of its wheel turn may change (R398). -/
theorem State.beginTurn_frame (s : State) : s.beginTurn = { s with heldTurn := s.beginTurn.heldTurn } := by
  unfold State.beginTurn; split <;> rfl

/-- A `DRAIN.core` that passes changes commands and nothing else, and of them only what they keep of a descriptor (R82, R248). -/
theorem State.drainReads_frame (s : State) (c : Fin 208) (k : Fin 4) (is : List Instr) :
    ∃ f : Cmd → Cmd, (∀ x, f x = { x with kept := (f x).kept }) ∧
      (s.drainReads c k is = s ∨ s.drainReads c k is = s.updTeam c (fun t => { t with cmds := t.cmds.map f })) := by
  unfold State.drainReads
  split
  · refine ⟨fun x => if x.ctx == k && isColl x.instr && x.blob == [] && x.kept == [] then
      { x with kept := (List.range 32).map (fun i => (x.aOff + i, memGet (s.coreAt c).team.spad (x.aOff + i))) } else x, fun x => ?_, .inr ?_⟩
    · dsimp only; split <;> rfl
    · simp only [State.updTeam, State.updCore]
      rfl
  · exact ⟨id, fun _ => rfl, .inl rfl⟩

/-- A command that keeps nothing reads what stands in memory. -/
@[simp] theorem Cmd.asKept_nil (c : Cmd) (va : Nat) (bs : List Byte) (h : c.kept = []) : c.asKept va bs = bs := by simp [Cmd.asKept, h]

/-- The words of a bundle issue as they stand unless its `REP` counts 0 (R81). -/
theorem issuedWords_of_ne (x : Ctx) (is : List Instr) (h : repCount x is ≠ 0) : issuedWords x is = is := by simp [issuedWords, h]

/-- A page of 64 KiB has sixteen entries (R270). -/
theorem groupPtes_length (table i : Nat) : (groupPtes table i).length = 16 := by simp [groupPtes]
end Sys2Proof.Machine
end

