-- ==== Sys2Proof/Laws/PerInstr.lean ====
section
/-! SUPPORT. Statements made per instruction, one lemma for each constructor of Instr. RoundTrip: what the encoder writes the
decoder reads back. -/

namespace Sys2Proof

/-- Encoding and decoding agree on an instruction: an op word of its unit that is well formed, with every operand at every
value that the encoding admits (R35 to R50, R61 to R69); a micro-operation with every field that its row admits (R319,
R320); a command with every argument and payload that its row admits (R361, R363, R384). -/
def Laws.RoundTrip.Statement (i : Instr) : Prop :=
  (i.wellFormed = true → i.unitOk = true → i.head.isSome = true → (encode i).bind decodeWords = some i)
    ∧ (∀ w : MicroWord, i.microOk w = true → (encodeMicro i w).bind decodeMicro = some (i, w))
    ∧ (∀ p : Packet, i.packetOk p = true → (encodePacket i p).bind (fun x => decodePacket p.stream x.1 x.2) = some (i, p))

theorem readOp_sy {h : Head} {opc : BitVec 8} {p : BitVec 43} (e : (h.unit == .sy) = true) : readOp h opc p = readSY opc h p := by
  unfold readOp; rw [beq_iff_eq.mp e]
theorem readOp_s0 {h : Head} {opc : BitVec 8} {p : BitVec 43} (e : (h.unit == .s0) = true) : readOp h opc p = readS opc h p := by
  unfold readOp; rw [beq_iff_eq.mp e]
theorem readOp_s {h : Head} {opc : BitVec 8} {p : BitVec 43} (e : (h.unit == .s0 || h.unit == .s1) = true)
    (ho : (opc == 4 || opc == 5) = false) : readOp h opc p = readS opc h p := by
  unfold readOp
  rcases (Bool.or_eq_true _ _).mp e with e | e
  · rw [beq_iff_eq.mp e]
  · rw [beq_iff_eq.mp e]
    simp only [ho, Bool.false_eq_true, if_false]
theorem readOp_ld {h : Head} {opc : BitVec 8} {p : BitVec 43} (e : (h.unit == .ld) = true) : readOp h opc p = readLD opc h p := by
  unfold readOp; rw [beq_iff_eq.mp e]
theorem readOp_st {h : Head} {opc : BitVec 8} {p : BitVec 43} (e : (h.unit == .st) = true) : readOp h opc p = readST opc h p := by
  unfold readOp; rw [beq_iff_eq.mp e]
theorem readOp_v {h : Head} {opc : BitVec 8} {p : BitVec 43} (e : (h.unit == .v0 || h.unit == .v1 || h.unit == .v2) = true) :
    readOp h opc p = readV opc h p := by
  unfold readOp
  rcases (Bool.or_eq_true _ _).mp e with e | e
  · rcases (Bool.or_eq_true _ _).mp e with e | e <;> rw [beq_iff_eq.mp e]
  · rw [beq_iff_eq.mp e]
theorem readOp_sf {h : Head} {opc : BitVec 8} {p : BitVec 43} (e : (h.unit == .sf) = true) : readOp h opc p = readSF opc h p := by
  unfold readOp; rw [beq_iff_eq.mp e]
theorem readOp_mx {h : Head} {opc : BitVec 8} {p : BitVec 43} (e : (h.unit == .mx) = true) : readOp h opc p = readMX opc h p := by
  unfold readOp; rw [beq_iff_eq.mp e]
theorem readOp_en {h : Head} {opc : BitVec 8} {p : BitVec 43} (e : (h.unit == .en) = true) : readOp h opc p = readEN opc h p := by
  unfold readOp; rw [beq_iff_eq.mp e]

/-- The statement of an op word: its unit reads it from its own opcode and payload, and it is neither a micro-operation nor a
command. -/
theorem Laws.RoundTrip.opWord {i : Instr} {h : Head} {opc : BitVec 8} {p : BitVec 43} (hh : i.head = some h)
    (ho : i.opBits = some (opc, p)) (hr : i.wellFormed = true → i.unitOk = true → readOp h opc p = .instr i)
    (hm : i.mop = none) (hp : i.hostOp = none) : Statement i := by
  refine ⟨fun hw hu _ => decode_encode_of hh ho (hr hw hu) hw, fun w h => ?_, fun p h => ?_⟩
  · cases i <;> first | exact Bool.noConfusion h | simp [Instr.mop] at hm
  · cases i <;> first | exact Bool.noConfusion h | simp [Instr.hostOp] at hp

/-! ## Opcodes with sub-operations (R62) -/

theorem readSY_10 (hd : Head) (p : BitVec 43) : readSY 10 hd p = (if (YSWord.ofBits hd p).fn == 1 then OpRead.instr (.waitCyc (YSWord.ofBits hd p)) else OpRead.instr (.waitTok (YSWord.ofBits hd p))) := rfl

theorem readSY_65 (hd : Head) (p : BitVec 43) : readSY 65 hd p = (if (YSWord.ofBits hd p).fn == 0 then OpRead.instr (.mtcTstat (YSWord.ofBits hd p)) else if (YSWord.ofBits hd p).fn == 9 then OpRead.instr (.mtcWaitlim (YSWord.ofBits hd p)) else OpRead.instr (.mtc (YSWord.ofBits hd p))) := rfl

theorem readS_33 (hd : Head) (p : BitVec 43) : readS 33 hd p = (if (RWord.ofBits hd p).fn == 0 then OpRead.instr (.asetA (RWord.ofBits hd p)) else if (RWord.ofBits hd p).fn == 1 then OpRead.instr (.asetS (RWord.ofBits hd p)) else OpRead.badSub) := rfl

theorem readV_27 (hd : Head) (p : BitVec 43) : readV 27 hd p = (if (RWord.ofBits hd p).fn.getLsbD 12 then OpRead.instr (.vbcastE (RWord.ofBits hd p)) else OpRead.instr (.vbcastS (RWord.ofBits hd p))) := rfl

theorem readV_72 (hd : Head) (p : BitVec 43) : readV 72 hd p = (if (RWord.ofBits hd p).fn.extractLsb' 0 3 == 0 then OpRead.instr (.vmapSet (RWord.ofBits hd p)) else if (RWord.ofBits hd p).fn.extractLsb' 0 3 == 1 then OpRead.instr (.vmapCopy (RWord.ofBits hd p)) else if (RWord.ofBits hd p).fn.extractLsb' 0 3 == 2 then OpRead.instr (.vmapOff (RWord.ofBits hd p)) else if (RWord.ofBits hd p).fn.extractLsb' 0 3 == 3 then OpRead.instr (.vmapSlice (RWord.ofBits hd p)) else if (RWord.ofBits hd p).fn.extractLsb' 0 3 == 4 then OpRead.instr (.vmapTr (RWord.ofBits hd p)) else if (RWord.ofBits hd p).fn.extractLsb' 0 3 == 5 then OpRead.instr (.vmapNone (RWord.ofBits hd p)) else if (RWord.ofBits hd p).fn.extractLsb' 0 3 == 6 then OpRead.instr (.vmapTag (RWord.ofBits hd p)) else OpRead.badSub) := rfl

theorem readV_75 (hd : Head) (p : BitVec 43) : readV 75 hd p = (if (RWord.ofBits hd p).fn.extractLsb' 5 3 == 0 then OpRead.instr (.vmaskcCausal (RWord.ofBits hd p)) else if (RWord.ofBits hd p).fn.extractLsb' 5 3 == 1 then OpRead.instr (.vmaskcBand (RWord.ofBits hd p)) else if (RWord.ofBits hd p).fn.extractLsb' 5 3 == 2 then OpRead.instr (.vmaskcWin (RWord.ofBits hd p)) else if (RWord.ofBits hd p).fn.extractLsb' 5 3 == 3 then OpRead.instr (.vmaskcLt (RWord.ofBits hd p)) else if (RWord.ofBits hd p).fn.extractLsb' 5 3 == 4 then OpRead.instr (.vmaskcGe (RWord.ofBits hd p)) else OpRead.badSub) := rfl

theorem readV_89 (hd : Head) (p : BitVec 43) : readV 89 hd p = (if (RWord.ofBits hd p).fn.getLsbD 11 then OpRead.instr (.vacwAdd (RWord.ofBits hd p)) else OpRead.instr (.vacw (RWord.ofBits hd p))) := rfl

theorem readEN_2 (hd : Head) (p : BitVec 43) : readEN 2 hd p = (if (EWord.ofBits hd p).fn.getLsbD 5 then OpRead.instr (.cpylTopk (EWord.ofBits hd p)) else OpRead.instr (.cpyl (EWord.ofBits hd p))) := rfl

theorem readEN_8 (hd : Head) (p : BitVec 43) : readEN 8 hd p = (if (EWord.ofBits hd p).fn.extractLsb' 0 3 == 0 then OpRead.instr (.atomAdd (EWord.ofBits hd p)) else if (EWord.ofBits hd p).fn.extractLsb' 0 3 == 1 then OpRead.instr (.atomMin (EWord.ofBits hd p)) else if (EWord.ofBits hd p).fn.extractLsb' 0 3 == 2 then OpRead.instr (.atomMax (EWord.ofBits hd p)) else if (EWord.ofBits hd p).fn.extractLsb' 0 3 == 3 then OpRead.instr (.atomXchg (EWord.ofBits hd p)) else if (EWord.ofBits hd p).fn.extractLsb' 0 3 == 4 then OpRead.instr (.atomCas (EWord.ofBits hd p)) else OpRead.badSub) := rfl

theorem readEN_56 (hd : Head) (p : BitVec 43) : readEN 56 hd p = (if (EWord.ofBits hd p).fn.extractLsb' 0 2 == 0 then OpRead.instr (.swcpyIn (EWord.ofBits hd p)) else if (EWord.ofBits hd p).fn.extractLsb' 0 2 == 1 then OpRead.instr (.swcpyOut (EWord.ofBits hd p)) else if (EWord.ofBits hd p).fn.extractLsb' 0 2 == 2 then OpRead.instr (.swcpyDec (EWord.ofBits hd p)) else OpRead.instr (.swcpyMerge (EWord.ofBits hd p))) := rfl

/-! ## Op words -/

theorem Laws.RoundTrip.nop (w : YSWord) : Statement (.nop w) :=
  opWord (h := w.hd) rfl rfl (fun _ hu => (readOp_sy hu).trans (congrArg (fun x => OpRead.instr (.nop x)) (YSWord.ofBits_toBits w)))
    rfl rfl

theorem Laws.RoundTrip.br (w : YTWord) : Statement (.br w) :=
  opWord (h := w.hd) rfl rfl (fun _ hu => (readOp_sy hu).trans (congrArg (fun x => OpRead.instr (.br x)) (YTWord.ofBits_toBits w)))
    rfl rfl

theorem Laws.RoundTrip.brp (w : YTWord) : Statement (.brp w) :=
  opWord (h := w.hd) rfl rfl (fun _ hu => (readOp_sy hu).trans (congrArg (fun x => OpRead.instr (.brp x)) (YTWord.ofBits_toBits w)))
    rfl rfl

theorem Laws.RoundTrip.brs (w : YTWord) : Statement (.brs w) :=
  opWord (h := w.hd) rfl rfl (fun _ hu => (readOp_sy hu).trans (congrArg (fun x => OpRead.instr (.brs x)) (YTWord.ofBits_toBits w)))
    rfl rfl

theorem Laws.RoundTrip.jmpi (w : YSWord) : Statement (.jmpi w) :=
  opWord (h := w.hd) rfl rfl (fun _ hu => (readOp_sy hu).trans (congrArg (fun x => OpRead.instr (.jmpi x)) (YSWord.ofBits_toBits w)))
    rfl rfl

theorem Laws.RoundTrip.call (w : YTWord) : Statement (.call w) :=
  opWord (h := w.hd) rfl rfl (fun _ hu => (readOp_sy hu).trans (congrArg (fun x => OpRead.instr (.call x)) (YTWord.ofBits_toBits w)))
    rfl rfl

theorem Laws.RoundTrip.ret (w : YSWord) : Statement (.ret w) :=
  opWord (h := w.hd) rfl rfl (fun _ hu => (readOp_sy hu).trans (congrArg (fun x => OpRead.instr (.ret x)) (YSWord.ofBits_toBits w)))
    rfl rfl

theorem Laws.RoundTrip.loop (w : YCWord) : Statement (.loop w) :=
  opWord (h := w.hd) rfl rfl (fun _ hu => (readOp_sy hu).trans (congrArg (fun x => OpRead.instr (.loop x)) (YCWord.ofBits_toBits w)))
    rfl rfl

theorem Laws.RoundTrip.rep (w : YCWord) : Statement (.rep w) :=
  opWord (h := w.hd) rfl rfl (fun _ hu => (readOp_sy hu).trans (congrArg (fun x => OpRead.instr (.rep x)) (YCWord.ofBits_toBits w)))
    rfl rfl

theorem Laws.RoundTrip.waitTok (w : YSWord) : Statement (.waitTok w) :=
  opWord (h := w.hd) rfl rfl (fun hw hu => (readOp_sy hu).trans (by
    have hc : w.fn = 0 := by
      replace hw : (w.ok false true false (w.scope == 0) (w.order == 0) (w.fn == 0)) = true := hw
      simp only [YSWord.ok, Bool.and_eq_true, beq_iff_eq] at hw
      exact hw.2
    rw [readSY_10, YSWord.ofBits_toBits]; simp [hc])) rfl rfl

theorem Laws.RoundTrip.waitCyc (w : YSWord) : Statement (.waitCyc w) :=
  opWord (h := w.hd) rfl rfl (fun hw hu => (readOp_sy hu).trans (by
    have hc : w.fn = 1 := by
      replace hw : (w.ok false true false (w.scope == 0) (w.order == 0) (w.fn == 1)) = true := hw
      simp only [YSWord.ok, Bool.and_eq_true, beq_iff_eq] at hw
      exact hw.2
    rw [readSY_10, YSWord.ofBits_toBits]; simp [hc])) rfl rfl

theorem Laws.RoundTrip.retire (w : YSWord) : Statement (.retire w) :=
  opWord (h := w.hd) rfl rfl (fun _ hu => (readOp_sy hu).trans (congrArg (fun x => OpRead.instr (.retire x)) (YSWord.ofBits_toBits w)))
    rfl rfl

theorem Laws.RoundTrip.yield (w : YSWord) : Statement (.yield w) :=
  opWord (h := w.hd) rfl rfl (fun _ hu => (readOp_sy hu).trans (congrArg (fun x => OpRead.instr (.yield x)) (YSWord.ofBits_toBits w)))
    rfl rfl

theorem Laws.RoundTrip.launch (w : YSWord) : Statement (.launch w) :=
  opWord (h := w.hd) rfl rfl (fun _ hu => (readOp_sy hu).trans (congrArg (fun x => OpRead.instr (.launch x)) (YSWord.ofBits_toBits w)))
    rfl rfl

theorem Laws.RoundTrip.enq (w : YSWord) : Statement (.enq w) :=
  opWord (h := w.hd) rfl rfl (fun _ hu => (readOp_sy hu).trans (congrArg (fun x => OpRead.instr (.enq x)) (YSWord.ofBits_toBits w)))
    rfl rfl

theorem Laws.RoundTrip.trap (w : YSWord) : Statement (.trap w) :=
  opWord (h := w.hd) rfl rfl (fun _ hu => (readOp_sy hu).trans (congrArg (fun x => OpRead.instr (.trap x)) (YSWord.ofBits_toBits w)))
    rfl rfl

theorem Laws.RoundTrip.tren (w : YSWord) : Statement (.tren w) :=
  opWord (h := w.hd) rfl rfl (fun _ hu => (readOp_sy hu).trans (congrArg (fun x => OpRead.instr (.tren x)) (YSWord.ofBits_toBits w)))
    rfl rfl

theorem Laws.RoundTrip.tret (w : YSWord) : Statement (.tret w) :=
  opWord (h := w.hd) rfl rfl (fun _ hu => (readOp_sy hu).trans (congrArg (fun x => OpRead.instr (.tret x)) (YSWord.ofBits_toBits w)))
    rfl rfl

theorem Laws.RoundTrip.barInit (w : YSWord) : Statement (.barInit w) :=
  opWord (h := w.hd) rfl rfl (fun _ hu => (readOp_sy hu).trans (congrArg (fun x => OpRead.instr (.barInit x)) (YSWord.ofBits_toBits w)))
    rfl rfl

theorem Laws.RoundTrip.barArrive (w : YSWord) : Statement (.barArrive w) :=
  opWord (h := w.hd) rfl rfl (fun _ hu => (readOp_sy hu).trans (congrArg (fun x => OpRead.instr (.barArrive x)) (YSWord.ofBits_toBits w)))
    rfl rfl

theorem Laws.RoundTrip.barWait (w : YSWord) : Statement (.barWait w) :=
  opWord (h := w.hd) rfl rfl (fun _ hu => (readOp_sy hu).trans (congrArg (fun x => OpRead.instr (.barWait x)) (YSWord.ofBits_toBits w)))
    rfl rfl

theorem Laws.RoundTrip.drain (w : YSWord) : Statement (.drain w) :=
  opWord (h := w.hd) rfl rfl (fun _ hu => (readOp_sy hu).trans (congrArg (fun x => OpRead.instr (.drain x)) (YSWord.ofBits_toBits w)))
    rfl rfl

theorem Laws.RoundTrip.fenceQ (w : YSWord) : Statement (.fenceQ w) :=
  opWord (h := w.hd) rfl rfl (fun _ hu => (readOp_sy hu).trans (congrArg (fun x => OpRead.instr (.fenceQ x)) (YSWord.ofBits_toBits w)))
    rfl rfl

theorem Laws.RoundTrip.mfc (w : YSWord) : Statement (.mfc w) :=
  opWord (h := w.hd) rfl rfl (fun _ hu => (readOp_sy hu).trans (congrArg (fun x => OpRead.instr (.mfc x)) (YSWord.ofBits_toBits w)))
    rfl rfl

theorem Laws.RoundTrip.mtc (w : YSWord) : Statement (.mtc w) :=
  opWord (h := w.hd) rfl rfl (fun hw hu => (readOp_sy hu).trans (by
    have hc : w.fn ≠ 0#20 ∧ w.fn ≠ 9#20 := by
      replace hw : (w.ok false true false (w.scope == 0) (w.order == 0) (w.fn.toNat < 256 && w.fn != 0 && w.fn != 9)) = true := hw
      simp only [YSWord.ok, Bool.and_eq_true, beq_iff_eq, bne_iff_ne, ne_eq] at hw
      exact ⟨hw.2.1.2, hw.2.2⟩
    rw [readSY_65, YSWord.ofBits_toBits]; simp [hc])) rfl rfl

theorem Laws.RoundTrip.mtcTstat (w : YSWord) : Statement (.mtcTstat w) :=
  opWord (h := w.hd) rfl rfl (fun hw hu => (readOp_sy hu).trans (by
    have hc : w.fn = 0 := by
      replace hw : (w.ok false true false (w.scope == 0) (w.order == 0) (w.fn == 0)) = true := hw
      simp only [YSWord.ok, Bool.and_eq_true, beq_iff_eq] at hw
      exact hw.2
    rw [readSY_65, YSWord.ofBits_toBits]; simp [hc])) rfl rfl

theorem Laws.RoundTrip.mtcWaitlim (w : YSWord) : Statement (.mtcWaitlim w) :=
  opWord (h := w.hd) rfl rfl (fun hw hu => (readOp_sy hu).trans (by
    have hc : w.fn = 9 := by
      replace hw : (w.ok false true false (w.scope == 0) (w.order == 0) (w.fn == 9)) = true := hw
      simp only [YSWord.ok, Bool.and_eq_true, beq_iff_eq] at hw
      exact hw.2
    rw [readSY_65, YSWord.ofBits_toBits]; simp [hc])) rfl rfl

theorem Laws.RoundTrip.stepC (w : YSWord) : Statement (.stepC w) :=
  opWord (h := w.hd) rfl rfl (fun _ hu => (readOp_sy hu).trans (congrArg (fun x => OpRead.instr (.stepC x)) (YSWord.ofBits_toBits w)))
    rfl rfl

theorem Laws.RoundTrip.scanStart (w : YSWord) : Statement (.scanStart w) :=
  opWord (h := w.hd) rfl rfl (fun _ hu => (readOp_sy hu).trans (congrArg (fun x => OpRead.instr (.scanStart x)) (YSWord.ofBits_toBits w)))
    rfl rfl

theorem Laws.RoundTrip.scanAbort (w : YSWord) : Statement (.scanAbort w) :=
  opWord (h := w.hd) rfl rfl (fun _ hu => (readOp_sy hu).trans (congrArg (fun x => OpRead.instr (.scanAbort x)) (YSWord.ofBits_toBits w)))
    rfl rfl

theorem Laws.RoundTrip.scanRead (w : YSWord) : Statement (.scanRead w) :=
  opWord (h := w.hd) rfl rfl (fun _ hu => (readOp_sy hu).trans (congrArg (fun x => OpRead.instr (.scanRead x)) (YSWord.ofBits_toBits w)))
    rfl rfl

theorem Laws.RoundTrip.cmapSet (w : YSWord) : Statement (.cmapSet w) :=
  opWord (h := w.hd) rfl rfl (fun _ hu => (readOp_sy hu).trans (congrArg (fun x => OpRead.instr (.cmapSet x)) (YSWord.ofBits_toBits w)))
    rfl rfl

theorem Laws.RoundTrip.sqpop (w : YSWord) : Statement (.sqpop w) :=
  opWord (h := w.hd) rfl rfl (fun _ hu => (readOp_sy hu).trans (congrArg (fun x => OpRead.instr (.sqpop x)) (YSWord.ofBits_toBits w)))
    rfl rfl

theorem Laws.RoundTrip.dbgHalt (w : YSWord) : Statement (.dbgHalt w) :=
  opWord (h := w.hd) rfl rfl (fun _ hu => (readOp_sy hu).trans (congrArg (fun x => OpRead.instr (.dbgHalt x)) (YSWord.ofBits_toBits w)))
    rfl rfl

theorem Laws.RoundTrip.dbgResume (w : YSWord) : Statement (.dbgResume w) :=
  opWord (h := w.hd) rfl rfl (fun _ hu => (readOp_sy hu).trans (congrArg (fun x => OpRead.instr (.dbgResume x)) (YSWord.ofBits_toBits w)))
    rfl rfl

theorem Laws.RoundTrip.add (w : RWord) : Statement (.add w) :=
  opWord (h := w.hd) rfl rfl (fun _ hu => (readOp_s hu rfl).trans (congrArg (fun x => OpRead.instr (.add x)) (RWord.ofBits_toBits w)))
    rfl rfl

theorem Laws.RoundTrip.sub (w : RWord) : Statement (.sub w) :=
  opWord (h := w.hd) rfl rfl (fun _ hu => (readOp_s hu rfl).trans (congrArg (fun x => OpRead.instr (.sub x)) (RWord.ofBits_toBits w)))
    rfl rfl

theorem Laws.RoundTrip.mul (w : RWord) : Statement (.mul w) :=
  opWord (h := w.hd) rfl rfl (fun _ hu => (readOp_s hu rfl).trans (congrArg (fun x => OpRead.instr (.mul x)) (RWord.ofBits_toBits w)))
    rfl rfl

theorem Laws.RoundTrip.mulh (w : RWord) : Statement (.mulh w) :=
  opWord (h := w.hd) rfl rfl (fun _ hu => (readOp_s hu rfl).trans (congrArg (fun x => OpRead.instr (.mulh x)) (RWord.ofBits_toBits w)))
    rfl rfl

theorem Laws.RoundTrip.div (w : RWord) : Statement (.div w) :=
  opWord (h := w.hd) rfl rfl (fun _ hu => (readOp_s0 hu).trans (congrArg (fun x => OpRead.instr (.div x)) (RWord.ofBits_toBits w)))
    rfl rfl

theorem Laws.RoundTrip.rem (w : RWord) : Statement (.rem w) :=
  opWord (h := w.hd) rfl rfl (fun _ hu => (readOp_s0 hu).trans (congrArg (fun x => OpRead.instr (.rem x)) (RWord.ofBits_toBits w)))
    rfl rfl

theorem Laws.RoundTrip.addi (w : IWord) : Statement (.addi w) :=
  opWord (h := w.hd) rfl rfl (fun _ hu => (readOp_s hu rfl).trans (congrArg (fun x => OpRead.instr (.addi x)) (IWord.ofBits_toBits w)))
    rfl rfl

theorem Laws.RoundTrip.movi (w : IWord) : Statement (.movi w) :=
  opWord (h := w.hd) rfl rfl (fun _ hu => (readOp_s hu rfl).trans (congrArg (fun x => OpRead.instr (.movi x)) (IWord.ofBits_toBits w)))
    rfl rfl

theorem Laws.RoundTrip.movl (w : LWord) : Statement (.movl w) :=
  opWord (h := w.hd) rfl rfl (fun _ hu => (readOp_s hu rfl).trans (congrArg (fun x => OpRead.instr (.movl x)) (LWord.ofBits_toBits w)))
    rfl rfl

theorem Laws.RoundTrip.mov (w : RWord) : Statement (.mov w) :=
  opWord (h := w.hd) rfl rfl (fun _ hu => (readOp_s hu rfl).trans (congrArg (fun x => OpRead.instr (.mov x)) (RWord.ofBits_toBits w)))
    rfl rfl

theorem Laws.RoundTrip.and (w : RWord) : Statement (.and w) :=
  opWord (h := w.hd) rfl rfl (fun _ hu => (readOp_s hu rfl).trans (congrArg (fun x => OpRead.instr (.and x)) (RWord.ofBits_toBits w)))
    rfl rfl

theorem Laws.RoundTrip.or (w : RWord) : Statement (.or w) :=
  opWord (h := w.hd) rfl rfl (fun _ hu => (readOp_s hu rfl).trans (congrArg (fun x => OpRead.instr (.or x)) (RWord.ofBits_toBits w)))
    rfl rfl

theorem Laws.RoundTrip.xor (w : RWord) : Statement (.xor w) :=
  opWord (h := w.hd) rfl rfl (fun _ hu => (readOp_s hu rfl).trans (congrArg (fun x => OpRead.instr (.xor x)) (RWord.ofBits_toBits w)))
    rfl rfl

theorem Laws.RoundTrip.andn (w : RWord) : Statement (.andn w) :=
  opWord (h := w.hd) rfl rfl (fun _ hu => (readOp_s hu rfl).trans (congrArg (fun x => OpRead.instr (.andn x)) (RWord.ofBits_toBits w)))
    rfl rfl

theorem Laws.RoundTrip.shl (w : RWord) : Statement (.shl w) :=
  opWord (h := w.hd) rfl rfl (fun _ hu => (readOp_s hu rfl).trans (congrArg (fun x => OpRead.instr (.shl x)) (RWord.ofBits_toBits w)))
    rfl rfl

theorem Laws.RoundTrip.shr (w : RWord) : Statement (.shr w) :=
  opWord (h := w.hd) rfl rfl (fun _ hu => (readOp_s hu rfl).trans (congrArg (fun x => OpRead.instr (.shr x)) (RWord.ofBits_toBits w)))
    rfl rfl

theorem Laws.RoundTrip.sra (w : RWord) : Statement (.sra w) :=
  opWord (h := w.hd) rfl rfl (fun _ hu => (readOp_s hu rfl).trans (congrArg (fun x => OpRead.instr (.sra x)) (RWord.ofBits_toBits w)))
    rfl rfl

theorem Laws.RoundTrip.rot (w : RWord) : Statement (.rot w) :=
  opWord (h := w.hd) rfl rfl (fun _ hu => (readOp_s hu rfl).trans (congrArg (fun x => OpRead.instr (.rot x)) (RWord.ofBits_toBits w)))
    rfl rfl

theorem Laws.RoundTrip.clz (w : RWord) : Statement (.clz w) :=
  opWord (h := w.hd) rfl rfl (fun _ hu => (readOp_s hu rfl).trans (congrArg (fun x => OpRead.instr (.clz x)) (RWord.ofBits_toBits w)))
    rfl rfl

theorem Laws.RoundTrip.popc (w : RWord) : Statement (.popc w) :=
  opWord (h := w.hd) rfl rfl (fun _ hu => (readOp_s hu rfl).trans (congrArg (fun x => OpRead.instr (.popc x)) (RWord.ofBits_toBits w)))
    rfl rfl

theorem Laws.RoundTrip.min (w : RWord) : Statement (.min w) :=
  opWord (h := w.hd) rfl rfl (fun _ hu => (readOp_s hu rfl).trans (congrArg (fun x => OpRead.instr (.min x)) (RWord.ofBits_toBits w)))
    rfl rfl

theorem Laws.RoundTrip.max (w : RWord) : Statement (.max w) :=
  opWord (h := w.hd) rfl rfl (fun _ hu => (readOp_s hu rfl).trans (congrArg (fun x => OpRead.instr (.max x)) (RWord.ofBits_toBits w)))
    rfl rfl

theorem Laws.RoundTrip.sel (w : RWord) : Statement (.sel w) :=
  opWord (h := w.hd) rfl rfl (fun _ hu => (readOp_s hu rfl).trans (congrArg (fun x => OpRead.instr (.sel x)) (RWord.ofBits_toBits w)))
    rfl rfl

theorem Laws.RoundTrip.cmpS (w : RWord) : Statement (.cmpS w) :=
  opWord (h := w.hd) rfl rfl (fun _ hu => (readOp_s hu rfl).trans (congrArg (fun x => OpRead.instr (.cmpS x)) (RWord.ofBits_toBits w)))
    rfl rfl

theorem Laws.RoundTrip.cmpP (w : RWord) : Statement (.cmpP w) :=
  opWord (h := w.hd) rfl rfl (fun _ hu => (readOp_s hu rfl).trans (congrArg (fun x => OpRead.instr (.cmpP x)) (RWord.ofBits_toBits w)))
    rfl rfl

theorem Laws.RoundTrip.aadd (w : IWord) : Statement (.aadd w) :=
  opWord (h := w.hd) rfl rfl (fun _ hu => (readOp_s hu rfl).trans (congrArg (fun x => OpRead.instr (.aadd x)) (IWord.ofBits_toBits w)))
    rfl rfl

theorem Laws.RoundTrip.ainc (w : IWord) : Statement (.ainc w) :=
  opWord (h := w.hd) rfl rfl (fun _ hu => (readOp_s hu rfl).trans (congrArg (fun x => OpRead.instr (.ainc x)) (IWord.ofBits_toBits w)))
    rfl rfl

theorem Laws.RoundTrip.amod (w : IWord) : Statement (.amod w) :=
  opWord (h := w.hd) rfl rfl (fun _ hu => (readOp_s hu rfl).trans (congrArg (fun x => OpRead.instr (.amod x)) (IWord.ofBits_toBits w)))
    rfl rfl

theorem Laws.RoundTrip.asetA (w : RWord) : Statement (.asetA w) :=
  opWord (h := w.hd) rfl rfl (fun hw hu => (readOp_s hu rfl).trans (by
    have hc : w.fn = 0 := by
      replace hw : (w.ok .low16 .scalar .zero .zero [0] 0 (w.fn == 0) 0) = true := hw
      simp only [RWord.ok, Bool.and_eq_true, beq_iff_eq] at hw
      exact hw.1.2
    rw [readS_33, RWord.ofBits_toBits]; simp [hc])) rfl rfl

theorem Laws.RoundTrip.asetS (w : RWord) : Statement (.asetS w) :=
  opWord (h := w.hd) rfl rfl (fun hw hu => (readOp_s hu rfl).trans (by
    have hc : w.fn = 1 := by
      replace hw : (w.ok .scalar .low16 .zero .zero [0] 0 (w.fn == 1) 0) = true := hw
      simp only [RWord.ok, Bool.and_eq_true, beq_iff_eq] at hw
      exact hw.1.2
    rw [readS_33, RWord.ofBits_toBits]; simp [hc])) rfl rfl

theorem Laws.RoundTrip.fadd (w : RWord) : Statement (.fadd w) :=
  opWord (h := w.hd) rfl rfl (fun _ hu => (readOp_s hu rfl).trans (congrArg (fun x => OpRead.instr (.fadd x)) (RWord.ofBits_toBits w)))
    rfl rfl

theorem Laws.RoundTrip.fsub (w : RWord) : Statement (.fsub w) :=
  opWord (h := w.hd) rfl rfl (fun _ hu => (readOp_s hu rfl).trans (congrArg (fun x => OpRead.instr (.fsub x)) (RWord.ofBits_toBits w)))
    rfl rfl

theorem Laws.RoundTrip.fmul (w : RWord) : Statement (.fmul w) :=
  opWord (h := w.hd) rfl rfl (fun _ hu => (readOp_s hu rfl).trans (congrArg (fun x => OpRead.instr (.fmul x)) (RWord.ofBits_toBits w)))
    rfl rfl

theorem Laws.RoundTrip.fma (w : RWord) : Statement (.fma w) :=
  opWord (h := w.hd) rfl rfl (fun _ hu => (readOp_s hu rfl).trans (congrArg (fun x => OpRead.instr (.fma x)) (RWord.ofBits_toBits w)))
    rfl rfl

theorem Laws.RoundTrip.fmin (w : RWord) : Statement (.fmin w) :=
  opWord (h := w.hd) rfl rfl (fun _ hu => (readOp_s hu rfl).trans (congrArg (fun x => OpRead.instr (.fmin x)) (RWord.ofBits_toBits w)))
    rfl rfl

theorem Laws.RoundTrip.fmax (w : RWord) : Statement (.fmax w) :=
  opWord (h := w.hd) rfl rfl (fun _ hu => (readOp_s hu rfl).trans (congrArg (fun x => OpRead.instr (.fmax x)) (RWord.ofBits_toBits w)))
    rfl rfl

theorem Laws.RoundTrip.fcmpS (w : RWord) : Statement (.fcmpS w) :=
  opWord (h := w.hd) rfl rfl (fun _ hu => (readOp_s hu rfl).trans (congrArg (fun x => OpRead.instr (.fcmpS x)) (RWord.ofBits_toBits w)))
    rfl rfl

theorem Laws.RoundTrip.fcmpP (w : RWord) : Statement (.fcmpP w) :=
  opWord (h := w.hd) rfl rfl (fun _ hu => (readOp_s hu rfl).trans (congrArg (fun x => OpRead.instr (.fcmpP x)) (RWord.ofBits_toBits w)))
    rfl rfl

theorem Laws.RoundTrip.fcvt (w : RWord) : Statement (.fcvt w) :=
  opWord (h := w.hd) rfl rfl (fun _ hu => (readOp_s hu rfl).trans (congrArg (fun x => OpRead.instr (.fcvt x)) (RWord.ofBits_toBits w)))
    rfl rfl

theorem Laws.RoundTrip.pand (w : RWord) : Statement (.pand w) :=
  opWord (h := w.hd) rfl rfl (fun _ hu => (readOp_s hu rfl).trans (congrArg (fun x => OpRead.instr (.pand x)) (RWord.ofBits_toBits w)))
    rfl rfl

theorem Laws.RoundTrip.por (w : RWord) : Statement (.por w) :=
  opWord (h := w.hd) rfl rfl (fun _ hu => (readOp_s hu rfl).trans (congrArg (fun x => OpRead.instr (.por x)) (RWord.ofBits_toBits w)))
    rfl rfl

theorem Laws.RoundTrip.pxor (w : RWord) : Statement (.pxor w) :=
  opWord (h := w.hd) rfl rfl (fun _ hu => (readOp_s hu rfl).trans (congrArg (fun x => OpRead.instr (.pxor x)) (RWord.ofBits_toBits w)))
    rfl rfl

theorem Laws.RoundTrip.pnot (w : RWord) : Statement (.pnot w) :=
  opWord (h := w.hd) rfl rfl (fun _ hu => (readOp_s hu rfl).trans (congrArg (fun x => OpRead.instr (.pnot x)) (RWord.ofBits_toBits w)))
    rfl rfl

theorem Laws.RoundTrip.pmov (w : RWord) : Statement (.pmov w) :=
  opWord (h := w.hd) rfl rfl (fun _ hu => (readOp_s hu rfl).trans (congrArg (fun x => OpRead.instr (.pmov x)) (RWord.ofBits_toBits w)))
    rfl rfl

theorem Laws.RoundTrip.ldS (w : MWord) : Statement (.ldS w) :=
  opWord (h := w.hd) rfl rfl (fun _ hu => (readOp_ld hu).trans (congrArg (fun x => OpRead.instr (.ldS x)) (MWord.ofBits_toBits w)))
    rfl rfl

theorem Laws.RoundTrip.ldV (w : MWord) : Statement (.ldV w) :=
  opWord (h := w.hd) rfl rfl (fun _ hu => (readOp_ld hu).trans (congrArg (fun x => OpRead.instr (.ldV x)) (MWord.ofBits_toBits w)))
    rfl rfl

theorem Laws.RoundTrip.ldVB (w : MWord) : Statement (.ldVB w) :=
  opWord (h := w.hd) rfl rfl (fun _ hu => (readOp_ld hu).trans (congrArg (fun x => OpRead.instr (.ldVB x)) (MWord.ofBits_toBits w)))
    rfl rfl

theorem Laws.RoundTrip.ldVG (w : MWord) : Statement (.ldVG w) :=
  opWord (h := w.hd) rfl rfl (fun _ hu => (readOp_ld hu).trans (congrArg (fun x => OpRead.instr (.ldVG x)) (MWord.ofBits_toBits w)))
    rfl rfl

theorem Laws.RoundTrip.ldVQ (w : MWord) : Statement (.ldVQ w) :=
  opWord (h := w.hd) rfl rfl (fun _ hu => (readOp_ld hu).trans (congrArg (fun x => OpRead.instr (.ldVQ x)) (MWord.ofBits_toBits w)))
    rfl rfl

theorem Laws.RoundTrip.ldt (w : MWord) : Statement (.ldt w) :=
  opWord (h := w.hd) rfl rfl (fun _ hu => (readOp_ld hu).trans (congrArg (fun x => OpRead.instr (.ldt x)) (MWord.ofBits_toBits w)))
    rfl rfl

theorem Laws.RoundTrip.ldSW (w : MWord) : Statement (.ldSW w) :=
  opWord (h := w.hd) rfl rfl (fun _ hu => (readOp_ld hu).trans (congrArg (fun x => OpRead.instr (.ldSW x)) (MWord.ofBits_toBits w)))
    rfl rfl

theorem Laws.RoundTrip.amoAdd (w : MWord) : Statement (.amoAdd w) :=
  opWord (h := w.hd) rfl rfl (fun _ hu => (readOp_ld hu).trans (congrArg (fun x => OpRead.instr (.amoAdd x)) (MWord.ofBits_toBits w)))
    rfl rfl

theorem Laws.RoundTrip.amoMin (w : MWord) : Statement (.amoMin w) :=
  opWord (h := w.hd) rfl rfl (fun _ hu => (readOp_ld hu).trans (congrArg (fun x => OpRead.instr (.amoMin x)) (MWord.ofBits_toBits w)))
    rfl rfl

theorem Laws.RoundTrip.amoMax (w : MWord) : Statement (.amoMax w) :=
  opWord (h := w.hd) rfl rfl (fun _ hu => (readOp_ld hu).trans (congrArg (fun x => OpRead.instr (.amoMax x)) (MWord.ofBits_toBits w)))
    rfl rfl

theorem Laws.RoundTrip.amoXchg (w : MWord) : Statement (.amoXchg w) :=
  opWord (h := w.hd) rfl rfl (fun _ hu => (readOp_ld hu).trans (congrArg (fun x => OpRead.instr (.amoXchg x)) (MWord.ofBits_toBits w)))
    rfl rfl

theorem Laws.RoundTrip.amoCas (w : MWord) : Statement (.amoCas w) :=
  opWord (h := w.hd) rfl rfl (fun _ hu => (readOp_ld hu).trans (congrArg (fun x => OpRead.instr (.amoCas x)) (MWord.ofBits_toBits w)))
    rfl rfl

theorem Laws.RoundTrip.patld (w : MWord) : Statement (.patld w) :=
  opWord (h := w.hd) rfl rfl (fun _ hu => (readOp_ld hu).trans (congrArg (fun x => OpRead.instr (.patld x)) (MWord.ofBits_toBits w)))
    rfl rfl

theorem Laws.RoundTrip.stS (w : MWord) : Statement (.stS w) :=
  opWord (h := w.hd) rfl rfl (fun _ hu => (readOp_st hu).trans (congrArg (fun x => OpRead.instr (.stS x)) (MWord.ofBits_toBits w)))
    rfl rfl

theorem Laws.RoundTrip.stV (w : MWord) : Statement (.stV w) :=
  opWord (h := w.hd) rfl rfl (fun _ hu => (readOp_st hu).trans (congrArg (fun x => OpRead.instr (.stV x)) (MWord.ofBits_toBits w)))
    rfl rfl

theorem Laws.RoundTrip.stVS (w : MWord) : Statement (.stVS w) :=
  opWord (h := w.hd) rfl rfl (fun _ hu => (readOp_st hu).trans (congrArg (fun x => OpRead.instr (.stVS x)) (MWord.ofBits_toBits w)))
    rfl rfl

theorem Laws.RoundTrip.stVC (w : MWord) : Statement (.stVC w) :=
  opWord (h := w.hd) rfl rfl (fun _ hu => (readOp_st hu).trans (congrArg (fun x => OpRead.instr (.stVC x)) (MWord.ofBits_toBits w)))
    rfl rfl

theorem Laws.RoundTrip.stSW (w : MWord) : Statement (.stSW w) :=
  opWord (h := w.hd) rfl rfl (fun _ hu => (readOp_st hu).trans (congrArg (fun x => OpRead.instr (.stSW x)) (MWord.ofBits_toBits w)))
    rfl rfl

theorem Laws.RoundTrip.vadd (w : RWord) : Statement (.vadd w) :=
  opWord (h := w.hd) rfl rfl (fun _ hu => (readOp_v hu).trans (congrArg (fun x => OpRead.instr (.vadd x)) (RWord.ofBits_toBits w)))
    rfl rfl

theorem Laws.RoundTrip.vsub (w : RWord) : Statement (.vsub w) :=
  opWord (h := w.hd) rfl rfl (fun _ hu => (readOp_v hu).trans (congrArg (fun x => OpRead.instr (.vsub x)) (RWord.ofBits_toBits w)))
    rfl rfl

theorem Laws.RoundTrip.vadds (w : RWord) : Statement (.vadds w) :=
  opWord (h := w.hd) rfl rfl (fun _ hu => (readOp_v hu).trans (congrArg (fun x => OpRead.instr (.vadds x)) (RWord.ofBits_toBits w)))
    rfl rfl

theorem Laws.RoundTrip.vsubs (w : RWord) : Statement (.vsubs w) :=
  opWord (h := w.hd) rfl rfl (fun _ hu => (readOp_v hu).trans (congrArg (fun x => OpRead.instr (.vsubs x)) (RWord.ofBits_toBits w)))
    rfl rfl

theorem Laws.RoundTrip.vmul (w : RWord) : Statement (.vmul w) :=
  opWord (h := w.hd) rfl rfl (fun _ hu => (readOp_v hu).trans (congrArg (fun x => OpRead.instr (.vmul x)) (RWord.ofBits_toBits w)))
    rfl rfl

theorem Laws.RoundTrip.vmulh (w : RWord) : Statement (.vmulh w) :=
  opWord (h := w.hd) rfl rfl (fun _ hu => (readOp_v hu).trans (congrArg (fun x => OpRead.instr (.vmulh x)) (RWord.ofBits_toBits w)))
    rfl rfl

theorem Laws.RoundTrip.vmad (w : RWord) : Statement (.vmad w) :=
  opWord (h := w.hd) rfl rfl (fun _ hu => (readOp_v hu).trans (congrArg (fun x => OpRead.instr (.vmad x)) (RWord.ofBits_toBits w)))
    rfl rfl

theorem Laws.RoundTrip.vdot4 (w : RWord) : Statement (.vdot4 w) :=
  opWord (h := w.hd) rfl rfl (fun _ hu => (readOp_v hu).trans (congrArg (fun x => OpRead.instr (.vdot4 x)) (RWord.ofBits_toBits w)))
    rfl rfl

theorem Laws.RoundTrip.vand (w : RWord) : Statement (.vand w) :=
  opWord (h := w.hd) rfl rfl (fun _ hu => (readOp_v hu).trans (congrArg (fun x => OpRead.instr (.vand x)) (RWord.ofBits_toBits w)))
    rfl rfl

theorem Laws.RoundTrip.vor (w : RWord) : Statement (.vor w) :=
  opWord (h := w.hd) rfl rfl (fun _ hu => (readOp_v hu).trans (congrArg (fun x => OpRead.instr (.vor x)) (RWord.ofBits_toBits w)))
    rfl rfl

theorem Laws.RoundTrip.vxor (w : RWord) : Statement (.vxor w) :=
  opWord (h := w.hd) rfl rfl (fun _ hu => (readOp_v hu).trans (congrArg (fun x => OpRead.instr (.vxor x)) (RWord.ofBits_toBits w)))
    rfl rfl

theorem Laws.RoundTrip.vshl (w : RWord) : Statement (.vshl w) :=
  opWord (h := w.hd) rfl rfl (fun _ hu => (readOp_v hu).trans (congrArg (fun x => OpRead.instr (.vshl x)) (RWord.ofBits_toBits w)))
    rfl rfl

theorem Laws.RoundTrip.vshr (w : RWord) : Statement (.vshr w) :=
  opWord (h := w.hd) rfl rfl (fun _ hu => (readOp_v hu).trans (congrArg (fun x => OpRead.instr (.vshr x)) (RWord.ofBits_toBits w)))
    rfl rfl

theorem Laws.RoundTrip.vsra (w : RWord) : Statement (.vsra w) :=
  opWord (h := w.hd) rfl rfl (fun _ hu => (readOp_v hu).trans (congrArg (fun x => OpRead.instr (.vsra x)) (RWord.ofBits_toBits w)))
    rfl rfl

theorem Laws.RoundTrip.vmin (w : RWord) : Statement (.vmin w) :=
  opWord (h := w.hd) rfl rfl (fun _ hu => (readOp_v hu).trans (congrArg (fun x => OpRead.instr (.vmin x)) (RWord.ofBits_toBits w)))
    rfl rfl

theorem Laws.RoundTrip.vmax (w : RWord) : Statement (.vmax w) :=
  opWord (h := w.hd) rfl rfl (fun _ hu => (readOp_v hu).trans (congrArg (fun x => OpRead.instr (.vmax x)) (RWord.ofBits_toBits w)))
    rfl rfl

theorem Laws.RoundTrip.vabs (w : RWord) : Statement (.vabs w) :=
  opWord (h := w.hd) rfl rfl (fun _ hu => (readOp_v hu).trans (congrArg (fun x => OpRead.instr (.vabs x)) (RWord.ofBits_toBits w)))
    rfl rfl

theorem Laws.RoundTrip.vneg (w : RWord) : Statement (.vneg w) :=
  opWord (h := w.hd) rfl rfl (fun _ hu => (readOp_v hu).trans (congrArg (fun x => OpRead.instr (.vneg x)) (RWord.ofBits_toBits w)))
    rfl rfl

theorem Laws.RoundTrip.vcmp (w : RWord) : Statement (.vcmp w) :=
  opWord (h := w.hd) rfl rfl (fun _ hu => (readOp_v hu).trans (congrArg (fun x => OpRead.instr (.vcmp x)) (RWord.ofBits_toBits w)))
    rfl rfl

theorem Laws.RoundTrip.vsel (w : RWord) : Statement (.vsel w) :=
  opWord (h := w.hd) rfl rfl (fun _ hu => (readOp_v hu).trans (congrArg (fun x => OpRead.instr (.vsel x)) (RWord.ofBits_toBits w)))
    rfl rfl

theorem Laws.RoundTrip.vmov (w : RWord) : Statement (.vmov w) :=
  opWord (h := w.hd) rfl rfl (fun _ hu => (readOp_v hu).trans (congrArg (fun x => OpRead.instr (.vmov x)) (RWord.ofBits_toBits w)))
    rfl rfl

theorem Laws.RoundTrip.vbcastS (w : RWord) : Statement (.vbcastS w) :=
  opWord (h := w.hd) rfl rfl (fun hw hu => (readOp_v hu).trans (by
    have hc : w.fn = 0 := by
      replace hw : (w.ok .vreal .scalar .zero .zero allTys 0 (w.fn == 0) 0) = true := hw
      simp only [RWord.ok, Bool.and_eq_true, beq_iff_eq] at hw
      exact hw.1.2
    rw [readV_27, RWord.ofBits_toBits]; simp [hc])) rfl rfl

theorem Laws.RoundTrip.vbcastE (w : RWord) : Statement (.vbcastE w) :=
  opWord (h := w.hd) rfl rfl (fun hw hu => (readOp_v hu).trans (by
    have hc : w.fn.getLsbD 12 = true := by
      replace hw : (w.ok .vreal .vsrc .zero .zero allTys 0 (w.fn.getLsbD 12 && w.fn.extractLsb' 9 3 == 0 && (w.fn.extractLsb' 0 9).toNat * tyWidth w.ty < 4096) (patTy w.ty)) = true := hw
      simp only [RWord.ok, Bool.and_eq_true, beq_iff_eq] at hw
      exact hw.1.2.1.1
    rw [readV_27, RWord.ofBits_toBits]; simp [hc])) rfl rfl

theorem Laws.RoundTrip.vfadd (w : RWord) : Statement (.vfadd w) :=
  opWord (h := w.hd) rfl rfl (fun _ hu => (readOp_v hu).trans (congrArg (fun x => OpRead.instr (.vfadd x)) (RWord.ofBits_toBits w)))
    rfl rfl

theorem Laws.RoundTrip.vfsub (w : RWord) : Statement (.vfsub w) :=
  opWord (h := w.hd) rfl rfl (fun _ hu => (readOp_v hu).trans (congrArg (fun x => OpRead.instr (.vfsub x)) (RWord.ofBits_toBits w)))
    rfl rfl

theorem Laws.RoundTrip.vfmul (w : RWord) : Statement (.vfmul w) :=
  opWord (h := w.hd) rfl rfl (fun _ hu => (readOp_v hu).trans (congrArg (fun x => OpRead.instr (.vfmul x)) (RWord.ofBits_toBits w)))
    rfl rfl

theorem Laws.RoundTrip.vfma (w : RWord) : Statement (.vfma w) :=
  opWord (h := w.hd) rfl rfl (fun _ hu => (readOp_v hu).trans (congrArg (fun x => OpRead.instr (.vfma x)) (RWord.ofBits_toBits w)))
    rfl rfl

theorem Laws.RoundTrip.vfmin (w : RWord) : Statement (.vfmin w) :=
  opWord (h := w.hd) rfl rfl (fun _ hu => (readOp_v hu).trans (congrArg (fun x => OpRead.instr (.vfmin x)) (RWord.ofBits_toBits w)))
    rfl rfl

theorem Laws.RoundTrip.vfmax (w : RWord) : Statement (.vfmax w) :=
  opWord (h := w.hd) rfl rfl (fun _ hu => (readOp_v hu).trans (congrArg (fun x => OpRead.instr (.vfmax x)) (RWord.ofBits_toBits w)))
    rfl rfl

theorem Laws.RoundTrip.vfabs (w : RWord) : Statement (.vfabs w) :=
  opWord (h := w.hd) rfl rfl (fun _ hu => (readOp_v hu).trans (congrArg (fun x => OpRead.instr (.vfabs x)) (RWord.ofBits_toBits w)))
    rfl rfl

theorem Laws.RoundTrip.vfcmp (w : RWord) : Statement (.vfcmp w) :=
  opWord (h := w.hd) rfl rfl (fun _ hu => (readOp_v hu).trans (congrArg (fun x => OpRead.instr (.vfcmp x)) (RWord.ofBits_toBits w)))
    rfl rfl

theorem Laws.RoundTrip.vcvt (w : RWord) : Statement (.vcvt w) :=
  opWord (h := w.hd) rfl rfl (fun _ hu => (readOp_v hu).trans (congrArg (fun x => OpRead.instr (.vcvt x)) (RWord.ofBits_toBits w)))
    rfl rfl

theorem Laws.RoundTrip.vpack (w : RWord) : Statement (.vpack w) :=
  opWord (h := w.hd) rfl rfl (fun _ hu => (readOp_v hu).trans (congrArg (fun x => OpRead.instr (.vpack x)) (RWord.ofBits_toBits w)))
    rfl rfl

theorem Laws.RoundTrip.vunpk (w : RWord) : Statement (.vunpk w) :=
  opWord (h := w.hd) rfl rfl (fun _ hu => (readOp_v hu).trans (congrArg (fun x => OpRead.instr (.vunpk x)) (RWord.ofBits_toBits w)))
    rfl rfl

theorem Laws.RoundTrip.vnarrow (w : RWord) : Statement (.vnarrow w) :=
  opWord (h := w.hd) rfl rfl (fun _ hu => (readOp_v hu).trans (congrArg (fun x => OpRead.instr (.vnarrow x)) (RWord.ofBits_toBits w)))
    rfl rfl

theorem Laws.RoundTrip.vredAdd (w : RWord) : Statement (.vredAdd w) :=
  opWord (h := w.hd) rfl rfl (fun _ hu => (readOp_v hu).trans (congrArg (fun x => OpRead.instr (.vredAdd x)) (RWord.ofBits_toBits w)))
    rfl rfl

theorem Laws.RoundTrip.vredMax (w : RWord) : Statement (.vredMax w) :=
  opWord (h := w.hd) rfl rfl (fun _ hu => (readOp_v hu).trans (congrArg (fun x => OpRead.instr (.vredMax x)) (RWord.ofBits_toBits w)))
    rfl rfl

theorem Laws.RoundTrip.vredMin (w : RWord) : Statement (.vredMin w) :=
  opWord (h := w.hd) rfl rfl (fun _ hu => (readOp_v hu).trans (congrArg (fun x => OpRead.instr (.vredMin x)) (RWord.ofBits_toBits w)))
    rfl rfl

theorem Laws.RoundTrip.vscanAdd (w : RWord) : Statement (.vscanAdd w) :=
  opWord (h := w.hd) rfl rfl (fun _ hu => (readOp_v hu).trans (congrArg (fun x => OpRead.instr (.vscanAdd x)) (RWord.ofBits_toBits w)))
    rfl rfl

theorem Laws.RoundTrip.vshuf (w : RWord) : Statement (.vshuf w) :=
  opWord (h := w.hd) rfl rfl (fun _ hu => (readOp_v hu).trans (congrArg (fun x => OpRead.instr (.vshuf x)) (RWord.ofBits_toBits w)))
    rfl rfl

theorem Laws.RoundTrip.patswap (w : RWord) : Statement (.patswap w) :=
  opWord (h := w.hd) rfl rfl (fun _ hu => (readOp_v hu).trans (congrArg (fun x => OpRead.instr (.patswap x)) (RWord.ofBits_toBits w)))
    rfl rfl

theorem Laws.RoundTrip.vperm (w : RWord) : Statement (.vperm w) :=
  opWord (h := w.hd) rfl rfl (fun _ hu => (readOp_v hu).trans (congrArg (fun x => OpRead.instr (.vperm x)) (RWord.ofBits_toBits w)))
    rfl rfl

theorem Laws.RoundTrip.vcompact (w : RWord) : Statement (.vcompact w) :=
  opWord (h := w.hd) rfl rfl (fun _ hu => (readOp_v hu).trans (congrArg (fun x => OpRead.instr (.vcompact x)) (RWord.ofBits_toBits w)))
    rfl rfl

theorem Laws.RoundTrip.vexpand (w : RWord) : Statement (.vexpand w) :=
  opWord (h := w.hd) rfl rfl (fun _ hu => (readOp_v hu).trans (congrArg (fun x => OpRead.instr (.vexpand x)) (RWord.ofBits_toBits w)))
    rfl rfl

theorem Laws.RoundTrip.vmapSet (w : RWord) : Statement (.vmapSet w) :=
  opWord (h := w.hd) rfl rfl (fun hw hu => (readOp_v hu).trans (by
    have hc : w.fn.extractLsb' 0 3 = 0 := by
      replace hw : (w.vmapOk 0 0 && w.fn.extractLsb' 3 4 == 0) = true := hw
      simp only [RWord.vmapOk, Bool.and_eq_true, beq_iff_eq] at hw
      exact hw.1.1.1.2
    rw [readV_72, RWord.ofBits_toBits]; simp [hc])) rfl rfl

theorem Laws.RoundTrip.vmapCopy (w : RWord) : Statement (.vmapCopy w) :=
  opWord (h := w.hd) rfl rfl (fun hw hu => (readOp_v hu).trans (by
    have hc : w.fn.extractLsb' 0 3 = 1 := by
      replace hw : (w.vmapOk 1 0 && w.fn.extractLsb' 3 4 == 0) = true := hw
      simp only [RWord.vmapOk, Bool.and_eq_true, beq_iff_eq] at hw
      exact hw.1.1.1.2
    rw [readV_72, RWord.ofBits_toBits]; simp [hc])) rfl rfl

theorem Laws.RoundTrip.vmapOff (w : RWord) : Statement (.vmapOff w) :=
  opWord (h := w.hd) rfl rfl (fun hw hu => (readOp_v hu).trans (by
    have hc : w.fn.extractLsb' 0 3 = 2 := by
      replace hw : (w.vmapOk 2 24 && w.fn.extractLsb' 5 2 == 0) = true := hw
      simp only [RWord.vmapOk, Bool.and_eq_true, beq_iff_eq] at hw
      exact hw.1.1.1.2
    rw [readV_72, RWord.ofBits_toBits]; simp [hc])) rfl rfl

theorem Laws.RoundTrip.vmapSlice (w : RWord) : Statement (.vmapSlice w) :=
  opWord (h := w.hd) rfl rfl (fun hw hu => (readOp_v hu).trans (by
    have hc : w.fn.extractLsb' 0 3 = 3 := by
      replace hw : (w.vmapOk 3 48 && w.fn.extractLsb' 5 2 == 0) = true := hw
      simp only [RWord.vmapOk, Bool.and_eq_true, beq_iff_eq] at hw
      exact hw.1.1.1.2
    rw [readV_72, RWord.ofBits_toBits]; simp [hc])) rfl rfl

theorem Laws.RoundTrip.vmapTr (w : RWord) : Statement (.vmapTr w) :=
  opWord (h := w.hd) rfl rfl (fun hw hu => (readOp_v hu).trans (by
    have hc : w.fn.extractLsb' 0 3 = 4 := by
      replace hw : (w.vmapOk 4 0) = true := hw
      simp only [RWord.vmapOk, Bool.and_eq_true, beq_iff_eq] at hw
      exact hw.1.1.2
    rw [readV_72, RWord.ofBits_toBits]; simp [hc])) rfl rfl

theorem Laws.RoundTrip.vmapNone (w : RWord) : Statement (.vmapNone w) :=
  opWord (h := w.hd) rfl rfl (fun hw hu => (readOp_v hu).trans (by
    have hc : w.fn.extractLsb' 0 3 = 5 := by
      replace hw : (w.vmapOk 5 0 && w.a == 0 && w.fn.extractLsb' 3 4 == 0) = true := hw
      simp only [RWord.vmapOk, Bool.and_eq_true, beq_iff_eq] at hw
      exact hw.1.1.1.1.2
    rw [readV_72, RWord.ofBits_toBits]; simp [hc])) rfl rfl

theorem Laws.RoundTrip.vmapTag (w : RWord) : Statement (.vmapTag w) :=
  opWord (h := w.hd) rfl rfl (fun hw hu => (readOp_v hu).trans (by
    have hc : w.fn.extractLsb' 0 3 = 6 := by
      replace hw : (w.vmapOk 6 16 && w.fn.extractLsb' 3 4 == 0) = true := hw
      simp only [RWord.vmapOk, Bool.and_eq_true, beq_iff_eq] at hw
      exact hw.1.1.1.2
    rw [readV_72, RWord.ofBits_toBits]; simp [hc])) rfl rfl

theorem Laws.RoundTrip.vcoord (w : RWord) : Statement (.vcoord w) :=
  opWord (h := w.hd) rfl rfl (fun _ hu => (readOp_v hu).trans (congrArg (fun x => OpRead.instr (.vcoord x)) (RWord.ofBits_toBits w)))
    rfl rfl

theorem Laws.RoundTrip.vnoise (w : RWord) : Statement (.vnoise w) :=
  opWord (h := w.hd) rfl rfl (fun _ hu => (readOp_v hu).trans (congrArg (fun x => OpRead.instr (.vnoise x)) (RWord.ofBits_toBits w)))
    rfl rfl

theorem Laws.RoundTrip.vmaskcCausal (w : RWord) : Statement (.vmaskcCausal w) :=
  opWord (h := w.hd) rfl rfl (fun hw hu => (readOp_v hu).trans (by
    have hc : w.fn.extractLsb' 5 3 = 0 := by
      replace hw : (w.vmaskcOk 0) = true := hw
      simp only [RWord.vmaskcOk, RWord.ok, Bool.and_eq_true, beq_iff_eq] at hw
      exact hw.1.1.1.1.1.2.1
    rw [readV_75, RWord.ofBits_toBits]; simp [hc])) rfl rfl

theorem Laws.RoundTrip.vmaskcBand (w : RWord) : Statement (.vmaskcBand w) :=
  opWord (h := w.hd) rfl rfl (fun hw hu => (readOp_v hu).trans (by
    have hc : w.fn.extractLsb' 5 3 = 1 := by
      replace hw : (w.vmaskcOk 1) = true := hw
      simp only [RWord.vmaskcOk, RWord.ok, Bool.and_eq_true, beq_iff_eq] at hw
      exact hw.1.1.1.1.1.2.1
    rw [readV_75, RWord.ofBits_toBits]; simp [hc])) rfl rfl

theorem Laws.RoundTrip.vmaskcWin (w : RWord) : Statement (.vmaskcWin w) :=
  opWord (h := w.hd) rfl rfl (fun hw hu => (readOp_v hu).trans (by
    have hc : w.fn.extractLsb' 5 3 = 2 := by
      replace hw : (w.vmaskcOk 2) = true := hw
      simp only [RWord.vmaskcOk, RWord.ok, Bool.and_eq_true, beq_iff_eq] at hw
      exact hw.1.1.1.1.1.2.1
    rw [readV_75, RWord.ofBits_toBits]; simp [hc])) rfl rfl

theorem Laws.RoundTrip.vmaskcLt (w : RWord) : Statement (.vmaskcLt w) :=
  opWord (h := w.hd) rfl rfl (fun hw hu => (readOp_v hu).trans (by
    have hc : w.fn.extractLsb' 5 3 = 3 := by
      replace hw : (w.vmaskcOk 3) = true := hw
      simp only [RWord.vmaskcOk, RWord.ok, Bool.and_eq_true, beq_iff_eq] at hw
      exact hw.1.1.1.1.1.2.1
    rw [readV_75, RWord.ofBits_toBits]; simp [hc])) rfl rfl

theorem Laws.RoundTrip.vmaskcGe (w : RWord) : Statement (.vmaskcGe w) :=
  opWord (h := w.hd) rfl rfl (fun hw hu => (readOp_v hu).trans (by
    have hc : w.fn.extractLsb' 5 3 = 4 := by
      replace hw : (w.vmaskcOk 4) = true := hw
      simp only [RWord.vmaskcOk, RWord.ok, Bool.and_eq_true, beq_iff_eq] at hw
      exact hw.1.1.1.1.1.2.1
    rw [readV_75, RWord.ofBits_toBits]; simp [hc])) rfl rfl

theorem Laws.RoundTrip.vtopk8 (w : RWord) : Statement (.vtopk8 w) :=
  opWord (h := w.hd) rfl rfl (fun _ hu => (readOp_v hu).trans (congrArg (fun x => OpRead.instr (.vtopk8 x)) (RWord.ofBits_toBits w)))
    rfl rfl

theorem Laws.RoundTrip.vsortStep (w : RWord) : Statement (.vsortStep w) :=
  opWord (h := w.hd) rfl rfl (fun _ hu => (readOp_v hu).trans (congrArg (fun x => OpRead.instr (.vsortStep x)) (RWord.ofBits_toBits w)))
    rfl rfl

theorem Laws.RoundTrip.vacr (w : RWord) : Statement (.vacr w) :=
  opWord (h := w.hd) rfl rfl (fun _ hu => (readOp_v hu).trans (congrArg (fun x => OpRead.instr (.vacr x)) (RWord.ofBits_toBits w)))
    rfl rfl

theorem Laws.RoundTrip.vacw (w : RWord) : Statement (.vacw w) :=
  opWord (h := w.hd) rfl rfl (fun hw hu => (readOp_v hu).trans (by
    have hc : w.fn[11] = false := by
      replace hw : (w.ok .zero .vsrc .scalar .zero [0, 7] 0 (w.fn.toNat < 2048) 6) = true := hw
      simp only [RWord.ok, Bool.and_eq_true, decide_eq_true_eq] at hw
      have h := Nat.testBit_lt_two_pow (i := 11) hw.1.2
      simpa [BitVec.getElem_eq_testBit_toNat] using h
    rw [readV_89, RWord.ofBits_toBits]; simp [hc])) rfl rfl

theorem Laws.RoundTrip.vacwAdd (w : RWord) : Statement (.vacwAdd w) :=
  opWord (h := w.hd) rfl rfl (fun hw hu => (readOp_v hu).trans (by
    have hc : w.fn.getLsbD 11 = true := by
      replace hw : (w.ok .zero .vsrc .scalar .zero [0, 7] 0 (w.fn.toNat < 4096 && w.fn.getLsbD 11) 6) = true := hw
      simp only [RWord.ok, Bool.and_eq_true] at hw
      exact hw.1.2.2
    rw [readV_89, RWord.ofBits_toBits]; simp [hc])) rfl rfl

theorem Laws.RoundTrip.vexp2 (w : RWord) : Statement (.vexp2 w) :=
  opWord (h := w.hd) rfl rfl (fun _ hu => (readOp_sf hu).trans (congrArg (fun x => OpRead.instr (.vexp2 x)) (RWord.ofBits_toBits w)))
    rfl rfl

theorem Laws.RoundTrip.vexp (w : RWord) : Statement (.vexp w) :=
  opWord (h := w.hd) rfl rfl (fun _ hu => (readOp_sf hu).trans (congrArg (fun x => OpRead.instr (.vexp x)) (RWord.ofBits_toBits w)))
    rfl rfl

theorem Laws.RoundTrip.vlog2 (w : RWord) : Statement (.vlog2 w) :=
  opWord (h := w.hd) rfl rfl (fun _ hu => (readOp_sf hu).trans (congrArg (fun x => OpRead.instr (.vlog2 x)) (RWord.ofBits_toBits w)))
    rfl rfl

theorem Laws.RoundTrip.vln (w : RWord) : Statement (.vln w) :=
  opWord (h := w.hd) rfl rfl (fun _ hu => (readOp_sf hu).trans (congrArg (fun x => OpRead.instr (.vln x)) (RWord.ofBits_toBits w)))
    rfl rfl

theorem Laws.RoundTrip.vrcp (w : RWord) : Statement (.vrcp w) :=
  opWord (h := w.hd) rfl rfl (fun _ hu => (readOp_sf hu).trans (congrArg (fun x => OpRead.instr (.vrcp x)) (RWord.ofBits_toBits w)))
    rfl rfl

theorem Laws.RoundTrip.vrsq (w : RWord) : Statement (.vrsq w) :=
  opWord (h := w.hd) rfl rfl (fun _ hu => (readOp_sf hu).trans (congrArg (fun x => OpRead.instr (.vrsq x)) (RWord.ofBits_toBits w)))
    rfl rfl

theorem Laws.RoundTrip.vsqrt (w : RWord) : Statement (.vsqrt w) :=
  opWord (h := w.hd) rfl rfl (fun _ hu => (readOp_sf hu).trans (congrArg (fun x => OpRead.instr (.vsqrt x)) (RWord.ofBits_toBits w)))
    rfl rfl

theorem Laws.RoundTrip.vtanh (w : RWord) : Statement (.vtanh w) :=
  opWord (h := w.hd) rfl rfl (fun _ hu => (readOp_sf hu).trans (congrArg (fun x => OpRead.instr (.vtanh x)) (RWord.ofBits_toBits w)))
    rfl rfl

theorem Laws.RoundTrip.vsigm (w : RWord) : Statement (.vsigm w) :=
  opWord (h := w.hd) rfl rfl (fun _ hu => (readOp_sf hu).trans (congrArg (fun x => OpRead.instr (.vsigm x)) (RWord.ofBits_toBits w)))
    rfl rfl

theorem Laws.RoundTrip.verf (w : RWord) : Statement (.verf w) :=
  opWord (h := w.hd) rfl rfl (fun _ hu => (readOp_sf hu).trans (congrArg (fun x => OpRead.instr (.verf x)) (RWord.ofBits_toBits w)))
    rfl rfl

theorem Laws.RoundTrip.vsincos (w : RWord) : Statement (.vsincos w) :=
  opWord (h := w.hd) rfl rfl (fun _ hu => (readOp_sf hu).trans (congrArg (fun x => OpRead.instr (.vsincos x)) (RWord.ofBits_toBits w)))
    rfl rfl

theorem Laws.RoundTrip.vpows (w : RWord) : Statement (.vpows w) :=
  opWord (h := w.hd) rfl rfl (fun _ hu => (readOp_sf hu).trans (congrArg (fun x => OpRead.instr (.vpows x)) (RWord.ofBits_toBits w)))
    rfl rfl

theorem Laws.RoundTrip.mma (w : XWord) : Statement (.mma w) :=
  opWord (h := w.hd) rfl rfl (fun _ hu => (readOp_mx hu).trans (congrArg (fun x => OpRead.instr (.mma x)) (XWord.ofBits_toBits w)))
    rfl rfl

theorem Laws.RoundTrip.mmaZ (w : XWord) : Statement (.mmaZ w) :=
  opWord (h := w.hd) rfl rfl (fun _ hu => (readOp_mx hu).trans (congrArg (fun x => OpRead.instr (.mmaZ x)) (XWord.ofBits_toBits w)))
    rfl rfl

theorem Laws.RoundTrip.mmaG (w : XWord) : Statement (.mmaG w) :=
  opWord (h := w.hd) rfl rfl (fun _ hu => (readOp_mx hu).trans (congrArg (fun x => OpRead.instr (.mmaG x)) (XWord.ofBits_toBits w)))
    rfl rfl

theorem Laws.RoundTrip.mmaT (w : XWord) : Statement (.mmaT w) :=
  opWord (h := w.hd) rfl rfl (fun _ hu => (readOp_mx hu).trans (congrArg (fun x => OpRead.instr (.mmaT x)) (XWord.ofBits_toBits w)))
    rfl rfl

theorem Laws.RoundTrip.mmaBS (w : XWord) : Statement (.mmaBS w) :=
  opWord (h := w.hd) rfl rfl (fun _ hu => (readOp_mx hu).trans (congrArg (fun x => OpRead.instr (.mmaBS x)) (XWord.ofBits_toBits w)))
    rfl rfl

theorem Laws.RoundTrip.tzero (w : XWord) : Statement (.tzero w) :=
  opWord (h := w.hd) rfl rfl (fun _ hu => (readOp_mx hu).trans (congrArg (fun x => OpRead.instr (.tzero x)) (XWord.ofBits_toBits w)))
    rfl rfl

theorem Laws.RoundTrip.tload (w : XWord) : Statement (.tload w) :=
  opWord (h := w.hd) rfl rfl (fun _ hu => (readOp_mx hu).trans (congrArg (fun x => OpRead.instr (.tload x)) (XWord.ofBits_toBits w)))
    rfl rfl

theorem Laws.RoundTrip.tmap (w : XWord) : Statement (.tmap w) :=
  opWord (h := w.hd) rfl rfl (fun _ hu => (readOp_mx hu).trans (congrArg (fun x => OpRead.instr (.tmap x)) (XWord.ofBits_toBits w)))
    rfl rfl

theorem Laws.RoundTrip.twait (w : XWord) : Statement (.twait w) :=
  opWord (h := w.hd) rfl rfl (fun _ hu => (readOp_mx hu).trans (congrArg (fun x => OpRead.instr (.twait x)) (XWord.ofBits_toBits w)))
    rfl rfl

theorem Laws.RoundTrip.cpy (w : EWord) : Statement (.cpy w) :=
  opWord (h := w.hd) rfl rfl (fun _ hu => (readOp_en hu).trans (congrArg (fun x => OpRead.instr (.cpy x)) (EWord.ofBits_toBits w)))
    rfl rfl

theorem Laws.RoundTrip.cpym (w : EWord) : Statement (.cpym w) :=
  opWord (h := w.hd) rfl rfl (fun _ hu => (readOp_en hu).trans (congrArg (fun x => OpRead.instr (.cpym x)) (EWord.ofBits_toBits w)))
    rfl rfl

theorem Laws.RoundTrip.cpyl (w : EWord) : Statement (.cpyl w) :=
  opWord (h := w.hd) rfl rfl (fun hw hu => (readOp_en hu).trans (by
    have hc : w.fn[5] = false := by
      replace hw : (w.ok true true false [0, 1, 2, 3] 0x3DF && w.noScope && w.fn.extractLsb' 6 2 != 3 && w.fn.extractLsb' 8 2 != 3) = true := hw
      simp only [EWord.ok, Bool.and_eq_true, beq_iff_eq] at hw
      have h := congrArg (fun x => x.getLsbD 5) hw.1.1.1.2
      simpa using h
    rw [readEN_2, EWord.ofBits_toBits]; simp [hc])) rfl rfl

theorem Laws.RoundTrip.cpylTopk (w : EWord) : Statement (.cpylTopk w) :=
  opWord (h := w.hd) rfl rfl (fun hw hu => (readOp_en hu).trans (by
    have hc : w.fn.getLsbD 5 = true := by
      replace hw : (w.ok true true true [0, 1, 2, 3] 0x03F && w.noScope && w.fn.getLsbD 4 && w.fn.getLsbD 5) = true := hw
      simp only [EWord.ok, Bool.and_eq_true, beq_iff_eq] at hw
      exact hw.2
    rw [readEN_2, EWord.ofBits_toBits]; simp [hc])) rfl rfl

theorem Laws.RoundTrip.cpyh (w : EWord) : Statement (.cpyh w) :=
  opWord (h := w.hd) rfl rfl (fun _ hu => (readOp_en hu).trans (congrArg (fun x => OpRead.instr (.cpyh x)) (EWord.ofBits_toBits w)))
    rfl rfl

theorem Laws.RoundTrip.atomAdd (w : EWord) : Statement (.atomAdd w) :=
  opWord (h := w.hd) rfl rfl (fun hw hu => (readOp_en hu).trans (by
    have hc : w.fn.extractLsb' 0 3 = 0 := by
      replace hw : (w.atomOk 0) = true := hw
      simp only [EWord.atomOk, Bool.and_eq_true, beq_iff_eq] at hw
      exact hw.1.1.1.1.2
    rw [readEN_8, EWord.ofBits_toBits]; simp [hc])) rfl rfl

theorem Laws.RoundTrip.atomMin (w : EWord) : Statement (.atomMin w) :=
  opWord (h := w.hd) rfl rfl (fun hw hu => (readOp_en hu).trans (by
    have hc : w.fn.extractLsb' 0 3 = 1 := by
      replace hw : (w.atomOk 1) = true := hw
      simp only [EWord.atomOk, Bool.and_eq_true, beq_iff_eq] at hw
      exact hw.1.1.1.1.2
    rw [readEN_8, EWord.ofBits_toBits]; simp [hc])) rfl rfl

theorem Laws.RoundTrip.atomMax (w : EWord) : Statement (.atomMax w) :=
  opWord (h := w.hd) rfl rfl (fun hw hu => (readOp_en hu).trans (by
    have hc : w.fn.extractLsb' 0 3 = 2 := by
      replace hw : (w.atomOk 2) = true := hw
      simp only [EWord.atomOk, Bool.and_eq_true, beq_iff_eq] at hw
      exact hw.1.1.1.1.2
    rw [readEN_8, EWord.ofBits_toBits]; simp [hc])) rfl rfl

theorem Laws.RoundTrip.atomXchg (w : EWord) : Statement (.atomXchg w) :=
  opWord (h := w.hd) rfl rfl (fun hw hu => (readOp_en hu).trans (by
    have hc : w.fn.extractLsb' 0 3 = 3 := by
      replace hw : (w.atomOk 3) = true := hw
      simp only [EWord.atomOk, Bool.and_eq_true, beq_iff_eq] at hw
      exact hw.1.1.1.1.2
    rw [readEN_8, EWord.ofBits_toBits]; simp [hc])) rfl rfl

theorem Laws.RoundTrip.atomCas (w : EWord) : Statement (.atomCas w) :=
  opWord (h := w.hd) rfl rfl (fun hw hu => (readOp_en hu).trans (by
    have hc : w.fn.extractLsb' 0 3 = 4 := by
      replace hw : (w.atomOk 4) = true := hw
      simp only [EWord.atomOk, Bool.and_eq_true, beq_iff_eq] at hw
      exact hw.1.1.1.1.2
    rw [readEN_8, EWord.ofBits_toBits]; simp [hc])) rfl rfl

theorem Laws.RoundTrip.atomk (w : EWord) : Statement (.atomk w) :=
  opWord (h := w.hd) rfl rfl (fun _ hu => (readOp_en hu).trans (congrArg (fun x => OpRead.instr (.atomk x)) (EWord.ofBits_toBits w)))
    rfl rfl

theorem Laws.RoundTrip.collAR (w : EWord) : Statement (.collAR w) :=
  opWord (h := w.hd) rfl rfl (fun _ hu => (readOp_en hu).trans (congrArg (fun x => OpRead.instr (.collAR x)) (EWord.ofBits_toBits w)))
    rfl rfl

theorem Laws.RoundTrip.collRS (w : EWord) : Statement (.collRS w) :=
  opWord (h := w.hd) rfl rfl (fun _ hu => (readOp_en hu).trans (congrArg (fun x => OpRead.instr (.collRS x)) (EWord.ofBits_toBits w)))
    rfl rfl

theorem Laws.RoundTrip.collAG (w : EWord) : Statement (.collAG w) :=
  opWord (h := w.hd) rfl rfl (fun _ hu => (readOp_en hu).trans (congrArg (fun x => OpRead.instr (.collAG x)) (EWord.ofBits_toBits w)))
    rfl rfl

theorem Laws.RoundTrip.collA2A (w : EWord) : Statement (.collA2A w) :=
  opWord (h := w.hd) rfl rfl (fun _ hu => (readOp_en hu).trans (congrArg (fun x => OpRead.instr (.collA2A x)) (EWord.ofBits_toBits w)))
    rfl rfl

theorem Laws.RoundTrip.bkset (w : EWord) : Statement (.bkset w) :=
  opWord (h := w.hd) rfl rfl (fun _ hu => (readOp_en hu).trans (congrArg (fun x => OpRead.instr (.bkset x)) (EWord.ofBits_toBits w)))
    rfl rfl

theorem Laws.RoundTrip.kick (w : EWord) : Statement (.kick w) :=
  opWord (h := w.hd) rfl rfl (fun _ hu => (readOp_en hu).trans (congrArg (fun x => OpRead.instr (.kick x)) (EWord.ofBits_toBits w)))
    rfl rfl

theorem Laws.RoundTrip.sidx (w : EWord) : Statement (.sidx w) :=
  opWord (h := w.hd) rfl rfl (fun _ hu => (readOp_en hu).trans (congrArg (fun x => OpRead.instr (.sidx x)) (EWord.ofBits_toBits w)))
    rfl rfl

theorem Laws.RoundTrip.rtabCommit (w : EWord) : Statement (.rtabCommit w) :=
  opWord (h := w.hd) rfl rfl (fun _ hu => (readOp_en hu).trans (congrArg (fun x => OpRead.instr (.rtabCommit x)) (EWord.ofBits_toBits w)))
    rfl rfl

theorem Laws.RoundTrip.kvld (w : EWord) : Statement (.kvld w) :=
  opWord (h := w.hd) rfl rfl (fun _ hu => (readOp_en hu).trans (congrArg (fun x => OpRead.instr (.kvld x)) (EWord.ofBits_toBits w)))
    rfl rfl

theorem Laws.RoundTrip.kvapp (w : EWord) : Statement (.kvapp w) :=
  opWord (h := w.hd) rfl rfl (fun _ hu => (readOp_en hu).trans (congrArg (fun x => OpRead.instr (.kvapp x)) (EWord.ofBits_toBits w)))
    rfl rfl

theorem Laws.RoundTrip.kvremap (w : EWord) : Statement (.kvremap w) :=
  opWord (h := w.hd) rfl rfl (fun _ hu => (readOp_en hu).trans (congrArg (fun x => OpRead.instr (.kvremap x)) (EWord.ofBits_toBits w)))
    rfl rfl

theorem Laws.RoundTrip.kvshare (w : EWord) : Statement (.kvshare w) :=
  opWord (h := w.hd) rfl rfl (fun _ hu => (readOp_en hu).trans (congrArg (fun x => OpRead.instr (.kvshare x)) (EWord.ofBits_toBits w)))
    rfl rfl

theorem Laws.RoundTrip.kvprom (w : EWord) : Statement (.kvprom w) :=
  opWord (h := w.hd) rfl rfl (fun _ hu => (readOp_en hu).trans (congrArg (fun x => OpRead.instr (.kvprom x)) (EWord.ofBits_toBits w)))
    rfl rfl

theorem Laws.RoundTrip.pfxfind (w : EWord) : Statement (.pfxfind w) :=
  opWord (h := w.hd) rfl rfl (fun _ hu => (readOp_en hu).trans (congrArg (fun x => OpRead.instr (.pfxfind x)) (EWord.ofBits_toBits w)))
    rfl rfl

theorem Laws.RoundTrip.pfxins (w : EWord) : Statement (.pfxins w) :=
  opWord (h := w.hd) rfl rfl (fun _ hu => (readOp_en hu).trans (congrArg (fun x => OpRead.instr (.pfxins x)) (EWord.ofBits_toBits w)))
    rfl rfl

theorem Laws.RoundTrip.attn (w : EWord) : Statement (.attn w) :=
  opWord (h := w.hd) rfl rfl (fun _ hu => (readOp_en hu).trans (congrArg (fun x => OpRead.instr (.attn x)) (EWord.ofBits_toBits w)))
    rfl rfl

theorem Laws.RoundTrip.stnew (w : EWord) : Statement (.stnew w) :=
  opWord (h := w.hd) rfl rfl (fun _ hu => (readOp_en hu).trans (congrArg (fun x => OpRead.instr (.stnew x)) (EWord.ofBits_toBits w)))
    rfl rfl

theorem Laws.RoundTrip.splice (w : EWord) : Statement (.splice w) :=
  opWord (h := w.hd) rfl rfl (fun _ hu => (readOp_en hu).trans (congrArg (fun x => OpRead.instr (.splice x)) (EWord.ofBits_toBits w)))
    rfl rfl

theorem Laws.RoundTrip.stpin (w : EWord) : Statement (.stpin w) :=
  opWord (h := w.hd) rfl rfl (fun _ hu => (readOp_en hu).trans (congrArg (fun x => OpRead.instr (.stpin x)) (EWord.ofBits_toBits w)))
    rfl rfl

theorem Laws.RoundTrip.stunpin (w : EWord) : Statement (.stunpin w) :=
  opWord (h := w.hd) rfl rfl (fun _ hu => (readOp_en hu).trans (congrArg (fun x => OpRead.instr (.stunpin x)) (EWord.ofBits_toBits w)))
    rfl rfl

theorem Laws.RoundTrip.cpys (w : EWord) : Statement (.cpys w) :=
  opWord (h := w.hd) rfl rfl (fun _ hu => (readOp_en hu).trans (congrArg (fun x => OpRead.instr (.cpys x)) (EWord.ofBits_toBits w)))
    rfl rfl

theorem Laws.RoundTrip.swcpyIn (w : EWord) : Statement (.swcpyIn w) :=
  opWord (h := w.hd) rfl rfl (fun hw hu => (readOp_en hu).trans (by
    have hc : w.fn.extractLsb' 0 2 = 0 := by
      replace hw : (w.ok true false false [0, 1, 2, 3] 0x004 && w.noScope) = true := hw
      simp only [EWord.ok, Bool.and_eq_true, beq_iff_eq] at hw
      have h0 := congrArg (fun x => x.getLsbD 0) hw.1.2
      have h1 := congrArg (fun x => x.getLsbD 1) hw.1.2
      apply BitVec.eq_of_getLsbD_eq
      intro i hi
      match i with
      | 0 => simpa using h0
      | 1 => simpa using h1
    rw [readEN_56, EWord.ofBits_toBits]; simp [hc])) rfl rfl

theorem Laws.RoundTrip.swcpyOut (w : EWord) : Statement (.swcpyOut w) :=
  opWord (h := w.hd) rfl rfl (fun hw hu => (readOp_en hu).trans (by
    have hc : w.fn.extractLsb' 0 2 = 1 := by
      replace hw : (w.ok true false false [0, 1, 2, 3] 0x005 && w.noScope && w.fn.extractLsb' 0 2 == 1) = true := hw
      simp only [EWord.ok, Bool.and_eq_true, beq_iff_eq] at hw
      exact hw.2
    rw [readEN_56, EWord.ofBits_toBits]; simp [hc])) rfl rfl

theorem Laws.RoundTrip.swcpyDec (w : EWord) : Statement (.swcpyDec w) :=
  opWord (h := w.hd) rfl rfl (fun hw hu => (readOp_en hu).trans (by
    have hc : w.fn.extractLsb' 0 2 = 2 := by
      replace hw : (w.ok true false false [0, 1, 2, 3] 0x006 && w.noScope && w.fn.extractLsb' 0 2 == 2) = true := hw
      simp only [EWord.ok, Bool.and_eq_true, beq_iff_eq] at hw
      exact hw.2
    rw [readEN_56, EWord.ofBits_toBits]; simp [hc])) rfl rfl

theorem Laws.RoundTrip.swcpyMerge (w : EWord) : Statement (.swcpyMerge w) :=
  opWord (h := w.hd) rfl rfl (fun hw hu => (readOp_en hu).trans (by
    have hc : w.fn.extractLsb' 0 2 = 3 := by
      replace hw : (w.ok true false false [0, 1, 2, 3] 0x007 && w.noScope && w.fn.extractLsb' 0 2 == 3) = true := hw
      simp only [EWord.ok, Bool.and_eq_true, beq_iff_eq] at hw
      exact hw.2
    rw [readEN_56, EWord.ofBits_toBits]; simp [hc])) rfl rfl

theorem Laws.RoundTrip.sweep (w : EWord) : Statement (.sweep w) :=
  opWord (h := w.hd) rfl rfl (fun _ hu => (readOp_en hu).trans (congrArg (fun x => OpRead.instr (.sweep x)) (EWord.ofBits_toBits w)))
    rfl rfl

/-! ## Micro-operations -/

theorem Laws.RoundTrip.fetchkv : Statement .fetchkv :=
  ⟨fun _ _ h => Bool.noConfusion h, fun w h => decodeMicro_encode rfl rfl w h, fun _ h => Bool.noConfusion h⟩

theorem Laws.RoundTrip.score : Statement .score :=
  ⟨fun _ _ h => Bool.noConfusion h, fun w h => decodeMicro_encode rfl rfl w h, fun _ h => Bool.noConfusion h⟩

theorem Laws.RoundTrip.scale : Statement .scale :=
  ⟨fun _ _ h => Bool.noConfusion h, fun w h => decodeMicro_encode rfl rfl w h, fun _ h => Bool.noConfusion h⟩

theorem Laws.RoundTrip.mask : Statement .mask :=
  ⟨fun _ _ h => Bool.noConfusion h, fun w h => decodeMicro_encode rfl rfl w h, fun _ h => Bool.noConfusion h⟩

theorem Laws.RoundTrip.smax : Statement .smax :=
  ⟨fun _ _ h => Bool.noConfusion h, fun w h => decodeMicro_encode rfl rfl w h, fun _ h => Bool.noConfusion h⟩

theorem Laws.RoundTrip.weigh : Statement .weigh :=
  ⟨fun _ _ h => Bool.noConfusion h, fun w h => decodeMicro_encode rfl rfl w h, fun _ h => Bool.noConfusion h⟩

theorem Laws.RoundTrip.seqNext : Statement .seqNext :=
  ⟨fun _ _ h => Bool.noConfusion h, fun w h => decodeMicro_encode rfl rfl w h, fun _ h => Bool.noConfusion h⟩

theorem Laws.RoundTrip.jump : Statement .jump :=
  ⟨fun _ _ h => Bool.noConfusion h, fun w h => decodeMicro_encode rfl rfl w h, fun _ h => Bool.noConfusion h⟩

theorem Laws.RoundTrip.flush : Statement .flush :=
  ⟨fun _ _ h => Bool.noConfusion h, fun w h => decodeMicro_encode rfl rfl w h, fun _ h => Bool.noConfusion h⟩

theorem Laws.RoundTrip.seqEnd : Statement .seqEnd :=
  ⟨fun _ _ h => Bool.noConfusion h, fun w h => decodeMicro_encode rfl rfl w h, fun _ h => Bool.noConfusion h⟩

/-! ## Commands of the host and debug requests -/

theorem Laws.RoundTrip.submit : Statement .submit :=
  ⟨fun _ _ h => Bool.noConfusion h, fun _ h => Bool.noConfusion h, fun p h => decodePacket_encode rfl rfl p h⟩

theorem Laws.RoundTrip.memwr : Statement .memwr :=
  ⟨fun _ _ h => Bool.noConfusion h, fun _ h => Bool.noConfusion h, fun p h => decodePacket_encode rfl rfl p h⟩

theorem Laws.RoundTrip.memrd : Statement .memrd :=
  ⟨fun _ _ h => Bool.noConfusion h, fun _ h => Bool.noConfusion h, fun p h => decodePacket_encode rfl rfl p h⟩

theorem Laws.RoundTrip.root : Statement .root :=
  ⟨fun _ _ h => Bool.noConfusion h, fun _ h => Bool.noConfusion h, fun p h => decodePacket_encode rfl rfl p h⟩

theorem Laws.RoundTrip.inval : Statement .inval :=
  ⟨fun _ _ h => Bool.noConfusion h, fun _ h => Bool.noConfusion h, fun p h => decodePacket_encode rfl rfl p h⟩

theorem Laws.RoundTrip.resume : Statement .resume :=
  ⟨fun _ _ h => Bool.noConfusion h, fun _ h => Bool.noConfusion h, fun p h => decodePacket_encode rfl rfl p h⟩

theorem Laws.RoundTrip.hunbind : Statement .hunbind :=
  ⟨fun _ _ h => Bool.noConfusion h, fun _ h => Bool.noConfusion h, fun p h => decodePacket_encode rfl rfl p h⟩

theorem Laws.RoundTrip.qcfg : Statement .qcfg :=
  ⟨fun _ _ h => Bool.noConfusion h, fun _ h => Bool.noConfusion h, fun p h => decodePacket_encode rfl rfl p h⟩

theorem Laws.RoundTrip.scfg : Statement .scfg :=
  ⟨fun _ _ h => Bool.noConfusion h, fun _ h => Bool.noConfusion h, fun p h => decodePacket_encode rfl rfl p h⟩

theorem Laws.RoundTrip.kvcfg : Statement .kvcfg :=
  ⟨fun _ _ h => Bool.noConfusion h, fun _ h => Bool.noConfusion h, fun p h => decodePacket_encode rfl rfl p h⟩

theorem Laws.RoundTrip.seqload : Statement .seqload :=
  ⟨fun _ _ h => Bool.noConfusion h, fun _ h => Bool.noConfusion h, fun p h => decodePacket_encode rfl rfl p h⟩

theorem Laws.RoundTrip.stepgrp : Statement .stepgrp :=
  ⟨fun _ _ h => Bool.noConfusion h, fun _ h => Bool.noConfusion h, fun p h => decodePacket_encode rfl rfl p h⟩

theorem Laws.RoundTrip.ftab : Statement .ftab :=
  ⟨fun _ _ h => Bool.noConfusion h, fun _ h => Bool.noConfusion h, fun p h => decodePacket_encode rfl rfl p h⟩

theorem Laws.RoundTrip.collgrp : Statement .collgrp :=
  ⟨fun _ _ h => Bool.noConfusion h, fun _ h => Bool.noConfusion h, fun p h => decodePacket_encode rfl rfl p h⟩

theorem Laws.RoundTrip.rtabcfg : Statement .rtabcfg :=
  ⟨fun _ _ h => Bool.noConfusion h, fun _ h => Bool.noConfusion h, fun p h => decodePacket_encode rfl rfl p h⟩

theorem Laws.RoundTrip.domcfg : Statement .domcfg :=
  ⟨fun _ _ h => Bool.noConfusion h, fun _ h => Bool.noConfusion h, fun p h => decodePacket_encode rfl rfl p h⟩

theorem Laws.RoundTrip.abort : Statement .abort :=
  ⟨fun _ _ h => Bool.noConfusion h, fun _ h => Bool.noConfusion h, fun p h => decodePacket_encode rfl rfl p h⟩

theorem Laws.RoundTrip.attest : Statement .attest :=
  ⟨fun _ _ h => Bool.noConfusion h, fun _ h => Bool.noConfusion h, fun p h => decodePacket_encode rfl rfl p h⟩

theorem Laws.RoundTrip.dhalt : Statement .dhalt :=
  ⟨fun _ _ h => Bool.noConfusion h, fun _ h => Bool.noConfusion h, fun p h => decodePacket_encode rfl rfl p h⟩

theorem Laws.RoundTrip.dresume : Statement .dresume :=
  ⟨fun _ _ h => Bool.noConfusion h, fun _ h => Bool.noConfusion h, fun p h => decodePacket_encode rfl rfl p h⟩

theorem Laws.RoundTrip.dread : Statement .dread :=
  ⟨fun _ _ h => Bool.noConfusion h, fun _ h => Bool.noConfusion h, fun p h => decodePacket_encode rfl rfl p h⟩

theorem Laws.RoundTrip.dbrk : Statement .dbrk :=
  ⟨fun _ _ h => Bool.noConfusion h, fun _ h => Bool.noConfusion h, fun p h => decodePacket_encode rfl rfl p h⟩

theorem Laws.RoundTrip.dprof : Statement .dprof :=
  ⟨fun _ _ h => Bool.noConfusion h, fun _ h => Bool.noConfusion h, fun p h => decodePacket_encode rfl rfl p h⟩

theorem Laws.RoundTrip.dmaster : Statement .dmaster :=
  ⟨fun _ _ h => Bool.noConfusion h, fun _ h => Bool.noConfusion h, fun p h => decodePacket_encode rfl rfl p h⟩

theorem Laws.RoundTrip.statring : Statement .statring :=
  ⟨fun _ _ h => Bool.noConfusion h, fun _ h => Bool.noConfusion h, fun p h => decodePacket_encode rfl rfl p h⟩

theorem Laws.RoundTrip.capture : Statement .capture :=
  ⟨fun _ _ h => Bool.noConfusion h, fun _ h => Bool.noConfusion h, fun p h => decodePacket_encode rfl rfl p h⟩

theorem Laws.RoundTrip.framerel : Statement .framerel :=
  ⟨fun _ _ h => Bool.noConfusion h, fun _ h => Bool.noConfusion h, fun p h => decodePacket_encode rfl rfl p h⟩

/-! ## Events: they have no encoding -/

theorem Laws.RoundTrip.bundleDecode : Statement .bundleDecode :=
  ⟨fun _ _ h => Bool.noConfusion h, fun _ h => Bool.noConfusion h, fun _ h => Bool.noConfusion h⟩

theorem Laws.RoundTrip.codeFetchLine : Statement .codeFetchLine :=
  ⟨fun _ _ h => Bool.noConfusion h, fun _ h => Bool.noConfusion h, fun _ h => Bool.noConfusion h⟩

theorem Laws.RoundTrip.pageWalk : Statement .pageWalk :=
  ⟨fun _ _ h => Bool.noConfusion h, fun _ h => Bool.noConfusion h, fun _ h => Bool.noConfusion h⟩

theorem Laws.RoundTrip.engineStart : Statement .engineStart :=
  ⟨fun _ _ h => Bool.noConfusion h, fun _ h => Bool.noConfusion h, fun _ h => Bool.noConfusion h⟩

theorem Laws.RoundTrip.engineComplete : Statement .engineComplete :=
  ⟨fun _ _ h => Bool.noConfusion h, fun _ h => Bool.noConfusion h, fun _ h => Bool.noConfusion h⟩

theorem Laws.RoundTrip.cpymCoreCopy : Statement .cpymCoreCopy :=
  ⟨fun _ _ h => Bool.noConfusion h, fun _ h => Bool.noConfusion h, fun _ h => Bool.noConfusion h⟩

theorem Laws.RoundTrip.bucketFire : Statement .bucketFire :=
  ⟨fun _ _ h => Bool.noConfusion h, fun _ h => Bool.noConfusion h, fun _ h => Bool.noConfusion h⟩

theorem Laws.RoundTrip.stepVoteComplete : Statement .stepVoteComplete :=
  ⟨fun _ _ h => Bool.noConfusion h, fun _ h => Bool.noConfusion h, fun _ h => Bool.noConfusion h⟩

theorem Laws.RoundTrip.fabricRequest : Statement .fabricRequest :=
  ⟨fun _ _ h => Bool.noConfusion h, fun _ h => Bool.noConfusion h, fun _ h => Bool.noConfusion h⟩

theorem Laws.RoundTrip.promotionInstall : Statement .promotionInstall :=
  ⟨fun _ _ h => Bool.noConfusion h, fun _ h => Bool.noConfusion h, fun _ h => Bool.noConfusion h⟩

theorem Laws.RoundTrip.repRepetition : Statement .repRepetition :=
  ⟨fun _ _ h => Bool.noConfusion h, fun _ h => Bool.noConfusion h, fun _ h => Bool.noConfusion h⟩

theorem Laws.RoundTrip.replayInject : Statement .replayInject :=
  ⟨fun _ _ h => Bool.noConfusion h, fun _ h => Bool.noConfusion h, fun _ h => Bool.noConfusion h⟩

theorem Laws.RoundTrip.schedPass : Statement .schedPass :=
  ⟨fun _ _ h => Bool.noConfusion h, fun _ h => Bool.noConfusion h, fun _ h => Bool.noConfusion h⟩

theorem Laws.RoundTrip.taskStart : Statement .taskStart :=
  ⟨fun _ _ h => Bool.noConfusion h, fun _ h => Bool.noConfusion h, fun _ h => Bool.noConfusion h⟩

theorem Laws.RoundTrip.taskComplete : Statement .taskComplete :=
  ⟨fun _ _ h => Bool.noConfusion h, fun _ h => Bool.noConfusion h, fun _ h => Bool.noConfusion h⟩

theorem Laws.RoundTrip.ageTick : Statement .ageTick :=
  ⟨fun _ _ h => Bool.noConfusion h, fun _ h => Bool.noConfusion h, fun _ h => Bool.noConfusion h⟩

theorem Laws.RoundTrip.gangReserve : Statement .gangReserve :=
  ⟨fun _ _ h => Bool.noConfusion h, fun _ h => Bool.noConfusion h, fun _ h => Bool.noConfusion h⟩

theorem Laws.RoundTrip.swapOut : Statement .swapOut :=
  ⟨fun _ _ h => Bool.noConfusion h, fun _ h => Bool.noConfusion h, fun _ h => Bool.noConfusion h⟩

theorem Laws.RoundTrip.teamSaved : Statement .teamSaved :=
  ⟨fun _ _ h => Bool.noConfusion h, fun _ h => Bool.noConfusion h, fun _ h => Bool.noConfusion h⟩

theorem Laws.RoundTrip.freezeBoundary : Statement .freezeBoundary :=
  ⟨fun _ _ h => Bool.noConfusion h, fun _ h => Bool.noConfusion h, fun _ h => Bool.noConfusion h⟩

theorem Laws.RoundTrip.boundaryStop : Statement .boundaryStop :=
  ⟨fun _ _ h => Bool.noConfusion h, fun _ h => Bool.noConfusion h, fun _ h => Bool.noConfusion h⟩

theorem Laws.RoundTrip.deadlineExpire : Statement .deadlineExpire :=
  ⟨fun _ _ h => Bool.noConfusion h, fun _ h => Bool.noConfusion h, fun _ h => Bool.noConfusion h⟩

theorem Laws.RoundTrip.forwardRetire : Statement .forwardRetire :=
  ⟨fun _ _ h => Bool.noConfusion h, fun _ h => Bool.noConfusion h, fun _ h => Bool.noConfusion h⟩

theorem Laws.RoundTrip.afrUpdate : Statement .afrUpdate :=
  ⟨fun _ _ h => Bool.noConfusion h, fun _ h => Bool.noConfusion h, fun _ h => Bool.noConfusion h⟩

theorem Laws.RoundTrip.powerGate : Statement .powerGate :=
  ⟨fun _ _ h => Bool.noConfusion h, fun _ h => Bool.noConfusion h, fun _ h => Bool.noConfusion h⟩

theorem Laws.RoundTrip.powerHold : Statement .powerHold :=
  ⟨fun _ _ h => Bool.noConfusion h, fun _ h => Bool.noConfusion h, fun _ h => Bool.noConfusion h⟩

theorem Laws.RoundTrip.thermalTrip : Statement .thermalTrip :=
  ⟨fun _ _ h => Bool.noConfusion h, fun _ h => Bool.noConfusion h, fun _ h => Bool.noConfusion h⟩

theorem Laws.RoundTrip.powerOn : Statement .powerOn :=
  ⟨fun _ _ h => Bool.noConfusion h, fun _ h => Bool.noConfusion h, fun _ h => Bool.noConfusion h⟩

theorem Laws.RoundTrip.firmwareAccept : Statement .firmwareAccept :=
  ⟨fun _ _ h => Bool.noConfusion h, fun _ h => Bool.noConfusion h, fun _ h => Bool.noConfusion h⟩

theorem Laws.RoundTrip.bootRetry : Statement .bootRetry :=
  ⟨fun _ _ h => Bool.noConfusion h, fun _ h => Bool.noConfusion h, fun _ h => Bool.noConfusion h⟩

theorem Laws.RoundTrip.watchdogExpire : Statement .watchdogExpire :=
  ⟨fun _ _ h => Bool.noConfusion h, fun _ h => Bool.noConfusion h, fun _ h => Bool.noConfusion h⟩

theorem Laws.RoundTrip.scanComplete : Statement .scanComplete :=
  ⟨fun _ _ h => Bool.noConfusion h, fun _ h => Bool.noConfusion h, fun _ h => Bool.noConfusion h⟩

theorem Laws.RoundTrip.scanAbortComplete : Statement .scanAbortComplete :=
  ⟨fun _ _ h => Bool.noConfusion h, fun _ h => Bool.noConfusion h, fun _ h => Bool.noConfusion h⟩

theorem Laws.RoundTrip.holdExpire : Statement .holdExpire :=
  ⟨fun _ _ h => Bool.noConfusion h, fun _ h => Bool.noConfusion h, fun _ h => Bool.noConfusion h⟩

theorem Laws.RoundTrip.scrub : Statement .scrub :=
  ⟨fun _ _ h => Bool.noConfusion h, fun _ h => Bool.noConfusion h, fun _ h => Bool.noConfusion h⟩

theorem Laws.RoundTrip.preciseStop : Statement .preciseStop :=
  ⟨fun _ _ h => Bool.noConfusion h, fun _ h => Bool.noConfusion h, fun _ h => Bool.noConfusion h⟩

theorem Laws.RoundTrip.sample : Statement .sample :=
  ⟨fun _ _ h => Bool.noConfusion h, fun _ h => Bool.noConfusion h, fun _ h => Bool.noConfusion h⟩

theorem Laws.RoundTrip.replaySubmit : Statement .replaySubmit :=
  ⟨fun _ _ h => Bool.noConfusion h, fun _ h => Bool.noConfusion h, fun _ h => Bool.noConfusion h⟩

theorem Laws.RoundTrip.restore : Statement .restore :=
  ⟨fun _ _ h => Bool.noConfusion h, fun _ h => Bool.noConfusion h, fun _ h => Bool.noConfusion h⟩

theorem Laws.RoundTrip.waitCycPasses : Statement .waitCycPasses :=
  ⟨fun _ _ h => Bool.noConfusion h, fun _ h => Bool.noConfusion h, fun _ h => Bool.noConfusion h⟩

theorem Laws.RoundTrip.freezeIssueHold : Statement .freezeIssueHold :=
  ⟨fun _ _ h => Bool.noConfusion h, fun _ h => Bool.noConfusion h, fun _ h => Bool.noConfusion h⟩

theorem Laws.RoundTrip.messageUndeliverable : Statement .messageUndeliverable :=
  ⟨fun _ _ h => Bool.noConfusion h, fun _ h => Bool.noConfusion h, fun _ h => Bool.noConfusion h⟩

theorem Laws.RoundTrip.powerRemoved : Statement .powerRemoved :=
  ⟨fun _ _ h => Bool.noConfusion h, fun _ h => Bool.noConfusion h, fun _ h => Bool.noConfusion h⟩

end Sys2Proof
end

