-- ==== Sys2Proof/Tests/Slice0.lean ====
section
/-! SUPPORT. Tests: words written out from the encoding tables, ill-formed terms, single steps on small states, and for the
hypotheses of every statement a state and operands that meet them. -/

namespace Sys2Proof.Tests

open Sys2Proof.Machine

/-! ## Terms -/

def hd0 (u : UnitCode) : Head := { unit := u, stop := true, stall := 0, guard := 0, gneg := false, imm := none }
def hdImm (u : UnitCode) (x : Imm56) : Head :=
  { unit := u, stop := false, stall := 0, guard := 0, gneg := false, imm := some { stop := true, stall := 0, value := x } }
def r0 (u : UnitCode) : RWord := { hd := hd0 u, dst := 0, a := 0, b := 0, c := 0, ty := 0, rnd := 0, fn := 0 }
def i0 : IWord := { hd := hd0 .s0, dst := 1, a := 2, ty := 0, rnd := 0, fn := 0, imm19 := 0 }
def l0 : LWord := { hd := hdImm .s0 7, dst := 1, a := 2, low := 0 }
def m0 (u : UnitCode) : MWord := { hd := hd0 u, d := 1, areg := 2, amode := 0, b := 0, c := 0, ty := 0, disp := 0 }
def x0 : XWord := { hd := hd0 .mx, td := 1, z := 0, aa := 0, ab := 0, ax := 0, vi := 0, tya := 0, tyb := 0, fn := 0 }
def e0 (q : BitVec 3) : EWord := { hd := hd0 .en, tok := 1, a := 0, b := 0, c := 0, q := q, scope := 0, order := 0, fn := 0 }
def ys0 : YSWord := { hd := hd0 .sy, d := 0, a := 0, b := 0, scope := 0, order := 0, fn := 0 }
def yt0 : YTWord := { hd := hd0 .sy, d := 0, a := 0, p := 0, disp := 0 }
def yc0 : YCWord := { hd := hd0 .sy, d := 0, a := 0, nm1 := 0, csrc := false, cnt := 0 }
def mw0 : MicroWord := { ts := 0, tOut := 0, n := 0, cond := 0, resv := 0, offb := 0, offa := 0 }
def p0 : Packet := { stream := 0, resvA := 0, seq := 9, len := 0, resvB := 0, resvC := 0, arg0 := 0, arg1 := 0, payload := [] }

/-! ## Decoding (R37, R38, R43 to R50, R179, R190, R319, R361): every op word -/

theorem test_decode_system_a :
    decodeWord (1#1 ++ 0#4 ++ 5#3 ++ 0x00#8 ++ 2#4 ++ 1#1 ++ 0#6 ++ 0#6 ++ 0#6 ++ 0#3 ++ 0#2 ++ 0#20 : BitVec 64) none
      = some (.nop { hd := { unit := .sy, stop := true, stall := 5, guard := 2, gneg := true, imm := none }, d := 0, a := 0, b := 0, scope := 0, order := 0, fn := 0 })
    ∧ decodeWord (1#1 ++ 0#4 ++ 5#3 ++ 0x01#8 ++ 0#4 ++ 0#1 ++ 0#6 ++ 0#6 ++ 0#4 ++ 0x7FFFFFE#27 : BitVec 64) none
      = some (.br { hd := { unit := .sy, stop := true, stall := 5, guard := 0, gneg := false, imm := none }, d := 0, a := 0, p := 0, disp := 134217726 })
    ∧ decodeWord (1#1 ++ 0#4 ++ 5#3 ++ 0x02#8 ++ 0#4 ++ 0#1 ++ 2#6 ++ 0#6 ++ 3#4 ++ 5#27 : BitVec 64) none
      = some (.brp { hd := { unit := .sy, stop := true, stall := 5, guard := 0, gneg := false, imm := none }, d := 2, a := 0, p := 3, disp := 5 })
    ∧ decodeWord (1#1 ++ 0#4 ++ 5#3 ++ 0x03#8 ++ 2#4 ++ 1#1 ++ 4#6 ++ 7#6 ++ 0#4 ++ 0x4000001#27 : BitVec 64) none
      = some (.brs { hd := { unit := .sy, stop := true, stall := 5, guard := 2, gneg := true, imm := none }, d := 4, a := 7, p := 0, disp := 67108865 })
    ∧ decodeWord (1#1 ++ 0#4 ++ 5#3 ++ 0x04#8 ++ 0#4 ++ 0#1 ++ 0#6 ++ 9#6 ++ 0#6 ++ 0#3 ++ 0#2 ++ 0#20 : BitVec 64) none
      = some (.jmpi { hd := { unit := .sy, stop := true, stall := 5, guard := 0, gneg := false, imm := none }, d := 0, a := 9, b := 0, scope := 0, order := 0, fn := 0 })
    ∧ decodeWord (1#1 ++ 0#4 ++ 5#3 ++ 0x05#8 ++ 0#4 ++ 0#1 ++ 0#6 ++ 0#6 ++ 0#4 ++ 0x7FFFFFE#27 : BitVec 64) none
      = some (.call { hd := { unit := .sy, stop := true, stall := 5, guard := 0, gneg := false, imm := none }, d := 0, a := 0, p := 0, disp := 134217726 })
    ∧ decodeWord (1#1 ++ 0#4 ++ 5#3 ++ 0x06#8 ++ 2#4 ++ 1#1 ++ 0#6 ++ 0#6 ++ 0#6 ++ 0#3 ++ 0#2 ++ 0#20 : BitVec 64) none
      = some (.ret { hd := { unit := .sy, stop := true, stall := 5, guard := 2, gneg := true, imm := none }, d := 0, a := 0, b := 0, scope := 0, order := 0, fn := 0 })
    ∧ decodeWord (1#1 ++ 0#4 ++ 5#3 ++ 0x08#8 ++ 0#4 ++ 0#1 ++ 0#6 ++ 0#6 ++ 4#6 ++ 0#1 ++ 9#24 : BitVec 64) none
      = some (.loop { hd := { unit := .sy, stop := true, stall := 5, guard := 0, gneg := false, imm := none }, d := 0, a := 0, nm1 := 4, csrc := false, cnt := 9 })
    ∧ decodeWord (1#1 ++ 0#4 ++ 5#3 ++ 0x09#8 ++ 2#4 ++ 1#1 ++ 0#6 ++ 6#6 ++ 0#6 ++ 1#1 ++ 0#24 : BitVec 64) none
      = some (.rep { hd := { unit := .sy, stop := true, stall := 5, guard := 2, gneg := true, imm := none }, d := 0, a := 6, nm1 := 0, csrc := true, cnt := 0 })
    ∧ decodeWord (1#1 ++ 0#4 ++ 5#3 ++ 0x0A#8 ++ 2#4 ++ 1#1 ++ 0#6 ++ 5#6 ++ 0#6 ++ 0#3 ++ 0#2 ++ 0#20 : BitVec 64) none
      = some (.waitTok { hd := { unit := .sy, stop := true, stall := 5, guard := 2, gneg := true, imm := none }, d := 0, a := 5, b := 0, scope := 0, order := 0, fn := 0 })
    ∧ decodeWord (1#1 ++ 0#4 ++ 5#3 ++ 0x0A#8 ++ 0#4 ++ 0#1 ++ 0#6 ++ 5#6 ++ 0#6 ++ 0#3 ++ 0#2 ++ 1#20 : BitVec 64) none
      = some (.waitCyc { hd := { unit := .sy, stop := true, stall := 5, guard := 0, gneg := false, imm := none }, d := 0, a := 5, b := 0, scope := 0, order := 0, fn := 1 })
    ∧ decodeWord (1#1 ++ 0#4 ++ 5#3 ++ 0x20#8 ++ 2#4 ++ 1#1 ++ 0#6 ++ 0#6 ++ 0#6 ++ 0#3 ++ 0#2 ++ 0#20 : BitVec 64) none
      = some (.retire { hd := { unit := .sy, stop := true, stall := 5, guard := 2, gneg := true, imm := none }, d := 0, a := 0, b := 0, scope := 0, order := 0, fn := 0 }) := by decide

theorem test_decode_system_b :
    decodeWord (1#1 ++ 0#4 ++ 5#3 ++ 0x21#8 ++ 2#4 ++ 1#1 ++ 0#6 ++ 9#6 ++ 0#6 ++ 0#3 ++ 0#2 ++ 0#20 : BitVec 64) none
      = some (.yield { hd := { unit := .sy, stop := true, stall := 5, guard := 2, gneg := true, imm := none }, d := 0, a := 9, b := 0, scope := 0, order := 0, fn := 0 })
    ∧ decodeWord (1#1 ++ 0#4 ++ 5#3 ++ 0x22#8 ++ 2#4 ++ 1#1 ++ 8#6 ++ 9#6 ++ 0#6 ++ 0#3 ++ 0#2 ++ 0#20 : BitVec 64) none
      = some (.launch { hd := { unit := .sy, stop := true, stall := 5, guard := 2, gneg := true, imm := none }, d := 8, a := 9, b := 0, scope := 0, order := 0, fn := 0 })
    ∧ decodeWord (1#1 ++ 0#4 ++ 5#3 ++ 0x23#8 ++ 0#4 ++ 0#1 ++ 8#6 ++ 9#6 ++ 10#6 ++ 0#3 ++ 0#2 ++ 0#20 : BitVec 64) none
      = some (.enq { hd := { unit := .sy, stop := true, stall := 5, guard := 0, gneg := false, imm := none }, d := 8, a := 9, b := 10, scope := 0, order := 0, fn := 0 })
    ∧ decodeWord (1#1 ++ 0#4 ++ 5#3 ++ 0x28#8 ++ 2#4 ++ 1#1 ++ 0#6 ++ 0#6 ++ 0#6 ++ 0#3 ++ 0#2 ++ 0xABCDE#20 : BitVec 64) none
      = some (.trap { hd := { unit := .sy, stop := true, stall := 5, guard := 2, gneg := true, imm := none }, d := 0, a := 0, b := 0, scope := 0, order := 0, fn := 703710 })
    ∧ decodeWord (1#1 ++ 0#4 ++ 5#3 ++ 0x29#8 ++ 2#4 ++ 1#1 ++ 0#6 ++ 0#6 ++ 0#6 ++ 0#3 ++ 0#2 ++ 0#20 : BitVec 64) none
      = some (.tren { hd := { unit := .sy, stop := true, stall := 5, guard := 2, gneg := true, imm := none }, d := 0, a := 0, b := 0, scope := 0, order := 0, fn := 0 })
    ∧ decodeWord (1#1 ++ 0#4 ++ 5#3 ++ 0x2A#8 ++ 2#4 ++ 1#1 ++ 0#6 ++ 0#6 ++ 0#6 ++ 0#3 ++ 0#2 ++ 0#20 : BitVec 64) none
      = some (.tret { hd := { unit := .sy, stop := true, stall := 5, guard := 2, gneg := true, imm := none }, d := 0, a := 0, b := 0, scope := 0, order := 0, fn := 0 })
    ∧ decodeWord (1#1 ++ 0#4 ++ 5#3 ++ 0x30#8 ++ 2#4 ++ 1#1 ++ 0#6 ++ 4#6 ++ 0#6 ++ 1#3 ++ 0#2 ++ 3#20 : BitVec 64) none
      = some (.barInit { hd := { unit := .sy, stop := true, stall := 5, guard := 2, gneg := true, imm := none }, d := 0, a := 4, b := 0, scope := 1, order := 0, fn := 3 })
    ∧ decodeWord (1#1 ++ 0#4 ++ 5#3 ++ 0x31#8 ++ 0#4 ++ 0#1 ++ 4#6 ++ 0#6 ++ 0#6 ++ 2#3 ++ 2#2 ++ 15#20 : BitVec 64) none
      = some (.barArrive { hd := { unit := .sy, stop := true, stall := 5, guard := 0, gneg := false, imm := none }, d := 4, a := 0, b := 0, scope := 2, order := 2, fn := 15 })
    ∧ decodeWord (1#1 ++ 0#4 ++ 5#3 ++ 0x32#8 ++ 0#4 ++ 0#1 ++ 0#6 ++ 4#6 ++ 0#6 ++ 2#3 ++ 1#2 ++ 15#20 : BitVec 64) none
      = some (.barWait { hd := { unit := .sy, stop := true, stall := 5, guard := 0, gneg := false, imm := none }, d := 0, a := 4, b := 0, scope := 2, order := 1, fn := 15 })
    ∧ decodeWord (1#1 ++ 0#4 ++ 5#3 ++ 0x38#8 ++ 0#4 ++ 0#1 ++ 0#6 ++ 0#6 ++ 0#6 ++ 3#3 ++ 0#2 ++ 0#20 : BitVec 64) none
      = some (.drain { hd := { unit := .sy, stop := true, stall := 5, guard := 0, gneg := false, imm := none }, d := 0, a := 0, b := 0, scope := 3, order := 0, fn := 0 })
    ∧ decodeWord (1#1 ++ 0#4 ++ 5#3 ++ 0x39#8 ++ 0#4 ++ 0#1 ++ 0#6 ++ 0#6 ++ 0#6 ++ 0#3 ++ 0#2 ++ 0x81#20 : BitVec 64) none
      = some (.fenceQ { hd := { unit := .sy, stop := true, stall := 5, guard := 0, gneg := false, imm := none }, d := 0, a := 0, b := 0, scope := 0, order := 0, fn := 129 })
    ∧ decodeWord (1#1 ++ 0#4 ++ 5#3 ++ 0x40#8 ++ 0#4 ++ 0#1 ++ 11#6 ++ 0#6 ++ 0#6 ++ 0#3 ++ 0#2 ++ 19#20 : BitVec 64) none
      = some (.mfc { hd := { unit := .sy, stop := true, stall := 5, guard := 0, gneg := false, imm := none }, d := 11, a := 0, b := 0, scope := 0, order := 0, fn := 19 }) := by decide

theorem test_decode_system_c :
    decodeWord (1#1 ++ 0#4 ++ 5#3 ++ 0x41#8 ++ 0#4 ++ 0#1 ++ 0#6 ++ 12#6 ++ 0#6 ++ 0#3 ++ 0#2 ++ 5#20 : BitVec 64) none
      = some (.mtc { hd := { unit := .sy, stop := true, stall := 5, guard := 0, gneg := false, imm := none }, d := 0, a := 12, b := 0, scope := 0, order := 0, fn := 5 })
    ∧ decodeWord (1#1 ++ 0#4 ++ 5#3 ++ 0x41#8 ++ 0#4 ++ 0#1 ++ 0#6 ++ 12#6 ++ 0#6 ++ 0#3 ++ 0#2 ++ 0#20 : BitVec 64) none
      = some (.mtcTstat { hd := { unit := .sy, stop := true, stall := 5, guard := 0, gneg := false, imm := none }, d := 0, a := 12, b := 0, scope := 0, order := 0, fn := 0 })
    ∧ decodeWord (1#1 ++ 0#4 ++ 5#3 ++ 0x41#8 ++ 2#4 ++ 1#1 ++ 0#6 ++ 12#6 ++ 0#6 ++ 0#3 ++ 0#2 ++ 9#20 : BitVec 64) none
      = some (.mtcWaitlim { hd := { unit := .sy, stop := true, stall := 5, guard := 2, gneg := true, imm := none }, d := 0, a := 12, b := 0, scope := 0, order := 0, fn := 9 })
    ∧ decodeWord (1#1 ++ 0#4 ++ 5#3 ++ 0x48#8 ++ 2#4 ++ 1#1 ++ 1#6 ++ 2#6 ++ 3#6 ++ 0#3 ++ 0#2 ++ 0#20 : BitVec 64) none
      = some (.stepC { hd := { unit := .sy, stop := true, stall := 5, guard := 2, gneg := true, imm := none }, d := 1, a := 2, b := 3, scope := 0, order := 0, fn := 0 })
    ∧ decodeWord (1#1 ++ 0#4 ++ 5#3 ++ 0x80#8 ++ 2#4 ++ 1#1 ++ 1#6 ++ 2#6 ++ 0#6 ++ 0#3 ++ 0#2 ++ 0#20 : BitVec 64) none
      = some (.scanStart { hd := { unit := .sy, stop := true, stall := 5, guard := 2, gneg := true, imm := none }, d := 1, a := 2, b := 0, scope := 0, order := 0, fn := 0 })
    ∧ decodeWord (1#1 ++ 0#4 ++ 5#3 ++ 0x81#8 ++ 2#4 ++ 1#1 ++ 0#6 ++ 2#6 ++ 0#6 ++ 0#3 ++ 0#2 ++ 0#20 : BitVec 64) none
      = some (.scanAbort { hd := { unit := .sy, stop := true, stall := 5, guard := 2, gneg := true, imm := none }, d := 0, a := 2, b := 0, scope := 0, order := 0, fn := 0 })
    ∧ decodeWord (1#1 ++ 0#4 ++ 5#3 ++ 0x82#8 ++ 2#4 ++ 1#1 ++ 3#6 ++ 2#6 ++ 0#6 ++ 0#3 ++ 0#2 ++ 0#20 : BitVec 64) none
      = some (.scanRead { hd := { unit := .sy, stop := true, stall := 5, guard := 2, gneg := true, imm := none }, d := 3, a := 2, b := 0, scope := 0, order := 0, fn := 0 })
    ∧ decodeWord (1#1 ++ 0#4 ++ 5#3 ++ 0x83#8 ++ 2#4 ++ 1#1 ++ 0#6 ++ 2#6 ++ 3#6 ++ 0#3 ++ 0#2 ++ 0#20 : BitVec 64) none
      = some (.cmapSet { hd := { unit := .sy, stop := true, stall := 5, guard := 2, gneg := true, imm := none }, d := 0, a := 2, b := 3, scope := 0, order := 0, fn := 0 })
    ∧ decodeWord (1#1 ++ 0#4 ++ 5#3 ++ 0x84#8 ++ 2#4 ++ 1#1 ++ 3#6 ++ 0#6 ++ 0#6 ++ 0#3 ++ 0#2 ++ 0#20 : BitVec 64) none
      = some (.sqpop { hd := { unit := .sy, stop := true, stall := 5, guard := 2, gneg := true, imm := none }, d := 3, a := 0, b := 0, scope := 0, order := 0, fn := 0 })
    ∧ decodeWord (1#1 ++ 0#4 ++ 5#3 ++ 0x88#8 ++ 0#4 ++ 0#1 ++ 1#6 ++ 2#6 ++ 0#6 ++ 0#3 ++ 0#2 ++ 0#20 : BitVec 64) none
      = some (.dbgHalt { hd := { unit := .sy, stop := true, stall := 5, guard := 0, gneg := false, imm := none }, d := 1, a := 2, b := 0, scope := 0, order := 0, fn := 0 })
    ∧ decodeWord (1#1 ++ 0#4 ++ 5#3 ++ 0x89#8 ++ 0#4 ++ 0#1 ++ 0#6 ++ 2#6 ++ 0#6 ++ 0#3 ++ 0#2 ++ 0#20 : BitVec 64) none
      = some (.dbgResume { hd := { unit := .sy, stop := true, stall := 5, guard := 0, gneg := false, imm := none }, d := 0, a := 2, b := 0, scope := 0, order := 0, fn := 0 }) := by decide

theorem test_decode_scalar_a :
    decodeWord (1#1 ++ 1#4 ++ 5#3 ++ 0x00#8 ++ 2#4 ++ 1#1 ++ 1#6 ++ 2#6 ++ 63#6 ++ 0#6 ++ 0#4 ++ 0#2 ++ 0#13 : BitVec 64) none
      = some (.add { hd := { unit := .s0, stop := true, stall := 5, guard := 2, gneg := true, imm := none }, dst := 1, a := 2, b := 63, c := 0, ty := 0, rnd := 0, fn := 0 })
    ∧ decodeWord (1#1 ++ 1#4 ++ 5#3 ++ 0x01#8 ++ 0#4 ++ 0#1 ++ 1#6 ++ 2#6 ++ 63#6 ++ 0#6 ++ 0#4 ++ 0#2 ++ 0#13 : BitVec 64) none
      = some (.sub { hd := { unit := .s0, stop := true, stall := 5, guard := 0, gneg := false, imm := none }, dst := 1, a := 2, b := 63, c := 0, ty := 0, rnd := 0, fn := 0 })
    ∧ decodeWord (1#1 ++ 1#4 ++ 5#3 ++ 0x02#8 ++ 0#4 ++ 0#1 ++ 1#6 ++ 2#6 ++ 63#6 ++ 0#6 ++ 0#4 ++ 0#2 ++ 0#13 : BitVec 64) none
      = some (.mul { hd := { unit := .s0, stop := true, stall := 5, guard := 0, gneg := false, imm := none }, dst := 1, a := 2, b := 63, c := 0, ty := 0, rnd := 0, fn := 0 })
    ∧ decodeWord (1#1 ++ 1#4 ++ 5#3 ++ 0x03#8 ++ 0#4 ++ 0#1 ++ 1#6 ++ 2#6 ++ 63#6 ++ 0#6 ++ 0#4 ++ 0#2 ++ 0#13 : BitVec 64) none
      = some (.mulh { hd := { unit := .s0, stop := true, stall := 5, guard := 0, gneg := false, imm := none }, dst := 1, a := 2, b := 63, c := 0, ty := 0, rnd := 0, fn := 0 })
    ∧ decodeWord (1#1 ++ 1#4 ++ 5#3 ++ 0x04#8 ++ 2#4 ++ 1#1 ++ 1#6 ++ 2#6 ++ 63#6 ++ 0#6 ++ 3#4 ++ 0#2 ++ 0#13 : BitVec 64) none
      = some (.div { hd := { unit := .s0, stop := true, stall := 5, guard := 2, gneg := true, imm := none }, dst := 1, a := 2, b := 63, c := 0, ty := 3, rnd := 0, fn := 0 })
    ∧ decodeWord (1#1 ++ 1#4 ++ 5#3 ++ 0x05#8 ++ 0#4 ++ 0#1 ++ 1#6 ++ 2#6 ++ 63#6 ++ 0#6 ++ 3#4 ++ 0#2 ++ 0#13 : BitVec 64) none
      = some (.rem { hd := { unit := .s0, stop := true, stall := 5, guard := 0, gneg := false, imm := none }, dst := 1, a := 2, b := 63, c := 0, ty := 3, rnd := 0, fn := 0 })
    ∧ decodeWord (1#1 ++ 1#4 ++ 5#3 ++ 0x08#8 ++ 0#4 ++ 0#1 ++ 1#6 ++ 2#6 ++ 0#4 ++ 0#2 ++ 0#6 ++ 0x7FFFE#19 : BitVec 64) none
      = some (.addi { hd := { unit := .s0, stop := true, stall := 5, guard := 0, gneg := false, imm := none }, dst := 1, a := 2, ty := 0, rnd := 0, fn := 0, imm19 := 524286 })
    ∧ decodeWord (1#1 ++ 1#4 ++ 5#3 ++ 0x09#8 ++ 2#4 ++ 1#1 ++ 1#6 ++ 0#6 ++ 0#4 ++ 0#2 ++ 0#6 ++ 0x40000#19 : BitVec 64) none
      = some (.movi { hd := { unit := .s0, stop := true, stall := 5, guard := 2, gneg := true, imm := none }, dst := 1, a := 0, ty := 0, rnd := 0, fn := 0, imm19 := 262144 })
    ∧ decodeWord (0#1 ++ 1#4 ++ 0#3 ++ 0x0A#8 ++ 0#4 ++ 0#1 ++ 1#6 ++ 2#6 ++ 0#31 : BitVec 64) (some 0xFDFEDCBA98765432)
      = some (.movl { hd := { unit := .s0, stop := false, stall := 0, guard := 0, gneg := false, imm := some { stop := true, stall := 5, value := 0xFEDCBA98765432 } }, dst := 1, a := 2, low := 0 })
    ∧ decodeWord (1#1 ++ 1#4 ++ 5#3 ++ 0x0B#8 ++ 0#4 ++ 0#1 ++ 40#6 ++ 41#6 ++ 0#6 ++ 0#6 ++ 0#4 ++ 0#2 ++ 0#13 : BitVec 64) none
      = some (.mov { hd := { unit := .s0, stop := true, stall := 5, guard := 0, gneg := false, imm := none }, dst := 40, a := 41, b := 0, c := 0, ty := 0, rnd := 0, fn := 0 })
    ∧ decodeWord (1#1 ++ 1#4 ++ 5#3 ++ 0x10#8 ++ 2#4 ++ 1#1 ++ 1#6 ++ 2#6 ++ 63#6 ++ 0#6 ++ 0#4 ++ 0#2 ++ 0#13 : BitVec 64) none
      = some (.and { hd := { unit := .s0, stop := true, stall := 5, guard := 2, gneg := true, imm := none }, dst := 1, a := 2, b := 63, c := 0, ty := 0, rnd := 0, fn := 0 })
    ∧ decodeWord (1#1 ++ 1#4 ++ 5#3 ++ 0x11#8 ++ 2#4 ++ 1#1 ++ 1#6 ++ 2#6 ++ 63#6 ++ 0#6 ++ 0#4 ++ 0#2 ++ 0#13 : BitVec 64) none
      = some (.or { hd := { unit := .s0, stop := true, stall := 5, guard := 2, gneg := true, imm := none }, dst := 1, a := 2, b := 63, c := 0, ty := 0, rnd := 0, fn := 0 }) := by decide

theorem test_decode_scalar_b :
    decodeWord (1#1 ++ 1#4 ++ 5#3 ++ 0x12#8 ++ 2#4 ++ 1#1 ++ 1#6 ++ 2#6 ++ 63#6 ++ 0#6 ++ 0#4 ++ 0#2 ++ 0#13 : BitVec 64) none
      = some (.xor { hd := { unit := .s0, stop := true, stall := 5, guard := 2, gneg := true, imm := none }, dst := 1, a := 2, b := 63, c := 0, ty := 0, rnd := 0, fn := 0 })
    ∧ decodeWord (1#1 ++ 1#4 ++ 5#3 ++ 0x13#8 ++ 2#4 ++ 1#1 ++ 1#6 ++ 2#6 ++ 63#6 ++ 0#6 ++ 0#4 ++ 0#2 ++ 0#13 : BitVec 64) none
      = some (.andn { hd := { unit := .s0, stop := true, stall := 5, guard := 2, gneg := true, imm := none }, dst := 1, a := 2, b := 63, c := 0, ty := 0, rnd := 0, fn := 0 })
    ∧ decodeWord (1#1 ++ 1#4 ++ 5#3 ++ 0x14#8 ++ 2#4 ++ 1#1 ++ 1#6 ++ 2#6 ++ 63#6 ++ 0#6 ++ 0#4 ++ 0#2 ++ 0#13 : BitVec 64) none
      = some (.shl { hd := { unit := .s0, stop := true, stall := 5, guard := 2, gneg := true, imm := none }, dst := 1, a := 2, b := 63, c := 0, ty := 0, rnd := 0, fn := 0 })
    ∧ decodeWord (1#1 ++ 1#4 ++ 5#3 ++ 0x15#8 ++ 2#4 ++ 1#1 ++ 1#6 ++ 2#6 ++ 63#6 ++ 0#6 ++ 0#4 ++ 0#2 ++ 0#13 : BitVec 64) none
      = some (.shr { hd := { unit := .s0, stop := true, stall := 5, guard := 2, gneg := true, imm := none }, dst := 1, a := 2, b := 63, c := 0, ty := 0, rnd := 0, fn := 0 })
    ∧ decodeWord (1#1 ++ 1#4 ++ 5#3 ++ 0x16#8 ++ 0#4 ++ 0#1 ++ 1#6 ++ 2#6 ++ 63#6 ++ 0#6 ++ 0#4 ++ 0#2 ++ 0#13 : BitVec 64) none
      = some (.sra { hd := { unit := .s0, stop := true, stall := 5, guard := 0, gneg := false, imm := none }, dst := 1, a := 2, b := 63, c := 0, ty := 0, rnd := 0, fn := 0 })
    ∧ decodeWord (1#1 ++ 1#4 ++ 5#3 ++ 0x17#8 ++ 2#4 ++ 1#1 ++ 1#6 ++ 2#6 ++ 63#6 ++ 0#6 ++ 0#4 ++ 0#2 ++ 0#13 : BitVec 64) none
      = some (.rot { hd := { unit := .s0, stop := true, stall := 5, guard := 2, gneg := true, imm := none }, dst := 1, a := 2, b := 63, c := 0, ty := 0, rnd := 0, fn := 0 })
    ∧ decodeWord (1#1 ++ 1#4 ++ 5#3 ++ 0x18#8 ++ 2#4 ++ 1#1 ++ 40#6 ++ 41#6 ++ 0#6 ++ 0#6 ++ 0#4 ++ 0#2 ++ 0#13 : BitVec 64) none
      = some (.clz { hd := { unit := .s0, stop := true, stall := 5, guard := 2, gneg := true, imm := none }, dst := 40, a := 41, b := 0, c := 0, ty := 0, rnd := 0, fn := 0 })
    ∧ decodeWord (1#1 ++ 1#4 ++ 5#3 ++ 0x19#8 ++ 0#4 ++ 0#1 ++ 40#6 ++ 41#6 ++ 0#6 ++ 0#6 ++ 0#4 ++ 0#2 ++ 0#13 : BitVec 64) none
      = some (.popc { hd := { unit := .s0, stop := true, stall := 5, guard := 0, gneg := false, imm := none }, dst := 40, a := 41, b := 0, c := 0, ty := 0, rnd := 0, fn := 0 })
    ∧ decodeWord (1#1 ++ 1#4 ++ 5#3 ++ 0x1A#8 ++ 0#4 ++ 0#1 ++ 1#6 ++ 2#6 ++ 63#6 ++ 0#6 ++ 3#4 ++ 0#2 ++ 0#13 : BitVec 64) none
      = some (.min { hd := { unit := .s0, stop := true, stall := 5, guard := 0, gneg := false, imm := none }, dst := 1, a := 2, b := 63, c := 0, ty := 3, rnd := 0, fn := 0 })
    ∧ decodeWord (1#1 ++ 1#4 ++ 5#3 ++ 0x1B#8 ++ 0#4 ++ 0#1 ++ 1#6 ++ 2#6 ++ 63#6 ++ 0#6 ++ 3#4 ++ 0#2 ++ 0#13 : BitVec 64) none
      = some (.max { hd := { unit := .s0, stop := true, stall := 5, guard := 0, gneg := false, imm := none }, dst := 1, a := 2, b := 63, c := 0, ty := 3, rnd := 0, fn := 0 })
    ∧ decodeWord (1#1 ++ 1#4 ++ 5#3 ++ 0x1C#8 ++ 0#4 ++ 0#1 ++ 1#6 ++ 2#6 ++ 3#6 ++ 15#6 ++ 0#4 ++ 0#2 ++ 0#13 : BitVec 64) none
      = some (.sel { hd := { unit := .s0, stop := true, stall := 5, guard := 0, gneg := false, imm := none }, dst := 1, a := 2, b := 3, c := 15, ty := 0, rnd := 0, fn := 0 })
    ∧ decodeWord (1#1 ++ 1#4 ++ 5#3 ++ 0x1D#8 ++ 2#4 ++ 1#1 ++ 1#6 ++ 2#6 ++ 3#6 ++ 0#6 ++ 4#4 ++ 0#2 ++ 5#13 : BitVec 64) none
      = some (.cmpS { hd := { unit := .s0, stop := true, stall := 5, guard := 2, gneg := true, imm := none }, dst := 1, a := 2, b := 3, c := 0, ty := 4, rnd := 0, fn := 5 }) := by decide

theorem test_decode_scalar_c :
    decodeWord (1#1 ++ 1#4 ++ 5#3 ++ 0x1E#8 ++ 0#4 ++ 0#1 ++ 15#6 ++ 2#6 ++ 3#6 ++ 0#6 ++ 0#4 ++ 0#2 ++ 2#13 : BitVec 64) none
      = some (.cmpP { hd := { unit := .s0, stop := true, stall := 5, guard := 0, gneg := false, imm := none }, dst := 15, a := 2, b := 3, c := 0, ty := 0, rnd := 0, fn := 2 })
    ∧ decodeWord (1#1 ++ 1#4 ++ 5#3 ++ 0x20#8 ++ 0#4 ++ 0#1 ++ 14#6 ++ 13#6 ++ 0#4 ++ 0#2 ++ 0#6 ++ 7#19 : BitVec 64) none
      = some (.aadd { hd := { unit := .s0, stop := true, stall := 5, guard := 0, gneg := false, imm := none }, dst := 14, a := 13, ty := 0, rnd := 0, fn := 0, imm19 := 7 })
    ∧ decodeWord (1#1 ++ 1#4 ++ 5#3 ++ 0x22#8 ++ 2#4 ++ 1#1 ++ 14#6 ++ 13#6 ++ 0#4 ++ 0#2 ++ 0#6 ++ 7#19 : BitVec 64) none
      = some (.ainc { hd := { unit := .s0, stop := true, stall := 5, guard := 2, gneg := true, imm := none }, dst := 14, a := 13, ty := 0, rnd := 0, fn := 0, imm19 := 7 })
    ∧ decodeWord (1#1 ++ 1#4 ++ 5#3 ++ 0x23#8 ++ 2#4 ++ 1#1 ++ 14#6 ++ 13#6 ++ 0#4 ++ 0#2 ++ 0#6 ++ 7#19 : BitVec 64) none
      = some (.amod { hd := { unit := .s0, stop := true, stall := 5, guard := 2, gneg := true, imm := none }, dst := 14, a := 13, ty := 0, rnd := 0, fn := 0, imm19 := 7 })
    ∧ decodeWord (1#1 ++ 1#4 ++ 5#3 ++ 0x21#8 ++ 0#4 ++ 0#1 ++ 15#6 ++ 33#6 ++ 0#6 ++ 0#6 ++ 0#4 ++ 0#2 ++ 0#13 : BitVec 64) none
      = some (.asetA { hd := { unit := .s0, stop := true, stall := 5, guard := 0, gneg := false, imm := none }, dst := 15, a := 33, b := 0, c := 0, ty := 0, rnd := 0, fn := 0 })
    ∧ decodeWord (1#1 ++ 1#4 ++ 5#3 ++ 0x21#8 ++ 0#4 ++ 0#1 ++ 33#6 ++ 15#6 ++ 0#6 ++ 0#6 ++ 0#4 ++ 0#2 ++ 1#13 : BitVec 64) none
      = some (.asetS { hd := { unit := .s0, stop := true, stall := 5, guard := 0, gneg := false, imm := none }, dst := 33, a := 15, b := 0, c := 0, ty := 0, rnd := 0, fn := 1 })
    ∧ decodeWord (1#1 ++ 1#4 ++ 5#3 ++ 0x30#8 ++ 2#4 ++ 1#1 ++ 1#6 ++ 2#6 ++ 3#6 ++ 0#6 ++ 8#4 ++ 1#2 ++ 0#13 : BitVec 64) none
      = some (.fadd { hd := { unit := .s0, stop := true, stall := 5, guard := 2, gneg := true, imm := none }, dst := 1, a := 2, b := 3, c := 0, ty := 8, rnd := 1, fn := 0 })
    ∧ decodeWord (1#1 ++ 1#4 ++ 5#3 ++ 0x31#8 ++ 0#4 ++ 0#1 ++ 1#6 ++ 2#6 ++ 3#6 ++ 0#6 ++ 8#4 ++ 1#2 ++ 0#13 : BitVec 64) none
      = some (.fsub { hd := { unit := .s0, stop := true, stall := 5, guard := 0, gneg := false, imm := none }, dst := 1, a := 2, b := 3, c := 0, ty := 8, rnd := 1, fn := 0 })
    ∧ decodeWord (1#1 ++ 1#4 ++ 5#3 ++ 0x32#8 ++ 0#4 ++ 0#1 ++ 1#6 ++ 2#6 ++ 3#6 ++ 0#6 ++ 8#4 ++ 1#2 ++ 0#13 : BitVec 64) none
      = some (.fmul { hd := { unit := .s0, stop := true, stall := 5, guard := 0, gneg := false, imm := none }, dst := 1, a := 2, b := 3, c := 0, ty := 8, rnd := 1, fn := 0 })
    ∧ decodeWord (1#1 ++ 1#4 ++ 5#3 ++ 0x33#8 ++ 0#4 ++ 0#1 ++ 1#6 ++ 2#6 ++ 3#6 ++ 4#6 ++ 9#4 ++ 0#2 ++ 0#13 : BitVec 64) none
      = some (.fma { hd := { unit := .s0, stop := true, stall := 5, guard := 0, gneg := false, imm := none }, dst := 1, a := 2, b := 3, c := 4, ty := 9, rnd := 0, fn := 0 })
    ∧ decodeWord (1#1 ++ 1#4 ++ 5#3 ++ 0x34#8 ++ 0#4 ++ 0#1 ++ 1#6 ++ 2#6 ++ 3#6 ++ 0#6 ++ 7#4 ++ 0#2 ++ 0#13 : BitVec 64) none
      = some (.fmin { hd := { unit := .s0, stop := true, stall := 5, guard := 0, gneg := false, imm := none }, dst := 1, a := 2, b := 3, c := 0, ty := 7, rnd := 0, fn := 0 })
    ∧ decodeWord (1#1 ++ 1#4 ++ 5#3 ++ 0x35#8 ++ 0#4 ++ 0#1 ++ 1#6 ++ 2#6 ++ 3#6 ++ 0#6 ++ 7#4 ++ 0#2 ++ 0#13 : BitVec 64) none
      = some (.fmax { hd := { unit := .s0, stop := true, stall := 5, guard := 0, gneg := false, imm := none }, dst := 1, a := 2, b := 3, c := 0, ty := 7, rnd := 0, fn := 0 }) := by decide

theorem test_decode_scalar_d :
    decodeWord (1#1 ++ 1#4 ++ 5#3 ++ 0x36#8 ++ 2#4 ++ 1#1 ++ 1#6 ++ 2#6 ++ 3#6 ++ 0#6 ++ 7#4 ++ 0#2 ++ 7#13 : BitVec 64) none
      = some (.fcmpS { hd := { unit := .s0, stop := true, stall := 5, guard := 2, gneg := true, imm := none }, dst := 1, a := 2, b := 3, c := 0, ty := 7, rnd := 0, fn := 7 })
    ∧ decodeWord (1#1 ++ 1#4 ++ 5#3 ++ 0x37#8 ++ 0#4 ++ 0#1 ++ 1#6 ++ 2#6 ++ 3#6 ++ 0#6 ++ 7#4 ++ 0#2 ++ 6#13 : BitVec 64) none
      = some (.fcmpP { hd := { unit := .s0, stop := true, stall := 5, guard := 0, gneg := false, imm := none }, dst := 1, a := 2, b := 3, c := 0, ty := 7, rnd := 0, fn := 6 })
    ∧ decodeWord (1#1 ++ 1#4 ++ 5#3 ++ 0x38#8 ++ 2#4 ++ 1#1 ++ 1#6 ++ 2#6 ++ 0#6 ++ 0#6 ++ 7#4 ++ 1#2 ++ 10#13 : BitVec 64) none
      = some (.fcvt { hd := { unit := .s0, stop := true, stall := 5, guard := 2, gneg := true, imm := none }, dst := 1, a := 2, b := 0, c := 0, ty := 7, rnd := 1, fn := 10 })
    ∧ decodeWord (1#1 ++ 1#4 ++ 5#3 ++ 0x40#8 ++ 2#4 ++ 1#1 ++ 1#6 ++ 2#6 ++ 3#6 ++ 0#6 ++ 0#4 ++ 0#2 ++ 0#13 : BitVec 64) none
      = some (.pand { hd := { unit := .s0, stop := true, stall := 5, guard := 2, gneg := true, imm := none }, dst := 1, a := 2, b := 3, c := 0, ty := 0, rnd := 0, fn := 0 })
    ∧ decodeWord (1#1 ++ 1#4 ++ 5#3 ++ 0x41#8 ++ 2#4 ++ 1#1 ++ 1#6 ++ 2#6 ++ 3#6 ++ 0#6 ++ 0#4 ++ 0#2 ++ 0#13 : BitVec 64) none
      = some (.por { hd := { unit := .s0, stop := true, stall := 5, guard := 2, gneg := true, imm := none }, dst := 1, a := 2, b := 3, c := 0, ty := 0, rnd := 0, fn := 0 })
    ∧ decodeWord (1#1 ++ 1#4 ++ 5#3 ++ 0x42#8 ++ 2#4 ++ 1#1 ++ 1#6 ++ 2#6 ++ 3#6 ++ 0#6 ++ 0#4 ++ 0#2 ++ 0#13 : BitVec 64) none
      = some (.pxor { hd := { unit := .s0, stop := true, stall := 5, guard := 2, gneg := true, imm := none }, dst := 1, a := 2, b := 3, c := 0, ty := 0, rnd := 0, fn := 0 })
    ∧ decodeWord (1#1 ++ 1#4 ++ 5#3 ++ 0x43#8 ++ 2#4 ++ 1#1 ++ 1#6 ++ 2#6 ++ 0#6 ++ 0#6 ++ 0#4 ++ 0#2 ++ 0#13 : BitVec 64) none
      = some (.pnot { hd := { unit := .s0, stop := true, stall := 5, guard := 2, gneg := true, imm := none }, dst := 1, a := 2, b := 0, c := 0, ty := 0, rnd := 0, fn := 0 })
    ∧ decodeWord (1#1 ++ 1#4 ++ 5#3 ++ 0x44#8 ++ 0#4 ++ 0#1 ++ 1#6 ++ 2#6 ++ 0#6 ++ 0#6 ++ 0#4 ++ 0#2 ++ 0#13 : BitVec 64) none
      = some (.pmov { hd := { unit := .s0, stop := true, stall := 5, guard := 0, gneg := false, imm := none }, dst := 1, a := 2, b := 0, c := 0, ty := 0, rnd := 0, fn := 0 }) := by decide

theorem test_decode_load_a :
    decodeWord (1#1 ++ 3#4 ++ 5#3 ++ 0x00#8 ++ 2#4 ++ 1#1 ++ 1#6 ++ 2#4 ++ 1#2 ++ 0#6 ++ 0#6 ++ 3#4 ++ 0#15 : BitVec 64) none
      = some (.ldS { hd := { unit := .ld, stop := true, stall := 5, guard := 2, gneg := true, imm := none }, d := 1, areg := 2, amode := 1, b := 0, c := 0, ty := 3, disp := 0 })
    ∧ decodeWord (1#1 ++ 3#4 ++ 5#3 ++ 0x02#8 ++ 0#4 ++ 0#1 ++ 55#6 ++ 15#4 ++ 0#2 ++ 48#6 ++ 14#6 ++ 8#4 ++ 0#15 : BitVec 64) none
      = some (.ldV { hd := { unit := .ld, stop := true, stall := 5, guard := 0, gneg := false, imm := none }, d := 55, areg := 15, amode := 0, b := 48, c := 14, ty := 8, disp := 0 })
    ∧ decodeWord (1#1 ++ 3#4 ++ 5#3 ++ 0x03#8 ++ 0#4 ++ 0#1 ++ 5#6 ++ 2#4 ++ 2#2 ++ 0#6 ++ 0#6 ++ 7#4 ++ 0x7FFF#15 : BitVec 64) none
      = some (.ldVB { hd := { unit := .ld, stop := true, stall := 5, guard := 0, gneg := false, imm := none }, d := 5, areg := 2, amode := 2, b := 0, c := 0, ty := 7, disp := 32767 })
    ∧ decodeWord (1#1 ++ 3#4 ++ 5#3 ++ 0x04#8 ++ 2#4 ++ 1#1 ++ 5#6 ++ 2#4 ++ 0#2 ++ 6#6 ++ 7#6 ++ 7#4 ++ 0#15 : BitVec 64) none
      = some (.ldVG { hd := { unit := .ld, stop := true, stall := 5, guard := 2, gneg := true, imm := none }, d := 5, areg := 2, amode := 0, b := 6, c := 7, ty := 7, disp := 0 })
    ∧ decodeWord (1#1 ++ 3#4 ++ 5#3 ++ 0x05#8 ++ 2#4 ++ 1#1 ++ 5#6 ++ 2#4 ++ 0#2 ++ 6#6 ++ 7#6 ++ 7#4 ++ 0#15 : BitVec 64) none
      = some (.ldVQ { hd := { unit := .ld, stop := true, stall := 5, guard := 2, gneg := true, imm := none }, d := 5, areg := 2, amode := 0, b := 6, c := 7, ty := 7, disp := 0 })
    ∧ decodeWord (1#1 ++ 3#4 ++ 5#3 ++ 0x06#8 ++ 0#4 ++ 0#1 ++ 5#6 ++ 2#4 ++ 0#2 ++ 19#6 ++ 9#6 ++ 10#4 ++ 0#15 : BitVec 64) none
      = some (.ldt { hd := { unit := .ld, stop := true, stall := 5, guard := 0, gneg := false, imm := none }, d := 5, areg := 2, amode := 0, b := 19, c := 9, ty := 10, disp := 0 })
    ∧ decodeWord (1#1 ++ 3#4 ++ 5#3 ++ 0x08#8 ++ 0#4 ++ 0#1 ++ 5#6 ++ 2#4 ++ 0#2 ++ 32#6 ++ 3#6 ++ 7#4 ++ 0#15 : BitVec 64) none
      = some (.ldSW { hd := { unit := .ld, stop := true, stall := 5, guard := 0, gneg := false, imm := none }, d := 5, areg := 2, amode := 0, b := 32, c := 3, ty := 7, disp := 0 })
    ∧ decodeWord (1#1 ++ 3#4 ++ 5#3 ++ 0x10#8 ++ 0#4 ++ 0#1 ++ 1#6 ++ 2#4 ++ 0#2 ++ 3#6 ++ 0#6 ++ 6#4 ++ 0#15 : BitVec 64) none
      = some (.amoAdd { hd := { unit := .ld, stop := true, stall := 5, guard := 0, gneg := false, imm := none }, d := 1, areg := 2, amode := 0, b := 3, c := 0, ty := 6, disp := 0 })
    ∧ decodeWord (1#1 ++ 3#4 ++ 5#3 ++ 0x11#8 ++ 2#4 ++ 1#1 ++ 1#6 ++ 2#4 ++ 0#2 ++ 3#6 ++ 0#6 ++ 6#4 ++ 0#15 : BitVec 64) none
      = some (.amoMin { hd := { unit := .ld, stop := true, stall := 5, guard := 2, gneg := true, imm := none }, d := 1, areg := 2, amode := 0, b := 3, c := 0, ty := 6, disp := 0 })
    ∧ decodeWord (1#1 ++ 3#4 ++ 5#3 ++ 0x12#8 ++ 2#4 ++ 1#1 ++ 1#6 ++ 2#4 ++ 0#2 ++ 3#6 ++ 0#6 ++ 6#4 ++ 0#15 : BitVec 64) none
      = some (.amoMax { hd := { unit := .ld, stop := true, stall := 5, guard := 2, gneg := true, imm := none }, d := 1, areg := 2, amode := 0, b := 3, c := 0, ty := 6, disp := 0 })
    ∧ decodeWord (1#1 ++ 3#4 ++ 5#3 ++ 0x13#8 ++ 2#4 ++ 1#1 ++ 1#6 ++ 2#4 ++ 0#2 ++ 3#6 ++ 0#6 ++ 6#4 ++ 0#15 : BitVec 64) none
      = some (.amoXchg { hd := { unit := .ld, stop := true, stall := 5, guard := 2, gneg := true, imm := none }, d := 1, areg := 2, amode := 0, b := 3, c := 0, ty := 6, disp := 0 })
    ∧ decodeWord (1#1 ++ 3#4 ++ 5#3 ++ 0x14#8 ++ 0#4 ++ 0#1 ++ 1#6 ++ 2#4 ++ 0#2 ++ 3#6 ++ 4#6 ++ 0#4 ++ 0#15 : BitVec 64) none
      = some (.amoCas { hd := { unit := .ld, stop := true, stall := 5, guard := 0, gneg := false, imm := none }, d := 1, areg := 2, amode := 0, b := 3, c := 4, ty := 0, disp := 0 }) := by decide

theorem test_decode_load_b :
    decodeWord (1#1 ++ 3#4 ++ 5#3 ++ 0x18#8 ++ 2#4 ++ 1#1 ++ 63#6 ++ 1#4 ++ 0#2 ++ 0#6 ++ 0#6 ++ 0#4 ++ 0#15 : BitVec 64) none
      = some (.patld { hd := { unit := .ld, stop := true, stall := 5, guard := 2, gneg := true, imm := none }, d := 63, areg := 1, amode := 0, b := 0, c := 0, ty := 0, disp := 0 }) := by decide

theorem test_decode_store :
    decodeWord (1#1 ++ 4#4 ++ 5#3 ++ 0x00#8 ++ 0#4 ++ 0#1 ++ 1#6 ++ 2#4 ++ 2#2 ++ 0#6 ++ 0#6 ++ 1#4 ++ 0x4001#15 : BitVec 64) none
      = some (.stS { hd := { unit := .st, stop := true, stall := 5, guard := 0, gneg := false, imm := none }, d := 1, areg := 2, amode := 2, b := 0, c := 0, ty := 1, disp := 16385 })
    ∧ decodeWord (1#1 ++ 4#4 ++ 5#3 ++ 0x02#8 ++ 2#4 ++ 1#1 ++ 9#6 ++ 3#4 ++ 1#2 ++ 0#6 ++ 0#6 ++ 11#4 ++ 0#15 : BitVec 64) none
      = some (.stV { hd := { unit := .st, stop := true, stall := 5, guard := 2, gneg := true, imm := none }, d := 9, areg := 3, amode := 1, b := 0, c := 0, ty := 11, disp := 0 })
    ∧ decodeWord (1#1 ++ 4#4 ++ 5#3 ++ 0x04#8 ++ 0#4 ++ 0#1 ++ 9#6 ++ 3#4 ++ 0#2 ++ 10#6 ++ 0#6 ++ 5#4 ++ 0#15 : BitVec 64) none
      = some (.stVS { hd := { unit := .st, stop := true, stall := 5, guard := 0, gneg := false, imm := none }, d := 9, areg := 3, amode := 0, b := 10, c := 0, ty := 5, disp := 0 })
    ∧ decodeWord (1#1 ++ 4#4 ++ 5#3 ++ 0x05#8 ++ 0#4 ++ 0#1 ++ 9#6 ++ 3#4 ++ 0#2 ++ 0#6 ++ 0#6 ++ 4#4 ++ 0#15 : BitVec 64) none
      = some (.stVC { hd := { unit := .st, stop := true, stall := 5, guard := 0, gneg := false, imm := none }, d := 9, areg := 3, amode := 0, b := 0, c := 0, ty := 4, disp := 0 })
    ∧ decodeWord (1#1 ++ 4#4 ++ 5#3 ++ 0x08#8 ++ 2#4 ++ 1#1 ++ 9#6 ++ 3#4 ++ 0#2 ++ 0#6 ++ 0#6 ++ 7#4 ++ 0#15 : BitVec 64) none
      = some (.stSW { hd := { unit := .st, stop := true, stall := 5, guard := 2, gneg := true, imm := none }, d := 9, areg := 3, amode := 0, b := 0, c := 0, ty := 7, disp := 0 }) := by decide

theorem test_decode_vector_a :
    decodeWord (1#1 ++ 5#4 ++ 5#3 ++ 0x00#8 ++ 2#4 ++ 1#1 ++ 1#6 ++ 2#6 ++ 60#6 ++ 0#6 ++ 2#4 ++ 0#2 ++ 0#13 : BitVec 64) none
      = some (.vadd { hd := { unit := .v0, stop := true, stall := 5, guard := 2, gneg := true, imm := none }, dst := 1, a := 2, b := 60, c := 0, ty := 2, rnd := 0, fn := 0 })
    ∧ decodeWord (1#1 ++ 5#4 ++ 5#3 ++ 0x01#8 ++ 0#4 ++ 0#1 ++ 1#6 ++ 2#6 ++ 60#6 ++ 0#6 ++ 2#4 ++ 0#2 ++ 0#13 : BitVec 64) none
      = some (.vsub { hd := { unit := .v0, stop := true, stall := 5, guard := 0, gneg := false, imm := none }, dst := 1, a := 2, b := 60, c := 0, ty := 2, rnd := 0, fn := 0 })
    ∧ decodeWord (1#1 ++ 5#4 ++ 5#3 ++ 0x02#8 ++ 0#4 ++ 0#1 ++ 1#6 ++ 2#6 ++ 60#6 ++ 0#6 ++ 2#4 ++ 0#2 ++ 0#13 : BitVec 64) none
      = some (.vadds { hd := { unit := .v0, stop := true, stall := 5, guard := 0, gneg := false, imm := none }, dst := 1, a := 2, b := 60, c := 0, ty := 2, rnd := 0, fn := 0 })
    ∧ decodeWord (1#1 ++ 5#4 ++ 5#3 ++ 0x03#8 ++ 2#4 ++ 1#1 ++ 1#6 ++ 2#6 ++ 60#6 ++ 0#6 ++ 2#4 ++ 0#2 ++ 0#13 : BitVec 64) none
      = some (.vsubs { hd := { unit := .v0, stop := true, stall := 5, guard := 2, gneg := true, imm := none }, dst := 1, a := 2, b := 60, c := 0, ty := 2, rnd := 0, fn := 0 })
    ∧ decodeWord (1#1 ++ 5#4 ++ 5#3 ++ 0x04#8 ++ 0#4 ++ 0#1 ++ 1#6 ++ 2#6 ++ 60#6 ++ 0#6 ++ 2#4 ++ 0#2 ++ 0#13 : BitVec 64) none
      = some (.vmul { hd := { unit := .v0, stop := true, stall := 5, guard := 0, gneg := false, imm := none }, dst := 1, a := 2, b := 60, c := 0, ty := 2, rnd := 0, fn := 0 })
    ∧ decodeWord (1#1 ++ 5#4 ++ 5#3 ++ 0x05#8 ++ 0#4 ++ 0#1 ++ 1#6 ++ 2#6 ++ 60#6 ++ 0#6 ++ 2#4 ++ 0#2 ++ 0#13 : BitVec 64) none
      = some (.vmulh { hd := { unit := .v0, stop := true, stall := 5, guard := 0, gneg := false, imm := none }, dst := 1, a := 2, b := 60, c := 0, ty := 2, rnd := 0, fn := 0 })
    ∧ decodeWord (1#1 ++ 5#4 ++ 5#3 ++ 0x06#8 ++ 0#4 ++ 0#1 ++ 1#6 ++ 2#6 ++ 3#6 ++ 62#6 ++ 5#4 ++ 0#2 ++ 0#13 : BitVec 64) none
      = some (.vmad { hd := { unit := .v0, stop := true, stall := 5, guard := 0, gneg := false, imm := none }, dst := 1, a := 2, b := 3, c := 62, ty := 5, rnd := 0, fn := 0 })
    ∧ decodeWord (1#1 ++ 5#4 ++ 5#3 ++ 0x07#8 ++ 2#4 ++ 1#1 ++ 1#6 ++ 2#6 ++ 3#6 ++ 4#6 ++ 4#4 ++ 0#2 ++ 0#13 : BitVec 64) none
      = some (.vdot4 { hd := { unit := .v0, stop := true, stall := 5, guard := 2, gneg := true, imm := none }, dst := 1, a := 2, b := 3, c := 4, ty := 4, rnd := 0, fn := 0 })
    ∧ decodeWord (1#1 ++ 5#4 ++ 5#3 ++ 0x08#8 ++ 2#4 ++ 1#1 ++ 1#6 ++ 2#6 ++ 60#6 ++ 0#6 ++ 2#4 ++ 0#2 ++ 0#13 : BitVec 64) none
      = some (.vand { hd := { unit := .v0, stop := true, stall := 5, guard := 2, gneg := true, imm := none }, dst := 1, a := 2, b := 60, c := 0, ty := 2, rnd := 0, fn := 0 })
    ∧ decodeWord (1#1 ++ 5#4 ++ 5#3 ++ 0x09#8 ++ 2#4 ++ 1#1 ++ 1#6 ++ 2#6 ++ 60#6 ++ 0#6 ++ 2#4 ++ 0#2 ++ 0#13 : BitVec 64) none
      = some (.vor { hd := { unit := .v0, stop := true, stall := 5, guard := 2, gneg := true, imm := none }, dst := 1, a := 2, b := 60, c := 0, ty := 2, rnd := 0, fn := 0 })
    ∧ decodeWord (1#1 ++ 5#4 ++ 5#3 ++ 0x0A#8 ++ 2#4 ++ 1#1 ++ 1#6 ++ 2#6 ++ 60#6 ++ 0#6 ++ 2#4 ++ 0#2 ++ 0#13 : BitVec 64) none
      = some (.vxor { hd := { unit := .v0, stop := true, stall := 5, guard := 2, gneg := true, imm := none }, dst := 1, a := 2, b := 60, c := 0, ty := 2, rnd := 0, fn := 0 })
    ∧ decodeWord (1#1 ++ 5#4 ++ 5#3 ++ 0x0B#8 ++ 2#4 ++ 1#1 ++ 1#6 ++ 2#6 ++ 60#6 ++ 0#6 ++ 2#4 ++ 0#2 ++ 0#13 : BitVec 64) none
      = some (.vshl { hd := { unit := .v0, stop := true, stall := 5, guard := 2, gneg := true, imm := none }, dst := 1, a := 2, b := 60, c := 0, ty := 2, rnd := 0, fn := 0 }) := by decide

theorem test_decode_vector_b :
    decodeWord (1#1 ++ 5#4 ++ 5#3 ++ 0x0C#8 ++ 2#4 ++ 1#1 ++ 1#6 ++ 2#6 ++ 60#6 ++ 0#6 ++ 2#4 ++ 0#2 ++ 0#13 : BitVec 64) none
      = some (.vshr { hd := { unit := .v0, stop := true, stall := 5, guard := 2, gneg := true, imm := none }, dst := 1, a := 2, b := 60, c := 0, ty := 2, rnd := 0, fn := 0 })
    ∧ decodeWord (1#1 ++ 5#4 ++ 5#3 ++ 0x0D#8 ++ 0#4 ++ 0#1 ++ 1#6 ++ 2#6 ++ 60#6 ++ 0#6 ++ 2#4 ++ 0#2 ++ 0#13 : BitVec 64) none
      = some (.vsra { hd := { unit := .v0, stop := true, stall := 5, guard := 0, gneg := false, imm := none }, dst := 1, a := 2, b := 60, c := 0, ty := 2, rnd := 0, fn := 0 })
    ∧ decodeWord (1#1 ++ 5#4 ++ 5#3 ++ 0x0E#8 ++ 0#4 ++ 0#1 ++ 1#6 ++ 2#6 ++ 60#6 ++ 0#6 ++ 2#4 ++ 0#2 ++ 0#13 : BitVec 64) none
      = some (.vmin { hd := { unit := .v0, stop := true, stall := 5, guard := 0, gneg := false, imm := none }, dst := 1, a := 2, b := 60, c := 0, ty := 2, rnd := 0, fn := 0 })
    ∧ decodeWord (1#1 ++ 5#4 ++ 5#3 ++ 0x0F#8 ++ 0#4 ++ 0#1 ++ 1#6 ++ 2#6 ++ 60#6 ++ 0#6 ++ 2#4 ++ 0#2 ++ 0#13 : BitVec 64) none
      = some (.vmax { hd := { unit := .v0, stop := true, stall := 5, guard := 0, gneg := false, imm := none }, dst := 1, a := 2, b := 60, c := 0, ty := 2, rnd := 0, fn := 0 })
    ∧ decodeWord (1#1 ++ 5#4 ++ 5#3 ++ 0x10#8 ++ 0#4 ++ 0#1 ++ 1#6 ++ 2#6 ++ 0#6 ++ 0#6 ++ 1#4 ++ 0#2 ++ 0#13 : BitVec 64) none
      = some (.vabs { hd := { unit := .v0, stop := true, stall := 5, guard := 0, gneg := false, imm := none }, dst := 1, a := 2, b := 0, c := 0, ty := 1, rnd := 0, fn := 0 })
    ∧ decodeWord (1#1 ++ 5#4 ++ 5#3 ++ 0x11#8 ++ 0#4 ++ 0#1 ++ 1#6 ++ 2#6 ++ 0#6 ++ 0#6 ++ 1#4 ++ 0#2 ++ 0#13 : BitVec 64) none
      = some (.vneg { hd := { unit := .v0, stop := true, stall := 5, guard := 0, gneg := false, imm := none }, dst := 1, a := 2, b := 0, c := 0, ty := 1, rnd := 0, fn := 0 })
    ∧ decodeWord (1#1 ++ 5#4 ++ 5#3 ++ 0x18#8 ++ 0#4 ++ 0#1 ++ 7#6 ++ 2#6 ++ 3#6 ++ 0#6 ++ 3#4 ++ 0#2 ++ 4#13 : BitVec 64) none
      = some (.vcmp { hd := { unit := .v0, stop := true, stall := 5, guard := 0, gneg := false, imm := none }, dst := 7, a := 2, b := 3, c := 0, ty := 3, rnd := 0, fn := 4 })
    ∧ decodeWord (1#1 ++ 5#4 ++ 5#3 ++ 0x19#8 ++ 0#4 ++ 0#1 ++ 1#6 ++ 2#6 ++ 3#6 ++ 4#6 ++ 8#4 ++ 0#2 ++ 0#13 : BitVec 64) none
      = some (.vsel { hd := { unit := .v0, stop := true, stall := 5, guard := 0, gneg := false, imm := none }, dst := 1, a := 2, b := 3, c := 4, ty := 8, rnd := 0, fn := 0 })
    ∧ decodeWord (1#1 ++ 5#4 ++ 5#3 ++ 0x1A#8 ++ 0#4 ++ 0#1 ++ 1#6 ++ 61#6 ++ 0#6 ++ 0#6 ++ 7#4 ++ 0#2 ++ 0#13 : BitVec 64) none
      = some (.vmov { hd := { unit := .v0, stop := true, stall := 5, guard := 0, gneg := false, imm := none }, dst := 1, a := 61, b := 0, c := 0, ty := 7, rnd := 0, fn := 0 })
    ∧ decodeWord (1#1 ++ 5#4 ++ 5#3 ++ 0x1B#8 ++ 0#4 ++ 0#1 ++ 1#6 ++ 2#6 ++ 0#6 ++ 0#6 ++ 8#4 ++ 0#2 ++ 0#13 : BitVec 64) none
      = some (.vbcastS { hd := { unit := .v0, stop := true, stall := 5, guard := 0, gneg := false, imm := none }, dst := 1, a := 2, b := 0, c := 0, ty := 8, rnd := 0, fn := 0 })
    ∧ decodeWord (1#1 ++ 5#4 ++ 5#3 ++ 0x1B#8 ++ 0#4 ++ 0#1 ++ 1#6 ++ 2#6 ++ 0#6 ++ 0#6 ++ 8#4 ++ 0#2 ++ 0x1005#13 : BitVec 64) none
      = some (.vbcastE { hd := { unit := .v0, stop := true, stall := 5, guard := 0, gneg := false, imm := none }, dst := 1, a := 2, b := 0, c := 0, ty := 8, rnd := 0, fn := 4101 })
    ∧ decodeWord (1#1 ++ 5#4 ++ 5#3 ++ 0x20#8 ++ 2#4 ++ 1#1 ++ 1#6 ++ 2#6 ++ 3#6 ++ 0#6 ++ 8#4 ++ 2#2 ++ 0x5A#13 : BitVec 64) none
      = some (.vfadd { hd := { unit := .v0, stop := true, stall := 5, guard := 2, gneg := true, imm := none }, dst := 1, a := 2, b := 3, c := 0, ty := 8, rnd := 2, fn := 90 }) := by decide

theorem test_decode_vector_c :
    decodeWord (1#1 ++ 5#4 ++ 5#3 ++ 0x21#8 ++ 0#4 ++ 0#1 ++ 1#6 ++ 2#6 ++ 3#6 ++ 0#6 ++ 8#4 ++ 2#2 ++ 0x5A#13 : BitVec 64) none
      = some (.vfsub { hd := { unit := .v0, stop := true, stall := 5, guard := 0, gneg := false, imm := none }, dst := 1, a := 2, b := 3, c := 0, ty := 8, rnd := 2, fn := 90 })
    ∧ decodeWord (1#1 ++ 5#4 ++ 5#3 ++ 0x22#8 ++ 0#4 ++ 0#1 ++ 1#6 ++ 2#6 ++ 3#6 ++ 0#6 ++ 8#4 ++ 2#2 ++ 0x5A#13 : BitVec 64) none
      = some (.vfmul { hd := { unit := .v0, stop := true, stall := 5, guard := 0, gneg := false, imm := none }, dst := 1, a := 2, b := 3, c := 0, ty := 8, rnd := 2, fn := 90 })
    ∧ decodeWord (1#1 ++ 5#4 ++ 5#3 ++ 0x23#8 ++ 0#4 ++ 0#1 ++ 1#6 ++ 2#6 ++ 3#6 ++ 4#6 ++ 7#4 ++ 0#2 ++ 0#13 : BitVec 64) none
      = some (.vfma { hd := { unit := .v0, stop := true, stall := 5, guard := 0, gneg := false, imm := none }, dst := 1, a := 2, b := 3, c := 4, ty := 7, rnd := 0, fn := 0 })
    ∧ decodeWord (1#1 ++ 5#4 ++ 5#3 ++ 0x24#8 ++ 0#4 ++ 0#1 ++ 1#6 ++ 2#6 ++ 3#6 ++ 0#6 ++ 10#4 ++ 0#2 ++ 0#13 : BitVec 64) none
      = some (.vfmin { hd := { unit := .v0, stop := true, stall := 5, guard := 0, gneg := false, imm := none }, dst := 1, a := 2, b := 3, c := 0, ty := 10, rnd := 0, fn := 0 })
    ∧ decodeWord (1#1 ++ 5#4 ++ 5#3 ++ 0x25#8 ++ 0#4 ++ 0#1 ++ 1#6 ++ 2#6 ++ 3#6 ++ 0#6 ++ 10#4 ++ 0#2 ++ 0#13 : BitVec 64) none
      = some (.vfmax { hd := { unit := .v0, stop := true, stall := 5, guard := 0, gneg := false, imm := none }, dst := 1, a := 2, b := 3, c := 0, ty := 10, rnd := 0, fn := 0 })
    ∧ decodeWord (1#1 ++ 5#4 ++ 5#3 ++ 0x26#8 ++ 0#4 ++ 0#1 ++ 1#6 ++ 2#6 ++ 0#6 ++ 0#6 ++ 9#4 ++ 0#2 ++ 0#13 : BitVec 64) none
      = some (.vfabs { hd := { unit := .v0, stop := true, stall := 5, guard := 0, gneg := false, imm := none }, dst := 1, a := 2, b := 0, c := 0, ty := 9, rnd := 0, fn := 0 })
    ∧ decodeWord (1#1 ++ 5#4 ++ 5#3 ++ 0x27#8 ++ 0#4 ++ 0#1 ++ 1#6 ++ 2#6 ++ 3#6 ++ 0#6 ++ 7#4 ++ 0#2 ++ 6#13 : BitVec 64) none
      = some (.vfcmp { hd := { unit := .v0, stop := true, stall := 5, guard := 0, gneg := false, imm := none }, dst := 1, a := 2, b := 3, c := 0, ty := 7, rnd := 0, fn := 6 })
    ∧ decodeWord (1#1 ++ 5#4 ++ 5#3 ++ 0x30#8 ++ 2#4 ++ 1#1 ++ 4#6 ++ 2#6 ++ 0#6 ++ 0#6 ++ 7#4 ++ 0#2 ++ 8#13 : BitVec 64) none
      = some (.vcvt { hd := { unit := .v0, stop := true, stall := 5, guard := 2, gneg := true, imm := none }, dst := 4, a := 2, b := 0, c := 0, ty := 7, rnd := 0, fn := 8 })
    ∧ decodeWord (1#1 ++ 5#4 ++ 5#3 ++ 0x31#8 ++ 2#4 ++ 1#1 ++ 4#6 ++ 2#6 ++ 0#6 ++ 0#6 ++ 1#4 ++ 0#2 ++ 2#13 : BitVec 64) none
      = some (.vpack { hd := { unit := .v0, stop := true, stall := 5, guard := 2, gneg := true, imm := none }, dst := 4, a := 2, b := 0, c := 0, ty := 1, rnd := 0, fn := 2 })
    ∧ decodeWord (1#1 ++ 5#4 ++ 5#3 ++ 0x32#8 ++ 0#4 ++ 0#1 ++ 4#6 ++ 2#6 ++ 0#6 ++ 0#6 ++ 10#4 ++ 0#2 ++ 44#13 : BitVec 64) none
      = some (.vunpk { hd := { unit := .v0, stop := true, stall := 5, guard := 0, gneg := false, imm := none }, dst := 4, a := 2, b := 0, c := 0, ty := 10, rnd := 0, fn := 44 })
    ∧ decodeWord (1#1 ++ 5#4 ++ 5#3 ++ 0x33#8 ++ 2#4 ++ 1#1 ++ 4#6 ++ 2#6 ++ 0#6 ++ 0#6 ++ 2#4 ++ 1#2 ++ 0x83#13 : BitVec 64) none
      = some (.vnarrow { hd := { unit := .v0, stop := true, stall := 5, guard := 2, gneg := true, imm := none }, dst := 4, a := 2, b := 0, c := 0, ty := 2, rnd := 1, fn := 131 })
    ∧ decodeWord (1#1 ++ 5#4 ++ 5#3 ++ 0x38#8 ++ 0#4 ++ 0#1 ++ 1#6 ++ 2#6 ++ 0#6 ++ 3#6 ++ 7#4 ++ 0#2 ++ 7#13 : BitVec 64) none
      = some (.vredAdd { hd := { unit := .v0, stop := true, stall := 5, guard := 0, gneg := false, imm := none }, dst := 1, a := 2, b := 0, c := 3, ty := 7, rnd := 0, fn := 7 }) := by decide

theorem test_decode_vector_d :
    decodeWord (1#1 ++ 5#4 ++ 5#3 ++ 0x39#8 ++ 2#4 ++ 1#1 ++ 1#6 ++ 2#6 ++ 0#6 ++ 3#6 ++ 7#4 ++ 0#2 ++ 7#13 : BitVec 64) none
      = some (.vredMax { hd := { unit := .v0, stop := true, stall := 5, guard := 2, gneg := true, imm := none }, dst := 1, a := 2, b := 0, c := 3, ty := 7, rnd := 0, fn := 7 })
    ∧ decodeWord (1#1 ++ 5#4 ++ 5#3 ++ 0x3A#8 ++ 2#4 ++ 1#1 ++ 1#6 ++ 2#6 ++ 0#6 ++ 3#6 ++ 7#4 ++ 0#2 ++ 7#13 : BitVec 64) none
      = some (.vredMin { hd := { unit := .v0, stop := true, stall := 5, guard := 2, gneg := true, imm := none }, dst := 1, a := 2, b := 0, c := 3, ty := 7, rnd := 0, fn := 7 })
    ∧ decodeWord (1#1 ++ 5#4 ++ 5#3 ++ 0x3B#8 ++ 0#4 ++ 0#1 ++ 1#6 ++ 2#6 ++ 0#6 ++ 3#6 ++ 7#4 ++ 0#2 ++ 7#13 : BitVec 64) none
      = some (.vscanAdd { hd := { unit := .v0, stop := true, stall := 5, guard := 0, gneg := false, imm := none }, dst := 1, a := 2, b := 0, c := 3, ty := 7, rnd := 0, fn := 7 })
    ∧ decodeWord (1#1 ++ 5#4 ++ 5#3 ++ 0x40#8 ++ 0#4 ++ 0#1 ++ 1#6 ++ 2#6 ++ 0#6 ++ 0#6 ++ 0#4 ++ 0#2 ++ 63#13 : BitVec 64) none
      = some (.vshuf { hd := { unit := .v0, stop := true, stall := 5, guard := 0, gneg := false, imm := none }, dst := 1, a := 2, b := 0, c := 0, ty := 0, rnd := 0, fn := 63 })
    ∧ decodeWord (1#1 ++ 5#4 ++ 5#3 ++ 0x41#8 ++ 0#4 ++ 0#1 ++ 0#6 ++ 0#6 ++ 0#6 ++ 0#6 ++ 0#4 ++ 0#2 ++ 0#13 : BitVec 64) none
      = some (.patswap { hd := { unit := .v0, stop := true, stall := 5, guard := 0, gneg := false, imm := none }, dst := 0, a := 0, b := 0, c := 0, ty := 0, rnd := 0, fn := 0 })
    ∧ decodeWord (1#1 ++ 5#4 ++ 5#3 ++ 0x42#8 ++ 0#4 ++ 0#1 ++ 1#6 ++ 2#6 ++ 3#6 ++ 0#6 ++ 5#4 ++ 0#2 ++ 0#13 : BitVec 64) none
      = some (.vperm { hd := { unit := .v0, stop := true, stall := 5, guard := 0, gneg := false, imm := none }, dst := 1, a := 2, b := 3, c := 0, ty := 5, rnd := 0, fn := 0 })
    ∧ decodeWord (1#1 ++ 5#4 ++ 5#3 ++ 0x43#8 ++ 2#4 ++ 1#1 ++ 1#6 ++ 2#6 ++ 3#6 ++ 4#6 ++ 7#4 ++ 0#2 ++ 0#13 : BitVec 64) none
      = some (.vcompact { hd := { unit := .v0, stop := true, stall := 5, guard := 2, gneg := true, imm := none }, dst := 1, a := 2, b := 3, c := 4, ty := 7, rnd := 0, fn := 0 })
    ∧ decodeWord (1#1 ++ 5#4 ++ 5#3 ++ 0x44#8 ++ 0#4 ++ 0#1 ++ 1#6 ++ 2#6 ++ 3#6 ++ 4#6 ++ 7#4 ++ 0#2 ++ 0#13 : BitVec 64) none
      = some (.vexpand { hd := { unit := .v0, stop := true, stall := 5, guard := 0, gneg := false, imm := none }, dst := 1, a := 2, b := 3, c := 4, ty := 7, rnd := 0, fn := 0 })
    ∧ decodeWord (1#1 ++ 5#4 ++ 5#3 ++ 0x48#8 ++ 0#4 ++ 0#1 ++ 1#6 ++ 2#6 ++ 0#6 ++ 0#6 ++ 0#4 ++ 0#2 ++ 0#13 : BitVec 64) none
      = some (.vmapSet { hd := { unit := .v0, stop := true, stall := 5, guard := 0, gneg := false, imm := none }, dst := 1, a := 2, b := 0, c := 0, ty := 0, rnd := 0, fn := 0 })
    ∧ decodeWord (1#1 ++ 5#4 ++ 5#3 ++ 0x48#8 ++ 2#4 ++ 1#1 ++ 1#6 ++ 2#6 ++ 0#6 ++ 0#6 ++ 0#4 ++ 0#2 ++ 1#13 : BitVec 64) none
      = some (.vmapCopy { hd := { unit := .v0, stop := true, stall := 5, guard := 2, gneg := true, imm := none }, dst := 1, a := 2, b := 0, c := 0, ty := 0, rnd := 0, fn := 1 })
    ∧ decodeWord (0#1 ++ 5#4 ++ 0#3 ++ 0x48#8 ++ 2#4 ++ 1#1 ++ 1#6 ++ 2#6 ++ 63#6 ++ 0#6 ++ 0#4 ++ 0#2 ++ 18#13 : BitVec 64) (some 0xFD00000000FFFFFD)
      = some (.vmapOff { hd := { unit := .v0, stop := false, stall := 0, guard := 2, gneg := true, imm := some { stop := true, stall := 5, value := 0xFFFFFD } }, dst := 1, a := 2, b := 63, c := 0, ty := 0, rnd := 0, fn := 18 })
    ∧ decodeWord (0#1 ++ 5#4 ++ 0#3 ++ 0x48#8 ++ 0#4 ++ 0#1 ++ 1#6 ++ 2#6 ++ 63#6 ++ 0#6 ++ 0#4 ++ 0#2 ++ 11#13 : BitVec 64) (some 0xFD00000010000004)
      = some (.vmapSlice { hd := { unit := .v0, stop := false, stall := 0, guard := 0, gneg := false, imm := some { stop := true, stall := 5, value := 0x10000004 } }, dst := 1, a := 2, b := 63, c := 0, ty := 0, rnd := 0, fn := 11 }) := by decide

theorem test_decode_vector_e :
    decodeWord (1#1 ++ 5#4 ++ 5#3 ++ 0x48#8 ++ 0#4 ++ 0#1 ++ 1#6 ++ 2#6 ++ 0#6 ++ 0#6 ++ 0#4 ++ 0#2 ++ 0x4C#13 : BitVec 64) none
      = some (.vmapTr { hd := { unit := .v0, stop := true, stall := 5, guard := 0, gneg := false, imm := none }, dst := 1, a := 2, b := 0, c := 0, ty := 0, rnd := 0, fn := 76 })
    ∧ decodeWord (1#1 ++ 5#4 ++ 5#3 ++ 0x48#8 ++ 0#4 ++ 0#1 ++ 1#6 ++ 0#6 ++ 0#6 ++ 0#6 ++ 0#4 ++ 0#2 ++ 5#13 : BitVec 64) none
      = some (.vmapNone { hd := { unit := .v0, stop := true, stall := 5, guard := 0, gneg := false, imm := none }, dst := 1, a := 0, b := 0, c := 0, ty := 0, rnd := 0, fn := 5 })
    ∧ decodeWord (0#1 ++ 5#4 ++ 0#3 ++ 0x48#8 ++ 0#4 ++ 0#1 ++ 1#6 ++ 2#6 ++ 63#6 ++ 0#6 ++ 0#4 ++ 0#2 ++ 6#13 : BitVec 64) (some 0xFD00000000001234)
      = some (.vmapTag { hd := { unit := .v0, stop := false, stall := 0, guard := 0, gneg := false, imm := some { stop := true, stall := 5, value := 0x1234 } }, dst := 1, a := 2, b := 63, c := 0, ty := 0, rnd := 0, fn := 6 })
    ∧ decodeWord (1#1 ++ 5#4 ++ 5#3 ++ 0x49#8 ++ 2#4 ++ 1#1 ++ 1#6 ++ 2#6 ++ 0#6 ++ 0#6 ++ 5#4 ++ 0#2 ++ 4#13 : BitVec 64) none
      = some (.vcoord { hd := { unit := .v0, stop := true, stall := 5, guard := 2, gneg := true, imm := none }, dst := 1, a := 2, b := 0, c := 0, ty := 5, rnd := 0, fn := 4 })
    ∧ decodeWord (1#1 ++ 5#4 ++ 5#3 ++ 0x4A#8 ++ 0#4 ++ 0#1 ++ 1#6 ++ 2#6 ++ 3#6 ++ 0#6 ++ 6#4 ++ 0#2 ++ 0xFF#13 : BitVec 64) none
      = some (.vnoise { hd := { unit := .v0, stop := true, stall := 5, guard := 0, gneg := false, imm := none }, dst := 1, a := 2, b := 3, c := 0, ty := 6, rnd := 0, fn := 255 })
    ∧ decodeWord (1#1 ++ 5#4 ++ 5#3 ++ 0x4B#8 ++ 0#4 ++ 0#1 ++ 1#6 ++ 2#6 ++ 0#6 ++ 0#6 ++ 7#4 ++ 0#2 ++ 0x109#13 : BitVec 64) none
      = some (.vmaskcCausal { hd := { unit := .v0, stop := true, stall := 5, guard := 0, gneg := false, imm := none }, dst := 1, a := 2, b := 0, c := 0, ty := 7, rnd := 0, fn := 265 })
    ∧ decodeWord (1#1 ++ 5#4 ++ 5#3 ++ 0x4B#8 ++ 0#4 ++ 0#1 ++ 1#6 ++ 2#6 ++ 9#6 ++ 0#6 ++ 7#4 ++ 0#2 ++ 0x129#13 : BitVec 64) none
      = some (.vmaskcBand { hd := { unit := .v0, stop := true, stall := 5, guard := 0, gneg := false, imm := none }, dst := 1, a := 2, b := 9, c := 0, ty := 7, rnd := 0, fn := 297 })
    ∧ decodeWord (1#1 ++ 5#4 ++ 5#3 ++ 0x4B#8 ++ 2#4 ++ 1#1 ++ 1#6 ++ 2#6 ++ 9#6 ++ 0#6 ++ 7#4 ++ 0#2 ++ 0x149#13 : BitVec 64) none
      = some (.vmaskcWin { hd := { unit := .v0, stop := true, stall := 5, guard := 2, gneg := true, imm := none }, dst := 1, a := 2, b := 9, c := 0, ty := 7, rnd := 0, fn := 329 })
    ∧ decodeWord (1#1 ++ 5#4 ++ 5#3 ++ 0x4B#8 ++ 2#4 ++ 1#1 ++ 1#6 ++ 2#6 ++ 9#6 ++ 0#6 ++ 7#4 ++ 0#2 ++ 0x161#13 : BitVec 64) none
      = some (.vmaskcLt { hd := { unit := .v0, stop := true, stall := 5, guard := 2, gneg := true, imm := none }, dst := 1, a := 2, b := 9, c := 0, ty := 7, rnd := 0, fn := 353 })
    ∧ decodeWord (1#1 ++ 5#4 ++ 5#3 ++ 0x4B#8 ++ 2#4 ++ 1#1 ++ 1#6 ++ 2#6 ++ 9#6 ++ 0#6 ++ 7#4 ++ 0#2 ++ 0x181#13 : BitVec 64) none
      = some (.vmaskcGe { hd := { unit := .v0, stop := true, stall := 5, guard := 2, gneg := true, imm := none }, dst := 1, a := 2, b := 9, c := 0, ty := 7, rnd := 0, fn := 385 })
    ∧ decodeWord (1#1 ++ 5#4 ++ 5#3 ++ 0x50#8 ++ 0#4 ++ 0#1 ++ 2#6 ++ 4#6 ++ 6#6 ++ 0#6 ++ 7#4 ++ 0#2 ++ 0#13 : BitVec 64) none
      = some (.vtopk8 { hd := { unit := .v0, stop := true, stall := 5, guard := 0, gneg := false, imm := none }, dst := 2, a := 4, b := 6, c := 0, ty := 7, rnd := 0, fn := 0 })
    ∧ decodeWord (1#1 ++ 5#4 ++ 5#3 ++ 0x51#8 ++ 0#4 ++ 0#1 ++ 2#6 ++ 4#6 ++ 0#6 ++ 0#6 ++ 3#4 ++ 0#2 ++ 0x143#13 : BitVec 64) none
      = some (.vsortStep { hd := { unit := .v0, stop := true, stall := 5, guard := 0, gneg := false, imm := none }, dst := 2, a := 4, b := 0, c := 0, ty := 3, rnd := 0, fn := 323 }) := by decide

theorem test_decode_vector_f :
    decodeWord (1#1 ++ 5#4 ++ 5#3 ++ 0x58#8 ++ 0#4 ++ 0#1 ++ 1#6 ++ 0#6 ++ 2#6 ++ 0#6 ++ 7#4 ++ 0#2 ++ 0x7F3#13 : BitVec 64) none
      = some (.vacr { hd := { unit := .v0, stop := true, stall := 5, guard := 0, gneg := false, imm := none }, dst := 1, a := 0, b := 2, c := 0, ty := 7, rnd := 0, fn := 2035 })
    ∧ decodeWord (1#1 ++ 5#4 ++ 5#3 ++ 0x59#8 ++ 2#4 ++ 1#1 ++ 0#6 ++ 1#6 ++ 2#6 ++ 0#6 ++ 0#4 ++ 0#2 ++ 0x7F3#13 : BitVec 64) none
      = some (.vacw { hd := { unit := .v0, stop := true, stall := 5, guard := 2, gneg := true, imm := none }, dst := 0, a := 1, b := 2, c := 0, ty := 0, rnd := 0, fn := 2035 })
    ∧ decodeWord (1#1 ++ 5#4 ++ 5#3 ++ 0x59#8 ++ 0#4 ++ 0#1 ++ 0#6 ++ 1#6 ++ 2#6 ++ 0#6 ++ 0#4 ++ 0#2 ++ 0xFF3#13 : BitVec 64) none
      = some (.vacwAdd { hd := { unit := .v0, stop := true, stall := 5, guard := 0, gneg := false, imm := none }, dst := 0, a := 1, b := 2, c := 0, ty := 0, rnd := 0, fn := 4083 }) := by decide

theorem test_decode_special :
    decodeWord (1#1 ++ 8#4 ++ 5#3 ++ 0x00#8 ++ 2#4 ++ 1#1 ++ 1#6 ++ 2#6 ++ 0#6 ++ 0#6 ++ 8#4 ++ 0#2 ++ 1#13 : BitVec 64) none
      = some (.vexp2 { hd := { unit := .sf, stop := true, stall := 5, guard := 2, gneg := true, imm := none }, dst := 1, a := 2, b := 0, c := 0, ty := 8, rnd := 0, fn := 1 })
    ∧ decodeWord (1#1 ++ 8#4 ++ 5#3 ++ 0x01#8 ++ 2#4 ++ 1#1 ++ 1#6 ++ 2#6 ++ 0#6 ++ 0#6 ++ 8#4 ++ 0#2 ++ 1#13 : BitVec 64) none
      = some (.vexp { hd := { unit := .sf, stop := true, stall := 5, guard := 2, gneg := true, imm := none }, dst := 1, a := 2, b := 0, c := 0, ty := 8, rnd := 0, fn := 1 })
    ∧ decodeWord (1#1 ++ 8#4 ++ 5#3 ++ 0x02#8 ++ 0#4 ++ 0#1 ++ 1#6 ++ 2#6 ++ 0#6 ++ 0#6 ++ 8#4 ++ 0#2 ++ 1#13 : BitVec 64) none
      = some (.vlog2 { hd := { unit := .sf, stop := true, stall := 5, guard := 0, gneg := false, imm := none }, dst := 1, a := 2, b := 0, c := 0, ty := 8, rnd := 0, fn := 1 })
    ∧ decodeWord (1#1 ++ 8#4 ++ 5#3 ++ 0x03#8 ++ 0#4 ++ 0#1 ++ 1#6 ++ 2#6 ++ 0#6 ++ 0#6 ++ 8#4 ++ 0#2 ++ 1#13 : BitVec 64) none
      = some (.vln { hd := { unit := .sf, stop := true, stall := 5, guard := 0, gneg := false, imm := none }, dst := 1, a := 2, b := 0, c := 0, ty := 8, rnd := 0, fn := 1 })
    ∧ decodeWord (1#1 ++ 8#4 ++ 5#3 ++ 0x04#8 ++ 2#4 ++ 1#1 ++ 1#6 ++ 2#6 ++ 0#6 ++ 0#6 ++ 8#4 ++ 0#2 ++ 1#13 : BitVec 64) none
      = some (.vrcp { hd := { unit := .sf, stop := true, stall := 5, guard := 2, gneg := true, imm := none }, dst := 1, a := 2, b := 0, c := 0, ty := 8, rnd := 0, fn := 1 })
    ∧ decodeWord (1#1 ++ 8#4 ++ 5#3 ++ 0x05#8 ++ 0#4 ++ 0#1 ++ 1#6 ++ 2#6 ++ 0#6 ++ 0#6 ++ 8#4 ++ 0#2 ++ 1#13 : BitVec 64) none
      = some (.vrsq { hd := { unit := .sf, stop := true, stall := 5, guard := 0, gneg := false, imm := none }, dst := 1, a := 2, b := 0, c := 0, ty := 8, rnd := 0, fn := 1 })
    ∧ decodeWord (1#1 ++ 8#4 ++ 5#3 ++ 0x06#8 ++ 0#4 ++ 0#1 ++ 1#6 ++ 2#6 ++ 0#6 ++ 0#6 ++ 8#4 ++ 0#2 ++ 1#13 : BitVec 64) none
      = some (.vsqrt { hd := { unit := .sf, stop := true, stall := 5, guard := 0, gneg := false, imm := none }, dst := 1, a := 2, b := 0, c := 0, ty := 8, rnd := 0, fn := 1 })
    ∧ decodeWord (1#1 ++ 8#4 ++ 5#3 ++ 0x07#8 ++ 2#4 ++ 1#1 ++ 1#6 ++ 2#6 ++ 0#6 ++ 0#6 ++ 8#4 ++ 0#2 ++ 1#13 : BitVec 64) none
      = some (.vtanh { hd := { unit := .sf, stop := true, stall := 5, guard := 2, gneg := true, imm := none }, dst := 1, a := 2, b := 0, c := 0, ty := 8, rnd := 0, fn := 1 })
    ∧ decodeWord (1#1 ++ 8#4 ++ 5#3 ++ 0x08#8 ++ 0#4 ++ 0#1 ++ 1#6 ++ 2#6 ++ 0#6 ++ 0#6 ++ 8#4 ++ 0#2 ++ 1#13 : BitVec 64) none
      = some (.vsigm { hd := { unit := .sf, stop := true, stall := 5, guard := 0, gneg := false, imm := none }, dst := 1, a := 2, b := 0, c := 0, ty := 8, rnd := 0, fn := 1 })
    ∧ decodeWord (1#1 ++ 8#4 ++ 5#3 ++ 0x09#8 ++ 2#4 ++ 1#1 ++ 1#6 ++ 2#6 ++ 0#6 ++ 0#6 ++ 8#4 ++ 0#2 ++ 1#13 : BitVec 64) none
      = some (.verf { hd := { unit := .sf, stop := true, stall := 5, guard := 2, gneg := true, imm := none }, dst := 1, a := 2, b := 0, c := 0, ty := 8, rnd := 0, fn := 1 })
    ∧ decodeWord (1#1 ++ 8#4 ++ 5#3 ++ 0x0A#8 ++ 2#4 ++ 1#1 ++ 1#6 ++ 2#6 ++ 0#6 ++ 3#6 ++ 7#4 ++ 0#2 ++ 0#13 : BitVec 64) none
      = some (.vsincos { hd := { unit := .sf, stop := true, stall := 5, guard := 2, gneg := true, imm := none }, dst := 1, a := 2, b := 0, c := 3, ty := 7, rnd := 0, fn := 0 })
    ∧ decodeWord (1#1 ++ 8#4 ++ 5#3 ++ 0x0B#8 ++ 2#4 ++ 1#1 ++ 1#6 ++ 2#6 ++ 3#6 ++ 0#6 ++ 7#4 ++ 0#2 ++ 0#13 : BitVec 64) none
      = some (.vpows { hd := { unit := .sf, stop := true, stall := 5, guard := 2, gneg := true, imm := none }, dst := 1, a := 2, b := 3, c := 0, ty := 7, rnd := 0, fn := 0 }) := by decide

theorem test_decode_matrix :
    decodeWord (1#1 ++ 9#4 ++ 5#3 ++ 0x00#8 ++ 2#4 ++ 1#1 ++ 3#4 ++ 0#2 ++ 4#4 ++ 5#4 ++ 0#4 ++ 0#6 ++ 8#4 ++ 9#4 ++ 16#11 : BitVec 64) none
      = some (.mma { hd := { unit := .mx, stop := true, stall := 5, guard := 2, gneg := true, imm := none }, td := 3, z := 0, aa := 4, ab := 5, ax := 0, vi := 0, tya := 8, tyb := 9, fn := 16 })
    ∧ decodeWord (1#1 ++ 9#4 ++ 5#3 ++ 0x03#8 ++ 2#4 ++ 1#1 ++ 3#4 ++ 0#2 ++ 4#4 ++ 5#4 ++ 0#4 ++ 0#6 ++ 8#4 ++ 9#4 ++ 16#11 : BitVec 64) none
      = some (.mmaZ { hd := { unit := .mx, stop := true, stall := 5, guard := 2, gneg := true, imm := none }, td := 3, z := 0, aa := 4, ab := 5, ax := 0, vi := 0, tya := 8, tyb := 9, fn := 16 })
    ∧ decodeWord (1#1 ++ 9#4 ++ 5#3 ++ 0x02#8 ++ 0#4 ++ 0#1 ++ 3#4 ++ 0#2 ++ 4#4 ++ 5#4 ++ 0#4 ++ 6#6 ++ 12#4 ++ 12#4 ++ 9#11 : BitVec 64) none
      = some (.mmaG { hd := { unit := .mx, stop := true, stall := 5, guard := 0, gneg := false, imm := none }, td := 3, z := 0, aa := 4, ab := 5, ax := 0, vi := 6, tya := 12, tyb := 12, fn := 9 })
    ∧ decodeWord (1#1 ++ 9#4 ++ 5#3 ++ 0x01#8 ++ 2#4 ++ 1#1 ++ 3#4 ++ 0#2 ++ 4#4 ++ 5#4 ++ 0#4 ++ 0#6 ++ 0#4 ++ 0#4 ++ 22#11 : BitVec 64) none
      = some (.mmaT { hd := { unit := .mx, stop := true, stall := 5, guard := 2, gneg := true, imm := none }, td := 3, z := 0, aa := 4, ab := 5, ax := 0, vi := 0, tya := 0, tyb := 0, fn := 22 })
    ∧ decodeWord (1#1 ++ 9#4 ++ 5#3 ++ 0x04#8 ++ 0#4 ++ 0#1 ++ 3#4 ++ 0#2 ++ 4#4 ++ 5#4 ++ 6#4 ++ 0#6 ++ 1#4 ++ 4#4 ++ 0#11 : BitVec 64) none
      = some (.mmaBS { hd := { unit := .mx, stop := true, stall := 5, guard := 0, gneg := false, imm := none }, td := 3, z := 0, aa := 4, ab := 5, ax := 6, vi := 0, tya := 1, tyb := 4, fn := 0 })
    ∧ decodeWord (1#1 ++ 9#4 ++ 5#3 ++ 0x08#8 ++ 0#4 ++ 0#1 ++ 15#4 ++ 0#2 ++ 0#4 ++ 0#4 ++ 0#4 ++ 0#6 ++ 0#4 ++ 0#4 ++ 0#11 : BitVec 64) none
      = some (.tzero { hd := { unit := .mx, stop := true, stall := 5, guard := 0, gneg := false, imm := none }, td := 15, z := 0, aa := 0, ab := 0, ax := 0, vi := 0, tya := 0, tyb := 0, fn := 0 })
    ∧ decodeWord (1#1 ++ 9#4 ++ 5#3 ++ 0x09#8 ++ 0#4 ++ 0#1 ++ 15#4 ++ 0#2 ++ 14#4 ++ 0#4 ++ 0#4 ++ 0#6 ++ 8#4 ++ 0#4 ++ 0#11 : BitVec 64) none
      = some (.tload { hd := { unit := .mx, stop := true, stall := 5, guard := 0, gneg := false, imm := none }, td := 15, z := 0, aa := 14, ab := 0, ax := 0, vi := 0, tya := 8, tyb := 0, fn := 0 })
    ∧ decodeWord (1#1 ++ 9#4 ++ 5#3 ++ 0x0A#8 ++ 0#4 ++ 0#1 ++ 15#4 ++ 0#2 ++ 14#4 ++ 0#4 ++ 0#4 ++ 0#6 ++ 0#4 ++ 0#4 ++ 0#11 : BitVec 64) none
      = some (.tmap { hd := { unit := .mx, stop := true, stall := 5, guard := 0, gneg := false, imm := none }, td := 15, z := 0, aa := 14, ab := 0, ax := 0, vi := 0, tya := 0, tyb := 0, fn := 0 })
    ∧ decodeWord (1#1 ++ 9#4 ++ 5#3 ++ 0x0B#8 ++ 2#4 ++ 1#1 ++ 15#4 ++ 0#2 ++ 0#4 ++ 0#4 ++ 0#4 ++ 0#6 ++ 0#4 ++ 0#4 ++ 0#11 : BitVec 64) none
      = some (.twait { hd := { unit := .mx, stop := true, stall := 5, guard := 2, gneg := true, imm := none }, td := 15, z := 0, aa := 0, ab := 0, ax := 0, vi := 0, tya := 0, tyb := 0, fn := 0 }) := by decide

theorem test_decode_engine_a :
    decodeWord (1#1 ++ 10#4 ++ 5#3 ++ 0x00#8 ++ 0#4 ++ 0#1 ++ 1#6 ++ 2#6 ++ 0#6 ++ 0#6 ++ 3#3 ++ 0#3 ++ 0#2 ++ 0x401#11 : BitVec 64) none
      = some (.cpy { hd := { unit := .en, stop := true, stall := 5, guard := 0, gneg := false, imm := none }, tok := 1, a := 2, b := 0, c := 0, q := 3, scope := 0, order := 0, fn := 1025 })
    ∧ decodeWord (1#1 ++ 10#4 ++ 5#3 ++ 0x01#8 ++ 2#4 ++ 1#1 ++ 1#6 ++ 2#6 ++ 3#6 ++ 0#6 ++ 3#3 ++ 0#3 ++ 0#2 ++ 0x415#11 : BitVec 64) none
      = some (.cpym { hd := { unit := .en, stop := true, stall := 5, guard := 2, gneg := true, imm := none }, tok := 1, a := 2, b := 3, c := 0, q := 3, scope := 0, order := 0, fn := 1045 })
    ∧ decodeWord (1#1 ++ 10#4 ++ 5#3 ++ 0x02#8 ++ 0#4 ++ 0#1 ++ 1#6 ++ 2#6 ++ 3#6 ++ 0#6 ++ 2#3 ++ 0#3 ++ 0#2 ++ 0x299#11 : BitVec 64) none
      = some (.cpyl { hd := { unit := .en, stop := true, stall := 5, guard := 0, gneg := false, imm := none }, tok := 1, a := 2, b := 3, c := 0, q := 2, scope := 0, order := 0, fn := 665 })
    ∧ decodeWord (1#1 ++ 10#4 ++ 5#3 ++ 0x02#8 ++ 0#4 ++ 0#1 ++ 1#6 ++ 2#6 ++ 3#6 ++ 4#6 ++ 2#3 ++ 0#3 ++ 0#2 ++ 59#11 : BitVec 64) none
      = some (.cpylTopk { hd := { unit := .en, stop := true, stall := 5, guard := 0, gneg := false, imm := none }, tok := 1, a := 2, b := 3, c := 4, q := 2, scope := 0, order := 0, fn := 59 })
    ∧ decodeWord (1#1 ++ 10#4 ++ 5#3 ++ 0x03#8 ++ 0#4 ++ 0#1 ++ 1#6 ++ 2#6 ++ 3#6 ++ 0#6 ++ 1#3 ++ 0#3 ++ 0#2 ++ 1#11 : BitVec 64) none
      = some (.cpyh { hd := { unit := .en, stop := true, stall := 5, guard := 0, gneg := false, imm := none }, tok := 1, a := 2, b := 3, c := 0, q := 1, scope := 0, order := 0, fn := 1 })
    ∧ decodeWord (1#1 ++ 10#4 ++ 5#3 ++ 0x08#8 ++ 0#4 ++ 0#1 ++ 1#6 ++ 2#6 ++ 3#6 ++ 4#6 ++ 6#3 ++ 4#3 ++ 1#2 ++ 0xB0#11 : BitVec 64) none
      = some (.atomAdd { hd := { unit := .en, stop := true, stall := 5, guard := 0, gneg := false, imm := none }, tok := 1, a := 2, b := 3, c := 4, q := 6, scope := 4, order := 1, fn := 176 })
    ∧ decodeWord (1#1 ++ 10#4 ++ 5#3 ++ 0x08#8 ++ 2#4 ++ 1#1 ++ 1#6 ++ 2#6 ++ 3#6 ++ 4#6 ++ 6#3 ++ 4#3 ++ 1#2 ++ 0xB1#11 : BitVec 64) none
      = some (.atomMin { hd := { unit := .en, stop := true, stall := 5, guard := 2, gneg := true, imm := none }, tok := 1, a := 2, b := 3, c := 4, q := 6, scope := 4, order := 1, fn := 177 })
    ∧ decodeWord (1#1 ++ 10#4 ++ 5#3 ++ 0x08#8 ++ 2#4 ++ 1#1 ++ 1#6 ++ 2#6 ++ 3#6 ++ 4#6 ++ 6#3 ++ 4#3 ++ 1#2 ++ 0xB2#11 : BitVec 64) none
      = some (.atomMax { hd := { unit := .en, stop := true, stall := 5, guard := 2, gneg := true, imm := none }, tok := 1, a := 2, b := 3, c := 4, q := 6, scope := 4, order := 1, fn := 178 })
    ∧ decodeWord (1#1 ++ 10#4 ++ 5#3 ++ 0x08#8 ++ 2#4 ++ 1#1 ++ 1#6 ++ 2#6 ++ 3#6 ++ 4#6 ++ 6#3 ++ 4#3 ++ 1#2 ++ 0xB3#11 : BitVec 64) none
      = some (.atomXchg { hd := { unit := .en, stop := true, stall := 5, guard := 2, gneg := true, imm := none }, tok := 1, a := 2, b := 3, c := 4, q := 6, scope := 4, order := 1, fn := 179 })
    ∧ decodeWord (1#1 ++ 10#4 ++ 5#3 ++ 0x08#8 ++ 0#4 ++ 0#1 ++ 1#6 ++ 2#6 ++ 3#6 ++ 4#6 ++ 6#3 ++ 4#3 ++ 1#2 ++ 0xB4#11 : BitVec 64) none
      = some (.atomCas { hd := { unit := .en, stop := true, stall := 5, guard := 0, gneg := false, imm := none }, tok := 1, a := 2, b := 3, c := 4, q := 6, scope := 4, order := 1, fn := 180 })
    ∧ decodeWord (1#1 ++ 10#4 ++ 5#3 ++ 0x09#8 ++ 0#4 ++ 0#1 ++ 1#6 ++ 2#6 ++ 3#6 ++ 4#6 ++ 6#3 ++ 3#3 ++ 0#2 ++ 0xFF#11 : BitVec 64) none
      = some (.atomk { hd := { unit := .en, stop := true, stall := 5, guard := 0, gneg := false, imm := none }, tok := 1, a := 2, b := 3, c := 4, q := 6, scope := 3, order := 0, fn := 255 })
    ∧ decodeWord (1#1 ++ 10#4 ++ 5#3 ++ 0x10#8 ++ 2#4 ++ 1#1 ++ 1#6 ++ 2#6 ++ 0#6 ++ 0#6 ++ 5#3 ++ 0#3 ++ 0#2 ++ 2#11 : BitVec 64) none
      = some (.collAR { hd := { unit := .en, stop := true, stall := 5, guard := 2, gneg := true, imm := none }, tok := 1, a := 2, b := 0, c := 0, q := 5, scope := 0, order := 0, fn := 2 }) := by decide

theorem test_decode_engine_b :
    decodeWord (1#1 ++ 10#4 ++ 5#3 ++ 0x11#8 ++ 2#4 ++ 1#1 ++ 1#6 ++ 2#6 ++ 0#6 ++ 0#6 ++ 5#3 ++ 0#3 ++ 0#2 ++ 2#11 : BitVec 64) none
      = some (.collRS { hd := { unit := .en, stop := true, stall := 5, guard := 2, gneg := true, imm := none }, tok := 1, a := 2, b := 0, c := 0, q := 5, scope := 0, order := 0, fn := 2 })
    ∧ decodeWord (1#1 ++ 10#4 ++ 5#3 ++ 0x12#8 ++ 0#4 ++ 0#1 ++ 1#6 ++ 2#6 ++ 0#6 ++ 0#6 ++ 5#3 ++ 0#3 ++ 0#2 ++ 0#11 : BitVec 64) none
      = some (.collAG { hd := { unit := .en, stop := true, stall := 5, guard := 0, gneg := false, imm := none }, tok := 1, a := 2, b := 0, c := 0, q := 5, scope := 0, order := 0, fn := 0 })
    ∧ decodeWord (1#1 ++ 10#4 ++ 5#3 ++ 0x13#8 ++ 0#4 ++ 0#1 ++ 1#6 ++ 2#6 ++ 0#6 ++ 0#6 ++ 5#3 ++ 0#3 ++ 0#2 ++ 0#11 : BitVec 64) none
      = some (.collA2A { hd := { unit := .en, stop := true, stall := 5, guard := 0, gneg := false, imm := none }, tok := 1, a := 2, b := 0, c := 0, q := 5, scope := 0, order := 0, fn := 0 })
    ∧ decodeWord (1#1 ++ 10#4 ++ 5#3 ++ 0x18#8 ++ 2#4 ++ 1#1 ++ 1#6 ++ 2#6 ++ 3#6 ++ 4#6 ++ 5#3 ++ 0#3 ++ 0#2 ++ 0#11 : BitVec 64) none
      = some (.bkset { hd := { unit := .en, stop := true, stall := 5, guard := 2, gneg := true, imm := none }, tok := 1, a := 2, b := 3, c := 4, q := 5, scope := 0, order := 0, fn := 0 })
    ∧ decodeWord (1#1 ++ 10#4 ++ 5#3 ++ 0x19#8 ++ 0#4 ++ 0#1 ++ 1#6 ++ 0#6 ++ 3#6 ++ 0#6 ++ 5#3 ++ 0#3 ++ 0#2 ++ 0#11 : BitVec 64) none
      = some (.kick { hd := { unit := .en, stop := true, stall := 5, guard := 0, gneg := false, imm := none }, tok := 1, a := 0, b := 3, c := 0, q := 5, scope := 0, order := 0, fn := 0 })
    ∧ decodeWord (1#1 ++ 10#4 ++ 5#3 ++ 0x1A#8 ++ 0#4 ++ 0#1 ++ 1#6 ++ 2#6 ++ 0#6 ++ 0#6 ++ 7#3 ++ 0#3 ++ 0#2 ++ 0x400#11 : BitVec 64) none
      = some (.sidx { hd := { unit := .en, stop := true, stall := 5, guard := 0, gneg := false, imm := none }, tok := 1, a := 2, b := 0, c := 0, q := 7, scope := 0, order := 0, fn := 1024 })
    ∧ decodeWord (1#1 ++ 10#4 ++ 5#3 ++ 0x1B#8 ++ 0#4 ++ 0#1 ++ 1#6 ++ 0#6 ++ 3#6 ++ 0#6 ++ 7#3 ++ 0#3 ++ 0#2 ++ 0#11 : BitVec 64) none
      = some (.rtabCommit { hd := { unit := .en, stop := true, stall := 5, guard := 0, gneg := false, imm := none }, tok := 1, a := 0, b := 3, c := 0, q := 7, scope := 0, order := 0, fn := 0 })
    ∧ decodeWord (1#1 ++ 10#4 ++ 5#3 ++ 0x20#8 ++ 2#4 ++ 1#1 ++ 1#6 ++ 2#6 ++ 3#6 ++ 4#6 ++ 4#3 ++ 0#3 ++ 0#2 ++ 31#11 : BitVec 64) none
      = some (.kvld { hd := { unit := .en, stop := true, stall := 5, guard := 2, gneg := true, imm := none }, tok := 1, a := 2, b := 3, c := 4, q := 4, scope := 0, order := 0, fn := 31 })
    ∧ decodeWord (1#1 ++ 10#4 ++ 5#3 ++ 0x21#8 ++ 0#4 ++ 0#1 ++ 1#6 ++ 2#6 ++ 3#6 ++ 4#6 ++ 4#3 ++ 0#3 ++ 0#2 ++ 15#11 : BitVec 64) none
      = some (.kvapp { hd := { unit := .en, stop := true, stall := 5, guard := 0, gneg := false, imm := none }, tok := 1, a := 2, b := 3, c := 4, q := 4, scope := 0, order := 0, fn := 15 })
    ∧ decodeWord (1#1 ++ 10#4 ++ 5#3 ++ 0x22#8 ++ 0#4 ++ 0#1 ++ 1#6 ++ 2#6 ++ 0#6 ++ 4#6 ++ 4#3 ++ 0#3 ++ 0#2 ++ 1#11 : BitVec 64) none
      = some (.kvremap { hd := { unit := .en, stop := true, stall := 5, guard := 0, gneg := false, imm := none }, tok := 1, a := 2, b := 0, c := 4, q := 4, scope := 0, order := 0, fn := 1 })
    ∧ decodeWord (1#1 ++ 10#4 ++ 5#3 ++ 0x23#8 ++ 0#4 ++ 0#1 ++ 1#6 ++ 2#6 ++ 3#6 ++ 4#6 ++ 4#3 ++ 0#3 ++ 0#2 ++ 15#11 : BitVec 64) none
      = some (.kvshare { hd := { unit := .en, stop := true, stall := 5, guard := 0, gneg := false, imm := none }, tok := 1, a := 2, b := 3, c := 4, q := 4, scope := 0, order := 0, fn := 15 })
    ∧ decodeWord (1#1 ++ 10#4 ++ 5#3 ++ 0x24#8 ++ 2#4 ++ 1#1 ++ 1#6 ++ 0#6 ++ 3#6 ++ 4#6 ++ 4#3 ++ 0#3 ++ 0#2 ++ 1#11 : BitVec 64) none
      = some (.kvprom { hd := { unit := .en, stop := true, stall := 5, guard := 2, gneg := true, imm := none }, tok := 1, a := 0, b := 3, c := 4, q := 4, scope := 0, order := 0, fn := 1 }) := by decide

theorem test_decode_engine_c :
    decodeWord (1#1 ++ 10#4 ++ 5#3 ++ 0x25#8 ++ 2#4 ++ 1#1 ++ 1#6 ++ 0#6 ++ 3#6 ++ 0#6 ++ 4#3 ++ 0#3 ++ 0#2 ++ 2#11 : BitVec 64) none
      = some (.pfxfind { hd := { unit := .en, stop := true, stall := 5, guard := 2, gneg := true, imm := none }, tok := 1, a := 0, b := 3, c := 0, q := 4, scope := 0, order := 0, fn := 2 })
    ∧ decodeWord (1#1 ++ 10#4 ++ 5#3 ++ 0x26#8 ++ 0#4 ++ 0#1 ++ 1#6 ++ 0#6 ++ 3#6 ++ 4#6 ++ 4#3 ++ 0#3 ++ 0#2 ++ 18#11 : BitVec 64) none
      = some (.pfxins { hd := { unit := .en, stop := true, stall := 5, guard := 0, gneg := false, imm := none }, tok := 1, a := 0, b := 3, c := 4, q := 4, scope := 0, order := 0, fn := 18 })
    ∧ decodeWord (1#1 ++ 10#4 ++ 5#3 ++ 0x27#8 ++ 2#4 ++ 1#1 ++ 1#6 ++ 2#6 ++ 0#6 ++ 0#6 ++ 4#3 ++ 0#3 ++ 0#2 ++ 3#11 : BitVec 64) none
      = some (.attn { hd := { unit := .en, stop := true, stall := 5, guard := 2, gneg := true, imm := none }, tok := 1, a := 2, b := 0, c := 0, q := 4, scope := 0, order := 0, fn := 3 })
    ∧ decodeWord (1#1 ++ 10#4 ++ 5#3 ++ 0x30#8 ++ 2#4 ++ 1#1 ++ 1#6 ++ 2#6 ++ 0#6 ++ 0#6 ++ 7#3 ++ 0#3 ++ 0#2 ++ 0#11 : BitVec 64) none
      = some (.stnew { hd := { unit := .en, stop := true, stall := 5, guard := 2, gneg := true, imm := none }, tok := 1, a := 2, b := 0, c := 0, q := 7, scope := 0, order := 0, fn := 0 })
    ∧ decodeWord (1#1 ++ 10#4 ++ 5#3 ++ 0x31#8 ++ 0#4 ++ 0#1 ++ 1#6 ++ 2#6 ++ 0#6 ++ 0#6 ++ 7#3 ++ 0#3 ++ 0#2 ++ 0#11 : BitVec 64) none
      = some (.splice { hd := { unit := .en, stop := true, stall := 5, guard := 0, gneg := false, imm := none }, tok := 1, a := 2, b := 0, c := 0, q := 7, scope := 0, order := 0, fn := 0 })
    ∧ decodeWord (1#1 ++ 10#4 ++ 5#3 ++ 0x32#8 ++ 0#4 ++ 0#1 ++ 1#6 ++ 0#6 ++ 3#6 ++ 0#6 ++ 7#3 ++ 0#3 ++ 0#2 ++ 0#11 : BitVec 64) none
      = some (.stpin { hd := { unit := .en, stop := true, stall := 5, guard := 0, gneg := false, imm := none }, tok := 1, a := 0, b := 3, c := 0, q := 7, scope := 0, order := 0, fn := 0 })
    ∧ decodeWord (1#1 ++ 10#4 ++ 5#3 ++ 0x33#8 ++ 2#4 ++ 1#1 ++ 1#6 ++ 0#6 ++ 3#6 ++ 4#6 ++ 7#3 ++ 0#3 ++ 0#2 ++ 0#11 : BitVec 64) none
      = some (.stunpin { hd := { unit := .en, stop := true, stall := 5, guard := 2, gneg := true, imm := none }, tok := 1, a := 0, b := 3, c := 4, q := 7, scope := 0, order := 0, fn := 0 })
    ∧ decodeWord (1#1 ++ 10#4 ++ 5#3 ++ 0x34#8 ++ 2#4 ++ 1#1 ++ 1#6 ++ 2#6 ++ 3#6 ++ 4#6 ++ 0#3 ++ 0#3 ++ 0#2 ++ 3#11 : BitVec 64) none
      = some (.cpys { hd := { unit := .en, stop := true, stall := 5, guard := 2, gneg := true, imm := none }, tok := 1, a := 2, b := 3, c := 4, q := 0, scope := 0, order := 0, fn := 3 })
    ∧ decodeWord (1#1 ++ 10#4 ++ 5#3 ++ 0x38#8 ++ 2#4 ++ 1#1 ++ 1#6 ++ 2#6 ++ 0#6 ++ 0#6 ++ 3#3 ++ 0#3 ++ 0#2 ++ 4#11 : BitVec 64) none
      = some (.swcpyIn { hd := { unit := .en, stop := true, stall := 5, guard := 2, gneg := true, imm := none }, tok := 1, a := 2, b := 0, c := 0, q := 3, scope := 0, order := 0, fn := 4 })
    ∧ decodeWord (1#1 ++ 10#4 ++ 5#3 ++ 0x38#8 ++ 0#4 ++ 0#1 ++ 1#6 ++ 2#6 ++ 0#6 ++ 0#6 ++ 3#3 ++ 0#3 ++ 0#2 ++ 5#11 : BitVec 64) none
      = some (.swcpyOut { hd := { unit := .en, stop := true, stall := 5, guard := 0, gneg := false, imm := none }, tok := 1, a := 2, b := 0, c := 0, q := 3, scope := 0, order := 0, fn := 5 })
    ∧ decodeWord (1#1 ++ 10#4 ++ 5#3 ++ 0x38#8 ++ 0#4 ++ 0#1 ++ 1#6 ++ 2#6 ++ 0#6 ++ 0#6 ++ 3#3 ++ 0#3 ++ 0#2 ++ 6#11 : BitVec 64) none
      = some (.swcpyDec { hd := { unit := .en, stop := true, stall := 5, guard := 0, gneg := false, imm := none }, tok := 1, a := 2, b := 0, c := 0, q := 3, scope := 0, order := 0, fn := 6 })
    ∧ decodeWord (1#1 ++ 10#4 ++ 5#3 ++ 0x38#8 ++ 0#4 ++ 0#1 ++ 1#6 ++ 2#6 ++ 0#6 ++ 0#6 ++ 3#3 ++ 0#3 ++ 0#2 ++ 7#11 : BitVec 64) none
      = some (.swcpyMerge { hd := { unit := .en, stop := true, stall := 5, guard := 0, gneg := false, imm := none }, tok := 1, a := 2, b := 0, c := 0, q := 3, scope := 0, order := 0, fn := 7 }) := by decide

theorem test_decode_engine_d :
    decodeWord (1#1 ++ 10#4 ++ 5#3 ++ 0x39#8 ++ 0#4 ++ 0#1 ++ 1#6 ++ 2#6 ++ 0#6 ++ 0#6 ++ 7#3 ++ 0#3 ++ 0#2 ++ 0x400#11 : BitVec 64) none
      = some (.sweep { hd := { unit := .en, stop := true, stall := 5, guard := 0, gneg := false, imm := none }, tok := 1, a := 2, b := 0, c := 0, q := 7, scope := 0, order := 0, fn := 1024 }) := by decide

/-- Every micro-operation (R319, R320). -/
theorem test_decode_micro :
    decodeMicro (0#4 ++ 0#4 ++ 0#4 ++ 127#10 ++ 0#4 ++ 0#6 ++ 0#32 ++ 64#32 : BitVec 96) = some (.fetchkv, { mw0 with n := 127, offa := 64 })
    ∧ decodeMicro (1#4 ++ 3#4 ++ 0#4 ++ 0#10 ++ 0#4 ++ 0#6 ++ 0#32 ++ 64#32 : BitVec 96) = some (.score, { mw0 with ts := 3, offa := 64 })
    ∧ decodeMicro (2#4 ++ 3#4 ++ 0#4 ++ 0#10 ++ 0#4 ++ 0#6 ++ 0#32 ++ 0#32 : BitVec 96) = some (.scale, { mw0 with ts := 3 })
    ∧ decodeMicro (3#4 ++ 3#4 ++ 0#4 ++ 6#10 ++ 0#4 ++ 0#6 ++ 0#32 ++ 0#32 : BitVec 96) = some (.mask, { mw0 with ts := 3, n := 6 })
    ∧ decodeMicro (4#4 ++ 3#4 ++ 0#4 ++ 0#10 ++ 0#4 ++ 0#6 ++ 0#32 ++ 64#32 : BitVec 96) = some (.smax, { mw0 with ts := 3, offa := 64 })
    ∧ decodeMicro (5#4 ++ 0#4 ++ 9#4 ++ 0#10 ++ 0#4 ++ 0#6 ++ 32#32 ++ 64#32 : BitVec 96) = some (.weigh, { mw0 with tOut := 9, offa := 64, offb := 32 })
    ∧ decodeMicro (6#4 ++ 0#4 ++ 0#4 ++ 0#10 ++ 0#4 ++ 0#6 ++ 0#32 ++ 0#32 : BitVec 96) = some (.seqNext, mw0)
    ∧ decodeMicro (7#4 ++ 0#4 ++ 0#4 ++ 1023#10 ++ 2#4 ++ 0#6 ++ 0#32 ++ 0#32 : BitVec 96) = some (.jump, { mw0 with n := 1023, cond := 2 })
    ∧ decodeMicro (8#4 ++ 0#4 ++ 9#4 ++ 2#10 ++ 0#4 ++ 0#6 ++ 0#32 ++ 64#32 : BitVec 96) = some (.flush, { mw0 with tOut := 9, n := 2, offa := 64 })
    ∧ decodeMicro (9#4 ++ 0#4 ++ 0#4 ++ 0#10 ++ 0#4 ++ 0#6 ++ 0#32 ++ 0#32 : BitVec 96) = some (.seqEnd, mw0)
    ∧ decodeMicro (10#4 ++ 0#92 : BitVec 96) = none ∧ decodeMicro (9#4 ++ 0#26 ++ 1#2 ++ 0#64 : BitVec 96) = none := by decide

/-- Every command code (R363, R384), and one header bit by bit: `MEMRD` of 16 bytes at 0x1000 of space 3. -/
theorem test_decode_packets :
    [0x01, 0x02, 0x03, 0x04, 0x05, 0x06, 0x07, 0x10, 0x11, 0x12, 0x13, 0x14, 0x15, 0x16, 0x17, 0x18, 0x20, 0x21, 0x30, 0x31, 0x32, 0x33, 0x34
      , 0x35, 0x36, 0x37, 0x38, 0x39].map commandOfCode
      = [some .submit, some .memwr, some .memrd, some .root, some .inval, some .resume, some .hunbind, some .qcfg, some .scfg, some .kvcfg
        , some .seqload, some .stepgrp, some .ftab, some .collgrp, some .rtabcfg, some .domcfg, some .abort, some .attest, some .dhalt, some .dresume
        , some .dread, some .dbrk, some .dprof, some .dmaster, some .statring, some .capture, some .framerel, none]
    ∧ decodePacket 2 (0x0000001000000003#64 ++ 0x1000#64 ++ 0#32 ++ 0#20 ++ 0#12 ++ 9#32 ++ 0#16 ++ 0x0003#16 : BitVec 256) []
      = some (.memrd, { p0 with stream := 2, arg0 := 0x1000, arg1 := 0x1000000003 })
    ∧ decodePacket 2 (0x0000001000000003#64 ++ 0x1000#64 ++ 0#32 ++ 0#20 ++ 0#12 ++ 9#32 ++ 1#16 ++ 0x0003#16 : BitVec 256) [] = none := by decide

/-- An IMM word that belongs to nothing, and a field that is not listed, are no instruction. -/
theorem test_decode_refuses :
    decodeWord (1#1 ++ 15#4 ++ 0#3 ++ 5#56 : BitVec 64) none = none ∧ decodeWord (1#1 ++ 1#4 ++ 0#3 ++ 0xFF#8 ++ 0#48 : BitVec 64) none = none
    ∧ decodeWord (1#1 ++ 11#4 ++ 0#59 : BitVec 64) none = none := by decide

/-! ## Ill-formed terms, one for each check (R38 to R50, R62, R67, R69, R124, R130 to R153, R163, R179, R190) -/

theorem test_wellFormed_accepts :
    [Instr.add (r0 .s0), .addi i0, .movl l0, .ldS (m0 .ld), .tzero x0, .cpy (e0 0), .nop ys0, .br yt0, .loop yc0, .vadd (r0 .v0)].all Instr.wellFormed = true := by
  decide

theorem test_wellFormed_words :
    [ -- the head: GNEG on p0, a STALL without STOP
      Instr.add { r0 .s0 with hd := { hd0 .s0 with gneg := true } }, .add { r0 .s0 with hd := { hd0 .s0 with stop := false, stall := 1 } }
    , -- register fields: unused, vector, even, vector or zero, low
      .add { r0 .s0 with c := 1 }, .vadd { r0 .v0 with dst := 56 }, .vtopk8 { r0 .v0 with dst := 1 }, .vcompact { r0 .v0 with b := 57 }
    , .cmpP { r0 .s0 with dst := 16 }
    , -- TYPE, RND, FN
      .add { r0 .s0 with ty := 1 }, .fadd { r0 .s0 with rnd := 2 }, .add { r0 .s0 with fn := 1 }, .cmpS { r0 .s0 with fn := 6 }
    , -- IMM words: missing, not wanted, too wide
      .vadd { r0 .v0 with b := 63 }, .vadd { r0 .v0 with hd := hdImm .v0 1 }, .vadd { r0 .v0 with b := 63, ty := 1, hd := hdImm .v0 256 }
    , -- format I and L
      .addi { i0 with ty := 1 }, .addi { i0 with hd := hdImm .s0 1, imm19 := 1 }, .movi { i0 with a := 1 }, .movl { l0 with hd := hd0 .s0 }
    , .movl { l0 with low := 1 }, .ainc { i0 with hd := hdImm .s0 8388608 }, .amod { i0 with hd := hdImm .s0 65536 } ].any Instr.wellFormed = false := by
  decide

theorem test_wellFormed_memory_and_matrix :
    [ Instr.ldS { m0 .ld with amode := 3 }, .ldS { m0 .ld with disp := 1 }, .ldS { m0 .ld with hd := hdImm .ld 1 }, .ldS { m0 .ld with ty := 7 }
    , .ldV { m0 .ld with b := 1 }, .ldV { m0 .ld with c := 1 }, .ldV { m0 .ld with b := 48, c := 16 }, .ldV { m0 .ld with b := 16, c := 56 }
    , .ldVQ { m0 .ld with b := 1 }, .ldt { m0 .ld with ty := 12, b := 16 }, .amoAdd { m0 .ld with ty := 1 }, .stSW { m0 .st with ty := 8 }
    , .mma { x0 with z := 1 }, .tzero { x0 with aa := 1 }, .mmaG { x0 with vi := 56 }, .mma { x0 with tya := 8, tyb := 1 }, .mma { x0 with fn := 1 }
    , .mmaG { x0 with fn := 16 }, .mmaT { x0 with fn := 3 }, .tload { x0 with tya := 1 }, .tmap { x0 with tyb := 1 } ].any Instr.wellFormed = false := by
  decide

theorem test_wellFormed_engine :
    [ Instr.cpy { e0 0 with tok := 0 }, .cpy (e0 4), .cpy { e0 0 with a := 16 }, .kick { e0 5 with a := 1 }, .cpy { e0 0 with b := 1 }, .cpy { e0 0 with c := 1 }
    , .cpy { e0 0 with fn := 2 }, .cpy { e0 0 with scope := 1 }, .cpym { e0 0 with fn := 1 }, .cpyl { e0 0 with fn := 192 }, .cpyl { e0 0 with fn := 768 }
    , .cpylTopk (e0 0), .atomAdd { e0 6 with a := 1 }, .atomAdd { e0 6 with fn := 8 }, .atomAdd { e0 6 with fn := 256 }, .atomAdd { e0 6 with scope := 5 }
    , .atomAdd { e0 6 with scope := 4, b := 63 }, .atomCas { e0 6 with fn := 4, c := 63 }, .atomMin (e0 6), .atomk { e0 6 with scope := 2 }
    , .collAR { e0 5 with fn := 3 }, .cpys { e0 0 with c := 1 }, .swcpyOut (e0 3) ].any Instr.wellFormed = false := by
  decide

theorem test_wellFormed_system :
    [ Instr.nop { ys0 with fn := 1 }, .br { yt0 with d := 1 }, .brp { yt0 with d := 3 }, .brs { yt0 with d := 6 }, .jmpi { ys0 with d := 1 }
    , .loop { yc0 with csrc := true, cnt := 1 }, .loop { yc0 with a := 1 }, .rep { yc0 with nm1 := 1 }, .rep { yc0 with cnt := 4096 }, .waitCyc ys0
    , .barInit { ys0 with scope := 3 }, .barInit { ys0 with order := 1 }, .barInit { ys0 with fn := 16 }, .barArrive { ys0 with order := 1 }
    , .barWait { ys0 with order := 2 }, .drain { ys0 with scope := 5 }, .fenceQ ys0, .fenceQ { ys0 with fn := 256 }, .mfc { ys0 with fn := 256 }
    , .mtc ys0, .mtc { ys0 with fn := 9 }, .mtcTstat { ys0 with fn := 1 }, .mtcWaitlim ys0, .stepC ys0, .scanStart ys0, .dbgHalt ys0 ].any Instr.wellFormed = false := by
  decide

theorem test_wellFormed_vector :
    [ Instr.vfadd { r0 .v0 with fn := 1 }, .vfadd { r0 .v0 with rnd := 2, fn := 256 }, .vcvt { r0 .v0 with fn := 12 }, .vcvt { r0 .v0 with ty := 3, fn := 6, rnd := 1 }
    , .vcvt { r0 .v0 with ty := 7, fn := 8, dst := 1 }, .vpack { r0 .v0 with ty := 2, fn := 1 }, .vunpk { r0 .v0 with ty := 1, fn := 2 }
    , .vunpk { r0 .v0 with ty := 1, fn := 28 }, .vnarrow { r0 .v0 with fn := 512 }, .vredAdd { r0 .v0 with fn := 8, ty := 7 }, .vmapSet { r0 .v0 with fn := 8 }
    , .vmapSet { r0 .v0 with fn := 1 }, .vmapOff { r0 .v0 with fn := 2 }, .vmapOff { r0 .v0 with fn := 2, b := 63, hd := hdImm .v0 (2 ^ 24) }
    , .vmapNone { r0 .v0 with fn := 5, a := 1 }, .vmaskcCausal { r0 .v0 with b := 1 }, .vmaskcLt { r0 .v0 with fn := 100 }, .vmaskcBand (r0 .v0)
    , .vbcastE { r0 .v0 with fn := 4096 + 128 }, .vcoord { r0 .v0 with fn := 5 }, .vnoise { r0 .v0 with fn := 256, b := 1 }, .vsortStep { r0 .v0 with fn := 0x11 }
    , .vacwAdd (r0 .v0), .vcompact (r0 .v0), .vsincos (r0 .sf), .vexp2 { r0 .sf with ty := 7, fn := 1 }, .vshuf { r0 .v0 with fn := 64 } ].any Instr.wellFormed = false := by
  decide

theorem test_wellFormed_micro :
    Instr.microOk { mw0 with resv := 1 } .seqEnd = false ∧ Instr.microOk { mw0 with ts := 1 } .seqEnd = false ∧ Instr.microOk { mw0 with tOut := 1 } .score = false
    ∧ Instr.microOk { mw0 with offa := 1 } .scale = false ∧ Instr.microOk { mw0 with offb := 1 } .score = false ∧ Instr.microOk { mw0 with n := 128 } .fetchkv = false
    ∧ Instr.microOk { mw0 with n := 3 } .mask = false ∧ Instr.microOk { mw0 with cond := 3 } .jump = false ∧ Instr.microOk { mw0 with n := 3 } .flush = false := by decide

theorem test_wellFormed_packets :
    Instr.packetOk { p0 with resvA := 1 } .submit = false ∧ Instr.packetOk { p0 with resvB := 1 } .submit = false ∧ Instr.packetOk { p0 with resvC := 1 } .submit = false
    ∧ Instr.packetOk { p0 with len := 1 } .memwr = false ∧ Instr.packetOk { p0 with arg0 := 2 ^ 56 } .submit = false ∧ Instr.packetOk { p0 with arg1 := 0x100 } .submit = false
    ∧ Instr.packetOk p0 .memrd = false ∧ Instr.packetOk { p0 with arg0 := 1 } .root = false ∧ Instr.packetOk p0 .scfg = false ∧ Instr.packetOk p0 .kvcfg = false
    ∧ Instr.packetOk { p0 with arg1 := 1023 } .dprof = false ∧ Instr.packetOk p0 .submit = true := by decide
/-- The device at reset with one core, its team and its context 0 given, and the record of a bundle at 0x1000 opened. -/
def mkC (f : Core → Core) (x : Ctx) (t : Team) (c : Fin 208) : State :=
  (State.reset.updCore c (fun y => { f y with team := { t with ctxs := t.ctxs.set 0 x } })).withIssue
    { Issue.reset with core := c, baddr := 0x1000, next := 0x1008 }

theorem mkC_core (f : Core → Core) (x : Ctx) (t : Team) (c : Fin 208) :
    (mkC f x t c).coreAt c = { f (State.reset.coreAt c) with team := { t with ctxs := t.ctxs.set 0 x } } := get_set_self ..

theorem mkC_ictx (f : Core → Core) (x : Ctx) (t : Team) (c : Fin 208) : (mkC f x t c).ictx = x := by
  show ((mkC f x t c).coreAt c).team.ctxs.get 0 = x
  rw [mkC_core]
  exact get_set_self t.ctxs 0 (by decide) x

theorem mkC_unhindered (f : Core → Core) (x : Ctx) (t : Team) (c : Fin 208) (i : Instr) (h : Head) (r : SlotRes) (hx : x.loop = none) (hp : x.tokPend = 0)
    (hc : x.chken = false) (hg : h.guard = 0) (hn : h.gneg = false) : (mkC f x t c).unhindered i h r := by
  refine ⟨⟨rfl, rfl, rfl, ?_⟩, ?_, ?_, ?_⟩
  · rw [mkC_ictx]; simp [Ctx.activeLoop, hx]
  · intro _; rw [mkC_ictx]; simp [Ctx.guardBit, Ctx.guard, hg, hn, Ctx.pReg]
  · rw [mkC_ictx]; simp [tokenFaults, hp]
  · rw [mkC_ictx]; simp [stallFaults, hc]

def mk (x : Ctx) (t : Team) (c : Fin 208) : State := mkC id x t c
theorem mk_core (x : Ctx) (t : Team) (c : Fin 208) :
    (mk x t c).coreAt c = { State.reset.coreAt c with team := { t with ctxs := t.ctxs.set 0 x } } := get_set_self ..
theorem mk_ictx (x : Ctx) (t : Team) (c : Fin 208) : (mk x t c).ictx = x := mkC_ictx ..
theorem mk_unhindered (x : Ctx) (t : Team) (c : Fin 208) (i : Instr) (h : Head) (r : SlotRes) (hx : x.loop = none) (hp : x.tokPend = 0)
    (hc : x.chken = false) (hg : h.guard = 0) (hn : h.gneg = false) : (mk x t c).unhindered i h r := mkC_unhindered _ x t c i h r hx hp hc hg hn
def plain : State := mk Ctx.reset Team.reset 0
theorem plain_free (i : Instr) (h : Head) (r : SlotRes) (hg : h.guard = 0 := by rfl) (hn : h.gneg = false := by rfl) : plain.unhindered i h r :=
  mk_unhindered _ _ _ i h r rfl rfl rfl hg hn

def soft : State := mk { Ctx.reset with mapsoft := true } Team.reset 0
theorem soft_free (i : Instr) (h : Head) (r : SlotRes) (hg : h.guard = 0 := by rfl) (hn : h.gneg = false := by rfl) : soft.unhindered i h r :=
  mk_unhindered _ _ _ i h r rfl rfl rfl hg hn
theorem soft_map (r : Nat) : soft.ictx.mapNone r = [] := by rw [soft, mk_ictx]; simp [Ctx.mapNone]
theorem soft_pseudo (d : Nat) (l : List Reg6) : soft.ictx.pseudoFaults d l = [] := by
  unfold Ctx.pseudoFaults; rw [soft_map]; split <;> rfl
def rv' (a b : Reg6) : RWord := { r0 .v0 with dst := 1, a := a, b := b }
def vw (t : BitVec 4) : RWord := { r0 .v0 with dst := 1, a := 61, b := 3, c := 62, ty := t }

/-! ## The hypotheses of the statements can be met -/

theorem witness_ScalarIntegerAndImmediateResults :
    (∀ i ∈ [Instr.add (r0 .s0), .sub (r0 .s0), .mul (r0 .s0), .mulh (r0 .s0), .div (r0 .s0), .rem (r0 .s0), .mov (r0 .s0), .and (r0 .s0)
      , .or (r0 .s0), .xor (r0 .s0), .andn (r0 .s0), .shl (r0 .s0), .shr (r0 .s0), .sra (r0 .s0), .rot (r0 .s0), .clz (r0 .s0), .popc (r0 .s0)
      , .min (r0 .s0), .max (r0 .s0), .sel (r0 .s0), .cmpS (r0 .s0), .asetS (r0 .s0)], plain.unhindered i (r0 .s0).hd {})
      ∧ plain.unhindered (.addi i0) i0.hd {} ∧ plain.unhindered (.movi i0) i0.hd {} ∧ l0.hd.imm = some { stop := true, stall := 0, value := 7 }
      ∧ plain.unhindered (.movl l0) l0.hd {} :=
  ⟨fun i _ => plain_free i _ _, plain_free _ _ _, plain_free _ _ _, rfl, plain_free _ _ _⟩

def iImm (x : Imm56) : IWord := { i0 with hd := hdImm .s0 x }

theorem witness_AddressAndPredicateResults :
    plain.unhindered (.aadd i0) i0.hd {}
      ∧ (∀ n ∈ [(8388607 : Int), -8388608], ∃ w : IWord, w.immInt = n ∧ plain.unhindered (.ainc w) w.hd {})
      ∧ (∀ n ∈ [(0 : Int), 65535], ∃ w : IWord, w.immInt = n ∧ plain.unhindered (.amod w) w.hd {})
      ∧ ∀ i ∈ [Instr.asetA (r0 .s0), .pand (r0 .s0), .por (r0 .s0), .pxor (r0 .s0), .pnot (r0 .s0), .pmov (r0 .s0), .cmpP (r0 .s0)],
        plain.unhindered i (r0 .s0).hd {} := by
  refine ⟨plain_free _ _ _, fun n hn => ⟨iImm (BitVec.ofInt 56 n), ?_, plain_free _ _ _⟩, fun n hn => ⟨iImm (BitVec.ofInt 56 n), ?_, plain_free _ _ _⟩,
    fun i _ => plain_free i _ _⟩ <;> (revert n; decide)

/-- Registers s2 and s3 of the context. -/
def twoS (x y : Word) : Ctx := { Ctx.reset with s := (Ctx.reset.s.set 2 x).set 3 y }
def divW (t : BitVec 4) : RWord := { r0 .s0 with dst := 1, a := 2, b := 3, ty := t }

theorem witness_DivisionCorners :
    (∀ t : BitVec 4, t.toNat ≤ 6 → sVal t (plain.ictx.sReg 3) = 0 ∧ plain.unhindered (.div (divW t)) (divW t).hd {} ∧ plain.unhindered (.rem (divW t)) (divW t).hd {})
      ∧ ∀ t : BitVec 4, t ∈ [0#4, 1#4, 2#4, 3#4] → ∃ s : State, sVal t (s.ictx.sReg 2) = -2 ^ (sWidth t - 1) ∧ sVal t (s.ictx.sReg 3) = -1
        ∧ s.unhindered (.div (divW t)) (divW t).hd {} ∧ s.unhindered (.rem (divW t)) (divW t).hd {} := by
  refine ⟨?_, ?_⟩
  · intro t ht
    refine ⟨?_, plain_free _ _ _, plain_free _ _ _⟩
    rw [plain, mk_ictx]; revert t; decide
  · intro t ht
    refine ⟨mk (twoS (BitVec.ofNat 64 (2 ^ (sWidth t - 1))) (-1)) Team.reset 0, ?_, ?_, mk_unhindered _ _ _ _ _ _ rfl rfl rfl rfl rfl, mk_unhindered _ _ _ _ _ _ rfl rfl rfl rfl rfl⟩ <;>
      (rw [mk_ictx]; revert t; decide)

theorem witness_ScalarFloatResults :
    ∀ i ∈ [Instr.fadd (r0 .s0), .fsub (r0 .s0), .fmul (r0 .s0), .fma (r0 .s0), .fmin (r0 .s0), .fmax (r0 .s0), .fcmpS (r0 .s0), .fcmpP (r0 .s0), .fcvt (r0 .s0)],
      plain.unhindered i (r0 .s0).hd {} := fun i _ => plain_free i _ _

/-- The sources are a pseudo-operand that reads a map, a register and an immediate. -/
theorem witness_VectorIntegerResults :
    ∀ i ∈ [Instr.vadd (vw 1), .vsub (vw 1), .vmul (vw 2), .vadds (vw 1), .vsubs (vw 4), .vmulh (vw 3), .vmin (vw 1), .vmax (vw 1), .vand (vw 1), .vor (vw 1)
      , .vxor (vw 1), .vshl (vw 1), .vshr (vw 1), .vsra (vw 1), .vabs (vw 1), .vneg (vw 1), .vmad (vw 3)],
      ∀ l ∈ [[(vw 1).a], [(vw 1).a, (vw 1).b], [(vw 1).a, (vw 1).b, (vw 1).c]],
        (soft.vecChk (vw 1) l).faults = [] ∧ soft.unhindered i (vw 1).hd (soft.vecChk (vw 1) l) :=
  fun i _ _ _ => ⟨soft_pseudo _ _, soft_free i _ _⟩

theorem witness_VectorMoveAndCompareResults :
    (∀ i ∈ [Instr.vsel (vw 1), .vmov (vw 1), .vbcastS (vw 1), .vbcastE (vw 1), .vcmp (vw 1), .vfcmp (vw 1)], ∀ r : SlotRes, soft.unhindered i (vw 1).hd r)
      ∧ (∀ d l, soft.ictx.pseudoFaults d l = []) ∧ 8 ≤ tyWidth (vTy 1) ∧ 8 ≤ tyWidth (fTy 7) :=
  ⟨fun i _ r => soft_free i _ r, soft_pseudo, by decide, by decide⟩

theorem soft_sr (n : BitVec 2) (d : Nat) (m : Option MapBits) : soft.ictx.srFaults n d m = [] := by
  rw [soft, mk_ictx]; simp [Ctx.srFaults]

/-- Round to nearest, and stochastic rounding. -/
theorem witness_VectorFloatResults :
    (∀ i ∈ [Instr.vfadd (vw 7), .vfsub (vw 7), .vfmul (vw 7), .vfma (vw 7), .vfmin (vw 7), .vfmax (vw 7), .vfabs (vw 7)], ∀ r : SlotRes, soft.unhindered i (vw 7).hd r)
      ∧ (∀ l, soft.ictx.pseudoFaults 1 l ++ soft.ictx.srFaults 2 1 (soft.ictx.mapE l) = [])
      ∧ (∀ l, soft.ictx.pseudoFaults 1 l ++ soft.ictx.srFaults 0 1 (soft.ictx.mapE l) = []) ∧ ∀ l, (soft.vecChk (vw 7) l).faults = [] :=
  ⟨fun i _ r => soft_free i _ r, fun l => by rw [soft_pseudo, soft_sr]; rfl, fun l => by rw [soft_pseudo, soft_sr]; rfl, fun _ => soft_pseudo _ _⟩

/-- From 32 to 8 bits, from 8 to 32 bits, and from 8 to 16, with and without stochastic rounding. -/
theorem witness_WidthChangeResults :
    (∀ i ∈ [Instr.vcvt (vw 7), .vpack (vw 1), .vunpk (vw 3), .vnarrow (vw 2)], ∀ r : SlotRes, soft.unhindered i (vw 7).hd r)
      ∧ ∀ (rnd : BitVec 2) (q : Nat) (map : Nat → Option MapBits), soft.ictx.pseudoFaults 1 [61]
        ++ ((List.range q).map (fun h => soft.ictx.srFaults rnd (1 + h) (map h))).flatten = [] :=
  ⟨fun i _ r => soft_free i _ r, fun rnd q map => by simp [soft_pseudo, soft_sr]⟩

theorem witness_ReductionAndDotResults :
    (∀ i ∈ [Instr.vredAdd (vw 7), .vredMax (vw 1), .vredMin (vw 2), .vscanAdd (vw 0), .vdot4 (vw 1), .vdot4 (vw 4)], ∀ r : SlotRes, soft.unhindered i (vw 7).hd r)
      ∧ (∀ l, (soft.vecChk (vw 7) l).faults = []) ∧ soft.ictx.pseudoFaults 1 [61, 3, 62] = [] :=
  ⟨fun i _ r => soft_free i _ r, fun _ => soft_pseudo _ _, soft_pseudo _ _⟩

theorem witness_ShuffleAndCompactResults :
    (∀ i ∈ [Instr.vshuf (vw 3), .vperm (vw 1), .vexpand (vw 2), .vcompact (vw 1)], ∀ r : SlotRes, soft.unhindered i (vw 7).hd r)
      ∧ (∀ l, (soft.vecChk (vw 7) l).faults = []) ∧ soft.ictx.pseudoFaults 1 [61] = [] :=
  ⟨fun i _ r => soft_free i _ r, fun _ => soft_pseudo _ _, soft_pseudo _ _⟩

theorem witness_SortResults :
    ∀ i ∈ [Instr.vtopk8 (rv' 2 4), .vsortStep (rv' 2 4)], plain.unhindered i (rv' 2 4).hd { data := some [2, 3, 4, 5] }
      ∧ plain.unhindered i (rv' 2 4).hd { data := some [2, 3] } := fun i _ => ⟨plain_free i _ _, plain_free i _ _⟩

/-- An affine map of rank 2: four by two elements. -/
def map2 : MapBits := 0#104 ++ 2#24 ++ 4#24 ++ 0#180 ++ 2#10 ++ 4#10 ++ 0#11 ++ 1#1 ++ 0#2 ++ 8#10 ++ 0#1 ++ 2#3 ++ 0#2 ++ 1#2

/-- v2 holds a descriptor, and its own map is that descriptor. -/
def mapped : State := mk { Ctx.reset with v := Ctx.reset.v.set 2 (map2.zeroExtend 4096), maps := Ctx.reset.maps.set 2 map2 } Team.reset 0
theorem mapped_free (i : Instr) (h : Head) (r : SlotRes) (hg : h.guard = 0 := by rfl) (hn : h.gneg = false := by rfl) : mapped.unhindered i h r :=
  mk_unhindered _ _ _ i h r rfl rfl rfl hg hn

/-- The dimensions of FN are 0 and, for `.tr`, 0 and 1; a map of NONE meets the same conditions. -/
theorem witness_MapResults :
    (∀ i ∈ [Instr.vmapSet (rv' 2 0), .vmapCopy (rv' 2 0), .vmapNone (rv' 2 0), .vmapOff (rv' 2 0), .vmapSlice (rv' 2 0), .vmapTr { rv' 2 0 with fn := 32 }
      , .vmapTag (rv' 2 0)], ∀ r : SlotRes, mapped.unhindered i (rv' 2 0).hd r ∧ plain.unhindered i (rv' 2 0).hd r)
      ∧ mapWf ((mapped.ictx.vReg 2).extractLsb' 0 384) = true
      ∧ mapCarriersOk ((mapped.ictx.vReg 2).extractLsb' 0 384) mapped.issue.ctx.val (partVregs mapped.icore.team.part) = true
      ∧ mapped.ictx.pseudoFaults 1 [2] = [] ∧ vmapD (rv' 2 0) < mapRank (mapped.ictx.vmapSrc (rv' 2 0))
      ∧ vmapD2 { rv' 2 0 with fn := 32 } < mapRank (mapped.ictx.vmapSrc (rv' 2 0)) ∧ mapWf (vmapTrMap (mapped.ictx.vmapSrc (rv' 2 0)) 0 1) = true
      ∧ isNone (plain.ictx.vmapSrc (rv' 2 0)) = true := by
  refine ⟨fun i _ r => ⟨mapped_free i _ r, plain_free i _ r⟩, ?_⟩
  rw [mapped, plain, mk_ictx, mk_ictx]
  decide

theorem witness_CoordinateResults :
    (∀ i ∈ [Instr.vcoord (vw 3), .vnoise (vw 7), .vmaskcCausal (vw 1), .vmaskcBand (vw 1), .vmaskcWin (vw 1), .vmaskcLt (vw 1), .vmaskcGe (vw 1)],
      ∀ r : SlotRes, soft.unhindered i (vw 7).hd r)
      ∧ (∀ r, soft.ictx.mapNone r = []) ∧ soft.ictx.mapsoft = true ∧ mapped.ictx.mapNone 2 = [] ∧ 8 ≤ tyWidth 1 := by
  refine ⟨fun i _ r => soft_free i _ r, soft_map, by rw [soft, mk_ictx], by rw [mapped, mk_ictx]; decide, by decide⟩

theorem witness_AccumulatorPortResults :
    (∀ i ∈ [Instr.vacr (vw 1), .vacw (vw 1), .vacwAdd (vw 1)], ∀ r : SlotRes, soft.unhindered i (vw 7).hd r)
      ∧ (∀ l, (soft.vecChk (vw 7) l).faults = []) ∧ soft.ictx.pseudoFaults noMapReg [61] = [] :=
  ⟨fun i _ r => soft_free i _ r, fun _ => soft_pseudo _ _, soft_pseudo _ _⟩

theorem witness_SpecialFunctionResults :
    (∀ i ∈ [Instr.vexp2 (vw 7), .vexp (vw 7), .vlog2 (vw 7), .vln (vw 8), .vrcp (vw 7), .vrsq (vw 7), .vsqrt (vw 7), .vtanh (vw 7), .vsigm (vw 7), .verf (vw 7)
      , .vsincos (vw 7), .vpows (vw 7)], ∀ r : SlotRes, soft.unhindered i (vw 7).hd r) ∧ ∀ l, (soft.vecChk (vw 7) l).faults = [] :=
  ⟨fun i _ r => soft_free i _ r, fun _ => soft_pseudo _ _⟩

/-- Address register a2 holds `a`; the scratchpad has 384 banks. -/
def padAt (a : Nat) : State := mk { Ctx.reset with a := Ctx.reset.a.set 2 (BitVec.ofNat 64 a), tvec := 0x800 } Team.reset 0
theorem padAt_free (a : Nat) (i : Instr) (h : Head) (r : SlotRes) (hg : h.guard = 0 := by rfl) (hn : h.gneg = false := by rfl) : (padAt a).unhindered i h r :=
  mk_unhindered _ _ _ i h r rfl rfl rfl hg hn
theorem mk_size (x : Ctx) (t : Team) (c : Fin 208) : spadSize (mk x t c).issue.core (mk x t c).icore.team = spadSize c t := by
  show spadSize c ((mk x t c).coreAt c).team = _
  rw [mk_core]; rfl
def top : Nat := spadSize 0 Team.reset

/-- The access of `w` at address `a` in a2 is aligned to `al` and stays in the scratchpad. -/
def fitsAt (w : MWord) (al len a : Nat) : Prop :=
  (padAt a).ictx.memAddr w % al = 0 ∧ (padAt a).ictx.memAddr w + len ≤ spadSize (padAt a).issue.core (padAt a).icore.team
theorem fitsAt_iff (w : MWord) (al len a : Nat) : fitsAt w al len a ↔
    areaAddr (({ Ctx.reset with a := Ctx.reset.a.set 2 (BitVec.ofNat 64 a) } : Ctx).aReg w.areg) (dispInt w) % al = 0
      ∧ areaAddr (({ Ctx.reset with a := Ctx.reset.a.set 2 (BitVec.ofNat 64 a) } : Ctx).aReg w.areg) (dispInt w) + len ≤ top := by
  unfold fitsAt padAt
  rw [mk_size, mk_ictx]; rfl

/-- At the bottom and at the top of the scratchpad, plain and with post-increment. -/
theorem witness_ScalarMemoryResults :
    (∀ w ∈ [m0 .ld, { m0 .ld with amode := 1 }], ∀ (r : SlotRes), ∀ i ∈ [Instr.ldS w, .stS w, .amoAdd w, .amoMin w, .amoMax w, .amoXchg w, .amoCas w, .patld w],
      (padAt 0).unhindered i w.hd r ∧ (padAt (top - 8)).unhindered i w.hd r ∧ (padAt (top - 160)).unhindered i w.hd r)
      ∧ ∀ w ∈ [m0 .ld, { m0 .ld with amode := 1 }], fitsAt w 8 8 0 ∧ fitsAt w 8 8 (top - 8) ∧ fitsAt w 32 160 0 ∧ fitsAt w 32 160 (top - 160) := by
  refine ⟨fun w hw => ?_, fun w hw => ?_⟩
  · have hg : w.hd.guard = 0 ∧ w.hd.gneg = false := by revert w; decide
    exact fun r i _ => ⟨padAt_free _ i _ r hg.1 hg.2, padAt_free _ i _ r hg.1 hg.2, padAt_free _ i _ r hg.1 hg.2⟩
  · simp only [fitsAt_iff]; revert w; decide

theorem padAt_gather (a i : Nat) : gatherAddr (padAt a).ictx { m0 .ld with ty := 3, b := 5 } i = (padAt a).ictx.memAddr { m0 .ld with ty := 3, b := 5 } := by
  have h : (padAt a).ictx.vReg 5 = 0 := by rw [padAt, mk_ictx]; rfl
  show _ + _ * elem ((padAt a).ictx.vReg 5) i _ = _
  rw [h]; simp [elem]

def mt (t : BitVec 4) (b : Reg6) : MWord := { m0 .ld with ty := t, b := b }
/-- Offsets wait in the queue of gather offsets. -/
def queued2 : State := mk Ctx.reset { Team.reset with opq := [0, 1572863] } 0
theorem queued2_free (i : Instr) (h : Head) (r : SlotRes) (hg : h.guard = 0 := by rfl) (hn : h.gneg = false := by rfl) : queued2.unhindered i h r :=
  mk_unhindered _ _ _ i h r rfl rfl rfl hg hn

/-- Every form at the bottom and at the top of the scratchpad; the four map sources of MAPM; the smallest and the largest
stride; a bundle's job at its only group. -/
theorem witness_VectorLoadResults :
    (∀ w : MWord, w.hd = hd0 .ld → ∀ i ∈ [Instr.ldV w, .ldVB w, .ldVG w, .ldVQ w, .ldt w, .ldSW w], ∀ (r : SlotRes) (a : Nat),
      (padAt a).unhindered i w.hd r ∧ queued2.unhindered i w.hd r)
      ∧ (∀ a ∈ [0, top - 512], fitsAt (mt 3 0) 32 512 a) ∧ (∀ a ∈ [0, top - 1024], fitsAt (mt 7 0) 32 1024 a)
      ∧ (∀ a ∈ [0, top - 4], fitsAt (mt 3 0) 4 4 a) ∧ (∀ a ∈ [0, top - (15 * 32 + 32)], fitsAt (mt 12 0) 32 (15 * 32 + 32) a)
      ∧ (∀ a ∈ [0, top - (15 * 512 + 32)], fitsAt (mt 12 15) 32 (15 * 512 + 32) a) ∧ (∀ a ∈ [0, top - (15 * 512 + 32)], fitsAt (mt 3 15) 32 (15 * 512 + 32) a)
      ∧ (∀ b ∈ [0#6, 16#6, 32#6, 48#6], (padAt 0).mapmFaults (mt 3 b) = [])
      ∧ (∀ i < 128, gatherAddr (padAt (top - 4)).ictx (mt 3 5) i + 4 ≤ top)
      ∧ (queued2.icore.team.opq.length = 2 ∧ ∀ i < 2, (queued2.icore.team.opq.getD i 0).toNat + 1 ≤ top) := by
  refine ⟨fun w hw i _ r a => ⟨padAt_free _ i _ r (by rw [hw]; rfl) (by rw [hw]; rfl), queued2_free i _ r (by rw [hw]; rfl) (by rw [hw]; rfl)⟩,
    ?_, ?_, ?_, ?_, ?_, ?_, ?_, ?_, ?_⟩
  iterate 6 · simp only [fitsAt_iff]; decide
  · decide
  · intro i _; rw [mt, padAt_gather, padAt, mk_ictx]; decide
  · show _ ∧ ∀ i < 2, (((queued2.coreAt 0).team.opq).getD i 0).toNat + 1 ≤ top
    rw [show queued2.icore.team.opq = [0, 1572863] by rw [State.icore, queued2]; exact congrArg (fun c => c.team.opq) (mk_core ..)]
    rw [show (queued2.coreAt 0).team.opq = [0, 1572863] by rw [queued2]; exact congrArg (fun c => c.team.opq) (mk_core ..)]
    decide

/-- A job of one cycle for the first and the last byte of a register. -/
theorem witness_VectorLoadResults_job :
    let j : ReadJob := { dst := 1, width := 1, groups := [[(0, 7), (511, 8)], []], got := 0, mask := 0, map := none, season := none, codes := false, own := none, land := 6 }
    j.season = none ∧ j.groups = [(0, 7), (511, 8)] :: [[]] ∧ ([(0, 7), (511, 8)].map (fun p : Nat × Nat => p.1)).Nodup
      ∧ ∀ p ∈ [((0 : Nat), (7 : Nat)), (511, 8)], 8 * j.width * (p.1 + 1) ≤ 4096 ∧ elem j.got p.1 (8 * j.width) = 0 :=
  ⟨rfl, rfl, by decide, fun p hp => ⟨by revert p; decide, by simp [elem]⟩⟩

theorem witness_VectorStoreResults :
    (∀ w : MWord, w.hd = hd0 .st → ∀ i ∈ [Instr.stV w, .stVC w, .stVS w, .stSW w], ∀ (r : SlotRes) (a : Nat), (padAt a).unhindered i w.hd r)
      ∧ tyWidth 3 % 8 = 0 ∧ (∀ a ∈ [0, top - 512], fitsAt (mt 3 0) 32 512 a) ∧ (∀ a ∈ [0, top - 1024], fitsAt (mt 7 0) 32 1024 a)
      ∧ (∀ a ∈ [0, top - 4 * 128], fitsAt (mt 3 0) 4 (4 * 128) a)
      ∧ (∀ i < 128, gatherAddr (padAt (top - 4)).ictx (mt 3 5) i + 4 ≤ top) := by
  refine ⟨fun w hw i _ r a => padAt_free _ i _ r (by rw [hw]; rfl) (by rw [hw]; rfl), by decide, ?_, ?_, ?_, ?_⟩
  iterate 3 · simp only [fitsAt_iff]; decide
  · intro i _; rw [mt, padAt_gather, padAt, mk_ictx]; decide

/-! A task and gangs. -/

def tcb0 : Tcb :=
  { cbase := 0x1000, eoff := 0, asid := 1, queue := 0, barf := false, prio := 0, grade := 0, gang := 0, aff := 0, part := 0x100002, htab := 0, nsucc := 0
    crmax := 0, crec := 0, deadline := 0, fps := [], succs := [] }
def task0 : Task :=
  { id := 0, tcba := 0x4000, subAsid := 1, tcb := tcb0, queue := 0, order := 0, prio := 0, waitFrom := none, aged := false, host := none, state := .running, due := none
    front := false, dest := none, doomed := false, dep := 0, mark := none, cores := [0], started := 0, frames := [], areas := [], unmapped := [], failure := none, err := 0, errMember := 0, late := false, pins := []
    victimFor := none, cluBars := Vector.replicate 6 (Vector.replicate 16 Barrier.reset), stkBars := Vector.replicate 16 Barrier.reset }
/-- A gang of a cluster, and one of sixteen. -/
def gang4 : Task := { task0 with tcb := { tcb0 with gang := 1 }, cores := [0, 1, 2, 3] }
def gang16 : Task := { task0 with tcb := { tcb0 with gang := 2 }, cores := [0, 1, 2, 3, 4, 5, 6, 7, 8, 9, 10, 11, 12, 13, 14, 15] }

/-- Core 0 runs the task. -/
def withTask (t : Task) (s : State) : State := { s with tasks := [t] }.updCore 0 (fun y => { y with task := some t.id })
theorem withTask_core (t : Task) (s : State) : (withTask t s).coreAt 0 = { s.coreAt 0 with task := some t.id } := get_set_self ..
theorem withTask_taskAt (t : Task) (s : State) : (withTask t s).taskAt 0 = some t := by
  unfold State.taskAt
  rw [withTask_core]
  simp [State.taskOf, withTask, State.updCore]
theorem withTask_ctx (t : Task) (s : State) (k : Fin 4) : (withTask t s).ctxAt 0 k = s.ctxAt 0 k := by
  unfold State.ctxAt; rw [withTask_core]
/-- The bundle in progress has the words given. -/
def withAll (is : List Instr) (s : State) : State := s.withIssue { s.issue with all := is }

/-- A word is free on core 0 with a task as it is without one. -/
theorem withTask_unhindered (t : Task) (s : State) (h0 : s.issue.core = 0) (i : Instr) (h : Head) (r : SlotRes) (hs : s.unhindered i h r) :
    (withTask t s).unhindered i h r := by
  have hc : (withTask t s).ictx = s.ictx := by
    show (withTask t s).ctxAt s.issue.core s.issue.ctx = s.ctxAt s.issue.core s.issue.ctx
    rw [h0, withTask_ctx]
  have ht : (withTask t s).icore.team = s.icore.team := by
    show ((withTask t s).coreAt s.issue.core).team = (s.coreAt s.issue.core).team
    rw [h0, withTask_core]
  obtain ⟨⟨a, b, c, d⟩, e, f, g⟩ := hs
  refine ⟨⟨a, b, c, ?_⟩, ?_, ?_, ?_⟩
  · rw [hc]; exact d
  · rw [hc]; exact e
  · rw [hc]; exact f
  · rw [hc, ht]; exact g
def inGang (t : Task) : State := withTask t plain
theorem inGang_free (t : Task) (i : Instr) (h : Head) (r : SlotRes) (hg : h.guard = 0 := by rfl) (hn : h.gneg = false := by rfl) : (inGang t).unhindered i h r :=
  withTask_unhindered t plain rfl i h r (plain_free i h r hg hn)

/-! ### Matrix words -/

def mx2 (i : XWord → Instr) : Instr := i { x0 with aa := 2 }
def repW (n : BitVec 24) : Instr := .rep { yc0 with cnt := n }
def rep0 : Instr := .rep { yc0 with csrc := true, a := 0 }

theorem guardBit_p0 (x : Ctx) (h : Head) (hg : h.guard = 0) (hn : h.gneg = false) : x.guardBit h = true := by
  simp [Ctx.guardBit, Ctx.guard, hg, hn, Ctx.pReg]
theorem rep_count (x : Ctx) (w : YCWord) (hg : w.hd.guard = 0) (hn : w.hd.gneg = false) : repCount x [.rep w] = min (countOf x w) 4096 := by
  simp only [repCount, List.findSome?, guardBit_p0 x w.hd hg hn, if_true, Option.getD_some]
theorem withAll_rep (s : State) (w : YCWord) (hg : w.hd.guard = 0) (hn : w.hd.gneg = false) : (withAll [.rep w] s).mxRep = true := by
  show (s.ictx.guardBit w.hd || false) = true
  rw [guardBit_p0 _ _ hg hn]; rfl

/-- No repetition, one, two under `REP`, and the most; operands at both ends of the scratchpad; a gang word in a gang. -/
theorem witness_MatrixWordResults :
    (∀ (w : XWord), w.hd = hd0 .mx → ∀ i ∈ [Instr.mma w, .mmaZ w, .mmaT w, .mmaG w, .mmaBS w, .tzero w, .tload w, .tmap w, .twait w], ∀ r : SlotRes, ∀ is a,
      (withAll is (padAt a)).unhindered i w.hd r)
      ∧ (withAll [rep0] (padAt 0)).mxCount = 0 ∧ (withAll [] (padAt 0)).mxCount = 1 ∧ (withAll [repW 1] (padAt 0)).mxCount = 2
      ∧ (withAll [repW 4095] (padAt 0)).mxCount = 4096 ∧ (withAll [repW 1] (padAt 0)).mxRep = true ∧ (withAll [] (padAt 0)).mxRep = false
      ∧ (∀ n ∈ [32, 4096, 8192, 32768, 65536], ∀ a ∈ [0, top - n], ∀ x ∈ repOffs 1 ((padAt a).ictx.aReg 2), x % 32 = 0 ∧ x + n ≤ top)
      ∧ (∀ x ∈ repOffs 2 ((padAt 64).ictx.aReg 2), x % 32 = 0 ∧ x + 4096 ≤ top)
      ∧ (padAt 0).gangFaults (mx2 .mma) = [] ∧ (inGang gang4).gangFaults (.mma { x0 with fn := 16 }) = [] ∧ (inGang gang16).gangFaults (.mma { x0 with fn := 16 }) = [] := by
  refine ⟨fun w hw i _ r is a => padAt_free a i _ r (by rw [hw]; rfl) (by rw [hw]; rfl), ?_, ?_, ?_, ?_, ?_, ?_, ?_, ?_, rfl, ?_, ?_⟩
  · exact (rep_count (padAt 0).ictx _ rfl rfl).trans (by rw [padAt, mk_ictx]; rfl)
  · rfl
  · exact (rep_count (padAt 0).ictx _ rfl rfl).trans rfl
  · exact (rep_count (padAt 0).ictx _ rfl rfl).trans rfl
  · exact withAll_rep _ _ rfl rfl
  · rfl
  · intro n hn
    have h : ∀ a ∈ [0, top - n], ∀ x ∈ repOffs 1 (({ Ctx.reset with a := Ctx.reset.a.set 2 (BitVec.ofNat 64 a) } : Ctx).aReg 2), x % 32 = 0 ∧ x + n ≤ top := by
      revert n; decide
    intro a ha
    rw [padAt, mk_ictx]
    exact h a ha
  · rw [padAt, mk_ictx]
    have h : repOffs 2 (({ Ctx.reset with a := Ctx.reset.a.set 2 (BitVec.ofNat 64 64) } : Ctx).aReg 2) = [64, 64] := by decide
    intro x hx
    have hx : x ∈ [64, 64] := h ▸ hx
    revert x; decide
  iterate 2 · unfold State.gangFaults State.gangCores inGang; rw [show (withTask _ plain).issue.core = 0 from rfl, withTask_taskAt]; rfl

/-- A tile map of 128 by 128 elements, and one of NONE. -/
def tile2 : MapBits := 0#104 ++ 128#24 ++ 128#24 ++ 0#180 ++ 128#10 ++ 128#10 ++ 0#11 ++ 1#1 ++ 0#2 ++ 0#10 ++ 0#1 ++ 2#3 ++ 0#2 ++ 1#2
def tmapAt (m : MapBits) : State := mk { Ctx.reset with preread := some { due := 0, ld := 0, mx := m, ldEarly := none, mxEarly := none } } Team.reset 0
theorem tmapAt_free (m : MapBits) (i : Instr) (h : Head) (r : SlotRes) (hg : h.guard = 0 := by rfl) (hn : h.gneg = false := by rfl) : (tmapAt m).unhindered i h r :=
  mk_unhindered _ _ _ i h r rfl rfl rfl hg hn

theorem witness_MatrixWordResults_map :
    ∀ m ∈ [0, tile2], (tmapAt m).ictx.preread.map (·.mx) = some m ∧ tileMapOk m (partCtx (tmapAt m).icore.team.part) (partVregs (tmapAt m).icore.team.part) = true
      ∧ areaAddr ((tmapAt m).ictx.aReg 0) 0 % 32 = 0 ∧ areaAddr ((tmapAt m).ictx.aReg 0) 0 + 48 ≤ spadSize (tmapAt m).issue.core (tmapAt m).icore.team
      ∧ (tmapAt m).ictx.chken = false ∧ (tmapAt m).unhindered (.tmap x0) x0.hd {} ∧ (tmapAt m).unhindered (.twait x0) x0.hd {}
      ∧ (tmapAt m).unhindered (.patswap (r0 .v0)) (r0 .v0).hd {} := by
  intro m hm
  refine ⟨?_, ?_, ?_, ?_, ?_, tmapAt_free m _ _ _, tmapAt_free m _ _ _, tmapAt_free m _ _ _⟩
  · rw [tmapAt, mk_ictx]; rfl
  · have h : (tmapAt m).icore.team.part = 0 := by
      show ((tmapAt m).coreAt 0).team.part = 0
      rw [tmapAt, mk_core]; rfl
    rw [h]
    rcases List.mem_cons.mp hm with rfl | hm
    · rfl
    · rw [List.mem_singleton.mp hm]; rfl
  · rw [tmapAt, mk_ictx]; exact (by decide : areaAddr (Ctx.reset.aReg 0) 0 % 32 = 0)
  · rw [tmapAt, mk_size, mk_ictx]; exact (by decide : areaAddr (Ctx.reset.aReg 0) 0 + 48 ≤ spadSize 0 Team.reset)
  · rw [tmapAt, mk_ictx]; rfl

/-! ### System instructions -/

/-- Registers s2 and s63 of the context. -/
def sys2 (x : Word) : State := mk { Ctx.reset with s := (Ctx.reset.s.set 2 x).set 63 x } Team.reset 0
theorem sys2_free (x : Word) (i : Instr) (h : Head) (r : SlotRes) (hg : h.guard = 0 := by rfl) (hn : h.gneg = false := by rfl) : (sys2 x).unhindered i h r :=
  mk_unhindered _ _ _ i h r rfl rfl rfl hg hn
theorem sys2_reg (x : Word) : (sys2 x).ictx.sReg 2 = x ∧ (sys2 x).ictx.sReg 63 = x := by
  rw [sys2, mk_ictx]; exact ⟨rfl, rfl⟩
/-- The bundle stands high in the address space. -/
def hiAt : State := plain.withIssue { plain.issue with baddr := 0xFFFFFFE0000000 }

/-- Targets at 0 and at the last bundle of the address space; conditions that hold and that do not. -/
theorem witness_BranchLoopAndWaitResults_branch :
    (∀ w : YTWord, w.hd = hd0 .sy → ∀ i ∈ [Instr.br w, .call w, .brs w, .brp w], plain.unhindered i w.hd {} ∧ hiAt.unhindered i w.hd {} ∧ (sys2 1).unhindered i w.hd {})
      ∧ (plain.issue.baddr.toNat + 8 * (-512#27).toInt = 0 ∧ (hiAt.issue.baddr.toNat : Int) + 8 * (0x3FFFFFF#27).toInt = 0xFFFFFFFFFFFFF8)
      ∧ intCc 0 ((sys2 0).ictx.sReg 2).toInt 0 = true ∧ intCc 0 ((sys2 1).ictx.sReg 2).toInt 0 = false
      ∧ ((plain.ictx.pReg 0).getLsbD 0 = true ∧ (∃ j < 512, (plain.ictx.pReg 0).getLsbD j) ∧ ∀ j < 512, (plain.ictx.pReg 0).getLsbD j)
      ∧ ((plain.ictx.pReg 1).getLsbD 0 = false ∧ (¬ ∃ j < 512, (plain.ictx.pReg 1).getLsbD j) ∧ ¬ ∀ j < 512, (plain.ictx.pReg 1).getLsbD j)
      ∧ (∀ w : YSWord, w.hd = hd0 .sy → ∀ i ∈ [Instr.jmpi w, .ret w], ∀ x, (sys2 x).unhindered i w.hd {})
      ∧ ∀ x ∈ [0#64, BitVec.ofNat 64 (2 ^ 56 - 8)], (sys2 x).ictx.sReg 2 = x ∧ (sys2 x).ictx.sReg 63 = x ∧ x.toNat % 8 = 0 ∧ x.toNat < 2 ^ 56 := by
  have h1 : ∀ x ∈ [0#64, BitVec.ofNat 64 (2 ^ 56 - 8)], x.toNat % 8 = 0 ∧ x.toNat < 2 ^ 56 := by simp
  refine ⟨fun w hw i _ => ⟨plain_free i _ _ (by rw [hw]; rfl) (by rw [hw]; rfl), plain_free i _ _ (by rw [hw]; rfl) (by rw [hw]; rfl),
    sys2_free 1 i _ _ (by rw [hw]; rfl) (by rw [hw]; rfl)⟩, ⟨rfl, by rw [show hiAt.issue.baddr = 0xFFFFFFE0000000#56 from rfl]; decide⟩, ?_, ?_, ?_, ?_,
    fun w hw i _ x => sys2_free x i _ _ (by rw [hw]; rfl) (by rw [hw]; rfl), fun x hx => ⟨(sys2_reg x).1, (sys2_reg x).2, h1 x hx⟩⟩
  · rw [(sys2_reg 0).1]; decide
  · rw [(sys2_reg 1).1]; decide
  · rw [show plain.ictx.pReg 0 = BitVec.allOnes 512 from rfl]
    have h : ∀ j < 512, (BitVec.allOnes 512).getLsbD j = true := fun j hj => by rw [BitVec.getLsbD_allOnes]; exact decide_eq_true hj
    exact ⟨h 0 (by omega), ⟨0, by omega, h 0 (by omega)⟩, h⟩
  · have h : plain.ictx.pReg 1 = 0 := by rw [plain, mk_ictx]; rfl
    rw [h]
    exact ⟨by simp, by simp, fun h => absurd (h 0 (by omega)) (by simp)⟩

/-- A count of 1, the highest count, a register that holds the highest and one that holds 0. -/
theorem witness_BranchLoopAndWaitResults_loop :
    (∀ w : YCWord, w.hd = hd0 .sy → ∀ i ∈ [Instr.loop w, .rep w], ∀ x, (sys2 x).unhindered i w.hd {})
      ∧ countOf (sys2 0).ictx yc0 = 1 ∧ countOf (sys2 0).ictx { yc0 with cnt := 0xFFFFFF } = 2 ^ 24
      ∧ countOf (sys2 (BitVec.ofNat 64 (2 ^ 24))).ictx { yc0 with csrc := true, a := 2 } = 2 ^ 24
      ∧ countOf (sys2 4096).ictx { yc0 with csrc := true, a := 2 } = 4096 ∧ countOf (sys2 0).ictx { yc0 with csrc := true, a := 2 } = 0 := by
  refine ⟨fun w hw i _ x => sys2_free x i _ _ (by rw [hw]; rfl) (by rw [hw]; rfl), rfl, rfl, ?_, ?_, ?_⟩ <;>
    (show ((sys2 _).ictx.sReg 2).toNat = _; rw [(sys2_reg _).1]; rfl)

def onControl : State := mk Ctx.reset Team.reset 200
theorem onControl_free (i : Instr) (h : Head) (r : SlotRes) (hg : h.guard = 0 := by rfl) (hn : h.gneg = false := by rfl) : onControl.unhindered i h r :=
  mk_unhindered _ _ _ i h r rfl rfl rfl hg hn
/-- The scheduler waits for a boundary of a preemptible task. -/
def graded : Task := { task0 with tcb := { tcb0 with grade := 1 } }
def asked : State := withTask graded (mkC (fun y => { y with request := some .boundary }) Ctx.reset Team.reset 0)
theorem asked_free (i : Instr) (h : Head) (r : SlotRes) (hg : h.guard = 0 := by rfl) (hn : h.gneg = false := by rfl) : asked.unhindered i h r :=
  withTask_unhindered _ _ rfl i h r (mkC_unhindered _ _ _ _ i h r rfl rfl rfl hg hn)

theorem witness_BranchLoopAndWaitResults_wait :
    (∀ i ∈ [Instr.nop ys0, .waitTok ys0, .drain ys0, .waitCyc ys0, .retire ys0, .yield ys0, .barWait ys0, .fenceQ ys0], plain.unhindered i ys0.hd {})
      ∧ isControl plain.issue.core = false ∧ isControl onControl.issue.core = true ∧ onControl.unhindered (.waitCyc ys0) ys0.hd {}
      ∧ (asked.icore.request = some .boundary ∧ ∃ t, asked.taskAt asked.issue.core = some t ∧ t.tcb.grade.getLsbD 0 = true) ∧ plain.icore.request = none
      ∧ asked.unhindered (.yield ys0) ys0.hd {}
      ∧ (plain.barrier 0 0 15).isSome = true ∧ ((inGang gang4).barrier 0 1 15).isSome = true ∧ ((inGang gang16).barrier 0 2 15).isSome = true := by
  refine ⟨fun i _ => plain_free i _ _, by decide, by decide, onControl_free _ _ _, ⟨?_, graded, withTask_taskAt _ _, by decide⟩, ?_, asked_free _ _ _, rfl, ?_, ?_⟩
  · show (asked.coreAt 0).request = _; rw [asked, withTask_core, mkC_core]
  · show (plain.coreAt 0).request = none; rw [plain, mk_core]; rfl
  · unfold State.barrier inGang; simp only [withTask_taskAt]; decide
  · unfold State.barrier inGang; simp only [withTask_taskAt]; decide

theorem witness_TrapReturnResults :
    plain.unhindered (.tren ys0) ys0.hd {} ∧ plain.unhindered (.tret ys0) ys0.hd {} := ⟨plain_free _ _ _, plain_free _ _ _⟩

/-- A store of the context is in flight for three cycles. -/
def storing : State := mk { Ctx.reset with s := Ctx.reset.s.set 2 65535 } { Team.reset with pend := [{ due := 3, seq := 0, unit := .st, ctx := 0, baddr := 0, act := .store [] }] } 0
theorem storing_free (i : Instr) (h : Head) (r : SlotRes) (hg : h.guard = 0 := by rfl) (hn : h.gneg = false := by rfl) : storing.unhindered i h r :=
  mk_unhindered _ _ _ i h r rfl rfl rfl hg hn
def barW (scope : BitVec 3) : YSWord := { ys0 with a := 2, scope := scope, order := 2, fn := 15 }

/-- The least and the greatest count; an arrival at once, and one behind stores; the last arrival and one before it; barriers of the three scopes. -/
theorem witness_BarrierResults :
    storing.unhindered (.barInit (barW 0)) (barW 0).hd {} ∧ storing.unhindered (.barArrive (barW 0)) (barW 0).hd {} ∧ (storing.barrier 0 0 15).isSome = true
      ∧ (∀ x ∈ [1#64, 65535#64], (sys2 x).ictx.sReg 2 = x ∧ (x ≠ 0 ∧ x.toNat ≤ 65535) ∧ (sys2 x).unhindered (.barInit (barW 0)) (barW 0).hd {})
      ∧ storing.storesLeft ≠ 0 ∧ plain.storesLeft = 0 ∧ plain.unhindered (.barArrive (barW 0)) (barW 0).hd {}
      ∧ ((inGang gang4).barrier 0 1 15).isSome = true ∧ (inGang gang4).unhindered (.barArrive (barW 1)) (barW 1).hd {}
      ∧ ((inGang gang16).barrier 0 2 15).isSome = true ∧ (inGang gang16).unhindered (.barInit (barW 2)) (barW 2).hd {}
      ∧ ∃ t u : Team, (t.bars.get 15).arrivals + 1 = (t.bars.get 15).count ∧ (u.bars.get 15).arrivals + 1 ≠ (u.bars.get 15).count := by
  have h1 : ∀ x ∈ [1#64, 65535#64], x ≠ 0 ∧ x.toNat ≤ 65535 := by simp
  refine ⟨storing_free _ _ _, storing_free _ _ _, rfl, fun x hx => ⟨(sys2_reg x).1, h1 x hx, sys2_free x _ _ _⟩, ?_, ?_, plain_free _ _ _, ?_, inGang_free _ _ _ _, ?_,
    inGang_free _ _ _ _, { Team.reset with bars := Team.reset.bars.set 15 { count := 1, arrivals := 0, gen := 0 } }, Team.reset, by decide, by decide⟩
  · unfold State.storesLeft; dsimp only
    rw [show storing.icore.team.pend = [{ due := 3, seq := 0, unit := .st, ctx := 0, baddr := 0, act := .store [] }] from by
      show (storing.coreAt 0).team.pend = _; rw [storing, mk_core]]
    decide
  · unfold State.storesLeft; dsimp only
    rw [show plain.icore.team.pend = [] from by show (plain.coreAt 0).team.pend = _; rw [plain, mk_core]; rfl]
    rfl
  · unfold State.barrier inGang; simp only [withTask_taskAt]; decide
  · unfold State.barrier inGang; simp only [withTask_taskAt]; decide

/-- Every register's number; a value that leaves the read-only bits as they are. -/
theorem witness_ControlRegisterResults :
    (∀ n ∈ [0x00, 0x01, 0x02, 0x03, 0x04, 0x05, 0x08, 0x09, 0x10, 0x13], ∃ w : YSWord, w.fn.toNat % 256 = n ∧ plain.unhindered (.mfc w) w.hd {})
      ∧ (∀ n ∈ [3, 5, 9, 10, 11], ∀ x : Word, x &&& cregRo n = plain.creg 0 0 n &&& cregRo n)
      ∧ (sys2 1).ictx.sReg 2 &&& cregRo 0 = (sys2 1).creg 0 0 0 &&& cregRo 0
      ∧ (∀ i ∈ [Instr.mtcTstat { ys0 with a := 2 }, .mtcWaitlim { ys0 with a := 2, fn := 9 }, .mtc { ys0 with a := 2, fn := 3 }, .mtc { ys0 with a := 2, fn := 5 }],
        ∀ x, (sys2 x).unhindered i ys0.hd {}) := by
  refine ⟨fun n hn => ⟨{ ys0 with fn := BitVec.ofNat 20 n }, by revert n; decide, plain_free _ _ _⟩, fun n hn x => ?_, ?_, fun i _ x => sys2_free x i _ _⟩
  · rw [show cregRo n = 0 by revert n; decide]; simp
  · rw [(sys2_reg 1).1]
    show _ = BitVec.ofNat 64 (4 * 0 + 2 * ((sys2 1).ictx.hnd).toNat + ((sys2 1).ictx.te).toNat) &&& _
    rw [sys2, mk_ictx]; rfl

/-- A control core with s2 = `x`. -/
def control2 (x : Word) : State := mk { Ctx.reset with s := Ctx.reset.s.set 2 x } Team.reset 200
theorem control2_free (x : Word) (i : Instr) (h : Head) (r : SlotRes) (hg : h.guard = 0 := by rfl) (hn : h.gneg = false := by rfl) : (control2 x).unhindered i h r :=
  mk_unhindered _ _ _ i h r rfl rfl rfl hg hn

/-- The lowest and the highest core of a group; an entry of the statistics queue, and none. -/
theorem witness_ControlCoreResults :
    (∀ x ∈ [0#64, 24#64], (control2 x).ictx.sReg 2 = x ∧ x.toNat < 25
      ∧ ∀ i ∈ [Instr.scanAbort { ys0 with a := 2 }, .scanRead { ys0 with a := 2 }, .dbgResume { ys0 with a := 2 }, .cmapSet { ys0 with a := 2 }, .sqpop { ys0 with a := 2 }],
        (control2 x).unhindered i ys0.hd {})
      ∧ (control2 0).cmapBad (groupOf 200) 0 0 = false ∧ (control2 0).cmapBad (groupOf 200) 23 0x98 = false
      ∧ ((control2 0).groupAt (groupOf 200)).statq = []
      ∧ ((({ control2 0 with groups := (control2 0).groups.set 0 { Group.reset with statq := [1, 2] } } : State).groupAt 0).statq = [1, 2]
        ∧ ({ control2 0 with groups := (control2 0).groups.set 0 { Group.reset with statq := [1, 2] } } : State).unhindered (.sqpop ys0) ys0.hd {}) := by
  have h1 : ∀ x ∈ [0#64, 24#64], x.toNat < 25 := by simp
  refine ⟨fun x hx => ⟨by rw [control2, mk_ictx]; rfl, h1 x hx, fun i _ => control2_free x i _ _⟩, by decide, by decide, by decide, ?_, control2_free 0 _ _ _⟩
  exact congrArg Group.statq (get_set_self ..)

/-! ### Engine commands and the sequencer -/

/-- Descriptors at both ends; `CPYM` without `BAR` and, in a gang, with it; old values returned and not. -/
theorem witness_CommandWordResults :
    (∀ w : EWord, w.hd = hd0 .en → ∀ i ∈ [Instr.cpy w, .cpyh w, .swcpyIn w, .swcpyOut w, .swcpyDec w, .swcpyMerge w, .cpys w, .cpym w, .cpyl w, .cpylTopk w, .atomAdd w, .atomMin w
      , .atomMax w, .atomXchg w, .atomCas w, .atomk w, .collAR w, .collRS w, .collAG w, .collA2A w, .bkset w, .kick w, .sidx w, .rtabCommit w, .kvld w, .kvapp w, .kvremap w
      , .kvshare w, .kvprom w, .pfxfind w, .pfxins w, .attn w, .stnew w, .splice w, .stpin w, .stunpin w, .sweep w],
      ∀ a, (padAt a).unhindered i w.hd {} ∧ (inGang gang4).unhindered i w.hd {})
      ∧ (∀ a ∈ [0, top - 128], (padAt a).ictx.enAddr { e0 3 with a := 2 } % 32 = 0)
      ∧ (¬ ((e0 1).fn.getLsbD 4 = true ∧ ∀ t, plain.taskAt plain.issue.core = some t → t.tcb.gang = 0))
      ∧ (¬ (({ e0 1 with fn := 16 } : EWord).fn.getLsbD 4 = true ∧ ∀ t, (inGang gang4).taskAt (inGang gang4).issue.core = some t → t.tcb.gang = 0))
      ∧ (∀ i ∈ [Instr.launch ys0, .enq ys0, .scanStart ys0, .dbgHalt ys0, .stepC ys0], plain.unhindered i ys0.hd {} ∧ onControl.unhindered i ys0.hd {}) := by
  refine ⟨fun w hw i _ a => ⟨padAt_free a i _ _ (by rw [hw]; rfl) (by rw [hw]; rfl), inGang_free _ i _ _ (by rw [hw]; rfl) (by rw [hw]; rfl)⟩, ?_, by decide, ?_,
    fun i _ => ⟨plain_free i _ _, onControl_free i _ _⟩⟩
  · have h : ∀ a ∈ [0, top - 128], areaAddr (({ Ctx.reset with a := Ctx.reset.a.set 2 (BitVec.ofNat 64 a) } : Ctx).aReg 2) 0 % 32 = 0 := by decide
    intro a ha
    rw [padAt, mk_ictx]
    exact h a ha
  · rintro ⟨_, h⟩
    exact absurd (h gang4 (withTask_taskAt _ _)) (by decide)

/-- A sequencer on core 0, in the space whose descriptor gives rows of 256 bytes, pages of 16 tokens and ASID 1. -/
def kvDesc0 : KvDesc := 0#168 ++ 1#8 ++ 0#16 ++ 256#16 ++ 0#304
def seqAt (q : SeqState) : State :=
  { mk Ctx.reset { Team.reset with seq := q, cmds := [Cmd.new (.attn (e0 4)) 4 1] } 0 with ev := .core 0, spaces := Vector.replicate 16 kvDesc0 }
theorem seqAt_seq (q : SeqState) : ((seqAt q).coreAt 0).team.seq = q := by
  show ((mk Ctx.reset { Team.reset with seq := q, cmds := [Cmd.new (.attn (e0 4)) 4 1] } 0).coreAt 0).team.seq = q
  rw [mk_core]
/-- The exact sizes that the largest head needs, with one row. -/
def rec0 : AttnRec := { AttnRec.reset with nt := 2, tbase := 1, qbytes := 32768, obytes := 65536 }
def q0 : SeqState := { SeqState.reset with running := true, attn := rec0, fetched := true, smaxed := true, weighed := true, mw := { mw0 with ts := 1 } }

theorem seqAt_sequences (q : SeqState) (i : Instr) (h : q.running = true) (hp : q.parked = false) (hm : i.microOk q.mw = true) : (seqAt q).sequences 0 i := by
  unfold State.sequences
  rw [seqAt_seq]
  exact ⟨rfl, h, hp, hm⟩

theorem witness_MicroOperationResults_tiles :
    ((seqAt q0).sequences 0 .score ∧ q0.mw.ts.toNat < q0.attn.nt.toNat ∧ kvRb ((seqAt q0).kvDesc q0.space) / 2 = 128 ∧ q0.mw.offa.toNat + 256 * 128 ≤ q0.attn.obytes.toNat
        ∧ 256 * 128 ≤ q0.attn.qbytes.toNat ∧ q0.fetched = true ∧ (q0.attn.param.get 0).toNat < 128)
      ∧ (let q := { q0 with mw := { mw0 with ts := 1 } }; (seqAt q).sequences 0 .scale ∧ (seqAt q).sequences 0 .mask)
      ∧ (let q := { q0 with mw := { mw0 with ts := 1, offa := 32768 } }; (seqAt q).sequences 0 .smax ∧ q.mw.offa.toNat + 32768 ≤ q.attn.obytes.toNat)
      ∧ (let q := { q0 with mw := { mw0 with tOut := 0, offa := 32768, offb := 0 } }
         (seqAt q).sequences 0 .weigh ∧ q.mw.tOut.toNat + 1 < q.attn.nt.toNat ∧ q.mw.offa.toNat + 32768 ≤ q.attn.obytes.toNat)
      ∧ (let q := { q0 with mw := { mw0 with n := 1 } }
         (seqAt q).sequences 0 .flush ∧ q.mw.tOut.toNat + 1 < q.attn.nt.toNat ∧ q.mw.offa.toNat + flushLen q 128 ≤ q.attn.obytes.toNat) := by
  refine ⟨⟨seqAt_sequences _ _ rfl rfl (by decide), by decide, ?_, by decide, by decide, rfl, by decide⟩, ⟨seqAt_sequences _ _ rfl rfl (by decide), seqAt_sequences _ _ rfl rfl (by decide)⟩,
    ⟨seqAt_sequences _ _ rfl rfl (by decide), by decide⟩, ⟨seqAt_sequences _ _ rfl rfl (by decide), by decide, by decide⟩,
    ⟨seqAt_sequences _ _ rfl rfl (by decide), by decide, by decide⟩⟩
  rfl

/-- A chain of one page with one token, at 0x10000 with its rows at 0x20000, in a gigabyte that every TLB maps. -/
def paged : State :=
  let q := { q0 with fetched := false, start := 0, top := 1, page := 0x10000, mw := { mw0 with n := 127 } }
  { seqAt q with
    tlbs := Vector.replicate 48 [{ asid := 1, base := 0, size := 2 ^ 30, pa := 0, w := true, x := false, tag := false, d := true }]
    mem := [(0x10014, 1), (0x10016, 8), (0x1002A, 2)] }
/-- The first reads of `FETCHKV`, with the engine of core 0. -/
def fetchRead (s : State) : Except KvStop (List (Nat × Nat × List Byte) × List (Nat × Nat × List Byte)) × KvSt :=
  let q := (s.coreAt 0).team.seq
  KvM.run (do
    let k ← kvTile q.page false (max q.start (q.top - (q.mw.n.toNat + 1))) 129 q.top
    let v ← kvTile q.page true (max q.start (q.top - (q.mw.n.toNat + 1))) 129 q.top
    pure (k, v)) (s.updSeq 0 (fun q => { q with restart := q.pc })) (s.seqEng 0).tlb q.space
theorem fetchRead_ok (s : State) (h : (match (fetchRead s).1 with | .ok (k, v) => k != [] && (k ++ v).all (fun p => p.1 == 8) | .error _ => false) = true) :
    ∃ k v st, fetchRead s = (.ok (k, v), st) ∧ k ≠ [] ∧ ∀ p ∈ k ++ v, p.1 = 8 := by
  rcases hr : fetchRead s with ⟨r, st⟩
  rw [hr] at h
  cases r with
  | error x => cases h
  | ok p =>
    obtain ⟨k, v⟩ := p
    simp only [Bool.and_eq_true, bne_iff_ne, ne_eq, List.all_eq_true, beq_iff_eq] at h
    exact ⟨k, v, st, rfl, h.1, h.2⟩

theorem test_paged : (match (fetchRead paged).1 with | .ok (k, v) => (k ++ v).map (fun p => (p.1, p.2.1, p.2.2.length)) | .error _ => []) = [(8, 0, 256), (8, 0, 256)] := by
  decide +kernel

theorem witness_MicroOperationResults_fetch :
    let q := (paged.coreAt 0).team.seq
    let d := kvRb (paged.kvDesc q.space) / 2
    (paged.ev = .core 0 ∧ q.running = true ∧ q.parked = false ∧ Instr.fetchkv.microOk q.mw = true) ∧ d ≤ 128 ∧ q.mw.offa.toNat + (256 * d + 32768) ≤ q.attn.obytes.toNat ∧ (paged.seqCmd 0).isSome = true
      ∧ ∃ k v st, KvM.run (do
          let k ← kvTile q.page false (max q.start (q.top - (q.mw.n.toNat + 1))) 129 q.top
          let v ← kvTile q.page true (max q.start (q.top - (q.mw.n.toNat + 1))) 129 q.top
          pure (k, v)) (paged.updSeq 0 (fun q => { q with restart := q.pc })) (paged.seqEng 0).tlb q.space = (.ok (k, v), st)
        ∧ k ≠ [] ∧ ∀ p ∈ k ++ v, p.1 = 8 := by
  exact ⟨by decide +kernel, by decide +kernel, by decide +kernel, by decide +kernel, fetchRead_ok paged (by decide +kernel)⟩

def nextQ : SeqState := { q0 with top := 128, lo := 0, hi := 128, mw := mw0 }
theorem witness_MicroOperationResults_control :
    ((seqAt nextQ).sequences 0 .seqNext ∧ nextQ.weighed = true)
      ∧ (∀ c ∈ [0#4, 1, 2], (seqAt { q0 with mw := { mw0 with cond := c } }).sequences 0 .jump) ∧ (q0.start < nextQ.top ∧ q0.top = q0.start)
      ∧ (seqAt { q0 with mw := mw0 }).sequences 0 .seqEnd ∧ ((seqAt q0).seqCmd 0).isSome = true := by
  refine ⟨⟨seqAt_sequences _ _ rfl rfl (by decide), rfl⟩, fun c hc => seqAt_sequences _ _ rfl rfl (by revert c; decide), ⟨by decide, rfl⟩, seqAt_sequences _ _ rfl rfl (by decide), by decide +kernel⟩

/-- A reserved field; a tile beyond the record's; a tile not fetched; a step not weighed. -/
theorem witness_MicroOperationResults_failures :
    (∀ q : SeqState, q.running = true → q.parked = false → (seqAt q).ev = .core 0 ∧ ((seqAt q).coreAt 0).team.seq.running = true ∧ ((seqAt q).coreAt 0).team.seq.parked = false)
      ∧ (q0.running = true ∧ q0.parked = false)
      ∧ Instr.microOk { mw0 with resv := 1 } .score = false ∧ (Instr.microOk { mw0 with ts := 2 } .score = true ∧ rec0.nt.toNat ≤ 2)
      ∧ (Instr.microOk { mw0 with ts := 1 } .scale = true ∧ 1 < rec0.nt.toNat) ∧ Instr.microOk mw0 .seqNext = true := by
  refine ⟨fun q h hp => ⟨rfl, by rw [seqAt_seq]; exact h, by rw [seqAt_seq]; exact hp⟩, ⟨rfl, rfl⟩, by decide, ⟨by decide, by decide⟩, ⟨by decide, by decide⟩, by decide⟩

/-! ### The host -/

/-- The control core of group 0. -/
def ctl0 : Fin 208 := ⟨200, by decide +kernel⟩

def pkt (a b : Word) (l : List Byte) : Packet := { p0 with len := BitVec.ofNat 12 l.length, arg0 := a, arg1 := b, payload := l }
/-- A device that runs, with stream 0 open, the firmware up, and a gigabyte of ASID 1 in every TLB. -/
def host (p : Packet) : State :=
  { State.reset with
    stage := 6, streams := State.reset.streams.set 0 (some 0), groups := Vector.replicate 8 { Group.reset with down := false }, pkt := p, ev := .none
    tlbs := Vector.replicate 48 [{ asid := 1, base := 0, size := 2 ^ 30, pa := 0, w := true, x := false, tag := false, d := true }] }
theorem host_taken (p : Packet) (i : Instr) : (host p).taken i = host p := rfl
theorem host_takes (p : Packet) (i : Instr) (h : packetBad p = false) (hs : p.stream = 0 := by rfl) : (host p).takes i := by
  refine ⟨h, fun _ => ⟨?_, ?_⟩⟩
  · show ((State.reset.streams.set 0 (some 0)).get p.stream.toFin).isSome = true
    rw [hs]; rfl
  · rw [host_taken]; simp [State.mustWait, host, State.reset, State.replaying, Capture.reset]
/-- A command that has waited and comes again. -/
def again (p : Packet) : State := { host p with ev := .held }
theorem again_takes (p : Packet) (i : Instr) (h : packetBad p = false) : (again p).takes i := ⟨h, fun h => nomatch h⟩

def bytes0 (n : Nat) : List Byte := List.replicate n 0
def fits (x : Word) (m : Nat) : Bool := x &&& ~~~(BitVec.ofNat 64 m) == 0

/-- Each command with its arguments at the ends of their ranges. -/
theorem witness_HostConfigurationResults :
    (∀ p ∈ [pkt (BitVec.ofNat 64 (2 ^ 52 - 4096)) 0xFF [], pkt (BitVec.ofNat 64 (2 ^ 56 - 4096)) (BitVec.ofNat 64 (2 ^ 64 - 2 ^ 16 + 0xFF)) [], pkt 0x7F 0x10000 [], pkt 0 0x10001010000 [], pkt 1 0 [], pkt 0xFFFF 0 []
      , pkt 15 0 (bytes0 64), pkt 1023 0 (bytes0 12), pkt 1 0 (bytes0 2), pkt 0 0 (bytes0 64), pkt 1 1 (bytes0 2), pkt 0xFF (BitVec.ofNat 64 (2 ^ 56 - 1)) [0x80, 0, 0, 0], pkt 16383 0 [0, 0, 0, 0x80]],
      packetBad p = false ∧ p.stream = 0)
      ∧ (fits (BitVec.ofNat 64 (2 ^ 52 - 4096)) (2 ^ 52 - 4096) ∧ fits 0xFF 0xFF)
      ∧ (fits (BitVec.ofNat 64 (2 ^ 56 - 4096)) (2 ^ 56 - 4096) ∧ fits (BitVec.ofNat 64 (2 ^ 64 - 2 ^ 16 + 0xFF)) (2 ^ 64 - 2 ^ 16 + 0xFF))
      ∧ (fits 0x7F 0x7F ∧ queueBad 0x10000 = false ∧ queueCap 0x10000 = 0 ∧ (host (pkt 0x7F 0x10000 [])).entries 127 = [] ∧ (host (pkt 0x7F 0x10000 [])).resumeList 127 = [])
      ∧ (queueBad 0x10001010000 = false ∧ queueCap 0x10001010000 = 1 ∧ ((host (pkt 0 0x10001010000 [])).entries 0).length ≤ 1)
      ∧ (fits 1 0xFFFF ∧ fits 0xFFFF 0xFFFF ∧ (1 : Word) ≠ 0)
      ∧ ((bytes0 64).length = 64 ∧ fits 15 0xF ∧ kvBadDesc (bytes0 64) = false ∧ (host (pkt 15 0 (bytes0 64))).kvNamed 15 = false)
      ∧ (fits 1023 0x3FF ∧ (bytes0 12).length % 12 = 0 ∧ (bytes0 12).length / 12 ≠ 0 ∧ (1023 : Nat) + (bytes0 12).length / 12 ≤ 1024
        ∧ ∀ c : Fin 208, ((host (pkt 1023 0 (bytes0 12))).coreAt c).team.seq.running = false)
      ∧ ((bytes0 2).length % 2 = 0 ∧ (host (pkt 1 0 (bytes0 2))).badMembers (memberList (bytes0 2)) = false ∧ (host (pkt 1 0 (bytes0 2))).stepGroup = none)
      ∧ ((1 : Word).getLsbD 1 = false ∧ (∀ i ∈ memberList (bytes0 2), i = 0) ∧ (host (pkt 1 1 (bytes0 2))).device.toNat = 0 ∧ (host (pkt 1 1 (bytes0 2))).collGroups = [])
      ∧ (fits (BitVec.ofNat 64 (2 ^ 56 - 1)) (2 ^ 56 - 1) ∧ natAt [0x80, 0, 0, 0] 1 3 = 0 ∧ (([0x80, 0, 0, 0] : List Byte).getD 0 0).getLsbD 7 = true)
      ∧ (fits 16383 0x3FFF ∧ (16383 : Nat) + (elemsOf 4 [0, 0, 0, 0x80]).length ≤ 16384 ∧ ∀ x ∈ elemsOf 4 [0, 0, 0, 0x80], x / 2 ^ 24 % 128 = 0) := by
  decide +kernel

/-- Memory at 0x100000 holds a task control block of zeros. -/
def subm (w : Word) : State := { host (pkt 0x100000 1 []) with queues := State.reset.queues.set 0 w }
theorem test_submit_queued : (State.submitTcb (subm 0x10100010000) (firmwareCluster 0) 1 0x100000 none (some 0)).2 = .queued 0 := by decide +kernel
theorem test_submit_refused : (State.submitTcb (subm 0x10000) (firmwareCluster 0) 1 0x100000 none (some 0)).2 = .refused 0x03 := by decide +kernel

theorem subm_takes (w : Word) (i : Instr) : (subm w).takes i := by
  refine ⟨(by decide : packetBad (pkt 0x100000 1 []) = false), fun _ => ⟨rfl, ?_⟩⟩
  show (subm w).mustWait _ i = false
  simp [State.mustWait, subm, host, State.reset, State.replaying, Capture.reset]

def withTasks (l : List Task) (s : State) : State := { s with tasks := l }

theorem witness_HostCommandResults :
    (∀ w i, (subm w).takes i) ∧ (∀ g : Fin 8, ((subm 0x10000).groupAt g).down = false)
      ∧ (∀ p ∈ [pkt (BitVec.ofNat 64 (2 ^ 56 - 1)) 1 [7], pkt (BitVec.ofNat 64 (2 ^ 52 - 1)) 0x1FF [7], pkt 0 (BitVec.ofNat 64 (2 ^ 32 + 0x100)) [], pkt 0 (BitVec.ofNat 64 (4064 * 2 ^ 32 + 0x1FF)) []
        , pkt (BitVec.ofNat 64 (2 ^ 56 - 4096)) 0x1FF [], pkt 0x4000 1 [], pkt 0x4000 0 [], pkt 0 0 (bytes0 32)], packetBad p = false ∧ p.stream = 0)
      ∧ (fits (BitVec.ofNat 64 (2 ^ 56 - 1)) (2 ^ 56 - 1) ∧ (1 : Word).getLsbD 8 = false ∧ (0x1FF : Word).getLsbD 8 = true ∧ (BitVec.ofNat 64 (2 ^ 52 - 1)).toNat < 2 ^ 52)
      ∧ (fits (BitVec.ofNat 64 (4064 * 2 ^ 32 + 0x1FF)) (0xFFF * 2 ^ 32 + 0x1FF) ∧ ((BitVec.ofNat 64 (4064 * 2 ^ 32 + 0x1FF)).extractLsb' 32 12).toNat = 4064
        ∧ ((BitVec.ofNat 64 (2 ^ 32 + 0x100)).extractLsb' 32 12).toNat = 1)
      ∧ ((host (pkt 0x4000 1 [])).hostAddr false 1 (0x4000 + 20) 1 .write).2 = some 0x4014
      ∧ isAgain (host (pkt 0x4000 1 [])).ev = false
      ∧ (let r := (host (pkt 0x4000 1 [])).hostAddr false 1 (0x4000 + 20) 1 .write
         (r.1.pwrite 0x4014 [memGet r.1.mem 0x4014 &&& ~~~1]).usesHandle 1 0x4000 = false)
      ∧ ((host (pkt 0x4000 0 [])).tasks.find? (fun t => t.alive && t.failure.isNone && t.tcba == 0x4000) = none
        ∧ (withTasks [task0] (host (pkt 0x4000 0 []))).tasks.find? (fun t => t.alive && t.failure.isNone && t.tcba == 0x4000) = some task0)
      ∧ (packetBad { p0 with resvA := 1 } = true ∧ (host { p0 with resvA := 1 }).ev = .none ∧ ((host { p0 with resvA := 1 }).streams.get 0).isSome = true
        ∧ (host { p0 with resvA := 1 }).mustWait { p0 with resvA := 1 } .submit = false ∧ (host { p0 with stream := 7 }).streams.get 7 = none) :=
  ⟨subm_takes, by decide +kernel⟩

/-- A request for device 0 and its core 0, and one that the master has forwarded. -/
def halted0 (p : Packet) : State := (host p).updCore 0 (fun y => { y with halted := some 0 })
theorem witness_DebugRequestResults :
    (∀ p ∈ [pkt 0 0 [], pkt 0 (BitVec.ofNat 64 (4064 * 2 ^ 24)) [], pkt 0 (BitVec.ofNat 64 (2 ^ 63 + 2 ^ 58 - 1)) [], pkt 0 (BitVec.ofNat 64 (2 ^ 32 + 1024)) [], pkt 0 1 []
      , pkt 0 (BitVec.ofNat 64 (2 ^ 56 - 4096)) [], pkt 0 3 [], pkt 0 1 (bytes0 256), pkt 0 0x4000 []],
      packetBad p = false ∧ p.stream = 0 ∧ p.arg0.extractLsb' 24 40 = 0 ∧ debugAllDev p = false ∧ debugDevice p = 0 ∧ (host p).device = 0 ∧ (host p).debugCores p = some [0])
      ∧ ((again (pkt 0 0 [])).ev = .held ∧ isAgain .again = true ∧ ((host (pkt 0 0 [])).coreAt 0).haltReq = false ∧ ((host (pkt 0 0 [])).coreAt 0).halted = none)
      ∧ (fits (BitVec.ofNat 64 (4064 * 2 ^ 24)) (2 ^ 42 - 1) ∧ ((halted0 (pkt 0 0 [])).coreAt 0).halted.isSome = true
        ∧ ((halted0 (pkt 0 0 [])).debugBytes 0 0 0 0 4064).isSome = true ∧ ((halted0 (pkt 0 0 [])).debugBytes 0 2 3 1767 1).isSome = true)
      ∧ (fits (BitVec.ofNat 64 (2 ^ 63 + 2 ^ 58 - 1)) (2 ^ 63 + 2 ^ 58 - 1) ∧ fits (BitVec.ofNat 64 (2 ^ 32 + 1024)) (2 ^ 33 - 1) ∧ fits 1 1)
      ∧ (host (pkt 0 1 [])).otherMaster = false ∧ (host (pkt 0 1 [])).tasks.any Task.alive = false
      ∧ ((host (pkt 0 1 [])).captureRead (captureRanges [])).2.isSome = true ∧ (bytes0 256).length % 16 = 0
      ∧ ((host (pkt 0 1 [])).captureRead (captureRanges (List.replicate 7 0 ++ [2] ++ [8] ++ List.replicate 7 0))).2 = none
      ∧ (withTasks [{ task0 with state := .kept }] (host (pkt 0 0x4000 []))).tasks.any (fun t => t.state == .kept && t.tcba == 0x4000) = true := by
  decide +kernel

/-! ### Events -/

def num3 : Fin 208 := ⟨3, by decide +kernel⟩

def ctxTeam (x : Ctx) : Team := { Team.reset with part := 0x100002, ctxs := Team.reset.ctxs.set 0 x }
/-- Task 0 in the state given, on core 0 with one context, at a late cycle. -/
def taskEv (t : Task) (f : Core → Core) (x : Ctx) : State :=
  { withTask t (mkC f x (ctxTeam x) 0) with
    ev := .task 0, cycle := 1000000, queues := Vector.replicate 128 0x10100010020
    groups := Vector.replicate 8 { Group.reset with down := false, cmap := Vector.ofFn (fun i : Fin 24 => BitVec.ofNat 8 (0x80 + i.val)) } }
def inState (k : TaskState) : Task := { task0 with state := k }
def waiting : Ctx := { Ctx.reset with s := Ctx.reset.s.set 2 2000000, blockedSince := some 0, blockedOn := [.waitCyc { ys0 with a := 2 }] }
def agedGang : Task := { task0 with tcb := { tcb0 with gang := 1, aff := 15 }, state := .queued, aged := true, cores := [], waitFrom := some 0 }

/-- The fetch of context 0 of core 0 is parked on a page. -/
def onParked (s : State) : State :=
  { s with parked := [{ group := 0, asid := 1, page := 0x1000, cause := .pageNp, line := 0, who := [.fetch { core := 0, ctx := 0 }] }] }

theorem taskEv_task (t : Task) (h : t.id = 0) (f : Core → Core) (x : Ctx) : (taskEv t f x).ev = .task 0 ∧ (taskEv t f x).taskOf 0 = some t :=
  ⟨rfl, by simp [taskEv, withTask, State.taskOf, State.updCore, h]⟩

theorem witness_TaskAndSchedulerResults :
    (∀ k, (inState k).id = 0 ∧ (inState k).failure = none ∧ (inState k).cores = [0]) ∧ partOk tcb0.part = true ∧ partOk 0 = false
      ∧ (taskEv (inState .running) id { Ctx.reset with retired := true }).taskOver (inState .running) = true
      ∧ (onParked (taskEv (inState .running) id waiting)).swapDue (inState .running) = true
      ∧ (taskEv (inState .running) (fun y => { y with request := some .boundary }) { Ctx.reset with stopped := some (0, 0x1000) }).boundaryReached (inState .running) = true
      ∧ (taskEv { inState .saved with frames := [ctxTeam { waiting with s := waiting.s.set 2 1000000 }] } id Ctx.reset).cycleDue
          { inState .saved with frames := [ctxTeam { waiting with s := waiting.s.set 2 1000000 }] } = true
      ∧ (taskEv { inState .queued with waitFrom := some 0 } id Ctx.reset).ageDue { inState .queued with waitFrom := some 0 } = true
      ∧ ((taskEv agedGang id Ctx.reset).reserveOf agedGang).isSome = true
      ∧ (∀ k ∈ [TaskState.queued, .placed, .running, .saving .freeze, .saved, .resume, .restoring, .ending], (taskEv { inState k with tcb := { tcb0 with deadline := 999999 } } id Ctx.reset).deadlineDue
          { inState k with tcb := { tcb0 with deadline := 999999 } } = true) := by
  refine ⟨fun k => ⟨rfl, rfl, rfl⟩, ?_⟩
  decide +kernel

/-- A task that may start and one behind an older; a barrier task without and with a table on an absent page; a completion whose record's page is absent, and one
without a record; frames that are read back and frames that lie on poison. -/
def barrier0 : Task := { inState .placed with tcb := { tcb0 with barf := true } }
def withTable (s : State) : State :=
  { s with roots := [(0, 0x100000), (9, 0x100000)], rtabs := [(0, { addr := 0x7000, queue := 0, enabled := true, commit := some { core := 0, id := 5 } })] }
def recorded : Task := { inState .running with subAsid := 9, tcb := { tcb0 with crec := 0x8000 } }
theorem witness_TaskAndSchedulerResults_pages :
    (let s := taskEv (inState .placed) id Ctx.reset
     s.startsNext (inState .placed) = true ∧ s.eventParked (event .taskStart (.task 0)) = false ∧ s.isBarrier (inState .placed) = false)
      ∧ (let s := withTasks [{ task0 with id := 1, order := 1, state := .placed }, inState .placed] (taskEv (inState .placed) id Ctx.reset)
         s.startsNext { task0 with id := 1, order := 1, state := .placed } = false)
      ∧ (let s := taskEv barrier0 id Ctx.reset
         s.isBarrier barrier0 = true ∧ s.absentPage 0 ((s.dueTables 0).map (fun p => (p.2.addr.toNat, 8))) = none
           ∧ (withTable s).absentPage 0 (((withTable s).dueTables 0).map (fun p => (p.2.addr.toNat, 8))) = some 0x7000)
      ∧ (let s := taskEv (inState .running) id { Ctx.reset with retired := true }
         s.eventParked (event .taskComplete (.task 0)) = false ∧ s.absentPage 1 (inState .running).endWrites = none)
      ∧ (let s := withTable (taskEv recorded id { Ctx.reset with retired := true })
         s.taskOver recorded = true ∧ s.eventParked (event .taskComplete (.task 0)) = false ∧ s.absentPage 9 recorded.endWrites = some 0x8000)
      ∧ ((taskEv (inState .restoring) id Ctx.reset).moveAreas (inState .restoring) false []).2 = true := by
  decide +kernel

/-- Core 0 in the state given by its core record and its team, with or without task 0, at a late cycle. -/
def coreEv (f : Core → Core) (t : Team) (tasks : List Task) : State :=
  { mkC (fun y => f { y with task := (tasks.head?).map (·.id) }) (t.ctxs.get 0) t 0 with ev := .core 0, cycle := 1000000, tasks := tasks }
def oneCtx : Team := { Team.reset with part := 0x100002 }
def freezing (y : Core) : Core := { y with request := some .freeze }

theorem witness_CoreEventResults :
    ((coreEv freezing oneCtx [task0]).stoppable 0 = some task0 ∧ (coreEv freezing oneCtx [task0]).atBoundary 0 = true)
      ∧ (let y := (coreEv freezing oneCtx [task0]).coreAt 0; y.request = some .freeze ∧ y.requestAt + freezeGrace ≤ 1000000 ∧ y.team.stopAt = none)
      ∧ (let s := coreEv (fun y => { y with haltReq := true }) oneCtx [task0]; (s.coreAt 0).haltReq = true ∧ ∀ x ∈ s.haltSet 0, s.quiet x = true)
      ∧ (let s := coreEv (fun y => { y with samplePeriod := 1024 }) oneCtx []; s.sampleDue 0 = true ∧ (s.coreAt 0).task = none)
      ∧ (let s := coreEv (fun y => { y with samplePeriod := 1000000, lastIssue := some (1000000, 0, 0x1000) }) oneCtx [task0]
         s.sampleDue 0 = true ∧ (s.coreAt 0).task.isSome = true ∧ (s.coreAt 0).lastIssue = some (1000000, 0, 0x1000))
      ∧ (let s := coreEv (fun y => { y with samplePeriod := 1024 }) oneCtx [task0]
         s.sampleDue 0 = true ∧ (s.coreAt 0).task.isSome = true ∧ (s.coreAt 0).lastIssue = none)
      ∧ ((coreEv id oneCtx []).coreAt 0).team.stopAt = none ∧ ((coreEv id { oneCtx with stopAt := some 5 } []).coreAt 0).team.stopAt.isSome = true
      ∧ (let s : State := { coreEv id oneCtx [] with capture := { Capture.reset with on := true, replay := true, packets := [{ at_ := 0, op := 3, pkt := p0 }] } }
         s.replayDue = true ∧ (s.capture.packets[s.capture.next]?).isSome = true)
      ∧ commandOfCode 3 = some .memrd ∧ commandOfCode 0x40 = none := by
  decide +kernel

/-- `NOP` with STOP waits in the instruction buffer at the PC. -/
def fetched : State := State.reset.withFetchWord 64 0x8000000000000000
theorem witness_CoreEventResults_decode :
    fetched.issue.slots = [] ∧ ∃ c, fetched.mayIssue c = true ∧ ((fetched.tryCore c).2).isSome = true := by
  refine ⟨rfl, 0, ?_⟩
  decide +kernel

/-- Whether an image with a good form is accepted is a free value; one with a bad form is not. -/
theorem witness_PowerEventResults :
    State.reset.stage = 0 ∧ (host p0).stage ≠ 0 ∧ ({ host p0 with ev := .image [], stage := 2 } : State).stage = 2 ∧ imageAccepted [] = false
      ∧ ({ host p0 with stage := 2, imageFetch := .waiting } : State).imageFetch = .waiting ∧ (host p0).imageFetch ≠ .waiting
      ∧ (∀ n ∈ [0, 1749999, 1750000, 1800000, 1800001], ({ host p0 with ev := .milliWatt n } : State).ev = .milliWatt n)
      ∧ ({ coreEv id oneCtx [] with ev := .group 0 } : State).watchdogDue 0 = false
      ∧ (({ host p0 with cycle := 2000000 } : State).updCore ctl0 (fun y => { y with firmware := true })).watchdogDue 0 = true := by
  decide +kernel

def scanning (abort : Bool) : State :=
  { mkC (fun y => { y with scan := { ScanState.reset with running := true, aborting := abort } }) Ctx.reset Team.reset num3 with ev := .core num3, cycle := Config.scanCycles }
def entry23 : Fin 24 := ⟨23, by decide +kernel⟩
def holding0 : State :=
  { State.reset with groups := State.reset.groups.set 0 { Group.reset with holds := [{ entry := 23, old := 4, since := 9 }] }, ev := .hold { group := 0, entry := entry23, since := 9 } }

/-- Whether a finished scan matches its signature is a free value. -/
theorem witness_ScanAndErrorEventResults :
    (let x := ((scanning false).coreAt num3).scan; x.running = true ∧ x.aborting = false ∧ x.start + Config.scanCycles ≤ (scanning false).cycle)
      ∧ (let x := ((scanning true).coreAt num3).scan; x.running = true ∧ x.aborting = true)
      ∧ ((holding0.groupAt 0).holds.find? (fun y => y.entry == 23 && y.since == 9)).isSome = true ∧ (holding0.coreAt (physCore 0 4)).scan.running = false := by
  decide +kernel

/-! Commands of core 0. -/

def cmdOf (i : Instr) (q : Nat) (k : CmdState) : Cmd := { Cmd.new i q 1 with id := 5, state := k }
def withCmd (x : Cmd) : State := { mkC id Ctx.reset { Team.reset with cmds := [x] } 0 with ev := .cmd { core := 0, id := 5 }, cycle := 10 }
def withPending (x : Cmd) : State := (withCmd x).updCtx 0 0 (fun y => { y with tokPend := 2 })
def kick0 : Cmd := cmdOf (.kick (e0 5)) 5 .queued
def cpym0 : Cmd := { cmdOf (.cpym (e0 1)) 1 .waiting with targets := [0], blob := bytes0 256 }
def group0 (votes : List (Nat × Bool)) : StepGroup := { handle := 7, members := [0, 3], steps := 1, broken := false, votes := votes }
def bucket0 : Bucket :=
  { cmd := { core := 0, id := 5 }, desc := [], asid := 0, src := 0, len := 0, arming := 0, total := 0, counter := 0, fired := false }
def prom0 : Promotion := { space := 0, header := 0x10000, version := 1, block := 0, data := [], prom := none, host := 0 }

theorem witness_EngineEventResults_commands :
    ((withCmd kick0).findCmd { core := 0, id := 5 } = some (.core 0, kick0) ∧ awaitsDelivery kick0 = false ∧ kick0.state = .queued
        ∧ (withCmd kick0).mayStart (.core 0) kick0 ((withCmd kick0).trueRanges ((withCmd kick0).eng { core := 0, id := 5 } (.core 0)) kick0) = true)
      ∧ (let x := cmdOf (.cpy (e0 0)) 0 .done
         (withCmd x).findCmd { core := 0, id := 5 } = some (.core 0, x) ∧ (withCmd x).mayComplete (.core 0) x = true ∧ sidxOver ((withCmd x).homeTeam (.core 0)) 0 x = false
           ∧ (withCmd x).homeTask (.core 0) = none ∧ x.tok ≠ 0 ∧ (((withPending x).homeTeam (.core 0)).ctxs.get x.ctx).tokPend.getLsbD x.tok.toNat = true)
      ∧ ((withCmd cpym0).findCmd { core := 0, id := 5 } = some (.core 0, cpym0) ∧ (withCmd cpym0).targetCore (.core 0) 0 = some 0 ∧ cpym0.state = .waiting ∧ 0 ∈ cpym0.targets) := by
  decide +kernel

theorem sidx_cpy (t : Team) (n : Nat) (w : EWord) (k : CmdState) : sidxOver t n (cmdOf (.cpy w) 0 k) = false := by
  simp [sidxOver, cmdOf, Cmd.new]

theorem witness_EngineEventResults_events :
    (storeFind [(511, bucket0)] (511#9).toNat).isSome = true
      ∧ ((group0 [(0, true), (3, true), (0, true), (3, true)]).complete = true ∧ (group0 [(0, true), (3, true), (0, false), (3, true)]).complete = true
        ∧ (group0 []).broken = false)
      ∧ (({ State.reset with promotions := [prom0] } : State).promOf 0 0x10000 0 = some prom0)
      ∧ (let s : State := { mkC (fun y => { y with fetching := some 64, task := some 0 }) Ctx.reset Team.reset 0 with
           tasks := [task0], tlbs := Vector.replicate 48 [{ asid := 1, base := 0, size := 2 ^ 30, pa := 0, w := false, x := true, tag := false, d := false }] }
         (s.coreAt 0).fetching = some 64
           ∧ (match ((s.updCore 0 (fun y => { y with fetching := none })).codeLine 0 64).2 with | .ok p => p.2 == [] | .error _ => false) = true)
      ∧ (let s := mk { Ctx.reset with rep := some { instr := .mma x0, left := 1, next := 0, advanced := false, seq := 0, prof := Profile.reset } } Team.reset 0
         (s.ctxAt 0 0).rep.isSome = true ∧ gangBit (.mma x0) = false ∧ s.gangCores 0 = []) := by
  decide +kernel

/-! ### Traps -/

/-- Address 1 and the last odd addresses; the first address past the last access that fits, and the end of the scratchpad. -/
theorem witness_IssueTraps_memory :
    (∀ w : MWord, w.hd = hd0 .ld → ∀ i ∈ [Instr.ldS w, .stS w, .amoAdd w, .amoMin w, .amoMax w, .amoXchg w, .amoCas w, .patld w, .ldV w, .ldVB w, .ldVG w, .ldVQ w, .ldt w, .ldSW w
      , .stV w, .stVC w, .stVS w, .stSW w], ∀ (r : SlotRes) (a : Nat), (padAt a).unhindered i w.hd r)
      ∧ (∀ a : Nat, (padAt a).open_)
      ∧ (∀ a ∈ [1, top - 5], (padAt a).ictx.memAddr (mt 3 0) % 4 ≠ 0 ∧ (padAt a).ictx.memAddr (mt 3 0) + 4 ≤ spadSize (padAt a).issue.core (padAt a).icore.team)
      ∧ (∀ a ∈ [1, top - 1025], (padAt a).ictx.memAddr (mt 3 0) % 32 ≠ 0 ∧ (padAt a).ictx.memAddr (mt 3 0) + 1024 ≤ spadSize (padAt a).issue.core (padAt a).icore.team)
      ∧ (∀ a ∈ [top - 3, top], spadSize (padAt a).issue.core (padAt a).icore.team < (padAt a).ictx.memAddr (mt 3 0) + 4)
      ∧ (∀ a ∈ [top - 159, top], spadSize (padAt a).issue.core (padAt a).icore.team < (padAt a).ictx.memAddr (mt 3 0) + 160)
      ∧ (∀ i < 128, gatherAddr (padAt (top - 4)).ictx (mt 3 5) i + 4 ≤ spadSize (padAt (top - 4)).issue.core (padAt (top - 4)).icore.team
        ∧ spadSize (padAt (top - 3)).issue.core (padAt (top - 3)).icore.team < gatherAddr (padAt (top - 3)).ictx (mt 3 5) i + 4
        ∧ gatherAddr (padAt (top - 3)).ictx (mt 3 5) i = (padAt (top - 3)).ictx.memAddr (mt 3 5))
      ∧ ((List.range (elemCount (tyWidth 3))).filter (active ((padAt 0).ictx.guard (hd0 .st)) (tyWidth 3))).length = 128
      ∧ (padAt 0).icore.team.opq = [] := by
  have hs (a : Nat) : spadSize (padAt a).issue.core (padAt a).icore.team = top := by rw [padAt, mk_size]; rfl
  refine ⟨fun w hw i _ r a => padAt_free _ i _ r (by rw [hw]; rfl) (by rw [hw]; rfl), fun a => ?_, fun a ha => ?_, fun a ha => ?_, fun a ha => ?_, fun a ha => ?_, fun i _ => ?_, ?_, ?_⟩
  · unfold State.open_; rw [padAt, mk_ictx]; exact ⟨rfl, by show (0x800 : BitVec 56) ≠ 0; decide⟩
  iterate 4 · rw [hs, padAt, mk_ictx]; revert a; decide
  · rw [hs, hs, mt, padAt_gather, padAt_gather, padAt, padAt, mk_ictx, mk_ictx]; decide
  · rw [padAt, mk_ictx]; decide +kernel
  · show ((padAt 0).coreAt 0).team.opq = []; rw [padAt, mk_core]; rfl

/-- A descriptor for LD and MX words, good, bad and read too early. -/
def descAt (x : Ctx) (p : PreRead) : State := mk { x with preread := some p, tvec := 0x800 } Team.reset 0
def early (p : PreRead) : PreRead := { p with ldEarly := some 0x900, mxEarly := some 0x900 }
def pre (m : MapBits) : PreRead := { due := 0, ld := m, mx := m, ldEarly := none, mxEarly := none }
theorem descAt_free (x : Ctx) (p : PreRead) (i : Instr) (h : Head) (r : SlotRes) (hx : x.loop = none := by rfl) (hp : x.tokPend = 0 := by rfl) (hc : x.chken = false := by rfl)
    (hg : h.guard = 0 := by rfl) (hn : h.gneg = false := by rfl) : (descAt x p).unhindered i h r := mk_unhindered _ _ _ i h r hx hp hc hg hn
/-- With CHKEN, and nothing in flight. -/
def checked : Ctx := { Ctx.reset with chken := true }
theorem checked_free (p : PreRead) (i : Instr) (h : Head) (hg : h.guard = 0 := by rfl) (hn : h.gneg = false := by rfl) (hb : i.refs.dstS ++ i.refs.tok.toList = [] := by rfl) :
    (descAt checked p).unhindered i h {} := by
  have hc : (descAt checked p).ictx = { checked with preread := some p, tvec := 0x800 } := mk_ictx ..
  have ht : (descAt checked p).icore.team.pend = [] ∧ (descAt checked p).icore.team.replay = [] := by
    show ((descAt checked p).coreAt 0).team.pend = [] ∧ ((descAt checked p).coreAt 0).team.replay = []
    rw [descAt, mk_core]; exact ⟨rfl, rfl⟩
  refine ⟨⟨rfl, rfl, rfl, by rw [hc]; rfl⟩, fun _ => by rw [hc]; exact guardBit_p0 _ _ hg hn, ?_, ?_⟩
  · unfold tokenFaults; rw [hb]; rfl
  · unfold stallFaults; rw [ht.1, ht.2]; simp

theorem witness_IssueTraps_mapped :
    (mt 3 48).mapm = 3
      ∧ (∀ x ∈ [Ctx.reset, checked], (let c := (descAt x (pre map2)).ictx
         mapWf c.ldDesc = true ∧ mapCarriersOk c.ldDesc 0 (partVregs (descAt x (pre map2)).icore.team.part) = true ∧ c.preread.bind (·.ldEarly) = none)
        ∧ mapWf (descAt x (pre 3)).ictx.ldDesc = false ∧ (descAt x (pre 3)).ictx.preread.bind (·.ldEarly) = none
        ∧ (descAt x (pre map2)).ictx.memAddr (mt 3 48) % 32 = 0
        ∧ (descAt x (pre map2)).open_ ∧ (descAt x (early (pre map2))).open_)
      ∧ ((descAt checked (early (pre map2))).ictx.chken = true ∧ (descAt checked (early (pre map2))).ictx.preread.bind (·.ldEarly) = some 0x900
        ∧ (descAt checked (early (pre map2))).ictx.preread.bind (·.mxEarly) = some 0x900)
      ∧ (∀ p, ∀ i ∈ [Instr.ldV (mt 3 48), .ldt (mt 3 48), .ldSW (mt 3 48)], ∀ r, (descAt Ctx.reset p).unhindered i (mt 3 48).hd r ∧ (descAt checked p).unhindered i (mt 3 48).hd {})
      ∧ (∀ p, (descAt Ctx.reset p).unhindered (.tmap x0) x0.hd {} ∧ (descAt checked p).unhindered (.tmap x0) x0.hd {}) := by
  have hc (x : Ctx) (p : PreRead) : (descAt x p).ictx = { x with preread := some p, tvec := 0x800 } := mk_ictx ..
  have hp (x : Ctx) (p : PreRead) : partVregs (descAt x p).icore.team.part = partVregs 0 := by
    show partVregs ((descAt x p).coreAt 0).team.part = partVregs 0; rw [descAt, mk_core]; rfl
  refine ⟨by decide, fun x hx => ?_, ?_, fun p i hi r => ?_, fun p => ⟨descAt_free _ p _ _ _, checked_free p _ _⟩⟩
  · unfold State.open_
    rw [hp]
    simp only [hc]
    simp only [List.mem_cons, List.not_mem_nil, or_false] at hx
    rcases hx with rfl | rfl <;> decide +kernel
  · simp only [hc]; decide +kernel
  · simp only [List.mem_cons, List.not_mem_nil, or_false] at hi
    rcases hi with rfl | rfl | rfl <;> exact ⟨descAt_free _ p _ _ _, checked_free p _ _⟩
/-- Registers s2 and s63 of a context with a handler, on the core given. -/
def sysAt (c : Fin 208) (x : Word) : State := mk { Ctx.reset with s := (Ctx.reset.s.set 2 x).set 63 x, tvec := 0x800 } Team.reset c
theorem sysAt_free (c : Fin 208) (x : Word) (i : Instr) (h : Head) (r : SlotRes) (hg : h.guard = 0 := by rfl) (hn : h.gneg = false := by rfl) : (sysAt c x).unhindered i h r :=
  mk_unhindered _ _ _ i h r rfl rfl rfl hg hn
theorem sysAt_reg (c : Fin 208) (x : Word) : (sysAt c x).ictx.sReg 2 = x ∧ (sysAt c x).ictx.sReg 63 = x ∧ (sysAt c x).open_ := by
  unfold State.open_; rw [sysAt, mk_ictx]; exact ⟨rfl, rfl, rfl, by show (0x800 : BitVec 56) ≠ 0; decide⟩
def ys2 : YSWord := { ys0 with a := 2 }

/-- Targets one bundle below 0 and one above the last; counts one too high; targets that are misaligned and too high; no barrier of a cluster outside a gang; counts of 0 and 65,536;
read-only bits; the first core past a group's 25; an entry that cannot be set. -/
theorem witness_IssueTraps_system :
    (∀ c x, ∀ i ∈ [Instr.br yt0, .call yt0, .brs yt0, .brp yt0, .loop yc0, .rep yc0, .jmpi ys2, .ret ys2, .barInit ys2, .barArrive ys2, .barWait ys2, .mtc ys2, .mtcTstat ys2
      , .scanAbort ys2, .scanRead ys2, .dbgResume ys2, .cmapSet ys2], (sysAt c x).unhindered i ys0.hd {} ∧ (sysAt c x).open_)
      ∧ (((sysAt 0 0).issue.baddr.toNat + 8 * (-513#27).toInt < 0) ∧ (2 ^ 56 : Int) ≤ (0xFFFFFFFFFFFFF8#56).toNat + 8 * (1#27).toInt)
      ∧ (∀ x ∈ [BitVec.ofNat 64 (2 ^ 24 + 1), 4097#64], countOf (sysAt 0 x).ictx { yc0 with csrc := true, a := 2 } = x.toNat)
      ∧ ((1#64).toNat % 8 ≠ 0 ∧ 2 ^ 56 ≤ (BitVec.ofNat 64 (2 ^ 56)).toNat)
      ∧ ((sysAt 0 0).barrier 0 0 15).isSome = true ∧ ((sysAt 0 0).barrier 0 1 15).isSome = false ∧ ((sysAt 0 0).barrier 0 2 15).isSome = false
      ∧ ((65536#64) = 0 ∨ 65535 < (65536#64).toNat)
      ∧ (∀ n ∈ [0, 8], (BitVec.allOnes 64) &&& cregRo n ≠ (sysAt 0 0).creg 0 0 n &&& cregRo n)
      ∧ 25 ≤ (25#64).toNat ∧ (sysAt ctl0 24).cmapBad (groupOf ctl0) 24 0 = true := by
  refine ⟨fun c x i hi => ⟨?_, (sysAt_reg c x).2.2⟩, ⟨by rw [show (sysAt 0 0).issue.baddr = 0x1000#56 from rfl]; decide, by decide⟩, fun x hx => ?_, ?_, ?_⟩
  · exact sysAt_free c x i _ _
  · show ((sysAt 0 x).ictx.sReg 2).toNat = _; rw [(sysAt_reg 0 x).1]
  · decide
  · decide +kernel

/-- v2 has a map of rank 2 and holds what is no map; a handler is set. -/
def mappedO : State := mk { Ctx.reset with v := Ctx.reset.v.set 2 3, maps := Ctx.reset.maps.set 2 map2, tvec := 0x800 } Team.reset 0
theorem mappedO_free (i : Instr) (h : Head) (r : SlotRes) (hg : h.guard = 0 := by rfl) (hn : h.gneg = false := by rfl) : mappedO.unhindered i h r :=
  mk_unhindered _ _ _ i h r rfl rfl rfl hg hn

/-- No map, and MAPSOFT clear; dimensions 2 and 3 of a map of rank 2; data that are no map. -/
theorem witness_IssueTraps_vector :
    (∀ i ∈ [Instr.vadd (vw 1), .vsub (vw 1), .vmul (vw 1), .vadds (vw 1), .vsubs (vw 1), .vmulh (vw 1), .vmin (vw 1), .vmax (vw 1), .vand (vw 1), .vor (vw 1), .vxor (vw 1), .vshl (vw 1)
      , .vshr (vw 1), .vsra (vw 1), .vperm (vw 1), .vabs (vw 1), .vneg (vw 1), .vmov (vw 1), .vbcastE (vw 1), .vmad (vw 1), .vcoord (rv' 2 0), .vnoise (rv' 2 0), .vmaskcCausal (rv' 2 0)
      , .vmaskcBand (rv' 2 0), .vmaskcWin (rv' 2 0), .vmaskcLt (rv' 2 0), .vmaskcGe (rv' 2 0)], ∀ r, (padAt 0).unhindered i (vw 1).hd r)
      ∧ (mapPseudo (vw 1).a = true ∧ isNone ((padAt 0).ictx.mapOf (srcMapReg 1 [(vw 1).a])) = true ∧ (padAt 0).ictx.mapsoft = false ∧ (padAt 0).open_)
      ∧ (isNone ((padAt 0).ictx.mapOf 2) = true ∧ isNone ((padAt 0).ictx.vmapSrc (rv' 2 0)) = true)
      ∧ (∀ i ∈ [Instr.vmapOff (rv' 2 0), .vmapSlice (rv' 2 0), .vmapTr (rv' 2 0), .vmapSet (rv' 2 0)], ∀ r, mappedO.unhindered i (rv' 2 0).hd r)
      ∧ (∀ f ∈ [16, 24], isNone (mappedO.ictx.vmapSrc { rv' 2 0 with fn := f }) = false ∧ mapRank (mappedO.ictx.vmapSrc { rv' 2 0 with fn := f }) ≤ vmapD { rv' 2 0 with fn := f })
      ∧ mapRank (mappedO.ictx.vmapSrc { rv' 2 0 with fn := 64 }) ≤ vmapD2 { rv' 2 0 with fn := 64 }
      ∧ mapWf ((mappedO.ictx.vReg 2).extractLsb' 0 384) = false ∧ mappedO.open_ := by
  have hc : mappedO.ictx = { Ctx.reset with v := Ctx.reset.v.set 2 3, maps := Ctx.reset.maps.set 2 map2, tvec := 0x800 } := mk_ictx ..
  have hd : (padAt 0).ictx = { Ctx.reset with a := Ctx.reset.a.set 2 (BitVec.ofNat 64 0), tvec := 0x800 } := mk_ictx ..
  refine ⟨fun i _ r => padAt_free 0 i _ r, ?_, ?_, fun i _ r => mappedO_free i _ r, ?_, ?_, ?_⟩
  · unfold State.open_; rw [hd]; decide +kernel
  · rw [hd]; decide +kernel
  · rw [hc]; decide +kernel
  · rw [hc]; decide +kernel
  · unfold State.open_; rw [hc]; decide +kernel

/-- Operands at address 1 and past the end; a gang word outside a gang; a tile map's descriptor at address 1 and past the end, one that is no tile map. -/
theorem witness_IssueTraps_matrix :
    (∀ a r, ∀ i ∈ [mx2 .mma, mx2 .mmaZ, mx2 .mmaT, mx2 .mmaG, mx2 .mmaBS, mx2 .tload, Instr.mma { x0 with fn := 16 }], (withAll [] (padAt a)).unhindered i x0.hd r)
      ∧ (withAll [] (padAt 1)).mxCount ≠ 0 ∧ (padAt 1).gangFaults (mx2 .mma) = []
      ∧ ((repOffs 1 ((padAt 1).ictx.aReg 2)).find? (fun a => a % 32 != 0) = some 1 ∧ ∀ x ∈ repOffs 1 ((padAt 1).ictx.aReg 2), x + 65536 ≤ top)
      ∧ (∀ x ∈ repOffs 1 ((padAt (top - 4064)).ictx.aReg 2), top < x + 4096)
      ∧ (gangBit (.mma { x0 with fn := 16 }) = true ∧ (padAt 0).gangCores (padAt 0).issue.core = [])
      ∧ ((descAt Ctx.reset (pre tile2)).ictx.preread = some (pre tile2) ∧ tileMapOk tile2 1 16 = true ∧ (descAt Ctx.reset (pre map2)).ictx.preread = some (pre map2) ∧ tileMapOk map2 1 16 = false)
      ∧ (∀ a ∈ [1, top - 49], areaAddr (({ Ctx.reset with a := Ctx.reset.a.set 2 (BitVec.ofNat 64 a) } : Ctx).aReg 2) 0 % 32 ≠ 0
        ∧ areaAddr (({ Ctx.reset with a := Ctx.reset.a.set 2 (BitVec.ofNat 64 a) } : Ctx).aReg 2) 0 + 48 ≤ top)
      ∧ top < areaAddr (({ Ctx.reset with a := Ctx.reset.a.set 2 (BitVec.ofNat 64 (top - 32)) } : Ctx).aReg 2) 0 + 48 := by
  have hd (a : Nat) : (padAt a).ictx = { Ctx.reset with a := Ctx.reset.a.set 2 (BitVec.ofNat 64 a), tvec := 0x800 } := mk_ictx ..
  refine ⟨fun a r i _ => padAt_free a i _ r, by rw [show (withAll [] (padAt 1)).mxCount = 1 from rfl]; decide, rfl, ?_, ?_, ⟨rfl, ?_⟩, ?_, ?_, ?_⟩
  · rw [hd]; decide +kernel
  · rw [hd]; decide +kernel
  · decide +kernel
  · rw [show (descAt Ctx.reset (pre tile2)).ictx = _ from mk_ictx .., show (descAt Ctx.reset (pre map2)).ictx = _ from mk_ictx ..]; exact ⟨rfl, by decide +kernel, rfl, by decide +kernel⟩
  · decide +kernel
  · decide +kernel

/-- Tokens pending for every register but s0; with CHKEN, a result for s3 and p3 and v3 and a3, and a store, still in flight. -/
def pending : State := mk { Ctx.reset with tokPend := BitVec.allOnes 64, tvec := 0x800 } Team.reset 0
def soon (a : Act) : Pend := { due := 9, seq := 7, unit := .s0, ctx := 0, baddr := 0x900, act := a }
def chkAt (a : Act) : State := mk { checked with tvec := 0x800 } { Team.reset with pend := [soon a] } 0
theorem witness_IssueTraps_hazards :
    (∀ d : Reg6, pending.ictx.tokPend.getLsbD d.toNat = true) ∧ pending.lone ∧ pending.open_ ∧ (∀ h : Head, h.guard = 0 → h.gneg = false → pending.ictx.guardBit h = true)
      ∧ (∀ i : Instr, stallFaults pending.cycle pending.issue.seq pending.issue.ctx pending.ictx pending.icore.team i.refs i.guardP {} = [])
      ∧ (∀ a ∈ [Act.setS 3 7, .setP 3 1 1, .setA 3 7, .setV 3 0 0 none true none, .store [(3, 1)]],
        (chkAt a).icore.team.pend = [soon a] ∧ (soon a).ctx = (chkAt a).issue.ctx ∧ (soon a).seq ≠ (chkAt a).issue.seq ∧ (chkAt a).ictx.chken = true ∧ (chkAt a).cycle < (soon a).due
          ∧ (chkAt a).lone ∧ (chkAt a).open_ ∧ (∀ i : Instr, tokenFaults (chkAt a).ictx i.refs = []) ∧ ∀ h : Head, h.guard = 0 → h.gneg = false → (chkAt a).ictx.guardBit h = true)
      ∧ (let c := ({ checked with tvec := 0x800 } : Ctx); c.memAddr { m0 .ld with areg := 0, ty := 3 } ≤ 3 ∧ 3 < c.memAddr { m0 .ld with areg := 0, ty := 3 } + sWidth 3 / 8) := by
  have hc : pending.ictx = { Ctx.reset with tokPend := BitVec.allOnes 64, tvec := 0x800 } := mk_ictx ..
  have ha (a : Act) : (chkAt a).ictx = { checked with tvec := 0x800 } := mk_ictx ..
  refine ⟨fun d => ?_, ⟨rfl, rfl, rfl, by rw [hc]; rfl⟩, ?_, fun h hg hn => guardBit_p0 _ h hg hn, fun i => ?_, fun a _ => ?_, by decide +kernel⟩
  · rw [hc]; show (BitVec.allOnes 64).getLsbD d.toNat = true; rw [BitVec.getLsbD_allOnes]; exact decide_eq_true d.isLt
  · unfold State.open_; rw [hc]; exact ⟨rfl, by show (0x800 : BitVec 56) ≠ 0; decide⟩
  · rw [hc]; rfl
  · refine ⟨?_, rfl, by show (7 : Nat) ≠ 0; decide, by rw [ha]; rfl, by show (0 : Nat) < 9; decide, ⟨rfl, rfl, rfl, by rw [ha]; rfl⟩, ?_, fun i => by rw [ha]; simp [tokenFaults, checked, Ctx.reset], fun h hg hn => guardBit_p0 _ h hg hn⟩
    · show ((chkAt a).coreAt 0).team.pend = _; rw [chkAt, mk_core]
    · unfold State.open_; rw [ha]; exact ⟨rfl, by show (0x800 : BitVec 56) ≠ 0; decide⟩

/-! ### Engine commands that start -/

/-- A view of n raw bytes at memory address `base` and scratchpad offset `spad`, one row, with RND given. -/
def view0 (base spad n rnd : Nat) : List Byte :=
  bytesOf 8 base ++ bytesOf 8 (spad + rnd * 2 ^ 32) ++ bytesOf 4 n ++ bytesOf 4 1 ++ bytesOf 4 1 ++ bytesOf 4 1 ++ List.replicate 96 0
/-- The engine of core 0, in space 1 that every TLB maps with a gigabyte. -/
def eng0 : Eng := { home := .core 0, core := 0, tlb := 0, asid := 1, size := top, host := 0 }
def engS (spad mem : Memory) : State :=
  { mkC id Ctx.reset { Team.reset with spad := spad, part := 0x100002 } 0 with
    mem := mem, tlbs := Vector.replicate 48 [{ asid := 1, base := 0, size := 2 ^ 30, pa := 0, w := true, x := false, tag := false, d := true }] }
def padBytes (a : Nat) (l : List Byte) : Memory := memWrite [] a l
def newCmd (i : Instr) (a : Nat) (b c : Word) : Cmd := { Cmd.new i 0 1 with aReg := BitVec.ofNat 64 a, aOff := a, b := b, c := c }

def cpyIn : Instr := .cpy (e0 0)
def cpyOut : Instr := .cpy { e0 0 with fn := 1 }
def cpymI : Instr := .cpym (e0 1)
def cpyhIn : Instr := .cpyh (e0 0)
def cpyhOut : Instr := .cpyh { e0 0 with fn := 1 }
/-- A handle table of one entry at 0x4000, its entry bound, of `len` bytes at host address 0x9000 of endpoint 5, with the rights given (READ 2, WRITE 4). -/
def handles (len flags : Nat) : List Byte := bytesOf 32 1 ++ bytesOf 8 0x9000 ++ bytesOf 8 len ++ bytesOf 4 5 ++ bytesOf 1 flags ++ List.replicate 11 0
def task1 : Task := { task0 with tcb := { tcb0 with htab := 0x4000 } }
def withHandles (len flags : Nat) (spad : Memory) : State := withTask task1 (engS spad (memWrite [] 0x4000 (handles len flags)))

/-- A soft error at a place, in a device that runs a command on core 0 with a task, or on core 3 without one. -/
def soft0 (p : ErrorPlace) : State := { withTask task1 (withCmd cpym0) with stage := 6, ev := .soft { place := p, uncorrectable := true, met := false } }
theorem witness_ScanAndErrorEventResults_soft :
    (∀ p ∈ [ErrorPlace.deviceMemory 0, .corePool 0 255 127, .codeBuffer 0 1, .tlb 47 0, .walkCache 7 0, .clusterSlice 0 (some { core := 0, id := 5 }), .controlPad 7],
      (soft0 p).stage = 6 ∧ (soft0 p).ev = .soft { place := p, uncorrectable := true, met := false })
      ∧ (soft0 (.corePool 3 0 0)).taskAt (computeCore 3) = none ∧ ((soft0 (.corePool 0 0 0)).taskAt (computeCore 0)).isSome = true
      ∧ (soft0 (.clusterSlice 0 none)).findCmd { core := 0, id := 5 } = some (.core 0, cpym0) ∧ cpym0.state ≠ .done
      ∧ State.reset.stage ≠ 6 := by
  decide +kernel

theorem newCmd_fresh (i : Instr) (a : Nat) (b c : Word) : (newCmd i a b c).fresh := ⟨rfl, rfl, rfl, rfl, rfl, rfl, rfl⟩

/-- Operands that fail; a descriptor one byte past the scratchpad; views that are bad, misaligned and outside; none of these at the last place. -/
theorem witness_CopyCommandResults :
    (∀ i ∈ [cpyIn, cpyOut, cpymI, cpyhIn, cpyhOut, .cpys (e0 0), .swcpyIn (e0 3), .swcpyOut (e0 3), .swcpyDec (e0 3), .swcpyMerge (e0 3)], readsView i
      ∧ (engS [] []).operandErr eng0 (newCmd i 0 1 1) = none)
      ∧ ((engS [] []).operandErr eng0 (newCmd cpymI 0 0 0) = some 0x10 ∧ (engS [] []).operandErr eng0 (newCmd cpyhIn 0 0x10000 0) = some 0x02
        ∧ (engS [] []).operandErr eng0 (newCmd (.cpys (e0 0)) 0 0 0x100000000) = some 0x02)
      ∧ (eng0.size < (newCmd cpyIn (top - 127) 0 0).aOff + 128 ∧ (newCmd cpyIn (top - 128) 0 0).aOff + 128 ≤ eng0.size)
      ∧ (let v (l : List Byte) : View := viewOf ((engS (padBytes 0 l) []).engPad eng0 0 128)
         (v (view0 0 1 4 0)).bad = true
          ∧ ((v (view0 1 (3 * 2 ^ 28 + 3 * 2 ^ 24) 4 0)).bad = false ∧ (v (view0 1 (3 * 2 ^ 28 + 3 * 2 ^ 24) 4 0)).misaligned (v (view0 1 (3 * 2 ^ 28 + 3 * 2 ^ 24) 4 0)).mw = true)
          ∧ ((v (view0 0 (top - 32) 33 0)).bad = false ∧ (v (view0 0 (top - 32) 33 0)).misaligned 1 = false ∧ (v (view0 0 (top - 32) 33 0)).outside 1 eng0.size = true)
          ∧ ((v (view0 0x10000 256 4 0)).fault 1 1 eng0.size = none ∧ (v (view0 0x10000 256 4 0)).raw = true ∧ (v (view0 0x10000 256 4 0)).count = 4)) := by
  refine ⟨fun i hi => ?_, by decide +kernel, by decide +kernel, by decide +kernel⟩
  have h : (engS [] []).operandErr eng0 (newCmd i 0 1 1) = none := by
    simp only [List.mem_cons, List.not_mem_nil, or_false] at hi
    rcases hi with rfl | rfl | rfl | rfl | rfl | rfl | rfl | rfl | rfl | rfl <;> decide +kernel
  refine ⟨?_, h⟩
  simp only [List.mem_cons, List.not_mem_nil, or_false] at hi
  rcases hi with rfl | rfl | rfl | rfl | rfl | rfl | rfl | rfl | rfl | rfl <;> trivial

theorem ok_of (x : Except Cause (Nat × Bool)) (h : (match x with | .ok p => p == (0x10000, false) | .error _ => false) = true) : x = .ok (0x10000, false) := by
  cases x with
  | ok p => exact congrArg _ (beq_iff_eq.mp h)
  | error _ => cases h

/-- Four bytes between 256 in the scratchpad and 0x10000 in memory, in and out. -/
theorem witness_CopyCommandResults_part :
    let s := withTask task1 (engS (padBytes 0 (view0 0x10000 256 4 0)) [(0x10000, 1)])
    let v := viewOf (s.engPad eng0 0 128)
    (∀ acc ∈ [Access.read, .write], s.onePart eng0 (v.parts v.mw v.sw) acc 1 256 4 0x10000 (s.translate 0 1 0x10000 acc).1)
      ∧ Memory.wf (s.coreAt 0).team.spad = true ∧ Memory.wf s.mem = true ∧ 4 ≤ 65536 ∧ 4 = v.count
      ∧ s.maskMembers 0 1 = some [0] ∧ (s.slices.get 0).length + (4 + 4095) / 4096 ≤ 512 ∧ (∀ k, s.slices.get k = []) := by
  refine ⟨fun acc ha => ⟨{ at_ := 0, va := 0x10000, spad := 256, n := 4 }, ?_⟩, by decide +kernel⟩
  simp only [List.mem_cons, List.not_mem_nil, or_false] at ha
  rcases ha with rfl | rfl
  · exact ⟨by decide +kernel, rfl, rfl, rfl, Prod.ext rfl (ok_of (State.translate (withTask task1 (engS (padBytes 0 (view0 0x10000 256 4 0)) [(0x10000, 1)])) 0 1 0x10000 .read).2 (by decide +kernel)), by decide +kernel⟩
  · exact ⟨by decide +kernel, rfl, rfl, rfl, Prod.ext rfl (ok_of (State.translate (withTask task1 (engS (padBytes 0 (view0 0x10000 256 4 0)) [(0x10000, 1)])) 0 1 0x10000 .write).2 (by decide +kernel)), by decide +kernel⟩

/-- A handle past the table's end; one that is not bound; one too short; each right missing; and one that grants both. -/
def handleAt (len flags h : Nat) : HandleRead :=
  let s := withHandles len flags (padBytes 0 (view0 0 256 4 0))
  (s.readHandle eng0 { s.readView eng0 (newCmd cpyhIn 0 1 0) with ranges := [] } h).2
theorem witness_CopyCommandResults_handles :
    (match handleAt 4 7 1 with | .unbound => true | _ => false) = true
      ∧ (∀ p ∈ [(4, 6), (3, 7), (4, 3), (4, 5), (4, 7)], (match handleAt p.1 p.2 0 with | .entry l => l == (handles p.1 p.2).drop 32 | _ => false) = true)
      ∧ ((handleOf ((handles 4 6).drop 32)).bound = false ∧ (handleOf ((handles 3 7).drop 32)).len < 4 ∧ (handleOf ((handles 4 3).drop 32)).wr = false
        ∧ (handleOf ((handles 4 5).drop 32)).rd = false ∧ (handleOf ((handles 4 7).drop 32)).len = 4) := by
  decide +kernel

/-- The first and the last row of a tile; rows that are none; each failing condition of `CPYL` and of its top places, and both ends of what is allowed. -/
def cl (fn : BitVec 11) : EWord := { e0 0 with fn := fn }
theorem witness_CopyCommandResults_tile :
    (Memory.wf (engS [] []).icore.team.spad = true ∧ ((engS [] []).icore.team.acc.map (·.1)).Pairwise (· < ·))
      ∧ (cpylRows 0 = none ∧ cpylRows 0x180 = none ∧ cpylRows 0x100 = some (0, 1) ∧ cpylRows 0x17F = some (127, 1) ∧ cpylRows 0x8000 = some (0, 128) ∧ cpylRows 0x8001 = none)
      ∧ (cpylOut (cl 0x81) = false ∧ cpylFmt (cl 0x81) = 2 ∧ cpylRnd (cl 0x101) = 1 ∧ cpylOut (cl 0x11) = true ∧ cpylFmt (cl 0x11) = 0 ∧ cpylFmt (cl 0x51) = 1
        ∧ cpylRnd (cl 0x251) = 2 ∧ cpylOut (cl 0x41) = false ∧ cpylRnd (cl 0x41) = 0)
      ∧ (0 + 1 * (128 * 4) ≤ eng0.size ∧ eng0.size < (top - 511) + 1 * (128 * 4))
      ∧ (isNone ((engS [] []).icore.team.tileMaps.toList.getD 1 0) = true ∧ isNone tile2 = false)
      ∧ (0 + 8 * 64 * 128 ≤ eng0.size ∧ eng0.size < (top - 7) + 8 * 1 * 1) := by
  decide +kernel

/-! A tensor of two coils of 64-byte rows: 3 rows from 0x10000 on, and 2 from 0x20000 on. -/
def coil0 (base rows : Nat) : List Byte := bytesOf 8 base ++ bytesOf 4 rows ++ bytesOf 4 64
def stnew0 (rowb : Nat) (cs : List Byte) : List Byte := bytesOf 4 rowb ++ bytesOf 2 (cs.length / 16) ++ bytesOf 10 0 ++ cs
def splice0 (id p nrem expect : Nat) (cs : List Byte) : List Byte := bytesOf 2 id ++ bytesOf 2 (cs.length / 16) ++ bytesOf 4 p ++ bytesOf 4 nrem ++ bytesOf 4 expect ++ cs
def coilA : Coil := { uid := 1, gone := none, base := 0x10000, rows := 3, stride := 64 }
def coilB : Coil := { uid := 2, gone := none, base := 0x20000, rows := 2, stride := 64 }
def tensor0 : Stitched := { id := 1, home := 0, current := 1, rowb := 64, closed := false, versions := [(1, [coilA, coilB])], pins := [] }
def tensS (spad : Memory) : State := { withTask task1 (engS spad [(0x10000, 1), (0x20040, 9), (0x20041, 8)]) with tensors := [tensor0], nextId := 7, gstep := 300 }
def stnewI : Instr := .stnew (e0 0)
def spliceI : Instr := .splice (e0 0)
def headOf0 (l : List Byte) : List Byte := (tensS (padBytes 0 l)).engPad eng0 0 16

/-- Records past the scratchpad's end; each bad field at the ends of its range; a list that is good, a free id; the splice's checks in their order, and a row at a boundary between coils. -/
theorem witness_TensorAndSeasonResults :
    (eng0.size < (newCmd stnewI (top - 15) 0 0).aOff + 16 ∧ (newCmd stnewI (top - 16) 0 0).aOff + 16 ≤ eng0.size ∧ eng0.size < (newCmd stnewI (top - 31) 0 0).aOff + 16 + 16 * 1)
      ∧ (natAt (headOf0 (stnew0 0 (coil0 0 1))) 0 4 = 0 ∧ 2 ^ 20 < natAt (headOf0 (stnew0 (2 ^ 20 + 1) (coil0 0 1))) 0 4 ∧ natAt (headOf0 (stnew0 64 [])) 4 2 = 0)
      ∧ (coilsOf 7 (stnew0 64 (coil0 1 1)) 1 = none ∧ (match coilsOf 7 (stnew0 64 (coil0 0 (2 ^ 24) ++ coil0 0 1)) 2 with | some l => decide (2 ^ 24 < coilRows l) | none => false) = true
        ∧ (match coilsOf 7 (stnew0 64 (coil0 0 (2 ^ 24))) 1 with | some l => decide (coilRows l ≤ 2 ^ 24) | none => false) = true)
      ∧ ((tensS []).freeTensorId = some 2 ∧ (tensS []).tensorOf 1 = some tensor0 ∧ (tensS []).tensorOf 2 = none ∧ tensor0.closed = false ∧ { tensor0 with closed := true }.closed = true)
      ∧ (coilFirsts 0 (tensor0.coils 1) = [0, 3, 5] ∧ coilRows (tensor0.coils 1) = 5)
      ∧ (tensor0.pinOk 1 = true ∧ { tensor0 with pins := [(1, 65535)] }.pinOk 1 = false ∧ (∀ p ∈ { tensor0 with pins := [(1, 65534)] }.pins, p.2 ≠ 0)
        ∧ tensor0.pinsOf 1 = 0 ∧ { tensor0 with pins := [(1, 1)] }.pinsOf 1 ≠ 0) := by
  decide +kernel

/-- A view of four bytes of row 4 of the tensor; rows and bytes past its end; versions that may be used and may not. -/
def rowView (base n : Nat) : List Byte := bytesOf 8 base ++ bytesOf 8 256 ++ bytesOf 4 n ++ bytesOf 4 1 ++ bytesOf 4 1 ++ bytesOf 4 1 ++ List.replicate 96 0
def rowsOf (base n : Nat) : View := viewOf (rowView base n)
def cpysOf (fn : BitVec 11) (v : Word) : Except (BitVec 7) (Stitched × BitVec 32) := (tensS []).cpysVersion (newCmd (.cpys (cl fn)) 0 1 v) (cl fn)
theorem witness_TensorAndSeasonResults_rows :
    ((rowsOf 4 4).badRows = false ∧ (rowsOf 4 4).m.toList.any (fun x => x % ((rowsOf 4 4).mw : Int) != 0) = false ∧ (rowsOf 4 4).outside 1 eng0.size = false
        ∧ (rowsOf (2 ^ 32) 4).badRows = true ∧ (rowsOf 4 top).outside 1 eng0.size = true)
      ∧ ((match cpysOf 0 0 with | .ok p => p == (tensor0.pin 1, 1) | .error _ => false) = true ∧ (match cpysOf 2 1 with | .ok _ => false | .error x => x == 0x4A) = true)
      ∧ (coilRows (tensor0.coils 1) < 5 + 1 ∧ 64 < 1 * 65 ∧ 4 + 1 ≤ coilRows (tensor0.coils 1) ∧ 1 * 64 ≤ 64)
      ∧ ((rowsOf 4 4).tensorParts (tensor0.coils 1) = [{ at_ := 0, va := 0x20040, spad := 256, n := 4 }]
        ∧ Memory.wf (tensS (padBytes 0 (rowView 4 4))).icore.team.spad = true ∧ Memory.wf (tensS []).mem = true
        ∧ ∀ acc ∈ [Access.read, .write], (match ((tensS []).translate 0 1 0x20040 acc).2 with | .ok p => p == (0x20040, false) | .error _ => false) = true) := by
  decide +kernel

/-- Words of both sizes, where none is stale and where one is. -/
theorem witness_TensorAndSeasonResults_season :
    (∀ x ∈ [view0 0x10000 256 2 1, view0 0x10000 (256 + 2 ^ 24) 2 0], (viewOf x).mty ≠ 0 ∨ (viewOf x).sty ≠ 0 ∨ (viewOf x).rnd ≠ 0 ∨ (viewOf x).salt ≠ 0)
      ∧ (∀ k ∈ [4, 8], (viewOf (view0 0x10002 256 2 0)).fault k k eng0.size = some 0x04 ∧ (viewOf (view0 0x10000 256 2 0)).fault k k eng0.size = none
        ∧ (viewOf (view0 0x10000 256 2 0)).parts k k = [{ at_ := 0, va := 0x10000, spad := 256, n := 2 }])
      ∧ swWidth (swcpyWide (cl 0)) = 4 ∧ swWidth (swcpyWide (cl 4)) = 8
      ∧ (swStale false 40000 (0x3F80 * 65536 + 40000 % 65536) = false ∧ swStale false 40000 0 = true)
      ∧ (0x10000 % 4096 + 4 * 1024 ≤ 4096 ∧ (tensS []).poisonIn 0x10000 4096 = none) := by
  decide +kernel

/-! A space of four sequences with its entries at 0x40000: sequence 0 has a chain without tokens, 1 is read-only, 2 is not valid. -/
def kvDesc1 : KvDesc := kvDesc0 ||| BitVec.ofNat 512 (0x40000 + 4 * 2 ^ 256 + 8 * 2 ^ 320)
def kvS (spad : Memory) : State :=
  { withTask task1 (engS spad (memWrite [] 0x40000 (bytesOf 8 0x50001 ++ bytesOf 8 0x50003))) with spaces := Vector.replicate 16 kvDesc1 }
def kva (seq pos : Nat) : Word := BitVec.ofNat 64 (seq * 2 ^ 40 + pos)
def kvldI : Instr := .kvld (e0 4)
def kvappI : Instr := .kvapp (e0 4)
/-- The same with a tile, and the record of an `ATTN`. -/
def attnS (spad : Memory) : State :=
  { withTask task1 { mkC id Ctx.reset { Team.reset with spad := spad, part := 0x102002 } 0 with
      mem := memWrite [] 0x40000 (bytesOf 8 0x50001), tlbs := (engS [] []).tlbs } with spaces := Vector.replicate 16 kvDesc1 }
def attnRec0 (kva len : Nat) : List Byte := bytesOf 8 kva ++ bytesOf 4 len ++ bytesOf 14 0 ++ bytesOf 2 0x10 ++ bytesOf 36 0
def attnI : Instr := .attn (e0 4)
/-- A group of device 0 alone. -/
def collS (spad : Memory) : State := { engS spad [(0x9000, 5)] with collGroups := [{ handle := 7, die := false, members := [0], rank := 0, joined := 0 }], buckets := [(5, bucket0)] }
/-- COUNT FP32 elements from SRC to DST, with TYPE and the rest of its word. -/
def coll0 (src dst count word group : Nat) : List Byte := bytesOf 8 src ++ bytesOf 8 dst ++ bytesOf 4 count ++ bytesOf 4 word ++ bytesOf 4 group ++ bytesOf 4 0
def bksetI : Instr := .bkset (e0 5)
def kickI : Instr := .kick (e0 5)
/-- Replica tables in space 0, the first without a commit and the second with one, in a queue that holds tasks. -/
def rtabS : State :=
  { collS [] with
    rtabs := [(1, { addr := 0x7000, queue := 3, enabled := true, commit := none }), (2, { addr := 0x7000, queue := 3, enabled := true, commit := some { core := 0, id := 9 } })
      , (3, { addr := 0x7000, queue := 3, enabled := false, commit := none })]
    queues := State.reset.queues.set 3 0x10100010000, mem := [(0x7005, 9)]
    tlbs := Vector.replicate 48 [{ asid := 0, base := 0, size := 2 ^ 30, pa := 0, w := true, x := false, tag := false, d := true }] }
/-- With an append that has begun on the chain of layer 0 and head 0 of sequence 0. -/
def kvBusy (spad : Memory) (seq : Nat) : State :=
  let x := entryRoot 0x50001
  (kvS spad).updTeam 0 (fun t => { t with cmds :=
    [{ newCmd kvappI 0 (kva seq 0) 1 with id := 9, seqs := [0x50001], got := [kvChainAt x (kvaLayer (kva seq 0) * kvHeads kvDesc1 + kvaHead (kva seq 0)), 1] }] })
def kvEntryIs (s : State) (seq : Nat) (err : Option (BitVec 7)) : Bool :=
  match ((kvEntry seq).run s 0 0).1, err with
  | .ok _, none => true
  | .error (.err x), some y => x == y
  | _, _ => false
/-- The ends of the ranges of the KV commands; records one byte past the scratchpad; sequences that resolve to a chain, that do not, and that may not be extended. -/
theorem witness_EngineServiceResults_kv :
    (kvBadAddr kvDesc1 (2 ^ 63) = true ∧ kvBadAddr kvDesc1 (kva 0 0) = false ∧ kvBadAddr kvDesc1 (kva 0 0 ||| (2 ^ 20) * 2 ^ 40) = true ∧ kvV kvDesc1 = true ∧ kvV 0 = false)
      ∧ (kvaPos (kva 0 (2 ^ 24 - 1)) + 1 = 2 ^ 24 ∧ 2 ^ 24 < kvaPos (kva 0 (2 ^ 24 - 1)) + 2 ∧ (kva 0 1).extractLsb' 0 40 ≠ 0)
      ∧ (0 < kvRb kvDesc1 ∧ 4096 * kvRb kvDesc1 ≤ eng0.size ∧ eng0.size < (top - 1) + 1 * kvRb kvDesc1)
      ∧ (∀ p ∈ [(0, none), (1, none), (2, some 0x40#7), (4, some 0x40#7)], kvEntryIs (kvS []) p.1 p.2 = true)
      ∧ Memory.wf ((kvS []).coreAt 0).team.spad = true
      ∧ (match (kvEntry 0).run (kvS []) 0 0 with
        | (.ok x, k) => (match (kvChainOf (kva 0 0) x).run k.commit 0 0 with | (.ok ch, _) => decide (ch.published kvDesc1 ≤ 0) | _ => false)
        | _ => false) = true
      ∧ (match (kvEntryNoTag 2).run (kvS []) 0 0 with | (.error (.err _), _) => true | _ => false) = true
      ∧ (match (kvEntryNoTag 0).run (kvBusy [] 0) 0 0 with
        | (.ok x, k) => entryRo x == false && k.commit.appendWaits (newCmd kvappI 0 (kva 0 0) 1) 0
            (kvChainAt (entryRoot x) (kvaLayer (kva 0 0) * kvHeads (k.commit.kvDesc 0) + kvaHead (kva 0 0)))
        | _ => false) = true
      ∧ (match (kvEntryNoTag 1).run (kvS []) 0 0 with
        | (.ok x, k) => (match (kvOpen (kva 1 0) x).run k.commit 0 0 with | (.error (.report _ .kvRo _), _) => true | _ => false)
        | _ => false) = true := by
  decide +kernel

/-- Pairs and lists that are bad and good; what a remapping, a sharing and the prefix commands answer. -/
theorem witness_EngineServiceResults_kv_lists :
    (let bad (l : List Nat) : Bool := l.any (fun x => decide (x / 2 ^ 20 % 2 ^ 12 ≠ 0 ∨ x / 2 ^ 52 ≠ 0)) || !decide ((l.map (fun x => x / 2 ^ 32 % 2 ^ 20)).Nodup)
     bad [2 ^ 20] = true ∧ bad [2 ^ 52] = true ∧ bad [0, 1] = true ∧ bad [0, 2 ^ 32] = false)
      ∧ (¬ [5, 5].Nodup ∧ [0, 2 ^ 20 - 1].Nodup)
      ∧ (match ((kvRemap [(0, 0)]).run (kvS []) 0 0).1 with | .ok _ => true | .error _ => false) = true
      ∧ (match ((kvRemap [(2, 0)]).run (kvS []) 0 0).1 with | .error (.err _) => true | _ => false) = true
      ∧ (match ((kvEntry 2).run (kvS []) 0 0).1 with | .error (.err _) => true | _ => false) = true
      ∧ (match ((kvEntry 0).run (kvS []) 0 0).1 with | .ok _ => true | .error _ => false) = true
      ∧ (match ((kvShare 0 0x50001 [2]).run (kvS []) 0 0).1 with | .ok _ => true | _ => false) = true
      ∧ (match ((kvShare 0 0x50001 [2 ^ 20 - 1]).run (kvS []) 0 0).1 with | .error (.err _) => true | _ => false) = true
      ∧ (match ((pfxInsert 0 0 0x50001 1 false).run (kvS []) 0 0).1 with | .error (.err _) => true | _ => false) = true
      ∧ ((0 ||| (2 ^ 24 : Word)).extractLsb' 24 16 ≠ 0) := by
  decide +kernel

/-- The record of an `ATTN` past the scratchpad, one with a bad address, one without tokens to attend to, and one that starts. -/
theorem witness_EngineServiceResults_attn :
    let s := attnS (padBytes 0 (attnRec0 0 5))
    let b := s.engPad eng0 0 64
    (s.homeTeam eng0.home).seq.running = false
      ∧ (eng0.size < (newCmd attnI (top - 63) 0 0).aOff + 64 ∧ (newCmd attnI (top - 64) 0 0).aOff + 64 ≤ eng0.size)
      ∧ kvBadAddr kvDesc1 (attnOf b).kva = false ∧ attnBad b (partAccb (s.homeTeam eng0.home).part / 16) eng0.size = false
      ∧ kvBadAddr kvDesc1 (attnOf (attnRec0 (2 ^ 63) 5)).kva = true ∧ attnBad (attnRec0 0 0) 1 eng0.size = true
      ∧ (match (kvEntry 0).run s 0 0 with
        | (.ok x, k) => (match (kvChainOf 0 x).run k.commit 0 0 with | (.ok _, _) => true | _ => false)
        | _ => false) = true := by
  decide +kernel

/-- Each failing condition of a collective and one that joins; the ends of what `BKSET`, `KICK` and `RTAB.COMMIT` take, and words of `SIDX`. -/
theorem witness_EngineServiceResults_coll :
    (let errOf (l : List Byte) : Option (BitVec 7) := (collS (padBytes 0 l)).collErr eng0 (cmdColl { newCmd (.collAR (e0 5)) 0 0 0 with blob := (collS (padBytes 0 l)).engPad eng0 0 32 })
     errOf (coll0 0 64 0 0x300 7) = some 0x02 ∧ errOf (coll0 0 64 1 0x300 8) = some 0x30 ∧ (errOf (coll0 top 64 1 0x300 7)).isSome = true ∧ errOf (coll0 256 512 1 0x300 7) = none)
      ∧ ((cmdColl { newCmd (.collAR (e0 5)) 0 0 0 with blob := coll0 256 512 1 0x300 7 }).ssp = true ∧ ((collS []).collGroup 7).isSome = true)
      ∧ (eng0.size < (newCmd bksetI (top - 31) 0 0).aOff + 32 ∧ (newCmd bksetI (top - 32) 0 0).aOff + 32 ≤ eng0.size)
      ∧ (512 ≤ (newCmd bksetI 0 512 1).b.toNat ∧ (newCmd bksetI 0 511 1).b.toNat < 512 ∧ 2 ^ 48 < (newCmd bksetI 0 0 (2 ^ 48 + 1)).c.toNat ∧ (newCmd bksetI 0 0 (2 ^ 48)).c ≠ 0)
      ∧ ((storeFind (collS []).buckets 5).isSome = true ∧ storeFind (collS []).buckets 511 = none ∧ ((collS []).buckets.map (·.1)).Pairwise (· < ·) ∧ bucket0.fired = false)
      ∧ (sidxBad (bytesOf 14 0 ++ bytesOf 2 1 ++ bytesOf 16 0) = true
        ∧ (sidxBad (bytesOf 12 1 ++ bytesOf 4 1 ++ bytesOf 16 0) = false ∧ sidxRuns (bytesOf 12 1 ++ bytesOf 4 1 ++ bytesOf 16 0) = true ∧ natAt (bytesOf 12 1) 0 7 % 2 ≠ 0))
      ∧ (storeFind rtabS.rtabs 0 = none ∧ (∀ b ∈ [1, 2, 3], (storeFind rtabS.rtabs b).isSome = true) ∧ (rtabS.queues.get 3).extractLsb' 40 16 ≠ 0
        ∧ (rtabS.rtabs.map (·.1)).Pairwise (· < ·)
        ∧ (match (rtabS.cmdSpan eng0 (newCmd (.rtabCommit (e0 5)) 0 1 0) 0 .write 0x7000 8).2 with | .pieces l => l.length == 1 | _ => false) = true) := by
  decide +kernel

/-- The ends of what an atomic takes, and a device that is not in the domain. -/
theorem witness_EngineServiceResults_atoms :
    (∀ i ∈ [Instr.atomAdd (e0 6), .atomk (e0 6)], (newCmd i 0 0 0).fresh) ∧ atomWord (.atomAdd (e0 6)) = some (e0 6)
      ∧ ((newCmd (.atomAdd (e0 6)) 0 (2 ^ 56) 0).b.toNat = 2 ^ 56 ∧ (newCmd (.atomk (e0 6)) 0 0 (2 ^ 35)).c.toNat = 2 ^ 35 ∧ { e0 6 with scope := 4 }.scope = 4)
      ∧ (2 % atomLen { e0 6 with fn := 24 } ≠ 0 ∧ 32 % 64 ≠ 0 ∧ 8 % atomLen { e0 6 with fn := 24 } = 0)
      ∧ (eng0.size < (newCmd (.atomk (e0 6)) (top - 1) 0 0).aOff + 4 * atomkLen (e0 6) ∧ 0 + 4 * atomkLen (e0 6) ≤ eng0.size)
      ∧ storeFind (collS []).domain 5 = none := by
  exact ⟨fun i _ => newCmd_fresh i 0 0 0, by decide +kernel⟩

/-- A submission taken and one refused; a vote without a group, in a broken group and in one that stands; a scan and a stop of a core. -/
theorem witness_EngineServiceResults_system :
    let s := { collS [] with stepGroup := some (group0 []), gstep := 9 }
    let x := physCore (groupOf ctl0) 3
    ((State.submitTcb (subm 0x10100010000) 0 1 0x100000 none none).2 = .queued 0 ∧ (State.submitTcb (subm 0x10000) 0 1 0x100000 none none).2 = .refused 0x03)
      ∧ ((collS []).stepGroup = none ∧ s.stepGroup = some (group0 []) ∧ (group0 []).broken = false ∧ (7 : Word).toNat = (group0 []).handle.toNat ∧ (8 : Word).toNat ≠ (group0 []).handle.toNat)
      ∧ (24 < (25 : Word).toNat ∧ ((s.coreAt x).task = none ∧ s.logicalOf x = none ∧ (s.coreAt x).scan.running = false ∧ s.destined x = false ∧ (s.coreAt x).gated = false))
      ∧ ((s.coreAt x).halted = none ∧ x ∈ s.haltSet x)
      ∧ ((s.updCore x (fun y => { y with halted := some 0 })).coreAt x).halted = some 0 := by
  decide +kernel

/-! ### The machine as a whole -/

theorem witness_PredicateRegisters : (1#4 ≠ 0) ∧ (511 < 512) := by decide

/-- The context of the landing. -/
def ctx3 : Fin 4 := ⟨3, by decide +kernel⟩
def landS : Pend := { due := 1, seq := 0, unit := .s0, ctx := ctx3, baddr := 0, act := .setS 63 7 }
/-- Results for s63, s0, a15, p15 and p0; two of one cycle from two bundles, and from two units of one. -/
theorem witness_RegisterLanding :
    (landS.act = .setS 63 7 ∧ ({ landS with act := .setS 0 7 } : Pend).act = .setS 0 7 ∧ ({ landS with act := .setA 15 7 } : Pend).act = .setA 15 7
      ∧ ({ landS with act := .setP 15 1 1 } : Pend).act = .setP 15 1 1)
      ∧ ([landS, { landS with seq := 1 }, { landS with seq := 1, unit := .s1 }].Pairwise (fun a b => a.before b = true))
      ∧ (let p := landS
         ∀ q ∈ [({ landS with seq := 1, act := .setS 63 8 } : Pend), { landS with unit := .s1, act := .setS 63 8 }],
           p.act = .setS 63 7 ∧ q.act = .setS 63 8 ∧ p.ctx = q.ctx ∧ p.due ≤ 1 ∧ q.due ≤ 1
             ∧ (p.seq < q.seq ∨ (p.seq = q.seq ∧ p.unit.code.toNat < q.unit.code.toNat)))
      ∧ (let s : State := { State.reset with cycle := 1 }
         landS.due ≤ s.cycle ∧ (s.coreAt 0).team.pend = [] ∧ (s.coreAt 0).team.stopAt = none) := by decide +kernel

/-- A listed map with one carrier, v55 of context 0. -/
def carried : MapBits := listedMap 0 55 0 128 1000 0
/-- The highest register, pinned and not. -/
theorem witness_VectorRegisterLanding :
    (55 < 56) ∧ (({ Ctx.reset with pins := 0x80000000000000 } : Ctx).pins.getLsbD 55 = true) ∧ Ctx.reset.pins.getLsbD 55 = false
      ∧ (0 ∈ mapCars carried ∧ mapCctx carried 0 = (0 : Fin 4).val ∧ mapCreg carried 0 = 55) := by decide +kernel

/-- A product of one unit, the work of a `TZERO` and of a `TLOAD` on tile 15. -/
def mxJob0 (k : MxKind) (start fin : Nat) : MxJob :=
  { kind := k, tile := 15, start := start, aCore := 0, bCore := 0, aAt := 0, bAt := 0, xAt := 0, rows := [], tya := 0, tyb := 0, qta := 0, qtb := 0, na := 1, nb := 1
    fresh := false, gang := false, lastRep := true, aGot := [1], bGot := [1], entries := 0, entryOk := true, off := 0, fin := fin }

/-- The walk of a table of two entries at 0x2000, of which the second is not aligned. -/
def sparse0 (start : Nat) (rows : List Nat) : MxJob :=
  { mxJob0 .sparse start 0 with xAt := 0x2000, rows := rows, entries := 2, entryOk := rows != [] }
/-- Stores of two bytes; scalar loads and `AMO` of every type; both banks of the pattern memory; the first and the last row; words side by side; a job with one
cycle to go and one with two; each kind of matrix work in its first and its last cycle; a block-sparse walk in each of its cycles, with an
entry that is taken and one that is not. -/
theorem witness_BankActionLanding :
    (let bs : List Host.Cell := [(0, 1), (1, 2)]
     ({ landS with act := .store bs } : Pend).act = .store bs ∧ (∀ b ∈ bs, ∀ d ∈ bs, d.1 = b.1 → d = b) ∧ ∀ b ∈ bs, b.1 ≠ 2) ∧ Memory.wf ((State.reset.coreAt 0).team.spad) = true
      ∧ ((0 : BitVec 4).toNat < 12 ∧ (11 : BitVec 4).toNat < 12) ∧ (∀ t ∈ [0#4, 3#4, 6#4, 7#4], t = 0 ∨ t = 3 ∨ t = 6 ∨ t = 7)
      ∧ (((State.reset.coreAt 0).team.acc.map (·.1)).Pairwise (· < ·) ∧ ((State.reset.coreAt 0).team.patA.map (·.1)).Pairwise (· < ·)
        ∧ ((State.reset.coreAt 0).team.patB.map (·.1)).Pairwise (· < ·))
      ∧ ((List.map (·.1) [((0 : Nat), (7 : BitVec 32)), (4, 8)]).Pairwise (fun a b => a + 4 ≤ b) ∧ (List.map (·.1) [((0 : Nat), (7 : BitVec 32)), (8, 8)]).Pairwise (fun a b => a + 8 ≤ b))
      ∧ (let j := mxJob0 .dense 1 9
         (0 < j.fin ∧ j.fin ≤ 9) ∧ (j.operands.1[0]?).isSome = true ∧ (j.operands.2.1[127]?).isSome = true)
      ∧ ((mxJob0 .zero 1 0).fin = 0 ∧ ∀ c ∈ [2, 17], (mxJob0 .zero 1 0).start < c ∧ c ≤ (mxJob0 .zero 1 0).start + 16)
      ∧ ((mxJob0 .load 1 0).aGot ≠ [] ∧ ∀ c ∈ [3, 130], (mxJob0 .load 1 0).start + 2 ≤ c ∧ c ≤ (mxJob0 .load 1 0).start + 129)
      ∧ (let j := sparse0 1 [0x4000, 0x8000]
         let size := spadSize 0 { Team.reset with part := 0x100002 }
         let pad := memWrite [] 0x2000 (bytesOf 8 2 ++ bytesOf 8 (0x8000 * 2 ^ 24 + 0x4000) ++ bytesOf 8 (0x8001 * 2 ^ 24 + 0x4000))
         let taken (w : Nat) : Bool := decide (w < 2 ^ 48 ∧ w % 2 ^ 24 % 32 = 0 ∧ w / 2 ^ 24 % 2 ^ 24 % 32 = 0 ∧ w % 2 ^ 24 + 4096 ≤ size ∧ w / 2 ^ 24 % 2 ^ 24 + 4096 ≤ size)
         (j.kind = .sparse ∧ j.fresh = false ∧ j.entries = 2 ∧ j.entryOk = true ∧ (sparse0 1 []).entryOk = false ∧ (sparse0 1 []).rows = [])
           ∧ (j.xAt + 32 ≤ size ∧ j.xAt + 8 * 1 + 16 ≤ size ∧ taken (memNat pad (j.xAt + 8) 8) = true ∧ taken (memNat pad (j.xAt + 16) 8) = false)
           ∧ (0 < ({ j with fin := 41 } : MxJob).fin ∧ 41 - j.start = 8 + 16 * 2)
           ∧ (2 - j.start = 1 ∧ ∀ e ∈ [0, 1], e < j.entries ∧ (4 + 16 * e) - j.start = 3 + 16 * e
             ∧ ∀ q ∈ [1, 2, 15, 16], 1 ≤ q ∧ q ≤ 16 ∧ (5 + 16 * e + q) - j.start = 4 + 16 * e + q)) := by decide +kernel

/-- A word of each of the units, with traps open and closed; a guard that is false. -/
def guarded (u : UnitCode) : RWord := { r0 u with hd := { hd0 u with guard := 1 } }
theorem witness_WordFrame :
    (∀ i ∈ [Instr.add (r0 .s0), .ldV (m0 .ld), .stV (m0 .st), .vadd (r0 .v0), .vfadd (r0 .v1), .vmov (r0 .v2), .vexp2 (r0 .sf)], i.unitOk = true ∧ ∃ h, i.head = some h
        ∧ (h.unit = .s0 ∨ h.unit = .s1 ∨ h.unit = .ld ∨ h.unit = .st ∨ h.unit = .v0 ∨ h.unit = .v1 ∨ h.unit = .v2 ∨ h.unit = .sf) ∧ ∃ t, exec i plain = .next t)
      ∧ plain.lone ∧ ((padAt 0).ictx.te = true ∧ (padAt 0).ictx.tvec ≠ 0)
      ∧ (let i := Instr.add (guarded .s0); i.head = some (guarded .s0).hd ∧ scalarForm i = true ∧ plain.ictx.guardBit (guarded .s0).hd = false) := by
  have hp : plain.ictx = Ctx.reset := mk_ictx ..
  refine ⟨fun i hi => ?_, (plain_free (.nop ys0) ys0.hd {}).1, ?_, rfl, rfl, ?_⟩
  · have h : ∃ h, i.head = some h ∧ i.unitOk = true ∧ (h.unit = .s0 ∨ h.unit = .s1 ∨ h.unit = .ld ∨ h.unit = .st ∨ h.unit = .v0 ∨ h.unit = .v1 ∨ h.unit = .v2 ∨ h.unit = .sf) := by
      simp only [List.mem_cons, List.not_mem_nil, or_false] at hi
      rcases hi with rfl | rfl | rfl | rfl | rfl | rfl | rfl <;> exact ⟨_, rfl, rfl, by decide⟩
    obtain ⟨h, e, u, o⟩ := h
    obtain ⟨_, _, x⟩ := exec_slot i plain (by rw [e]; rfl)
    exact ⟨u, h, e, o, _, x⟩
  · have h : ((padAt 0).ictx.te = true ∧ (padAt 0).ictx.tvec ≠ 0) := by decide +kernel
    exact h
  · rw [hp]; decide +kernel

theorem witness_TrapEntry :
    ((padAt 0).ctxAt 0 0).te = true ∧ ((padAt 0).ctxAt 0 0).tvec ≠ 0 ∧ (padAt 0).ictx.te = true ∧ (padAt 0).ictx.tvec ≠ 0 ∧ (padAt 0).unhindered (.trap ys0) ys0.hd {} := by
  refine ⟨by decide +kernel, by decide +kernel, by decide +kernel, by decide +kernel, padAt_free _ _ _ _⟩

/-- Traps closed, and no handler; a task alone, and a gang. -/
theorem witness_DoubleFault :
    ((withTask task0 (mk { Ctx.reset with te := false, tvec := 0x800 } Team.reset 0)).ctxAt 0 0).te = false
      ∧ ((inGang gang4).ctxAt 0 0).tvec = 0 ∧ (inGang gang4).taskAt 0 = some gang4 ∧ (inGang task0).taskAt 0 = some task0 ∧ gang4.failure = none ∧ task0.failure = none := by
  decide +kernel

def failed2 : List SlotFault := [{ unit := .en, cause := .spadAlign, tval := 1 }, { unit := .s0, cause := .tokenBusy, tval := 2 }]
/-- Units 10 and 1 have failed: S0 decides. -/
theorem witness_FailedBundleHasNoEffect :
    (∀ f ∈ failed2, f.unit = .s0 → ∀ g ∈ failed2, f.unit.code.toNat ≤ g.unit.code.toNat ∧ (g.unit = f.unit → g = f)) ∧ failed2 ≠ []
      ∧ ((padAt 0).withIssue { (padAt 0).issue with faults := failed2 }).ictx.te = true ∧ ((padAt 0).withIssue { (padAt 0).issue with faults := failed2 }).ictx.tvec ≠ 0
      ∧ (∀ u : UnitCode, u ∈ [UnitCode.sy, .en] → u.code.toNat ≤ 10) := by
  decide +kernel

theorem words_of (x : BundleRead) (l : List Word) (h : (match x with | .words m => m == l | _ => false) = true) : x = .words l := by
  cases x with
  | words m => exact congrArg _ (beq_iff_eq.mp h)
  | _ => cases h

theorem fetched_env : fetched.decodeEnv 0 false = { control := false, vregs := 56, tiles := 16, inBody := false } := by
  have h : partVregs (fetched.coreAt 0).team.part = 56 ∧ partAccb (fetched.coreAt 0).team.part / 16 = 16 := by decide +kernel
  unfold State.decodeEnv
  dsimp only
  rw [h.1, h.2]; rfl
theorem fetched_decodes : decodeBundle (fetched.decodeEnv 0 false) [0x8000000000000000] = .ok [.nop ys0] := by
  rw [fetched_env]; rfl

theorem fetched_brks : ∀ b ∈ (fetched.coreAt 0).brks.toList, b ≠ some (fetched.ctxAt 0 0).pc := by
  have h : (fetched.coreAt 0).brks.toList.all (fun b => b.isNone) = true := by decide +kernel
  intro b hb e
  rw [e] at hb
  exact absurd (List.all_eq_true.mp h _ hb) Bool.false_ne_true

/-- No gang word waits. -/
theorem fetched_gang : (if fetched.turn = 0 then fetched.gangMatch else fetched) = fetched := by
  have h : fetched.tasks.filter fetched.gangWaits = [] := by decide +kernel
  simp [State.gangMatch, h]

/-- An event; a word of the bundle in progress; a bundle in the instruction buffer (its NOP has no descriptor, no gang and reads no bank). -/
theorem witness_StepRunsInstruction :
    ({ State.reset with agenda := [event .schedPass .none] } : State).agenda = [event .schedPass .none]
      ∧ (let s := plain.withIssue { plain.issue with slots := [.nop ys0] }; s.agenda = [] ∧ s.issue.slots = [.nop ys0])
      ∧ (let s := fetched
         let x := s.ctxAt 0 0
         let v := (({ s with turn := 1 } : State).chosen 0 0).touched 0 x.pc.toNat 1
         (if s.turn = 0 then s.gangMatch else s) = s ∧ s.agenda = [] ∧ s.issue.slots = [] ∧ s.powered = true ∧ s.nextCore = some 0 ∧ s.pick 0 = some 0 ∧ x.earliest ≤ s.cycle ∧ s.fetchParked 0 0 = false
          ∧ s.nextWords 0 0 = .words [0x8000000000000000] ∧ x.activeLoop = none ∧ x.heldWords.isSome = false ∧ badParity (s.coreAt 0) x.pc.toNat 1 = false
          ∧ (∀ b ∈ (s.coreAt 0).brks.toList, b ≠ some x.pc) ∧ decodeBundle (s.decodeEnv 0 false) [0x8000000000000000] = .ok [.nop ys0]
          ∧ v.mustPreread 0 0 [.nop ys0] = false ∧ v.bankConflict 0 0 s.cycle [.nop ys0] = none ∧ v.blocks 0 0 [.nop ys0] = false
          ∧ isGangWord x (.nop ys0) = false) := by
  refine ⟨rfl, ⟨rfl, rfl⟩, fetched_gang, by decide +kernel, rfl, by decide +kernel, by decide +kernel, by decide +kernel, by decide +kernel, by decide +kernel, words_of _ _ (by decide +kernel),
    by decide +kernel, by decide +kernel, by decide +kernel, fetched_brks, fetched_decodes, by decide +kernel, by decide +kernel, by decide +kernel, by decide +kernel⟩

def core0 : Fin 208 := ⟨0, by decide +kernel⟩

/-- The last of two words: an ADD stands before it. Loops of two bundles: at the first, at the last with a pass to come, and at the last of all. -/
def lastWord : State := plain.withIssue { plain.issue with all := [.add (r0 .s0), .add (r0 .s1)], effects := [(.s0, .act 1 (.setS 1 7))] }
def inLoop (l : LoopState) : State := mk { Ctx.reset with loop := some l } Team.reset 0
def loop2 (pos left : Nat) : LoopState :=
  { base := 0x1000, n := 2, left := left, pos := pos, first := true, skip := false, held := [], suspended := false, prof := Profile.reset }

theorem witness_BundleCommitAndLoop :
    ((Instr.head (.nop ys0)).isSome = true ∧ (plain.withIssue { plain.issue with slots := [.nop ys0] }).issue.slots ≠ []
      ∧ ∃ t, exec (.nop ys0) (plain.withIssue { plain.issue with slots := [.nop ys0] }) = .next t)
      ∧ (let i : Instr := .add (r0 .s1)
         let acts : List (UnitCode × Nat × Act) := [(.s0, 1, .setS 1 7), (.s1, 1, .setS 0 0)]
         ∃ (h : Head) (r : SlotRes), i.head = some h ∧ exec i lastWord = .next (lastWord.slot i h r) ∧ lastWord.issue.slots = [] ∧ lastWord.issue.faults = []
           ∧ lastWord.ictx.activeLoop = none ∧ lastWord.ictx.guardBit h = true ∧ r.faults = [] ∧ tokenFaults lastWord.ictx i.refs = []
           ∧ stallFaults lastWord.cycle lastWord.issue.seq lastWord.issue.ctx lastWord.ictx lastWord.icore.team i.refs i.guardP r = []
           ∧ lastWord.issue.effects ++ r.effects.map (fun e => (h.unit, e)) = acts.map (fun a => (a.1, .act a.2.1 a.2.2)) ∧ ∀ a ∈ acts, a.2.1 ≠ 0)
      ∧ (∀ l ∈ [loop2 0 2, loop2 1 2, loop2 1 1], (inLoop l).issue.slots = [] ∧ (inLoop l).issue.effects = [] ∧ (inLoop l).issue.faults = []
        ∧ (inLoop l).ictx.activeLoop = some l
        ∧ stallFaults (inLoop l).cycle (inLoop l).issue.seq (inLoop l).issue.ctx (inLoop l).ictx (inLoop l).icore.team (Instr.nop ys0).refs (Instr.nop ys0).guardP {} = [])
      ∧ ((loop2 0 2).pos + 1 < (loop2 0 2).n ∧ (loop2 1 2).n ≤ (loop2 1 2).pos + 1 ∧ 1 < (loop2 1 2).left ∧ (loop2 1 1).left ≤ 1) := by
  refine ⟨⟨rfl, by decide +kernel, ?_⟩, ?_, fun l hl => ?_, by decide⟩
  · obtain ⟨h, r, e⟩ := exec_slot (.nop ys0) _ rfl
    exact ⟨_, e⟩
  · have hc : lastWord.ictx = Ctx.reset := mk_ictx ..
    refine ⟨(r0 .s1).hd, scalarRes 1 (r0 .s1).dst (lastWord.ictx.sReg (r0 .s1).a + lastWord.ictx.sReg (r0 .s1).b), rfl, rfl, rfl, rfl, ?_, ?_, rfl, ?_, ?_, ?_, by decide⟩
    · rw [hc]; rfl
    · rw [hc]; decide +kernel
    · rw [hc]; rfl
    · rw [hc]; rfl
    · rw [hc]; rfl
  · have hc : (inLoop l).ictx = { Ctx.reset with loop := some l } := mk_ictx ..
    refine ⟨rfl, rfl, rfl, ?_, ?_⟩
    · rw [hc]
      simp only [List.mem_cons, List.not_mem_nil, or_false] at hl
      rcases hl with rfl | rfl | rfl <;> rfl
    · rw [hc]; rfl

theorem witness_DecodeEncode :
    (Instr.wellFormed (.add (r0 .s1)) = true ∧ Instr.unitOk (.add (r0 .s1)) = true ∧ (Instr.head (.add (r0 .s1))).isSome = true)
      ∧ Instr.microOk mw0 .score = true ∧ Instr.packetOk p0 .submit = true := by decide +kernel

/-- Units 11 and 14 anywhere, 5 and 9 on a control core, an IMM word first, alone or before others; eight words without STOP. -/
theorem witness_ReservedWordsRefused :
    (∀ u ∈ [11, 14, 5, 9, 15], ∀ b ∈ [false, true], ∃ w : Word, w.getLsbD 63 = b ∧ (w.extractLsb' 59 4).toNat = u
        ∧ ∃ x ∈ [w, 0x8000000000000000], x.getLsbD 63 = true)
      ∧ (∀ x ∈ List.replicate 8 (0 : Word), x.getLsbD 63 = false) ∧ (List.replicate 8 (0 : Word)).length = 8 := by
  refine ⟨fun u hu b hb => ⟨BitVec.ofBool b ++ BitVec.ofNat 4 u ++ 0#59, ?_, ?_, 0x8000000000000000, by simp, by decide⟩, fun x hx => by rw [List.eq_of_mem_replicate hx]; rfl, rfl⟩
  · revert u b; decide +kernel
  · revert u b; decide +kernel

theorem witness_StepKeepsMemoryCanonical :
    let s := plain.withIssue { plain.issue with slots := [.nop ys0] }
    s.memWf ∧ (∃ t, step s = .next t) ∧ State.reset.memWf := by
  refine ⟨⟨rfl, by decide +kernel, by decide +kernel⟩, ?_, ⟨rfl, by decide +kernel, by decide +kernel⟩⟩
  obtain ⟨h, r, e⟩ := exec_slot (.nop ys0) plain rfl
  exact ⟨_, e⟩

theorem witness_WordsLeaveDeviceState : (Instr.head (.cpy (e0 0))).isSome = true ∧ ∃ t, exec (.cpy (e0 0)) plain = .next t := by
  refine ⟨rfl, ?_⟩
  obtain ⟨h, r, e⟩ := exec_slot (.cpy (e0 0)) plain rfl
  exact ⟨_, e⟩

theorem witness_AtomAtMemory :
    Memory.wf State.reset.mem = true ∧ ∀ t ∈ [0#4, 3#4, 6#4, 7#4], t = 0 ∨ t = 3 ∨ t = 6 ∨ t = 7 := by decide

/-- The first byte of device memory, and its last two. -/
theorem witness_HostMemoryRoundTrip :
    Memory.wf State.reset.mem = true ∧ State.reset.poison = [] ∧ (paOk 0 = true ∧ paOk (0 + ([5] : List Byte).length - 1) = true ∧ 1 ≤ ([5] : List Byte).length)
      ∧ (let a := 7 * Config.stackWindow + Config.stackBytes - 2; paOk a = true ∧ paOk (a + ([5, 6] : List Byte).length - 1) = true ∧ paOk (a + 2) = false) := by
  decide +kernel

/-- Room for the last word; none; after a loss, without room for the report, and with it. -/
theorem witness_RecordsAreWhole :
    (let g := { Group.reset with statq := List.replicate 8188 0 }; g.statqLost = 0 ∧ g.statq.length + (List.replicate 4 (0 : Word)).length ≤ 8192)
      ∧ (let g := { Group.reset with statq := List.replicate 8189 0 }; g.statqLost = 0 ∧ 8192 < g.statq.length + (List.replicate 4 (0 : Word)).length)
      ∧ (let g := { Group.reset with statq := List.replicate 8161 0, statqLost := 1 }; 0 < g.statqLost ∧ 8192 < g.statq.length + 32)
      ∧ (let g := { Group.reset with statq := List.replicate 8160 0, statqLost := 1 }; 0 < g.statqLost ∧ g.statq.length + 32 ≤ 8192 ∧ (List.replicate 28 (0 : Word)).length ≤ 28) := by
  simp only [List.length_replicate, Group.reset]
  decide

/-! ## Single steps

The expected values are worked out by hand from the rules named. -/

def nextOf (o : Host.Outcome State Fault Refusal) (s : State) : State := match o with | .next t => t | _ => s
/-- The value on its way to a scalar register of core 0. -/
def toS (i : Instr) (s : State) : Option (Reg6 × Word) := ((nextOf (exec i s) s).coreAt 0).team.pend.findSome? (fun p => match p.act with | .setS r x => some (r, x) | _ => none)
/-- Element `i` of `w` bits of the data on its way to a vector register of core 0. -/
def toV (n : Instr) (s : State) (i w : Nat) : Option Nat :=
  ((nextOf (exec n s) s).coreAt 0).team.pend.findSome? (fun p => match p.act with | .setV _ x _ _ _ _ => some (elem x i w) | _ => none)
def sw2 (t : BitVec 4) : RWord := divW t
def two (x y : Word) : State := mk (twoS x y) Team.reset 0

/-- R95: the sum wraps; the count of a shift is six bits; the high half of a negative product. -/
theorem test_add_wraps : toS (.add (sw2 0)) (two (-1) 1) = some (1, 0) := by decide +kernel
theorem test_sra_count : toS (.sra (sw2 0)) (two 0x8000000000000000 65) = some (1, 0xC000000000000000) := by decide +kernel
theorem test_mulh_negative : toS (.mulh (sw2 0)) (two (-1) 2) = some (1, -1) := by decide +kernel
theorem test_clz_zero : toS (.clz (sw2 0)) (two 0 0) = some (1, 64) := by decide +kernel
/-- R96: the quotient by zero of `.n8` is 255; the minimum of `.i8` by -1 is the minimum. -/
theorem test_div_zero : toS (.div (sw2 4)) (two 7 0) = some (1, 255) := by decide +kernel
theorem test_div_minimum : toS (.div (sw2 1)) (two 0x80 (-1)) = some (1, 0xFFFFFFFFFFFFFF80) := by decide +kernel
/-- R95: the remainder takes the sign of the dividend. -/
theorem test_rem_sign : toS (.rem (sw2 0)) (two (-7) 2) = some (1, -1) := by decide +kernel
/-- R97: `MOVL` puts VALUE below the low byte of sA. -/
theorem test_movl : toS (.movl { l0 with a := 2 }) (two 0x1FF 0) = some (1, 0xFF00000000000007) := by decide +kernel
/-- Index 0 of the contexts, as the float, vector and control tests use it. -/
def ctx0 : Fin 4 := ⟨0, by decide +kernel⟩

/-- R99: 1.0 + 2.0, and infinity times zero, the default NaN. -/
theorem test_fadd : toS (.fadd (sw2 7)) (two 0x3F800000 0x40000000) = some (1, 0x40400000) := by decide +kernel
theorem test_fmul_invalid : toS (.fmul (sw2 7)) (two 0x7F800000 0) = some (1, 0x7FC00000) := by decide +kernel
/-- R100: an integer conversion saturates. -/
theorem test_fcvt_saturates : toS (.fcvt { sw2 1 with fn := 7 }) (two 0x43800000 0) = some (1, 127) := by decide +kernel

/-- R128: 127 + 127 saturates in `.i8` and wraps in `VADD`; the source is the element's own index. -/
def ix (t : BitVec 4) : RWord := { r0 .v0 with dst := 1, a := 60, b := 60, ty := t }
theorem test_vadds_saturates : toV (.vadds (ix 1)) plain 127 8 = some 127 := by decide +kernel
theorem test_vadd_wraps : toV (.vadd (ix 1)) plain 127 8 = some 254 := by decide +kernel
/-- R138: 0 + 1 + ... + 127. -/
theorem test_vredadd : toV (.vredAdd { ix 3 with b := 0, fn := 7 }) plain 0 32 = some 8128 := by decide +kernel

/-- The barrier of the arrival test. -/
def bar0 : Fin 16 := ⟨0, by decide +kernel⟩

/-- R77: a branch back by one bundle; R78: `CALL` leaves the next address in s63. -/
theorem test_br : ((nextOf (exec (.br { yt0 with disp := -1 }) plain) plain).ctxAt core0 ctx0).pc = 0xFF8 := by decide +kernel
theorem test_call : toS (.call { yt0 with disp := 2 }) plain = some (63, 0x1008) := by decide +kernel
/-- R29, R93: WAITLIM is clamped at both ends. -/
theorem test_waitlim_low : ((nextOf (exec (.mtcWaitlim { ys0 with a := 2, fn := 9 }) (two 0 0)) plain).ctxAt core0 ctx0).waitlim = 1 := by decide +kernel
theorem test_waitlim_high : ((nextOf (exec (.mtcWaitlim { ys0 with a := 2, fn := 9 }) (two 20000 0)) plain).ctxAt core0 ctx0).waitlim = 10000 := by decide +kernel
/-- R85: the last arrival clears the count and moves the generation on. -/
theorem test_arrive :
    (((nextOf (exec (.barArrive ys0) (mk Ctx.reset { Team.reset with bars := Team.reset.bars.set 0 { count := 2, arrivals := 1, gen := 0xFFFFFFFF } } 0)) plain).coreAt 0).team.bars.get bar0)
      = { count := 2, arrivals := 0, gen := 0 } := by decide +kernel

/-- The member whose vote comes last. -/
def last3 : Fin 4 := ⟨3, by decide +kernel⟩

/-- R4, R173: a store puts the low byte first; R163: a load of `.i8` extends its sign. -/
theorem test_store_order :
    (memRead ((State.runAct plain 0 { landS with ctx := 0, act := .store ((List.range 2).map (fun k => (8 + k, (0x1234 : Word).extractLsb' (8 * k) 8))) }).coreAt 0).team.spad 7 4) = [0, 0x34, 0x12, 0] := by
  decide +kernel
theorem test_load_sign :
    (((mk Ctx.reset { Team.reset with spad := [(8, 0x80)] } 0).runAct 0 { landS with ctx := 0, act := .loadS 1 8 5 }).coreAt 0).team.pend.findSome?
      (fun p => match p.act with | .setS r x => some (r, x) | _ => none) = some (5, 0xFFFFFFFFFFFFFF80) := by decide +kernel
/-- R90, R162: a misaligned load traps with its address. -/
theorem test_misaligned :
    (let x := (nextOf (exec (.ldS { m0 .ld with ty := 3 }) (padAt 2)) plain).ctxAt core0 ctx0; (x.tcause, x.tval, x.pc, x.te, x.hnd, x.tpc)) = (0x21, 2, 0x800, false, true, 0x1000) := by
  decide +kernel
/-- R91: the return from a trap. -/
theorem test_tret :
    (let x := (nextOf (exec (.tret ys0) (mk { Ctx.reset with te := false, hnd := true, tpc := 0x2000 } Team.reset 0)) plain).ctxAt core0 ctx0; (x.pc, x.te, x.hnd)) = (0x2000, true, false) := by
  decide +kernel
/-- R320: `JUMP` on its condition. -/
theorem test_jump : ((nextOf (exec .jump (seqAt { q0 with pc := 3, mw := { mw0 with n := 9 } })) plain).coreAt 0).team.seq.pc = 9 := by decide +kernel
/-- R363: a write of two bytes at a physical address, answered with their number. -/
theorem test_memwr :
    (let t := nextOf (exec .memwr (host (pkt 0x100 0x100 [7, 8]))) plain
     (t.mem, t.out.map (fun m => match m with | .response _ op st sq v _ => (op, st, sq, v) | _ => (0, 0, 0, 0)))) = ([(0x100, 7), (0x101, 8)], [(0x8002, 0, 9, 2)]) := by
  decide +kernel
/-- R335: one of two votes is missing, so the step waits; with both it commits and GSTEP counts. -/
theorem test_vote :
    (nextOf (exec .stepVoteComplete { State.reset with stepGroup := some (group0 [(0, true), (last3.val, true), (0, true), (last3.val, true)]), ev := .vote { handle := 7, lost := false } }) plain).gstep = 1 := by
  decide +kernel

end Sys2Proof.Tests
end

/-! Bundles of several words, and bundles of a loop body (R6, R79 to R81, R343): what the last word's slot gives for
acts of any units, what the end of a body bundle does to its loop, and the statement of O48. -/

namespace Sys2Proof.Machine

/-! ## A slot's part in its bundle -/

/-- A slot adds to the effects or to the faults of the bundle, and changes nothing else of its record. -/
theorem State.addSlot_frame (s : State) (i : Instr) (h : Head) (r : SlotRes) :
    s.addSlot i h r = { s.issue with effects := (s.addSlot i h r).effects, faults := (s.addSlot i h r).faults } := by
  unfold State.addSlot
  dsimp only
  split
  · rfl
  · split <;> rfl

/-- While words of the bundle are still to execute, an op word changes only the record of the bundle. -/
theorem exec_more {i : Instr} {s t : State} (hi : i.head.isSome = true) (hs : s.issue.slots ≠ []) (hx : exec i s = .next t) :
    t = { s with issue := t.issue } ∧ t.issue.slots = s.issue.slots ∧ t.issue.baddr = s.issue.baddr ∧ t.issue.next = s.issue.next := by
  obtain ⟨h, r, e⟩ := exec_slot i s hi
  rw [hx, State.slot_more _ _ _ _ hs] at e
  obtain rfl : t = s.withIssue (s.addSlot i h r) := Host.Outcome.next.inj e
  rw [State.withIssue_issue, State.addSlot_frame]
  exact ⟨rfl, rfl, rfl, rfl⟩

/-- A slot that acts and has no fault of its own appends its effects to those of the words before it. -/
theorem State.addSlot_appends {s : State} {i : Instr} {h : Head} {r : SlotRes}
    (hg : scalarForm i = true → s.ictx.guardBit h = true) (hf : r.faults = []) (htok : tokenFaults s.ictx i.refs = [])
    (hst : stallFaults s.cycle s.issue.seq s.issue.ctx s.ictx s.icore.team i.refs i.guardP r = []) :
    s.addSlot i h r = { s.issue with effects := s.issue.effects ++ r.effects.map (fun e => (h.unit, e)) } := by
  have hst' : stallFaults s.cycle s.issue.seq s.issue.ctx s.ictx (s.coreAt s.issue.core).team i.refs i.guardP r = [] := hst
  have hb : ¬ (scalarForm i && !s.ictx.guardBit h) = true := by
    cases hsf : scalarForm i with
    | false => simp
    | true => simp [hg hsf]
  unfold State.addSlot
  simp only [if_neg hb, hf, htok, hst', List.append_nil, worst]

/-- A word that neither acts nor faults leaves the record as it is, whatever its guard. -/
theorem State.addSlot_idle {s : State} {i : Instr} {h : Head} (htok : tokenFaults s.ictx i.refs = [])
    (hst : stallFaults s.cycle s.issue.seq s.issue.ctx s.ictx s.icore.team i.refs i.guardP {} = []) :
    s.addSlot i h {} = s.issue := by
  by_cases hg : scalarForm i = true → s.ictx.guardBit h = true
  · rw [State.addSlot_appends hg rfl htok hst]
    simp only [List.map_nil, List.append_nil]
  · obtain ⟨hsf, hgb⟩ := Classical.not_imp.mp hg
    unfold State.addSlot
    simp [hsf, hgb]

/-! ## Acts of several units -/

/-- The effects of acts that words of several units have added. -/
def actEffects (acts : List (UnitCode × Nat × Act)) : List (UnitCode × Effect) := acts.map (fun a => (a.1, .act a.2.1 a.2.2))

theorem swTrapOf_actEffects (acts : List (UnitCode × Nat × Act)) : swTrapOf (actEffects acts) = none := by
  unfold swTrapOf actEffects
  rw [List.findSome?_eq_none_iff]
  intro e he
  obtain ⟨a, _, rfl⟩ := List.mem_map.mp he
  rfl

theorem dataWrites_actEffects (acts : List (UnitCode × Nat × Act)) :
    dataWrites (actEffects acts) = acts.filterMap (fun a => a.2.2.writesV.map (fun r => (a.1, r))) := by
  unfold dataWrites actEffects
  rw [List.filterMap_map]
  refine List.filterMap_congr (fun a _ => ?_)
  obtain ⟨u, lat, act⟩ := a
  cases act with
  | setV r x mask map data own => cases data <;> rfl
  | _ => rfl

theorem State.updTeam_updTeam (s : State) (c : Fin 208) (f g : Team → Team) :
    (s.updTeam c f).updTeam c g = s.updTeam c (fun t => g (f t)) := State.updCore_updCore s c _ _

theorem State.updTeam_id (s : State) (c : Fin 208) : s.updTeam c (fun t => t) = s :=
  congrArg (fun v => ({ s with cores := v } : State)) (Vector.set_getElem_self c.isLt)

/-- Acts in flight one after the other: all of them join what the team has under way, and nothing else changes. -/
theorem State.foldl_actEffects (s : State) (w : List (UnitCode × Nat)) (acts : List (UnitCode × Nat × Act))
    (hl : ∀ a ∈ acts, a.2.1 ≠ 0) :
    (actEffects acts).foldl (fun t e => t.effect w e.1 e.2) s = s.updTeam s.issue.core (fun t => { t with
      pend := acts.foldl (fun l a => insertPend l (s.flight a.1 a.2.1 (bundleAct w s.issue.ctx.val a.1 a.2.2))) t.pend }) := by
  induction acts generalizing s with
  | nil => exact (State.updTeam_id s s.issue.core).symm
  | cons a r ih =>
    have ha : a.2.1 ≠ 0 := hl a (List.mem_cons_self ..)
    have hr : ∀ b ∈ r, b.2.1 ≠ 0 := fun b hb => hl b (List.mem_cons_of_mem _ hb)
    change (actEffects r).foldl (fun t e => t.effect w e.1 e.2) (s.effect w a.1 (.act a.2.1 a.2.2)) = _
    rw [State.effect_act _ _ _ _ _ ha, ih _ hr]
    exact State.updTeam_updTeam ..

/-- A bundle whose effects are acts puts all of them in flight, outside a loop and without a fault. -/
theorem State.close_together (s : State) (acts : List (UnitCode × Nat × Act)) (hf : s.issue.faults = [])
    (hl : s.ictx.activeLoop = none) (he : s.issue.effects = actEffects acts) (hlat : ∀ a ∈ acts, a.2.1 ≠ 0) :
    s.close = s.together acts := by
  have ht : swTrapOf s.issue.effects = none := by rw [he, swTrapOf_actEffects]
  rw [State.close_plain s hf hl ht, he, State.foldl_actEffects _ _ _ hlat, dataWrites_actEffects, State.begun_eq s .sy]
  rfl

/-- The last word of several, when none has failed: all their acts are in flight. -/
theorem gives_together {i : Instr} {s : State} {h : Head} {r : SlotRes} {acts : List (UnitCode × Nat × Act)}
    (hx : exec i s = .next (s.slot i h r)) (hs : s.issue.slots = []) (hsf : s.issue.faults = []) (hl : s.ictx.activeLoop = none)
    (hg : scalarForm i = true → s.ictx.guardBit h = true) (hf : r.faults = []) (htok : tokenFaults s.ictx i.refs = [])
    (hst : stallFaults s.cycle s.issue.seq s.issue.ctx s.ictx s.icore.team i.refs i.guardP r = [])
    (he : s.issue.effects ++ r.effects.map (fun e => (h.unit, e)) = actEffects acts) (hlat : ∀ a ∈ acts, a.2.1 ≠ 0) :
    s.gives i (s.together acts) := by
  refine ⟨{ s.issue with effects := actEffects acts }, hs, ?_⟩
  rw [hx, State.slot_last _ _ _ _ hs, State.addSlot_appends hg hf htok hst, he]
  exact congrArg Host.Outcome.next
    (State.close_together (s.withIssue { s.issue with effects := actEffects acts }) acts hsf hl rfl hlat)

/-! ## A bundle of a loop body -/

/-- The loop of a body bundle that commits: held in the loop buffer by its first pass, and counted (R80, R382). -/
def LoopState.after (l : LoopState) (s : State) (x : Ctx) : LoopState :=
  { l with
    held := if l.held.length ≤ l.pos then l.held ++ [(s.issue.baddr, s.issue.words)] else l.held
    prof := l.prof.count s.cycle x (issuedWords x s.issue.all) }

section
variable (s : State) (c : Fin 208) (k : Fin 4) (l : LoopState) (x : Ctx)

/-- Within a pass the next body bundle follows (R79). -/
theorem State.loopNext_within (h : l.pos + 1 < l.n) :
    s.loopNext c k l x = s.updCtx c k (fun y => { y with loop := some { l.after s x with pos := l.pos + 1 } }) :=
  if_pos h

/-- After the last body bundle another pass begins while one is left (R79). -/
theorem State.loopNext_again (h : l.n ≤ l.pos + 1) (h' : 1 < l.left) :
    s.loopNext c k l x = s.updCtx c k (fun y => { y with
      pc := l.base, loop := some { l.after s x with pos := 0, left := l.left - 1, first := false } }) :=
  (if_neg (Nat.not_lt.mpr h)).trans (if_pos h')

/-- After the last pass the loop is over and its counters are reported (R79, R382). -/
theorem State.loopNext_over (h : l.n ≤ l.pos + 1) (h' : l.left ≤ 1) :
    s.loopNext c k l x = (s.updCtx c k (fun y => { y with loop := none })).profRecord c k false (l.after s x).prof :=
  (if_neg (Nat.not_lt.mpr h)).trans (if_neg (Nat.not_lt.mpr h'))

theorem State.loopNext_issue : (s.loopNext c k l x).issue = s.issue := by
  rcases Nat.lt_or_ge (l.pos + 1) l.n with h | h
  · rw [State.loopNext_within s c k l x h]; rfl
  · rcases Nat.lt_or_ge 1 l.left with h' | h'
    · rw [State.loopNext_again s c k l x h h']; rfl
    · rw [State.loopNext_over s c k l x h h']
      unfold State.profRecord
      split <;> rfl

end

/-- A body bundle without effects: the PC moves on, and then the loop. -/
theorem State.close_body (s : State) (l : LoopState) (hf : s.issue.faults = []) (he : s.issue.effects = [])
    (hl : s.ictx.activeLoop = some l) (u : UnitCode) :
    s.close = (s.issued u []).loopNext s.issue.core s.issue.ctx l s.ictx := by
  rw [← State.begun_eq]
  unfold State.close
  rw [hf]
  simp only [lowestFault]
  unfold State.commit
  simp only [hl, he]
  rfl

/-- `NOP` as the last word of a body bundle that has done nothing else: the loop moves on. -/
theorem gives_nop_body {s : State} {w : YSWord} {l : LoopState} (hs : s.issue.slots = []) (he : s.issue.effects = [])
    (hf : s.issue.faults = []) (hl : s.ictx.activeLoop = some l)
    (hst : stallFaults s.cycle s.issue.seq s.issue.ctx s.ictx s.icore.team (Instr.nop w).refs (Instr.nop w).guardP {} = []) :
    s.gives (.nop w) ((s.issued w.hd.unit []).loopNext s.issue.core s.issue.ctx l s.ictx) := by
  have hx : exec (.nop w) s = .next (s.slot (.nop w) w.hd {}) := rfl
  have hc : s.slot (.nop w) w.hd {} = s.close := by
    rw [State.slot_last _ _ _ _ hs, State.addSlot_idle rfl hst, State.withIssue_self]
  have hi : (s.close).issue = s.issue := by
    rw [State.close_body s l hf he hl w.hd.unit, State.loopNext_issue]
    rfl
  refine ⟨s.issue, hs, ?_⟩
  rw [hx, hc, ← State.close_body s l hf he hl w.hd.unit, ← hi, State.withIssue_self]

/-- Settles O48: the record is all that a word changes before the last, whose acts join those of the words before it; the three
ways on of a loop are the three branches of R79. -/
theorem bundleCommitAndLoop : Obligations.BundleCommitAndLoop := by
  refine ⟨fun i s t => exec_more, fun i s h r acts _ => gives_together, fun s w l hs he hf hl hst => ?_⟩
  have hgives := gives_nop_body hs he hf hl hst
  refine ⟨fun h => ?_, fun h h' => ?_, fun h h' => ?_⟩
  · rwa [State.loopNext_within _ _ _ _ _ h] at hgives
  · rwa [State.loopNext_again _ _ _ _ _ h h'] at hgives
  · rwa [State.loopNext_over _ _ _ _ _ h h'] at hgives

end Sys2Proof.Machine

/-! The state outside the cores, reset and launch, predicates and control registers: O56, O53, O37, O38, O39, O24. -/

namespace Sys2Proof.Machine

/-! ## What no op word touches -/

/-- Settles O56: every op word is a slot of the bundle in progress, and a slot keeps the state outside. -/
theorem wordsLeaveDeviceState : Obligations.WordsLeaveDeviceState := by
  intro i s t hi hx
  obtain ⟨h, r, e⟩ := exec_slot i s hi
  obtain rfl : t = s.slot i h r := Host.Outcome.next.inj (hx.symm.trans e)
  have outer := (keeps_slot s i h r).1
  simp only [State.outer, Outer.mk.injEq] at outer
  exact outer

/-! ## Reset and launch -/

/-- Every core of the device at reset is a core at reset. -/
theorem State.reset_coreAt (c : Fin 208) : State.reset.coreAt c = Core.reset := Vector.getElem_replicate c.isLt

theorem State.reset_ctxAt (c : Fin 208) (k : Fin 4) : State.reset.ctxAt c k = Ctx.reset := by
  rw [State.ctxAt, State.reset_coreAt]
  exact Vector.getElem_replicate k.isLt

/-- Settles O53: at reset every memory is the empty list. -/
theorem resetMemoryCanonical : Obligations.ResetMemoryCanonical := by
  refine ⟨rfl, fun c => ?_, fun t ht => ?_⟩
  · rw [State.reset_coreAt]; rfl
  · exact absurd ht List.not_mem_nil

theorem Ctx.reset_sReg (r : Reg6) : Ctx.reset.sReg r = 0 := by
  unfold Ctx.sReg
  split
  · rfl
  · exact Vector.getElem_replicate r.isLt

theorem Ctx.reset_aReg (r : BitVec 4) : Ctx.reset.aReg r = 0 := Vector.getElem_replicate r.isLt

theorem Ctx.reset_pReg (r : BitVec 4) : Ctx.reset.pReg r = if r = 0 then BitVec.allOnes 512 else 0 := by
  unfold Ctx.pReg
  split
  · rfl
  · exact Vector.getElem_replicate r.isLt

theorem getD_replicate_self {α : Type} (n i : Nat) (x : α) : (Vector.replicate n x).toList.getD i x = x := by
  rw [Vector.toList_replicate]
  rcases Nat.lt_or_ge i n with h | h
  · exact List.getD_replicate _ h
  · exact List.getD_eq_default _ _ (by simpa using h)

theorem Ctx.reset_vReg (r : Nat) : Ctx.reset.vReg r = 0 := getD_replicate_self ..

theorem Ctx.reset_mapOf (r : Nat) : Ctx.reset.mapOf r = 0 := getD_replicate_self ..

/-- Settles O37: every entry of a table at reset is the entry it is filled with. -/
theorem resetValues : Obligations.ResetValues := by
  refine ⟨rfl, rfl, rfl, rfl, rfl, rfl, rfl, rfl, fun i => Vector.getElem_replicate i.isLt, fun i => Vector.getElem_replicate i.isLt,
    fun c => ?_⟩
  rw [State.reset_coreAt]
  refine ⟨rfl, rfl, rfl, rfl, fun k => ?_⟩
  rw [State.reset_ctxAt]
  exact ⟨Ctx.reset_sReg, Ctx.reset_aReg, Ctx.reset_pReg, Ctx.reset_vReg, Ctx.reset_mapOf, rfl, rfl, rfl, rfl, rfl, rfl, rfl, rfl, rfl,
    rfl, rfl, rfl, rfl, rfl, rfl, rfl, rfl, rfl⟩

theorem launchTeam_ctx (t : Task) (k : Fin 4) : (launchTeam t).ctxs.get k = launchCtx t k.val := by
  fin_cases k <;> rfl

/-- The scalar registers at launch (R33): s1, s2 and s3 are set, the others are zero. -/
theorem launchCtx_sReg (t : Task) (k : Nat) (r : Reg6) : (launchCtx t k).sReg r =
    if r = 1 then t.tcba.zeroExtend 64 else if r = 2 then BitVec.ofNat 64 k else if r = 3 then t.tcb.htab.zeroExtend 64 else 0 := by
  by_cases hr : r = 0 ∨ r = 1 ∨ r = 2 ∨ r = 3
  · rcases hr with rfl | rfl | rfl | rfl <;> rfl
  · have ne (n : Reg6) (hn : r ≠ n) : n.toNat ≠ r.toNat := fun e => hn (BitVec.eq_of_toNat_eq e.symm)
    obtain ⟨h0, h1, h2, h3⟩ : r ≠ 0 ∧ r ≠ 1 ∧ r ≠ 2 ∧ r ≠ 3 := by simpa only [not_or] using hr
    rw [if_neg h1, if_neg h2, if_neg h3, Ctx.sReg, if_neg h0]
    have n1 : 1 ≠ r.toNat := ne 1 h1
    have n2 : 2 ≠ r.toNat := ne 2 h2
    have n3 : 3 ≠ r.toNat := ne 3 h3
    change (((Vector.replicate 64 (0 : Word)).set 1 (t.tcba.zeroExtend 64)).set 2 (BitVec.ofNat 64 k) |>.set 3 (t.tcb.htab.zeroExtend 64))[r.toNat] = 0
    rw [Vector.getElem_set_ne _ _ n3, Vector.getElem_set_ne _ _ n2, Vector.getElem_set_ne _ _ n1, Vector.getElem_replicate]

/-- A launched context has what a reset leaves, but for its PC and its scalar registers. -/
theorem launchCtx_eq (t : Task) (k : Nat) :
    launchCtx t k = { Ctx.reset with pc := t.tcb.cbase + t.tcb.eoff.zeroExtend 56, s := (launchCtx t k).s } := rfl

/-- Settles O38: a launched context is one at reset, but for its PC and its scalar registers. -/
theorem launchState : Obligations.LaunchState := by
  intro t k
  dsimp only
  rw [launchTeam_ctx]
  exact ⟨rfl, launchCtx_sReg t k.val, Ctx.reset_aReg, Ctx.reset_pReg, Ctx.reset_vReg, Ctx.reset_mapOf, rfl, rfl, rfl, rfl, rfl, rfl, rfl,
    fun i => Vector.getElem_replicate i.isLt, rfl, rfl, rfl, rfl, rfl, rfl, rfl, rfl, rfl, rfl, rfl,
    fun b => Vector.getElem_replicate b.isLt⟩

/-! ## Predicates -/

theorem merge_getLsbD {n : Nat} (old x mask : BitVec n) (k : Nat) :
    (merge old x mask).getLsbD k = if mask.getLsbD k then x.getLsbD k else old.getLsbD k := by
  unfold merge
  by_cases hk : k < n
  · simp only [BitVec.getLsbD_or, BitVec.getLsbD_and, BitVec.getLsbD_not, hk]
    cases mask.getLsbD k <;> simp
  · simp only [BitVec.getLsbD_of_ge _ _ (Nat.le_of_not_lt hk), ite_self]

theorem Ctx.pReg_zero (x : Ctx) : x.pReg 0 = BitVec.allOnes 512 := rfl

/-- Bit `k` of a predicate register after a write of `r`: the new one under the mask, but for p0 (R14). -/
theorem Ctx.pReg_setP_getLsbD (x : Ctx) (r q : BitVec 4) (v m : PredBits) (k : Nat) :
    ((x.setP r v m).pReg q).getLsbD k = if q = r ∧ r ≠ 0 ∧ m.getLsbD k = true then v.getLsbD k else (x.pReg q).getLsbD k := by
  by_cases hq : q = r
  · subst hq
    rw [Ctx.pReg_setP]
    split
    · next h => rw [if_neg (fun e => e.2.1 h), h, Ctx.pReg_zero]
    · next h => simp only [merge_getLsbD, ne_eq, h, not_false_eq_true, true_and]
  · rw [Ctx.pReg_setP_ne x v m hq, if_neg (fun h => hq h.1)]

/-- Settles O39: the byte lane of an element is its first byte, and p0 is not stored. -/
theorem predicateRegisters : Obligations.PredicateRegisters := by
  refine ⟨fun p w i => ?_, fun x => ⟨fun k hk => ?_, fun v m => rfl⟩, fun x r q v m hr k _ => ?_⟩
  · unfold active
    rw [Nat.mul_div_cancel_left w (by decide)]
  · rw [Ctx.pReg_zero, BitVec.getLsbD_allOnes, decide_eq_true hk]
  · rw [Ctx.pReg_setP_getLsbD]
    simp only [ne_eq, hr, not_false_eq_true, true_and]

/-! ## Control registers -/

/-- `MFC` reads a control register as it stands in the issue cycle (R93). -/
theorem gives_mfc (s : State) (w : YSWord) (h : s.unhindered (.mfc w) w.hd {}) :
    s.gives (.mfc w) (s.issued w.hd.unit [(1, .setS w.d (s.creg s.issue.core s.issue.ctx (w.fn.toNat % 256)))]) :=
  State.gives_acts (s := s) (i := .mfc w) rfl h rfl [(1, _)] rfl (by simp [Act.mapless])

/-- A write of a control register that keeps its read-only bits takes effect at once (R93). -/
theorem gives_mtcRes {s : State} {i : Instr} {h : Head} {n : Nat} {x : Word} (hx : exec i s = .next (s.slot i h (s.mtcRes i n x)))
    (ho : x &&& cregRo n = s.creg s.issue.core s.issue.ctx n &&& cregRo n) (hr : s.unhindered i h {}) :
    s.gives i ((s.issued h.unit []).updSelf (fun y => y.setCreg n x)) := by
  have hres : s.mtcRes i n x = { effects := [.creg n x] } := by
    unfold State.mtcRes
    rw [ho]
    simp
  rw [hres] at hx
  refine State.gives_one [] [.creg n x] hx hr rfl rfl (by simp) (by simp [Effect.isPlain]) (fun w q hq => ?_)
  obtain ⟨hc, hk, _, _⟩ := hq
  simp only [List.map_cons, List.map_nil, List.foldl_cons, List.foldl_nil, State.effect, State.withIssue_issue, hc, hk]
  rfl

/-- The PC fields of the control registers hold bundle addresses: the three low bits are dropped (R28). -/
theorem bundleAddr_of_word (x : Word) : x.extractLsb' 0 56 &&& ~~~7 = x.extractLsb' 3 53 ++ (0#3) := by
  ext i hi
  rw [BitVec.getElem_append, BitVec.getElem_and, BitVec.getElem_not]
  by_cases h : i < 3
  · obtain rfl | rfl | rfl : i = 0 ∨ i = 1 ∨ i = 2 := by omega
    all_goals simp
  · have h7 : (7#56)[i] = false := by revert h; revert i; decide
    have h3 : 3 + (i - 3) = i := Nat.add_sub_cancel' (Nat.le_of_not_lt h)
    simp [h, h7, h3]

/-- Settles O24: `MFC` through what it reads, every `MTC` through the register that it writes. -/
theorem controlRegisterResults : Obligations.ControlRegisterResults := by
  intro s w
  dsimp only
  have reads (k : Nat) (v : Word) (hv : s.creg s.issue.core s.issue.ctx k = v) (hn : w.fn.toNat % 256 = k)
      (hr : s.unhindered (.mfc w) w.hd {}) : s.gives (.mfc w) (s.issued w.hd.unit [(1, .setS w.d v)]) := by
    subst hn hv
    exact gives_mfc s w hr
  refine ⟨reads _ _ rfl, reads _ _ rfl, reads _ _ rfl, reads _ _ rfl, reads _ _ rfl, reads _ _ rfl, reads _ _ rfl, reads _ _ rfl,
    reads _ _ rfl, reads _ _ rfl, reads _ _ rfl, gives_mtcRes rfl, gives_mtcRes rfl, gives_mtcRes rfl, fun hn ho hr => ?_, fun hn ho hr => ?_⟩
  · have := gives_mtcRes (s := s) (i := .mtc w) rfl (hn ▸ ho) hr
    rwa [hn] at this
  · have := gives_mtcRes (s := s) (i := .mtc w) rfl (hn ▸ ho) hr
    rw [hn] at this
    simpa only [Ctx.setCreg, bundleAddr_of_word] using this

end Sys2Proof.Machine

/-! Results that land in registers (R9, R10, R14, R19): the statements of O40 and O41. -/

namespace Sys2Proof.Machine

/-! ## One context changes -/

theorem State.updCore_congr (s : State) (c : Fin 208) {f g : Core → Core} (h : f (s.coreAt c) = g (s.coreAt c)) :
    s.updCore c f = s.updCore c g := congrArg (fun y => ({ s with cores := s.cores.set c y } : State)) h

theorem State.updTeam_congr (s : State) (c : Fin 208) {f g : Team → Team} (h : f (s.coreAt c).team = g (s.coreAt c).team) :
    s.updTeam c f = s.updTeam c g := State.updCore_congr s c (congrArg (fun t => { s.coreAt c with team := t }) h)

/-- A change of one context leaves memory, the other contexts and cores, and the rest of the team as they are. -/
theorem State.updCtx_frame (s : State) (c : Fin 208) (k : Fin 4) (f : Ctx → Ctx) :
    let t := s.updCtx c k f
    t.mem = s.mem ∧ (∀ d : Fin 208, d ≠ c → t.coreAt d = s.coreAt d) ∧ (∀ j : Fin 4, j ≠ k → t.ctxAt c j = s.ctxAt c j)
      ∧ (t.coreAt c).team.spad = (s.coreAt c).team.spad ∧ (t.coreAt c).team.acc = (s.coreAt c).team.acc
      ∧ (t.coreAt c).team.pend = (s.coreAt c).team.pend := by
  refine ⟨rfl, fun d h => State.coreAt_updCtx_ne s k f h, fun j h => State.ctxAt_updCtx_ne s c f h, ?_⟩
  rw [State.coreAt_updCtx]
  exact ⟨rfl, rfl, rfl⟩

theorem Ctx.setS_frame (c : Ctx) (r : Reg6) (x : Word) : c.setS r x = { c with s := (c.setS r x).s } := by
  unfold Ctx.setS; split <;> rfl

theorem Ctx.setP_frame (c : Ctx) (r : BitVec 4) (x m : PredBits) : c.setP r x m = { c with p := (c.setP r x m).p } := by
  unfold Ctx.setP; split <;> rfl

/-- What the scalar registers read as after a write of one (R9). -/
theorem Ctx.sReg_setS_eq (c : Ctx) (r q : Reg6) (x : Word) : (c.setS r x).sReg q = if q = r ∧ r ≠ 0 then x else c.sReg q := by
  by_cases hq : q = r
  · subst hq
    rw [Ctx.sReg_setS]
    by_cases h0 : q = 0
    · rw [if_pos h0, if_neg (fun h => h.2 h0), Ctx.sReg, if_pos h0]
    · rw [if_neg h0, if_pos ⟨rfl, h0⟩]
  · rw [Ctx.sReg_setS_ne c x hq, if_neg (fun h => hq h.1)]

/-- What the address registers read as after a write of one (R11). -/
theorem Ctx.aReg_setA_eq (c : Ctx) (r q : BitVec 4) (x : Word) : (c.setA r x).aReg q = if q = r then x else c.aReg q := by
  split
  · next h => rw [h, Ctx.aReg_setA]
  · next h => exact Ctx.aReg_setA_ne c x h

/-! ## The order of results -/

theorem Pend.before_iff (p q : Pend) :
    p.before q = true ↔ p.seq < q.seq ∨ (p.seq = q.seq ∧ p.unit.code.toNat ≤ q.unit.code.toNat) := by
  simp [Pend.before]

theorem Pend.before_trans {a b c : Pend} (h : a.before b = true) (g : b.before c = true) : a.before c = true := by
  rw [Pend.before_iff] at *
  omega

/-- Of two results one is not after the other. -/
theorem Pend.before_of_not {a b : Pend} (h : ¬ a.before b = true) : b.before a = true := by
  rw [Pend.before_iff] at *
  omega

theorem insertPend_perm (l : List Pend) (p : Pend) : (insertPend l p).Perm (p :: l) := by
  induction l with
  | nil => exact List.Perm.refl _
  | cons q r ih =>
    unfold insertPend
    split
    · exact (ih.cons q).trans (List.Perm.swap p q r)
    · exact List.Perm.refl _

/-- Work in flight stays in order of issue (R10). -/
theorem insertPend_sorted {l : List Pend} (p : Pend) (h : l.Pairwise (fun a b => a.before b = true)) :
    (insertPend l p).Pairwise (fun a b => a.before b = true) := by
  induction l with
  | nil => exact List.pairwise_singleton ..
  | cons q r ih =>
    obtain ⟨hq, hr⟩ := List.pairwise_cons.mp h
    unfold insertPend
    split
    · next hb =>
      refine List.pairwise_cons.mpr ⟨fun x hx => ?_, ih hr⟩
      rcases List.mem_cons.mp ((insertPend_perm r p).mem_iff.mp hx) with rfl | hx
      · exact hb
      · exact hq x hx
    · next hb =>
      have hp := Pend.before_of_not hb
      refine List.pairwise_cons.mpr ⟨fun x hx => ?_, h⟩
      rcases List.mem_cons.mp hx with rfl | hx
      · exact hp
      · exact Pend.before_trans hp (hq x hx)

/-- Two results in flight stand in order of issue, whichever came first. -/
theorem insertPend_two {p q : Pend} (h : p.before q = true) (g : ¬ q.before p = true) :
    insertPend [p] q = [p, q] ∧ insertPend [q] p = [p, q] := by
  constructor
  · rw [insertPend, if_pos h]; rfl
  · rw [insertPend, if_neg g]

/-- Two results of scalar registers that are due together land one after the other. -/
theorem State.landCore_two (s : State) (c : Fin 208) {p q : Pend} {r : Reg6} {x y : Word} (hp : p.act = .setS r x) (hq : q.act = .setS r y)
    (dp : p.due ≤ s.cycle) (dq : q.due ≤ s.cycle) (hs : (s.coreAt c).team.stopAt = none) (hl : (s.coreAt c).team.pend = [p, q]) :
    s.landCore (fun a => !a.isRead && !a.isRmw) c
      = ((s.updTeam c (fun t => { t with pend := [] })).updCtx c p.ctx (fun k => k.setS r x)).updCtx c q.ctx (fun k => k.setS r y) := by
  have due (u : Pend) (z : Word) (hu : u.act = .setS r z) (du : u.due ≤ s.cycle) :
      ((s.coreAt c).team.ready s.cycle u && (!u.act.isRead && !u.act.isRmw)) = true := by
    simp [Team.ready, du, hs, hu, Act.isRead, Act.isRmw]
  have kept : s.updTeam c (fun t => { t with pend := t.pend.filter (fun p => !(t.ready s.cycle p && (!p.act.isRead && !p.act.isRmw))) })
      = s.updTeam c (fun t => { t with pend := [] }) := by
    refine State.updTeam_congr s c ?_
    simp only [hl, List.filter_cons, due p x hp dp, due q y hq dq, Bool.not_true, Bool.false_eq_true, if_false, List.filter_nil]
  unfold State.landCore
  simp only [hl, List.filter_cons, due p x hp dp, due q y hq dq, if_true, List.filter_nil, List.cons_ne_nil, if_false, kept,
    List.foldl_cons, List.foldl_nil]
  unfold State.runAct
  simp only [hp, hq]

/-- Settles O40: a result is a change of one context; results are kept sorted, and landed in that order. -/
theorem registerLanding : Obligations.RegisterLanding := by
  refine ⟨fun s c p x => ⟨fun r h => ?_, fun r h => ?_, fun r v m h => ?_⟩, fun l p => ⟨insertPend_perm l p, insertPend_sorted p⟩, ?_⟩
  · have e : s.runAct c p = s.updCtx c p.ctx (fun k => k.setS r x) := by unfold State.runAct; rw [h]
    rw [e, State.ctxAt_updCtx]
    exact ⟨State.updCtx_frame .., Ctx.setS_frame .., fun q => Ctx.sReg_setS_eq ..⟩
  · have e : s.runAct c p = s.updCtx c p.ctx (fun k => k.setA r x) := by unfold State.runAct; rw [h]
    rw [e, State.ctxAt_updCtx]
    exact ⟨State.updCtx_frame .., rfl, fun q => Ctx.aReg_setA_eq ..⟩
  · have e : s.runAct c p = s.updCtx c p.ctx (fun k => k.setP r v m) := by unfold State.runAct; rw [h]
    rw [e, State.ctxAt_updCtx]
    exact ⟨State.updCtx_frame .., Ctx.setP_frame .., fun q k _ => Ctx.pReg_setP_getLsbD ..⟩
  · intro s c p q r x y hp hq hr hc dp dq ho hl hs
    have before : p.before q = true := by rw [Pend.before_iff]; omega
    have after : ¬ q.before p = true := by rw [Pend.before_iff]; omega
    obtain ⟨order, order'⟩ := insertPend_two before after
    have lands (a b : Pend) (h : insertPend [a] b = [p, q]) :
        (s.updTeam c (fun t => t.push a)).updTeam c (fun t => t.push b) = s.updTeam c (fun t => { t with pend := [p, q] }) := by
      rw [State.updTeam_updTeam]
      refine State.updTeam_congr s c ?_
      simp only [Team.push, hl, insertPend, ← h]
    have team : ((s.updTeam c (fun t => { t with pend := [p, q] })).coreAt c).team = { (s.coreAt c).team with pend := [p, q] } := by
      rw [State.coreAt_updTeam]
    have two := State.landCore_two (s.updTeam c (fun t => { t with pend := [p, q] })) c hp hq dp dq (by rw [team]; exact hs) (by rw [team])
    rw [State.updTeam_updTeam] at two
    dsimp only at two ⊢
    rw [lands p q order, lands q p order', two, hc]
    obtain ⟨_, _, _, _, _, pend⟩ := State.updCtx_frame
      ((s.updTeam c (fun t => { t with pend := [] })).updCtx c q.ctx (fun k => k.setS r x)) c q.ctx (fun k => k.setS r y)
    obtain ⟨_, _, _, _, _, pend'⟩ := State.updCtx_frame (s.updTeam c (fun t => { t with pend := [] })) c q.ctx (fun k => k.setS r x)
    refine ⟨?_, ?_, ?_⟩
    · rw [State.ctxAt_updCtx, Ctx.sReg_setS, if_neg hr]
    · rw [State.ctxAt_updCtx, Ctx.sReg_setS, if_neg hr]
    · rw [pend, pend', State.coreAt_updTeam]

/-! ## Vector registers, pins and maps (R19) -/

theorem mapNames_none (c r : Nat) : mapNames 0 c r = false := by
  have none_listed : ¬ isListed 0 = true := by simp [isListed, mapKind]
  unfold mapNames mapCars
  rw [if_neg none_listed]
  rfl

/-- A map that names a register whose data is written becomes NONE, which names no register. -/
theorem mapNames_unnamed (m : MapBits) (k r : Nat) : mapNames (unnamed m k r) k r = false := by
  unfold unnamed
  split
  · exact mapNames_none k r
  · next h => exact Bool.eq_false_iff.mpr h

theorem getD_setAt {α : Type} {n : Nat} (v : Vector α n) (i : Nat) (h : i < n) (f : α → α) (d : α) :
    (setAt v i f).toList.getD i d = f (v.toList.getD i d) := by
  simp [setAt, h, Vector.get]

theorem getD_setAt_ne {α : Type} {n : Nat} (v : Vector α n) (i q : Nat) (f : α → α) (d : α) (e : q ≠ i) :
    (setAt v i f).toList.getD q d = v.toList.getD q d := by
  unfold setAt
  split
  · simp [Vector.getElem?_set_ne, Ne.symm e]
  · rfl

theorem getLsbD_two_pow (n r q : Nat) : (BitVec.ofNat n (2 ^ r)).getLsbD q = (decide (q < n) && decide (q = r)) := by
  rw [BitVec.getLsbD_ofNat, Nat.testBit_two_pow]
  simp only [eq_comm (a := r)]

/-- Data written to a register whose pin bit is clear changes nothing else. -/
theorem Team.dataWritten_unpinned {t : Team} {k : Fin 4} {r : Nat} (h : (t.ctxs.get k).pins.getLsbD r = false) : t.dataWritten k r = t := by
  unfold Team.dataWritten
  rw [h]
  rfl

/-- Register `r` of context `k` is no carrier any more (R19). -/
def Ctx.unpin (c : Ctx) (k r : Nat) : Ctx :=
  { c with pins := c.pins &&& ~~~(BitVec.ofNat 56 (2 ^ r)), maps := c.maps.map (fun m => unnamed m k r) }

/-- Data written to a pinned register: its pin bit clears, and every map that names it is NONE. -/
theorem Team.dataWritten_pinned {t : Team} {k : Fin 4} {r : Nat} (h : (t.ctxs.get k).pins.getLsbD r = true) :
    t.dataWritten k r = { t with
      ctxs := (t.updCtx k (fun c => c.unpin k.val r)).ctxs, tileMaps := t.tileMaps.map (fun m => unnamed m k.val r) } := if_pos h

theorem Ctx.unpin_pins (c : Ctx) (k r q : Nat) :
    (c.unpin k r).pins.getLsbD q = (c.pins.getLsbD q && q != r) := by
  unfold Ctx.unpin
  rcases Nat.lt_or_ge q 56 with hq | hq
  · simp only [BitVec.getLsbD_and, BitVec.getLsbD_not, getLsbD_two_pow, hq, decide_true, Bool.true_and]
    rfl
  · simp only [BitVec.getLsbD_of_ge _ _ hq, Bool.false_and]

/-- Only pins and maps of the writing context change. -/
theorem Team.dataWritten_ctx (t : Team) (k : Fin 4) (r : Nat) : ∃ pins maps,
    (t.dataWritten k r).ctxs.get k = { t.ctxs.get k with pins, maps }
      ∧ ∀ q, pins.getLsbD q = ((t.ctxs.get k).pins.getLsbD q && q != r) := by
  cases h : (t.ctxs.get k).pins.getLsbD r with
  | false =>
    rw [Team.dataWritten_unpinned h]
    refine ⟨(t.ctxs.get k).pins, (t.ctxs.get k).maps, rfl, fun q => ?_⟩
    by_cases e : q = r
    · rw [e, h]; rfl
    · rw [bne_iff_ne.mpr e, Bool.and_true]
  | true =>
    rw [Team.dataWritten_pinned h, Team.get_updCtx]
    exact ⟨_, _, rfl, Ctx.unpin_pins _ k.val _⟩

theorem Team.dataWritten_frame (t : Team) (k : Fin 4) (r : Nat) : (t.dataWritten k r).spad = t.spad ∧ (t.dataWritten k r).acc = t.acc
    ∧ ∀ j, j ≠ k → (t.dataWritten k r).ctxs.get j = t.ctxs.get j := by
  cases h : (t.ctxs.get k).pins.getLsbD r with
  | false => rw [Team.dataWritten_unpinned h]; exact ⟨rfl, rfl, fun _ _ => rfl⟩
  | true =>
    rw [Team.dataWritten_pinned h]
    exact ⟨rfl, rfl, fun j hj => Team.get_updCtx_ne t (fun c => c.unpin k.val r) hj⟩

/-- One carrier of an installed map is pinned (R19). -/
def Team.pinCarrier (m : MapBits) (t : Team) (i : Nat) : Team :=
  if h : mapCctx m i < 4 then
    t.updCtx ⟨mapCctx m i, h⟩ (fun c => { c with pins := c.pins ||| BitVec.ofNat 56 (2 ^ mapCreg m i) })
  else t

theorem Team.pinCarriers_eq (t : Team) (m : MapBits) : t.pinCarriers m = (mapCars m).foldl (Team.pinCarrier m) t := rfl

theorem Team.pinCarrier_ctx (m : MapBits) (t : Team) (i : Nat) (j : Fin 4) : (t.pinCarrier m i).ctxs.get j = { t.ctxs.get j with
    pins := (t.ctxs.get j).pins ||| (if mapCctx m i = j.val then BitVec.ofNat 56 (2 ^ mapCreg m i) else 0#56) } := by
  unfold Team.pinCarrier
  by_cases e : mapCctx m i = j.val
  · have hj : (⟨mapCctx m i, e ▸ j.isLt⟩ : Fin 4) = j := Fin.ext e
    rw [dif_pos (e ▸ j.isLt), hj, Team.get_updCtx, if_pos e]
  · rw [if_neg e, BitVec.or_zero]
    split
    · exact Team.get_updCtx_ne t _ (fun h => e (congrArg Fin.val h).symm)
    · rfl

/-- The carriers that a list names are pinned, and pins are all that changes. -/
theorem Team.foldl_pinCarrier_ctx (m : MapBits) (l : List Nat) (t : Team) (j : Fin 4) : ∃ pins,
    (l.foldl (Team.pinCarrier m) t).ctxs.get j = { t.ctxs.get j with pins := (t.ctxs.get j).pins ||| pins }
      ∧ ∀ i ∈ l, mapCctx m i = j.val → mapCreg m i < 56 → pins.getLsbD (mapCreg m i) = true := by
  induction l generalizing t with
  | nil => exact ⟨0#56, by rw [BitVec.or_zero]; rfl, fun i hi => absurd hi List.not_mem_nil⟩
  | cons i l ih =>
    obtain ⟨pins, e, named⟩ := ih (t.pinCarrier m i)
    rw [Team.pinCarrier_ctx] at e
    refine ⟨_, e.trans (by rw [BitVec.or_assoc]), fun i' hi hj hr => ?_⟩
    rw [BitVec.getLsbD_or]
    rcases List.mem_cons.mp hi with rfl | hi
    · rw [if_pos hj, getLsbD_two_pow, decide_eq_true hr, decide_eq_true rfl]; rfl
    · rw [named i' hi hj hr, Bool.or_true]

/-- A data write of a register alone. -/
theorem Team.setV_data (t : Team) (k : Fin 4) (r : Nat) (x m : VecBits) : t.setV k r x m none true =
    (t.dataWritten k r).updCtx k (fun c => { c with v := setAt c.v r (fun old => merge old x m) }) := rfl

/-- A map installed alone. -/
theorem Team.setV_map (t : Team) (k : Fin 4) (r : Nat) (x m : VecBits) (n : MapBits) : t.setV k r x m (some n) false =
    (t.updCtx k (fun c => { c with maps := setAt c.maps r (fun _ => n) })).pinCarriers n := rfl

/-- Settles O41: a data write is `dataWritten`, which clears the pin and unnames the register, and then the masked data. -/
theorem vectorRegisterLanding : Obligations.VectorRegisterLanding := by
  intro t k r x m hr
  obtain ⟨pins, maps, ctx, hpins⟩ := t.dataWritten_ctx k r
  obtain ⟨spad, acc, ctxs⟩ := t.dataWritten_frame k r
  have hz : (t.setV k r x m none true).ctxs.get k = { t.ctxs.get k with pins, maps, v := setAt (t.ctxs.get k).v r (fun old => merge old x m) } := by
    rw [Team.setV_data, Team.get_updCtx, ctx]
  refine ⟨fun i _ => ?_, fun q hq => ?_, ?_, fun q hq => ?_, ?_, ?_, ?_, fun j hj => ?_, spad, acc, fun hp => ⟨fun q => ?_, fun q => ?_⟩,
    fun hp => ⟨?_, ?_⟩, fun n => ?_⟩
  · rw [hz, Ctx.vReg, getD_setAt _ _ hr, merge_getLsbD]; rfl
  · rw [hz]; exact getD_setAt_ne _ _ _ _ _ hq
  · rw [hz, hpins]; simp
  · rw [hz, hpins]; simp [hq]
  · rw [hz]
  · rw [hz]
  · rw [hz]
  · rw [Team.setV_data, Team.get_updCtx_ne _ _ hj, ctxs j hj]
  · have named : ((t.dataWritten k r).ctxs.get k).maps.get q = unnamed ((t.ctxs.get k).maps.get q) k.val r := by
      rw [Team.dataWritten_pinned hp, Team.get_updCtx]
      exact Vector.getElem_map ..
    rw [Team.setV_data, Team.get_updCtx, named]
    exact mapNames_unnamed ..
  · have named : (t.dataWritten k r).tileMaps.get q = unnamed (t.tileMaps.get q) k.val r := by
      rw [Team.dataWritten_pinned hp]
      exact Vector.getElem_map ..
    exact (congrArg (mapNames · k.val r) named).trans (mapNames_unnamed ..)
  · rw [Team.setV_data, Team.dataWritten_unpinned hp, Team.get_updCtx]
  · rw [Team.setV_data, Team.dataWritten_unpinned hp]; rfl
  · dsimp only
    rw [Team.setV_map, Team.pinCarriers_eq]
    have pinned (j : Fin 4) := Team.foldl_pinCarrier_ctx n (mapCars n) (t.updCtx k (fun c => { c with maps := setAt c.maps r (fun _ => n) })) j
    obtain ⟨_, e, _⟩ := pinned k
    rw [e, Team.get_updCtx]
    refine ⟨getD_setAt _ _ hr _ _, rfl, fun i hi j hj hc => ?_⟩
    obtain ⟨_, e, named⟩ := pinned j
    rw [e, BitVec.getLsbD_or, named i hi hj hc, Bool.or_true]

end Sys2Proof.Machine

/-! The frame of the words that put results in flight (R10, R39, R40, R74, R141, R167, R343): the statement of O43. -/

namespace Sys2Proof.Machine

/-! ## The effects of a word that puts results in flight -/

/-- The units whose words put results in flight. -/
def flowsUnit : UnitCode → Bool
  | .s0 | .s1 | .ld | .st | .v0 | .v1 | .v2 | .sf => true
  | _ => false

def isPatswap : Instr → Bool
  | .patswap _ => true
  | _ => false

def isLdVQ : Instr → Bool
  | .ldVQ _ => true
  | _ => false

/-- An effect that such a word may have: an act in flight, a record, the gather unit held; `PATSWAP` exchanges the banks (R141),
and `LD.VQ` pops the operand queue and reports offsets (R167). -/
def mayHave (i : Instr) : Effect → Bool
  | .act lat _ => lat != 0
  | .record _ _ _ => true
  | .gatherBusy _ => true
  | .patswap => isPatswap i
  | .popOffsets _ => isLdVQ i
  | .badOffsets _ => isLdVQ i
  | _ => false

theorem mayHave_act (i : Instr) (lat : Nat) (a : Act) : mayHave i (.act lat a) = (lat != 0) := rfl

theorem State.excFx_mayHave (s : State) (u : UnitCode) (es : List Exc) (i : Instr) : (s.excFx u es).all (mayHave i) = true := by
  unfold State.excFx
  dsimp only
  split <;> rfl

theorem postFx_mayHave (c : Ctx) (w : MWord) (n : Int) (i : Instr) : (postFx c w n).all (mayHave i) = true := by
  unfold postFx
  split <;> rfl

theorem postInc_mayHave (c : Ctx) (w : MWord) (i : Instr) : (postInc c w).all (mayHave i) = true := postFx_mayHave ..

theorem State.vecAct_mayHave (s : State) (w : RWord) (lat b d : Nat) (map : Option MapBits) (x : VecBits) (i : Instr) :
    mayHave i (s.vecAct w lat b d map x) = (lat != 0) := rfl

theorem State.vecRes_mayHave (s : State) (w : RWord) (lat b : Nat) (srcs : List Reg6) (map : Option MapBits) (x : VecBits) (i : Instr) :
    (s.vecRes w lat b srcs map x).effects.all (mayHave i) = (lat != 0) := Bool.and_true _

theorem State.floatRes_mayHave (s : State) (w : RWord) (v : FVal × Exc) (i : Instr) : (s.floatRes w v).effects.all (mayHave i) = true :=
  State.excFx_mayHave s _ _ i

theorem State.vfloatRes_mayHave (s : State) (w : RWord) (lat : Nat) (srcs : List Reg6) (map : Option MapBits) (l : List (Nat × Exc))
    (i : Instr) : (s.vfloatRes w lat srcs map l).effects.all (mayHave i) = (lat != 0) := by
  unfold State.vfloatRes
  simp only [List.all_append, State.vecRes_mayHave, State.excFx_mayHave, Bool.and_true]

theorem State.vred_mayHave (s : State) (w : RWord) (o : RedOp) (i : Instr) : (s.vred w o).effects.all (mayHave i) = true := by
  unfold State.vred
  simp only [List.all_append, State.vecRes_mayHave, State.excFx_mayHave, Bool.and_true]
  rfl

theorem State.vpred_mayHave (s : State) (w : RWord) (lat b : Nat) (srcs : List Reg6) (f : Nat → Bool) (extra : List Effect) (i : Instr) :
    (s.vpred w lat b srcs f extra).effects.all (mayHave i) = (lat != 0 && extra.all (mayHave i)) := rfl

theorem State.resize_mayHave (s : State) (w : RWord) (lat ws wd : Nat) (keep : Bool) (conv : MapBits → Nat → Nat → Nat × Exc) (i : Instr)
    (h : lat ≠ 0) : (s.resize w lat ws wd keep conv).effects.all (mayHave i) = true := by
  unfold State.resize
  simp only [List.all_append, List.all_map, State.excFx_mayHave, Bool.and_true]
  exact List.all_eq_true.mpr (fun p _ => bne_iff_ne.mpr h)

theorem State.sf_mayHave (s : State) (w : RWord) (fs : List (Nat × (Nat → SfResult))) (i : Instr) : (s.sf w fs).effects.all (mayHave i) = true := by
  unfold State.sf
  simp only [List.all_append, List.all_map, State.excFx_mayHave, Bool.and_true]
  exact List.all_eq_true.mpr (fun p _ => rfl)

theorem State.floatPick_mayHave (s : State) (w : RWord) (v : FVal × Exc) (i : Instr) :
    (s.floatPick w v).effects.all (mayHave i) = true := State.excFx_mayHave s _ _ i

theorem State.sf1_mayHave (s : State) (w : RWord) (f : Nat → SfResult) (i : Instr) : (s.sf1 w f).effects.all (mayHave i) = true :=
  State.sf_mayHave ..

theorem State.vfloat_mayHave (s : State) (w : RWord) (srcs : List Reg6) (f : List FVal → FVal × Exc) (i : Instr) :
    (s.vfloat w srcs f).effects.all (mayHave i) = true := State.vfloatRes_mayHave ..

theorem State.vfpick_mayHave (s : State) (w : RWord) (b : Bool) (i : Instr) : (s.vfpick w b).effects.all (mayHave i) = true :=
  State.vfloatRes_mayHave ..

theorem State.accRes_mayHave (s : State) (w : RWord) (es : List Effect) (i : Instr) :
    (s.accRes w es).effects.all (mayHave i) = es.all (mayHave i) := rfl

theorem State.accWrite_mayHave (s : State) (w : RWord) (x : VecBits) (i : Instr) : mayHave i (s.accWrite w x) = true := rfl

theorem State.amoRes_mayHave (s : State) (w : MWord) (op : BitVec 3) (i : Instr) : (s.amoRes w op).effects.all (mayHave i) = true :=
  postInc_mayHave ..

theorem acts_mayHave {α : Type} (l : List α) (lat : α → Nat) (a : α → Act) (i : Instr) (h : ∀ x, lat x ≠ 0) :
    (l.map (fun x => Effect.act (lat x) (a x))).all (mayHave i) = true := by
  rw [List.all_map]
  exact List.all_eq_true.mpr (fun x _ => bne_iff_ne.mpr (h x))

/-- An op word is a slot with its own head. -/
theorem exec_slot_head {i : Instr} {h : Head} (s : State) (hh : i.head = some h) : ∃ r, exec i s = .next (s.slot i h r) := by
  cases i <;> first | (cases hh; exact ⟨_, rfl⟩) | cases hh

/-- What a word of these units answers: a slot with its head, and effects that it may have. -/
def Flows (i : Instr) (h : Head) (s : State) : Prop := ∃ r, exec i s = .next (s.slot i h r) ∧ r.effects.all (mayHave i) = true

theorem flows_ldVG (w : MWord) (s : State) : Flows (.ldVG w) w.hd s := by
  refine ⟨_, rfl, ?_⟩
  simp only [List.all_append, List.all_cons, ↓mayHave_act, postInc_mayHave]
  rfl

theorem flows_ldVQ (w : MWord) (s : State) : Flows (.ldVQ w) w.hd s := by
  refine ⟨_, rfl, ?_⟩
  simp only [List.all_append, List.all_cons, ↓mayHave_act, postInc_mayHave]
  split <;> rfl

theorem flows_ldt (w : MWord) (s : State) : Flows (.ldt w) w.hd s := by
  refine ⟨_, rfl, ?_⟩
  split <;> exact postInc_mayHave ..

theorem flows_stVS (w : MWord) (s : State) : Flows (.stVS w) w.hd s := by
  refine ⟨_, rfl, ?_⟩
  rw [List.all_append, List.all_append, postInc_mayHave, acts_mayHave _ _ _ _ (fun x => by omega)]
  rfl

theorem flows_stVC (w : MWord) (s : State) : Flows (.stVC w) w.hd s := by
  refine ⟨_, rfl, ?_⟩
  rw [List.all_cons, mayHave_act]
  split
  · rfl
  · exact postFx_mayHave ..

theorem flows_vcompact (w : RWord) (s : State) : Flows (.vcompact w) w.hd s := by
  refine ⟨_, rfl, ?_⟩
  rw [List.all_append]
  refine Bool.and_eq_true_iff.mpr ⟨?_, rfl⟩
  split <;> rfl

/-- A word of these units is a slot whose effects are those that it may have. -/
theorem exec_flows {i : Instr} {h : Head} (s : State) (hh : i.head = some h) (hu : i.unitOk = true) (hf : flowsUnit h.unit = true) :
    Flows i h s := by
  cases i with
  | ldVG w => exact Option.some.inj hh ▸ flows_ldVG w s
  | ldVQ w => exact Option.some.inj hh ▸ flows_ldVQ w s
  | ldt w => exact Option.some.inj hh ▸ flows_ldt w s
  | stVS w => exact Option.some.inj hh ▸ flows_stVS w s
  | stVC w => exact Option.some.inj hh ▸ flows_stVC w s
  | vcompact w => exact Option.some.inj hh ▸ flows_vcompact w s
  | _ =>
    cases hh <;> first
      | exact ⟨_, rfl, rfl⟩
      | (rw [beq_iff_eq.mp hu] at hf; exact absurd hf Bool.false_ne_true)
      | (refine ⟨_, rfl, ?_⟩
         simp only [State.excFx_mayHave, postInc_mayHave, State.vecRes_mayHave, State.floatRes_mayHave, State.floatPick_mayHave,
           State.vfloat_mayHave, State.vfpick_mayHave, State.vred_mayHave, State.vpred_mayHave,
           State.resize_mayHave, State.sf_mayHave, State.sf1_mayHave, State.amoRes_mayHave, State.accRes_mayHave,
           State.accWrite_mayHave, List.all_append, List.all_cons, ↓mayHave_act, bne_iff_ne, ne_eq, Bool.and_true,
           OfNat.ofNat_ne_zero, one_ne_zero, not_false_eq_true])

/-! ## The frame of an issue -/

/-- A context without what an issue or a trap may change: where it goes on, its loop, and its trap registers. -/
def Ctx.still (x : Ctx) : Ctx :=
  { x with pc := 0, loop := none, hnd := false, te := false, tcause := 0, tpc := 0, tval := 0, tmask := 0, earliest := 0
           preread := none, blockedSince := none, blockedOn := [], brkPass := false }

/-- A team without what an issue or a trap may change: its contexts' part, the work in flight, reservations, the active bank of the
pattern memory, the operand queue and the commands. -/
def Team.still (t : Team) : Team :=
  { t with ctxs := t.ctxs.map Ctx.still, pend := [], accRes := [], gatherFree := 0, patActive := false, opq := [], cmds := [] }

/-- What word `i` may change of a team: of the contexts only `own`; the commands only when a task fails. -/
structure TeamFrame (i : Instr) (fails : Prop) (own : Fin 4 → Prop) (x y : Team) : Prop where
  still : y.still = x.still
  ctxs : ∀ k, ¬ own k → y.ctxs.get k = x.ctxs.get k
  patActive : isPatswap i = false → y.patActive = x.patActive
  opq : isLdVQ i = false → y.opq = x.opq
  cmds : isLdVQ i = false → ¬ fails → y.cmds = x.cmds

theorem TeamFrame.same (i : Instr) (fails : Prop) (own : Fin 4 → Prop) (x : Team) : TeamFrame i fails own x x :=
  ⟨rfl, fun _ _ => rfl, fun _ => rfl, fun _ => rfl, fun _ _ => rfl⟩

theorem TeamFrame.trans {i : Instr} {fails : Prop} {own : Fin 4 → Prop} {x y z : Team} (h : TeamFrame i fails own x y)
    (g : TeamFrame i fails own y z) : TeamFrame i fails own x z :=
  ⟨g.still.trans h.still, fun k hk => (g.ctxs k hk).trans (h.ctxs k hk), fun hp => (g.patActive hp).trans (h.patActive hp),
    fun ho => (g.opq ho).trans (h.opq ho), fun hc hf => (g.cmds hc hf).trans (h.cmds hc hf)⟩

theorem TeamFrame.updCtx (i : Instr) (fails : Prop) {own : Fin 4 → Prop} (x : Team) (k : Fin 4) (f : Ctx → Ctx) (ho : own k)
    (hf : ∀ c, (f c).still = c.still) : TeamFrame i fails own x (x.updCtx k f) := by
  refine ⟨?_, fun j hj => Team.get_updCtx_ne x f (fun e => hj (e ▸ ho)), fun _ => rfl, fun _ => rfl, fun _ _ => rfl⟩
  have e : (x.ctxs.set k.val (f (x.ctxs.get k)) k.isLt).map Ctx.still = x.ctxs.map Ctx.still := by
    rw [Vector.map_set, hf]
    exact Vector.ext (fun j hj => by
      by_cases h : k.val = j
      · subst h
        rw [Vector.getElem_set_self, Vector.getElem_map]
        rfl
      · rw [Vector.getElem_set_ne _ _ h])
  unfold Team.still Team.updCtx
  rw [e]

/-- What word `i` of context `k₀` on core `c₀` may change of the device. -/
structure IssueFrame (i : Instr) (fails : Prop) (c₀ : Fin 208) (k₀ : Fin 4) (s t : State) : Prop where
  mem : t.mem = s.mem
  poison : t.poison = s.poison
  team : ∀ c, TeamFrame i fails (fun k => c = c₀ ∧ k = k₀) (s.coreAt c).team (t.coreAt c).team

section
variable {i : Instr} {fails : Prop} {c₀ : Fin 208} {k₀ : Fin 4}

theorem IssueFrame.cores {s t : State} (hm : t.mem = s.mem) (hp : t.poison = s.poison) (hc : t.cores = s.cores) :
    IssueFrame i fails c₀ k₀ s t := by
  refine ⟨hm, hp, fun c => ?_⟩
  have e : t.coreAt c = s.coreAt c := congrArg (fun v : Vector Core 208 => v.get c) hc
  rw [e]
  exact TeamFrame.same ..

theorem IssueFrame.same (s : State) : IssueFrame i fails c₀ k₀ s s := IssueFrame.cores rfl rfl rfl

theorem IssueFrame.trans {s t u : State} (h : IssueFrame i fails c₀ k₀ s t) (g : IssueFrame i fails c₀ k₀ t u) :
    IssueFrame i fails c₀ k₀ s u :=
  ⟨g.mem.trans h.mem, g.poison.trans h.poison, fun c => (h.team c).trans (g.team c)⟩

theorem IssueFrame.foldl {α : Type} (f : State → α → State) (l : List α) (hf : ∀ s, ∀ a ∈ l, IssueFrame i fails c₀ k₀ s (f s a)) (s : State) :
    IssueFrame i fails c₀ k₀ s (l.foldl f s) := by
  induction l generalizing s with
  | nil => exact IssueFrame.same s
  | cons a l ih =>
    exact (hf s a (List.mem_cons_self ..)).trans (ih (fun s b hb => hf s b (List.mem_cons_of_mem _ hb)) (f s a))

theorem IssueFrame.updCore (s : State) (c : Fin 208) (f : Core → Core)
    (hf : TeamFrame i fails (fun k => c = c₀ ∧ k = k₀) (s.coreAt c).team (f (s.coreAt c)).team) : IssueFrame i fails c₀ k₀ s (s.updCore c f) := by
  refine ⟨rfl, rfl, fun d => ?_⟩
  by_cases e : d = c
  · subst e
    rw [State.coreAt_updCore]
    exact hf
  · rw [State.coreAt_updCore_ne s f e]
    exact TeamFrame.same ..

theorem IssueFrame.updTeam (s : State) (c : Fin 208) (f : Team → Team)
    (hf : TeamFrame i fails (fun k => c = c₀ ∧ k = k₀) (s.coreAt c).team (f (s.coreAt c).team)) : IssueFrame i fails c₀ k₀ s (s.updTeam c f) :=
  IssueFrame.updCore s c _ hf

theorem IssueFrame.updCtx (s : State) (f : Ctx → Ctx) (hf : ∀ x, (f x).still = x.still) : IssueFrame i fails c₀ k₀ s (s.updCtx c₀ k₀ f) :=
  IssueFrame.updTeam s c₀ _ (TeamFrame.updCtx i fails _ k₀ f ⟨rfl, rfl⟩ hf)

/-- The commands of a failing task end; nothing else of a core's team changes (R355). -/
theorem IssueFrame.failTask (s : State) (id : Nat) (f : Failure) (hf : fails) : IssueFrame i fails c₀ k₀ s (s.failTask id f) := by
  have gone (u : State) (l : List (Fin 200)) : IssueFrame i fails c₀ k₀ u (l.foldl (fun s c => s.updCore (computeCore c) (fun x =>
      { x with stopped := true, request := none, holdIssue := false, team := { x.team with cmds := x.team.cmds.map failCmd } })) u) :=
    IssueFrame.foldl _ l (fun s c _ => IssueFrame.updCore s _ _
      ⟨rfl, fun _ _ => rfl, fun _ => rfl, fun _ => rfl, fun _ h => absurd hf h⟩) u
  unfold State.failTask
  split
  · exact IssueFrame.same s
  · next t _ =>
    split
    · exact IssueFrame.same s
    · dsimp only
      split
      · refine IssueFrame.trans ?_ (gone _ _)
        exact IssueFrame.cores rfl rfl rfl
      · refine IssueFrame.trans (IssueFrame.trans ?_ (gone _ _)) (IssueFrame.foldl _ _ (fun s p _ => ?_) _)
        · exact IssueFrame.cores rfl rfl rfl
        · split
          · exact IssueFrame.same s
          · exact IssueFrame.cores rfl rfl rfl

/-- A trap changes the context's trap registers, or its task fails (R90, R345). -/
theorem IssueFrame.takeTrap (s : State) (e : Cause) (pc : BitVec 56) (v : Word) (m : BitVec 11)
    (hf : ¬ ((s.ctxAt c₀ k₀).te = true ∧ (s.ctxAt c₀ k₀).tvec ≠ 0) → fails) : IssueFrame i fails c₀ k₀ s (s.takeTrap c₀ k₀ e pc v m) := by
  unfold State.takeTrap
  dsimp only
  split
  · exact IssueFrame.updCtx s _ (fun _ => rfl)
  · next h =>
    have failed := hf (fun x => h (Bool.and_eq_true_iff.mpr ⟨x.1, bne_iff_ne.mpr x.2⟩))
    split
    · refine IssueFrame.trans ?_ (IssueFrame.failTask _ _ _ failed)
      exact IssueFrame.cores rfl rfl rfl
    · refine IssueFrame.trans (t := s.record c₀ Cause.doubleFault.code 0 pc
        (BitVec.ofNat 64 (e.code.toNat + (s.ctxAt c₀ k₀).tcause.toNat * 256)) []) (IssueFrame.cores rfl rfl rfl) ?_
      exact IssueFrame.updCore _ _ _ (TeamFrame.same ..)

/-- What the issue of a bundle changes by itself. -/
theorem IssueFrame.begun (s : State) : IssueFrame i fails s.issue.core s.issue.ctx s s.begun := by
  unfold State.begun
  refine IssueFrame.trans (IssueFrame.trans (IssueFrame.updCtx s (fun x => { x with
    pc := s.issue.next, earliest := s.cycle + 1 + s.issue.stall, blockedSince := none, blockedOn := [], preread := none
    brkPass := false }) (fun _ => rfl)) ?_) (IssueFrame.updTeam _ _ _ ?_)
  · exact IssueFrame.updCore _ _ _ (TeamFrame.same ..)
  · exact ⟨rfl, fun _ _ => rfl, fun _ => rfl, fun _ => rfl, fun _ _ => rfl⟩

/-- Only `PATSWAP` and `LD.VQ` change more than the work in flight. -/
theorem IssueFrame.effect (s : State) (w : List (UnitCode × Nat)) (u : UnitCode) (e : Effect) (he : mayHave i e = true) :
    IssueFrame i fails c₀ k₀ s (s.effect w u e) := by
  have off (b : Bool) (hb : b = true) (h : b = false) : False := Bool.false_ne_true (h.symm.trans hb)
  cases e with
  | act lat a =>
    rw [State.effect_act _ _ _ _ _ (bne_iff_ne.mp he)]
    refine IssueFrame.updTeam _ _ _ ?_
    exact ⟨rfl, fun _ _ => rfl, fun _ => rfl, fun _ => rfl, fun _ _ => rfl⟩
  | record kind aux v => exact IssueFrame.cores rfl rfl rfl
  | gatherBusy n =>
    refine IssueFrame.updTeam s s.issue.core (fun t => { t with gatherFree := n }) ?_
    exact ⟨rfl, fun _ _ => rfl, fun _ => rfl, fun _ => rfl, fun _ _ => rfl⟩
  | patswap =>
    refine IssueFrame.updTeam s s.issue.core (fun t => { t with patActive := !t.patActive }) ?_
    exact ⟨rfl, fun _ _ => rfl, fun h => (off _ he h).elim, fun _ => rfl, fun _ _ => rfl⟩
  | popOffsets n =>
    refine IssueFrame.updTeam s s.issue.core (fun t => { t with opq := t.opq.drop n }) ?_
    exact ⟨rfl, fun _ _ => rfl, fun _ => rfl, fun h => (off _ he h).elim, fun _ _ => rfl⟩
  | badOffsets n =>
    refine IssueFrame.updTeam s s.issue.core (fun t => { t with cmds := t.cmds.map _ }) ?_
    exact ⟨rfl, fun _ _ => rfl, fun _ => rfl, fun _ => rfl, fun h _ => (off _ he h).elim⟩
  | _ => exact absurd he Bool.false_ne_true

end

theorem swTrapOf_mayHave {i : Instr} {es : List (UnitCode × Effect)} (he : ∀ e ∈ es, mayHave i e.2 = true) : swTrapOf es = none := by
  unfold swTrapOf
  rw [List.findSome?_eq_none_iff]
  intro e h
  have := he e h
  split
  · next n hn => rw [hn] at this; exact absurd this Bool.false_ne_true
  · rfl

theorem lowestFault_none {l : List SlotFault} (h : lowestFault l = none) : l = [] := by
  cases l with
  | nil => rfl
  | cons f r =>
    unfold lowestFault at h
    split at h
    · split at h <;> cases h
    · cases h

theorem State.ctxAt_updCore (s : State) (c : Fin 208) (f : Core → Core) (k : Fin 4) (hf : (f (s.coreAt c)).team = (s.coreAt c).team) :
    (s.updCore c f).ctxAt c k = s.ctxAt c k := by
  unfold State.ctxAt
  rw [State.coreAt_updCore, hf]

/-- The end of a bundle with such effects, outside a loop: it commits, or one trap is taken. -/
theorem IssueFrame.close {i : Instr} (s : State) (hl : s.ictx.activeLoop = none) (he : ∀ e ∈ s.issue.effects, mayHave i e.2 = true) :
    IssueFrame i (¬ (s.ictx.te = true ∧ s.ictx.tvec ≠ 0)) s.issue.core s.issue.ctx s s.close := by
  cases hf : lowestFault s.issue.faults with
  | none =>
    rw [State.close_plain s (lowestFault_none hf) hl (swTrapOf_mayHave he)]
    exact (IssueFrame.begun s).trans (IssueFrame.foldl _ _ (fun t e h => IssueFrame.effect t _ _ _ (he e h)) _)
  | some f =>
    unfold State.close
    rw [hf]
    dsimp only
    refine IssueFrame.trans (IssueFrame.trans (t := s.holdBody s.issue.core s.issue.ctx s.issue.baddr s.issue.words) ?_ ?_)
      (IssueFrame.takeTrap _ _ _ _ _ ?_)
    · exact IssueFrame.updCtx s _ (fun _ => rfl)
    · exact IssueFrame.updCore _ _ _ (TeamFrame.same ..)
    · rw [State.ctxAt_updCore _ _ _ _ rfl, State.holdBody, State.ctxAt_updCtx]
      exact id

/-- A slot adds to the effects of the bundle only effects that its word may have. -/
theorem State.addSlot_mayHave {s : State} {i : Instr} {h : Head} {r : SlotRes} (hs : s.issue.effects = [])
    (hr : r.effects.all (mayHave i) = true) : ∀ e ∈ (s.addSlot i h r).effects, mayHave i e.2 = true := by
  have none_ : ∀ e ∈ s.issue.effects, mayHave i e.2 = true := by
    rw [hs]
    exact fun e he => absurd he List.not_mem_nil
  unfold State.addSlot
  dsimp only
  split
  · exact none_
  · split
    · exact none_
    · intro e he
      rw [hs, List.nil_append] at he
      obtain ⟨x, hx, rfl⟩ := List.mem_map.mp he
      exact List.all_eq_true.mp hr x hx

/-- The frame of a lone word that puts results in flight. -/
theorem exec_issueFrame {i : Instr} {s t : State} {h : Head} (hh : i.head = some h) (hu : i.unitOk = true) (hf : flowsUnit h.unit = true)
    (hs : s.lone) (hx : exec i s = .next t) :
    IssueFrame i (¬ (s.ictx.te = true ∧ s.ictx.tvec ≠ 0)) s.issue.core s.issue.ctx s t := by
  obtain ⟨r, e, hr⟩ := exec_flows s hh hu hf
  obtain ⟨slots, effects, _, loop⟩ := hs
  obtain rfl : t = s.slot i h r := Host.Outcome.next.inj (hx.symm.trans e)
  rw [State.slot_last _ _ _ _ slots]
  have frame := State.addSlot_frame s i h r
  have core : (s.addSlot i h r).core = s.issue.core := by rw [frame]
  have ctx : (s.addSlot i h r).ctx = s.issue.ctx := by rw [frame]
  have ictx : (s.withIssue (s.addSlot i h r)).ictx = s.ictx := by
    unfold State.ictx
    rw [State.withIssue_issue, core, ctx]
    rfl
  have close := IssueFrame.close (i := i) (s.withIssue (s.addSlot i h r)) (by rw [ictx]; exact loop) (State.addSlot_mayHave effects hr)
  rw [ictx, State.withIssue_issue, core, ctx] at close
  exact IssueFrame.trans (t := s.withIssue (s.addSlot i h r)) (IssueFrame.cores rfl rfl rfl) close

/-- A scalar form whose guard is false has no effect (R40): its bundle issues, and nothing is in flight. -/
theorem gives_guardFalse {i : Instr} {s : State} {h : Head} (hh : i.head = some h) (hg : scalarForm i = true)
    (hb : s.ictx.guardBit h = false) (hs : s.lone) : s.gives i (s.issued h.unit []) := by
  obtain ⟨r, e⟩ := exec_slot_head s hh
  obtain ⟨slots, effects, faults, loop⟩ := hs
  have idle : s.addSlot i h r = s.issue := by
    unfold State.addSlot
    simp [hg, hb]
  refine ⟨s.issue, slots, ?_⟩
  have close : s.close = s.issued h.unit [] := by
    rw [State.close_plain s faults loop (by rw [effects]; rfl), effects, State.begun_eq s h.unit]
    rfl
  rw [e, State.slot_last _ _ _ _ slots, idle, State.withIssue_self, close]
  rfl

/-- Settles O43: a word of these units adds only effects of `mayHave`, and those keep all that `IssueFrame` names. -/
theorem wordFrame : Obligations.WordFrame := by
  refine ⟨fun i s t h hh hu hunit hs hx => ?_, fun i s h hh hg hb hs => gives_guardFalse hh hg hb hs⟩
  have hf : flowsUnit h.unit = true := by
    rcases hunit with e | e | e | e | e | e | e | e <;> rw [e] <;> rfl
  obtain ⟨mem, poison, team⟩ := exec_issueFrame hh hu hf hs hx
  refine ⟨mem, poison, fun c => ?_⟩
  obtain ⟨still, ctxs, patActive, opq, cmds⟩ := team c
  have ctx (k : Fin 4) : ((t.coreAt c).team.ctxs.get k).still = ((s.coreAt c).team.ctxs.get k).still := by
    have e (v : Vector Ctx 4) : (v.map Ctx.still).get k = (v.get k).still := Vector.getElem_map ..
    rw [← e, ← e]
    exact congrArg (fun u : Team => u.ctxs.get k) still
  have pats : (∀ w, i ≠ .patswap w) → isPatswap i = false := fun h => by
    cases i with
    | patswap w => exact absurd rfl (h w)
    | _ => rfl
  have loads : (∀ w, i ≠ .ldVQ w) → isLdVQ i = false := fun h => by
    cases i with
    | ldVQ w => exact absurd rfl (h w)
    | _ => rfl
  simp only [Team.still, Team.mk.injEq] at still
  obtain ⟨-, -, part, spad, acc, tileMaps, tileBusy, patA, patB, -, bars, -, -, replay, -, -, -, -, -, -, -, -, seq, -⟩ := still
  refine ⟨spad, acc, patA, patB, tileMaps, tileBusy, bars, replay, seq, part, fun h => patActive (pats h), fun h => opq (loads h),
    fun h te tvec => cmds (loads h) (fun x => x ⟨te, tvec⟩), fun k => ?_⟩
  have ck := ctx k
  simp only [Ctx.still, Ctx.mk.injEq, true_and] at ck
  obtain ⟨hs, tokPend, ha, hp, hv, maps, pins, rep, tvec, waitlim, chken, mapsoft, retired, stopped, fences, -⟩ := ck
  exact ⟨hs, ha, hp, hv, maps, pins, tokPend, tvec, waitlim, chken, mapsoft, fences, retired, stopped, rep,
    fun own => ctxs k (fun ⟨hc, hk⟩ => own.elim (· hc) (· hk))⟩

end Sys2Proof.Machine

/-! The events of a task's life and of the scheduler (R33, R282 to R299): the statement of O32. -/

namespace Sys2Proof.Machine

/-! ## The events of one task -/

theorem State.taskOf_id {s : State} {id : Nat} {t : Task} (h : s.taskOf id = some t) : t.id = id := by
  simpa using List.find?_some h

section TaskEvent
variable {s : State} {id : Nat} {t : Task} (he : s.ev = .task id) (ht : s.taskOf id = some t)
include he ht

theorem exec_swapOut : exec .swapOut s = .next (if s.swapDue t then s.stopAll t .swap else s) := by
  change execSwapOut s = _
  simp only [execSwapOut, he, ht]

theorem exec_boundaryStop : exec .boundaryStop s = .next (if s.boundaryReached t then s.stopAll t .boundary else s) := by
  change execBoundaryStop s = _
  simp only [execBoundaryStop, he, ht]

theorem exec_waitCycPasses : exec .waitCycPasses s = .next (if s.cycleDue t then s.enterResume id else s) := by
  change execWaitCycPasses s = _
  simp only [execWaitCycPasses, he, ht]

theorem exec_ageTick : exec .ageTick s = .next (if s.ageDue t then s.age t else s) := by
  change execAgeTick s = _
  simp only [execAgeTick, he, ht]

theorem exec_gangReserve {g : Fin 8} {x : List Nat} (h : s.reserveOf t = some (g, x)) :
    exec .gangReserve s = .next (s.updGroup g (fun y => { y with reserve := some (t.id, x) })).kick := by
  change execGangReserve s = _
  simp only [execGangReserve, he, ht, h]

/-- A save that has begun ends while no core is halted (R294, R385). -/
theorem exec_teamSaved {k : StopKind} (hk : t.state = .saving k) :
    exec .teamSaved s = .next (if t.failure.isNone && !s.anyHalted t then s.teamSaved t k else s) := by
  change execTeamSaved s = _
  simp only [execTeamSaved, he, ht, hk]

/-- A deadline that is due marks the task and then acts by the task's state (R297). -/
theorem exec_deadlineExpire (hd : s.deadlineDue t = true) :
    exec .deadlineExpire s = .next (let u := s.updTask id (fun t => { t with doomed := true })
      match t.state with
      | .queued => u.deadlineFail t false
      | .placed => u.deadlineFail t false
      | .running => u.ask t .freeze
      | .saving _ => u
      | _ => { u with resumes := u.resumes.filter (fun i => i != id) }.deadlineFail t true) := by
  change execDeadlineExpire s = _
  simp only [execDeadlineExpire, he, ht, hd]
  rfl

/-- A completion runs once every page that it writes is there (R273). -/
theorem exec_taskComplete (ho : s.taskOver t = true) (hp : s.eventParked (event .taskComplete (.task id)) = false) :
    exec .taskComplete s = .next (match s.absentPage t.subAsid t.endWrites with
      | some va => s.park 0 t.subAsid va .pageNp va (.event (event .taskComplete (.task id))) t.host
      | none => s.completeTask t) := by
  change execTaskComplete s = _
  simp only [execTaskComplete, he, ht, ho, hp]
  rfl

/-- A placed task that no older one keeps back passes the check of its partition (R23, R33, R255). -/
theorem exec_taskStart (hs : t.state = .placed) (hf : t.failure = none) (hn : s.startsNext t = true)
    (hp : s.eventParked (event .taskStart (.task id)) = false) :
    exec .taskStart s = .next (if !partOk t.tcb.part then
        (match t.cores with | c :: _ => s.record (computeCore c) Cause.partBad.code 0 0 t.tcb.part [] | [] => s).failTask id
          { status := 2, cause := Cause.partBad.code, detail := t.tcb.part, member := 0 }
      else match (if s.isBarrier t then s.absentPage 0 ((s.dueTables t.queue).map (fun p => (p.2.addr.toNat, 8))) else none) with
        | some va => s.park 0 0 va .pageNp va (.event (event .taskStart (.task id))) t.host
        | none => s.startTask t) := by
  change execTaskStart s = _
  simp only [execTaskStart, he, ht, hs, hf, hn, hp]
  rfl

theorem exec_taskStart_waits (hn : s.startsNext t = false) : exec .taskStart s = .next s := by
  change execTaskStart s = _
  simp [execTaskStart, he, ht, hn]

/-- A restore moves the frames first (R34). -/
theorem exec_restore (hs : t.state = .restoring) (hf : t.failure = none) {r : State} {ok : Bool} (hr : s.moveAreas t false t.areas = (r, ok)) :
    exec .restore s = .next (if ok then
        let u := (t.cores.zip (t.frames.zip (List.range t.frames.length))).foldl (fun s p =>
          (s.updCore (computeCore p.1) (fun y => y.attach t.id s.cycle (p.2.1.restored s.cycle))).moveFetches (computeCore p.1) t.id p.2.2 false) r
        let v := u.updTask id (fun t => { t with state := .running, frames := [], areas := [], due := none })
        { v with agenda := v.agenda ++ v.deferred, deferred := [] }
      else r) := by
  change execRestore s = _
  cases ok <;> simp [execRestore, he, ht, hs, hf, hr]

end TaskEvent

/-! ## A freeze asked of a task -/

@[simp] theorem State.coreAt_now (s : State) (e : Event) (c : Fin 208) : (s.now e).coreAt c = s.coreAt c := rfl

/-- One core is asked to freeze, and looks for its boundary in this cycle. -/
def State.askFreeze (s : State) (m : Fin 200) : State :=
  (s.updCore (computeCore m) (fun y => { y with request := some .freeze, requestAt := s.cycle })).now
    (event .freezeBoundary (.core (computeCore m)))

theorem State.ask_freeze (s : State) (t : Task) : s.ask t .freeze = t.cores.foldl State.askFreeze s := rfl

/-- Asking a list of cores to freeze changes their requests and the agenda alone. -/
theorem State.foldl_askFreeze (l : List (Fin 200)) (s : State) :
    let u := l.foldl State.askFreeze s
    (∀ m ∈ l, (u.coreAt (computeCore m)).request = some .freeze ∧ (u.coreAt (computeCore m)).requestAt = s.cycle)
      ∧ (∀ c, (u.coreAt c).team = (s.coreAt c).team)
      ∧ (∀ c, (∀ m ∈ l, computeCore m ≠ c) → u.coreAt c = s.coreAt c)
      ∧ u.agenda = s.agenda ++ l.map (fun m => event .freezeBoundary (.core (computeCore m)))
      ∧ u.tasks = s.tasks ∧ u.mem = s.mem := by
  induction l generalizing s with
  | nil => simp
  | cons a l ih =>
    obtain ⟨asked, team, others, agenda, tasks, mem⟩ := ih (s.askFreeze a)
    have own : (s.askFreeze a).coreAt (computeCore a) = { s.coreAt (computeCore a) with request := some .freeze, requestAt := s.cycle } := by
      simp [State.askFreeze]
    have other {c : Fin 208} (h : c ≠ computeCore a) : (s.askFreeze a).coreAt c = s.coreAt c := by
      simp [State.askFreeze, State.coreAt_updCore_ne _ _ h]
    refine ⟨fun m hm => ?_, fun c => ?_, fun c hc => ?_, ?_, tasks, mem⟩
    · by_cases h : m ∈ l
      · exact asked m h
      · obtain rfl : m = a := (List.mem_cons.1 hm).resolve_right h
        by_cases h' : ∃ x ∈ l, computeCore x = computeCore m
        · obtain ⟨x, hx, e⟩ := h'
          rw [← e]
          exact asked x hx
        · rw [List.foldl_cons, others _ (fun x hx e => h' ⟨x, hx, e⟩), own]
          exact ⟨rfl, rfl⟩
    · rw [List.foldl_cons, team c]
      by_cases h : c = computeCore a
      · rw [h, own]
      · rw [other h]
    · rw [List.foldl_cons, others c (fun m hm => hc m (List.mem_cons_of_mem _ hm)), other (fun e => hc a List.mem_cons_self e.symm)]
    · rw [List.foldl_cons, agenda, List.map_cons, List.append_cons]
      rfl

/-! ## The forecast and the power gates -/

theorem exec_afrUpdate (s : State) : exec .afrUpdate s = .next ((List.finRange 8).foldl (fun s g => s.updGroup g (fun x => { x with afr := s.forecast g })) s) :=
  rfl

/-- A renewal of the forecast over a list of groups renews each of them. -/
theorem State.foldl_forecast (l : List (Fin 8)) (s : State) :
    let t := l.foldl (fun s g => s.updGroup g (fun x => { x with afr := s.forecast g })) s
    (∀ g, g ∈ l ∨ (∃ u, (s.groupAt g).afr = State.forecast u g) → ∃ u, (t.groupAt g).afr = State.forecast u g)
      ∧ t.mem = s.mem ∧ t.tasks = s.tasks := by
  induction l generalizing s with
  | nil => simp
  | cons a l ih =>
    obtain ⟨renewed, mem, tasks⟩ := ih (s.updGroup a (fun x => { x with afr := s.forecast a }))
    refine ⟨fun g hg => renewed g ?_, mem, tasks⟩
    by_cases h : g = a
    · exact .inr ⟨s, by rw [h, State.groupAt_updGroup]⟩
    · rw [State.groupAt_updGroup_ne _ _ h]
      exact hg.imp_left (fun m => (List.mem_cons.1 m).resolve_left h)

/-- What the power gates leave as it is. -/
def State.gateFrame (s t : State) : Prop :=
  t.mem = s.mem ∧ t.tasks = s.tasks ∧ t.groups = s.groups ∧ ∀ c : Fin 208, (t.coreAt c).team = (s.coreAt c).team

/-- A fold keeps the frame of the power gates when every step of it does. -/
theorem State.gateFrame_foldl {α : Type} {f : State → α → State} (hf : ∀ s a, State.gateFrame s (f s a)) (l : List α) (s : State) :
    State.gateFrame s (l.foldl f s) := by
  induction l generalizing s with
  | nil => exact ⟨rfl, rfl, rfl, fun _ => rfl⟩
  | cons a l ih =>
    obtain ⟨mem, tasks, groups, team⟩ := hf s a
    obtain ⟨mem', tasks', groups', team'⟩ := ih (f s a)
    exact ⟨mem'.trans mem, tasks'.trans tasks, groups'.trans groups, fun c => (team' c).trans (team c)⟩

theorem State.gateFrame_gated (s : State) (c : Fin 208) (f : Core → Bool) : State.gateFrame s (s.updCore c (fun y => { y with gated := f y })) := by
  refine ⟨rfl, rfl, rfl, fun d => ?_⟩
  by_cases h : d = c
  · rw [h, State.coreAt_updCore]
  · rw [State.coreAt_updCore_ne _ _ h]

theorem State.gateFrame_gateGroup (s : State) (g : Fin 8) : State.gateFrame s (s.gateGroup g) :=
  State.gateFrame_foldl (fun s c => s.gateFrame_gated c _) _ s

/-! ## The statement -/

/-- Settles O32: each event by its own equation, the freeze, the forecast and the gates by their folds. -/
theorem taskAndSchedulerResults : Obligations.TaskAndSchedulerResults := by
  refine ⟨fun s id t he ht => ?_, fun s t c r he ht hs hf hc hp hn hk => ?_, fun s => ⟨rfl, ?_, ?_⟩⟩
  · obtain rfl := State.taskOf_id ht
    refine ⟨⟨?_, ?_⟩, ?_, ⟨?_, ?_⟩, ?_, ?_, ?_, ?_, ?_, ?_, ?_, ?_, ?_, ?_, ?_, ?_, ?_⟩
    · rintro ⟨⟨hs, hf, hp, hn, hk⟩, ha⟩
      rw [exec_taskStart he ht hs hf hn hk, ha, hp]
      rfl
    · rintro va ⟨⟨hs, hf, hp, hn, hk⟩, ha⟩
      rw [exec_taskStart he ht hs hf hn hk, ha, hp]
      rfl
    · exact fun ⟨_, hn⟩ => exec_taskStart_waits he ht hn
    · rintro ⟨⟨ho, hk⟩, ha⟩
      rw [exec_taskComplete he ht ho hk, ha]
    · rintro va ⟨⟨ho, hk⟩, ha⟩
      rw [exec_taskComplete he ht ho hk, ha]
    · intro h; rw [exec_swapOut he ht, if_pos h]
    · intro h; rw [exec_boundaryStop he ht, if_pos h]
    · rintro k ⟨hs, hf, hh⟩
      rw [exec_teamSaved he ht hs, hf, hh]
      rfl
    · rintro k ⟨hs, hh⟩
      rw [exec_teamSaved he ht hs, hh, if_neg (by simp)]
    · intro h; rw [exec_waitCycPasses he ht, if_pos h]
    · intro h; rw [exec_ageTick he ht, if_pos h]
    · exact fun g x h => exec_gangReserve he ht h
    · rintro ⟨hd, h | h⟩ <;> rw [exec_deadlineExpire he ht hd, h]
    · intro hd h
      obtain ⟨asked, team, others, agenda, tasks, mem⟩ := State.foldl_askFreeze t.cores (s.updTask t.id (fun t => { t with doomed := true }))
      refine ⟨_, (exec_deadlineExpire he ht hd).trans (by rw [h]; rfl), fun m hm => ⟨(asked m hm).1, (asked m hm).2, team _⟩, others, agenda, tasks, mem⟩
    · rintro k ⟨hd, h⟩
      rw [exec_deadlineExpire he ht hd, h]
    · rintro ⟨hd, h | h | h | h⟩ <;> rw [exec_deadlineExpire he ht hd, h] <;> rfl
    · rintro r hr u v ⟨hs, hf⟩
      rw [exec_restore he ht hs hf hr]
      rfl
    · rintro r hr ⟨hs, hf⟩
      rw [exec_restore he ht hs hf hr]
      rfl
  · rw [exec_taskStart he ht hs hf hn hk, hp, hc]
    rfl
  · obtain ⟨renewed, mem, tasks⟩ := State.foldl_forecast (List.finRange 8) s
    exact ⟨_, exec_afrUpdate s, fun g => renewed g (.inl (List.mem_finRange g)), mem, tasks⟩
  · obtain ⟨mem, tasks, groups, team⟩ := State.gateFrame_foldl State.gateFrame_gateGroup (List.finRange 8) s
    exact ⟨_, rfl, mem, tasks, groups, team⟩

end Sys2Proof.Machine

/-! Every step keeps the memories canonical (R24, R33, R161, R162): the statement of O54. For each function of the model that
returns a state there is one lemma, `State.memWf.<its name>`; what changes no memory keeps them by definition, and the others go
back to the few functions that write one. -/

section MemoryCanonical

-- Several hundred short proofs: in sequence they keep the number of elaboration threads, and so the memory of their stacks, bounded.
set_option Elab.async false

namespace Sys2Proof.Machine

/-! ## Writing a memory -/

theorem Memory.wf_memOr {m : Memory} (a : Nat) (x : Byte) (h : Memory.wf m = true) : Memory.wf (memOr m a x) = true := Memory.wf_memPut a _ h

theorem Memory.wf_foldl_memOr {m : Memory} (l : List Nat) (f : Nat → Nat) (x : Byte) (h : Memory.wf m = true) :
    Memory.wf (l.foldl (fun m a => memOr m (f a) x) m) = true := by
  induction l generalizing m with
  | nil => exact h
  | cons a l ih => exact ih (Memory.wf_memOr _ x h)

theorem Memory.wfFrom_filter {n : Nat} {m : Memory} (f : Host.Cell → Bool) (h : Memory.wfFrom n m = true) : Memory.wfFrom n (m.filter f) = true := by
  induction m generalizing n with
  | nil => exact h
  | cons c m ih =>
    obtain ⟨a, b⟩ := c
    rw [Memory.wfFrom_cons] at h
    obtain ⟨low, nonzero, rest⟩ := h
    rw [List.filter_cons]
    split
    · exact (Memory.wfFrom_cons ..).2 ⟨low, nonzero, ih rest⟩
    · exact Memory.wfFrom_mono (by omega) (ih rest)

theorem Memory.wf_filter {m : Memory} (f : Host.Cell → Bool) (h : Memory.wf m = true) : Memory.wf (m.filter f) = true := by
  rw [Memory.wf_eq_wfFrom] at *
  exact Memory.wfFrom_filter f h

/-! ## Updates of the parts of a state -/

/-- Every saved frame of the task keeps its scratchpad in canonical form. -/
def Task.framesWf (t : Task) : Prop := ∀ f ∈ t.frames, Memory.wf f.spad = true

/-- The outcome's state, if it has one, has its memories in canonical form. -/
def outcomeWf : Host.Outcome State Fault Refusal → Prop
  | .next s => s.memWf
  | _ => True

section
variable {s t : State}

/-- The first of a pair that a function returns, under the name that a match gives it. -/
theorem State.memWf.of_fst {α : Type} {p : State × α} (h : p.1.memWf) {x : α} (e : p = (t, x)) : t.memWf := by
  subst e
  exact h

theorem State.memWf.ite {c : Prop} [Decidable c] (h : s.memWf) (g : t.memWf) : (if c then s else t).memWf := by
  split
  · exact h
  · exact g

theorem State.memWf.ite_fst {α : Type} {c : Prop} [Decidable c] {p q : State × α} (h : p.1.memWf) (g : q.1.memWf) : (if c then p else q).1.memWf := by
  split
  · exact h
  · exact g

theorem State.memWf.of_snd {α : Type} {p : α × State} (h : p.2.memWf) {x : α} (e : p = (x, t)) : t.memWf := by
  subst e
  exact h

theorem State.memWf.foldl {α : Type} {f : State → α → State} (h : s.memWf) (l : List α) (hf : ∀ s a, State.memWf s → (f s a).memWf) :
    (l.foldl f s).memWf := by
  induction l generalizing s with
  | nil => exact h
  | cons a l ih => exact ih (hf s a h)

theorem State.memWf.foldl_fst {α β : Type} {f : State × β → α → State × β} {p : State × β} (h : p.1.memWf) (l : List α)
    (hf : ∀ s b a, State.memWf s → (f (s, b) a).1.memWf) : (l.foldl f p).1.memWf := by
  induction l generalizing p with
  | nil => exact h
  | cons a l ih => exact ih (hf p.1 p.2 a h)

/-- A change that leaves the tasks keeps the memories when it keeps device memory and the scratchpads. -/
theorem State.memWf.of_keeps (h : s.memWf) (k : Keeps s t) (e : t.tasks = s.tasks) : t.memWf := by
  obtain ⟨mem, spads, frames⟩ := h
  have same : t.mem = s.mem := congrArg Outer.mem k.1
  exact ⟨same ▸ mem, k.2 spads, e ▸ frames⟩

theorem State.memWf.withMem (h : s.memWf) {m : Memory} (hm : Memory.wf m = true) : State.memWf { s with mem := m } := ⟨hm, h.2⟩

theorem State.memWf.updCore_at (h : s.memWf) {c : Fin 208} {f : Core → Core}
    (hf : Memory.wf (s.coreAt c).team.spad = true → Memory.wf (f (s.coreAt c)).team.spad = true) : (s.updCore c f).memWf :=
  h.of_keeps (keeps_updCore_at s c f hf) rfl

theorem State.memWf.updCore (h : s.memWf) {c : Fin 208} {f : Core → Core}
    (hf : ∀ y : Core, Memory.wf y.team.spad = true → Memory.wf (f y).team.spad = true := by exact fun _ w => w) : (s.updCore c f).memWf := h.updCore_at (hf _)

theorem State.memWf.updTeam (h : s.memWf) {c : Fin 208} {f : Team → Team}
    (hf : ∀ y : Team, Memory.wf y.spad = true → Memory.wf (f y).spad = true := by exact fun _ w => w) : (s.updTeam c f).memWf := h.updCore (fun _ => hf _)

theorem State.memWf.updTeam_at (h : s.memWf) {c : Fin 208} {f : Team → Team}
    (hf : Memory.wf (s.coreAt c).team.spad = true → Memory.wf (f (s.coreAt c).team).spad = true) : (s.updTeam c f).memWf := h.updCore_at hf

theorem State.memWf.updCtx (h : s.memWf) {c k f} : (s.updCtx c k f).memWf := h.updTeam

/-- A change of every task that keeps its frames canonical. -/
theorem State.memWf.mapTasks (h : s.memWf) {f : Task → Task} (hf : ∀ x : Task, x.framesWf → (f x).framesWf) :
    State.memWf { s with tasks := s.tasks.map f } := by
  obtain ⟨mem, spads, frames⟩ := h
  refine ⟨mem, spads, fun x hx => ?_⟩
  obtain ⟨y, hy, rfl⟩ := List.mem_map.1 hx
  exact hf y (frames y hy)

theorem State.memWf.updTask (h : s.memWf) {id : Nat} {f : Task → Task}
    (hf : ∀ x : Task, x.framesWf → (f x).framesWf := by exact fun _ w => w) : (s.updTask id f).memWf :=
  h.mapTasks (fun x w => by
    split
    · exact hf x w
    · exact w)

theorem State.memWf.filterTasks (h : s.memWf) (f : Task → Bool) : State.memWf { s with tasks := s.tasks.filter f } :=
  ⟨h.1, h.2.1, fun x hx => h.2.2 x (List.mem_filter.1 hx).1⟩

theorem Task.framesWf_map {x : Task} (h : x.framesWf) {f : Team → Team} (hf : ∀ y : Team, Memory.wf y.spad = true → Memory.wf (f y).spad = true) :
    Task.framesWf { x with frames := x.frames.map f } := fun y hy => by
  obtain ⟨z, hz, rfl⟩ := List.mem_map.1 hy
  exact hf z (h z hz)

theorem State.memWf.framesOfTask (h : s.memWf) {x : Task} (hx : x ∈ s.tasks) : x.framesWf := h.2.2 x hx

theorem State.memWf.spadOf (h : s.memWf) (c : Fin 208) : Memory.wf (s.coreAt c).team.spad = true := h.2.1 c

/-! ## What changes no memory -/

theorem State.memWf.updGroup (h : s.memWf) {g f} : (s.updGroup g f).memWf := h
theorem State.memWf.later (h : s.memWf) {d e} : (s.later d e).memWf := h
theorem State.memWf.now (h : s.memWf) {e} : (s.now e).memWf := h
theorem State.memWf.send (h : s.memWf) {m} : (s.send m).memWf := h
theorem State.memWf.takeDelay (h : s.memWf) : s.takeDelay.2.memWf := h
theorem State.memWf.recordAt (h : s.memWf) {g core kind aux a v l} : (s.recordAt g core kind aux a v l).memWf := h
theorem State.memWf.record (h : s.memWf) {c kind aux a v l} : (s.record c kind aux a v l).memWf := h
theorem State.memWf.withIssue (h : s.memWf) {q} : (s.withIssue q).memWf := h

theorem State.memWf.recordExc (h : s.memWf) {c a u x b} : (s.recordExc c a u x b).memWf := by
  unfold State.recordExc
  split
  · exact h.record
  · exact h

theorem State.memWf.tellAll (h : s.memWf) {kind x y z} : (s.tellAll kind x y z).memWf := h.foldl _ (fun _ _ w => w.send)

theorem State.memWf.kick (h : s.memWf) : s.kick.memWf := by
  unfold State.kick
  split
  · exact h
  · split
    · exact h.now
    · exact h.later

theorem State.memWf.setCmap (h : s.memWf) {g l x} : (s.setCmap g l x).memWf := by
  unfold State.setCmap
  dsimp only
  split
  · split
    · exact h.updGroup.kick.updGroup.later
    · exact h.updGroup.kick.updGroup
  · exact h.updGroup.kick

theorem State.memWf.popStat (h : s.memWf) {g} : (s.popStat g).2.memWf := by
  unfold State.popStat
  split
  · exact h
  · exact h.updGroup

theorem State.memWf.abortScan (h : s.memWf) {c hd} : (s.abortScan c hd).memWf := by
  unfold State.abortScan
  split
  dsimp only
  exact ((h.takeDelay.of_snd ‹_›).updCore).later

theorem State.memWf.profRecord (h : s.memWf) {c k b p} : (s.profRecord c k b p).memWf := by
  unfold State.profRecord
  split
  · exact h.record
  · exact h

/-! ## Failures and traps -/

/-- A failing task's frames lose commands alone. -/
theorem State.memWf.failTask (h : s.memWf) {id f} : (s.failTask id f).memWf := by
  unfold State.failTask
  split
  · exact h
  · split
    · exact h
    · have marked := h.mapTasks (f := fun t => if t.id == id then
        { t with failure := some f, state := .ending, due := none, dest := none, victimFor := none
                 frames := t.frames.map (fun x => { x with cmds := x.cmds.map Sys2Proof.Machine.failCmd }) } else t) (fun x w => by
          split
          · exact Task.framesWf_map w (fun _ w => w)
          · exact w)
      have stopped := fun l : List (Fin 200) => marked.foldl l (fun s c w => State.memWf.updCore w (c := computeCore c)
        (f := fun x => { x with stopped := true, request := none, holdIssue := false, team := { x.team with cmds := x.team.cmds.map Sys2Proof.Machine.failCmd } }) (fun _ w => w))
      dsimp only
      split
      · exact stopped _
      · refine (stopped _).foldl _ (fun s p w => ?_)
        split
        · exact w
        · exact w.record

theorem State.memWf.failCore (h : s.memWf) {c cause a v} : (s.failCore c cause a v).memWf := by
  unfold State.failCore
  dsimp only
  split
  · exact h.record.failTask
  · exact h.record

theorem State.memWf.fetchImage (h : s.memWf) : s.fetchImage.memWf := h

theorem Memory.wf_nil : Memory.wf [] = true := rfl

theorem State.memWf.resetControl (h : s.memWf) {g} : (s.resetControl g).memWf := by
  unfold State.resetControl
  have reset (x : State) (w : x.memWf) : (x.updCore (controlCore g) Core.resetWith).memWf := w.updCore (fun _ _ => Memory.wf_nil)
  dsimp only
  split
  · exact (reset _ h.record.send).updGroup.fetchImage
  · exact (reset _ h.record.send).updGroup

theorem State.memWf.takeTrap (h : s.memWf) {c k e pc v m} : (s.takeTrap c k e pc v m).memWf := by
  unfold State.takeTrap
  dsimp only
  split
  · exact h.updCtx
  · split
    · exact h.record.failTask
    · exact h.record.updCore

theorem State.memWf.updBarrier (h : s.memWf) {c n b f} : (s.updBarrier c n b f).memWf := by
  unfold State.updBarrier
  split
  · exact h.updTeam
  · split
    · exact h
    · refine h.updTask (fun x w => ?_)
      split
      · exact w
      · exact w

/-! ## Landing and issue -/

/-! The work of the matrix unit leaves the tasks. -/

theorem State.memWf.sparseStep (h : s.memWf) {c p j k} : (s.sparseStep c p j k).1.memWf := by
  unfold State.sparseStep
  dsimp -iota only
  refine .ite_fst ?_ ?_
  · exact .ite h.updTeam.record h.updTeam
  · split
    next u j' e =>
    have w : u.memWf := by
      refine .of_fst ?_ e
      exact .ite_fst (.ite_fst h h.record) h
    refine .ite_fst w (.ite_fst ?_ w)
    split
    exact w.updTeam

theorem State.memWf.mxFinish (h : s.memWf) {c p j} : (s.mxFinish c p j).memWf := by
  unfold State.mxFinish
  extract_lets +lift bad worked counted
  have hbad : bad.memWf := h.foldl _ (fun _ _ w => w.record)
  have hworked : worked.memWf := by
    unfold worked
    split
    · exact h
    · exact h
    · exact h
    · exact hbad.updTeam
  refine .ite (updTeam ?_) hworked
  unfold counted
  split
  · exact hworked
  · exact hworked
  · exact hworked.recordExc.updTeam

theorem State.memWf.mxRun (h : s.memWf) {c p j} : (s.mxRun c p j).memWf := by
  unfold State.mxRun
  dsimp only
  split
  · exact h.mxFinish
  · split
    · split
      · exact h.updTeam.mxFinish
      · exact h.updTeam.updTeam
    · refine .ite (mxFinish ?_) (updTeam ?_)
      · split
        · exact h
        · exact h.updTeam
      · split
        · exact h
        · exact h.updTeam
    · exact h.sparseStep.updTeam
    · exact h.updTeam
    · exact h.updTeam
    · split
      · exact h.updTeam
      · exact h.updTeam.updTeam

theorem State.recordExc_tasks (s : State) (c a u x b) : (s.recordExc c a u x b).tasks = s.tasks := by
  unfold State.recordExc
  split
  · rfl
  · rfl

theorem State.memWf.runAmo (h : s.memWf) {c p op ty a x y d} : (s.runAmo c p op ty a x y d).memWf := by
  refine recordExc (h.updTeam ?_)
  exact fun y w => Team.wf_spadPut (t := y) _ w

theorem State.memWf.runSeason (h : s.memWf) {c p wide g ws later seen} : (s.runSeason c p wide g ws later seen).memWf :=
  h.of_keeps (keeps_runSeason ..) (by
    unfold State.runSeason
    dsimp only
    split
    · exact State.recordExc_tasks ..
    · rfl)

theorem State.memWf.runArrive (h : s.memWf) {c p n b d} : (s.runArrive c p n b d).memWf := by
  unfold State.runArrive
  split
  · exact h
  · exact .ite h.updBarrier h.updBarrier.updTeam

theorem State.memWf.runAct (h : s.memWf) {c p} : (s.runAct c p).memWf := by
  unfold State.runAct
  split
  · exact h.updCtx
  · exact h.updCtx
  · exact h.updCtx
  · refine h.updTeam (fun y w => ?_)
    rw [Team.setV_spad]
    exact w
  · exact h.updTeam (fun y w => Team.wf_spadPut (t := y) _ w)
  · exact h.updTeam
  · exact h.updTeam
  · exact h.runAmo
  · exact h.runSeason
  · refine h.updTeam (fun y w => ?_)
    split
    · exact w
    · exact w
  · refine h.updTeam (fun y w => ?_)
    split
    · exact w
    · exact w
  · exact h.updTeam
  · exact h.mxRun
  · exact h.runArrive

theorem State.memWf.landCore (h : s.memWf) {phase c} : (s.landCore phase c).memWf :=
  .ite h (h.updTeam.foldl _ (fun _ _ w => w.runAct))

theorem State.memWf.land (h : s.memWf) : s.land.memWf :=
  ((h.foldl _ (fun _ _ w => w.landCore)).foldl _ (fun _ _ w => w.landCore)).foldl _ (fun _ _ w => w.landCore)

theorem State.memWf.addCmd (h : s.memWf) {c k x} : (s.addCmd c k x).memWf := by
  have entered : State.memWf { s.takeDelay.2 with nextId := s.nextId + 1 } := h.takeDelay
  exact .ite entered.updTeam entered.updTeam.updCtx

theorem State.memWf.effect (h : s.memWf) {written u e} : (s.effect written u e).memWf := by
  unfold State.effect
  extract_lets c k pend
  split
  · exact .ite h.runAct h.updTeam
  · exact h.updCtx
  · exact h.updCtx
  · exact .ite h.profRecord h.updCtx
  · exact h.updCtx
  · exact h.updCtx
  · exact h
  · exact h.updCtx
  · exact h.updCtx
  · exact h.updCtx
  · exact h.updBarrier
  · exact h.updCtx
  · exact .ite h.addCmd.now h.addCmd
  · exact h.updTeam
  · exact h.setCmap
  · split
    exact (h.popStat.of_snd ‹_›).updTeam
  · exact .ite h.abortScan h
  · refine h.updCore (fun y w => ?_)
    rw [Core.resume_spad]
    exact w
  · exact h.updTeam
  · exact h.updTeam
  · exact h.record
  · exact h.updCtx
  · exact h.updTeam
  · refine h.updTeam (fun y w => ?_)
    rw [Team.pinCarriers_spad]
    exact w
  · exact h.updTeam
  · exact h.updTeam
  · exact h.updTeam
  · exact h.updGroup

theorem State.memWf.loopNext (h : s.memWf) {c k l x} : (s.loopNext c k l x).memWf :=
  .ite h.updCtx (.ite h.updCtx h.updCtx.profRecord)

theorem State.memWf.commit (h : s.memWf) : s.commit.memWf := by
  unfold State.commit
  extract_lets c k before q written s1 s2 s3 s4 s5
  have acted : s4.memWf := h.updCtx.updCore.updTeam.foldl _ (fun _ _ w => w.effect)
  have looped : s5.memWf := by
    unfold s5
    split
    · exact acted.loopNext
    · exact acted
  split
  · exact looped.takeTrap.updCtx
  · exact looped

theorem State.memWf.holdBody (h : s.memWf) {c k a ws} : (s.holdBody c k a ws).memWf := h.updCtx

theorem State.memWf.close (h : s.memWf) : s.close.memWf := by
  unfold State.close
  split
  · exact h.commit
  · exact h.holdBody.updCore.takeTrap

theorem State.memWf.slot (h : s.memWf) {i hd r} : (s.slot i hd r).memWf := .ite h.withIssue.close h.withIssue

end

end Sys2Proof.Machine

namespace Sys2Proof.Machine
section
variable {s t : State}

/-! ## Translation (R269 to R273) -/

theorem State.memWf.cacheWalk (h : s.memWf) {g asid va} : (s.cacheWalk g asid va).memWf := by
  unfold State.cacheWalk
  split
  · exact h
  · exact h

theorem State.memWf.setAccessed (h : s.memWf) {l} : (s.setAccessed l).memWf := h.withMem (Memory.wf_foldl_memOr _ id _ h.1)
theorem State.memWf.setDirty (h : s.memWf) {l} : (s.setDirty l).memWf := h.withMem (Memory.wf_foldl_memOr _ (· + 1) _ h.1)
theorem State.memWf.tlbFill (h : s.memWf) {k e} : (s.tlbFill k e).memWf := h

theorem State.memWf.tlbEntry (h : s.memWf) {k asid va code} : (s.tlbEntry k asid va code).1.memWf := by
  unfold State.tlbEntry
  split
  · exact h
  · dsimp only
    split
    · exact h.cacheWalk
    · exact h.cacheWalk.setAccessed.tlbFill

theorem State.memWf.translate (h : s.memWf) {k asid va acc} : (s.translate k asid va acc).1.memWf := by
  unfold State.translate
  split
  · exact h.tlbEntry.of_fst ‹_›
  · have w := h.tlbEntry.of_fst ‹_›
    dsimp -iota only
    split
    · exact .ite_fst w w
    · exact w
    · refine .ite_fst w (.ite_fst w ?_)
      split
      · exact w.setDirty
      · exact w
      · exact w

theorem State.memWf.pieces (h : s.memWf) {k asid acc l} : (s.pieces k asid acc l).1.memWf := by
  induction l generalizing s with
  | nil => exact h
  | cons p l ih =>
    rw [State.pieces]
    split
    · exact h.translate.of_fst ‹_›
    · have w := ih (h.translate.of_fst ‹_›)
      split
      · exact w.of_fst ‹_›
      · exact w.of_fst ‹_›

theorem State.memWf.vread (h : s.memWf) {k asid va n} : (s.vread k asid va n).1.memWf := by
  unfold State.vread
  split
  · exact h.pieces.of_fst ‹_›
  · exact h.pieces.of_fst ‹_›

theorem State.memWf.unpoison (h : s.memWf) {a n} : (s.unpoison a n).memWf := .ite h h

theorem State.memWf.pwrite (h : s.memWf) {a bs} : (s.pwrite a bs).memWf := (h.withMem (Memory.wf_memWrite _ _ h.1)).unpoison

theorem State.memWf.writePieces (h : s.memWf) {l bs} : (s.writePieces l bs).memWf := by
  induction l generalizing s bs with
  | nil => exact h
  | cons p l ih => exact ih h.pwrite

theorem State.memWf.vwrite (h : s.memWf) {k asid va bs} : (s.vwrite k asid va bs).1.memWf := by
  unfold State.vwrite
  split
  · exact h.pieces.of_fst ‹_›
  · exact (h.pieces.of_fst ‹_›).writePieces

theorem State.memWf.vput (h : s.memWf) {k asid va bs} : (s.vput k asid va bs).memWf := h.vwrite

theorem State.memWf.park (h : s.memWf) {g asid va cause line who stream} : (s.park g asid va cause line who stream).memWf := by
  unfold State.park
  dsimp only
  split
  · exact h
  · exact h

/-! ## From the PC to a bundle in progress -/

theorem State.memWf.drainReads (h : s.memWf) {c k is} : (s.drainReads c k is).memWf := .ite h.updTeam h
theorem State.memWf.block (h : s.memWf) {c k is} : (s.block c k is).memWf := h.updCtx
theorem State.memWf.prereadDesc (h : s.memWf) {c k is} : (s.prereadDesc c k is).memWf := h.updCtx.updCore

theorem State.memWf.openIssue (h : s.memWf) {c k ws is} : (s.openIssue c k ws is).1.memWf := by
  refine .ite_fst h.prereadDesc ?_
  dsimp only
  split
  · exact h.drainReads
  · exact h.drainReads

theorem State.memWf.skipBody (h : s.memWf) {c k l n} : (s.skipBody c k l n).memWf := h.updCtx

theorem State.memWf.fetchLine (h : s.memWf) {c line} : (s.fetchLine c line).memWf := by
  unfold State.fetchLine
  split
  exact (h.takeDelay.of_snd ‹_›).updCore.later

theorem State.memWf.touched (h : s.memWf) {c a n} : (s.touched c a n).memWf := h.updCore

theorem State.memWf.askHaltOf (h : s.memWf) {c} : (s.askHaltOf c).memWf := State.memWf.now (h.foldl _ (fun _ _ w => w.updCore))
theorem State.memWf.hitBreak (h : s.memWf) {c k} : (s.hitBreak c k).memWf := h.updCtx.askHaltOf
theorem State.memWf.gangArrive (h : s.memWf) {c k rep} : (s.gangArrive c k rep).memWf := h.updTeam

theorem State.memWf.gangIssue (h : s.memWf) {c k i ws is} : (s.gangIssue c k i ws is).1.memWf := by
  unfold State.gangIssue
  split
  · exact .ite_fst h.openIssue (.ite_fst h.block h.block.gangArrive)
  · exact h.block.gangArrive

theorem State.memWf.attemptDecoded (h : s.memWf) {c k ws is} : (s.attemptDecoded c k ws is).1.memWf := by
  unfold State.attemptDecoded
  dsimp only
  split
  · exact h.holdBody.takeTrap
  · refine .ite_fst h.block ?_
    split
    · exact .ite_fst h.openIssue h.gangIssue
    · exact h.openIssue

theorem State.memWf.parityFail (h : s.memWf) {c a} : (s.parityFail c a).memWf := .ite h.failCore.resetControl h.failCore

theorem State.memWf.attempt (h : s.memWf) {c k} : (s.attempt c k).1.memWf := by
  refine .ite_fst h.block ?_
  split
  · exact h.fetchLine
  · extract_lets held fetched
    have w : fetched.memWf := .ite h h.touched
    split
    · exact w.skipBody
    · refine .ite_fst w.parityFail (.ite_fst w.hitBreak ?_)
      split
      · exact w.holdBody.takeTrap
      · exact w.attemptDecoded

theorem State.memWf.chosen (h : s.memWf) {c k} : (s.chosen c k).memWf := h.updTeam

theorem State.memWf.tryCore (h : s.memWf) {c} : (s.tryCore c).1.memWf := by
  have turned : State.memWf { s with turn := c.val + 1 } := h
  unfold State.tryCore
  dsimp -iota only
  split
  · exact turned
  · refine .ite_fst turned.chosen ?_
    split
    · exact turned.chosen.attempt.of_fst ‹_›
    · exact turned.chosen.attempt.of_fst ‹_›

/-! ## What every engine command shares -/

theorem forall_mem_modifyAt {α : Type} {P : α → Prop} {f : α → α} (hf : ∀ x, P x → P (f x)) {l : List α} (n : Nat) (h : ∀ x ∈ l, P x) :
    ∀ x ∈ modifyAt f l n, P x := by
  induction l generalizing n with
  | nil => exact h
  | cons a l ih =>
    obtain ⟨ha, hl⟩ := List.forall_mem_cons.1 h
    cases n with
    | zero => exact List.forall_mem_cons.2 ⟨hf a ha, hl⟩
    | succ n => exact List.forall_mem_cons.2 ⟨ha, ih n hl⟩

theorem State.memWf.updHome (h : s.memWf) {hm f}
    (hf : ∀ y : Team, Memory.wf y.spad = true → Memory.wf (f y).spad = true := by exact fun _ w => w) : (s.updHome hm f).memWf := by
  cases hm with
  | core c => exact h.updTeam hf
  | frame k m => exact h.updTask (fun x w => forall_mem_modifyAt hf m w)

theorem State.memWf.putCmdAt (h : s.memWf) {hm c} : (s.putCmdAt hm c).memWf := h.updHome

theorem State.memWf.endCmd (h : s.memWf) {c err v} : (s.endCmd c err v).1.memWf := h.takeDelay

theorem State.memWf.cmdFault (h : s.memWf) {e c asid cause va} : (s.cmdFault e c asid cause va).1.memWf := by
  unfold State.cmdFault
  split
  · exact h.park
  · exact h.record.endCmd

theorem State.memWf.poisonFault (h : s.memWf) {e c pa} : (s.poisonFault e c pa).1.memWf := h.record.endCmd
theorem State.memWf.cmdExc (h : s.memWf) {e c} : (s.cmdExc e c).memWf := h.recordExc
theorem State.memWf.failCmd (h : s.memWf) {e c err} : (s.failCmd e c err).1.memWf := h.cmdExc.endCmd

theorem State.memWf.cmdRead (h : s.memWf) {e c asid va n} : (s.cmdRead e c asid va n).1.memWf := by
  unfold State.cmdRead
  split
  · exact (h.pieces.of_fst ‹_›).cmdFault
  · have w := h.pieces.of_fst ‹_›
    split
    · exact w.poisonFault
    · exact w

theorem State.memWf.cmdSpan (h : s.memWf) {e c asid acc va n} : (s.cmdSpan e c asid acc va n).1.memWf := by
  unfold State.cmdSpan
  split
  · exact (h.pieces.of_fst ‹_›).cmdFault
  · exact h.pieces.of_fst ‹_›

theorem State.memWf.engPadWrite (h : s.memWf) {e a bs} : (s.engPadWrite e a bs).memWf := h.updHome (fun _ w => Memory.wf_memWrite _ _ w)

theorem State.memWf.countBuckets (h : s.memWf) {a n} : (s.countBuckets a n).memWf := .ite h h

theorem State.memWf.engWrite (h : s.memWf) {a bs} : (s.engWrite a bs).memWf := h.pwrite.countBuckets

/-- A move that keeps memories canonical, part by part and after a failure. -/
structure Mover.memWf (m : Mover) : Prop where
  act : ∀ {s c p pa}, State.memWf s → (m.act s c p pa).1.memWf
  put : ∀ {s p pa bs}, State.memWf s → (m.put s p pa bs).memWf

theorem Mover.memWf_moverIn {e mw sw f} : (moverIn e mw sw f).memWf := ⟨fun w => w.engPadWrite, fun w => w.engPadWrite⟩
theorem Mover.memWf_moverOut {e mw sw f} : (moverOut e mw sw f).memWf := ⟨fun w => w.engWrite, fun w => w.pwrite⟩

theorem Mover.memWf_view {v : View} {e out} : (v.mover e out).memWf := by
  unfold View.mover
  split
  · exact Mover.memWf_moverOut
  · exact Mover.memWf_moverIn

theorem State.memWf.leaveRest (h : s.memWf) {m : Mover} (hm : m.memWf) {e asid c l} : (s.leaveRest m e asid c l).memWf := by
  refine h.foldl _ (fun u p w => ?_)
  split
  · refine .ite w ?_
    extract_lets was new
    split
    refine .ite (hm.put w) (State.memWf.foldl ?_ _ (fun _ _ w => w.countBuckets))
    exact hm.put w
  · exact w

theorem State.memWf.stopAt {r : State × Cmd} (h : r.1.memWf) {m : Mover} (hm : m.memWf) {e asid l} : (State.stopAt m e asid l r).1.memWf := by
  unfold State.stopAt
  split
  · exact h.leaveRest hm
  · exact h

theorem State.memWf.overParts (h : s.memWf) {m : Mover} (hm : m.memWf) {e asid c l} : (s.overParts m e asid c l).1.memWf := by
  induction l generalizing s c with
  | nil => exact h
  | cons p l ih =>
    rw [State.overParts]
    split
    · exact State.memWf.stopAt (h.translate.of_fst ‹_›).cmdFault hm
    · have w := h.translate.of_fst ‹_›
      split
      · extract_lets k
        split
        have moved := (State.memWf.foldl_fst w _ (fun _ _ _ w => hm.act w)).of_fst ‹_›
        exact State.memWf.stopAt moved.poisonFault hm
      · split
        exact ih ((hm.act w).of_fst ‹_›)

theorem State.memWf.succeed (h : s.memWf) {e c v} : (s.succeed e c v).1.memWf := by
  unfold State.succeed
  extract_lets u
  have w : u.memWf := by
    unfold u
    split
    · exact h
    · exact h.cmdExc
  split
  · exact w.endCmd
  · exact w

end
end Sys2Proof.Machine

namespace Sys2Proof.Machine
section
variable {s t : State}

/-! ## Atomics (R205 to R207) -/

theorem State.memWf.atomAt (h : s.memWf) {pa op ty x y} : (s.atomAt pa op ty x y).1.memWf := h.pwrite

theorem State.memWf.atomkAt (h : s.memWf) {l addr baddr key row} : (s.atomkAt l addr baddr key row).1.memWf :=
  .ite_fst h (.ite_fst h.recordAt h.writePieces)

theorem State.memWf.endAtom (h : s.memWf) {e c w old} : (s.endAtom e c w old).1.memWf :=
  (State.memWf.ite h.engPadWrite h).cmdExc.endCmd

theorem State.memWf.runAtom (h : s.memWf) {e c w} : (s.runAtom e c w).1.memWf := by
  refine .ite_fst h.endCmd (.ite_fst h.endCmd (.ite_fst h.endCmd ?_))
  split
  · exact h.endCmd
  · exact h.send
  · split
    · exact h.cmdSpan.of_fst ‹_›
    · have r := h.cmdSpan.of_fst ‹_›
      refine .ite_fst r.endCmd ?_
      split
      · exact r.poisonFault
      · split
        exact (r.atomAt.of_fst ‹_›).endAtom

theorem State.memWf.runAtomk (h : s.memWf) {e c w} : (s.runAtomk e c w).1.memWf := by
  refine .ite_fst h.endCmd (.ite_fst h.endCmd (.ite_fst h.endCmd ?_))
  split
  · exact h.endCmd
  · exact h.send
  · split
    · exact h.cmdSpan.of_fst ‹_›
    · have r := h.cmdSpan.of_fst ‹_›
      refine .ite_fst r.endCmd ?_
      split
      · exact r.poisonFault
      · split
        · exact (r.atomkAt.of_fst ‹_›).record.endCmd
        · exact (r.atomkAt.of_fst ‹_›).endCmd
        · exact (r.atomkAt.of_fst ‹_›).cmdExc.endCmd

theorem State.memWf.peerAnswer (h : s.memWf) {e c err value data} : (s.peerAnswer e c err value data).1.memWf := by
  refine .ite_fst h.record.endCmd (.ite_fst h.record.endCmd (.ite_fst h.endCmd ?_))
  split
  · exact h.endAtom
  · exact h.cmdExc.endCmd

/-! ## Collectives, buckets and votes (R208 to R215) -/

theorem State.memWf.tellMembers (h : s.memWf) {members eps r m} : (s.tellMembers members eps r m).memWf :=
  h.foldl _ (fun _ _ w => .ite w (.ite w.send w.now))

theorem State.memWf.freeBytes (h : s.memWf) {n} : (s.freeBytes n).1.memWf := h

theorem State.memWf.dropBucket (h : s.memWf) {c} : (s.dropBucket c).memWf := by
  unfold State.dropBucket
  split
  · exact .ite h h
  · exact h

theorem State.memWf.endColl (h : s.memWf) {e c err} : (s.endColl e c err).1.memWf := by
  unfold State.endColl
  extract_lets v u
  split
  exact (h.dropBucket.endCmd.of_fst ‹_›).cmdExc

theorem State.memWf.stopColl (h : s.memWf) {e c} : (s.stopColl e c).1.memWf := by
  unfold State.stopColl
  split
  · split
    have w := (State.memWf.ite_fst h.dropBucket h).of_fst ‹_›
    exact w.cmdExc
  · exact h

theorem State.memWf.collDeliver (h : s.memWf) {e c} : (s.collDeliver e c).1.memWf := by
  refine .ite_fst ?_ ?_
  · split
    · exact h.engPadWrite.endColl
    · exact h
  · split
    · exact (h.cmdSpan.of_fst ‹_›).stopColl
    · have w := h.cmdSpan.of_fst ‹_›
      exact .ite_fst w.endColl w.writePieces.endColl

theorem State.memWf.collSpoil (h : s.memWf) {e c p} : (s.collSpoil e c p).memWf := by
  unfold State.collSpoil
  extract_lets d
  split
  have w := h.freeBytes.of_fst ‹_›
  refine .ite w.engPadWrite ?_
  split
  · exact (w.cmdSpan.of_fst ‹_›).writePieces
  · exact w

theorem State.memWf.collEnd (h : s.memWf) {r g parts} : (s.collEnd r g parts).memWf := by
  unfold State.collEnd
  split
  · exact h
  · extract_lets e own recorded spoiled fail
    have w : spoiled.memWf := h.record.collSpoil
    have failed err : (fail err).memWf := by
      unfold fail
      split
      exact (w.endColl.of_fst ‹_›).putCmdAt
    refine .ite (failed _) (.ite (failed _) ?_)
    split
    extract_lets c u
    have put : u.memWf := h.putCmdAt
    split
    exact (put.collDeliver.of_fst ‹_›).putCmdAt

theorem State.memWf.collMatch (h : s.memWf) {k} : (s.collMatch k).memWf := by
  unfold State.collMatch
  split
  · exact h
  · extract_lets ps qs u
    have w : u.memWf := h
    refine .ite h ?_
    split
    · exact w.collEnd
    · exact w

theorem State.memWf.collSettle (h : s.memWf) : s.collSettle.memWf := h.foldl _ (fun _ _ w => w.collMatch)

theorem State.memWf.enterColl (h : s.memWf) {c} : (s.enterColl c).1.memWf := by
  unfold State.enterColl
  split
  · exact h
  · exact .ite_fst h h

theorem State.memWf.joinColl (h : s.memWf) {c r g d data} : (s.joinColl c r g d data).memWf := by
  refine State.memWf.tellMembers ?_
  exact h

theorem State.memWf.failColl (h : s.memWf) {c group} : (s.failColl c group).memWf := by
  unfold State.failColl
  split
  · exact h
  · refine State.memWf.tellMembers ?_
    exact h

theorem State.memWf.beginColl (h : s.memWf) {e c} : (s.beginColl e c).1.memWf := by
  unfold State.beginColl
  extract_lets d
  split
  · exact (State.memWf.ite h h.failColl).endColl
  · split
    · exact h
    · extract_lets go
      have begun {u : State} (w : u.memWf) (data) : (go u data).1.memWf := w.joinColl
      refine .ite_fst (begun h _) ?_
      split
      · exact begun (h.cmdRead.of_fst ‹_›) _
      · have w := h.cmdRead.of_fst ‹_›
        refine State.memWf.stopColl ?_
        split
        · exact w.failColl
        · exact w

theorem State.memWf.runColl (h : s.memWf) {e c} : (s.runColl e c).1.memWf := by
  refine .ite_fst h.endCmd ?_
  split
  exact ((State.memWf.ite_fst h.enterColl h).of_fst ‹_›).beginColl

theorem State.memWf.runBkset (h : s.memWf) {e c} : (s.runBkset e c).1.memWf :=
  .ite_fst h.endCmd (.ite_fst h.endCmd (.ite_fst h.endCmd (.ite_fst h.endCmd (.ite_fst h.endCmd h))))

theorem State.memWf.runKick (h : s.memWf) {c} : (s.runKick c).1.memWf := by
  refine .ite_fst h.endCmd ?_
  split
  · exact h.endCmd
  · exact (State.memWf.ite h h.now).endCmd

theorem State.memWf.fireBucket (h : s.memWf) {b} : (s.fireBucket b).memWf := by
  unfold State.fireBucket
  split
  · exact h
  · refine .ite ?_ h
    split
    have w := (State.memWf.ite_fst h.enterColl h).of_fst ‹_›
    split
    exact (w.beginColl.of_fst ‹_›).putCmdAt.collSettle

theorem outcomeWf_bucketFire (h : s.memWf) : outcomeWf (execBucketFire s) := by
  unfold execBucketFire
  change State.memWf _
  split
  · split
    · refine .ite h (State.memWf.fireBucket ?_)
      exact h
    · exact h
  · exact h

theorem State.memWf.voteCheck (h : s.memWf) : s.voteCheck.memWf := by
  unfold State.voteCheck
  split
  · exact .ite h.now h
  · exact h

theorem State.memWf.runStepC (h : s.memWf) {e c} : (s.runStepC e c).1.memWf := by
  unfold State.runStepC
  split
  · exact h.endCmd
  · refine .ite_fst h.endCmd (.ite_fst h.endCmd ?_)
    refine State.memWf.voteCheck (State.memWf.tellMembers ?_)
    exact h

theorem State.memWf.endVote (h : s.memWf) {hm c err adv} : (s.endVote hm c err adv).memWf := h.putCmdAt.now

theorem outcomeWf_stepVoteComplete (h : s.memWf) : outcomeWf (execStepVoteComplete s) := by
  unfold execStepVoteComplete
  change State.memWf _
  split
  · split
    · exact h
    · refine .ite h (.ite ?_ (.ite h ?_))
      · refine State.memWf.foldl ?_ _ (fun _ _ w => w.endVote)
        exact h
      · refine State.memWf.voteCheck (State.memWf.foldl ?_ _ (fun _ _ w => w.endVote))
        exact h
  · exact h

theorem State.memWf.sidxRead (h : s.memWf) {e c l} : (s.sidxRead e c l).1.memWf := by
  induction l generalizing s c with
  | nil => exact h
  | cons p l ih =>
    rw [State.sidxRead]
    split
    · exact h.cmdRead.of_fst ‹_›
    · exact ih (h.cmdRead.of_fst ‹_›)

theorem State.memWf.runSidx (h : s.memWf) {e c} : (s.runSidx e c).1.memWf := by
  refine .ite_fst h.endCmd (.ite_fst h.endCmd (.ite_fst h.endCmd ?_))
  exact h.sidxRead.updHome

theorem State.memWf.endSidx (h : s.memWf) {e c} : (s.endSidx e c).1.memWf := (State.memWf.ite h h.record).updHome

theorem State.memWf.runRtab (h : s.memWf) {e c} : (s.runRtab e c).1.memWf := by
  unfold State.runRtab
  split
  · exact h.endCmd
  · refine .ite_fst h.endCmd ?_
    split
    · exact h.cmdSpan.of_fst ‹_›
    · have w := h.cmdSpan.of_fst ‹_›
      split
      · exact w.poisonFault
      · exact w.writePieces

/-! ## Copies (R198 to R204) -/

theorem State.memWf.runCpy (h : s.memWf) {e c out} : (s.runCpy e c out).1.memWf := by
  refine .ite_fst h.endCmd ?_
  dsimp -iota only
  split
  · exact h.endCmd
  · refine .ite_fst h.failCmd ?_
    split
    exact ((h.overParts Mover.memWf_view).of_fst ‹_›).succeed

theorem State.memWf.freePieces (h : s.memWf) {id} : (s.freePieces id).memWf := h

theorem Mover.memWf_stager {v : View} : v.stager.memWf := ⟨fun w => w, fun w => w⟩

theorem State.memWf.stageView (h : s.memWf) {e c v hi} : (s.stageView e c v hi).1.memWf := h.overParts Mover.memWf_stager

theorem State.memWf.spillCopies (h : s.memWf) {e c v} : (s.spillCopies e c v).memWf := h.foldl _ (fun _ _ w => w.leaveRest Mover.memWf_view)

theorem State.memWf.cpymNext (h : s.memWf) {e c v} : (s.cpymNext e c v).1.memWf := by
  unfold State.cpymNext
  extract_lets +lift hi r
  refine .ite_fst h ?_
  split
  have w := (State.memWf.ite_fst h.stageView h.stageView).of_fst ‹_›
  split
  · refine State.memWf.foldl ?_ _ (fun _ _ w => w.now)
    exact w
  · exact w.spillCopies.cmdExc
  · exact w

theorem State.memWf.runCpym (h : s.memWf) {e c} : (s.runCpym e c).1.memWf := by
  unfold State.runCpym
  split
  · exact h.endCmd
  · refine .ite_fst h.endCmd ?_
    dsimp -iota only
    split
    · exact h.endCmd
    · exact .ite_fst h.failCmd h.cpymNext

theorem Team.wf_engPut {t : Team} (a : Nat) (bs : List Byte) (h : Memory.wf t.spad = true) : Memory.wf (t.engPut a bs).spad = true :=
  Memory.wf_memWrite a bs h

theorem Team.wf_putParts {t : Team} (sw : Nat) (l : List Part) (bs : List Byte) (h : Memory.wf t.spad = true) :
    Memory.wf (t.putParts sw l bs).spad = true := by
  induction l generalizing t bs with
  | nil => exact h
  | cons p l ih => exact ih _ (Team.wf_engPut _ _ h)

theorem State.memWf.cpymCopy (h : s.memWf) {e c m x} : (s.cpymCopy e c m x).1.memWf := by
  unfold State.cpymCopy
  extract_lets v data hi u u' c'
  have w : u.memWf := h.updTeam (fun _ w => Team.wf_putParts _ _ _ w)
  have w' : u'.memWf := by
    unfold u'
    split
    · exact .ite w.updBarrier w
    · exact w
  exact .ite_fst w' (.ite_fst w'.freePieces.succeed w'.freePieces)

theorem outcomeWf_cpymCoreCopy (h : s.memWf) : outcomeWf (execCpymCoreCopy s) := by
  unfold execCpymCoreCopy
  change State.memWf _
  split
  · split
    · split
      · refine .ite ?_ h
        split
        exact (h.cpymCopy.of_fst ‹_›).putCmdAt
      · exact h
    · exact h
  · exact h

theorem State.memWf.endCpyl (h : s.memWf) {e c w err v} : (s.endCpyl e c w err v).1.memWf := by
  unfold State.endCpyl
  split
  exact (h.endCmd.of_fst ‹_›).updHome.cmdExc

theorem State.memWf.runCpyl (h : s.memWf) {e c w} : (s.runCpyl e c w).1.memWf := by
  unfold State.runCpyl
  dsimp -iota only
  split
  · exact h.endCpyl
  · refine .ite_fst h.endCpyl (.ite_fst h.endCpyl (.ite_fst h.endCpyl (.ite_fst h.engPadWrite.endCpyl ?_)))
    exact (h.foldl _ (fun _ _ w => w.updHome)).endCpyl

theorem State.memWf.runTopk (h : s.memWf) {e c w} : (s.runTopk e c w).1.memWf := by
  unfold State.runTopk
  dsimp -iota only
  split
  · exact h.endCpyl
  · exact .ite_fst h.endCpyl (.ite_fst h.endCpyl h.engPadWrite.endCpyl)

theorem State.memWf.readHandle (h : s.memWf) {e c n} : (s.readHandle e c n).1.memWf := by
  unfold State.readHandle
  split
  · exact .ite_fst h h
  · extract_lets base
    split
    · exact h.cmdRead.of_fst ‹_›
    · have w := h.cmdRead.of_fst ‹_›
      refine .ite_fst w ?_
      split
      · exact w.cmdRead.of_fst ‹_›
      · exact w.cmdRead.of_fst ‹_›

theorem State.memWf.sendAll (h : s.memWf) {v : View} {e c hd out} : (v.sendAll e c hd out s).1.memWf :=
  State.memWf.foldl_fst h _ (fun _ _ _ w => .ite_fst w.send w.send)

theorem State.memWf.runCpyh (h : s.memWf) {e c out} : (s.runCpyh e c out).1.memWf := by
  refine .ite_fst h.endCmd (.ite_fst h.endCmd ?_)
  dsimp -iota only
  split
  · exact h.endCmd
  · split
    · exact h.readHandle.of_fst ‹_›
    · exact (h.readHandle.of_fst ‹_›).endCmd
    · have w := h.readHandle.of_fst ‹_›
      exact .ite_fst w.endCmd (.ite_fst w.endCmd (.ite_fst w.endCmd w.sendAll))

theorem State.memWf.hostAnswer (h : s.memWf) {e c out err n data} : (s.hostAnswer e c out err n data).1.memWf := by
  refine .ite_fst h.record.cmdExc.endCmd ?_
  split
  · exact h
  · refine .ite_fst h ?_
    split
    have w := (State.memWf.ite_fst h h.engPadWrite).of_fst ‹_›
    exact .ite_fst w.succeed w

end
end Sys2Proof.Machine

namespace Sys2Proof.Machine
section
variable {s t : State}

/-! ## Actions on a space's structures

An action reaches the device only by translations, so whatever it reads and however it ends, it keeps the memories; its writes
are made when it is whole (R223, R311). -/

/-- The action keeps the memories of the device, with whatever it stops. -/
def KvM.keeps {α : Type} (m : KvM α) : Prop := ∀ k : KvSt, k.s.memWf → (StateT.run (ExceptT.run m) k).2.s.memWf

namespace KvM.keeps
variable {α β : Type}

theorem run {m : KvM α} (hm : m.keeps) (h : s.memWf) {tlb space r k} (e : KvM.run m s tlb space = (r, k)) : k.s.memWf := by
  have w := hm { s := s, log := [], tlb := tlb, space := space, noTag := false } h
  rw [show StateT.run (ExceptT.run m) _ = (r, k) from e] at w
  exact w

theorem pure {x : α} : (Pure.pure x : KvM α).keeps := fun _ h => h
theorem throw {e : KvStop} : (MonadExcept.throw e : KvM α).keeps := fun _ h => h
theorem get : (MonadState.get : KvM KvSt).keeps := fun _ h => h

theorem modify {f : KvSt → KvSt} (hf : ∀ k, (f k).s = k.s := by exact fun _ => rfl) : (modify f : KvM Unit).keeps := fun k h => by
  change (f k).s.memWf
  rw [hf]
  exact h

theorem bind {m : KvM α} {f : α → KvM β} (hm : m.keeps) (hf : ∀ x, (f x).keeps) : (m >>= f).keeps := fun k h => by
  have w := hm k h
  rw [ExceptT.run_bind, StateT.run_bind]
  rcases e : StateT.run (ExceptT.run m) k with ⟨r, l⟩
  rw [e] at w
  cases r with
  | ok x => exact hf x l w
  | error x => exact w

theorem tryCatch {m : KvM α} {f : KvStop → KvM α} (hm : m.keeps) (hf : ∀ x, (f x).keeps) : (MonadExcept.tryCatch m f).keeps := fun k h => by
  have w := hm k h
  rw [ExceptT.run_tryCatch, StateT.run_bind]
  rcases e : StateT.run (ExceptT.run m) k with ⟨r, l⟩
  rw [e] at w
  cases r with
  | ok x => exact w
  | error x => exact hf x l w

theorem ite {c : Prop} [Decidable c] {m n : KvM α} (hm : m.keeps) (hn : n.keeps) : (if c then m else n).keeps := by
  split
  · exact hm
  · exact hn

/-- A check that stops the action when it fails. -/
theorem check {c : Prop} [Decidable c] {e : KvStop} {f : PUnit → KvM α} (hf : (f ()).keeps) :
    (if c then (MonadExcept.throw e : KvM PUnit) >>= f else f ()).keeps := by
  split
  · exact bind throw (fun _ => hf)
  · exact hf

theorem forM {f : α → KvM PUnit} (hf : ∀ x, (f x).keeps) (l : List α) : (l.forM f).keeps := by
  induction l with
  | nil => exact pure
  | cons a l ih => exact bind (hf a) (fun _ => ih)

theorem mapM {f : α → KvM β} (hf : ∀ x, (f x).keeps) (l : List α) : (l.mapM f).keeps := by
  induction l with
  | nil => exact pure
  | cons a l ih =>
    rw [List.mapM_cons]
    exact bind (hf a) (fun _ => bind ih (fun _ => pure))

theorem kvD : Sys2Proof.Machine.kvD.keeps := bind get (fun _ => pure)

/-- A step that an action makes only in one case. -/
theorem optional {c : Prop} [Decidable c] {m : KvM PUnit} {f : PUnit → KvM α} (hm : m.keeps) (hf : ∀ r, (f r).keeps) :
    (if c then m >>= f else f ()).keeps := ite (bind hm hf) (hf ())

/-- An action that changes the device by a function of its state. -/
theorem getSet {g : KvSt → KvSt} {f : KvSt → PUnit → KvM α} (hg : ∀ k, k.s.memWf → (g k).s.memWf) (hf : ∀ k, (f k ()).keeps) :
    (MonadState.get >>= fun k => MonadStateOf.set (g k) >>= f k).keeps := fun k h => hf k (g k) (hg k h)

theorem kvTranslate {va acc} : (kvTranslate va acc).keeps := by
  refine getSet (fun k h => h.translate) (fun k => ?_)
  split
  · exact throw
  · exact pure

theorem kvReadParts {l} : (kvReadParts l).keeps := by
  induction l with
  | nil => exact pure
  | cons p l ih =>
    refine bind kvTranslate fun x => bind get fun k => check ?_
    split
    · exact throw
    · exact bind ih fun _ => pure

theorem kvRead {va n} : (kvRead va n).keeps := kvReadParts
theorem kvNat {va n} : (kvNat va n).keeps := bind kvRead fun _ => pure
theorem kvNoTag : Sys2Proof.Machine.kvNoTag.keeps := modify

theorem kvTry {m : KvM α} {x : α} (hm : m.keeps) : (kvTry m x).keeps := tryCatch hm fun _ => pure

theorem kvWriteParts {l bs} : (kvWriteParts l bs).keeps := by
  induction l generalizing bs with
  | nil => exact pure
  | cons p l ih => exact bind kvTranslate fun x => check (bind modify fun _ => ih)

theorem kvWrite {va bs} : (kvWrite va bs).keeps := kvWriteParts
theorem kvPut {va n x} : (kvPut va n x).keeps := kvWrite

theorem kvTake {a} : (kvTake a).keeps := bind kvNat fun _ => check (bind kvNat fun _ => bind kvPut fun _ => pure)
theorem kvGive {a b} : (kvGive a b).keeps := bind kvNat fun _ => bind kvPut fun _ => kvPut

theorem kvEntry {q} : (kvEntry q).keeps := bind kvD fun _ => check (bind kvNat fun _ => ite pure throw)
theorem kvEntryNoTag {q} : (kvEntryNoTag q).keeps := bind kvNoTag fun _ => kvEntry
theorem kvChain {a} : (kvChain a).keeps := bind kvRead fun _ => pure
theorem kvChainOf {a e} : (kvChainOf a e).keeps := bind kvD fun _ => kvChain
theorem kvPage {p} : (kvPage p).keeps := bind kvRead fun _ => pure

theorem kvFind {q n last p} : (kvFind q n last p).keeps := by
  induction n generalizing last p with
  | zero => exact throw
  | succ n ih =>
    refine check (bind kvD fun _ => bind kvPage fun _ => check (ite (ite pure throw) (ite ih ?_)))
    exact bind kvPage fun _ => ite ih ih

theorem kvNear {tail q} : (kvNear tail q).keeps := bind kvFind fun _ => ite throw pure
theorem kvRows {p v q n} : (kvRows p v q n).keeps := bind kvD fun _ => kvRead
theorem kvRef {a up} : (kvRef a up).keeps := bind kvNat fun _ => bind kvPut fun _ => pure

theorem kvFreePage {n p} : (kvFreePage n p).keeps := by
  induction n generalizing p with
  | zero => exact pure
  | succ n ih =>
    refine bind get fun _ => ite pure (bind kvD fun _ => bind kvPage fun _ => ?_)
    exact optional kvGive fun _ => bind kvGive (fun _ => ite pure (bind kvRef fun _ => ite ih pure))

theorem kvDropPage {p} : (kvDropPage p).keeps := bind kvRef fun _ => ite kvFreePage pure
theorem kvTails {root} : (kvTails root).keeps := bind kvD fun _ => bind kvRead fun _ => pure

theorem kvDropRoot {root} : (kvDropRoot root).keeps :=
  bind kvRef fun _ => ite (bind kvD fun _ => bind kvTails fun l => bind (forM (fun _ => kvDropPage) l) fun _ => kvGive) pure

theorem kvRelease {p} : (kvRelease p).keeps := ite pure (bind kvPage fun _ => ite kvFreePage pure)
theorem kvNewBlocks : Sys2Proof.Machine.kvNewBlocks.keeps := bind kvD fun _ => bind kvTake fun _ => bind kvTake fun _ => pure

theorem kvSplit {q e} : (kvSplit q e).keeps := by
  refine bind kvD fun _ => bind kvNat fun _ => ite pure (bind kvTake fun _ => bind kvRead fun _ => bind kvWrite fun _ => bind kvTails fun l => ?_)
  exact bind (forM (fun _ => bind kvRef fun _ => pure) l) fun _ => bind kvPut fun _ => bind kvPut fun _ => pure

theorem kvTailPage {c} : (kvTailPage c).keeps := by
  refine bind kvD fun _ => ite (bind kvNewBlocks fun _ => bind kvPut fun _ => pure) (bind kvPage fun _ => check ?_)
  refine ite (bind kvNewBlocks fun _ => bind kvPut fun _ => pure) (check (ite (bind kvNewBlocks fun _ => ?_) pure))
  refine bind kvRead fun _ => bind kvRead fun _ => bind kvWrite fun _ => bind kvWrite fun _ => ?_
  have rest {x p : Nat} {h : KvPage} : (Machine.kvDropPage x >>= fun _ => Machine.kvPut c.at_ 8 p >>= fun _ => Pure.pure h).keeps :=
    bind kvDropPage fun _ => bind kvPut fun _ => pure
  exact ite (bind kvRef fun _ => rest) rest

theorem kvAppendRow {c k v} : (kvAppendRow c k v).keeps :=
  bind kvD fun _ => bind kvTailPage fun _ => bind kvWrite fun _ => bind kvWrite fun _ =>
    ite (bind kvWrite fun _ => kvPut) (bind kvPut fun _ => kvPut)

theorem kvBind {ro l} : (kvBind ro l).keeps :=
  bind kvD fun _ => bind (forM (fun _ => bind kvRef fun _ => pure) l) fun _ => bind (forM (fun _ => kvPut) l) fun _ =>
    forM (fun _ => ite kvDropRoot pure) l

theorem kvMarkTails {root} : (kvMarkTails root).keeps := bind kvTails fun l => forM (fun _ => bind kvNat fun _ => kvPut) l
theorem kvFreeze {q e} : (kvFreeze q e).keeps := bind kvD fun _ => bind kvNat fun _ => optional kvPut fun _ => kvMarkTails
theorem kvEntries {l} : (kvEntries l).keeps := bind kvD fun _ => mapM (fun _ => kvNat) l

theorem kvRemap {l} : (kvRemap l).keeps :=
  bind kvD fun _ => check (bind kvEntries fun _ => check (bind kvEntries fun _ => kvBind))

theorem kvShare {q e l} : (kvShare q e l).keeps :=
  bind kvD fun _ => check (bind kvEntries fun _ => bind kvBind fun _ => kvFreeze)

theorem pfxSearch {hash n free b} : (pfxSearch hash n free b).keeps := by
  induction n generalizing free b with
  | zero => exact pure
  | succ n ih =>
    refine bind kvRead fun _ => ?_
    dsimp only
    split
    · exact pure
    · exact ite pure ih

theorem pfxBucket {hash} : (pfxBucket hash).keeps := bind kvD fun _ => check pure

theorem pfxFind {hash} : (pfxFind hash).keeps := bind pfxBucket fun _ => bind pfxSearch fun r => by
  split
  · exact pure
  · exact throw

theorem pfxInsert {hash q e len adopt} : (pfxInsert hash q e len adopt).keeps := by
  refine bind kvD fun _ => bind pfxBucket fun _ => bind kvChain fun _ => check (bind pfxSearch fun r => ?_)
  split
  · exact optional kvRemap fun _ => pure
  · exact bind kvPut fun _ => bind kvPut fun _ => bind kvFreeze fun _ => pure
  · exact bind kvTake fun _ => bind kvWrite fun _ => bind kvPut fun _ => bind kvFreeze fun _ => pure

theorem kvPromote {a} : (kvPromote a).keeps := bind kvD fun _ => bind kvPage fun _ => bind kvTake fun _ => bind kvPut fun _ => pure

theorem kvInstall {p} : (kvInstall p).keeps :=
  bind kvD fun _ => bind kvPage fun _ => ite (bind kvWrite fun _ => bind kvWrite fun _ => pure) (bind kvGive fun _ => pure)

theorem kvAbandon {p} : (kvAbandon p).keeps := bind kvD fun _ => bind kvGive fun _ => bind kvPage fun _ => ite kvPut pure

theorem kvAhead {n p} : (kvAhead n p).keeps := by
  induction n generalizing p with
  | zero => exact pure
  | succ n ih =>
    refine kvTry (ite pure (bind kvD fun _ => bind kvPage fun _ => ite pure ?_))
    exact bind (kvTry (ite pure (bind kvRead fun _ => pure))) fun _ => bind ih fun _ => pure

theorem kvLoadRows {tail published v q n} : (kvLoadRows tail published v q n).keeps :=
  bind kvD fun _ => ite pure (bind kvNear fun _ => bind kvRows fun _ => pure)

theorem kvOpen {a e} : (kvOpen a e).keeps :=
  bind kvNoTag fun _ => bind kvD fun _ => check (bind kvSplit fun _ => bind kvChain fun _ =>
    ite (bind kvPut fun _ => bind kvPut fun _ => pure) pure)

theorem kvAppend {a pos k v} : (kvAppend a pos k v).keeps :=
  bind kvNoTag fun _ => bind kvChain fun _ => check (bind kvAppendRow fun _ => bind kvChain fun _ => pure)

theorem kvFarPages {tail lo n hi} : (kvFarPages tail lo n hi).keeps := by
  induction n generalizing hi with
  | zero => exact pure
  | succ n ih => exact ite pure (bind kvFind fun _ => bind ih fun _ => pure)

theorem kvPromRange {tail published pos n} : (kvPromRange tail published pos n).keeps :=
  bind kvFarPages fun l => mapM (fun _ => kvPromote) l

theorem kvTile {page v lo n hi} : (kvTile page v lo n hi).keeps := by
  induction n generalizing hi with
  | zero => exact pure
  | succ n ih => exact ite pure (bind kvNear fun _ => bind kvRows fun _ => bind ih fun _ => pure)

end KvM.keeps

/-! ## KV commands (R217 to R227, R311 to R316) -/

theorem State.memWf.kvCommit {k : KvSt} (h : k.s.memWf) : k.commit.memWf := h.foldl _ (fun _ _ w => w.pwrite)

theorem State.memWf.setKvDesc (h : s.memWf) {space d} : (s.setKvDesc space d).memWf := h
theorem State.memWf.askFar (h : s.memWf) {space host r p b} : (s.askFar space host r p b).memWf := h

theorem State.memWf.kvEnd (h : s.memWf) {e c asid x} : (s.kvEnd e c asid x).1.memWf := by
  unfold State.kvEnd
  split
  · exact h.cmdFault
  · exact h.poisonFault
  · exact h.endCmd
  · exact h.record.endCmd
  · exact h

theorem State.memWf.kvStop (h : s.memWf) {e c space x} : (s.kvStop e c space x).1.memWf := by
  unfold State.kvStop
  extract_lets d
  split
  · split
    · exact (KvM.keeps.kvPromote.run h ‹_›).kvEnd
    · exact (KvM.keeps.kvPromote.run h ‹_›).kvCommit.askFar.record
  · exact h.kvEnd

theorem State.memWf.kvDo {α : Type} (h : s.memWf) {m : KvM α} (hm : m.keeps) {e c space} {ok : State → α → State × Cmd}
    (hok : ∀ {u : State} {x : α}, u.memWf → (ok u x).1.memWf) : (s.kvDo e c space m ok).1.memWf := by
  unfold State.kvDo
  split
  · exact hok (hm.run h ‹_›).kvCommit
  · exact (hm.run h ‹_›).kvStop

theorem State.memWf.kvSeq (h : s.memWf) {m : KvM Nat} (hm : m.keeps) {e c space} {ok : State → Cmd → Nat → State × Cmd}
    (hok : ∀ {u : State} {d : Cmd} {x : Nat}, u.memWf → (ok u d x).1.memWf) : (s.kvSeq e c space m ok).1.memWf := by
  unfold State.kvSeq
  split
  · exact h.kvDo hm hok
  · exact hok h

theorem State.memWf.kvReport (h : s.memWf) {k core a asid x} : (s.kvReport k core a asid x).memWf := by
  unfold State.kvReport
  extract_lets rec_
  have w (c : Cause) (v : Nat) : (rec_ c v).memWf := h.record
  split
  · exact w _ _
  · exact w _ _
  · exact w _ _
  · exact h
  · exact h

theorem State.memWf.kvUnhold (h : s.memWf) {e a space p} : (s.kvUnhold e a space p).memWf := by
  refine .ite h ?_
  split
  · exact (KvM.keeps.kvRelease.run h ‹_›).kvCommit
  · exact (KvM.keeps.kvRelease.run h ‹_›).park
  · exact (KvM.keeps.kvRelease.run h ‹_›).kvReport

theorem State.memWf.kvHold (h : s.memWf) {e c space p} : (s.kvHold e c space p).1.memWf := .ite_fst h h.putCmdAt.kvUnhold

/-- The run-ahead looks at the next pages and promotes far ones. -/
theorem State.memWf.runAhead (h : s.memWf) {e space page q} : (s.runAhead e space page q).memWf := by
  have look {n p} : KvM.keeps (kvTry (do
      let h ← kvFind q n page p
      let l ← kvAhead 4 h.succ
      pure (l.filter (fun h => h.far && !h.prom))) []) := .kvTry (.bind .kvFind fun _ => .bind .kvAhead fun _ => .pure)
  unfold State.runAhead
  split
  · exact look.run h ‹_›
  · refine (look.run h ‹_›).foldl _ (fun u p w => ?_)
    split
    · exact (KvM.keeps.kvPromote.run w ‹_›).kvCommit.askFar
    · exact KvM.keeps.kvPromote.run w ‹_›

theorem State.memWf.kvldRest (h : s.memWf) {e c space tail published v pos n rb} : (s.kvldRest e c space tail published v pos n rb).memWf := by
  refine h.foldl _ (fun u i w => ?_)
  dsimp -iota only
  split
  · exact (KvM.keeps.kvLoadRows.run w ‹_›).engPadWrite
  · exact w

theorem State.memWf.kvldRows (h : s.memWf) {e space tail published v pos n rb fuel c} :
    (s.kvldRows e space tail published v pos n rb fuel c).1.memWf := by
  induction fuel generalizing s c with
  | zero => exact h
  | succ fuel ih =>
    rw [State.kvldRows]
    refine .ite_fst h.endCmd ?_
    split
    · split
      have w := (KvM.keeps.kvLoadRows.run h ‹_›).kvStop.of_fst ‹_›
      split
      · exact w.kvldRest
      · exact w
    · have r := KvM.keeps.kvLoadRows.run h ‹_›
      exact ih (.ite r.engPadWrite.runAhead r.engPadWrite)

theorem State.memWf.runKvld (h : s.memWf) {e c w} : (s.runKvld e c w).1.memWf := by
  refine .ite_fst h.endCmd (.ite_fst h.endCmd (.ite_fst ?_ h.kvldRows))
  refine h.kvSeq .kvEntry (fun r => r.kvDo .kvChainOf (fun q => ?_))
  split
  have held := q.kvHold.of_fst ‹_›
  exact State.memWf.kvldRows (.ite held.runAhead held)

theorem State.memWf.kvappRows (h : s.memWf) {e space at_ pos n rb fuel c} : (s.kvappRows e space at_ pos n rb fuel c).1.memWf := by
  induction fuel generalizing s c with
  | zero => exact h
  | succ fuel ih =>
    rw [State.kvappRows]
    refine .ite_fst h.endCmd ?_
    dsimp -iota only
    split
    · exact (KvM.keeps.kvAppend.run h ‹_›).kvStop
    · split
      have held := (KvM.keeps.kvAppend.run h ‹_›).kvCommit.kvHold.of_fst ‹_›
      exact ih (.ite held.runAhead held)

theorem State.memWf.runKvapp (h : s.memWf) {e c w} : (s.runKvapp e c w).1.memWf := by
  refine .ite_fst h.endCmd (.ite_fst h.endCmd (.ite_fst ?_ h.kvappRows))
  refine h.kvSeq .kvEntryNoTag (fun r => .ite_fst r (r.kvDo .kvOpen (fun q => ?_)))
  split
  have held := q.kvHold.of_fst ‹_›
  exact State.memWf.kvappRows (.ite held held.runAhead)

theorem State.memWf.runKvremap (h : s.memWf) {e c w} : (s.runKvremap e c w).1.memWf := by
  refine .ite_fst h.endCmd ?_
  split
  · exact h.endCmd
  · exact .ite_fst h.endCmd (h.kvDo .kvRemap (fun r => r.endCmd))

theorem State.memWf.runKvshare (h : s.memWf) {e c w} : (s.runKvshare e c w).1.memWf := by
  refine .ite_fst h.endCmd ?_
  split
  · exact h.endCmd
  · exact .ite_fst h.endCmd (h.kvSeq .kvEntry (fun r => r.kvDo .kvShare (fun q => q.endCmd)))

theorem State.memWf.runKvprom (h : s.memWf) {e c w} : (s.runKvprom e c w).1.memWf := by
  refine .ite_fst h.endCmd ?_
  have asked {u : State} (r : u.memWf) {d : Cmd} : (u.kvDo e d (kvSpace w) (kvPromRange (natAt d.blob 0 8) (natAt d.blob 8 4) (kvaPos d.b) c.c.toNat) (fun s l =>
      if l = [] then s.endCmd d 0 0
      else (l.foldl (fun s p => s.askFar (kvSpace w) e.host (some (e.ref d)) p.1 p.2) s, { d with state := .waiting }))).1.memWf :=
    r.kvDo .kvPromRange (fun q => .ite_fst q.endCmd (q.foldl _ (fun _ _ w => w.askFar)))
  exact .ite_fst (h.kvSeq .kvEntry (fun r => r.kvDo .kvChainOf (fun q => asked q))) (asked h)

theorem State.memWf.runPfxfind (h : s.memWf) {e c w} : (s.runPfxfind e c w).1.memWf :=
  .ite_fst h.endCmd (h.kvDo .pfxFind (fun r => r.endCmd))

theorem State.memWf.runPfxins (h : s.memWf) {e c w} : (s.runPfxins e c w).1.memWf :=
  .ite_fst h.endCmd (h.kvSeq .kvEntry (fun r => r.kvDo .pfxInsert (fun q => q.endCmd)))

/-! ## The arrival of far data (R315) -/

theorem State.memWf.dropProm (h : s.memWf) {p} : (s.dropProm p).memWf := h

theorem State.memWf.promDone (h : s.memWf) {p b} : (s.promDone p b).memWf := by
  unfold State.promDone
  split
  · exact h
  · split
    · refine .ite ?_ h
      extract_lets d
      split
      exact ((State.memWf.ite_fst h h.endCmd).of_fst ‹_›).putCmdAt
    · exact h

/-- A change of every core and of every task. -/
theorem State.memWf.mapBoth (h : s.memWf) {f : Core → Core} {g : Task → Task}
    (hf : ∀ y : Core, Memory.wf y.team.spad = true → Memory.wf (f y).team.spad = true) (hg : ∀ x : Task, x.framesWf → (g x).framesWf) :
    State.memWf { s with cores := s.cores.map f, tasks := s.tasks.map g } := by
  obtain ⟨mem, spads, frames⟩ := h.mapTasks hg
  refine ⟨mem, fun c => ?_, frames⟩
  have e : (s.cores.map f).get c = f (s.cores.get c) := Vector.getElem_map ..
  rw [State.coreAt, e]
  exact hf _ (spads c)

/-- Waking the consumers of a page changes commands of the teams and frames alone. -/
theorem State.memWf.farDone (h : s.memWf) {asid header near own} : (s.farDone asid header near own).memWf := by
  refine h.mapBoth (fun y w => ?_) (fun x w => Task.framesWf_map w (fun _ w => w))
  split
  · exact w
  · exact w

theorem State.memWf.promEnd (h : s.memWf) {p b} : (s.promEnd p b).memWf := (State.memWf.ite h h.setKvDesc).dropProm.promDone.farDone

theorem State.memWf.promArrive (h : s.memWf) {p data} : (s.promArrive p data).memWf := by
  unfold State.promArrive
  extract_lets asid
  split
  split
  · exact (KvM.keeps.kvInstall.run h ‹_›).park
  · exact (KvM.keeps.kvInstall.run h ‹_›).kvReport.dropProm.promDone.farDone
  · exact (KvM.keeps.kvInstall.run h ‹_›).kvCommit.promEnd

theorem State.memWf.promBack (h : s.memWf) {p b} : (s.promBack p b).1.memWf := by
  unfold State.promBack
  extract_lets asid
  split
  split
  · exact (KvM.keeps.kvAbandon.run h ‹_›).kvCommit
  · exact .ite_fst (KvM.keeps.kvAbandon.run h ‹_›).kvReport (KvM.keeps.kvAbandon.run h ‹_›).park
  · exact (KvM.keeps.kvAbandon.run h ‹_›).kvReport

theorem State.memWf.promLost (h : s.memWf) {p b} : (s.promLost p b).memWf := by
  unfold State.promLost
  split
  · exact h.promBack.of_fst ‹_›
  · have w := (h.promBack.of_fst ‹_›).dropProm (p := p)
    extract_lets u
    split
    · exact w
    · refine .ite ?_ ?_
      · split
        exact (w.endCmd.of_fst ‹_›).putCmdAt
      · split
        · refine .ite ?_ w
          split
          exact (w.endCmd.of_fst ‹_›).putCmdAt
        · exact w

theorem outcomeWf_promotionInstall (h : s.memWf) : outcomeWf (execPromotionInstall s) := by
  unfold execPromotionInstall
  change State.memWf _
  split
  · split
    · exact h.promArrive
    · exact h
  · exact h

end
end Sys2Proof.Machine

namespace Sys2Proof.Machine
section
variable {s t : State}

/-! ## The attention sequencer (R227, R317 to R325) -/

theorem Team.wf_seqHalt {t : Team} (h : Memory.wf t.spad = true) : Memory.wf t.seqHalt.spad = true := by
  unfold Team.seqHalt
  split
  · exact h
  · exact h

theorem Team.wf_seqResume {t : Team} (h : Memory.wf t.spad = true) : Memory.wf t.seqResume.spad = true := by
  unfold Team.seqResume
  split
  · exact h
  · exact h

theorem Team.wf_putP {t : Team} (a r : Nat) (ps : List Nat) (h : Memory.wf t.spad = true) : Memory.wf (t.putP a r ps).spad = true :=
  List.foldlRecOn (motive := fun t : Team => Memory.wf t.spad = true) _ _ h (fun _ w _ _ => Team.wf_engPut _ _ w)

theorem Team.spad_withSeq (y : Team) (q : SeqState) : Team.spad { y with seq := q } = y.spad := rfl

/-- What a row of `SMAX` computes is opaque here: it changes the scratchpad by `putP` alone. -/
theorem Team.wf_smax {t : Team} (r : Nat) (h : Memory.wf t.spad = true) : Memory.wf (t.smax r).spad = true := by
  rw [Team.smax]
  generalize smaxRow _ _ _ = x
  obtain ⟨m, sum, corr, ps⟩ := x
  exact (congrArg Memory.wf (Team.spad_withSeq (t.putP _ _ _) _)).trans (Team.wf_putP _ _ _ h)

theorem Team.wf_putRows {t : Team} (q : SeqState) (n : Nat) (l : List VecBits) (h : Memory.wf t.spad = true) :
    Memory.wf (t.putRows q n l).spad = true := h

theorem State.memWf.runAttn (h : s.memWf) {e c w} : (s.runAttn e c w).1.memWf := by
  refine .ite_fst (h.updHome fun _ w => Team.wf_seqResume w) (.ite_fst h.endCmd (.ite_fst h.endCmd (.ite_fst h.endCmd ?_)))
  exact h.kvSeq .kvEntry (fun r => r.kvDo .kvChainOf (fun q => q.updHome))

theorem State.memWf.updSeq (h : s.memWf) {c f} : (s.updSeq c f).memWf := h.updTeam
theorem State.memWf.seqOver (h : s.memWf) {c x} : (s.seqOver c x).memWf := h.updTeam.putCmdAt.kvUnhold

theorem State.memWf.seqFail (h : s.memWf) {c n} : (s.seqFail c n).memWf := by
  unfold State.seqFail
  dsimp -iota only
  split
  · exact h.updTeam
  · split
    exact (h.record.endCmd.of_fst ‹_›).seqOver

theorem State.memWf.seqStep (h : s.memWf) {c} : (s.seqStep c).memWf := h.updSeq

/-- A micro-operation keeps the memories when its effect does: a rule that it breaks ends the run. -/
theorem outcomeWf_micro (h : s.memWf) {i checks f} (hf : ∀ (u : State) (c), u.memWf → (f u c).memWf) : outcomeWf (s.micro i checks f) := by
  unfold State.micro
  change State.memWf _
  split
  · refine .ite h ?_
    split
    · exact h.seqFail
    · exact hf _ _ h
  · exact h

theorem State.memWf.seqStopped (h : s.memWf) {c x} : (s.seqStopped c x).memWf := by
  unfold State.seqStopped
  split
  · exact (h.updTeam fun _ w => Team.wf_seqHalt w).putCmdAt
  · exact h.seqOver

/-- Both tiles of a step are read as one action. -/
theorem KvM.keeps.kvTiles {page lo n hi} : KvM.keeps (do
    let k ← Sys2Proof.Machine.kvTile page false lo n hi
    let v ← Sys2Proof.Machine.kvTile page true lo n hi
    Pure.pure (k, v) : KvM _) := .bind .kvTile fun _ => .bind .kvTile fun _ => .pure

theorem State.memWf.fetchkv (h : s.memWf) {c} : (s.fetchkv c).memWf := by
  unfold State.fetchkv
  dsimp -iota only
  split
  · exact h.updSeq
  · split
    · split
      exact ((KvM.keeps.kvTiles.run h.updSeq ‹_›).kvStop.of_fst ‹_›).seqStopped
    · have w := KvM.keeps.kvTiles.run h.updSeq ‹_›
      refine .ite w.seqFail (State.memWf.seqStep ?_)
      exact .ite w.engPadWrite.updSeq.runAhead w.engPadWrite.updSeq

theorem outcomeWf_fetchkv (h : s.memWf) : outcomeWf (execFetchkv s) := by
  unfold execFetchkv
  refine outcomeWf_micro h (fun _ _ w => ?_)
  exact w.fetchkv
theorem outcomeWf_score (h : s.memWf) : outcomeWf (execScore s) := by
  unfold execScore
  refine outcomeWf_micro h (fun _ _ w => (w.updTeam fun y k => ?_).seqStep)
  extract_lets q ts y'
  have r : Memory.wf y'.spad = true := Team.wf_putRows _ _ _ k
  exact r
theorem outcomeWf_scale (h : s.memWf) : outcomeWf (execScale s) := by
  refine outcomeWf_micro h (fun _ _ w => ?_)
  exact (w.updTeam fun _ k => Team.wf_putRows _ _ _ k).seqStep
theorem outcomeWf_mask (h : s.memWf) : outcomeWf (execMask s) := by
  refine outcomeWf_micro h (fun _ _ w => ?_)
  exact (w.updTeam fun _ k => Team.wf_putRows _ _ _ k).seqStep

theorem outcomeWf_smax (h : s.memWf) : outcomeWf (execSmax s) := by
  refine outcomeWf_micro h (fun _ _ w => ?_)
  exact (w.updTeam fun _ k => List.foldlRecOn (motive := fun t : Team => Memory.wf t.spad = true) _ _ k (fun _ v _ _ => Team.wf_smax _ v)).updSeq.seqStep

theorem outcomeWf_weigh (h : s.memWf) : outcomeWf (execWeigh s) := by
  refine outcomeWf_micro h (fun _ _ w => ?_)
  exact (w.updTeam fun _ k => Team.wf_putRows _ _ _ k).updSeq.seqStep

theorem State.memWf.seqWalk (h : s.memWf) {c} : (s.seqWalk c).memWf := by
  refine .ite h ?_
  split
  · exact h
  · have w := KvM.keeps.kvFind.run h ‹_›
    exact .ite w w.updSeq.kvUnhold

theorem outcomeWf_seqNext (h : s.memWf) : outcomeWf (execSeqNext s) := by
  refine outcomeWf_micro h (fun _ _ w => ?_)
  exact w.updSeq.seqWalk.seqStep
theorem outcomeWf_jump (h : s.memWf) : outcomeWf (execJump s) := by
  refine outcomeWf_micro h (fun _ _ w => ?_)
  exact w.updSeq

theorem outcomeWf_flush (h : s.memWf) : outcomeWf (execFlush s) := by
  unfold execFlush
  refine outcomeWf_micro h (fun _ _ w => ?_)
  exact (w.updTeam fun _ k => Team.wf_engPut _ _ k).updSeq.seqStep

theorem outcomeWf_seqEnd (h : s.memWf) : outcomeWf (execSeqEnd s) := by
  refine outcomeWf_micro h (fun _ _ w => ?_)
  split
  · exact w.updTeam
  · split
    exact (w.endCmd.of_fst ‹_›).seqOver

end
end Sys2Proof.Machine

namespace Sys2Proof.Machine
section
variable {s t : State}

/-! ## Submission (R89, R280, R282) -/

theorem State.memWf.failEarly (h : s.memWf) {id cause v} : (s.failEarly id cause v).memWf := h.recordAt.failTask

/-- A task that enters brings frames in canonical form. -/
theorem State.memWf.addTask (h : s.memWf) {x : Task} (hx : x.framesWf) : State.memWf { s with tasks := s.tasks ++ [x] } := by
  obtain ⟨mem, spads, frames⟩ := h
  exact ⟨mem, spads, List.forall_mem_append.2 ⟨frames, List.forall_mem_singleton.2 hx⟩⟩

theorem State.memWf.enterTask (h : s.memWf) {asid a b q host} : (s.enterTask asid a b q host).memWf := by
  unfold State.enterTask
  extract_lets tcb x
  exact State.memWf.kick (s := { s with tasks := s.tasks ++ [x], nextId := s.nextId + 1, marks := _ })
    (h.addTask (x := x) (List.forall_mem_nil _))

theorem State.memWf.submitTcb (h : s.memWf) {k asid a queue host} : (s.submitTcb k asid a queue host).1.memWf := by
  refine .ite_fst h (.ite_fst h ?_)
  split
  · exact h.pieces.of_fst ‹_›
  · have w := h.pieces.of_fst ‹_›
    refine .ite_fst w ?_
    split
    · exact w.enterTask.failEarly
    · exact .ite_fst w (.ite_fst w w.enterTask)

theorem State.memWf.runLaunch (h : s.memWf) {e c queue} : (s.runLaunch e c queue).1.memWf := by
  unfold State.runLaunch
  split
  · exact (h.submitTcb.of_fst ‹_›).endCmd
  · exact (h.submitTcb.of_fst ‹_›).endCmd
  · exact (h.submitTcb.of_fst ‹_›).cmdFault
  · split
    exact (h.submitTcb.of_fst ‹_›).cmdFault.of_fst ‹_›

/-! ## The scheduler (R288 to R292, R299, R302) -/

theorem State.memWf.withdraw (h : s.memWf) {id} : (s.withdraw id).memWf := by
  refine (h.foldl _ (fun u x w => ?_)).foldl _ (fun u c w => .ite w.updCore w)
  exact .ite w (.ite (w.updTask.foldl _ (fun _ _ w => w.updCore)) w.updTask)

theorem State.memWf.unreserve (h : s.memWf) {id} : (s.unreserve id).memWf := h

theorem State.memWf.wakeCores (h : s.memWf) {cs} : (s.wakeCores cs).1.memWf := by
  refine .ite_fst ?_ h
  split
  exact (h.takeDelay.of_snd ‹_›).foldl _ (fun _ _ w => w.updCore)

/-- A delay that is drawn in one case alone. -/
theorem State.memWf.delayIf (h : s.memWf) {c : Prop} [Decidable c] {n : Nat} : (if c then (n, s) else s.takeDelay).2.memWf := by
  split
  · exact h
  · exact h.takeDelay

theorem State.memWf.withResumes (h : s.memWf) {l} : State.memWf { s with resumes := l } := h

theorem State.memWf.placeAt (h : s.memWf) {x cs} : (s.placeAt x cs).memWf := by
  unfold State.placeAt
  dsimp -iota only
  split
  split
  have w := ((h.unreserve.withdraw.wakeCores.of_fst ‹_›).delayIf.of_snd ‹_›).foldl cs
    (f := fun s c => s.updCore (computeCore c) (fun y => { y with task := some x.id })) (fun _ _ w => w.updCore)
  exact w.withResumes.updTask

theorem State.memWf.place? (h : s.memWf) {x} (e : s.place? x = some t) : t.memWf := by
  obtain ⟨p, _, rfl⟩ := Option.map_eq_some_iff.1 e
  exact h.placeAt

theorem State.memWf.ask (h : s.memWf) {x k} : (s.ask x k).memWf := h.foldl _ (fun _ _ w => .ite w.updCore.now w.updCore)

theorem State.memWf.preempt (h : s.memWf) {x lvl} : (s.preempt x lvl).memWf := by
  refine .ite h ?_
  split
  · exact h.abortScan
  · refine h.foldl _ (fun u y w => ?_)
    split
    · exact w.ask.updTask
    · exact w

theorem State.memWf.migrate (h : s.memWf) : s.migrate.memWf := by
  refine h.foldl _ (fun u y w => ?_)
  split
  · exact w.ask.updTask
  · exact w

theorem State.memWf.setCredit (h : s.memWf) {q n} : (s.setCredit q n).memWf := h

theorem State.memWf.schedTurn (h : s.memWf) {lvl e} : (s.schedTurn lvl e).1.memWf := by
  unfold State.schedTurn
  extract_lets a u
  have w : u.memWf := .ite (h.foldl _ (fun _ _ w => w.setCredit)) h
  split
  · exact w
  · split
    · exact w
    · split
      · have placed := w.place? ‹_›
        exact .ite placed placed
      · exact w.preempt

theorem State.memWf.schedLevel (h : s.memWf) {lvl n e} : (State.schedLevel lvl n s e).memWf := by
  induction n generalizing s e with
  | zero => exact h
  | succ n ih =>
    rw [State.schedLevel]
    refine .ite h ?_
    split
    exact ih (h.schedTurn.of_fst ‹_›)

theorem State.memWf.failMarked (h : s.memWf) : s.failMarked.memWf := by
  refine h.foldl _ (fun u y w => ?_)
  split
  · exact .ite w.failEarly w
  · exact w

theorem State.memWf.markHeads (h : s.memWf) : s.markHeads.memWf := h.mapTasks (fun x w => by
  split
  · exact w
  · split
    · exact w
    · exact w)

theorem outcomeWf_schedPass (h : s.memWf) : outcomeWf (execSchedPass s) :=
  (h.failMarked.markHeads.foldl _ (fun _ _ w => w.schedLevel)).migrate.markHeads

theorem State.memWf.age (h : s.memWf) {x} : (s.age x).memWf := h.updTask.kick

theorem outcomeWf_ageTick (h : s.memWf) : outcomeWf (execAgeTick s) := by
  unfold execAgeTick
  change State.memWf _
  split
  · split
    · exact .ite h.age h
    · exact h
  · exact h

theorem outcomeWf_gangReserve (h : s.memWf) : outcomeWf (execGangReserve s) := by
  unfold execGangReserve
  change State.memWf _
  split
  · split
    · split
      · exact h.updGroup.kick
      · exact h
    · exact h
  · exact h

theorem outcomeWf_afrUpdate (h : s.memWf) : outcomeWf (execAfrUpdate s) := h.foldl _ (fun _ _ w => w.updGroup)

/-! ## Stopping, saving and restoring teams (R34, R88, R294 to R300, R349 to R351) -/

theorem Team.wf_stop {t : Team} (n : Nat) (h : Memory.wf t.spad = true) : Memory.wf (t.stop n).spad = true := Team.wf_seqHalt h

theorem State.memWf.stopAll (h : s.memWf) {x k} : (s.stopAll x k).memWf := by
  refine (h.foldl _ (fun _ _ w => w.updTeam fun y k => ?_)).updTask
  split
  · exact k
  · exact Team.wf_stop _ k

theorem outcomeWf_swapOut (h : s.memWf) : outcomeWf (execSwapOut s) := by
  unfold execSwapOut
  change State.memWf _
  split
  · split
    · exact .ite h.stopAll h
    · exact h
  · exact h

theorem outcomeWf_freezeBoundary (h : s.memWf) : outcomeWf (execFreezeBoundary s) := by
  unfold execFreezeBoundary
  change State.memWf _
  split
  · split
    · have w {c} : (s.updTeam c (fun x => x.stop s.cycle)).memWf := h.updTeam fun _ k => Team.wf_stop _ k
      exact .ite (.ite w.stopAll w) h
    · exact h
  · exact h

theorem outcomeWf_freezeIssueHold (h : s.memWf) : outcomeWf (execFreezeIssueHold s) := by
  unfold execFreezeIssueHold
  change State.memWf _
  split
  · exact .ite h.updCore h
  · exact h

theorem outcomeWf_boundaryStop (h : s.memWf) : outcomeWf (execBoundaryStop s) := by
  unfold execBoundaryStop
  change State.memWf _
  split
  · split
    · exact .ite h.stopAll h
    · exact h
  · exact h

/-- A full save keeps the scratchpad bytes of the footprint. -/
theorem Team.wf_frame {t : Team} (n : Nat) (l : List (Nat × Nat)) (h : Memory.wf t.spad = true) : Memory.wf (t.frame n l).spad = true := Memory.wf_filter _ h

theorem Team.wf_boundaryFrame (t : Team) (x : Task) : Memory.wf (t.boundaryFrame x).spad = true := Memory.wf_nil

theorem State.memWf.framesOf (h : s.memWf) (x : Task) (k : StopKind) : ∀ f ∈ s.framesOf x k, Memory.wf f.spad = true := fun f hf => by
  obtain ⟨c, _, rfl⟩ := List.mem_map.1 hf
  dsimp only
  split
  · exact Team.wf_boundaryFrame ..
  · exact Team.wf_frame _ _ (h.spadOf _)

theorem State.memWf.moveFetches (h : s.memWf) {c k m out} : (s.moveFetches c k m out).memWf := h

theorem State.memWf.leaveCores (h : s.memWf) {x} : (s.leaveCores x).memWf :=
  h.foldl _ (fun _ _ w => w.moveFetches.updCore fun _ _ => Memory.wf_nil)

theorem State.memWf.deadlineFail (h : s.memWf) {x b} : (s.deadlineFail x b).memWf := by
  unfold State.deadlineFail
  extract_lets u
  have w : u.memWf := by
    unfold u
    split
    · exact h.record
    · exact h.recordAt
  exact w.failTask

theorem State.memWf.moveArea (h : s.memWf) {g write a} : (s.moveArea g write a).1.memWf := by
  unfold State.moveArea
  split
  · exact h.pieces.of_fst ‹_›
  · exact h.pieces.of_fst ‹_›
  · have w := h.pieces.of_fst ‹_›
    refine .ite_fst ?_ w
    split
    exact (w.freeBytes.of_fst ‹_›).writePieces

theorem State.memWf.moveAreas (h : s.memWf) {x write areas} : (s.moveAreas x write areas).1.memWf := by
  refine State.memWf.foldl_fst h _ (fun u b p w => .ite_fst w ?_)
  split
  · exact w.moveArea.of_fst ‹_›
  · exact (w.moveArea.of_fst ‹_›).record.failTask

theorem State.memWf.keepFrames (h : s.memWf) {x} : (s.keepFrames x).1.memWf := by
  refine .ite_fst h (State.memWf.moveAreas ?_)
  exact h.updTask (f := fun t => { t with areas := _ })

theorem State.memWf.teamSaved (h : s.memWf) {x k} : (s.teamSaved x k).memWf := by
  have frames := h.framesOf x k
  unfold State.teamSaved
  dsimp -iota only
  split
  · exact h.keepFrames.of_fst ‹_›
  · have w := (h.keepFrames.of_fst ‹_›).leaveCores (x := x) |>.updTask (id := x.id)
      (f := fun t => { t with frames := s.framesOf x k, due := none, victimFor := none }) (fun _ _ => frames)
    refine .ite w.deadlineFail.kick ?_
    split
    · split
      next u n e =>
      have awake : u.memWf := by
        refine .of_fst (State.memWf.wakeCores ?_) e
        exact .ite w (w.foldl _ (fun _ _ w => w.updCore))
      split
      exact (awake.takeDelay.of_snd ‹_›).updCore.updTask.kick
    · split
      · exact w.updTask.kick
      · refine State.memWf.kick ?_
        exact w.updTask.withResumes

theorem outcomeWf_teamSaved (h : s.memWf) : outcomeWf (execTeamSaved s) := by
  unfold execTeamSaved
  change State.memWf _
  split
  · split
    · split
      · exact .ite h.teamSaved h
      · exact h
    · exact h
  · exact h

theorem State.memWf.enterResume (h : s.memWf) {id} : (s.enterResume id).memWf := by
  refine State.memWf.kick ?_
  exact h.updTask.withResumes

theorem outcomeWf_waitCycPasses (h : s.memWf) : outcomeWf (execWaitCycPasses s) := by
  unfold execWaitCycPasses
  change State.memWf _
  split
  · split
    · exact .ite h.enterResume h
    · exact h
  · exact h

theorem Team.wf_restored {t : Team} (n : Nat) (h : Memory.wf t.spad = true) : Memory.wf (t.restored n).spad = true := by
  have w {c : Bool} : Memory.wf (if c then t else t.seqResume).spad = true := by
    split
    · exact h
    · exact Team.wf_seqResume h
  exact w

theorem State.memWf.framesOfId (h : s.memWf) {id : Nat} {x : Task} (e : s.taskOf id = some x) : x.framesWf :=
  h.framesOfTask (List.mem_of_find?_eq_some e)

theorem State.memWf.foldl_mem {α : Type} {f : State → α → State} (h : s.memWf) (l : List α) (hf : ∀ s a, a ∈ l → State.memWf s → (f s a).memWf) :
    (l.foldl f s).memWf := List.foldlRecOn l f h (fun b w a ha => hf b a ha w)

/-- The frames that go back to the cores were in canonical form while they were kept. -/
theorem outcomeWf_restore (h : s.memWf) : outcomeWf (execRestore s) := by
  unfold execRestore
  change State.memWf _
  split
  · split
    next x e =>
      have frames := h.framesOfId e
      refine .ite ?_ h
      split
      · exact h.moveAreas.of_fst ‹_›
      · have w := (h.moveAreas.of_fst ‹_›).foldl_mem (x.cores.zip (x.frames.zip (List.range x.frames.length)))
          (f := fun s p => (s.updCore (computeCore p.1) (fun y => y.attach x.id s.cycle (p.2.1.restored s.cycle))).moveFetches (computeCore p.1) x.id p.2.2 false)
          (fun s p hp w => (w.updCore fun _ _ => Team.wf_restored _ (frames _ (List.of_mem_zip (List.of_mem_zip hp).2).1)).moveFetches)
        exact w.updTask (f := fun t => { t with state := .running, frames := [], areas := [], due := none }) (fun _ _ => List.forall_mem_nil _)
    · exact h
  · exact h

theorem outcomeWf_replayInject (h : s.memWf) : outcomeWf (execReplayInject s) := by
  unfold execReplayInject
  change State.memWf _
  split
  · exact h.updTeam.foldl _ (fun _ _ w => w.runAct)
  · exact h

theorem outcomeWf_forwardRetire (h : s.memWf) : outcomeWf (execForwardRetire s) := by
  unfold execForwardRetire
  change State.memWf _
  split
  · exact h.updCore
  · exact h

end
end Sys2Proof.Machine

namespace Sys2Proof.Machine
section
variable {s t : State}

/-! ## Stitched tensors and seasoned words in memory (R228 to R238) -/

theorem State.memWf.putTensor (h : s.memWf) {x} : (s.putTensor x).memWf := h

theorem State.memWf.retireCoils (h : s.memWf) {id a} : (s.retireCoils id a).memWf := by
  unfold State.retireCoils
  split
  · exact h
  · extract_lets kept still dead u v
    have w : v.memWf := State.memWf.foldl (s := u) h _ (fun _ _ w => w.recordAt)
    exact .ite w w

theorem State.memWf.unpinTensor (h : s.memWf) {id v a} : (s.unpinTensor id v a).memWf := by
  unfold State.unpinTensor
  split
  · exact h
  · exact h.putTensor.retireCoils

theorem State.memWf.updPins (h : s.memWf) {e f} : (s.updPins e f).memWf := by
  unfold State.updPins
  split
  · exact h.updTask
  · exact h

theorem State.memWf.runStnew (h : s.memWf) {e c} : (s.runStnew e c).1.memWf := by
  refine .ite_fst h.endCmd (.ite_fst h.endCmd (.ite_fst h.endCmd ?_))
  split
  · exact h.endCmd
  · refine .ite_fst h.endCmd ?_
    split
    · exact h.endCmd
    · refine State.memWf.endCmd ?_
      exact h

theorem State.memWf.withNextId (h : s.memWf) {n} : State.memWf { s with nextId := n } := h

theorem State.memWf.runSplice (h : s.memWf) {e c} : (s.runSplice e c).1.memWf := by
  refine .ite_fst h.endCmd (.ite_fst h.endCmd (.ite_fst h.endCmd ?_))
  split
  · exact h.endCmd
  · split
    · exact h.endCmd
    · refine .ite_fst h.endCmd ?_
      split
      · exact h.endCmd
      · exact h.withNextId.putTensor.retireCoils.endCmd

theorem State.memWf.runStpin (h : s.memWf) {e c} : (s.runStpin e c).1.memWf := by
  refine .ite_fst h.endCmd ?_
  split
  · exact h.endCmd
  · exact .ite_fst h.endCmd (.ite_fst h.endCmd h.putTensor.updPins.endCmd)

theorem State.memWf.runStunpin (h : s.memWf) {e c} : (s.runStunpin e c).1.memWf := by
  refine .ite_fst h.endCmd ?_
  split
  · exact h.endCmd
  · exact .ite_fst h.endCmd h.unpinTensor.updPins.endCmd

theorem State.memWf.moveRows (h : s.memWf) {e c w v l} : (s.moveRows e c w v l).1.memWf :=
  .ite_fst h.failCmd (h.overParts Mover.memWf_view).succeed

theorem State.memWf.runCpys (h : s.memWf) {e c w} : (s.runCpys e c w).1.memWf := by
  refine .ite_fst h.endCmd (.ite_fst h.endCmd (.ite_fst h.endCmd (.ite_fst h.endCmd (.ite_fst h.endCmd ?_))))
  split
  · exact h.failCmd
  · exact .ite_fst h.putTensor.endCmd (State.memWf.moveRows (.ite h.putTensor.engPadWrite h.putTensor))

/-- After a failure the words that are left are not merged (R356). -/
theorem Mover.memWf_swMerger {e wide} : (swMerger e wide).memWf := ⟨fun w => w.engWrite, fun w => w⟩

theorem Mover.memWf_swMover {i e wide} : (swMover s e i wide).memWf := by
  unfold swMover
  extract_lets n
  split
  · exact Mover.memWf_moverOut
  · exact Mover.memWf_moverIn
  · exact Mover.memWf_swMerger
  · exact Mover.memWf_moverIn

theorem State.memWf.runSwcpy (h : s.memWf) {e c w} : (s.runSwcpy e c w).1.memWf := by
  refine .ite_fst h.endCmd (.ite_fst h.endCmd ?_)
  split
  · exact h.endCmd
  · refine .ite_fst h.failCmd ?_
    split
    exact ((h.overParts Mover.memWf_swMover).of_fst ‹_›).succeed

theorem State.memWf.sweepPages (h : s.memWf) {e wide c l} : (s.sweepPages e wide c l).1.memWf := by
  induction l generalizing s c with
  | nil => exact h.endCmd
  | cons p l ih =>
    rw [State.sweepPages]
    split
    · exact (h.translate.of_fst ‹_›).cmdFault
    · have w := h.translate.of_fst ‹_›
      split
      · exact w.poisonFault
      · refine .ite_fst (ih w) (.ite_fst w.endCmd ?_)
        split
        · exact (w.translate.of_fst ‹_›).cmdFault
        · exact ih (w.translate.of_fst ‹_›).pwrite

theorem State.memWf.runSweep (h : s.memWf) {e c} : (s.runSweep e c).1.memWf :=
  .ite_fst h.endCmd (.ite_fst h.endCmd (.ite_fst h.endCmd h.sweepPages))

end
end Sys2Proof.Machine

namespace Sys2Proof.Machine
section
variable {s t : State}

/-! ## A task's start, deadline and completion (R33, R284 to R287, R297, R308, R355, R373, R387) -/

theorem State.memWf.advanceEpochs (h : s.memWf) {q} : (s.advanceEpochs q).memWf := h

theorem State.memWf.endCommit (h : s.memWf) {n r e err gen} : (s.endCommit n r e err gen).memWf := by
  have w {l} : State.memWf { s with rtabs := l } := h
  unfold State.endCommit
  dsimp -iota only
  split
  · exact w.putCmdAt.now
  · exact w

theorem State.memWf.schedFault (h : s.memWf) {asid x va} : (s.schedFault asid x va).memWf := h.recordAt

theorem State.memWf.switchTable (h : s.memWf) {n r} : (s.switchTable n r).memWf := by
  unfold State.switchTable
  split
  · exact h
  · split
    · exact (h.pieces.of_fst ‹_›).schedFault.endCommit
    · split
      · exact (h.pieces.of_fst ‹_›).recordAt.endCommit
      · exact (h.pieces.of_fst ‹_›).writePieces.endCommit

theorem State.memWf.switchTables (h : s.memWf) {q} : (s.switchTables q).memWf := h.foldl _ (fun _ _ w => w.switchTable)

theorem State.memWf.startTask (h : s.memWf) {x} : (s.startTask x).memWf := by
  refine State.memWf.kick (State.memWf.updTask ?_)
  exact (State.memWf.ite h.advanceEpochs.switchTables h).foldl _ (fun _ _ w => w.updCore fun _ _ => Memory.wf_nil)

theorem outcomeWf_taskStart (h : s.memWf) : outcomeWf (execTaskStart s) := by
  unfold execTaskStart
  change State.memWf _
  split
  · split
    · refine .ite h (.ite (State.memWf.failTask ?_) ?_)
      · split
        · exact h.record
        · exact h
      · split
        · exact h.park
        · exact h.startTask
    · exact h
  · exact h

theorem outcomeWf_deadlineExpire (h : s.memWf) : outcomeWf (execDeadlineExpire s) := by
  unfold execDeadlineExpire
  change State.memWf _
  split
  · split
    · refine .ite h ?_
      have w {id} : (s.updTask id (fun t => { t with doomed := true })).memWf := h.updTask
      split
      · exact w.deadlineFail
      · exact w.deadlineFail
      · exact w.ask
      · exact w
      · exact w.withResumes.deadlineFail
    · exact h
  · exact h

theorem State.memWf.captureSum (h : s.memWf) : s.captureSum.1.memWf := by
  unfold State.captureSum
  split
  refine State.memWf.of_fst (State.memWf.foldl_fst h _ (fun u b r w => ?_)) ‹_›
  split
  · exact w.vread.of_fst ‹_›
  · exact w.vread.of_fst ‹_›

theorem State.memWf.captureDone (h : s.memWf) {a} : (s.captureDone a).memWf := by
  refine .ite ?_ h
  split
  have w := h.captureSum.of_fst ‹_›
  refine .ite ?_ w
  split
  · exact w
  · exact .ite w w

theorem State.memWf.decrementDep (h : s.memWf) {asid a} : (s.decrementDep asid a).1.memWf := by
  unfold State.decrementDep
  extract_lets x mirror alone
  clear_value x
  have mirrored {u : State} (w : u.memWf) (n : Nat) : (mirror u n).memWf := by
    unfold mirror
    split
    · exact w.updTask
    · exact w
  have counted {u : State} (w : u.memWf) : (alone u).1.memWf := by
    unfold alone
    split
    · exact .ite_fst w (mirrored w _)
    · exact w
  split
  · have w := h.pieces.of_fst ‹_›
    split
    · exact counted w.recordAt
    · exact .ite_fst w (mirrored w.writePieces _)
  · exact counted (h.pieces.of_fst ‹_›).schedFault

theorem State.memWf.decrementAll (h : s.memWf) {asid l} : (s.decrementAll asid l).1.memWf := by
  induction l generalizing s with
  | nil => exact h
  | cons a l ih =>
    rw [State.decrementAll]
    split
    split
    exact (ih (h.decrementDep.of_fst ‹_›)).of_fst ‹_›

theorem State.memWf.markSuccessor (h : s.memWf) {asid p a} : (s.markSuccessor asid p a).memWf := by
  unfold State.markSuccessor
  split
  · exact .ite h.updTask h
  · exact h

theorem State.memWf.failUnder (h : s.memWf) {asid p a} : (s.failUnder asid p a).memWf := by
  unfold State.failUnder
  split
  · exact .ite h.failEarly h
  · exact h

theorem State.memWf.freeCores (h : s.memWf) {x} : (s.freeCores x).memWf :=
  h.foldl _ (fun _ _ w => w.updCore fun _ _ => Memory.wf_nil)

theorem State.memWf.writeRecord (h : s.memWf) {x n} : (s.writeRecord x n).memWf := by
  unfold State.writeRecord
  split
  · exact h.vwrite.of_fst ‹_›
  · exact (h.vwrite.of_fst ‹_›).schedFault

/-- A completed task is kept or leaves the list. -/
theorem State.memWf.keepOrDrop (h : s.memWf) {c : Bool} {id : Nat} {l : List Nat} : State.memWf { s with
    resumes := l
    tasks := if c then s.tasks.map (fun (x : Task) => if x.id == id then { x with state := .kept } else x) else s.tasks.filter (fun (x : Task) => x.id != id) } := by
  cases c with
  | false => exact h.filterTasks _
  | true => exact h.updTask (id := id) (f := fun x => { x with state := .kept })

theorem State.memWf.completeTask (h : s.memWf) {x} : (s.completeTask x).memWf := by
  unfold State.completeTask
  extract_lets +lift unpinned keep
  have released : unpinned.memWf := h.foldl _ (fun _ _ w => w.unpinTensor)
  split
  extract_lets u1 u2 u3 u4 ended u5
  have w1 : u1.memWf := .ite (released.decrementAll.of_fst ‹_›) (released.decrementAll.of_fst ‹_›).writeRecord
  have w2 : u2.memWf := .ite w1 (w1.foldl _ (fun _ _ w => w.markSuccessor))
  have w3 : u3.memWf := by
    unfold u3
    split
    · exact w2.send
    · exact w2
  have w4 : ended.memWf := w3.freeCores.unreserve.withdraw.keepOrDrop
  exact State.memWf.kick (State.memWf.captureDone (w4.foldl _ (fun _ _ w => w.failUnder)))

theorem outcomeWf_taskComplete (h : s.memWf) : outcomeWf (execTaskComplete s) := by
  unfold execTaskComplete
  change State.memWf _
  split
  · split
    · refine .ite h ?_
      split
      · exact h.park
      · exact h.completeTask
    · exact h
  · exact h

end
end Sys2Proof.Machine

namespace Sys2Proof.Machine
section
variable {s t : State}

/-! ## Commands of the host (R361 to R366) -/

theorem State.memWf.noteAnswer (h : s.memWf) {d k q op a} : (s.noteAnswer d k q op a).memWf := h

theorem State.memWf.respond (h : s.memWf) {op a} : (s.respond op a).memWf := by
  unfold State.respond
  extract_lets p
  split
  · exact .ite h.noteAnswer h.send
  · exact h.send

theorem State.memWf.captureCmd (h : s.memWf) {op p} : (s.captureCmd op p).memWf := .ite h h
theorem State.memWf.withHeld (h : s.memWf) {l} : State.memWf { s with heldCmds := l } := h

/-- A command of a stream keeps the memories when what it runs does. -/
theorem State.memWf.hostCmd (h : s.memWf) {i op} {run : State → Packet → State × HostEnd} (hr : ∀ u p, State.memWf u → (run u p).1.memWf) :
    (s.hostCmd i op run).memWf := by
  unfold State.hostCmd
  extract_lets p e arrives u
  have w : u.memWf := .ite h.captureCmd h
  refine .ite h (.ite w.withHeld (.ite w.respond ?_))
  split
  · exact ((hr u p w).of_fst ‹_›).respond
  · exact ((hr u p w).of_fst ‹_›).withHeld

theorem State.memWf.retryHeld (h : s.memWf) : s.retryHeld.memWf := by
  unfold State.retryHeld
  dsimp -iota only
  split
  exact h

theorem State.memWf.answering {f : State → Packet → State × Answer} {p} (hf : (f s p).1.memWf) : (answering f s p).1.memWf := hf

theorem State.memWf.withArgs (h : s.memWf) {m0 m1 len p} {f : State → Packet → State × Answer} (hf : (f s p).1.memWf) :
    (withArgs m0 m1 len f s p).1.memWf := .ite_fst hf h

/-- A command whose arguments are checked and which answers in its step. -/
theorem State.memWf.answered (h : s.memWf) {i op m0 m1 len} {f : State → Packet → State × Answer} (hf : ∀ u p, State.memWf u → (f u p).1.memWf) :
    (s.hostCmd i op (Sys2Proof.Machine.answering (Sys2Proof.Machine.withArgs m0 m1 len f))).memWf := h.hostCmd (fun u p w => State.memWf.answering (w.withArgs (hf u p w)))

theorem State.memWf.hostSubmit (h : s.memWf) {p} : (s.hostSubmit p).1.memWf := by
  unfold State.hostSubmit
  split
  · exact h.submitTcb.of_fst ‹_›
  · exact h.submitTcb.of_fst ‹_›
  · exact h.submitTcb.of_fst ‹_›

theorem outcomeWf_submit (h : s.memWf) : outcomeWf (execSubmit s) :=
  h.hostCmd (fun _ _ w => .ite_fst w (State.memWf.answering (w.withArgs w.hostSubmit)))

theorem State.memWf.hostAddr (h : s.memWf) {phys asid a n acc} : (s.hostAddr phys asid a n acc).1.memWf := by
  refine .ite_fst h ?_
  split
  · exact h.translate.of_fst ‹_›
  · exact h.translate.of_fst ‹_›

theorem State.memWf.hostWrite (h : s.memWf) {phys asid l bs m} : (s.hostWrite phys asid l bs m).1.memWf := by
  induction l generalizing s bs m with
  | nil => exact h
  | cons p l ih =>
    rw [State.hostWrite]
    split
    · exact h.hostAddr.of_fst ‹_›
    · exact ih (h.hostAddr.of_fst ‹_›).pwrite

theorem State.memWf.hostRead (h : s.memWf) {phys asid l bs} : (s.hostRead phys asid l bs).1.memWf := by
  induction l generalizing s bs with
  | nil => exact h
  | cons p l ih =>
    rw [State.hostRead]
    split
    · exact h.hostAddr.of_fst ‹_›
    · have w := h.hostAddr.of_fst ‹_›
      split
      · exact w
      · exact ih w

theorem outcomeWf_memwr (h : s.memWf) : outcomeWf (execMemwr s) := h.answered (fun _ _ w => .ite_fst w w.hostWrite)
theorem outcomeWf_memrd (h : s.memWf) : outcomeWf (execMemrd s) := h.answered (fun _ _ w => .ite_fst w w.hostRead)
theorem outcomeWf_root (h : s.memWf) : outcomeWf (execRoot s) := h.answered (fun _ _ w => w)
theorem outcomeWf_inval (h : s.memWf) : outcomeWf (execInval s) := h.answered (fun _ _ w => w)

/-! ## Parked requests (R197, R273) -/

theorem State.memWf.endAttn (h : s.memWf) {hm e c err} : (s.endAttn hm e c err).memWf := by
  unfold State.endAttn
  extract_lets q mine
  split
  have w := h.endCmd.of_fst ‹_›
  refine .ite w.putCmdAt ?_
  split
  · exact w.seqOver
  · exact w.updHome.putCmdAt.kvUnhold

theorem State.memWf.unmapCmd (h : s.memWf) {hm e c} : (s.unmapCmd hm e c).memWf := by
  unfold State.unmapCmd
  split
  · split
    exact (h.endCmd.of_fst ‹_›).putCmdAt
  · split
    exact (h.endCmd.of_fst ‹_›).putCmdAt
  · exact h.endAttn
  · extract_lets +lift u
    have w : u.memWf := .ite h h.failColl
    refine .ite ?_ ?_
    · split
      exact (w.endColl.of_fst ‹_›).putCmdAt
    · split
      exact (h.failCmd.of_fst ‹_›).putCmdAt

theorem State.memWf.goOn (h : s.memWf) {hm r c} : (s.goOn hm r c).memWf := by
  refine .ite ?_ (.ite h.putCmdAt.now h.putCmdAt)
  dsimp -iota only
  split
  · split
    · exact h.putCmdAt.fireBucket
    · exact h.putCmdAt
  · exact h.putCmdAt

theorem State.memWf.serveEvent (h : s.memWf) {unmap page e} : (s.serveEvent unmap page e).memWf := by
  refine .ite h.now ?_
  split
  · split
    · exact h.send
    · exact h
  · split
    · exact h.promLost
    · exact h
  · split
    · exact h.promLost
    · exact h
  · split
    · refine .ite (h.foldl _ (fun u p w => ?_)) h.updTask.now
      split
      · exact w.endCommit
      · exact w
    · exact h
  · exact h

theorem State.memWf.servePark (h : s.memWf) {unmap p w} : (s.servePark unmap p w).memWf := by
  unfold State.servePark
  extract_lets failFetch
  have failed {x m r l} (w : State.memWf r) : (failFetch s x m r l).memWf := .ite h w.failTask
  split
  · split
    · exact h
    · split
      · exact .ite (.ite h.unmapCmd h.goOn) h
      · exact h
  · exact h.serveEvent
  · exact .ite h.kvReport h.kvUnhold
  · refine .ite h.updCore ?_
    split
    · exact failed h.record
    · exact h.record.updCore
  · refine .ite h ?_
    split
    · exact h
    · exact failed h.recordAt

theorem State.memWf.withParked (h : s.memWf) {l v} : State.memWf { s with parked := l, walkers := v } := h

theorem outcomeWf_resume (h : s.memWf) : outcomeWf (execResume s) :=
  h.answered (fun _ _ w => w.withParked.foldl _ (fun _ _ w => w.foldl _ (fun _ _ w => w.servePark)))

/-! ## Configuration (R278, R282, R283, R304, R317, R335, R339, R360, R368, R373) -/

theorem State.memWf.hostUnbind (h : s.memWf) {p} : (s.hostUnbind p).1.memWf := by
  unfold State.hostUnbind
  extract_lets asid wait
  have waited {u : State} (w : u.memWf) : (wait u).1.memWf := .ite_fst w w
  refine .ite_fst h (.ite_fst (waited h) ?_)
  split
  · exact h.hostAddr.of_fst ‹_›
  · exact waited (h.hostAddr.of_fst ‹_›).pwrite

theorem outcomeWf_hunbind (h : s.memWf) : outcomeWf (execHunbind s) := h.hostCmd (fun _ _ w => w.hostUnbind)

theorem State.memWf.dropReserves (h : s.memWf) {q} : (s.dropReserves q).memWf := h.foldl _ (fun _ _ w => w.unreserve)
theorem State.memWf.withQueues (h : s.memWf) {l} : State.memWf { s with queues := l } := h

theorem outcomeWf_qcfg (h : s.memWf) : outcomeWf (execQcfg s) := h.answered (fun _ _ w => .ite_fst w (.ite_fst w w.withQueues.dropReserves.kick))
theorem outcomeWf_scfg (h : s.memWf) : outcomeWf (execScfg s) := h.answered (fun _ _ w => .ite_fst w w)
theorem outcomeWf_kvcfg (h : s.memWf) : outcomeWf (execKvcfg s) := h.answered (fun _ _ w => .ite_fst w (.ite_fst w w.setKvDesc))
theorem outcomeWf_seqload (h : s.memWf) : outcomeWf (execSeqload s) := h.hostCmd (fun _ _ w => .ite_fst w (.ite_fst w w))

theorem outcomeWf_stepgrp (h : s.memWf) : outcomeWf (execStepgrp s) := by
  refine h.answered (fun _ _ w => .ite_fst w (.ite_fst w (State.memWf.voteCheck ?_)))
  exact w

theorem outcomeWf_ftab (h : s.memWf) : outcomeWf (execFtab s) := h.answered (fun _ _ w => w)

theorem outcomeWf_collgrp (h : s.memWf) : outcomeWf (execCollgrp s) := by
  refine h.answered (fun _ _ w => .ite_fst w (.ite_fst (.ite_fst w (.ite_fst w w)) (.ite_fst w (.ite_fst w (State.memWf.collSettle ?_)))))
  exact w

theorem State.memWf.withRtabs (h : s.memWf) {l} : State.memWf { s with rtabs := l } := h

theorem outcomeWf_rtabcfg (h : s.memWf) : outcomeWf (execRtabcfg s) := by
  refine h.answered (fun _ _ w => .ite_fst w (.ite_fst w ?_))
  dsimp -iota only
  split
  · split
    exact (w.withRtabs.endCmd.of_fst ‹_›).putCmdAt
  · exact w

theorem outcomeWf_domcfg (h : s.memWf) : outcomeWf (execDomcfg s) := h.answered (fun _ _ w => .ite_fst w w)

theorem State.memWf.abortTask (h : s.memWf) {x} : (s.abortTask x).memWf := by
  refine .ite h.failEarly (State.memWf.failTask ?_)
  split
  · exact h.record
  · exact h.recordAt

theorem outcomeWf_abort (h : s.memWf) : outcomeWf (execAbort s) := by
  refine h.answered (fun _ _ w => ?_)
  split
  · exact w.abortTask
  · exact w

theorem outcomeWf_attest (h : s.memWf) : outcomeWf (execAttest s) := h.answered (fun _ _ w => w)

end
end Sys2Proof.Machine

namespace Sys2Proof.Machine
section
variable {s t : State}

/-! ## Debug requests (R383 to R387) -/

theorem State.memWf.forwardAll (h : s.memWf) {i p ds} : (s.forwardAll i p ds).memWf := h.foldl _ (fun _ _ w => .ite w.now w.send)
theorem State.memWf.withForwards (h : s.memWf) {l} : State.memWf { s with forwards := l } := h

theorem State.memWf.debugForward (h : s.memWf) {i op p} : (s.debugForward i op p).1.memWf := by
  refine .ite_fst ?_ (.ite_fst h h.withForwards.forwardAll)
  split
  · exact h
  · exact .ite_fst h h

/-- A debug request keeps the memories when what it runs does. -/
theorem State.memWf.debugCmd (h : s.memWf) {i op} {run : State → Packet → State × HostEnd} (hr : ∀ u p, State.memWf u → (run u p).1.memWf) :
    (s.debugCmd i op run).memWf := h.hostCmd (fun u p w => .ite_fst w (.ite_fst w.debugForward (hr u p w)))

theorem State.memWf.debugPlain (h : s.memWf) {m1 p} {f : State → Packet → State × HostEnd} (hf : (f s p).1.memWf) : (debugPlain m1 f s p).1.memWf :=
  .ite_fst hf h

theorem State.memWf.debugOn (h : s.memWf) {m1 p} {f : State → Packet → List (Fin 208) → State × HostEnd} (hf : ∀ cs, (f s p cs).1.memWf) :
    (debugOn m1 f s p).1.memWf := by
  refine h.debugPlain ?_
  split
  · exact hf _
  · exact h

theorem State.memWf.askHalt (h : s.memWf) {cs} : (s.askHalt cs).memWf := h.foldl _ (fun _ _ w => .ite w w.askHaltOf)

theorem State.memWf.haltCore (h : s.memWf) {c} : (s.haltCore c).memWf := by
  refine .ite h (h.record.updCore.foldl _ (fun u r w => ?_))
  split
  · exact w.putCmdAt.now
  · exact w

theorem outcomeWf_preciseStop (h : s.memWf) : outcomeWf (execPreciseStop s) := by
  unfold execPreciseStop
  change State.memWf _
  split
  · exact .ite (State.memWf.retryHeld (h.foldl _ (fun _ _ w => w.haltCore))) h
  · exact h

theorem outcomeWf_dhalt (h : s.memWf) : outcomeWf (execDhalt s) :=
  h.debugCmd (fun _ _ w => w.debugOn (fun _ => .ite_fst (.ite_fst w w) (.ite_fst w w.askHalt)))

theorem outcomeWf_dresume (h : s.memWf) : outcomeWf (execDresume s) :=
  h.debugCmd (fun _ _ w => w.debugOn (fun _ => w.foldl _ (fun _ _ w => w.updCore (fun y k => by
    rw [Core.resume_spad]
    exact k))))

theorem outcomeWf_dread (h : s.memWf) : outcomeWf (execDread s) := by
  refine h.debugCmd (fun _ _ w => w.debugOn (fun cs => ?_))
  dsimp -iota only
  split
  · refine .ite_fst w (.ite_fst w ?_)
    split
    · exact w
    · exact w
  · exact w

theorem outcomeWf_dbrk (h : s.memWf) : outcomeWf (execDbrk s) := h.debugCmd (fun _ _ w => w.debugOn (fun _ => w.foldl _ (fun _ _ w => w.updCore)))

theorem outcomeWf_dprof (h : s.memWf) : outcomeWf (execDprof s) :=
  h.debugCmd (fun _ _ w => w.debugOn (fun _ => .ite_fst w (w.foldl _ (fun _ _ w => w.updCore))))

theorem State.memWf.withMaster (h : s.memWf) {b} : State.memWf { s with master := b } := h

theorem outcomeWf_dmaster (h : s.memWf) : outcomeWf (execDmaster s) :=
  h.debugCmd (fun _ _ w => w.debugPlain (.ite_fst w (State.memWf.withMaster (.ite w (w.foldl _ (fun _ _ w => .ite w w.send))))))

theorem outcomeWf_statring (h : s.memWf) : outcomeWf (execStatring s) := h.debugCmd (fun _ _ w => w.debugPlain w)
theorem outcomeWf_framerel (h : s.memWf) : outcomeWf (execFramerel s) := h.debugCmd (fun _ _ w => w.debugPlain (.ite_fst (w.filterTasks _) w))

theorem State.memWf.captureRead (h : s.memWf) {l} : (s.captureRead l).1.memWf := by
  induction l generalizing s with
  | nil => exact h
  | cons r l ih =>
    rw [State.captureRead]
    split
    · exact h.vread.of_fst ‹_›
    · split
      exact (ih (h.vread.of_fst ‹_›)).of_fst ‹_›

theorem State.memWf.captureRestore (h : s.memWf) {a l} : (s.captureRestore a l).memWf := by
  induction l generalizing s a with
  | nil => exact h
  | cons r l ih => exact ih h.vput

theorem State.memWf.withCapture (h : s.memWf) {x} : State.memWf { s with capture := x } := h

theorem outcomeWf_capture (h : s.memWf) : outcomeWf (execCapture s) := by
  refine h.debugCmd (fun _ _ w => .ite_fst w (.ite_fst w (.ite_fst w (.ite_fst w.withCapture.captureRestore ?_))))
  split
  · exact w.captureRead.of_fst ‹_›
  · exact (w.captureRead.of_fst ‹_›).pwrite

theorem outcomeWf_replaySubmit (h : s.memWf) : outcomeWf (execReplaySubmit s) := by
  refine State.memWf.ite ?_ h
  dsimp -iota only
  split
  · split
    · exact h.withCapture.now
    · exact h.withCapture.send
  · exact h

theorem outcomeWf_sample (h : s.memWf) : outcomeWf (execSample s) := by
  unfold execSample
  change State.memWf _
  split
  · refine .ite h ?_
    dsimp -iota only
    split
    exact h.record.updCore
  · exact h

end
end Sys2Proof.Machine

namespace Sys2Proof.Machine
section
variable {s t : State}

/-! ## Power, boot and the firmware image (R388 to R396, R399) -/

theorem State.memWf.powerLost : s.powerLost.memWf := resetMemoryCanonical

theorem outcomeWf_thermalTrip : outcomeWf (execThermalTrip s) := State.memWf.powerLost
theorem outcomeWf_powerRemoved : outcomeWf (execPowerRemoved s) := State.memWf.powerLost

theorem wf_bootCore (l : List (Fin 208)) (c : Fin 208) : Memory.wf (bootCore l c).team.spad = true := by
  unfold bootCore
  split
  · exact Memory.wf_nil
  · exact Memory.wf_nil

theorem outcomeWf_powerOn (h : s.memWf) : outcomeWf (execPowerOn s) := by
  refine State.memWf.ite h (State.memWf.fetchImage ⟨Memory.wf_nil, fun c => ?_, List.forall_mem_nil _⟩)
  have e : (Vector.ofFn (bootCore s.bootFailing)).get c = bootCore s.bootFailing c := Vector.getElem_ofFn ..
  rw [State.coreAt, e]
  exact wf_bootCore ..

theorem State.memWf.installImage (h : s.memWf) {b body} : (s.installImage b body).memWf := h.pwrite

/-- What the ROM maps it writes into memory. -/
theorem State.memWf.romMap (h : s.memWf) : s.romMap.memWf :=
  h.withMem (Memory.wf_memWrite _ _ (Memory.wf_memWrite _ _ (Memory.wf_memWrite _ _ (Memory.wf_memWrite _ _ h.1))))

theorem State.memWf.startFirmware (h : s.memWf) {g} : (s.startFirmware g).memWf := State.memWf.updGroup (h.updCore fun _ _ => Memory.wf_nil)
theorem State.memWf.withImageFetch (h : s.memWf) {x} : State.memWf { s with imageFetch := x } := h
theorem State.memWf.withStreams (h : s.memWf) {x n} : State.memWf { s with streams := x, stage := n } := h

theorem State.memWf.zeroed (h : s.memWf) : State.memWf { s with mem := [], poison := [] } := h.withMem Memory.wf_nil

theorem outcomeWf_firmwareAccept (h : s.memWf) : outcomeWf (execFirmwareAccept s) := by
  unfold execFirmwareAccept
  change State.memWf _
  split
  · refine .ite h.withImageFetch ?_
    split
    · exact h.withImageFetch.later
    · extract_lets u
      have w : u.memWf := h.withImageFetch
      clear_value u
      refine .ite ?_ (w.installImage.foldl _ (fun _ _ w => ?_))
      · split
        exact (w.zeroed.romMap.installImage.foldl _ (fun _ _ w => w.startFirmware.updGroup)).withStreams.tellAll
      · dsimp -iota only
        split
        exact w.startFirmware.send
  · exact h

theorem State.memWf.withImage (h : s.memWf) {b x} : State.memWf { s with image := b, imageFetch := x } := h

theorem State.memWf.takeImage (h : s.memWf) {a b} : (s.takeImage a b).memWf := .ite h (.ite h.withImage.now h.withImage.send)

theorem outcomeWf_bootRetry (h : s.memWf) : outcomeWf (execBootRetry s) := State.memWf.ite h (.ite h.fetchImage h)

theorem outcomeWf_watchdogExpire (h : s.memWf) : outcomeWf (execWatchdogExpire s) := by
  unfold execWatchdogExpire
  change State.memWf _
  split
  · exact .ite h.resetControl h
  · exact h

/-! ## Scans, holds and the power controllers (R103, R397, R398, R402 to R404) -/

theorem State.memWf.endHolds (h : s.memWf) {c} : (s.endHolds c).1.memWf := h.updGroup

theorem State.memWf.scanToken (h : s.memWf) {r err v} : (s.scanToken r err v).memWf := by
  unfold State.scanToken
  split
  · exact h
  · split
    · exact h.putCmdAt.now
    · exact h

theorem State.memWf.withFreeCtr (h : s.memWf) {n} : State.memWf { s with freeCtr := n } := h

theorem outcomeWf_scanComplete (h : s.memWf) : outcomeWf (execScanComplete s) := by
  unfold execScanComplete
  change State.memWf _
  split
  · refine .ite h ?_
    exact (State.memWf.ite h.withFreeCtr.updCore h.withFreeCtr.updCore.record).endHolds.scanToken.kick
  · exact h

theorem State.memWf.placeHead (h : s.memWf) {g x l} : (s.placeHead g x l).memWf := by
  unfold State.placeHead
  split
  · dsimp only
    split
    · exact h.placeAt
    · exact h
  · exact h

theorem outcomeWf_scanAbortComplete (h : s.memWf) : outcomeWf (execScanAbortComplete s) := by
  unfold execScanAbortComplete
  change State.memWf _
  split
  · exact .ite h h.updCore.endHolds.scanToken.placeHead.kick
  · exact h

theorem outcomeWf_holdExpire (h : s.memWf) : outcomeWf (execHoldExpire s) := by
  unfold execHoldExpire
  change State.memWf _
  split
  · dsimp only
    split
    · exact .ite h h.updGroup.kick
    · exact h
  · exact h

theorem State.memWf.runScanStart (h : s.memWf) {e c} : (s.runScanStart e c).1.memWf := by
  unfold State.runScanStart
  extract_lets x y
  refine .ite_fst (.ite h ?_) ?_
  · split
    · exact h.endHolds.of_fst ‹_›
    · exact (h.endHolds.of_fst ‹_›).kick
  · split
    next u n e =>
    have w : u.memWf := by
      refine .of_fst (.ite_fst ?_ h) e
      split
      exact h.takeDelay.of_snd ‹_›
    exact w.updCore.later

theorem State.memWf.gateGroup (h : s.memWf) {g} : (s.gateGroup g).memWf := h.foldl _ (fun _ _ w => w.updCore)
theorem outcomeWf_powerGate (h : s.memWf) : outcomeWf (execPowerGate s) := h.foldl _ (fun _ _ w => w.gateGroup)

theorem outcomeWf_powerHold (h : s.memWf) : outcomeWf (execPowerHold s) := by
  unfold execPowerHold
  change State.memWf _
  split
  · exact h
  · exact h

/-! ## Soft errors (R352, R353) -/

theorem Team.wf_clearRow {t : Team} (bank row : Nat) (h : Memory.wf t.spad = true) : Memory.wf (t.clearRow bank row).spad = true := by
  unfold Team.clearRow
  dsimp only
  split
  · split
    · exact h
    · exact h
  · split
    · exact h
    · exact Memory.wf_memWrite _ _ h

theorem State.memWf.softRecord (h : s.memWf) {c n g l} : (s.softRecord c n g l).memWf := h.recordAt

theorem State.memWf.poolError (h : s.memWf) {c bank row met} : (s.poolError c bank row met).memWf := by
  unfold State.poolError
  extract_lets a fail recorded used cleared
  have w : cleared.memWf := .ite h.softRecord (h.softRecord.updTeam fun _ k => Team.wf_clearRow _ _ k)
  split
  · exact .ite w.failTask w
  · exact w

theorem State.memWf.withPoison (h : s.memWf) {l} : State.memWf { s with poison := l } := h

theorem outcomeWf_scrub (h : s.memWf) : outcomeWf (execScrub s) := by
  unfold execScrub
  change State.memWf _
  split
  · refine .ite h ?_
    split
    · exact .ite h.poolError h.softRecord
    · exact .ite h.softRecord (.ite h.withPoison h.withPoison.softRecord)
    · exact .ite h.softRecord.updCore h.softRecord
    · exact .ite h h
    · exact .ite h h
    · refine .ite h.softRecord ?_
      split
      · refine .ite h ?_
        split
        exact (h.failCmd.of_fst ‹_›).putCmdAt
      · exact h
    · exact .ite h.resetControl h.softRecord
  · exact h

end
end Sys2Proof.Machine

namespace Sys2Proof.Machine
section
variable {s t : State}

/-! ## An engine command starts and completes (R192 to R197, R210, R216) -/

theorem State.memWf.runDbgHalt (h : s.memWf) {e c} : (s.runDbgHalt e c).1.memWf := by
  refine .ite_fst h ?_
  split
  · exact h
  · exact h.askHalt.updCore

theorem State.memWf.runCmd (h : s.memWf) {e c} : (s.runCmd e c).1.memWf := by
  unfold State.runCmd
  split
  · exact h.runCpy
  · exact h.runCpym
  · exact h.runCpyl
  · exact h.runTopk
  · exact h.runCpyh
  · exact h.runAtom
  · exact h.runAtom
  · exact h.runAtom
  · exact h.runAtom
  · exact h.runAtom
  · exact h.runAtomk
  · exact h.runColl
  · exact h.runColl
  · exact h.runColl
  · exact h.runColl
  · exact h.runBkset
  · exact h.runKick
  · exact h.runSidx
  · exact h.runRtab
  · exact h.runKvld
  · exact h.runKvapp
  · exact h.runKvremap
  · exact h.runKvshare
  · exact h.runKvprom
  · exact h.runPfxfind
  · exact h.runPfxins
  · exact h.runAttn
  · exact h.runStnew
  · exact h.runSplice
  · exact h.runStpin
  · exact h.runStunpin
  · exact h.runCpys
  · exact h.runSwcpy
  · exact h.runSwcpy
  · exact h.runSwcpy
  · exact h.runSwcpy
  · exact h.runSweep
  · exact h.runStepC
  · exact h.runLaunch
  · exact h.runLaunch
  · exact h.runScanStart
  · exact h.runDbgHalt
  · exact h.endCmd

theorem State.memWf.deliverAgain (h : s.memWf) {r hm c} : (s.deliverAgain r hm c).memWf := by
  unfold State.deliverAgain
  extract_lets e
  split
  next u d eq =>
  have w : u.memWf := by
    refine .of_fst (.ite_fst ?_ h.collDeliver) eq
    split
    · exact h.runCpym
    · exact h
  exact w.putCmdAt

theorem outcomeWf_engineStart (h : s.memWf) : outcomeWf (execEngineStart s) := by
  unfold execEngineStart
  change State.memWf _
  split
  · split
    · exact h
    · refine .ite h.deliverAgain (.ite ?_ h)
      split
      exact (h.runCmd.of_fst ‹_›).putCmdAt.collSettle
  · exact h

theorem State.memWf.withCollParts (h : s.memWf) {l} : State.memWf { s with collParts := l } := h

theorem State.memWf.dropMember (h : s.memWf) {e r c} : (s.dropMember e r c).memWf := by
  refine .ite h ?_
  split
  have w := (State.memWf.ite_fst h.enterColl h).of_fst ‹_›
  exact .ite w w.withCollParts.failColl

theorem State.memWf.releaseCmd (h : s.memWf) {e c} : (s.releaseCmd e c).memWf := by
  unfold State.releaseCmd
  split
  · split
    · exact h.unpinTensor
    · exact h
  · exact .ite h h.putCmdAt.kvUnhold
  · exact .ite h h.putCmdAt.kvUnhold
  · exact h.freePieces
  · exact .ite h.updHome.kvUnhold h
  · refine .ite (h.updHome fun y k => ?_) h
    split
    · exact k
    · exact k
    · exact k
  · refine .ite (h.updHome fun y k => ?_) h
    split
    · exact k
    · exact k
    · exact k
  · exact .ite h.dropBucket h
  · exact h

/-- What a command leaves in its task's record keeps the frames. -/
theorem Task.framesWf_noteErr {x : Task} {c : Cmd} {b n} (h : x.framesWf) : (x.noteErr c b n).framesWf := by
  unfold Task.noteErr
  split
  · exact h
  · split
    · exact h
    · split
      · exact h
      · exact h

theorem State.memWf.completeCmd (h : s.memWf) {r hm c} : (s.completeCmd r hm c).memWf := by
  unfold State.completeCmd
  extract_lets e c' failed retired u v
  have w : u.memWf := (State.memWf.ite h.cmdExc h).dropMember.releaseCmd
  have written : v.memWf := w.updHome fun y k => by
    dsimp only
    split
    · exact k
    · exact k
  split
  · exact written.updTask fun _ k => Task.framesWf_noteErr k
  · exact written

theorem outcomeWf_engineComplete (h : s.memWf) : outcomeWf (execEngineComplete s) := by
  unfold execEngineComplete
  change State.memWf _
  split
  · split
    · exact h
    · extract_lets e n
      split
      next u d eq =>
      have w : u.memWf := by
        refine .of_fst (.ite_fst ?_ h) eq
        split
        exact (h.endSidx.of_fst ‹_›).putCmdAt
      exact .ite w.completeCmd w
  · exact h

theorem State.memWf.abandon (h : s.memWf) {hm c} : (s.abandon hm c).memWf := by
  unfold State.abandon
  extract_lets r ended
  have w n : (ended n).memWf := by
    unfold ended
    split
    exact (h.endCmd.of_fst ‹_›).putCmdAt
  refine .ite h ?_
  split
  · exact w _
  · exact h.endAttn
  · exact .ite h (.ite (w _) (.ite (w _) h))

/-! ## Messages of the fabric (R210, R315, R336, R359) -/

theorem State.memWf.reply (h : s.memWf) {e err v b} : (s.reply e err v b).memWf := by
  unfold State.reply
  split
  · exact h.send
  · exact h

theorem State.memWf.serveFault (h : s.memWf) {e x a err} : (s.serveFault e x a err).memWf := h.recordAt.reply

theorem State.memWf.serveRange (h : s.memWf) {e asid acc reads tagged a n f} (hf : ∀ u l, State.memWf u → (f u l).memWf) :
    (s.serveRange e asid acc reads tagged a n f).memWf := by
  unfold State.serveRange
  split
  · exact (h.pieces.of_fst ‹_›).park
  · exact (h.pieces.of_fst ‹_›).serveFault
  · have w := h.pieces.of_fst ‹_›
    refine .ite w.reply ?_
    split
    · exact w.serveFault
    · exact hf _ _ w

theorem State.memWf.takeAnswer (h : s.memWf) {e r err v b} : (s.takeAnswer e r err v b).memWf := by
  unfold State.takeAnswer
  split
  · exact h
  · refine .ite h (.ite h ?_)
    split
    · exact h.hostAnswer.putCmdAt
    · exact h.peerAnswer.putCmdAt
    · exact h.peerAnswer.putCmdAt
    · exact h.peerAnswer.putCmdAt
    · exact h.peerAnswer.putCmdAt
    · exact h.peerAnswer.putCmdAt
    · exact h.peerAnswer.putCmdAt
    · exact h

theorem State.memWf.withStepGroup (h : s.memWf) {g} : State.memWf { s with stepGroup := g } := h

theorem State.memWf.takeVote (h : s.memWf) {g n b} : (s.takeVote g n b).memWf := by
  unfold State.takeVote
  split
  · exact .ite h.withStepGroup.voteCheck h
  · exact h

theorem State.memWf.takePart (h : s.memWf) {p} : (s.takePart p).memWf := .ite h h.withCollParts.collSettle

theorem outcomeWf_fabricRequest (h : s.memWf) : outcomeWf (execFabricRequest s) := by
  unfold execFabricRequest
  change State.memWf _
  split
  · split
    · exact h.serveRange fun _ _ w => w.reply
    · exact h.serveRange fun _ _ w => w.writePieces.reply
    · refine h.serveRange fun _ _ w => ?_
      split
      exact (w.atomAt.of_fst ‹_›).reply
    · refine h.serveRange fun _ _ w => ?_
      split
      · exact (w.atomkAt.of_fst ‹_›).reply
      · exact (w.atomkAt.of_fst ‹_›).reply
      · exact (w.atomkAt.of_fst ‹_›).reply
    · exact h.serveRange fun _ _ w => w.writePieces.reply
    · exact h.takeVote
    · exact h.takePart
    · exact h.takePart
    · exact h.takeImage
    · exact h.takeAnswer
    · exact h
    · split
      · exact h.noteAnswer.retryHeld
      · exact h
  · exact h

theorem State.memWf.loseCmd (h : s.memWf) {r n} : (s.loseCmd r n).memWf := by
  unfold State.loseCmd
  split
  · exact h
  · extract_lets g done lost
    have ended {p : State × Cmd} (w : p.1.memWf) : (done p).memWf := w.putCmdAt
    have recorded : (lost s).memWf := h.record
    clear_value done lost
    refine .ite (ended recorded.collSpoil.endColl) (.ite h ?_)
    split
    · exact ended h.hostAnswer
    · exact ended h.peerAnswer
    · exact ended h.peerAnswer
    · exact ended h.peerAnswer
    · exact ended h.peerAnswer
    · exact ended h.peerAnswer
    · exact ended h.peerAnswer
    · exact .ite (ended recorded.withCollParts.failColl.endColl) h

theorem outcomeWf_messageUndeliverable (h : s.memWf) : outcomeWf (execMessageUndeliverable s) := by
  unfold execMessageUndeliverable
  change State.memWf _
  generalize s.ev = a
  cases a with
  | lost m =>
    cases m with
    | command r ep => exact h.loseCmd
    | vote handle => exact h.now
    | promotion space header block =>
      dsimp only
      split
      · exact h.promLost
      · exact h
    | image => exact .ite h h
  | _ => exact h

/-! ## Code lines, walks and the decode of a bundle (R41, R71, R271, R275) -/

theorem State.memWf.codeLine (h : s.memWf) {c l} : (s.codeLine c l).1.memWf := by
  unfold State.codeLine
  extract_lets asid
  split
  · exact h.translate.of_fst ‹_›
  · exact h.translate.of_fst ‹_›

theorem State.memWf.prefetch (h : s.memWf) {c l} : (s.prefetch c l).memWf := by
  unfold State.prefetch
  split
  · exact (h.codeLine.of_fst ‹_›).updCore
  · exact h.codeLine.of_fst ‹_›

theorem State.memWf.codeFault (h : s.memWf) {c l x} : (s.codeFault c l x).memWf := by
  unfold State.codeFault
  extract_lets y asid k va
  split
  · exact h.updCtx.park
  · exact .ite h.failCore.updCore h.failCore

theorem outcomeWf_codeFetchLine (h : s.memWf) : outcomeWf (execCodeFetchLine s) := by
  unfold execCodeFetchLine
  change State.memWf _
  split
  · refine .ite h ?_
    extract_lets u
    have w : u.memWf := h.updCore
    split
    · exact (w.codeLine.of_fst ‹_›).codeFault
    · exact (w.codeLine.of_fst ‹_›).updCore.foldl _ (fun _ _ w => w.prefetch)
  · exact h

theorem outcomeWf_pageWalk (h : s.memWf) : outcomeWf (execPageWalk s) := by
  unfold execPageWalk
  change State.memWf _
  split
  · exact h.translate
  · exact h

theorem outcomeWf_bundleDecode (h : s.memWf) : outcomeWf (execBundleDecode s) := by
  unfold execBundleDecode
  change State.memWf _
  split
  · refine .ite ?_ h
    split
    · have tried := h.tryCore.of_fst ‹_›
      exact tried
    · have tried := h.tryCore.of_fst ‹_›
      exact tried
  · exact h

end
end Sys2Proof.Machine

namespace Sys2Proof.Machine
section
variable {s t : State}

/-! ## Repetitions and gang words (R81, R185) -/

theorem State.memWf.repIssue (h : s.memWf) {c k r} : (s.repIssue c k r).memWf := by
  unfold State.repIssue
  split
  · exact h.updCtx
  · exact .ite (State.memWf.profRecord (State.memWf.updCtx (h.updTeam))) (State.memWf.updCtx h.updTeam)

theorem outcomeWf_repRepetition (h : s.memWf) : outcomeWf (execRepRepetition s) := by
  unfold execRepRepetition
  change State.memWf _
  split
  · split
    · exact h
    · refine .ite ?_ h.updCtx.repIssue
      split
      · exact .ite h.repIssue (.ite h h.gangArrive)
      · exact h.gangArrive
  · exact h

theorem State.memWf.gangRead (h : s.memWf) {c} : (s.gangRead c).memWf := by
  unfold State.gangRead
  split
  · exact h.prereadDesc
  · exact h

theorem Team.wf_gangGo {t : Team} (n : Nat) (h : Memory.wf t.spad = true) : Memory.wf (t.gangGo n).spad = true := by
  unfold Team.gangGo
  split
  · exact h
  · dsimp only
    split
    · exact h
    · exact h

theorem State.memWf.gangTask (h : s.memWf) {x} : (s.gangTask x).memWf := by
  unfold State.gangTask
  extract_lets ms go
  have gone l : (go s l).memWf := h.foldl _ (fun _ _ w => w.updTeam fun _ k => Team.wf_gangGo _ k)
  clear_value ms go
  exact .ite h (.ite (h.foldl _ (fun _ _ w => w.gangRead)) (.ite (gone _) ((gone _).foldl _ (fun _ _ w => w.now))))

theorem State.memWf.gangMatch (h : s.memWf) : s.gangMatch.memWf := h.foldl _ (fun _ _ w => w.gangTask)

/-! ## The next cycle -/

theorem State.memWf.prune (h : s.memWf) : s.prune.memWf := h.foldl _ (fun _ _ w => .ite w.updTeam w)
theorem State.memWf.dueTimers (h : s.memWf) : s.dueTimers.memWf := h

theorem State.memWf.arrive {r : State × List HostPacket} (h : r.1.memWf) {p} : (State.arrive r p).1.memWf := by
  unfold State.arrive
  split
  refine .ite_fst h ?_
  split
  · exact h
  · exact .ite_fst h (.ite_fst h (State.memWf.captureCmd h).send)

theorem State.memWf.arrivals (h : s.memWf) : s.arrivals.memWf := by
  have w := State.memWf.foldl_fst (f := State.arrive) (p := (s, [])) h (s.inbox.filter (fun p => p.due ≤ s.cycle)) (fun _ _ _ w => State.memWf.arrive w)
  exact w

theorem Team.wf_refill {t : Team} (h : Memory.wf t.spad = true) : Memory.wf t.refill.spad = true := by
  unfold Team.refill
  split
  · exact h
  · exact h

theorem State.memWf.refill (h : s.memWf) : s.refill.memWf := h.foldl _ (fun _ _ w => .ite w (w.updTeam fun _ k => Team.wf_refill k))
theorem State.memWf.beginTurn (h : s.memWf) : s.beginTurn.memWf := .ite h h
theorem State.memWf.holdClocks (h : s.memWf) : s.holdClocks.memWf := .ite (h.foldl _ (fun _ _ w => .ite w w.updTeam)) h
theorem State.memWf.abandonAll (h : s.memWf) : s.abandonAll.memWf := .ite h (h.foldl _ (fun _ _ w => .ite w.abandon w))

theorem State.memWf.callOff (h : s.memWf) {x} : (s.callOff x).memWf :=
  (h.foldl _ (fun _ _ w => w.updCore fun _ k => Team.wf_seqResume k)).updTask

theorem State.memWf.beginSave (h : s.memWf) {x} : (s.beginSave x).memWf := by
  unfold State.beginSave
  split
  · refine .ite h (.ite h.callOff (.ite ?_ h))
    split
    exact (h.takeDelay.of_snd ‹_›).updTask
  · exact .ite h.enterResume h
  · exact h

theorem State.memWf.beginSaves (h : s.memWf) : s.beginSaves.memWf := h.foldl _ (fun _ _ w => w.beginSave)

theorem State.memWf.seqFetch (h : s.memWf) {c} : (s.seqFetch c).memWf := by
  refine .ite h (.ite h.seqFail ?_)
  split
  · exact h.updSeq.now
  · exact h.seqFail

theorem State.memWf.seqFetches (h : s.memWf) : s.seqFetches.memWf := h.foldl _ (fun _ _ w => .ite w.seqFetch w)
theorem State.memWf.withCycle (h : s.memWf) {n m} : State.memWf { s with cycle := n, turn := m } := h

theorem State.memWf.withAgenda (h : s.memWf) {l} : State.memWf { s with agenda := l } := h

theorem State.memWf.tick (h : s.memWf) : s.tick.memWf := by
  unfold State.tick
  extract_lets u v
  have turned : u.memWf := h.withCycle.beginTurn
  have done : v.memWf := turned.prune.land.dueTimers.retryHeld.arrivals.refill.holdClocks.abandonAll.beginSaves.seqFetches
  exact done.withAgenda

theorem State.memWf.endCycle (h : s.memWf) : s.endCycle.memWf := .ite h (.ite h.tick h)

/-! ## One step -/

/-- Every instruction keeps the memories: a word by its slot, everything else by its own lemma. -/
theorem outcomeWf_exec (h : s.memWf) (i : Instr) : outcomeWf (exec i s) := by
  by_cases hi : i.head.isSome = true
  · obtain ⟨hd, r, e⟩ := exec_slot i s hi
    rw [e]
    exact h.slot
  · cases i with
    | fetchkv => exact outcomeWf_fetchkv h
    | score => exact outcomeWf_score h
    | scale => exact outcomeWf_scale h
    | mask => exact outcomeWf_mask h
    | smax => exact outcomeWf_smax h
    | weigh => exact outcomeWf_weigh h
    | seqNext => exact outcomeWf_seqNext h
    | jump => exact outcomeWf_jump h
    | flush => exact outcomeWf_flush h
    | seqEnd => exact outcomeWf_seqEnd h
    | submit => exact outcomeWf_submit h
    | memwr => exact outcomeWf_memwr h
    | memrd => exact outcomeWf_memrd h
    | root => exact outcomeWf_root h
    | inval => exact outcomeWf_inval h
    | resume => exact outcomeWf_resume h
    | hunbind => exact outcomeWf_hunbind h
    | qcfg => exact outcomeWf_qcfg h
    | scfg => exact outcomeWf_scfg h
    | kvcfg => exact outcomeWf_kvcfg h
    | seqload => exact outcomeWf_seqload h
    | stepgrp => exact outcomeWf_stepgrp h
    | ftab => exact outcomeWf_ftab h
    | collgrp => exact outcomeWf_collgrp h
    | rtabcfg => exact outcomeWf_rtabcfg h
    | domcfg => exact outcomeWf_domcfg h
    | abort => exact outcomeWf_abort h
    | attest => exact outcomeWf_attest h
    | dhalt => exact outcomeWf_dhalt h
    | dresume => exact outcomeWf_dresume h
    | dread => exact outcomeWf_dread h
    | dbrk => exact outcomeWf_dbrk h
    | dprof => exact outcomeWf_dprof h
    | dmaster => exact outcomeWf_dmaster h
    | statring => exact outcomeWf_statring h
    | capture => exact outcomeWf_capture h
    | framerel => exact outcomeWf_framerel h
    | bundleDecode => exact outcomeWf_bundleDecode h
    | codeFetchLine => exact outcomeWf_codeFetchLine h
    | pageWalk => exact outcomeWf_pageWalk h
    | engineStart => exact outcomeWf_engineStart h
    | engineComplete => exact outcomeWf_engineComplete h
    | cpymCoreCopy => exact outcomeWf_cpymCoreCopy h
    | bucketFire => exact outcomeWf_bucketFire h
    | stepVoteComplete => exact outcomeWf_stepVoteComplete h
    | fabricRequest => exact outcomeWf_fabricRequest h
    | promotionInstall => exact outcomeWf_promotionInstall h
    | repRepetition => exact outcomeWf_repRepetition h
    | replayInject => exact outcomeWf_replayInject h
    | schedPass => exact outcomeWf_schedPass h
    | taskStart => exact outcomeWf_taskStart h
    | taskComplete => exact outcomeWf_taskComplete h
    | ageTick => exact outcomeWf_ageTick h
    | gangReserve => exact outcomeWf_gangReserve h
    | swapOut => exact outcomeWf_swapOut h
    | teamSaved => exact outcomeWf_teamSaved h
    | freezeBoundary => exact outcomeWf_freezeBoundary h
    | boundaryStop => exact outcomeWf_boundaryStop h
    | deadlineExpire => exact outcomeWf_deadlineExpire h
    | forwardRetire => exact outcomeWf_forwardRetire h
    | afrUpdate => exact outcomeWf_afrUpdate h
    | powerGate => exact outcomeWf_powerGate h
    | powerHold => exact outcomeWf_powerHold h
    | thermalTrip => exact outcomeWf_thermalTrip
    | powerOn => exact outcomeWf_powerOn h
    | firmwareAccept => exact outcomeWf_firmwareAccept h
    | bootRetry => exact outcomeWf_bootRetry h
    | watchdogExpire => exact outcomeWf_watchdogExpire h
    | scanComplete => exact outcomeWf_scanComplete h
    | scanAbortComplete => exact outcomeWf_scanAbortComplete h
    | holdExpire => exact outcomeWf_holdExpire h
    | scrub => exact outcomeWf_scrub h
    | preciseStop => exact outcomeWf_preciseStop h
    | sample => exact outcomeWf_sample h
    | replaySubmit => exact outcomeWf_replaySubmit h
    | restore => exact outcomeWf_restore h
    | waitCycPasses => exact outcomeWf_waitCycPasses h
    | freezeIssueHold => exact outcomeWf_freezeIssueHold h
    | messageUndeliverable => exact outcomeWf_messageUndeliverable h
    | powerRemoved => exact outcomeWf_powerRemoved
    | _ => exact absurd rfl hi

/-- What is next in the order of work stands on canonical memories. -/
def Turn.memWf : Turn → Prop
  | .run _ s => s.memWf
  | .idle s => s.memWf
  | .off => True

theorem Turn.memWf_turnOf (h : s.memWf) : s.turnOf.memWf := by
  unfold State.turnOf
  split
  · exact h
  · split
    · exact h
    · split
      · exact trivial
      · extract_lets u
        have w : u.memWf := .ite h.gangMatch h
        split
        · exact w
        · split
          · split
            · exact w.tryCore.of_fst ‹_›
            · exact w.tryCore.of_fst ‹_›
          · exact w.endCycle

theorem State.memWf.step (h : s.memWf) (e : step s = .next t) : t.memWf := by
  have turn := Turn.memWf_turnOf h
  have w : outcomeWf (Machine.step s) := by
    unfold Machine.step
    split
    next i u hu =>
      rw [hu] at turn
      exact outcomeWf_exec turn i
    next u hu =>
      rw [hu] at turn
      exact turn
    · exact trivial
  rw [e] at w
  exact w

end

/-- Settles O54: each instruction, each event and each move between them keeps the memories (`State.memWf.step`), and so does what
lands (`State.memWf.land`). -/
theorem stepKeepsMemoryCanonical : Obligations.StepKeepsMemoryCanonical := by
  unfold Obligations.StepKeepsMemoryCanonical
  exact ⟨fun _ _ h e => h.step e, fun _ h => h.land⟩

end Sys2Proof.Machine

end MemoryCanonical

/-! What decode says of encoded words and of bundles out of order (R35 to R50, R51, R71): the round trip for every instruction, the
fixed words of the tables, and the checks that come before the reading of a word. -/

namespace Sys2Proof

/-! ## The round trip -/

/-- Encoding and decoding agree on every instruction. -/
theorem Laws.RoundTrip.every : ∀ i : Instr, Statement i
  | .nop w => nop w | .br w => br w | .brp w => brp w | .brs w => brs w | .jmpi w => jmpi w | .call w => call w
  | .ret w => ret w | .loop w => loop w | .rep w => rep w | .waitTok w => waitTok w | .waitCyc w => waitCyc w
  | .retire w => retire w | .yield w => yield w | .launch w => launch w | .enq w => enq w | .trap w => trap w
  | .tren w => tren w | .tret w => tret w | .barInit w => barInit w | .barArrive w => barArrive w | .barWait w => barWait w
  | .drain w => drain w | .fenceQ w => fenceQ w | .mfc w => mfc w | .mtc w => mtc w | .mtcTstat w => mtcTstat w
  | .mtcWaitlim w => mtcWaitlim w | .stepC w => stepC w | .scanStart w => scanStart w | .scanAbort w => scanAbort w
  | .scanRead w => scanRead w | .cmapSet w => cmapSet w | .sqpop w => sqpop w | .dbgHalt w => dbgHalt w
  | .dbgResume w => dbgResume w | .add w => add w | .sub w => sub w | .mul w => mul w | .mulh w => mulh w | .div w => div w
  | .rem w => rem w | .addi w => addi w | .movi w => movi w | .movl w => movl w | .mov w => mov w | .and w => and w
  | .or w => or w | .xor w => xor w | .andn w => andn w | .shl w => shl w | .shr w => shr w | .sra w => sra w | .rot w => rot w
  | .clz w => clz w | .popc w => popc w | .min w => min w | .max w => max w | .sel w => sel w | .cmpS w => cmpS w
  | .cmpP w => cmpP w | .aadd w => aadd w | .ainc w => ainc w | .amod w => amod w | .asetA w => asetA w | .asetS w => asetS w
  | .fadd w => fadd w | .fsub w => fsub w | .fmul w => fmul w | .fma w => fma w | .fmin w => fmin w | .fmax w => fmax w
  | .fcmpS w => fcmpS w | .fcmpP w => fcmpP w | .fcvt w => fcvt w | .pand w => pand w | .por w => por w | .pxor w => pxor w
  | .pnot w => pnot w | .pmov w => pmov w | .ldS w => ldS w | .ldV w => ldV w | .ldVB w => ldVB w | .ldVG w => ldVG w
  | .ldVQ w => ldVQ w | .ldt w => ldt w | .ldSW w => ldSW w | .amoAdd w => amoAdd w | .amoMin w => amoMin w
  | .amoMax w => amoMax w | .amoXchg w => amoXchg w | .amoCas w => amoCas w | .patld w => patld w | .stS w => stS w
  | .stV w => stV w | .stVS w => stVS w | .stVC w => stVC w | .stSW w => stSW w | .vadd w => vadd w | .vsub w => vsub w
  | .vadds w => vadds w | .vsubs w => vsubs w | .vmul w => vmul w | .vmulh w => vmulh w | .vmad w => vmad w
  | .vdot4 w => vdot4 w | .vand w => vand w | .vor w => vor w | .vxor w => vxor w | .vshl w => vshl w | .vshr w => vshr w
  | .vsra w => vsra w | .vmin w => vmin w | .vmax w => vmax w | .vabs w => vabs w | .vneg w => vneg w | .vcmp w => vcmp w
  | .vsel w => vsel w | .vmov w => vmov w | .vbcastS w => vbcastS w | .vbcastE w => vbcastE w | .vfadd w => vfadd w
  | .vfsub w => vfsub w | .vfmul w => vfmul w | .vfma w => vfma w | .vfmin w => vfmin w | .vfmax w => vfmax w
  | .vfabs w => vfabs w | .vfcmp w => vfcmp w | .vcvt w => vcvt w | .vpack w => vpack w | .vunpk w => vunpk w
  | .vnarrow w => vnarrow w | .vredAdd w => vredAdd w | .vredMax w => vredMax w | .vredMin w => vredMin w
  | .vscanAdd w => vscanAdd w | .vshuf w => vshuf w | .patswap w => patswap w | .vperm w => vperm w | .vcompact w => vcompact w
  | .vexpand w => vexpand w | .vmapSet w => vmapSet w | .vmapCopy w => vmapCopy w | .vmapOff w => vmapOff w
  | .vmapSlice w => vmapSlice w | .vmapTr w => vmapTr w | .vmapNone w => vmapNone w | .vmapTag w => vmapTag w
  | .vcoord w => vcoord w | .vnoise w => vnoise w | .vmaskcCausal w => vmaskcCausal w | .vmaskcBand w => vmaskcBand w
  | .vmaskcWin w => vmaskcWin w | .vmaskcLt w => vmaskcLt w | .vmaskcGe w => vmaskcGe w | .vtopk8 w => vtopk8 w
  | .vsortStep w => vsortStep w | .vacr w => vacr w | .vacw w => vacw w | .vacwAdd w => vacwAdd w | .vexp2 w => vexp2 w
  | .vexp w => vexp w | .vlog2 w => vlog2 w | .vln w => vln w | .vrcp w => vrcp w | .vrsq w => vrsq w | .vsqrt w => vsqrt w
  | .vtanh w => vtanh w | .vsigm w => vsigm w | .verf w => verf w | .vsincos w => vsincos w | .vpows w => vpows w
  | .mma w => mma w | .mmaZ w => mmaZ w | .mmaG w => mmaG w | .mmaT w => mmaT w | .mmaBS w => mmaBS w | .tzero w => tzero w
  | .tload w => tload w | .tmap w => tmap w | .twait w => twait w | .cpy w => cpy w | .cpym w => cpym w | .cpyl w => cpyl w
  | .cpylTopk w => cpylTopk w | .cpyh w => cpyh w | .atomAdd w => atomAdd w | .atomMin w => atomMin w | .atomMax w => atomMax w
  | .atomXchg w => atomXchg w | .atomCas w => atomCas w | .atomk w => atomk w | .collAR w => collAR w | .collRS w => collRS w
  | .collAG w => collAG w | .collA2A w => collA2A w | .bkset w => bkset w | .kick w => kick w | .sidx w => sidx w
  | .rtabCommit w => rtabCommit w | .kvld w => kvld w | .kvapp w => kvapp w | .kvremap w => kvremap w | .kvshare w => kvshare w
  | .kvprom w => kvprom w | .pfxfind w => pfxfind w | .pfxins w => pfxins w | .attn w => attn w | .stnew w => stnew w
  | .splice w => splice w | .stpin w => stpin w | .stunpin w => stunpin w | .cpys w => cpys w | .swcpyIn w => swcpyIn w
  | .swcpyOut w => swcpyOut w | .swcpyDec w => swcpyDec w | .swcpyMerge w => swcpyMerge w | .sweep w => sweep w
  | .fetchkv => fetchkv | .score => score | .scale => scale | .mask => mask | .smax => smax | .weigh => weigh
  | .seqNext => seqNext | .jump => jump | .flush => flush | .seqEnd => seqEnd | .submit => submit | .memwr => memwr
  | .memrd => memrd | .root => root | .inval => inval | .resume => resume | .hunbind => hunbind | .qcfg => qcfg | .scfg => scfg
  | .kvcfg => kvcfg | .seqload => seqload | .stepgrp => stepgrp | .ftab => ftab | .collgrp => collgrp | .rtabcfg => rtabcfg
  | .domcfg => domcfg | .abort => abort | .attest => attest | .dhalt => dhalt | .dresume => dresume | .dread => dread
  | .dbrk => dbrk | .dprof => dprof | .dmaster => dmaster | .statring => statring | .capture => capture | .framerel => framerel
  | .bundleDecode => bundleDecode | .codeFetchLine => codeFetchLine | .pageWalk => pageWalk | .engineStart => engineStart
  | .engineComplete => engineComplete | .cpymCoreCopy => cpymCoreCopy | .bucketFire => bucketFire
  | .stepVoteComplete => stepVoteComplete | .fabricRequest => fabricRequest | .promotionInstall => promotionInstall
  | .repRepetition => repRepetition | .replayInject => replayInject | .schedPass => schedPass | .taskStart => taskStart
  | .taskComplete => taskComplete | .ageTick => ageTick | .gangReserve => gangReserve | .swapOut => swapOut
  | .teamSaved => teamSaved | .freezeBoundary => freezeBoundary | .boundaryStop => boundaryStop
  | .deadlineExpire => deadlineExpire | .forwardRetire => forwardRetire | .afrUpdate => afrUpdate | .powerGate => powerGate
  | .powerHold => powerHold | .thermalTrip => thermalTrip | .powerOn => powerOn | .firmwareAccept => firmwareAccept
  | .bootRetry => bootRetry | .watchdogExpire => watchdogExpire | .scanComplete => scanComplete
  | .scanAbortComplete => scanAbortComplete | .holdExpire => holdExpire | .scrub => scrub | .preciseStop => preciseStop
  | .sample => sample | .replaySubmit => replaySubmit | .restore => restore | .waitCycPasses => waitCycPasses
  | .freezeIssueHold => freezeIssueHold | .messageUndeliverable => messageUndeliverable | .powerRemoved => powerRemoved

/-- Settles O50: the round trip of each row (`Laws.RoundTrip.every`), with the words, the microword and the packet named. -/
theorem decodeEncode : Obligations.DecodeEncode := by
  intro i
  obtain ⟨opWord, micro, command⟩ := Laws.RoundTrip.every i
  refine ⟨fun hw hu hh => Option.bind_eq_some_iff.mp (opWord hw hu hh), fun w h => Option.bind_eq_some_iff.mp (micro w h),
    fun p h => ?_⟩
  obtain ⟨⟨header, payload⟩, encoded, decoded⟩ := Option.bind_eq_some_iff.mp (command p h)
  exact ⟨header, payload, encoded, decoded⟩

/-- The word that an op word without an IMM word is encoded to decodes to it. -/
theorem decodeWord_of_encode {i : Instr} {w : Word} (he : encode i = some [w]) (hw : i.wellFormed = true) (hu : i.unitOk = true)
    (hh : i.head.isSome = true) : decodeWord w none = some i := by
  have decoded := (Laws.RoundTrip.every i).1 hw hu hh
  rwa [he] at decoded

/-- The same for an op word with its IMM word. -/
theorem decodeWord_of_encode_imm {i : Instr} {w m : Word} (he : encode i = some [w, m]) (hm : isImmWord m = true)
    (hw : i.wellFormed = true) (hu : i.unitOk = true) (hh : i.head.isSome = true) : decodeWord w (some m) = some i := by
  have decoded := (Laws.RoundTrip.every i).1 hw hu hh
  rw [he] at decoded
  exact (if_pos hm).symm.trans decoded

/-- Settles O49: each word is what the encoder writes for its instruction, and each instruction is well formed. -/
theorem wordsDecode : Obligations.WordsDecode := by
  unfold Obligations.WordsDecode
  refine ⟨?_, ?_, ?_, ?_, decodeWord_of_encode_imm rfl rfl rfl rfl rfl, ?_, ?_, ?_, ?_, ?_, ?_, ?_, ?_, ?_⟩
  all_goals exact decodeWord_of_encode rfl rfl rfl rfl

/-! ## Bundles refused before a word is read (R37, R51, R71) -/

theorem bundleWords_of_stop {w : Word} (ws : List Word) (h : w.getLsbD 63 = true) : bundleWords (w :: ws) = some [w] := if_pos h

theorem bundleWords_of_open {w : Word} (ws : List Word) (h : w.getLsbD 63 = false) :
    bundleWords (w :: ws) = (bundleWords ws).map (w :: ·) := if_neg (ne_true_of_eq_false h)

/-- A bundle stays open exactly when no word has STOP (R37). -/
theorem bundleWords_eq_none_iff (ws : List Word) : bundleWords ws = none ↔ ∀ x ∈ ws, x.getLsbD 63 = false := by
  induction ws with
  | nil => exact iff_of_true rfl (fun _ h => absurd h List.not_mem_nil)
  | cons w ws ih =>
    rw [List.forall_mem_cons, ← ih]
    cases stop : w.getLsbD 63 with
    | true => simp only [bundleWords_of_stop ws stop, reduceCtorEq, false_and]
    | false => simp only [bundleWords_of_open ws stop, Option.map_eq_none_iff, true_and]

/-- The first word of a closed bundle is the first of the words read. -/
theorem bundleWords_cons {w : Word} {ws : List Word} (h : ∃ x ∈ w :: ws, x.getLsbD 63 = true) :
    ∃ bs, bundleWords (w :: ws) = some (w :: bs) := by
  cases stop : w.getLsbD 63 with
  | true => exact ⟨[], bundleWords_of_stop ws stop⟩
  | false =>
    cases rest : bundleWords ws with
    | some bs => exact ⟨bs, by rw [bundleWords_of_open ws stop, rest, Option.map_some]⟩
    | none =>
      obtain ⟨x, hx, closed⟩ := h
      have never : ∀ y ∈ w :: ws, y.getLsbD 63 = false := List.forall_mem_cons.mpr ⟨stop, (bundleWords_eq_none_iff ws).mp rest⟩
      exact absurd closed (ne_true_of_eq_false (never x hx))

/-- A closed bundle whose first word fails its checks traps with it. -/
theorem decodeBundle_error {env : DecodeEnv} {w : Word} {ws : List Word} {d : DecodeTrap} (h : ∃ x ∈ w :: ws, x.getLsbD 63 = true)
    (hc : ∀ bs, checkWords env none false [] (w :: bs) = .error d) : decodeBundle env (w :: ws) = .error d := by
  obtain ⟨bs, hb⟩ := bundleWords_cons h
  unfold decodeBundle
  rw [hb]
  simp only [hc]

/-- A bundle that stays open is charged to its eighth word. -/
theorem decodeBundle_open {env : DecodeEnv} {ws : List Word} (h : ∀ x ∈ ws, x.getLsbD 63 = false) :
    decodeBundle env ws = .error { cause := .illLen, word := ws.getD 7 0 } := by
  unfold decodeBundle
  rw [(bundleWords_eq_none_iff ws).mpr h]

/-- Is the unit of a word reserved, or one that a control core lacks (R51)? -/
def unitBarred (env : DecodeEnv) (w : Word) : Bool :=
  let u := (w.extractLsb' 59 4).toNat
  (11 ≤ u && u ≤ 14) || (env.control && 5 ≤ u && u ≤ 9)

section
variable (env : DecodeEnv) (prev : Option Nat) (acc : List Instr) (w : Word) (bs : List Word)

theorem unitBarred_iff : unitBarred env w = true ↔
    (11 ≤ (w.extractLsb' 59 4).toNat ∧ (w.extractLsb' 59 4).toNat ≤ 14)
      ∨ (env.control = true ∧ 5 ≤ (w.extractLsb' 59 4).toNat ∧ (w.extractLsb' 59 4).toNat ≤ 9) := by
  simp [unitBarred, and_assoc]

theorem checkWords_unitBarred (immOk : Bool) (h : unitBarred env w = true) :
    checkWords env prev immOk acc (w :: bs) = .error { cause := .illUnit, word := w } := by
  unfold checkWords
  exact if_pos h

/-- An IMM word where none may stand: its unit code is none of those that are barred. -/
theorem checkWords_imm_misplaced (h : (w.extractLsb' 59 4).toNat = 15) :
    checkWords env prev false acc (w :: bs) = .error { cause := .illOrder, word := w } := by
  have allowed : ¬ unitBarred env w = true := by rw [unitBarred_iff]; omega
  unfold checkWords
  refine (if_neg allowed).trans ((if_pos ?_).trans (if_pos rfl))
  rw [h]; rfl

end

/-- Settles O51: the unit's code is the first check on a word and the order of an IMM word the next; a bundle of eight words without STOP
is none. -/
theorem reservedWordsRefused : Obligations.ReservedWordsRefused := by
  intro env w ws
  refine ⟨fun closes unit => decodeBundle_error closes (fun bs => ?_), fun closes imm => decodeBundle_error closes (fun bs => ?_),
    fun never len => ?_⟩
  · exact checkWords_unitBarred env none [] w bs false ((unitBarred_iff env w).mpr unit)
  · exact checkWords_imm_misplaced env none [] w bs imm
  · rw [decodeBundle_open never, List.getD_eq_getElem _ _ (show 7 < (w :: ws).length by omega)]

end Sys2Proof

/-! From the turn of a core to the first word of its next bundle (R37, R41, R71, R343): what choosing a context, fetching and decoding
a bundle and opening its record leave as it was, the path on which nothing holds the bundle, and the statement of O47. -/

namespace Sys2Proof.Machine

/-! ## What opening a bundle leaves as it was -/

/-- The registers, maps, tokens and loop of a context, and its PC, are those of another. -/
def Ctx.SameProgram (a b : Ctx) : Prop :=
  b.s = a.s ∧ b.a = a.a ∧ b.p = a.p ∧ b.v = a.v ∧ b.maps = a.maps ∧ b.pins = a.pins ∧ b.pc = a.pc ∧ b.tokPend = a.tokPend
    ∧ b.loop = a.loop

/-- The scratchpad and the work in flight of a team are those of another, and so are the programs of its contexts. -/
structure Team.SamePrograms (a b : Team) : Prop where
  spad : b.spad = a.spad
  pend : b.pend = a.pend
  ctxs : ∀ j : Fin 4, (a.ctxs.get j).SameProgram (b.ctxs.get j)

/-- Memory, the cycle, and the programs of every core are those of another state. -/
structure State.SamePrograms (s t : State) : Prop where
  mem : t.mem = s.mem
  cycle : t.cycle = s.cycle
  teams : ∀ d : Fin 208, (s.coreAt d).team.SamePrograms (t.coreAt d).team

theorem Ctx.SameProgram.refl (x : Ctx) : x.SameProgram x := ⟨rfl, rfl, rfl, rfl, rfl, rfl, rfl, rfl, rfl⟩

theorem Team.SamePrograms.refl (t : Team) : t.SamePrograms t := ⟨rfl, rfl, fun j => .refl (t.ctxs.get j)⟩

theorem State.SamePrograms.refl (s : State) : s.SamePrograms s := ⟨rfl, rfl, fun d => .refl (s.coreAt d).team⟩

theorem Ctx.SameProgram.trans {x y z : Ctx} (h : x.SameProgram y) (h' : y.SameProgram z) : x.SameProgram z := by
  unfold Ctx.SameProgram at *
  simp only [h, h', and_self]

theorem Team.SamePrograms.trans {a b c : Team} (h : a.SamePrograms b) (h' : b.SamePrograms c) : a.SamePrograms c :=
  ⟨h'.spad.trans h.spad, h'.pend.trans h.pend, fun j => (h.ctxs j).trans (h'.ctxs j)⟩

theorem State.SamePrograms.trans {s t u : State} (h : s.SamePrograms t) (h' : t.SamePrograms u) : s.SamePrograms u :=
  ⟨h'.mem.trans h.mem, h'.cycle.trans h.cycle, fun d => (h.teams d).trans (h'.teams d)⟩

/-- A change of one core that keeps its team's programs. -/
theorem State.SamePrograms.updCore (s : State) (c : Fin 208) (f : Core → Core)
    (h : (s.coreAt c).team.SamePrograms (f (s.coreAt c)).team) : s.SamePrograms (s.updCore c f) := by
  refine ⟨rfl, rfl, fun d => ?_⟩
  by_cases e : d = c
  · rw [e, State.coreAt_updCore]
    exact h
  · rw [State.coreAt_updCore_ne s f e]
    exact .refl _

theorem State.SamePrograms.updTeam (s : State) (c : Fin 208) (f : Team → Team)
    (h : (s.coreAt c).team.SamePrograms (f (s.coreAt c).team)) : s.SamePrograms (s.updTeam c f) := .updCore s c _ h

theorem Team.SamePrograms.updCtx (t : Team) (k : Fin 4) (f : Ctx → Ctx) (h : (t.ctxs.get k).SameProgram (f (t.ctxs.get k))) :
    t.SamePrograms (t.updCtx k f) := by
  refine ⟨rfl, rfl, fun j => ?_⟩
  by_cases e : j = k
  · rw [e, Team.get_updCtx]
    exact h
  · rw [Team.get_updCtx_ne t f e]
    exact .refl _

/-! ## The chosen context -/

/-- A context that is chosen no longer counts as blocked. -/
def Ctx.unblocked (x : Ctx) : Ctx := { x with blockedSince := none, blockedOn := [] }

theorem State.chosen_eq (s : State) (c : Fin 208) (k : Fin 4) :
    s.chosen c k = s.updTeam c (fun t => { t.updCtx k Ctx.unblocked with cur := k }) := rfl

theorem State.SamePrograms.chosen (s : State) (c : Fin 208) (k : Fin 4) : s.SamePrograms (s.chosen c k) := by
  have same := Team.SamePrograms.updCtx (s.coreAt c).team k Ctx.unblocked ⟨rfl, rfl, rfl, rfl, rfl, rfl, rfl, rfl, rfl⟩
  rw [State.chosen_eq]
  exact .updTeam s c _ ⟨same.spad, same.pend, same.ctxs⟩

theorem State.SamePrograms.touched (s : State) (c : Fin 208) (a n : Nat) : s.SamePrograms (s.touched c a n) :=
  .updCore s c _ (.refl _)

theorem State.SamePrograms.drainReads (s : State) (c : Fin 208) (k : Fin 4) (is : List Instr) : s.SamePrograms (s.drainReads c k is) := by
  unfold State.drainReads
  split
  · exact .updTeam s c _ ⟨rfl, rfl, fun j => .refl ((s.coreAt c).team.ctxs.get j)⟩
  · exact .refl s

section
variable (s : State) (c : Fin 208) (k : Fin 4)

theorem State.coreAt_chosen :
    (s.chosen c k).coreAt c = { s.coreAt c with team := { (s.coreAt c).team.updCtx k Ctx.unblocked with cur := k } } := by
  rw [State.chosen_eq, State.coreAt_updTeam]

theorem State.ctxAt_chosen : (s.chosen c k).ctxAt c k = (s.ctxAt c k).unblocked := by
  unfold State.ctxAt
  rw [State.coreAt_chosen]
  exact Team.get_updCtx (s.coreAt c).team k Ctx.unblocked

/-- The words of a bundle stand in the instruction buffer, whatever the team. -/
theorem readWords_team (y : Core) (t : Team) (n a : Nat) (acc : List Word) :
    readWords { y with team := t } n a acc = readWords y n a acc := by
  induction n generalizing a acc with
  | zero => rfl
  | succ n ih =>
    unfold readWords
    simp only [ih]
    rfl

theorem State.nextWords_chosen : (s.chosen c k).nextWords c k = s.nextWords c k := by
  unfold State.nextWords
  rw [State.ctxAt_chosen, State.coreAt_chosen, readWords_team]
  rfl

theorem State.decodeEnv_chosen (b : Bool) : (s.chosen c k).decodeEnv c b = s.decodeEnv c b := by
  unfold State.decodeEnv
  rw [State.coreAt_chosen]
  rfl

theorem State.atBreak_chosen : (s.chosen c k).atBreak c k = s.atBreak c k := by
  unfold State.atBreak
  rw [State.ctxAt_chosen, State.coreAt_chosen]
  rfl

/-- No breakpoint holds a bundle that has stopped at its own already, or at whose address none stands. -/
theorem State.atBreak_eq_false (h : (s.ctxAt c k).brkPass = true ∨ ∀ b ∈ (s.coreAt c).brks.toList, b ≠ some (s.ctxAt c k).pc) :
    s.atBreak c k = false := by
  unfold State.atBreak
  rcases h with passed | clear
  · rw [passed, Bool.not_true, Bool.and_false]
  · have none_ : (s.coreAt c).brks.toList.contains (some (s.ctxAt c k).pc) = false :=
      Bool.eq_false_iff.mpr (fun e => clear _ (List.contains_iff_mem.mp e) rfl)
    rw [none_, Bool.false_and]

/-! ## The lines of the bundle -/

/-- The state once the words of the context's next bundle, `n` of them, have been read: their lines are the last used, unless the
bundle stands in the loop buffer (R79, R275). -/
def State.linesUsed (n : Nat) : State := if (s.ctxAt c k).heldWords.isSome then s else s.touched c (s.ctxAt c k).pc.toNat n

variable (n : Nat)

theorem State.SamePrograms.linesUsed : s.SamePrograms (s.linesUsed c k n) := by
  unfold State.linesUsed
  split
  · exact .refl s
  · exact .touched ..

theorem State.coreAt_linesUsed : ∃ l, (s.linesUsed c k n).coreAt c = { s.coreAt c with ibuf := l } := by
  unfold State.linesUsed
  split
  · exact ⟨(s.coreAt c).ibuf, rfl⟩
  · exact ⟨_, State.coreAt_updCore s c _⟩

theorem State.ctxAt_linesUsed : (s.linesUsed c k n).ctxAt c k = s.ctxAt c k := by
  obtain ⟨l, e⟩ := s.coreAt_linesUsed c k n
  unfold State.ctxAt
  rw [e]

theorem State.decodeEnv_linesUsed (b : Bool) : (s.linesUsed c k n).decodeEnv c b = s.decodeEnv c b := by
  obtain ⟨l, e⟩ := s.coreAt_linesUsed c k n
  unfold State.decodeEnv
  rw [e]

theorem State.atBreak_linesUsed : (s.linesUsed c k n).atBreak c k = s.atBreak c k := by
  obtain ⟨l, e⟩ := s.coreAt_linesUsed c k n
  unfold State.atBreak
  rw [State.ctxAt_linesUsed, e]

end

/-! ## The path on which nothing holds a bundle -/

section
variable {s : State} {c : Fin 208} {k : Fin 4} {ws : List Word} {i : Instr} {is : List Instr}

/-- A bundle that is present, is not skipped, passes its parity, stands at no breakpoint and decodes goes on to the accumulator
banks (R41, R71, R79, R385). -/
theorem State.attempt_decodes (hp : s.fetchParked c k = false) (hw : s.nextWords c k = .words ws)
    (hl : ∀ l, (s.ctxAt c k).activeLoop = some l → l.skip = false)
    (hpar : (s.ctxAt c k).heldWords.isSome = true ∨ badParity (s.coreAt c) (s.ctxAt c k).pc.toNat ws.length = false)
    (hb : s.atBreak c k = false) (hd : decodeBundle (s.decodeEnv c (s.ctxAt c k).activeLoop.isSome) ws = .ok is) :
    s.attempt c k = (s.linesUsed c k ws.length).attemptDecoded c k ws is := by
  have skips : (s.ctxAt c k).activeLoop.filter (·.skip) = none :=
    Option.filter_eq_none_iff.mpr (fun l h => ne_true_of_eq_false (hl l h))
  have parity : (!(s.ctxAt c k).heldWords.isSome && badParity (s.coreAt c) (s.ctxAt c k).pc.toNat ws.length) = false := by
    rcases hpar with held | sound
    · rw [held, Bool.not_true, Bool.false_and]
    · rw [sound, Bool.and_false]
  rw [← State.atBreak_linesUsed s c k ws.length] at hb
  rw [← State.decodeEnv_linesUsed s c k ws.length] at hd
  unfold State.linesUsed State.ctxAt at *
  unfold State.attempt
  simp only [hp, hw, skips, parity, hb, hd, Bool.false_eq_true, if_false]

/-- A decoded bundle that needs no descriptor, meets no bank conflict, does not block and has no gang word opens (R71, R343). -/
theorem State.attemptDecoded_opens (hr : s.mustPreread c k is = false) (hc : s.bankConflict c k s.cycle is = none)
    (hb : s.blocks c k is = false) (hg : ∀ j ∈ is, isGangWord (s.ctxAt c k) j = false) :
    s.attemptDecoded c k ws is = s.openIssue c k ws is := by
  have gangless : is.find? (isGangWord (s.ctxAt c k)) = none := List.find?_eq_none.mpr (fun j h => ne_true_of_eq_false (hg j h))
  unfold State.attemptDecoded
  simp only [hr, hb, gangless, Bool.false_eq_true, if_false]
  rw [hc]

/-- The record of a bundle of context k of core c whose first word `i` executes: it stands at PC, and no other word has executed. -/
def Issue.Opens (q : Issue) (c : Fin 208) (k : Fin 4) (pc : BitVec 56) (ws : List Word) (i : Instr) (is : List Instr) : Prop :=
  q.core = c ∧ q.ctx = k ∧ q.baddr = pc ∧ q.next = pc + BitVec.ofNat 56 (8 * ws.length) ∧ q.words = ws ∧ q.all = i :: is
    ∧ q.slots = is ∧ q.effects = [] ∧ q.faults = []

/-- A bundle that needs no descriptor is in progress, and its first word is to execute. -/
theorem State.openIssue_first (hr : s.mustPreread c k (i :: is) = false) : ∃ t : State,
    s.openIssue c k ws (i :: is) = (t, .first i) ∧ t.issue.Opens c k (s.ctxAt c k).pc ws i is ∧ s.SamePrograms t := by
  unfold State.openIssue
  rw [if_neg (ne_true_of_eq_false hr)]
  have same := State.SamePrograms.drainReads s c k (i :: is)
  exact ⟨_, rfl, ⟨rfl, rfl, rfl, rfl, rfl, rfl, rfl, rfl, rfl⟩, same.mem, same.cycle, same.teams⟩

/-- The turn of a core whose context may issue is its attempt. -/
theorem State.tryCore_first {t : State} (hk : s.pick c = some k) (he : (s.ctxAt c k).earliest ≤ s.cycle)
    (ha : (({ s with turn := c.val + 1 } : State).chosen c k).attempt c k = (t, .first i)) : s.tryCore c = (t, some i) := by
  have early : ¬ s.cycle < ((({ s with turn := c.val + 1 } : State).chosen c k).ctxAt c k).earliest := by
    rw [State.ctxAt_chosen]
    exact Nat.not_lt.mpr he
  unfold State.tryCore
  change (match s.pick c with | none => _ | some k => _) = _
  rw [hk]
  refine (if_neg early).trans ?_
  rw [ha]

/-- The state in which core c, at its turn, has chosen context k. -/
def State.turned (s : State) (c : Fin 208) (k : Fin 4) : State := ({ s with turn := c.val + 1 } : State).chosen c k

theorem State.ctxAt_turned : (s.turned c k).ctxAt c k = (s.ctxAt c k).unblocked := State.ctxAt_chosen ..

theorem State.coreAt_turned :
    (s.turned c k).coreAt c = { s.coreAt c with team := { (s.coreAt c).team.updCtx k Ctx.unblocked with cur := k } } :=
  State.coreAt_chosen ..

theorem State.SamePrograms.turned : s.SamePrograms (s.turned c k) :=
  have same := State.SamePrograms.chosen ({ s with turn := c.val + 1 }) c k
  ⟨same.mem, same.cycle, same.teams⟩

/-- The lines marked as used are those at the PC of the context as it stood. -/
theorem State.linesUsed_turned (n : Nat) : (s.turned c k).linesUsed c k n
    = if (s.ctxAt c k).heldWords.isSome then s.turned c k else (s.turned c k).touched c (s.ctxAt c k).pc.toNat n := by
  unfold State.linesUsed
  rw [State.ctxAt_turned]
  rfl

/-- A core whose context holds a bundle ready, with nothing to hold it, opens the bundle at its turn. -/
theorem State.tryCore_opens (hk : s.pick c = some k) (he : (s.ctxAt c k).earliest ≤ s.cycle) (hp : s.fetchParked c k = false)
    (hw : s.nextWords c k = .words ws) (hl : ∀ l, (s.ctxAt c k).activeLoop = some l → l.skip = false)
    (hpar : (s.ctxAt c k).heldWords.isSome = true ∨ badParity (s.coreAt c) (s.ctxAt c k).pc.toNat ws.length = false)
    (hbrk : (s.ctxAt c k).brkPass = true ∨ ∀ b ∈ (s.coreAt c).brks.toList, b ≠ some (s.ctxAt c k).pc)
    (hd : decodeBundle (s.decodeEnv c (s.ctxAt c k).activeLoop.isSome) ws = .ok (i :: is))
    (hr : ((s.turned c k).linesUsed c k ws.length).mustPreread c k (i :: is) = false)
    (hc : ((s.turned c k).linesUsed c k ws.length).bankConflict c k s.cycle (i :: is) = none)
    (hb : ((s.turned c k).linesUsed c k ws.length).blocks c k (i :: is) = false)
    (hg : ∀ j ∈ i :: is, isGangWord (s.ctxAt c k) j = false) :
    ∃ t : State, s.tryCore c = (t, some i) ∧ t.issue.Opens c k (s.ctxAt c k).pc ws i is ∧ s.SamePrograms t := by
  have used : s.SamePrograms ((s.turned c k).linesUsed c k ws.length) := State.SamePrograms.turned.trans (.linesUsed ..)
  have ctx : ((s.turned c k).linesUsed c k ws.length).ctxAt c k = (s.ctxAt c k).unblocked := by
    rw [State.ctxAt_linesUsed, State.ctxAt_turned]
  obtain ⟨t, first, opens, same⟩ := State.openIssue_first (ws := ws) hr
  rw [ctx] at opens
  have decoded : (s.turned c k).attempt c k = ((s.turned c k).linesUsed c k ws.length).attemptDecoded c k ws (i :: is) := by
    refine State.attempt_decodes hp ((State.nextWords_chosen ..).trans hw) ?_ ?_ ?_ ?_
    · rwa [State.ctxAt_turned]
    · rwa [State.ctxAt_turned, State.coreAt_turned]
    · exact (State.atBreak_chosen ..).trans (State.atBreak_eq_false s c k hbrk)
    · rw [State.ctxAt_turned]
      exact (congrArg (fun env => decodeBundle env ws) (State.decodeEnv_chosen ..)).trans hd
  have passes : ((s.turned c k).linesUsed c k ws.length).attemptDecoded c k ws (i :: is)
      = ((s.turned c k).linesUsed c k ws.length).openIssue c k ws (i :: is) := by
    refine State.attemptDecoded_opens hr ?_ hb ?_
    · rwa [used.cycle]
    · rwa [ctx]
  exact ⟨t, State.tryCore_first hk he (decoded.trans (passes.trans first)), opens, used.trans same⟩

/-! ## The order of work -/

theorem State.turnOf_event {e : Event} {es : List Event} (h : s.agenda = e :: es) : s.turnOf = .run e.instr (s.takeEvent e es) := by
  unfold State.turnOf
  rw [h]

theorem State.turnOf_word (ha : s.agenda = []) (h : s.issue.slots = i :: is) :
    s.turnOf = .run i { s with issue := { s.issue with slots := is } } := by
  unfold State.turnOf
  rw [ha, h]

/-- With no event and no bundle in progress, the first core that may issue takes its turn. -/
theorem State.turnOf_core {t : State} (ha : s.agenda = []) (hs : s.issue.slots = []) (hp : s.powered = true)
    (hg : (if s.turn = 0 then s.gangMatch else s).agenda = []) (hn : (if s.turn = 0 then s.gangMatch else s).nextCore = some c)
    (ht : (if s.turn = 0 then s.gangMatch else s).tryCore c = (t, some i)) : s.turnOf = .run i t := by
  unfold State.turnOf
  rw [ha, hs]
  simp [hp, hg, hn, ht]

theorem step_of_run {t : State} (h : s.turnOf = .run i t) : step s = exec i t := by
  unfold step
  rw [h]

end

/-- Settles O47: an event and a word of the bundle in progress are first in the order of work; else the core whose turn it is opens its
bundle (`State.tryCore_opens`). -/
theorem stepRunsInstruction : Obligations.StepRunsInstruction := by
  intro s
  refine ⟨fun e es ha => step_of_run (State.turnOf_event ha), fun i is ha hs => step_of_run (State.turnOf_word ha hs), ?_⟩
  intro c k ws i is g x u v ha hs hp hga hn hk he hf hw hl hpar hbrk hd hr hc hb hg
  have lines : (g.turned c k).linesUsed c k ws.length = v := State.linesUsed_turned ws.length
  rw [← lines] at hr hc hb
  obtain ⟨t, tried, ⟨core, ctx, baddr, next, words, all, slots, effects, faults⟩, same⟩ :=
    State.tryCore_opens hk he hf hw hl hpar hbrk hd hr hc hb hg
  exact ⟨t, step_of_run (State.turnOf_core ha hs hp hga hn tried), core, ctx, baddr, next, words, all, slots, effects, faults,
    same.mem, same.cycle, fun d => ⟨(same.teams d).spad, (same.teams d).pend, (same.teams d).ctxs⟩⟩

end Sys2Proof.Machine

/-! Results of the scalar, address, predicate and scalar float instructions (R95 to R101): the statements of O1 to O4. -/

namespace Sys2Proof.Machine

/-! ## One result in flight -/

section
variable {s : State} {i : Instr} {h : Head} {lat : Nat}

/-- A lone word whose one effect is an act that installs no map. -/
theorem State.gives_act {r : SlotRes} {a : Act} (hx : exec i s = .next (s.slot i h r)) (hr : s.unhindered i h r) (hf : r.faults = [])
    (he : r.effects = [.act lat a]) (hl : lat ≠ 0) (ha : a.mapless = true) : s.gives i (s.issued h.unit [(lat, a)]) :=
  State.gives_acts hx hr hf [(lat, a)] he (by simpa using ⟨hl, ha⟩)

theorem gives_scalarRes {d : Reg6} {x v : Word} (hx : exec i s = .next (s.slot i h (scalarRes lat d x))) (hl : lat ≠ 0) (hv : x = v)
    (hr : s.unhindered i h {}) : s.gives i (s.issued h.unit [(lat, .setS d v)]) :=
  hv ▸ State.gives_act hx hr rfl rfl hl rfl

theorem gives_areaRes {d : Reg6} {x : Word} (hx : exec i s = .next (s.slot i h (areaRes d x))) (hr : s.unhindered i h {}) :
    s.gives i (s.issued h.unit [(1, .setA (d.extractLsb' 0 4) x)]) :=
  State.gives_act hx hr rfl rfl (by decide) rfl

theorem gives_predRes {d : Reg6} {x v : PredBits} (hx : exec i s = .next (s.slot i h (predRes 1 d x))) (hv : x = v)
    (hr : s.unhindered i h {}) : s.gives i (s.issued h.unit [(1, .setP (d.extractLsb' 0 4) v (BitVec.allOnes 512))]) :=
  hv ▸ State.gives_act hx hr rfl rfl (by decide) rfl

end

/-! ## Scalar integer and immediate instructions -/

theorem ofNat_toNat_bool (b : Bool) : BitVec.ofNat 64 b.toNat = if b = true then 1 else 0 := by cases b <;> rfl

/-- The immediate of a format I word as a 64-bit word (R97). -/
theorem ofInt_immInt (w : IWord) : BitVec.ofInt 64 w.immInt =
    match w.hd.imm with | some m => m.value.signExtend 64 | none => w.imm19.signExtend 64 := by
  unfold IWord.immInt
  cases w.hd.imm <;> rfl

/-- `MOVL` joins the low byte of sA and VALUE (R97). -/
theorem movl_value (x : Word) (v : BitVec 56) : BitVec.ofNat 64 (x.toNat % 256 * 2 ^ 56 + v.toNat) = x.extractLsb' 0 8 ++ v := by
  apply BitVec.eq_of_toNat_eq
  have hv := v.isLt
  rw [BitVec.toNat_append, BitVec.toNat_ofNat, BitVec.extractLsb'_toNat, Nat.shiftRight_zero, ← Nat.shiftLeft_add_eq_or_of_lt hv,
    Nat.shiftLeft_eq]
  omega

/-- Settles O1: every instruction puts one scalar result in flight; `CMP`, `MIN`, `MAX` and the immediates in the words of the rules. -/
theorem scalarIntegerAndImmediateResults : Obligations.ScalarIntegerAndImmediateResults := by
  refine ⟨fun s w => ?_, fun s => ⟨fun w => ?_, fun w => ?_, fun w m hm => ?_⟩⟩
  · have one {i : Instr} {x : Word} (hx : exec i s = .next (s.slot i w.hd (scalarRes 1 w.dst x))) :=
      gives_scalarRes hx (by decide) rfl
    have three {i : Instr} {x : Word} (hx : exec i s = .next (s.slot i w.hd (scalarRes 3 w.dst x))) :=
      gives_scalarRes hx (by decide) rfl
    have twenty {i : Instr} {x : Word} (hx : exec i s = .next (s.slot i w.hd (scalarRes 20 w.dst x))) :=
      gives_scalarRes hx (by decide) rfl
    refine ⟨one rfl, one rfl, three rfl, gives_scalarRes rfl (by decide) ?_, twenty rfl, twenty rfl, one rfl, one rfl, one rfl, one rfl,
      one rfl, one rfl, one rfl, one rfl, one rfl, one rfl, one rfl, gives_scalarRes rfl (by decide) ?_, gives_scalarRes rfl (by decide) ?_,
      one rfl, gives_scalarRes rfl (by decide) (ofNat_toNat_bool _), one rfl⟩
    · norm_num
    · rw [min_def]; rfl
    · rw [max_def]; rfl
  · exact gives_scalarRes rfl (by decide) (congrArg _ (ofInt_immInt w))
  · exact gives_scalarRes rfl (by decide) (ofInt_immInt w)
  · have hv : immVal w.hd = m.value.toNat := by unfold immVal; rw [hm]
    exact gives_scalarRes rfl (by decide) ((congrArg (fun n => BitVec.ofNat 64 (_ + n)) hv).trans (movl_value _ _))

/-! ## Address and predicate instructions -/

section
variable {a mask : Word} {x lo len : Nat} (hm : ∀ i < 64, mask.getLsbD i = !(decide (lo ≤ i) && decide (i < lo + len)))
include hm

/-- A field of `len` bits at `lo` replaced by a number below 2^len, bit by bit. -/
theorem getLsbD_putField (hx : x < 2 ^ len) (i : Nat) (hi : i < 64) : ((a &&& mask) ||| BitVec.ofNat 64 (x * 2 ^ lo)).getLsbD i =
    if lo ≤ i ∧ i < lo + len then x.testBit (i - lo) else a.getLsbD i := by
  rw [BitVec.getLsbD_or, BitVec.getLsbD_and, hm i hi, BitVec.getLsbD_ofNat, Nat.testBit_mul_two_pow]
  by_cases h : lo ≤ i
  · by_cases h' : i < lo + len
    · simp [h, h', hi]
    · have hb : x.testBit (i - lo) = false :=
        Nat.testBit_lt_two_pow (Nat.lt_of_lt_of_le hx (Nat.pow_le_pow_right (by decide) (by omega)))
      simp [h, h', hi, hb]
  · simp [h]

theorem extract_putField_self (hx : x < 2 ^ len) (hl : lo + len ≤ 64) :
    ((a &&& mask) ||| BitVec.ofNat 64 (x * 2 ^ lo)).extractLsb' lo len = BitVec.ofNat len x := by
  apply BitVec.eq_of_getLsbD_eq
  intro i hi
  rw [BitVec.getLsbD_extractLsb', getLsbD_putField hm hx _ (by omega), if_pos ⟨by omega, by omega⟩, BitVec.getLsbD_ofNat, Nat.add_sub_cancel_left]

theorem extract_putField_other (hx : x < 2 ^ len) {k n : Nat} (hk : k + n ≤ lo ∨ lo + len ≤ k) (hl : k + n ≤ 64) :
    ((a &&& mask) ||| BitVec.ofNat 64 (x * 2 ^ lo)).extractLsb' k n = a.extractLsb' k n := by
  apply BitVec.eq_of_getLsbD_eq
  intro i hi
  rw [BitVec.getLsbD_extractLsb', BitVec.getLsbD_extractLsb', getLsbD_putField hm hx _ (by omega), if_neg (by omega)]

end

theorem ofNat_toNat_emod (n : Nat) (x : Int) : BitVec.ofNat n (x % (2 ^ n : Nat)).toNat = BitVec.ofInt n x :=
  (BitVec.ofNatLT_eq_ofNat _).symm

theorem toNat_emod_lt (n : Nat) (x : Int) : (x % (2 ^ n : Nat)).toNat < 2 ^ n := by
  have hp : (0 : Int) < (2 ^ n : Nat) := by exact_mod_cast Nat.two_pow_pos n
  exact (Int.toNat_lt (Int.emod_nonneg _ hp.ne')).mpr (Int.emod_lt_of_pos x hp)

/-- `AADD` replaces OFF. -/
theorem areaSetOff_fields (a : Word) (n : Nat) :
    areaOff (areaSetOff a n) = n % 2 ^ 24 ∧ (areaSetOff a n).extractLsb' 24 40 = a.extractLsb' 24 40 := by
  have hm : ∀ i < 64, (0xFFFFFFFFFF000000 : Word).getLsbD i = !(decide (0 ≤ i) && decide (i < 0 + 24)) := by decide
  have hx : n % 2 ^ 24 < 2 ^ 24 := Nat.mod_lt _ (by decide)
  have e : areaSetOff a n = (a &&& 0xFFFFFFFFFF000000) ||| BitVec.ofNat 64 (n % 2 ^ 24 * 2 ^ 0) := by
    rw [pow_zero, Nat.mul_one]; rfl
  rw [areaOff, e, extract_putField_self hm hx (by decide), extract_putField_other hm hx (.inr (by decide)) (by decide),
    BitVec.toNat_ofNat, Nat.mod_mod]
  exact ⟨rfl, rfl⟩

/-- `AINC` replaces INC. -/
theorem ainc_fields (a : Word) (x : Int) (hlo : -8388608 ≤ x) (hhi : x ≤ 8388607) :
    let v := (a &&& 0xFFFF000000FFFFFF) ||| BitVec.ofNat 64 ((x % (2 ^ 24 : Nat)).toNat * 2 ^ 24)
    areaInc v = x ∧ areaOff v = areaOff a ∧ areaMod v = areaMod a := by
  have hm : ∀ i < 64, (0xFFFF000000FFFFFF : Word).getLsbD i = !(decide (24 ≤ i) && decide (i < 24 + 24)) := by decide
  have hx := toNat_emod_lt 24 x
  refine ⟨?_, congrArg BitVec.toNat (extract_putField_other hm hx (.inl (by decide)) (by decide)),
    congrArg BitVec.toNat (extract_putField_other hm hx (.inr (by decide)) (by decide))⟩
  rw [areaInc, extract_putField_self hm hx (by decide), ofNat_toNat_emod]
  exact BitVec.toInt_ofInt_eq_self (by decide) hlo (by norm_num; omega)

/-- `AMOD` replaces MOD. -/
theorem amod_fields (a : Word) (x : Int) (hlo : 0 ≤ x) (hhi : x ≤ 65535) :
    let v := (a &&& 0x0000FFFFFFFFFFFF) ||| BitVec.ofNat 64 ((x % (2 ^ 16 : Nat)).toNat * 2 ^ 48)
    (areaMod v : Int) = x ∧ areaOff v = areaOff a ∧ areaInc v = areaInc a := by
  have hm : ∀ i < 64, (0x0000FFFFFFFFFFFF : Word).getLsbD i = !(decide (48 ≤ i) && decide (i < 48 + 16)) := by decide
  have hx := toNat_emod_lt 16 x
  refine ⟨?_, congrArg BitVec.toNat (extract_putField_other hm hx (.inl (by decide)) (by decide)),
    congrArg BitVec.toInt (extract_putField_other hm hx (.inl (by decide)) (by decide))⟩
  rw [areaMod, extract_putField_self hm hx (by decide), BitVec.toNat_ofNat, Nat.mod_eq_of_lt hx,
    Int.toNat_of_nonneg (Int.emod_nonneg _ (by decide)), Int.emod_eq_of_lt hlo (by norm_num; omega)]

/-- Settles O2: an address instruction replaces one field; a predicate instruction writes all 512 bits. -/
theorem addressAndPredicateResults : Obligations.AddressAndPredicateResults := by
  refine ⟨fun s => ⟨fun w => ⟨fun hr => ⟨_, gives_areaRes rfl hr, areaSetOff_fields _ _⟩,
    fun hr hlo hhi => ⟨_, gives_areaRes rfl hr, ainc_fields _ _ hlo hhi⟩,
    fun hr hlo hhi => ⟨_, gives_areaRes rfl hr, amod_fields _ _ hlo hhi⟩⟩, fun w => gives_areaRes rfl⟩, fun s w => ?_⟩
  have all {i : Instr} {v : PredBits} (hx : exec i s = .next (s.slot i w.hd (predRes 1 w.dst v))) := gives_predRes hx rfl
  exact ⟨all rfl, all rfl, all rfl, all rfl, all rfl, all rfl⟩

/-! ## Division -/

/-- The width of a scalar type (R95): 8, 16, 32 or 64 bits. -/
theorem sWidth_bounds (t : BitVec 4) : 0 < sWidth t ∧ sWidth t ≤ 64 := by revert t; decide

theorem two_pow_sWidth (t : BitVec 4) : 2 ^ sWidth t = 2 * 2 ^ (sWidth t - 1) := by
  rw [← pow_succ', Nat.sub_add_cancel (sWidth_bounds t).1]

/-- A pattern read as a number of w bits (R95): from the top bit on, a signed one is negative. -/
theorem intOf_of_lt {n p : Nat} (hp : p < 2 ^ (n + 1)) (sg : Bool) :
    intOf (n + 1) sg p = if sg = true ∧ 2 ^ n ≤ p then (p : Int) - 2 ^ (n + 1) else p := by
  have hb : p.testBit n = true ↔ 2 ^ n ≤ p :=
    ⟨Nat.ge_two_pow_of_testBit, fun h => Nat.testBit_of_two_pow_le_and_two_pow_add_one_gt h hp⟩
  unfold intOf
  simp only [Bool.and_eq_true, Nat.add_sub_cancel, hb, Nat.cast_pow, Nat.cast_ofNat]

theorem intOf_sWidth (t : BitVec 4) {p : Nat} (hp : p < 2 ^ sWidth t) (sg : Bool) :
    intOf (sWidth t) sg p = if sg = true ∧ 2 ^ (sWidth t - 1) ≤ p then (p : Int) - 2 ^ sWidth t else p := by
  have h := Nat.sub_add_cancel (sWidth_bounds t).1
  rw [← h] at hp ⊢
  exact intOf_of_lt hp sg

theorem intOf_emod (n p : Nat) (sg : Bool) : intOf n sg p % (2 ^ n : Nat) = (p : Int) % (2 ^ n : Nat) := by
  unfold intOf
  split
  · exact Int.sub_emod_right ..
  · rfl

theorem sVal_emod (t : BitVec 4) (x : Word) : (sVal t x % (2 ^ sWidth t : Nat)).toNat = x.toNat % 2 ^ sWidth t := by
  rw [sVal, intOf_emod]
  norm_cast
  exact Nat.mod_mod ..

/-- The low bits of a result are the exact value modulo 2^w (R95). -/
theorem toNat_sExt_mod (t : BitVec 4) (x : Int) : (sExt t x).toNat % 2 ^ sWidth t = (x % (2 ^ sWidth t : Nat)).toNat := by
  have hlt := toNat_emod_lt (sWidth t) x
  have hd : ((2 ^ sWidth t : Nat) : Int) ∣ ((2 ^ 64 : Nat) : Int) := Int.natCast_dvd_natCast.mpr (pow_dvd_pow 2 (sWidth_bounds t).2)
  apply Int.natCast_inj.mp
  rw [Int.natCast_mod, sExt, BitVec.toNat_ofInt, Int.toNat_of_nonneg (Int.emod_nonneg _ (by decide)), Int.emod_emod_of_dvd _ hd,
    intOf_emod, Int.emod_eq_of_lt (Int.natCast_nonneg _) (by exact_mod_cast hlt)]

/-- A result read again under its type. -/
theorem sVal_sExt (t : BitVec 4) (x : Int) :
    sVal t (sExt t x) = intOf (sWidth t) (t == 0 || tySigned t) (x % (2 ^ sWidth t : Nat)).toNat := by
  rw [sVal, toNat_sExt_mod]

theorem sVal_sExt_sVal (t : BitVec 4) (x : Word) : sVal t (sExt t (sVal t x)) = sVal t x := by
  rw [sVal_sExt, sVal_emod]; rfl

theorem sVal_nonneg_of_unsigned {t : BitVec 4} (h : (t == 0 || tySigned t) = false) (x : Word) : 0 ≤ sVal t x := by
  rw [sVal, h, intOf]
  exact Int.natCast_nonneg _

/-- A quotient by zero has all bits of the type set (R96). -/
theorem quotient_by_zero (t : BitVec 4) : (sExt t (-1)).toNat % 2 ^ sWidth t = 2 ^ sWidth t - 1
    ∧ sVal t (sExt t (-1)) = if t = 0 ∨ tySigned t = true then -1 else 2 ^ sWidth t - 1 := by
  have hp := Nat.two_pow_pos (sWidth t - 1)
  have hN := two_pow_sWidth t
  have hm : ((-1 : Int) % (2 ^ sWidth t : Nat)).toNat = 2 ^ sWidth t - 1 := by
    rw [Int.neg_emod_eq_sub_emod, Int.emod_eq_of_lt] <;> omega
  have hz : ((2 ^ sWidth t - 1 : Nat) : Int) = 2 ^ sWidth t - 1 := by push_cast [Nat.one_le_two_pow]; rfl
  refine ⟨(toNat_sExt_mod t _).trans hm, ?_⟩
  rw [sVal_sExt, hm, intOf_sWidth t (by omega), hz]
  simp only [Bool.or_eq_true, beq_iff_eq, show 2 ^ (sWidth t - 1) ≤ 2 ^ sWidth t - 1 by omega, and_true]
  split <;> ring

/-- The type minimum divided by -1 is the minimum again (R96): 2^(w-1) has that pattern. -/
theorem minimum_by_minus_one {t : BitVec 4} (h : (t == 0 || tySigned t) = true) :
    sVal t (sExt t (2 ^ (sWidth t - 1))) = -2 ^ (sWidth t - 1) := by
  have hp := Nat.two_pow_pos (sWidth t - 1)
  have hN := two_pow_sWidth t
  have hm : ((2 ^ (sWidth t - 1) : Int) % (2 ^ sWidth t : Nat)).toNat = 2 ^ (sWidth t - 1) := by
    norm_cast
    exact Nat.mod_eq_of_lt (by omega)
  have hz : (2 ^ sWidth t : Int) = 2 * 2 ^ (sWidth t - 1) := by exact_mod_cast hN
  rw [sVal_sExt, hm, intOf_sWidth t (by omega), if_pos ⟨h, le_refl _⟩, hz]
  push_cast
  ring

theorem sExt_zero (t : BitVec 4) : sExt t 0 = 0 := by
  simp [sExt, intOf]

/-- Settles O3: the corners of `divOf` and `remOf`, read back under the type. -/
theorem divisionCorners : Obligations.DivisionCorners := by
  intro s w _
  dsimp only
  have results : (s.unhindered (.div w) w.hd {} →
        s.gives (.div w) (s.issued w.hd.unit [(20, .setS w.dst (sExt w.ty (divOf (opA s.ictx w) (opB s.ictx w))))]))
      ∧ (s.unhindered (.rem w) w.hd {} →
        s.gives (.rem w) (s.issued w.hd.unit [(20, .setS w.dst (sExt w.ty (remOf (opA s.ictx w) (opB s.ictx w))))])) :=
    ⟨gives_scalarRes rfl (by decide) rfl, gives_scalarRes rfl (by decide) rfl⟩
  refine ⟨fun hy => ⟨_, _, results, ?_⟩, fun hx hy => ⟨_, _, results, ?_, ?_⟩⟩
  · have hb : opB s.ictx w = 0 := hy
    rw [divOf, remOf, if_pos hb, if_pos hb, opA, sVal_sExt_sVal]
    exact ⟨(quotient_by_zero w.ty).1, (quotient_by_zero w.ty).2, rfl⟩
  · have hs : (w.ty == 0 || tySigned w.ty) = true := by
      by_contra h
      have := sVal_nonneg_of_unsigned (Bool.eq_false_of_not_eq_true h) (s.ictx.sReg w.b)
      omega
    rw [divOf, opA, opB, hx, hy, if_neg (by decide), Int.tdiv_neg, Int.tdiv_one, neg_neg, minimum_by_minus_one hs]
  · rw [remOf, opA, opB, hx, hy, if_neg (by decide), Int.tmod_neg, Int.tmod_one, sExt_zero]

/-! ## Scalar float instructions -/

/-- A result of latency 4 and the exceptions that it raises (R99, R123). -/
theorem gives_floatAct {s : State} {i : Instr} {h : Head} {a : Act} {e : Exc}
    (hx : exec i s = .next (s.slot i h { effects := .act 4 a :: s.excFx h.unit [e] })) (ha : a.mapless = true)
    (hr : s.unhindered i h {}) : s.gives i ((s.issued h.unit [(4, a)]).raises h.unit [e]) := by
  have hi : s.installs h.unit [(4, a)] = s.issued h.unit [(4, a)] := State.installs_mapless _ _ _ (by simpa using ha)
  exact hi ▸ State.gives_raises hx hr rfl [(4, a)] [e] rfl (by simp)

theorem predAll_eq (b : Bool) : predAll b = if b = true then BitVec.allOnes 512 else 0 := rfl

/-- Settles O4: every instruction puts its rounded or chosen result in flight and records its exceptions. -/
theorem scalarFloatResults : Obligations.ScalarFloatResults := by
  intro s w
  dsimp only
  have rounds {i : Instr} {v : FVal × Exc} (hx : exec i s = .next (s.slot i w.hd (s.floatRes w v))) := gives_floatAct hx rfl
  have picks {i : Instr} {v : FVal × Exc} (hx : exec i s = .next (s.slot i w.hd (s.floatPick w v))) := gives_floatAct hx rfl
  refine ⟨rounds rfl, rounds rfl, rounds rfl, rounds rfl, picks rfl, picks rfl, ?_, ?_, gives_floatAct rfl rfl⟩
  · rw [← ofNat_toNat_bool]
    exact gives_floatAct rfl rfl
  · rw [← predAll_eq]
    exact gives_floatAct rfl rfl

end Sys2Proof.Machine

/-! Branches, loops, waits, trap returns, barriers and the control core's words (R77 to R91, R103 to R106): the statements of O21,
O22, O23 and O25. -/

namespace Sys2Proof.Machine

/-! ## A lone word with effects -/

/-- The record of the bundle in progress with the effects of its one word. -/
def State.marked (s t : State) (es : List (UnitCode × Effect)) : State := t.withIssue { s.issue with effects := es }

/-- A lone word that puts acts in flight and then does one more thing. -/
theorem State.gives_effect {s : State} {i : Instr} {h : Head} {e : Effect} {t : State} (acts : List (Nat × Act))
    (hx : exec i s = .next (s.slot i h { effects := acts.map (fun a => .act a.1 a.2) ++ [e] }))
    (hl : ∀ a ∈ acts, a.1 ≠ 0 ∧ a.2.mapless = true) (hp : e.isPlain = true)
    (ht : ∀ w es, (s.marked (s.issued h.unit acts) es).effect w h.unit e = s.marked t es) (hr : s.unhindered i h {}) : s.gives i t := by
  refine ⟨{ s.issue with effects := (acts.map (fun a => Effect.act a.1 a.2) ++ [e]).map (fun e => (h.unit, e)) }, hr.1.1, ?_⟩
  have slot := State.slot_installs (r := { effects := acts.map (fun a => .act a.1 a.2) ++ [e] }) hr rfl acts [e] rfl (fun a ha => (hl a ha).1)
    (by simpa using hp)
  rw [State.installs_mapless _ _ _ (fun a ha => (hl a ha).2)] at slot
  rw [hx, slot]
  exact congrArg Host.Outcome.next (ht _ _)

/-- A lone word that does one thing as it issues. -/
theorem State.gives_one_effect {s : State} {i : Instr} {h : Head} {e : Effect} {t : State}
    (hx : exec i s = .next (s.slot i h { effects := [e] })) (hp : e.isPlain = true)
    (ht : ∀ w es, (s.marked (s.issued h.unit []) es).effect w h.unit e = s.marked t es) (hr : s.unhindered i h {}) : s.gives i t :=
  State.gives_effect [] hx (by simp) hp ht hr

/-- A lone word without effects. -/
theorem State.gives_nothing {s : State} {i : Instr} {h : Head} (hx : exec i s = .next (s.slot i h {})) (hr : s.unhindered i h {}) :
    s.gives i (s.issued h.unit []) := State.gives_acts hx hr rfl [] rfl (by simp)

/-! ## Branches, calls and jumps -/

/-- Where a taken branch of an issuing word leads (R39, R74, R77). -/
def State.goesTo (s : State) (u : UnitCode) (acts : List (Nat × Act)) (t : BitVec 56) : State :=
  (s.issued u acts).updSelf (fun x => { x with pc := t, earliest := s.cycle + 2 + s.issue.stall })

theorem State.effect_branch (s : State) (u : UnitCode) (acts : List (Nat × Act)) (t : BitVec 56) (w : List (UnitCode × Nat))
    (es : List (UnitCode × Effect)) : (s.marked (s.issued u acts) es).effect w u (.branch t) = s.marked (s.goesTo u acts t) es := rfl

theorem branchRes_not_taken (s : State) (disp : BitVec 27) (extra : List Effect) : s.branchRes false disp extra = {} := rfl

theorem branchRes_within (s : State) (disp : BitVec 27) (extra : List Effect) (lo : 0 ≤ branchTarget s.issue.baddr disp)
    (hi : branchTarget s.issue.baddr disp < 2 ^ 56) :
    s.branchRes true disp extra = { effects := extra ++ [.branch (BitVec.ofInt 56 (branchTarget s.issue.baddr disp))] } := by
  have h : ¬ (decide (branchTarget s.issue.baddr disp < 0) || decide (((2 ^ 56 : Nat) : Int) ≤ branchTarget s.issue.baddr disp)) = true := by
    simp only [Bool.or_eq_true, decide_eq_true_eq]
    push_cast
    omega
  unfold State.branchRes
  simp only [Bool.not_true, Bool.false_eq_true, if_false, if_neg h]

theorem branchRes_wraps (s : State) (disp : BitVec 27) (extra : List Effect)
    (h : branchTarget s.issue.baddr disp < 0 ∨ 2 ^ 56 ≤ branchTarget s.issue.baddr disp) :
    s.branchRes true disp extra = { faults := [(.brWrap, s.issue.baddr.zeroExtend 64)] } := by
  have h : (decide (branchTarget s.issue.baddr disp < 0) || decide (((2 ^ 56 : Nat) : Int) ≤ branchTarget s.issue.baddr disp)) = true := by
    simp only [Bool.or_eq_true, decide_eq_true_eq]
    push_cast
    exact h
  unfold State.branchRes
  simp only [Bool.not_true, Bool.false_eq_true, if_false, if_pos h]

/-- A Y.T branch: taken, it goes on at the target; not taken, at the next bundle (R77). -/
theorem gives_branch {s : State} {i : Instr} {h : Head} {b : Bool} {disp : BitVec 27} (acts : List (Nat × Act)) {taken : Prop}
    (hx : exec i s = .next (s.slot i h (s.branchRes b disp (acts.map (fun a => .act a.1 a.2))))) (hb : b = true ↔ taken)
    (hl : ∀ a ∈ acts, a.1 ≠ 0 ∧ a.2.mapless = true) :
    (taken → 0 ≤ branchTarget s.issue.baddr disp → branchTarget s.issue.baddr disp < 2 ^ 56 → s.unhindered i h {} →
        s.gives i (s.goesTo h.unit acts (BitVec.ofInt 56 (branchTarget s.issue.baddr disp))))
      ∧ (¬ taken → s.unhindered i h {} → s.gives i (s.issued h.unit [])) := by
  refine ⟨fun ht lo hi => ?_, fun hn => ?_⟩
  · rw [hb.mpr ht, branchRes_within s disp _ lo hi] at hx
    exact State.gives_effect acts hx hl rfl (s.effect_branch h.unit acts _)
  · rw [Bool.eq_false_of_not_eq_true (fun e => hn (hb.mp e)), branchRes_not_taken] at hx
    exact State.gives_nothing hx

/-- The conditions of `BRP` (R77): bit 0 of the predicate, any bit, every bit. -/
theorem brpTaken_bit (p : PredBits) : brpTaken 0 p = true ↔ p.getLsbD 0 = true := Iff.rfl

theorem brpTaken_any (p : PredBits) : brpTaken 1 p = true ↔ ∃ j < 512, p.getLsbD j = true := by
  have h : brpTaken 1 p = (p != 0) := rfl
  rw [h, bne_iff_ne, ne_eq, ← not_iff_not, not_not]
  refine ⟨fun e => ?_, fun e => BitVec.eq_of_getLsbD_eq fun j hj => ?_⟩
  · rintro ⟨j, _, hj⟩
    simp [e] at hj
  · simpa using fun hp => e ⟨j, hj, hp⟩

theorem brpTaken_all (p : PredBits) : brpTaken 2 p = true ↔ ∀ j < 512, p.getLsbD j = true := by
  have h : brpTaken 2 p = (p == BitVec.allOnes 512) := rfl
  rw [h, beq_iff_eq]
  refine ⟨fun e j hj => ?_, fun e => BitVec.eq_of_getLsbD_eq fun j hj => ?_⟩
  · rw [e, BitVec.getLsbD_allOnes, decide_eq_true hj]
  · rw [e j hj, BitVec.getLsbD_allOnes, decide_eq_true hj]

/-- The check of a jump's target (R78). -/
theorem jumpRes_checks (x : Word) :
    (x.extractLsb' 0 3 != 0 || x.extractLsb' 56 8 != 0) = true ↔ x.toNat % 8 ≠ 0 ∨ 2 ^ 56 ≤ x.toNat := by
  have h1 : x.extractLsb' 0 3 = 0 ↔ x.toNat % 8 = 0 := by
    rw [← BitVec.toNat_inj, BitVec.extractLsb'_toNat]; simp
  have h2 : x.extractLsb' 56 8 = 0 ↔ x.toNat < 2 ^ 56 := by
    have := x.isLt
    rw [← BitVec.toNat_inj, BitVec.extractLsb'_toNat, Nat.shiftRight_eq_div_pow]
    change x.toNat / 2 ^ 56 % 2 ^ 8 = 0 ↔ _
    omega
  rw [Bool.or_eq_true, bne_iff_ne, bne_iff_ne, ne_eq, ne_eq, h1, h2]
  omega

theorem gives_jump {s : State} {i : Instr} {h : Head} {x : Word} (hx : exec i s = .next (s.slot i h (jumpRes x)))
    (h8 : x.toNat % 8 = 0) (h56 : x.toNat < 2 ^ 56) (hr : s.unhindered i h {}) :
    s.gives i (s.goesTo h.unit [] (x.extractLsb' 0 56)) := by
  have hc : ¬ (x.extractLsb' 0 3 != 0 || x.extractLsb' 56 8 != 0) = true := fun e => by
    have := (jumpRes_checks x).mp e
    omega
  rw [jumpRes, if_neg hc] at hx
  exact State.gives_one_effect hx rfl (s.effect_branch h.unit [] _) hr

/-! ## Loops, repeats and waits -/

/-- Where the record of the bundle stands does not matter to the counters of a loop that ends. -/
theorem State.profRecord_withIssue (s : State) (q : Issue) (c : Fin 208) (k : Fin 4) (b : Bool) (p : Profile) :
    (s.withIssue q).profRecord c k b p = (s.profRecord c k b p).withIssue q := by
  have h : ((s.withIssue q).coreAt c).loopProf = (s.coreAt c).loopProf := rfl
  unfold State.profRecord
  rw [h]
  split <;> rfl

/-- `REP` of a bundle: nothing, or the count of an MX word whose guard is false (R81, R382). -/
theorem gives_rep (s : State) (w : YCWord) (hc : w.csrc = true → countOf s.ictx w ≤ 4096) (hr : s.unhindered (.rep w) w.hd {}) :
    s.gives (.rep w) (match s.issue.all.find? usesMx with
      | some i => if countOf s.ictx w ≠ 0 ∧ (i.head.map s.ictx.guardBit).getD true = false then
          (s.issued w.hd.unit []).profRecord s.issue.core s.issue.ctx true
            { Profile.reset with addr := s.issue.baddr, start := s.cycle, issues := countOf s.ictx w }
        else s.issued w.hd.unit []
      | none => s.issued w.hd.unit []) := by
  have hcount : ¬ (w.csrc && decide (4096 < countOf s.ictx w)) = true := by
    rw [Bool.and_eq_true, decide_eq_true_eq]
    exact fun h => absurd (hc h.1) (by omega)
  have hx : exec (.rep w) s = .next (s.slot (.rep w) w.hd { effects := s.repIdle w }) :=
    congrArg (fun r => Host.Outcome.next (s.slot (.rep w) w.hd r)) (if_neg hcount)
  unfold State.repIdle at hx
  cases hm : s.issue.all.find? usesMx with
  | none =>
    simp only [hm] at hx
    exact State.gives_nothing hx hr
  | some i =>
    simp only [hm] at hx ⊢
    by_cases hi : countOf s.ictx w ≠ 0 ∧ (i.head.map s.ictx.guardBit).getD true = false
    · rw [if_pos hi]
      rw [if_neg (by simp [hi])] at hx
      exact State.gives_one_effect hx rfl (fun _ _ => State.profRecord_withIssue ..) hr
    · rw [if_neg hi]
      have hz : (decide (countOf s.ictx w = 0) || (i.head.map s.ictx.guardBit).getD true) = true := by
        rw [Bool.or_eq_true, decide_eq_true_eq]
        by_contra hn
        rw [not_or] at hn
        exact hi ⟨hn.1, Bool.eq_false_of_not_eq_true hn.2⟩
      rw [if_pos hz] at hx
      exact State.gives_nothing hx hr

/-- A loop that starts (R79). -/
theorem gives_loop (s : State) (w : YCWord) (hc : countOf s.ictx w ≤ 2 ^ 24) (hr : s.unhindered (.loop w) w.hd {}) :
    s.gives (.loop w) ((s.issued w.hd.unit []).updSelf (fun x => { x with loop := some {
      base := s.issue.next, n := w.nm1.toNat + 1, left := countOf s.ictx w, pos := 0, first := true, skip := countOf s.ictx w == 0
      held := [], suspended := false, prof := { Profile.reset with addr := s.issue.baddr } } })) := by
  have hx : exec (.loop w) s = .next (s.slot (.loop w) w.hd { effects := [.loop (w.nm1.toNat + 1) (countOf s.ictx w)] }) :=
    congrArg (fun r => Host.Outcome.next (s.slot (.loop w) w.hd r)) (if_neg (Nat.not_lt.mpr hc))
  exact State.gives_one_effect hx rfl (fun _ _ => rfl) hr

/-- A barrier of a scope that the task has: the instruction does what it does (R84). -/
theorem barRes_inScope {s : State} {scope : BitVec 3} {b : Nat} (h : (s.barrier s.issue.core scope.toNat b).isSome = true) (r : SlotRes) :
    s.barRes scope b r = r := by
  obtain ⟨x, hx⟩ := Option.isSome_iff_exists.mp h
  unfold State.barRes
  rw [hx]

/-- Is a boundary stop asked for that the task's code accepts (R88)? -/
theorem gives_yield (s : State) (w : YSWord) :
    let wanted : Prop := s.icore.request = some .boundary ∧ ∃ t, s.taskAt s.issue.core = some t ∧ t.tcb.grade.getLsbD 0
    (wanted → s.unhindered (.yield w) w.hd {} → s.gives (.yield w)
      ((s.issued w.hd.unit []).updSelf (fun x => { x with stopped := some (s.ictx.sReg w.a, s.issue.next) })))
      ∧ (¬ wanted → s.unhindered (.yield w) w.hd {} → s.gives (.yield w) (s.issued w.hd.unit [])) := by
  intro wanted
  have hw : (s.icore.request == some .boundary
      && (match s.taskAt s.issue.core with | some t => t.tcb.grade.getLsbD 0 | none => false)) = true ↔ wanted := by
    rw [Bool.and_eq_true, beq_iff_eq]
    refine and_congr_right fun _ => ?_
    cases s.taskAt s.issue.core <;> simp
  refine ⟨fun h => ?_, fun h => ?_⟩
  · have hx : exec (.yield w) s = .next (s.slot (.yield w) w.hd { effects := [.yieldStop (s.ictx.sReg w.a)] }) :=
      congrArg (fun r => Host.Outcome.next (s.slot (.yield w) w.hd r)) (if_pos (hw.mpr h))
    exact State.gives_one_effect hx rfl (fun _ _ => rfl)
  · have hx : exec (.yield w) s = .next (s.slot (.yield w) w.hd {}) :=
      congrArg (fun r => Host.Outcome.next (s.slot (.yield w) w.hd r)) (if_neg (fun e => h (hw.mp e)))
    exact State.gives_nothing hx

/-- `WAIT.cyc` refreshes the watchdog of a control core alone (R354, R400). -/
theorem gives_waitCyc (s : State) (w : YSWord) :
    (isControl s.issue.core = false → s.unhindered (.waitCyc w) w.hd {} → s.gives (.waitCyc w) (s.issued w.hd.unit []))
      ∧ (isControl s.issue.core = true → s.unhindered (.waitCyc w) w.hd {} → s.gives (.waitCyc w)
        ((s.issued w.hd.unit []).updGroup (groupOf s.issue.core) (fun g => { g with watchdogAt := s.cycle }))) := by
  have hx : exec (.waitCyc w) s
      = .next (s.slot (.waitCyc w) w.hd (if isControl s.issue.core = true then { effects := [.refresh] } else {})) := rfl
  refine ⟨fun h => ?_, fun h => ?_⟩
  · rw [if_neg (by simp [h])] at hx
    exact State.gives_nothing hx
  · rw [if_pos h] at hx
    exact State.gives_one_effect hx rfl (fun _ _ => rfl)

/-- `FENCE.q` notes the older commands of its queues (R83). -/
theorem gives_fenceQ (s : State) (w : YSWord) (hr : s.unhindered (.fenceQ w) w.hd {}) :
    s.gives (.fenceQ w) ((s.issued w.hd.unit []).updSelf (fun x => { x with fences := x.fences ++ [(w.fn.extractLsb' 0 8,
      ((s.icore.team.cmds.filter (fun y => y.ctx == s.issue.ctx && y.q < 8 && (w.fn.extractLsb' 0 8).getLsbD y.q
        && y.issued < s.cycle)).map (·.id)))] })) := by
  have hc : ((s.issued w.hd.unit []).coreAt s.issue.core).team.cmds = s.icore.team.cmds := by
    unfold State.issued; rw [State.coreAt_updCore]; rfl
  refine State.gives_one_effect rfl rfl (fun ws es => ?_) hr
  rw [← hc]
  rfl

/-- Settles O21: branches through `gives_branch`, jumps through `gives_jump`; the others by what their one effect leaves. -/
theorem branchLoopAndWaitResults : Obligations.BranchLoopAndWaitResults := by
  refine ⟨fun s => ⟨fun w => ?_, fun w => ⟨gives_jump rfl, gives_jump rfl⟩⟩,
    fun s => ⟨fun w => ⟨gives_loop s w, gives_rep s w⟩, fun w => ?_⟩⟩
  · have brp {taken : Prop} (hp : brpTaken w.d (s.ictx.pReg w.p) = true ↔ taken) := gives_branch (s := s) (i := .brp w) [] rfl hp (by simp)
    refine ⟨gives_branch [] rfl (by simp) (by simp), gives_branch [(1, .setS 63 (s.issue.next.zeroExtend 64))] rfl (by simp)
      (by simp [Act.mapless]), gives_branch [] rfl Iff.rfl (by simp), fun hd => ?_, fun hd => ?_, fun hd => ?_⟩
    · exact brp (hd ▸ brpTaken_bit _)
    · exact brp (hd ▸ brpTaken_any _)
    · exact brp (hd ▸ brpTaken_all _)
  · obtain ⟨compute, control⟩ := gives_waitCyc s w
    refine ⟨State.gives_nothing rfl, State.gives_nothing rfl, State.gives_nothing rfl, compute, control,
      State.gives_one_effect rfl rfl (fun _ _ => rfl), gives_yield s w, fun h => ?_, gives_fenceQ s w⟩
    have hx : exec (.barWait w) s = .next (s.slot (.barWait w) w.hd {}) :=
      congrArg (fun r => Host.Outcome.next (s.slot (.barWait w) w.hd r)) (barRes_inScope h {})
    exact State.gives_nothing hx

/-! ## The return from a trap -/

/-- What a return does to a loop (R80): a suspended one resumes at a held body bundle or is abandoned. -/
theorem Ctx.trapReturn_loop (c : Ctx) : c.trapReturn.loop = c.loop.bind (fun l =>
    if l.suspended then (loopHolds l c.tpc).map (fun i => { l with suspended := false, pos := i }) else some l) := by
  unfold Ctx.trapReturn
  cases c.loop <;> rfl

/-- Settles O22: `TREN` sets TE; `TRET` is `Ctx.trapReturn`, and the context waits as after a branch. -/
theorem trapReturnResults : Obligations.TrapReturnResults := by
  refine fun s w => ⟨State.gives_one_effect rfl rfl (fun _ _ => rfl), State.gives_one_effect rfl rfl (fun ws es => ?_)⟩
  have hf : (fun x : Ctx => { x.trapReturn with earliest := s.cycle + 2 + s.issue.stall }) = fun x : Ctx => { x with
      pc := x.tpc, hnd := false, te := true, earliest := s.cycle + 2 + s.issue.stall
      loop := x.loop.bind (fun l =>
        if l.suspended then (loopHolds l x.tpc).map (fun i => { l with suspended := false, pos := i }) else some l) } := by
    funext x
    rw [← Ctx.trapReturn_loop]
    rfl
  exact congrArg (fun f => s.marked ((s.issued w.hd.unit []).updSelf f) es) hf

/-! ## Barriers -/

theorem State.updBarrier_withIssue (s : State) (q : Issue) (c : Fin 208) (n b : Nat) (f : Barrier → Barrier) :
    (s.withIssue q).updBarrier c n b f = (s.updBarrier c n b f).withIssue q := by
  have h : (s.withIssue q).taskAt c = s.taskAt c := rfl
  unfold State.updBarrier
  rw [h]
  split
  · rfl
  · cases s.taskAt c <;> rfl

theorem State.runArrive_withIssue (s : State) (q : Issue) (c : Fin 208) (p : Pend) (n b : Nat) (d : Reg6) :
    (s.withIssue q).runArrive c p n b d = (s.runArrive c p n b d).withIssue q := by
  have h : (s.withIssue q).barrier c n b = s.barrier c n b := rfl
  unfold State.runArrive
  rw [h, State.updBarrier_withIssue]
  cases s.barrier c n b with
  | none => rfl
  | some x => dsimp only; split <;> rfl

/-- An arrival that is counted in the issue cycle. -/
theorem gives_arrive_now {s : State} {i : Instr} {h : Head} {scope : BitVec 3} {b : Nat} {d : Reg6}
    (hx : exec i s = .next (s.slot i h { effects := [.act 0 (.arrive scope b d)] })) (hr : s.unhindered i h {}) :
    s.gives i ((s.issued h.unit []).runArrive s.issue.core (s.flight h.unit 0 (.arrive scope b d)) scope.toNat b d) := by
  refine ⟨{ s.issue with effects := [(h.unit, .act 0 (.arrive scope b d))] }, hr.1.1, ?_⟩
  rw [hx, State.slot_acts (r := { effects := [.act 0 (.arrive scope b d)] }) hr rfl [] _ rfl (by simp) rfl]
  exact congrArg Host.Outcome.next (State.runArrive_withIssue ..)

/-- The barrier of a team after an arrival (R85). -/
theorem runArrive_team (s : State) (c : Fin 208) (p : Pend) (b : Fin 16) (d : Reg6) :
    let t := s.runArrive c p 0 b.val d
    let x := (s.coreAt c).team.bars.get b
    (t.coreAt c).team.bars = setAt (s.coreAt c).team.bars b.val Barrier.arrive
      ∧ (t.coreAt c).team.pend = if d = 0 then (s.coreAt c).team.pend
        else insertPend (s.coreAt c).team.pend { p with due := s.cycle + 1, act := .setS d (x.gen.zeroExtend 64) } := by
  intro t x
  have hx : (s.coreAt c).team.bars.toList.getD b.val Barrier.reset = x :=
    (List.getD_eq_getElem _ _ (by simp)).trans (Vector.getElem_toList _)
  have ht : t = if d = 0 then s.updTeam c (fun t => { t with bars := setAt t.bars b.val Barrier.arrive })
      else (s.updTeam c (fun t => { t with bars := setAt t.bars b.val Barrier.arrive })).updTeam c
        (fun t => t.push { p with due := s.cycle + 1, act := .setS d (x.gen.zeroExtend 64) }) := by
    rw [← hx]
    rfl
  rw [ht]
  split
  · rw [State.coreAt_updTeam]; exact ⟨rfl, rfl⟩
  · rw [State.coreAt_updTeam, State.coreAt_updTeam]; exact ⟨rfl, rfl⟩

theorem Barrier.arrive_count (b : Barrier) : b.arrive.count = b.count := by unfold Barrier.arrive; split <;> rfl

/-- Settles O23: what the words put in flight or change, and the barrier after one arrival. -/
theorem barrierResults : Obligations.BarrierResults := by
  refine ⟨fun s w hb => ?_, fun s c p b d => ?_⟩
  · have inScope := barRes_inScope hb
    refine ⟨fun h0 hn => ?_, fun hr hl => ?_, fun hr hl => ?_⟩
    · have hx : exec (.barInit w) s = .next (s.slot (.barInit w) w.hd
          { effects := [.barInit w.scope (w.fn.toNat % 16) (s.ictx.sReg w.a).toNat] }) := by
        refine congrArg (fun r => Host.Outcome.next (s.slot (.barInit w) w.hd r)) ((inScope _).trans (if_neg ?_))
        rw [Bool.or_eq_true, decide_eq_true_eq, decide_eq_true_eq]
        exact fun e => e.elim h0 (Nat.not_lt.mpr hn)
      exact State.gives_one_effect hx rfl (fun _ _ => State.updBarrier_withIssue ..)
    · have hx : exec (.barArrive w) s = .next (s.slot (.barArrive w) w.hd
          { effects := [.act (if w.order = 2 then s.storesLeft else 0) (.arrive w.scope (w.fn.toNat % 16) w.d)] }) :=
        congrArg (fun r => Host.Outcome.next (s.slot (.barArrive w) w.hd r)) (inScope _)
      exact State.gives_act hx hr rfl rfl hl rfl
    · have hx : exec (.barArrive w) s = .next (s.slot (.barArrive w) w.hd { effects := [.act 0 (.arrive w.scope (w.fn.toNat % 16) w.d)] }) := by
        rw [← hl]
        exact congrArg (fun r => Host.Outcome.next (s.slot (.barArrive w) w.hd r)) (inScope _)
      exact gives_arrive_now hx hr
  · obtain ⟨bars, pend⟩ := runArrive_team s c p b d
    have own : ((s.runArrive c p 0 b.val d).coreAt c).team.bars.get b = ((s.coreAt c).team.bars.get b).arrive := by
      rw [bars]; exact get_setAt _ _ b.isLt _
    dsimp only
    rw [own, bars, pend]
    refine ⟨Barrier.arrive_count _, fun h => ?_, fun h => ?_, fun h => if_neg h, fun h => if_pos h,
      fun j hj => get_setAt_ne _ _ j _ (fun e => hj (Fin.ext e))⟩
    · rw [Barrier.arrive, if_pos h]; exact ⟨rfl, rfl⟩
    · rw [Barrier.arrive, if_neg h]; exact ⟨rfl, rfl⟩

/-! ## Words of the control cores -/

theorem physRes_of_lt {x : Word} (h : x.toNat < 25) (r : SlotRes) : physRes x r = r := if_pos (decide_eq_true h)

theorem State.kick_withIssue (s : State) (q : Issue) : (s.withIssue q).kick = s.kick.withIssue q := by
  unfold State.kick
  have h : (s.withIssue q).agenda = s.agenda ∧ (s.withIssue q).future = s.future ∧ (s.withIssue q).turn = s.turn := ⟨rfl, rfl, rfl⟩
  rw [h.1, h.2.1, h.2.2]
  split
  · rfl
  · split <;> rfl

theorem State.updGroup_withIssue (s : State) (q : Issue) (g : Fin 8) (f : Group → Group) :
    (s.withIssue q).updGroup g f = (s.updGroup g f).withIssue q := rfl

theorem State.setCmap_withIssue (s : State) (q : Issue) (g : Fin 8) (l : Nat) (x : Byte) :
    (s.withIssue q).setCmap g l x = (s.setCmap g l x).withIssue q := by
  have h : (s.withIssue q).groupAt g = s.groupAt g := rfl
  unfold State.setCmap
  dsimp only
  rw [h, State.updGroup_withIssue, State.kick_withIssue]
  split
  · split <;> rfl
  · rfl

theorem State.effect_scanAbort (s t : State) (w : List (UnitCode × Nat)) (u : UnitCode) (es : List (UnitCode × Effect)) (n : Nat) :
    let c := physCore (groupOf s.issue.core) n
    let scan := (t.coreAt c).scan
    (s.marked t es).effect w u (.scanAbort n) = s.marked (if scan.running ∧ ¬ scan.aborting then t.abortScan c none else t) es := by
  intro c scan
  have h : (scan.running && !scan.aborting) = true ↔ scan.running = true ∧ ¬ scan.aborting = true := by simp
  by_cases hs : scan.running = true ∧ ¬ scan.aborting = true
  · rw [if_pos hs]; exact if_pos (h.mpr hs)
  · rw [if_neg hs]; exact if_neg (fun e => hs (h.mp e))

theorem State.popStat_cons {s : State} {g : Fin 8} {x : Word} {r : List Word} (h : (s.groupAt g).statq = x :: r) :
    s.popStat g = (x, s.updGroup g (fun y => tellLost { y with statq := r } g.val s.cycle)) := by
  unfold State.popStat
  rw [h]

theorem State.popStat_nil {s : State} {g : Fin 8} (h : (s.groupAt g).statq = []) : s.popStat g = (0, s) := by
  unfold State.popStat
  rw [h]

/-- The word that `SQPOP` pops is in flight (R105). -/
theorem State.effect_sqpop {s t : State} {x : Word} (w : List (UnitCode × Nat)) (u : UnitCode) (d : Reg6)
    (h : s.popStat (groupOf s.issue.core) = (x, t)) :
    s.effect w u (.sqpop d) = t.updTeam s.issue.core (fun y => y.push (s.flight u 4 (.setS d x))) :=
  congrArg (fun p : Word × State => p.2.updTeam s.issue.core (fun y => y.push (s.flight u 4 (.setS d p.1)))) h

section
variable {s : State} {w : List (UnitCode × Nat)} {u : UnitCode} {es : List (UnitCode × Effect)} {d : Reg6}

/-- `SQPOP` of a queue with words: the first one, and the record of lost records once there is room (R105, R380). -/
theorem State.effect_sqpop_cons {x : Word} {r : List Word} (hq : (s.groupAt (groupOf s.issue.core)).statq = x :: r) :
    (s.marked (s.issued u []) es).effect w u (.sqpop d) = s.marked (((s.issued u []).updGroup (groupOf s.issue.core) (fun y =>
      tellLost { y with statq := r } (groupOf s.issue.core).val s.cycle)).updOwn (fun y => y.push (s.flight u 4 (.setS d x)))) es := by
  exact State.effect_sqpop w u d (State.popStat_cons (s := s.marked (s.issued u []) es) hq)

/-- `SQPOP` of an empty queue gives 0. -/
theorem State.effect_sqpop_nil (hq : (s.groupAt (groupOf s.issue.core)).statq = []) :
    (s.marked (s.issued u []) es).effect w u (.sqpop d) = s.marked (s.issued u [(4, .setS d 0)]) es := by
  rw [State.effect_sqpop w u d (State.popStat_nil (s := s.marked (s.issued u []) es) hq)]
  exact congrArg (fun t => s.marked t es) (s.issued_push u [] 4 (.setS d 0))

end

/-- Settles O25: each word through its one effect on the state after the issue. -/
theorem controlCoreResults : Obligations.ControlCoreResults := by
  intro s w
  dsimp only
  refine ⟨fun ha => ?_, fun ha hr => ?_, fun ha => ?_, fun hb => ?_, fun x r hq => ?_, fun hq => ?_⟩
  · have hx : exec (.scanAbort w) s = .next (s.slot (.scanAbort w) w.hd { effects := [.scanAbort (s.ictx.sReg w.a).toNat] }) :=
      congrArg (fun r => Host.Outcome.next (s.slot (.scanAbort w) w.hd r)) (physRes_of_lt ha _)
    exact State.gives_one_effect hx rfl (fun _ _ => State.effect_scanAbort ..)
  · have hx : exec (.scanRead w) s = .next (s.slot (.scanRead w) w.hd
        { effects := [.act 1 (.setS w.d (s.scanWord (physCore (groupOf s.issue.core) (s.ictx.sReg w.a).toNat)))] }) :=
      congrArg (fun r => Host.Outcome.next (s.slot (.scanRead w) w.hd r)) (physRes_of_lt ha _)
    exact State.gives_act hx hr rfl rfl (by decide) rfl
  · have hx : exec (.dbgResume w) s = .next (s.slot (.dbgResume w) w.hd { effects := [.dbgResume (s.ictx.sReg w.a).toNat] }) :=
      congrArg (fun r => Host.Outcome.next (s.slot (.dbgResume w) w.hd r)) (physRes_of_lt ha _)
    exact State.gives_one_effect hx rfl (fun _ _ => rfl)
  · have hx : exec (.cmapSet w) s = .next (s.slot (.cmapSet w) w.hd
        { effects := [.cmap (s.ictx.sReg w.a).toNat ((s.ictx.sReg w.b).extractLsb' 0 8)] }) :=
      congrArg (fun r => Host.Outcome.next (s.slot (.cmapSet w) w.hd r)) (if_neg (by rw [hb]; decide))
    exact State.gives_one_effect hx rfl (fun _ _ => State.setCmap_withIssue ..)
  · exact State.gives_one_effect rfl rfl (fun _ _ => State.effect_sqpop_cons hq)
  · exact State.gives_one_effect rfl rfl (fun _ _ => State.effect_sqpop_nil hq)

end Sys2Proof.Machine

/-! Traps: the entry of a handler, `TRAP`, and a lone word whose check fails (R90, R343, R344): the statement of O44. -/

namespace Sys2Proof.Machine

/-! ## Trap entry -/

/-- Traps are open on a context: the handler is entered (R90). -/
theorem State.takeTrap_open {s : State} {c : Fin 208} {k : Fin 4} (hte : (s.ctxAt c k).te = true) (hv : (s.ctxAt c k).tvec ≠ 0)
    (e : Cause) (pc : BitVec 56) (v : Word) (m : BitVec 11) :
    s.takeTrap c k e pc v m = s.updCtx c k (fun x => x.trap s.cycle e pc v m) := by
  have h : ((s.ctxAt c k).te && (s.ctxAt c k).tvec != 0) = true := by
    rw [Bool.and_eq_true, bne_iff_ne]; exact ⟨hte, hv⟩
  unfold State.takeTrap
  exact if_pos h

theorem Team.updCtx_updCtx (t : Team) (k : Fin 4) (f g : Ctx → Ctx) : (t.updCtx k f).updCtx k g = t.updCtx k (fun x => g (f x)) := by
  have h : (t.ctxs.set k (f (t.ctxs.get k))).set k (g ((t.ctxs.set k (f (t.ctxs.get k))).get k)) = t.ctxs.set k (g (f (t.ctxs.get k))) := by
    rw [get_set_self t.ctxs k.val k.isLt, Vector.set_set]
  exact congrArg (fun v => ({ t with ctxs := v } : Team)) h

theorem State.updCtx_updCtx (s : State) (c : Fin 208) (k : Fin 4) (f g : Ctx → Ctx) :
    (s.updCtx c k f).updCtx c k g = s.updCtx c k (fun x => g (f x)) := by
  unfold State.updCtx
  rw [State.updTeam_updTeam]
  exact congrArg (s.updTeam c) (funext fun t => t.updCtx_updCtx k f g)

/-- A change of a context that changes nothing there. -/
theorem State.updCtx_same {s : State} {c : Fin 208} {k : Fin 4} {f : Ctx → Ctx} (h : f (s.ctxAt c k) = s.ctxAt c k) : s.updCtx c k f = s := by
  have ht : (s.coreAt c).team.updCtx k f = (s.coreAt c).team := by
    have hv : (s.coreAt c).team.ctxs.set k (f ((s.coreAt c).team.ctxs.get k)) = (s.coreAt c).team.ctxs := by
      rw [show f ((s.coreAt c).team.ctxs.get k) = (s.coreAt c).team.ctxs.get k from h]
      exact Vector.set_getElem_self k.isLt
    exact congrArg (fun v => ({ (s.coreAt c).team with ctxs := v } : Team)) hv
  exact (State.updTeam_congr s c (f := fun t => t.updCtx k f) (g := fun t => t) ht).trans (s.updTeam_id c)

theorem State.updCtx_congr (s : State) (c : Fin 208) (k : Fin 4) {f g : Ctx → Ctx} (h : f (s.ctxAt c k) = g (s.ctxAt c k)) :
    s.updCtx c k f = s.updCtx c k g :=
  State.updTeam_congr s c (congrArg (fun x => ({ (s.coreAt c).team with ctxs := (s.coreAt c).team.ctxs.set k x } : Team)) h)

/-! ## A lone word that traps -/

/-- Outside a loop a trap holds no body bundle (R80). -/
theorem State.holdBody_outside {s : State} (hl : s.ictx.activeLoop = none) (a : BitVec 56) (ws : List Word) :
    s.holdBody s.issue.core s.issue.ctx a ws = s := by
  have hl' : (s.ctxAt s.issue.core s.issue.ctx).activeLoop = none := hl
  refine State.updCtx_same ?_
  generalize s.ctxAt s.issue.core s.issue.ctx = x at hl'
  have h : x.loop.map (fun l => if (!l.suspended && decide (l.held.length ≤ l.pos)) = true then { l with held := l.held ++ [(a, ws)] } else l)
      = x.loop := by
    unfold Ctx.activeLoop at hl'
    cases hx : x.loop with
    | none => rfl
    | some l =>
      have hs : l.suspended = true := by simpa [hx] using hl'
      simp [hs]
  exact congrArg (fun l => ({ x with loop := l } : Ctx)) h

/-- A word that acts and fails joins the faults of its bundle with the worst of its causes (R343). -/
theorem State.addSlot_fails {s : State} {i : Instr} {h : Head} {r : SlotRes} {e : Cause} {v : Word}
    (hg : scalarForm i = true → s.ictx.guardBit h = true)
    (hw : worst (r.faults ++ tokenFaults s.ictx i.refs
      ++ stallFaults s.cycle s.issue.seq s.issue.ctx s.ictx s.icore.team i.refs i.guardP r) = some (e, v)) :
    s.addSlot i h r = { s.issue with faults := s.issue.faults ++ [{ unit := h.unit, cause := e, tval := v }] } := by
  have hb : ¬ (scalarForm i && !s.ictx.guardBit h) = true := by
    rw [Bool.and_eq_true, Bool.not_eq_true']
    exact fun hn => Bool.noConfusion ((hg hn.1).symm.trans hn.2)
  have hw' : worst (r.faults ++ tokenFaults s.ictx i.refs
      ++ stallFaults s.cycle s.issue.seq s.issue.ctx s.ictx (s.coreAt s.issue.core).team i.refs i.guardP r) = some (e, v) := hw
  unfold State.addSlot
  simp only [if_neg hb, hw']

/-- The end of a bundle with one fault, outside a loop and with traps open (R90, R343, R344). -/
theorem State.close_trapped {s : State} {f : SlotFault} (hf : s.issue.faults = [f]) (hl : s.ictx.activeLoop = none) (ho : s.open_) :
    s.close = s.trapped f.unit f.cause f.tval := by
  obtain ⟨hte, hv⟩ := ho
  have hm : faultMask s.issue.faults = BitVec.ofNat 11 (2 ^ f.unit.code.toNat) := hf ▸ BitVec.zero_or
  unfold State.close
  rw [show lowestFault s.issue.faults = some f by rw [hf]; rfl]
  simp only [State.holdBody_outside hl]
  rw [State.takeTrap_open]
  · exact congrArg (fun m => State.updCtx _ _ _ (fun x => x.trap s.cycle f.cause s.issue.baddr f.tval m)) hm
  · rw [State.ctxAt_updCore _ _ _ _ rfl]; exact hte
  · rw [State.ctxAt_updCore _ _ _ _ rfl]; exact hv

/-- A lone word that fails: the worst of its causes is taken. -/
theorem State.gives_trapped {s : State} {i : Instr} {h : Head} {r : SlotRes} {e : Cause} {v : Word}
    (hx : exec i s = .next (s.slot i h r)) (hl : s.lone) (hg : scalarForm i = true → s.ictx.guardBit h = true) (ho : s.open_)
    (hw : worst (r.faults ++ tokenFaults s.ictx i.refs
      ++ stallFaults s.cycle s.issue.seq s.issue.ctx s.ictx s.icore.team i.refs i.guardP r) = some (e, v)) :
    s.gives i (s.trapped h.unit e v) := by
  obtain ⟨hslots, -, hfaults, hloop⟩ := hl
  have hclose := State.close_trapped (s := s.withIssue { s.issue with faults := [{ unit := h.unit, cause := e, tval := v }] }) rfl hloop ho
  refine ⟨{ s.issue with faults := [{ unit := h.unit, cause := e, tval := v }] }, hslots, ?_⟩
  rw [hx, State.slot_last _ _ _ _ hslots, State.addSlot_fails hg hw, hfaults]
  exact congrArg Host.Outcome.next hclose

/-- What a word reads, without its faults and effects: all that CHKEN looks at. -/
def SlotRes.readsOf (r : SlotRes) : SlotRes := { maps := r.maps, data := r.data, reads := r.reads }

/-- A lone word whose own check fails. -/
theorem State.traps_of {s : State} {i : Instr} {h : Head} {r chk : SlotRes} {e : Cause} {v : Word}
    (hx : exec i s = .next (s.slot i h r)) (hc : r.readsOf = chk.readsOf) (hw : worst r.faults = some (e, v)) :
    s.traps i h chk e v := by
  intro ⟨hl, hg, htok, hst⟩ ho
  have hst' : stallFaults s.cycle s.issue.seq s.issue.ctx s.ictx s.icore.team i.refs i.guardP r = [] :=
    (congrArg (stallFaults s.cycle s.issue.seq s.issue.ctx s.ictx s.icore.team i.refs i.guardP) hc).trans hst
  refine State.gives_trapped hx hl hg ho ?_
  rw [htok, hst', List.append_nil, List.append_nil, hw]

/-! ## `TRAP` -/

/-- The issuing context once its bundle has issued (R39, R74). -/
theorem State.ctxAt_issued (s : State) (u : UnitCode) (acts : List (Nat × Act)) :
    (s.issued u acts).ctxAt s.issue.core s.issue.ctx = { s.ictx with
      pc := s.issue.next, earliest := s.cycle + 1 + s.issue.stall, blockedSince := none, blockedOn := [], preread := none, brkPass := false } := by
  unfold State.ctxAt State.issued
  rw [State.coreAt_updCore]
  exact get_set_self _ _ s.issue.ctx.isLt _

/-- A bundle of `TRAP` alone commits, and the handler is entered after it (R90). -/
theorem State.close_swTrap {s : State} {u : UnitCode} {n : Word} (hf : s.issue.faults = []) (hl : s.ictx.activeLoop = none)
    (he : s.issue.effects = [(u, .swTrap n)]) :
    let t := (s.issued u []).takeTrap s.issue.core s.issue.ctx .swTrap s.issue.next n 1
    s.close = t.updCtx s.issue.core s.issue.ctx (fun x => { x with earliest := t.cycle + 2 + s.issue.stall }) := by
  intro t
  have ht : t = s.begun.takeTrap s.issue.core s.issue.ctx .swTrap s.issue.next n 1 := by rw [s.begun_eq u]
  rw [ht]
  unfold State.close
  rw [hf]
  simp only [lowestFault]
  unfold State.commit
  simp only [hl, he]
  rfl

/-- The same with traps open. -/
theorem State.close_swTrap_open {s : State} {u : UnitCode} {n : Word} (hf : s.issue.faults = []) (hl : s.ictx.activeLoop = none)
    (he : s.issue.effects = [(u, .swTrap n)]) (ho : s.open_) :
    s.close = (s.issued u []).updSelf (fun x => { x with
      tcause := 0x50, tpc := s.issue.next, tval := n, tmask := 1, te := false, hnd := true
      loop := suspendLoop x.loop, pc := x.tvec, earliest := s.cycle + 2 + s.issue.stall }) := by
  obtain ⟨hte, hv⟩ := ho
  have hctx := s.ctxAt_issued u []
  have hopen : (s.issued u []).takeTrap s.issue.core s.issue.ctx .swTrap s.issue.next n 1 = _ :=
    State.takeTrap_open (by rw [hctx]; exact hte) (by rw [hctx]; exact hv) ..
  refine (State.close_swTrap hf hl he).trans ?_
  rw [hopen, State.updCtx_updCtx]
  refine State.updCtx_congr _ _ _ ?_
  rw [hctx]
  rfl

/-- `TRAP` alone in its bundle (R90). -/
theorem gives_trap (s : State) (w : YSWord) (ho : s.open_) (hr : s.unhindered (.trap w) w.hd {}) :
    s.gives (.trap w) ((s.issued w.hd.unit []).updSelf (fun x => { x with
      tcause := 0x50, tpc := s.issue.next, tval := w.fn.zeroExtend 64, tmask := 1, te := false, hnd := true
      loop := suspendLoop x.loop, pc := x.tvec, earliest := s.cycle + 2 + s.issue.stall })) := by
  obtain ⟨hslots, -, hfaults, hloop⟩ := hr.1
  have hx : exec (.trap w) s = .next (s.slot (.trap w) w.hd { effects := [.swTrap (w.fn.zeroExtend 64)] }) := rfl
  have ha := State.addSlot_ok (r := { effects := [.swTrap (w.fn.zeroExtend 64)] }) hr rfl
  have hclose := State.close_swTrap_open (s := s.withIssue { s.issue with effects := [(w.hd.unit, .swTrap (w.fn.zeroExtend 64))] })
    hfaults hloop rfl ho
  refine ⟨{ s.issue with effects := [(w.hd.unit, .swTrap (w.fn.zeroExtend 64))] }, hslots, ?_⟩
  rw [hx, State.slot_last _ _ _ _ hslots, ha]
  exact congrArg Host.Outcome.next hclose

/-- Settles O44: `takeTrap` with traps open, and `TRAP` through the commit of its bundle. -/
theorem trapEntry : Obligations.TrapEntry := by
  refine ⟨fun s c k e pc v m => ?_, fun s w hte hv => gives_trap s w ⟨hte, hv⟩⟩
  intro y t z hte hv
  have ht : t = s.updCtx c k (fun x => x.trap s.cycle e pc v m) := State.takeTrap_open hte hv e pc v m
  have hz : z = y.trap s.cycle e pc v m := by
    change t.ctxAt c k = _
    rw [ht, State.ctxAt_updCtx]
  obtain ⟨-, cores, ctxs, -⟩ := s.updCtx_frame c k (fun x => x.trap s.cycle e pc v m)
  rw [hz]
  refine ⟨rfl, rfl, rfl, rfl, rfl, rfl, rfl, rfl, rfl, rfl, rfl, rfl, rfl, rfl, rfl, rfl, rfl, rfl, rfl, rfl, rfl, ?_, ?_, ?_⟩
  · rwa [ht]
  · rwa [ht]
  · rw [ht]; rfl

end Sys2Proof.Machine

/-! Where a word that issues alone traps (R13, R26, R75, R90, R162, R343, R344): the statement of O19. -/

namespace Sys2Proof.Machine

/-! ## The worst of several faults -/

/-- A fault that stands before every other one: by its code, and among SPAD_RANGE by its address (R162, R343). -/
def Leads (x y : Cause × Word) : Prop :=
  x.1.code.toNat < y.1.code.toNat ∨ x = y ∨ (x.1 = .spadRange ∧ y.1 = .spadRange ∧ x.2.toNat ≤ y.2.toNat)

theorem worst_mem {l : List (Cause × Word)} {x : Cause × Word} (h : worst l = some x) : x ∈ l := by
  induction l with
  | nil => simp [worst] at h
  | cons y r ih =>
    unfold worst at h
    cases hr : worst r with
    | none => simp only [hr, Option.some.injEq] at h; exact h ▸ List.mem_cons_self ..
    | some z =>
      simp only [hr] at h
      split at h
      · exact List.mem_cons_of_mem _ (ih (hr.trans h))
      · exact (Option.some.inj h) ▸ List.mem_cons_self ..

/-- Is the later of two faults worse? -/
def worse (y x : Cause × Word) : Bool :=
  y.1.code.toNat < x.1.code.toNat || (x.1 == .spadRange && y.1 == .spadRange && y.2.toNat < x.2.toNat)

theorem worst_cons (x : Cause × Word) (r : List (Cause × Word)) :
    worst (x :: r) = match worst r with | some y => if worse y x then some y else some x | none => some x := rfl

theorem not_worse_of_leads {x y : Cause × Word} (h : Leads x y) : worse y x = false := by
  unfold worse
  rcases h with h | rfl | ⟨hx, hy, h⟩
  · have ne : ¬ (x.1 = .spadRange ∧ y.1 = .spadRange) := by
      rintro ⟨hx, hy⟩
      rw [hx, hy] at h
      exact lt_irrefl _ h
    by_cases hx : x.1 = .spadRange
    · simp [hx, not_and.mp ne hx]; rw [hx] at h; omega
    · simp [hx]; omega
  · simp
  · simp [hx, hy]; omega

theorem worse_or_eq_of_leads {x y : Cause × Word} (h : Leads x y) : worse x y = true ∨ x = y := by
  rcases h with h | rfl | ⟨hx, hy, h⟩
  · left; simp [worse, h]
  · right; rfl
  · rcases Nat.lt_or_eq_of_le h with h | h
    · left; simp [worse, hx, hy, h]
    · right; exact Prod.ext (hx.trans hy.symm) (BitVec.eq_of_toNat_eq h)

/-- The fault that leads all others is the worst. -/
theorem worst_eq_of_leads {l : List (Cause × Word)} {x : Cause × Word} (hm : x ∈ l) (h : ∀ y ∈ l, Leads x y) : worst l = some x := by
  induction l with
  | nil => simp at hm
  | cons z r ih =>
    rw [worst_cons]
    by_cases hr : x ∈ r
    · rw [ih hr (fun y hy => h y (List.mem_cons_of_mem _ hy))]
      rcases worse_or_eq_of_leads (h z (List.mem_cons_self ..)) with hw | rfl
      · simp only [hw, if_true]
      · simp
    · obtain rfl : x = z := (List.mem_cons.mp hm).resolve_right hr
      cases hw : worst r with
      | none => rfl
      | some y => simp only [not_worse_of_leads (h y (List.mem_cons_of_mem _ (worst_mem hw))), Bool.false_eq_true, if_false]

/-- A fault that is worse than all before it. -/
theorem worst_append {l : List (Cause × Word)} {x : Cause × Word} (h : ∀ y ∈ l, x.1.code.toNat < y.1.code.toNat) :
    worst (l ++ [x]) = some x := by
  refine worst_eq_of_leads (by simp) (fun y hy => ?_)
  rcases List.mem_append.mp hy with hy | hy
  · exact .inl (h y hy)
  · exact .inr (.inl (List.mem_singleton.mp hy).symm)

/-- Of faults with one cause other than SPAD_RANGE the first is taken. -/
theorem worst_same {e : Cause} (he : e ≠ .spadRange) (l : List (Cause × Word)) (h : ∀ y ∈ l, y.1 = e) : worst l = l.head? := by
  induction l with
  | nil => rfl
  | cons x r ih =>
    have hx := h x (List.mem_cons_self ..)
    rw [worst_cons, ih (fun y hy => h y (List.mem_cons_of_mem _ hy))]
    cases r with
    | nil => rfl
    | cons y r =>
      have hy := h y (by simp)
      have hw : worse y x = false := by simp [worse, hx, hy, he]
      simp only [List.head?_cons, hw, Bool.false_eq_true, if_false]

/-! ## Faults of scratchpad accesses -/

theorem foldl_min_eq {a m : Nat} {l : List Nat} (hm : m ∈ a :: l) (h : ∀ y ∈ a :: l, m ≤ y) : l.foldl min a = m := by
  induction l generalizing a with
  | nil => exact (List.mem_singleton.mp hm).symm
  | cons b r ih =>
    have hb : m ∈ (min a b) :: r := by
      have ha := h a (by simp)
      have hb := h b (by simp)
      rcases List.mem_cons.mp hm with rfl | hm
      · simp [Nat.min_eq_left hb]
      · rcases List.mem_cons.mp hm with rfl | hm
        · simp [Nat.min_eq_right ha]
        · exact List.mem_cons_of_mem _ hm
    refine ih hb (fun y hy => ?_)
    rcases List.mem_cons.mp hy with rfl | hy
    · exact le_min (h a (by simp)) (h b (by simp))
    · exact h y (by simp [hy])

section
variable {size : Nat} {l : List (Nat × Nat)}

theorem rangeFaults_fits (h : ∀ x ∈ l, x.1 + x.2 ≤ size) : rangeFaults size l = [] := by
  have hf : l.filter (fun p => decide (size < p.1 + p.2)) = [] := by
    rw [List.filter_eq_nil_iff]
    intro x hx
    simpa using h x hx
  simp only [rangeFaults, hf, List.map_nil]

/-- SPAD_RANGE gives the lowest address that fails. -/
theorem rangeFaults_lowest {x : Nat × Nat} (hx : x ∈ l) (hf : size < x.1 + x.2) (hm : ∀ y ∈ l, size < y.1 + y.2 → x.1 ≤ y.1) :
    rangeFaults size l = [(.spadRange, BitVec.ofNat 64 x.1)] := by
  have mem : ∀ y, y ∈ (l.filter (fun p => decide (size < p.1 + p.2))).map (·.1) ↔ ∃ z ∈ l, size < z.1 + z.2 ∧ z.1 = y := by
    simp [List.mem_map, List.mem_filter, and_assoc]
  unfold rangeFaults
  cases h : (l.filter (fun p => decide (size < p.1 + p.2))).map (·.1) with
  | nil => exact absurd ((mem x.1).mpr ⟨x, hx, hf, rfl⟩) (by simp [h])
  | cons a r =>
    rw [h] at mem
    have := foldl_min_eq (a := a) (l := r) (m := x.1) ((mem _).mpr ⟨x, hx, hf, rfl⟩) (fun y hy => by
      obtain ⟨z, hz, hzf, rfl⟩ := (mem y).mp hy
      exact hm z hz hzf)
    simp only [this]

/-- Every SPAD_RANGE names the address of an access that fails. -/
theorem mem_rangeFaults {y : Cause × Word} (h : y ∈ rangeFaults size l) :
    ∃ x ∈ l, size < x.1 + x.2 ∧ y = (.spadRange, BitVec.ofNat 64 x.1) := by
  have mem : ∀ x, x ∈ l.filter (fun p => decide (size < p.1 + p.2)) ↔ x ∈ l ∧ size < x.1 + x.2 := by simp [List.mem_filter]
  cases hm : (l.filter (fun p => decide (size < p.1 + p.2))).argmin (·.1) with
  | none =>
    rw [List.argmin_eq_none] at hm
    simp [rangeFaults, hm] at h
  | some x =>
    obtain ⟨hx, hf⟩ := (mem x).mp (List.argmin_mem hm)
    rw [rangeFaults_lowest hx hf (fun y hy hyf => List.le_of_mem_argmin ((mem y).mpr ⟨hy, hyf⟩) hm)] at h
    exact ⟨x, hx, hf, List.mem_singleton.mp h⟩

end

/-- SPAD_RANGE stands before SPAD_ALIGN, with the lowest address of two lists of accesses. -/
theorem worst_range {size : Nat} {A : List (Cause × Word)} {l₁ l₂ : List (Nat × Nat)} {x : Nat × Nat} (hA : ∀ y ∈ A, y.1 = .spadAlign)
    (hb : l₂ ≠ [] → ∀ y ∈ l₁ ++ l₂, y.1 < 2 ^ 64) (hx : x ∈ l₁ ++ l₂) (hf : size < x.1 + x.2)
    (hm : ∀ y ∈ l₁ ++ l₂, size < y.1 + y.2 → x.1 ≤ y.1) :
    worst (A ++ rangeFaults size l₁ ++ rangeFaults size l₂) = some (.spadRange, BitVec.ofNat 64 x.1) := by
  refine worst_eq_of_leads ?_ (fun y hy => ?_)
  · rcases List.mem_append.mp hx with h | h
    · rw [rangeFaults_lowest h hf (fun y hy => hm y (List.mem_append_left _ hy))]; simp
    · rw [rangeFaults_lowest h hf (fun y hy => hm y (List.mem_append_right _ hy))]; simp
  · have bounded {z : Nat × Nat} (hz : z ∈ l₁ ++ l₂) (hzf : size < z.1 + z.2) (hn : l₂ ≠ []) :
        Leads (.spadRange, BitVec.ofNat 64 x.1) (.spadRange, BitVec.ofNat 64 z.1) := by
      have hle := hm z hz hzf
      have hz64 := hb hn z hz
      refine .inr (.inr ⟨rfl, rfl, ?_⟩)
      rw [BitVec.toNat_ofNat, BitVec.toNat_ofNat, Nat.mod_eq_of_lt hz64, Nat.mod_eq_of_lt (Nat.lt_of_le_of_lt hle hz64)]
      exact hle
    rcases List.mem_append.mp hy with hy | hy
    · rcases List.mem_append.mp hy with hy | hy
      · left; rw [hA y hy]; exact Nat.lt_succ_self 0x20
      · by_cases hn : l₂ = []
        · rw [hn, List.append_nil] at hx hm
          rw [rangeFaults_lowest hx hf hm] at hy
          exact .inr (.inl (List.mem_singleton.mp hy).symm)
        · obtain ⟨z, hz, hzf, rfl⟩ := mem_rangeFaults hy
          exact bounded (List.mem_append_left _ hz) hzf hn
    · obtain ⟨z, hz, hzf, rfl⟩ := mem_rangeFaults hy
      exact bounded (List.mem_append_right _ hz) hzf (List.ne_nil_of_mem hz)

/-! ## Memory words -/

/-- Accesses at an address that must be a multiple of `al` trap: misaligned with all of them in range, or out of range
(R13, R162). -/
def State.accessTraps (s : State) (i : Instr) (h : Head) (chk : SlotRes) (al a : Nat) (l : List (Nat × Nat)) : Prop :=
  ((∀ x ∈ l, x.1 + x.2 ≤ spadSize s.issue.core s.icore.team) → a % al ≠ 0 → s.traps i h chk .spadAlign (BitVec.ofNat 64 a))
    ∧ (∀ x ∈ l, spadSize s.issue.core s.icore.team < x.1 + x.2 →
      (∀ y ∈ l, spadSize s.issue.core s.icore.team < y.1 + y.2 → x.1 ≤ y.1) → s.traps i h chk .spadRange (BitVec.ofNat 64 x.1))

section
variable {s : State} {i : Instr} {h : Head} {r chk : SlotRes} {al a : Nat} {l l₁ l₂ : List (Nat × Nat)}

/-- Only which accesses there are matters. -/
theorem State.accessTraps_congr (hl : ∀ x, x ∈ l₁ ↔ x ∈ l₂) : s.accessTraps i h chk al a l₁ ↔ s.accessTraps i h chk al a l₂ := by
  unfold State.accessTraps
  simp only [hl]

/-- A memory word whose accesses stand in two lists. -/
theorem State.accessTraps_append (hx : exec i s = .next (s.slot i h r)) (hc : r.readsOf = chk.readsOf)
    (hf : r.faults = s.memFaults al a l₁ ++ rangeFaults (spadSize s.issue.core s.icore.team) l₂)
    (hb : l₂ ≠ [] → ∀ y ∈ l₁ ++ l₂, y.1 < 2 ^ 64) : s.accessTraps i h chk al a (l₁ ++ l₂) := by
  refine ⟨fun hin ha => State.traps_of hx hc ?_, fun x hxm hxf hm => State.traps_of hx hc ?_⟩
  · rw [hf, State.memFaults, alignFaults, if_neg ha, rangeFaults_fits (fun x hx => hin x (List.mem_append_left _ hx)),
      rangeFaults_fits (fun x hx => hin x (List.mem_append_right _ hx))]
    rfl
  · rw [hf]
    refine worst_range (fun y hy => ?_) hb hxm hxf hm
    unfold alignFaults at hy
    split at hy
    · exact absurd hy List.not_mem_nil
    · exact congrArg Prod.fst (List.mem_singleton.mp hy)

/-- A memory word whose accesses stand in one list. -/
theorem State.accessTraps_of (hx : exec i s = .next (s.slot i h r)) (hc : r.readsOf = chk.readsOf) (hf : r.faults = s.memFaults al a l) :
    s.accessTraps i h chk al a l := by
  have := State.accessTraps_append (l₂ := []) hx hc (hf.trans (List.append_nil _).symm) (fun hn => absurd rfl hn)
  rwa [List.append_nil] at this

theorem State.traps_misaligned (hx : exec i s = .next (s.slot i h r)) (hc : r.readsOf = chk.readsOf) (hf : r.faults = s.memFaults al a l)
    (hin : ∀ x ∈ l, x.1 + x.2 ≤ spadSize s.issue.core s.icore.team) (ha : a % al ≠ 0) : s.traps i h chk .spadAlign (BitVec.ofNat 64 a) :=
  (State.accessTraps_of hx hc hf).1 hin ha

end

/-! ## Addresses -/

theorem areaAddr_lt (x : Word) (d : Int) : areaAddr x d < 2 ^ 25 := by
  have hoff : areaOff x < 2 ^ 24 := BitVec.isLt _
  have hmod : areaMod x < 2 ^ 16 := BitVec.isLt _
  unfold areaAddr
  dsimp only
  split
  · exact Nat.lt_trans (toNat_emod_lt 24 _) (by decide)
  · next h =>
    have hr : ((areaOff x - (areaOff x - areaOff x % (32 * areaMod x)) : Nat) + d) % ((32 * areaMod x : Nat) : Int) < (32 * areaMod x : Nat) :=
      Int.emod_lt_of_pos _ (by omega)
    omega

theorem elemCount_eight (ty : BitVec 4) : 8 * (elemCount (tyWidth ty) / 8) = elemCount (tyWidth ty) := by revert ty; decide

/-- The accesses of a gather, whichever cycle each is in (R168). -/
theorem mem_gatherGroups (ty : BitVec 4) (f : Nat → Option Nat) (q : Nat × Nat) :
    q ∈ (gatherGroups ty f).flatten ↔ q.1 < elemCount (tyWidth ty) ∧ f q.1 = some q.2 := by
  have h8 := elemCount_eight ty
  unfold gatherGroups
  simp only [List.mem_flatten, List.mem_map, List.mem_range, exists_exists_and_eq_and, List.mem_filterMap, Option.map_eq_some_iff]
  constructor
  · rintro ⟨j, hj, i, hi, a, hf, rfl⟩
    refine ⟨?_, hf⟩
    calc j * (elemCount (tyWidth ty) / 8) + i < (j + 1) * (elemCount (tyWidth ty) / 8) := by rw [Nat.succ_mul]; omega
      _ ≤ 8 * (elemCount (tyWidth ty) / 8) := Nat.mul_le_mul_right _ hj
      _ = elemCount (tyWidth ty) := h8
  · rintro ⟨hq, hf⟩
    have hm : 0 < elemCount (tyWidth ty) / 8 := by omega
    refine ⟨q.1 / (elemCount (tyWidth ty) / 8), ?_, q.1 % (elemCount (tyWidth ty) / 8), Nat.mod_lt _ hm, q.2, ?_, ?_⟩
    · rw [Nat.div_lt_iff_lt_mul hm]; omega
    · rw [Nat.div_add_mod']; exact hf
    · rw [Nat.div_add_mod']

theorem mem_gather_accesses (c : Ctx) (w : MWord) (n : Nat) (x : Nat × Nat) :
    x ∈ (gatherGroups w.ty (fun i => if active (c.guard w.hd) (tyWidth w.ty) i then some (gatherAddr c w i) else none)).flatten.map
        (fun q => (q.2, n))
      ↔ x ∈ ((List.range (elemCount (tyWidth w.ty))).filter (active (c.guard w.hd) (tyWidth w.ty))).map (fun i => (gatherAddr c w i, n)) := by
  simp only [List.mem_map, mem_gatherGroups, List.mem_filter, List.mem_range, Option.ite_none_right_eq_some, Option.some.injEq]
  constructor
  · rintro ⟨q, ⟨hq, ha, hf⟩, rfl⟩
    exact ⟨q.1, ⟨hq, ha⟩, by rw [hf]⟩
  · rintro ⟨i, ⟨hi, ha⟩, rfl⟩
    exact ⟨(i, gatherAddr c w i), ⟨hi, ha, rfl⟩, rfl⟩

/-! ## Descriptors of `desc=` -/

section
variable {s : State} {w : MWord}

/-- A descriptor that is well formed and names only registers of its context (R17, R146, R164). -/
def State.wellMapped (s : State) : Prop :=
  mapWf s.ictx.ldDesc = true ∧ mapCarriersOk s.ictx.ldDesc s.issue.ctx.val (partVregs s.icore.team.part) = true

/-- The bytes of a descriptor that the word reads. -/
def State.descReads (s : State) (w : MWord) : List (Nat × Nat) :=
  if w.mapm = 3 then [(areaAddr (s.ictx.aReg (w.c.extractLsb' 0 4)) 0, 48)] else []

/-- The checks of the descriptor of `desc=` (R164). -/
theorem mapmFaults_desc (h : w.mapm = 3) : s.mapmFaults w =
    rangeFaults (spadSize s.issue.core s.icore.team) [(s.ictx.descAt w, 48)]
      ++ (if mapWf s.ictx.ldDesc && mapCarriersOk s.ictx.ldDesc s.issue.ctx.val (partVregs s.icore.team.part) then []
        else [(.mapBad, w.d.zeroExtend 64)])
      ++ (if s.ictx.chken then (s.ictx.preread.bind (·.ldEarly)).toList.map (fun b => (.stallShort, b.zeroExtend 64)) else []) :=
  if_pos h

theorem early_none (h : s.ictx.chken = true → s.ictx.preread.bind (·.ldEarly) = none) :
    (if s.ictx.chken then (s.ictx.preread.bind (·.ldEarly)).toList.map (fun b => (Cause.stallShort, b.zeroExtend 64)) else [])
      = ([] : List (Cause × Word)) := by
  split
  · next hc => rw [h hc]; rfl
  · rfl

/-- A descriptor in order: its checks are those of its bytes alone. -/
theorem mapmFaults_calm (h : w.mapm = 3 → s.wellMapped ∧ (s.ictx.chken = true → s.ictx.preread.bind (·.ldEarly) = none)) :
    s.mapmFaults w = rangeFaults (spadSize s.issue.core s.icore.team) (s.descReads w) := by
  unfold State.descReads
  split
  · next hm =>
    obtain ⟨⟨hw, hc⟩, he⟩ := h hm
    rw [mapmFaults_desc hm, early_none he, if_pos (by rw [hw, hc]; rfl), List.append_nil, List.append_nil]
    rfl
  · next hm => exact if_neg hm

/-- The codes of the faults of accesses and of maps (R343): a map's come before those of an access. -/
theorem code_alignFaults {al a : Nat} {y : Cause × Word} (h : y ∈ alignFaults al a) : 0x20 ≤ y.1.code.toNat := by
  unfold alignFaults at h
  split at h
  · exact absurd h List.not_mem_nil
  · rw [List.mem_singleton.mp h]; exact (show (0x20 : Nat) ≤ 0x21 by decide)

theorem code_rangeFaults {size : Nat} {l : List (Nat × Nat)} {y : Cause × Word} (h : y ∈ rangeFaults size l) : 0x20 ≤ y.1.code.toNat := by
  obtain ⟨x, -, -, rfl⟩ := mem_rangeFaults h
  exact Nat.le_refl 0x20

theorem code_memFaults {al a : Nat} {l : List (Nat × Nat)} {y : Cause × Word} (h : y ∈ s.memFaults al a l) : 0x20 ≤ y.1.code.toNat :=
  (List.mem_append.mp h).elim code_alignFaults code_rangeFaults

theorem code_mapFault {ok : Bool} {v : Word} {y : Cause × Word} (h : y ∈ if ok then [] else [(Cause.mapBad, v)]) : 0x10 ≤ y.1.code.toNat := by
  split at h
  · exact absurd h List.not_mem_nil
  · rw [List.mem_singleton.mp h]; exact Nat.le_refl 0x10

/-- A descriptor that is not in order: MAP_BAD stands before every fault of an access. -/
theorem worst_mapBad {al a : Nat} {l : List (Nat × Nat)} (h : w.mapm = 3) (hw : ¬ s.wellMapped)
    (he : s.ictx.chken = true → s.ictx.preread.bind (·.ldEarly) = none) :
    worst (s.memFaults al a l ++ s.mapmFaults w) = some (.mapBad, w.d.zeroExtend 64) := by
  have hc : ¬ (mapWf s.ictx.ldDesc && mapCarriersOk s.ictx.ldDesc s.issue.ctx.val (partVregs s.icore.team.part)) = true := by
    rw [Bool.and_eq_true]; exact hw
  rw [mapmFaults_desc h, early_none he, if_neg hc, List.append_nil, ← List.append_assoc]
  exact worst_append fun y hy => Nat.lt_of_lt_of_le (show (0x10 : Nat) < 0x20 by decide)
    ((List.mem_append.mp hy).elim code_memFaults code_rangeFaults)

/-- A store that comes too early for the descriptor's read: STALL_SHORT stands before the others. -/
theorem worst_ldEarly {al a : Nat} {l : List (Nat × Nat)} {x : BitVec 56} (h : w.mapm = 3) (hc : s.ictx.chken = true)
    (he : s.ictx.preread.bind (·.ldEarly) = some x) :
    worst (s.memFaults al a l ++ s.mapmFaults w) = some (.stallShort, x.zeroExtend 64) := by
  rw [mapmFaults_desc h, if_pos hc, he, ← List.append_assoc, ← List.append_assoc]
  refine worst_append fun y hy => Nat.lt_of_lt_of_le (show (0x0D : Nat) < 0x10 by decide) ?_
  rcases List.mem_append.mp hy with hy | hy
  · exact le_trans (show (0x10 : Nat) ≤ 0x20 by decide) ((List.mem_append.mp hy).elim code_memFaults code_rangeFaults)
  · exact code_mapFault hy

end

/-! ## Each memory word -/

/-- The bytes of a descriptor lie below 2^25. -/
theorem mem_descReads {s : State} {w : MWord} {y : Nat × Nat} (h : y ∈ s.descReads w) : y.1 < 2 ^ 25 := by
  unfold State.descReads at h
  split at h
  · rw [List.mem_singleton.mp h]; exact areaAddr_lt _ _
  · exact absurd h List.not_mem_nil

section
variable {s : State} {w : MWord} {i : Instr} {h : Head} {r chk : SlotRes} {al a : Nat} {l : List (Nat × Nat)}

/-- A word that may take its map from a descriptor, the descriptor being in order. -/
theorem State.accessTraps_mapped (hx : exec i s = .next (s.slot i h r)) (hc : r.readsOf = chk.readsOf)
    (hf : r.faults = s.memFaults al a l ++ s.mapmFaults w) (hl : ∀ y ∈ l, y.1 < 2 ^ 64)
    (hm : w.mapm = 3 → s.wellMapped ∧ (s.ictx.chken = true → s.ictx.preread.bind (·.ldEarly) = none)) :
    s.accessTraps i h chk al a (l ++ s.descReads w) := by
  refine State.accessTraps_append hx hc (hf.trans (by rw [mapmFaults_calm hm])) (fun _ y hy => ?_)
  rcases List.mem_append.mp hy with hy | hy
  · exact hl y hy
  · exact Nat.lt_trans (mem_descReads hy) (by decide)

/-- The descriptor is not in order. -/
theorem State.traps_mapBad (hx : exec i s = .next (s.slot i h r)) (hc : r.readsOf = chk.readsOf)
    (hf : r.faults = s.memFaults al a l ++ s.mapmFaults w) (hm : w.mapm = 3) (hw : ¬ s.wellMapped)
    (he : s.ictx.chken = true → s.ictx.preread.bind (·.ldEarly) = none) : s.traps i h chk .mapBad (w.d.zeroExtend 64) :=
  State.traps_of hx hc (hf ▸ worst_mapBad hm hw he)

/-- The descriptor is read before a store that it hits has landed. -/
theorem State.traps_ldEarly {x : BitVec 56} (hx : exec i s = .next (s.slot i h r)) (hc : r.readsOf = chk.readsOf)
    (hf : r.faults = s.memFaults al a l ++ s.mapmFaults w) (hm : w.mapm = 3) (hk : s.ictx.chken = true)
    (he : s.ictx.preread.bind (·.ldEarly) = some x) : s.traps i h chk .stallShort (x.zeroExtend 64) :=
  State.traps_of hx hc (hf ▸ worst_ldEarly hm hk he)

end

/-- A scratchpad address, and one a little above it, is a 64-bit address. -/
theorem memAddr_add_lt (c : Ctx) (w : MWord) {k : Nat} (hk : k ≤ 2 ^ 24) : c.memAddr w + k < 2 ^ 64 := by
  have := areaAddr_lt (c.aReg w.areg) (dispInt w)
  have h : c.memAddr w = areaAddr (c.aReg w.areg) (dispInt w) := rfl
  omega

/-- The rows of a transposed load (R169, R170). -/
def Ctx.ldtRows (c : Ctx) (w : MWord) : List Nat :=
  if w.ty = 12 then List.range 16
  else (List.range 16).filter (fun r => ((List.range (elemCount (tyWidth w.ty))).filter (fun i =>
    !c.edge ((c.mapmOf w).getD (c.mapOf w.d.toNat)) i)).any (fun i => i % 16 == r))

theorem mem_ldtRows {c : Ctx} {w : MWord} {r : Nat} (h : r ∈ c.ldtRows w) : r < 16 := by
  unfold Ctx.ldtRows at h
  split at h
  · exact List.mem_range.mp h
  · exact List.mem_range.mp (List.mem_filter.mp h).1

/-- What a transposed load reads of the scratchpad. -/
def State.ldtReads (s : State) (w : MWord) : List (Nat × Nat) :=
  (s.ictx.ldtRows w).map (fun r => (s.ictx.memAddr w + r * (32 * (w.b.toNat % 16 + 1)), 32))

theorem mem_ldtReads {s : State} {w : MWord} {y : Nat × Nat} (h : y ∈ s.ldtReads w) : y.1 < 2 ^ 64 := by
  obtain ⟨r, hr, rfl⟩ := List.mem_map.mp h
  have hr := mem_ldtRows hr
  refine memAddr_add_lt _ _ ?_
  have : r * (32 * (w.b.toNat % 16 + 1)) ≤ 16 * (32 * 16) := Nat.mul_le_mul (by omega) (by omega)
  omega

/-- A transposed load, by what its checks look at. -/
theorem exec_ldt (s : State) (w : MWord) : ∃ r : SlotRes, exec (.ldt w) s = .next (s.slot (.ldt w) w.hd r)
    ∧ r.readsOf = { maps := if w.mapm = 0 ∧ w.ty ≠ 12 then [w.d.toNat] else mapmReads w, data := some []
                    reads := (s.ictx.ldtRows w).map (fun r => (1, s.ictx.memAddr w + r * (32 * (w.b.toNat % 16 + 1)), 32)) }
    ∧ r.faults = s.memFaults 32 (s.ictx.memAddr w) (s.ldtReads w) ++ s.mapmFaults w := by
  unfold State.ldtReads Ctx.ldtRows
  refine ⟨_, rfl, ?_, ?_⟩
  · split <;> simp [SlotRes.readsOf, *]
  · split <;> rfl

/-- What the accesses of `SW` words take. -/
theorem swWidth_eq (w : MWord) : swWidth (decide (w.ty = 7)) = if w.ty = 7 then 8 else 4 := by
  unfold swWidth; simp only [decide_eq_true_eq]

theorem exec_ldSW (s : State) (w : MWord) : ∃ r : SlotRes, exec (.ldSW w) s = .next (s.slot (.ldSW w) w.hd r)
    ∧ r.readsOf = { maps := mapmReads w, data := some []
                    reads := if w.ty = 7 then [(1, s.ictx.memAddr w, 512), (2, s.ictx.memAddr w + 512, 512)]
                      else [(1, s.ictx.memAddr w, 512)] }
    ∧ r.faults = s.memFaults 32 (s.ictx.memAddr w) [(s.ictx.memAddr w, 128 * (if w.ty = 7 then 8 else 4))] ++ s.mapmFaults w := by
  refine ⟨_, rfl, ?_, ?_⟩
  · simp only [SlotRes.readsOf]
  · rw [← swWidth_eq]

/-! ## The control words -/

section
variable {s : State} {i : Instr} {h : Head} {e : Cause} {v : Word}

/-- A word that reads nothing for its check and fails with one cause. -/
theorem State.traps_single {r : SlotRes} (hx : exec i s = .next (s.slot i h r)) (hr : r = { faults := [(e, v)] }) : s.traps i h {} e v :=
  State.traps_of (r := { faults := [(e, v)] }) (hr ▸ hx) rfl rfl

/-- A taken branch past the code space (R77, R346). -/
theorem State.traps_branch {b : Bool} {disp : BitVec 27} {extra : List Effect} {taken : Prop}
    (hx : exec i s = .next (s.slot i h (s.branchRes b disp extra))) (hb : taken → b = true) (ht : taken)
    (hw : branchTarget s.issue.baddr disp < 0 ∨ 2 ^ 56 ≤ branchTarget s.issue.baddr disp) :
    s.traps i h {} .brWrap (s.issue.baddr.zeroExtend 64) :=
  State.traps_single hx (by rw [hb ht]; exact branchRes_wraps s disp extra hw)

/-- A jump to a bad target (R78). -/
theorem State.traps_jump {x : Word} (hx : exec i s = .next (s.slot i h (jumpRes x))) (hb : x.toNat % 8 ≠ 0 ∨ 2 ^ 56 ≤ x.toNat) :
    s.traps i h {} .badTarget x :=
  State.traps_single hx (if_pos ((jumpRes_checks x).mpr hb))

/-- A barrier outside its scope (R84). -/
theorem barRes_outOfScope {scope : BitVec 3} {b : Nat} (hs : ¬ (s.barrier s.issue.core scope.toNat b).isSome) (r : SlotRes) :
    s.barRes scope b r = { faults := (.barScope, scope.zeroExtend 64) :: r.faults } := by
  unfold State.barRes
  rw [Option.not_isSome_iff_eq_none.mp hs]

theorem State.traps_scope {scope : BitVec 3} {b : Nat} {r : SlotRes} (hx : exec i s = .next (s.slot i h (s.barRes scope b r)))
    (hr : r.faults = []) (hs : ¬ (s.barrier s.issue.core scope.toNat b).isSome) : s.traps i h {} .barScope (scope.zeroExtend 64) :=
  State.traps_single hx ((barRes_outOfScope hs r).trans (by rw [hr]))

/-- BAD_COUNT stands before the scope (R343). -/
theorem worst_barRes_badCount (scope : BitVec 3) (b : Nat) (x : Word) :
    worst (s.barRes scope b { faults := [(.badCount, x)] }).faults = some (.badCount, x) := by
  by_cases hs : (s.barrier s.issue.core scope.toNat b).isSome
  · rw [barRes_inScope hs]; rfl
  · rw [barRes_outOfScope hs]; rfl

/-- A control register written with bits that it does not take (R93). -/
theorem State.traps_creg {n : Nat} {x : Word} (hx : exec i s = .next (s.slot i h (s.mtcRes i n x)))
    (hb : x &&& cregRo n ≠ s.creg s.issue.core s.issue.ctx n &&& cregRo n) : s.traps i h {} .illCreg (rawWord i) :=
  State.traps_single hx (if_pos (bne_iff_ne.mpr hb))

/-- A physical core that is not there (R104). -/
theorem State.traps_phys {x : Word} {r : SlotRes} (hx : exec i s = .next (s.slot i h (physRes x r))) (hb : 25 ≤ x.toNat) :
    s.traps i h {} .cmapBad x :=
  State.traps_single hx (if_neg (fun h => absurd (of_decide_eq_true h) (Nat.not_lt.mpr hb)))

end

/-- The conditions of `BRP`. -/
theorem brpTaken_of {d : Reg6} {p : PredBits} (h : (d = 0 ∧ p.getLsbD 0 = true) ∨ (d = 1 ∧ ∃ j < 512, p.getLsbD j = true)
    ∨ (d = 2 ∧ ∀ j < 512, p.getLsbD j = true)) : brpTaken d p = true := by
  rcases h with ⟨rfl, h⟩ | ⟨rfl, h⟩ | ⟨rfl, h⟩
  · exact (brpTaken_bit p).mpr h
  · exact (brpTaken_any p).mpr h
  · exact (brpTaken_all p).mpr h

theorem traps_barInit (s : State) (w : YSWord) (h : s.ictx.sReg w.a = 0 ∨ 65535 < (s.ictx.sReg w.a).toNat) :
    s.traps (.barInit w) w.hd {} .badCount (s.ictx.sReg w.a) := by
  have hc : (decide (s.ictx.sReg w.a = 0) || decide (65535 < (s.ictx.sReg w.a).toNat)) = true := by
    rw [Bool.or_eq_true, decide_eq_true_eq, decide_eq_true_eq]; exact h
  have hx : exec (.barInit w) s = .next (s.slot (.barInit w) w.hd (s.barRes w.scope (w.fn.toNat % 16)
      { faults := [(.badCount, s.ictx.sReg w.a)] })) :=
    congrArg (fun r => Host.Outcome.next (s.slot (.barInit w) w.hd (s.barRes w.scope (w.fn.toNat % 16) r))) (if_pos hc)
  refine State.traps_of hx ?_ (worst_barRes_badCount ..)
  by_cases hs : (s.barrier s.issue.core w.scope.toNat (w.fn.toNat % 16)).isSome
  · rw [barRes_inScope hs]; rfl
  · rw [barRes_outOfScope hs]; rfl

theorem traps_barInit_scope (s : State) (w : YSWord) (h0 : s.ictx.sReg w.a ≠ 0) (h : (s.ictx.sReg w.a).toNat ≤ 65535)
    (hs : ¬ (s.barrier s.issue.core w.scope.toNat (w.fn.toNat % 16)).isSome) :
    s.traps (.barInit w) w.hd {} .barScope (w.scope.zeroExtend 64) := by
  have hc : ¬ (decide (s.ictx.sReg w.a = 0) || decide (65535 < (s.ictx.sReg w.a).toNat)) = true := by
    rw [Bool.or_eq_true, decide_eq_true_eq, decide_eq_true_eq, not_or, not_lt]; exact ⟨h0, h⟩
  exact State.traps_scope rfl (congrArg SlotRes.faults (if_neg hc)) hs

/-! ## Vector words -/

/-- A register is given by its elements. -/
theorem vecOf_elem (x : VecBits) : vecOf 32 (fun i => elem x i 32) = x := by
  refine BitVec.eq_of_getLsbD_eq fun j hj => ?_
  have hi : j / 32 < elemCount 32 := by unfold elemCount; omega
  have bit (y : VecBits) : (elem y (j / 32) 32).testBit (j % 32) = y.getLsbD j := by
    unfold elem
    rw [Nat.testBit_mod_two_pow, Nat.testBit_shiftRight, decide_eq_true (Nat.mod_lt j (by decide)), Bool.true_and, Nat.div_add_mod]
    rfl
  have hlt : elem x (j / 32) 32 < 2 ^ 32 := Nat.mod_lt _ (Nat.two_pow_pos 32)
  rw [← bit, elem_vecOf _ _ _ hi, Nat.mod_eq_of_lt hlt, bit]

section
variable {s : State} {w : RWord} {i : Instr} {r : SlotRes}

theorem mapNone_of {c : Ctx} {n : Nat} (hn : isNone (c.mapOf n) = true) (hs : c.mapsoft = false) :
    c.mapNone n = [(.mapNone, BitVec.ofNat 64 n)] := if_pos (by rw [hn, hs]; rfl)

/-- A pseudo-operand whose map is NONE (R45, R262). -/
theorem State.traps_pseudo {l : List Reg6} (hx : exec i s = .next (s.slot i w.hd r)) (hc : r.readsOf = (s.vecChk w l).readsOf)
    (hf : r.faults = s.ictx.pseudoFaults w.dst.toNat l) (hp : ∃ v ∈ l, mapPseudo v = true)
    (hn : isNone (s.ictx.mapOf (srcMapReg w.dst.toNat l)) = true) (hs : s.ictx.mapsoft = false) :
    s.traps i w.hd (s.vecChk w l) .mapNone (BitVec.ofNat 64 (srcMapReg w.dst.toNat l)) :=
  State.traps_of hx hc (by rw [hf, Ctx.pseudoFaults, if_pos (List.any_eq_true.mpr hp), mapNone_of hn hs]; rfl)

/-- A word that reads coordinates of a map that is NONE (R147). -/
theorem State.traps_coords (hx : exec i s = .next (s.slot i w.hd r)) (hc : r.readsOf = { maps := [w.a.toNat], data := some [] })
    (hf : r.faults = s.ictx.mapNone w.a.toNat) (hn : isNone (s.ictx.mapOf w.a.toNat) = true) (hs : s.ictx.mapsoft = false) :
    s.traps i w.hd { maps := [w.a.toNat], data := some [] } .mapNone (BitVec.ofNat 64 w.a.toNat) :=
  State.traps_of hx hc (by rw [hf, mapNone_of hn hs]; rfl)

/-- A `VMASKC` on a map that is NONE (R150). -/
theorem State.traps_mask {rule : MaskRule} (hx : exec i s = .next (s.slot i w.hd (s.vmaskc w rule)))
    (hn : isNone (s.ictx.vmapSrc w) = true) (hs : s.ictx.mapsoft = false) :
    s.traps i w.hd { maps := realV [w.a], data := some [] } .mapNone (w.a.zeroExtend 64) :=
  State.traps_of hx rfl (congrArg worst (if_pos (by rw [hn, hs]; rfl)))

theorem code_pseudoFaults {c : Ctx} {dst : Nat} {l : List Reg6} {y : Cause × Word} (h : y ∈ c.pseudoFaults dst l) : y.1.code.toNat = 0x11 := by
  unfold Ctx.pseudoFaults Ctx.mapNone at h
  split at h
  · split at h
    · rw [List.mem_singleton.mp h]; rfl
    · exact absurd h List.not_mem_nil
  · exact absurd h List.not_mem_nil

/-- A `VMAP` that would write no map: MAP_BAD, before a pseudo-operand's MAP_NONE (R146, R343). -/
theorem worst_vmap {c : Ctx} {l : List Reg6} {ok : Bool} (h : ok = false) :
    worst (c.pseudoFaults w.dst.toNat l ++ vmapFaults w ok) = some (.mapBad, w.dst.zeroExtend 64) := by
  rw [h]
  exact worst_append fun y hy => (code_pseudoFaults hy).symm ▸ (show (0x10 : Nat) < 0x11 by decide)

theorem State.traps_vmap {ok : Bool} {m : MapBits} (hx : exec i s = .next (s.slot i w.hd (s.vmapData w ok m))) (h : ok = false) :
    s.traps i w.hd (s.vecChk w [w.a]) .mapBad (w.dst.zeroExtend 64) :=
  State.traps_of hx rfl (worst_vmap h)

theorem dimOk_high {m : MapBits} {d : Nat} (h : isNone m = false ∧ mapRank m ≤ d) : dimOk m d = false := by
  obtain ⟨hn, hd⟩ := h
  rw [dimOk, hn, Bool.false_or, decide_eq_false (Nat.not_lt.mpr hd)]

end

/-- `VMAP.set` of a descriptor that is not in order (R146). -/
theorem traps_vmapSet (s : State) (w : RWord) (ha : w.a.toNat < 56)
    (hb : ¬ (mapWf ((s.ictx.vReg w.a.toNat).extractLsb' 0 384) = true
      ∧ mapCarriersOk ((s.ictx.vReg w.a.toNat).extractLsb' 0 384) s.issue.ctx.val (partVregs s.icore.team.part) = true)) :
    s.traps (.vmapSet w) w.hd { data := some [w.a.toNat] } .mapBad (w.dst.zeroExtend 64) := by
  have hreal : realV [w.a] = [w.a.toNat] := by simp [realV, ha]
  have hmap : mapPseudo w.a = false := by
    rw [mapPseudo, decide_eq_false (by omega), Bool.false_and, Bool.false_or, beq_eq_false_iff_ne]
    rintro h
    rw [h] at ha
    exact absurd ha (by decide)
  have hvec : vecOf 32 (s.ictx.src w.hd (srcMapReg w.dst.toNat [w.a]) w.a 32) = s.ictx.vReg w.a.toNat :=
    (congrArg (vecOf 32) (funext fun i => if_pos ha)).trans (vecOf_elem _)
  refine State.traps_of (chk := { data := some [w.a.toNat] }) rfl ?_ (worst_vmap ?_)
  · unfold State.vmapOnly SlotRes.readsOf
    rw [hreal, hmap]
    rfl
  · rw [hvec]
    exact Bool.eq_false_of_not_eq_true fun h => hb (Bool.and_eq_true_iff.mp h)

/-! ## Matrix words -/

section
variable {s : State} {w : XWord} {i : Instr} {r chk : SlotRes} {l : List Nat} {acc : List (Nat × Nat)}

theorem mem_mxAlign {y : Cause × Word} (h : y ∈ mxAlign l) : y.1 = .spadAlign := by
  obtain ⟨f, hf, hy⟩ := List.mem_flatten.mp h
  obtain ⟨a, -, rfl⟩ := List.mem_map.mp hf
  unfold alignFaults at hy
  split at hy
  · exact absurd hy List.not_mem_nil
  · exact congrArg Prod.fst (List.mem_singleton.mp hy)

/-- The first operand that is not aligned (R162, R343). -/
theorem mxAlign_head (l : List Nat) : (mxAlign l).head? = (l.find? (fun a => a % 32 != 0)).map (fun a => (.spadAlign, BitVec.ofNat 64 a)) := by
  induction l with
  | nil => rfl
  | cons a l ih =>
    have hc : mxAlign (a :: l) = alignFaults 32 a ++ mxAlign l := rfl
    rw [hc]
    by_cases ha : a % 32 = 0
    · rw [alignFaults, if_pos ha, List.nil_append, ih, List.find?_cons_of_neg (by simp [ha])]
    · rw [alignFaults, if_neg ha, List.find?_cons_of_pos (by simp [ha])]; rfl

theorem mxAlign_aligned (h : ∀ x ∈ l, x % 32 = 0) : mxAlign l = [] := by
  unfold mxAlign
  rw [List.flatten_eq_nil_iff]
  intro f hf
  obtain ⟨a, ha, rfl⟩ := List.mem_map.mp hf
  exact if_pos (h a ha)

/-- A matrix word's operands: the first that is not aligned, with all of them in range, or the lowest that is out of range. -/
theorem State.traps_operands (hx : exec i s = .next (s.slot i w.hd r)) (hc : r.readsOf = chk.readsOf) (hf : r.faults = mxAlign l ++ s.mxRange acc) :
    ((∀ x ∈ acc, x.1 + x.2 ≤ spadSize s.issue.core s.icore.team) → ∀ x, l.find? (fun a => a % 32 != 0) = some x →
        s.traps i w.hd chk .spadAlign (BitVec.ofNat 64 x))
      ∧ (∀ x ∈ acc, spadSize s.issue.core s.icore.team < x.1 + x.2 →
        (∀ y ∈ acc, spadSize s.issue.core s.icore.team < y.1 + y.2 → x.1 ≤ y.1) → s.traps i w.hd chk .spadRange (BitVec.ofNat 64 x.1)) := by
  refine ⟨fun hin x hl => State.traps_of hx hc ?_, fun x hxm hxf hm => State.traps_of hx hc ?_⟩
  · rw [hf, State.mxRange, rangeFaults_fits hin, List.append_nil, worst_same (e := .spadAlign) (by decide) _ (fun y => mem_mxAlign),
      mxAlign_head, hl]
    rfl
  · rw [hf, State.mxRange, ← List.append_nil (_ ++ _)]
    exact worst_range (l₂ := []) (fun y => mem_mxAlign) (fun hn => absurd rfl hn) (by simpa using hxm) hxf (by simpa using hm)

end

section
variable {s : State} {i : Instr} {w : XWord} {asz bsz : Nat} {fresh : Bool}

/-- The checks of a matrix product that repeats at least once (R81, R181, R185). -/
theorem mmaRes_faults (hn : s.mxCount ≠ 0) :
    (s.mmaRes i w asz bsz fresh).faults = s.gangFaults i
      ++ mxAlign (repOffs s.mxCount (s.mxA s.issue.core s.issue.ctx i w.aa) ++ repOffs s.mxCount (s.mxB s.issue.core s.issue.ctx i w.ab))
      ++ s.mxRange ((repOffs s.mxCount (s.mxA s.issue.core s.issue.ctx i w.aa)).map (fun a => (a, asz))
        ++ (repOffs s.mxCount (s.mxB s.issue.core s.issue.ctx i w.ab)).map (fun b => (b, bsz))) :=
  congrArg SlotRes.faults (if_neg hn)

/-- A product whose gang is not there, its operands being in order (R185). -/
theorem State.traps_gang (hx : exec i s = .next (s.slot i w.hd (s.mmaRes i w asz bsz fresh))) (hn : s.mxCount ≠ 0)
    (hg : gangBit i = true) (hc : s.gangCores s.issue.core = [])
    (has : ∀ x ∈ repOffs s.mxCount (s.mxA s.issue.core s.issue.ctx i w.aa), x % 32 = 0 ∧ x + asz ≤ spadSize s.issue.core s.icore.team)
    (hbs : ∀ x ∈ repOffs s.mxCount (s.mxB s.issue.core s.issue.ctx i w.ab), x % 32 = 0 ∧ x + bsz ≤ spadSize s.issue.core s.icore.team) :
    s.traps i w.hd (s.mmaRes i w asz bsz fresh) .mxGang
      (match s.taskAt s.issue.core with | some t => t.tcb.gang.zeroExtend 64 | none => 0) := by
  refine State.traps_of hx rfl ?_
  rw [mmaRes_faults hn, mxAlign_aligned, State.mxRange, rangeFaults_fits, List.append_nil, List.append_nil, State.gangFaults,
    if_pos (by rw [hg, decide_eq_true hc]; rfl)]
  · rfl
  · simp only [List.mem_append, List.mem_map]
    rintro x (⟨a, ha, rfl⟩ | ⟨a, ha, rfl⟩)
    · exact (has a ha).2
    · exact (hbs a ha).2
  · intro x hx
    exact (List.mem_append.mp hx).elim (fun h => (has x h).1) (fun h => (hbs x h).1)

end

section
variable {s : State} {w : XWord}

/-- `TMAP`: the descriptor that was read for it. -/
def Ctx.mxDesc (c : Ctx) : MapBits := match c.preread with | some r => r.mx | none => 0

/-- The checks of `TMAP` (R186): its address, the descriptor, and a store that comes too early. -/
theorem exec_tmap (s : State) (w : XWord) : ∃ r : SlotRes, exec (.tmap w) s = .next (s.slot (.tmap w) w.hd r) ∧ r.readsOf = {}
    ∧ r.faults = s.memFaults 32 (areaAddr (s.ictx.aReg w.aa) 0) [(areaAddr (s.ictx.aReg w.aa) 0, 48)]
      ++ (if tileMapOk s.ictx.mxDesc (partCtx s.icore.team.part) (partVregs s.icore.team.part) then []
        else [(.mapBad, BitVec.ofNat 64 (64 + w.td.toNat))])
      ++ (if s.ictx.chken then (s.ictx.preread.bind (·.mxEarly)).toList.map (fun b => (.stallShort, b.zeroExtend 64)) else []) :=
  ⟨_, rfl, rfl, rfl⟩

theorem mxEarly_none (h : s.ictx.chken = true → s.ictx.preread.bind (·.mxEarly) = none) :
    (if s.ictx.chken then (s.ictx.preread.bind (·.mxEarly)).toList.map (fun b => (Cause.stallShort, b.zeroExtend 64)) else [])
      = ([] : List (Cause × Word)) := by
  split
  · next hc => rw [h hc]; rfl
  · rfl

theorem traps_tmap_access (hok : tileMapOk s.ictx.mxDesc (partCtx s.icore.team.part) (partVregs s.icore.team.part) = true)
    (he : s.ictx.chken = true → s.ictx.preread.bind (·.mxEarly) = none) :
    s.accessTraps (.tmap w) w.hd {} 32 (areaAddr (s.ictx.aReg w.aa) 0) [(areaAddr (s.ictx.aReg w.aa) 0, 48)] := by
  obtain ⟨r, hx, hc, hf⟩ := exec_tmap s w
  exact State.accessTraps_of hx hc (by rw [hf, mxEarly_none he, if_pos hok, List.append_nil, List.append_nil])

theorem traps_tmap_bad (hok : ¬ tileMapOk s.ictx.mxDesc (partCtx s.icore.team.part) (partVregs s.icore.team.part) = true)
    (he : s.ictx.chken = true → s.ictx.preread.bind (·.mxEarly) = none) :
    s.traps (.tmap w) w.hd {} .mapBad (BitVec.ofNat 64 (64 + w.td.toNat)) := by
  obtain ⟨r, hx, hc, hf⟩ := exec_tmap s w
  rw [mxEarly_none he, if_neg hok, List.append_nil] at hf
  exact State.traps_of hx hc (hf ▸ worst_append fun y hy => Nat.lt_of_lt_of_le (show (0x10 : Nat) < 0x20 by decide) (code_memFaults hy))

theorem traps_tmap_early {x : BitVec 56} (hk : s.ictx.chken = true) (he : s.ictx.preread.bind (·.mxEarly) = some x) :
    s.traps (.tmap w) w.hd {} .stallShort (x.zeroExtend 64) := by
  obtain ⟨r, hx, hc, hf⟩ := exec_tmap s w
  rw [if_pos hk, he] at hf
  refine State.traps_of hx hc (hf ▸ worst_append fun y hy => Nat.lt_of_lt_of_le (show (0x0D : Nat) < 0x10 by decide) ?_)
  exact (List.mem_append.mp hy).elim (fun h => le_trans (show (0x10 : Nat) ≤ 0x20 by decide) (code_memFaults h)) code_mapFault

end

/-! ## Hazards (R26, R75) -/

section
variable {s : State} {i : Instr} {h : Head} {r : SlotRes}

/-- A word that would write a register whose token is pending (R26). -/
theorem State.gives_busy {d : Reg6} (hx : exec i s = .next (s.slot i h r)) (hf : r.faults = []) (hc : r.readsOf = {})
    (hd : i.refs.dstS ++ i.refs.tok.toList = [d]) (hb : s.ictx.tokPend.getLsbD d.toNat = true)
    (hr : s.lone ∧ (scalarForm i = true → s.ictx.guardBit h = true))
    (hs : stallFaults s.cycle s.issue.seq s.issue.ctx s.ictx s.icore.team i.refs i.guardP {} = []) (ho : s.open_) :
    s.gives i (s.trapped h.unit .tokenBusy (d.zeroExtend 64)) := by
  have htok : tokenFaults s.ictx i.refs = [(.tokenBusy, d.zeroExtend 64)] := by
    simp only [tokenFaults, hd, List.filter_cons, hb, List.filter_nil, if_true, List.map_cons, List.map_nil]
  have hst : stallFaults s.cycle s.issue.seq s.issue.ctx s.ictx s.icore.team i.refs i.guardP r = [] :=
    (congrArg (stallFaults s.cycle s.issue.seq s.issue.ctx s.ictx s.icore.team i.refs i.guardP) hc).trans hs
  exact State.gives_trapped hx hr.1 hr.2 ho (by rw [hf, htok, hst]; rfl)

/-- Does the slot read too early what this act in flight writes (R75)? -/
def SlotRes.early (r : SlotRes) (now : Nat) (refs : Refs) (g : List Nat) (p : Pend) : Prop :=
  (now < p.due ∧ p.act.writes refs (r.data.getD refs.srcV) r.maps g = true) ∨ r.reads.any (p.hits now) = true

/-- The first result in flight, read too early (R75). -/
theorem stallFaults_head {now seq : Nat} {k : Fin 4} {c : Ctx} {t : Team} {refs : Refs} {g : List Nat} {p : Pend} {l : List Pend}
    (hp : t.pend = p :: l) (hctx : p.ctx = k) (hseq : p.seq ≠ seq) (hc : c.chken = true) (he : r.early now refs g p) :
    stallFaults now seq k c t refs g r = [(.stallShort, p.baddr.zeroExtend 64)] := by
  have hit : (p.ctx == k && p.seq != seq && ((decide (now < p.due) && p.act.writes refs (r.data.getD refs.srcV) r.maps g)
      || r.reads.any (p.hits now))) = true := by
    rw [Bool.and_eq_true, Bool.and_eq_true, beq_iff_eq, bne_iff_ne, Bool.or_eq_true, Bool.and_eq_true, decide_eq_true_eq]
    exact ⟨⟨hctx, hseq⟩, he⟩
  unfold stallFaults
  simp only [hc, hp, List.cons_append, Bool.not_true, Bool.false_eq_true, if_false, List.find?_cons, hit]

/-- A word that reads too early: STALL_SHORT stands before its other causes. -/
theorem State.gives_short {p : Pend} {l : List Pend} (hx : exec i s = .next (s.slot i h r))
    (hf : ∀ y ∈ r.faults, 0x0D < y.1.code.toNat) (hp : s.icore.team.pend = p :: l) (hctx : p.ctx = s.issue.ctx) (hseq : p.seq ≠ s.issue.seq)
    (hc : s.ictx.chken = true) (he : r.early s.cycle i.refs i.guardP p)
    (hr : s.lone ∧ (scalarForm i = true → s.ictx.guardBit h = true)) (htok : tokenFaults s.ictx i.refs = []) (ho : s.open_) :
    s.gives i (s.trapped h.unit .stallShort (p.baddr.zeroExtend 64)) := by
  refine State.gives_trapped hx hr.1 hr.2 ho ?_
  rw [htok, List.append_nil, stallFaults_head hp hctx hseq hc he]
  exact worst_append hf

end

theorem early_add (w : RWord) {now : Nat} {p : Pend} {r : SlotRes} (hd : now < p.due)
    (h : ∃ r x, p.act = .setS r x ∧ r ≠ 0 ∧ (r = w.a ∨ r = w.b)) : r.early now (Instr.add w).refs (Instr.add w).guardP p := by
  obtain ⟨x, v, ha, h0, hw⟩ := h
  refine .inl ⟨hd, ?_⟩
  rw [ha]
  change (x != 0 && [w.a, w.b].contains x) = true
  rw [Bool.and_eq_true, bne_iff_ne, List.contains_iff_mem]
  exact ⟨h0, by simpa using hw⟩

theorem early_pand (w : RWord) {now : Nat} {p : Pend} {r : SlotRes} (hd : now < p.due)
    (h : ∃ r x m, p.act = .setP r x m ∧ r ≠ 0 ∧ (r.toNat = w.a.toNat ∨ r.toNat = w.b.toNat)) :
    r.early now (Instr.pand w).refs (Instr.pand w).guardP p := by
  obtain ⟨x, v, m, ha, h0, hw⟩ := h
  refine .inl ⟨hd, ?_⟩
  rw [ha]
  change (x != 0 && ([w.a.toNat, w.b.toNat] ++ (Instr.pand w).guardP).contains x.toNat) = true
  rw [Bool.and_eq_true, bne_iff_ne, List.contains_iff_mem]
  exact ⟨h0, List.mem_append_left _ (by simpa using hw)⟩

theorem early_aadd (w : IWord) {now : Nat} {p : Pend} {r : SlotRes} (hd : now < p.due)
    (h : ∃ r x, p.act = .setA r x ∧ r.toNat = w.a.toNat) : r.early now (Instr.aadd w).refs (Instr.aadd w).guardP p := by
  obtain ⟨x, v, ha, hw⟩ := h
  refine .inl ⟨hd, ?_⟩
  rw [ha]
  change [w.a.toNat].contains x.toNat = true
  rw [List.contains_iff_mem]
  exact List.mem_singleton.mpr hw

theorem early_vadd (s : State) (w : RWord) {p : Pend} {f : List Int → Int} (hd : s.cycle < p.due)
    (h : ∃ r x m n o, p.act = .setV r x m n true o ∧ r < 56 ∧ (r = w.a.toNat ∨ r = w.b.toNat)) :
    (s.vint w [w.a, w.b] f).early s.cycle (Instr.vadd w).refs (Instr.vadd w).guardP p := by
  obtain ⟨x, v, m, n, o, ha, h56, hw⟩ := h
  have real : x ∈ realV [w.a, w.b] := by
    rw [realV, List.mem_map]
    rcases hw with rfl | rfl
    · exact ⟨w.a, by simp [h56], rfl⟩
    · exact ⟨w.b, by simp [h56], rfl⟩
  refine .inl ⟨hd, ?_⟩
  rw [ha]
  change (true && (realV [w.a, w.b]).contains x || n.isSome && _) = true
  rw [Bool.true_and, List.contains_iff_mem.mpr real, Bool.true_or]

/-- A load that would read bytes of a store that lands in the cycle after its issue or later. -/
theorem early_ldS (s : State) (w : MWord) {p : Pend} {f : List (Cause × Word)} {e : List Effect} (hd : s.cycle < p.due)
    (h : ∃ bs, p.act = .store bs ∧ ∃ b ∈ bs, s.ictx.memAddr w ≤ b.1 ∧ b.1 < s.ictx.memAddr w + sWidth w.ty / 8) :
    ({ faults := f, effects := e, reads := [(1, s.ictx.memAddr w, sWidth w.ty / 8)] } : SlotRes).early s.cycle (Instr.ldS w).refs
      (Instr.ldS w).guardP p := by
  obtain ⟨bs, ha, b, hb, lo, hi⟩ := h
  refine .inr (List.any_eq_true.mpr ⟨_, List.mem_singleton_self _, ?_⟩)
  unfold Pend.hits
  rw [ha]
  change (decide (s.cycle + 1 ≤ p.due) && bs.any _) = true
  rw [Bool.and_eq_true, decide_eq_true_eq, List.any_eq_true]
  exact ⟨hd, b, hb, by rw [Bool.and_eq_true, decide_eq_true_eq, decide_eq_true_eq]; exact ⟨lo, hi⟩⟩

/-- Settles O19: each word's checks, and of several faults the one that leads the others. -/
theorem issueTraps : Obligations.IssueTraps := by
  refine ⟨fun s w => ?_, fun s => ?_, fun s w => ?_, fun s w => ?_, fun s => ?_⟩
  · intro c a size m b n g els groups desc wellMapped mapped misaligned outside access wide rows st rdV rdT rdSW
    obtain ⟨rT, hxT, hcT, hfT⟩ := exec_ldt s w
    obtain ⟨rSW, hxSW, hcSW, hfSW⟩ := exec_ldSW s w
    have bounded {k : Nat} : ∀ y ∈ [(a, k)], y.1 < 2 ^ 64 := fun y hy => List.mem_singleton.mp hy ▸ memAddr_add_lt c w (Nat.zero_le _)
    refine ⟨?_, ?_, ?_, ?_, ?_, ?_, ?_, ?_, ?_, (State.accessTraps_congr (mem_gather_accesses c w n)).mp (State.accessTraps_of rfl rfl rfl),
      State.traps_misaligned rfl rfl rfl, State.accessTraps_of rfl rfl rfl, State.accessTraps_of rfl rfl rfl,
      (State.accessTraps_congr (mem_gather_accesses c w n)).mp (State.accessTraps_of rfl rfl rfl),
      State.accessTraps_of rfl rfl (congrArg (fun k => s.memFaults 32 a [(a, 128 * k)]) (swWidth_eq w)),
      fun hm => ⟨?_, ?_, ?_⟩, fun hm hw he => ⟨?_, ?_, ?_⟩, fun x hm hk he => ⟨?_, ?_, ?_⟩⟩
    iterate 9 exact State.accessTraps_of rfl rfl rfl
    · exact State.accessTraps_mapped (l := [(a, 512)]) rfl rfl rfl bounded hm
    · exact State.accessTraps_mapped hxT hcT hfT (fun y => mem_ldtReads) hm
    · exact State.accessTraps_mapped (l := [(a, 128 * wide)]) hxSW hcSW hfSW bounded hm
    · exact State.traps_mapBad rfl rfl rfl hm hw he
    · exact State.traps_mapBad hxT hcT hfT hm hw he
    · exact State.traps_mapBad hxSW hcSW hfSW hm hw he
    · exact State.traps_ldEarly rfl rfl rfl hm hk he
    · exact State.traps_ldEarly hxT hcT hfT hm hk he
    · exact State.traps_ldEarly hxSW hcSW hfSW hm hk he
  · refine ⟨fun w => ⟨State.traps_branch rfl (fun _ => rfl), State.traps_branch rfl (fun _ => rfl), State.traps_branch rfl id,
      State.traps_branch rfl brpTaken_of⟩, fun w => ⟨fun h => State.traps_single rfl (if_pos h), fun hc h => ?_⟩, fun w => ?_⟩
    · exact State.traps_single rfl (if_pos (by rw [hc, Bool.true_and]; exact decide_eq_true h))
    · exact ⟨State.traps_jump rfl, State.traps_jump rfl, traps_barInit s w, traps_barInit_scope s w, State.traps_scope rfl rfl,
        State.traps_scope rfl rfl, State.traps_creg rfl, State.traps_creg rfl, State.traps_phys rfl, State.traps_phys rfl,
        State.traps_phys rfl, fun h => State.traps_single rfl (if_pos h)⟩
  · refine ⟨?_, ?_, ?_, ?_, ?_, ?_, ?_, ?_, ?_, ?_, ?_, ?_, ?_, ?_, ?_, ?_, ?_, ?_, ?_, ?_, State.traps_coords rfl rfl rfl,
      State.traps_coords rfl rfl rfl, State.traps_mask rfl, State.traps_mask rfl, State.traps_mask rfl, State.traps_mask rfl,
      State.traps_mask rfl, fun h => State.traps_vmap rfl (dimOk_high h), fun h => State.traps_vmap rfl (dimOk_high h),
      fun h => State.traps_vmap rfl ?_, traps_vmapSet s w⟩
    iterate 20 exact State.traps_pseudo rfl rfl rfl
    rcases h with h | h | h
    · rw [dimOk_high h]; rfl
    · rw [dimOk_high h, Bool.and_false]; rfl
    · rw [h, Bool.and_false]
  · intro c n size a operands product as xs row
    have prod {i : Instr} {asz bsz : Nat} {fresh : Bool} (hx : exec i s = .next (s.slot i w.hd (s.mmaRes i w asz bsz fresh))) :
        product i asz bsz fresh :=
      ⟨fun hn hg => State.traps_operands hx rfl (by rw [mmaRes_faults hn, hg, List.nil_append]), State.traps_gang hx⟩
    refine ⟨prod rfl, prod rfl, prod rfl, fun hn _ => ?_, fun hn _ => ?_, fun hn _ => ?_, ?_⟩
    · refine State.traps_operands (congrArg (fun r => Host.Outcome.next (s.slot (.mmaG w) w.hd r)) (if_neg hn)) ?_ ?_
      · simp only [SlotRes.readsOf, List.map_map]; rfl
      · simp only [List.map_map]; rfl
    · exact State.traps_operands (congrArg (fun r => Host.Outcome.next (s.slot (.mmaBS w) w.hd r)) (if_neg hn)) rfl rfl
    · exact State.traps_operands (congrArg (fun r => Host.Outcome.next (s.slot (.tload w) w.hd r)) (if_neg hn)) rfl rfl
    · refine ⟨fun hok he hin ha => (traps_tmap_access hok he).1 (List.forall_mem_singleton.mpr hin) ha, fun hok he hf => ?_,
        fun hok he => traps_tmap_bad hok he, fun x hk he => traps_tmap_early hk he⟩
      exact (traps_tmap_access hok he).2 (a, 48) (List.mem_singleton_self _) hf
        (fun y hy _ => Nat.le_of_eq (congrArg Prod.fst (List.mem_singleton.mp hy)).symm)
  · refine ⟨fun w => ?_, fun w => ?_, fun w => ?_, fun w => ?_, fun p l hp hctx hseq hc hd =>
      ⟨fun w => ⟨fun hit => ?_, fun hit => ?_, fun hit => ?_⟩, fun w hit => ?_, fun w hit => ?_⟩⟩
    · and_intros <;> exact State.gives_busy rfl rfl rfl rfl
    · and_intros <;> exact State.gives_busy rfl rfl rfl rfl
    · and_intros <;> exact State.gives_busy rfl rfl rfl rfl
    · and_intros <;> exact State.gives_busy rfl rfl rfl rfl
    · exact State.gives_short rfl (fun y hy => absurd hy List.not_mem_nil) hp hctx hseq hc (early_add w hd hit)
    · exact State.gives_short rfl (fun y hy => absurd hy List.not_mem_nil) hp hctx hseq hc (early_pand w hd hit)
    · exact State.gives_short rfl (fun y hy => (code_pseudoFaults hy).symm ▸ (show (0x0D : Nat) < 0x11 by decide)) hp hctx hseq hc
        (early_vadd s w hd hit)
    · exact State.gives_short rfl (fun y hy => absurd hy List.not_mem_nil) hp hctx hseq hc (early_aadd w hd hit)
    · exact State.gives_short rfl (fun y hy => Nat.lt_of_lt_of_le (show (0x0D : Nat) < 0x20 by decide) (code_memFaults hy)) hp hctx hseq hc
        (early_ldS s w hd hit)

end Sys2Proof.Machine

/-! Engine commands that start (R193, R208, R210): the statement of O60, which leaves out the descriptor that a `DRAIN.core` has
read. A collective that has not begun may already hold its descriptor in `kept` (R193, `Cmd.asKept`); it then goes by those bytes,
and the statement by the bytes that stand in the scratchpad now. -/

namespace Sys2Proof.Machine

/-- A `COLL.AR` with its descriptor at offset 0. -/
def passedWord : EWord :=
  { hd := { unit := .en, stop := true, stall := 0, guard := 0, gneg := false, imm := none }
    tok := 0, a := 0, b := 0, c := 0, q := 5, scope := 0, order := 0, fn := 0 }

/-- That command, not begun, after a `DRAIN.core` has passed on it: the descriptor of 32 bytes that was read asks for one element
of a group 0. -/
def passedCmd : Cmd :=
  { Cmd.new (.collAR passedWord) 5 0 with kept := (List.range 32).map (fun i => (i, if i = 16 then 1 else 0)) }

/-- Its engine, on core 0 with 32 bytes of scratchpad. -/
def passedEng : Eng := { home := .core 0, core := 0, tlb := 0, asid := 0, size := 32, host := 0 }

theorem passedCmd_fresh : passedCmd.fresh := ⟨rfl, rfl, rfl, rfl, rfl, rfl, rfl⟩

/-- The bytes that stand in the scratchpad after a reset are no descriptor: they ask for no element (R208). -/
theorem scratchpad_descriptor_bad :
    (cmdColl { passedCmd with blob := State.reset.engPad passedEng passedCmd.aOff 32 }).bad = true := by decide

/-- The command goes by the descriptor that was read, whose group is not configured (R210). -/
theorem passedCmd_err : (State.reset.runCmd passedEng passedCmd).2.err = 0x30 := by decide

/-- Refutes O60: a `COLL` whose descriptor a `DRAIN.core` has read ends with ERR 0x30 by that descriptor, where the statement asks
for ERR 0x02 by the bytes that have replaced it in the scratchpad. -/
theorem not_engineServiceResults : ¬ Obligations.EngineServiceResults := by
  rintro ⟨-, coll, -⟩
  obtain ⟨started, -⟩ := coll State.reset passedEng passedCmd passedWord passedCmd_fresh
  obtain ⟨-, within⟩ := started (.inl rfl)
  obtain ⟨ends, bad, -⟩ := within (Nat.le_refl 32)
  obtain ⟨⟨-, err, -⟩, -⟩ := ends 0x02 (bad scratchpad_descriptor_bad)
  exact absurd (passedCmd_err.symm.trans err) (by decide)

end Sys2Proof.Machine

/-! The host's commands (R89, R273, R278, R355, R361 to R363, R391, R393): the statement of O29. -/

namespace Sys2Proof.Machine

/-! ## A command of the host, taken and answered -/

section
variable {s t : State} {i : Instr} {op : Nat} {run : State → Packet → State × HostEnd} {a : Answer}

/-- A stream that is not open delivers nothing (R361, R391). -/
theorem State.hostCmd_closed (he : s.ev = .none) (hs : s.streams.get s.pkt.stream.toFin = none) : s.hostCmd i op run = s := by
  have hn : (s.ev == .none && (s.streams.get ⟨s.pkt.stream.toNat, s.pkt.stream.isLt⟩).isNone) = true := by
    rw [Bool.and_eq_true, beq_iff_eq]
    exact ⟨he, Option.isNone_iff_eq_none.mpr hs⟩
  exact if_pos hn

/-- A command on an open stream, behind none that waits: its packet is checked, and it runs (R361). -/
theorem State.hostCmd_taken (hop : (i.hostOp.getD 0).toNat = op)
    (ht : s.ev = .none → (s.streams.get s.pkt.stream.toFin).isSome ∧ (s.taken i).mustWait s.pkt i = false) :
    s.hostCmd i op run = if packetBad s.pkt then (s.taken i).respond op Answer.bad
      else match run (s.taken i) s.pkt with
        | (s, .answer a) => s.respond op a
        | (t, .hold) => { t with heldCmds := { instr := i, arg := againArg t.ev, pkt := some s.pkt } :: t.heldCmds } := by
  subst hop
  unfold State.hostCmd State.taken
  by_cases he : s.ev = .none
  · obtain ⟨hopen, hfree⟩ := ht he
    rw [State.taken, if_pos he] at hfree
    have hs : (s.streams.get ⟨s.pkt.stream.toNat, s.pkt.stream.isLt⟩).isNone = false := Option.isNone_eq_false_iff.mpr hopen
    simp only [he, beq_self_eq_true, hs, hfree, Bool.and_false, Bool.false_eq_true, if_false, if_true] <;> rfl
  · have hb : (s.ev == .none) = false := beq_eq_false_iff_ne.mpr he
    simp only [he, hb, Bool.false_and, Bool.false_eq_true, if_false] <;> rfl

/-- A command that answers. -/
theorem State.answers_of (hx : exec i s = .next (s.hostCmd i op run)) (hop : (i.hostOp.getD 0).toNat = op)
    (hr : run (s.taken i) s.pkt = (t, .answer a)) : s.answers i op t a := by
  intro ⟨hgood, ht⟩
  rw [hx, State.hostCmd_taken hop ht, hgood, hr]
  rfl

/-- A command whose arguments are in order. -/
theorem State.answers_args {m0 m1 : Nat} {len : Nat → Bool} {f : State → Packet → State × Answer}
    (hx : exec i s = .next (s.hostCmd i op (answering (withArgs m0 m1 len f)))) (hop : (i.hostOp.getD 0).toNat = op)
    (h0 : s.pkt.arg0 &&& ~~~(BitVec.ofNat 64 m0) = 0) (h1 : s.pkt.arg1 &&& ~~~(BitVec.ofNat 64 m1) = 0)
    (hl : len s.pkt.payload.length = true) (hf : f (s.taken i) s.pkt = (t, a)) : s.answers i op t a := by
  refine State.answers_of hx hop ?_
  have hok : (onlyBits s.pkt.arg0 m0 && onlyBits s.pkt.arg1 m1 && len s.pkt.payload.length) = true := by
    rw [Bool.and_eq_true, Bool.and_eq_true]
    exact ⟨⟨beq_iff_eq.mpr h0, beq_iff_eq.mpr h1⟩, hl⟩
  have hw : withArgs m0 m1 len f (s.taken i) s.pkt = (t, a) := (if_pos hok).trans hf
  unfold answering
  rw [hw]

end

theorem State.taken_ev (s : State) (i : Instr) : (s.taken i).ev = s.ev := by
  unfold State.taken State.captureCmd
  split
  · split <;> rfl
  · rfl

theorem noPayload_of {p : Packet} (h : p.payload = []) : noPayload p.payload.length = true := by rw [h]; rfl

theorem onlyBits_zero {x : Word} (h : x = 0) (m : Nat) : x &&& ~~~(BitVec.ofNat 64 m) = 0 := by rw [h]; exact BitVec.zero_and

theorem physOk_of {p : Packet} (h : p.arg1.getLsbD 8 → p.arg0.toNat < 2 ^ 52) : physOk p = true := by
  unfold physOk
  cases hb : p.arg1.getLsbD 8
  · rfl
  · exact decide_eq_true (h hb)

/-! ## The commands -/

section
variable {s : State}

/-- The answers of `SUBMIT` (R89, R363). -/
theorem hostSubmit_queued {p : Packet} {q : Nat}
    (h : (s.submitTcb (firmwareCluster 0) (p.arg1.extractLsb' 0 8) p.arg0.toNat none (some p.stream)).2 = .queued q) :
    s.hostSubmit p = ((s.submitTcb (firmwareCluster 0) (p.arg1.extractLsb' 0 8) p.arg0.toNat none (some p.stream)).1, Answer.done q) := by
  unfold State.hostSubmit
  generalize s.submitTcb (firmwareCluster 0) (p.arg1.extractLsb' 0 8) p.arg0.toNat none (some p.stream) = r at h
  obtain ⟨t, x⟩ := r
  obtain rfl : x = _ := h
  rfl

theorem hostSubmit_refused {p : Packet} {x : BitVec 7}
    (h : (s.submitTcb (firmwareCluster 0) (p.arg1.extractLsb' 0 8) p.arg0.toNat none (some p.stream)).2 = .refused x) :
    s.hostSubmit p
      = ((s.submitTcb (firmwareCluster 0) (p.arg1.extractLsb' 0 8) p.arg0.toNat none (some p.stream)).1, Answer.fail (x.zeroExtend 8)) := by
  unfold State.hostSubmit
  generalize s.submitTcb (firmwareCluster 0) (p.arg1.extractLsb' 0 8) p.arg0.toNat none (some p.stream) = r at h
  obtain ⟨t, y⟩ := r
  obtain rfl : y = _ := h
  rfl

/-- `SUBMIT` once no control core's firmware is being reloaded (R354). -/
theorem answers_submit (he : s.pkt.payload = []) (h0 : s.pkt.arg0 &&& ~~~(BitVec.ofNat 64 addrBits) = 0)
    (h1 : s.pkt.arg1 &&& ~~~(BitVec.ofNat 64 0xFF) = 0) (hg : ∀ g : Fin 8, ((s.taken .submit).groupAt g).down = false) {t : State} {a : Answer}
    (hr : (s.taken .submit).hostSubmit s.pkt = (t, a)) : s.answers .submit 0x01 t a := by
  have hup : (s.taken .submit).groups.toList.any (·.down) = false := by
    rw [List.any_eq_false]
    intro g hm
    obtain ⟨i, hi, rfl⟩ := Vector.mem_iff_getElem.mp (Vector.mem_toList_iff.mp hm)
    exact Bool.eq_false_iff.mp (hg ⟨i, hi⟩)
  refine State.answers_of rfl rfl ?_
  have hok : (onlyBits s.pkt.arg0 addrBits && onlyBits s.pkt.arg1 0xFF && noPayload s.pkt.payload.length) = true := by
    rw [Bool.and_eq_true, Bool.and_eq_true]
    exact ⟨⟨beq_iff_eq.mpr h0, beq_iff_eq.mpr h1⟩, noPayload_of he⟩
  have hw : withArgs addrBits 0xFF noPayload State.hostSubmit (s.taken .submit) s.pkt = (t, a) := (if_pos hok).trans hr
  simp only [hup, Bool.false_eq_true, if_false, answering, hw]

theorem answers_memwr (h0 : s.pkt.arg0 &&& ~~~(BitVec.ofNat 64 addrBits) = 0) (h1 : s.pkt.arg1 &&& ~~~(BitVec.ofNat 64 0x1FF) = 0)
    (hp : s.pkt.arg1.getLsbD 8 → s.pkt.arg0.toNat < 2 ^ 52) :
    s.answers .memwr 0x02
      ((s.taken .memwr).hostWrite (s.pkt.arg1.getLsbD 8) (s.pkt.arg1.extractLsb' 0 8) (hostRange s.pkt s.pkt.payload.length) s.pkt.payload 0).1
      ((s.taken .memwr).hostWrite (s.pkt.arg1.getLsbD 8) (s.pkt.arg1.extractLsb' 0 8) (hostRange s.pkt s.pkt.payload.length) s.pkt.payload 0).2 :=
  State.answers_args rfl rfl h0 h1 rfl (if_neg (by rw [physOk_of hp]; decide))

theorem answers_memrd (he : s.pkt.payload = []) (h0 : s.pkt.arg0 &&& ~~~(BitVec.ofNat 64 addrBits) = 0)
    (h1 : s.pkt.arg1 &&& ~~~(BitVec.ofNat 64 (0xFFF * 2 ^ 32 + 0x1FF)) = 0) (hn : (s.pkt.arg1.extractLsb' 32 12).toNat ≠ 0)
    (hm : (s.pkt.arg1.extractLsb' 32 12).toNat ≤ 4064) (hp : s.pkt.arg1.getLsbD 8 → s.pkt.arg0.toNat < 2 ^ 52) :
    s.answers .memrd 0x03
      ((s.taken .memrd).hostRead (s.pkt.arg1.getLsbD 8) (s.pkt.arg1.extractLsb' 0 8) (hostRange s.pkt (s.pkt.arg1.extractLsb' 32 12).toNat) []).1
      ((s.taken .memrd).hostRead (s.pkt.arg1.getLsbD 8) (s.pkt.arg1.extractLsb' 0 8) (hostRange s.pkt (s.pkt.arg1.extractLsb' 32 12).toNat) []).2 := by
  refine State.answers_args rfl rfl h0 h1 (noPayload_of he) (if_neg ?_)
  rw [physOk_of hp, decide_eq_false hn, decide_eq_false (Nat.not_lt.mpr hm)]
  decide

/-- `HUNBIND` whose handle no `CPYH` uses (R278). -/
theorem answers_hunbind {t : State} {pa : Nat}
    (ha : (s.taken .hunbind).hostAddr false (s.pkt.arg1.extractLsb' 0 8) (s.pkt.arg0.toNat + 20) 1 .write = (t, some pa))
    (he : s.pkt.payload = []) (h0 : s.pkt.arg0 &&& ~~~(BitVec.ofNat 64 addrBits) = 0) (h1 : s.pkt.arg1 &&& ~~~(BitVec.ofNat 64 0xFF) = 0)
    (hev : isAgain s.ev = false) (hu : (t.pwrite pa [memGet t.mem pa &&& ~~~1]).usesHandle (s.pkt.arg1.extractLsb' 0 8) s.pkt.arg0.toNat = false) :
    s.answers .hunbind 0x07 (t.pwrite pa [memGet t.mem pa &&& ~~~1]) (Answer.done 0) := by
  refine State.answers_of (run := State.hostUnbind) rfl rfl ?_
  have hok : (onlyBits s.pkt.arg0 addrBits && onlyBits s.pkt.arg1 0xFF && s.pkt.payload == []) = true := by
    rw [Bool.and_eq_true, Bool.and_eq_true]
    exact ⟨⟨beq_iff_eq.mpr h0, beq_iff_eq.mpr h1⟩, beq_iff_eq.mpr he⟩
  unfold State.hostUnbind
  simp only [hok, State.taken_ev, hev, ha, hu, Bool.not_true, Bool.false_eq_true, if_false]

end

/-- `ABORT` of the first task that the address names and that has not failed (R355). -/
theorem answers_abort {s t : State} {a : Answer} (he : s.pkt.payload = []) (h0 : s.pkt.arg0 &&& ~~~(BitVec.ofNat 64 addrBits) = 0) (h1 : s.pkt.arg1 = 0)
    (hr : (match (s.taken .abort).tasks.find? (fun t => t.alive && t.failure.isNone && t.tcba == s.pkt.arg0.extractLsb' 0 56) with
      | some t => ({ (s.taken .abort).abortTask t with
          resumes := ((s.taken .abort).abortTask t).resumes.filter (fun i => i != t.id) }, Answer.done 1)
      | none => (s.taken .abort, Answer.done 0)) = (t, a)) : s.answers .abort 0x20 t a :=
  State.answers_args rfl rfl h0 (onlyBits_zero h1 0) (noPayload_of he) hr

/-- The commands of the host, with their numbers (R363, R384). -/
def hostOps : List (Instr × Nat) :=
  [(.submit, 0x01), (.memwr, 0x02), (.memrd, 0x03), (.root, 0x04), (.inval, 0x05), (.resume, 0x06), (.hunbind, 0x07), (.qcfg, 0x10)
  , (.scfg, 0x11), (.kvcfg, 0x12), (.seqload, 0x13), (.stepgrp, 0x14), (.ftab, 0x15), (.collgrp, 0x16), (.rtabcfg, 0x17)
  , (.domcfg, 0x18), (.abort, 0x20), (.attest, 0x21), (.dhalt, 0x30), (.dresume, 0x31), (.dread, 0x32), (.dbrk, 0x33), (.dprof, 0x34)
  , (.dmaster, 0x35), (.statring, 0x36), (.capture, 0x37), (.framerel, 0x38)]

/-- Every one of them is taken as a command of its stream. -/
theorem exec_hostOps (s : State) : ∀ x ∈ hostOps,
    (∃ run, exec x.1 s = .next (s.hostCmd x.1 x.2 run)) ∧ (x.1.hostOp.getD 0).toNat = x.2 := by
  unfold hostOps
  iterate 27 refine List.forall_mem_cons.mpr ⟨⟨⟨_, rfl⟩, rfl⟩, ?_⟩
  exact List.forall_mem_nil _

/-- Settles O29: what each command's run answers, and the two ways in which none runs. -/
theorem hostCommandResults : Obligations.HostCommandResults := by
  refine ⟨fun s => ⟨fun he h0 h1 hg => ⟨fun q hq => ?_, fun x hx => ?_⟩, answers_memwr, answers_memrd, fun he h0 h1 => ?_,
    fun t pa ha => answers_hunbind ha, fun he h0 h1 => ⟨fun hn => ?_, fun t ht => ?_⟩, fun hl h0 h1 => ?_⟩, fun s i op hi => ?_⟩
  · exact answers_submit he h0 h1 hg (hostSubmit_queued hq)
  · exact answers_submit he h0 h1 hg (hostSubmit_refused hx)
  · exact State.answers_args rfl rfl h0 h1 (noPayload_of he) rfl
  · exact answers_abort he h0 h1 (by rw [hn])
  · exact answers_abort he h0 h1 (by rw [ht])
  · exact State.answers_args rfl rfl (onlyBits_zero h0 0) (onlyBits_zero h1 0) (beq_iff_eq.mpr hl) rfl
  · obtain ⟨⟨run, hx⟩, hop⟩ := exec_hostOps s (i, op) hi
    refine ⟨fun he hs => hx.trans (congrArg Host.Outcome.next (State.hostCmd_closed he hs)), fun hb ht => ?_⟩
    rw [hx, State.hostCmd_taken hop ht, if_pos hb]

end Sys2Proof.Machine

/-! Scans, holds and soft errors (R103, R352, R353, R402 to R404): the statement of O35. -/

namespace Sys2Proof.Machine

/-! ## Scans and holds -/

section
variable {s : State} {c : Fin 208}

/-- A scan that has run its time and finds the core in order (R403). -/
theorem exec_scanComplete_match (he : s.ev = .core c) (hr : (s.coreAt c).scan.running = true) (ha : (s.coreAt c).scan.aborting = false)
    (ht : (s.coreAt c).scan.start + Config.scanCycles ≤ s.cycle) (hm : Config.scanMatches c.val s.freeCtr = true) :
    exec .scanComplete s = .next ((((({ s with freeCtr := s.freeCtr + 1 } : State).updCore c (fun y => { y with scan := { y.scan with
      running := false, last := 1, elapsed := 200, sig := Config.scanSignature c.val s.freeCtr, by_ := none, head := none } })).endHolds c).1.scanToken
        (s.coreAt c).scan.by_ 0 (Config.scanSignature c.val s.freeCtr).toNat).kick) := by
  change execScanComplete s = _
  unfold execScanComplete
  simp only [he, hr, ha, hm, Nat.not_lt.mpr ht, Bool.not_true, decide_false, Bool.or_false, Bool.false_eq_true, if_false, if_true]

/-- A scan that does not match: its SCAN_FAIL record, and ERR 0x01 (R404). -/
theorem exec_scanComplete_mismatch (he : s.ev = .core c) (hr : (s.coreAt c).scan.running = true) (ha : (s.coreAt c).scan.aborting = false)
    (ht : (s.coreAt c).scan.start + Config.scanCycles ≤ s.cycle) (hm : Config.scanMatches c.val s.freeCtr = false) :
    exec .scanComplete s = .next (((((({ s with freeCtr := s.freeCtr + 1 } : State).updCore c (fun y => { y with scan := { y.scan with
      running := false, last := 2, elapsed := 200, sig := Config.scanSignature c.val s.freeCtr, by_ := none, head := none } })).record c 0x5C 0
        (s.coreAt c).scan.baddr (BitVec.ofNat 64 (c.val % 25)) []).endHolds c).1.scanToken
          (s.coreAt c).scan.by_ 1 (Config.scanSignature c.val s.freeCtr).toNat).kick) := by
  change execScanComplete s = _
  unfold execScanComplete
  simp only [he, hr, ha, hm, Nat.not_lt.mpr ht, Bool.not_true, decide_false, Bool.or_false, Bool.false_eq_true, if_false]
  rfl

/-- A scan under abort ends (R103, R402). -/
theorem exec_scanAbortComplete (he : s.ev = .core c) (hr : (s.coreAt c).scan.running = true) (ha : (s.coreAt c).scan.aborting = true) :
    let u := (s.updCore c (fun y => { y with scan := { y.scan with
      running := false, aborting := false, last := 3
      elapsed := BitVec.ofNat 29 ((s.cycle - (s.coreAt c).scan.start) / Config.cyclesPerMicro), by_ := none, head := none } })).endHolds c
    exec .scanAbortComplete s = .next (((u.1.scanToken (s.coreAt c).scan.by_ 2 (s.cycle - (s.coreAt c).scan.start)).placeHead (groupOf c)
      (s.coreAt c).scan.head u.2).kick) := by
  change execScanAbortComplete s = _
  unfold execScanAbortComplete
  simp only [he, hr, ha, Bool.not_true, Bool.or_false, Bool.false_eq_true, if_false]

/-- A hold that no `SCAN.START` has come for (R402). -/
theorem exec_holdExpire {h : HoldRef} {x : Hold} (he : s.ev = .hold h)
    (hf : (s.groupAt h.group).holds.find? (fun y => y.entry == h.entry.val && y.since == h.since) = some x)
    (hr : (s.coreAt (physCore h.group x.old)).scan.running = false) :
    exec .holdExpire s = .next (s.updGroup h.group (fun y => { y with
      holds := y.holds.filter (fun x => !(x.entry == h.entry.val && x.since == h.since)) })).kick := by
  change execHoldExpire s = _
  unfold execHoldExpire
  simp only [he, hf, hr, Bool.false_eq_true, if_false]

end

/-! ## Soft errors -/

section
variable {s : State} {e : SoftError}

/-- Scrubbing begins with the end of boot (R388). -/
theorem exec_scrub_boot (hs : s.stage ≠ 6) : exec .scrub s = .next s := by
  change execScrub s = _
  unfold execScrub
  split
  · rw [if_pos hs]
  · rfl

/-- A corrected error is recorded and nothing else happens (R352). -/
theorem exec_scrub_corrected (hs : s.stage = 6) (he : s.ev = .soft e) (hc : e.uncorrectable = false) :
    ∃ g core loc, exec .scrub s = .next (s.recordAt g core 0x58 0 0 loc []) ∧ ∀ pa, e.place = .deviceMemory pa → loc = BitVec.ofNat 64 pa := by
  change ∃ g core loc, execScrub s = _ ∧ _
  unfold execScrub
  simp only [he, hs, ne_eq, not_true, if_false, hc]
  cases e.place with
  | deviceMemory pa => exact ⟨_, _, _, rfl, fun _ h => congrArg (BitVec.ofNat 64) (ErrorPlace.deviceMemory.inj h)⟩
  | corePool core bank row => exact ⟨_, _, _, rfl, fun _ h => ErrorPlace.noConfusion h⟩
  | codeBuffer core line => exact ⟨_, _, _, rfl, fun _ h => ErrorPlace.noConfusion h⟩
  | tlb cluster i => exact ⟨_, _, _, rfl, fun _ h => ErrorPlace.noConfusion h⟩
  | walkCache g i => exact ⟨_, _, _, rfl, fun _ h => ErrorPlace.noConfusion h⟩
  | clusterSlice cluster r => exact ⟨_, _, _, rfl, fun _ h => ErrorPlace.noConfusion h⟩
  | controlPad g => exact ⟨_, _, _, rfl, fun _ h => ErrorPlace.noConfusion h⟩

/-- An uncorrectable error in device memory: the word is poisoned (R353). -/
theorem exec_scrub_memory {pa : Nat} {met : Bool} (hs : s.stage = 6)
    (he : s.ev = .soft { place := .deviceMemory pa, uncorrectable := true, met := met }) :
    let u : State := { s with poison := pa / 8 * 8 :: s.poison.filter (fun p => p != pa / 8 * 8) }
    exec .scrub s = .next (if met then u else u.recordAt (stackOf pa) (32 * (stackOf pa).val + 31) 0x5A 0 0 (BitVec.ofNat 64 pa) []) := by
  change execScrub s = _
  unfold execScrub
  simp only [he, hs, ne_eq, not_true, if_false, Bool.not_true, Bool.false_eq_true]
  rfl

theorem exec_scrub_pool {core : Fin 200} {bank row : Nat} {met : Bool} (hs : s.stage = 6)
    (he : s.ev = .soft { place := .corePool core bank row, uncorrectable := true, met := met }) :
    exec .scrub s = .next (s.poolError (computeCore core) (bank % Config.poolBanks) (row % 128) met) := by
  change execScrub s = _
  unfold execScrub
  simp only [he, hs, ne_eq, not_true, if_false, if_true]

theorem exec_scrub_code {core : Fin 208} {line : Nat} {met : Bool} (hs : s.stage = 6)
    (he : s.ev = .soft { place := .codeBuffer core line, uncorrectable := true, met := met }) :
    exec .scrub s = .next ((s.recordAt (groupOf core) (coreId core) 0x58 0 0 (BitVec.ofNat 64 (64 * line)) []).updCore core
      (fun y => { y with ibuf := y.ibuf.filter (fun l => l.1 != line) })) := by
  change execScrub s = _
  unfold execScrub
  simp only [he, hs, ne_eq, not_true, if_false, if_true]
  rfl

/-- An entry of the TLB or of a walk cache is dropped, and the rest is as before but for the record. -/
theorem exec_scrub_tlb {cluster : Fin 48} {i : Nat} {met : Bool} (hs : s.stage = 6)
    (he : s.ev = .soft { place := .tlb cluster i, uncorrectable := true, met := met }) :
    ∃ u, exec .scrub s = .next u ∧ u.tlbs = s.tlbs.set cluster ((s.tlbs.get cluster).eraseIdx i) ∧ u.mem = s.mem ∧ u.tasks = s.tasks
      ∧ u.cores = s.cores := by
  change ∃ u, execScrub s = _ ∧ _
  unfold execScrub
  simp only [he, hs, ne_eq, not_true, if_false, if_true]
  exact ⟨_, rfl, rfl, rfl, rfl, rfl⟩

theorem exec_scrub_walk {g : Fin 8} {i : Nat} {met : Bool} (hs : s.stage = 6)
    (he : s.ev = .soft { place := .walkCache g i, uncorrectable := true, met := met }) :
    ∃ u, exec .scrub s = .next u ∧ u.walkers = s.walkers.set g ((s.walkers.get g).eraseIdx i) ∧ u.mem = s.mem ∧ u.tasks = s.tasks
      ∧ u.cores = s.cores := by
  change ∃ u, execScrub s = _ ∧ _
  unfold execScrub
  simp only [he, hs, ne_eq, not_true, if_false, if_true]
  exact ⟨_, rfl, rfl, rfl, rfl, rfl⟩

/-- A piece of the cluster slice: its command ends with ERR 0x05. -/
theorem exec_scrub_slice {cluster : Fin 48} {r : CmdRef} {h : CmdHome} {c : Cmd} {met : Bool} (hs : s.stage = 6)
    (he : s.ev = .soft { place := .clusterSlice cluster (some r), uncorrectable := true, met := met }) (hf : s.findCmd r = some (h, c))
    (hc : c.state ≠ .done) :
    exec .scrub s = .next ((s.failCmd (s.eng (homeRef h c) h) c 0x05).1.putCmdAt h (s.failCmd (s.eng (homeRef h c) h) c 0x05).2) := by
  have hd : (c.state == .done) = false := beq_eq_false_iff_ne.mpr hc
  change execScrub s = _
  unfold execScrub
  simp only [he, hs, hf, hd, ne_eq, not_true, if_false, Bool.not_true, Bool.false_eq_true, Option.bind_some]

theorem exec_scrub_control {g : Fin 8} {met : Bool} (hs : s.stage = 6)
    (he : s.ev = .soft { place := .controlPad g, uncorrectable := true, met := met }) : exec .scrub s = .next (s.resetControl g) := by
  change execScrub s = _
  unfold execScrub
  simp only [he, hs, ne_eq, not_true, if_false, if_true]

end

/-- The place of a row of a pool, as a word. -/
theorem ofNat_poolPlace (b r : Nat) : BitVec.ofNat 64 (4096 * b + 32 * r) = 4096 * (b : Word) + 32 * (r : Word) := by
  rw [BitVec.ofNat_add, BitVec.ofNat_mul, BitVec.ofNat_mul]
  rfl

theorem State.taskAt_updTeam (s : State) (c : Fin 208) (f : Team → Team) : (s.updTeam c f).taskAt c = s.taskAt c := by
  have h : ((s.updTeam c f).coreAt c).task = (s.coreAt c).task := by
    unfold State.updTeam
    rw [State.coreAt_updCore]
  unfold State.taskAt
  rw [h]
  rfl

/-- The record of an uncorrectable error in a core's pool, and the row rewritten with zeros unless the core has met it (R353). -/
def State.poolCleared (s : State) (c : Fin 208) (b r : Nat) (met : Bool) : State :=
  let u := s.recordAt (groupOf c) (coreId c) 0x59 0 0 (BitVec.ofNat 64 (4096 * b + 32 * r)) []
  if met then u else u.updTeam c (fun t => t.clearRow b r)

theorem State.taskAt_poolCleared (s : State) (c : Fin 208) (b r : Nat) (met : Bool) : (s.poolCleared c b r met).taskAt c = s.taskAt c := by
  unfold State.poolCleared
  dsimp only
  split
  · rfl
  · exact State.taskAt_updTeam _ c _

/-- Such an error makes the task of the core fail when it was met, or is in what the task uses. -/
theorem State.poolError_eq (s : State) (c : Fin 208) (b r : Nat) (met : Bool) :
    s.poolError c b r met = match s.taskAt c with
      | none => s.poolCleared c b r met
      | some t => if met || rowUsed (s.coreAt c).team t.tcb.fps b r then
          (s.poolCleared c b r met).failTask t.id { status := 1, cause := 0x59, detail := BitVec.ofNat 64 (4096 * b + 32 * r), member := memberOf t c }
        else s.poolCleared c b r met := by
  have hu : (s.softRecord .sramUe (coreId c) (groupOf c) (4096 * b + 32 * r)).taskAt c = s.taskAt c := rfl
  have hv := s.taskAt_poolCleared c b r met
  change (match (s.poolCleared c b r met).taskAt c with | some t => _ | none => _) = _
  rw [hv, hu]
  cases ht : s.taskAt c with
  | none => rfl
  | some t => rfl

/-- Settles O35, event by event, and of a soft error place by place. -/
theorem scanAndErrorEventResults : Obligations.ScanAndErrorEventResults := by
  refine fun s => ⟨fun c he => ⟨fun hr ha ht hm => exec_scanComplete_match he hr ha ht hm, fun hr ha ht hm => exec_scanComplete_mismatch he hr ha ht hm,
    fun hr ha => exec_scanAbortComplete he hr ha⟩, fun h x he => fun hf hr => exec_holdExpire he hf hr, exec_scrub_boot, fun hs => ?_⟩
  refine ⟨fun e he hc => exec_scrub_corrected hs he hc, fun pa met he => exec_scrub_memory hs he, fun core bank row met he => ?_,
    fun core line met he => exec_scrub_code hs he, fun cluster i met he => exec_scrub_tlb hs he, fun g i met he => exec_scrub_walk hs he,
    fun cluster r h c met he hf hc => ⟨⟨rfl, rfl, rfl⟩, exec_scrub_slice hs he hf hc⟩, fun g met he => exec_scrub_control hs he⟩
  have hpool := (exec_scrub_pool hs he).trans (congrArg Host.Outcome.next (s.poolError_eq ..))
  refine ⟨fun ht => ?_, fun t ht => ?_⟩
  · rw [hpool, ht]; rfl
  · rw [hpool, ht]
    dsimp only
    rw [← ofNat_poolPlace]
    rfl

end Sys2Proof.Machine

/-! Facts about vector words (R124 to R158): lists of results, the registers and predicates made from them, and the words that write
one. The results of the vector and coordinate instructions, below, go through these. -/

namespace Sys2Proof.Machine

/-! ## Lists of results -/

/-- An element of a list computed by number, or the default beyond its end. -/
theorem getD_map_range {α : Type} (f : Nat → α) (n j : Nat) (d : α) : ((List.range n).map f).getD j d = if j < n then f j else d := by
  by_cases h : j < n
  · rw [List.getD_eq_getElem _ _ (by simpa using h), List.getElem_map, List.getElem_range, if_pos h]
  · rw [List.getD_eq_default _ _ (by simpa using h), if_neg h]

/-- The groups of a list, by number. -/
theorem chunked_eq {α : Type} (n k : Nat) (l : List α) : chunked n k l = (List.range k).map (fun h => (l.drop (n * h)).take n) := by
  induction k generalizing l with
  | zero => rfl
  | succ k ih =>
    rw [List.range_succ_eq_map, List.map_cons, List.map_map, chunked, ih]
    refine congrArg₂ List.cons (by rw [Nat.mul_zero, List.drop_zero]) (List.map_congr_left fun h _ => ?_)
    rw [List.drop_drop, Function.comp_apply, Nat.mul_succ, Nat.add_comm]

/-- An element of a list of lists that all have k elements. -/
theorem getD_flatten_uniform {α : Type} {k : Nat} (hk : 0 < k) (l : List (List α)) (hl : ∀ x ∈ l, x.length = k) (j : Nat) (d : α) :
    l.flatten.getD j d = (l.getD (j / k) []).getD (j % k) d := by
  induction l generalizing j with
  | nil => rfl
  | cons x r ih =>
    have hx : x.length = k := hl x (List.mem_cons_self ..)
    rw [List.flatten_cons]
    by_cases h : j < k
    · rw [List.getD_append _ _ _ _ (hx ▸ h), Nat.div_eq_of_lt h, Nat.mod_eq_of_lt h, List.getD_cons_zero]
    · have hd : j / k = (j - k) / k + 1 := Nat.div_eq_sub_div hk (Nat.le_of_not_lt h)
      rw [List.getD_append_right _ _ _ _ (hx ▸ Nat.le_of_not_lt h), hx, ih (fun y hy => hl y (List.mem_cons_of_mem _ hy)), hd,
        List.getD_cons_succ, Nat.mod_eq_sub_mod (Nat.le_of_not_lt h)]

theorem length_flatten_uniform {α : Type} {k : Nat} (l : List (List α)) (hl : ∀ x ∈ l, x.length = k) :
    l.flatten.length = l.length * k := by
  rw [List.length_flatten, List.map_congr_left hl, List.map_const', List.sum_replicate, smul_eq_mul]

/-- Numbers of w bits joined are a number of w bits for each. -/
theorem packBits_lt (w : Nat) (l : List Nat) : packBits w l < 2 ^ (w * l.length) := by
  induction l with
  | nil => simp [packBits]
  | cons e r ih =>
    have hc : packBits w (e :: r) = packBits w r <<< w ||| e % 2 ^ w := rfl
    have he : e % 2 ^ w < 2 ^ w := Nat.mod_lt _ (Nat.two_pow_pos w)
    rw [hc, List.length_cons, Nat.mul_succ]
    exact Nat.or_lt_two_pow (by rw [Nat.shiftLeft_eq, pow_add]; exact Nat.mul_lt_mul_of_pos_right ih (Nat.two_pow_pos w))
      (he.trans_le (Nat.pow_le_pow_right (by decide) (Nat.le_add_left ..)))

/-- Elements above those that are written are zero. -/
theorem elem_packBits_getD (w : Nat) (l : List Nat) (i : Nat) (h : i < elemCount w) :
    elem (BitVec.ofNat 4096 (packBits w l)) i w = l.getD i 0 % 2 ^ w := by
  by_cases hi : i < l.length
  · rw [elem_packBits w l i h hi, List.getD_eq_getElem _ _ hi]
  · have hlt := (packBits_lt w l).trans_le (Nat.pow_le_pow_right (by decide) (Nat.mul_le_mul_left w (Nat.le_of_not_lt hi)))
    rw [elem_ofNat _ _ _ (elemCount_le w i h), Nat.shiftRight_eq_div_pow, Nat.div_eq_of_lt hlt, List.getD_eq_default _ _ (Nat.le_of_not_lt hi)]

/-! ## Results and their exceptions -/

/-- The result of an element for which a list holds none. -/
def noResult : Nat × Exc := (0, excNone)

/-- The exceptions of the active results of a list that is no longer than the elements. -/
theorem exceptions_of_list (g : PredBits) (b n : Nat) (l : List (Nat × Exc)) (h : l.length ≤ n) :
    ((l.zip (List.range n)).filter (fun p => active g b p.2)).map (·.1.2)
      = ((List.range l.length).filter (active g b)).map (fun j => (l.getD j noResult).2) := by
  have hz : l.zip (List.range n) = ((List.range l.length).map (fun j => l.getD j noResult)).zip (List.range l.length) := by
    apply List.ext_getElem
    · simpa using h
    · intro j h1 h2
      have hj : j < l.length := by simpa using h2
      simp [hj]
  rw [hz, activeExc_eq]

/-- The exceptions of the active elements, of results computed one by one. -/
theorem activeExc_map_range (g : PredBits) (b n : Nat) (f : Nat → Nat × Exc) :
    activeExc g b ((List.range n).map f) = ((List.range n).filter (active g b)).map (fun j => (f j).2) := by
  rw [activeExc, List.length_map, List.length_range, activeExc_eq]

/-- Results computed one by one, as a register. -/
theorem ofNat_packBits_fst (b : Nat) (f : Nat → Nat × Exc) :
    BitVec.ofNat 4096 (packBits b (((List.range (elemCount b)).map f).map (·.1))) = vecOf b (fun j => (f j).1) := by
  rw [List.map_map]; rfl

/-! ## Sources of a vector word -/

/-- With a pseudo-operand that reads a map alone, the map is the destination's (R45). -/
theorem srcMapReg_pseudo (d : Nat) {a : Reg6} (h : mapPseudo a = true) : srcMapReg d [a] = d := by
  have hr : ∀ a : Reg6, mapPseudo a = true → realV [a] = [] := by decide
  rw [srcMapReg, hr a h, List.headD_nil]

/-- The register that such a word reads a map through, in the words of the statements. -/
theorem mapPseudo_reads (d : Nat) (a : Reg6) :
    (if [a].any mapPseudo then [srcMapReg d [a]] else []) = if mapPseudo a then [d] else [] := by
  rw [List.any_cons, List.any_nil, Bool.or_false]
  split
  case isTrue h => rw [srcMapReg_pseudo d h]
  case isFalse => rfl

/-! ## Words that write a vector or a predicate register -/

theorem tyWidth_cases (t : BitVec 4) : tyWidth t = 4 ∨ tyWidth t = 8 ∨ tyWidth t = 16 ∨ tyWidth t = 32 := by revert t; decide

/-- A hazard depends on the maps, registers and bytes that a word reads alone. -/
theorem State.unhindered_of_reads {s : State} {i : Instr} {h : Head} {r r' : SlotRes} (hm : r.maps = r'.maps) (hd : r.data = r'.data)
    (hr : r.reads = r'.reads) (hu : s.unhindered i h r') : s.unhindered i h r := by
  unfold State.unhindered stallFaults at *
  rwa [hm, hd, hr]

/-- An element is below 2^b. -/
theorem elem_mod (x : VecBits) (j b : Nat) : (elem x j b : Int) = (elem x j b : Int) % (2 ^ b : Nat) := by
  norm_cast
  exact (Nat.mod_mod ..).symm

section
variable {s : State} {i : Instr} {w : RWord} {chk r : SlotRes} {lat : Nat}

/-- A word whose effects write a predicate element by element, and record exceptions. -/
theorem State.writesPred_of {t : BitVec 4} {es : List Exc} {ex : List Effect} {f : Nat → Bool} (g : Nat → Bool)
    (hx : exec i s = .next (s.slot i w.hd r))
    (he : r.effects = .act lat (.setP (w.dst.extractLsb' 0 4) (predOf (tyWidth t) g) (predMask (s.ictx.guard w.hd) (tyWidth t)))
      :: ex) (hes : ex = s.excFx w.hd.unit es) (hl : lat ≠ 0) (hf : r.faults = chk.faults)
    (hu : s.unhindered i w.hd chk → s.unhindered i w.hd r) (hg : ∀ j < elemCount (tyWidth t), g j = f j) :
    s.writesPred i w chk lat (tyWidth t) es f := by
  subst hes
  intro h8 h1 h2
  have hb : tyWidth t = 8 ∨ tyWidth t = 16 ∨ tyWidth t = 32 := by have := tyWidth_cases t; omega
  refine ⟨predOf (tyWidth t) g, fun j hj => ?_, ?_⟩
  · have : j / (tyWidth t / 8) < elemCount (tyWidth t) := by unfold elemCount; rcases hb with h | h | h <;> rw [h] <;> omega
    rw [predOf_getLsbD _ _ hb j hj, hg _ this]
  · rw [← State.installs_mapless s w.hd.unit _ (by simp [Act.mapless])]
    exact State.gives_raises hx (hu h2) (hf.trans h1) [(lat, _)] es he (by simpa using hl)

/-- A word that writes elements given as patterns. -/
theorem State.writesVec_pat {b : Nat} {map : Option MapBits} {g : Nat → Nat} (hx : exec i s = .next (s.slot i w.hd r))
    (he : r.effects = [s.vecAct w lat b w.dst.toNat map (vecOf b g)]) (hl : lat ≠ 0) (hf : r.faults = chk.faults)
    (hu : s.unhindered i w.hd chk → s.unhindered i w.hd r) : s.writesVec i w chk lat b map (fun j => g j) :=
  State.writesVec_of g hx he hl hf hu fun _ _ => rfl

/-- A word that writes one of two patterns, chosen element by element. -/
theorem State.writesVec_choice {b : Nat} {map : Option MapBits} {p : Nat → Prop} [DecidablePred p]
    {f g : Nat → Nat} (hx : exec i s = .next (s.slot i w.hd r))
    (he : r.effects = [s.vecAct w lat b w.dst.toNat map (vecOf b (fun j => if p j then f j else g j))]) (hl : lat ≠ 0)
    (hf : r.faults = chk.faults) (hu : s.unhindered i w.hd chk → s.unhindered i w.hd r) :
    s.writesVec i w chk lat b map (fun j => if p j then (f j : Int) else g j) :=
  State.writesVec_of _ hx he hl hf hu fun _ _ => congrArg (fun n : Int => n % _) (Nat.cast_ite _ _ _)

/-- A word that writes a register whose elements are known. -/
theorem State.writesVec_reg {b : Nat} {map : Option MapBits} {x : VecBits} {f : Nat → Int} (hx : exec i s = .next (s.slot i w.hd r))
    (he : r.effects = [s.vecAct w lat b w.dst.toNat map x]) (hl : lat ≠ 0) (hf : r.faults = chk.faults)
    (hu : s.unhindered i w.hd chk → s.unhindered i w.hd r) (hg : ∀ j < elemCount b, (elem x j b : Int) = f j % (2 ^ b : Nat)) :
    s.writesVec i w chk lat b map f :=
  fun h1 h2 => ⟨x, hg, State.gives_installs hx (hu h2) (hf.trans h1) [(lat, _)] he (by simpa using hl)⟩

/-- A word that writes float results computed one by one. -/
theorem State.writesFloat_each {srcs : List Reg6} {map : Option MapBits} {f : Nat → Nat × Exc} (hx : exec i s = .next (s.slot i w.hd r))
    (he : r.effects = (s.vfloatRes w lat srcs map ((List.range (elemCount (tyWidth (fTy w.ty)))).map f)).effects) (hl : lat ≠ 0)
    (hf : r.faults = chk.faults) (hu : s.unhindered i w.hd chk → s.unhindered i w.hd r) :
    s.writesFloat i w chk lat (tyWidth (fTy w.ty)) (elemCount (tyWidth (fTy w.ty))) (s.ictx.guard w.hd) map f :=
  State.writesFloat_of (vecOf _ fun j => (f j).1) _ hx (by rw [he, ← ofNat_packBits_fst]; rfl) hl hf hu (fun j hj => elem_vecOf _ _ j hj)
    (activeExc_map_range ..)

/-- A word that writes a list of float results, and zero above them. -/
theorem State.writesFloat_list {b : Nat} {map : Option MapBits} {f : Nat → Nat × Exc} {x : VecBits} (rs : List (Nat × Exc))
    (hx : exec i s = .next (s.slot i w.hd r))
    (he : r.effects = s.vecAct w lat b w.dst.toNat map x :: s.excFx w.hd.unit
      (((rs.zip (List.range (elemCount b))).filter (fun p => active (s.ictx.guard w.hd) b p.2)).map (·.1.2)))
    (hl : lat ≠ 0) (hf : r.faults = chk.faults) (hu : s.unhindered i w.hd chk → s.unhindered i w.hd r) (hn : rs.length ≤ elemCount b)
    (hv : ∀ j < elemCount b, elem x j b = (rs.getD j noResult).1 % 2 ^ b) (hg : ∀ j, rs.getD j noResult = f j) :
    s.writesFloat i w chk lat b rs.length (s.ictx.guard w.hd) map f := by
  obtain rfl : (fun j => rs.getD j noResult) = f := funext hg
  exact State.writesFloat_of x _ hx he hl hf hu hv (exceptions_of_list _ _ _ _ hn)

end

end Sys2Proof.Machine

/-! Results of the element-wise and width-changing instructions, the reductions and the scans (R128 to R138): the statements of O5
to O9. -/

namespace Sys2Proof.Machine

/-! ## Element-wise integer instructions -/

section
variable {s : State} {i : Instr} {w : RWord}

/-- An element-wise operation on exact integers (R128). -/
theorem State.writesVec_vint {srcs : List Reg6} {op : List Int → Int} {f : Nat → Int}
    (hx : exec i s = .next (s.slot i w.hd (s.vint w srcs op)))
    (hf : ∀ j, op (srcs.map (fun r => s.ictx.isrc w (srcMapReg w.dst.toNat srcs) (vTy w.ty) r j)) = f j) :
    s.writesVec i w (s.vecChk w srcs) 2 (tyWidth (vTy w.ty)) (s.ictx.mapE srcs) f :=
  State.writesVec_int _ hx rfl (by decide) rfl id (fun j _ => hf j)

end

/-- Saturation at the least and the greatest number of a type (R128). -/
theorem satTo_eq (t : BitVec 4) (x : Int) : satTo t x =
    max (if tySigned t then -2 ^ (tyWidth t - 1) else 0) (min (if tySigned t then 2 ^ (tyWidth t - 1) - 1 else 2 ^ tyWidth t - 1) x) := by
  simp only [satTo, tyMin, tyMax, Nat.cast_pow, Nat.cast_ofNat]

/-- Settles O5: every instruction is `State.vint` with its operation, in the words of R128. -/
theorem vectorIntegerResults : Obligations.VectorIntegerResults := by
  intro s w
  dsimp only
  refine ⟨State.writesVec_vint rfl fun j => rfl, State.writesVec_vint rfl fun j => rfl, State.writesVec_vint rfl fun j => rfl,
    State.writesVec_vint rfl fun j => satTo_eq .., State.writesVec_vint rfl fun j => satTo_eq ..,
    State.writesVec_vint rfl fun j => ?mulh, State.writesVec_vint rfl fun j => min_def .., State.writesVec_vint rfl fun j => max_def ..,
    State.writesVec_vint rfl fun j => rfl, State.writesVec_vint rfl fun j => rfl, State.writesVec_vint rfl fun j => rfl,
    State.writesVec_vint rfl fun j => ?shl, State.writesVec_vint rfl fun j => ?shr, State.writesVec_vint rfl fun j => ?sra,
    State.writesVec_vint rfl fun j => Int.natCast_natAbs .., State.writesVec_vint rfl fun j => rfl, State.writesVec_vint rfl fun j => rfl⟩
  case mulh => rw [Nat.cast_pow]; rfl
  case shl => rw [Nat.shiftLeft_eq]; push_cast; rfl
  case shr => rw [Nat.shiftRight_eq_div_pow]; push_cast; rfl
  case sra => rw [Nat.cast_pow]; rfl

/-! ## Selections, moves and comparisons -/

/-- Two registers of different maps give NONE (R132). -/
theorem selMap_eq (c : Ctx) (w : RWord) : c.selMap w =
    if w.a.toNat < 56 ∧ w.b.toNat < 56 ∧ c.mapOf w.a.toNat ≠ c.mapOf w.b.toNat then some 0 else c.mapE [w.a, w.b] := by
  simp only [Ctx.selMap, Bool.and_eq_true, decide_eq_true_eq, bne_iff_ne, and_assoc]

/-- Settles O6: moves write the chosen patterns, comparisons the bits of every element. -/
theorem vectorMoveAndCompareResults : Obligations.VectorMoveAndCompareResults := by
  refine ⟨fun s w => ?moves, fun s w => ?compares⟩
  case moves =>
    dsimp only
    rw [← selMap_eq]
    exact ⟨State.writesVec_choice rfl rfl (by decide) rfl id, State.writesVec_pat rfl rfl (by decide) rfl id,
      State.writesVec_pat rfl rfl (by decide) rfl id, State.writesVec_pat rfl rfl (by decide) rfl id⟩
  case compares =>
    refine ⟨State.writesPred_of _ rfl rfl rfl (by decide) rfl id fun _ _ => rfl,
      State.writesPred_of _ rfl rfl ?_ (by decide) rfl id ?_⟩
    · rw [List.map_map, activeExc_map_range]
      rfl
    · exact fun j hj => congrArg Prod.fst ((getD_map_range ..).trans (if_pos hj))

/-! ## Element-wise float instructions -/

/-- What a word written with `.sr` reads its map through, in the words of the statement. -/
theorem srReads_eq (rnd : BitVec 2) (map : Option MapBits) (d : Nat) :
    (if (decide (rnd = 2) && map.isNone) = true then [d] else []) = if rnd = 2 ∧ map.isNone = true then [d] else [] := by
  simp only [Bool.and_eq_true, decide_eq_true_eq]

section
variable {s : State} {i : Instr} {w : RWord} {l : List Reg6} {op : List FVal → FVal × Exc} {f : Nat → FVal × Exc}

/-- An operation that is rounded once (R110, R130). -/
theorem State.writesFloat_vfloat (hx : exec i s = .next (s.slot i w.hd (s.vfloat w l op)))
    (hf : (fun j => op (l.map (fun r => s.ictx.fsrc w (srcMapReg w.dst.toNat l) (fTy w.ty) r j))) = f) :
    s.writesFloat i w
      { faults := s.ictx.pseudoFaults w.dst.toNat l ++ s.ictx.srFaults w.rnd w.dst.toNat (s.ictx.mapE l)
        maps := mapReads w.dst.toNat l ++ (if w.rnd = 2 ∧ (s.ictx.mapE l).isNone then [w.dst.toNat] else []), data := some (realV l) }
      4 (tyWidth (fTy w.ty)) (elemCount (tyWidth (fTy w.ty))) (s.ictx.guard w.hd) (s.ictx.mapE l)
      (fun j =>
        let d := (fmtOf (fTy w.ty)).deliver
          (s.ictx.rmode s.gstep w.rnd (w.fn.toNat % 256) ((s.ictx.mapE l).getD (s.ictx.mapOf w.dst.toNat)) j) (f j).1
        (d.1, (f j).2.or d.2)) := by
  subst hf
  rw [← srReads_eq]
  exact State.writesFloat_each hx rfl (by decide) rfl id

end

/-- Settles O7: a rounded operation is `State.vfloat`, a choice `State.vfpick`. -/
theorem vectorFloatResults : Obligations.VectorFloatResults := by
  intro s w
  have picks {i : Instr} {m : Bool} (hx : exec i s = .next (s.slot i w.hd (s.vfpick w m))) :=
    State.writesFloat_each (chk := s.vecChk w [w.a, w.b]) hx rfl (by decide) rfl id
  refine ⟨State.writesFloat_vfloat rfl rfl, State.writesFloat_vfloat rfl rfl, State.writesFloat_vfloat rfl rfl,
    State.writesFloat_vfloat rfl rfl, picks rfl, picks rfl, State.writesVec_of _ rfl rfl (by decide) rfl id fun j _ => ?_⟩
  push_cast
  rfl

/-! ## Width changes -/

section
variable (c : Ctx) (w : RWord) (ws wd : Nat) (keep : Bool) (conv : MapBits → Nat → Nat → Nat × Exc)

/-- The map that destination h of a width change takes; none keeps it (R134). -/
def Ctx.destMap (h : Nat) : Option MapBits := if keep then none else c.resizeMap w ws wd h

/-- Element j of destination h, converted from element h·N + j of the source (R133). -/
def Ctx.destElem (h j : Nat) : Nat × Exc :=
  conv ((c.destMap w ws wd keep h).getD (c.mapOf (w.dst.toNat + h))) j (c.groupSrc w ws wd (h * (4096 / wd) + j))

/-- The exceptions of the active elements of q destinations. -/
def Ctx.destExc (q : Nat) : List Exc :=
  ((List.range q).map (fun h =>
    ((List.range (4096 / wd)).filter (active (c.guard w.hd) wd)).map (fun j => (c.destElem w ws wd keep conv h j).2))).flatten

/-- The registers whose data a width change reads (R133). -/
def destReads : List Nat := if w.a.toNat < 56 ∧ wd < ws then (List.range (ws / wd)).map (fun j => w.a.toNat + j) else realV [w.a]

/-- The checks and reads of a width change to q destinations. -/
def Ctx.destChk (q : Nat) : SlotRes :=
  { faults := c.pseudoFaults w.dst.toNat [w.a]
      ++ ((List.range q).map (fun h => c.srFaults w.rnd (w.dst.toNat + h) (c.destMap w ws wd keep h))).flatten
    maps := destReads w ws wd ++ (if mapPseudo w.a then [w.dst.toNat] else [])
      ++ (if w.rnd = 2 ∧ 56 ≤ w.a.toNat then (List.range q).map (fun h => w.dst.toNat + h) else [])
    data := some (destReads w ws wd) }

end

section
variable (s : State) (w : RWord) (lat ws wd : Nat) (keep : Bool) (conv : MapBits → Nat → Nat → Nat × Exc)

/-- The writes of a width change to q destinations, all in one cycle (R133). -/
def State.destActs (q : Nat) : List (Nat × Act) :=
  (List.range q).map (fun h => (lat, .setV (w.dst.toNat + h) (vecOf wd (fun j => (s.ictx.destElem w ws wd keep conv h j).1))
    (guardMask (s.ictx.guard w.hd) wd) (s.ictx.destMap w ws wd keep h) true none))

theorem State.resize_effects : (s.resize w lat ws wd keep conv).effects =
    (s.destActs w lat ws wd keep conv (max 1 (wd / ws))).map (fun a => .act a.1 a.2)
      ++ s.excFx w.hd.unit (s.ictx.destExc w ws wd keep conv (max 1 (wd / ws))) := by
  refine congrArg₂ (· ++ ·) ?writes (congrArg (s.excFx w.hd.unit) (congrArg List.flatten ?exceptions))
  case writes =>
    rw [← List.map_prod_right_eq_zip, List.map_map, State.destActs, List.map_map]
    exact List.map_congr_left fun h _ => congrArg (s.vecAct w lat wd _ _) (ofNat_packBits_fst wd (s.ictx.destElem w ws wd keep conv h))
  case exceptions =>
    rw [List.map_map]
    exact List.map_congr_left fun h _ => activeExc_eq _ wd _ (s.ictx.destElem w ws wd keep conv h)

theorem destReads_eq : (if (decide (w.a.toNat < 56) && decide (wd < ws)) = true then (List.range (ws / wd)).map (fun j => w.a.toNat + j)
    else realV [w.a]) = destReads w ws wd := by
  simp only [Bool.and_eq_true, decide_eq_true_eq, destReads]

theorem State.resize_faults : (s.resize w lat ws wd keep conv).faults = (s.ictx.destChk w ws wd keep (max 1 (wd / ws))).faults := rfl

theorem State.resize_maps : (s.resize w lat ws wd keep conv).maps = (s.ictx.destChk w ws wd keep (max 1 (wd / ws))).maps := by
  unfold State.resize Ctx.destChk
  dsimp only
  rw [destReads_eq, mapPseudo_reads]
  simp only [Bool.and_eq_true, decide_eq_true_eq, ge_iff_le]

theorem State.resize_data : (s.resize w lat ws wd keep conv).data = (s.ictx.destChk w ws wd keep (max 1 (wd / ws))).data :=
  congrArg some (destReads_eq w ws wd)

end

/-- A width change writes q registers in one cycle and records the exceptions of the active elements. -/
theorem State.gives_resize {s : State} {i : Instr} {w : RWord} {lat ws wd q : Nat} {keep : Bool}
    {conv : MapBits → Nat → Nat → Nat × Exc} (hx : exec i s = .next (s.slot i w.hd (s.resize w lat ws wd keep conv))) (hl : lat ≠ 0)
    (hq : q = max 1 (wd / ws)) (hf : (s.ictx.destChk w ws wd keep q).faults = [])
    (hu : s.unhindered i w.hd (s.ictx.destChk w ws wd keep q)) :
    ∃ x : Nat → VecBits, (∀ h < q, ∀ j < 4096 / wd, elem (x h) j wd = (s.ictx.destElem w ws wd keep conv h j).1 % 2 ^ wd)
      ∧ s.gives i ((s.installs w.hd.unit ((List.range q).map (fun h => (lat, .setV (w.dst.toNat + h) (x h)
          (guardMask (s.ictx.guard w.hd) wd) (s.ictx.destMap w ws wd keep h) true none)))).raises w.hd.unit
          (s.ictx.destExc w ws wd keep conv q)) := by
  subst hq
  refine ⟨fun h => vecOf wd (fun j => (s.ictx.destElem w ws wd keep conv h j).1), fun h _ j hj => elem_vecOf _ _ j hj, ?_⟩
  refine State.gives_raises hx (State.unhindered_of_reads (State.resize_maps ..) (State.resize_data ..) rfl hu)
    ((State.resize_faults ..).trans hf) (s.destActs w lat ws wd keep conv _) _ (State.resize_effects ..) fun a ha => ?_
  obtain ⟨h, _, rfl⟩ := List.mem_map.mp ha
  exact hl

/-- An element of `VUNPK` (R136): a `.q4` code is a signed number of 4 bits. -/
theorem unpk_eq (src dst : BitVec 4) (q x : Nat) :
    (if src = 12 then
      (if dst = 10 then e4m3.exact (q4Val q x) else (intOf 4 true x % (2 ^ tyWidth dst : Nat)).toNat)
      else (intOf (tyWidth src) (tySigned src) x % (2 ^ tyWidth dst : Nat)).toNat)
    = if src = 12 ∧ dst = 10 then e4m3.exact (q4Val q x)
      else (intOf (tyWidth src) (src = 12 || tySigned src) x % (2 ^ tyWidth dst : Nat)).toNat := by
  by_cases h : src = 12
  · subst h
    simp only [true_and, decide_true, Bool.true_or, if_true]
    rfl
  · simp only [h, false_and, decide_false, Bool.false_or, if_false]

/-- Settles O8: each of the four is `State.resize` with the conversion of its rule. -/
theorem widthChangeResults : Obligations.WidthChangeResults := by
  intro s w
  have changes {i : Instr} {lat ws wd : Nat} {keep : Bool} {conv : MapBits → Nat → Nat → Nat × Exc}
      (hx : exec i s = .next (s.slot i w.hd (s.resize w lat ws wd keep conv))) (hl : lat ≠ 0) := State.gives_resize hx hl rfl
  refine ⟨changes (i := .vcvt w) rfl (by decide), changes (i := .vpack w) rfl (by decide), ?unpk, changes (i := .vnarrow w) rfl (by decide)⟩
  case unpk =>
    dsimp only
    simp only [← unpk_eq]
    exact changes (i := .vunpk w) rfl (by decide)

/-! ## Reductions and scans -/

/-- The number of whole segments of 2^FN elements (R138). -/
def segCount (w : RWord) : Nat := elemCount (tyWidth (fTy w.ty)) / 2 ^ w.fn.toNat

theorem segCount_mul_le (w : RWord) : segCount w * 2 ^ w.fn.toNat ≤ elemCount (tyWidth (fTy w.ty)) := Nat.div_mul_le_self ..

theorem segCount_le (w : RWord) : segCount w ≤ elemCount (tyWidth (fTy w.ty)) := Nat.div_le_self ..

/-- Segment h of the elements that take part (R138). -/
def State.redSegment (s : State) (w : RWord) (o : RedOp) (h : Nat) : List Nat :=
  ((s.redLeaves w o).drop (2 ^ w.fn.toNat * h)).take (2 ^ w.fn.toNat)

theorem State.length_redLeaves (s : State) (w : RWord) (o : RedOp) : (s.redLeaves w o).length = elemCount (tyWidth (fTy w.ty)) := by
  rw [State.redLeaves, List.length_map, List.length_range]

theorem State.length_redSegment (s : State) (w : RWord) (o : RedOp) {h : Nat}
    (hh : h < segCount w) : (s.redSegment w o h).length = 2 ^ w.fn.toNat := by
  have : (h + 1) * 2 ^ w.fn.toNat ≤ elemCount (tyWidth (fTy w.ty)) := (Nat.mul_le_mul_right _ hh).trans (segCount_mul_le w)
  rw [Nat.succ_mul, Nat.mul_comm h] at this
  rw [State.redSegment, List.length_take, List.length_drop, s.length_redLeaves]
  omega

/-- The results of a reduction, one for each segment. -/
def State.redList (s : State) (w : RWord) (o : RedOp) : List (Nat × Exc) :=
  (List.range (segCount w)).map (fun h => o.segment (fTy w.ty) w.fn.toNat (s.redSegment w o h))

theorem State.length_redList (s : State) (w : RWord) (o : RedOp) : (s.redList w o).length = segCount w := by
  rw [State.redList, List.length_map, List.length_range]

theorem State.redList_eq (s : State) (w : RWord) (o : RedOp) :
    (chunked (2 ^ w.fn.toNat) (segCount w) (s.redLeaves w o)).map (o.segment (fTy w.ty) w.fn.toNat) = s.redList w o := by
  rw [chunked_eq, List.map_map]; rfl

/-- The checks of a reduction: a map is read by a pseudo-operand alone. -/
def State.redChk (s : State) (w : RWord) : SlotRes := { s.vecChk w [w.a] with maps := if mapPseudo w.a then [w.dst.toNat] else [] }

theorem State.vred_eq (s : State) (w : RWord) (o : RedOp) : s.vred w o =
    { s.redChk w with
      effects := s.vecAct w 6 (tyWidth (fTy w.ty)) w.dst.toNat (some 0)
          (vecOf (tyWidth (fTy w.ty)) (fun j => ((s.redList w o).getD j noResult).1))
        :: s.excFx w.hd.unit ((((s.redList w o).zip (List.range (elemCount (tyWidth (fTy w.ty))))).filter
          (fun p => active (s.ictx.guard w.hd) (tyWidth (fTy w.ty)) p.2)).map (·.1.2)) } := by
  have hm : [w.a].any mapPseudo = mapPseudo w.a := Bool.or_false _
  rw [← s.redList_eq, State.redChk, ← hm]
  rfl

/-- A reduction: one result for each segment. -/
theorem State.writesFloat_vred {s : State} {i : Instr} {w : RWord} {o : RedOp} (hx : exec i s = .next (s.slot i w.hd (s.vred w o))) :
    s.writesFloat i w (s.redChk w) 6 (tyWidth (fTy w.ty)) (segCount w) (s.ictx.guard w.hd) (some 0)
      (fun h => if h < segCount w then o.segment (fTy w.ty) w.fn.toNat (s.redSegment w o h) else noResult) := by
  rw [s.vred_eq] at hx
  rw [← s.length_redList w o]
  refine State.writesFloat_list _ hx rfl (by decide) rfl id ((s.length_redList w o).trans_le (segCount_le w)) (fun j hj => elem_vecOf _ _ j hj)
    fun j => ?_
  rw [s.length_redList, State.redList, getD_map_range]

theorem length_scanInt (t : BitVec 4) (acc : Nat) (l : List Nat) : (scanInt t acc l).length = l.length := by
  induction l generalizing acc with
  | nil => rfl
  | cons x r ih => exact congrArg Nat.succ (ih _)

theorem length_scanFloat (t : BitVec 4) (acc : Option FVal) (l : List Nat) : (scanFloat t acc l).length = l.length := by
  induction l generalizing acc with
  | nil => rfl
  | cons x r ih => exact congrArg Nat.succ (ih _)

/-- The running sums of a segment (R138). -/
def scanOf (t : BitVec 4) (l : List Nat) : List (Nat × Exc) := if tyInt t then scanInt t 0 l else scanFloat t none l

theorem length_scanOf (t : BitVec 4) (l : List Nat) : (scanOf t l).length = l.length := by
  unfold scanOf
  split
  · exact length_scanInt ..
  · exact length_scanFloat ..

/-- The running sums of all whole segments. -/
def State.scanList (s : State) (w : RWord) : List (Nat × Exc) :=
  ((List.range (segCount w)).map (fun h => scanOf (fTy w.ty) (s.redSegment w .add h))).flatten

theorem State.scanList_uniform (s : State) (w : RWord) :
    ∀ x ∈ (List.range (segCount w)).map (fun h => scanOf (fTy w.ty) (s.redSegment w .add h)),
      x.length = 2 ^ w.fn.toNat := by
  intro x hx
  obtain ⟨h, hh, rfl⟩ := List.mem_map.mp hx
  rw [length_scanOf, s.length_redSegment w .add (List.mem_range.mp hh)]

theorem State.length_scanList (s : State) (w : RWord) :
    (s.scanList w).length = segCount w * 2 ^ w.fn.toNat := by
  rw [State.scanList, length_flatten_uniform _ (s.scanList_uniform w), List.length_map, List.length_range]

theorem State.getD_scanList (s : State) (w : RWord) (j : Nat) : (s.scanList w).getD j noResult =
    if j < segCount w * 2 ^ w.fn.toNat then
      (scanOf (fTy w.ty) (s.redSegment w .add (j / 2 ^ w.fn.toNat))).getD (j % 2 ^ w.fn.toNat) noResult
    else noResult := by
  have hk := Nat.two_pow_pos w.fn.toNat
  rw [State.scanList, getD_flatten_uniform hk _ (s.scanList_uniform w), getD_map_range]
  simp only [← Nat.div_lt_iff_lt_mul hk]
  split
  · rfl
  · rfl

theorem State.scanList_eq (s : State) (w : RWord) :
    ((chunked (2 ^ w.fn.toNat) (segCount w) (s.redLeaves w .add)).map (scanOf (fTy w.ty))).flatten = s.scanList w := by
  rw [chunked_eq, List.map_map]; rfl

theorem exec_vscanAdd (s : State) (w : RWord) : exec (.vscanAdd w) s = .next (s.slot (.vscanAdd w) w.hd
    { s.vecChk w [w.a] with
      effects := s.vecAct w 6 (tyWidth (fTy w.ty)) w.dst.toNat (s.ictx.mapE [w.a])
          (BitVec.ofNat 4096 (packBits (tyWidth (fTy w.ty)) ((s.scanList w).map (·.1))))
        :: s.excFx w.hd.unit ((((s.scanList w).zip (List.range (elemCount (tyWidth (fTy w.ty))))).filter
          (fun p => active (s.ictx.guard w.hd) (tyWidth (fTy w.ty)) p.2)).map (·.1.2)) }) := by
  rw [← s.scanList_eq]; rfl

/-- A scan: the running sums of each segment, and zero above the last. -/
theorem State.writesFloat_vscanAdd (s : State) (w : RWord) :
    s.writesFloat (.vscanAdd w) w (s.vecChk w [w.a]) 6 (tyWidth (fTy w.ty)) (segCount w * 2 ^ w.fn.toNat) (s.ictx.guard w.hd)
      (s.ictx.mapE [w.a]) (fun j => if j < segCount w * 2 ^ w.fn.toNat then
        (scanOf (fTy w.ty) (s.redSegment w .add (j / 2 ^ w.fn.toNat))).getD (j % 2 ^ w.fn.toNat) noResult else noResult) := by
  rw [← s.length_scanList w]
  refine State.writesFloat_list _ (exec_vscanAdd s w) rfl (by decide) rfl id ((s.length_scanList w).trans_le (segCount_mul_le w))
    (fun j hj => ?_) fun j => ?_
  · rw [elem_packBits_getD _ _ j hj, ← List.getD_map (s.scanList w) noResult Prod.fst]
    rfl
  · rw [s.length_scanList, s.getD_scanList]

theorem dotLane_eq (c : Ctx) (w : RWord) (mr j : Nat) :
    let ty : BitVec 4 := if w.ty = 4 then 4 else 1
    let p (k : Nat) : Int := c.isrc w mr ty w.a k * c.isrc w mr ty w.b k
    c.dotLane w mr j = c.src w.hd mr w.c 32 j + p (4 * j) + p (4 * j + 1) + p (4 * j + 2) + p (4 * j + 3) := rfl

/-- Settles O9: the segments of a reduction are the groups of `chunked`, and a scan joins the sums of each. -/
theorem reductionAndDotResults : Obligations.ReductionAndDotResults :=
  ⟨fun s w => ⟨State.writesFloat_vred rfl, State.writesFloat_vred rfl, State.writesFloat_vred rfl, s.writesFloat_vscanAdd w⟩,
    fun _ _ => State.writesVec_int _ rfl rfl (by decide) rfl id fun _ _ => dotLane_eq ..⟩

end Sys2Proof.Machine

/-! Results of the shuffles and the sorting instructions (R139 to R145, R151 to R153): the statements of O10 and O11. -/

namespace Sys2Proof.Machine

/-! ## Shuffles, expansion and compaction -/

/-- The elements that the predicate of a compaction selects (R143). -/
def State.compactPicks (s : State) (w : RWord) : List Nat :=
  (List.range (elemCount (tyWidth w.ty))).filter (active (s.ictx.pField w.c) (tyWidth w.ty))

/-- Selected elements packed, and followed by zeros. -/
def packed (b : Nat) (picks : List Nat) (f : Nat → Nat) : VecBits := vecOf b (fun j => match picks[j]? with | some i => f i | none => 0)

theorem elem_packed (b : Nat) (picks : List Nat) (f : Nat → Nat) (j : Nat) (hj : j < elemCount b) :
    elem (packed b picks f) j b = if h : j < picks.length then f picks[j] % 2 ^ b else 0 := by
  rw [packed, elem_vecOf _ _ _ hj]
  split
  next i hi =>
    obtain ⟨h, rfl⟩ := List.getElem?_eq_some_iff.mp hi
    rw [dif_pos h]
  next hi => rw [dif_neg (Nat.not_lt.mpr (List.getElem?_eq_none_iff.mp hi)), Nat.zero_mod]

/-- The checks and reads of a compaction: A alone. -/
def State.compactChk (s : State) (w : RWord) : SlotRes :=
  { faults := s.ictx.pseudoFaults w.dst.toNat [w.a], maps := realV [w.a] ++ (if mapPseudo w.a then [w.dst.toNat] else [])
    data := some (realV [w.a]) }

def State.compactData (s : State) (w : RWord) : VecBits :=
  packed (tyWidth w.ty) (s.compactPicks w) (s.ictx.src w.hd (srcMapReg w.dst.toNat [w.a]) w.a (tyWidth w.ty))

def State.compactCarrier (s : State) (w : RWord) : VecBits :=
  packed (tyWidth w.ty) (s.compactPicks w) (fun i => s.ictx.coord (s.ictx.mapOf w.a.toNat) i 0)

/-- The writes of a compaction: the carrier's and the data that names it, when the map can follow, or the data alone (R143, R261). -/
def State.compactActs (s : State) (w : RWord) : List (Nat × Act) :=
  let m := s.ictx.mapOf w.a.toNat
  let mask := guardMask (s.ictx.guard w.hd) (tyWidth w.ty)
  if s.ictx.compactFollows w then
    [ (3, .setV w.b.toNat (s.compactCarrier w) mask none true none)
    , (3, .setV w.dst.toNat (s.compactData w) mask
        (some (listedMap (ewOf (tyWidth w.ty)) w.b.toNat s.issue.ctx.val (s.compactPicks w).length (mapExtent m 0) (mapVtag m)))
        true (some w.b.toNat))]
  else [(3, .setV w.dst.toNat (s.compactData w) mask (some 0) true none)]

theorem exec_vcompact (s : State) (w : RWord) : exec (.vcompact w) s = .next (s.slot (.vcompact w) w.hd
    { s.compactChk w with effects := (s.compactActs w).map (fun a => .act a.1 a.2) }) := by
  refine congrArg (fun l => Host.Outcome.next (s.slot (.vcompact w) w.hd { s.compactChk w with effects := l })) ?_
  unfold State.compactActs
  cases s.ictx.compactFollows w <;> rfl

theorem State.compactActs_latency (s : State) (w : RWord) : ∀ a ∈ s.compactActs w, a.1 = 3 := by
  unfold State.compactActs
  cases s.ictx.compactFollows w <;> simp

/-- Settles O10: shuffles choose each lane, a compaction packs the selected ones. -/
theorem shuffleAndCompactResults : Obligations.ShuffleAndCompactResults := by
  refine ⟨fun s w => ⟨State.writesVec_choice rfl rfl (by decide) rfl id, State.writesVec_choice rfl rfl (by decide) rfl id, ?expand⟩,
    fun s w hf hu => ?compact⟩
  case expand =>
    simp only [List.countP_eq_length_filter]
    exact State.writesVec_choice rfl rfl (by decide) rfl id
  case compact =>
    exact ⟨s.compactData w, s.compactCarrier w, fun j hj => ⟨elem_packed _ _ _ j hj, elem_packed _ _ _ j hj⟩,
      State.gives_installs (exec_vcompact s w) hu hf (s.compactActs w) rfl fun a ha => by rw [s.compactActs_latency w a ha]; decide⟩

/-! ## The order of entries (R151) -/

/-- A signed magnitude. -/
def signedOf (n : Bool) (m : Nat) : Int := if n then -(m : Int) else m

theorem signedOf_shiftLeft (n : Bool) (m k : Nat) : signedOf n (m <<< k) = signedOf n m * 2 ^ k := by
  rw [Nat.shiftLeft_eq]
  unfold signedOf
  cases n <;> push_cast
  · rfl
  · exact (Int.neg_mul ..).symm

/-- The number that a finite value is. -/
def ratOf (n : Bool) (m : Nat) (e : Int) : ℚ := signedOf n m * 2 ^ e

/-- A value's place in the order of R151: a NaN below every number, and the infinities at the ends. -/
def valRank : FVal → ℤ ×ₗ ℚ
  | .nan _ _ _ => toLex (-2, 0)
  | .inf n => toLex (if n then -1 else 1, 0)
  | .fin n m e => toLex (0, ratOf n m e)

/-- A pattern's place under a type. -/
def patRank (t : BitVec 4) (x : Nat) : ℤ ×ₗ ℚ :=
  if tyInt t then toLex (intOf 32 (tySigned t) x, 0) else valRank (fp32.decode x)

/-- Comparisons agree when a map keeps and reflects the order. -/
theorem compare_eq_of_lt_iff {α β : Type} [LinearOrder α] [LinearOrder β] {a b : α} {c d : β} (h : a < b ↔ c < d) (h' : b < a ↔ d < c) :
    compare a b = compare c d := by
  rcases lt_trichotomy a b with hab | rfl | hab
  · rw [compare_lt_iff_lt.mpr hab, compare_lt_iff_lt.mpr (h.mp hab)]
  · have : c = d := le_antisymm (not_lt.mp (mt h'.mpr (lt_irrefl _))) (not_lt.mp (mt h.mpr (lt_irrefl _)))
    rw [compare_eq_iff_eq.mpr rfl, compare_eq_iff_eq.mpr this]
  · rw [compare_gt_iff_gt.mpr hab, compare_gt_iff_gt.mpr (h'.mp hab)]

/-- A finite value on the grid of a lower exponent. -/
theorem ratOf_grid (n : Bool) (m : Nat) {e lo : Int} (h : lo ≤ e) :
    ratOf n m e = (signedOf n (m <<< (e - lo).toNat) : ℚ) * 2 ^ lo := by
  have he : (2 : ℚ) ^ e = 2 ^ (e - lo).toNat * 2 ^ lo := by
    rw [← zpow_natCast, Int.toNat_of_nonneg (by omega), ← zpow_add₀ (by norm_num), Int.sub_add_cancel]
  rw [ratOf, he, signedOf_shiftLeft, Int.cast_mul, Int.cast_pow, Int.cast_ofNat, mul_assoc]

/-- On a common grid, finite values compare as their magnitudes with signs. -/
theorem ratOf_lt_iff (n n' : Bool) (m m' : Nat) (e e' : Int) : ratOf n m e < ratOf n' m' e' ↔
    signedOf n (m <<< (e - min e e').toNat) < signedOf n' (m' <<< (e' - min e e').toNat) := by
  rw [ratOf_grid n m (min_le_left e e'), ratOf_grid n' m' (min_le_right e e'), mul_lt_mul_iff_left₀ (zpow_pos (by norm_num) _),
    Int.cast_lt]

theorem toLex_lt_iff (a : ℤ) (x y : ℚ) : toLex (a, x) < toLex (a, y) ↔ x < y := by simp [Prod.Lex.toLex_lt_toLex]

theorem compare_fst_lt {a b : ℤ} (h : a < b) (x y : ℚ) : compare (toLex (a, x)) (toLex (b, y)) = .lt :=
  compare_lt_iff_lt.mpr (Prod.Lex.toLex_lt_toLex.mpr (.inl h))

theorem compare_fst_gt {a b : ℤ} (h : b < a) (x y : ℚ) : compare (toLex (a, x)) (toLex (b, y)) = .gt :=
  compare_gt_iff_gt.mpr (Prod.Lex.toLex_lt_toLex.mpr (.inl h))

/-- The order of two numbers is that of their ranks. -/
theorem fOrd_eq_compare {x y : FVal} (hx : x.isNan = false) (hy : y.isNan = false) : fOrd x y = compare (valRank x) (valRank y) := by
  match x, y with
  | .inf n, .inf n' =>
    cases n <;> cases n'
    · exact (compare_eq_iff_eq.mpr rfl).symm
    · exact (compare_fst_gt (by decide) ..).symm
    · exact (compare_fst_lt (by decide) ..).symm
    · exact (compare_eq_iff_eq.mpr rfl).symm
  | .inf n, .fin .. =>
    cases n
    · exact (compare_fst_gt (by decide) ..).symm
    · exact (compare_fst_lt (by decide) ..).symm
  | .fin .., .inf n =>
    cases n
    · exact (compare_fst_lt (by decide) ..).symm
    · exact (compare_fst_gt (by decide) ..).symm
  | .fin n m e, .fin n' m' e' =>
    refine compare_eq_of_lt_iff ?_ ?_
    · exact ((toLex_lt_iff ..).trans (ratOf_lt_iff ..)).symm
    · exact ((toLex_lt_iff ..).trans (min_comm e e' ▸ ratOf_lt_iff ..)).symm

theorem valRank_nan {v : FVal} (h : v.isNan = true) : valRank v = toLex (-2, 0) := by
  match v with
  | .nan .. => rfl

/-- A number ranks above a NaN. -/
theorem valRank_number {v : FVal} (h : v.isNan = false) : ∃ a : ℤ, ∃ x : ℚ, valRank v = toLex (a, x) ∧ -2 < a := by
  match v with
  | .inf n => exact ⟨_, _, rfl, by cases n <;> decide⟩
  | .fin .. => exact ⟨_, _, rfl, by decide⟩

/-- The order of two patterns under a type is that of their ranks. -/
theorem sortOrd_eq_compare (t : BitVec 4) (a b : Nat) : sortOrd t a b = compare (patRank t a) (patRank t b) := by
  unfold sortOrd patRank
  cases tyInt t with
  | true => exact compare_eq_of_lt_iff (by simp [Prod.Lex.toLex_lt_toLex]) (by simp [Prod.Lex.toLex_lt_toLex])
  | false =>
    simp only [Bool.false_eq_true, if_false]
    cases ha : (fp32.decode a).isNan <;> cases hb : (fp32.decode b).isNan
    case false.false => exact fOrd_eq_compare ha hb
    case false.true =>
      obtain ⟨n, x, hn, hlt⟩ := valRank_number ha
      rw [hn, valRank_nan hb]
      exact (compare_fst_gt hlt ..).symm
    case true.false =>
      obtain ⟨n, x, hn, hlt⟩ := valRank_number hb
      rw [hn, valRank_nan ha]
      exact (compare_fst_lt hlt ..).symm
    case true.true =>
      rw [valRank_nan ha, valRank_nan hb]
      exact (compare_eq_iff_eq.mpr rfl).symm

/-- An entry's place: the higher value, then the lower index, then A before B (R151). -/
def SortEntry.place (t : BitVec 4) (a : SortEntry) : (ℤ ×ₗ ℚ)ᵒᵈ ×ₗ ℕ ×ₗ Bool :=
  toLex (OrderDual.toDual (patRank t a.x), toLex (a.ix, !a.fromA))

theorem SortEntry.above_iff (t : BitVec 4) (a b : SortEntry) : a.above t b = true ↔ a.place t < b.place t := by
  have hi : (a.ix < b.ix || (a.ix == b.ix && a.fromA && !b.fromA)) = true ↔ toLex (a.ix, !a.fromA) < toLex (b.ix, !b.fromA) := by
    rw [Prod.Lex.toLex_lt_toLex]
    cases a.fromA <;> cases b.fromA <;> simp
  unfold SortEntry.above SortEntry.place
  rw [Prod.Lex.toLex_lt_toLex, sortOrd_eq_compare]
  rcases h : compare (patRank t a.x) (patRank t b.x) with _ | _ | _
  · have := compare_lt_iff_lt.mp h
    simp [this.not_gt, this.ne]
  · have := compare_eq_iff_eq.mp h
    simpa [this] using hi
  · have := compare_gt_iff_gt.mp h
    simpa using Or.inl this

theorem SortEntry.above_trans {t : BitVec 4} {a b c : SortEntry} (h : a.above t b = true) (h' : b.above t c = true) : a.above t c = true :=
  (above_iff t a c).mpr (((above_iff t a b).mp h).trans ((above_iff t b c).mp h'))

theorem SortEntry.above_asymm {t : BitVec 4} {a b : SortEntry} (h : a.above t b = true) : b.above t a = false :=
  Bool.eq_false_iff.mpr fun h' => lt_asymm ((above_iff t a b).mp h) ((above_iff t b a).mp h')

/-! ## Ranked entries -/

theorem insertRanked_perm (t : BitVec 4) (e : SortEntry) (l : List SortEntry) : (insertRanked t e l).Perm (e :: l) := by
  induction l with
  | nil => exact .refl _
  | cons f r ih =>
    unfold insertRanked
    split
    · exact .refl _
    · exact (ih.cons f).trans (.swap ..)

/-- No entry of the list ranks above one that stands before it. -/
def Ranked (t : BitVec 4) (l : List SortEntry) : Prop := l.Pairwise (fun a b => b.above t a = false)

theorem insertRanked_ranked {t : BitVec 4} {e : SortEntry} {l : List SortEntry} (h : Ranked t l) : Ranked t (insertRanked t e l) := by
  induction l with
  | nil => exact List.pairwise_singleton ..
  | cons f r ih =>
    obtain ⟨hf, hr⟩ := List.pairwise_cons.mp h
    unfold insertRanked
    split
    case isTrue he =>
      refine List.pairwise_cons.mpr ⟨fun x hx => ?_, h⟩
      rcases List.mem_cons.mp hx with rfl | hx
      · exact SortEntry.above_asymm he
      · exact Bool.eq_false_iff.mpr fun hxe => Bool.eq_false_iff.mp (hf x hx) (SortEntry.above_trans hxe he)
    case isFalse he =>
      refine List.pairwise_cons.mpr ⟨fun x hx => ?_, ih hr⟩
      rcases List.mem_cons.mp ((insertRanked_perm t e r).mem_iff.mp hx) with rfl | hx
      · exact Bool.eq_false_iff.mpr he
      · exact hf x hx

/-- Inserting entries one by one keeps them all, in rank order. -/
theorem foldl_insertRanked (t : BitVec 4) (l acc : List SortEntry) (h : Ranked t acc) :
    (l.foldl (fun acc e => insertRanked t e acc) acc).Perm (l ++ acc) ∧ Ranked t (l.foldl (fun acc e => insertRanked t e acc) acc) := by
  induction l generalizing acc with
  | nil => exact ⟨.refl _, h⟩
  | cons e r ih =>
    obtain ⟨hp, hr⟩ := ih (insertRanked t e acc) (insertRanked_ranked h)
    exact ⟨hp.trans (((insertRanked_perm t e acc).append_left r).trans List.perm_middle), hr⟩

theorem rankEntries_perm (t : BitVec 4) (l : List SortEntry) : (rankEntries t l).Perm l :=
  (foldl_insertRanked t l [] .nil).1.trans (.of_eq (List.append_nil l))

theorem rankEntries_ranked (t : BitVec 4) (l : List SortEntry) : Ranked t (rankEntries t l) := (foldl_insertRanked t l [] .nil).2

/-! ## Sorting -/

/-- A word that writes 128 entries to a pair of registers (R151). -/
theorem State.gives_pairRes {s : State} {i : Instr} {w : RWord} {srcs : List Nat} {l : List SortEntry} {f : Nat → SortEntry}
    (hx : exec i s = .next (s.slot i w.hd (s.pairRes w srcs l))) (hl : l.length = 128) (hf : ∀ j < 128, l.getD j ⟨0, 0, true⟩ = f j)
    (hu : s.unhindered i w.hd { data := some srcs }) :
    ∃ x y : VecBits, (∀ j < 128, elem x j 32 = (f j).x % 2 ^ 32 ∧ elem y j 32 = (f j).ix % 2 ^ 32)
      ∧ s.gives i (s.installs w.hd.unit
        [ (3, .setV w.dst.toNat x (guardMask (s.ictx.guard w.hd) 32) (some 0) true none)
        , (3, .setV (w.dst.toNat + 1) y (guardMask (s.ictx.guard w.hd) 32) (some 0) true none)]) := by
  have field (g : SortEntry → Nat) (j : Nat) (hj : j < 128) :
      elem (BitVec.ofNat 4096 (packBits 32 (l.map g))) j 32 = g (f j) % 2 ^ 32 := by
    have hjl : j < l.length := hl ▸ hj
    rw [elem_packBits 32 (l.map g) j hj (by simpa using hjl), List.getElem_map, ← hf j hj, List.getD_eq_getElem _ _ hjl]
  exact ⟨_, _, fun j hj => ⟨field (·.x) j hj, field (·.ix) j hj⟩, State.gives_installs hx hu rfl
    [(3, .setV w.dst.toNat _ _ _ true none), (3, .setV (w.dst.toNat + 1) _ _ _ true none)] rfl (by simp)⟩

/-- The sixteen entries of group g, in rank order (R152). -/
def Ctx.topGroup (c : Ctx) (w : RWord) (g : Nat) : List SortEntry :=
  rankEntries (fTy w.ty) (((List.range 8).map (8 * g + ·)).map (c.pairEntry w.a true)
    ++ ((List.range 8).map (8 * g + ·)).map (c.pairEntry w.b false))

theorem Ctx.length_topGroup (c : Ctx) (w : RWord) (g : Nat) : (c.topGroup w g).length = 16 := (rankEntries_perm ..).length_eq

/-- The eight highest of each group (R152). -/
def Ctx.topEntries (c : Ctx) (w : RWord) : List (List SortEntry) := (List.range 16).map (fun g => (c.topGroup w g).take 8)

theorem Ctx.topEntries_uniform (c : Ctx) (w : RWord) : ∀ l ∈ c.topEntries w, l.length = 8 := by
  intro l hl
  obtain ⟨g, _, rfl⟩ := List.mem_map.mp hl
  rw [List.length_take, c.length_topGroup]
  rfl

theorem Ctx.length_topEntries (c : Ctx) (w : RWord) : (c.topEntries w).flatten.length = 128 := by
  rw [length_flatten_uniform _ (c.topEntries_uniform w), Ctx.topEntries, List.length_map, List.length_range]

theorem Ctx.getD_topEntries (c : Ctx) (w : RWord) (d : SortEntry) {j : Nat} (hj : j < 128) :
    (c.topEntries w).flatten.getD j d = (c.topGroup w (j / 8)).getD (j % 8) d := by
  rw [getD_flatten_uniform (by decide) _ (c.topEntries_uniform w), Ctx.topEntries, getD_map_range, if_pos (by omega),
    List.getD_eq_getElem?_getD, List.getElem?_take_of_lt (Nat.mod_lt j (by decide)), List.getD_eq_getElem?_getD]

/-- Settles O11: the places of R151 are linearly ordered, so that insertion ranks the entries; the sorts write pairs of registers. -/
theorem sortResults : Obligations.SortResults := by
  refine ⟨fun s w => ⟨?top, ?step⟩, fun t l => ⟨rankEntries_perm t l, rankEntries_ranked t l⟩⟩
  case top =>
    exact State.gives_pairRes (i := .vtopk8 w) (l := (s.ictx.topEntries w).flatten) rfl (s.ictx.length_topEntries w)
      fun j hj => s.ictx.getD_topEntries w _ hj
  case step =>
    exact State.gives_pairRes (i := .vsortStep w) rfl ((List.length_map ..).trans List.length_range)
      fun j hj => (getD_map_range ..).trans (if_pos hj)

end Sys2Proof.Machine

/-! Results of the map and coordinate instructions, the accumulator ports and the special functions (R146 to R150, R154 to R158): the
statements of O12 to O15. -/

namespace Sys2Proof.Machine

/-! ## Map instructions -/

/-- A check that holds adds no fault. -/
theorem append_vmapFaults (l : List (Cause × Word)) (w : RWord) {ok : Bool} (h : ok = true) : l ++ vmapFaults w ok = l := by
  rw [vmapFaults, if_pos h, List.append_nil]

/-- A dimension is checked against the RANK of a map that is not NONE (R146). -/
theorem dimOk_of {m : MapBits} {d : Nat} (h : isNone m = true ∨ d < mapRank m) : dimOk m d = true := by
  rwa [dimOk, Bool.or_eq_true, decide_eq_true_eq]

section
variable {s : State} {i : Instr} {w : RWord} {chk r : SlotRes} {m : MapBits}

/-- A word that writes a map alone. -/
theorem State.gives_map (hx : exec i s = .next (s.slot i w.hd r)) (he : r.effects = [.act 2 (.setV w.dst.toNat 0 0 (some m) false none)])
    (hf : r.faults = chk.faults) (hu : s.unhindered i w.hd chk → s.unhindered i w.hd r) :
    chk.faults = [] → s.unhindered i w.hd chk → s.gives i (s.installs w.hd.unit [(2, .setV w.dst.toNat 0 0 (some m) false none)]) :=
  fun h1 h2 => State.gives_installs hx (hu h2) (hf.trans h1) [(2, _)] he (by simp)

/-- A word that copies A's data at 32 bits with another map. -/
theorem State.writesVec_vmapData {ok : Bool} {n : MapBits} (hx : exec i s = .next (s.slot i w.hd (s.vmapData w ok m))) (hok : ok = true)
    (hm : m = n) : s.writesVec i w (s.vecChk w [w.a]) 2 32 (some n) (fun j => s.ictx.src w.hd (srcMapReg w.dst.toNat [w.a]) w.a 32 j) :=
  hm ▸ State.writesVec_pat hx rfl (by decide) (append_vmapFaults _ w hok) id

end

/-- The checks of `VMAP.set` apart from the descriptor's: a map is read by a pseudo-operand alone (R146). -/
def State.mapSetChk (s : State) (w : RWord) : SlotRes :=
  { faults := s.ictx.pseudoFaults w.dst.toNat [w.a], maps := if mapPseudo w.a then [w.dst.toNat] else [], data := some (realV [w.a]) }

/-- Settles O12: a map instruction either writes a map alone or copies A with a changed map. -/
theorem mapResults : Obligations.MapResults := by
  intro s w
  dsimp only
  refine ⟨⟨_, fun j hj => elem_vecOf 32 (s.ictx.src w.hd (srcMapReg w.dst.toNat [w.a]) w.a 32) j hj, fun hwf hcar => ?set⟩,
    State.gives_map (chk := { maps := realV [w.a], data := some [] }) rfl rfl rfl id,
    State.gives_map (chk := { maps := [], data := some [] }) rfl rfl rfl id, fun hd => State.writesVec_vmapData rfl (dimOk_of hd) ?off,
    fun hd => State.writesVec_vmapData rfl (dimOk_of hd) ?slice, fun ⟨hd, hd2, hwf⟩ => State.writesVec_vmapData rfl ?tr rfl,
    fun _ => State.writesVec_vmapData rfl rfl rfl⟩
  case set =>
    exact State.gives_map (i := .vmapSet w) (chk := s.mapSetChk w) rfl rfl (append_vmapFaults _ w (Bool.and_eq_true_iff.mpr ⟨hwf, hcar⟩)) id
  case off => simp only [vmapOffMap, Bool.or_eq_true]
  case slice => simp only [vmapSliceMap, Bool.or_eq_true]
  case tr => rw [dimOk_of hd, dimOk_of hd2, hwf]; rfl

/-! ## Coordinates, noise and coordinate masks -/

section
variable {s : State} {i : Instr} {w : RWord}

/-- A coordinate mask: the rule, and on a map that is not NONE the edge and VALID tests (R150). -/
theorem State.writesPred_vmaskc {rule : MaskRule} {f : Nat → Bool} (hx : exec i s = .next (s.slot i w.hd (s.vmaskc w rule)))
    (hf : ∀ j, s.ictx.maskBit w rule j = f j) :
    s.writesPred i w
      { faults := if isNone (s.ictx.vmapSrc w) && !s.ictx.mapsoft then [(.mapNone, w.a.zeroExtend 64)] else [], maps := realV [w.a], data := some [] }
      2 (tyWidth w.ty) [] f :=
  State.writesPred_of _ hx rfl rfl (by decide) rfl id fun j _ => hf j

end

/-- Settles O13: coordinates and hashes by element, and the five rules of a mask. -/
theorem coordinateResults : Obligations.CoordinateResults := by
  intro s w
  refine ⟨State.writesVec_choice (p := fun _ => w.fn.toNat = 4) rfl rfl (by decide) rfl id, State.writesVec_pat rfl rfl (by decide) rfl id,
    State.writesPred_vmaskc rfl fun j => rfl, State.writesPred_vmaskc rfl fun j => ?band, State.writesPred_vmaskc rfl fun j => ?win,
    State.writesPred_vmaskc rfl fun j => rfl, State.writesPred_vmaskc rfl fun j => rfl⟩
  case band => exact congrArg₂ (· && ·) (decide_eq_decide.mpr (by rw [Int.natCast_natAbs])) rfl
  case win => rfl

/-! ## Accumulator ports -/

section
variable {s : State} {i : Instr} {w : RWord} {chk r : SlotRes}

/-- A word that writes a row of a tile, with the exceptions of its elements (R155). -/
theorem State.gives_accRow {x : VecBits} {es : List Exc}
    (hx : exec i s = .next (s.slot i w.hd (s.accRes w (s.accWrite w x :: s.excFx w.hd.unit es))))
    (hf : (s.accRes w []).faults = []) (hu : s.unhindered i w.hd (s.accRes w [])) :
    s.gives i ((s.issued w.hd.unit [(3, .accRow (128 * accTile w + accRowNo w (s.ictx.sReg w.b)) x (guardMask (s.ictx.guard w.hd) 32))]).raises
      w.hd.unit es) := by
  rw [← State.installs_mapless s w.hd.unit _ (by simp [Act.mapless])]
  exact State.gives_raises hx hu hf [(3, _)] es rfl (by simp)

end

/-- The old value of an accumulator element plus the new one, rounded once (R155). -/
def State.accSum (s : State) (w : RWord) (j : Nat) : Nat × Exc :=
  let v := fAdd (fp32.decode (elem (s.accRead w) j 32)) (fp32.decode (s.accSrc w j))
  let d := fp32.deliver .rne v.1
  (d.1, v.2.or d.2)

theorem exec_vacwAdd (s : State) (w : RWord) : exec (.vacwAdd w) s = .next (s.slot (.vacwAdd w) w.hd (s.accRes w
    (s.accWrite w (vecOf 32 (fun j => (s.accSum w j).1))
      :: s.excFx w.hd.unit (((List.range 128).filter (active (s.ictx.guard w.hd) 32)).map (fun j => (s.accSum w j).2))))) := by
  rw [← activeExc_map_range (s.ictx.guard w.hd) 32 128 (s.accSum w), ← ofNat_packBits_fst 32 (s.accSum w)]
  rfl

/-- Settles O14: a row is read as it stands, and written as it is or added to the old one. -/
theorem accumulatorPortResults : Obligations.AccumulatorPortResults := by
  intro s w
  refine ⟨State.writesVec_reg rfl rfl (by decide) rfl id fun j _ => elem_mod .., fun hf hu => ?write, fun hf hu => ?add⟩
  case write => exact ⟨vecOf 32 (s.accSrc w), fun j hj => elem_vecOf 32 _ j hj, State.gives_accRow (es := []) rfl hf hu⟩
  case add => exact ⟨_, fun j hj => elem_vecOf 32 _ j hj, State.gives_accRow (exec_vacwAdd s w) hf hu⟩

/-! ## Special functions -/

/-- One element of a special function: of the active ones of the half that the word works on (R156). -/
def State.sfAt (s : State) (w : RWord) (f : Nat → SfResult) (j : Nat) : Nat × Exc :=
  if active (s.ictx.guard w.hd &&& sfHalf w (tyWidth (fTy w.ty))) (tyWidth (fTy w.ty)) j then
    sfElem (fTy w.ty) f (s.ictx.src w.hd (srcMapReg w.dst.toNat [w.a]) w.a (tyWidth (fTy w.ty)) j)
  else (0, excNone)

/-- A special function of one result. -/
theorem State.writesFloat_sf1 {s : State} {i : Instr} {w : RWord} {f : Nat → SfResult} (hx : exec i s = .next (s.slot i w.hd (s.sf1 w f))) :
    s.writesFloat i w (s.vecChk w [w.a]) 8 (tyWidth (fTy w.ty)) (elemCount (tyWidth (fTy w.ty)))
      (s.ictx.guard w.hd &&& sfHalf w (tyWidth (fTy w.ty))) (s.ictx.mapE [w.a]) (s.sfAt w f) :=
  State.writesFloat_of (vecOf _ fun j => (s.sfAt w f j).1) _ hx (by rw [← ofNat_packBits_fst]; rfl) (by decide) rfl id
    (fun j hj => elem_vecOf _ _ j hj) (activeExc_map_range ..)

theorem exec_vsincos (s : State) (w : RWord) :
    let b := tyWidth (fTy w.ty)
    let g := s.ictx.guard w.hd &&& sfHalf w b
    let act (d : Nat) (f : Nat → SfResult) : Effect :=
      .act 8 (.setV d (vecOf b (fun j => (s.sfAt w f j).1)) (guardMask g b) (s.ictx.mapE [w.a]) true none)
    exec (.vsincos w) s = .next (s.slot (.vsincos w) w.hd { s.vecChk w [w.a] with
      effects := act w.dst.toNat sfSin :: act w.c.toNat sfCos :: s.excFx w.hd.unit
        (((List.range (elemCount b)).filter (active g b)).map (fun j => (s.sfAt w sfSin j).2.or (s.sfAt w sfCos j).2)) }) := by
  dsimp only
  have hz (l : List Nat) : ((l.map (s.sfAt w sfSin)).zip (l.map (s.sfAt w sfCos))).map (fun p => (0, p.1.2.or p.2.2))
      = l.map (fun j => (0, (s.sfAt w sfSin j).2.or (s.sfAt w sfCos j).2)) := by
    rw [List.zip_map', List.map_map]
    rfl
  rw [← activeExc_map_range _ _ _ fun j => (0, (s.sfAt w sfSin j).2.or (s.sfAt w sfCos j).2), ← hz, ← ofNat_packBits_fst _ (s.sfAt w sfSin),
    ← ofNat_packBits_fst _ (s.sfAt w sfCos)]
  rfl

/-- Settles O15: one function or two of each active element, with the exceptions of both. -/
theorem specialFunctionResults : Obligations.SpecialFunctionResults := by
  intro s w
  refine ⟨State.writesFloat_sf1 rfl, State.writesFloat_sf1 rfl, State.writesFloat_sf1 rfl, State.writesFloat_sf1 rfl,
    State.writesFloat_sf1 rfl, State.writesFloat_sf1 rfl, State.writesFloat_sf1 rfl, State.writesFloat_sf1 rfl, State.writesFloat_sf1 rfl,
    State.writesFloat_sf1 rfl, fun hf hu => ?sincos, State.writesVec_pat rfl rfl (by decide) rfl id⟩
  case sincos =>
    exact ⟨_, _, fun j hj => ⟨elem_vecOf _ _ j hj, elem_vecOf _ _ j hj⟩,
      State.gives_raises (exec_vsincos s w) hu hf [(8, _), (8, _)] _ rfl (by simp)⟩

end Sys2Proof.Machine

/-! Results of the scratchpad's words (R162 to R178): scalar loads and stores, `AMO` and `PATLD`, vector loads and vector stores: the
statements of O16, O17 and O18. -/

namespace Sys2Proof.Machine

/-! ## Memory words that meet no hazard -/

/-- The post-increment of `[a+]` in flight (R12). -/
def postActs (c : Ctx) (w : MWord) (inc : Int) : List (Nat × Act) :=
  if w.amode = 1 then [(1, .setA w.areg (areaAdvance (c.aReg w.areg) inc))] else []

theorem postFx_eq (c : Ctx) (w : MWord) (inc : Int) : postFx c w inc = (postActs c w inc).map (fun a => .act a.1 a.2) := by
  unfold postFx postActs
  split
  · rfl
  · rfl

theorem postActs_latency (c : Ctx) (w : MWord) (inc : Int) : ∀ a ∈ postActs c w inc, a.1 ≠ 0 ∧ a.2.mapless = true := by
  unfold postActs
  split
  · simp [Act.mapless]
  · simp

/-- An access that is aligned and in range has no fault (R13, R162). -/
theorem State.memFaults_fits {s : State} {al a : Nat} {l : List (Nat × Nat)} (ha : a % al = 0)
    (hl : ∀ x ∈ l, x.1 + x.2 ≤ spadSize s.issue.core s.icore.team) : s.memFaults al a l = [] := by
  rw [State.memFaults, alignFaults, if_pos ha, rangeFaults_fits hl, List.append_nil]

section
variable {s : State} {i : Instr} {w : MWord} {r : SlotRes}

/-- A lone memory word: its acts and the post-increment are in flight. -/
theorem State.gives_memory (acts : List (Nat × Act)) (inc : Int) (hx : exec i s = .next (s.slot i w.hd r)) (hu : s.unhindered i w.hd r)
    (hf : r.faults = []) (he : r.effects = acts.map (fun a => .act a.1 a.2) ++ postFx s.ictx w inc) (hl : ∀ a ∈ acts, a.1 ≠ 0) :
    s.gives i (s.installs w.hd.unit (acts ++ postActs s.ictx w inc)) := by
  refine State.gives_installs hx hu hf _ (by rw [he, postFx_eq, List.map_append]) (fun a ha => ?_)
  exact (List.mem_append.mp ha).elim (hl a) (fun h => (postActs_latency _ _ _ a h).1)

/-- The same when its acts install no map. -/
theorem State.gives_memory_mapless (acts : List (Nat × Act)) (inc : Int) (hx : exec i s = .next (s.slot i w.hd r))
    (hu : s.unhindered i w.hd r) (hf : r.faults = []) (he : r.effects = acts.map (fun a => .act a.1 a.2) ++ postFx s.ictx w inc)
    (hl : ∀ a ∈ acts, a.1 ≠ 0 ∧ a.2.mapless = true) : s.gives i (s.issued w.hd.unit (acts ++ postActs s.ictx w inc)) := by
  have h := State.gives_memory acts inc hx hu hf he (fun a ha => (hl a ha).1)
  rwa [State.installs_mapless] at h
  exact fun a ha => (List.mem_append.mp ha).elim (fun h => (hl a h).2) (fun h => (postActs_latency _ _ _ a h).2)

/-- A lone memory word of one access and one act. -/
theorem State.gives_access {al a len lat : Nat} {act : Act} (hx : exec i s = .next (s.slot i w.hd r)) (hu : s.unhindered i w.hd r)
    (hf : r.faults = s.memFaults al a [(a, len)]) (he : r.effects = .act lat act :: postInc s.ictx w) (ha : a % al = 0)
    (hs : a + len ≤ spadSize s.issue.core s.icore.team) (hl : lat ≠ 0) (hm : act.mapless = true) :
    s.gives i (s.issued w.hd.unit ((lat, act) :: postActs s.ictx w (areaInc (s.ictx.aReg w.areg)))) :=
  State.gives_memory_mapless [(lat, act)] _ hx hu (hf.trans (State.memFaults_fits ha (by simpa using hs))) he (by simp [hl, hm])

end

/-! ## Scalar memory words -/

/-- The cells of a register's low bytes, the lowest first (R4). -/
theorem cellsAt_eq (a n : Nat) (x : Word) : cellsAt a n x.toNat = (List.range n).map (fun k => (a + k, x.extractLsb' (8 * k) 8)) := by
  unfold cellsAt bytesOf
  rw [← List.map_prod_left_eq_zip, List.map_map]
  rfl

/-- Settles O16: each form is one access with one act, and the post-increment. -/
theorem scalarMemoryResults : Obligations.ScalarMemoryResults := by
  intro s w
  have amo {i : Instr} {op : BitVec 3} (hx : exec i s = .next (s.slot i w.hd (s.amoRes w op))) (ha hs) (hu : s.unhindered i w.hd {}) :=
    State.gives_access (r := s.amoRes w op) hx hu rfl rfl ha hs (by decide) rfl
  refine ⟨fun ha hs hu => ?load, fun ha hs hu => ?store, amo rfl, amo rfl, amo rfl, amo rfl, amo rfl, fun ha hs hu => ?pattern⟩
  case load => exact State.gives_access rfl hu rfl rfl ha hs (by decide) rfl
  case store =>
    rw [← cellsAt_eq]
    exact State.gives_access rfl hu rfl rfl ha hs (by decide) rfl
  case pattern => exact State.gives_access rfl hu rfl rfl ha hs (by decide) rfl

/-! ## Effects on the team that issues -/

section
variable (t : State) (q : Issue) (wr : List (UnitCode × Nat)) (u : UnitCode)

theorem State.effect_gatherBusy (n : Nat) : (t.withIssue q).effect wr u (.gatherBusy n)
    = (t.updTeam q.core (fun x => { x with gatherFree := n })).withIssue q := rfl

theorem State.effect_popOffsets (n : Nat) : (t.withIssue q).effect wr u (.popOffsets n)
    = (t.updTeam q.core (fun x => { x with opq := x.opq.drop n })).withIssue q := rfl

end

section
variable {s : State} {i : Instr} {w : MWord} {r : SlotRes}

/-- A lone memory word that takes the gather unit, which is busy for eight cycles (R168). -/
theorem State.gives_gather (acts : List (Nat × Act)) (hx : exec i s = .next (s.slot i w.hd r)) (hu : s.unhindered i w.hd r)
    (hf : r.faults = []) (he : r.effects = acts.map (fun a => .act a.1 a.2) ++ postInc s.ictx w ++ [.gatherBusy (s.cycle + 8)])
    (hl : ∀ a ∈ acts, a.1 ≠ 0) :
    s.gives i ((s.installs w.hd.unit (acts ++ postActs s.ictx w (areaInc (s.ictx.aReg w.areg)))).updOwn
      (fun t => { t with gatherFree := s.cycle + 8 })) := by
  refine State.gives_then hx hu hf (acts ++ postActs s.ictx w (areaInc (s.ictx.aReg w.areg))) [.gatherBusy (s.cycle + 8)]
    (by rw [he, postInc, postFx_eq, List.map_append]) (fun a ha => ?_) (by simp [Effect.isPlain]) _ (fun wr q hq => ?_)
  · exact (List.mem_append.mp ha).elim (hl a) (fun h => (postActs_latency _ _ _ a h).1)
  · rw [List.map_singleton, List.foldl_cons, List.foldl_nil, State.effect_gatherBusy, hq.1]
    rfl

end

/-! ## Loads of vector registers -/

/-- The accesses of a gather are in range when those of its active elements are (R166, R168). -/
theorem gather_fits {c : Ctx} {w : MWord} {n size : Nat} (h : ∀ i < elemCount (tyWidth w.ty), active (c.guard w.hd) (tyWidth w.ty) i → gatherAddr c w i + n ≤ size) :
    ∀ x ∈ (gatherGroups w.ty (fun i => if active (c.guard w.hd) (tyWidth w.ty) i then some (gatherAddr c w i) else none)).flatten.map
      (fun q => (q.2, n)), x.1 + x.2 ≤ size := by
  intro x hx
  obtain ⟨i, hi, rfl⟩ := List.mem_map.mp ((mem_gather_accesses c w n x).mp hx)
  obtain ⟨hi, ha⟩ := List.mem_filter.mp hi
  exact h i (List.mem_range.mp hi) ha

section
variable (s : State) (w : MWord)

/-- How many offsets a load takes from the operand queue (R167). -/
def State.queueTaken : Nat := min (min (s.ictx.sReg w.c).toNat (elemCount (tyWidth w.ty))) s.icore.team.opq.length

def State.queueOffset (i : Nat) : Nat := (s.icore.team.opq.getD i 0).toNat

def State.queueAddr (i : Nat) : Nat := s.ictx.memAddr w + tyWidth w.ty / 8 * s.queueOffset i

/-- Is the element at the i-th offset in range (R162)? -/
def State.queueFits (i : Nat) : Bool := s.queueAddr w i + tyWidth w.ty / 8 ≤ spadSize s.issue.core s.icore.team

def State.queueGroups : List (List (Nat × Nat)) :=
  gatherGroups w.ty (fun i =>
    if i < s.queueTaken w && active (s.ictx.guard w.hd) (tyWidth w.ty) i && s.queueFits w i then some (s.queueAddr w i) else none)

/-- The offsets go to the carrier that the map of the elements names (R167). -/
def State.queueActs : List (Nat × Act) :=
  let b := tyWidth w.ty
  [(13, .setV w.b.toNat (vecOf b (fun i => if i < s.queueTaken w then s.queueOffset i else 0)) (guardMask (s.ictx.guard w.hd) b) none true none),
    (1, .reads { s.loadJob w 13 (b / 8) (guardMask (s.ictx.guard w.hd) b) (s.queueGroups w) with
      map := some (listedMap (ewOf b) w.b.toNat s.issue.ctx.val (s.queueTaken w) 0xFFFFFF 0), own := some w.b.toNat })]

variable {s w}

/-- A load from the operand queue, every offset being in range: none is reported (R167). -/
theorem exec_ldVQ (h : ∀ i < s.queueTaken w, active (s.ictx.guard w.hd) (tyWidth w.ty) i → s.queueFits w i) :
    exec (.ldVQ w) s = .next (s.slot (.ldVQ w) w.hd
      { faults := s.memFaults (tyWidth w.ty / 8) (s.ictx.memAddr w) []
        effects := (s.queueActs w).map (fun a => .act a.1 a.2) ++ postInc s.ictx w
          ++ [.gatherBusy (s.cycle + 8), .popOffsets (s.queueTaken w)]
        data := some [], reads := gatherReads (tyWidth w.ty / 8) (s.queueGroups w) }) := by
  have hbad : ¬ 0 < ((List.range (s.queueTaken w)).filter
      (fun i => active (s.ictx.guard w.hd) (tyWidth w.ty) i && !s.queueFits w i)).length := by
    rw [List.length_pos_iff, not_not, List.filter_eq_nil_iff]
    intro i hi
    cases ha : active (s.ictx.guard w.hd) (tyWidth w.ty) i with
    | false => simp
    | true => simp [h i (List.mem_range.mp hi) ha]
  have he (fx : List Effect) : fx ++ (if 0 < ((List.range (s.queueTaken w)).filter
      (fun i => active (s.ictx.guard w.hd) (tyWidth w.ty) i && !s.queueFits w i)).length then [.badOffsets ((List.range (s.queueTaken w)).filter
      (fun i => active (s.ictx.guard w.hd) (tyWidth w.ty) i && !s.queueFits w i)).length] else []) = fx := by
    rw [if_neg hbad, List.append_nil]
  rw [← he (_ ++ [Effect.gatherBusy (s.cycle + 8), .popOffsets (s.queueTaken w)])]
  rfl

theorem State.gives_ldVQ (ha : s.ictx.memAddr w % (tyWidth w.ty / 8) = 0)
    (h : ∀ i < s.queueTaken w, active (s.ictx.guard w.hd) (tyWidth w.ty) i → s.queueFits w i)
    (hu : s.unhindered (.ldVQ w) w.hd { data := some [], reads := gatherReads (tyWidth w.ty / 8) (s.queueGroups w) }) :
    s.gives (.ldVQ w) ((s.installs w.hd.unit (s.queueActs w ++ postActs s.ictx w (areaInc (s.ictx.aReg w.areg)))).updOwn
      (fun t => { t with gatherFree := s.cycle + 8, opq := t.opq.drop (s.queueTaken w) })) := by
  refine State.gives_then (exec_ldVQ h) hu (State.memFaults_fits ha (by simp)) (s.queueActs w ++ postActs s.ictx w _)
    [.gatherBusy (s.cycle + 8), .popOffsets (s.queueTaken w)] (by rw [postInc, postFx_eq, List.map_append]) (fun a ha => ?_)
    (by simp [Effect.isPlain]) _ (fun wr q hq => ?_)
  · refine (List.mem_append.mp ha).elim (fun h => ?_) (fun h => (postActs_latency _ _ _ a h).1)
    revert h
    simp only [State.queueActs, List.mem_cons, List.not_mem_nil, or_false]
    rintro (rfl | rfl) <;> simp
  · simp only [List.map_cons, List.map_nil, List.foldl_cons, List.foldl_nil]
    rw [State.effect_gatherBusy, State.effect_popOffsets, State.updTeam_updTeam, hq.1]
    rfl

end

section
variable {s : State} {w : MWord}

/-- A vector load that may take its map from a descriptor (R164). -/
theorem State.gives_mapped {i : Instr} {r : SlotRes} {a al : Nat} {l : List (Nat × Nat)} {act : Act}
    (hx : exec i s = .next (s.slot i w.hd r)) (hu : s.unhindered i w.hd r) (hf : r.faults = s.memFaults al a l ++ s.mapmFaults w)
    (he : r.effects = .act 1 act :: postInc s.ictx w) (ha : a % al = 0)
    (hl : ∀ x ∈ l, x.1 + x.2 ≤ spadSize s.issue.core s.icore.team) (hm : s.mapmFaults w = []) :
    s.gives i (s.installs w.hd.unit ((1, act) :: postActs s.ictx w (areaInc (s.ictx.aReg w.areg)))) :=
  State.gives_memory [(1, act)] _ hx hu (by rw [hf, State.memFaults_fits ha hl, hm]; rfl) he (by simp)

/-- What a transposed load does with its job and its rows (R169, R170). -/
def State.ldtRes (s : State) (w : MWord) (j : ReadJob) (rows : List Nat) : SlotRes :=
  let a := s.ictx.memAddr w
  let st := 32 * (w.b.toNat % 16 + 1)
  { faults := s.memFaults 32 a (rows.map (fun r => (a + r * st, 32))) ++ s.mapmFaults w
    effects := .act 1 (.reads { j with map := s.ictx.mapmOf w }) :: postInc s.ictx w
    maps := if w.mapm = 0 && w.ty != 12 then [w.d.toNat] else mapmReads w
    data := some [], reads := rows.map (fun r => (1, a + r * st, 32)) }

theorem State.gives_ldt {j : ReadJob} {rows maps : List Nat} (hx : exec (.ldt w) s = .next (s.slot (.ldt w) w.hd (s.ldtRes w j rows)))
    (hr : (if w.mapm = 0 && w.ty != 12 then [w.d.toNat] else mapmReads w) = maps)
    (hu : s.unhindered (.ldt w) w.hd { maps := maps, data := some []
                                       reads := rows.map (fun r => (1, s.ictx.memAddr w + r * (32 * (w.b.toNat % 16 + 1)), 32)) })
    (ha : s.ictx.memAddr w % 32 = 0)
    (hl : ∀ r ∈ rows, s.ictx.memAddr w + r * (32 * (w.b.toNat % 16 + 1)) + 32 ≤ spadSize s.issue.core s.icore.team)
    (hm : s.mapmFaults w = []) :
    s.gives (.ldt w) (s.installs w.hd.unit ((1, .reads { j with map := s.ictx.mapmOf w }) :: postActs s.ictx w (areaInc (s.ictx.aReg w.areg)))) := by
  subst hr
  refine State.gives_mapped hx hu rfl rfl ha (fun x hx => ?_) hm
  obtain ⟨r, hr, rfl⟩ := List.mem_map.mp hx
  exact hl r hr

/-- The rows of a transposed load in a scratchpad that holds the last of them. -/
theorem codeRows_fit {a st size : Nat} (h : a + 15 * st + 32 ≤ size) : ∀ r ∈ List.range 16, a + r * st + 32 ≤ size := by
  intro r hr
  have : r * st ≤ 15 * st := Nat.mul_le_mul_right st (by have := List.mem_range.mp hr; omega)
  omega

end

/-! ## The elements that a load collects -/

theorem natOf_eq_packBits (l : List Byte) : natOf l = packBits 8 (l.map (·.toNat)) := by
  induction l with
  | nil => rfl
  | cons b r ih =>
    have hc : natOf (b :: r) = natOf r <<< 8 ||| b.toNat := rfl
    have hp : packBits 8 ((b :: r).map (·.toNat)) = packBits 8 (r.map (·.toNat)) <<< 8 ||| b.toNat % 2 ^ 8 := rfl
    rw [hc, hp, ih, Nat.mod_eq_of_lt b.isLt]

theorem memRead_length (m : Memory) (a n : Nat) : (memRead m a n).length = n := by
  induction n generalizing m a with
  | zero => rfl
  | succ n ih => exact congrArg Nat.succ (ih _ _)

/-- A number of n bytes (R4). -/
theorem memNat_lt (m : Memory) (a n : Nat) : memNat m a n < 2 ^ (8 * n) := by
  have := packBits_lt 8 ((memRead m a n).map (·.toNat))
  rwa [← natOf_eq_packBits, List.length_map, memRead_length] at this

theorem elem_or (x y : VecBits) (i w : Nat) : elem (x ||| y) i w = elem x i w ||| elem y i w := by
  unfold elem
  rw [BitVec.toNat_or, Nat.shiftRight_or_distrib, Nat.or_mod_two_pow]

/-- A register with one element other than zero. -/
theorem elem_single {w x p i : Nat} (hx : x < 2 ^ w) (hp : w * (i + 1) ≤ 4096) :
    elem (BitVec.ofNat 4096 (x <<< (w * p))) i w = if i = p then x else 0 := by
  rw [elem_ofNat _ _ _ hp]
  refine Nat.eq_of_testBit_eq fun k => ?_
  rw [Nat.testBit_mod_two_pow, Nat.testBit_shiftRight, Nat.testBit_shiftLeft]
  rcases Nat.lt_trichotomy i p with h | rfl | h
  · have : w * (i + 1) ≤ w * p := Nat.mul_le_mul_left w h
    rw [Nat.mul_succ] at this
    rw [if_neg (by omega), Nat.zero_testBit]
    by_cases hk : k < w
    · simp [show ¬ w * p ≤ w * i + k by omega]
    · simp [hk]
  · rw [if_pos rfl, Nat.add_sub_cancel_left]
    by_cases hk : k < w
    · simp [hk]
    · simp [hk, Nat.testBit_lt_two_pow (Nat.lt_of_lt_of_le hx (Nat.pow_le_pow_right (by decide) (Nat.le_of_not_lt hk)))]
  · have : w * (p + 1) ≤ w * i := Nat.mul_le_mul_left w h
    rw [Nat.mul_succ] at this
    rw [if_neg (by omega), Nat.zero_testBit,
      Nat.testBit_lt_two_pow (Nat.lt_of_lt_of_le hx (Nat.pow_le_pow_right (by decide) (by omega : w ≤ w * i + k - w * p)))]
    simp

/-- Element p.1 of a register joined with the value of what stands at p.2. -/
def putElem (w : Nat) (f : Nat → Nat) (x : VecBits) (p : Nat × Nat) : VecBits := x ||| BitVec.ofNat 4096 (f p.2 <<< (w * p.1))

section
variable {w : Nat} {f : Nat → Nat} (hf : ∀ a, f a < 2 ^ w)
include hf

theorem elem_putElem (x : VecBits) (p : Nat × Nat) {i : Nat} (hi : w * (i + 1) ≤ 4096) :
    elem (putElem w f x p) i w = elem x i w ||| if i = p.1 then f p.2 else 0 := by
  rw [putElem, elem_or, elem_single (hf p.2) hi]

/-- Elements that a group does not name stay. -/
theorem elem_foldl_putElem_other {g : List (Nat × Nat)} {x : VecBits} {i : Nat} (hi : w * (i + 1) ≤ 4096) (h : i ∉ g.map (·.1)) :
    elem (g.foldl (putElem w f) x) i w = elem x i w := by
  induction g generalizing x with
  | nil => rfl
  | cons p r ih =>
    obtain ⟨hp, hr⟩ := not_or.mp (fun e => h (List.mem_cons.mpr e))
    rw [List.foldl_cons, ih hr, elem_putElem hf x p hi, if_neg hp, Nat.or_zero]

/-- Elements that a group names, each once, and that were zero. -/
theorem elem_foldl_putElem {g : List (Nat × Nat)} {x : VecBits} (hn : (g.map (·.1)).Nodup)
    (h : ∀ p ∈ g, w * (p.1 + 1) ≤ 4096 ∧ elem x p.1 w = 0) : ∀ p ∈ g, elem (g.foldl (putElem w f) x) p.1 w = f p.2 := by
  induction g generalizing x with
  | nil => simp
  | cons q r ih =>
    obtain ⟨hq, hr⟩ := List.nodup_cons.mp hn
    obtain ⟨hfit, hzero⟩ := h q (List.mem_cons_self ..)
    intro p hp
    rw [List.foldl_cons]
    rcases List.mem_cons.mp hp with rfl | hp
    · rw [elem_foldl_putElem_other hf hfit hq, elem_putElem hf x p hfit, hzero, if_pos rfl, Nat.zero_or]
    · refine ih hr (fun p hp => ?_) p hp
      obtain ⟨hfit, hzero⟩ := h p (List.mem_cons_of_mem _ hp)
      have hne : p.1 ≠ q.1 := fun e => hq (List.mem_map.mpr ⟨p, hp, e⟩)
      exact ⟨hfit, by rw [elem_putElem hf x q hfit, hzero, if_neg hne, Nat.zero_or]⟩

end

/-- One group of a load of plain elements (R165, R168). -/
theorem ReadJob.run_group {j : ReadJob} {g : List (Nat × Nat)} {r : List (List (Nat × Nat))} (hs : j.season = none) (hg : j.groups = g :: r)
    (ft : Vector (BitVec 32) 16) (m : Memory) :
    j.run ft m = { j with groups := r, got := g.foldl (putElem (8 * j.width) (fun a => memNat m a j.width)) j.got } := by
  unfold ReadJob.run
  rw [hg, hs]
  rfl

/-- Settles O17: each form is a job with its groups, its latency and its map, and a job joins the elements of its group to those it
has. -/
theorem vectorLoadResults : Obligations.VectorLoadResults := by
  refine ⟨fun s w => ?words, fun ft m j g r hs hg hn h => ?job⟩
  case job =>
    have hf (a : Nat) : memNat m a j.width < 2 ^ (8 * j.width) := memNat_lt m a j.width
    rw [ReadJob.run_group hs hg]
    exact ⟨rfl, elem_foldl_putElem hf hn h, fun i hi hni => elem_foldl_putElem_other hf hi hni⟩
  case words =>
    refine ⟨fun ha hs hm hu => ?plain, fun ha hs hu => ?spread, fun ha hs hu => ?gather, fun ha hs hu => State.gives_ldVQ ha hs hu,
      fun ht ha hs hm hu => ?codes, fun ht ha hs hm hu => ?transposed, fun ha hs hm hu => ?seasoned⟩
    case plain => exact State.gives_mapped rfl hu rfl rfl ha (by simpa using hs) hm
    case spread => exact State.gives_memory [(1, _)] _ rfl hu (State.memFaults_fits ha (List.forall_mem_singleton.mpr hs)) rfl (by simp)
    case gather => exact State.gives_gather [(1, _)] rfl hu (State.memFaults_fits ha (gather_fits hs)) rfl (by simp)
    case codes =>
      have hx : exec (.ldt w) s = .next (s.slot (.ldt w) w.hd (s.ldtRes w _ (List.range 16))) :=
        congrArg (fun r => Host.Outcome.next (s.slot (.ldt w) w.hd r)) (if_pos ht)
      exact State.gives_ldt hx (by simp [ht]) hu ha (codeRows_fit hs) hm
    case transposed =>
      have hx : exec (.ldt w) s = .next (s.slot (.ldt w) w.hd (s.ldtRes w _ _)) :=
        congrArg (fun r => Host.Outcome.next (s.slot (.ldt w) w.hd r)) (if_neg ht)
      exact State.gives_ldt hx (by simp only [bne_iff_ne.mpr ht, Bool.and_true, decide_eq_true_eq]) hu ha hs hm
    case seasoned =>
      simp only [← swWidth_eq w] at hs ⊢
      exact State.gives_mapped rfl hu rfl rfl ha (List.forall_mem_singleton.mpr hs) hm

/-! ## Stores of vector registers -/

/-- The cells that element i of b bits of a register gives at an address, the lowest byte first (R4, R173). -/
def elemCells (x : VecBits) (b at_ i : Nat) : List Host.Cell := (List.range (b / 8)).map (fun k => (at_ + k, x.extractLsb' (b * i + 8 * k) 8))

/-- A part of a number's low bits is that part of the number. -/
theorem mod_shiftRight_mod {b c n : Nat} (y : Nat) (h : c + n ≤ b) : (y % 2 ^ b) >>> c % 2 ^ n = y >>> c % 2 ^ n := by
  refine Nat.eq_of_testBit_eq fun k => ?_
  simp only [Nat.testBit_mod_two_pow, Nat.testBit_shiftRight]
  by_cases hk : k < n
  · simp [hk, show c + k < b by omega]
  · simp [hk]

theorem cellsAt_elem {b : Nat} (hb : b % 8 = 0) (x : VecBits) (at_ i : Nat) : cellsAt at_ (b / 8) (elem x i b) = elemCells x b at_ i := by
  unfold cellsAt bytesOf elemCells
  rw [← List.map_prod_left_eq_zip, List.map_map]
  refine List.map_congr_left fun k hk => Prod.ext rfl (BitVec.eq_of_toNat_eq ?_)
  have hk := List.mem_range.mp hk
  show BitVec.toNat (BitVec.ofNat 8 _) = _
  rw [BitVec.toNat_ofNat, BitVec.extractLsb'_toNat, elem, mod_shiftRight_mod _ (show 8 * k + 8 ≤ b by omega), Nat.shiftRight_add]

/-- What an element of 32 bits is as a word. -/
theorem ofNat_elem (x : VecBits) (i : Nat) : BitVec.ofNat 32 (elem x i 32) = x.extractLsb' (32 * i) 32 := by
  refine BitVec.eq_of_toNat_eq ?_
  rw [BitVec.toNat_ofNat, elem, Nat.mod_mod, BitVec.extractLsb'_toNat]

theorem map_zip_range {α β : Type} (l : List α) (d : α) (f : α × Nat → β) :
    (l.zip (List.range l.length)).map f = (List.range l.length).map (fun k => f (l.getD k d, k)) := by
  refine List.ext_getElem (by simp) fun k h1 h2 => ?_
  have hk : k < l.length := by simpa using h2
  simp [hk]

/-- Elements that are chosen, each with what it is chosen for. -/
theorem map_filterMap_if {α β γ : Type} (l : List α) (p : α → Bool) (f : α → β) (g : α × β → γ) :
    (l.filterMap (fun i => (if p i then some (f i) else none).map (fun a => (i, a)))).map g = (l.filter p).map (fun i => g (i, f i)) := by
  induction l with
  | nil => rfl
  | cons i l ih =>
    cases hp : p i with
    | false => simpa [hp] using ih
    | true => simpa [hp] using ih

section
variable {s : State} {w : MWord} (hb : tyWidth w.ty % 8 = 0)

/-- The elements of the register that the guard selects (R173). -/
def Ctx.storedElems (c : Ctx) (w : MWord) : List Nat := (List.range (elemCount (tyWidth w.ty))).filter (active (c.guard w.hd) (tyWidth w.ty))

/-- The active elements of the k-th cycle of a scatter (R174). -/
def Ctx.scattered (c : Ctx) (w : MWord) (k : Nat) : List Nat :=
  ((List.range (elemCount (tyWidth w.ty) / 8)).map (elemCount (tyWidth w.ty) / 8 * k + ·)).filter (active (c.guard w.hd) (tyWidth w.ty))

/-- The stores of a scatter, cycle after cycle. -/
def State.scatterActs (s : State) (w : MWord) : List (Nat × Act) :=
  (List.range 8).map (fun k => (3 + k, .store (((s.ictx.scattered w k).map (fun i =>
    elemCells (s.ictx.vReg w.d.toNat) (tyWidth w.ty) (gatherAddr s.ictx w i) i)).flatten)))

theorem zip_range_map {α : Type} (n : Nat) (f : Nat → α) : ((List.range n).map f).zip (List.range n) = (List.range n).map (fun k => (f k, k)) :=
  List.map_prod_right_eq_zip.symm

include hb

theorem exec_stV : exec (.stV w) s = .next (s.slot (.stV w) w.hd
    { faults := s.memFaults 32 (s.ictx.memAddr w) [(s.ictx.memAddr w, 512)]
      effects := .act 3 (.store (((s.ictx.storedElems w).map (fun i =>
        elemCells (s.ictx.vReg w.d.toNat) (tyWidth w.ty) (s.ictx.memAddr w + tyWidth w.ty / 8 * i) i)).flatten)) :: postInc s.ictx w }) := by
  simp only [← cellsAt_elem hb]
  rfl

theorem exec_stVC : exec (.stVC w) s = .next (s.slot (.stVC w) w.hd
    { faults := s.memFaults (tyWidth w.ty / 8) (s.ictx.memAddr w)
        (if s.ictx.storedElems w = [] then [] else [(s.ictx.memAddr w, tyWidth w.ty / 8 * (s.ictx.storedElems w).length)])
      effects := .act 3 (.store (((List.range (s.ictx.storedElems w).length).map (fun k =>
          elemCells (s.ictx.vReg w.d.toNat) (tyWidth w.ty) (s.ictx.memAddr w + tyWidth w.ty / 8 * k) ((s.ictx.storedElems w).getD k 0))).flatten))
        :: (if s.ictx.storedElems w = [] then [] else postFx s.ictx w (tyWidth w.ty / 8 * (s.ictx.storedElems w).length : Nat)) }) := by
  simp only [← cellsAt_elem hb]
  rw [← map_zip_range (s.ictx.storedElems w) 0 (fun p => cellsAt (s.ictx.memAddr w + tyWidth w.ty / 8 * p.2) (tyWidth w.ty / 8)
    (elem (s.ictx.vReg w.d.toNat) p.1 (tyWidth w.ty)))]
  rfl

/-- The cells of one cycle of a scatter, by the group of its elements. -/
theorem scattered_cells (k : Nat) :
    (s.ictx.scattered w k).map (fun i => elemCells (s.ictx.vReg w.d.toNat) (tyWidth w.ty) (gatherAddr s.ictx w i) i)
      = ((List.range (elemCount (tyWidth w.ty) / 8)).filterMap (fun i =>
        (if active (s.ictx.guard w.hd) (tyWidth w.ty) (k * (elemCount (tyWidth w.ty) / 8) + i) then
          some (gatherAddr s.ictx w (k * (elemCount (tyWidth w.ty) / 8) + i)) else none).map
            (fun a => (k * (elemCount (tyWidth w.ty) / 8) + i, a)))).map
        (fun q => cellsAt q.2 (tyWidth w.ty / 8) (elem (s.ictx.vReg w.d.toNat) q.1 (tyWidth w.ty))) := by
  simp only [← cellsAt_elem hb]
  unfold Ctx.scattered
  rw [← map_filterMap_if _ _ (gatherAddr s.ictx w) (fun q => cellsAt q.2 (tyWidth w.ty / 8) (elem (s.ictx.vReg w.d.toNat) q.1 (tyWidth w.ty))),
    List.filterMap_map]
  simp only [Function.comp_def, Nat.mul_comm]

theorem exec_stVS : exec (.stVS w) s = .next (s.slot (.stVS w) w.hd
    { faults := s.memFaults (tyWidth w.ty / 8) (s.ictx.memAddr w) ((gatherGroups w.ty (fun i =>
        if active (s.ictx.guard w.hd) (tyWidth w.ty) i then some (gatherAddr s.ictx w i) else none)).flatten.map (fun q => (q.2, tyWidth w.ty / 8)))
      effects := (s.scatterActs w).map (fun a => .act a.1 a.2) ++ postInc s.ictx w ++ [.gatherBusy (s.cycle + 8)] }) := by
  have hacts : (s.scatterActs w).map (fun a => Effect.act a.1 a.2) = ((gatherGroups w.ty (fun i =>
      if active (s.ictx.guard w.hd) (tyWidth w.ty) i then some (gatherAddr s.ictx w i) else none)).zip (List.range 8)).map (fun g =>
        .act (3 + g.2) (.store ((g.1.map (fun q => cellsAt q.2 (tyWidth w.ty / 8) (elem (s.ictx.vReg w.d.toNat) q.1 (tyWidth w.ty)))).flatten))) := by
    unfold gatherGroups State.scatterActs
    rw [zip_range_map, List.map_map, List.map_map]
    simp only [scattered_cells hb]
    rfl
  rw [hacts]
  rfl

end

section
variable {s : State} {w : MWord}

theorem filter_when {α : Type} (p : Prop) [Decidable p] (l : List α) (f : α → Bool) :
    l.filter (fun x => !decide p || f x) = if p then l.filter f else l := by
  by_cases h : p <;> simp [h]

theorem filter_only {α : Type} (p : Prop) [Decidable p] (l : List α) (f : α → Bool) :
    l.filter (fun x => decide p && f x) = if p then l.filter f else [] := by
  by_cases h : p <;> simp [h]

/-- The seasoned words that an `ST.SW` adds, of the active elements that are chosen (R176). -/
def State.seasonWords (s : State) (w : MWord) (f : Nat → Bool) : List (Nat × BitVec 32) :=
  (((List.range 128).filter (active (s.ictx.guard w.hd) 32)).filter f).map (fun i =>
    (s.ictx.memAddr w + swWidth (w.ty = 7) * i, (s.ictx.vReg w.d.toNat).extractLsb' (32 * i) 32))

theorem seasonWords_eq (s : State) (w : MWord) (f : Nat → Bool) : s.seasonWords w f =
    (((activeElems (s.ictx.guard w.hd) 32).map (fun i => (i, BitVec.ofNat 32 (elem (s.ictx.vReg w.d.toNat) i 32)))).filter (fun p => f p.1)).map
      (fun p => (s.ictx.memAddr w + swWidth (w.ty = 7) * p.1, p.2)) := by
  rw [List.filter_map, List.map_map]
  simp only [Function.comp_def, ofNat_elem]
  rfl

theorem exec_stSW (s : State) (w : MWord) : exec (.stSW w) s = .next (s.slot (.stSW w) w.hd
    { faults := s.memFaults 32 (s.ictx.memAddr w) [(s.ictx.memAddr w, 128 * swWidth (w.ty = 7))]
      effects := .act 3 (.season (w.ty = 7) s.gstep (s.seasonWords w (fun i => !decide (w.ty = 7) || i < 64))
        (s.seasonWords w (fun i => decide (w.ty = 7) && 64 ≤ i)) []) :: postInc s.ictx w }) := by
  have first (l : List (Nat × BitVec 32)) := filter_when (w.ty = 7) l (fun p => p.1 < 64)
  have later (l : List (Nat × BitVec 32)) := filter_only (w.ty = 7) l (fun p => 64 ≤ p.1)
  rw [seasonWords_eq, seasonWords_eq, first, later]
  rfl

theorem State.gives_stVC (hb : tyWidth w.ty % 8 = 0) (ha : s.ictx.memAddr w % (tyWidth w.ty / 8) = 0)
    (hs : s.ictx.storedElems w ≠ [] → s.ictx.memAddr w + tyWidth w.ty / 8 * (s.ictx.storedElems w).length ≤ spadSize s.issue.core s.icore.team)
    (hu : s.unhindered (.stVC w) w.hd {}) :
    s.gives (.stVC w) (s.issued w.hd.unit
      ((3, .store (((List.range (s.ictx.storedElems w).length).map (fun k => elemCells (s.ictx.vReg w.d.toNat) (tyWidth w.ty)
          (s.ictx.memAddr w + tyWidth w.ty / 8 * k) ((s.ictx.storedElems w).getD k 0))).flatten))
        :: if s.ictx.storedElems w = [] then [] else postActs s.ictx w (tyWidth w.ty / 8 * (s.ictx.storedElems w).length : Nat))) := by
  have hx := exec_stVC (s := s) hb
  by_cases he : s.ictx.storedElems w = []
  · rw [if_pos he, if_pos he] at hx
    rw [if_pos he]
    exact State.gives_acts hx hu (State.memFaults_fits ha (by simp)) [(3, _)] rfl (by simp [Act.mapless])
  · rw [if_neg he, if_neg he] at hx
    rw [if_neg he]
    exact State.gives_memory_mapless [(3, _)] _ hx hu (State.memFaults_fits ha (List.forall_mem_singleton.mpr (hs he))) rfl (by simp [Act.mapless])

theorem State.gives_stVS (hb : tyWidth w.ty % 8 = 0) (ha : s.ictx.memAddr w % (tyWidth w.ty / 8) = 0)
    (hs : ∀ i ∈ s.ictx.storedElems w, gatherAddr s.ictx w i + tyWidth w.ty / 8 ≤ spadSize s.issue.core s.icore.team)
    (hu : s.unhindered (.stVS w) w.hd {}) :
    s.gives (.stVS w) ((s.issued w.hd.unit (s.scatterActs w ++ postActs s.ictx w (areaInc (s.ictx.aReg w.areg)))).updOwn
      (fun t => { t with gatherFree := s.cycle + 8 })) := by
  have hfit := gather_fits (c := s.ictx) (w := w) (n := tyWidth w.ty / 8)
    (fun i hi ha => hs i (List.mem_filter.mpr ⟨List.mem_range.mpr hi, ha⟩))
  have hstores : ∀ a ∈ s.scatterActs w, a.1 ≠ 0 ∧ a.2.mapless = true := by simp [State.scatterActs, Act.mapless]
  have h := State.gives_gather (s.scatterActs w) (exec_stVS hb) hu (State.memFaults_fits ha hfit) rfl (fun a ha => (hstores a ha).1)
  rwa [State.installs_mapless] at h
  exact fun a ha => (List.mem_append.mp ha).elim (fun h => (hstores a h).2) (fun h => (postActs_latency _ _ _ a h).2)

end

/-- Settles O18: each form stores the cells of the active elements in its cycles. -/
theorem vectorStoreResults : Obligations.VectorStoreResults := by
  intro s w c a size b n g els x bytes post inc hb
  refine ⟨fun ha hs hu => ?plain, fun ha hs hu => State.gives_stVC hb ha hs hu, fun ha hs hu => State.gives_stVS hb ha hs hu,
    fun ha hs hu => ?seasoned⟩
  case plain =>
    exact State.gives_memory_mapless [(3, _)] _ (exec_stV hb) hu (State.memFaults_fits ha (List.forall_mem_singleton.mpr hs)) rfl
      (by simp [Act.mapless])
  case seasoned =>
    simp only [← swWidth_eq w] at hs ⊢
    exact State.gives_memory_mapless [(3, _)] _ (exec_stSW s w) hu (State.memFaults_fits ha (List.forall_mem_singleton.mpr hs)) rfl
      (by simp [Act.mapless])

end Sys2Proof.Machine

/-! Results of the matrix words, `TMAP`, `TWAIT` and `PATSWAP` (R81, R141, R179 to R187): the statement of O20. -/

namespace Sys2Proof.Machine

/-! ## Effects of matrix words -/

section
variable (t : State) (q : Issue) (wr : List (UnitCode × Nat)) (u : UnitCode)

theorem State.effect_busy (d : BitVec 4) : (t.withIssue q).effect wr u (.busy d)
    = (t.updTeam q.core (fun x => { x with tileBusy := x.tileBusy ||| BitVec.ofNat 16 (2 ^ d.toNat) })).withIssue q := rfl

theorem State.effect_mxBusy (n : Nat) : (t.withIssue q).effect wr u (.mxBusy n)
    = (t.updTeam q.core (fun x => { x with mxFree := n })).withIssue q := rfl

/-- In a bundle that writes no vector register, a tile's map is installed as it is (R19, R186). -/
theorem State.effect_tileMap (d : BitVec 4) (m : MapBits) : (t.withIssue q).effect [] u (.tileMap d m)
    = (t.updTeam q.core (fun x => ({ x with tileMaps := x.tileMaps.set d.toNat m d.isLt } : Team).pinCarriers m)).withIssue q := rfl

/-- What remains under `REP`, or the counters of a `REP` of one repetition (R81, R382). -/
theorem State.effect_rep (r : RepState) : (t.withIssue q).effect wr u (.rep r) = (if r.left = 0 then t.profRecord q.core q.ctx true r.prof
    else t.updCtx q.core q.ctx (fun x => { x with rep := some r })).withIssue q := by
  unfold State.effect
  dsimp only
  split
  · exact State.profRecord_withIssue ..
  · rfl

end

theorem State.profRecord_issue (s : State) (c : Fin 208) (k : Fin 4) (b : Bool) (p : Profile) : (s.profRecord c k b p).issue = s.issue := by
  unfold State.profRecord
  split <;> rfl

/-- A lone word whose acts write no vector register and install no map, and what else it does. -/
theorem State.gives_quiet {s : State} {i : Instr} {h : Head} {r : SlotRes} (hx : exec i s = .next (s.slot i h r)) (hr : s.unhindered i h r)
    (hf : r.faults = []) (acts : List (Nat × Act)) (rest : List Effect) (he : r.effects = acts.map (fun a => .act a.1 a.2) ++ rest)
    (hl : ∀ a ∈ acts, a.1 ≠ 0 ∧ a.2.mapless = true ∧ a.2.writesV = none) (hp : ∀ e ∈ rest, e.isPlain = true) (t : State)
    (ht : ∀ q, q.same s.issue → (rest.map (fun e => (h.unit, e))).foldl (fun t e => t.effect [] e.1 e.2)
      ((s.issued h.unit acts).withIssue q) = t.withIssue q) : s.gives i t := by
  have hw : acts.filterMap (fun a => a.2.writesV) = [] := List.filterMap_eq_nil_iff.mpr fun a ha => (hl a ha).2.2
  refine ⟨{ s.issue with effects := r.effects.map (fun e => (h.unit, e)) }, hr.1.1, ?_⟩
  rw [hx, State.slot_installs hr hf acts rest he (fun a ha => (hl a ha).1) hp, hw, State.installs_mapless _ _ _ (fun a ha => (hl a ha).2.1)]
  exact congrArg Host.Outcome.next (ht { s.issue with effects := r.effects.map (fun e => (h.unit, e)) } ⟨rfl, rfl, rfl, rfl⟩)

/-! ## The issue of a matrix word -/

section
variable (s : State) (i : Instr) (w : XWord) (fresh : Bool)

/-- The counters of a `REP` that begins with the word (R382). -/
def State.mxProf : Profile := ({ Profile.reset with addr := s.issue.baddr }).count s.cycle s.ictx [i]

/-- What remains to repeat after the first issue (R81). -/
def State.mxLeft : RepState :=
  { instr := i, left := s.mxCount - 1, next := s.cycle + mxOcc i w, advanced := false, seq := s.issue.seq, prof := s.mxProf i }

/-- The first repetition is in flight, its tile is busy and the unit is held (R22, R187). -/
def State.mxBegun : State :=
  (s.issued w.hd.unit [(1, .mx (s.mxJob s.issue.core s.issue.ctx i w fresh (s.mxCount == 1)))]).updOwn (fun y => { y with
    tileBusy := y.tileBusy ||| BitVec.ofNat 16 (2 ^ w.td.toNat), mxFree := s.cycle + mxOcc i w })

/-- What the issue of a matrix word changes that repeats at least once (R81). -/
def State.mxWorks : State :=
  if !s.mxRep then s.mxBegun i w fresh
  else if s.mxCount = 1 then (s.mxBegun i w fresh).profRecord s.issue.core s.issue.ctx true (s.mxProf i)
  else (s.mxBegun i w fresh).updSelf (fun x => { x with rep := some (s.mxLeft i w) })

theorem State.mxWorks_issue : (s.mxWorks i w fresh).issue = s.issue := by
  unfold State.mxWorks
  split
  · rfl
  · split
    · exact State.profRecord_issue ..
    · rfl

variable {s i w fresh}

/-- What a matrix word does but for its first act: the tile and the unit are busy, and a `REP` goes on. -/
def State.mxRest (s : State) (i : Instr) (w : XWord) : List Effect :=
  [.busy w.td, .mxBusy (s.cycle + mxOcc i w)] ++ if s.mxRep then [.rep (s.mxLeft i w)] else []

theorem State.mxRest_plain : ∀ e ∈ s.mxRest i w, e.isPlain = true := by
  unfold State.mxRest
  split
  · simp [Effect.isPlain]
  · simp [Effect.isPlain]

theorem State.effects_mxRest (hn : s.mxCount ≠ 0) {q : Issue} (hq : q.same s.issue) :
    ((s.mxRest i w).map (fun e => (w.hd.unit, e))).foldl (fun t e => t.effect [] e.1 e.2)
      ((s.issued w.hd.unit [(1, .mx (s.mxJob s.issue.core s.issue.ctx i w fresh (s.mxCount == 1)))]).withIssue q)
      = (s.mxWorks i w fresh).withIssue q := by
  have hbegun : ((s.issued w.hd.unit [(1, .mx (s.mxJob s.issue.core s.issue.ctx i w fresh (s.mxCount == 1)))]).updTeam q.core
      (fun x => { x with tileBusy := x.tileBusy ||| BitVec.ofNat 16 (2 ^ w.td.toNat) })).updTeam q.core (fun x => { x with mxFree := s.cycle + mxOcc i w })
      = s.mxBegun i w fresh := by
    rw [State.updTeam_updTeam, hq.1]
    rfl
  have hleft : (s.mxLeft i w).left = 0 ↔ s.mxCount = 1 := by
    show s.mxCount - 1 = 0 ↔ _
    omega
  unfold State.mxRest State.mxWorks
  rw [List.map_append, List.foldl_append, List.map_cons, List.map_singleton, List.foldl_cons, List.foldl_cons, List.foldl_nil,
    State.effect_busy, State.effect_mxBusy, hbegun]
  cases s.mxRep with
  | false => rfl
  | true =>
    simp only [if_true, List.map_singleton, List.foldl_cons, List.foldl_nil, State.effect_rep, hleft, Bool.not_true, Bool.false_eq_true, if_false,
      hq.1, hq.2.1]
    rfl

/-- A matrix word that works on a tile: with a count of 0 it does nothing, otherwise its first repetition is in flight, and
what else the word does follows (R81). -/
theorem State.works_of {ok : Prop} {chk R : SlotRes} {extra : State → State} (rest : List Effect)
    (hx : exec i s = .next (s.slot i w.hd (if s.mxCount = 0 then {} else R))) (hf : ok → R.faults = [])
    (he : R.effects = s.mxFx i w fresh ++ rest) (hp : ∀ e ∈ rest, e.isPlain = true)
    (hr : s.unhindered i w.hd chk → s.unhindered i w.hd R)
    (hextra : ∀ t q, t.issue = s.issue → q.same s.issue → (rest.map (fun e => (w.hd.unit, e))).foldl (fun t e => t.effect [] e.1 e.2) (t.withIssue q)
      = (extra t).withIssue q) :
    (s.mxCount = 0 → s.unhindered i w.hd {} → s.gives i (s.issued w.hd.unit []))
      ∧ (s.mxCount ≠ 0 → ok → s.unhindered i w.hd chk → s.gives i (extra (s.mxWorks i w fresh))) := by
  refine ⟨fun hn hu => ?_, fun hn hok hu => ?_⟩
  · rw [if_pos hn] at hx
    exact State.gives_nothing hx hu
  · rw [if_neg hn] at hx
    refine State.gives_quiet hx (hr hu) (hf hok) [(1, .mx (s.mxJob s.issue.core s.issue.ctx i w fresh (s.mxCount == 1)))] (s.mxRest i w ++ rest)
      he (by simp [Act.mapless, Act.writesV]) (fun e h => ?_) _ (fun q hq => ?_)
    · exact (List.mem_append.mp h).elim (State.mxRest_plain e) (hp e)
    · rw [List.map_append, List.foldl_append, State.effects_mxRest hn hq]
      exact hextra _ q (State.mxWorks_issue ..) hq

/-- A matrix word that does no more than work on its tile. -/
theorem State.works_only {ok : Prop} {chk R : SlotRes} (hx : exec i s = .next (s.slot i w.hd (if s.mxCount = 0 then {} else R)))
    (hf : ok → R.faults = []) (he : R.effects = s.mxFx i w fresh) (hr : s.unhindered i w.hd chk → s.unhindered i w.hd R) :
    (s.mxCount = 0 → s.unhindered i w.hd {} → s.gives i (s.issued w.hd.unit []))
      ∧ (s.mxCount ≠ 0 → ok → s.unhindered i w.hd chk → s.gives i (s.mxWorks i w fresh)) :=
  State.works_of (extra := id) [] hx hf (he.trans (List.append_nil _).symm) (by simp) hr (fun _ _ _ _ => rfl)

end

/-! ## Matrix words that meet no hazard -/

/-- Operands that are aligned and in range have no fault (R162). -/
theorem operands_fit {s : State} {l : List Nat} {acc : List (Nat × Nat)} (ha : ∀ a ∈ l, a % 32 = 0)
    (hs : ∀ x ∈ acc, x.1 + x.2 ≤ spadSize s.issue.core s.icore.team) : mxAlign l ++ s.mxRange acc = [] := by
  rw [mxAlign_aligned ha, State.mxRange, rangeFaults_fits hs]
  rfl

/-- Every operand of a list is aligned and has its bytes in range. -/
def State.operandsFit (s : State) (l : List Nat) (len : Nat) : Prop := ∀ a ∈ l, a % 32 = 0 ∧ a + len ≤ spadSize s.issue.core s.icore.team

section
variable {s : State} {w : XWord}

theorem State.operandsFit.one {l : List Nat} {len : Nat} (h : s.operandsFit l len) : mxAlign l ++ s.mxRange (l.map (fun a => (a, len))) = [] := by
  refine operands_fit (fun a ha => (h a ha).1) (fun x hx => ?_)
  obtain ⟨a, ha, rfl⟩ := List.mem_map.mp hx
  exact (h a ha).2

theorem State.operandsFit.two {l l' : List Nat} {len len' : Nat} (h : s.operandsFit l len) (h' : s.operandsFit l' len') :
    mxAlign (l ++ l') ++ s.mxRange (l.map (fun a => (a, len)) ++ l'.map (fun b => (b, len'))) = [] := by
  refine operands_fit (fun a ha => (List.mem_append.mp ha).elim (fun ha => (h a ha).1) (fun ha => (h' a ha).1)) (fun x hx => ?_)
  rcases List.mem_append.mp hx with hx | hx
  · obtain ⟨a, ha, rfl⟩ := List.mem_map.mp hx
    exact (h a ha).2
  · obtain ⟨a, ha, rfl⟩ := List.mem_map.mp hx
    exact (h' a ha).2

/-- The rows of A that a gathered product reads, by its index register (R182). -/
def State.gatherRows (s : State) (w : XWord) (a : Nat) : List Nat := (List.range 128).map (fun r => a + 32 * elem (s.ictx.vReg w.vi.toNat) r 32)

/-- The same as the word's checks list them. -/
theorem gatherRows_accesses (s : State) (w : XWord) (a : Nat) :
    ((List.range 128).map (fun r => elem (s.ictx.vReg w.vi.toNat) r 32)).map (fun i => (a + 32 * i, 32)) = (s.gatherRows w a).map (fun r => (r, 32)) := by
  rw [State.gatherRows, List.map_map, List.map_map]
  rfl

/-- The tile map of a gathered product (R182). -/
def State.gatherMap (s : State) (w : XWord) : MapBits := gatherTileMap (s.icore.team.tileMaps.get w.td.toFin) w.vi.toNat s.issue.ctx.val

/-- A gathered product also takes the gather unit, and its tile's map follows the index register (R168, R182). -/
theorem State.effects_gathered {s t : State} {q : Issue} {w : XWord} (ht : t.issue = s.issue) (hq : q.same s.issue) :
    ([.gatherBusy (s.cycle + 8), .tileMap w.td (s.gatherMap w)].map (fun e => (w.hd.unit, e))).foldl (fun t e => t.effect [] e.1 e.2) (t.withIssue q)
      = (t.updOwn (fun y => ({ y with
          gatherFree := s.cycle + 8
          tileMaps := y.tileMaps.set w.td.toNat (s.gatherMap w) w.td.isLt }).pinCarriers (s.gatherMap w))).withIssue q := by
  rw [List.map_cons, List.map_singleton, List.foldl_cons, List.foldl_cons, List.foldl_nil, State.effect_gatherBusy, State.effect_tileMap,
    State.updTeam_updTeam, State.updOwn, ht, hq.1]

theorem State.gathered_fit {as bs : List Nat} (hb : s.operandsFit bs 4096)
    (ha : ∀ a ∈ as, a % 32 = 0 ∧ ∀ r ∈ s.gatherRows w a, r + 32 ≤ spadSize s.issue.core s.icore.team) :
    mxAlign (as ++ bs) ++ s.mxRange ((as.map (fun a => (s.gatherRows w a).map (fun r => (r, 32)))).flatten ++ bs.map (fun b => (b, 4096))) = [] := by
  refine operands_fit (fun a h => (List.mem_append.mp h).elim (fun h => (ha a h).1) (fun h => (hb a h).1)) (fun x hx => ?_)
  rcases List.mem_append.mp hx with hx | hx
  · obtain ⟨l, hl, hx⟩ := List.mem_flatten.mp hx
    obtain ⟨a, hal, rfl⟩ := List.mem_map.mp hl
    obtain ⟨r, hr, rfl⟩ := List.mem_map.mp hx
    exact (ha a hal).2 r hr
  · obtain ⟨b, hbl, rfl⟩ := List.mem_map.mp hx
    exact (hb b hbl).2

theorem exec_mmaG (s : State) (w : XWord) : exec (.mmaG w) s = .next (s.slot (.mmaG w) w.hd (if s.mxCount = 0 then {} else
    { faults := mxAlign (repOffs s.mxCount (s.ictx.aReg w.aa) ++ repOffs s.mxCount (s.ictx.aReg w.ab))
        ++ s.mxRange (((repOffs s.mxCount (s.ictx.aReg w.aa)).map (fun a => (s.gatherRows w a).map (fun r => (r, 32)))).flatten
          ++ (repOffs s.mxCount (s.ictx.aReg w.ab)).map (fun b => (b, 4096)))
      effects := s.mxFx (.mmaG w) w false ++ [.gatherBusy (s.cycle + 8), .tileMap w.td (s.gatherMap w)]
      reads := ((s.gatherRows w ((repOffs s.mxCount (s.ictx.aReg w.aa)).headD 0)).zip (List.range 128)).map (fun p => (1 + p.2 / 16, p.1, 32))
        ++ unitReads ((repOffs s.mxCount (s.ictx.aReg w.ab)).headD 0) 9 16 })) := by
  have hreads (l : List Nat) : (l.zip (List.range 128)).map (fun p => (1 + p.2 / 16, p.1, 32))
      = ((l.map (fun r => (r, 32))).zip (List.range 128)).map (fun p => (1 + p.2 / 16, p.1)) := by
    rw [List.zip_map_left, List.map_map]
    rfl
  rw [hreads]
  simp only [← gatherRows_accesses]
  rfl

/-- A descriptor for a tile that is in order: the word has no fault (R162, R186). -/
theorem State.gives_tmap {p : PreRead} (hp : s.ictx.preread = some p) (ha : areaAddr (s.ictx.aReg w.aa) 0 % 32 = 0)
    (hs : areaAddr (s.ictx.aReg w.aa) 0 + 48 ≤ spadSize s.issue.core s.icore.team)
    (hok : tileMapOk p.mx (partCtx s.icore.team.part) (partVregs s.icore.team.part) = true) (he : s.ictx.chken = true → p.mxEarly = none)
    (hu : s.unhindered (.tmap w) w.hd {}) :
    s.gives (.tmap w) ((s.issued w.hd.unit []).updOwn (fun y =>
      { ({ y with tileMaps := y.tileMaps.set w.td.toNat (mapInstall p.mx) w.td.isLt } : Team).pinCarriers (mapInstall p.mx) with mxFree := s.cycle + 2 })) := by
  have hdesc : s.ictx.mxDesc = p.mx := by rw [Ctx.mxDesc, hp]
  rw [← hdesc] at hok ⊢
  refine State.gives_quiet (r := { faults := _, effects := [.tileMap w.td (mapInstall s.ictx.mxDesc), .mxBusy (s.cycle + 2)] }) rfl hu ?_ [] _ rfl (by simp)
    (by simp [Effect.isPlain]) _ (fun q hq => ?_)
  · show s.memFaults 32 _ [(_, 48)] ++ (if tileMapOk s.ictx.mxDesc _ _ then _ else _) ++ (if s.ictx.chken then _ else _) = []
    rw [mxEarly_none (by rwa [hp]), if_pos hok, State.memFaults_fits ha (List.forall_mem_singleton.mpr hs)]
    rfl
  · rw [List.map_cons, List.map_singleton, List.foldl_cons, List.foldl_cons, List.foldl_nil, State.effect_tileMap, State.effect_mxBusy,
      State.updTeam_updTeam, hq.1]
    rfl

end

/-- Settles O20: a count of 0 leaves no work, otherwise the first repetition is in flight and what the word does besides follows. -/
theorem matrixWordResults : Obligations.MatrixWordResults := by
  refine ⟨fun s w => ?works, fun s w p => ?map, fun s w hu => State.gives_one_effect rfl rfl (fun _ _ => rfl) hu⟩
  case works =>
    have product {i : Instr} {asz bsz : Nat} {fresh : Bool} (hx : exec i s = .next (s.slot i w.hd (s.mmaRes i w asz bsz fresh))) :=
      State.works_only (fresh := fresh) (ok := s.gangFaults i = [] ∧ s.operandsFit (repOffs s.mxCount (s.mxA s.issue.core s.issue.ctx i w.aa)) asz
        ∧ s.operandsFit (repOffs s.mxCount (s.mxB s.issue.core s.issue.ctx i w.ab)) bsz) hx
        (fun ⟨hg, ha, hb⟩ => by rw [hg, List.nil_append]; exact ha.two hb) rfl id
    refine ⟨product rfl, product rfl, product rfl, ?gathered, ?sparse, ?zero, ?load⟩
    case gathered =>
      exact State.works_of _ (exec_mmaG s w) (fun h => State.gathered_fit h.1 h.2) rfl (by simp [Effect.isPlain]) id (fun _ _ => State.effects_gathered)
    case sparse => exact State.works_only rfl (fun h => State.operandsFit.one h) rfl id
    case zero => exact State.works_only rfl (fun _ => rfl) rfl id
    case load => exact State.works_only rfl (fun h => State.operandsFit.one h) rfl id
  case map => exact ⟨fun hp ha hs hok he hu => State.gives_tmap hp ha hs hok he hu, State.gives_nothing rfl⟩

end Sys2Proof.Machine

/-! What lands at the banks of the scratchpad and of the accumulator (R141, R155, R161 to R187, R236): the statement of O42. -/

namespace Sys2Proof.Machine

/-! ## Numbers in memory -/

/-- A byte that is stored once, or always with one value, reads back. -/
theorem memGet_memScatter_mem {m : Memory} (hm : Memory.wf m = true) (cells : List Host.Cell) {b : Host.Cell} (hb : b ∈ cells)
    (h : ∀ d ∈ cells, d.1 = b.1 → d = b) : memGet (memScatter m cells) b.1 = b.2 := by
  induction cells using List.reverseRecOn with
  | nil => simp at hb
  | append_singleton l d ih =>
    have hput : memScatter m (l ++ [d]) = memPut (memScatter m l) d.1 d.2 := List.foldl_append ..
    rw [hput, memGet_memPut (Memory.wf_memScatter l hm)]
    split
    · next e => rw [h d (by simp) e.symm]
    · next e =>
      have hne : b ≠ d := fun x => e (congrArg Prod.fst x)
      exact ih ((List.mem_append.mp hb).resolve_right (fun x => hne (List.mem_singleton.mp x))) (fun c hc => h c (List.mem_append_left _ hc))

theorem memNat_eq {m : Memory} (hm : Memory.wf m = true) (a n : Nat) : memNat m a n = natOf ((List.range n).map (fun i => memGet m (a + i))) :=
  congrArg natOf (memRead_eq hm a n)

/-- A number depends on its bytes alone. -/
theorem memNat_congr {m m' : Memory} (hm : Memory.wf m = true) (hm' : Memory.wf m' = true) {a n : Nat}
    (h : ∀ i < n, memGet m (a + i) = memGet m' (a + i)) : memNat m a n = memNat m' a n := by
  rw [memNat_eq hm, memNat_eq hm', List.map_congr_left fun i hi => h i (List.mem_range.mp hi)]

/-- The bytes of a number make its low bits (R4). -/
theorem natOf_bytesOf (n x : Nat) : natOf (bytesOf n x) = x % 2 ^ (8 * n) := by
  induction n generalizing x with
  | zero => exact (Nat.mod_one x).symm
  | succ n ih =>
    have hrest : (List.range n).map ((fun i => BitVec.ofNat 8 (x >>> (8 * i))) ∘ Nat.succ) = bytesOf n (x >>> 8) :=
      List.map_congr_left fun i _ => by rw [Function.comp, Nat.mul_succ, Nat.add_comm, Nat.shiftRight_add]
    have hcons : bytesOf (n + 1) x = BitVec.ofNat 8 x :: bytesOf n (x >>> 8) := by
      rw [bytesOf, List.range_succ_eq_map, List.map_cons, List.map_map, hrest]
      rfl
    have hnat : natOf (bytesOf (n + 1) x) = natOf (bytesOf n (x >>> 8)) <<< 8 ||| x % 2 ^ 8 := by rw [hcons]; rfl
    rw [hnat, ih, ← Nat.shiftLeft_add_eq_or_of_lt (Nat.mod_lt x (by decide)), Nat.shiftLeft_eq, Nat.shiftRight_eq_div_pow,
      show 8 * (n + 1) = 8 + 8 * n by ring, Nat.pow_add, Nat.mod_mul]
    omega

theorem mem_cellsAt {a n x : Nat} {c : Host.Cell} : c ∈ cellsAt a n x ↔ ∃ k < n, c = (a + k, BitVec.ofNat 8 (x >>> (8 * k))) := by
  unfold cellsAt bytesOf
  rw [← List.map_prod_left_eq_zip, List.map_map]
  simp only [List.mem_map, List.mem_range, Function.comp_apply, eq_comm]

section
variable {m : Memory} (hm : Memory.wf m = true) (a n x : Nat)
include hm

/-- Bytes outside a number that is written read as before. -/
theorem memGet_writeNat_other {b : Nat} (h : b < a ∨ a + n ≤ b) : memGet (memScatter m (cellsAt a n x)) b = memGet m b := by
  refine memGet_memScatter_other hm _ b fun c hc => ?_
  obtain ⟨k, hk, rfl⟩ := mem_cellsAt.mp hc
  show a + k ≠ b
  omega

/-- A number that is written reads back. -/
theorem memNat_writeNat : memNat (memScatter m (cellsAt a n x)) a n = x % 2 ^ (8 * n) := by
  rw [memNat_eq (Memory.wf_memScatter _ hm), ← natOf_bytesOf, bytesOf]
  refine congrArg natOf (List.map_congr_left fun i hi => ?_)
  refine memGet_memScatter_mem hm _ (b := (a + i, BitVec.ofNat 8 (x >>> (8 * i)))) (mem_cellsAt.mpr ⟨i, List.mem_range.mp hi, rfl⟩) fun d hd e => ?_
  obtain ⟨k, _, rfl⟩ := mem_cellsAt.mp hd
  obtain rfl : k = i := Nat.add_left_cancel e
  rfl

end

/-! ## Values as they are loaded (R165, R177) -/

section
variable {ty : BitVec 4} {x : Nat} (hx : x < 2 ^ sWidth ty)
include hx

theorem emod_sWidth : ((x : Int) % (2 ^ sWidth ty : Nat)).toNat = x := by
  rw [Int.emod_eq_of_lt (Int.natCast_nonneg x) (by exact_mod_cast hx), Int.toNat_natCast]

theorem lt_word : x < 2 ^ 64 := hx.trans_le (Nat.pow_le_pow_right (by decide) (sWidth_bounds ty).2)

/-- A value of a type that is not signed is extended with zeroes. -/
theorem extLoad_unsigned (ht : tySigned ty = false) : (extLoad ty x).toNat = x := by
  unfold extLoad
  split
  · by_cases h0 : ty = 0
    · subst h0
      have h := toNat_sExt_mod 0 x
      rw [emod_sWidth hx] at h
      rwa [← Nat.mod_eq_of_lt (sExt 0 (x : Int)).isLt]
    · have hs : (ty == 0 || tySigned ty) = false := by rw [ht, beq_eq_false_iff_ne.mpr h0]; rfl
      rw [sExt, emod_sWidth hx, hs, intOf_sWidth ty hx, if_neg (by simp), BitVec.ofInt_natCast, BitVec.toNat_ofNat, Nat.mod_eq_of_lt (lt_word hx)]
  · rw [BitVec.toNat_ofNat, Nat.mod_eq_of_lt (lt_word hx)]

/-- A value of a signed type keeps its sign. -/
theorem extLoad_signed (ht : tySigned ty = true) :
    (extLoad ty x).toInt = if 2 ^ (sWidth ty - 1) ≤ x then (x : Int) - 2 ^ sWidth ty else x := by
  have hint : (tyInt ty || decide (ty = 0)) = true := (show ∀ t, tySigned t = true → (tyInt t || decide (t = 0)) = true by decide) ty ht
  have hs : (ty == 0 || tySigned ty) = true := by rw [ht, Bool.or_true]
  have hw := two_pow_sWidth ty
  have h63 : 2 ^ (sWidth ty - 1) ≤ 2 ^ 63 := Nat.pow_le_pow_right (by decide) (by have := (sWidth_bounds ty).2; omega)
  have hcast : (2 : Int) ^ sWidth ty = ((2 ^ sWidth ty : Nat) : Int) := by push_cast; rfl
  have hval : (extLoad ty x).toInt = (intOf (sWidth ty) true x).bmod (2 ^ 64) := by
    rw [extLoad, if_pos hint, sExt, emod_sWidth hx, hs, BitVec.toInt_ofInt]
  rw [hval, intOf_sWidth ty hx, hcast]
  split
  · next h => rw [if_pos h.2, Int.bmod_eq_of_le] <;> omega
  · next h =>
    have hlt : ¬ 2 ^ (sWidth ty - 1) ≤ x := fun e => h ⟨rfl, e⟩
    rw [if_neg hlt, Int.bmod_eq_of_le] <;> omega

end

/-! ## What an act makes of its core's team -/

/-- Core c's team becomes `y`; device memory and every other core are as they were. -/
def State.becomes (s u : State) (c : Fin 208) (y : Team) : Prop :=
  (u.coreAt c).team = y ∧ u.mem = s.mem ∧ ∀ d : Fin 208, d ≠ c → u.coreAt d = s.coreAt d

section
variable {s u : State} {c : Fin 208} {y : Team}

theorem State.becomes_self (s : State) (c : Fin 208) : s.becomes s c (s.coreAt c).team := ⟨rfl, rfl, fun _ _ => rfl⟩

theorem State.becomes.updTeam (h : s.becomes u c y) (f : Team → Team) : s.becomes (u.updTeam c f) c (f y) := by
  obtain ⟨rfl, hmem, hother⟩ := h
  exact ⟨congrArg Core.team (State.coreAt_updTeam u c f), hmem, fun d hd => (State.coreAt_updTeam_ne u f hd).trans (hother d hd)⟩

theorem State.becomes_updTeam (s : State) (c : Fin 208) (f : Team → Team) : s.becomes (s.updTeam c f) c (f (s.coreAt c).team) :=
  (State.becomes_self s c).updTeam f

theorem State.becomes.record (h : s.becomes u c y) {d : Fin 208} {kind aux a v l} : s.becomes (u.record d kind aux a v l) c y := h

theorem State.becomes.recordExc (h : s.becomes u c y) {d : Fin 208} {a b x l} : s.becomes (u.recordExc d a b x l) c y := by
  unfold State.recordExc
  split
  · exact h.record
  · exact h

/-- The registers, device memory and the other cores stay when the contexts of the team do. -/
theorem State.becomes.frame (h : s.becomes u c y) (hc : y.ctxs = (s.coreAt c).team.ctxs) :
    (u.coreAt c).team.ctxs = (s.coreAt c).team.ctxs ∧ u.mem = s.mem ∧ ∀ d : Fin 208, d ≠ c → u.coreAt d = s.coreAt d :=
  ⟨(congrArg Team.ctxs h.1).trans hc, h.2⟩

end

section
variable {s : State} {c : Fin 208} {p : Pend}

theorem State.runAct_store {bs : List Host.Cell} (h : p.act = .store bs) :
    s.becomes (s.runAct c p) c { (s.coreAt c).team.spadPut bs with fresh := bs.map (fun b => (b.1, p.ctx, p.baddr)) ++ (s.coreAt c).team.fresh } := by
  unfold State.runAct
  rw [h]
  exact State.becomes_updTeam ..

theorem State.runAct_loadS {ty : BitVec 4} {a : Nat} {r : Reg6} (h : p.act = .loadS ty a r) :
    s.becomes (s.runAct c p) c ((s.coreAt c).team.push { p with
      due := s.cycle + 3, act := .setS r (extLoad ty (memNat (s.coreAt c).team.spad a (sWidth ty / 8))) }) := by
  unfold State.runAct
  rw [h]
  exact State.becomes_updTeam ..

/-- The new value of an element (R177). -/
def amoValue (op : BitVec 3) (ty : BitVec 4) (old : Nat) (v w : Word) : Nat × Exc :=
  amoNew op ty old (v.toNat % 2 ^ sWidth ty) (w.toNat % 2 ^ sWidth ty)

theorem State.runAct_amo {op : BitVec 3} {ty : BitVec 4} {a : Nat} {v w : Word} {r : Reg6} (h : p.act = .amo op ty a v w r) :
    s.becomes (s.runAct c p) c (((s.coreAt c).team.spadPut (cellsAt a (sWidth ty / 8)
        (amoValue op ty (memNat (s.coreAt c).team.spad a (sWidth ty / 8)) v w).1)).push { p with
      due := s.cycle + 2, act := .setS r (extLoad ty (memNat (s.coreAt c).team.spad a (sWidth ty / 8))) }) := by
  unfold State.runAct
  rw [h]
  exact (State.becomes_updTeam ..).recordExc

theorem State.runAct_loadPattern {bank : Bool} {n a : Nat} (h : p.act = .loadPattern bank n a) :
    s.becomes (s.runAct c p) c ((s.coreAt c).team.push { p with
      due := s.cycle + 6, act := .pattern bank n (BitVec.ofNat 1280 (memNat (s.coreAt c).team.spad a 160 % 2 ^ 1025)) }) := by
  unfold State.runAct
  rw [h]
  exact State.becomes_updTeam ..

/-- An entry written to one bank of the pattern memory (R141). -/
def Team.putPattern (t : Team) (bank : Bool) (n : Nat) (e : BitVec 1280) : Team :=
  if bank then { t with patB := storePutD 0 t.patB n e } else { t with patA := storePutD 0 t.patA n e }

theorem State.runAct_pattern {bank : Bool} {n : Nat} {e : BitVec 1280} (h : p.act = .pattern bank n e) :
    s.becomes (s.runAct c p) c ((s.coreAt c).team.putPattern bank n e) := by
  unfold State.runAct
  rw [h]
  exact State.becomes_updTeam ..

theorem State.runAct_accRow {r : Nat} {v m : VecBits} (h : p.act = .accRow r v m) :
    s.becomes (s.runAct c p) c ((s.coreAt c).team.setAccRow r v m) := by
  unfold State.runAct
  rw [h]
  exact State.becomes_updTeam ..

/-- A load goes on with its next group, or its register is written when it lands (R168). -/
def Team.loadGoesOn (t : Team) (cycle : Nat) (p : Pend) (j : ReadJob) : Team :=
  if j.groups = [] then t.push { p with due := j.land, act := .setV j.dst (if j.codes then transposeCodes j.got else j.got) j.mask j.map true j.own }
  else t.push { p with due := cycle + 1, act := .reads j }

theorem State.runAct_reads {j : ReadJob} (h : p.act = .reads j) :
    s.becomes (s.runAct c p) c ((s.coreAt c).team.loadGoesOn s.cycle p (j.run s.factors (s.coreAt c).team.spad)) := by
  unfold State.runAct
  rw [h]
  exact State.becomes_updTeam ..

/-- One merge-add of `ST.SW` (R176, R236). -/
def seasonStep (ft : Vector (BitVec 32) 16) (wide : Bool) (g : Nat) (acc : Team × List Exc) (w : Nat × BitVec 32) : Team × List Exc :=
  let r := swMergeAdd ft wide (memNat acc.1.spad w.1 (swWidth wide)) w.2.toNat g
  (acc.1.spadPut (cellsAt w.1 (swWidth wide) r.1), acc.2 ++ [r.2])

/-- The merge-adds of a cycle. -/
def Team.seasoned (t : Team) (ft : Vector (BitVec 32) 16) (wide : Bool) (g : BitVec 32) (ws : List (Nat × BitVec 32)) : Team :=
  (ws.foldl (seasonStep ft wide g.toNat) (t, [])).1

theorem State.runSeason_eq (s : State) (c : Fin 208) (p : Pend) (wide : Bool) (g : BitVec 32) (ws later : List (Nat × BitVec 32))
    (seen : List Nat) : ∃ fresh x l, s.runSeason c p wide g ws later seen =
      let u := s.updTeam c (fun _ => { (s.coreAt c).team.seasoned s.factors wide g ws with fresh := fresh })
      if later = [] then u.recordExc c p.baddr p.unit.code x false
      else u.updTeam c (fun t => t.push { p with due := s.cycle + 1, act := .season wide g later [] l }) :=
  ⟨_, _, _, rfl⟩

theorem State.runAct_season {wide : Bool} {g : BitVec 32} {ws later : List (Nat × BitVec 32)} {seen : List Nat}
    (h : p.act = .season wide g ws later seen) : ∃ fresh l,
      let t : Team := { (s.coreAt c).team.seasoned s.factors wide g ws with fresh := fresh }
      s.becomes (s.runAct c p) c (if later = [] then t else t.push { p with due := s.cycle + 1, act := .season wide g later [] l }) := by
  have hrun : s.runAct c p = s.runSeason c p wide g ws later seen := by
    unfold State.runAct
    rw [h]
  obtain ⟨fresh, x, l, he⟩ := s.runSeason_eq c p wide g ws later seen
  refine ⟨fresh, l, ?_⟩
  rw [hrun, he]
  dsimp only
  split
  · exact (s.becomes_updTeam c _).recordExc
  · exact (s.becomes_updTeam c _).updTeam _

end

/-! ## Stores and read-modify-writes of the scratchpad -/

section
variable {ft : Vector (BitVec 32) 16} {wide : Bool} {g : Nat}

/-- The word that a merge-add makes of what stands at its address (R236). -/
def seasonedWord (ft : Vector (BitVec 32) 16) (wide : Bool) (g : Nat) (m : Memory) (w : Nat × BitVec 32) : Nat :=
  (swMergeAdd ft wide (memNat m w.1 (swWidth wide)) w.2.toNat g).1 % 2 ^ (8 * swWidth wide)

/-- Merge-adds at places that do not overlap: each word is replaced, and nothing else (R176). -/
theorem foldl_seasonStep {ws : List (Nat × BitVec 32)} (hd : (ws.map (·.1)).Pairwise (fun a b => a + swWidth wide ≤ b)) (acc : Team × List Exc)
    (hm : Memory.wf acc.1.spad = true) :
    let t := (ws.foldl (seasonStep ft wide g) acc).1
    (t.ctxs = acc.1.ctxs ∧ t.acc = acc.1.acc ∧ t.pend = acc.1.pend) ∧ Memory.wf t.spad = true
      ∧ (∀ w ∈ ws, memNat t.spad w.1 (swWidth wide) = seasonedWord ft wide g acc.1.spad w)
      ∧ ∀ b, (∀ w ∈ ws, b < w.1 ∨ w.1 + swWidth wide ≤ b) → memGet t.spad b = memGet acc.1.spad b := by
  induction ws generalizing acc with
  | nil => exact ⟨⟨rfl, rfl, rfl⟩, hm, by simp, fun _ _ => rfl⟩
  | cons v r ih =>
    obtain ⟨hv, hr⟩ := List.pairwise_cons.mp hd
    have hv (w : Nat × BitVec 32) (hw : w ∈ r) : v.1 + swWidth wide ≤ w.1 := hv w.1 (List.mem_map_of_mem hw)
    have hm1 : Memory.wf (seasonStep ft wide g acc v).1.spad = true := Team.wf_spadPut (t := acc.1) _ hm
    have hother (b : Nat) (hb : b < v.1 ∨ v.1 + swWidth wide ≤ b) : memGet (seasonStep ft wide g acc v).1.spad b = memGet acc.1.spad b :=
      memGet_writeNat_other hm _ _ _ hb
    obtain ⟨hframe, hwf, hwords, hrest⟩ := ih hr (seasonStep ft wide g acc v) hm1
    rw [List.foldl_cons]
    refine ⟨hframe, hwf, fun w hw => ?_, fun b hb => ?_⟩
    · rcases List.mem_cons.mp hw with rfl | hw
      · refine (memNat_congr hwf hm1 fun i hi => hrest _ fun w hw => ?_).trans (memNat_writeNat hm ..)
        have := hv w hw
        omega
      · rw [hwords w hw, seasonedWord, seasonedWord, memNat_congr hm1 hm fun i hi => hother _ ?_]
        have := hv w hw
        omega
    · rw [hrest b fun w hw => hb w (List.mem_cons_of_mem _ hw), hother b (hb v (List.mem_cons_self ..))]

end

/-- The new value of an element that is added, replaced, or replaced when it is the one compared with (R177). -/
theorem amoValue_eq (ty : BitVec 4) (old : Nat) (v w : Word) :
    (ty ≠ 7 → (amoValue 0 ty old v w).1 = (old + v.toNat) % 2 ^ sWidth ty) ∧ (amoValue 3 ty old v w).1 = v.toNat % 2 ^ sWidth ty
      ∧ (amoValue 4 ty old v w).1 = if old = v.toNat % 2 ^ sWidth ty then w.toNat % 2 ^ sWidth ty else old := by
  refine ⟨fun h => ?_, rfl, rfl⟩
  have : amoValue 0 ty old v w = ((old + v.toNat % 2 ^ sWidth ty) % 2 ^ sWidth ty, excNone) := if_neg h
  rw [this, Nat.add_mod_mod]

/-- The types of `AMO` are whole bytes. -/
theorem sWidth_bytes {ty : BitVec 4} (h : ty.toNat < 12) : 8 * (sWidth ty / 8) = sWidth ty := by
  revert h
  revert ty
  decide

/-! ## Stores by number -/

theorem Store.wfFrom_mono {α : Type} {n k : Nat} {m : Store α} (h : k ≤ n) (hm : Store.wfFrom n m) : Store.wfFrom k m := by
  cases m with
  | nil => trivial
  | cons c r => exact ⟨h.trans hm.1, hm.2⟩

theorem Store.wfFrom_of_pairwise {α : Type} {n : Nat} {m : Store α} (hn : ∀ k ∈ m.map (·.1), n ≤ k) (hm : (m.map (·.1)).Pairwise (· < ·)) :
    Store.wfFrom n m := by
  induction m generalizing n with
  | nil => trivial
  | cons c r ih =>
    obtain ⟨hc, hr⟩ := List.pairwise_cons.mp hm
    exact ⟨hn c.1 (List.mem_cons_self ..), ih (fun k hk => hc k hk) hr⟩

/-- Numbers that rise are in order (R24). -/
theorem Store.wf_of_pairwise {α : Type} {m : Store α} (hm : (m.map (·.1)).Pairwise (· < ·)) : Store.wfFrom 0 m :=
  Store.wfFrom_of_pairwise (fun _ _ => Nat.zero_le _) hm

theorem Store.wfFrom_storePut {α : Type} {n a : Nat} {m : Store α} (hn : n ≤ a) (hm : Store.wfFrom n m) (x : Option α) :
    Store.wfFrom n (storePut m a x) := by
  induction m generalizing n with
  | nil =>
    cases x with
    | none => trivial
    | some x => exact ⟨hn, trivial⟩
  | cons c r ih =>
    obtain ⟨k, y⟩ := c
    obtain ⟨hk, hr⟩ := hm
    unfold storePut
    split
    · next h => exact ⟨hk, ih h hr⟩
    · next h =>
      split
      · next e =>
        subst e
        cases x with
        | none => exact Store.wfFrom_mono (by omega) hr
        | some x => exact ⟨hk, hr⟩
      · cases x with
        | none => exact ⟨hk, hr⟩
        | some x => exact ⟨hn, by omega, hr⟩

/-! ## Rows of the accumulator -/

/-- Rows written from `base` on, each with its place. -/
def putRows (base : Nat) (acc : Store VecBits) (l : List (VecBits × Nat)) : Store VecBits :=
  l.foldl (fun m p => storePutD 0 m (base + p.2) p.1) acc

section
variable {base : Nat} {acc : Store VecBits} (hacc : Store.wfFrom 0 acc)
include hacc

theorem putRow_get (a : Nat) (v : VecBits) (q : Nat) : storeGet 0 (storePutD 0 acc a v) q = if q = a then v else storeGet 0 acc q :=
  storeGet_storePutD hacc a v q

theorem putRow_wf (a : Nat) (v : VecBits) : Store.wfFrom 0 (storePutD 0 acc a v) := Store.wfFrom_storePut (Nat.zero_le a) hacc _

theorem putRows_other {l : List (VecBits × Nat)} {q : Nat} (h : ∀ p ∈ l, q ≠ base + p.2) :
    storeGet 0 (putRows base acc l) q = storeGet 0 acc q := by
  induction l generalizing acc with
  | nil => rfl
  | cons p r ih =>
    rw [putRows, List.foldl_cons]
    exact (ih (putRow_wf hacc ..) fun x hx => h x (List.mem_cons_of_mem _ hx)).trans
      ((putRow_get hacc ..).trans (if_neg (h p (List.mem_cons_self ..))))

theorem putRows_get {l : List (VecBits × Nat)} (hn : (l.map (·.2)).Nodup) {p : VecBits × Nat} (hp : p ∈ l) :
    storeGet 0 (putRows base acc l) (base + p.2) = p.1 := by
  induction l generalizing acc with
  | nil => simp at hp
  | cons c r ih =>
    obtain ⟨hc, hr⟩ := List.nodup_cons.mp hn
    rw [putRows, List.foldl_cons]
    rcases List.mem_cons.mp hp with rfl | hp
    · refine (putRows_other (putRow_wf hacc ..) fun x hx e => hc ?_).trans ((putRow_get hacc ..).trans (if_pos rfl))
      exact List.mem_map.mpr ⟨x, hx, (Nat.add_left_cancel e).symm⟩
    · exact ih (putRow_wf hacc ..) hr hp

/-- Rows that are cleared read as zero (R186). -/
theorem clearRows_get (b : Nat) (l : List Nat) (q : Nat) :
    storeGet 0 (l.foldl (fun m r => storePut m (b + r) none) acc) q = if ∃ r ∈ l, q = b + r then 0 else storeGet 0 acc q := by
  induction l generalizing acc with
  | nil => simp
  | cons r l ih =>
    have hput : storePut acc (b + r) none = storePutD 0 acc (b + r) 0 := by rw [storePutD, if_pos rfl]
    rw [List.foldl_cons, hput, ih (putRow_wf hacc ..), putRow_get hacc]
    by_cases h : ∃ x ∈ l, q = b + x
    · rw [if_pos h, if_pos (by obtain ⟨x, hx, e⟩ := h; exact ⟨x, List.mem_cons_of_mem _ hx, e⟩)]
    · rw [if_neg h]
      exact if_congr (by simpa using fun x hx e => absurd ⟨x, hx, e⟩ h) rfl rfl

end

/-! ## Products (R120, R181 to R183) -/

theorem map_snd_zip_sublist {α β : Type} (l : List α) (l' : List β) : ((l.zip l').map (·.2)).Sublist l' := by
  induction l generalizing l' with
  | nil => exact List.nil_sublist _
  | cons a l ih =>
    cases l' with
    | nil => exact List.Sublist.refl _
    | cons b l' => exact (ih l').cons_cons b

/-- An element of a row of products (R120). -/
theorem elem_mmaRow {depth k : Nat} {old : VecBits} {row col : List FVal} {cols : List (List FVal)} (hk : k < 128) (hcol : cols[k]? = some col) :
    elem (mmaRow depth old row cols).1 k 32 = (accumulate (elem old k 32) (dotTree depth row col)).1 % 2 ^ 32 := by
  have hlen : k < cols.length := (List.getElem?_eq_some_iff.mp hcol).1
  have hcol : cols[k] = col := (List.getElem?_eq_some_iff.mp hcol).2
  have hrow : k < (((cols.zip (List.range 128)).map (fun p => accumulate (elem old p.2 32) (dotTree depth row p.1))).map (·.1)).length := by
    simp; omega
  have h : elem (mmaRow depth old row cols).1 k 32 = _ % 2 ^ 32 := elem_packBits 32 _ k hk hrow
  rw [h]
  simp [hcol]

namespace MxJob

/-- A row of the tile before the product (R181). -/
def oldRow (j : MxJob) (acc : Store VecBits) (r : Nat) : VecBits := if j.fresh then 0 else storeGet 0 acc (128 * j.tile.toNat + r)

/-- The rows of the tile after it. -/
def newRows (j : MxJob) (acc : Store VecBits) : List VecBits :=
  (mmaRows j.operands.2.2 ((List.range 128).map (j.oldRow acc)) j.operands.1 j.operands.2.1).1

theorem multiply_eq (j : MxJob) (acc : Store VecBits) :
    (j.multiply acc).1 = putRows (128 * j.tile.toNat) acc ((j.newRows acc).zip (List.range 128)) := rfl

section
variable {j : MxJob} {acc : Store VecBits} (hacc : Store.wfFrom 0 acc)

theorem newRows_get {r : Nat} {row : List FVal} (hr : r < 128) (hrow : j.operands.1[r]? = some row) :
    (j.newRows acc)[r]? = some (mmaRow j.operands.2.2 (j.oldRow acc r) row j.operands.2.1).1 := by
  simp [newRows, mmaRows, List.getElem?_zip_eq_some, hr, hrow]

include hacc

/-- Rows outside the tile stay. -/
theorem multiply_other {q : Nat} (h : q < 128 * j.tile.toNat ∨ 128 * j.tile.toNat + 128 ≤ q) :
    storeGet 0 (j.multiply acc).1 q = storeGet 0 acc q := by
  rw [multiply_eq]
  refine putRows_other hacc fun p hp => ?_
  have := List.mem_range.mp (List.of_mem_zip (a := p.1) (b := p.2) hp).2
  omega

/-- Each element of the tile is the old one plus the dot product of its row and column. -/
theorem multiply_elem {r k : Nat} {row col : List FVal} (hr : r < 128) (hrow : j.operands.1[r]? = some row) (hk : k < 128)
    (hcol : j.operands.2.1[k]? = some col) : elem (storeGet 0 (j.multiply acc).1 (128 * j.tile.toNat + r)) k 32
      = (accumulate (elem (j.oldRow acc r) k 32) (dotTree j.operands.2.2 row col)).1 % 2 ^ 32 := by
  have hmem : ((mmaRow j.operands.2.2 (j.oldRow acc r) row j.operands.2.1).1, r) ∈ (j.newRows acc).zip (List.range 128) :=
    List.mem_of_getElem? (i := r) (List.getElem?_zip_eq_some.mpr ⟨newRows_get hr hrow, by simp [hr]⟩)
  have hnodup : (((j.newRows acc).zip (List.range 128)).map (·.2)).Nodup :=
    List.nodup_range.sublist (map_snd_zip_sublist ..)
  rw [multiply_eq, putRows_get hacc hnodup hmem, elem_mmaRow hk hcol]

end

end MxJob

/-! ## The end of matrix work (R22, R123) -/

section
variable {s u v : State} {c : Fin 208} {y z : Team}

theorem State.becomes.trans (h : s.becomes u c y) (g : u.becomes v c z) : s.becomes v c z :=
  ⟨g.1, g.2.1.trans h.2.1, fun d hd => (g.2.2 d hd).trans (h.2.2 d hd)⟩

theorem State.becomes.foldl_record (h : s.becomes u c y) {kind aux a} {v : Nat → Word} (l : List Nat) :
    s.becomes (l.foldl (fun s b => s.record c kind aux a (v b) []) u) c y := by
  induction l generalizing u with
  | nil => exact h
  | cons b l ih => exact ih h.record

end

/-- Kinds of work that add a product when they end. -/
def MxKind.adds : MxKind → Bool
  | .dense | .gathered | .tagged => true
  | _ => false

/-- Kinds of work that report exceptions. -/
def MxKind.counts : MxKind → Bool
  | .zero | .load => false
  | _ => true

/-- The tile is not busy any more (R22). -/
def Team.tileFreed (t : Team) (tile : BitVec 4) : Team := { t with tileBusy := t.tileBusy &&& ~~~(BitVec.ofNat 16 (2 ^ tile.toNat)) }

/-- The exceptions of matrix work have been reported (R123). -/
def Team.mxReported (t : Team) : Team := { t with mxExc := ExcCount.zero, mxBlk := false }

/-- A product with its exceptions is added to the tile. -/
def Team.mxAdded (t : Team) (acc : Store VecBits) (x : ExcCount) (bad : Bool) : Team :=
  { t with acc := acc, mxExc := t.mxExc.add x, mxBlk := t.mxBlk || bad }

section
variable (s : State) (c : Fin 208) (p : Pend) (j : MxJob)

/-- A product is added, with the records of its reserved blocks (R117). -/
def State.mxAdd : State :=
  (j.badBlocks.foldl (fun s a => s.record c Cause.blkFmt.code 0 p.baddr (BitVec.ofNat 64 a) []) s).updTeam c
    (fun t => t.mxAdded (j.multiply (s.coreAt c).team.acc).1 (j.multiply (s.coreAt c).team.acc).2 (j.badBlocks != []))

/-- The exceptions of all repetitions are reported (R123). -/
def State.mxReport : State := (s.recordExc c p.baddr 9 (s.coreAt c).team.mxExc (s.coreAt c).team.mxBlk).updTeam c Team.mxReported

/-- After the last repetition the exceptions are reported and the tile is free (R22). -/
def State.mxClose (report : Bool) : State :=
  if j.lastRep then (if report then s.mxReport c p else s).updTeam c (fun t => t.tileFreed j.tile) else s

theorem State.mxFinish_eq : s.mxFinish c p j = (if j.kind.adds then s.mxAdd c p j else s).mxClose c p j j.kind.counts := by
  unfold State.mxFinish State.mxClose State.mxAdd
  generalize j.multiply (s.coreAt c).team.acc = product
  obtain ⟨acc, x⟩ := product
  cases j.kind
  case zero | load | sparse => rfl
  case dense | gathered | tagged =>
    simp only [MxKind.adds, MxKind.counts, if_true]
    rfl

variable {s c p j}

/-- What the end of matrix work makes of the team: the product, the tile's busy bit, and the counts of exceptions (R22, R123). -/
structure Team.MxDone (t : Team) (j : MxJob) (y : Team) : Prop where
  acc : y.acc = if j.kind.adds then (j.multiply t.acc).1 else t.acc
  busy : y.tileBusy = if j.lastRep then t.tileBusy &&& ~~~(BitVec.ofNat 16 (2 ^ j.tile.toNat)) else t.tileBusy
  ctxs : y.ctxs = t.ctxs
  spad : y.spad = t.spad
  pend : y.pend = t.pend

theorem State.becomes.mxReport {u : State} {y : Team} (h : s.becomes u c y) : s.becomes (u.mxReport c p) c y.mxReported :=
  h.recordExc.updTeam Team.mxReported

/-- The end leaves the accumulator as it stands. -/
theorem State.becomes.mxClose {u : State} {y : Team} (h : s.becomes u c y) (report : Bool) : ∃ z, s.becomes (u.mxClose c p j report) c z
    ∧ z.acc = y.acc ∧ z.ctxs = y.ctxs ∧ z.spad = y.spad ∧ z.pend = y.pend
    ∧ z.tileBusy = if j.lastRep then y.tileBusy &&& ~~~(BitVec.ofNat 16 (2 ^ j.tile.toNat)) else y.tileBusy := by
  unfold State.mxClose
  cases j.lastRep with
  | false => exact ⟨y, h, rfl, rfl, rfl, rfl, rfl⟩
  | true =>
    cases report with
    | false => exact ⟨y.tileFreed j.tile, h.updTeam (fun t => t.tileFreed j.tile), rfl, rfl, rfl, rfl, rfl⟩
    | true => exact ⟨y.mxReported.tileFreed j.tile, h.mxReport.updTeam (fun t => t.tileFreed j.tile), rfl, rfl, rfl, rfl, rfl⟩

theorem State.mxFinish_becomes : ∃ y, s.becomes (s.mxFinish c p j) c y ∧ (s.coreAt c).team.MxDone j y := by
  rw [State.mxFinish_eq]
  cases hadds : j.kind.adds with
  | false =>
    obtain ⟨y, hy, hacc, hctxs, hspad, hpend, hbusy⟩ := (s.becomes_self c).mxClose (p := p) (j := j) j.kind.counts
    exact ⟨y, hy, by rw [hadds]; exact hacc, hbusy, hctxs, hspad, hpend⟩
  | true =>
    have hadd : s.becomes (s.mxAdd c p j) c _ := ((s.becomes_self c).foldl_record j.badBlocks).updTeam _
    obtain ⟨y, hy, hacc, hctxs, hspad, hpend, hbusy⟩ := hadd.mxClose (p := p) (j := j) j.kind.counts
    exact ⟨y, hy, by rw [hadds]; exact hacc, hbusy, hctxs, hspad, hpend⟩

end

/-! ## A cycle of matrix work -/

section
variable {s : State} {c : Fin 208} {p : Pend} {j : MxJob}

theorem State.runAct_mx (h : p.act = .mx j) : s.runAct c p = s.mxRun c p j := by
  unfold State.runAct
  rw [h]

/-- Work that goes on in the next cycle. -/
def State.mxOn (s : State) (cycle : Nat) (c : Fin 208) (p : Pend) (j : MxJob) : State :=
  s.updTeam c (fun t => t.push { p with due := cycle + 1, act := .mx j })

theorem State.mxRun_done (h0 : 0 < j.fin) (h : j.fin ≤ s.cycle) : s.mxRun c p j = s.mxFinish c p j :=
  if_pos (by simp [h0, h])

theorem mx_underWay {cycle : Nat} (h : cycle < j.fin ∨ j.fin = 0) : ¬ (decide (j.fin ≤ cycle) && decide (0 < j.fin)) = true := by
  simp
  omega

/-- The accumulator after the bank that `TZERO` clears in a cycle (R186). -/
def MxJob.cleared (j : MxJob) (cycle : Nat) (acc : Store VecBits) : Store VecBits :=
  (List.range 8).foldl (fun m r => storePut m (8 * (16 * j.tile.toNat + (cycle - j.start - 1)) + r) none) acc

theorem State.mxRun_zero (hk : j.kind = .zero) (h : s.cycle < j.fin ∨ j.fin = 0) : s.mxRun c p j =
    let u := s.updTeam c (fun t => { t with acc := j.cleared s.cycle t.acc })
    if s.cycle - j.start = 16 then u.mxFinish c p j else u.mxOn s.cycle c p j := by
  refine (if_neg (mx_underWay h)).trans ?_
  rw [hk]
  rfl

/-- The row that `TLOAD` has read (R186). -/
def MxJob.loadedRow (j : MxJob) : VecBits :=
  if j.tya = 8 then
    BitVec.ofNat 4096 (packBits 32 ((List.range 128).map (fun i => packBits 256 (j.aGot.map (·.toNat)) >>> (16 * i) % 2 ^ 16 * 2 ^ 16)))
  else BitVec.ofNat 4096 (packBits 256 (j.aGot.map (·.toNat)))

/-- The row of `TLOAD` that is read next. -/
def State.loadNext (s : State) (j : MxJob) : MxJob :=
  { j with aGot := if s.cycle - j.start ≤ 128 then
      unitsAt (s.operandMem j.aCore) (j.aAt + (if j.tya = 8 then 256 else 512) * (s.cycle - j.start - 1)) ((if j.tya = 8 then 256 else 512) / 32) else [] }

/-- `TLOAD` with a row read: it is written, and the next one is read (R186). -/
theorem State.mxRun_load (hk : j.kind = .load) (h : s.cycle < j.fin ∨ j.fin = 0) (hg : j.aGot ≠ []) : s.mxRun c p j =
    let u := s.updTeam c (fun t => { t with acc := storePutD 0 t.acc (128 * j.tile.toNat + (s.cycle - j.start - 2)) j.loadedRow })
    if s.cycle - j.start = 129 then u.mxFinish c p (s.loadNext j) else u.mxOn s.cycle c p (s.loadNext j) := by
  obtain ⟨a, r, hl⟩ := List.exists_cons_of_ne_nil hg
  refine (if_neg (mx_underWay h)).trans ?_
  cases j
  cases hk
  cases hl
  rfl

/-- A block-sparse walk that is under way goes on (R184). -/
theorem State.mxRun_sparse (hk : j.kind = .sparse) (h : s.cycle < j.fin ∨ j.fin = 0) {u : State} {i : MxJob}
    (hstep : s.sparseStep c p j (s.cycle - j.start) = (u, i)) : s.mxRun c p j = u.mxOn u.cycle c p i := by
  refine (if_neg (mx_underWay h)).trans ?_
  rw [hk, hstep]
  rfl

/-! ## Clearing and loading a tile (R186) -/

/-- What stays when the rows of one tile change. -/
def Team.tileFrame (t : Team) (tile : BitVec 4) (y : Team) : Prop :=
  y.ctxs = t.ctxs ∧ y.spad = t.spad ∧ ∀ r, r < 128 * tile.toNat ∨ 128 * tile.toNat + 128 ≤ r → accRowOf y r = accRowOf t r

/-- Work that ends or goes on when a part of the tile has changed: what the team then holds. -/
theorem State.mx_endsOrGoesOn {f : Team → Team} {i : MxJob} (last : Bool) (hi : i.kind.adds = false) :
    ∃ y, s.becomes (if last then (s.updTeam c f).mxFinish c p i else (s.updTeam c f).mxOn s.cycle c p i) c y
      ∧ y.acc = (f (s.coreAt c).team).acc ∧ y.ctxs = (f (s.coreAt c).team).ctxs ∧ y.spad = (f (s.coreAt c).team).spad
      ∧ (last = true → i.lastRep = true → y.tileBusy = (f (s.coreAt c).team).tileBusy &&& ~~~(BitVec.ofNat 16 (2 ^ i.tile.toNat))) := by
  have hf := s.becomes_updTeam c f
  cases last with
  | false => exact ⟨_, hf.updTeam (fun t => t.push { p with due := s.cycle + 1, act := .mx i }), rfl, rfl, rfl, fun h => by simp at h⟩
  | true =>
    obtain ⟨y, hy, hdone⟩ := State.mxFinish_becomes (s := s.updTeam c f) (c := c) (p := p) (j := i)
    rw [hf.1] at hdone
    refine ⟨y, hf.trans hy, ?_, hdone.ctxs, hdone.spad, fun _ hl => ?_⟩
    · rw [hdone.acc, hi]; rfl
    · rw [hdone.busy, if_pos hl]

theorem MxJob.cleared_get {acc : Store VecBits} (hacc : Store.wfFrom 0 acc) (cycle q : Nat) : storeGet 0 (j.cleared cycle acc) q =
    if 128 * j.tile.toNat + 8 * (cycle - j.start - 1) ≤ q ∧ q < 128 * j.tile.toNat + 8 * (cycle - j.start - 1) + 8 then 0 else storeGet 0 acc q := by
  rw [MxJob.cleared, clearRows_get hacc]
  refine if_congr ⟨fun ⟨r, hr, e⟩ => ?_, fun h => ⟨q - 8 * (16 * j.tile.toNat + (cycle - j.start - 1)), ?_, ?_⟩⟩ rfl rfl
  · have := List.mem_range.mp hr
    omega
  · rw [List.mem_range]
    omega
  · omega

/-- Element k of the row that `TLOAD` has read (R186). -/
theorem MxJob.elem_loadedRow {k : Nat} (hk : k < 128) : elem j.loadedRow k 32 =
    if j.tya = 8 then packBits 256 (j.aGot.map (·.toNat)) / 2 ^ (16 * k) % 2 ^ 16 * 2 ^ 16
    else packBits 256 (j.aGot.map (·.toNat)) / 2 ^ (32 * k) % 2 ^ 32 := by
  unfold MxJob.loadedRow
  split
  · rw [elem_packBits 32 _ k hk (by simpa using hk), List.getElem_map, List.getElem_range, Nat.shiftRight_eq_div_pow]
    omega
  · rw [elem_ofNat _ _ _ (by omega), Nat.shiftRight_eq_div_pow]

end

/-! ## The block-sparse walk (R184) -/

theorem natOf_cons (b : Byte) (r : List Byte) : natOf (b :: r) = 2 ^ 8 * natOf r + b.toNat := by
  have hc : natOf (b :: r) = natOf r <<< 8 ||| b.toNat := rfl
  rw [hc, ← Nat.shiftLeft_add_eq_or_of_lt b.isLt, Nat.shiftLeft_eq, Nat.mul_comm]

theorem natOf_append (l l' : List Byte) : natOf (l ++ l') = natOf l + 2 ^ (8 * l.length) * natOf l' := by
  induction l with
  | nil => simp [natOf]
  | cons b r ih =>
    rw [List.cons_append, natOf_cons, natOf_cons, ih, List.length_cons, show 8 * (r.length + 1) = 8 + 8 * r.length by ring, pow_add]
    ring

theorem memRead_append (m : Memory) (a n k : Nat) : ∃ l, memRead m a (n + k) = memRead m a n ++ l := by
  induction n generalizing m a with
  | zero => exact ⟨_, rfl⟩
  | succ n ih =>
    obtain ⟨l, hl⟩ := ih (m.dropWhile (fun c => c.1 < a)) (a + 1)
    refine ⟨l, ?_⟩
    have hn : n + 1 + k = n + k + 1 := by omega
    rw [hn, memRead, hl]
    rfl

/-- The low bytes of a number in memory are a number in memory. -/
theorem memNat_low (m : Memory) (a n k : Nat) : memNat m a (n + k) % 2 ^ (8 * n) = memNat m a n := by
  obtain ⟨l, hl⟩ := memRead_append m a n k
  have hlt := memNat_lt m a n
  unfold memNat at hlt ⊢
  rw [hl, natOf_append, memRead_length, Nat.add_mul_mod_self_left, Nat.mod_eq_of_lt hlt]

/-- The header of a table in range (R184). -/
theorem unit_header {m : OperandMem} {a : Nat} (h : a + 32 ≤ m.size) : (m.unit a).toNat % 2 ^ 13 = memNat m.mem a 8 % 2 ^ 13 := by
  have hu : m.unit a = BitVec.ofNat 256 (memNat m.mem a 32) := if_pos h
  rw [hu, BitVec.toNat_ofNat, Nat.mod_eq_of_lt (memNat_lt m.mem a 32), ← memNat_low m.mem a 8 24]
  exact (Nat.mod_mod_of_dvd _ (pow_dvd_pow 2 (by decide))).symm

section
variable {s u : State} {c : Fin 208} {p : Pend} {j : MxJob} {k : Nat}

/-- A BS_SKIP record (R184). -/
def State.bsSkips (s : State) (c : Fin 208) (p : Pend) (a : Nat) : State := s.record c 0x15 0 p.baddr (BitVec.ofNat 64 a) []

/-- The number of entries that a header gives (R184). -/
def MxJob.withEntries (j : MxJob) (n : Nat) : MxJob :=
  { j with entries := min n 4096, fin := j.start + (if min n 4096 = 0 then 4 else 8 + 16 * min n 4096) }

theorem State.sparseStep_header (h : j.xAt + 32 ≤ spadSize c (s.coreAt c).team) : s.sparseStep c p j 1 =
    (let n := memNat (s.coreAt c).team.spad j.xAt 8 % 2 ^ 13
     let u := s.updTeam c (fun t => t.mxUntil j (j.start + 4 + 16 * min n 4096))
     if 4096 < n then u.bsSkips c p j.xAt else u, j.withEntries (memNat (s.coreAt c).team.spad j.xAt 8 % 2 ^ 13)) := by
  have hn : ((s.operandMem c).unit j.xAt).toNat % 2 ^ 13 = memNat (s.coreAt c).team.spad j.xAt 8 % 2 ^ 13 := unit_header h
  unfold State.sparseStep
  rw [if_pos rfl, hn]
  rfl

/-- The place of an entry in the table. -/
def MxJob.bsPlace (j : MxJob) (e : Nat) : Nat := j.xAt + 8 + 8 * e

/-- The first operand that an entry's word names. -/
def MxJob.bsA (j : MxJob) (w : Nat) : Nat := (j.aAt + w % 2 ^ 24) % 2 ^ 24

/-- The second one. -/
def MxJob.bsB (j : MxJob) (w : Nat) : Nat := (j.bAt + w / 2 ^ 24 % 2 ^ 24) % 2 ^ 24

/-- The word of an entry; one past the scratchpad's end is never taken. -/
def State.bsWord (s : State) (c : Fin 208) (j : MxJob) (e : Nat) : Nat :=
  if j.bsPlace e + 8 ≤ spadSize c (s.coreAt c).team then memNat (s.coreAt c).team.spad (j.bsPlace e) 8 else 2 ^ 63

/-- Work whose next operands stand at other addresses. -/
def MxJob.withRows (j : MxJob) (rows : List Nat) : MxJob := { j with rows := rows }

/-- An entry of the table is read: it is taken, or skipped. -/
def State.bsEntry (s : State) (c : Fin 208) (p : Pend) (j : MxJob) (e : Nat) : State × MxJob :=
  let w := s.bsWord c j e
  if bsEntryOk (spadSize c (s.coreAt c).team) (j.bsA w) (j.bsB w) w then (s, j.withRows [j.bsA w, j.bsB w])
  else (s.bsSkips c p (j.bsPlace e), j.withRows [])

/-- The operands of the next entry begin. -/
def MxJob.bsOpen (j : MxJob) : MxJob :=
  { j with off := (j.rows ++ [0, 0]).headD 0, na := (j.rows ++ [0, 0]).getD 1 0, entryOk := j.rows != [], aGot := [], bGot := [] }

/-- Eight units of each operand are read. -/
def MxJob.bsUnits (j : MxJob) (pad : OperandMem) (q : Nat) : MxJob :=
  { j with aGot := j.aGot ++ operandUnits pad j.off q 16, bGot := j.bGot ++ operandUnits pad j.na q 16 }

/-- The product of an entry is that of dense operands. -/
def MxJob.asDense (j : MxJob) : MxJob := { j with kind := .dense }

/-- The product of an entry is added to the tile, with its exceptions. -/
def Team.bsAdded (t : Team) (product : Store VecBits × ExcCount) : Team := { t with acc := product.1, mxExc := t.mxExc.add product.2 }

/-- The running entry in a cycle: its operands are read, and in its last cycle its product is added. -/
def State.bsRead (u : State) (c : Fin 208) (t : Team) (pad : OperandMem) (j : MxJob) (r : Nat) : State × MxJob :=
  if r = 0 || j.entries * 16 < r || !j.entryOk then (u, j)
  else
    let i := j.bsUnits pad (if r % 16 = 0 then 16 else r % 16)
    if r % 16 = 0 then (u.updTeam c (fun x => x.bsAdded (i.asDense.multiply t.acc)), i) else (u, i)

/-- The word of an entry is read in cycle 3 + 16e. -/
def State.bsFetch (s : State) (c : Fin 208) (p : Pend) (j : MxJob) (k : Nat) : State × MxJob :=
  if k % 16 = 3 && (k - 3) / 16 < j.entries then s.bsEntry c p j ((k - 3) / 16) else (s, j)

/-- The operands of an entry begin in cycle 5 + 16e. -/
def MxJob.bsStart (j : MxJob) (r : Nat) : MxJob := if 1 ≤ r && r % 16 = 1 then j.bsOpen else j

theorem State.sparseStep_later (hk : k ≠ 1) : s.sparseStep c p j k =
    (s.bsFetch c p j k).1.bsRead c (s.coreAt c).team (s.operandMem c) ((s.bsFetch c p j k).2.bsStart (k - 4)) (k - 4) :=
  (if_neg hk).trans rfl

/-! ### A cycle of the walk, by its place in an entry -/

section
variable {t : Team} {pad : OperandMem} {r : Nat}

theorem State.bsRead_closed (hok : j.entryOk = false) : u.bsRead c t pad j r = (u, j) := if_pos (by simp [hok])

theorem State.bsRead_units (hr : r % 16 ≠ 0) (hlast : r ≤ j.entries * 16) (hok : j.entryOk = true) :
    u.bsRead c t pad j r = (u, j.bsUnits pad (r % 16)) := by
  refine (if_neg (by simp [hok]; omega)).trans ((if_neg hr).trans ?_)
  rw [if_neg hr]

theorem State.bsRead_product (hr : 0 < r) (h16 : r % 16 = 0) (hlast : r ≤ j.entries * 16) (hok : j.entryOk = true) :
    u.bsRead c t pad j r = (u.updTeam c (fun x => x.bsAdded ((j.bsUnits pad 16).asDense.multiply t.acc)), j.bsUnits pad 16) := by
  refine (if_neg (by simp [hok]; omega)).trans ((if_pos h16).trans ?_)
  rw [if_pos h16]

/-- Before the last cycle of an entry nothing but the job changes, and its row addresses stay. -/
theorem State.bsRead_before (hr : r = 0 ∨ r % 16 ≠ 0) : ∃ i : MxJob, u.bsRead c t pad j r = (u, i) ∧ i.rows = j.rows := by
  unfold State.bsRead
  split
  · exact ⟨j, rfl, rfl⟩
  · next h =>
    have h16 : r % 16 ≠ 0 := hr.resolve_left fun h0 => h (by simp [h0])
    exact ⟨_, if_neg h16, rfl⟩

end

theorem State.bsFetch_entry {e : Nat} (he : e < j.entries) (hk : k = 3 + 16 * e) : s.bsFetch c p j k = s.bsEntry c p j e := by
  have hplace : (k - 3) / 16 = e := by omega
  refine (if_pos (by simp [hplace, he]; omega)).trans ?_
  rw [hplace]

theorem State.bsFetch_none (hk : k % 16 ≠ 3) : s.bsFetch c p j k = (s, j) := if_neg (by simp [hk])

/-- Whether an entry is taken. -/
def State.bsTaken (s : State) (c : Fin 208) (j : MxJob) (e : Nat) : Bool :=
  bsEntryOk (spadSize c (s.coreAt c).team) (j.bsA (s.bsWord c j e)) (j.bsB (s.bsWord c j e)) (s.bsWord c j e)

theorem State.bsEntry_taken {e : Nat} (h : s.bsTaken c j e = true) :
    s.bsEntry c p j e = (s, j.withRows [j.bsA (s.bsWord c j e), j.bsB (s.bsWord c j e)]) := if_pos h

theorem State.bsEntry_skipped {e : Nat} (h : ¬ s.bsTaken c j e = true) :
    s.bsEntry c p j e = (s.bsSkips c p (j.bsPlace e), j.withRows []) := if_neg h

/-- Reading an entry changes the records and the row addresses of the job. -/
theorem State.bsEntry_spec (e : Nat) :
    ∃ u rows, s.bsEntry c p j e = (u, j.withRows rows) ∧ s.becomes u c (s.coreAt c).team ∧ u.cycle = s.cycle := by
  by_cases h : s.bsTaken c j e = true
  · exact ⟨_, _, State.bsEntry_taken h, s.becomes_self c, rfl⟩
  · exact ⟨_, _, State.bsEntry_skipped h, (s.becomes_self c).record, rfl⟩

theorem State.bsFetch_spec : ∃ u rows, s.bsFetch c p j k = (u, j.withRows rows) ∧ s.becomes u c (s.coreAt c).team ∧ u.cycle = s.cycle := by
  unfold State.bsFetch
  split
  · exact State.bsEntry_spec _
  · exact ⟨s, j.rows, rfl, s.becomes_self c, rfl⟩

theorem MxJob.bsStart_open {e : Nat} : j.bsStart (16 * e + 1) = j.bsOpen := if_pos (by simp)

theorem MxJob.bsStart_none {r : Nat} (hr : r = 0 ∨ r % 16 ≠ 1) : j.bsStart r = j := if_neg (by simp; omega)

theorem State.sparseStep_entry {e : Nat} (he : e < j.entries) (hk : k = 3 + 16 * e) :
    ∃ i : MxJob, s.sparseStep c p j k = ((s.bsEntry c p j e).1, i) ∧ i.rows = (s.bsEntry c p j e).2.rows := by
  rw [State.sparseStep_later (by omega), State.bsFetch_entry he hk, MxJob.bsStart_none (by omega)]
  exact State.bsRead_before (by omega)

theorem State.sparseStep_open {e : Nat} (hk : k = 4 + 16 * e + 1) :
    s.sparseStep c p j k = s.bsRead c (s.coreAt c).team (s.operandMem c) j.bsOpen (16 * e + 1) := by
  rw [State.sparseStep_later (by omega), State.bsFetch_none (by omega), show k - 4 = 16 * e + 1 by omega, MxJob.bsStart_open]

/-- After the first cycle of an entry its operands are read on; the word of the next one may be read in the same cycle. -/
theorem State.sparseStep_on {e q : Nat} (hq : 1 < q) (hq' : q ≤ 16) (hk : k = 4 + 16 * e + q) :
    ∃ u rows, s.sparseStep c p j k = u.bsRead c (s.coreAt c).team (s.operandMem c) (j.withRows rows) (16 * e + q)
      ∧ s.becomes u c (s.coreAt c).team ∧ u.cycle = s.cycle := by
  obtain ⟨u, rows, hfetch, hu⟩ := State.bsFetch_spec (s := s) (c := c) (p := p) (j := j) (k := k)
  refine ⟨u, rows, ?_, hu⟩
  rw [State.sparseStep_later (by omega), hfetch, show k - 4 = 16 * e + q by omega, MxJob.bsStart_none (by omega)]

end

/-! ## What matrix work leaves at its bank (R181 to R187) -/

section
variable {s u : State} {c : Fin 208} {p : Pend} {j : MxJob} {z : Team}

/-- What the team holds when work goes on. -/
theorem State.becomes.goesOn (hu : s.becomes u c z) {i : MxJob} (h : s.runAct c p = u.mxOn s.cycle c p i) :
    ((s.runAct c p).coreAt c).team = z.push { p with due := s.cycle + 1, act := .mx i } := by
  rw [h]
  exact (hu.updTeam _).1

section
variable (h : p.act = .mx j) (hacc : Store.wfFrom 0 (s.coreAt c).team.acc)
include h

theorem State.runAct_mxDone (h0 : 0 < j.fin) (hfin : j.fin ≤ s.cycle) :
    (s.coreAt c).team.MxDone j ((s.runAct c p).coreAt c).team := by
  obtain ⟨y, hy, hdone⟩ := State.mxFinish_becomes (s := s) (c := c) (p := p) (j := j)
  rw [State.runAct_mx h, State.mxRun_done h0 hfin, hy.1]
  exact hdone

include hacc

/-- A product is added to its tile, and nothing else changes (R181 to R183). -/
theorem State.runAct_product (hk : j.kind.adds = true) (h0 : 0 < j.fin) (hfin : j.fin ≤ s.cycle) :
    let x := (s.coreAt c).team
    let y := ((s.runAct c p).coreAt c).team
    x.tileFrame j.tile y ∧ y.pend = x.pend
      ∧ y.tileBusy = (if j.lastRep then x.tileBusy &&& ~~~(BitVec.ofNat 16 (2 ^ j.tile.toNat)) else x.tileBusy)
      ∧ ∀ r < 128, ∀ (row : List FVal), j.operands.1[r]? = some row → ∀ k < 128, ∀ (col : List FVal), j.operands.2.1[k]? = some col →
        elem (accRowOf y (128 * j.tile.toNat + r)) k 32
          = (accumulate (elem (j.oldRow x.acc r) k 32) (dotTree j.operands.2.2 row col)).1 % 2 ^ 32 := by
  have hdone := State.runAct_mxDone (s := s) (c := c) h h0 hfin
  have hy := hdone.acc
  rw [if_pos hk] at hy
  refine ⟨⟨hdone.ctxs, hdone.spad, fun r hr => ?_⟩, hdone.pend, hdone.busy, fun r hr row hrow k hk col hcol => ?_⟩
  · unfold accRowOf
    rw [hy]
    exact MxJob.multiply_other hacc hr
  · unfold accRowOf
    rw [hy]
    exact MxJob.multiply_elem hacc hr hrow hk hcol

/-- `TZERO` clears the eight rows of a bank (R186). -/
theorem State.runAct_zero (hk : j.kind = .zero) (hfin : s.cycle < j.fin ∨ j.fin = 0) (hstart : j.start < s.cycle) (hend : s.cycle ≤ j.start + 16) :
    let x := (s.coreAt c).team
    let y := ((s.runAct c p).coreAt c).team
    let n := s.cycle - j.start - 1
    let base := 128 * j.tile.toNat
    x.tileFrame j.tile y ∧ (∀ r, base + 8 * n ≤ r → r < base + 8 * n + 8 → accRowOf y r = 0)
      ∧ (∀ r, r < base + 8 * n ∨ base + 8 * n + 8 ≤ r → accRowOf y r = accRowOf x r)
      ∧ (n = 15 → j.lastRep = true → y.tileBusy = x.tileBusy &&& ~~~(BitVec.ofNat 16 (2 ^ j.tile.toNat))) := by
  obtain ⟨y, hy, hrows, hctxs, hspad, hbusy⟩ := State.mx_endsOrGoesOn (s := s) (c := c) (p := p) (i := j)
    (f := fun t => { t with acc := j.cleared s.cycle t.acc }) (decide (s.cycle - j.start = 16)) (by rw [hk]; rfl)
  rw [State.runAct_mx h, State.mxRun_zero hk hfin]
  simp only [decide_eq_true_eq] at hy hbusy
  dsimp only
  rw [hy.1]
  have hrow (r : Nat) : accRowOf y r = _ := (congrArg (storeGet 0 · r) hrows).trans (MxJob.cleared_get hacc s.cycle r)
  have hother (r : Nat) (hr : r < 128 * j.tile.toNat + 8 * (s.cycle - j.start - 1) ∨ 128 * j.tile.toNat + 8 * (s.cycle - j.start - 1) + 8 ≤ r) :
      accRowOf y r = accRowOf (s.coreAt c).team r := (hrow r).trans (if_neg (by omega))
  exact ⟨⟨hctxs, hspad, fun r hr => hother r (by omega)⟩, fun r h1 h2 => (hrow r).trans (if_pos ⟨h1, h2⟩), hother, fun hn => hbusy (by omega)⟩

/-- `TLOAD` writes the row that it read in the cycle before (R186). -/
theorem State.runAct_load (hk : j.kind = .load) (hfin : s.cycle < j.fin ∨ j.fin = 0) (hstart : j.start + 2 ≤ s.cycle)
    (hend : s.cycle ≤ j.start + 129) (hg : j.aGot ≠ []) :
    let x := (s.coreAt c).team
    let y := ((s.runAct c p).coreAt c).team
    let n := s.cycle - j.start - 2
    let base := 128 * j.tile.toNat
    x.tileFrame j.tile y ∧ (∀ r ≠ base + n, accRowOf y r = accRowOf x r) ∧ accRowOf y (base + n) = j.loadedRow
      ∧ (n = 127 → j.lastRep = true → y.tileBusy = x.tileBusy &&& ~~~(BitVec.ofNat 16 (2 ^ j.tile.toNat))) := by
  obtain ⟨y, hy, hrows, hctxs, hspad, hbusy⟩ := State.mx_endsOrGoesOn (s := s) (c := c) (p := p) (i := s.loadNext j)
    (f := fun t => { t with acc := storePutD 0 t.acc (128 * j.tile.toNat + (s.cycle - j.start - 2)) j.loadedRow })
    (decide (s.cycle - j.start = 129)) (congrArg MxKind.adds hk)
  rw [State.runAct_mx h, State.mxRun_load hk hfin hg]
  simp only [decide_eq_true_eq] at hy hbusy
  dsimp only
  rw [hy.1]
  have hrow (r : Nat) : accRowOf y r = _ := (congrArg (storeGet 0 · r) hrows).trans (putRow_get hacc _ j.loadedRow r)
  have hother (r : Nat) (hr : r ≠ 128 * j.tile.toNat + (s.cycle - j.start - 2)) : accRowOf y r = accRowOf (s.coreAt c).team r :=
    (hrow r).trans (if_neg hr)
  exact ⟨⟨hctxs, hspad, fun r hr => hother r (by omega)⟩, hother, (hrow _).trans (if_pos rfl), fun hn => hbusy (by omega)⟩

end

/-! ### Block-sparse work (R184) -/

theorem operandUnits_within {m : OperandMem} {a q : Nat} (hq : 1 ≤ q) (hq' : q ≤ 16) : operandUnits m a q 16 = unitsAt m (a + 256 * (q - 1)) 8 :=
  if_pos (by simp [hq, hq'])

theorem State.bsTaken_iff (s : State) (c : Fin 208) (j : MxJob) (e : Nat) : s.bsTaken c j e = true ↔
    s.bsWord c j e < 2 ^ 48 ∧ j.bsA (s.bsWord c j e) % 32 = 0 ∧ j.bsB (s.bsWord c j e) % 32 = 0
      ∧ j.bsA (s.bsWord c j e) + 4096 ≤ spadSize c (s.coreAt c).team ∧ j.bsB (s.bsWord c j e) + 4096 ≤ spadSize c (s.coreAt c).team := by
  simp [State.bsTaken, bsEntryOk, and_assoc]

theorem MxJob.within_entries {e q : Nat} (he : e < j.entries) (hq : q ≤ 16) : 16 * e + q ≤ j.entries * 16 := by omega

section
variable (h : p.act = .mx j) (hk : j.kind = .sparse)
include h hk

/-- The end of a block-sparse walk leaves the tile as it stands. -/
theorem State.runAct_sparseDone (h0 : 0 < j.fin) (hfin : j.fin ≤ s.cycle) :
    let x := (s.coreAt c).team
    let y := ((s.runAct c p).coreAt c).team
    x.tileFrame j.tile y ∧ y.acc = x.acc ∧ y.pend = x.pend
      ∧ y.tileBusy = (if j.lastRep then x.tileBusy &&& ~~~(BitVec.ofNat 16 (2 ^ j.tile.toNat)) else x.tileBusy) := by
  have hdone := State.runAct_mxDone (s := s) (c := c) h h0 hfin
  have hacc := hdone.acc
  rw [hk] at hacc
  exact ⟨⟨hdone.ctxs, hdone.spad, fun r _ => congrArg (storeGet 0 · r) hacc⟩, hacc, hdone.pend, hdone.busy⟩

variable (hfin : s.cycle < j.fin ∨ j.fin = 0)
include hfin

/-- A walk that is under way is what its step makes of it. -/
theorem State.runAct_sparse {i : MxJob} (hstep : s.sparseStep c p j (s.cycle - j.start) = (u, i)) (hu : u.cycle = s.cycle) :
    s.runAct c p = u.mxOn s.cycle c p i := by
  rw [State.runAct_mx h, State.mxRun_sparse hk hfin hstep, hu]

theorem State.runAct_bsHeader (hcyc : s.cycle - j.start = 1) (hsize : j.xAt + 32 ≤ spadSize c (s.coreAt c).team) :
    let n := memNat (s.coreAt c).team.spad j.xAt 8 % 2 ^ 13
    let u := s.updTeam c (fun t => t.mxUntil j (j.start + 4 + 16 * min n 4096))
    s.runAct c p = (if 4096 < n then u.bsSkips c p j.xAt else u).mxOn s.cycle c p (j.withEntries n) := by
  refine State.runAct_sparse h hk hfin ?_ (by split <;> rfl)
  rw [hcyc]
  exact State.sparseStep_header hsize

/-- An entry that passes the checks gives the addresses of its operands; one that fails is recorded. -/
theorem State.runAct_bsEntry {e : Nat} (he : e < j.entries) (hcyc : s.cycle - j.start = 3 + 16 * e) : ∃ i : MxJob,
    (s.bsTaken c j e = true → i.rows = [j.bsA (s.bsWord c j e), j.bsB (s.bsWord c j e)] ∧ s.runAct c p = s.mxOn s.cycle c p i)
      ∧ (¬ s.bsTaken c j e = true → i.rows = [] ∧ s.runAct c p = (s.bsSkips c p (j.bsPlace e)).mxOn s.cycle c p i) := by
  obtain ⟨i, hstep, hrows⟩ := State.sparseStep_entry (s := s) (c := c) (p := p) he hcyc
  refine ⟨i, fun ht => ?_, fun ht => ?_⟩
  · rw [State.bsEntry_taken ht] at hstep hrows
    exact ⟨hrows, State.runAct_sparse h hk hfin hstep rfl⟩
  · rw [State.bsEntry_skipped ht] at hstep hrows
    exact ⟨hrows, State.runAct_sparse h hk hfin hstep rfl⟩

theorem State.runAct_bsSkipped {e : Nat} (hcyc : s.cycle - j.start = 4 + 16 * e + 1) (hrows : j.rows = []) :
    ∃ i : MxJob, s.runAct c p = s.mxOn s.cycle c p i ∧ i.entryOk = false := by
  have hok : j.bsOpen.entryOk = false := by simp [MxJob.bsOpen, hrows]
  exact ⟨j.bsOpen, State.runAct_sparse h hk hfin ((State.sparseStep_open hcyc).trans (State.bsRead_closed hok)) rfl, hok⟩

/-- While the entry was skipped, the tile stays as it stands. -/
theorem State.runAct_bsIdle {e q : Nat} (hq : 1 < q) (hq' : q ≤ 16) (hcyc : s.cycle - j.start = 4 + 16 * e + q) (hok : j.entryOk = false) :
    let x := (s.coreAt c).team
    let y := ((s.runAct c p).coreAt c).team
    x.tileFrame j.tile y ∧ y.acc = x.acc := by
  obtain ⟨u, rows, hstep, hu, hcycle⟩ := State.sparseStep_on (s := s) (c := c) (p := p) (j := j) hq hq' hcyc
  rw [State.bsRead_closed (j := j.withRows rows) hok] at hstep
  dsimp only
  rw [hu.goesOn (State.runAct_sparse h hk hfin hstep hcycle)]
  exact ⟨⟨rfl, rfl, fun _ _ => rfl⟩, rfl⟩

variable {e : Nat} (he : e < j.entries)
include he

theorem State.runAct_bsOpened (hcyc : s.cycle - j.start = 4 + 16 * e + 1) {a b : Nat} (hrows : j.rows = [a, b]) :
    ∃ i : MxJob, s.runAct c p = s.mxOn s.cycle c p i ∧ i.off = a ∧ i.na = b ∧ i.entryOk = true
      ∧ i.aGot = unitsAt (s.operandMem c) a 8 ∧ i.bGot = unitsAt (s.operandMem c) b 8 := by
  have hok : j.bsOpen.entryOk = true := by simp [MxJob.bsOpen, hrows]
  have hoff : j.bsOpen.off = a := by simp [MxJob.bsOpen, hrows]
  have hna : j.bsOpen.na = b := by simp [MxJob.bsOpen, hrows]
  have hstep := State.sparseStep_open (s := s) (c := c) (p := p) (j := j) hcyc
  rw [State.bsRead_units (by omega) (MxJob.within_entries (j := j.bsOpen) he (by decide)) hok, show (16 * e + 1) % 16 = 1 by omega] at hstep
  exact ⟨_, State.runAct_sparse h hk hfin hstep rfl, hoff, hna, hok, congrArg (unitsAt _ · 8) hoff, congrArg (unitsAt _ · 8) hna⟩

variable {q : Nat} (hq : 1 < q)
include hq

theorem State.runAct_bsUnits (hq' : q < 16) (hcyc : s.cycle - j.start = 4 + 16 * e + q) (hok : j.entryOk = true) :
    let x := (s.coreAt c).team
    let y := ((s.runAct c p).coreAt c).team
    x.tileFrame j.tile y ∧ y.acc = x.acc
      ∧ ∃ rows, y.pend = insertPend x.pend { p with due := s.cycle + 1, act := .mx ((j.withRows rows).bsUnits (s.operandMem c) q) } := by
  obtain ⟨u, rows, hstep, hu, hcycle⟩ := State.sparseStep_on (s := s) (c := c) (p := p) (j := j) hq hq'.le hcyc
  rw [State.bsRead_units (by omega) (MxJob.within_entries (j := j.withRows rows) he hq'.le) hok, show (16 * e + q) % 16 = q by omega] at hstep
  dsimp only
  rw [hu.goesOn (State.runAct_sparse h hk hfin hstep hcycle)]
  exact ⟨⟨rfl, rfl, fun _ _ => rfl⟩, rfl, rows, rfl⟩

/-- The job of an entry's product: dense operands of all that was read. -/
def MxJob.bsDense (j : MxJob) (pad : OperandMem) : MxJob :=
  { j with kind := .dense, aGot := j.aGot ++ unitsAt pad (j.off + 3840) 8, bGot := j.bGot ++ unitsAt pad (j.na + 3840) 8 }

/-- In the last cycle of an entry its product is added to the tile, and nothing else changes. -/
theorem State.runAct_bsProduct (hacc : Store.wfFrom 0 (s.coreAt c).team.acc) (hfresh : j.fresh = false) (h16 : q = 16)
    (hcyc : s.cycle - j.start = 4 + 16 * e + q) (hok : j.entryOk = true) :
    let x := (s.coreAt c).team
    let y := ((s.runAct c p).coreAt c).team
    let i := j.bsDense (s.operandMem c)
    x.tileFrame j.tile y ∧ ∃ z, y.pend = insertPend x.pend { p with due := s.cycle + 1, act := .mx z }
      ∧ ∀ r < 128, ∀ (row : List FVal), i.operands.1[r]? = some row → ∀ n < 128, ∀ (col : List FVal), i.operands.2.1[n]? = some col →
        elem (accRowOf y (128 * j.tile.toNat + r)) n 32
          = (accumulate (elem (accRowOf x (128 * j.tile.toNat + r)) n 32) (dotTree i.operands.2.2 row col)).1 % 2 ^ 32 := by
  obtain ⟨u, rows, hstep, hu, hcycle⟩ := State.sparseStep_on (s := s) (c := c) (p := p) (j := j) hq h16.le hcyc
  rw [State.bsRead_product (by omega) (by omega) (MxJob.within_entries (j := j.withRows rows) he h16.le) hok] at hstep
  generalize hd : ((j.withRows rows).bsUnits (s.operandMem c) 16).asDense = d at hstep
  have hy := (hu.updTeam _).goesOn (State.runAct_sparse h hk hfin hstep hcycle)
  have htile : d.tile = j.tile := by rw [← hd]; rfl
  have hops : d.operands = (j.bsDense (s.operandMem c)).operands := by rw [← hd]; rfl
  have hold (r : Nat) : d.oldRow (s.coreAt c).team.acc r = accRowOf (s.coreAt c).team (128 * j.tile.toNat + r) := by
    have hf : d.fresh = false := by rw [← hd]; exact hfresh
    rw [MxJob.oldRow, hf, htile]
    rfl
  dsimp only
  rw [hy, ← hops, ← htile]
  refine ⟨⟨rfl, rfl, fun r hr => MxJob.multiply_other hacc hr⟩, _, rfl, fun r hr row hrow n hn col hcol => ?_⟩
  rw [htile, ← hold, ← htile]
  exact MxJob.multiply_elem hacc hr hrow hn hcol

end

end

theorem toNat_ofNat_mod (x : Nat) {n k : Nat} (h : n ≤ k) : (BitVec.ofNat k (x % 2 ^ n)).toNat = x % 2 ^ n := by
  rw [BitVec.toNat_ofNat, Nat.mod_eq_of_lt ((Nat.mod_lt x (Nat.two_pow_pos n)).trans_le (Nat.pow_le_pow_right (by decide) h))]

/-- Settles O42: stores from the laws of scattered writes, each other act from what it makes of its core's team, matrix work from the rows
that its kind changes in a cycle. -/
theorem bankActionLanding : Obligations.BankActionLanding := by
  refine ⟨fun s c p bs h hm => ?store, fun s c p => ?acts, fun s c p j h hacc => ?matrix⟩
  case store =>
    have hrun := State.runAct_store (s := s) (c := c) h
    dsimp only
    rw [hrun.1]
    exact ⟨fun b hb hd => memGet_memScatter_mem hm bs hb hd, fun a ha => memGet_memScatter_other hm bs a ha, Memory.wf_memScatter bs hm,
      hrun.2.1, rfl, rfl, rfl, hrun.2.2⟩
  case acts =>
    refine ⟨fun ty a r h ht => ?loadS, fun op ty a v w r h hm ht => ?amo, fun bank n a h => ?loadPattern, fun bank n e h hA hB => ?pattern,
      fun r v m h hacc => ?accRow, fun wide g ws later seen h hm hd => ?season, fun j h => ?reads⟩
    case loadS =>
      have hrun := State.runAct_loadS (s := s) (c := c) h
      have hx := memNat_lt (s.coreAt c).team.spad a (sWidth ty / 8)
      rw [sWidth_bytes ht] at hx
      refine ⟨hrun.frame rfl, ?_⟩
      rw [hrun.1]
      exact ⟨rfl, rfl, _, rfl, extLoad_unsigned hx, extLoad_signed hx⟩
    case amo =>
      have hrun := State.runAct_amo (s := s) (c := c) h
      have hb : 8 * (sWidth ty / 8) = sWidth ty := sWidth_bytes (by rcases ht with rfl | rfl | rfl | rfl <;> decide)
      have hold := memNat_lt (s.coreAt c).team.spad a (sWidth ty / 8)
      rw [hb] at hold
      obtain ⟨hadd, hxchg, hcas⟩ := amoValue_eq ty (memNat (s.coreAt c).team.spad a (sWidth ty / 8)) v w
      refine ⟨hrun.frame rfl, ?_⟩
      rw [hrun.1]
      simp only [hb]
      have hnew : memNat (memScatter (s.coreAt c).team.spad _) a (sWidth ty / 8) = _ % 2 ^ (8 * (sWidth ty / 8)) :=
        memNat_writeNat hm a (sWidth ty / 8) (amoValue op ty (memNat (s.coreAt c).team.spad a (sWidth ty / 8)) v w).1
      rw [hb] at hnew
      refine ⟨rfl, rfl, Memory.wf_memScatter _ hm, fun b hb => memGet_writeNat_other hm _ _ _ hb, hnew, fun h0 h7 => ?_, fun h3 => ?_, fun h4 => ?_⟩
      · subst h0
        exact hnew.trans (by rw [hadd h7, Nat.mod_mod])
      · subst h3
        exact hnew.trans (by rw [hxchg, Nat.mod_mod])
      · subst h4
        refine hnew.trans ?_
        rw [hcas]
        split
        · exact Nat.mod_mod ..
        · exact Nat.mod_eq_of_lt hold
    case loadPattern =>
      have hrun := State.runAct_loadPattern (s := s) (c := c) h
      refine ⟨hrun.frame rfl, ?_⟩
      rw [hrun.1]
      exact ⟨rfl, rfl, rfl, _, toNat_ofNat_mod _ (by decide), rfl⟩
    case pattern =>
      have hrun := State.runAct_pattern (s := s) (c := c) h
      have hput {st : Store (BitVec 1280)} (hst : (st.map (·.1)).Pairwise (· < ·)) (i : Nat) :
          storeGet 0 (storePutD 0 st n e) i = if i = n then e else storeGet 0 st i := storeGet_storePutD (Store.wf_of_pairwise hst) n e i
      cases bank with
      | false =>
        refine ⟨hrun.frame rfl, ?_⟩
        rw [hrun.1]
        exact ⟨rfl, rfl, fun i => ⟨(hput hA i).trans (if_congr (by simp) rfl rfl), (if_neg (by simp)).symm⟩⟩
      | true =>
        refine ⟨hrun.frame rfl, ?_⟩
        rw [hrun.1]
        exact ⟨rfl, rfl, fun i => ⟨(if_neg (by simp)).symm, (hput hB i).trans (if_congr (by simp) rfl rfl)⟩⟩
    case accRow =>
      have hrun := State.runAct_accRow (s := s) (c := c) h
      refine ⟨hrun.frame rfl, ?_⟩
      rw [hrun.1]
      have hrow (q : Nat) := storeGet_storePutD (d := (0 : VecBits)) (Store.wf_of_pairwise hacc) r (merge (accRowOf (s.coreAt c).team r) v m) q
      refine ⟨rfl, rfl, fun q hq => (hrow q).trans (if_neg hq), fun k _ => ?_⟩
      rw [← merge_getLsbD]
      exact congrArg (·.getLsbD k) ((hrow r).trans (if_pos rfl))
    case season =>
      obtain ⟨fresh, l, hrun⟩ := State.runAct_season (s := s) (c := c) h
      obtain ⟨⟨hctxs, hacc, hpend⟩, hwf, hwords, hrest⟩ := foldl_seasonStep (ft := s.factors) (g := g.toNat) hd ((s.coreAt c).team, []) hm
      by_cases hl : later = []
      · simp only [hl, if_true] at hrun
        refine ⟨hrun.frame hctxs, ?_⟩
        rw [hrun.1]
        exact ⟨hacc, hwf, hwords, hrest, fun _ => hpend, fun h => absurd hl h⟩
      · simp only [hl, if_false] at hrun
        refine ⟨hrun.frame hctxs, ?_⟩
        rw [hrun.1]
        exact ⟨hacc, hwf, hwords, hrest, fun h => absurd h hl, fun _ => ⟨l, congrArg (insertPend · _) hpend⟩⟩
    case reads =>
      have hrun := State.runAct_reads (s := s) (c := c) h
      unfold Team.loadGoesOn at hrun
      by_cases hg : (j.run s.factors (s.coreAt c).team.spad).groups = []
      · rw [if_pos hg] at hrun
        refine ⟨hrun.frame rfl, ?_⟩
        rw [hrun.1]
        exact ⟨rfl, fun h => absurd hg h, fun _ => rfl⟩
      · rw [if_neg hg] at hrun
        refine ⟨hrun.frame rfl, ?_⟩
        rw [hrun.1]
        exact ⟨rfl, fun _ => rfl, fun h => absurd h hg⟩
  case matrix =>
    have hacc : Store.wfFrom 0 (s.coreAt c).team.acc := Store.wf_of_pairwise hacc
    refine ⟨fun hk h0 hfin => ?product, fun hk hfin hstart hend => ?zero, fun hk hfin hstart hend hg => ?load, fun hk hfresh hstart => ?sparse⟩
    case product =>
      exact State.runAct_product h hacc (by rcases hk with hk | hk | hk <;> rw [hk] <;> rfl) h0 hfin
    case zero => exact State.runAct_zero h hacc hk hfin hstart hend
    case load =>
      obtain ⟨hframe, hother, hrow, hbusy⟩ := State.runAct_load h hacc hk hfin hstart hend hg
      exact ⟨hframe, hother, fun k hk => (congrArg (elem · k 32) hrow).trans (MxJob.elem_loadedRow hk), hbusy⟩
    case sparse =>
      refine ⟨fun h0 hfin => State.runAct_sparseDone h hk h0 hfin, fun hfin => ⟨fun hcyc hsize => ?header, fun e he hcyc hsize => ?entry,
        fun e he q hq hq' hcyc => ?operands⟩⟩
      case header => exact State.runAct_bsHeader h hk hfin hcyc hsize
      case entry =>
        obtain ⟨i, htaken, hskipped⟩ := State.runAct_bsEntry h hk hfin he hcyc
        have hw : s.bsWord c j e = memNat (s.coreAt c).team.spad (j.xAt + 8 + 8 * e) 8 := if_pos (by unfold MxJob.bsPlace; omega)
        have hchecks := s.bsTaken_iff c j e
        rw [hw] at htaken hchecks
        exact ⟨i, fun ht => htaken (hchecks.mpr ht), fun ht => hskipped fun hb => ht (hchecks.mp hb)⟩
      case operands =>
        refine ⟨fun hq1 hrows => ?skipped, fun a b hq1 hrows => ?opened, fun hq1 hok => State.runAct_bsIdle h hk hfin hq1 hq' hcyc hok,
          fun hq1 hq16 hok => ?units, fun hq16 hok => ?last⟩
        case skipped =>
          subst hq1
          exact State.runAct_bsSkipped h hk hfin hcyc hrows
        case opened =>
          subst hq1
          exact State.runAct_bsOpened h hk hfin he hcyc hrows
        case units =>
          obtain ⟨hframe, hsame, rows, hpend⟩ := State.runAct_bsUnits h hk hfin he hq1 hq16 hcyc hok
          exact ⟨hframe, hsame, _, hpend, rfl, rfl, hok, congrArg (j.aGot ++ ·) (operandUnits_within hq hq'),
            congrArg (j.bGot ++ ·) (operandUnits_within hq hq')⟩
        case last =>
          obtain ⟨hframe, z, hpend, helem⟩ := State.runAct_bsProduct h hk hfin he (by omega) hacc hfresh hq16 hcyc hok
          exact ⟨hframe, ⟨z, hpend⟩, helem⟩

end Sys2Proof.Machine

/-! Atomics at the memory controller (R205): the statement of O57. -/

namespace Sys2Proof.Machine

/-! ## A run of bytes written -/

theorem length_bytesOf (n x : Nat) : (bytesOf n x).length = n := by
  rw [bytesOf, List.length_map, List.length_range]

/-- A run of bytes reads back. -/
theorem memRead_memWrite {m : Memory} (hm : Memory.wf m = true) (a : Nat) (bs : List Byte) : memRead (memWrite m a bs) a bs.length = bs := by
  rw [memRead_eq (Memory.wf_memWrite a bs hm)]
  refine List.ext_getElem (by simp) fun i hi _ => ?_
  have hi : i < bs.length := by simpa using hi
  rw [List.getElem_map, List.getElem_range, memGet_memWrite hm, if_pos (by omega), Nat.add_sub_cancel_left, List.getD_eq_getElem _ _ hi]

/-- Every byte outside a run that is written is as before. -/
theorem keepsOutside_memWrite {m : Memory} (hm : Memory.wf m = true) (a : Nat) (bs : List Byte) : keepsOutside m (memWrite m a bs) a bs.length :=
  fun b hb => by rw [memGet_memWrite hm, if_neg (by omega)]

@[simp] theorem State.pwrite_mem (s : State) (a : Nat) (bs : List Byte) : (s.pwrite a bs).mem = memWrite s.mem a bs := by
  unfold State.pwrite State.unpoison
  split <;> rfl

/-! ## The read-modify-write -/

/-- What it returns and what it leaves in memory. -/
theorem State.atomAt_spec {s : State} (hm : Memory.wf s.mem = true) (a : Nat) (op : BitVec 3) (ty : BitVec 4) (x y : Word) :
    let n := sWidth ty / 8
    let old := memNat s.mem a n
    let r := s.atomAt a op ty x y
    r.2.1 = old ∧ memNat r.1.mem a n = (amoValue op ty old x y).1 % 2 ^ (8 * n) ∧ keepsOutside s.mem r.1.mem a n ∧ Memory.wf r.1.mem = true := by
  intro n old r
  have hmem : r.1.mem = memWrite s.mem a (bytesOf n (amoValue op ty old x y).1) := State.pwrite_mem ..
  have hlen := length_bytesOf n (amoValue op ty old x y).1
  have hread := memRead_memWrite hm a (bytesOf n (amoValue op ty old x y).1)
  have hkeep := keepsOutside_memWrite hm a (bytesOf n (amoValue op ty old x y).1)
  rw [hlen] at hread hkeep
  rw [hmem]
  exact ⟨rfl, by rw [memNat, hread, natOf_bytesOf], hkeep, Memory.wf_memWrite _ _ hm⟩

/-- Settles O57: the value stored is that of `AMO` on the old one. -/
theorem atomAtMemory : Obligations.AtomAtMemory := by
  intro s a op ty x y hm hty n old r
  have hlt : ty.toNat < 12 := by rcases hty with rfl | rfl | rfl | rfl <;> decide
  have hw : 8 * n = sWidth ty := sWidth_bytes hlt
  obtain ⟨hold, hnew, hkeep, hwf⟩ := State.atomAt_spec hm a op ty x y
  obtain ⟨hadd, hxchg, hcas⟩ := amoValue_eq ty old x y
  have hbound : old < 2 ^ (8 * n) := memNat_lt ..
  change memNat r.1.mem a n = (amoValue op ty old x y).1 % 2 ^ (8 * n) at hnew
  rw [hw] at hbound hnew ⊢
  refine ⟨hold, hnew, hkeep, hwf, fun h0 h7 => ?_, fun h3 => ?_, fun h4 => ?_⟩
  · rw [hnew, h0, hadd h7, Nat.mod_mod]
  · rw [hnew, h3, hxchg, Nat.mod_mod]
  · rw [hnew, h4, hcas]
    split
    · exact Nat.mod_mod ..
    · exact Nat.mod_eq_of_lt hbound

end Sys2Proof.Machine

/-! Words that queue engine commands (R26, R89, R94, R103, R106, R190, R191, R194): the statement of O26. -/

namespace Sys2Proof.Machine

/-! ## EN words -/

/-- The advance of aA under AINC (R190). -/
def Ctx.enActs (c : Ctx) (w : EWord) : List (Nat × Act) :=
  if w.fn.getLsbD 10 then [(1, .setA (enArea w) (areaAdvance (c.aReg (enArea w)) (areaInc (c.aReg (enArea w)))))] else []

/-- The state in which an EN word has queued its command with the ranges given. -/
def State.queued (s : State) (i : Instr) (w : EWord) (l : List Range) : State :=
  (s.issued w.hd.unit (s.ictx.enActs w)).addCmd s.issue.core s.issue.ctx
    { s.ictx.enCmd i w with ranges := l.map (·.wrap (s.ictx.aReg (enArea w))) }

theorem Ctx.enActs_lands (c : Ctx) (w : EWord) : ∀ a ∈ c.enActs w, a.1 ≠ 0 ∧ a.2.mapless = true := by
  unfold Ctx.enActs
  split
  · exact fun a ha => by rw [List.mem_singleton.mp ha]; exact ⟨one_ne_zero, rfl⟩
  · exact fun a ha => absurd ha List.not_mem_nil

theorem State.enRes_effects (s : State) (i : Instr) (w : EWord) (f : List (Cause × Word)) (l : List Range) (extra : List Effect) :
    (s.enRes i w f l extra).effects = (s.ictx.enActs w).map (fun a => .act a.1 a.2)
      ++ .command { s.ictx.enCmd i w with ranges := l.map (·.wrap (s.ictx.aReg (enArea w))) } :: extra := by
  unfold State.enRes Ctx.enActs
  split <;> rfl

theorem State.addCmd_issue (s : State) (c : Fin 208) (k : Fin 4) (x : Cmd) : (s.addCmd c k x).issue = s.issue := by
  unfold State.addCmd
  dsimp only
  split <;> rfl

section
variable {s : State} {i : Instr} {w : EWord} {f : List (Cause × Word)} {l : List Range} {extra : List Effect}

/-- A lone EN word without faults queues its command; `g` is what its other effects do then. -/
theorem State.gives_enRes (g : State → State) (hx : exec i s = .next (s.slot i w.hd (s.enRes i w f l extra))) (hf : f = [])
    (hp : ∀ e ∈ extra, e.isPlain = true)
    (hg : ∀ ws q u, q.same u.issue → (extra.map (fun e => (w.hd.unit, e))).foldl (fun t e => t.effect ws e.1 e.2) (u.withIssue q) = (g u).withIssue q)
    (hu : s.unhindered i w.hd {}) : s.gives i (g (s.queued i w l)) := by
  have hq : w.q.toNat ≠ 8 := Nat.ne_of_lt w.q.isLt
  refine State.gives_one _ _ hx hu hf (s.enRes_effects i w f l extra) (s.ictx.enActs_lands w) (by simpa [Effect.isPlain] using hp) fun ws q same => ?_
  rw [List.map_cons, List.foldl_cons, State.effect_command (s.issued w.hd.unit (s.ictx.enActs w)) ws w.hd.unit q same _ hq]
  refine hg ws q _ ?_
  rw [State.addCmd_issue]
  exact same

theorem State.gives_queued (hx : exec i s = .next (s.slot i w.hd (s.enRes i w f l []))) (hf : f = []) (hu : s.unhindered i w.hd {}) :
    s.gives i (s.queued i w l) := State.gives_enRes id hx hf (by simp) (fun _ _ _ _ => rfl) hu

/-- The tile of an EN word becomes busy (R203). -/
def State.busyTile (t : State) (w : EWord) : State :=
  t.updOwn (fun y => { y with tileBusy := y.tileBusy ||| BitVec.ofNat 16 (2 ^ (w.fn.toNat % 16)) })

theorem State.gives_queued_busy (hx : exec i s = .next (s.slot i w.hd (s.enRes i w [] l [.busy (w.fn.extractLsb' 0 4)])))
    (hu : s.unhindered i w.hd {}) : s.gives i ((s.queued i w l).busyTile w) := by
  refine State.gives_enRes (·.busyTile w) hx rfl (by simp [Effect.isPlain]) (fun ws q u same => ?_) hu
  have htile : (w.fn.extractLsb' 0 4).toNat = w.fn.toNat % 16 := by simp
  show (u.withIssue q).updTeam q.core (fun y => { y with tileBusy := y.tileBusy ||| BitVec.ofNat 16 (2 ^ (w.fn.extractLsb' 0 4).toNat) }) = _
  rw [same.1, htile]
  rfl

end

theorem alignFaults_nil {n a : Nat} (h : a % n = 0) : alignFaults n a = [] := if_pos h

/-- A copy that reads a view asks for an aligned descriptor and nothing else (R198). -/
theorem State.gives_view {s : State} {i : Instr} {w : EWord} {write : Bool} (hx : exec i s = .next (s.slot i w.hd (s.viewRes i w [] write)))
    (ha : s.ictx.enAddr w % 32 = 0) : s.unhindered i w.hd {} →
      s.gives i (s.queued i w [readRange (s.ictx.enAddr w) 128, s.wholeRange write]) :=
  State.gives_queued hx (by rw [alignFaults_nil ha]; rfl)

/-- `CPYM` queues its command, but for an arrival outside a gang (R202). -/
theorem State.gives_cpym {s : State} {w : EWord} (ha : s.ictx.enAddr w % 32 = 0)
    (hbar : ¬ (w.fn.getLsbD 4 = true ∧ ∀ t, s.taskAt s.issue.core = some t → t.tcb.gang = 0)) : s.unhindered (.cpym w) w.hd {} →
      s.gives (.cpym w) (s.queued (.cpym w) w
        (readRange (s.ictx.enAddr w) 128 :: if s.maskOwn s.issue.core (s.ictx.sReg w.b) then [s.wholeRange true] else [])) := by
  refine State.gives_queued rfl ?_
  rw [alignFaults_nil ha, List.nil_append]
  refine if_neg fun h => hbar ?_
  obtain ⟨h4, halone⟩ := (Bool.and_eq_true ..).mp h
  refine ⟨h4, fun t ht => ?_⟩
  rw [ht] at halone
  exact beq_iff_eq.mp halone

/-! ## A command that enters its queue -/

/-- A command with what its entry into the queue gives it (R26, R83, R191, R193). -/
def State.entered (s : State) (c : Fin 208) (k : Fin 4) (x : Cmd) : Cmd :=
  { x with id := s.nextId, ctx := k, by_ := c, baddr := s.issue.baddr, issued := s.cycle, readyAt := s.cycle + 1 + s.delays.headD 0
           storesBy := (s.coreAt c).team.storesDone s.issue.seq, after := fencedBy ((s.coreAt c).team.ctxs.get k) x.q }

/-- Its token is pending from then on, unless it is s0 (R26). -/
def Ctx.awaits (x : Ctx) (tok : Reg6) : Ctx := if tok = 0 then x else { x with tokPend := x.tokPend ||| BitVec.ofNat 64 (2 ^ tok.toNat) }

/-- The bit of one token. -/
theorem getLsbD_two_pow_reg (tok r : Reg6) : (BitVec.ofNat 64 (2 ^ tok.toNat)).getLsbD r.toNat = (r == tok) := by
  have hr : r.toNat < 64 := r.isLt
  rw [BitVec.getLsbD_ofNat, Nat.testBit_two_pow, decide_eq_true hr, Bool.true_and, Bool.eq_iff_iff, decide_eq_true_iff, beq_iff_eq,
    BitVec.toNat_inj, eq_comm]

theorem Ctx.tokPend_awaits (x : Ctx) (tok r : Reg6) :
    (x.awaits tok).tokPend.getLsbD r.toNat = (x.tokPend.getLsbD r.toNat || (r == tok && tok != 0)) := by
  unfold Ctx.awaits
  split
  · next h => simp [h]
  · next h =>
    rw [BitVec.getLsbD_or, getLsbD_two_pow_reg, bne_iff_ne.mpr h, Bool.and_true]

theorem Ctx.s_awaits (x : Ctx) (tok : Reg6) : (x.awaits tok).s = x.s := by
  unfold Ctx.awaits
  split <;> rfl

theorem Team.updCtx_self (t : Team) (k : Fin 4) : t.updCtx k (fun x => x) = t :=
  congrArg (fun v => ({ t with ctxs := v } : Team)) (Vector.set_getElem_self k.isLt)

theorem State.updTeam_updCtx (s : State) (c : Fin 208) (k : Fin 4) (f : Team → Team) (g : Ctx → Ctx) :
    (s.updTeam c f).updCtx c k g = s.updTeam c (fun t => (f t).updCtx k g) := by
  unfold State.updCtx State.updTeam
  exact State.updCore_updCore ..

/-- What the entry changes: the commands of the team, the pending tokens of the context, the list of latencies, the next number. -/
theorem State.addCmd_eq (s : State) (c : Fin 208) (k : Fin 4) (x : Cmd) :
    s.addCmd c k x = ({ s with delays := s.delays.tail, nextId := s.nextId + 1 } : State).updTeam c (fun t =>
      ({ t with cmds := t.cmds ++ [s.entered c k x] } : Team).updCtx k (·.awaits x.tok)) := by
  unfold State.addCmd Ctx.awaits
  dsimp only
  split
  · simp only [Team.updCtx_self]
    rfl
  · rw [State.updTeam_updCtx]
    rfl

/-! ## The statement -/

/-- A word whose one effect is a command without a queue begins it in the cycle of its issue (R89, R103, R106; log 36). -/
theorem State.gives_begun {s : State} {i : Instr} {h : Head} {x : Cmd} (hx : exec i s = .next (s.slot i h { effects := [.command x] })) (hq : x.q = 8)
    (hu : s.unhindered i h {}) : s.gives i (((s.issued h.unit []).addCmd s.issue.core s.issue.ctx x).now
      (event .engineStart (.cmd { core := s.issue.core, id := s.nextId }))) :=
  State.gives_one [] [.command x] hx hu rfl rfl (by simp) (by simp [Effect.isPlain])
    fun ws q same => State.effect_begin (s.issued h.unit []) ws h.unit q same x hq

/-- The vote of queue 5 (R94). -/
theorem State.gives_vote {s : State} {i : Instr} {h : Head} {x : Cmd} (hx : exec i s = .next (s.slot i h { effects := [.command x] })) (hq : x.q ≠ 8)
    (hu : s.unhindered i h {}) : s.gives i ((s.issued h.unit []).addCmd s.issue.core s.issue.ctx x) :=
  State.gives_one [] [.command x] hx hu rfl rfl (by simp) (by simp [Effect.isPlain])
    fun ws q same => State.effect_command (s.issued h.unit []) ws h.unit q same x hq

/-- Settles O26: EN words through `State.queued`, the commands that SY words begin, and what the entry of a command changes. -/
theorem commandWordResults : Obligations.CommandWordResults := by
  refine ⟨fun s w => ?words, fun s w => ?begun, fun s c k x => ?entry⟩
  case words =>
    refine ⟨State.gives_view rfl, State.gives_view rfl, State.gives_view rfl, State.gives_view rfl, State.gives_view rfl, State.gives_view rfl,
      fun ha => State.gives_queued rfl (alignFaults_nil ha), State.gives_cpym, State.gives_queued_busy rfl, State.gives_queued_busy rfl, ?_⟩
    and_intros <;> exact State.gives_queued rfl rfl
  case begun =>
    exact ⟨State.gives_begun rfl rfl, State.gives_begun rfl rfl, State.gives_begun rfl rfl, State.gives_begun rfl rfl,
      State.gives_vote rfl (show (5 : Nat) ≠ 8 by decide)⟩
  case entry =>
    have hteam : ((s.addCmd c k x).coreAt c).team
        = ({ (s.coreAt c).team with cmds := (s.coreAt c).team.cmds ++ [s.entered c k x] } : Team).updCtx k (·.awaits x.tok) := by
      rw [State.addCmd_eq, State.coreAt_updTeam]
      rfl
    have hctx : (s.addCmd c k x).ctxAt c k = (s.ctxAt c k).awaits x.tok := by
      unfold State.ctxAt
      rw [hteam]
      exact Team.get_updCtx ..
    refine ⟨State.addCmd_nextId .., ⟨s.entered c k x, congrArg Team.cmds hteam, rfl, rfl, rfl, rfl, ?_, rfl, rfl, rfl, rfl, rfl, rfl, rfl, rfl, rfl⟩,
      fun r => by rw [hctx, Ctx.tokPend_awaits], by rw [hctx, Ctx.s_awaits], by rw [State.addCmd_eq]; rfl⟩
    show s.cycle < s.cycle + 1 + s.delays.headD 0
    omega

end Sys2Proof.Machine

/-! The copies as they start (R198 to R204, R276): the statement of O31, which leaves out the bytes that a command keeps. What a copy
moves into the scratchpad passes through `Cmd.asKept`, which puts the bytes of `kept` in the place of those in memory (R276), and
`Cmd.fresh`, the statement's command that has not begun, says nothing of them. A run gives kept bytes to `CPYM` and to collectives
only; the statement ranges over every command. -/

namespace Sys2Proof.Machine

/-- `CPY` into the scratchpad (R200). -/
def keptWord : EWord :=
  { hd := { unit := .en, stop := true, stall := 0, guard := 0, gneg := false, imm := none }
    tok := 0, a := 0, b := 0, c := 0, q := 0, scope := 0, order := 0, fn := 0 }

/-- That command, not begun, with its descriptor at offset 0 and a byte 1 kept for virtual address 0. -/
def keptCmd : Cmd := { Cmd.new (.cpy keptWord) 0 0 with kept := [(0, 1)] }

/-- Its engine, on core 0 with 160 bytes of scratchpad. -/
def keptEng : Eng := { home := .core 0, core := 0, tlb := 0, asid := 0, size := 160, host := 0 }

/-- After a reset, with the first page of memory in every TLB, and in the scratchpad of core 0 a view of one raw byte, from virtual
address 0 to offset 128 (R198, R199). -/
def keptState : State :=
  let page : TlbEntry := { asid := 0, base := 0, size := 4096, pa := 0, w := true, x := false, tag := false, d := true }
  ({ State.reset with tlbs := Vector.replicate 48 [page] } : State).updTeam 0
    (fun t => { t with spad := [(8, 128), (16, 1), (20, 1), (24, 1), (28, 1)] })

/-- The view of that descriptor. -/
def keptView : View := viewOf (keptState.engPad keptEng keptCmd.aOff 128)

theorem keptCmd_fresh : keptCmd.fresh := ⟨rfl, rfl, rfl, rfl, rfl, rfl, rfl⟩

theorem keptState_onePart : keptState.onePart keptEng (keptView.parts keptView.mw keptView.sw) .read 1 128 1 0 keptState :=
  ⟨{ at_ := 0, va := 0, spad := 128, n := 1 }, by decide, rfl, rfl, rfl, rfl, rfl⟩

/-- The byte that lands is the one kept; memory holds 0 there. -/
theorem keptCmd_moves_kept : memRead ((keptState.runCmd keptEng keptCmd).1.coreAt 0).team.spad 128 1 = [1] ∧ memRead keptState.mem 0 1 = [0] := by decide

/-- Refutes O31: a `CPY` that holds a kept byte moves that byte, where the statement asks for the byte that stands in memory. -/
theorem not_copyCommandResults : ¬ Obligations.CopyCommandResults := by
  rintro ⟨-, moves, -⟩
  obtain ⟨cpyIn, -⟩ := moves keptState keptState keptEng keptCmd 0 128 1 0 keptCmd_fresh rfl
    (by decide) (by decide) (by decide) (by decide) (by decide) rfl
  obtain ⟨-, -, same, -⟩ := cpyIn keptWord rfl (by decide) keptState_onePart
  obtain ⟨landed, stands⟩ := keptCmd_moves_kept
  exact absurd (landed.symm.trans (same.trans stands)) (by decide)

end Sys2Proof.Machine

/-! The events of engines, votes, the fabric and code fetch (R192 to R195, R202, R211, R225, R336 to R339, R359): the statement of O36. -/

namespace Sys2Proof.Machine

/-! ## Operations that leave every team and task -/

/-- `u` has the cores and the tasks of `s`. -/
def State.sameTeams (s u : State) : Prop := u.cores = s.cores ∧ u.tasks = s.tasks

namespace State.sameTeams
variable {s u : State}

theorem refl (s : State) : s.sameTeams s := ⟨rfl, rfl⟩

theorem trans {v : State} (h : s.sameTeams u) (h' : u.sameTeams v) : s.sameTeams v := ⟨h'.1.trans h.1, h'.2.trans h.2⟩

theorem foldl {α : Type} {f : State → α → State} (hf : ∀ (v : State) a, v.sameTeams (f v a)) (l : List α) (h : s.sameTeams u) :
    s.sameTeams (l.foldl f u) := by
  induction l generalizing u with
  | nil => exact h
  | cons a l ih => exact ih (h.trans (hf u a))

theorem ite {c : Prop} [Decidable c] {v : State} (h : s.sameTeams u) (h' : s.sameTeams v) : s.sameTeams (if c then u else v) := by
  split
  · exact h
  · exact h'

theorem recordExc {c a b x l} : s.sameTeams (s.recordExc c a b x l) := ite ⟨rfl, rfl⟩ (refl s)
theorem cmdExc {e c} : s.sameTeams (s.cmdExc e c) := recordExc

theorem cacheWalk {g asid va} : s.sameTeams (s.cacheWalk g asid va) := by
  unfold State.cacheWalk
  split
  · exact refl s
  · exact ⟨rfl, rfl⟩

theorem tlbEntry {k asid va code} : s.sameTeams (s.tlbEntry k asid va code).1 := by
  unfold State.tlbEntry
  split
  · exact refl s
  · dsimp only
    split
    · exact cacheWalk
    · exact cacheWalk.trans ⟨rfl, rfl⟩

/-- A translation fills TLBs and caches and sets bits of page tables (R270, R272). -/
theorem translate {k asid va acc} : s.sameTeams (s.translate k asid va acc).1 := by
  have entry : s.sameTeams (s.tlbEntry k asid va (acc == .code)).1 := tlbEntry
  unfold State.translate
  split
  · next e => rwa [e] at entry
  · next e =>
    rw [e] at entry
    dsimp -iota only
    split
    · split <;> exact entry
    · exact entry
    · split
      · exact entry
      · split
        · exact entry
        · split
          · exact entry.trans ⟨rfl, rfl⟩
          · exact entry
          · exact entry.trans ⟨rfl, rfl⟩

theorem pwrite {a bs} : s.sameTeams (s.pwrite a bs) := by
  unfold State.pwrite State.unpoison
  split <;> exact ⟨rfl, rfl⟩

theorem park {g asid va cause line who stream} : s.sameTeams (s.park g asid va cause line who stream) := by
  unfold State.park
  dsimp only
  split <;> exact ⟨rfl, rfl⟩

end State.sameTeams

/-! ## Actions on a space's structures that free a page (R312) -/

/-- The action leaves the teams and tasks of the device, with whatever it stops. -/
def KvM.leavesTeams {α : Type} (m : KvM α) : Prop := ∀ k : KvSt, k.s.sameTeams (StateT.run (ExceptT.run m) k).2.s

namespace KvM.leavesTeams
variable {α β : Type}

theorem run {m : KvM α} (hm : m.leavesTeams) {s : State} {tlb space r k} (e : KvM.run m s tlb space = (r, k)) : s.sameTeams k.s := by
  have w := hm { s := s, log := [], tlb := tlb, space := space, noTag := false }
  rwa [show StateT.run (ExceptT.run m) _ = (r, k) from e] at w

theorem pure {x : α} : (Pure.pure x : KvM α).leavesTeams := fun k => State.sameTeams.refl k.s
theorem throw {e : KvStop} : (MonadExcept.throw e : KvM α).leavesTeams := fun k => State.sameTeams.refl k.s
theorem get : (MonadState.get : KvM KvSt).leavesTeams := fun k => State.sameTeams.refl k.s

theorem bind {m : KvM α} {f : α → KvM β} (hm : m.leavesTeams) (hf : ∀ x, (f x).leavesTeams) : (m >>= f).leavesTeams := fun k => by
  have w := hm k
  rw [ExceptT.run_bind, StateT.run_bind]
  rcases e : StateT.run (ExceptT.run m) k with ⟨r, l⟩
  rw [e] at w
  cases r with
  | ok x => exact w.trans (hf x l)
  | error x => exact w

theorem ite {c : Prop} [Decidable c] {m n : KvM α} (hm : m.leavesTeams) (hn : n.leavesTeams) : (if c then m else n).leavesTeams := by
  split
  · exact hm
  · exact hn

/-- A check that stops the action when it fails. -/
theorem check {c : Prop} [Decidable c] {e : KvStop} {f : PUnit → KvM α} (hf : (f ()).leavesTeams) :
    (if c then (MonadExcept.throw e : KvM PUnit) >>= f else f ()).leavesTeams := ite (bind throw fun _ => hf) hf

/-- A step that an action makes only in one case. -/
theorem optional {c : Prop} [Decidable c] {m : KvM PUnit} {f : PUnit → KvM α} (hm : m.leavesTeams) (hf : ∀ r, (f r).leavesTeams) :
    (if c then m >>= f else f ()).leavesTeams := ite (bind hm hf) (hf ())

/-- A write is kept apart until the action is whole. -/
theorem log {f : KvSt → List (Nat × List Byte)} : (modify (fun k => { k with log := f k }) : KvM Unit).leavesTeams :=
  fun k => State.sameTeams.refl k.s

theorem kvD : Sys2Proof.Machine.kvD.leavesTeams := bind get fun _ => pure

/-- An action that changes the device by a function of its state. -/
theorem getSet {g : KvSt → KvSt} {f : KvSt → PUnit → KvM α} (hg : ∀ k : KvSt, k.s.sameTeams (g k).s) (hf : ∀ k, (f k ()).leavesTeams) :
    (MonadState.get >>= fun k => MonadStateOf.set (g k) >>= f k).leavesTeams := fun k => (hg k).trans (hf k (g k))

theorem kvTranslate {va acc} : (kvTranslate va acc).leavesTeams := by
  refine getSet (fun k => State.sameTeams.translate) fun k => ?_
  split
  · exact throw
  · exact pure

theorem kvReadParts {l} : (kvReadParts l).leavesTeams := by
  induction l with
  | nil => exact pure
  | cons p l ih =>
    refine bind kvTranslate fun x => bind get fun k => check ?_
    split
    · exact throw
    · exact bind ih fun _ => pure

theorem kvRead {va n} : (kvRead va n).leavesTeams := kvReadParts
theorem kvNat {va n} : (kvNat va n).leavesTeams := bind kvRead fun _ => pure

theorem kvWriteParts {l bs} : (kvWriteParts l bs).leavesTeams := by
  induction l generalizing bs with
  | nil => exact pure
  | cons p l ih => exact bind kvTranslate fun x => check (bind log fun _ => ih)

theorem kvPut {va n x} : (kvPut va n x).leavesTeams := kvWriteParts
theorem kvGive {a b} : (kvGive a b).leavesTeams := bind kvNat fun _ => bind kvPut fun _ => kvPut
theorem kvPage {p} : (kvPage p).leavesTeams := bind kvRead fun _ => pure
theorem kvRef {a up} : (kvRef a up).leavesTeams := bind kvNat fun _ => bind kvPut fun _ => pure

theorem kvFreePage {n p} : (kvFreePage n p).leavesTeams := by
  induction n generalizing p with
  | zero => exact pure
  | succ n ih =>
    refine bind get fun _ => ite pure (bind kvD fun _ => bind kvPage fun _ => ?_)
    exact optional kvGive fun _ => bind kvGive fun _ => ite pure (bind kvRef fun _ => ite ih pure)

theorem kvRelease {p} : (kvRelease p).leavesTeams := ite pure (bind kvPage fun _ => ite kvFreePage pure)

end KvM.leavesTeams

namespace State.sameTeams
variable {s u : State}

theorem commit {k : KvSt} : k.s.sameTeams k.commit := foldl (fun _ _ => pwrite) _ (refl k.s)

theorem kvReport {k core a asid x} : s.sameTeams (s.kvReport k core a asid x) := by
  unfold State.kvReport
  dsimp only
  split <;> exact ⟨rfl, rfl⟩

theorem kvUnhold {e a space p} : s.sameTeams (s.kvUnhold e a space p) := by
  refine ite (refl s) ?_
  split
  · next e => exact (KvM.leavesTeams.kvRelease.run e).trans commit
  · next e => exact (KvM.leavesTeams.kvRelease.run e).trans park
  · next e => exact (KvM.leavesTeams.kvRelease.run e).trans kvReport

/-! ## Operations that a command's end calls -/

theorem tellMembers {members eps r m} : s.sameTeams (s.tellMembers members eps r m) := by
  refine foldl (fun v p => ?_) _ (refl s)
  split
  · exact refl v
  · split <;> exact ⟨rfl, rfl⟩

theorem failColl {c g} : s.sameTeams (s.failColl c g) := by
  unfold State.failColl
  split
  · exact refl s
  · exact trans ⟨rfl, rfl⟩ tellMembers

theorem enterColl {c} : s.sameTeams (s.enterColl c).1 := by
  unfold State.enterColl
  split
  · exact refl s
  · dsimp only
    split <;> exact ⟨rfl, rfl⟩

theorem dropMember {e r c} : s.sameTeams (s.dropMember e r c) := by
  unfold State.dropMember
  split
  · exact refl s
  · split
    next v d eq =>
    have entered : s.sameTeams v := by
      have h : s.sameTeams (if c.unread && c.aOff + 32 ≤ e.size then s.enterColl { c with blob := s.collBytes e c } else (s, c)).1 := by
        split
        · exact enterColl
        · exact refl s
      rwa [eq] at h
    split
    · exact entered
    · exact entered.trans (trans ⟨rfl, rfl⟩ failColl)

theorem retireCoils {id a} : s.sameTeams (s.retireCoils id a) := by
  unfold State.retireCoils
  split
  · exact refl s
  · extract_lets kept still dead v w
    have recorded : s.sameTeams w := by
      refine foldl ?_ dead ⟨rfl, rfl⟩
      exact fun _ _ => ⟨rfl, rfl⟩
    exact ite (recorded.trans ⟨rfl, rfl⟩) recorded

theorem unpinTensor {id v a} : s.sameTeams (s.unpinTensor id v a) := by
  unfold State.unpinTensor
  split
  · exact refl s
  · exact trans ⟨rfl, rfl⟩ retireCoils

theorem dropBucket {c} : s.sameTeams (s.dropBucket c) := by
  unfold State.dropBucket
  split
  · exact ite (refl s) ⟨rfl, rfl⟩
  · exact refl s

end State.sameTeams

/-! ## The home of a command -/

/-- The home is there: a saved frame that the command names by its task and member exists (R34). -/
def State.hasHome (s : State) : CmdHome → Prop
  | .core _ => True
  | .frame t m => ∃ x, s.taskOf t = some x ∧ m < x.frames.length

theorem State.taskOf_updTask (s : State) (id : Nat) (f : Task → Task) (hf : ∀ t, (f t).id = t.id) : (s.updTask id f).taskOf id = (s.taskOf id).map f := by
  show (s.tasks.map (fun t => if t.id == id then f t else t)).find? (fun t => t.id == id) = (s.tasks.find? (fun t => t.id == id)).map f
  induction s.tasks with
  | nil => rfl
  | cons t l ih =>
    rw [List.map_cons, List.find?_cons, List.find?_cons]
    cases h : t.id == id with
    | true => rw [if_pos rfl, hf, h]; rfl
    | false => rw [if_neg Bool.false_ne_true, h]; exact ih

theorem modifyAt_length {α : Type} (f : α → α) (l : List α) (n : Nat) : (modifyAt f l n).length = l.length := by
  induction l generalizing n with
  | nil => rfl
  | cons x l ih =>
    cases n with
    | zero => rfl
    | succ n => exact congrArg Nat.succ (ih n)

theorem getD_modifyAt {α : Type} (f : α → α) {l : List α} {n : Nat} (d : α) (h : n < l.length) : (modifyAt f l n).getD n d = f (l.getD n d) := by
  induction l generalizing n with
  | nil => exact absurd h (Nat.not_lt_zero n)
  | cons x l ih =>
    cases n with
    | zero => rfl
    | succ n => exact ih (Nat.lt_of_succ_lt_succ h)

section
variable {s u : State} {h : CmdHome} {f : Team → Team}

theorem State.sameTeams.homeTeam (w : s.sameTeams u) (h : CmdHome) : u.homeTeam h = s.homeTeam h := by
  obtain ⟨hc, ht⟩ := w
  cases h with
  | core c => exact congrArg (fun v => (v.get c).team) hc
  | frame t m => unfold State.homeTeam State.taskOf; rw [ht]

theorem State.sameTeams.hasHome (w : s.sameTeams u) (hh : s.hasHome h) : u.hasHome h := by
  cases h with
  | core c => trivial
  | frame t m => unfold State.hasHome State.taskOf at *; rwa [w.2]

theorem State.homeTeam_frame {t m : Nat} {x : Task} (ht : s.taskOf t = some x) : s.homeTeam (.frame t m) = x.frames.getD m Team.reset := by
  show (match s.taskOf t with | some x => x.frames.getD m Team.reset | none => Team.reset) = _
  rw [ht]

theorem State.taskOf_updHome {t m : Nat} {x : Task} (ht : s.taskOf t = some x) :
    (s.updHome (.frame t m) f).taskOf t = some { x with frames := modifyAt f x.frames m } :=
  (State.taskOf_updTask s t (fun x => { x with frames := modifyAt f x.frames m }) fun _ => rfl).trans (ht ▸ rfl)

theorem State.hasHome.updHome (hh : s.hasHome h) : (s.updHome h f).hasHome h := by
  cases h with
  | core c => trivial
  | frame t m =>
    obtain ⟨x, ht, hm⟩ := hh
    exact ⟨_, State.taskOf_updHome ht, by rwa [modifyAt_length]⟩

/-- A team that is changed at its home is found changed there. -/
theorem State.homeTeam_updHome (hh : s.hasHome h) : (s.updHome h f).homeTeam h = f (s.homeTeam h) := by
  cases h with
  | core c => exact congrArg Core.team (State.coreAt_updTeam s c f)
  | frame t m =>
    obtain ⟨x, ht, hm⟩ := hh
    rw [State.homeTeam_frame ht, State.homeTeam_frame (State.taskOf_updHome ht)]
    exact getD_modifyAt f Team.reset hm

/-- What a command leaves in its task's record leaves the teams (R87). -/
theorem State.homeTeam_noteErr (t : Task) (ht : s.homeTask h = some t) (c : Cmd) (b : Bool) (n : Task → Nat) :
    (s.updTask t.id (fun x => x.noteErr c b (n x))).homeTeam h = s.homeTeam h := by
  have hnote (x : Task) : (x.noteErr c b (n x)).id = x.id ∧ (x.noteErr c b (n x)).frames = x.frames := by
    unfold Task.noteErr
    split
    · exact ⟨rfl, rfl⟩
    · split
      · exact ⟨rfl, rfl⟩
      · split <;> exact ⟨rfl, rfl⟩
  cases h with
  | core c => rfl
  | frame id m =>
    have hid : t.id = id := State.taskOf_id ht
    have hu := State.taskOf_updTask s t.id (fun x => x.noteErr c b (n x)) (fun x => (hnote x).1)
    rw [hid, show s.taskOf id = some t from ht] at hu
    rw [hid, State.homeTeam_frame hu, State.homeTeam_frame ht]
    exact congrArg (·.getD m Team.reset) (hnote t).2

/-- A home that is not there reads as a team after a reset. -/
theorem State.homeTeam_reset (hh : ¬ s.hasHome h) : s.homeTeam h = Team.reset := by
  cases h with
  | core c => exact absurd trivial hh
  | frame t m =>
    cases ht : s.taskOf t with
    | none =>
      show (match s.taskOf t with | some x => x.frames.getD m Team.reset | none => Team.reset) = _
      rw [ht]
    | some x =>
      have hm : x.frames.length ≤ m := Nat.le_of_not_lt fun hm => hh ⟨x, ht, hm⟩
      rw [State.homeTeam_frame ht, List.getD_eq_default _ _ hm]

/-- A command that is found has a home. -/
theorem State.hasHome_of_findCmd {r : CmdRef} {c : Cmd} (hf : s.findCmd r = some (h, c)) : s.hasHome h := by
  unfold State.findCmd at hf
  split at hf
  · next h' _ =>
    obtain ⟨d, hd, e⟩ := Option.map_eq_some_iff.mp hf
    obtain ⟨rfl, -⟩ := Prod.mk.inj e
    have hmem : d ∈ (s.homeTeam h').cmds := List.mem_of_find?_eq_some hd
    by_contra hh
    exact absurd (State.homeTeam_reset hh ▸ hmem) List.not_mem_nil
  · exact absurd hf (by simp)

end

/-! ## A command completes (R25, R26, R34, R192, R195) -/

/-- The team at `h` is there still, with the contexts that it had. -/
def State.keepsCtxs (s : State) (h : CmdHome) (u : State) : Prop := u.hasHome h ∧ (u.homeTeam h).ctxs = (s.homeTeam h).ctxs

theorem State.keepsCtxs.trans {s u v : State} {h : CmdHome} (w : s.keepsCtxs h u) (w' : u.keepsCtxs h v) : s.keepsCtxs h v := ⟨w'.1, w'.2.trans w.2⟩

theorem State.keepsCtxs.ite {s u v : State} {h : CmdHome} {c : Prop} [Decidable c] (w : s.keepsCtxs h u) (w' : s.keepsCtxs h v) :
    s.keepsCtxs h (if c then u else v) := by
  split
  · exact w
  · exact w'

section
variable {s u : State} {h : CmdHome} (hh : s.hasHome h)
include hh

theorem State.sameTeams.keepsCtxs (w : s.sameTeams u) : s.keepsCtxs h u := ⟨w.hasHome hh, congrArg Team.ctxs (w.homeTeam h)⟩

theorem State.keepsCtxs_updHome {f : Team → Team} (hf : ∀ t, (f t).ctxs = t.ctxs) : s.keepsCtxs h (s.updHome h f) :=
  ⟨hh.updHome, by rw [State.homeTeam_updHome hh, hf]⟩

end

/-- What a command gives up with its word leaves the contexts of its team. -/
theorem State.keepsCtxs_releaseCmd {s : State} {e : Eng} (hh : s.hasHome e.home) (c : Cmd) : s.keepsCtxs e.home (s.releaseCmd e c) := by
  have same : s.keepsCtxs e.home s := (State.sameTeams.refl s).keepsCtxs hh
  have held {f : Team → Team} {a space p} (hf : ∀ t, (f t).ctxs = t.ctxs) : s.keepsCtxs e.home ((s.updHome e.home f).kvUnhold e a space p) :=
    (State.keepsCtxs_updHome hh hf).trans (State.sameTeams.kvUnhold.keepsCtxs hh.updHome)
  have page {a space p} : s.keepsCtxs e.home (if c.aux = 0 then s else (s.putCmdAt e.home { c with aux := 0 }).kvUnhold e a space p) := by
    refine same.ite (held ?_)
    exact fun _ => rfl
  unfold State.releaseCmd
  split
  case h_1 =>
    split
    · exact State.sameTeams.unpinTensor.keepsCtxs hh
    · exact same
  case h_2 => exact page
  case h_3 => exact page
  case h_4 => exact State.sameTeams.keepsCtxs hh ⟨rfl, rfl⟩
  case h_5 =>
    refine State.keepsCtxs.ite (held ?_) same
    exact fun _ => rfl
  case h_6 | h_7 =>
    refine State.keepsCtxs.ite (State.keepsCtxs_updHome hh fun t => ?_) same
    split <;> rfl
  case h_8 => exact State.keepsCtxs.ite (State.sameTeams.dropBucket.keepsCtxs hh) same
  case h_9 => exact same

/-- The last command is the command with another VAL. -/
theorem State.finalCmd_eq (s : State) (h : CmdHome) (c : Cmd) : s.finalCmd h c = { c with value := (s.finalCmd h c).value } := by
  unfold State.finalCmd
  split
  · dsimp only
    split <;> rfl
  · rfl

@[simp] theorem State.finalCmd_id (s : State) (h : CmdHome) (c : Cmd) : (s.finalCmd h c).id = c.id := by rw [State.finalCmd_eq]
@[simp] theorem State.finalCmd_ctx (s : State) (h : CmdHome) (c : Cmd) : (s.finalCmd h c).ctx = c.ctx := by rw [State.finalCmd_eq]
@[simp] theorem State.finalCmd_tok (s : State) (h : CmdHome) (c : Cmd) : (s.finalCmd h c).tok = c.tok := by rw [State.finalCmd_eq]
@[simp] theorem State.finalCmd_err (s : State) (h : CmdHome) (c : Cmd) : (s.finalCmd h c).err = c.err := by rw [State.finalCmd_eq]

/-- Does the command's end write its word: has the task not failed, and is the token pending (R26, R355)? -/
def State.writesWord (s : State) (h : CmdHome) (c : Cmd) : Bool :=
  !((match s.homeTask h with | some t => t.failure.isSome | none => false) || !((s.homeTeam h).ctxs.get c.ctx).tokPend.getLsbD c.tok.toNat)

/-- What a completion makes of the command's team: the word is written, or not, and the command is gone. -/
theorem State.homeTeam_completeCmd {s : State} {h : CmdHome} (hh : s.hasHome h) (r : CmdRef) (c : Cmd) :
    ∃ t : Team, t.ctxs = (s.homeTeam h).ctxs ∧ (s.completeCmd r h c).homeTeam h
      = { (if s.writesWord h c then t.writeToken (s.finalCmd h c) else t) with cmds := t.cmds.filter (fun x => x.id != c.id) } := by
  unfold State.completeCmd
  extract_lets e d failed retired u v
  have dropped : s.sameTeams ((if d.err = 0x07 then s.cmdExc e d else s).dropMember e r d) :=
    (State.sameTeams.ite .cmdExc (.refl s)).trans .dropMember
  have keeps : s.keepsCtxs h u := (dropped.keepsCtxs hh).trans (State.keepsCtxs_releaseCmd (e := e) (dropped.hasHome hh) d)
  refine ⟨u.homeTeam h, keeps.2, ?_⟩
  have hw : s.writesWord h c = !(failed || !((u.homeTeam h).ctxs.get d.ctx).tokPend.getLsbD d.tok.toNat) := by
    rw [keeps.2, s.finalCmd_ctx, s.finalCmd_tok]
    rfl
  have written : v.homeTeam h
      = { (if s.writesWord h c then (u.homeTeam h).writeToken d else u.homeTeam h) with cmds := (u.homeTeam h).cmds.filter (fun x => x.id != c.id) } := by
    refine (State.homeTeam_updHome keeps.1).trans ?_
    rw [hw, ← s.finalCmd_id h c]
    cases failed || !((u.homeTeam h).ctxs.get d.ctx).tokPend.getLsbD d.tok.toNat <;> rfl
  rw [← written]
  split
  · next t ht => exact State.homeTeam_noteErr t ht d retired _
  · rfl

theorem Ctx.tokPend_clear (x : Ctx) (r q : Reg6) :
    (x.tokPend &&& ~~~(BitVec.ofNat 64 (2 ^ r.toNat))).getLsbD q.toNat = (x.tokPend.getLsbD q.toNat && q != r) := by
  have hq := q.isLt
  have hbit : (BitVec.ofNat 64 (2 ^ r.toNat)).getLsbD q.toNat = (q == r) := getLsbD_two_pow_reg r q
  rw [BitVec.getLsbD_and, BitVec.getLsbD_not, hbit, decide_eq_true hq, Bool.true_and]
  rfl

/-- The status word stands in the token register, whose token is pending no more; every other register and token is as before (R25, R26). -/
theorem Team.writeToken_spec (t : Team) (c : Cmd) :
    let x := t.ctxs.get c.ctx
    let z := (t.writeToken c).ctxs.get c.ctx
    (∀ q : Reg6, q ≠ c.tok → z.sReg q = x.sReg q ∧ z.tokPend.getLsbD q.toNat = x.tokPend.getLsbD q.toNat)
      ∧ (c.tok ≠ 0 → z.sReg c.tok = c.word) ∧ z.tokPend.getLsbD c.tok.toNat = false := by
  intro x z
  have hz : z = { x.setS c.tok c.word with tokPend := x.tokPend &&& ~~~(BitVec.ofNat 64 (2 ^ c.tok.toNat)) } := Team.get_updCtx ..
  rw [hz]
  refine ⟨fun q hq => ⟨Ctx.sReg_setS_ne x c.word hq, ?_⟩, fun h0 => (Ctx.sReg_setS x c.tok c.word).trans (if_neg h0), ?_⟩
  · exact (Ctx.tokPend_clear x c.tok q).trans (by simp [hq])
  · exact (Ctx.tokPend_clear x c.tok c.tok).trans (by simp)

/-- What a completion leaves in the scalar registers and the pending tokens of the command's context (R25, R34, R192, R195). -/
theorem State.completeCmd_spec {s : State} {h : CmdHome} (hh : s.hasHome h) (r : CmdRef) (c : Cmd) :
    let o := (s.homeTeam h).ctxs.get c.ctx
    let y := (s.completeCmd r h c).homeTeam h
    let z := y.ctxs.get c.ctx
    (∀ x ∈ y.cmds, x.id ≠ c.id) ∧ (∀ q : Reg6, q ≠ c.tok → z.sReg q = o.sReg q ∧ z.tokPend.getLsbD q.toNat = o.tokPend.getLsbD q.toNat)
      ∧ (s.writesWord h c = true → c.tok ≠ 0 → z.sReg c.tok = (s.finalCmd h c).word ∧ z.tokPend.getLsbD c.tok.toNat = false) := by
  intro o y z
  obtain ⟨t, ht, hy⟩ := State.homeTeam_completeCmd hh r c
  obtain ⟨others, word, clear⟩ := t.writeToken_spec (s.finalCmd h c)
  rw [s.finalCmd_ctx, s.finalCmd_tok] at others word clear
  rw [ht] at others
  have hz : z = (if s.writesWord h c then t.writeToken (s.finalCmd h c) else t).ctxs.get c.ctx := by
    show ((s.completeCmd r h c).homeTeam h).ctxs.get c.ctx = _
    rw [hy]
  refine ⟨fun x hx => ?_, fun q hq => ?_, fun hw h0 => ?_⟩
  · rw [show y = _ from hy] at hx
    simpa using List.of_mem_filter hx
  · rw [hz]
    split
    · exact others q hq
    · rw [ht]
      exact ⟨rfl, rfl⟩
  · rw [hz, if_pos hw]
    exact ⟨word h0, clear⟩

/-- The word is written unless the task has failed or the token is not pending. -/
theorem State.writesWord_iff (s : State) (h : CmdHome) (c : Cmd) :
    s.writesWord h c = true ↔ (∀ t, s.homeTask h = some t → t.failure = none) ∧
      ((s.homeTeam h).ctxs.get c.ctx).tokPend.getLsbD c.tok.toNat = true := by
  unfold State.writesWord
  cases s.homeTask h <;> simp

/-! ## The statement -/

section
variable {s : State}

theorem exec_engineStart {r : CmdRef} {h : CmdHome} {c : Cmd} (he : s.ev = .cmd r) (hf : s.findCmd r = some (h, c)) (ha : awaitsDelivery c = false)
    (hq : c.state = .queued) (hm : s.mayStart h c (s.trueRanges (s.eng r h) c) = true) :
    exec .engineStart s = .next (((s.runCmd (s.eng r h) c).1.putCmdAt h (s.runCmd (s.eng r h) c).2).collSettle) := by
  change execEngineStart s = _
  simp only [execEngineStart, he, hf, ha, hq, hm, BEq.rfl, Bool.and_self, if_true, Bool.false_eq_true, if_false]

theorem exec_engineComplete {r : CmdRef} {h : CmdHome} {c : Cmd} (he : s.ev = .cmd r) (hf : s.findCmd r = some (h, c))
    (hover : ∀ n, sidxOver (s.homeTeam h) n c = false) (hm : s.mayComplete h c = true) : exec .engineComplete s = .next (s.completeCmd r h c) := by
  change execEngineComplete s = _
  simp only [execEngineComplete, he, hf, hover, hm, Bool.false_eq_true, if_false, if_true]

end

/-- Settles O36: the completion by `State.completeCmd_spec`, each other event by its arm. -/
theorem engineEventResults : Obligations.EngineEventResults := by
  intro s
  refine ⟨fun r h c he hf => ⟨fun ha hq hm => exec_engineStart he hf ha hq hm, fun hover hm => ⟨exec_engineComplete he hf hover hm, ?word⟩⟩,
    fun r h c x he hf ht hw hmem => ?copy, fun n b he hb hfired => ?bucket, fun v g he hg hhandle hlost hcomplete hbroken => ?vote,
    fun e he => ⟨fun asid a n hm => ?read, fun asid a bs hm => ?write, fun handle m ok hm => ?taken⟩,
    fun e p he hp => ?promotion, fun handle he => ?lost, fun e he => ?walk, fun e u x he hfetch hbad hline => ?line, fun r he => ?fwd,
    fun e r he hrep hgang => ?rep⟩
  case word =>
    obtain ⟨gone, others, word⟩ := State.completeCmd_spec (State.hasHome_of_findCmd hf) r c
    refine ⟨gone, others, fun hfail h0 hpend => ?_⟩
    rw [← s.finalCmd_err h c]
    exact word ((s.writesWord_iff h c).mpr ⟨hfail, hpend⟩) h0
  case copy =>
    change execCpymCoreCopy s = _
    have hc : c.targets.contains r.target = true := List.contains_iff_mem.mpr hmem
    simp only [execCpymCoreCopy, he, hf, ht, hw, hc, BEq.rfl, Bool.and_self, if_true]
  case bucket =>
    change execBucketFire s = _
    simp only [execBucketFire, he, hb, hfired, Bool.false_eq_true, if_false]
  case vote =>
    change execStepVoteComplete s = _
    simp only [execStepVoteComplete, he, hg, hhandle, hlost, hcomplete, hbroken, ne_eq, not_true_eq_false, Bool.false_eq_true, if_false,
      Bool.not_true, Bool.or_self]
  case read =>
    change execFabricRequest s = _
    simp only [execFabricRequest, he, hm]
  case write =>
    change execFabricRequest s = _
    simp only [execFabricRequest, he, hm]
  case taken =>
    change execFabricRequest s = _
    simp only [execFabricRequest, he, hm]
  case promotion =>
    change execPromotionInstall s = _
    simp only [execPromotionInstall, he, hp]
  case lost =>
    change execMessageUndeliverable s = _
    simp only [execMessageUndeliverable, he]
  case walk =>
    change execPageWalk s = _
    simp only [execPageWalk, he]
  case line =>
    change execCodeFetchLine s = _
    simp only [execCodeFetchLine, he, hfetch, hbad, hline, ne_eq, not_true_eq_false, if_false, List.nil_append]
  case fwd =>
    change execForwardRetire s = _
    simp only [execForwardRetire, he]
  case rep =>
    change execRepRepetition s = _
    have hno : (gangBit r.instr && s.gangCores e.core != []) = false := by
      rcases hgang with h | h <;> simp [h]
    simp only [execRepRepetition, he, hrep, hno, Bool.false_eq_true, if_false]

end Sys2Proof.Machine

/-! Stitched tensors and seasoned words (R237, R276): the statement of O55, which leaves out the bytes that a command keeps, as that of
O31 does. A `SWCPY` into the scratchpad reads memory through `Cmd.asKept`, and `Cmd.fresh` says nothing of `kept`; a run gives kept
bytes to `CPYM` and to collectives only, while the statement ranges over every command. -/

namespace Sys2Proof.Machine

/-- A `SWCPY` of words of 32 bits (R237), not begun, that holds the kept byte of `keptCmd`. -/
def keptSwcpy : Cmd := { keptCmd with instr := .swcpyIn keptWord }

theorem keptSwcpy_fresh : keptSwcpy.fresh := keptCmd_fresh

/-- The view of `keptState`, read as one word of four bytes, is one part on the untagged page. -/
theorem keptState_onePart_word : keptState.onePart keptEng (keptView.parts 4 4) .read 4 128 1 0 keptState :=
  ⟨{ at_ := 0, va := 0, spad := 128, n := 1 }, by decide, rfl, rfl, rfl, rfl, rfl⟩

/-- The word that lands has the kept byte; the word in memory is zero. -/
theorem keptSwcpy_moves_kept :
    memRead ((keptState.runCmd keptEng keptSwcpy).1.coreAt 0).team.spad 128 4 = [1, 0, 0, 0] ∧ memRead keptState.mem 0 4 = [0, 0, 0, 0] := by
  decide

/-- Refutes O55: a `SWCPY` that holds a kept byte moves that byte, where the statement asks for the word that stands in memory. -/
theorem not_tensorAndSeasonResults : ¬ Obligations.TensorAndSeasonResults := by
  rintro ⟨-, -, swcpy, -⟩
  obtain ⟨-, moves⟩ := swcpy keptState keptState keptEng keptSwcpy 0 keptWord 128 1 0 keptSwcpy_fresh rfl (by decide)
  obtain ⟨swcpyIn, -⟩ := moves (by decide) (by decide) (by decide) rfl
  obtain ⟨-, -, same, -⟩ := swcpyIn rfl keptState_onePart_word
  obtain ⟨landed, stands⟩ := keptSwcpy_moves_kept
  exact absurd (landed.symm.trans (same.trans stands)) (by decide)

end Sys2Proof.Machine

/-! Configuration commands of the host (R269, R274, R282, R283, R304, R317, R335, R339, R360, R368, R373): the statement of O28. -/

namespace Sys2Proof.Machine

/-! ## What a configuration command checks before it takes effect -/

/-- An argument all of whose 64 bits have a meaning. -/
theorem onlyBits_all (x : Word) : x &&& ~~~(BitVec.ofNat 64 (2 ^ 64 - 1)) = 0 := BitVec.and_zero

section
variable {s : State}

/-- A queue closes when it is empty, and takes any other capacity that holds its entries (R282, R364). -/
theorem queueBusy_false {cap q : Nat} (hclose : cap = 0 → s.entries q = [] ∧ s.resumeList q = [])
    (hroom : cap ≠ 0 → (s.entries q).length ≤ cap) :
    (decide (cap = 0) && ((s.entries q).length != 0 || (s.resumeList q).length != 0) || cap != 0 && decide (cap < (s.entries q).length))
      = false := by
  by_cases h : cap = 0
  · obtain ⟨he, hr⟩ := hclose h
    simp [h, he, hr]
  · simp [h, hroom h]

/-- No `ATTN` runs on any core (R317). -/
theorem anyAttnRuns_false (h : ∀ c : Fin 208, (s.coreAt c).team.seq.running = false) :
    allCores.any (fun c => (s.coreAt c).team.seq.running) = false :=
  List.any_eq_false.mpr fun c _ => Bool.eq_false_iff.mp (h c)

/-- Every member has a valid entry of the domain table (R360, R368). -/
theorem anyMemberMissing_false {l : List Nat} (h : ∀ i ∈ l, (storeFind s.domain i).isSome) :
    l.any (fun i => (storeFind s.domain i).isNone) = false :=
  List.any_eq_false.mpr fun i hi => Bool.eq_false_iff.mp (Option.isNone_eq_false_iff.mpr (h i hi))

/-- No reserved bit of a domain entry is set (R360). -/
theorem anyEntryBad_false {es : List Nat} (h : ∀ x ∈ es, x / 2 ^ 24 % 128 = 0) : es.any (fun x => x / 2 ^ 24 % 128 != 0) = false :=
  List.any_eq_false.mpr fun x hx => by rw [h x hx]; decide

end

/-! ## The statement -/

/-- Settles O28: a command whose checks are passed puts its arguments in force and answers 0. -/
theorem hostConfigurationResults : Obligations.HostConfigurationResults := by
  intro s
  refine ⟨fun ⟨he, h0, h1⟩ => ?root, fun ⟨he, h0, h1⟩ => ?inval, fun ⟨he, h0, hbad, hclose, hroom⟩ => ?qcfg,
    fun ⟨he, h0, h1, ha⟩ => ?scfg, fun ⟨hl, h0, h1, hbad, hnamed⟩ => ?kvcfg, fun ⟨h0, h1, hl, hn, hfit, hidle⟩ => ?seqload,
    fun ⟨hl, h0, h1, hh, hbad, hgroup⟩ => ?stepgrp, fun ⟨hl, h0, h1⟩ => ?ftab,
    fun ⟨hl, h0, h1, hh, hset, hbad, hknown, hroom, hfree⟩ => ?collgrp, fun ⟨hl, h0, h1, hz, hon⟩ => ?rtabcfg,
    fun ⟨hl, h0, h1, hfit, hes⟩ => ?domcfg⟩
  case root => exact State.answers_args rfl rfl h0 h1 (noPayload_of he) rfl
  case inval => exact State.answers_args rfl rfl h0 h1 (noPayload_of he) rfl
  case qcfg =>
    refine State.answers_args rfl rfl h0 (onlyBits_all _) (noPayload_of he) ?_
    simp only [hbad, queueBusy_false hclose hroom, Bool.false_eq_true, if_false]
  case scfg => exact State.answers_args rfl rfl h0 (onlyBits_zero h1 0) (noPayload_of he) (if_neg ha)
  case kvcfg =>
    refine State.answers_args rfl rfl h0 (onlyBits_zero h1 0) (beq_iff_eq.mpr hl) ?_
    simp only [hbad, hnamed, Bool.false_eq_true, if_false]
  case seqload =>
    refine State.answers_of rfl rfl ?_
    have hok : onlyBits s.pkt.arg0 0x3FF = true := beq_iff_eq.mpr h0
    simp only [hok, h1, hl, beq_eq_false_iff_ne.mpr hn, Nat.not_lt.mpr hfit, anyAttnRuns_false hidle, bne_self_eq_false, beq_self_eq_true,
      decide_false, Bool.and_self, Bool.not_true, Bool.or_self, Bool.false_eq_true, if_false]
  case stepgrp =>
    refine State.answers_args rfl rfl h0 h1 (beq_iff_eq.mpr hl) ((if_neg ?valid).trans (if_neg ?free))
    case valid => simp only [hh, hbad, decide_false, Bool.or_self, Bool.false_eq_true, not_false_eq_true]
    case free =>
      split
      next g hg =>
        obtain ⟨hhandle, hvote⟩ := hgroup g hg
        simp only [hhandle, hvote, bne_self_eq_false, Bool.or_self, Bool.false_eq_true, not_false_eq_true]
      next => exact Bool.false_ne_true
  case ftab => exact State.answers_args rfl rfl (onlyBits_zero h0 0) (onlyBits_zero h1 0) (beq_iff_eq.mpr hl) rfl
  case collgrp =>
    refine State.answers_args rfl rfl h0 h1 (beq_iff_eq.mpr hl) ?_
    simp only [hh, hset, hbad, anyMemberMissing_false hknown, Nat.not_le.mpr hroom, Bool.and_eq_false_imp.mpr hfree, decide_false,
      Bool.or_self, Bool.false_eq_true, if_false]
  case rtabcfg =>
    refine State.answers_args rfl rfl h0 h1 (beq_iff_eq.mpr hl) ?_
    simp only [hz, hon, bne_self_eq_false, Bool.false_eq_true, if_false, if_true]
  case domcfg =>
    refine State.answers_args rfl rfl h0 (onlyBits_zero h1 0) (beq_iff_eq.mpr hl) ?_
    simp only [Nat.not_lt.mpr hfit, anyEntryBad_false hes, decide_false, Bool.or_self, Bool.false_eq_true, if_false]

end Sys2Proof.Machine

/-! Events of a core: stops, results taken along by a save, samples, the decoding of a bundle and the taking of a captured packet (R71,
R300, R349, R351, R385 to R387): the statement of O33. -/

namespace Sys2Proof.Machine

section
variable {s : State} {c : Fin 208} (he : s.ev = .core c)

/-! ## A freeze -/

section
include he

/-- At its boundary a core stops, and with the last member of its task the save begins (R349). -/
theorem exec_freezeBoundary {t : Task} (ht : s.stoppable c = some t) (hb : s.atBoundary c = true) :
    let u := s.updTeam c (fun x => x.stop s.cycle)
    exec .freezeBoundary s
      = .next (if t.cores.all (fun m => (u.coreAt (computeCore m)).team.stopAt.isSome) then u.stopAll t .freeze else u) := by
  change execFreezeBoundary s = _
  simp only [execFreezeBoundary, he, ht, hb, if_true]

/-- With the grace of a freeze request over, a core that has not stopped issues no more (R349). -/
theorem exec_freezeIssueHold (hr : (s.coreAt c).request = some .freeze) (hg : (s.coreAt c).requestAt + freezeGrace ≤ s.cycle)
    (hs : (s.coreAt c).team.stopAt = none) :
    exec .freezeIssueHold s = .next (s.updCore c (fun y => { y with holdIssue := true })) := by
  change execFreezeIssueHold s = _
  simp only [execFreezeIssueHold, he, hr, hg, hs, beq_self_eq_true, decide_true, Option.isNone_none, Bool.and_self, if_true]

end

/-! ## Results that a save has taken along -/

/-- An entry of the replay list that is to be written at the end of this cycle. -/
def State.replaysNow (s : State) (p : Pend) : Bool := p.due ≤ s.cycle + 1

section
include he

/-- The event concerns the entries due now, and none of a team that is stopped again (R351). -/
theorem exec_replayInject_filter : exec .replayInject s =
    let due (p : Pend) : Bool := (s.coreAt c).team.stopAt.isNone && s.replaysNow p
    .next (((s.coreAt c).team.replay.filter due).foldl (fun u p => u.runAct c p)
      (s.updTeam c (fun t => { t with replay := t.replay.filter (fun p => !due p) }))) := by
  change execReplayInject s = _
  simp only [execReplayInject, he]
  rfl

theorem exec_replayInject (hs : (s.coreAt c).team.stopAt = none) :
    exec .replayInject s = .next (((s.coreAt c).team.replay.filter s.replaysNow).foldl (fun u p => u.runAct c p)
      (s.updTeam c (fun t => { t with replay := t.replay.filter (fun p => !s.replaysNow p) }))) := by
  simp only [exec_replayInject_filter he, hs, Option.isNone_none, Bool.true_and]

theorem exec_replayInject_stopped (hs : (s.coreAt c).team.stopAt.isSome) : exec .replayInject s = .next s := by
  have running : (s.coreAt c).team.stopAt.isNone = false := Option.isNone_eq_false_iff.mpr hs
  simp only [exec_replayInject_filter he, running, Bool.false_and, Bool.not_false, List.filter_true, List.filter_false, List.foldl_nil,
    State.updTeam_id]

end

/-! ## A precise stop -/

include he in
/-- A core that is asked to halt does so with its gang, once all of them are quiet (R385). -/
theorem exec_preciseStop (hr : (s.coreAt c).haltReq = true) (hq : ∀ x ∈ s.haltSet c, s.quiet x = true) :
    exec .preciseStop s = .next ((s.haltSet c).foldl State.haltCore s).retryHeld := by
  have quiet : (s.haltSet c).all s.quiet = true := List.all_eq_true.mpr hq
  change execPreciseStop s = _
  simp only [execPreciseStop, he, hr, quiet, Bool.and_self, if_true]

/-! ## Samples -/

/-- A sample is recorded, and the next period begins (R386). -/
def State.sampledAt (s : State) (c : Fin 208) (aux : BitVec 45) (baddr : BitVec 56) : State :=
  (s.record c 0x61 aux baddr 0 []).updCore c (fun y => { y with sampleBase := s.cycle })

section
variable (hd : s.sampleDue c = true)
include he hd

/-- A core without a task: state 3. -/
theorem exec_sample_idle (ht : (s.coreAt c).task = none) : exec .sample s = .next (s.sampledAt c 12 0) := by
  change execSample s = _
  simp only [execSample, he, hd, ht, Option.isNone_none, Bool.not_true, Bool.false_eq_true, if_false, if_true]
  rfl

/-- A bundle that the core has issued in this cycle: its context and address, state 0. -/
theorem exec_sample_issued {k : Fin 4} {b : BitVec 56} (ht : (s.coreAt c).task.isSome)
    (hl : (s.coreAt c).lastIssue = some (s.cycle, k, b)) : exec .sample s = .next (s.sampledAt c (BitVec.ofNat 45 k.val) b) := by
  have busy : (s.coreAt c).task.isNone = false := Option.isNone_eq_false_iff.mpr ht
  change execSample s = _
  simp only [execSample, he, hd, busy, hl, Option.filter_some, beq_self_eq_true, Bool.not_true, Bool.false_eq_true, if_false, if_true]
  rfl

/-- With no bundle issued in this cycle, the sampled context (`State.sampled`): blocked in state 1, stalled in state 2. -/
theorem exec_sample_waiting (ht : (s.coreAt c).task.isSome) (hl : ∀ l, (s.coreAt c).lastIssue = some l → l.1 ≠ s.cycle) :
    let x := s.ctxAt c (s.sampled c)
    exec .sample s = .next (s.sampledAt c (BitVec.ofNat 45 ((s.sampled c).val + if x.blockedSince.isSome then 4 else 8)) x.pc) := by
  have busy : (s.coreAt c).task.isNone = false := Option.isNone_eq_false_iff.mpr ht
  have unissued : (s.coreAt c).lastIssue.filter (fun l => l.1 == s.cycle) = none :=
    Option.filter_eq_none_iff.mpr fun l h => by simpa using hl l h
  have states : 4 * (if (s.ctxAt c (s.sampled c)).blockedSince.isSome then 1 else 2)
      = if (s.ctxAt c (s.sampled c)).blockedSince.isSome then 4 else 8 := by
    split <;> rfl
  change execSample s = _
  simp only [execSample, he, hd, busy, unissued, Bool.not_true, Bool.false_eq_true, if_false]
  rw [← states]
  rfl

end

/-! ## The decoding of a bundle -/

include he in
/-- With no bundle in progress, a core that may issue has its turn; a first word that it opens is put back to execute next (R71). -/
theorem exec_bundleDecode {u : State} {i : Instr} (hs : s.issue.slots = []) (hm : s.mayIssue c = true) (ht : s.tryCore c = (u, some i)) :
    exec .bundleDecode s = .next { u with turn := s.turn, issue := { u.issue with slots := i :: u.issue.slots } } := by
  change execBundleDecode s = _
  simp only [execBundleDecode, he, hs, hm, ht, decide_true, Bool.and_self, if_true]

/-! ## The taking of a captured packet -/

/-- The capture buffer is past one more of its packets. -/
def State.captureTaken (s : State) : State := { s with capture := { s.capture with next := s.capture.next + 1 } }

section
variable {x : Captured} (hd : s.replayDue = true) (hx : s.capture.packets[s.capture.next]? = some x)
include hd hx

/-- A packet whose OP names a command is given to it (R387). -/
theorem exec_replaySubmit_command {i : Instr} (hi : commandOfCode x.op.toNat = some i) :
    exec .replaySubmit s = .next (s.captureTaken.now { instr := i, arg := .held, pkt := some x.pkt }) := by
  change execReplaySubmit s = _
  simp only [execReplaySubmit, hd, hx, hi, if_true]
  rfl

/-- A packet of an unknown OP is answered with STATUS 0x10 (R363). -/
theorem exec_replaySubmit_unknown (hi : commandOfCode x.op.toNat = none) :
    exec .replaySubmit s = .next (s.captureTaken.send (.response x.pkt.stream (x.op ||| 0x8000) 0x10 x.pkt.seq 0 [])) := by
  change execReplaySubmit s = _
  simp only [execReplaySubmit, hd, hx, hi, if_true]
  rfl

end
end

/-! ## The statement -/

/-- Settles O33: each event by its own equation; a sample by what the core does in the cycle, a captured packet by its OP. -/
theorem coreEventResults : Obligations.CoreEventResults := by
  intro s c he
  refine ⟨fun t ht hb => ?boundary, fun hr hg hs => ?hold, ⟨fun hs => ?inject, fun hs => ?stopped⟩, fun hr hq => ?halt,
    fun hd ht => ?idle, fun k b hd ht hl => ?issued, fun hd ht hl => ?waiting, fun hs hm u i ht => ?decode,
    fun x hd hx => ⟨fun i hi => ?command, fun hi => ?unknown⟩⟩
  case boundary => exact exec_freezeBoundary he ht hb
  case hold => exact exec_freezeIssueHold he hr hg hs
  case inject => exact exec_replayInject he hs
  case stopped => exact exec_replayInject_stopped he hs
  case halt => exact exec_preciseStop he hr hq
  case idle => exact exec_sample_idle he hd ht
  case issued => exact exec_sample_issued he hd ht hl
  case waiting => exact exec_sample_waiting he hd ht hl
  case decode => exact exec_bundleDecode he hs hm ht
  case command => exact exec_replaySubmit_command hd hx hi
  case unknown => exact exec_replaySubmit_unknown hd hx hi

end Sys2Proof.Machine

/-! Micro-operations of the attention sequencer (R318 to R323): the statement of O27. -/

namespace Sys2Proof.Machine

/-! ## The rules that a micro-operation checks (R319, R323) -/

section
variable {q : SeqState}

theorem SeqState.tileOk_of {t : Nat} (h : t < q.attn.nt.toNat) : q.tileOk t = true := decide_eq_true h
theorem SeqState.tileOk_false {t : Nat} (h : q.attn.nt.toNat ≤ t) : q.tileOk t = false := decide_eq_false (Nat.not_lt.mpr h)
theorem SeqState.inside_of {off : BitVec 32} {n : Nat} (h : off.toNat + n ≤ q.attn.obytes.toNat) : q.inside off n = true :=
  decide_eq_true h
theorem SeqState.nqBad_false (h : (q.attn.param.get 0).toNat < 128) : q.nqBad = false := decide_eq_false (Nat.not_le.mpr h)

/-- The tile of a micro-operation lies beyond the record's, whatever else it would check. -/
theorem SeqState.find_tileBeyond {t : Nat} {rest : List (Bool × Nat)} (h : q.attn.nt.toNat ≤ t) :
    ((!q.tileOk t, 2) :: rest).find? (fun p => p.1) = some (!q.tileOk t, 2) :=
  List.find?_cons_of_pos (by rw [SeqState.tileOk_false h]; rfl)

/-- A row, a column or a position that `MASK` does not let through (R320). -/
theorem SeqState.mask_iff (r k : Nat) :
    (q.nq ≤ r || q.hi - q.lo ≤ k || !q.seen (q.lo + k)) = true ↔ q.nq ≤ r ∨ q.hi - q.lo ≤ k ∨ ¬ q.seen (q.lo + k) := by
  simp only [Bool.or_eq_true, decide_eq_true_eq, Bool.not_eq_true', Bool.not_eq_true, or_assoc]

/-- The condition of `JUMP` by its three kinds (R319). -/
theorem SeqState.jumps_iff :
    q.jumps = true ↔ q.mw.cond.toNat = 0 ∨ q.mw.cond.toNat = 1 ∧ q.start < q.top ∨ 2 ≤ q.mw.cond.toNat ∧ q.top = q.start := by
  unfold SeqState.jumps
  generalize q.mw.cond.toNat = n
  match n with
  | 0 => simp
  | 1 => simp
  | n + 2 => simp

end

section
variable {s : State} {c : Fin 208} {i : Instr} {checks : SeqState → List (Bool × Nat)} {f : State → Fin 208 → State}

/-- A micro-operation that breaks no rule has its effect. -/
theorem State.micro_runs (hs : s.sequences c i) (hc : ∀ p ∈ checks (s.coreAt c).team.seq, p.1 = false) :
    s.micro i checks f = .next (f s c) := by
  obtain ⟨he, hr, hp, hm⟩ := hs
  have pass : ((!i.microOk (s.coreAt c).team.seq.mw, 1) :: checks (s.coreAt c).team.seq).find? (fun p => p.1) = none := by
    refine List.find?_eq_none.mpr (List.forall_mem_cons.mpr ⟨?_, fun p h => Bool.eq_false_iff.mp (hc p h)⟩)
    rw [hm]
    exact Bool.false_ne_true
  simp only [State.micro, he, hr, hp, pass, Bool.not_true, Bool.or_self, Bool.false_eq_true, if_false]

section
variable (he : s.ev = .core c) (hr : (s.coreAt c).team.seq.running = true) (hp : (s.coreAt c).team.seq.parked = false)
include he hr hp

/-- The first rule that a micro-operation breaks fails the run (R323). -/
theorem State.micro_fails {b : Bool} {n : Nat}
    (hb : ((!i.microOk (s.coreAt c).team.seq.mw, 1) :: checks (s.coreAt c).team.seq).find? (fun p => p.1) = some (b, n)) :
    s.micro i checks f = .next (s.seqFail c n) := by
  unfold State.micro
  simp only [he, hr, hp, hb, Bool.not_true, Bool.or_self, Bool.false_eq_true, if_false]

/-- Rule 1: a reserved field is set. -/
theorem State.micro_reserved (hm : i.microOk (s.coreAt c).team.seq.mw = false) : s.micro i checks f = .next (s.seqFail c 1) :=
  State.micro_fails he hr hp (List.find?_cons_of_pos (by rw [hm]; rfl))

/-- With no reserved field set, the first of the micro-operation's own rules decides. -/
theorem State.micro_breaks {b : Bool} {n : Nat} (hm : i.microOk (s.coreAt c).team.seq.mw = true)
    (hb : (checks (s.coreAt c).team.seq).find? (fun p => p.1) = some (b, n)) : s.micro i checks f = .next (s.seqFail c n) :=
  State.micro_fails he hr hp ((List.find?_cons_of_neg (by rw [hm]; exact Bool.false_ne_true)).trans hb)

end

/-! ## Effects on the team of the sequencer -/

/-- The micro-PC moves on after a change of the team. -/
theorem State.updTeam_seqStep (s : State) (c : Fin 208) (g : Team → Team) :
    (s.updTeam c g).seqStep c = s.updTeam c (fun t => (g t).seqOn) := State.updTeam_updTeam s c g Team.seqOn

/-- The sequencer's own fields change after the rest of the team. -/
theorem State.updTeam_updSeq (s : State) (c : Fin 208) (g : Team → Team) (k : SeqState → SeqState) :
    (s.updTeam c g).updSeq c k = s.updTeam c (fun t => { g t with seq := k (g t).seq }) :=
  State.updTeam_updTeam s c g (fun t => { t with seq := k t.seq })

/-- A change of the sequencer's fields other than its command leaves that command where it is. -/
theorem State.seqCmd_updSeq {k : SeqState → SeqState} (h : (k (s.coreAt c).team.seq).cmd = (s.coreAt c).team.seq.cmd) :
    (s.updSeq c k).seqCmd c = s.seqCmd c := by
  simp only [State.seqCmd, State.updSeq, State.coreAt_updTeam, h]

/-- A micro-operation that changes its core's team, where the change is that of `g'` on the team as it stands. -/
theorem State.micro_runs_team {g g' : Team → Team} (hs : s.sequences c i)
    (hc : ∀ p ∈ checks (s.coreAt c).team.seq, p.1 = false) (hg : g (s.coreAt c).team = g' (s.coreAt c).team) :
    s.micro i checks (fun s c => (s.updTeam c g).seqStep c) = .next (s.updTeam c (fun t => (g' t).seqOn)) := by
  have same : s.updTeam c (fun t => (g t).seqOn) = s.updTeam c (fun t => (g' t).seqOn) :=
    State.updTeam_congr s c (congrArg Team.seqOn hg)
  rw [State.micro_runs hs hc, State.updTeam_seqStep, same]

/-- One that changes its team and then the sequencer's own fields. -/
theorem State.micro_runs_seq {g g' : Team → Team} {k : SeqState → SeqState} (hs : s.sequences c i)
    (hc : ∀ p ∈ checks (s.coreAt c).team.seq, p.1 = false)
    (hg : (fun t : Team => { g t with seq := k (g t).seq }) (s.coreAt c).team = g' (s.coreAt c).team) :
    s.micro i checks (fun s c => ((s.updTeam c g).updSeq c k).seqStep c) = .next (s.updTeam c (fun t => (g' t).seqOn)) := by
  simp only [State.updTeam_updSeq]
  exact State.micro_runs_team hs hc hg

end

/-! ## The run's own control (R319, R320) -/

section
variable {s : State} {c : Fin 208}

/-- `NEXT` commits the pending part and steps to the tile below. -/
theorem exec_seqNext (hs : s.sequences c .seqNext) (hw : (s.coreAt c).team.seq.weighed = true) :
    exec .seqNext s = .next (((s.updSeq c (fun q => { q with
      m := q.m', s := q.s', ocur := !q.ocur, top := q.lo, processed := q.processed + (q.hi - q.lo)
      fetched := false, smaxed := false, weighed := false, lo := 0, hi := 0 })).seqWalk c).seqStep c) := by
  change execSeqNext s = _
  refine State.micro_runs hs ?_
  rw [List.forall_mem_singleton, hw]
  rfl

theorem exec_jump (hs : s.sequences c .jump) :
    exec .jump s = .next (s.updSeq c (fun q => { q with pc := if q.jumps then q.mw.n.toNat else q.pc + 1 })) := by
  change execJump s = _
  exact State.micro_runs hs (List.forall_mem_nil _)

theorem exec_jump_taken (hs : s.sequences c .jump) (h : (s.coreAt c).team.seq.jumps = true) :
    exec .jump s = .next (s.updSeq c (fun q => { q with pc := q.mw.n.toNat })) :=
  (exec_jump hs).trans (congrArg _ (State.updTeam_congr s c (by simp only [h, if_true])))

theorem exec_jump_passed (hs : s.sequences c .jump) (h : (s.coreAt c).team.seq.jumps = false) :
    exec .jump s = .next (s.updSeq c (fun q => { q with pc := q.pc + 1 })) :=
  (exec_jump hs).trans (congrArg _ (State.updTeam_congr s c (by simp only [h, Bool.false_eq_true, if_false])))

/-- `END` completes the command with the tokens processed. -/
theorem exec_seqEnd {x : Cmd} (hs : s.sequences c .seqEnd) (hx : s.seqCmd c = some x) :
    let r := s.endCmd x 0 (s.coreAt c).team.seq.processed
    exec .seqEnd s = .next (r.1.seqOver c r.2) := by
  change execSeqEnd s = _
  refine (State.micro_runs hs (List.forall_mem_nil _)).trans ?_
  simp only [hx]

/-- `FETCHKV` reads the two tiles at its restart point and stages them (R313, R324). -/
theorem exec_fetchkv {x : Cmd} {k v : List (Nat × Nat × List Byte)} {st : KvSt} (hs : s.sequences c .fetchkv) (hx : s.seqCmd c = some x) :
    let q := (s.coreAt c).team.seq
    let d := kvRb (s.kvDesc q.space) / 2
    let hi := q.top
    let lo := max q.start (hi - (q.mw.n.toNat + 1))
    d ≤ 128 → q.mw.offa.toNat + (256 * d + 32768) ≤ q.attn.obytes.toNat →
    KvM.run (do
      let k ← kvTile q.page false lo 129 hi
      let v ← kvTile q.page true lo 129 hi
      pure (k, v)) (s.updSeq c (fun q => { q with restart := q.pc })) (s.seqEng c).tlb q.space = (.ok (k, v), st) →
    (∀ p ∈ k ++ v, p.1 = 8) →
    let s2 := (st.s.engPadWrite (s.seqEng c) (q.at_ q.mw.offa) (stageBytes d lo (hi - lo) k v)).updSeq c
      (fun q => { q with lo := lo, hi := hi, fetched := true })
    exec .fetchkv s = .next ((if lo < hi then s2.runAhead (s.seqEng c) q.space q.page lo else s2).seqStep c) := by
  intro q d hi lo hd ho hread hfmt s2
  have bf16 : (k ++ v).any (fun p => p.1 != 8) = false := List.any_eq_false.mpr fun p hp => by rw [hfmt p hp]; decide
  have cmd : (s.updSeq c (fun q => { q with restart := q.pc })).seqCmd c = some x := (State.seqCmd_updSeq rfl).trans hx
  change execFetchkv s = _
  unfold execFetchkv
  refine (State.micro_runs hs ?rules).trans (congrArg _ ?staged)
  case rules =>
    simp only [Nat.not_lt.mpr hd, SeqState.inside_of ho, d, q]
    decide
  case staged =>
    unfold State.fetchkv
    simp only [cmd]
    rw [hread]
    exact if_neg (Bool.eq_false_iff.mp bf16)

/-! ## The first rule broken (R323) -/

section
variable {i : Instr} (he : s.ev = .core c) (hr : (s.coreAt c).team.seq.running = true) (hp : (s.coreAt c).team.seq.parked = false)
include he hr hp

/-- Rule 1 is checked by every micro-operation. -/
theorem exec_reserved (h : i ∈ [.fetchkv, .score, .scale, .mask, .smax, .weigh, .seqNext, .jump, .flush, .seqEnd])
    (hm : i.microOk (s.coreAt c).team.seq.mw = false) : exec i s = .next (s.seqFail c 1) := by
  simp only [List.mem_cons, List.not_mem_nil, or_false] at h
  rcases h with rfl | rfl | rfl | rfl | rfl | rfl | rfl | rfl | rfl | rfl
  · change execFetchkv s = _
    unfold execFetchkv
    exact State.micro_reserved he hr hp hm
  · change execScore s = _
    unfold execScore
    exact State.micro_reserved he hr hp hm
  · change execScale s = _
    exact State.micro_reserved he hr hp hm
  · change execMask s = _
    exact State.micro_reserved he hr hp hm
  · change execSmax s = _
    exact State.micro_reserved he hr hp hm
  · change execWeigh s = _
    exact State.micro_reserved he hr hp hm
  · change execSeqNext s = _
    exact State.micro_reserved he hr hp hm
  · change execJump s = _
    exact State.micro_reserved he hr hp hm
  · change execFlush s = _
    unfold execFlush
    exact State.micro_reserved he hr hp hm
  · change execSeqEnd s = _
    exact State.micro_reserved he hr hp hm

/-- Rule 2 comes next in each micro-operation on the tile TS. -/
theorem exec_tileBeyond (h : i ∈ [.score, .scale, .mask, .smax]) (hm : i.microOk (s.coreAt c).team.seq.mw = true)
    (ht : (s.coreAt c).team.seq.attn.nt.toNat ≤ (s.coreAt c).team.seq.mw.ts.toNat) : exec i s = .next (s.seqFail c 2) := by
  simp only [List.mem_cons, List.not_mem_nil, or_false] at h
  rcases h with rfl | rfl | rfl | rfl
  · change execScore s = _
    unfold execScore
    exact State.micro_breaks he hr hp hm (SeqState.find_tileBeyond ht)
  · change execScale s = _
    exact State.micro_breaks he hr hp hm (SeqState.find_tileBeyond ht)
  · change execMask s = _
    exact State.micro_breaks he hr hp hm (SeqState.find_tileBeyond ht)
  · change execSmax s = _
    exact State.micro_breaks he hr hp hm (SeqState.find_tileBeyond ht)

theorem exec_scale_unfetched (hm : Instr.scale.microOk (s.coreAt c).team.seq.mw = true)
    (ht : (s.coreAt c).team.seq.mw.ts.toNat < (s.coreAt c).team.seq.attn.nt.toNat)
    (hf : (s.coreAt c).team.seq.fetched = false) : exec .scale s = .next (s.seqFail c 5) := by
  change execScale s = _
  refine State.micro_breaks (b := true) he hr hp hm ?_
  rw [SeqState.tileOk_of ht, hf]
  rfl

theorem exec_seqNext_unweighed (hm : Instr.seqNext.microOk (s.coreAt c).team.seq.mw = true)
    (hw : (s.coreAt c).team.seq.weighed = false) : exec .seqNext s = .next (s.seqFail c 5) := by
  change execSeqNext s = _
  refine State.micro_breaks (b := true) he hr hp hm ?_
  rw [hw]
  rfl

end
end

/-! ## The statement -/

/-- Settles O27: a micro-operation that breaks no rule has its effect, on the team of its core or on the run; one that breaks a rule
fails the run with the number of the first. -/
theorem microOperationResults : Obligations.MicroOperationResults := by
  refine ⟨fun s c => ⟨fun hs ⟨ht, ho, hq, hf, hrows⟩ => ?score, fun hs ⟨ht, hf⟩ => ?scale, fun hs ⟨ht, hf, hrows⟩ => ?mask,
      fun hs ⟨ht, ho, hf, hrows⟩ => ?smax, fun hs ⟨ht, hoa, hob, hf, hsm, hrows⟩ => ?weigh, fun hs ⟨ht, ho, hd, hrows⟩ => ?flush⟩,
    fun s c => ⟨fun x k v st => ?fetchkv, fun hs hw => ?next, fun hs => ⟨fun h => ?taken, fun h => ?passed⟩, fun x hs hx => ?complete⟩,
    fun s c i => ?failures⟩
  case score =>
    change execScore s = _
    unfold execScore
    refine State.micro_runs_team hs ?_ ?_
    · simp only [SeqState.tileOk_of ht, SeqState.inside_of ho, Nat.not_lt.mpr hq, hf, SeqState.nqBad_false hrows]
      decide
    · rfl
  case scale =>
    change execScale s = _
    refine State.micro_runs_team hs ?_ rfl
    simp only [SeqState.tileOk_of ht, hf]
    decide
  case mask =>
    change execMask s = _
    refine State.micro_runs_team hs ?_ ?_
    · simp only [SeqState.tileOk_of ht, hf, SeqState.nqBad_false hrows]
      decide
    · simp only [SeqState.mask_iff]
      rfl
  case smax =>
    change execSmax s = _
    refine State.micro_runs_seq hs ?_ rfl
    simp only [SeqState.tileOk_of ht, SeqState.inside_of ho, hf, SeqState.nqBad_false hrows]
    decide
  case weigh =>
    change execWeigh s = _
    refine State.micro_runs_seq hs ?_ rfl
    simp only [SeqState.tileOk_of ht, SeqState.inside_of hoa, SeqState.inside_of hob, hf, hsm, SeqState.nqBad_false hrows]
    decide
  case flush =>
    change execFlush s = _
    unfold execFlush
    refine State.micro_runs_seq hs ?_ ?_
    · simp only [SeqState.tileOk_of ht, SeqState.inside_of ho, Nat.not_lt.mpr hd, SeqState.nqBad_false hrows]
      decide
    · rfl
  case fetchkv =>
    intro hi lo s1 hs hd ho hx hread hfmt
    exact exec_fetchkv hs hx hd ho hread hfmt
  case next => exact exec_seqNext hs hw
  case taken => exact exec_jump_taken hs (SeqState.jumps_iff.mpr h)
  case passed => exact exec_jump_passed hs (Bool.eq_false_iff.mpr (mt SeqState.jumps_iff.mp h))
  case complete => exact exec_seqEnd hs hx
  case failures =>
    intro q hmem he hr hp
    refine ⟨exec_reserved he hr hp hmem, fun hm h ht => exec_tileBeyond he hr hp h hm ht, ?unfetched, ?unweighed⟩
    case unfetched =>
      rintro hm rfl ht hf
      exact exec_scale_unfetched he hr hp hm ht hf
    case unweighed =>
      rintro hm rfl hw
      exact exec_seqNext_unweighed he hr hp hm hw

end Sys2Proof.Machine

/-! No instruction ends in a fault or a refusal, and a step stops only without power (R388): the statement of O52. -/

namespace Sys2Proof.Machine

/-- Every arm of the dispatch is a next state. -/
theorem exec_next (i : Instr) (s : State) : ∃ t, exec i s = .next t := by
  cases i with
  | _ => exact ⟨_, rfl⟩

/-- Nothing is left to do only without power, with no event, no word of a bundle and no timer (R388). -/
theorem State.turnOf_off {s : State} (h : s.turnOf = .off) :
    s.powered = false ∧ s.agenda = [] ∧ s.issue.slots = [] ∧ s.future = [] := by
  unfold State.turnOf at h
  split at h
  next => exact Turn.noConfusion h
  next ha =>
    split at h
    next => exact Turn.noConfusion h
    next hs =>
      split at h
      next hoff =>
        rw [Bool.and_eq_true, Bool.not_eq_true', List.isEmpty_iff] at hoff
        exact ⟨hoff.1, ha, hs, hoff.2⟩
      next =>
        dsimp only at h
        generalize (if s.turn = 0 then s.gangMatch else s) = u at h
        split at h
        · exact Turn.noConfusion h
        · split at h
          · split at h <;> exact Turn.noConfusion h
          · exact Turn.noConfusion h

/-- Settles O52: every arm of the dispatch is a next state, and so is every turn of the machine but the one without power. -/
theorem everyInstructionCompletes : Obligations.EveryInstructionCompletes := by
  refine ⟨exec_next, fun s => ?_⟩
  cases h : s.turnOf with
  | run i u =>
    rw [step_of_run h]
    exact .inl (exec_next i u)
  | idle u => exact .inl ⟨u, by rw [step, h]⟩
  | off => exact .inr ⟨by rw [step, h], State.turnOf_off h⟩

end Sys2Proof.Machine

/-! Statistics records (R380) and the host's memory commands at a physical address (R363): the statements of O59 and O58. -/

namespace Sys2Proof.Machine

/-! ## A record enters its queue -/

section
variable {g : Group} {n cyc : Nat} {ws : List Word}

/-- Nothing is told when nothing has been lost, or while 32 words are not free. -/
theorem tellLost_quiet (h : g.statqLost = 0 ∨ 8192 < g.statq.length + 32) : tellLost g n cyc = g := by
  have hn : ¬ (decide (0 < g.statqLost) && decide (g.statq.length + 32 ≤ queueWords)) = true := by
    rw [Bool.and_eq_true, decide_eq_true_eq, decide_eq_true_eq, queueWords]
    omega
  exact if_neg hn

/-- The count of lost records is told, and starts again. -/
theorem tellLost_tells (hl : 0 < g.statqLost) (hr : g.statq.length + 32 ≤ 8192) : tellLost g n cyc = { g with
    statq := g.statq ++ recordWords 0x12 (32 * n + 31) 0 0 cyc (BitVec.ofNat 64 g.statqLost) [], statqLost := 0 } := by
  have hy : (decide (0 < g.statqLost) && decide (g.statq.length + 32 ≤ queueWords)) = true := by
    rw [Bool.and_eq_true, decide_eq_true_eq, decide_eq_true_eq]
    exact ⟨hl, hr⟩
  exact if_pos hy

/-- With nothing lost and room for it, a record stands last. -/
theorem offerRecord_enters (hl : (tellLost g n cyc).statqLost = 0) (hr : (tellLost g n cyc).statq.length + ws.length ≤ 8192) :
    offerRecord g n cyc ws = { tellLost g n cyc with statq := (tellLost g n cyc).statq ++ ws } := by
  have hy : (decide ((tellLost g n cyc).statqLost = 0) && decide ((tellLost g n cyc).statq.length + ws.length ≤ queueWords)) = true := by
    rw [Bool.and_eq_true, decide_eq_true_eq, decide_eq_true_eq]
    exact ⟨hl, hr⟩
  exact if_pos hy

/-- Otherwise it is counted as lost. -/
theorem offerRecord_lost (h : (tellLost g n cyc).statqLost ≠ 0 ∨ 8192 < (tellLost g n cyc).statq.length + ws.length) :
    offerRecord g n cyc ws = { tellLost g n cyc with statqLost := (tellLost g n cyc).statqLost + 1 } := by
  have hn : ¬ (decide ((tellLost g n cyc).statqLost = 0) && decide ((tellLost g n cyc).statq.length + ws.length ≤ queueWords)) = true := by
    rw [Bool.and_eq_true, decide_eq_true_eq, decide_eq_true_eq, queueWords]
    omega
  exact if_neg hn

end

/-- Settles O59: what is told of lost records first decides whether the record enters. -/
theorem recordsAreWhole : Obligations.RecordsAreWhole := by
  intro g n cyc ws h
  refine ⟨fun hl hr => ?enters, fun hl hr => ?first, fun hl hr => ?more, fun hl hr hw => ?told⟩
  case enters =>
    have ht : tellLost g n cyc = g := tellLost_quiet (.inl hl)
    rw [show h = _ from offerRecord_enters (by rwa [ht]) (by rwa [ht]), ht]
    exact ⟨rfl, hl⟩
  case first =>
    have ht : tellLost g n cyc = g := tellLost_quiet (.inl hl)
    rw [show h = _ from offerRecord_lost (.inr (by rwa [ht])), ht]
    exact ⟨rfl, congrArg Nat.succ hl⟩
  case more =>
    have ht : tellLost g n cyc = g := tellLost_quiet (.inr hr)
    rw [show h = _ from offerRecord_lost (.inl (by rw [ht]; exact hl.ne')), ht]
    exact ⟨rfl, rfl⟩
  case told =>
    have ht := tellLost_tells (n := n) (cyc := cyc) hl hr
    have hroom : (tellLost g n cyc).statq.length + ws.length ≤ 8192 := by
      rw [ht, List.length_append]
      change g.statq.length + 4 + ws.length ≤ 8192
      omega
    rw [show h = _ from offerRecord_enters (by rw [ht]) hroom, ht]
    exact ⟨rfl, rfl⟩

/-! ## The host reads and writes at a physical address -/

section
variable {s : State} {asid : BitVec 8} {a : Nat} {bs : List Byte}

/-- A physical range that exists is its own address (R268). -/
theorem State.hostAddr_phys {n : Nat} {acc : Access} (ha : paOk a = true) (hl : paOk (a + n - 1) = true) :
    s.hostAddr true asid a n acc = (s, some a) := by
  unfold State.hostAddr
  rw [if_pos rfl, ha, hl]
  rfl

/-- A write of one run counts its bytes. -/
theorem State.hostWrite_phys (ha : paOk a = true) (hl : paOk (a + bs.length - 1) = true) :
    s.hostWrite true asid [(a, bs.length)] bs 0 = (s.pwrite a bs, Answer.done bs.length) := by
  unfold State.hostWrite
  rw [State.hostAddr_phys ha hl]
  change ((s.pwrite a (bs.take bs.length)), Answer.done (0 + bs.length)) = _
  rw [List.take_length, Nat.zero_add]

/-- A read of one run in which nothing is poisoned gives its bytes. -/
theorem State.hostRead_phys {n : Nat} (ha : paOk a = true) (hl : paOk (a + n - 1) = true) (hp : s.poisonIn a n = none) :
    s.hostRead true asid [(a, n)] [] = (s, { status := 0, value := BitVec.ofNat 64 (memRead s.mem a n).length, data := memRead s.mem a n }) := by
  unfold State.hostRead
  rw [State.hostAddr_phys ha hl]
  simp only [hp]
  rfl

/-- A write poisons nothing. -/
theorem State.pwrite_poison_nil (h : s.poison = []) : (s.pwrite a bs).poison = [] := by
  unfold State.pwrite State.unpoison
  rw [if_pos h]
  exact h

end

/-- Settles O58: a run of bytes written in memory reads back, and is all that a write changes. -/
theorem hostMemoryRoundTrip : Obligations.HostMemoryRoundTrip := by
  intro s asid a bs hm _ ha hl hp w
  have hw : w = (s.pwrite a bs, Answer.done bs.length) := State.hostWrite_phys ha hl
  have hclean : (s.pwrite a bs).poisonIn a bs.length = none := by
    unfold State.poisonIn
    rw [State.pwrite_poison_nil hp]
    rfl
  have hread := State.hostRead_phys (asid := asid) ha hl hclean
  have hback : memRead (s.pwrite a bs).mem a bs.length = bs := by
    rw [State.pwrite_mem]
    exact memRead_memWrite hm a bs
  have hkeep : keepsOutside s.mem (s.pwrite a bs).mem a bs.length := by
    rw [State.pwrite_mem]
    exact keepsOutside_memWrite hm a bs
  rw [hw, hread]
  exact ⟨rfl, rfl, hback, rfl, hkeep⟩

end Sys2Proof.Machine

/-! A trap that cannot be taken (R345) and a bundle that fails at issue (R343): what the failure of a task changes, and the statements of
O45 and O46. -/

namespace Sys2Proof.Machine

/-! ## Records only join a queue (R380) -/

theorem tellLost_appends (g : Group) (n cyc : Nat) : g.statq <+: (tellLost g n cyc).statq := by
  unfold tellLost
  split
  · exact ⟨_, rfl⟩
  · exact ⟨[], List.append_nil _⟩

theorem offerRecord_appends (g : Group) (n cyc : Nat) (ws : List Word) : g.statq <+: (offerRecord g n cyc ws).statq := by
  have told := tellLost_appends g n cyc
  unfold offerRecord
  dsimp only
  split
  · exact told.trans ⟨_, rfl⟩
  · exact told

theorem State.record_appends (s : State) (c : Fin 208) (kind : BitVec 7) (aux : BitVec 45) (a : BitVec 56) (v : Word) (l : List Word)
    (g : Fin 8) : (s.groupAt g).statq <+: ((s.record c kind aux a v l).groupAt g).statq := by
  by_cases h : g = groupOf c
  · rw [h, State.record, State.recordAt, State.groupAt_updGroup]
    exact offerRecord_appends ..
  · rw [State.record, State.recordAt, State.groupAt_updGroup_ne _ _ h]

/-! ## The failure of a task (R286, R301, R355) -/

/-- A failed task: its saved commands end, and nothing is to come for it. -/
def Task.failed (t : Task) (f : Failure) : Task :=
  { t with failure := some f, state := .ending, due := none, dest := none, victimFor := none
           frames := t.frames.map (fun x => { x with cmds := x.cmds.map failCmd }) }

/-- A core whose task has failed: no context of it issues, and its commands end. -/
def Core.failed (y : Core) : Core :=
  { y with stopped := true, request := none, holdIssue := false, team := { y.team with cmds := y.team.cmds.map failCmd } }

/-- The cores given stop. -/
def State.stopFailed (s : State) (l : List (Fin 200)) : State := l.foldl (fun s c => s.updCore (computeCore c) Core.failed) s

/-- The GANG_ABORT records of the members given, but for the one that failed. -/
def State.recordAborts (s : State) (f : Failure) (l : List (Fin 200 × Nat)) : State :=
  l.foldl (fun s p =>
    if p.2 = f.member then s else s.record (computeCore p.1) Cause.gangAbort.code 0 0 (BitVec.ofNat 64 f.member) []) s

/-- The cores of a task that run it. -/
def State.runningCores (s : State) (t : Task) (id : Nat) : List (Fin 200) :=
  t.cores.filter (fun c => (s.coreAt (computeCore c)).task == some id)

section
variable {s : State} {id : Nat} {t : Task} {f : Failure}

/-- A task that is unknown or has failed before does not fail again. -/
theorem State.failTask_again (h : ∀ t, s.taskOf id = some t → t.failure ≠ none) : s.failTask id f = s := by
  unfold State.failTask
  split
  · rfl
  next t ht => exact if_pos (Option.isSome_iff_ne_none.mpr (h t ht))

/-- Cores that stop change, and nothing else. -/
theorem State.stopFailed_frame (s : State) (l : List (Fin 200)) : ∃ v, s.stopFailed l = { s with cores := v } := by
  induction l generalizing s with
  | nil => exact ⟨s.cores, rfl⟩
  | cons c l ih => exact ih (s.updCore (computeCore c) Core.failed)

/-- Of a team only the commands change. -/
theorem State.stopFailed_team (s : State) (l : List (Fin 200)) (c : Fin 208) :
    ∃ x, ((s.stopFailed l).coreAt c).team = { (s.coreAt c).team with cmds := x } := by
  induction l generalizing s with
  | nil => exact ⟨(s.coreAt c).team.cmds, rfl⟩
  | cons d l ih =>
    obtain ⟨x, hx⟩ := ih (s.updCore (computeCore d) Core.failed)
    refine ⟨x, hx.trans ?_⟩
    by_cases h : c = computeCore d
    · rw [h, State.coreAt_updCore]; rfl
    · rw [State.coreAt_updCore_ne s _ h]

/-- The cores given stand, and a core that stands goes on standing. -/
theorem State.stopFailed_stopped {l : List (Fin 200)} {c : Fin 208} (h : (s.coreAt c).stopped = true ∨ ∃ d ∈ l, computeCore d = c) :
    ((s.stopFailed l).coreAt c).stopped = true := by
  induction l generalizing s with
  | nil => exact h.resolve_right (fun ⟨d, hd, _⟩ => List.not_mem_nil hd)
  | cons d l ih =>
    refine ih ?_
    by_cases e : c = computeCore d
    · rw [e, State.coreAt_updCore]
      exact .inl rfl
    · rw [State.coreAt_updCore_ne s _ e]
      refine h.imp_right (fun ⟨b, hb, he⟩ => ⟨b, (List.mem_cons.mp hb).resolve_left (fun x => e ?_), he⟩)
      rw [← he, x]

/-- The records of an abort join queues, and nothing else changes. -/
theorem State.recordAborts_frame (s : State) (f : Failure) (l : List (Fin 200 × Nat)) :
    ∃ v : Vector Group 8, s.recordAborts f l = { s with groups := v } ∧ ∀ g, (s.groupAt g).statq <+: (v.get g).statq := by
  induction l generalizing s with
  | nil => exact ⟨s.groups, rfl, fun g => ⟨[], List.append_nil _⟩⟩
  | cons p l ih =>
    by_cases h : p.2 = f.member
    · have same : s.recordAborts f (p :: l) = s.recordAborts f l := congrArg (fun u : State => u.recordAborts f l) (if_pos h)
      rw [same]
      exact ih s
    · have more : s.recordAborts f (p :: l) = _ := congrArg (fun u : State => u.recordAborts f l) (if_neg h)
      obtain ⟨v, hv, hq⟩ := ih (s.record (computeCore p.1) Cause.gangAbort.code 0 0 (BitVec.ofNat 64 f.member) [])
      exact ⟨v, more.trans hv, fun g => (State.record_appends ..).trans (hq g)⟩

/-- A task that has not failed is marked, the cores that run it stop, and only a gang is told. -/
theorem State.failTask_spec (ht : s.taskOf id = some t) (hf : t.failure = none) : ∃ v : Vector Group 8,
    s.failTask id f = { (s.updTask id (·.failed f)).stopFailed (s.runningCores t id) with groups := v }
      ∧ (∀ g, (s.groupAt g).statq <+: (v.get g).statq) ∧ (t.tcb.gang = 0 → v = s.groups) := by
  have e : s.failTask id f = if t.tcb.gang = 0 || f.cause = Cause.deadline.code then (s.updTask id (·.failed f)).stopFailed (s.runningCores t id)
      else ((s.updTask id (·.failed f)).stopFailed (s.runningCores t id)).recordAborts f (t.cores.zip (List.range t.cores.length)) := by
    unfold State.failTask
    simp only [ht, hf, Option.isSome_none, Bool.false_eq_true, if_false]
    rfl
  obtain ⟨cores, hstop⟩ := State.stopFailed_frame (s.updTask id (·.failed f)) (s.runningCores t id)
  rw [e, hstop]
  split
  next => exact ⟨s.groups, rfl, fun g => ⟨[], List.append_nil _⟩, fun _ => rfl⟩
  next h =>
    obtain ⟨v, hv, hq⟩ := State.recordAborts_frame { s.updTask id (·.failed f) with cores := cores } f (t.cores.zip (List.range t.cores.length))
    refine ⟨v, hv, hq, fun hg => absurd ?_ h⟩
    rw [hg]
    rfl

/-- The task has failed, with the failure given. -/
theorem State.failTask_failure (ht : s.taskOf id = some t) (hf : t.failure = none) :
    ((s.failTask id f).taskOf id).bind (·.failure) = some f := by
  obtain ⟨v, hv, -⟩ := State.failTask_spec (f := f) ht hf
  obtain ⟨cores, hcores⟩ := State.stopFailed_frame (s.updTask id (·.failed f)) (s.runningCores t id)
  have htask : (s.failTask id f).taskOf id = (s.updTask id (·.failed f)).taskOf id := by
    rw [hv, hcores]
    rfl
  rw [htask, State.taskOf_updTask s id (·.failed f) (fun _ => rfl), ht]
  rfl

/-- The cores that run it have stopped. -/
theorem State.failTask_stopped (ht : s.taskOf id = some t) (hf : t.failure = none) {d : Fin 200} (hd : d ∈ t.cores)
    (hrun : (s.coreAt (computeCore d)).task = some id) : ((s.failTask id f).coreAt (computeCore d)).stopped = true := by
  obtain ⟨v, hv, -⟩ := State.failTask_spec (f := f) ht hf
  rw [hv]
  exact State.stopFailed_stopped (.inr ⟨d, List.mem_filter.mpr ⟨hd, beq_iff_eq.mpr hrun⟩, rfl⟩)

/-- Its gang's records join the queues; a task alone has none. -/
theorem State.failTask_statq (ht : s.taskOf id = some t) (hf : t.failure = none) (g : Fin 8) :
    ∃ l, ((s.failTask id f).groupAt g).statq = (s.groupAt g).statq ++ l ∧ (t.tcb.gang = 0 → l = []) := by
  obtain ⟨v, hv, happ, hlone⟩ := State.failTask_spec (f := f) ht hf
  obtain ⟨l, hl⟩ := happ g
  rw [hv]
  refine ⟨l, hl.symm, fun hgang => ?_⟩
  rw [hlone hgang] at hl
  exact List.append_right_eq_self.mp hl

/-- Whatever fails, of a core's team only the commands change. -/
theorem State.failTask_team (s : State) (id : Nat) (f : Failure) (c : Fin 208) :
    ∃ x, ((s.failTask id f).coreAt c).team = { (s.coreAt c).team with cmds := x } := by
  by_cases h : ∃ t, s.taskOf id = some t ∧ t.failure = none
  · obtain ⟨t, ht, hf⟩ := h
    obtain ⟨v, hv, -⟩ := State.failTask_spec (f := f) ht hf
    rw [hv]
    exact State.stopFailed_team (s.updTask id (·.failed f)) (s.runningCores t id) c
  · rw [State.failTask_again (fun t ht hf => h ⟨t, ht, hf⟩)]
    exact ⟨_, rfl⟩

end

/-! ## A double fault (R345) -/

/-- The state in which a trap that cannot be taken has been recorded, with its cause and TCAUSE. -/
def State.doubleRecorded (s : State) (c : Fin 208) (k : Fin 4) (e : Cause) (pc : BitVec 56) : State :=
  s.record c Cause.doubleFault.code 0 pc (BitVec.ofNat 64 (e.code.toNat + (s.ctxAt c k).tcause.toNat * 256)) []

/-- Traps are closed on a context, or it has no handler: the fault is recorded, and the task fails or the core stops. -/
theorem State.takeTrap_closed {s : State} {c : Fin 208} {k : Fin 4} (h : (s.ctxAt c k).te = false ∨ (s.ctxAt c k).tvec = 0)
    (e : Cause) (pc : BitVec 56) (v : Word) (m : BitVec 11) :
    s.takeTrap c k e pc v m = match s.taskAt c with
      | some t => (s.doubleRecorded c k e pc).failTask t.id { status := 1, cause := e.code, detail := v, member := memberOf t c }
      | none => (s.doubleRecorded c k e pc).updCore c (fun x => { x with stopped := true }) := by
  have closed : ¬ ((s.ctxAt c k).te && (s.ctxAt c k).tvec != 0) = true := by
    rw [Bool.and_eq_true, bne_iff_ne]
    rintro ⟨te, tvec⟩
    exact h.elim (fun te' => Bool.noConfusion (te.symm.trans te')) tvec
  unfold State.takeTrap
  exact if_neg closed

/-- Settles O45: the record of the fault, and then the failure of the task. -/
theorem doubleFault : Obligations.DoubleFault := by
  intro s c k e pc v m y u q hclosed t ht hfail
  have hid : (s.doubleRecorded c k e pc).taskOf t.id = some t := by
    obtain ⟨id, -, (hof : (s.doubleRecorded c k e pc).taskOf id = some t)⟩ := Option.bind_eq_some_iff.mp ht
    rwa [State.taskOf_id hof]
  have hu : u = (s.doubleRecorded c k e pc).failTask t.id { status := 1, cause := e.code, detail := v, member := memberOf t c } := by
    rw [show u = _ from State.takeTrap_closed hclosed e pc v m, ht]
  have hq : ((s.doubleRecorded c k e pc).groupAt (groupOf c)).statq = q := by
    rw [State.doubleRecorded, State.record, State.recordAt, State.groupAt_updGroup, Nat.mul_comm]
    rfl
  rw [hu]
  refine ⟨?stays, State.failTask_failure hid hfail, fun d hd hrun => State.failTask_stopped hid hfail hd hrun, ?statq⟩
  case stays =>
    obtain ⟨x, hx⟩ := State.failTask_team (s.doubleRecorded c k e pc) t.id { status := 1, cause := e.code, detail := v, member := memberOf t c } c
    rw [State.ctxAt, hx]
    rfl
  case statq =>
    rw [← hq]
    exact State.failTask_statq hid hfail (groupOf c)

/-! ## What a trap leaves as it was -/

/-- A team without what a trap may change: its contexts' loops and trap registers, where they go on, and the commands that a failing task
ends. -/
def Team.untrapped (t : Team) : Team := { t with ctxs := t.ctxs.map Ctx.still, cmds := [] }

/-- A change of what `Ctx.still` leaves out, whatever instruction makes it: any one stands in `TeamFrame`. -/
theorem Team.untrapped_updCtx (t : Team) (k : Fin 4) (f : Ctx → Ctx) (hf : ∀ x, (f x).still = x.still) :
    (t.updCtx k f).untrapped = t.untrapped := by
  have still : (t.updCtx k f).still = t.still := (TeamFrame.updCtx .schedPass False (own := fun _ => True) t k f trivial hf).still
  exact congrArg (fun v : Vector Ctx 4 => ({ t with ctxs := v, cmds := [] } : Team)) (congrArg Team.ctxs still)

/-- Memory, and of every team all that a trap may not change. -/
structure State.TrapFrame (s t : State) : Prop where
  mem : t.mem = s.mem
  poison : t.poison = s.poison
  team : ∀ c, (t.coreAt c).team.untrapped = (s.coreAt c).team.untrapped

namespace State.TrapFrame

theorem of_cores {s t : State} (hm : t.mem = s.mem) (hp : t.poison = s.poison) (hc : t.cores = s.cores) : s.TrapFrame t :=
  ⟨hm, hp, fun c => congrArg (fun v : Vector Core 208 => (v.get c).team.untrapped) hc⟩

theorem trans {s t u : State} (h : s.TrapFrame t) (g : t.TrapFrame u) : s.TrapFrame u :=
  ⟨g.mem.trans h.mem, g.poison.trans h.poison, fun c => (g.team c).trans (h.team c)⟩

theorem updCore (s : State) (c : Fin 208) (f : Core → Core) (h : (f (s.coreAt c)).team.untrapped = (s.coreAt c).team.untrapped) :
    s.TrapFrame (s.updCore c f) := by
  refine ⟨rfl, rfl, fun d => ?_⟩
  by_cases e : d = c
  · rw [e, State.coreAt_updCore, h]
  · rw [State.coreAt_updCore_ne s f e]

theorem updCtx (s : State) (c : Fin 208) (k : Fin 4) (f : Ctx → Ctx) (hf : ∀ x, (f x).still = x.still) : s.TrapFrame (s.updCtx c k f) :=
  updCore s c (fun y => { y with team := y.team.updCtx k f }) (Team.untrapped_updCtx _ k f hf)

theorem failTask (s : State) (id : Nat) (f : Failure) : s.TrapFrame (s.failTask id f) := by
  obtain ⟨houter, -⟩ := keeps_failTask s id f
  refine ⟨congrArg Outer.mem houter, congrArg Outer.poison houter, fun c => ?_⟩
  obtain ⟨x, hx⟩ := s.failTask_team id f c
  rw [hx]
  rfl

/-- The trap registers, or what a double fault changes (R90, R345). -/
theorem takeTrap (s : State) (c : Fin 208) (k : Fin 4) (e : Cause) (pc : BitVec 56) (v : Word) (m : BitVec 11) :
    s.TrapFrame (s.takeTrap c k e pc v m) := by
  by_cases h : (s.ctxAt c k).te = true ∧ (s.ctxAt c k).tvec ≠ 0
  · rw [State.takeTrap_open h.1 h.2]
    exact updCtx s c k _ (fun _ => rfl)
  · have closed : (s.ctxAt c k).te = false ∨ (s.ctxAt c k).tvec = 0 := by
      rw [← Bool.not_eq_true, ← not_ne_iff (b := (0 : BitVec 56)), ← not_and_or]
      exact h
    have recorded : s.TrapFrame (s.doubleRecorded c k e pc) := of_cores rfl rfl rfl
    rw [State.takeTrap_closed closed]
    split
    · exact recorded.trans (failTask ..)
    · exact recorded.trans (updCore _ _ _ rfl)

end State.TrapFrame

/-! ## A bundle with a word that has failed (R343) -/

/-- Of the slots that have failed, the one that decides is among them, and none has a lower unit. -/
theorem lowestFault_spec {l : List SlotFault} {f : SlotFault} (h : lowestFault l = some f) :
    f ∈ l ∧ ∀ g ∈ l, f.unit.code.toNat ≤ g.unit.code.toNat := by
  induction l generalizing f with
  | nil => cases h
  | cons a r ih =>
    unfold lowestFault at h
    split at h
    next b hb =>
      obtain ⟨hmem, hle⟩ := ih hb
      split at h
      next hlt =>
        obtain rfl := Option.some.inj h
        exact ⟨List.mem_cons_of_mem _ hmem, List.forall_mem_cons.mpr ⟨hlt.le, hle⟩⟩
      next hge =>
        obtain rfl := Option.some.inj h
        exact ⟨List.mem_cons_self .., List.forall_mem_cons.mpr ⟨le_rfl, fun g hg => (Nat.not_lt.mp hge).trans (hle g hg)⟩⟩
    next hn =>
      obtain rfl := Option.some.inj h
      rw [lowestFault_none hn]
      exact ⟨List.mem_cons_self .., List.forall_mem_cons.mpr ⟨le_rfl, List.forall_mem_nil _⟩⟩

theorem unit_of_code {u v : UnitCode} (h : u.code.toNat = v.code.toNat) : u = v := by
  have e : some u = some v := by
    rw [← UnitCode.ofCode_code u, BitVec.eq_of_toNat_eq h, UnitCode.ofCode_code]
  exact Option.some.inj e

/-- The slot of the lowest unit decides. -/
theorem lowestFault_eq {l : List SlotFault} {f : SlotFault} (hf : f ∈ l)
    (hl : ∀ g ∈ l, f.unit.code.toNat ≤ g.unit.code.toNat ∧ (g.unit = f.unit → g = f)) : lowestFault l = some f := by
  cases h : lowestFault l with
  | none =>
    rw [lowestFault_none h] at hf
    exact absurd hf List.not_mem_nil
  | some g =>
    obtain ⟨hg, hle⟩ := lowestFault_spec h
    obtain ⟨hfg, huniq⟩ := hl g hg
    rw [huniq (unit_of_code ((hle f hf).antisymm hfg))]

theorem unitCode_lt (u : UnitCode) : u.code.toNat < 11 := by
  cases u <;> decide

/-- One unit's bit. -/
theorem getLsbD_unitBit (u : UnitCode) (n : Nat) : (BitVec.ofNat 11 (2 ^ u.code.toNat)).getLsbD n = decide (u.code.toNat = n) := by
  have h := unitCode_lt u
  rw [BitVec.getLsbD_ofNat, Nat.testBit_two_pow]
  by_cases e : u.code.toNat = n
  · rw [decide_eq_true e, decide_eq_true (e ▸ h)]
    rfl
  · rw [decide_eq_false e, Bool.and_false]

/-- TMASK holds the bits of the units that failed, and no other. -/
theorem getLsbD_faultMask (l : List SlotFault) (u : UnitCode) :
    (faultMask l).getLsbD u.code.toNat = true ↔ ∃ g ∈ l, g.unit = u := by
  have from_ (m : BitVec 11) : (l.foldl (fun m f => m ||| BitVec.ofNat 11 (2 ^ f.unit.code.toNat)) m).getLsbD u.code.toNat = true
      ↔ m.getLsbD u.code.toNat = true ∨ ∃ g ∈ l, g.unit = u := by
    induction l generalizing m with
    | nil => simp
    | cons a r ih =>
      have bit : a.unit.code.toNat = u.code.toNat ↔ a.unit = u := ⟨unit_of_code, fun h => h ▸ rfl⟩
      rw [List.foldl_cons, ih, BitVec.getLsbD_or, Bool.or_eq_true, getLsbD_unitBit, decide_eq_true_eq, bit, or_assoc, List.exists_mem_cons_iff]
  rw [faultMask, from_]
  simp

/-- The state in which a bundle that has failed takes its trap: a body bundle of the first pass counts as held, and the core has issued. -/
def State.failedIssue (s : State) : State :=
  (s.holdBody s.issue.core s.issue.ctx s.issue.baddr s.issue.words).updCore s.issue.core (fun x => { x with
    stallUntil := max x.stallUntil (s.cycle + 1), lastIssue := some (s.cycle, s.issue.ctx, s.issue.baddr) })

theorem State.close_failed {s : State} {f : SlotFault} (h : lowestFault s.issue.faults = some f) :
    s.close = s.failedIssue.takeTrap s.issue.core s.issue.ctx f.cause s.issue.baddr f.tval (faultMask s.issue.faults) := by
  unfold State.close
  rw [h]
  rfl

theorem State.TrapFrame.failedIssue (s : State) : s.TrapFrame s.failedIssue := by
  have held : s.TrapFrame (s.holdBody s.issue.core s.issue.ctx s.issue.baddr s.issue.words) := State.TrapFrame.updCtx s _ _ _ (fun _ => rfl)
  exact held.trans (State.TrapFrame.updCore _ _ _ rfl)

/-- Before its trap the context has changed its loop alone. -/
theorem State.ctxAt_failedIssue (s : State) : ∃ l, s.failedIssue.ctxAt s.issue.core s.issue.ctx = { s.ictx with loop := l } := by
  rw [State.failedIssue, State.ctxAt_updCore _ _ _ _ rfl, State.holdBody, State.ctxAt_updCtx]
  exact ⟨_, rfl⟩

/-- Settles O46: the end of the bundle is one trap, which leaves all that `State.TrapFrame` names. -/
theorem failedBundleHasNoEffect : Obligations.FailedBundleHasNoEffect := by
  intro s f hf hlow t z y
  have ht : t = _ := State.close_failed (lowestFault_eq hf hlow)
  have frame : s.TrapFrame t := by
    rw [ht]
    exact (State.TrapFrame.failedIssue s).trans (State.TrapFrame.takeTrap ..)
  refine ⟨frame.mem, frame.poison, fun c => ?team, fun hte htvec => ?trap⟩
  case team =>
    have team := frame.team c
    have ctx (k : Fin 4) : ((t.coreAt c).team.ctxs.get k).still = ((s.coreAt c).team.ctxs.get k).still := by
      have e (v : Vector Ctx 4) : (v.map Ctx.still).get k = (v.get k).still := Vector.getElem_map ..
      rw [← e, ← e]
      exact congrArg (fun u : Team => u.ctxs.get k) team
    intro a b
    simp only [Team.untrapped, Team.mk.injEq] at team
    obtain ⟨-, -, part, spad, acc, tileMaps, tileBusy, patA, patB, patActive, bars, pend, -, -, accRes, -, -, -, -, -, opq, -⟩ := team
    refine ⟨spad, acc, pend, bars, tileMaps, patActive, accRes, tileBusy, opq, patA, patB, fun k => ?_⟩
    have ck := ctx k
    simp only [Ctx.still, Ctx.mk.injEq, true_and] at ck
    obtain ⟨hs, tokPend, ha, hp, hv, maps, pins, -, tvec, -⟩ := ck
    exact ⟨hs, ha, hp, hv, maps, pins, tokPend, tvec⟩
  case trap =>
    obtain ⟨l, hl⟩ := s.ctxAt_failedIssue
    have entered : t = s.failedIssue.updCtx s.issue.core s.issue.ctx
        (fun x => x.trap s.cycle f.cause s.issue.baddr f.tval (faultMask s.issue.faults)) := by
      rw [ht]
      exact State.takeTrap_open (by rw [hl]; exact hte) (by rw [hl]; exact htvec) ..
    have hz : z = ({ y with loop := l } : Ctx).trap s.cycle f.cause s.issue.baddr f.tval (faultMask s.issue.faults) := by
      change t.ictx = _
      rw [entered]
      exact (State.ctxAt_updCtx ..).trans (by rw [hl])
    rw [hz]
    exact ⟨rfl, rfl, rfl, rfl, fun u _ => getLsbD_faultMask s.issue.faults u⟩

end Sys2Proof.Machine

/-! Debug requests that this device performs itself (R383 to R385, R387): the statement of O30. -/

namespace Sys2Proof.Machine

/-! ## A request is taken and performed here -/

/-- What a debug request runs: its own device's part unless the master forwards it (R383). -/
def debugRun (i : Instr) (op : Nat) (run : State → Packet → State × HostEnd) (s : State) (p : Packet) : State × HostEnd :=
  let fromMaster := match s.ev with | .master _ _ => true | _ => false
  if p.arg0.extractLsb' 24 40 != 0 then (s, .answer Answer.bad)
  else if !fromMaster && (debugAllDev p || debugDevice p != s.device.toNat) then s.debugForward i op p
  else run s p

/-- A command that is taken has changed at most what is captured (R387). -/
theorem State.taken_frame (s : State) (i : Instr) : ∃ x, s.taken i = { s with capture := x } := by
  unfold State.taken State.captureCmd
  split
  · split
    · exact ⟨_, rfl⟩
    · exact ⟨s.capture, rfl⟩
  · exact ⟨s.capture, rfl⟩

theorem State.taken_device (s : State) (i : Instr) : (s.taken i).device = s.device := by
  obtain ⟨x, h⟩ := s.taken_frame i
  rw [h]

theorem State.taken_cycle (s : State) (i : Instr) : (s.taken i).cycle = s.cycle := by
  obtain ⟨x, h⟩ := s.taken_frame i
  rw [h]

section
variable {s t : State} {i : Instr} {op : Nat} {run : State → Packet → State × HostEnd} {a : Answer}

/-- A request for this device is performed here. -/
theorem debugRun_here (hd : s.takesDebug) : debugRun i op run (s.taken i) s.pkt = run (s.taken i) s.pkt := by
  obtain ⟨h0, hfor⟩ := hd
  unfold debugRun
  simp only [h0, State.taken_ev, State.taken_device, bne_self_eq_false, Bool.false_eq_true, if_false]
  rcases hfor with ⟨ep, b, hev⟩ | ⟨hall, hdev⟩
  · rw [hev]
    rfl
  · rw [hall, hdev, bne_self_eq_false, Bool.or_self, Bool.and_false]
    rfl

/-- A request that answers. -/
theorem State.answers_debug (hx : exec i s = .next (s.debugCmd i op run)) (hop : (i.hostOp.getD 0).toNat = op) (hd : s.takesDebug)
    (hr : run (s.taken i) s.pkt = (t, .answer a)) : s.answers i op t a :=
  State.answers_of (run := debugRun i op run) hx hop ((debugRun_here hd).trans hr)

/-- A request that waits. -/
theorem State.debug_holds (hx : exec i s = .next (s.debugCmd i op run)) (hop : (i.hostOp.getD 0).toNat = op) (hd : s.takesDebug) (ht : s.takes i)
    (hr : run (s.taken i) s.pkt = (t, .hold)) :
    exec i s = .next { t with heldCmds := { instr := i, arg := againArg t.ev, pkt := some s.pkt } :: t.heldCmds } := by
  obtain ⟨hgood, htaken⟩ := ht
  have hcmd : s.debugCmd i op run = s.hostCmd i op (debugRun i op run) := rfl
  rw [hx, hcmd, State.hostCmd_taken hop htaken, hgood, (debugRun_here hd).trans hr]
  rfl

end

section
variable {s : State} {p : Packet} {m : Nat}

/-- A request whose ARG1 is in order and that has no payload. -/
theorem debugPlain_of {f : State → Packet → State × HostEnd} (h : p.arg1 &&& ~~~(BitVec.ofNat 64 m) = 0 ∧ p.payload = []) :
    debugPlain m f s p = f s p := by
  have ok : (onlyBits p.arg1 m && p.payload == []) = true := by
    rw [Bool.and_eq_true]
    exact ⟨beq_iff_eq.mpr h.1, beq_iff_eq.mpr h.2⟩
  exact if_pos ok

/-- The same on the cores that it names. -/
theorem debugOn_of {f : State → Packet → List (Fin 208) → State × HostEnd} {cs : List (Fin 208)} (hc : s.debugCores p = some cs)
    (h : p.arg1 &&& ~~~(BitVec.ofNat 64 m) = 0 ∧ p.payload = []) : debugOn m f s p = f s p cs := by
  refine (debugPlain_of h).trans ?_
  rw [hc]

end

/-! ## Changes of several cores -/

/-- A change that reads the cycle is one change for all the cores. -/
theorem State.foldl_updCore_cycle {s : State} {n : Nat} (h : s.cycle = n) (cs : List (Fin 208)) (f : Nat → Core → Core) :
    cs.foldl (fun s c => s.updCore c (f s.cycle)) s = cs.foldl (fun s c => s.updCore c (f n)) s := by
  have both := List.foldl_rel (l := cs) (r := fun u v : State => u = v ∧ v.cycle = n) (f := fun s c => s.updCore c (f s.cycle))
    (g := fun s c => s.updCore c (f n)) ⟨rfl, h⟩ (fun c _ u v ⟨huv, hv⟩ => ⟨by rw [huv, hv], hv⟩)
  exact both.1

/-- A halt that is asked for leaves the operands of the event as they are. -/
theorem State.askHaltOf_ev (s : State) (c : Fin 208) : (s.askHaltOf c).ev = s.ev :=
  List.foldlRecOn (motive := fun u : State => u.ev = s.ev) (s.haltSet c) _ rfl (fun _ h _ _ => h)

theorem State.askHalt_ev (s : State) (cs : List (Fin 208)) : (s.askHalt cs).ev = s.ev := by
  unfold State.askHalt
  refine List.foldlRecOn (motive := fun u : State => u.ev = s.ev) cs _ rfl (fun u h c _ => ?_)
  split
  · exact h
  · exact (u.askHaltOf_ev c).trans h

/-! ## The requests -/

section
variable {s : State} {cs : List (Fin 208)}

/-- The answer of a `DHALT` once every core that it names has stopped (R385). -/
theorem answers_dhalt (hd : s.takesDebug) (hc : (s.taken .dhalt).debugCores s.pkt = some cs)
    (hb : s.pkt.arg1 &&& ~~~(BitVec.ofNat 64 0) = 0 ∧ s.pkt.payload = []) (ha : isAgain s.ev = true)
    (hs : ∀ c ∈ cs, ((s.taken .dhalt).coreAt c).haltReq = false) :
    s.answers .dhalt 0x30 (s.taken .dhalt) (Answer.done ((s.taken .dhalt).lastStop cs)) := by
  refine State.answers_debug rfl rfl hd ((debugOn_of hc hb).trans ?_)
  have stopped : cs.any (fun c => ((s.taken .dhalt).coreAt c).haltReq) = false :=
    List.any_eq_false.mpr (fun c h => Bool.eq_false_iff.mp (hs c h))
  simp only [State.taken_ev, ha, stopped, if_true, Bool.false_eq_true, if_false]

/-- A `DHALT` with a core that runs asks the cores to stop, and waits. -/
theorem exec_dhalt (hd : s.takesDebug) (hc : (s.taken .dhalt).debugCores s.pkt = some cs)
    (hb : s.pkt.arg1 &&& ~~~(BitVec.ofNat 64 0) = 0 ∧ s.pkt.payload = []) (ha : isAgain s.ev = false)
    (hrun : ∃ c ∈ cs, ((s.taken .dhalt).coreAt c).halted = none) (ht : s.takes .dhalt) :
    exec .dhalt s = .next { (s.taken .dhalt).askHalt cs with
      heldCmds := { instr := .dhalt, arg := againArg s.ev, pkt := some s.pkt } :: ((s.taken .dhalt).askHalt cs).heldCmds } := by
  have hev : ((s.taken .dhalt).askHalt cs).ev = s.ev := (State.askHalt_ev ..).trans (State.taken_ev ..)
  rw [← hev]
  refine State.debug_holds rfl rfl hd ht ((debugOn_of hc hb).trans ?_)
  simp only [State.taken_ev, ha, Bool.false_eq_true, if_false]
  obtain ⟨c, hm, hn⟩ := hrun
  refine if_neg (fun h => ?_)
  have halted := List.all_eq_true.mp (Bool.and_eq_true_iff.mp h).1 c hm
  rw [hn] at halted
  exact Bool.false_ne_true halted

/-- `DREAD` of a halted core (R384). -/
theorem answers_dread {c : Fin 208} {l : List Byte} (hd : s.takesDebug) (hc : (s.taken .dread).debugCores s.pkt = some [c])
    (hb : s.pkt.arg1 &&& ~~~(BitVec.ofNat 64 (2 ^ 42 - 1)) = 0 ∧ s.pkt.payload = []) (hone : debugAllCore s.pkt = false)
    (hn : (s.pkt.arg1.extractLsb' 24 12).toNat ≠ 0) (hm : (s.pkt.arg1.extractLsb' 24 12).toNat ≤ 4064)
    (hh : ((s.taken .dread).coreAt c).halted.isSome)
    (hl : (s.taken .dread).debugBytes c (s.pkt.arg1.extractLsb' 36 4).toNat
      ⟨(s.pkt.arg1.extractLsb' 40 2).toNat % 4, Nat.mod_lt _ (by decide)⟩ (s.pkt.arg1.extractLsb' 0 24).toNat (s.pkt.arg1.extractLsb' 24 12).toNat
        = some l) :
    s.answers .dread 0x32 (s.taken .dread) { status := 0, value := BitVec.ofNat 64 l.length, data := l } := by
  refine State.answers_debug rfl rfl hd ((debugOn_of hc hb).trans ?_)
  have hrun : ((s.taken .dread).coreAt c).halted.isNone = false := Option.isNone_eq_false_iff.mpr hh
  simp only [hone, decide_eq_false hn, decide_eq_false (Nat.not_lt.mpr hm), hrun, hl, Bool.or_self, Bool.false_eq_true, if_false]

/-- `DBRK` sets or clears one breakpoint of every core that it names (R384). -/
theorem answers_dbrk (hd : s.takesDebug) (hc : (s.taken .dbrk).debugCores s.pkt = some cs)
    (hb : s.pkt.arg1 &&& ~~~(BitVec.ofNat 64 (2 ^ 63 + 2 ^ 58 - 1)) = 0 ∧ s.pkt.payload = []) :
    s.answers .dbrk 0x33 (cs.foldl (fun u c => u.updCore c (fun y => { y with
      brks := y.brks.set (s.pkt.arg1.extractLsb' 56 2).toNat
        (if s.pkt.arg1.getLsbD 63 then some (s.pkt.arg1.extractLsb' 0 56) else none) (s.pkt.arg1.extractLsb' 56 2).isLt })) (s.taken .dbrk))
      (Answer.done 0) := by
  have slot (y : Core) (x : Option (BitVec 56)) : setAt y.brks (s.pkt.arg1.extractLsb' 56 2).toNat (fun _ => x)
      = y.brks.set (s.pkt.arg1.extractLsb' 56 2).toNat x (s.pkt.arg1.extractLsb' 56 2).isLt := dif_pos (s.pkt.arg1.extractLsb' 56 2).isLt
  refine State.answers_debug rfl rfl hd ((debugOn_of hc hb).trans ?_)
  simp only [slot]

/-- `DPROF` with a period that is 0 or long enough (R386). -/
theorem answers_dprof (hd : s.takesDebug) (hc : (s.taken .dprof).debugCores s.pkt = some cs)
    (hb : s.pkt.arg1 &&& ~~~(BitVec.ofNat 64 (2 ^ 33 - 1)) = 0 ∧ s.pkt.payload = [])
    (hn : (s.pkt.arg1.extractLsb' 0 32).toNat = 0 ∨ 1024 ≤ (s.pkt.arg1.extractLsb' 0 32).toNat) :
    s.answers .dprof 0x34 (cs.foldl (fun u c => u.updCore c (fun y => { y with
      samplePeriod := (s.pkt.arg1.extractLsb' 0 32).toNat, sampleBase := s.cycle, loopProf := s.pkt.arg1.getLsbD 32 })) (s.taken .dprof))
      (Answer.done 0) := by
  refine State.answers_debug rfl rfl hd ((debugOn_of hc hb).trans ?_)
  have long : ¬ ((s.pkt.arg1.extractLsb' 0 32).toNat != 0 && decide ((s.pkt.arg1.extractLsb' 0 32).toNat < 1024)) = true := by
    rw [Bool.and_eq_true, bne_iff_ne, decide_eq_true_eq]
    omega
  refine (if_neg long).trans ?_
  exact congrArg (·, HostEnd.answer (Answer.done 0)) (State.foldl_updCore_cycle (s.taken_cycle .dprof) cs (fun n y => { y with
    samplePeriod := (s.pkt.arg1.extractLsb' 0 32).toNat, sampleBase := n, loopProf := s.pkt.arg1.getLsbD 32 }))

/-- `DMASTER` unless another device is master. -/
theorem answers_dmaster (hd : s.takesDebug) (hb : s.pkt.arg1 &&& ~~~(BitVec.ofNat 64 1) = 0 ∧ s.pkt.payload = [])
    (hfree : ¬ (s.pkt.arg1.getLsbD 0 = true ∧ (s.taken .dmaster).otherMaster = true)) :
    s.answers .dmaster 0x35 { (if s.pkt.arg1.getLsbD 0 = false ∧ (s.taken .dmaster).master = false then s.taken .dmaster
      else (s.taken .dmaster).domain.foldl (fun u m => if m.1 = u.device.toNat then u
        else u.send (.fabric m.2.toNat none (.masterDeclared (s.pkt.arg1.getLsbD 0)))) (s.taken .dmaster)) with
      master := s.pkt.arg1.getLsbD 0 } (Answer.done 0) := by
  refine State.answers_debug rfl rfl hd ((debugPlain_of hb).trans ?_)
  have free : ¬ (s.pkt.arg1.getLsbD 0 && (s.taken .dmaster).otherMaster) = true := by rwa [Bool.and_eq_true]
  refine (if_neg free).trans ?_
  simp only [Bool.and_eq_true, Bool.not_eq_true']

/-- `FRAMEREL` of a frame that is kept (R297). -/
theorem answers_framerel (hd : s.takesDebug) (hb : s.pkt.arg1 &&& ~~~(BitVec.ofNat 64 addrBits) = 0 ∧ s.pkt.payload = [])
    (hkept : (s.taken .framerel).tasks.any (fun t => t.state == .kept && t.tcba == s.pkt.arg1.extractLsb' 0 56) = true) :
    s.answers .framerel 0x38 { s.taken .framerel with
      tasks := (s.taken .framerel).tasks.filter (fun t => !(t.state == .kept && t.tcba == s.pkt.arg1.extractLsb' 0 56)) } (Answer.done 0) :=
  State.answers_debug rfl rfl hd ((debugPlain_of hb).trans (if_pos hkept))

end

/-! ## Capture and replay (R387) -/

/-- Nothing is wrong with the fields of the request. -/
theorem captureFields_ok {s : State} (h3 : s.pkt.arg1 &&& ~~~3 = 0) (hl : s.pkt.payload.length % 16 = 0) (hn : s.pkt.payload.length ≤ 256) :
    ¬ (!onlyBits s.pkt.arg1 3 || s.pkt.payload.length % 16 != 0 || decide (256 < s.pkt.payload.length)) = true := by
  have only : onlyBits s.pkt.arg1 3 = true := beq_iff_eq.mpr h3
  rw [only, hl, decide_eq_false (Nat.not_lt.mpr hn)]
  decide

section
variable {s : State} (hd : s.takesDebug) (h3 : s.pkt.arg1 &&& ~~~3 = 0) (hl : s.pkt.payload.length % 16 = 0) (hn : s.pkt.payload.length ≤ 256)
include hd h3 hl hn

theorem answers_capture_off (h0 : s.pkt.arg1.getLsbD 0 = false) :
    s.answers .capture 0x37 { s.taken .capture with capture := { (s.taken .capture).capture with on := false } } (Answer.done 0) := by
  refine State.answers_debug rfl rfl hd ((if_neg (captureFields_ok h3 hl hn)).trans (if_pos ?_))
  rw [h0]
  rfl

/-- With no task alive, recorded commands are played again from the first, on the bytes of the ranges as they were. -/
theorem answers_capture_replay (hb : s.pkt.arg1 = 3) (ha : (s.taken .capture).tasks.any Task.alive = false) :
    s.answers .capture 0x37 (State.captureRestore { s.taken .capture with capture := { (s.taken .capture).capture with
        on := true, replay := true, paused := false, next := 0, used := [], packets := withoutLast (s.taken .capture).capture.packets 0x37 s.pkt } }
      captureArea (s.taken .capture).capture.ranges) (Answer.done captureArea) := by
  refine State.answers_debug rfl rfl hd ((if_neg (captureFields_ok h3 hl hn)).trans ?_)
  refine (if_neg ?on).trans ((if_neg (Bool.eq_false_iff.mp ha)).trans (if_pos ?replay))
  case on => rw [hb]; decide
  case replay => rw [hb]; decide

/-- With no task alive, the bytes of the ranges are kept, and recording begins. -/
theorem answers_capture_record {t : State} {bs : List Byte} (hb : s.pkt.arg1 = 1) (ha : (s.taken .capture).tasks.any Task.alive = false)
    (hr : (s.taken .capture).captureRead (captureRanges s.pkt.payload) = (t, some bs)) :
    s.answers .capture 0x37 { t.pwrite captureArea bs with
      capture := { Capture.reset with on := true, ranges := captureRanges s.pkt.payload, packets := t.waitingPackets } }
      (Answer.done captureArea) := by
  refine State.answers_debug rfl rfl hd ((if_neg (captureFields_ok h3 hl hn)).trans ?_)
  refine (if_neg ?on).trans ((if_neg (Bool.eq_false_iff.mp ha)).trans ((if_neg ?replay).trans ?_))
  case on => rw [hb]; decide
  case replay => rw [hb]; decide
  rw [hr]

/-- A range that does not translate ends it. -/
theorem answers_capture_unmapped {t : State} (hb : s.pkt.arg1 = 1) (ha : (s.taken .capture).tasks.any Task.alive = false)
    (hr : (s.taken .capture).captureRead (captureRanges s.pkt.payload) = (t, none)) :
    s.answers .capture 0x37 t (Answer.fail 0x13) := by
  refine State.answers_debug rfl rfl hd ((if_neg (captureFields_ok h3 hl hn)).trans ?_)
  refine (if_neg ?on).trans ((if_neg (Bool.eq_false_iff.mp ha)).trans ((if_neg ?replay).trans ?_))
  case on => rw [hb]; decide
  case replay => rw [hb]; decide
  rw [hr]

end

/-! ## The statement -/

/-- Settles O30: each request is performed here (`debugRun_here`), on the cores that it names. -/
theorem debugRequestResults : Obligations.DebugRequestResults := by
  intro s cs p b only named does each
  refine ⟨fun hd hc hb => ⟨fun ha hs => ?halted, fun ha hrun ht => ?halt⟩, fun hd ⟨hc, hb⟩ => ?resume, fun c l => ?read, fun hd ⟨hc, hb⟩ => ?brk,
    fun hd ⟨hc, hb, hn⟩ => ?prof, fun hd ⟨hb, hfree⟩ => ?master, fun hd hb => ?ring, fun h3 hl hn => ?capture, fun hd ⟨hb, hkept⟩ => ?framerel⟩
  case halted => exact answers_dhalt hd hc hb ha hs
  case halt => exact exec_dhalt hd hc hb ha hrun ht
  case resume =>
    have cycles := State.foldl_updCore_cycle (s.taken_cycle .dresume) cs (fun n y => y.resume n)
    exact State.answers_debug rfl rfl hd ((debugOn_of hc hb).trans (congrArg (·, HostEnd.answer (Answer.done 0)) cycles))
  case read =>
    rintro n k hd ⟨hc, rfl, hb, hone, hn, hm, hh, hl⟩
    have hk : k = ⟨(b.extractLsb' 40 2).toNat % 4, Nat.mod_lt _ (by decide)⟩ := Fin.ext (Nat.mod_eq_of_lt (b.extractLsb' 40 2).isLt).symm
    exact answers_dread hd hc hb hone hn hm hh (hk ▸ hl)
  case brk => exact answers_dbrk hd hc hb
  case prof => exact answers_dprof hd hc hb hn
  case master => exact answers_dmaster hd hb hfree
  case ring => exact State.answers_debug rfl rfl hd (debugPlain_of hb)
  case capture =>
    refine ⟨fun h0 hd _ => ?off, fun hb ha hd _ => ?replay, fun t bs hb ha hr hd _ => ?record, fun t hb ha hr hd _ => ?unmapped⟩
    case off => exact answers_capture_off hd h3 hl hn h0
    case replay => exact answers_capture_replay hd h3 hl hn hb ha
    case record => exact answers_capture_record hd h3 hl hn hb ha hr
    case unmapped => exact answers_capture_unmapped hd h3 hl hn hb ha hr
  case framerel => exact answers_framerel hd hb hkept

end Sys2Proof.Machine

/-! Power, boot and watchdog events (R354, R388 to R394, R398 to R400): the statement of O34. -/

namespace Sys2Proof.Machine

section
variable {s : State}

/-! ## Power (R388, R399) -/

/-- A device that has lost its power is one at reset, but for what lies outside it; only power coming back is still to happen. -/
theorem powerLost_dark (s : State) :
    s.powerLost.powered = false ∧ s.powerLost.stage = 0 ∧ s.powerLost.mem = [] ∧ s.powerLost.tasks = [] ∧ s.powerLost.gstep = 0
      ∧ s.powerLost.agenda = [] ∧ s.powerLost.cycle = s.cycle ∧ s.powerLost.device = s.device
      ∧ (∀ c : Fin 208, s.powerLost.coreAt c = Core.reset) ∧ ∀ f ∈ s.powerLost.future, f.2.instr = .powerOn :=
  ⟨rfl, rfl, rfl, rfl, rfl, rfl, rfl, rfl, State.reset_coreAt, fun _ hf => beq_iff_eq.mp (List.mem_filter.mp hf).2⟩

/-- Power comes back to a device without it (R388). -/
theorem exec_powerOn (h : s.stage = 0) : ∃ t, exec .powerOn s = .next t ∧ t.cycle = 0 ∧ t.stage = 2 ∧ t.powered = true ∧ t.mem = [] ∧ t.tasks = [] :=
  ⟨_, congrArg Host.Outcome.next (if_neg (not_not_intro h)), rfl, rfl, rfl, rfl, rfl⟩

theorem exec_powerOn_again (h : s.stage ≠ 0) : exec .powerOn s = .next s := congrArg Host.Outcome.next (if_pos h)

/-- The power controller holds above 1.8 kW, and no longer below 1.75 kW (R398). -/
theorem exec_powerHold {n : Nat} (he : s.ev = .milliWatt n) :
    exec .powerHold s = .next { s with holding := if 1800000 < n then true else if n < 1750000 then false else s.holding } := by
  change execPowerHold s = _
  unfold execPowerHold
  rw [he]

/-- A watchdog that firmware has not refreshed resets its control core (R354). -/
theorem exec_watchdogExpire {g : Fin 8} (he : s.ev = .group g) (hd : s.watchdogDue g = true) :
    exec .watchdogExpire s = .next (s.resetControl g) := by
  change execWatchdogExpire s = _
  unfold execWatchdogExpire
  simp only [he, hd, if_true]

/-! ## The fetch of an image (R391) -/

theorem exec_bootRetry (hs : s.stage = 2) (hw : s.imageFetch = .waiting) : exec .bootRetry s = .next s.fetchImage := by
  refine congrArg Host.Outcome.next ((if_neg (not_not_intro hw)).trans (if_pos ?_))
  rw [hs]
  rfl

theorem exec_bootRetry_idle (hw : s.imageFetch ≠ .waiting) : exec .bootRetry s = .next s := congrArg Host.Outcome.next (if_pos hw)

/-- At boot an image that is not accepted, or does not load, is fetched again after a second. -/
theorem exec_firmwareAccept_fails {b : List Byte} (he : s.ev = .image b) (hs : s.stage = 2)
    (h : imageAccepted b = false ∨ imageLoaded b = none) :
    exec .firmwareAccept s = .next ({ s with imageFetch := .waiting }.later 940000000 (event .bootRetry .none)) := by
  have nothing : (if imageAccepted b then imageLoaded b else none) = none := by
    rcases h with h | h
    · rw [h]
      rfl
    · rw [h, ite_self]
  change execFirmwareAccept s = _
  unfold execFirmwareAccept
  simp only [he, hs, nothing, decide_true, Bool.true_or, Bool.not_true, Bool.false_eq_true, if_false]
  rfl

/-! ## Firmware starts (R388, R400) -/

/-- Firmware that starts changes its core and its group. -/
theorem keeps_startFirmware (s : State) (g : Fin 8) : Keeps s (s.startFirmware g) :=
  (keeps_updCore _ _ _ (fun _ _ => Memory.wf_nil)).trans (keeps_updGroup ..)

/-- The control cores of all groups start, with the initial CMAP of each (R396). -/
def State.startAll (s : State) : State :=
  (List.finRange 8).foldl (fun s g => (s.startFirmware g).updGroup g (fun x => { x with cmap := s.bootCmap g })) s

theorem keeps_startAll (s : State) : Keeps s s.startAll :=
  Keeps.foldl _ (fun s g => (keeps_startFirmware s g).trans (keeps_updGroup ..)) _ s

/-- Messages to the host change nothing inside the device. -/
theorem keeps_tellAll (s : State) (kind : Byte) (x y z : Word) : Keeps s (s.tellAll kind x y z) :=
  Keeps.foldl _ (fun u i => show Keeps u (u.send (.message (BitVec.ofNat 3 i) kind x y z)) from keeps_cores rfl rfl) _ s

/-- A device that has booted with an image and its body (R388, R390, log 171). -/
structure State.Booted (t : State) (b body : List Byte) : Prop where
  stage : t.stage = 6
  streams : t.streams = imageStreams b
  poison : t.poison = []
  mem : t.mem = memWrite State.reset.romMap.mem Config.firmwarePhys body

/-- It is booted still when the host has been told. -/
theorem State.Booted.tellAll {t : State} {b body : List Byte} (h : t.Booted b body) (kind : Byte) (x y z : Word) :
    (t.tellAll kind x y z).Booted b body := by
  obtain ⟨told, -⟩ := keeps_tellAll t kind x y z
  exact ⟨(congrArg Outer.stage told).trans h.stage, (congrArg Outer.streams told).trans h.streams, (congrArg Outer.poison told).trans h.poison,
    (congrArg Outer.mem told).trans h.mem⟩

/-- Firmware that starts on an image's body, with the image's streams. -/
theorem State.Booted.of_started {t : State} {b body : List Byte} (hp : t.poison = [])
    (hm : t.mem = memWrite State.reset.romMap.mem Config.firmwarePhys body) :
    State.Booted { t.startAll with streams := imageStreams b, stage := 6 } b body := by
  obtain ⟨started, -⟩ := keeps_startAll t
  exact ⟨rfl, rfl, (congrArg Outer.poison started).trans hp, (congrArg Outer.mem started).trans hm⟩

/-- At boot an image that is accepted and loads is placed, its firmware starts, and the host is told. -/
theorem exec_firmwareAccept {b body : List Byte} (he : s.ev = .image b) (hs : s.stage = 2) (ha : imageAccepted b = true)
    (hl : imageLoaded b = some body) : ∃ t, exec .firmwareAccept s = .next t ∧ t.Booted b body := by
  have valid (l : List (Fin 8)) : ¬ (!(decide (s.stage = 2) || decide (s.stage = 6) && l != [])) = true := by
    rw [decide_eq_true hs]
    exact Bool.false_ne_true
  have loads : (if imageAccepted b then imageLoaded b else none) = some body := (if_pos ha).trans hl
  change ∃ t, execFirmwareAccept s = _ ∧ _
  unfold execFirmwareAccept
  rw [he]
  refine ⟨_, rfl, ?_⟩
  dsimp -zeta only
  extract_lets down fetched
  rw [if_neg (valid down), loads]
  dsimp -zeta only
  rw [if_pos (show fetched.stage = 2 from hs)]
  extract_lets placed started opened
  have booted : opened.Booted b body := .of_started (State.pwrite_poison_nil rfl) (State.pwrite_mem ..)
  clear_value opened
  exact booted.tellAll ..

end

/-! ## The statement -/

/-- Settles O34, event by event; an accepted image's firmware by what its start keeps (`keeps_startAll`, `keeps_tellAll`). -/
theorem powerEventResults : Obligations.PowerEventResults := by
  intro s dark
  refine ⟨⟨_, rfl, powerLost_dark s⟩, ⟨_, rfl, powerLost_dark s⟩, exec_powerOn, exec_powerOn_again, fun b body he hs ha hl => ?accepted,
    fun b he hs h => exec_firmwareAccept_fails he hs h, exec_bootRetry, exec_bootRetry_idle, fun n he => ?hold,
    fun g he hd => exec_watchdogExpire he hd⟩
  case accepted =>
    obtain ⟨t, hx, stage, streams, poison, mem⟩ := exec_firmwareAccept he hs ha hl
    exact ⟨t, hx, stage, streams, poison, mem⟩
  case hold =>
    refine ⟨_, exec_powerHold he, rfl, fun above => if_pos above, fun below => ?_, fun low high => ?_⟩
    · exact (if_neg (by omega)).trans (if_pos below)
    · exact (if_neg (by omega)).trans (if_neg (by omega))

end Sys2Proof.Machine
